-- ==== Sys2Proof/Word.lean ====
section
/-! DEFINITION. The word types of the DX8 and their plainest arithmetic (R3: every multi-byte structure is
little-endian). Nothing here can be mended later, so only names and lossless conversions stand here. -/

namespace Sys2Proof

/-- One byte of storage. -/
abbrev Byte := BitVec 8
/-- A halfword: the unit of the instruction stream (R167). -/
abbrev Half := BitVec 16
/-- A lane value, or a 32-bit word (R189). -/
abbrev W32 := BitVec 32
/-- A uniform register value, an address or a handle (R189). -/
abbrev W64 := BitVec 64
/-- The FX128 integer X (R139). -/
abbrev W128 := BitVec 128

end Sys2Proof
end

