-- ==== Sys2Proof/Syntax.lean ====
section
/-! DEFINITION. The instruction set as syntax: one constructor of Instr per row of spec/opcode_table.json, the 250 forms of the
map of R183, the compact forms of R185, the three forms that WIDE.DEEP selects (R176), and the steps of the agents that run
beside the thread groups (95_what_each_step_holds.md), each whole and indivisible. Operand files follow R192, R201, R212,
R232, R235, R241, R247 and R284. -/

namespace Sys2Proof

/-- A uniform register s0 to s63 (R148, R172). -/
abbrev UReg := Fin 64
/-- A vector register v0 to v255 (R172: 64 times the high bits plus the field). -/
abbrev VReg := Fin 256
/-- A lane predicate p0 to p7. -/
abbrev PReg := Fin 8
/-- A uniform or condition predicate k0 to k15. -/
abbrev KReg := Fin 16
/-- A ring handle h0 to h15. -/
abbrev HReg := Fin 16
/-- A token t0 to t7. -/
abbrev TReg := Fin 8
/-- An accumulator a0 or a1. -/
abbrev AReg := Fin 2
/-- A register field of a compact instruction, 0 to 15 (R185). -/
abbrev CReg := Fin 16
/-- The guard field G: 0 is no guard (R173). -/
abbrev Guard := Fin 8
/-- A system-register number (R184, R315). -/
abbrev SysReg := Fin 64

/-- The rounding modes of WIDE.RND (R176). -/
inductive Rnd where
  | rne | rz | rup | rdn
deriving DecidableEq, Repr

/-- Scope codes (R6); dflt is the instruction's default (code 7, or no WIDE prefix). -/
inductive Scope where
  | tg | task | core | cluster | die | device | system | dflt
deriving DecidableEq, Repr

/-- The B operand of a lane instruction: a vector register, or with BSCAL a uniform register (R208). -/
inductive VSrc where
  | v (r : VReg)
  | s (r : UReg)
deriving DecidableEq, Repr

/-- The K operand: a literal of an IMM prefix (PAYLOAD24 above K8), or a constant-window entry (R174). -/
inductive KOp where
  | imm (n : W32)
  | cw (n : Byte)
deriving DecidableEq, Repr

/-- The M offset in units of the access size: OFF8, or with an IMM prefix 32 bits (R150, R174). -/
inductive MOff where
  | short (n : Byte)
  | long (n : W32)
deriving DecidableEq, Repr

/-- A cluster by die and number (R9, R20). -/
structure ClId where
  die : Nat
  cl : Nat
deriving DecidableEq, Repr

/-- A core by die, cluster and number (R22). -/
structure CoreId where
  die : Nat
  cl : Nat
  core : Nat
deriving DecidableEq, Repr

/-- The cluster of a core. -/
def CoreId.cluster (c : CoreId) : ClId := ⟨c.die, c.cl⟩

/-- A thread-group slot of a core: 0 to 15, and 16 for the core's handler thread group (R67, R309). -/
structure TgRef where
  core : CoreId
  slot : Nat
deriving DecidableEq, Repr

/-- A queue of packets: hardware queue slot n (R373), or a copy queue kicked at a cluster's copy engine (R272, R274). -/
inductive QRef where
  | slot (n : Nat)
  | cq (c : ClId) (asid : Half) (hdr : W64)
deriving DecidableEq, Repr

/-- A host access over the Gorum link: to device memory (R365), to the host mailbox page (R413) or to the doorbell page (R369), the
pages by offset. -/
inductive HostAcc where
  | load (asid : Half) (va : W64) (size : Nat)
  | store (asid : Half) (va : W64) (data : List Byte)
  | pageLoad (off size : Nat)
  | pageStore (off : Nat) (data : List Byte)
  | doorLoad (off size : Nat)
  | doorStore (off : Nat) (data : List Byte)
  /-- The host creates a context: the first since the package's reset chooses the partition mode (0 WHOLE, 1 HALF, 2 DIE), of which this
  device becomes the part with a number and an identifier (R17, R20, R445). -/
  | create (mode : Fin 3) (part devid : Nat)
deriving DecidableEq, Repr

/-- An access that a peer device sends to this device's exported memory (R402). -/
inductive PeerAcc where
  | load (pa : Nat) (size : Nat)
  | store (pa : Nat) (data : List Byte)
  | atom (pa : Nat) (minor : Nat) (data : List Byte)
deriving DecidableEq, Repr

/-- What a peer answers to an access of this device: the bytes, or a refusal (R402). -/
inductive PeerRes where
  | done (data : List Byte)
  | refused
deriving DecidableEq, Repr

/-- A future action that travels to another die or device (R66). -/
inductive FutOp where
  | touch | touchc | poll | resolve | ffault | cancel | release
  /-- A thread group takes its waiter record back (R67). -/
  | leave
deriving DecidableEq, Repr

/-- A remote future action that arrives at its entry (R66): a request of this device by its identifier, or one that a thread group of
another device sends, with its operand and effective class. -/
inductive FutReq where
  | own (id : Nat)
  | far (dev : Nat) (t : TgRef) (op : FutOp) (h v : W64) (vp : Bool) (eff : Fin 4)
deriving DecidableEq, Repr

/-- Which mailbox a management command came through: the device's own (R412) or the host mailbox page (R413). -/
inductive MbBox where
  | device
  | host
deriving DecidableEq, Repr

/-- What a scrub finds in one code word (R425, R426). -/
inductive EccFinding where
  | clean | corrected | uncorrectable
deriving DecidableEq, Repr

/-- A 32-bit word of a core's arrays (R425): of a register file or predicate of a thread group, of a local store by its window address,
or of an accumulator element of a core's tile 0 or 1. -/
inductive CoreWord where
  | v (t : TgRef) (r : VReg) (lane : Fin 32)
  | s (t : TgRef) (r : UReg)
  | p (t : TgRef) (r : PReg)
  | k (t : TgRef) (r : KReg)
  | local_ (addr : Nat)
  | acc (c : CoreId) (tile : Fin 2) (elem : Nat)
deriving DecidableEq, Repr

/-- Where a code word with an error lies (R425): a block of a slice by its tag, a word of a scratchpad by its window address, a word of
a core's arrays, a table of a cluster, an entry of a cluster's descriptor cache, a first-level cache, or a block of HBM data that a
checkpoint image of the keep tier holds. -/
inductive FoundIn where
  | slice (asid : Half) (va : Nat)
  | spad (addr : Nat)
  | core (w : CoreWord)
  | table (cl : Nat)
  | dcache (cl : Nat) (asid : Half) (va : W64)
  | firstLevel
  | keep (image : Nat) (pa : Nat)
deriving DecidableEq, Repr

/-- One finding in the arrays of a die, by the sweep or by an access (R426, R432). -/
structure ArrayFinding where
  place : FoundIn
  what : EccFinding
deriving DecidableEq, Repr

/-- The sensor readings of one package die in a telemetry record (R442). -/
structure TelemetrySample where
  temp : Half
  powerMw : W32
  clockMhz : Half
deriving DecidableEq, Repr

/-- A link by class (0 die-to-die, 1 Gorum, 2 port) and index (R9, R440). -/
structure LinkRef where
  cls : Nat
  idx : Nat
deriving DecidableEq, Repr

/-- A register or memory access of the invasive debugger (R419). -/
inductive JtagAcc where
  | readS (t : TgRef) (r : UReg)
  | writeS (t : TgRef) (r : UReg) (v : W64)
  | readV (t : TgRef) (r : VReg) (lane : Fin 32)
  | writeV (t : TgRef) (r : VReg) (lane : Fin 32) (v : W32)
  | readPc (t : TgRef)
  | writePc (t : TgRef) (v : W64)
  | readP (t : TgRef) (r : PReg)
  | writeP (t : TgRef) (r : PReg) (v : W32)
  | readK (t : TgRef)
  | writeK (t : TgRef) (v : Byte)
  | readSys (t : TgRef) (n : SysReg)
  | writeSys (t : TgRef) (n : SysReg) (v : W64)
  | readX (t : TgRef)
  | writeX (t : TgRef) (v : W32)
  | readH (t : TgRef) (r : HReg)
  | writeH (t : TgRef) (r : HReg) (v : W64)
  | readTok (t : TgRef) (n : Fin 8)
  | writeTok (t : TgRef) (n : Fin 8) (v : Fin 16)
  /-- The poison bits of a vector register's lanes, of the uniform registers, of a predicate and of the condition registers. -/
  | readVPoison (t : TgRef) (r : VReg)
  | writeVPoison (t : TgRef) (r : VReg) (v : W32)
  | readSPoison (t : TgRef)
  | writeSPoison (t : TgRef) (v : W64)
  | readPPoison (t : TgRef) (r : PReg)
  | writePPoison (t : TgRef) (r : PReg) (v : W32)
  | readKPoison (t : TgRef)
  | writeKPoison (t : TgRef) (v : Byte)
  | readMem (addr : Nat) (size : Nat)
  | writeMem (addr : Nat) (data : List Byte)
  /-- The buffer of TRACE: its address and its bytes; none with no bytes (R420). -/
  | traceBuf (addr size : Nat)
  | brkHalt (on : Bool)
deriving DecidableEq, Repr

/-- The instructions and the agents' steps: one constructor per row of the opcode table. -/
inductive Instr where
  -- major 0 SALU-R: uniform arithmetic (R192, R193)
  | sadd (g : Guard) (d a b : UReg)
  | ssub (g : Guard) (d a b : UReg)
  | smul (g : Guard) (d a b : UReg)
  | smulh (g : Guard) (d a b : UReg)
  | smulhu (g : Guard) (d a b : UReg)
  | sdiv (g : Guard) (d a b : UReg)
  | sdivu (g : Guard) (d a b : UReg)
  | srem (g : Guard) (d a b : UReg)
  | sand (g : Guard) (d a b : UReg)
  | sor (g : Guard) (d a b : UReg)
  | sxor (g : Guard) (d a b : UReg)
  | sshl (g : Guard) (d a b : UReg)
  | sshr (g : Guard) (d a b : UReg)
  | ssar (g : Guard) (d a b : UReg)
  | smin (g : Guard) (d a b : UReg)
  | smax (g : Guard) (d a b : UReg)
  -- major 1 SALU-K (R192, R193)
  | smovk (g : Guard) (d : UReg) (k : KOp)
  | saddk (g : Guard) (d a : UReg) (k : KOp)
  | sandk (g : Guard) (d a : UReg) (k : KOp)
  | sshlk (g : Guard) (d a : UReg) (k : KOp)
  -- major 2 SALU-X (R194)
  | smov (g : Guard) (d a : UReg)
  | snot (g : Guard) (d a : UReg)
  | sneg (g : Guard) (d a : UReg)
  | sabs (g : Guard) (d a : UReg)
  | sclz (g : Guard) (d a : UReg)
  | spopc (g : Guard) (d a : UReg)
  | ssx32 (g : Guard) (d a : UReg)
  | szx32 (g : Guard) (d a : UReg)
  | sbrev (g : Guard) (d a : UReg)
  -- major 3 SCMP (R195)
  | scmpeq (g : Guard) (d : KReg) (a b : UReg)
  | scmpne (g : Guard) (d : KReg) (a b : UReg)
  | scmplt (g : Guard) (d : KReg) (a b : UReg)
  | scmple (g : Guard) (d : KReg) (a b : UReg)
  | scmpltu (g : Guard) (d : KReg) (a b : UReg)
  | scmpleu (g : Guard) (d : KReg) (a b : UReg)
  | kand (g : Guard) (d a b : KReg)
  | kor (g : Guard) (d a b : KReg)
  | kxor (g : Guard) (d a b : KReg)
  | kandn (g : Guard) (d a b : KReg)
  -- major 4 VINT-R (R212, R213)
  | vadd (g : Guard) (d a : VReg) (b : VSrc) (sat : Bool)
  | vsub (g : Guard) (d a : VReg) (b : VSrc) (sat : Bool)
  | vmul (g : Guard) (d a : VReg) (b : VSrc)
  | vmulh (g : Guard) (d a : VReg) (b : VSrc)
  | vmulhu (g : Guard) (d a : VReg) (b : VSrc)
  | vmad (g : Guard) (d a : VReg) (b : VSrc)
  | vand (g : Guard) (d a : VReg) (b : VSrc)
  | vor (g : Guard) (d a : VReg) (b : VSrc)
  | vxor (g : Guard) (d a : VReg) (b : VSrc)
  | vshl (g : Guard) (d a : VReg) (b : VSrc)
  | vshr (g : Guard) (d a : VReg) (b : VSrc)
  | vsar (g : Guard) (d a : VReg) (b : VSrc)
  | vmin (g : Guard) (d a : VReg) (b : VSrc)
  | vmax (g : Guard) (d a : VReg) (b : VSrc)
  | vminu (g : Guard) (d a : VReg) (b : VSrc)
  | vmaxu (g : Guard) (d a : VReg) (b : VSrc)
  -- major 5 VINT-K (R212, R213)
  | vmovk (g : Guard) (d : VReg) (k : KOp)
  | vaddk (g : Guard) (d a : VReg) (k : KOp) (sat : Bool)
  | vandk (g : Guard) (d a : VReg) (k : KOp)
  | vshlk (g : Guard) (d a : VReg) (k : KOp)
  -- major 6 VF32-R (R214, R215)
  | vfadd (g : Guard) (d a : VReg) (b : VSrc) (r : Rnd)
  | vfsub (g : Guard) (d a : VReg) (b : VSrc) (r : Rnd)
  | vfmul (g : Guard) (d a : VReg) (b : VSrc) (r : Rnd)
  | vfma (g : Guard) (d a : VReg) (b : VSrc) (r : Rnd)
  | vfms (g : Guard) (d a : VReg) (b : VSrc) (r : Rnd)
  | vfnma (g : Guard) (d a : VReg) (b : VSrc) (r : Rnd)
  | vfmin (g : Guard) (d a : VReg) (b : VSrc)
  | vfmax (g : Guard) (d a : VReg) (b : VSrc)
  | vfdiv (g : Guard) (d a : VReg) (b : VSrc) (r : Rnd)
  | vfcpys (g : Guard) (d a : VReg) (b : VSrc)
  -- major 7 VF16-R (R216, R217)
  | vhaddf (g : Guard) (d a : VReg) (b : VSrc) (r : Rnd)
  | vhmulf (g : Guard) (d a : VReg) (b : VSrc) (r : Rnd)
  | vhfmaf (g : Guard) (d a : VReg) (b : VSrc) (r : Rnd)
  | vhminf (g : Guard) (d a : VReg) (b : VSrc)
  | vhmaxf (g : Guard) (d a : VReg) (b : VSrc)
  | vhaddb (g : Guard) (d a : VReg) (b : VSrc) (r : Rnd)
  | vhmulb (g : Guard) (d a : VReg) (b : VSrc) (r : Rnd)
  | vhfmab (g : Guard) (d a : VReg) (b : VSrc) (r : Rnd)
  | vhminb (g : Guard) (d a : VReg) (b : VSrc)
  | vhmaxb (g : Guard) (d a : VReg) (b : VSrc)
  | vdot2f (g : Guard) (d a : VReg) (b : VSrc) (r : Rnd)
  | vdot2b (g : Guard) (d a : VReg) (b : VSrc) (r : Rnd)
  | vdot4i (g : Guard) (d a : VReg) (b : VSrc) (sat : Bool)
  -- major 8 VFUN-X (R218, R219)
  | vfabs (g : Guard) (d a : VReg)
  | vfneg (g : Guard) (d a : VReg)
  | vfsqrt (g : Guard) (d a : VReg) (r : Rnd)
  | vfrsq (g : Guard) (d a : VReg)
  | vfrcp (g : Guard) (d a : VReg)
  | vfexp2 (g : Guard) (d a : VReg)
  | vflog2 (g : Guard) (d a : VReg)
  | vffloor (g : Guard) (d a : VReg)
  | vfceil (g : Guard) (d a : VReg)
  | vfrint (g : Guard) (d a : VReg) (r : Rnd)
  | vftrunc (g : Guard) (d a : VReg)
  | vfclass (g : Guard) (d a : VReg)
  | vftanh (g : Guard) (d a : VReg)
  -- major 9 VCVT-R (R220 to R225)
  | vcvtfi (g : Guard) (d a : VReg) (r : Rnd)
  | vcvtif (g : Guard) (d a : VReg) (r : Rnd)
  | vcvtfu (g : Guard) (d a : VReg) (r : Rnd)
  | vcvtuf (g : Guard) (d a : VReg) (r : Rnd)
  | vcvtfh (g : Guard) (d a b : VReg) (r : Rnd) (sat : Bool)
  | vcvthf (g : Guard) (d a : VReg)
  | vcvtfb (g : Guard) (d a b : VReg) (r : Rnd) (sat : Bool)
  | vcvtbf (g : Guard) (d a : VReg)
  | vqnt (g : Guard) (d a : VReg) (b : VSrc)
  | vdqnt (g : Guard) (d a : VReg) (b : VSrc)
  | vdgen (g : Guard) (d : VReg) (b : VSrc)
  | vpack8 (g : Guard) (d a : VReg) (b : VSrc)
  | vunpk8 (g : Guard) (d a : VReg) (b : VSrc)
  | vqcfg (a b : UReg)
  -- major 10 VCMP (R226)
  | vcmpeq (g : Guard) (d : PReg) (a : VReg) (b : VSrc)
  | vcmpne (g : Guard) (d : PReg) (a : VReg) (b : VSrc)
  | vcmplt (g : Guard) (d : PReg) (a : VReg) (b : VSrc)
  | vcmple (g : Guard) (d : PReg) (a : VReg) (b : VSrc)
  | vcmpltu (g : Guard) (d : PReg) (a : VReg) (b : VSrc)
  | vcmpleu (g : Guard) (d : PReg) (a : VReg) (b : VSrc)
  | vfcmpeq (g : Guard) (d : PReg) (a : VReg) (b : VSrc)
  | vfcmplt (g : Guard) (d : PReg) (a : VReg) (b : VSrc)
  | vfcmple (g : Guard) (d : PReg) (a : VReg) (b : VSrc)
  | vfcmpun (g : Guard) (d : PReg) (a : VReg) (b : VSrc)
  | pand (g : Guard) (d a b : PReg)
  | por (g : Guard) (d a b : PReg)
  | pxor (g : Guard) (d a b : PReg)
  | pandn (g : Guard) (d a b : PReg)
  -- major 11 XFILE (R201 to R206)
  | vbcst (g : Guard) (d : VReg) (a : UReg)
  | vrdln (d : UReg) (a : VReg) (b : UReg)
  | vwrln (d : VReg) (a b : UReg)
  | vfirst (g : Guard) (d : UReg) (a : VReg)
  | vballot (g : Guard) (d : UReg) (a : PReg)
  | pfroms (g : Guard) (d : PReg) (a : UReg)
  | panyk (g : Guard) (d : KReg) (a : PReg)
  | pallk (g : Guard) (d : KReg) (a : PReg)
  | xset (a : PReg)
  | xsave (d : UReg)
  | xrest (a : UReg)
  | vshfl (g : Guard) (d a : VReg) (b : VSrc)
  | vredai (g : Guard) (d : UReg) (a : VReg)
  | vredaf (g : Guard) (d : UReg) (a : VReg)
  | vredmx (g : Guard) (d : UReg) (a : VReg)
  | vxacc (g : Guard) (d a : VReg)
  -- majors 12 and 13 VLD, VST (R232, R233)
  | vldw (g : Guard) (d : VReg) (a : UReg) (b : VSrc)
  | vldh (g : Guard) (d : VReg) (a : UReg) (b : VSrc)
  | vldb (g : Guard) (d : VReg) (a : UReg) (b : VSrc)
  | vldd (g : Guard) (d : VReg) (a : UReg) (b : VSrc)
  | vldsw (g : Guard) (d : VReg) (a b : UReg)
  | vldq (g : Guard) (d : VReg) (a : UReg) (b : VSrc)
  | vldc (g : Guard) (d : VReg) (a : UReg)
  | vldsc (g : Guard) (d : VReg) (a : UReg)
  | vstw (g : Guard) (d : VReg) (a : UReg) (b : VSrc)
  | vsth (g : Guard) (d : VReg) (a : UReg) (b : VSrc)
  | vstb (g : Guard) (d : VReg) (a : UReg) (b : VSrc)
  | vstd (g : Guard) (d : VReg) (a : UReg) (b : VSrc)
  | vstsw (g : Guard) (d : VReg) (a b : UReg)
  | vstq (g : Guard) (d : VReg) (a : UReg) (b : VSrc)
  | vstc (g : Guard) (d : VReg) (a : UReg)
  | vstsc (g : Guard) (d : VReg) (a : UReg)
  -- major 14 SMEM (R234)
  | sld (g : Guard) (d a : UReg) (o : MOff)
  | sst (g : Guard) (d a : UReg) (o : MOff)
  | slds (g : Guard) (d a : UReg) (o : MOff)
  | ssts (g : Guard) (d a : UReg) (o : MOff)
  -- major 15 ATOM (R235, R236)
  | vatadd (g : Guard) (d : VReg) (a : UReg) (b : VSrc) (nr : Bool) (sc : Scope)
  | vatmin (g : Guard) (d : VReg) (a : UReg) (b : VSrc) (nr : Bool) (sc : Scope)
  | vatmax (g : Guard) (d : VReg) (a : UReg) (b : VSrc) (nr : Bool) (sc : Scope)
  | vatand (g : Guard) (d : VReg) (a : UReg) (b : VSrc) (nr : Bool) (sc : Scope)
  | vator (g : Guard) (d : VReg) (a : UReg) (b : VSrc) (nr : Bool) (sc : Scope)
  | vatxor (g : Guard) (d : VReg) (a : UReg) (b : VSrc) (nr : Bool) (sc : Scope)
  | vatxch (g : Guard) (d : VReg) (a : UReg) (b : VSrc) (nr : Bool) (sc : Scope)
  | vatcas (g : Guard) (d : VReg) (a : UReg) (b : VSrc) (nr : Bool) (sc : Scope)
  | satadd (g : Guard) (d a b : UReg) (nr : Bool) (sc : Scope)
  | satcas (g : Guard) (d a b : UReg) (nr : Bool) (sc : Scope)
  | satxch (g : Guard) (d a b : UReg) (nr : Bool) (sc : Scope)
  | vxadd (g : Guard) (d : VReg) (a : UReg) (b : VSrc) (nr : Bool) (sc : Scope)
  | vfatadd (g : Guard) (d : VReg) (a : UReg) (b : VSrc) (nr : Bool) (sc : Scope)
  -- majors 16 to 18: control flow (R196 to R200)
  | br (c : KReg) (cn : Bool) (o : BitVec 20)
  | call (c : KReg) (cn : Bool) (o : BitVec 20)
  | jmpr (g : Guard) (a : UReg)
  | callr (g : Guard) (a : UReg)
  | ret (g : Guard)
  | nop (g : Guard)
  | waitk (g : Guard) (a : KReg)
  | brk (g : Guard)
  -- major 19 SYNC (R241 to R246)
  | fence (g : Guard) (sc : Scope)
  | fenceacq (g : Guard) (sc : Scope)
  | fencerel (g : Guard) (sc : Scope)
  | bar (g : Guard) (sc : Scope)
  | waitv (g : Guard) (d a b : UReg) (sc : Scope)
  | descinv (g : Guard) (a : UReg)
  | descinvDeep (g : Guard)
  | logwait (g : Guard)
  | sldacq (g : Guard) (d a : UReg) (sc : Scope)
  | sstrel (g : Guard) (d a : UReg) (sc : Scope)
  -- major 20 MAT (R251 to R259)
  | mcfg (g : Guard) (a : UReg)
  | mzero (g : Guard) (d : AReg)
  | mma (g : Guard) (d : AReg) (a b : HReg)
  | mmas (g : Guard) (d : AReg) (a b : HReg)
  | mdrain (g : Guard) (d : TReg) (a : AReg) (b : UReg)
  | mstat (g : Guard) (d : UReg) (a : AReg)
  | msave (g : Guard) (d : TReg) (a : AReg) (b : UReg)
  | mload (g : Guard) (d : TReg) (a : AReg) (b : UReg)
  -- major 21 RING (R261 to R263)
  | rdef (g : Guard) (d : HReg) (a : UReg)
  | rwfull (g : Guard) (d : HReg) (a : UReg)
  | rwfree (g : Guard) (d : HReg) (a : UReg)
  | radvp (g : Guard) (d : HReg) (a : UReg)
  | radvc (g : Guard) (d : HReg) (a : UReg)
  | rslot (g : Guard) (d : UReg) (a : HReg) (b : UReg)
  | rslotc (g : Guard) (d : UReg) (a : HReg) (b : UReg)
  | rundef (g : Guard) (d : HReg)
  -- major 22 COPY (R250, R267 to R275)
  | cpy (g : Guard) (d : TReg) (a : UReg)
  | cpyr (g : Guard) (d : TReg) (a : HReg) (b : UReg)
  | cpyt (g : Guard) (d : TReg) (a : UReg)
  | cpyrd (g : Guard) (d : TReg) (a : UReg)
  | waitt (g : Guard) (m : Byte)
  | tokrd (g : Guard) (d : UReg) (a : TReg)
  | cqpush (g : Guard) (d a b : UReg)
  | cqkick (g : Guard) (a : UReg)
  -- major 23 GATHER (R276 to R278)
  | gstart (g : Guard) (d : TReg) (a : HReg) (b : UReg)
  | gstop (g : Guard) (a : TReg)
  | gstat (g : Guard) (d : UReg) (a : TReg)
  -- major 24 TASK (R284, R289 to R303)
  | spawn (g : Guard) (d a : UReg)
  | touch (g : Guard) (d a : UReg)
  | touchc (g : Guard) (d a : UReg) (b : KReg)
  | poll (g : Guard) (d a : UReg)
  | resolve (g : Guard) (d a b : UReg)
  | fnew (g : Guard) (d : UReg)
  | ffault (g : Guard) (d a b : UReg)
  | cancel (g : Guard) (d a : UReg)
  | cancelDeep (g : Guard) (d a : UReg)
  | release (g : Guard) (a : UReg)
  | scopeo (g : Guard) (d a : UReg)
  | scopec (g : Guard) (a : UReg)
  | scopew (g : Guard) (a : UReg)
  | retire (g : Guard) (a : UReg)
  | yield (g : Guard) (a : UReg)
  | prio (g : Guard) (d a : UReg)
  | self (g : Guard) (d : UReg)
  -- major 25 MSG (R304 to R310)
  | send (g : Guard) (a b : UReg)
  | sendr (g : Guard) (d a b : UReg)
  | recv (g : Guard) (d a b : UReg)
  | htwr (g : Guard) (a b : UReg)
  -- major 26 RED (R279 to R281)
  | bqclaim (g : Guard) (d a : UReg)
  | baddq (g : Guard) (d : TReg) (a b : UReg)
  | bqdone (g : Guard) (a : UReg)
  | topkc (g : Guard) (d : TReg) (a : UReg)
  | topkr (g : Guard) (d : TReg) (a : UReg)
  -- major 27 SYS (R314 to R325)
  | srd (g : Guard) (d : UReg) (n : SysReg)
  | swr (g : Guard) (a : UReg) (n : SysReg)
  | swrDeep (g : Guard) (a : UReg) (n : Byte)
  | trap (g : Guard) (a : UReg)
  | tret (g : Guard)
  | csave (g : Guard) (d a b : UReg)
  | crest (g : Guard) (d a b : UReg)
  | halt (g : Guard)
  | pchk (g : Guard) (d : KReg) (a : UReg)
  | replay (g : Guard) (a : UReg)
  -- compact forms (R185)
  | cNop
  | cSmov (d a : CReg)
  | cSadd (d a : CReg) (b : Fin 8)
  | cSaddi (d a : CReg) (n : BitVec 3)
  | cVmov (d a : CReg)
  | cVadd (d a : CReg) (b : Fin 8)
  | cVfadd (d a : CReg) (b : Fin 8)
  | cVfma (d a : CReg) (b : Fin 8)
  | cVfmul (d a : CReg) (b : Fin 8)
  | cSld (d a : CReg) (n : BitVec 3)
  | cSst (d a : CReg) (n : BitVec 3)
  | cRet
  | cTouch (d a : CReg)
  | cWaitt (m : Byte)
  | cRadvc (d : CReg) (n : BitVec 3)
  -- a word that is not an instruction (R188)
  | illegalEncoding (reason : Fin 16) (w : W32)
  -- scheduler and futures: steps of agents outside the issuing core
  | reservationMade (h : W64)
  | footprintCopyLanded (h : W64) (tile : Nat)
  | dispatch (h : W64)
  | steal (thief victim : ClId)
  | candidateAgeExpiry (t : TgRef)
  | priorityRaise (h : W64) (cls : Fin 4)
  | wake (t : TgRef)
  | deadlock (asid : Half)
  | preemptSave (h : W64)
  | forcedSave (h : W64)
  | resume (h : W64)
  | futureRequest (r : FutReq)
  | futureReply (id : Nat)
  | spill (c : ClId)
  | refill (h : W64)
  | hamper (asid : Half) (v : W64)
  | hamperMoved (asid : Half)
  | failsp (asid : Half)
  | hamperFull (asid : Half)
  | scopeUpdate (id : Nat)
  | storeBufferDrain (c : CoreId)
  | remoteRead (die : Nat) (asid : Half) (va : W64)
  | replicaEvict (die : Nat) (asid : Half) (va : W64)
  | writeAtHome (id : Nat)
  | atomicAtHome (id : Nat)
  | collapse (id : Nat)
  | collapseAck (id : Nat)
  | writeAck (id : Nat)
  | waitvRepoll (t : TgRef)
  | replicationWindow (die : Nat) (asid : Half) (va : W64)
  | sideLogPerform (c : CoreId)
  | matrixOpStart (c : CoreId)
  | matrixOpComplete (c : CoreId)
  | copyComplete (id : Nat)
  | gatherSlotLanded (id : Nat)
  | baddqComplete (id : Nat)
  | selectComplete (die : Nat)
  | nopPacket (q : QRef)
  | copy (q : QRef)
  | copyTranspose (q : QRef)
  | copyRedither (q : QRef)
  | fill (q : QRef)
  | barrier (q : QRef)
  | signal (q : QRef)
  | launch (q : QRef)
  | unknownKind (q : QRef)
  | launchComplete (h : W64)
  | messageDelivery (id : Nat)
  | dequeue (c : CoreId)
  | evq (d : UReg)
  | registerWrite (addr v : W64)
  | doorbell (q : Nat)
  | pendClear (w : Fin 16) (v : W64)
  | slotMap (n : Nat) (v : W64)
  | slotDrain (n : Nat) (v : W64)
  | unmap (n : Nat)
  | qtear (v : W64)
  | teardownComplete
  | hostAccess (a : HostAcc)
  | invalidation (v : W64)
  | invalidationComplete
  | broadcastInvalidation (space : Option W32) (va : W64) (pages : Nat)
  | hostSync
  | fltrespRetry (v : W64)
  | fltrespUnmap (v : W64)
  | swap
  | swapComplete
  | darning
  | darningComplete
  | peerAccess (a : PeerAcc)
  | attest (b : MbBox)
  | readlog (b : MbBox)
  | readbadframes (b : MbBox)
  | unlockchal (b : MbBox)
  | unlock (b : MbBox)
  | power (b : MbBox) (idle : Bool)
  | fwstage (b : MbBox)
  | lifecycle (b : MbBox)
  | readtelem (b : MbBox)
  | readfaulthist (b : MbBox)
  | checkpoint (b : MbBox) (idle : Bool)
  | restore (b : MbBox)
  | declarelost (b : MbBox)
  | commitsvn (b : MbBox)
  | mailboxComplete (b : MbBox)
  | eccmode (die : Nat) (v : W64)
  | coreTest (die : Nat) (v : W64)
  | coreTestComplete (die : Nat) (pass : Bool)
  | slicetime (v : W64)
  | sliceSwitch
  | sliceRestore
  | patrolScrub (block : Nat) (e : EccFinding)
  | arraySweep (die : Nat) (e : List ArrayFinding)
  | phyCalibration (ctrl channel : Nat)
  | ageingMargin (die : Nat) (short : Bool)
  | telemetry (t : List TelemetrySample)
  | pipelineError (t : TgRef) (checker : Byte) (op : Option Nat)
  | laneFailure (k : LinkRef) (mask : W64)
  | deviceFailure
  | powerLimit (mhz : Nat)
  | boot (table : List (Nat × W64 × W64))
  | powerWake
  | idcode
  | bypass (bits : List Bool)
  | jtagHalt (t : TgRef)
  | jtagResume (t : TgRef)
  | jtagStep (t : TgRef)
  | jtagAccess (a : JtagAcc)
  | yieldExpiry (t : TgRef)
  | messageAnswer (id : Nat)
  | mangleRequest (id : Nat)
  | peerReply (id : Nat) (r : PeerRes)
  | flitReplay (die : Nat)
  | powerLoss
deriving DecidableEq, Repr

end Sys2Proof
end

