-- ==== Sys2Proof/Config.lean ====
section
/-! DEFINITION. What an implementation fixes, and the values the manual leaves open. An opaque constant has no body, so no
proof can use a value of it (a claim about it holds whatever it is). -/

namespace Sys2Proof

/-- The partition modes (R17). -/
inductive PartMode where
  | whole | half | die
deriving DecidableEq, Repr

/-- Compute dies of one device (R17, R90). -/
def PartMode.computeDies : PartMode → Nat
  | .whole => 8 | .half => 4 | .die => 1

/-- Gateway dies of one device (R17, R18): numbered from 8. In DIE mode the half gateway die is die 8. -/
def PartMode.gatewayDies : PartMode → Nat
  | .whole => 4 | .half => 2 | .die => 1

/-- Gateway clusters on a gateway die of the device (R18). -/
def PartMode.gatewayClusters : PartMode → Nat
  | .whole => 2 | .half => 2 | .die => 1

/-- Width of the home fold (R90). -/
def PartMode.homeBits : PartMode → Nat
  | .whole => 3 | .half => 2 | .die => 0

/-- Memory controllers of the device (R90). -/
def PartMode.controllers : PartMode → Nat
  | .whole => 8 | .half => 4 | .die => 1

/-- Devices of a package (R17). -/
def PartMode.devices : PartMode → Nat
  | .whole => 1 | .half => 2 | .die => 8

namespace Config

/-- Which value an approximating form gives among those its bound allows (R219): a fixed function of the form and its input. -/
opaque approxPick : Nat → W32 → Nat
/-- A fresh unconstrained word; the machine applies it to its own counter State.free. -/
opaque freeWord : Nat → W64
/-- The random nonce of the n-th UNLOCKCHAL (R414, R417). -/
opaque nonce : Nat → BitVec 256
/-- The per-signature secret of the n-th ECDSA signature that the management core makes (R411). -/
opaque signSecret : Nat → BitVec 256
/-- The manufacturing key held in the ROM (R407). -/
opaque romKey : BitVec 512
/-- What JTAG IDCODE shifts out (R416): the manual gives no value. -/
opaque idcodeWord : W32
/-- Which of several allowed choices a unit makes: the second argument tells the choices of one step apart. -/
opaque pick : Nat → Nat → Nat

/-- Distances between clusters on the mesh of a die, whose layout the manual does not give (R36). -/
opaque meshDist : ClId → ClId → Nat
/-- Whether the system has a device of that identifier (R16, R306): what stands outside the device fixes it. -/
opaque deviceExists : Nat → Bool
/-- The n-th context key that the management core makes (R418). -/
opaque ctxKey : Nat → BitVec 256
/-- The tweak key that goes with a context key under AES-256-XTS (R418): the manual gives the context one key of 256 bits. -/
opaque tweakKey : BitVec 256 → BitVec 256
/-- The context whose data a 4 KiB unit of HBM holds, with whose key the keep tier encrypts it (R418); none for data of no context. -/
opaque unitOwner : Nat → Option Half
/-- The k-th word of the n-th record of the trace buffer (R420: the manual gives no format), from its time, its type and its PC. -/
opaque traceWord : W64 → Nat → W64 → Nat → W64
/-- The k-th word of the hamper record of a future (R71: the format belongs to the DX8). -/
opaque hamperWord : W64 → Nat → W64
/-- Where in a die's slice a line lies (R89, R427): the die and the line. -/
opaque sliceLine : Nat → Nat → Nat

end Config
end Sys2Proof
end

