-- ==== Sys2Proof/Machine/Bits.lean ====
section
/-! DEFINITION. Bit-field, sign-extension and byte-order helpers (R3, R174), and sparse tables. -/

namespace Sys2Proof.Machine

/-- Bits [lo + n - 1 : lo] of a natural number. -/
def fieldOf (x lo n : Nat) : Nat := (x / 2 ^ lo) % 2 ^ n

/-- One bit of a natural number. -/
def bitOf (x i : Nat) : Bool := (x / 2 ^ i) % 2 == 1

/-- The signed reading of the low n bits of x. -/
def signedOf (n x : Nat) : Int :=
  let y := x % 2 ^ n
  if 2 * y < 2 ^ n then (y : Int) else (y : Int) - (2 ^ n : Nat)

/-- The n-bit two's-complement code of an integer. -/
def codeOf (n : Nat) (x : Int) : Nat := (x % ((2 ^ n : Nat) : Int)).toNat

/-- Clamp to a range. -/
def clampInt (lo hi x : Int) : Int := if x < lo then lo else if hi < x then hi else x

/-- The n low bytes of x, lowest first (R3). -/
def bytesOf : Nat → Nat → List Byte
  | 0, _ => []
  | n + 1, x => BitVec.ofNat 8 x :: bytesOf n (x / 256)

/-- The number whose bytes, lowest first, are given (R3). -/
def natOf : List Byte → Nat
  | [] => 0
  | b :: bs => b.toNat + 256 * natOf bs

/-- The number in n bytes at an offset (R3). -/
def fieldAt (bs : List Byte) (off n : Nat) : Nat := natOf ((bs.drop off).take n)

/-- Number of set bits among the low n bits. -/
def popcount : Nat → Nat → Nat
  | 0, _ => 0
  | n + 1, x => x % 2 + popcount n (x / 2)

/-- Leading zeros of an n-bit number. -/
def clz : Nat → Nat → Nat
  | 0, _ => 0
  | n + 1, x => if bitOf x n then 0 else 1 + clz n x

/-- Bit reversal of the low n bits. -/
def brev : Nat → Nat → Nat
  | 0, _ => 0
  | n + 1, x => (x % 2) * 2 ^ n + brev n (x / 2)

/-- The exclusive OR of the consecutive n-bit fields of x, the top one padded with zeros (R90); k bounds the fields. -/
def fold (n : Nat) : Nat → Nat → Nat
  | 0, _ => 0
  | k + 1, x => (x % 2 ^ n) ^^^ fold n k (x / 2 ^ n)

/-- Round up to a multiple. -/
def alignUp (n x : Nat) : Nat := (x + n - 1) / n * n

/-- The largest square root not above n, found bit by bit from bit k - 1. -/
def isqrtFrom : Nat → Nat → Nat → Nat
  | 0, _, r => r
  | k + 1, n, r =>
    let c := r + 2 ^ k
    isqrtFrom k n (if c * c ≤ n then c else r)

/-- Floor of the square root. -/
def isqrt (n : Nat) : Nat := isqrtFrom (n.log2 / 2 + 1) n 0

/-- A sparse table: the first pair with a key gives its value, and a missing key reads as the table's default. -/
abbrev KMap (κ α : Type) := List (κ × α)

section
variable {κ α : Type} [DecidableEq κ]

/-- The entry of a key, if it is listed. -/
def kfind (k : κ) : KMap κ α → Option α
  | [] => none
  | (k', a) :: r => if k' = k then some a else kfind k r

/-- The entry of a key, or the default. -/
def kget (dflt : α) (m : KMap κ α) (k : κ) : α := (kfind k m).getD dflt

/-- Replace the entry of a key, or add it at the end. -/
def kset (k : κ) (a : α) : KMap κ α → KMap κ α
  | [] => [(k, a)]
  | (k', a') :: r => if k' = k then (k, a) :: r else (k', a') :: kset k a r

/-- Remove a key. -/
def kdel (k : κ) (m : KMap κ α) : KMap κ α := m.filter (fun p => decide (p.1 ≠ k))

end

/-- Replace the first element that satisfies a test. -/
def updFirst {α : Type} (p : α → Bool) (f : α → α) : List α → List α
  | [] => []
  | a :: r => if p a then f a :: r else a :: updFirst p f r

/-- Remove the first element that satisfies a test. -/
def dropFirst {α : Type} (p : α → Bool) : List α → List α
  | [] => []
  | a :: r => if p a then r else a :: dropFirst p r

/-- Insert into a strictly rising list of numbers. -/
def insertNat (a : Nat) : List Nat → List Nat
  | [] => [a]
  | b :: r => if a < b then a :: b :: r else if a = b then b :: r else b :: insertNat a r

/-- The lowest number below the bound that satisfies a test, counting down from a fuel. -/
def lowest (p : Nat → Bool) : Nat → Nat → Option Nat
  | 0, _ => none
  | k + 1, i => if p i then some i else lowest p k (i + 1)

end Sys2Proof.Machine
end

