-- ==== Sys2Proof/Machine/Flt.lean ====
section
/-! DEFINITION. IEEE 754 arithmetic of FP32, BF16 and FP16 (R118, R214 to R218, R220, R221): a value is exact (a sign, an integer
and a power of two), each operation is formed exactly and rounded once. -/

namespace Sys2Proof.Machine

/-- The value of a floating-point code: (-1)^neg times m times 2^e. -/
inductive Fv where
  | nan (neg : Bool)
  | inf (neg : Bool)
  | fin (neg : Bool) (m : Nat) (e : Int)
deriving DecidableEq, Repr

/-- An IEEE interchange format: exponent and fraction widths. -/
structure FFmt where
  eb : Nat
  mb : Nat
deriving DecidableEq, Repr

def FFmt.fp32 : FFmt := ⟨8, 23⟩
def FFmt.bf16 : FFmt := ⟨8, 7⟩
def FFmt.fp16 : FFmt := ⟨5, 10⟩

def FFmt.bias (f : FFmt) : Int := 2 ^ (f.eb - 1) - 1
/-- The exponent of the subnormal unit. -/
def FFmt.umin (f : FFmt) : Int := 1 - f.bias - f.mb
def FFmt.signBit (f : FFmt) : Nat := 2 ^ (f.eb + f.mb)
def FFmt.infCode (f : FFmt) : Nat := (2 ^ f.eb - 1) * 2 ^ f.mb
/-- The canonical quiet NaN (R118). -/
def FFmt.nanCode (f : FFmt) : Nat := f.infCode + 2 ^ (f.mb - 1)
def FFmt.maxCode (f : FFmt) : Nat := f.infCode - 1

/-- The value of a code (R118). -/
def FFmt.value (f : FFmt) (w : Nat) : Fv :=
  let neg := bitOf w (f.eb + f.mb)
  let ex := fieldOf w f.mb f.eb
  let fr := fieldOf w 0 f.mb
  if ex = 2 ^ f.eb - 1 then (if fr = 0 then .inf neg else .nan neg)
  else if ex = 0 then .fin neg fr f.umin
  else .fin neg (2 ^ f.mb + fr) (f.umin + ex - 1)

/-- m / 2^sh rounded to an integer in the direction of the mode, for a value of the given sign. -/
def roundShift (r : Rnd) (neg : Bool) (m sh : Nat) : Nat :=
  let q := m / 2 ^ sh
  let rem := m % 2 ^ sh
  let up : Bool := match r with
    | .rne => 2 ^ sh < 2 * rem || (2 * rem == 2 ^ sh && q % 2 == 1)
    | .rz => false
    | .rup => rem != 0 && !neg
    | .rdn => rem != 0 && neg
  if up then q + 1 else q

/-- m * 2^e as a multiple of 2^u, rounded. -/
def toUnit (r : Rnd) (neg : Bool) (m : Nat) (e u : Int) : Nat :=
  if u ≤ e then m * 2 ^ (e - u).toNat else roundShift r neg m (u - e).toNat

/-- The exponent of the binade of a non-zero m * 2^e. -/
def binade (m : Nat) (e : Int) : Int := e + m.log2

/-- The code magnitude of m * 2^e in a format with the given fraction width and subnormal unit, with no bound above:
codes of one sign rise with the magnitude. -/
def magCode (r : Rnd) (neg : Bool) (mb : Nat) (umin : Int) (m : Nat) (e : Int) : Nat :=
  if m = 0 then 0 else
  let u := max (binade m e - mb) umin
  toUnit r neg m e u + (u - umin).toNat * 2 ^ mb

/-- The code of a value, rounded once (R118, R214). -/
def FFmt.code (f : FFmt) (r : Rnd) (sat : Bool) : Fv → Nat
  | .nan _ => f.nanCode
  | .inf neg => (if neg then f.signBit else 0) + f.infCode
  | .fin neg m e =>
    let c := magCode r neg f.mb f.umin m e
    let ovf : Bool := f.infCode ≤ c
    let toMax : Bool := sat || match r with
      | .rne => false | .rz => true | .rup => neg | .rdn => !neg
    (if neg then f.signBit else 0) + (if ovf then (if toMax then f.maxCode else f.infCode) else c)

/-- True when a finite value overflows the format after rounding with an unbounded exponent (R142). -/
def FFmt.overflows (f : FFmt) (r : Rnd) : Fv → Bool
  | .fin neg m e => f.infCode ≤ magCode r neg f.mb f.umin m e
  | _ => false

namespace Fv

def neg : Fv → Fv
  | .nan n => .nan (!n) | .inf n => .inf (!n) | .fin n m e => .fin (!n) m e

def isNan : Fv → Bool
  | .nan _ => true | _ => false

def isInf : Fv → Bool
  | .inf _ => true | _ => false

def isFin : Fv → Bool
  | .fin _ _ _ => true | _ => false

def isZero : Fv → Bool
  | .fin _ m _ => m == 0 | _ => false

def sign : Fv → Bool
  | .nan n => n | .inf n => n | .fin n _ _ => n

/-- The signed integer of a finite value in units of 2^u, for u at or below its exponent. -/
def scaled (n : Bool) (m : Nat) (e u : Int) : Int :=
  let k : Int := (m * 2 ^ (e - u).toNat : Nat)
  if n then -k else k

/-- A finite value from a signed integer; an exact zero takes the given sign. -/
def ofInt (zeroNeg : Bool) (k e : Int) : Fv :=
  if k = 0 then .fin zeroNeg 0 0 else .fin (decide (k < 0)) k.natAbs e

/-- Exact sum; an exact zero sum of unlike signs takes the sign zn (R214: + except under RDN). -/
def add (zn : Bool) : Fv → Fv → Fv
  | .nan _, _ => .nan false
  | _, .nan _ => .nan false
  | .inf a, .inf b => if a = b then .inf a else .nan false
  | .inf a, _ => .inf a
  | _, .inf b => .inf b
  | .fin na ma ea, .fin nb mb eb =>
    if ma = 0 ∧ mb = 0 then .fin (if na = nb then na else zn) 0 0 else
    let u := min ea eb
    ofInt zn (scaled na ma ea u + scaled nb mb eb u) u

/-- Exact product. -/
def mul : Fv → Fv → Fv
  | .nan _, _ => .nan false
  | _, .nan _ => .nan false
  | .inf a, .fin b m _ => if m = 0 then .nan false else .inf (a != b)
  | .fin a m _, .inf b => if m = 0 then .nan false else .inf (a != b)
  | .inf a, .inf b => .inf (a != b)
  | .fin a ma ea, .fin b mb eb => .fin (a != b) (ma * mb) (ea + eb)

/-- Quotient, with enough bits and a sticky bit below them for one correct rounding. -/
def div : Fv → Fv → Fv
  | .nan _, _ => .nan false
  | _, .nan _ => .nan false
  | .inf _, .inf _ => .nan false
  | .inf a, .fin b _ _ => .inf (a != b)
  | .fin a _ _, .inf b => .fin (a != b) 0 0
  | .fin a ma ea, .fin b mb eb =>
    if mb = 0 then (if ma = 0 then .nan false else .inf (a != b))
    else if ma = 0 then .fin (a != b) 0 0 else
    let k := 64 + mb.log2
    let n := ma * 2 ^ k
    .fin (a != b) (2 * (n / mb) + (if n % mb = 0 then 0 else 1)) (ea - eb - k - 1)

/-- Square root, with a sticky bit. -/
def sqrt : Fv → Fv
  | .nan _ => .nan false
  | .inf n => if n then .nan false else .inf false
  | .fin n m e =>
    if m = 0 then .fin n 0 0 else if n then .nan false else
    let e' := if e % 2 = 0 then e else e - 1
    let m' := (if e % 2 = 0 then m else 2 * m) * 2 ^ 128
    let s := isqrt m'
    .fin false (2 * s + (if s * s = m' then 0 else 1)) ((e' - 128) / 2 - 1)

/-- Order of two values that are not NaN: a < b, with -0 = +0. -/
def lt : Fv → Fv → Bool
  | .nan _, _ => false
  | _, .nan _ => false
  | .inf a, .inf b => a && !b
  | .inf a, _ => a
  | _, .inf b => !b
  | .fin na ma ea, .fin nb mb eb =>
    let u := min ea eb
    decide (scaled na ma ea u < scaled nb mb eb u)

def eq : Fv → Fv → Bool
  | .nan _, _ => false
  | _, .nan _ => false
  | a, b => !(lt a b) && !(lt b a)

/-- The integral value of a finite number under a rounding mode, keeping the sign of a zero (R218). -/
def toIntegral (r : Rnd) : Fv → Fv
  | .fin n m e => .fin n (toUnit r n m e 0) 0
  | v => v

/-- A value rounded to an integer (R220); none for NaN and infinities. -/
def roundInt (r : Rnd) : Fv → Option Int
  | .fin n m e =>
    let k : Int := (toUnit r n m e 0 : Nat)
    some (if n then -k else k)
  | _ => none

/-- Multiplication by a power of two. -/
def scale2 (k : Int) : Fv → Fv
  | .fin n m e => .fin n m (e + k)
  | v => v

end Fv

/-- The sign an exact zero sum takes (R214). -/
def zeroNegOf (r : Rnd) : Bool := r == .rdn

section
variable (f : FFmt) (r : Rnd) (a b d : Nat)

def FFmt.add : Nat := f.code r false ((f.value a).add (zeroNegOf r) (f.value b))
def FFmt.sub : Nat := f.code r false ((f.value a).add (zeroNegOf r) (f.value b).neg)
def FFmt.mul : Nat := f.code r false ((f.value a).mul (f.value b))
/-- a * b + d, rounded once. -/
def FFmt.fma : Nat := f.code r false (((f.value a).mul (f.value b)).add (zeroNegOf r) (f.value d))
/-- a * b - d, rounded once. -/
def FFmt.fms : Nat := f.code r false (((f.value a).mul (f.value b)).add (zeroNegOf r) (f.value d).neg)
/-- -(a * b) + d, rounded once. -/
def FFmt.fnma : Nat := f.code r false (((f.value a).mul (f.value b)).neg.add (zeroNegOf r) (f.value d))
def FFmt.div : Nat := f.code r false ((f.value a).div (f.value b))
def FFmt.sqrt : Nat := f.code r false (f.value a).sqrt

/-- The lesser, -0 below +0; a NaN gives the other operand (R215). -/
def FFmt.min : Nat :=
  match (f.value a).isNan, (f.value b).isNan with
  | true, true => f.nanCode
  | true, false => b
  | false, true => a
  | false, false =>
    if (f.value a).lt (f.value b) then a
    else if (f.value b).lt (f.value a) then b
    else if (f.value a).sign then a else b

/-- The greater, +0 above -0; a NaN gives the other operand (R215). -/
def FFmt.max : Nat :=
  match (f.value a).isNan, (f.value b).isNan with
  | true, true => f.nanCode
  | true, false => b
  | false, true => a
  | false, false =>
    if (f.value a).lt (f.value b) then b
    else if (f.value b).lt (f.value a) then a
    else if (f.value a).sign then b else a

end

/-- The greater of two FP32 values for VREDMX: any NaN gives the canonical NaN (R145). -/
def fmaxNan (a b : Nat) : Nat :=
  if (FFmt.fp32.value a).isNan || (FFmt.fp32.value b).isNan then FFmt.fp32.nanCode else FFmt.fp32.max a b

/-- VFCPYS (R215). -/
def fcpys (a b : Nat) : Nat :=
  let m := if (FFmt.fp32.value a).isNan then FFmt.fp32.nanCode else a % 2 ^ 31
  m + (if bitOf b 31 then 2 ^ 31 else 0)

def fabs (a : Nat) : Nat :=
  if (FFmt.fp32.value a).isNan then FFmt.fp32.nanCode else a % 2 ^ 31

def fneg (a : Nat) : Nat :=
  if (FFmt.fp32.value a).isNan then FFmt.fp32.nanCode else (a + 2 ^ 31) % 2 ^ 32

/-- VFFLOOR, VFCEIL, VFRINT, VFTRUNC: rounded to an integral value under a mode (R218). -/
def frint (r : Rnd) (a : Nat) : Nat := FFmt.fp32.code .rne false ((FFmt.fp32.value a).toIntegral r)

/-- The class mask of VFCLASS (R218). -/
def fclass (a : Nat) : Nat :=
  let neg := bitOf a 31
  let ex := fieldOf a 23 8
  let fr := fieldOf a 0 23
  if ex = 255 then
    if fr = 0 then (if neg then 2 ^ 0 else 2 ^ 7) else (if bitOf a 22 then 2 ^ 9 else 2 ^ 8)
  else if ex = 0 then
    if fr = 0 then (if neg then 2 ^ 3 else 2 ^ 4) else (if neg then 2 ^ 2 else 2 ^ 5)
  else (if neg then 2 ^ 1 else 2 ^ 6)

/-- FP32 to a signed 32-bit integer, saturating; NaN gives 0 (R220). -/
def cvtFI (r : Rnd) (a : Nat) : Nat :=
  match FFmt.fp32.value a with
  | .nan _ => 0
  | .inf n => if n then 2 ^ 31 else 2 ^ 31 - 1
  | v => codeOf 32 (clampInt (-(2 ^ 31)) (2 ^ 31 - 1) ((v.roundInt r).getD 0))

/-- FP32 to an unsigned 32-bit integer, saturating; NaN gives 0 (R220). -/
def cvtFU (r : Rnd) (a : Nat) : Nat :=
  match FFmt.fp32.value a with
  | .nan _ => 0
  | .inf n => if n then 0 else 2 ^ 32 - 1
  | v => codeOf 32 (clampInt 0 (2 ^ 32 - 1) ((v.roundInt r).getD 0))

/-- A signed 32-bit integer to FP32 (R220). -/
def cvtIF (r : Rnd) (a : Nat) : Nat := FFmt.fp32.code r false (Fv.ofInt false (signedOf 32 a) 0)

/-- An unsigned 32-bit integer to FP32 (R220). -/
def cvtUF (r : Rnd) (a : Nat) : Nat := FFmt.fp32.code r false (Fv.ofInt false (a : Int) 0)

/-- VDOT2F and VDOT2B: the accumulator and the two products summed exactly and rounded once (R217). -/
def dot2 (h : FFmt) (r : Rnd) (a b d : Nat) : Nat :=
  let p0 := (h.value (fieldOf a 0 16)).mul (h.value (fieldOf b 0 16))
  let p1 := (h.value (fieldOf a 16 16)).mul (h.value (fieldOf b 16 16))
  FFmt.fp32.code r false (((FFmt.fp32.value d).add (zeroNegOf r) p0).add (zeroNegOf r) p1)

/-- VDOT4I: four signed byte products and the accumulator, exact (R217). -/
def dot4i (a b : Nat) (d : Nat) : Int :=
  signedOf 32 d + signedOf 8 (fieldOf a 0 8) * signedOf 8 (fieldOf b 0 8)
    + signedOf 8 (fieldOf a 8 8) * signedOf 8 (fieldOf b 8 8)
    + signedOf 8 (fieldOf a 16 8) * signedOf 8 (fieldOf b 16 8)
    + signedOf 8 (fieldOf a 24 8) * signedOf 8 (fieldOf b 24 8)

end Sys2Proof.Machine
end

