-- ==== Sys2Proof/Machine/Narrow.lean ====
section
/-! DEFINITION. The narrow formats, microscaling, the dither generator and dithered encoding and decoding (R116 to R131). -/

namespace Sys2Proof.Machine

/-- The format codes of R116. -/
inductive Fmt where
  | raw | fp32 | bf16 | fp16 | int8 | int4 | e4m3 | e5m2 | mf8
  | mxe4m3 | mxe5m2 | mxe3m2 | mxe2m3 | mxfp4 | mxint8 | fx128
deriving DecidableEq, Repr

/-- R116; any other code is invalid (R117). -/
def Fmt.ofCode : Nat → Option Fmt
  | 0x00 => some .raw | 0x01 => some .fp32 | 0x02 => some .bf16 | 0x03 => some .fp16
  | 0x10 => some .int8 | 0x11 => some .int4 | 0x20 => some .e4m3 | 0x21 => some .e5m2 | 0x30 => some .mf8
  | 0x40 => some .mxe4m3 | 0x41 => some .mxe5m2 | 0x42 => some .mxe3m2 | 0x43 => some .mxe2m3
  | 0x44 => some .mxfp4 | 0x45 => some .mxint8 | 0x50 => some .fx128
  | _ => none

def Fmt.bits : Fmt → Nat
  | .raw => 8 | .fp32 => 32 | .bf16 => 16 | .fp16 => 16 | .int8 => 8 | .int4 => 4 | .e4m3 => 8 | .e5m2 => 8 | .mf8 => 8
  | .mxe4m3 => 8 | .mxe5m2 => 8 | .mxe3m2 => 6 | .mxe2m3 => 6 | .mxfp4 => 4 | .mxint8 => 8 | .fx128 => 128

def Fmt.isMx : Fmt → Bool
  | .mxe4m3 | .mxe5m2 | .mxe3m2 | .mxe2m3 | .mxfp4 | .mxint8 => true
  | _ => false

/-- Dithered when the seed is non-zero (R116). -/
def Fmt.dithered : Fmt → Bool
  | .raw | .fp32 | .bf16 | .fp16 | .fx128 => false
  | _ => true

/-- A narrow float encoding of R119: exponent and mantissa widths, bias, and the code of its largest finite value. -/
structure NFmt where
  eb : Nat
  mb : Nat
  bias : Int
  maxCode : Nat
  hasInf : Bool
  hasNan : Bool
deriving DecidableEq, Repr

def NFmt.e4m3 : NFmt := ⟨4, 3, 7, 0x7E, false, true⟩
def NFmt.e5m2 : NFmt := ⟨5, 2, 15, 0x7B, true, true⟩
def NFmt.e3m2 : NFmt := ⟨3, 2, 3, 0x1F, false, false⟩
def NFmt.e2m3 : NFmt := ⟨2, 3, 1, 0x1F, false, false⟩
def NFmt.e2m1 : NFmt := ⟨2, 1, 1, 0x7, false, false⟩

/-- The exponent of the subnormal ulp (R119). -/
def NFmt.umin (f : NFmt) : Int := 1 - f.bias - f.mb
def NFmt.signBit (f : NFmt) : Nat := 2 ^ (f.eb + f.mb)

/-- The value of a code (R119). -/
def NFmt.value (f : NFmt) (c : Nat) : Fv :=
  let neg := bitOf c (f.eb + f.mb)
  let ex := fieldOf c f.mb f.eb
  let fr := fieldOf c 0 f.mb
  if f.hasInf && ex == 2 ^ f.eb - 1 then (if fr = 0 then .inf neg else .nan neg)
  else if f.hasNan && !f.hasInf && ex == 2 ^ f.eb - 1 && fr == 2 ^ f.mb - 1 then .nan neg
  else if ex = 0 then .fin neg fr f.umin
  else .fin neg (2 ^ f.mb + fr) (f.umin + ex - 1)

/-- The ulp exponent of the binade of a finite value (R130). -/
def NFmt.ulp (f : NFmt) (m : Nat) (e : Int) : Int :=
  if m = 0 then f.umin else max (binade m e - f.mb) f.umin

/-- An encoded code and whether a finite value overflowed the format (R142). -/
structure Enc where
  code : Nat
  over_ : Bool
deriving DecidableEq, Repr

/-- Conversion into a format of R119 (R120). -/
def NFmt.encode (f : NFmt) : Fv → Enc
  | .nan neg => ⟨if f.hasNan then (if neg then f.signBit else 0) + 0x7F else 0, false⟩
  | .inf neg =>
    ⟨(if neg then f.signBit else 0) + (if f.hasInf then 0x7C else if f.hasNan then 0x7F else f.maxCode), false⟩
  | .fin neg m e =>
    let c := magCode .rne neg f.mb f.umin m e
    ⟨(if neg then f.signBit else 0) + min c f.maxCode, decide (f.maxCode < c)⟩

/-- The class of an MF8 binade (R122): leading zeros z, fraction width f, and the exponent field e; none outside -22 to 20. -/
def mf8Class (E : Int) : Option (Nat × Nat × Nat) :=
  if -2 ≤ E ∧ E ≤ 1 then some (0, 4, (E + 2).toNat)
  else if -6 ≤ E ∧ E ≤ -3 then some (1, 2, (E + 6).toNat)
  else if 2 ≤ E ∧ E ≤ 5 then some (1, 2, (E + 2).toNat)
  else if -14 ≤ E ∧ E ≤ -7 then some (2, 0, (E + 14).toNat)
  else if 6 ≤ E ∧ E ≤ 13 then some (2, 0, (E + 2).toNat)
  else if -18 ≤ E ∧ E ≤ -15 then some (3, 0, (E + 18).toNat)
  else if 14 ≤ E ∧ E ≤ 17 then some (3, 0, (E - 10).toNat)
  else if -20 ≤ E ∧ E ≤ -19 then some (4, 0, (E + 20).toNat)
  else if 18 ≤ E ∧ E ≤ 19 then some (4, 0, (E - 16).toNat)
  else if E = -21 then some (5, 0, 0)
  else if E = 20 then some (5, 0, 1)
  else if E = -22 then some (6, 0, 0)
  else none

/-- Fraction width of a binade; outside the format's range it is 0. -/
def mf8Frac (E : Int) : Nat := match mf8Class E with
  | some (_, f, _) => f | none => 0

/-- F of the MF8 magnitude 2^E * (1 + frac / 2^f) (R122). -/
def mf8F (E : Int) (frac : Nat) : Nat := match mf8Class E with
  | some (z, f, e) => 2 ^ (6 - z) + e * 2 ^ f + frac
  | none => 0

/-- The value of an MF8 code (R122). -/
def mf8Value (c : Nat) : Fv :=
  let neg := bitOf c 7
  let F := fieldOf c 0 7
  if F = 0 then (if neg then .nan false else .fin false 0 0) else
  let p := F.log2
  let below := F - 2 ^ p
  match p with
  | 6 => .fin neg (16 + below % 16) ((below / 16 : Nat) - 2 - 4)
  | 5 =>
    let e : Int := (below / 4 : Nat)
    .fin neg (4 + below % 4) ((if e < 4 then e - 6 else e - 2) - 2)
  | 4 => let e : Int := below; .fin neg 1 (if e < 8 then e - 14 else e - 2)
  | 3 => let e : Int := below; .fin neg 1 (if e < 4 then e - 18 else e + 10)
  | 2 => let e : Int := below; .fin neg 1 (if e < 2 then e - 20 else e + 16)
  | 1 => .fin neg 1 (if below = 0 then -21 else 20)
  | _ => .fin neg 1 (-22)

/-- The ulp exponent of the binade of a finite value on the MF8 grid; below 2^-22 it is that of 2^-22 (R130). -/
def mf8Ulp (m : Nat) (e : Int) : Int :=
  if m = 0 then -22 else
  let E := binade m e
  if E < -22 then -22 else E - mf8Frac E

/-- Encoding into MF8 (R123): to the nearest magnitude; a tie goes to the candidate whose F has bit 0 clear, otherwise to the smaller.
What rounds above 2^20, for OUTSAT, is the model's choice (log 120). -/
def mf8Encode : Fv → Enc
  | .nan _ => ⟨0x80, false⟩
  | .inf _ => ⟨0x80, false⟩
  | .fin neg m e =>
    if m = 0 then ⟨0, false⟩ else
    let E := binade m e
    let s := if neg then 0x80 else 0
    if 20 ≤ E then ⟨s + 0x03, decide (20 < E) || decide (3 * 2 ^ m.log2 < 2 * m)⟩
    else if E < -23 then ⟨0, false⟩
    else if E = -23 then
      -- between 0 and 2^-22: the midpoint is 2^-23, and its tie has candidates F = 0 (bit 0 clear) and F = 1
      (if m = 2 ^ m.log2 then ⟨0, false⟩ else ⟨s + 0x01, false⟩)
    else
      let f := mf8Frac E
      let u := E - f
      let lo := toUnit .rz false m e u
      let exact : Bool := decide (u ≤ e) || m % 2 ^ (u - e).toNat == 0
      let fLo := mf8F E (lo - 2 ^ f)
      let fHi := if lo + 1 = 2 ^ (f + 1) then mf8F (E + 1) 0 else mf8F E (lo + 1 - 2 ^ f)
      if exact then ⟨s + fLo, false⟩ else
      let rem2 := 2 * (m % 2 ^ (u - e).toNat)
      let full := 2 ^ (u - e).toNat
      if rem2 < full then ⟨s + fLo, false⟩
      else if full < rem2 then ⟨s + fHi, false⟩
      else if fLo % 2 = 0 then ⟨s + fLo, false⟩
      else if fHi % 2 = 0 then ⟨s + fHi, false⟩
      else ⟨s + fLo, false⟩

/-- The dither generator (R127): the offset is this odd integer over 128, and 0 when the seed is 0. -/
def ditherNum (i : W64) (sigma : W32) : Int :=
  if sigma = 0 then 0 else
  let h0 : W32 := sigma ^^^ i.setWidth 32
  let h1 : W32 := h0 * 0x9E3779B1#32
  let h2 : W32 := h1 ^^^ (h1 >>> 15)
  let h3 : W32 := h2 ^^^ ((i >>> 32).setWidth 32 * 0x85EBCA77#32)
  let h4 : W32 := h3 * 0xC2B2AE3D#32
  let h5 : W32 := h4 ^^^ (h4 >>> 13)
  2 * ((h5 >>> 26).toNat : Int) - 63

/-- The offset as a value in units of 2^u. -/
def ditherAt (dn : Int) (u : Int) : Fv := Fv.ofInt false dn (u - 7)

/-- The grids of R116. -/
inductive Grid where
  | none_
  | ieee (f : FFmt)
  | linear (bits : Nat) (lo hi : Int)
  | narrow (f : NFmt)
  | mf8
deriving DecidableEq, Repr

/-- The element grid of a format; for MX formats, the grid of its elements before the block scale (R121, R124). -/
def Fmt.grid : Fmt → Grid
  | .raw => .none_ | .fx128 => .none_
  | .fp32 => .ieee .fp32 | .bf16 => .ieee .bf16 | .fp16 => .ieee .fp16
  | .int8 => .linear 8 (-128) 127 | .int4 => .linear 4 (-8) 7
  | .mxint8 => .linear 8 (-127) 127
  | .e4m3 => .narrow .e4m3 | .e5m2 => .narrow .e5m2 | .mf8 => .mf8
  | .mxe4m3 => .narrow .e4m3 | .mxe5m2 => .narrow .e5m2 | .mxe3m2 => .narrow .e3m2
  | .mxe2m3 => .narrow .e2m3 | .mxfp4 => .narrow .e2m1

/-- The code nearest to a dithered linear value (R128, R129): floor(x/s + d + 1/2), or to nearest even when the seed is 0. -/
def linearCode (x : Fv) (s dn : Int) (dither : Bool) : Int :=
  match Fv.scale2 (-s) x with
  | .fin n m e =>
    if dither then
      let u := min e (-7)
      let k := Fv.scaled n m e u + dn * 2 ^ (-7 - u).toNat + 2 ^ (-1 - u).toNat
      k / 2 ^ (-u).toNat
    else
      let k : Int := (toUnit .rne n m e 0 : Nat)
      if n then -k else k
  | _ => 0

/-- Dithered encoding on an element grid with linear step 2^s (R120 to R123, R128 to R130). A value that its offset takes to zero keeps its
sign (log 121). -/
def Grid.encode (g : Grid) (r : Rnd) (s : Int) (dn : Int) (x : Fv) : Enc :=
  match g with
  | .none_ => ⟨0, false⟩
  | .ieee f => ⟨f.code r false x, f.overflows r x⟩
  | .linear bits lo hi =>
    match x with
    | .nan _ => ⟨0, false⟩
    | .inf n => ⟨codeOf bits (if n then lo else hi), false⟩
    | v =>
      let q := linearCode v s dn (dn != 0)
      ⟨codeOf bits (clampInt lo hi q), decide (q < lo ∨ hi < q)⟩
  | .narrow f =>
    match x with
    | .fin n m e => if m = 0 then f.encode x else f.encode (Fv.add n (.fin n m e) (ditherAt dn (f.ulp m e)))
    | v => f.encode v
  | .mf8 =>
    match x with
    | .fin n m e => if m = 0 then mf8Encode x else mf8Encode (Fv.add n (.fin n m e) (ditherAt dn (mf8Ulp m e)))
    | v => mf8Encode v

/-- Dithered decoding on an element grid (R128 to R130). -/
def Grid.decode (g : Grid) (s : Int) (dn : Int) (c : Nat) : Fv :=
  match g with
  | .none_ => .fin false 0 0
  | .ieee f => f.value c
  | .linear bits _ _ => Fv.ofInt false (128 * signedOf bits c - dn) (s - 7)
  | .narrow f =>
    match f.value c with
    | .fin n m e => if m = 0 then .fin n m e else Fv.add n (.fin n m e) (ditherAt (-dn) (f.ulp m e))
    | v => v
  | .mf8 =>
    match mf8Value c with
    | .fin n m e => if m = 0 then .fin n m e else Fv.add n (.fin n m e) (ditherAt (-dn) (mf8Ulp m e))
    | v => v

/-- The linear step of a format in a tensor map: 1 for INT8 and INT4, 2^-6 times the block scale for MXINT8 (R129). -/
def Fmt.step : Fmt → Int
  | .mxint8 => -6 | _ => 0

/-- emax of an MX element format (R125). -/
def Fmt.emax : Fmt → Int
  | .mxe4m3 => 8 | .mxe5m2 => 15 | .mxe3m2 => 4 | .mxe2m3 => 2 | .mxfp4 => 2 | _ => 0

/-- Decode an element of a format with its canonical index, seed and, for MX, its block's scale code (R126, R129, R130). -/
def Fmt.decodeElem (f : Fmt) (seed : W32) (idx : W64) (scale : Nat) (c : Nat) : Fv :=
  let dn := if f.dithered then ditherNum idx seed else 0
  if f.isMx then
    if scale = 255 then .nan false
    else (f.grid.decode f.step dn c).scale2 ((scale : Int) - 127)
  else f.grid.decode f.step dn c

/-- Encode one element of a format that is not MX. -/
def Fmt.encodeElem (f : Fmt) (r : Rnd) (seed : W32) (idx : W64) (x : Fv) : Enc :=
  f.grid.encode r f.step (if f.dithered then ditherNum idx seed else 0) x

/-- The greater of two magnitudes, as the exponent of its binade; none for zero. -/
def maxBinade : List Fv → Option Int
  | [] => none
  | .fin _ m e :: r =>
    if m = 0 then maxBinade r else
    match maxBinade r with
    | none => some (binade m e)
    | some b => some (max (binade m e) b)
  | _ :: r => maxBinade r

/-- The scale code of an MX block (R125). -/
def mxScale (f : Fmt) (xs : List Fv) : Nat :=
  if xs.any (fun x => !x.isFin) then 255 else
  match maxBinade xs with
  | none => 0
  | some b => (clampInt (-127) 127 (b - f.emax) + 127).toNat

/-- Encode an element of an MX block with the block's scale code (R125, R130). -/
def mxEncodeElem (f : Fmt) (scale : Nat) (seed : W32) (idx : W64) (x : Fv) : Enc :=
  if scale = 255 then ⟨0, false⟩
  else f.grid.encode .rne f.step (ditherNum idx seed) (x.scale2 (127 - (scale : Int)))

end Sys2Proof.Machine
end

