-- ==== Sys2Proof/Machine/Fx.lean ====
section
/-! DEFINITION. FX128 accumulation (R139 to R144) and the fixed reduction tree (R145). -/

namespace Sys2Proof.Machine

/-- The special tag of an accumulator element (R139). -/
inductive FxTag where
  | none_ | posInf | negInf | nan
deriving DecidableEq, Repr

/-- An FX128 accumulator element (R139). -/
structure FxElem where
  x : W128
  count : Nat
  large : Bool
  tag : FxTag
deriving DecidableEq, Repr

def FxElem.zero : FxElem := ⟨0, 0, false, .none_⟩

def FxTag.ofSign (neg : Bool) : FxTag := if neg then .negInf else .posInf

/-- round_half_even(product / 2^(A - 96)) and whether the product lies off the grid (R140). -/
def fxGrid (anchor : Int) : Fv → Int × Bool
  | .fin n m e =>
    let u := anchor - 96
    let k : Int := (toUnit .rne n m e u : Nat)
    let off : Bool := decide (e < u) && m % 2 ^ (u - e).toNat != 0
    (if n then -k else k, off)
  | _ => (0, false)

/-- |v| ≥ 2^k for a finite value. -/
def magGe (k : Int) : Fv → Bool
  | .fin _ m e => m != 0 && decide (k ≤ binade m e)
  | _ => false

/-- fx128_add of R140: the element after the product, and whether the tile's INEXACT is set. Once the tag is NaN, finite products are not
added, as the pseudocode says and R141 denies (log 119). -/
def fxAdd (anchor : Int) (el : FxElem) (p : Fv) : FxElem × Bool :=
  let cnt := min (el.count + 1) (2 ^ 20 - 1)
  match p with
  | .nan _ => ({ el with tag := .nan, count := cnt }, false)
  | .inf n =>
    if el.tag = .nan then ({ el with count := cnt }, false)
    else if el.tag = .none_ ∨ el.tag = .ofSign n then ({ el with tag := .ofSign n, count := cnt }, false)
    else ({ el with tag := .nan, count := cnt }, false)
  | v =>
    if el.tag = .nan then ({ el with count := cnt }, false) else
    let (n, off) := fxGrid anchor v
    ({ x := el.x + BitVec.ofInt 128 n, count := cnt, large := el.large || magGe (anchor + 15) v, tag := el.tag }, off)

/-- An element is proven (R141). -/
def FxElem.proven (el : FxElem) : Bool := el.count ≤ 65536 && !el.large && el.tag == .none_

/-- What an element drains as before encoding, and whether UNPROVEN is set (R142). -/
def fxDrain (anchor : Int) (el : FxElem) : Fv × Bool :=
  match el.tag with
  | .posInf => (.inf false, false)
  | .negInf => (.inf true, false)
  | .nan => (.nan false, false)
  | .none_ =>
    let top := (el.x >>> 111).toNat
    let ok : Bool := el.proven || top == 0 || top == 2 ^ 17 - 1
    let x : Int := if ok then el.x.toInt else if el.x.msb then -(2 ^ 111) else 2 ^ 111 - 1
    (Fv.ofInt false x (anchor - 96), !el.proven)

/-- FX128 addition of an FP32 addend with anchor 0, modulo 2^128 (R144). -/
def fxAddF32 (x : W128) (a : Nat) : W128 := x + BitVec.ofInt 128 (fxGrid 0 (FFmt.fp32.value a)).1

/-- True for an FP32 code that is NaN or infinite. -/
def f32NonFinite (a : Nat) : Bool := !(FFmt.fp32.value a).isFin

/-- One level of the fixed tree: adjacent pairs, lower lane first; an absent child passes the other through (R145). -/
def treeLevel (op : Nat → Nat → Nat) : List (Option Nat) → List (Option Nat)
  | a :: b :: r =>
    (match a, b with
      | some x, some y => some (op x y)
      | some x, none => some x
      | none, y => y) :: treeLevel op r
  | [a] => [a]
  | [] => []

/-- The root of the five-level tree over 32 lanes (R145). -/
def treeRoot (op : Nat → Nat → Nat) (lanes : List (Option Nat)) : Option Nat :=
  ((treeLevel op (treeLevel op (treeLevel op (treeLevel op (treeLevel op lanes))))).head?).getD none

end Sys2Proof.Machine
end

