-- ==== Sys2Proof/Machine/State.lean ====
section
/-! DEFINITION. The state of one DX8 device as plain data: thread groups, tasks, futures, scopes, storage, engines, queues,
translation, management, and the model's own agenda. Every field cites the rule that names it. -/

namespace Sys2Proof.Machine

open Sys2Proof

/-- Reasons for which the machine stops. -/
inductive Fault where
  /-- Raised by Step alone, when the device is powered off, in recovery or failed and no agent has a turn: nothing can run until a
  boot (R408, R421, R439). Safe: the hardware takes no step there either. -/
  | poweredOff
deriving DecidableEq, Repr

/-- Reasons for which the machine has no meaning for an instruction. -/
inductive Refusal where
  /-- Raised by an arm of Dispatch whose instruction has no meaning yet. Safe: no run passes it. -/
  | notModelled (mnemonic : String)
deriving DecidableEq, Repr

/-- The result of a step. -/
abbrev Out (σ : Type) := Host.Outcome σ Fault Refusal

/-- One lane vector: 32 lanes (R26). -/
abbrev Lanes := Vector W32 32

/-- How a thread group stands with the issue logic (R47, R51, R54, R287, R301, R322). -/
inductive TStatus where
  | free
  | ready
  | stalled
  | parked (kind : Nat) (obj : W64)
  /-- Held for a save after a group; woken says that the group was a wait, now complete (R52, R55). -/
  | held (woken : Bool)
  | yielding (until_ : Nat)
  /-- Stopped by HALT or a halting BREAK: by the debugger's leave, which can resume it, or below HALT, until the next boot (R419). -/
  | halted (dbg : Bool)
  /-- Retired, or stopped by a kill: it issues no more and holds its place until its task lets go of its resources (R27, R79, R300). -/
  | stopped
deriving DecidableEq, Repr

/-- What ended a wait, as the settling side recorded it (R55, R78, R82). -/
inductive Wake where
  | value (v : W64) (p : Bool)
  | cancelled
  | faulted (code : Half) (addr : W64)
  | stale (reason : Nat)
  | code (n : W64)
  | go
  | ended
deriving DecidableEq, Repr

/-- A tensor map (R132). -/
structure TMap where
  base : W64
  format : Nat
  rank : Nat
  flags : Nat
  seed : W32
  dims : List Nat
  bstride : List W64
  dstride : List W64
  dbase : W64
  scaleBase : W64
  scaleStride : W64
  sstride2 : W32
  sstride3 : W32
deriving DecidableEq, Repr

/-- A ring descriptor (R261). -/
structure RingDesc where
  off : Nat
  slotBytes : Nat
  slots : Nat
  flags : Nat
  tagOff : Nat
  reservedOk : Bool
deriving DecidableEq, Repr

/-- A footprint entry with the snapshots that SPAWN takes (R30, R32). -/
structure Footprint where
  addr : W64
  map : W64
  origin : List Nat
  extent : List Nat
  ring : W64
  tmap : TMap
  rdesc : RingDesc
  /-- The ring index that the copy of its tile has claimed (R38). -/
  slot : Nat
  landed : Bool
deriving DecidableEq, Repr

/-- What a descriptor says, with the structures that its footprint names (R28 to R30). -/
structure SpawnInfo where
  desc : W64
  entry : W64
  flag : W64
  args : List W64
  reserved : Bool
  fps : List Footprint
deriving DecidableEq, Repr

/-- What SPAWN has read: its snapshot, or the address of a structure that it could not read (R32, R289). -/
inductive Snap where
  | info (i : SpawnInfo)
  | unreadable (a : W64)
deriving DecidableEq, Repr

/-- Progress of an instruction that takes more than one step: the model's own (log 9). -/
structure Phase where
  /-- Request in flight that this instruction waits for. -/
  req : Option Nat
  /-- Next lane of a returning atomic, or step of a form. -/
  next : Nat
  /-- Results of the lanes done so far, by lane: bytes, and the poison of each; a byte with no mark is clean. -/
  acc : KMap Nat (List Byte × List Bool)
  /-- Sequence number from which the instruction counts earlier stores (R103). -/
  mark : Option Nat
  /-- Index that CQPUSH has claimed (R273). -/
  claim : Option W64
  /-- The snapshot of SPAWN, taken once (R289). -/
  snap : Option Snap
  /-- The futures that a deep cancel has still to reach (R76). -/
  todo : Option (List W64)
  /-- Structures that the instruction has read, each once, by their addresses: bytes, each with its poison (R112, R248). -/
  snaps : List (Nat × List (Byte × Bool))
deriving DecidableEq, Repr

def Phase.start : Phase := ⟨none, 0, [], none, none, none, none, []⟩

/-- A thread group (R26, R41, R189, R315). -/
structure TG where
  loc : TgRef
  status : TStatus
  dbg : Bool
  task : W64
  piece : Nat
  tgid : Nat
  width : Nat
  vregs : Nat
  uregs : Nat
  super : Bool
  asid : Half
  /-- The context that it belongs to: that of its futures, scopes and queues, whatever ASID holds (R315, register 25). -/
  ctx : Half
  pc : W64
  npc : W64
  spMask : Option W32
  s : Vector W64 64
  sp : W64
  v : Vector Lanes 256
  vp : Vector W32 256
  p : Vector W32 8
  pp : Vector W32 8
  k : Byte
  kp : Byte
  x : W32
  rings : Vector W64 16
  tok : Vector Nat 8
  qctx : W64
  qbase : W64
  qpoison : Bool
  scopeId : W64
  trapBase : W64
  trapCause : W64
  trapPc : W64
  trapAddr : W64
  trapInfo : W64
  trapSave : W64
  cntSel : W64
  launchx : W64
  det : Bool
  k10 : Bool
  k12 : Bool
  /-- No safe point came in time: the thread group stops after its next instruction (R54). -/
  stopping : Bool
  wake : Option Wake
  phase : Phase
  barArrived : Bool
  /-- The barrier has completed before the thread group, restored into it, has executed its BAR again (R242, R342). -/
  barOver : Bool
  age : Nat
  lsBase : Nat
  lsKib : Nat
  /-- Class of the message of a handler activation (R309). -/
  hcls : Nat
  /-- What GSTAT reports of the last stream that ended on a token (R278). -/
  gstat : KMap Nat W64
  /-- The time in ns at which the wait began (R73). -/
  parkedAt : Nat
  /-- The instruction of the group under execution: a group that waits is not fetched again (R168). -/
  cur : Option Instr
  /-- The group under execution has failed its checker once and is being retried (R332). -/
  pipe : Bool
  /-- Single step of the debugger: 1 asked for, 2 under way (R419). -/
  stepping : Nat
  /-- Words of its registers whose errors have been counted and not written since: file, register, lane; the file plus 16 where only a
  corrected error has been (R426). -/
  found : List (Nat × Nat × Nat)
deriving DecidableEq, Repr

/-- A thread group with every register at zero: the free value of a slot (log 1). -/
def TG.zero (loc : TgRef) : TG :=
  { loc, status := .free, dbg := false, task := 0, piece := 0, tgid := 0, width := 1, vregs := 0, uregs := 0, super := false,
    asid := 0, ctx := 0, pc := 0, npc := 0, spMask := none, s := Vector.replicate 64 0, sp := 0,
    v := Vector.replicate 256 (Vector.replicate 32 0), vp := Vector.replicate 256 0, p := Vector.replicate 8 0,
    pp := Vector.replicate 8 0, k := 0, kp := 0, x := 0, rings := Vector.replicate 16 0, tok := Vector.replicate 8 0, qctx := 0,
    qbase := 0, qpoison := false, scopeId := 0, trapBase := 0, trapCause := 0, trapPc := 0, trapAddr := 0, trapInfo := 0,
    trapSave := 0, cntSel := 0, launchx := 0, det := false, k10 := false, k12 := false, stopping := false, wake := none, phase := .start,
    barArrived := false, barOver := false, age := 0, lsBase := 0, lsKib := 0, hcls := 0, gstat := [], parkedAt := 0,
    cur := none, pipe := false, stepping := 0, found := [] }

/-- The scheduler's state of a task (R61, R62): what the future's code shows, and whether a save or a restore is under way. -/
inductive TaskSt where
  | queued | prefetch | running | saved | restoring | gone
deriving DecidableEq, Repr

/-- Where a pre-emption request came from (R321, R448, R54). -/
inductive PreemptBy where
  | csave (t : TgRef)
  | slice (entry : Nat)
deriving DecidableEq, Repr

/-- A pre-emption request (R54): the save area, who asked, and the cycle in which it was raised. -/
structure Preempt where
  area : W64
  by_ : PreemptBy
  since : Nat
  /-- The cycle up to which the limit has been counted: it does not run while a thread group is halted (R419). -/
  seen : Nat
  /-- The state code when the request was raised (R321). -/
  prior : Nat
  /-- No safe point came in time: the task is stopped and saved whole (R54). -/
  forced : Bool
deriving DecidableEq, Repr

/-- The lineage of a task or promise that descends from a LAUNCH (R376): queue id and packet index. -/
structure Lineage where
  queue : Nat
  index : Nat
deriving DecidableEq, Repr

/-- The states of a future (R61). -/
inductive FSt where
  | queued | prefetch | running | parked | resolved | cancelled | faulted
deriving DecidableEq, Repr

/-- A terminal state on its way into an entry (R62): a RETIRE, a kill or a teardown that the entry holds, invisible, until the release
of R64 completes. -/
structure Ending where
  st : FSt
  value : W64
  poison : Bool
  code : Half
  addr : W64
deriving DecidableEq, Repr

/-- A waiter record of a thread group of another device (R67). -/
structure FarWaiter where
  dev : Nat
  tg : TgRef
deriving DecidableEq, Repr

/-- A future entry (R58 to R74). -/
structure Fut where
  h : W64
  asid : Half
  st : FSt
  value : W64
  poison : Bool
  code : Half
  addr : W64
  promise : Bool
  detached : Bool
  waiters : List TgRef
  /-- Waiters of other devices (R67). -/
  far : List FarWaiter
  /-- The action that the entry holds; no other applies to it meanwhile (R62). -/
  ending : Option Ending
  scope : Option Nat
  lineage : Option Lineage
  order : Nat
  settledAt : Nat
  spilled : Option Nat
  /-- The entry of its table that it occupies while resident: its own slot, or after a refill another that was free (R59, R72). -/
  place : Nat
deriving DecidableEq, Repr

/-- The states of a finish scope (R84). -/
inductive ScSt where
  | free | open_ | closed | done
deriving DecidableEq, Repr

/-- A finish scope record (R84). -/
structure Scope1 where
  st : ScSt
  parent : Option Nat
  count : Nat
  waiters : List TgRef
deriving DecidableEq, Repr

/-- Per-context state: hamper (R70), scopes (R84), the quiescence timer (R50). -/
structure Ctx where
  hbase : Nat
  logn : Nat
  /-- HAMPER is being moved, and where its records still lie (R70). -/
  moving : Bool
  oldBase : Nat
  usedRecs : List Nat
  scopes : KMap Nat Scope1
  quietSince : Option Nat
  deadlocked : Bool
  fullPosted : Bool
deriving DecidableEq, Repr

/-- What a store-buffer entry does at its ordering point (R98, R233, R236, R339); read is a load on its way to a peer (R402). -/
inductive StOp where
  | store
  | nibLo
  | nibHi
  | atom (minor : Nat)
  | read (n : Nat)
deriving DecidableEq, Repr

/-- An entry of a core's store FIFO: the store buffer, then the side log (R98, R114). -/
structure StEnt where
  tg : TgRef
  task : W64
  super : Bool
  asid : Half
  va : W64
  op : StOp
  data : List Byte
  poison : Bool
  inLog : Bool
  seq : Nat
deriving DecidableEq, Repr

/-- A write or atomic in flight beyond its die's ordering point (R99, R102, R105): a write-pending entry until acknowledged. -/
structure Wr where
  id : Nat
  die : Nat
  ent : StEnt
  host : Bool
  /-- Where the translation at its acceptance leads: an extended address, or with peer set the peer's physical address. -/
  at_ : Nat
  peer : Option Nat
  /-- Entries of one instruction that fall in one unit of this many bytes are one access: a line, or a word of an uncached host
  window (R230, R366). -/
  unit : Nat
  gen : Nat
  applied : Bool
  acks : List Nat
  ret : Bool
  /-- The bytes that it returns, and the poison of each; a byte with no mark is clean. -/
  old : Option (List Byte × List Bool)
  done : Bool
  /-- An invalidation or a darning has named its page since: the line does not stay as a replica (R389, R390, R398). -/
  dropped : Bool
deriving DecidableEq, Repr

/-- A collapse on its way to a replica die, and its acknowledgement (R102). -/
structure Col where
  id : Nat
  wr : Option Nat
  home : Nat
  die : Nat
  asid : Half
  /-- The virtual address of the line, which tags it with the ASID (R89). -/
  va : Nat
  line : Nat
  applied : Bool
deriving DecidableEq, Repr

/-- A replica in a die's slice (R93): the line's bytes and the poison of its 32 words. Its tag is the ASID and the virtual address
(R89). -/
structure Replica where
  die : Nat
  asid : Half
  /-- The virtual address of the line where it was read. -/
  va : Nat
  line : Nat
  data : List Byte
  poison : List Bool
  /-- Blocks whose errors have been counted, plus 16 where only a corrected error has been (R426). -/
  found : List Nat
deriving DecidableEq, Repr

/-- Replication state of a 2 MiB region at a home die (R93, R94). -/
structure Region where
  die : Nat
  asid : Half
  base : Nat
  degree : Nat
  reads : Nat
  writes : Nat
  collapses : Nat
deriving DecidableEq, Repr

/-- A WAITV watch on a line at its home (R243). -/
structure Watch where
  die : Nat
  tg : TgRef
  asid : Half
  line : Nat
deriving DecidableEq, Repr

/-- A ring-table entry (R262). -/
structure Ring where
  desc : W64
  asid : Half
  /-- The task's piece that it belongs to, where the task is split: its handle and the piece's number (R42, log 58). -/
  part : Option (W64 × Nat)
  rd : RingDesc
  w : Nat
  c : Nat
  r : Nat
  f : Nat
  landed : List Nat
  freed : List Nat
deriving DecidableEq, Repr

/-- A byte range that an engine operation holds (R110): lowest byte, one past the last, and the ASID of a virtual range. -/
structure LockRange where
  lo : Nat
  hi : Nat
deriving DecidableEq, Repr

/-- A range-lock entry (R110). -/
structure RLock where
  idx : Nat
  op : Nat
  owner : Option TgRef
  asid : Half
  srcs : List LockRange
  dsts : List LockRange
deriving DecidableEq, Repr

/-- A format context (R251). -/
structure FmtCtx where
  afmt : Nat
  bfmt : Nat
  ofmt : Nat
  flags : Nat
  anchor : Int
  dseed : W32
deriving DecidableEq, Repr

/-- One of a core's two tiles (R139, R143): the elements that differ from zero, the status word, and the poisoned elements (R334). -/
structure Tile where
  elems : KMap Nat FxElem
  status : Nat
  pois : List Nat
  /-- Elements whose errors have been counted and not written since, plus 2^20 where only a corrected error has been (R426). -/
  found : List Nat
deriving DecidableEq, Repr

def Tile.zero : Tile := ⟨[], 0, [], []⟩

/-- One byte that an engine writes, in part or whole: the virtual address, the bits, their value, the poison. -/
structure BW where
  va : Nat
  mask : Byte
  val : Byte
  p : Bool
deriving DecidableEq, Repr

/-- What an engine operation does. -/
inductive EKind where
  | copy (kind : Nat)
  | copyRing (ring : W64) (idx : Nat)
  | gather (ring : W64) (desc : List Byte) (row : Nat) (stop : Bool) (claimed : Option Nat)
  | baddq (block : W64) (desc : List Byte)
  | topk (col : Bool) (desc : List Byte)
  | mma (acc : Nat) (ctx : FmtCtx) (ringA ringB : W64) (idxA idxB : Nat)
  | mmas (acc : Nat) (ctx : FmtCtx) (ringA ringB : W64) (idxA idxB : Nat)
  | mzero (acc : Nat)
  | mdrain (acc : Nat) (ctx : FmtCtx) (desc : List Byte) (ring : W64) (idx : Nat)
  | msave (acc : Nat) (ctx : Option FmtCtx) (addr : W64)
  | mload (acc : Nat) (addr : W64)
  /-- MCFG in its place of the queue; the operations behind it carry its context (R251, R253). -/
  | mcfg
  | mstat (acc : Nat)
  | footprint (i : Nat)
deriving DecidableEq, Repr

/-- What an engine's access to uncached host memory has done so far, an aligned 8-byte word at a time (R366): words read, by address, each
byte with its poison; and words written. -/
structure Words where
  got : List (Nat × List (Byte × Bool))
  put : List Nat
deriving DecidableEq, Repr

/-- An engine operation in flight (R108 to R110, R248, R253, R267 to R281). -/
structure EngOp where
  id : Nat
  tg : Option TgRef
  task : W64
  super : Bool
  asid : Half
  cl : ClId
  core : CoreId
  tok : Option Nat
  kind : EKind
  pkt : List Byte
  pktAddr : W64
  maps : List TMap
  queue : Option QRef
  index : Nat
  fault : Option Nat
  mark : Nat
  started : Bool
  /-- Ring handles that the instruction named (R263). -/
  handles : List Nat
  /-- The piece of a split task that issued it, whose rings it names (R42). -/
  part : Option (W64 × Nat)
  /-- The status with which the data ended, while the completion flag waits for the supervisor (R271). -/
  ended : Option Nat
  /-- The write that carries the completion flag to a register window: the operation completes when it is visible (R109). -/
  flagWr : Option Nat
  /-- What a drain has read from its tile and has still to write (R258). -/
  out : Option (List BW)
  /-- The PC of the instruction that issued it, and whether a checker has failed on it (R434). -/
  pc : W64
  failed : Bool
  /-- Words of uncached host memory that it has read and written so far (R366). -/
  words : Words
deriving DecidableEq, Repr

/-- What a saved task's area does not hold, kept by the model (log 23): each thread group's piece, TGID and private local store, the
ring entries its handles name for the pieces, and its stopped streams with the piece and TGID of each (R338, R339, R341). -/
structure Saved where
  homes : List (Nat × Nat × Nat)
  rings : List (W64 × Option (W64 × Nat) × RingDesc)
  streams : List (Nat × Nat × EngOp)
  /-- The tiles, with their format context, of pieces for which the area has no room (log 25). -/
  tiles : List (Nat × Tile × Tile × Option FmtCtx)
  /-- The thread groups, by piece and TGID, whose barrier had completed before they executed their BAR again (R342). -/
  over_ : List (Nat × Nat)
deriving DecidableEq, Repr

def Saved.none : Saved := ⟨[], [], [], [], []⟩

/-- A task (R26 to R42). -/
structure Task where
  handle : W64
  asid : Half
  super : Bool
  flagWord : W64
  entry : W64
  args : List W64
  fps : List Footprint
  own : Fin 4
  /-- The highest class inherited; 3, the lowest, while none is (R45). -/
  inh : Fin 4
  det : Bool
  lmask : W32
  launchx : W32
  lineage : Option Lineage
  scope : Option Nat
  /-- The task whose SPAWN made it; 0 for a LAUNCH (R50). -/
  spawner : W64
  st : TaskSt
  /-- The state that its scheduler has last reported to the future's entry (R360). -/
  told : FSt
  /-- Killed or torn down: its operations drain before it lets go of its resources (R79). -/
  dying : Bool
  queue : ClId
  spawnCore : CoreId
  order : Nat
  reserved : List (Nat × Nat)
  k10 : Bool
  pieces : Nat
  retiredPieces : List Nat
  dispatched : Nat
  firstFree : Option Nat
  retire : Option (W64 × Bool)
  preempt : Option Preempt
  /-- The area that CREST or the slice timer names for the restore, and the context that it is read in (R321, R448). -/
  area : Option (W64 × Half)
  aux : Saved
deriving DecidableEq, Repr

/-- The effective class: the highest of the own class and an inherited one; 0 is highest (R45). -/
def Task.eff (t : Task) : Fin 4 := min t.own t.inh

/-- A future action in flight to another die or device (R66). -/
structure Req where
  id : Nat
  /-- The device whose thread group asks, where it is another one. -/
  dev : Option Nat
  tg : TgRef
  op : FutOp
  h : W64
  v : W64
  vp : Bool
  eff : Fin 4
  reply : Option Wake
deriving DecidableEq, Repr

/-- What a scheduler of another die reports to a future's entry (R360). -/
inductive FutNote where
  | state (st : FSt)
  | ending (e : Ending)
deriving DecidableEq, Repr

/-- Such a report on message class 0. -/
structure FutMsg where
  id : Nat
  h : W64
  note : FutNote
deriving DecidableEq, Repr

/-- A scope-count update on message class 0 (R84, R360): the context, the scope, and the task that leaves; it is behind the settlement of
the task's future (R300, R360). -/
structure ScopeMsg where
  id : Nat
  task : W64
  asid : Half
  scope : Nat
deriving DecidableEq, Repr

/-- A message (R304 to R311). -/
structure Msg where
  id : Nat
  dst : CoreId
  cls : Nat
  len : Nat
  sender : W64
  reply : W64
  payload : List Byte
  asid : Half
  tg : Option TgRef
  answer : Option Nat
  arrived : Bool
deriving DecidableEq, Repr

/-- A claim or completion on its way to the mangle (R279, R364). -/
structure MReq where
  id : Nat
  tg : TgRef
  done : Bool
  addr : W64
  asid : Half
  nblk : Nat
  flagAddr : W64
  flagVal : W64
  super : Bool
  answer : Option W64
deriving DecidableEq, Repr

/-- A block queue of the mangle (R279). -/
structure BQ where
  addr : W64
  asid : Half
  next : Nat
  claimed : Nat
  done : Nat
deriving DecidableEq, Repr

/-- An entry of a core's handler table (R308). -/
structure Handler where
  value : W64
  asid : Half
  super : Bool
deriving DecidableEq, Repr

/-- Per-core state (R98, R251 to R253, R307 to R313, R333). -/
structure Core where
  fifo : List StEnt
  stopped : Bool
  /-- The page of the side log's head has been declared unmappable (R115, R393). -/
  discard : Bool
  inbox : List Msg
  spill : List Msg
  recvList : List Msg
  inboxovf : W64
  handlers : KMap Nat Handler
  /-- The format context of the operations that issue next (R251). -/
  mctx : Option FmtCtx
  a0 : Tile
  a1 : Tile
  /-- The task, and the piece of it, that hold the tiles (R26, R252). -/
  mowner : W64
  mpiece : Nat
  nacks : W64
  spills : W64
  quarantined : Bool
deriving DecidableEq, Repr

def Core.zero : Core :=
  { fifo := [], stopped := false, discard := false, inbox := [], spill := [], recvList := [], inboxovf := 0, handlers := [],
    mctx := none, a0 := .zero, a1 := .zero, mowner := 0, mpiece := 0, nacks := 0, spills := 0, quarantined := false }

/-- Per-cluster state (R37, R40, R59, R73, R110, R112, R262, R274, R317). -/
structure Cluster where
  xsteal : Nat
  steal : Bool
  turn : Nat
  /-- Times in ns of the cross-die steals of the last 10 µs (R37). -/
  steals : List Nat
  gens : KMap Nat Nat
  rings : List Ring
  locks : List RLock
  dcache : List (Half × W64 × List Byte × List Bool)
  pfUseful : Nat
  pfWasted : Nat
  pfLate : Nat
  pfDelay : Nat
  kicked : List (Half × W64 × Bool)
  mlast : Nat
  mcycle : Nat
  spadDt : Bool
deriving DecidableEq, Repr

def Cluster.zero : Cluster :=
  { xsteal := 0x10, steal := true, turn := 0, steals := [], gens := [], rings := [], locks := [], dcache := [],
    pfUseful := 0, pfWasted := 0, pfLate := 0, pfDelay := 0, kicked := [], mlast := 7, mcycle := 0, spadDt := false }

/-- Per-die state (R95, R97, R429 to R432). -/
structure Die where
  lowerth : Nat
  raiseth : Nat
  autoen : Bool
  counters : KMap Nat Nat
  ceth : Nat
  frameth : Nat
  slicedt : Nat
  /-- Code words whose mode bit is not the selected one, as ranges of bytes: of the slice from 0 on, of scratchpads by window address
  (R427). -/
  oldMode : List (Nat × Nat)
  sweeps : Nat
  testCl : Nat
  testCore : Nat
  /-- The core whose test waits or runs (R435). -/
  test : Option (Nat × Nat)
  testFail : Bool
  supply : Nat
  windowCe : KMap Nat Nat
  windowAt : KMap Nat Nat
  /-- Array kinds whose CE_THRESHOLD has been posted in their window (R431). -/
  cePosted : List Nat
  /-- Times of a frame's correctable errors of the last 24 h (R431). -/
  frameCe : KMap Nat (List Nat)
  /-- Error counts at the last telemetry record (R442). -/
  telCe : Nat
  telUe : Nat
  /-- Core 7 of cluster 23 was quarantined at boot: core 6 is reserved in its place (R12, R435). -/
  spare : Bool
deriving DecidableEq, Repr

def Die.zero : Die :=
  { lowerth := 0x100, raiseth := 0x40, autoen := true, counters := [], ceth := 0x400, frameth := 4, slicedt := 0, oldMode := [],
    sweeps := 0, testCl := 0, testCore := 0, test := none, testFail := false, supply := 0, windowCe := [], windowAt := [], cePosted := [],
    frameCe := [], telCe := 0, telUe := 0, spare := false }

/-- The queue control block as a slot snapshots it (R368). -/
structure QCB where
  hdr : W64
  asid : Half
  cls : Fin 4
  enabled : Bool
deriving DecidableEq, Repr

/-- A hardware queue slot (R373). -/
structure Slot where
  mapped : Bool
  drain : Bool
  latch : Bool
  err : Bool
  qid : Nat
  qcbAddr : W64
  rdidx : W64
  mapNs : Nat
  svcns : W64
  qcb : QCB
  awake : Bool
deriving DecidableEq, Repr

def Slot.zero : Slot := ⟨false, false, false, false, 0, 0, 0, 0, 0, ⟨0, 0, 0, false⟩, false⟩

/-- A packet that a serving engine has started and that is not complete (R274, R374, R376). -/
structure Pkt where
  id : Nat
  q : QRef
  qid : Option Nat
  index : Nat
  addr : W64
  asid : Half
  super : Bool
  cl : ClId
  cls : Fin 4
  bytes : List Byte
  /-- What the packet starts has started: a copy, or a launched task. -/
  live : Bool
  fut : W64
  outcome : Option Wake
  /-- The status with which the packet ends, while its completion flag waits for the supervisor (R271, R377). -/
  fin : Option (Nat × Nat)
  /-- The write that carries its flag to a register window. -/
  flagWr : Option Nat
  /-- The snapshot of a LAUNCH whose checks have passed and whose image is written, while it waits for an entry (R376). -/
  info : Option SpawnInfo
deriving DecidableEq, Repr

/-- An entry of the device event queue (R318). -/
structure EvEnt where
  typ : Nat
  asid : Half
  idx : Nat
deriving DecidableEq, Repr

/-- What a darning under way works on: the fields of DARNVA, DARNSRC and DARNDST at START (R398). -/
structure DarnJob where
  unmapped : Bool
  va : Nat
  asid : Half
  src : Nat
  dst : Nat
deriving DecidableEq, Repr

/-- The supervisor registers of die 0, cluster 0, core 0 (R371, R379, R380, R383, R401, R446). -/
structure SupRegs where
  pend : KMap Nat W64
  evBase : Nat
  evHostIrq : Bool
  evLogn : Nat
  qtearBusy : Bool
  qtearQid : Nat
  ctxbase : Nat
  tinvaddr : Nat
  tinvPages : Nat
  tinvAll : Bool
  tinvAsid : Half
  tinvBusy : Bool
  /-- TINVADDR when the invalidation under way began. -/
  tinvFrom : Nat
  fltBase : Nat
  fltLogn : Nat
  rtBusy : Bool
  rtErr : Bool
  rtErrIdx : Nat
  rtGen : Nat
  darnUnmapped : Bool
  darnVa : Nat
  darnAsid : Half
  darnSrc : Nat
  darnDst : Nat
  darnBusy : Bool
  darnErr : Bool
  darnCode : Nat
  darn : DarnJob
  shadow : KMap Nat W64
  active : KMap Nat W64
  /-- The table of the generation that a swap ends (R396). -/
  prev : KMap Nat W64
  peerBase : Nat
  peerEn : Bool
  peerXp : KMap Nat W64
  sliceTime : W64
  armed : Bool
  switching : Bool
  sliceShort : Bool
  inAsid : Half
  outAsid : Half
  /-- Entries of the save table that the switch under way has claimed (R448). -/
  claimed : List (Nat × W64)
  saveTab : Nat
  restTab : Nat
deriving DecidableEq, Repr

def SupRegs.zero : SupRegs :=
  { pend := [], evBase := 0, evHostIrq := false, evLogn := 10, qtearBusy := false, qtearQid := 0, ctxbase := 0, tinvaddr := 0,
    tinvPages := 0, tinvAll := false, tinvAsid := 0, tinvBusy := false, tinvFrom := 0, fltBase := 0, fltLogn := 8, rtBusy := false,
    rtErr := false, rtErrIdx := 0, rtGen := 0, darnUnmapped := false, darnVa := 0, darnAsid := 0, darnSrc := 0, darnDst := 0,
    darnBusy := false, darnErr := false, darnCode := 0, darn := ⟨false, 0, 0, 0, 0⟩, shadow := [], active := [], prev := [], peerBase := 0, peerEn := false, peerXp := [],
    sliceTime := 0, armed := false, switching := false, sliceShort := false, inAsid := 0, outAsid := 0, claimed := [], saveTab := 0,
    restTab := 0 }

/-- A pending-fault entry (R391): context and 64 KiB page. -/
structure PFault where
  asid : Half
  page : Nat
deriving DecidableEq, Repr

/-- An engine that a replayable fault can make wait (R39): a serving engine at a queue or for a packet, the save or restore of a task,
the mangle, an operation, or the refill of an entry. -/
inductive Waiter where
  | queue (q : QRef)
  | pkt (id : Nat)
  | task (h : W64)
  | mreq (id : Nat)
  | op (id : Nat)
  | fut (h : W64)
deriving DecidableEq, Repr

/-- A waiting engine with its context and 64 KiB page; dead once the page has been declared unmappable (R393). -/
structure EngWait where
  who : Waiter
  asid : Half
  page : Nat
  dead : Bool
deriving DecidableEq, Repr

/-- A write of the device's own hardware that waits for a page under darning (R398): bytes at a virtual address of a context, or an
event with its record (R379). -/
inductive HwJob where
  | write (asid : Half) (va : Nat) (bs : List Byte)
  /-- The record, and how many bytes of it have been written. -/
  | event (typ : Nat) (asid : Half) (bs : List Byte) (done : Nat)
deriving DecidableEq, Repr

/-- Everything of one device that a checkpoint captures (R14, R450) together with the rest of its run-time state. -/
structure Soc where
  mode : PartMode
  /-- A context has been created since the package's reset: the mode is fixed (R17, R445). -/
  created : Bool
  part : Nat
  devid : Nat
  me : TG
  tgs : List TG
  tasks : List Task
  futs : List Fut
  ctxs : KMap Half Ctx
  mem : List Host.Cell
  poison : List Nat
  /-- Code words, by array and address, whose errors have been counted and not written since; the array plus 16 where only a corrected error
  has been (R426). -/
  seen : List (Nat × Nat)
  cores : KMap CoreId Core
  clusters : KMap ClId Cluster
  dies : KMap Nat Die
  wrs : List Wr
  cols : List Col
  replicas : List Replica
  regions : List Region
  watches : List Watch
  ops : List EngOp
  reqs : List Req
  scopeMsgs : List ScopeMsg
  /-- Reports of schedulers to entries on other dies, oldest first (R360). -/
  futMsgs : List FutMsg
  /-- Replies and wakes that leave for thread groups of other devices (R66, R68). -/
  farOut : List (FarWaiter × Wake)
  /-- Class raises on their way to a task's scheduler (R45). -/
  raises : List (W64 × Fin 4)
  msgs : List Msg
  mreqs : List MReq
  bqs : List BQ
  slots : KMap Nat Slot
  /-- The QCB from which each queue was last mapped (R374, R381). -/
  qcbOf : KMap Nat W64
  pkts : List Pkt
  sup : SupRegs
  evq : List EvEnt
  evNext : Nat
  evUsed : List Nat
  evDropped : Nat
  faults : List PFault
  engWaits : List EngWait
  /-- Words of uncached host memory that other engines than an operation's have read and written so far, and the structures of their packet
(R112, R366). -/
  engWords : List (Waiter × Words)
  fltSeq : Nat
  /-- Hardware writes that wait, oldest first. -/
  hwq : List HwJob
  /-- Host accesses that wait for a page under darning, oldest first (R398, R400). -/
  hostq : List HostAcc
  /-- Context entries in effect that storage no longer holds: a change waits for its TINVCTL (R388). -/
  ctxOld : KMap Half (List Byte × Bool)
  badFrames : KMap Nat (List Nat)
  lost : List Nat
  links : KMap LinkRef Nat
  clock : Nat
  cycle : W64
  ptp : W64
  seq : Nat
  free : Nat
deriving DecidableEq, Repr

/-- An entry of the measurement log (R409). -/
structure LogEnt where
  kind : Nat
  svn : Nat
  digest : BitVec 256
deriving DecidableEq, Repr

/-- An entry of the fault history (R443). -/
structure HistEnt where
  time : W64
  typ : Nat
  die : Nat
  payload : List Byte
deriving DecidableEq, Repr

/-- One mailbox: its registers (R412, R413) and the command whose results wait to be published. -/
structure MB where
  busy : Bool
  cmd : Nat
  status : Nat
  args : List W64
  res : W64
  finished : Option (Nat × W64)
  /-- The time in ns at which the command started, and whether a wake has arrived since (R422). -/
  since : Nat
  woken : Bool
deriving DecidableEq, Repr

def MB.zero : MB := ⟨false, 0, 0, [0, 0, 0, 0], 0, none, 0, false⟩

/-- A bad-frame list in flash: its frames and the digest stored with it (R407). -/
structure FrameList where
  frames : List Nat
  digest : BitVec 256
deriving DecidableEq, Repr

/-- The buffer that the debugger names for TRACE: its address, its bytes, and the records written (R420). -/
structure TraceBuf where
  base : Nat
  size : Nat
  next : Nat
deriving DecidableEq, Repr

/-- A checkpoint image (R450): the captured device, its HBM under the contexts' keys (R418); whether its digest holds; and the partition
mode and serial it carries. -/
structure Image where
  soc : Soc
  /-- The 4 KiB units of storage that the image holds encrypted, each with its context. -/
  sealed_ : List (Nat × Half)
  /-- The contexts whose registers, accumulators and tables it holds, under their keys. -/
  holds : List Half
  intact : Bool
  mode : PartMode
  serial : BitVec 128
  bytes : Nat
deriving DecidableEq, Repr

/-- The management core (R406 to R424, R442 to R444). -/
structure Mgmt where
  lifecycle : Nat
  debug : Nat
  power : Nat
  recovery : Bool
  m : BitVec 256
  items : Nat
  log : List LogEnt
  nonce : Option (BitVec 256)
  nonces : Nat
  attests : Nat
  rootKeyHash : BitVec 256
  dbgKeyHash : BitVec 256
  fuseSecret : BitVec 256
  svns : List Nat
  running : List Nat
  serial : BitVec 128
  banks : KMap (Nat × Nat) (List Byte)
  activeBank : KMap Nat Nat
  badList : KMap Nat FrameList
  /-- Identifiers of the package's other devices, which the host assigns (R20, R413). -/
  siblings : List Nat
  history : List HistEnt
  telemSeq : Nat
  mb : MB
  hmb : MB
  /-- The mailbox whose command the management core serves: one command at a time (R412, R413). -/
  serving : Option MbBox
  /-- The mailbox that it served last: the other one is next, when both have a command (R413). -/
  lastServed : MbBox
  /-- The context keys (R418), and how many have been made. -/
  keys : KMap Half (BitVec 256)
  keyCount : Nat
  trace : Option TraceBuf
  /-- Chunks of a host FWSTAGE (R413). -/
  stage : List Host.Cell
  /-- Kinds whose other bank becomes active at the next boot (R414). -/
  staged : List Nat
  /-- An UNLOCK to HALT in PRODUCTION under way: its digest, and ERASEMEM (R418). -/
  unlocking : Option (BitVec 256 × Bool)
  brkHalt : Bool
  jtagOut : List Byte
  hostOut : List Byte
  peerOut : List PeerRes
  irqs : List Nat
  syncs : Nat
  failed : Bool
  off : Bool
  images : KMap Nat Image
deriving DecidableEq, Repr

/-- One turn of the interleaving: the model's own (log 3). -/
inductive Turn where
  | issue (t : TgRef)
  /-- Issue, with at most so many line accesses or lanes of an atomic after the first (R230, R237). -/
  | part (t : TgRef) (more : Nat)
  | event (i : Instr)
  | tick (cycles ns : Nat)
deriving DecidableEq, Repr

/-- The whole machine. -/
structure State extends Soc where
  mgmt : Mgmt
  agenda : List Turn
  /-- Line accesses or lanes of an atomic that the present turn still performs after its first; none: all of them (log 108). -/
  pace : Option Nat
deriving DecidableEq, Repr

/-- The place of the current thread group at reset: slot 0 of core 0, cluster 0, die 0. No task is there (log 4). -/
def tg0 : TgRef := ⟨⟨0, 0, 0⟩, 0⟩

/-- A device right after reset, no task resident. Registers without a reset value hold zero (log 1). -/
def Soc.reset : Soc :=
  { mode := .whole, created := false, part := 0, devid := 0, me := .zero tg0, tgs := [], tasks := [], futs := [], ctxs := [], mem := [],
    poison := [], seen := [], cores := [], clusters := [], dies := [], wrs := [], cols := [], replicas := [], regions := [], watches := [],
    ops := [], reqs := [], scopeMsgs := [], futMsgs := [], farOut := [], raises := [], msgs := [], mreqs := [], bqs := [], slots := [], qcbOf := [], pkts := [], sup := .zero,
    evq := [],
    evNext := 0, evUsed := [], evDropped := 0, faults := [], engWaits := [], engWords := [], fltSeq := 0, hwq := [], hostq := [], ctxOld := [], badFrames := [], lost := [], links := [],
    clock := 1200, cycle := 0, ptp := 0, seq := 0, free := 0 }

/-- The management core of a package: what fuses, flash and module hold is a package's own (log 10). -/
def Mgmt.reset : Mgmt :=
  { lifecycle := 2, debug := 0, power := 0, recovery := false, m := 0, items := 0, log := [], nonce := none, nonces := 0,
    attests := 0, rootKeyHash := 0, dbgKeyHash := 0, fuseSecret := 0, svns := [0, 0, 0], running := [0, 0, 0], serial := 0,
    banks := [], activeBank := [], badList := [], siblings := [], history := [], telemSeq := 0, mb := .zero, hmb := .zero, serving := none,
    lastServed := .host, keys := [], keyCount := 0, trace := none, stage := [], staged := [], unlocking := none,
    brkHalt := false, jtagOut := [], hostOut := [], peerOut := [], irqs := [], syncs := 0, failed := false, off := false,
    images := [] }

/-- The machine right after reset. -/
def State.reset : State := { Soc.reset with mgmt := .reset, agenda := [], pace := none }

end Sys2Proof.Machine
end

