-- ==== Sys2Proof/Machine/Mem.lean ====
section
/-! DEFINITION. Storage: one canonical list of bytes over extended addresses, and the poison marks of R334. Device physical
memory lies below 2^60, a window's storage at its own address (R22), host memory from 2^64, the keep tier from 2^65 and the
host mailbox page from 2^66. -/

namespace Sys2Proof.Machine

/-- What an address that nothing has written reads as (log 2). -/
def unwritten : Byte := 0

/-- Read one byte. -/
def memGet : List Host.Cell → Nat → Byte
  | [], _ => unwritten
  | (a', b) :: r, a => if a = a' then b else if a < a' then unwritten else memGet r a

/-- Write one byte, keeping addresses strictly rising and no entry equal to an unwritten byte. -/
def memSet (a : Nat) (b : Byte) : List Host.Cell → List Host.Cell
  | [] => if b = unwritten then [] else [(a, b)]
  | (a', b') :: r =>
    if a < a' then (if b = unwritten then (a', b') :: r else (a, b) :: (a', b') :: r)
    else if a = a' then (if b = unwritten then r else (a, b) :: r)
    else (a', b') :: memSet a b r

/-- Every address above lo, strictly rising, no unwritten byte. -/
def memWfFrom : Option Nat → List Host.Cell → Bool
  | _, [] => true
  | lo, (a, b) :: r => (match lo with | none => true | some l => decide (l < a)) && b != unwritten && memWfFrom (some a) r

/-- The canonical form. -/
def Memory.wf (m : List Host.Cell) : Bool := memWfFrom none m

/-- n bytes from an address. -/
def memBytes (m : List Host.Cell) (a : Nat) : Nat → List Byte
  | 0 => []
  | n + 1 => memGet m a :: memBytes m (a + 1) n

/-- Write bytes at rising addresses. -/
def memPut (a : Nat) : List Byte → List Host.Cell → List Host.Cell
  | [], m => m
  | b :: bs, m => memPut (a + 1) bs (memSet a b m)

/-- Extended addresses of the memories beyond the device's own address space. -/
def hostExt (a : Nat) : Nat := 2 ^ 64 + a
def keepExt (a : Nat) : Nat := 2 ^ 65 + a
def hmbExt (off : Nat) : Nat := 2 ^ 66 + off

/-- A window's storage has 32-bit granules; every other memory has 32-byte blocks (R334). -/
def granuleSize (a : Nat) : Nat := if 2 ^ 63 ≤ a ∧ a < 2 ^ 64 then 4 else 32
def granule (a : Nat) : Nat := a / granuleSize a * granuleSize a

/-- The mark of one 32-bit word: an accumulator save area in device memory has granules of that size (R334), marked 2^60 above the
word's address; windows have no others. -/
def wordMark (a : Nat) : Nat := if a < 2 ^ 60 then 2 ^ 60 + a / 4 * 4 else granule a

/-- Where the bytes of a mark begin, and how many they are. -/
def markAt (g : Nat) : Nat := if 2 ^ 60 ≤ g ∧ g < 2 ^ 61 then g - 2 ^ 60 else g
def markSize (g : Nat) : Nat := if 2 ^ 60 ≤ g ∧ g < 2 ^ 61 then 4 else granuleSize g

/-- The granules of n bytes from an address, lowest first. -/
def granulesOf (a n : Nat) : List Nat :=
  let g := granuleSize a
  (List.range ((a + n + g - 1) / g - a / g)).map (fun k => (a / g + k) * g)

/-- Whether a read of n bytes includes a byte of a poisoned granule (R334). -/
def isPoisoned (p : List Nat) (a n : Nat) : Bool :=
  p.any (fun g => decide (markAt g < a + n) && decide (a < markAt g + markSize g))

/-- The poison marks after one write of n bytes: poisoned data mark every granule they touch; clean data clear the granules
that they cover whole (R231, R334). -/
def poisonAfter (p : List Nat) (a n : Nat) (poison : Bool) : List Nat :=
  if poison then (granulesOf a n).foldl (fun q g => insertNat g q) p
  else p.filter (fun g => !(decide (a ≤ markAt g) && decide (markAt g + markSize g ≤ a + n)))

/-- Bytes of a code word, by its array, 16 more where only a corrected error has been counted (R425): a scratchpad's has 8, the others'
those of their granule. -/
def codeBytes (w : Nat × Nat) : Nat := if w.1 % 16 = 2 then 8 else granuleSize w.2

/-- Code words that a write replaces are counted anew when they fail (R426). -/
def unsee (seen : List (Nat × Nat)) (a n : Nat) : List (Nat × Nat) :=
  seen.filter (fun w => !(decide (w.2 < a + n) && decide (a < w.2 + codeBytes w)))

/-- n bytes of storage, and whether they include poison. -/
def Soc.get (s : Soc) (a n : Nat) : List Byte × Bool := (memBytes s.mem a n, isPoisoned s.poison a n)

/-- The context entries in effect after storage of n bytes at an address changes: those that the change touches stay as they were
until a TINVCTL names them (R388). -/
def Soc.keepCtx (s : Soc) (a n : Nat) : KMap Half (List Byte × Bool) :=
  let b := s.sup.ctxbase
  if n = 0 ∨ a + n ≤ b ∨ b + 2 ^ 21 ≤ a then s.ctxOld
  else
    let lo := (a - b) / 32
    let hi := (min (a + n) (b + 2 ^ 21) - 1 - b) / 32
    (List.range (hi + 1 - lo)).foldl (fun m k =>
      let i : Half := BitVec.ofNat 16 (lo + k)
      if (kfind i m).isSome then m else m ++ [(i, s.get (b + 32 * (lo + k)) 32)]) s.ctxOld

/-- One write to storage (R334). -/
def Soc.put (s : Soc) (a : Nat) (bs : List Byte) (poison : Bool) : Soc :=
  { s with mem := memPut a bs s.mem, poison := poisonAfter s.poison a bs.length poison, seen := unsee s.seen a bs.length,
           ctxOld := s.keepCtx a bs.length }

/-- One byte of an engine write: its extended address, its value, and whether it derives from poison (R249). -/
structure EByte where
  a : Nat
  b : Byte
  p : Bool
deriving DecidableEq, Repr

/-- The marks after one engine write of many bytes (R249, R334): a granule that takes a poisoned byte is marked; one that is
written whole and clean is cleared. -/
def poisonAfterE (p : List Nat) (es : List EByte) : List Nat :=
  let kept := p.filter (fun g => !(List.range (markSize g)).all (fun k => es.any (fun e => e.a == markAt g + k && !e.p)))
  (es.filter (·.p)).foldl (fun q e => insertNat (granule e.a) q) kept

/-- An engine write (R249). -/
def Soc.putE (s : Soc) (es : List EByte) : Soc :=
  { s with mem := es.foldl (fun m e => memSet e.a e.b m) s.mem, poison := poisonAfterE s.poison es,
           ctxOld := es.foldl (fun m e => ({ s with ctxOld := m } : Soc).keepCtx e.a 1) s.ctxOld,
           seen := s.seen.filter (fun w => !es.any (fun e => decide (w.2 ≤ e.a) && decide (e.a < w.2 + codeBytes w))) }

/-- The halves of bytes that one access writes, with the poison of each; of lanes that write one half the highest stands (R230). -/
def marksAfter (p : List Nat) (halves : List (Nat × Bool)) : List Nat :=
  let hs : KMap Nat Bool := halves.foldl (fun m x => kset x.1 x.2 m) []
  poisonAfterE p (((hs.map (·.1 / 2)).eraseDups).filterMap (fun a =>
    match kfind (2 * a) hs, kfind (2 * a + 1) hs with
    | some q, some r => some ⟨a, 0, q || r⟩
    | q, r => if q.getD false || r.getD false then some ⟨a, 0, true⟩ else none))

/-- An engine write of part of a byte: some of its bits (R249). It covers no granule. -/
def Soc.putPart (s : Soc) (a : Nat) (mask val : Byte) (p : Bool) : Soc :=
  { s with mem := memSet a ((memGet s.mem a &&& ~~~mask) ||| (val &&& mask)) s.mem,
           poison := if p then insertNat (granule a) s.poison else s.poison,
           seen := unsee s.seen a 1, ctxOld := s.keepCtx a 1 }

/-! ### Code words that await their selected mode (R427) -/

/-- Ranges without the bytes from lo to hi. -/
def cutRanges (lo hi : Nat) (l : List (Nat × Nat)) : List (Nat × Nat) :=
  l.flatMap (fun r => [(r.1, min r.2 lo), (max r.1 hi, r.2)].filter (fun x => decide (x.1 < x.2)))

/-- The selection of the bytes from lo to hi has changed: those that waited are in the selected mode again, and the others wait. -/
def flipRanges (lo hi : Nat) (l : List (Nat × Nat)) : List (Nat × Nat) :=
  cutRanges lo hi l ++ l.foldl (fun g r => cutRanges r.1 r.2 g) [(lo, hi)]

/-- REENC: some code word of the die is not in its selected mode. -/
def Die.reenc (d : Die) : Bool := !d.oldMode.isEmpty

/-- A little-endian word of storage (R3). -/
def Soc.word (s : Soc) (a n : Nat) : Nat := natOf (memBytes s.mem a n)

end Sys2Proof.Machine
end

