-- ==== Sys2Proof/Machine/Addr.lean ====
section
/-! DEFINITION. Windows (R22 to R25), homes and controllers (R90, R91, R395), and the page walk (R384 to R388, R401). -/

namespace Sys2Proof.Machine

/-- Dies, clusters and cores of the device (R17, R18, R20, R22). -/
def isGatewayDie (d : Nat) : Bool := 8 ≤ d
def PartMode.hasDie (m : PartMode) (d : Nat) : Bool :=
  decide (d < m.computeDies) || (isGatewayDie d && decide (d < 8 + m.gatewayDies))
def PartMode.hasCluster (m : PartMode) (c : ClId) : Bool :=
  PartMode.hasDie m c.die && (if isGatewayDie c.die then decide (c.cl < m.gatewayClusters) else decide (c.cl < 24))
def PartMode.hasCore (m : PartMode) (c : CoreId) : Bool := PartMode.hasCluster m c.cluster && decide (c.core < 8)

/-- The fields of a window address (R22). -/
structure Win where
  kind : Nat
  die : Nat
  cl : Nat
  core : Nat
  off : Nat
deriving DecidableEq, Repr

def winOf (a : Nat) : Win := ⟨fieldOf a 60 3, fieldOf a 56 4, fieldOf a 51 5, fieldOf a 48 3, fieldOf a 0 48⟩
def isWindow (a : Nat) : Bool := 2 ^ 63 ≤ a
def Win.cluster (w : Win) : ClId := ⟨w.die, w.cl⟩
def Win.coreId (w : Win) : CoreId := ⟨w.die, w.cl, w.core⟩

/-- Window addresses of the storage windows (R22, R23). -/
def spadAddr (c : ClId) (off : Nat) : Nat := 2 ^ 63 + c.die * 2 ^ 56 + c.cl * 2 ^ 51 + off
def localAddr (c : CoreId) (off : Nat) : Nat :=
  2 ^ 63 + 2 ^ 60 + c.die * 2 ^ 56 + c.cl * 2 ^ 51 + c.core * 2 ^ 48 + off

/-- Bytes of a cluster's scratchpad (R23). -/
def spadBytes (die : Nat) : Nat := if isGatewayDie die then 2 ^ 21 else 2 ^ 22

/-- Codes of the traps an address check raises (R327). -/
inductive AddrRes where
  | ok | address | priv
deriving DecidableEq, Repr

/-- The window checks of R24 and R372 for an access of z bytes, in the order ADDRESS, PRIV. -/
def winCheck (m : PartMode) (super write : Bool) (a z : Nat) : AddrRes :=
  let w := winOf a
  let gw := isGatewayDie w.die
  let bad :=
    match w.kind with
    | 0 => !PartMode.hasCluster m w.cluster || w.core != 0 || decide (spadBytes w.die < w.off + z)
    | 1 => !PartMode.hasCore m w.coreId || decide (2 ^ 18 < w.off + z)
    | 2 => !PartMode.hasCore m w.coreId || decide (2 ^ 19 < w.off + z) || write || gw
    | 3 => !PartMode.hasDie m w.die || gw || w.cl != 0 || w.core != 0 || decide (2 ^ 14 < w.off + z) || z != 8 || w.off % 8 != 0
    | 4 => !PartMode.hasCore m w.coreId || decide (2 ^ 16 < w.off + z) || z != 8 || w.off % 8 != 0
    | _ => true
  if bad then .address
  else if !super && (w.kind == 3 || w.kind == 4) then .priv
  else if !super && write && w.kind == 1 && decide (w.off < 1024) && decide (896 < w.off + z) then .priv
  else .ok

/-- R24 and R25 for any address. -/
def addrCheck (m : PartMode) (super write : Bool) (a z : Nat) : AddrRes :=
  if isWindow a then winCheck m super write a z else if 2 ^ 57 ≤ a then .address else .ok

/-- A region-table entry (R395). -/
structure RtEntry where
  v : Bool
  log2size : Nat
  base : Nat
  home : Nat
  pin : Bool
  log2g : Nat
  policy : Nat
  nocache : Bool
  reserved : Nat
deriving DecidableEq, Repr

def rtEntry (w : W64) : RtEntry :=
  let n := w.toNat
  ⟨bitOf n 63, fieldOf n 57 6, fieldOf n 21 36 * 2 ^ 21, fieldOf n 18 3, bitOf n 17, fieldOf n 11 6, fieldOf n 9 2, bitOf n 8,
    fieldOf n 0 8⟩

def RtEntry.covers (e : RtEntry) (va : Nat) : Bool := e.v && decide (va / 2 ^ e.log2size = e.base / 2 ^ e.log2size)

/-- The entry that governs an address: the lowest-numbered valid one that covers it (R395). -/
def rtLookup (t : KMap Nat W64) (va : Nat) : Option RtEntry :=
  (t.foldl (fun (best : Option (Nat × RtEntry)) p =>
    let e := rtEntry p.2
    if e.covers va then
      match best with
      | some (i, _) => if p.1 < i then some (p.1, e) else best
      | none => some (p.1, e)
    else best) none).map (·.2)

/-- The home die of a line (R90, R91). -/
def homeDie (m : PartMode) (t : KMap Nat W64) (va : Nat) : Nat :=
  match rtLookup t va with
  | some e => if e.pin then e.home else fold m.homeBits 45 (va / 2 ^ (if e.log2g = 0 then 12 else e.log2g))
  | none => fold m.homeBits 45 (va / 2 ^ 12)

/-- The controller that serves a line (R90, R91). -/
def servingCtrl (m : PartMode) (t : KMap Nat W64) (va : Nat) : Nat :=
  match rtLookup t va with
  | some e => fold m.homeBits 45 (va / 2 ^ (if e.log2g = 0 then 16 else e.log2g))
  | none => fold m.homeBits 45 (va / 2 ^ 16)

def isNocache (t : KMap Nat W64) (va : Nat) : Bool := (rtLookup t va).any (·.nocache)

/-- What an access does with memory, as far as translation asks (R386). -/
inductive Acc where
  | load | store | fetch
deriving DecidableEq, Repr

/-- The outcome of a translation (R387). stall: the page is being darned (R398). -/
inductive Tr where
  | phys (pa : Nat)
  | host (a : Nat) (uncached : Bool)
  | peer (dev pa : Nat)
  | replay
  | fatal
  | misplaced (pa : Nat)
  | poison
  | stall
deriving DecidableEq, Repr

/-- A physical address names memory of the device (R384). -/
def PartMode.paOk (m : PartMode) (pa : Nat) : Bool := decide (pa < 2 ^ 39) && decide (pa / 2 ^ 36 < m.controllers)

/-- Shift and width of the index of each level (R385). -/
def levelShift : Nat → Nat × Nat
  | 0 => (44, 13) | 1 => (32, 12) | 2 => (27, 5) | 3 => (21, 6) | _ => (16, 5)

/-- A leaf of size 2^sh reached by an access to va (R386, R387, R401). -/
def leafRes (s : Soc) (super : Bool) (acc : Acc) (va pte sh : Nat) : Tr :=
  let addr := fieldOf pte 8 52 * 256
  let tgt := fieldOf pte 6 2
  let denied := (!super && !bitOf pte 4) || (acc == .fetch && !bitOf pte 3) || (acc == .store && !bitOf pte 2)
  let peer := s.sup.peerBase + 8 * fieldOf addr 50 10
  if tgt = 3 ∧ s.sup.peerEn = true ∧ isPoisoned s.poison peer 8 = true then .poison
  else if addr % 2 ^ sh ≠ 0 ∧ tgt ≠ 3 then .fatal
  else if denied then .fatal
  else match tgt with
    | 0 =>
      let pa := addr + va % 2 ^ sh
      if !PartMode.paOk s.mode pa || pa / 2 ^ 36 != servingCtrl s.mode s.sup.active va ||
          (kget [] s.badFrames (pa / 2 ^ 36)).contains (pa / 2 ^ 16 * 2 ^ 16) then .misplaced pa
      else .phys pa
    | 1 => .host (addr + va % 2 ^ sh) false
    | 2 => .host (addr + va % 2 ^ sh) true
    | _ =>
      let frame := fieldOf addr 16 23 * 2 ^ 16
      let e := s.word peer 8
      let dev := fieldOf e 0 22
      if !s.sup.peerEn || !bitOf e 63 || fieldOf addr 39 11 != 0 || fieldOf addr 0 16 != 0 || frame % 2 ^ sh != 0 ||
          dev == s.devid then .fatal
      else .peer dev (frame + va % 2 ^ sh)

/-- The walk from a table of level 5 - fuel (R385, R387): a pointer ignores its other fields (R386). What R387 says of a leaf, of a
pointer and of a permission is asked of valid entries only (log 104). -/
def walkFrom (s : Soc) (super : Bool) (acc : Acc) (va : Nat) : Nat → Nat → Nat → Tr
  | 0, _, _ => .fatal
  | fuel + 1, level, base =>
    let (sh, wd) := levelShift level
    let at_ := base + 8 * fieldOf va sh wd
    let pte := s.word at_ 8
    if isPoisoned s.poison at_ 8 then .poison
    else if fieldOf pte 60 4 ≠ 0 then .fatal
    else if !bitOf pte 0 then (if bitOf pte 5 then .fatal else .replay)
    else if bitOf pte 1 then (if level = 0 then .fatal else leafRes s super acc va pte sh)
    else if level = 4 then .fatal
    else walkFrom s super acc va fuel (level + 1) (fieldOf pte 8 52 * 256)

/-- The context entry in effect: storage's, or the one before a change that no TINVCTL has named yet (R388, log 105). -/
def Soc.ctxEntry (s : Soc) (asid : Half) : List Byte × Bool :=
  (kfind asid s.ctxOld).getD (s.get (s.sup.ctxbase + 32 * asid.toNat) 32)

/-- The root of a context's table, or none when its context entry is not usable (R388). -/
def ctxRoot (s : Soc) (asid : Half) : Option Nat :=
  let (e, poison) := s.ctxEntry asid
  let flags := fieldAt e 8 2
  if poison then none
  else if !bitOf flags 0 || flags / 4 != 0 || fieldAt e 10 2 != 0 || fieldAt e 16 8 != 0 || fieldAt e 24 8 != 0 then none
  else some (fieldAt e 0 8)

/-- A context mirrors a host address space (R388, R390). -/
def ctxMirrors (s : Soc) (asid : Half) (space : Option W32) : Bool :=
  let e := (s.ctxEntry asid).1
  bitOf (fieldAt e 8 2) 1 && (match space with | none => true | some w => fieldAt e 12 4 == w.toNat)

/-- Translate one address of device memory (R387): every access that no replica serves, afresh (log 12). A page under darning stalls (R398). -/
def translate (s : Soc) (super : Bool) (acc : Acc) (asid : Half) (va : Nat) : Tr :=
  if s.sup.darnBusy && !s.sup.darn.unmapped && s.sup.darn.asid == asid && va / 2 ^ 16 == s.sup.darn.va / 2 ^ 16 then .stall
  else if (s.ctxEntry asid).2 then .poison
  else match ctxRoot s asid with
    | none => .fatal
    | some root => walkFrom s super acc va 5 0 root

/-- The region base and the line of an address (R13, R93). -/
def lineOf (va : Nat) : Nat := va / 128 * 128
def regionOf (va : Nat) : Nat := va / 2 ^ 21 * 2 ^ 21

end Sys2Proof.Machine
end

