-- ==== Sys2Proof/Machine/Ops.lean ====
section
/-! DEFINITION. The named operations over thread groups, units, events, futures, scopes and tasks; a kill (R79), taking an
exception (R326) and returning from one (R330), each once for all instructions. -/

namespace Sys2Proof.Machine

/-! ### Access to the parts of the state -/

def State.core (s : State) (c : CoreId) : Core := kget .zero s.cores c
def State.cluster (s : State) (c : ClId) : Cluster := kget .zero s.clusters c
def State.die (s : State) (d : Nat) : Die := kget .zero s.dies d
def State.slot (s : State) (n : Nat) : Slot := kget .zero s.slots n
def State.modCore (s : State) (c : CoreId) (f : Core → Core) : State := { s with cores := kset c (f (s.core c)) s.cores }
def State.modCluster (s : State) (c : ClId) (f : Cluster → Cluster) : State :=
  { s with clusters := kset c (f (s.cluster c)) s.clusters }
def State.modDie (s : State) (d : Nat) (f : Die → Die) : State := { s with dies := kset d (f (s.die d)) s.dies }
def State.modSlot (s : State) (n : Nat) (f : Slot → Slot) : State := { s with slots := kset n (f (s.slot n)) s.slots }
def State.modSup (s : State) (f : SupRegs → SupRegs) : State := { s with sup := f s.sup }
def State.modMgmt (s : State) (f : Mgmt → Mgmt) : State := { s with mgmt := f s.mgmt }
def State.modMe (s : State) (f : TG → TG) : State := { s with me := f s.me }
def State.onSoc (s : State) (f : Soc → Soc) : State := { s with toSoc := f s.toSoc }

/-- A fresh sequence number: identifiers and ages of the model's own records (log 9). -/
def State.bump (s : State) : State := { s with seq := s.seq + 1 }

/-- A fresh free value: an opaque word that nothing constrains (log 6). -/
def State.freeWord (s : State) : W64 := Config.freeWord s.free
def State.useFree (s : State) : State := { s with free := s.free + 1 }

/-- Every resident thread group. -/
def State.allTgs (s : State) : List TG := if s.me.status = .free then s.tgs else s.me :: s.tgs

def State.tgAt (s : State) (t : TgRef) : Option TG := s.allTgs.find? (fun g => g.loc == t)

/-- Change one thread group. -/
def State.modTg (s : State) (t : TgRef) (f : TG → TG) : State :=
  if s.me.loc = t then { s with me := f s.me } else { s with tgs := updFirst (fun g => g.loc == t) f s.tgs }

/-- Change every resident thread group of a task. -/
def State.modTask_tgs (s : State) (h : W64) (f : TG → TG) : State :=
  { s with me := if s.me.task = h ∧ s.me.status ≠ .free then f s.me else s.me,
           tgs := s.tgs.map (fun g => if g.task = h then f g else g) }

/-- The thread groups of a task that have neither retired nor been stopped; and with those, all that hold a place on a core. -/
def State.tgsOf (s : State) (h : W64) : List TG := s.allTgs.filter (fun g => g.task == h && h != 0 && g.status != .stopped)
def State.tgsAll (s : State) (h : W64) : List TG := s.allTgs.filter (fun g => g.task == h && h != 0)

/-- Take a thread group off its core. -/
def State.dropTg (s : State) (t : TgRef) : State :=
  { s with me := if s.me.loc = t then .zero t else s.me, tgs := s.tgs.filter (fun g => g.loc != t) }

/-- Put a thread group on a core. -/
def State.addTg (s : State) (g : TG) : State :=
  if s.me.status = .free ∧ s.me.loc = g.loc then { s with me := g } else { s with tgs := s.tgs ++ [g] }

/-- Bring a thread group into focus: the one whose instruction runs. -/
def State.focus (s : State) (t : TgRef) : State :=
  if s.me.loc = t then s
  else match s.tgs.find? (fun g => g.loc == t) with
    | none => s
    | some g =>
      let rest := s.tgs.filter (fun x => x.loc != t)
      { s with me := g, tgs := if s.me.status = .free then rest else rest ++ [s.me] }

/-! ### Ending a group (R168, R181) -/

/-- The thread group after its group has completed with the next group at t: a group with SP set is a safe point (R52, R173), and one
that a forced save stops is held as well (R54). -/
def TG.goto (g : TG) (t : W64) : TG :=
  { g with pc := t, phase := .start, wake := none, cur := none, pipe := false,
           status := if (g.spMask.isSome ∧ g.k12 = true) ∨ g.stopping = true then .held g.wake.isSome else .ready }

def TG.advance (g : TG) : TG := g.goto g.npc
def State.advance (s : State) : State := { s with me := s.me.advance }
def State.jump (s : State) (t : W64) : State := { s with me := s.me.goto t }
/-- A stall: the group executes again, and no pre-emption falls inside it (R248, R287). -/
def State.stall (s : State) : State := { s with me := { s.me with status := .stalled } }
/-- A parking wait (R51): the group executes again from its first step when it is woken (R288). -/
def State.park (s : State) (kind : Nat) (obj : W64) : State :=
  { s with me := { s.me with status := .parked kind obj, wake := none, parkedAt := s.ptp.toNat } }

/-- A group that parks executes again from its first step, and takes its snapshots anew (R112, R288). -/
def State.dropSnaps (s : State) : State := s.modMe (fun g => { g with phase := { g.phase with snaps := [] } })

/-- A parking wait (R51, R78): ended by k10 it completes without effect; with its condition met it takes its outcome; otherwise
it parks, or ends at once in a thread group whose k10 is set. -/
def State.waitFor (s : State) (kind : Nat) (obj : W64) (met : Bool) (done : State → State) : State :=
  if s.me.wake = some .ended then s.advance
  else if met then done s
  else if s.me.k10 then s.advance
  else s.dropSnaps.park kind obj

/-- Add to a die's counter (R97, R430). -/
def State.count (s : State) (d sel n : Nat) : State :=
  s.modDie d (fun x => { x with counters := kset sel ((kget 0 x.counters sel + n) % 2 ^ 64) x.counters })

/-! ### Code words in their selected mode (R427) -/

/-- A write encodes its code words in the selected mode: those of the bytes from lo to hi of a die. -/
def State.encode (s : State) (d lo hi : Nat) : State :=
  if (s.die d).oldMode = [] then s else s.modDie d (fun x => { x with oldMode := cutRanges lo hi x.oldMode })

/-- The code words of n bytes at an extended address, where a scratchpad holds them. -/
def State.encodeSpad (s : State) (a n : Nat) : State :=
  if isWindow a && (winOf a).kind == 0 then s.encode (winOf a).die (a / 8 * 8) ((a + n + 7) / 8 * 8) else s

/-- The code words of a line in a die's slice; where in the slice it lies is not given (log 130). -/
def State.encodeLine (s : State) (d va : Nat) : State :=
  let w := Config.sliceLine d (lineOf va) % 2 ^ 19 * 128
  s.encode d w (w + 128)

/-! ### Replicas, collapses and watches (R89, R93 to R97, R102, R243) -/

/-- A request of the new generation for a line whose home changes waits until the swap is complete (R396). -/
def State.swapWait (s : State) (va : Nat) : Bool := s.sup.rtBusy && homeDie s.mode s.sup.prev va != homeDie s.mode s.sup.active va

/-- The request leads to a line of the device's memory. -/
def Wr.toLine (w : Wr) : Bool := !w.host && w.peer.isNone && !isWindow w.ent.va.toNat

/-- A write of a die to the line of an address. -/
def Wr.onLine (w : Wr) (asid : Half) (va : Nat) : Bool :=
  !w.ret && w.toLine && w.ent.asid == asid && lineOf w.ent.va.toNat == lineOf va

/-- The die holds the line write-pending: its readers are served there (R99). -/
def State.pendingLine (s : State) (d : Nat) (asid : Half) (va : Nat) : Option Wr := s.wrs.find? (fun w => w.die == d && w.onLine asid va)
def State.linePending (s : State) (d : Nat) (asid : Half) (va : Nat) : Bool := (s.pendingLine d asid va).isSome

def State.region (s : State) (d : Nat) (asid : Half) (va : Nat) : Region :=
  (s.regions.find? (fun r => r.die == d && r.asid == asid && r.base == regionOf va)).getD ⟨d, asid, regionOf va, 0, 0, 0, 0⟩

def State.modRegion (s : State) (d : Nat) (asid : Half) (va : Nat) (f : Region → Region) : State :=
  let p := fun (r : Region) => r.die == d && r.asid == asid && r.base == regionOf va
  { s with regions := if s.regions.any p then updFirst p f s.regions else s.regions ++ [f (s.region d asid va)] }

/-- The degree of a line under a region table (R93, R94). -/
def State.degreeIn (s : State) (rt : KMap Nat W64) (asid : Half) (va : Nat) : Nat :=
  let top := s.mode.computeDies - 1
  match rtLookup rt va with
  | some e =>
    if e.nocache || e.policy == 1 then 0
    else if e.policy = 2 then min 7 top
    else min (s.region (homeDie s.mode rt va) asid va).degree top
  | none => min (s.region (homeDie s.mode rt va) asid va).degree top

/-- Under the active one. -/
def State.degree (s : State) (asid : Half) (va : Nat) : Nat := s.degreeIn s.sup.active asid va

/-- A replica of the line of an address, in one die or another: the tag is the ASID and the virtual line (R89). -/
def Replica.tags (r : Replica) (asid : Half) (va : Nat) : Bool := r.asid == asid && r.va == lineOf va
def State.replicaOf (s : State) (d : Nat) (asid : Half) (va : Nat) : Option Replica :=
  s.replicas.find? (fun r => r.die == d && r.tags asid va)
def State.replicasOf (s : State) (asid : Half) (va : Nat) : List Replica := s.replicas.filter (·.tags asid va)

/-- Replicas of a line that count towards its degree: those of dies that do not hold it write-pending (R93). -/
def State.plainReplicas (s : State) (asid : Half) (va : Nat) : List Replica :=
  (s.replicasOf asid va).filter (fun r => !s.linePending r.die asid va)

/-- Other dies that hold a line by a write of theirs that the home has applied and not acknowledged, each with the line's storage: they
drop it behind that acknowledgement (R96, R102). None while a collapse of the line is on its way to the writer's own die (log 131). -/
def State.lateHolders (s : State) (by_ : Option Nat) (home : Nat) (asid : Half) (va : Nat) : List (Nat × Nat) :=
  if s.cols.any (fun c => some c.die == by_ && c.asid == asid && c.va == lineOf va) then []
  else ((s.wrs.filter (fun w => w.applied && w.die != home && w.onLine asid va)).map (fun w => (w.die, lineOf w.at_))).eraseDups

/-- The dies to which a home sends a collapse of a line: those that hold a replica of it, but for the writer's own. -/
def State.holders (s : State) (by_ : Option Nat) (home : Nat) (asid : Half) (va : Nat) : List (Nat × Nat) :=
  let rs := (s.replicasOf asid va).filter (fun r => !s.wrs.any (fun w => w.applied && w.die == r.die && w.onLine asid va))
  (rs.map (fun r => (r.die, r.line)) ++ s.lateHolders by_ home asid va).filter (fun p => some p.1 != by_)

/-- The home sends a collapse to every die that holds the line; the identifiers that must be acknowledged (R102). Each one sent counts as
COLLSENT, and with window set among the collapses of the region's window (R94, log 106). -/
def State.sendCollapses (s : State) (wr : Option Nat) (by_ : Option Nat) (home : Nat) (asid : Half) (va : Nat) (window : Bool) :
    State × List Nat :=
  let rs := s.holders by_ home asid va
  if rs = [] then (s, [])
  else
    let s := s.count home 0x42 rs.length
    let s := if window then s.modRegion home asid va (fun r => { r with collapses := r.collapses + rs.length }) else s
    let s : State := rs.foldl (fun (s : State) r =>
      { s.bump with cols := s.cols ++ [⟨s.seq, wr, home, r.1, asid, lineOf va, r.2, false⟩] }) s
    (s, (s.cols.drop (s.cols.length - rs.length)).map (·.id))

def degreeUp (n : Nat) : Nat := if n = 0 then 1 else if n = 1 then 3 else 7
def degreeDown (n : Nat) : Nat := if n = 7 then 3 else if n = 3 then 1 else 0

/-- The replicas of the region's lines that a die homes are collapsed, after its degree was lowered; the window that follows does not
count these collapses (R94, log 106). -/
def State.collapseRegion (s : State) (r : Region) : State :=
  let mine := s.replicas.filter (fun x => x.asid == r.asid && regionOf x.va == r.base && homeDie s.mode s.sup.active x.va == r.die)
  ((mine.map (·.va)).eraseDups).foldl (fun (s : State) va => (s.sendCollapses none none r.die r.asid va false).1) s

/-- The end of a region's window (R94, R95). -/
def State.windowEnd (s : State) (die : Nat) (asid : Half) (va : Nat) : State :=
  let r := s.region die asid va
  let d := s.die die
  let top := s.mode.computeDies - 1
  let auto := d.autoen && (match rtLookup s.sup.active va with
    | some e => e.policy == 0 && !e.nocache
    | none => true)
  let s := s.modRegion die asid va (fun r => { r with reads := 0, writes := 0, collapses := 0 })
  if !auto then s
  else if d.lowerth < r.collapses then
    if r.degree = 0 then s
    else ((s.modRegion die asid va (fun r => { r with degree := degreeDown r.degree })).count die 0x45 1).collapseRegion r
  else if d.raiseth * max r.writes 1 < r.reads then
    if decide (min 7 top ≤ r.degree) then s
    else (s.modRegion die asid va (fun r => { r with degree := degreeUp r.degree })).count die 0x44 1
  else s

/-- An access that the home of a region counts. A full window ends before the access after it counts (R94): 65,536 accesses form one. -/
def State.countAccess (s : State) (home : Nat) (asid : Half) (va : Nat) (f : Region → Region) : State :=
  let r := s.region home asid va
  (if 65536 ≤ r.reads + r.writes then s.windowEnd home asid va else s).modRegion home asid va f

def State.countWrite (s : State) (home : Nat) (asid : Half) (va : Nat) : State :=
  (s.encodeLine home va).countAccess home asid va (fun r => { r with writes := r.writes + 1 })

/-- A home's write that is complete only with the collapses that it causes: each die that holds a replica of the line drops it; one that
holds it by a write of its own drops it when that is acknowledged, and shows the home's bytes meanwhile (R96, R102, R249). -/
def State.dropReplicas (s : State) (home : Nat) (asid : Half) (va : Nat) : State :=
  let rs := s.holders none home asid va
  if rs = [] then s
  else
    let s : State := rs.foldl (fun (s : State) (r : Nat × Nat) => (s.count r.1 0x43 1).count home 0x42 1) s
    { (s.modRegion home asid va (fun r => { r with collapses := r.collapses + rs.length })) with
      replicas := s.replicas.filter (fun r => !r.tags asid va)
      wrs := s.wrs.map (fun w => if w.applied && w.onLine asid va then { w with dropped := true } else w) }

/-- Every write to a line wakes its watchers (R243). -/
def State.wakeWatches (s : State) (a n : Nat) : State :=
  let hit := fun (w : Watch) => decide (w.line < a + n) && decide (a < w.line + 128)
  let s' := (s.watches.filter hit).foldl (fun (s : State) w => s.modTg w.tg (fun g => { g with wake := g.wake.or (some .go) })) s
  { s' with watches := s.watches.filter (fun w => !hit w) }

/-- A write at its storage: the bytes, the poison marks, and a wake for every watch on a line it touches (R243, R334). -/
def State.writeAt (s : State) (a : Nat) (bs : List Byte) (p : Bool) : State :=
  ((s.encodeSpad a bs.length).onSoc (·.put a bs p)).wakeWatches a bs.length

/-- A write through home slices by physical address or window: every replica of the lines goes, as for any write at a home (R102, R412). -/
def State.homeWrite (s : State) (a : Nat) (bs : List Byte) : State :=
  let s := s.writeAt a bs false
  let hit := fun (r : Replica) => decide (r.line < a + bs.length) && decide (a < r.line + 128)
  let s : State := (s.replicas.filter hit).foldl (fun (s : State) (r : Replica) =>
    let home := homeDie s.mode s.sup.active r.va
    ((s.count r.die 0x43 1).count home 0x42 1).modRegion home r.asid r.va (fun x => { x with collapses := x.collapses + 1 })) s
  { s with replicas := s.replicas.filter (fun r => !hit r) }

/-- TRACE records a PC sample, type 0, or an event in the buffer that the debugger names, which wraps (R420, log 118). -/
def State.trace (s : State) (typ : Nat) (pc : W64) : State :=
  match s.mgmt.trace with
  | none => s
  | some b =>
    if s.mgmt.debug = 0 then s
    else
      let rec_ := (List.range 4).flatMap (fun k => bytesOf 8 (Config.traceWord s.ptp typ pc k).toNat)
      (s.homeWrite (b.base + 32 * (b.next % (b.size / 32))) rec_).modMgmt (fun m => { m with trace := some { b with next := b.next + 1 } })

/-- The lines of device memory that n bytes at a virtual address touch. -/
def linesOf (va n : Nat) : List Nat := (List.range ((va + n + 127) / 128 - va / 128)).map (fun k => (va / 128 + k) * 128)

/-- A write of the device's hardware: performed at its home, each line's replicas collapsed with it. -/
def State.hwPut (s : State) (asid : Half) (va a : Nat) (bs : List Byte) : State :=
  let s := s.writeAt a bs false
  if isWindow va ∨ 2 ^ 60 ≤ a then s
  else (linesOf va bs.length).foldl (fun (s : State) v =>
    let home := homeDie s.mode s.sup.active v
    if isNocache s.sup.active v then s else (s.countWrite home asid v).dropReplicas home asid v) s

/-! ### Hardware writes to memory, events (R379, R454) -/

/-- Where the supervisor's own structures are reached: context 0, supervisor mode (log 13). -/
def supAsid : Half := 0

/-- The extended address that a hardware access of z bytes reaches, or why it does not: slow is more than one word of uncached host memory,
to be accessed word by word (R366); wait is a replayable fault, stall a page under darning or a line whose home changes. -/
inductive HwRes where
  | at_ (a : Nat)
  | slow (a : Nat)
  | wait
  | stall
  | bad
  | misplaced (pa : Nat)
deriving DecidableEq, Repr

def State.hwAddr (s : State) (asid : Half) (super : Bool) (acc : Acc) (va z : Nat) : HwRes :=
  match addrCheck s.mode super (acc == .store) va z with
  | .ok =>
    if isWindow va then (if (winOf va).kind < 2 then .at_ va else .bad)
    else match translate s.toSoc super acc asid va with
      | .phys pa => if s.swapWait va then .stall else .at_ pa
      | .host a un => if un && decide (8 < va % 8 + z) then .slow (hostExt a) else .at_ (hostExt a)
      | .replay => .wait
      | .stall => .stall
      | .misplaced pa => .misplaced pa
      | _ => .bad
  | _ => .bad

/-- A read by hardware, or an engine, of n bytes of uncached host memory at an extended address, one aligned 8-byte word at a time: the
bytes once each word has been read (R366). -/
def State.hwGather (s : State) (who : Waiter) (va n a : Nat) : State × Option (List (Byte × Bool)) :=
  let w := kget ⟨[], []⟩ s.engWords who
  let first := va / 8 * 8
  match (List.range ((va + n + 7) / 8 - va / 8)).find? (fun k => (kfind (first + 8 * k) w.got).isNone) with
  | none => ({ s with engWords := s.engWords.filter (fun x => x.1 != who) },
      some ((List.range n).map (fun i => (kget [] w.got ((va + i) / 8 * 8)).getD ((va + i) % 8) (0, false))))
  | some k =>
    let x := first + 8 * k
    let bs := (List.range 8).map (fun i => (memGet s.mem (a + x + i - va), isPoisoned s.poison (a + x + i - va) 1))
    ({ s with engWords := kset who { w with got := w.got ++ [(x, bs)] } s.engWords }, none)

/-- Fields placed at byte offsets of a zeroed payload. -/
def layout (n : Nat) (fs : List (Nat × Nat × Nat)) : List Byte :=
  bytesOf n (fs.foldl (fun acc f => acc + f.2.2 % 256 ^ f.2.1 * 256 ^ f.1) 0)

/-- The 64-byte event record (R379): payload fields are (offset from byte 0 of the record, bytes, value). -/
def eventRecord (typ die cl : Nat) (asid : Half) (time : W64) (fs : List (Nat × Nat × Nat)) : List Byte :=
  layout 64 ([(0, 2, typ), (2, 1, die), (3, 1, cl), (4, 2, asid.toNat), (8, 8, time.toNat)] ++ fs)

/-- The EVQ entry of an event at the next index of the area; a full area drops the event (R318, R379). -/
def State.noteEvent (s : State) (typ : Nat) (asid : Half) : State :=
  let n := 2 ^ s.sup.evLogn
  let idx := s.evNext % n
  if s.evUsed.contains idx then { s with evDropped := s.evDropped + 1 }
  else { s with evq := s.evq ++ [⟨typ, asid, idx⟩], evNext := (idx + 1) % n, evUsed := insertNat idx s.evUsed,
                mgmt := if s.sup.evHostIrq then { s.mgmt with irqs := s.mgmt.irqs ++ [typ] } else s.mgmt }

/-- Bytes at an address up to the end of its aligned 8-byte word. -/
def toWordEnd (va : Nat) (bs : List Byte) : List Byte := bs.take (8 - va % 8)

/-- An event's record, of which some bytes are written, at the next index of the area, then its EVQ entry. some: it waits, with so many
bytes written: the page is under darning, or a word of uncached host memory follows (R366). A record whose frame lies on another controller
posts that event too, whose own record fails in the same way (R92, log 13). -/
def State.eventNow (s : State) (typ : Nat) (asid : Half) (rec_ : List Byte) (done : Nat) : State × Option Nat :=
  let idx := s.evNext % 2 ^ s.sup.evLogn
  if s.evUsed.contains idx then (s.noteEvent typ asid, none)
  else
    let va := s.sup.evBase + 64 * idx + done
    let rest := rec_.drop done
    match s.hwAddr supAsid true .store va rest.length with
    | .at_ a => ((s.hwPut supAsid va a rest).noteEvent typ asid, none)
    | .slow a => (s.hwPut supAsid va a (toWordEnd va rest), some (done + (toWordEnd va rest).length))
    | .stall => (s, some done)
    | .misplaced _ => (if typ = 0x105 then s.noteEvent typ asid else (s.noteEvent typ asid).noteEvent 0x105 supAsid, none)
    | _ => (s.noteEvent typ asid, none)

/-- A command whose entry into quiescence a wake aborts: POWER and CHECKPOINT (R422, R450). -/
def MB.stops (b : MB) : Bool := b.busy && b.finished.isNone && (b.cmd == 6 || b.cmd == 0xB)
def MB.wake (b : MB) : MB := if b.stops then { b with woken := true } else b

/-- A wake source brings the device from P1 or P2 to P0, and aborts an entry under way (R422). -/
def State.wakeUp (s : State) : State :=
  s.modMgmt (fun m =>
    let m := { m with power := if m.power = 1 ∨ m.power = 2 then 0 else m.power }
    match m.serving with
    | some .device => { m with mb := m.mb.wake }
    | some .host => { m with hmb := m.hmb.wake }
    | none => m)

/-- Post one event, which wakes the device (R422). Behind hardware writes that wait, it waits too. -/
def State.post (s : State) (typ die cl : Nat) (asid : Half) (fs : List (Nat × Nat × Nat)) : State :=
  let rec_ := eventRecord typ die cl asid s.ptp fs
  let s := (s.trace typ 0).wakeUp
  if s.hwq = [] then
    match s.eventNow typ asid rec_ 0 with
    | (s, none) => s
    | (s, some n) => { s with hwq := [.event typ asid rec_ n] }
  else { s with hwq := s.hwq ++ [.event typ asid rec_ 0] }

/-- A misplaced frame posts its event (R92). -/
def State.misplaced (s : State) (asid : Half) (c : CoreId) (va pa : Nat) : State :=
  s.post 0x105 c.die c.cl asid [(24, 8, va), (32, 8, pa)]

/-- One hardware write in a context, supervisor mode, and what is left of it: all, where the page is under darning; the words after the
first, in uncached host memory (R366). A frame on the wrong controller posts its event (R92); a write that cannot be performed is skipped
(log 13). -/
def State.hwNow (s : State) (asid : Half) (va : Nat) (bs : List Byte) : State × Option HwJob :=
  match s.hwAddr asid true .store va bs.length with
  | .at_ a => (s.hwPut asid va a bs, none)
  | .slow a =>
    let n := (toWordEnd va bs).length
    (s.hwPut asid va a (toWordEnd va bs), some (.write asid (va + n) (bs.drop n)))
  | .stall => (s, some (.write asid va bs))
  | .misplaced pa => (s.misplaced asid ⟨0, 0, 0⟩ va pa, none)
  | _ => (s, none)

def State.hwWrite (s : State) (asid : Half) (va : Nat) (bs : List Byte) : State :=
  if s.hwq = [] then
    match s.hwNow asid va bs with
    | (s, none) => s
    | (s, some j) => { s with hwq := j :: s.hwq }
  else { s with hwq := s.hwq ++ [.write asid va bs] }

/-- A write of the supervisor's structures. -/
def State.supWrite (s : State) (va : Nat) (bs : List Byte) : State := s.hwWrite supAsid va bs

/-- A hardware write that waited, and what is left of it. -/
def State.hwJob (s : State) : HwJob → State × Option HwJob
  | .write asid va bs => s.hwNow asid va bs
  | .event t asid bs n =>
    match s.eventNow t asid bs n with
    | (s, m) => (s, m.map (.event t asid bs))

/-- Hardware writes that waited are performed, oldest first, up to one that must wait still or has words left (R366, R398). -/
def State.flushHw : Nat → State → State
  | 0, s => s
  | k + 1, s =>
    match s.hwq with
    | [] => s
    | j :: r =>
      match ({ s with hwq := [] } : State).hwJob j with
      | (s, none) => State.flushHw k { s with hwq := r ++ s.hwq }
      | (s, some j) => { s with hwq := j :: r ++ s.hwq }

/-! ### Futures and scopes (R58 to R87) -/

/-- Codes of R80. -/
def kADDRESS : Half := 1
def kPOISON : Half := 2
def kPIPELINE : Half := 3
def kUNHANDLED : Half := 4
def kRESOURCE : Half := 5
def kFOOTPRINT : Half := 6
def kTEARDOWN : Half := 7
def kNONDET : Half := 8
def kEXPLICIT : Half := 9
def kHAMPER : Half := 10

def FSt.terminal : FSt → Bool
  | .resolved | .cancelled | .faulted => true
  | _ => false

/-- The code that POLL reports (R61). -/
def FSt.code : FSt → Nat
  | .queued => 1 | .prefetch => 2 | .running => 3 | .parked => 4 | .resolved => 5 | .cancelled => 6 | .faulted => 7

/-- Fields of a handle (R58). -/
def hDevice (h : W64) : Nat := fieldOf h.toNat 42 22
def hDie (h : W64) : Nat := fieldOf h.toNat 38 4
def hCluster (h : W64) : Nat := fieldOf h.toNat 33 5
def hSlot (h : W64) : Nat := fieldOf h.toNat 20 13
def hGen (h : W64) : Nat := fieldOf h.toNat 4 16
def hKind (h : W64) : Nat := fieldOf h.toNat 0 4
def hTable (h : W64) : ClId := ⟨hDie h, hCluster h⟩

def mkHandle (dev : Nat) (c : ClId) (slot gen : Nat) : W64 :=
  BitVec.ofNat 64 (dev * 2 ^ 42 + c.die * 2 ^ 38 + c.cl * 2 ^ 33 + slot * 2 ^ 20 + gen * 16 + 1)

def State.fut (s : State) (h : W64) : Option Fut := s.futs.find? (fun f => f.h == h)
def State.modFut (s : State) (h : W64) (f : Fut → Fut) : State := { s with futs := updFirst (fun x => x.h == h) f s.futs }
def State.task (s : State) (h : W64) : Option Task := s.tasks.find? (fun t => t.handle == h)
def State.modTask (s : State) (h : W64) (f : Task → Task) : State :=
  { s with tasks := updFirst (fun x => x.handle == h) f s.tasks }

/-- R60: why a handle of this device is not valid. A handle of another device is judged there. -/
def State.stale (s : State) (h : W64) : Option Nat :=
  if hKind h ≠ 1 then some 1
  else if hDevice h ≠ s.devid then none
  else if !PartMode.hasCluster s.mode (hTable h) then some 2
  else if (s.fut h).isSome then none else some 3

def Ctx.zero : Ctx := ⟨0, 20, false, 0, [], [], none, false, false⟩
def State.ctx (s : State) (a : Half) : Ctx := kget .zero s.ctxs a
def State.modCtx (s : State) (a : Half) (f : Ctx → Ctx) : State := { s with ctxs := kset a (f (s.ctx a)) s.ctxs }

/-- A scope record: scope 0 is OPEN from the context's creation, the others start FREE (R84). -/
def Ctx.scope (c : Ctx) (i : Nat) : Scope1 := kget ⟨if i = 0 then .open_ else .free, none, 0, []⟩ c.scopes i
def State.scope (s : State) (a : Half) (i : Nat) : Scope1 := (s.ctx a).scope i
def State.modScope (s : State) (a : Half) (i : Nat) (f : Scope1 → Scope1) : State :=
  s.modCtx a (fun c => { c with scopes := kset i (f (c.scope i)) c.scopes })

/-- The scope that a promise or a rejected future belongs to (R87, R291, R298). -/
def State.ownScope (s : State) (a : Half) (id : W64) : Option Nat :=
  if id.toNat < 256 then
    match (s.scope a id.toNat).st with
    | .open_ | .closed => some id.toNat
    | _ => none
  else none

/-- A DONE scope returns to FREE once its futures are free and its waiter list is empty (R87). -/
def State.reapScopes (s : State) (a : Half) : State :=
  let over_ := fun (p : Nat × Scope1) => p.2.st == .done && p.2.waiters.isEmpty && !s.futs.any (fun f => f.asid == a && f.scope == some p.1)
  if (s.ctx a).scopes.any over_ then
    s.modCtx a (fun c => { c with scopes := c.scopes.map (fun p => if over_ p then (p.1, ⟨.free, none, 0, []⟩) else p) })
  else s

/-- The waiters of a scope whose count has come to zero are woken, and leave its list (R47, R84). -/
def State.wakeScope (s : State) (a : Half) (i : Nat) : State :=
  let ws := (s.scope a i).waiters
  if ws = [] then s
  else
    (ws.foldl (fun (s : State) t => s.modTg t (fun g => { g with wake := g.wake.or (some .go) })) s).modScope a i
      (fun c => { c with waiters := [] })

/-- A thread group leaves every waiter list of finish scopes (R84, R87). -/
def State.leaveScopes (s : State) (t : TgRef) : State :=
  let as_ := (s.ctxs.filter (fun c => c.2.scopes.any (fun p => p.2.waiters.contains t))).map (·.1)
  as_.foldl (fun (s : State) a =>
    (s.modCtx a (fun c => { c with scopes := c.scopes.map (fun p => (p.1, { p.2 with waiters := p.2.waiters.filter (· != t) })) })).reapScopes
      a) s

/-- Free a future: its entry and its hamper record (R62, R69). -/
def State.freeFut (s : State) (h : W64) : State :=
  match s.fut h with
  | none => s
  | some f =>
    let s := { s with futs := s.futs.filter (fun x => x.h != h) }
    let s := match f.spilled with
      | some r => s.modCtx f.asid (fun c => { c with usedRecs := c.usedRecs.filter (· != r) })
      | none => s
    s.reapScopes f.asid

/-- A scope becomes DONE: its waiters are woken, its terminal futures freed and the others marked detached; its parent counts one less
(R86, R87). Scopes nest at most 256 deep. -/
def State.scopeDone : Nat → State → Half → Nat → State
  | 0, s, _, _ => s
  | fuel + 1, s, a, i =>
    let sc := s.scope a i
    let s := (s.wakeScope a i).modScope a i (fun c => { c with st := .done, parent := none })
    let mine := s.futs.filter (fun f => f.asid == a && f.scope == some i)
    let s := mine.foldl (fun s f => if f.st.terminal then s.freeFut f.h else s.modFut f.h (fun x => { x with detached := true })) s
    let s := s.reapScopes a
    match sc.parent with
    | none => s
    | some p =>
      let pc := s.scope a p
      let s := s.modScope a p (fun c => { c with count := c.count - 1 })
      if pc.count ≠ 1 then s else if pc.st = .closed then s.scopeDone fuel a p else s.wakeScope a p

/-- A task or a child leaves a scope (R86). -/
def State.scopeLeaveNow (s : State) (a : Half) (i : Nat) : State :=
  let sc := s.scope a i
  let s := s.modScope a i (fun c => { c with count := c.count - 1 })
  if sc.count ≠ 1 then s else if sc.st = .closed then s.scopeDone 256 a i else s.wakeScope a i

/-- The future of a task has settled at its entry, where no report of the task is still under way to it (R300, R360). -/
def State.settled (s : State) (h : W64) : Bool :=
  s.futMsgs.all (fun m => m.h != h) && (match s.fut h with
    | some f => f.st.terminal
    | none => true)

/-- The leave of a task, seen from a cluster: at once at the scope records when the task's future has settled, otherwise a message of class 0,
which stays behind the settlement (R84, R300, R360). -/
def State.scopeLeave (s : State) (from_ : ClId) (h : W64) (a : Half) : Option Nat → State
  | none => s
  | some i =>
    if from_ = ⟨0, 0⟩ ∧ s.settled h = true then s.scopeLeaveNow a i
    else { s.bump with scopeMsgs := s.scopeMsgs ++ [⟨s.seq, h, a, i⟩] }

/-- What a waiter of a settled future is woken with (R68, R82). -/
def Fut.outcome (f : Fut) : Wake :=
  match f.st with
  | .resolved => .value f.value f.poison
  | .cancelled => .cancelled
  | .faulted => .faulted f.code f.addr
  | _ => .go

/-- A CSAVE of a task waits in this thread group (R321). -/
def TG.saver (g : TG) (h : W64) : Bool :=
  match g.status, g.cur with
  | .parked 1 o, some (.csave ..) => o == h
  | _, _ => false

/-- A pre-emption request withdrawn at a thread group. -/
def TG.release (g : TG) : TG :=
  { g with
    k12 := false
    stopping := false
    status := match g.status with
      | .held _ => .ready
      | x => x }

/-- The future of a task with a pre-emption request has settled: the request is withdrawn, and every CSAVE of the task completes with the
terminal state code (R405, R449). -/
def State.endSave (s : State) (h : W64) (st : FSt) : State :=
  let s := if ((s.task h).bind (·.preempt)).isSome then (s.modTask_tgs h TG.release).modTask h (fun t => { t with preempt := none }) else s
  let wake := fun (g : TG) => if g.saver h then { g with wake := g.wake.or (some (.code (BitVec.ofNat 64 st.code))) } else g
  { s with me := wake s.me, tgs := s.tgs.map wake }

/-- The entry takes a terminal state (R62): then every waiter is woken with it, unless its wait has ended before (R78), and the future
is freed when detached. A settled LAUNCH keeps its outcome for its completion (R377). -/
def State.conclude (s : State) (f : Fut) (e : Ending) : State :=
  let f' := { f with st := e.st, value := e.value, poison := e.poison, code := e.code, addr := e.addr, waiters := [], far := [],
                     ending := none, settledAt := s.seq }
  let s := s.bump.modFut f.h (fun _ => f')
  let s := f.waiters.foldl (fun s t => s.modTg t (fun g => { g with wake := g.wake.or (some f'.outcome) })) s
  let s : State := { s with
    pkts := s.pkts.map (fun (k : Pkt) => if k.fut = f.h then { k with outcome := k.outcome.or (some f'.outcome) } else k)
    farOut := s.farOut ++ f.far.map (fun w => (w, f'.outcome)) }
  let s := s.endSave f.h e.st
  if f.detached then s.freeFut f.h else s

/-- Settle a future that is not terminal. -/
def State.settle (s : State) (h : W64) (st : FSt) (v : W64) (p : Bool) (code : Half) (addr : W64) : State :=
  match s.fut h with
  | none => s
  | some f => if f.st.terminal then s else s.conclude f ⟨st, v, p, code, addr⟩

/-- Set k10 in every thread group of a task, and end their parked waits of R78; a wait whose condition is recorded keeps it. A
wait of kind 11 goes on, and so do the claimed wait of CQPUSH (R273) and RETIRE's (R300). -/
def TG.cancelled (g : TG) : TG :=
  { g with k10 := true,
           wake := match g.status with
             | .parked 11 _ => g.wake
             | .parked _ _ => if g.phase.claim.isSome then g.wake else g.wake.or (some .ended)
             | _ => g.wake }

/-- Entries resident in a cluster's table. -/
def State.resident (s : State) (c : ClId) : List Fut := s.futs.filter (fun f => hTable f.h == c && f.spilled.isNone)
/-- The lowest free entry of a table from lo on, among n (R358). -/
def State.freePlace (s : State) (c : ClId) (n lo : Nat) : Option Nat :=
  let used := (s.resident c).map (·.place)
  lowest (fun i => !used.contains i) n lo

/-- The condition registers k8 to k15 (R191). -/
def State.cond (s : State) (n : Nat) : Bool :=
  let c := s.core s.me.loc.core
  match n with
  | 8 => !c.recvList.isEmpty
  | 9 => !c.spill.isEmpty
  | 10 => s.me.k10
  | 11 => s.me.tok.toList.all (· == 0)
  | 12 => s.me.k12
  | 13 => s.me.super && !isGatewayDie s.me.loc.core.die &&
      s.sup.pend.any (fun p => (List.range 64).any (fun b =>
        p.2.getLsbD b && (64 * p.1 + b) % s.mode.computeDies == s.me.loc.core.die))
  | 14 => s.me.det
  | 15 => s.me.super && !s.evq.isEmpty
  | _ => false

/-- The condition of a parked wait that no settling side records is true (R78): the core's tiles, a message, an entry, a condition
register, the side log. -/
def State.metNow (s : State) (g : TG) : Bool :=
  match g.status with
  | .parked 6 o => o == 0 && (s.core g.loc.core).mowner == 0
  | .parked 7 o => (s.core g.loc.core).recvList.any (fun m => o.getLsbD m.cls)
  | .parked 8 _ => (s.freePlace g.loc.core.cluster 8176 0).isSome
  | .parked 9 o => State.cond { s with me := g } o.toNat
  | .parked 10 _ => !(s.core g.loc.core).fifo.any (fun e => e.inLog && e.tg == g.loc)
  | _ => false

/-- k10 in every thread group of a task; a wait whose condition is true by then wins over it (R78). -/
def State.setK10 (s : State) (h : W64) : State :=
  let f := fun (g : TG) => if s.metNow g then { g with k10 := true, wake := g.wake.or (some .go) } else g.cancelled
  (s.modTask_tgs h f).modTask h (fun t => { t with k10 := true })

/-! ### Rings (R262 to R266) -/

/-- A piece of a split task: its handle and the piece's number, by which it knows the rings of its own slices (R42, log 58). -/
abbrev PieceId := Option (W64 × Nat)
def TG.part (g : TG) : PieceId := if 1 < fieldOf g.launchx.toNat 40 8 then some (g.task, g.piece) else none

/-- The entry that a descriptor names for a piece, or for anyone else: the piece's own where it has one. -/
def State.ring (s : State) (c : ClId) (asid : Half) (part : PieceId) (desc : W64) : Option Ring :=
  let rs := (s.cluster c).rings.filter (fun r => r.desc == desc && r.asid == asid)
  (rs.find? (fun r => r.part.isSome && r.part == part)).or (rs.find? (·.part.isNone))

/-- The entries of a cluster's ring table, each of one descriptor and ASID (R262); the pieces of a split task share theirs (R42). -/
def Cluster.ringKeys (k : Cluster) : List (W64 × Half) := (k.rings.map (fun r => (r.desc, r.asid))).eraseDups
def Cluster.ringCount (k : Cluster) : Nat := k.ringKeys.length

def Ring.committed (r : Ring) : Nat := (r.c + 65536 - r.r) % 65536
def Ring.free (r : Ring) : Nat := (r.f + r.rd.slots + 65536 - r.w) % 65536
def Ring.slot (r : Ring) (i : Nat) : Nat := i % r.rd.slots

/-- C advances over landed slots, F over freed ones (R262). -/
def Ring.settleC : Nat → Ring → Ring
  | 0, r => r
  | k + 1, r =>
    if r.c ≠ r.w ∧ r.landed.contains (r.slot r.c) = true then
      Ring.settleC k { r with c := (r.c + 1) % 65536, landed := r.landed.filter (· != r.slot r.c) }
    else r
def Ring.settleF : Nat → Ring → Ring
  | 0, r => r
  | k + 1, r =>
    if r.f ≠ r.r ∧ r.freed.contains (r.slot r.f) = true then
      Ring.settleF k { r with f := (r.f + 1) % 65536, freed := r.freed.filter (· != r.slot r.f) }
    else r

def Ring.land (i : Nat) (r : Ring) : Ring := Ring.settleC r.rd.slots { r with landed := insertNat (r.slot i) r.landed }
def Ring.release (i : Nat) (r : Ring) : Ring := Ring.settleF r.rd.slots { r with freed := insertNat (r.slot i) r.freed }
def Ring.claimW (n : Nat) (r : Ring) : Ring := { r with w := (r.w + n) % 65536 }
def Ring.claimR (n : Nat) (r : Ring) : Ring := { r with r := (r.r + n) % 65536 }

/-- Change a ring; every ring wait of the cluster looks again (R47, R266). -/
def State.modRing (s : State) (c : ClId) (asid : Half) (part : PieceId) (desc : W64) (f : Ring → Ring) : State :=
  let key := (s.ring c asid part desc).bind (·.part)
  let hit := fun (r : Ring) => r.desc == desc && r.asid == asid && r.part == key
  let s := s.modCluster c (fun k => { k with rings := updFirst hit f k.rings })
  let poke := fun (g : TG) =>
    match g.status with
    | .parked k o => if (k = 5 ∨ k = 6) ∧ o = desc ∧ g.asid = asid ∧ g.loc.core.cluster = c then { g with wake := g.wake.or (some .go) } else g
    | _ => g
  { s with me := poke s.me, tgs := s.tgs.map poke }

/-- The window address of a slot, and of its tag (R261, R263). -/
def Ring.slotAddr (r : Ring) (c : ClId) (i : Nat) : W64 := BitVec.ofNat 64 (spadAddr c (r.rd.off + r.slot i * r.rd.slotBytes))
def Ring.tagAddr (r : Ring) (c : ClId) (i : Nat) : Nat := spadAddr c (r.rd.tagOff + 16 * r.slot i)

/-- The tag bytes: a tensor map and an origin (R261). -/
def tagBytes (m : W64) (o : List Nat) : List Byte := bytesOf 8 m.toNat ++ (List.range 4).flatMap (fun k => bytesOf 2 (o.getD k 0))

/-- Withdraw pending-fault entries that nothing waits on any more (R394). -/
def State.pruneFaults (s : State) : State :=
  { s with faults := s.faults.filter (fun e =>
      s.allTgs.any (fun g => g.asid == e.asid && (match g.status with
        | .parked 11 va => va.toNat / 2 ^ 16 == e.page / 2 ^ 16
        | _ => false)) ||
      s.ops.any (fun o => o.asid == e.asid && o.fault == some e.page) ||
      s.cores.any (fun c => c.2.stopped && (match (c.2.fifo.filter (·.inLog)).head? with
        | some x => x.asid == e.asid && x.va.toNat / 2 ^ 16 == e.page / 2 ^ 16
        | none => false)) ||
      s.engWaits.any (fun w => !w.dead && w.asid == e.asid && w.page == e.page)) }

/-- A thread group has a handle bound to a ring. -/
def State.binds (s : State) (g : TG) (r : Ring) : Bool :=
  r.desc != 0 && g.asid == r.asid && g.rings.toList.any (· == r.desc) &&
  (match s.ring g.loc.core.cluster g.asid g.part r.desc with
   | some x => x.part == r.part
   | none => false)

/-- An entry of the ring table goes when no handle is bound to it (R262, R263). -/
def State.dropRings (s : State) (c : ClId) : State :=
  s.modCluster c (fun k => { k with rings := k.rings.filter (fun r =>
    s.allTgs.any (fun g => g.loc.core.cluster == c && s.binds g r) ||
    (r.part.isNone && s.tasks.any (fun t => t.st == .prefetch && t.asid == r.asid && t.queue == c && t.fps.any (fun f => f.ring == r.desc)))) })

def State.unbind (s : State) (t : TgRef) : State :=
  (s.modTg t (fun g => { g with rings := Vector.replicate 16 0 })).dropRings t.core.cluster

/-- A footprint copy of a task (R38). -/
def EngOp.isFootprint (h : W64) (o : EngOp) : Bool :=
  o.task == h && (match o.kind with
    | .footprint _ => true
    | _ => false)

/-- A task that is not on a core leaves the scheduler: its queue entry, its copies and its reservation go (R39, R75). -/
def State.takeOut (s : State) (h : W64) : State :=
  match s.task h with
  | none => s
  | some t =>
    let landed := (t.fps.filter (·.landed)).length
    let s := { s with tasks := s.tasks.filter (fun x => x.handle != h),
                      ops := s.ops.filter (fun o => !o.isFootprint h) }
    let s := if t.st = .prefetch then
        (s.modCluster t.queue (fun c => { c with pfWasted := min (c.pfWasted + landed) (2 ^ 32 - 1),
                                                 locks := c.locks.filter (fun l => s.ops.any (fun o => o.id == l.op)) }))
      else s
    (s.dropRings t.queue).pruneFaults

/-- The same for one whose future has settled: it leaves its scope (R75, R85). -/
def State.removeQueued (s : State) (h : W64) : State :=
  match s.task h with
  | none => s
  | some t => (s.takeOut h).scopeLeave t.queue h t.asid t.scope

/-- A piece of a task lets go of the tiles of its core (R26, R252). -/
def State.releaseCore (s : State) (h : W64) (piece : Nat) (c : CoreId) : State :=
  s.modCore c (fun k => if k.mowner = h ∧ k.mpiece = piece then
      { k with mowner := 0, mpiece := 0, a0 := .zero, a1 := .zero, mctx := none }
    else k)

/-- The operations that the matrix unit performs (R253); and those that stand in its queue: a drain that has read its tile does not
(R258). -/
def EngOp.isMat (o : EngOp) : Bool :=
  match o.kind with
  | .mma .. | .mmas .. | .mzero .. | .mdrain .. | .msave .. | .mload .. | .mcfg | .mstat .. => true
  | _ => false
def EngOp.queued (o : EngOp) : Bool := o.isMat && o.out.isNone

/-- A matrix multiplication that aborts gives back the slots it claimed as a consumer (R264, R283). -/
def State.giveBack (s : State) (o : EngOp) : State :=
  match o.kind with
  | .mma _ _ a b i j | .mmas _ _ a b i j =>
    (s.modRing o.cl o.asid o.part a (Ring.release i)).modRing o.cl o.asid o.part b (Ring.release j)
  | _ => s

/-- The side log without some entries, a killed task's or an ended activation's (R79, R115): a stop, and the answer that its head's page
is unmappable, are the head's. -/
def Core.dropLog (p : StEnt → Bool) (c : Core) : Core :=
  let headMine := match (c.fifo.filter (·.inLog)).head? with
    | some e => p e
    | none => true
  { c with fifo := c.fifo.filter (fun e => !(e.inLog && p e)), stopped := c.stopped && !headMine, discard := c.discard && !headMine }

/-- The loads of a core that wait for an atomic in its side log look again (R98 item 2, R113). -/
def State.wakeLoads (s : State) (c : CoreId) : State :=
  let poke := fun (g : TG) => match g.status with
    | .parked 11 _ => if g.loc.core = c then { g with wake := g.wake.or (some .go) } else g
    | _ => g
  { s with me := poke s.me, tgs := s.tgs.map poke }

/-- Entries leave a core's side log; loads that waited for it, when it was stopped, look again (R238). -/
def State.dropLog (s : State) (c : CoreId) (p : StEnt → Bool) : State :=
  let t := s.modCore c (Core.dropLog p)
  if (s.core c).stopped then t.wakeLoads c else t

/-- Range-lock entries whose operation has gone are released (R110, R283). -/
def State.pruneLocks (s : State) : State :=
  { s with clusters := s.clusters.map (fun (c : ClId × Cluster) =>
      (c.1, { c.2 with locks := c.2.locks.filter (fun l => s.ops.any (fun o => o.id == l.op)) })) }

def TG.addTok (g : TG) (t : Nat) (up : Bool) : TG :=
  { g with tok := Vector.ofFn (fun i : Fin 8 => if i.val = t then (if up then g.tok[i] + 1 else g.tok[i] - 1) else g.tok[i]) }

/-- The end of an operation: its lock goes, its token counts one less (R110, R250). -/
def State.endOp (s : State) (id : Nat) : State :=
  match s.ops.find? (fun o => o.id == id) with
  | none => s
  | some o =>
    let s := { s with ops := s.ops.filter (fun x => x.id != id) }
    let s := s.modCluster o.cl (fun c => { c with locks := c.locks.filter (fun l => l.op != id) })
    match o.tg, o.tok with
    | some t, some k => s.modTg t (TG.addTok · k false)
    | _, _ => s

/-- A stream stops as GSTOP stops it: after the slot that it has started, or at once between slots (R52, R278). -/
def State.stopStream (s : State) (o : EngOp) : State :=
  match o.kind with
  | .gather ring desc row _ (some i) =>
    { s with ops := updFirst (fun x => x.id == o.id) (fun x => { x with kind := .gather ring desc row true (some i) }) s.ops }
  | .gather _ _ row _ none =>
    let s := (s.endOp o.id).pruneFaults
    match o.tg, o.tok with
    | some t, some k => s.modTg t (fun g => { g with gstat := kset k (BitVec.ofNat 64 (row % 2 ^ 32 + 4 * 2 ^ 32)) g.gstat })
    | _, _ => s
  | _ => s

/-- Every thread group of a task stops: its waits, its requests and its side-log entries go, its streams stop; its other operations
go on (R79, R115). -/
def State.stopTask (s : State) (h : W64) : State :=
  let gs := s.tgsOf h
  let mine := fun (t : TgRef) => gs.any (fun g => g.loc == t)
  let s : State := gs.foldl (fun (s : State) (g : TG) => (s.leaveScopes g.loc).dropLog g.loc.core (fun e => e.task == h)) s
  let s : State := { s with
    watches := s.watches.filter (fun w => !mine w.tg),
    reqs := s.reqs.filter (fun r => r.dev.isSome || !mine r.tg),
    mreqs := s.mreqs.filter (fun r => !mine r.tg),
    engWaits := s.engWaits.filter (fun w => match w.who with
      | .mreq id => s.mreqs.any (fun r => r.id == id && !mine r.tg)
      | .task x => x != h
      | _ => true),
    wrs := s.wrs.filter (fun w => !(w.ret && mine w.ent.tg)),
    futs := s.futs.map (fun (f : Fut) => { f with waiters := f.waiters.filter (fun t => !mine t) }) }
  let s := s.modTask_tgs h (fun g => { g with status := .stopped, wake := none, phase := .start, cur := none, pipe := false, barArrived := false })
  ((s.ops.filter (fun o => o.task == h)).foldl State.stopStream s).pruneFaults

/-- What a task holds on its cores: thread groups, rings, tiles (R27, R252, R263). -/
def State.releaseTask (s : State) (h : W64) : State :=
  let gs := s.tgsAll h
  let s : State := gs.foldl (fun (s : State) (g : TG) => (s.unbind g.loc).dropTg g.loc) s
  gs.foldl (fun (s : State) (g : TG) => s.releaseCore h g.piece g.loc.core) s

/-- A task leaves its cores for good. -/
def State.discard (s : State) (h : W64) : State := ((s.stopTask h).releaseTask h).pruneLocks

/-! ### Pending faults (R391, R392) -/

/-- Whether the fault ring has room for one more record (R392). While its header's page is under darning it has none (R398). -/
def State.fltRoom (s : State) : State × Bool :=
  let va := s.sup.fltBase + 8
  match s.hwAddr supAsid true .load va 8 with
  | .at_ a => (s, decide (s.fltSeq - s.word a 8 < 2 ^ s.sup.fltLogn))
  | .stall => (s, false)
  | .misplaced pa => (s.misplaced supAsid ⟨0, 0, 0⟩ va pa, true)
  | _ => (s, true)

/-- Write a fault record, then WRIDX (R392). -/
def State.fltRecord (s : State) (asid : Half) (page kind : Nat) (c : ClId) (core : Nat) : State :=
  let n := s.fltSeq
  let rec_ := layout 32 [(0, 8, page), (8, 2, asid.toNat), (10, 1, kind), (11, 1, c.die), (12, 1, c.cl), (13, 1, core),
    (16, 8, s.ptp.toNat), (24, 8, n)]
  let s := s.supWrite (s.sup.fltBase + 64 + 32 * (n % 2 ^ s.sup.fltLogn)) rec_
  { (s.supWrite s.sup.fltBase (bytesOf 8 (n + 1))) with fltSeq := n + 1 }

/-- A replayable fault joins or creates the pending entry of its page; none when the unit must stall (R391). -/
def State.addFault (s : State) (asid : Half) (va kind : Nat) (c : ClId) (core : Nat) : Option State :=
  let page := va / 2 ^ 16 * 2 ^ 16
  let known := s.faults.any (fun e => e.asid == asid && e.page == page)
  if known ∧ kind ≠ 2 then some s
  else if !known && decide (256 ≤ s.faults.length) then none
  else if !s.fltRoom.2 then none
  else
    let s := s.fltRoom.1
    let s : State := if known then s else { s with faults := s.faults ++ [⟨asid, page⟩] }
    some (s.fltRecord asid page kind c core)

/-- An engine waits for the supervisor on a page (R39). -/
def State.engWait (s : State) (who : Waiter) (asid : Half) (va : Nat) (c : ClId) : State :=
  match s.addFault asid va 4 c 0xFF with
  | none => s
  | some s => { s with engWaits := s.engWaits.filter (fun w => w.who != who || w.dead) ++ [⟨who, asid, va / 2 ^ 16 * 2 ^ 16, false⟩] }

/-- A page that an engine has waited for and been told is unmappable (R393). -/
def State.deadPage (s : State) (who : Waiter) (asid : Half) (va : Nat) : Bool :=
  s.engWaits.any (fun w => w.who == who && w.dead && w.asid == asid && w.page == va / 2 ^ 16 * 2 ^ 16)

/-- One attempt of an engine: what it waited for before is forgotten, and so is an answer that it has now seen; a pending fault that nothing
waits on any more goes (R394). One that has to wait as before keeps its place. -/
def State.attempt (s : State) (who : Waiter) (f : State → State) : State :=
  let old := s.engWaits
  let s := f { s with engWaits := old.filter (fun w => w.who != who || w.dead) }
  let ws := s.engWaits.filter (fun w => w.who != who || !w.dead)
  if ws.length = old.length ∧ ws.all old.contains = true then { s with engWaits := old } else ({ s with engWaits := ws } : State).pruneFaults

/-! ### The end of a task at its future's entry (R62, R64, R71, R79, R360) -/

/-- The bytes of a hamper record (R71). -/
def recordBytes (h : W64) : List Byte := (List.range 4).flatMap (fun k => bytesOf 8 (Config.hamperWord h k).toNat)

/-- The address of a context's record (R70). -/
def State.recordAddr (s : State) (a : Half) (r : Nat) : Nat := (s.ctx a).hbase + 32 * r

/-- The record can be read and passes its check (R71). -/
def State.recordOk (s : State) (f : Fut) (r : Nat) : Bool :=
  match s.hwAddr f.asid true .load (s.recordAddr f.asid r) 32 with
  | .at_ a => memBytes s.mem a 32 == recordBytes f.h && !isPoisoned s.poison a 32
  | _ => false

/-- The same for a refill, word by word where the record lies in uncached host memory: none while words are left (R366). A frame on the
wrong controller posts its event (R92). -/
def State.recordCheck (s : State) (f : Fut) (r : Nat) : State × Option Bool :=
  let va := s.recordAddr f.asid r
  match s.hwAddr f.asid true .load va 32 with
  | .slow a =>
    match s.hwGather (.fut f.h) va 32 a with
    | (s, bs) => (s, bs.map (fun bs => bs.map (·.1) == recordBytes f.h && !bs.any (·.2)))
  | .misplaced pa => (s.misplaced f.asid ⟨(hTable f.h).die, (hTable f.h).cl, 0⟩ va pa, some false)
  | _ => (s, some (s.recordOk f r))

/-- What follows at the task when its future has been settled by another party: it is removed, or it goes on with k10 (R65, R75). -/
def State.dropTask (s : State) (h : W64) : State :=
  match s.task h with
  | none => s
  | some t => if t.st = .queued ∨ t.st = .prefetch then s.removeQueued h else s.setK10 h

/-- Bring a spilled entry back into its table (R71, R72). One whose record fails its check becomes FAULTED, whatever it was. It waits
while the hamper moves (R70), while no entry outside the reserve is free (R73), and while the record's page waits for the supervisor
(R39) or for a darning. -/
def State.refillFut (s : State) (h : W64) : State :=
  match s.fut h with
  | none => s
  | some f =>
    match f.spilled with
    | none => s
    | some r =>
      let at_ := s.recordAddr f.asid r
      let res := s.hwAddr f.asid true .load at_ 32
      match s.freePlace (hTable h) 8176 0 with
      | none => s
      | some place =>
      let writing := s.hwq.any (fun j => match j with
        | .write x va bs => x == f.asid && decide (va < at_ + 32) && decide (at_ < va + bs.length)
        | _ => false)
      if (s.ctx f.asid).moving || res == .stall || writing then s
      else if res = .wait ∧ s.deadPage (.fut h) f.asid at_ = false then s.engWait (.fut h) f.asid at_ (hTable h)
      else match s.recordCheck f r with
        | (s, none) => s
        | (s, some ok) =>
          let s := (s.modFut h (fun x => { x with spilled := none, place := place })).modCtx f.asid
            (fun c => { c with usedRecs := c.usedRecs.filter (· != r) })
          if ok then s
          else
            let s := s.conclude { f with spilled := none, place := place } ⟨.faulted, 0, false, kRESOURCE, BitVec.ofNat 64 at_⟩
            if f.st.terminal then s else s.dropTask h

/-- No store of the task is on its way to its home (R64). -/
def State.taskStored (s : State) (h : W64) : Bool :=
  !s.cores.any (fun c => c.2.fifo.any (fun e => e.task == h)) && !s.wrs.any (fun w => !w.ret && w.ent.task == h)

/-- A report of a scheduler at the entry (R62, R360). -/
def State.applyNote (s : State) (h : W64) (n : FutNote) : State :=
  s.modFut h (fun f =>
    if f.st.terminal || f.ending.isSome then f
    else match n with
      | .state st => { f with st := st }
      | .ending e => { f with ending := some e })

/-- A report at its entry, which comes back first when it is spilled (R63); false: it cannot come back yet. -/
def State.noteNow (s : State) (h : W64) (n : FutNote) : State × Bool :=
  let s := s.refillFut h
  if ((s.fut h).bind (·.spilled)).isSome then (s, false) else (s.applyNote h n, true)

/-- The report seen from a cluster: at once on the entry's own die, otherwise, or where the entry cannot come back yet, on message class 0
behind those before it (R63, R360). -/
def State.noteEntry (s : State) (from_ : ClId) (h : W64) (n : FutNote) : State :=
  let late := fun (s : State) => ({ s.bump with futMsgs := s.futMsgs ++ [⟨s.seq, h, n⟩] } : State)
  if hDie h = from_.die ∧ s.futMsgs.all (fun m => m.h != h) then
    match s.noteNow h n with
    | (s, true) => s
    | (s, false) => late s
  else late s

/-- An entry that holds an action takes its terminal state once the release is complete: the task has let go of its cores and its stores
are performed (R62, R64). A spilled entry comes back first (R63, R72). -/
def State.settleHeld (s : State) (h : W64) : State :=
  match s.fut h with
  | none => s
  | some f =>
    if f.ending.isNone || (s.task h).isSome || !s.taskStored h then s
    else
      let s := s.refillFut h
      match s.fut h with
      | none => s
      | some f =>
        match f.ending with
        | some e => if f.spilled.isSome then s else s.conclude f e
        | none => s

/-- The cluster whose scheduler runs a task. -/
def State.taskCluster (s : State) (t : Task) : ClId :=
  match s.tgsAll t.handle with
  | g :: _ => g.loc.core.cluster
  | [] => t.queue

/-- A dying task lets go of what it holds once its operations have drained and its stores are performed; its future then settles, and
it leaves its scope (R52, R62, R79, R83, R85). -/
def State.reapTask (s : State) (h : W64) : State :=
  match s.task h with
  | none => s
  | some t =>
    if !t.dying || s.ops.any (fun o => o.task == h) || !s.taskStored h then s
    else
      let cl := s.taskCluster t
      let s := s.releaseTask h
      let s := { s with tasks := s.tasks.filter (fun x => x.handle != h) }
      ((s.dropRings cl).settleHeld h).scopeLeave cl h t.asid t.scope

/-- A task on its cores, or saved, ends by a kill or a teardown: it stops, the entry holds the action, and the rest follows when its
operations have drained (R62, R79, R83). -/
def State.endTask (s : State) (h : W64) (e : Ending) : State :=
  match s.task h with
  | none => s
  | some t =>
    if t.dying then s
    else
      let cl := s.taskCluster t
      (((s.stopTask h).modTask h (fun t => { t with dying := true })).noteEntry cl h (.ending e)).reapTask h

/-- A task that is not on a core ends: it is removed as under CANCEL, and its future settles (R39, R75, R83). -/
def State.endQueued (s : State) (h : W64) (e : Ending) : State :=
  match s.task h with
  | none => s
  | some t => (((s.noteEntry t.queue h (.ending e)).takeOut h).settleHeld h).scopeLeave t.queue h t.asid t.scope

/-- Kill a task (R79). -/
def State.kill (s : State) (h : W64) (code : Half) (addr : W64) : State := s.endTask h ⟨.faulted, 0, false, code, addr⟩

/-- The place, beside a core's thread groups, that the stores of a thread group without a task, or of an engine, carry when it has gone. -/
def nobodyAt (c : CoreId) : TgRef := ⟨c, 17⟩

/-- A thread group without a task leaves its core: its operations drain and count on no token, its side-log entries go, and stores that have
left it are nobody's (R79, R309). -/
def State.dropLone (s : State) (g : TG) : State :=
  let orphan := fun (e : StEnt) => if e.tg = g.loc ∧ e.task = 0 then { e with tg := nobodyAt g.loc.core } else e
  let s := (s.dropLog g.loc.core (fun e => e.tg == g.loc && e.task == 0)).modCore g.loc.core (fun k => { k with fifo := k.fifo.map orphan })
  let lone := fun (o : EngOp) => if o.tg = some g.loc ∧ o.task = 0 then { o with tg := none, tok := none } else o
  let s : State := { s with ops := s.ops.map lone
                            watches := s.watches.filter (fun w => w.tg != g.loc)
                            reqs := s.reqs.filter (fun r => r.dev.isSome || r.tg != g.loc)
                            mreqs := s.mreqs.filter (fun r => r.tg != g.loc)
                            wrs := (s.wrs.filter (fun w => !(w.ret && w.ent.tg == g.loc))).map (fun w => { w with ent := orphan w.ent })
                            futs := s.futs.map (fun (f : Fut) => { f with waiters := f.waiters.filter (fun t => t != g.loc) }) }
  (((s.leaveScopes g.loc).unbind g.loc).dropTg g.loc).pruneFaults

/-- The end of a handler activation by an unhandled trap or a kill condition (R309). -/
def State.handlerFault (s : State) (g : TG) : State :=
  let s := s.dropLone g
  s.post 0x106 g.loc.core.die g.loc.core.cl g.asid [(16, 1, g.hcls), (17, 1, g.loc.core.core), (24, 8, g.pc.toNat)]

/-- A kill condition met by the current thread group (R79, R309). One that firmware started has no task: it stops alone. -/
def State.killMe (s : State) (code : Half) (addr : W64) : State :=
  if s.me.loc.slot = 16 then s.handlerFault s.me
  else if s.me.task = 0 then s.dropLone s.me
  else s.kill s.me.task code addr

/-- The same for a thread group in any place; one that has gone is left alone (R393). -/
def State.killTg (s : State) (t : TgRef) (code : Half) (addr : W64) : State :=
  match s.tgAt t with
  | none => s
  | some g =>
    if t.slot = 16 then s.handlerFault g
    else if g.task = 0 then s.dropLone g
    else s.kill g.task code addr

/-- Use of a poisoned value: code POISON, the instruction's PC as fault address (R189, R229, R248, R286). -/
def State.poisonPc (s : State) : State := s.killMe kPOISON s.me.pc

/-- The current thread group stops issuing with a HALT event, next at pc (R322, R419, R454). -/
def State.haltMe (s : State) (next : W64) : State :=
  let g := s.me
  let s := s.post 0x107 g.loc.core.die g.loc.core.cl g.asid [(17, 1, g.loc.core.core), (18, 1, g.tgid), (24, 8, g.pc.toNat)]
  s.modMe (fun t => { t.goto next with status := .halted (s.mgmt.debug == 2) })

/-! ### Taking an exception and returning from one -/

/-- Cause codes (R327). -/
def cILLEGAL : Nat := 1
def cPREFIX : Nat := 2
def cPRIV : Nat := 3
def cREGRANGE : Nat := 4
def cALIGN : Nat := 5
def cADDRESS : Nat := 6
def cRANGELOCK : Nat := 7
def cFUTFAULTED : Nat := 8
def cFUTCANCELLED : Nat := 9
def cFUTSTALE : Nat := 10
def cDETERMINISM : Nat := 11
def cINBOX : Nat := 12
def cSOFTWARE : Nat := 13
def cBREAK : Nat := 14
def cFORMAT : Nat := 15
def cRING : Nat := 16

/-- Trap delivery (R326): an active handler or no handler address makes the trap unhandled; otherwise the cause with ACTIVE and
the mode, the group's address, the address and the information are saved, and the PC goes to TRAPBASE in the same mode. -/
def State.trap (s : State) (cause : Nat) (addr info : W64) : State :=
  if bitOf s.me.trapCause.toNat 8 || s.me.trapBase == 0 then s.killMe kUNHANDLED (BitVec.ofNat 64 cause)
  else { s with me := { s.me with
    trapCause := BitVec.ofNat 64 ((if s.me.super then 512 else 0) + 256 + cause),
    trapPc := s.me.pc, trapAddr := addr, trapInfo := info, pc := s.me.trapBase, status := .ready, phase := .start, wake := none, cur := none,
    pipe := false } }

/-- What R198 says of a transfer target, poison apart: none when the transfer may happen. -/
def targetTrap (t : W64) : Option Nat :=
  if t.toNat % 2 = 1 then some cALIGN else if t.toNat / 2 ^ 57 ≠ 0 then some cADDRESS else none

/-- Return from a trap (R330): to TRAPPC, in the mode that PMODE records, with ACTIVE clear. -/
def State.tret (s : State) : State :=
  if !s.me.super && bitOf s.me.trapCause.toNat 9 then s.trap cPRIV 0 0
  else match targetTrap s.me.trapPc with
    | some c => s.trap c s.me.trapPc 0
    | none => { s with me := { (s.me.goto s.me.trapPc) with
        super := bitOf s.me.trapCause.toNat 9, trapCause := s.me.trapCause &&& ~~~(0x100#64) } }

/-- An ILLEGAL or FORMAT trap of an operand check that names a reason and the instruction word 0 where no word is named. -/
def State.trapInfoReason (s : State) (cause : Nat) (addr : W64) (reason handle : Nat) : State :=
  s.trap cause addr (BitVec.ofNat 64 (reason + 256 * handle))

end Sys2Proof.Machine
end

