-- ==== Sys2Proof/Machine/Regs.lean ====
section
/-! DEFINITION. Reading the registers of the KIND 3 and KIND 4 windows (R37, R95, R313, R371 to R373, R379, R380, R383, R401,
R412, R429, R446). An offset that no rule names reads zero (log 14). -/

namespace Sys2Proof.Machine

/-- SLOTCTL (R373). -/
def Slot.ctl (x : Slot) : Nat :=
  (if x.mapped then 2 ^ 31 else 0) + (if x.drain then 2 ^ 30 else 0) + (if x.latch then 2 ^ 29 else 0) +
  (if x.err then 2 ^ 28 else 0) + x.qid % 1024

/-- The registers of slot n (R373). -/
def State.readSlot (s : State) (n off : Nat) : Nat :=
  let x := s.slot n
  match off with
  | 0x00 => x.ctl
  | 0x08 => x.qcbAddr.toNat
  | 0x10 => x.rdidx.toNat
  | 0x18 => (s.pkts.filter (fun p => p.q == .slot n)).length
  | 0x20 => if x.mapped then s.ptp.toNat - x.mapNs else x.svcns.toNat
  | _ => 0

def b2n (b : Bool) (k : Nat) : Nat := if b then 2 ^ k else 0

/-- QUARMAPw of a die (R429). -/
def State.quarmap (s : State) (d w : Nat) : Nat :=
  (List.range 64).foldl (fun acc n =>
    acc + b2n (s.core ⟨d, (64 * w + n) / 8, (64 * w + n) % 8⟩).quarantined n) 0

/-- SPADDT of ECCMODE: the scratchpads that use DEC-TED (R429). -/
def State.spaddt (s : State) (d : Nat) : Nat :=
  (List.range 24).foldl (fun acc c => acc + b2n (s.cluster ⟨d, c⟩).spadDt (8 + c)) 0

/-- The mailbox registers (R412). -/
def MB.read (b : MB) (off : Nat) : Nat :=
  match off with
  | 0x00 => b2n b.busy 63 + b.status * 2 ^ 48
  | 0x08 => (b.args.getD 0 0).toNat
  | 0x10 => (b.args.getD 1 0).toNat
  | 0x18 => (b.args.getD 2 0).toNat
  | 0x20 => (b.args.getD 3 0).toNat
  | 0x28 => b.res.toNat
  | _ => 0

/-- The registers of die 0, cluster 0, core 0 alone. -/
def State.readSup (s : State) (off : Nat) : Nat :=
  let r := s.sup
  if 0x8000 ≤ off then (kget 0 r.shadow ((off - 0x8000) / 8)).toNat
  else if 0x400 ≤ off ∧ off < 0x480 then (kget 0 r.pend ((off - 0x400) / 8)).toNat
  else if 0x980 ≤ off ∧ off < 0xA00 then (kget 0 r.peerXp ((off - 0x980) / 8)).toNat
  else match off with
  | 0x300 => r.evBase + b2n r.evHostIrq 11 + r.evLogn
  | 0x480 => b2n r.qtearBusy 31 + r.qtearQid
  | 0x600 => r.ctxbase
  | 0x608 => r.tinvaddr
  | 0x610 => b2n r.tinvBusy 63 + r.tinvPages * 2 ^ 32 + b2n r.tinvAll 16 + r.tinvAsid.toNat
  | 0x618 => r.fltBase + r.fltLogn
  | 0x628 => b2n r.rtBusy 63 + b2n r.rtErr 62 + r.rtErrIdx * 2 ^ 32 + r.rtGen
  | 0x630 => b2n r.darnUnmapped 63 + r.darnVa + r.darnAsid.toNat
  | 0x638 => r.darnSrc
  | 0x640 => r.darnDst
  | 0x648 => b2n r.darnBusy 63 + b2n r.darnErr 62 + r.darnCode * 2 ^ 32
  | 0x800 => r.sliceTime.toNat
  | 0x808 => b2n r.armed 63 + b2n r.sliceShort 62 + r.inAsid.toNat * 2 ^ 32 + r.outAsid.toNat
  | 0x810 => r.saveTab
  | 0x818 => r.restTab
  | 0x900 => r.peerBase + b2n r.peerEn 0
  | _ => 0

/-- A unit register (KIND 4) of a core's window (R23). -/
def State.readUnit (s : State) (w : Win) : Nat :=
  let first := w.cl == 0 && w.core == 0
  let d := s.die w.die
  let own :=
    if w.off = 0x200 then (s.core w.coreId).inboxovf.toNat
    else if w.off = 0 ∧ w.core = 0 then (s.cluster w.cluster).xsteal * 2 ^ 16 + b2n (s.cluster w.cluster).steal 0
    else if first then
      match w.off with
      | 0x100 => if isGatewayDie w.die then 0 else d.lowerth * 2 ^ 32 + d.raiseth * 2 ^ 16 + b2n d.autoen 0
      | 0x700 => d.ceth * 2 ^ 32 + d.frameth * 2 ^ 24
      | 0x708 => s.spaddt w.die + d.slicedt
      | 0x710 => b2n d.reenc 63 + d.sweeps
      | 0x718 => b2n d.test.isSome 63 + b2n d.testFail 62 + d.testCl * 256 + d.testCore
      | 0x720 => s.quarmap w.die 0
      | 0x728 => s.quarmap w.die 1
      | 0x730 => s.quarmap w.die 2
      | _ => 0
    else 0
  if own = 0 ∧ first ∧ w.die = 0 then s.readSup w.off
  else if own = 0 ∧ first ∧ w.die = 8 ∧ 0x1000 ≤ w.off then s.mgmt.mb.read (w.off - 0x1000)
  else own

/-- A read of a register window (R24: 8 bytes, aligned). A read of SLOTCTL shows every slot in every compute die (R372). -/
def State.readReg (s : State) (va : Nat) : Nat :=
  let w := winOf va
  if w.kind = 3 then s.readSlot (w.off / 256) (w.off % 256) else s.readUnit w

end Sys2Proof.Machine
end

