-- ==== Sys2Proof/Machine/Access.lean ====
section
/-! DEFINITION. Memory accesses of thread groups: the checks of R229, loads with forwarding (R98, R99), the store FIFO and its
side log (R98, R114), replicas (R93, R94), the pending-fault table (R391, R392), atomics (R105, R236) and fences (R103). A replica is
tagged by ASID and virtual line (R89); a watch names a line by the extended address of its storage (log 7). -/

namespace Sys2Proof.Machine

/-! ### Checks (R229) -/

/-- One access of a vector or uniform form: lane, effective address. -/
structure Acc1 where
  lane : Nat
  addr : W64
deriving DecidableEq, Repr

/-- What an access is to the range-lock table (R111). -/
inductive LockUse where
  | load | store
deriving DecidableEq, Repr

/-- A range of the table and an access share a 128-byte line (R110, R111). -/
def LockRange.hits (r : LockRange) (a z : Nat) : Bool :=
  decide (r.lo < r.hi) && decide (lineOf r.lo < a + z) && decide (a < lineOf (r.hi + 127))

/-- The lowest-numbered range-lock entry that an access overlaps (R111). -/
def State.lockHit (s : State) (c : ClId) (asid : Half) (u : LockUse) (a z : Nat) : Option Nat :=
  ((s.cluster c).locks.filter (fun l =>
    (isWindow a || l.asid == asid) &&
    (l.dsts.any (·.hits a z) || (u == .store && l.srcs.any (·.hits a z))))).foldl
      (fun m l => some (match m with | none => l.idx | some i => min i l.idx)) none

/-- Steps 3 to 5 of R229 over all accesses: cause, failing address, TRAPINFO. -/
def State.accCheck (s : State) (write : Bool) (z : Nat) (as_ : List Acc1) : Option (Nat × W64 × W64) :=
  let u : LockUse := if write then .store else .load
  match as_.find? (fun x => addrCheck s.mode s.me.super write x.addr.toNat z != .ok) with
  | some x => some (if addrCheck s.mode s.me.super write x.addr.toNat z = .priv then cPRIV else cADDRESS, x.addr,
      if addrCheck s.mode s.me.super write x.addr.toNat z = .priv then 0 else BitVec.ofNat 64 x.lane)
  | none =>
    match as_.find? (fun x => x.addr.toNat % z != 0) with
    | some x => some (cALIGN, x.addr, BitVec.ofNat 64 x.lane)
    | none =>
      match as_.find? (fun x => (s.lockHit s.me.loc.core.cluster s.me.asid u x.addr.toNat z).isSome) with
      | some x => some (cRANGELOCK, x.addr,
          BitVec.ofNat 64 (x.lane + 256 * (s.lockHit s.me.loc.core.cluster s.me.asid u x.addr.toNat z).getD 0))
      | none => none

/-! ### Forwarding (R98, R99) -/

/-- Bytes of memory that an entry touches (R233, R236). -/
def StEnt.size (e : StEnt) : Nat :=
  match e.op with
  | .store => e.data.length
  | .nibLo | .nibHi => 1
  | .atom m => if m = 11 then 16 else if m = 8 ∨ m = 9 ∨ m = 10 then 8 else 4
  | .read n => n

def StOp.isAtom : StOp → Bool
  | .atom _ => true
  | _ => false

def StEnt.covers (e : StEnt) (asid : Half) (x : Nat) : Bool :=
  (isWindow x || e.asid == asid) && decide (e.va.toNat ≤ x) && decide (x < e.va.toNat + e.size)

/-- One byte after an entry; none is a value not known until an atomic has been performed (R98 item 2). -/
def StEnt.onByte (e : StEnt) (asid : Half) (x : Nat) (b : Option Byte) : Option Byte :=
  if e.covers asid x then
    match e.op with
    | .store => e.data[x - e.va.toNat]?
    | .nibLo => b.map (fun b => (b &&& 0xF0#8) ||| ((e.data.getD 0 0) &&& 0x0F#8))
    | .nibHi => b.map (fun b => (b &&& 0x0F#8) ||| ((e.data.getD 0 0) &&& 0xF0#8))
    | .atom _ => none
    | .read _ => b
  else b

/-- Whether the granule of a byte is poisoned after an entry (R231, R334). -/
def StEnt.onPoison (e : StEnt) (asid : Half) (x : Nat) (p : Bool) : Bool :=
  let g := granule x
  let z := granuleSize x
  if (isWindow x || e.asid == asid) && decide (e.va.toNat < g + z) && decide (g < e.va.toNat + e.size) then
    if e.poison then true
    else if e.op == .store && decide (e.va.toNat ≤ g) && decide (g + z ≤ e.va.toNat + e.size) then false
    else p
  else p

/-- The write-pending entries of a die that its readers see over storage (R99, R100). A write to a line that the home has applied is in
storage, under the writes that the home has applied since: none of them hides behind it (R96). -/
def State.pendingOf (s : State) (d : Nat) : List StEnt :=
  (s.wrs.filter (fun w => w.die == d && !w.ret && !(w.applied && w.toLine) && (isWindow w.ent.va.toNat || w.host ||
    homeDie s.mode s.sup.active w.ent.va.toNat != d))).map (·.ent)

/-- The bytes that a core's load returns and the poison of each, given what storage or a replica holds: first the die's write-pending
entries, then the core's FIFO, each oldest first. none: it must wait for an atomic. -/
def State.forward (s : State) (c : CoreId) (asid : Half) (va : Nat) (base : List Byte × List Bool) : Option (List Byte) × List Bool :=
  let es := s.pendingOf c.die ++ (s.core c).fifo
  let bytes := (base.1.zipIdx).map (fun b => es.foldl (fun acc e => e.onByte asid (va + b.2) acc) (some b.1))
  let ps := (base.2.zipIdx).map (fun b => es.foldl (fun acc e => e.onPoison asid (va + b.2) acc) b.1)
  (if bytes.all (·.isSome) then some (bytes.map (·.getD 0)) else none, ps)

/-- A store of the core's FIFO leads to the same line by another name: another context or another address (R403). -/
def State.aliasHeld (s : State) (c : CoreId) (asid : Half) (va pa : Nat) : Bool :=
  (s.core c).fifo.any (fun e => !isWindow e.va.toNat && (e.asid != asid || lineOf e.va.toNat != lineOf va) &&
    (match translate s.toSoc e.super .store e.asid e.va.toNat with
     | .phys p => lineOf p == lineOf pa
     | _ => false))

/-! ### Replicas (R89, R93 to R97) -/

/-- z bytes of storage, and the poison of each. -/
def Soc.marked (s : Soc) (a z : Nat) : List Byte × List Bool :=
  (memBytes s.mem a z, (List.range z).map (fun k => isPoisoned s.poison (a + k) 1))

/-- The storage of a byte of a line that a die's slice holds write-pending, found by its tag (R89, R99); no invalidation has named its page
since (R389). -/
def State.pendingAt (s : State) (d : Nat) (asid : Half) (va : Nat) : Option Nat :=
  if isGatewayDie d || isWindow va || isNocache s.sup.active va then none
  else (s.wrs.find? (fun w => w.die == d && w.onLine asid va && !w.dropped)).map (fun w => lineOf w.at_ + va % 128)

/-- What a die's slice holds of z bytes by their tag, without a translation: a line that is write-pending, or a replica (R89, R99). The new
home of a line whose home changes holds nothing of it yet (R396). -/
def State.heldAt (s : State) (d : Nat) (asid : Half) (va z : Nat) : Option (List Byte × List Bool) :=
  if s.swapWait va && homeDie s.mode s.sup.active va == d then none
  else match s.pendingAt d asid va with
    | some a => some (s.marked a z)
    | none => (s.replicaOf d asid va).map (fun r =>
        ((r.data.drop (va % 128)).take z, (List.range z).map (fun k => r.poison.getD ((va % 128 + k) / 4) false)))

/-- A replica of a line, as its home holds it. -/
def State.newReplica (s : State) (d : Nat) (asid : Half) (va pa : Nat) : Replica :=
  ⟨d, asid, lineOf va, lineOf pa, memBytes s.mem (lineOf pa) 128, (List.range 32).map (fun k => isPoisoned s.poison (lineOf pa + 4 * k) 4), []⟩

/-- A read that a die sends to a line's home, or that its replica satisfies (R93, R94, R97): counted, and a replica allocated while the
degree allows. Of a read that a write-pending line of the slice serves R97 says nothing, and nothing is counted (log 132). -/
def State.remoteRead (s : State) (d : Nat) (asid : Half) (va pa : Nat) : State :=
  let home := homeDie s.mode s.sup.active va
  if d = home ∨ isNocache s.sup.active va = true ∨ s.linePending d asid va = true then s
  else if (s.replicaOf d asid va).isSome then s.count d 0x40 1
  else
    let s := s.countAccess home asid va (fun r => { r with reads := r.reads + 1 })
    if !isGatewayDie d && decide ((s.plainReplicas asid va).length < s.degree asid va) then
      { (s.count d 0x41 1) with replicas := s.replicas ++ [s.newReplica d asid va pa] }
    else s

/-- What a die reads of z bytes of device memory that lead to pa: what its slice holds, or the home's contents. -/
def State.sliceBytes (s : State) (d : Nat) (asid : Half) (va pa z : Nat) : List Byte × List Bool :=
  (s.heldAt d asid va z).getD (s.marked pa z)

/-! ### Loads -/

/-- Whether a peer refuses an access of an engine or a fetch to the line of an address: it does so for an address that it does not
export (R402), which nothing here can see (log 16). -/
def State.peerRefuses (s : State) (va : Nat) : Bool := Config.pick (s.seq + s.cycle.toNat) (2 ^ 64 + va / 128) % 2 == 1

/-- The outcome of one line access: the lanes' bytes and the poison of each byte, or the thread group has been stalled, parked or
stopped. -/
inductive LdRes where
  | done (rs : KMap Nat (List Byte × List Bool))
  | blocked
deriving DecidableEq, Repr

/-- Park the current thread group on a translation fault, or stall it while the fault tables are full (R113, R391). -/
def State.parkFault (s : State) (va kind : Nat) : State :=
  match s.addFault s.me.asid va kind s.me.loc.core.cluster s.me.loc.core.core with
  | none => s.stall
  | some s => s.dropSnaps.park 11 (BitVec.ofNat 64 va)

/-- A translation that gives no storage (R387): the kill, the park or the stall. -/
def State.trFail (s : State) (va : Nat) : Tr → State
  | .replay => s.parkFault va 1
  | .stall => s.stall
  | .poison => s.killMe kPOISON (BitVec.ofNat 64 va)
  | .misplaced pa => (s.misplaced s.me.asid s.me.loc.core va pa).killMe kADDRESS (BitVec.ofNat 64 va)
  | _ => s.killMe kADDRESS (BitVec.ofNat 64 va)

/-- Whether an access meets one of the faults of step 6 of R229, a lost peer among them (R402). -/
def Tr.fails (lost : List Nat) : Tr → Bool
  | .replay | .fatal | .misplaced _ | .poison => true
  | .peer dev _ => lost.contains dev
  | _ => false

/-- The accumulator element bytes that the window shows (R23, R139). -/
def State.tileBytes (s : State) (c : CoreId) (off z : Nat) : List Byte :=
  let t := if off < 0x40000 then (s.core c).a0 else (s.core c).a1
  (List.range z).map (fun k =>
    let o := (off + k) % 0x40000
    BitVec.ofNat 8 ((kget .zero t.elems (o / 16)).x.toNat / 256 ^ (o % 16)))

/-- Whether the element at an offset of the window is poisoned (R334); an aligned access touches one element. -/
def State.tilePoison (s : State) (c : CoreId) (off : Nat) : Bool :=
  let t := if off < 0x40000 then (s.core c).a0 else (s.core c).a1
  t.pois.contains (off % 0x40000 / 16)

/-- The matrix queue of a core, oldest first (R253, R260). -/
def State.matOps (s : State) (c : CoreId) : List EngOp := s.ops.filter (fun o => o.queued && o.core == c)

/-- A request to a peer, a host or another die, on which the issuing group stalls until it is answered. -/
def State.sendWr (s : State) (e : StEnt) (host : Bool) (at_ : Nat) (peer : Option Nat) : State :=
  let id := s.seq
  let s := s.bump
  let w : Wr := ⟨id, s.me.loc.core.die, e, host, at_, peer, 128, s.sup.rtGen, false, [], true, none, false, false⟩
  ({ s with wrs := s.wrs ++ [w] }.modMe (fun g => { g with phase := { g.phase with req := some id } })).stall

/-- The answer of the request this group waits for, once it is complete: the state without the request, the address asked for, the
bytes and their poison. none: the group waits on, or asks again. -/
def State.takeWr (s : State) (id : Nat) : State × Option (Nat × List Byte × List Bool) :=
  let forget := fun (s : State) => s.modMe (fun g => { g with phase := { g.phase with req := none } })
  match s.wrs.find? (fun w => w.id == id) with
  | none => ((forget s).stall, none)
  | some w =>
    if w.done then (forget { s with wrs := s.wrs.filter (fun x => x.id != id) }, some (w.ent.va.toNat, w.old.getD ([], [])))
    else (s.stall, none)

/-- An entry of the current thread group. -/
def State.mkEnt (s : State) (va : W64) (op : StOp) (data : List Byte) (poison inLog : Bool) : StEnt :=
  ⟨s.me.loc, s.me.task, s.me.super, s.me.asid, va, op, data, poison, inLog, s.seq⟩

/-- A lane's address, by the lane's place among those that take part. -/
abbrev LaneAt := Nat × W64

/-- A load that a non-returning atomic in a stopped side log holds up waits as on a translation fault; any other stalls (R98 item 2,
R113). -/
def State.atomWait (s : State) (va z : Nat) : State :=
  let k := s.core s.me.loc.core
  let hit := fun (e : StEnt) => e.inLog && e.op.isAtom && (List.range z).any (fun i => e.covers s.me.asid (va + i))
  if k.stopped && k.fifo.any hit then s.park 11 (BitVec.ofNat 64 va) else s.stall

/-- z bytes of device or host memory at their storage. -/
def State.backing (s : State) (z va : Nat) : List Byte × List Bool :=
  match translate s.toSoc s.me.super .load s.me.asid va with
  | .phys pa => s.marked pa z
  | .host a _ => s.marked (hostExt a) z
  | _ => ([], [])

/-- The lanes of one line, given what z bytes at an address of the line read as at its storage: forwarded, then f. -/
def State.serveLanes (s : State) (z : Nat) (g : List LaneAt) (base : Nat → List Byte × List Bool) (f : State → State) : State × LdRes :=
  let c := s.me.loc.core
  let rs := g.map (fun x => (x.1, x.2.toNat, s.forward c s.me.asid x.2.toNat (base x.2.toNat)))
  match rs.find? (fun r => r.2.2.1.isNone) with
  | some r => (s.atomWait r.2.1 z, .blocked)
  | none => (f s, .done (rs.map (fun r => (r.1, r.2.2.1.getD [], r.2.2.2))))

/-- One line access: the lanes of a load that fall in one 128-byte line and have passed the checks of R229 read one state of it (R230).
What the slice holds by its tag needs no translation (R89, log 107). -/
def State.loadLine (s : State) (z : Nat) (g : List LaneAt) : State × LdRes :=
  let c := s.me.loc.core
  let va := (g.head?.map (·.2.toNat)).getD 0
  match s.me.phase.req with
  | some id =>
    (match s.takeWr id with
     | (s, some (a, bs, ps)) =>
       (s, .done (g.map (fun x => (x.1, (bs.drop (x.2.toNat - a)).take z, (ps.drop (x.2.toNat - a)).take z))))
     | (s, none) => (s, .blocked))
  | none =>
    if isWindow va then
      let w := winOf va
      if w.kind = 2 then
        if w.coreId = c ∧ s.matOps c ≠ [] then (s.stall, .blocked)
        else (s, .done (g.map (fun x =>
          let off := (winOf x.2.toNat).off
          (x.1, s.tileBytes w.coreId off z, List.replicate z (s.tilePoison w.coreId off)))))
      else if 2 < w.kind then
        if g.any (fun x => (s.core c).fifo.any (fun e => e.va == x.2)) then (s.stall, .blocked)
        else (s, .done (g.map (fun x => (x.1, bytesOf z (s.readReg x.2.toNat), []))))
      else s.serveLanes z g (fun a => s.marked a z) id
    else if (s.heldAt c.die s.me.asid va z).isSome then
      s.serveLanes z g (fun a => (s.heldAt c.die s.me.asid a z).getD ([], [])) (fun s => s.remoteRead c.die s.me.asid va 0)
    else
      match translate s.toSoc s.me.super .load s.me.asid va with
      | .phys pa =>
        if s.swapWait va || (isNocache s.sup.active va && s.aliasHeld c s.me.asid va pa) then (s.stall, .blocked)
        else s.serveLanes z g (s.backing z) (fun s => s.remoteRead c.die s.me.asid va pa)
      | .host _ _ => s.serveLanes z g (s.backing z) id
      | .peer dev pa =>
        if s.lost.contains dev then (s.killMe kADDRESS (BitVec.ofNat 64 va), .blocked)
        else
          let lo := g.foldl (fun m x => min m x.2.toNat) va
          let hi := g.foldl (fun m x => max m (x.2.toNat + z)) va
          (s.sendWr (s.mkEnt (BitVec.ofNat 64 lo) (.read (hi - lo)) [] false false) true (lineOf pa + lo % 128) (some dev), .blocked)
      | t => (s.trFail va t, .blocked)

/-- Two addresses that one access serves: those of one line, or of one aligned 8-byte word where the host maps its memory uncacheable
(R230, R366). -/
def State.sameUnit (s : State) (x y : Nat) : Bool :=
  lineOf x == lineOf y && (x / 8 == y / 8 || isWindow x || (match translate s.toSoc s.me.super .load s.me.asid x with
    | .host _ true => false
    | _ => true))

/-- The first unit's lanes, and the others. -/
def State.firstUnit (s : State) : List LaneAt → List LaneAt × List LaneAt
  | [] => ([], [])
  | x :: r =>
    let same := fun (y : LaneAt) => s.sameUnit x.2.toNat y.2.toNat
    (x :: r.filter same, r.filter (fun y => !same y))

/-- The results of lanes join those of the instruction; its checks are behind it. -/
def State.keepLanes (s : State) (rs : KMap Nat (List Byte × List Bool)) : State :=
  s.modMe (fun g => { g with phase := { g.phase with acc := g.phase.acc ++ rs, next := g.phase.next + 1 } })

/-- After one access of an instruction that goes on: the turn ends here when its accesses are spent, and the thread group stalls, so
that those of others may fall between (R237, log 108). -/
def State.paced {α : Type} (s : State) (k : State → State × Option α) : State × Option α :=
  match s.pace with
  | some 0 => (s.stall, none)
  | some (n + 1) => k { s with pace := some n }
  | none => k s

/-- The line accesses of one load, in the order of each line's first lane (R230). -/
def State.loadLoop (z : Nat) : Nat → State → List LaneAt → State × Option Unit
  | 0, s, _ => (s, some ())
  | _, s, [] => (s, some ())
  | k + 1, s, x :: r =>
    let (g, rest) := s.firstUnit (x :: r)
    match s.loadLine z g with
    | (s, .blocked) => (s, none)
    | (s, .done rs) =>
      if rest = [] then (s.keepLanes rs, some ()) else (s.keepLanes rs).paced (fun s => State.loadLoop z k s rest)

/-- Step 6 of R229 for a load: the lowest lane that fails decides. -/
def State.loadFault (s : State) (z : Nat) (as_ : List LaneAt) : Option State :=
  let tr := fun (va : Nat) => translate s.toSoc s.me.super .load s.me.asid va
  (as_.find? (fun x => !isWindow x.2.toNat && (s.heldAt s.me.loc.core.die s.me.asid x.2.toNat z).isNone &&
    (tr x.2.toNat).fails s.lost)).map (fun x => s.trFail x.2.toNat (tr x.2.toNat))

/-- The loads of one instruction, which keeps the lines that it has read when it must wait for another: each lane's bytes and the poison
of each byte. -/
def State.loadAll (s : State) (z : Nat) (as_ : List W64) : State × Option (List (List Byte × List Bool)) :=
  let todo := ((as_.zipIdx).map (fun x => ((x.2, x.1) : LaneAt))).filter (fun x => (kfind x.1 s.me.phase.acc).isNone)
  match (if s.me.phase.next = 0 ∧ s.me.phase.req = none then s.loadFault z todo else none) with
  | some s => (s, none)
  | none =>
    match State.loadLoop z todo.length s todo with
    | (s, none) => (s, none)
    | (s, some _) => (s, some ((List.range as_.length).map (kget ([], []) s.me.phase.acc)))

/-! ### Stores -/

/-- The private local store of the thread group (R231). -/
def TG.isPrivate (g : TG) (a z : Nat) : Bool := decide (g.lsBase ≤ a) && decide (a + z ≤ g.lsBase + 1024 * g.lsKib)

/-- Where a store of a die leads: a line that its slice holds write-pending needs no translation (R89). -/
def State.storeTr (s : State) (d : Nat) (super : Bool) (asid : Half) (va : Nat) : Tr :=
  match s.pendingAt d asid va with
  | some a => .phys a
  | none => translate s.toSoc super .store asid va

/-- A store that does not fault replayably: none, or why the task is killed at step 6 of R229. -/
def State.storeFatal (s : State) (va : W64) : Option Tr :=
  if isWindow va.toNat then none
  else match s.storeTr s.me.loc.core.die s.me.super s.me.asid va.toNat with
    | .fatal => some .fatal
    | .misplaced pa => some (.misplaced pa)
    | .poison => some .poison
    | .peer dev _ => if s.lost.contains dev then some .fatal else none
    | _ => none

def State.storeFaults (s : State) (va : W64) : Bool :=
  !isWindow va.toNat && s.storeTr s.me.loc.core.die s.me.super s.me.asid va.toNat == .replay

/-- Two entries of one instruction that fall in one 128-byte line. -/
def StEnt.together (e x : StEnt) : Bool := e.seq == x.seq && lineOf e.va.toNat == lineOf x.va.toNat
/-- They are one line access; the lanes of an atomic are separate ones (R230, R237). -/
def StEnt.joins (e x : StEnt) : Bool := !e.op.isAtom && e.together x

/-- Entries grouped by a test, in the order of each group's first lane. -/
def groupBy_ (p : StEnt → StEnt → Bool) : Nat → List StEnt → List (List StEnt)
  | 0, _ => []
  | _, [] => []
  | k + 1, e :: r => (e :: r.filter (p e)) :: groupBy_ p k (r.filter (fun x => !p e x))

/-- Entries grouped by line: one side-log record, or two and more where R339 says so. -/
def groupLines (n : Nat) (es : List StEnt) : List (List StEnt) := groupBy_ StEnt.together n es

/-- Side-log records of one group: the halves of 4-bit codes take one each, and so do lanes of an atomic on one word (R339). -/
def recordsOf (g : List StEnt) : Nat :=
  match g with
  | [] => 0
  | h :: _ =>
    match h.op with
    | .atom m => if m = 7 ∨ m = 9 then g.length else g.foldl (fun m e => max m (g.filter (fun x => x.va == e.va)).length) 0
    | .nibLo | .nibHi => b2n (g.any (·.op == .nibLo)) 0 + b2n (g.any (·.op == .nibHi)) 0
    | _ => 1

/-- The side log of a core, the store buffer behind it, and the log's records (R98, R114, R316). -/
def Core.log (c : Core) : List StEnt := c.fifo.filter (·.inLog)
def Core.buffer (c : Core) : List StEnt := c.fifo.filter (!·.inLog)
def logRecords (l : List StEnt) : Nat := (groupLines l.length l).foldl (fun n g => n + recordsOf g) 0

/-- One line's entries into the core's FIFO. A store that faults, once the stores ahead of it have left the buffer, and every store
behind one in the log go into the side log (R98, R114). False: the log or a fault table is full, and the thread group stalls. -/
def State.storeGroup (s : State) (g : List StEnt) : State × Bool :=
  let c := s.me.loc.core
  let k := s.core c
  let put := fun (s : State) (log stop : Bool) =>
    s.bump.modCore c (fun k => { k with fifo := k.fifo ++ g.map (fun e => { e with inLog := log }), stopped := k.stopped || stop })
  let faults := g.any (fun e => s.storeFaults e.va)
  if k.log ≠ [] then
    if k.buffer ≠ [] ∨ 64 < logRecords (k.log ++ g) then (s.stall, false) else (put s true false, true)
  else if faults then
    if k.buffer ≠ [] then (s.stall, false)
    else match s.addFault s.me.asid ((g.head?.map (·.va.toNat)).getD 0) 2 c.cluster c.core with
      | none => (s.stall, false)
      | some s => (put s true true, true)
  else (put s false false, true)

def State.storeLoop (s : State) : List (List StEnt) → State × Bool
  | [] => (s, true)
  | g :: r =>
    match s.storeGroup g with
    | (s, true) => (s.modMe (fun t => { t with phase := { t.phase with next := t.phase.next + 1 } })).storeLoop r
    | (s, false) => (s, false)

/-- Steps 6 and 7 of R229 for all lanes of a store or atomic: the state after the kill, when one fails. The lowest lane that fails at
step 6 decides; where its fault is replayable, step 7 is left to the performing of the entry (log 109). -/
def State.storeCheck (s : State) (es : List StEnt) : Option State :=
  match es.find? (fun e => (s.storeFatal e.va).isSome || s.storeFaults e.va) with
  | some e => (s.storeFatal e.va).map (s.trFail e.va.toNat)
  | none =>
    ((es.filter (fun e => e.poison && !s.me.isPrivate e.va.toNat e.size)).foldl
      (fun (m : Option Nat) e => some (match m with | none => e.va.toNat | some a => min a e.va.toNat)) none).map
      (fun a => s.killMe kPOISON (BitVec.ofNat 64 a))

/-- The stores of one instruction; a group that stalls goes on where it stopped. -/
def State.storeAll (s : State) (es : List StEnt) : State × Bool :=
  let gs := groupBy_ StEnt.joins es.length es
  if s.me.phase.next = 0 then
    match s.storeCheck es with
    | some s => (s, false)
    | none => s.storeLoop gs
  else s.storeLoop (gs.drop s.me.phase.next)

/-! ### Atomics (R236) -/

/-- The new value of an atomic: the operand bytes hold the operand, and for a compare-and-swap the expected value first. -/
def atomNew (minor : Nat) (old data : List Byte) : List Byte :=
  let m := natOf old
  let a := natOf (data.take 4)
  let b := natOf (data.drop 4)
  let q := natOf data
  match minor with
  | 0 => bytesOf 4 (m + a)
  | 1 => if signedOf 32 m < signedOf 32 a then old else bytesOf 4 a
  | 2 => if signedOf 32 m > signedOf 32 a then old else bytesOf 4 a
  | 3 => bytesOf 4 (m &&& a)
  | 4 => bytesOf 4 (m ||| a)
  | 5 => bytesOf 4 (m ^^^ a)
  | 6 => bytesOf 4 a
  | 7 => if m = a then bytesOf 4 b else old
  | 8 => bytesOf 8 (m + q)
  | 9 => if m = natOf (data.take 8) then bytesOf 8 (natOf (data.drop 8)) else old
  | 10 => bytesOf 8 q
  | 11 => bytesOf 16 (fxAddF32 (BitVec.ofNat 128 m) a).toNat
  | _ => bytesOf 4 (FFmt.fp32.add .rne m a)

/-- One indivisible read-modify-write at its storage (R237): the old bytes and the poison of each. -/
def State.atomAt (s : State) (a : Nat) (e : StEnt) : State × List Byte × List Bool :=
  let (old, p) := s.marked a e.size
  match e.op with
  | .atom m => (s.writeAt a (atomNew m old e.data) (e.poison || p.any id), old, p)
  | .store => (s.writeAt a e.data e.poison, old, p)
  | .nibLo => (s.writeAt a [(old.getD 0 0 &&& 0xF0#8) ||| (e.data.getD 0 0 &&& 0x0F#8)] e.poison, old, p)
  | .nibHi => (s.writeAt a [(old.getD 0 0 &&& 0x0F#8) ||| (e.data.getD 0 0 &&& 0xF0#8)] e.poison, old, p)
  | .read _ => (s, old, p)

/-- One lane of a returning atomic: after the core's FIFO has drained (R238), at once where the line's storage is this die's and no
other die holds a replica, otherwise through a request (R105, R106). none: it waits. -/
def State.atomOne (s : State) (va : W64) (minor : Nat) (data : List Byte) (poison : Bool) : State × Option (List Byte × List Bool) :=
  let c := s.me.loc.core
  let a := va.toNat
  let e := s.mkEnt va (.atom minor) data poison false
  let here := fun (s : State) (at_ : Nat) => let (s, old, p) := s.atomAt at_ e; (s, some (old, p))
  match s.me.phase.req with
  | some id => let (s, r) := s.takeWr id; (s, r.map (·.2))
  | none =>
    if s.me.phase.next = 0 ∧ (s.core c).fifo ≠ [] then (s.stall, none)
    else if isWindow a then
      let w := winOf a
      if w.kind < 2 ∧ w.die = c.die then here s a else (s.sendWr e false a none, none)
    else
      match translate s.toSoc s.me.super .store s.me.asid a with
      | .phys pa =>
        if s.swapWait a then (s.stall, none)
        else if isNocache s.sup.active a then here s pa
        else if homeDie s.mode s.sup.active a = c.die ∧ s.holders none c.die s.me.asid a = [] then here (s.countWrite c.die s.me.asid a) pa
        else (s.sendWr e false pa none, none)
      | .host h _ => (s.sendWr e true (hostExt h) none, none)
      | .peer dev pa =>
        if s.lost.contains dev then (s.killMe kADDRESS va, none) else (s.sendWr e true pa (some dev), none)
      | t => (s.trFail a t, none)

/-- The lanes of a returning atomic in ascending order, each a separate atomic (R237). -/
def State.atomLoop (minor : Nat) : State → List (Nat × W64 × List Byte × Bool) → State × Option Unit
  | s, [] => (s, some ())
  | s, (i, a, d, p) :: r =>
    match s.atomOne a minor d p with
    | (s, none) => (s, none)
    | (s, some b) =>
      if r = [] then (s.keepLanes [(i, b)], some ()) else (s.keepLanes [(i, b)]).paced (fun s => State.atomLoop minor s r)

/-- Steps 6 and 7 of R229 for a returning atomic: the lowest lane with a fault parks the thread group or has its task killed. -/
def State.atomFault (s : State) (es : List StEnt) : Option State :=
  match es.find? (fun e => (s.storeFatal e.va).isSome || s.storeFaults e.va) with
  | some e => some (s.trFail e.va.toNat ((s.storeFatal e.va).getD .replay))
  | none => s.storeCheck es

/-- A returning atomic: each lane's old bytes and the poison of each. -/
def State.atomAll (s : State) (minor : Nat) (ops : List (W64 × List Byte × Bool)) : State × Option (List (List Byte × List Bool)) :=
  let todo := ((ops.zipIdx).map (fun x => (x.2, x.1))).filter (fun x => (kfind x.1 s.me.phase.acc).isNone)
  match (if s.me.phase.next = 0 ∧ s.me.phase.req = none then s.atomFault (ops.map (fun o => s.mkEnt o.1 (.atom minor) o.2.1 o.2.2 false))
      else none) with
  | some s => (s, none)
  | none =>
    match State.atomLoop minor s todo with
    | (s, none) => (s, none)
    | (s, some _) => (s, some ((List.range ops.length).map (kget ([], []) s.me.phase.acc)))

/-! ### Fences (R103) -/

/-- The scope that orders at least this much, with 7 standing for the instruction's default. -/
def Scope.resolve (sc d : Scope) : Scope := match sc with | .dflt => d | x => x

/-- No store of the thread group is left in the store buffer (CLUSTER), or in the side log either (DIE). -/
def State.bufferClear (s : State) (t : TgRef) : Bool := !(s.core t.core).fifo.any (fun e => e.tg == t && !e.inLog)
def State.logClear (s : State) (t : TgRef) : Bool := !(s.core t.core).fifo.any (fun e => e.tg == t)

/-- Every store that reached the die's ordering point before mark, and every store of the thread group, is DEVICE-visible; with
host set, performed at the host or peer too (R102, R103). -/
def State.visible (s : State) (t : TgRef) (mark : Nat) (host : Bool) : Bool :=
  !s.wrs.any (fun w => w.die == t.core.die && !w.ret && (host || !w.host) && (decide (w.id < mark) || w.ent.tg == t))

/-- Whether a fence of the scope has nothing left to wait for. -/
def State.fenceReady (s : State) (sc : Scope) (mark : Nat) : Bool :=
  let t := s.me.loc
  match sc with
  | .tg | .task | .core => true
  | .cluster => s.bufferClear t
  | .die => s.logClear t
  | .device | .dflt => s.logClear t && s.visible t mark false
  | .system => s.logClear t && s.visible t mark true

/-- The sequence number from which this group counts earlier stores. -/
def State.markOf (s : State) : Nat := s.me.phase.mark.getD s.seq
def State.setMark (s : State) : State := s.modMe (fun g => { g with phase := { g.phase with mark := some (g.phase.mark.getD s.seq) } })

/-- Wait as a fence of the scope, then go on (R103). A group waits by executing again; it counts the stores of its first issue. -/
def State.afterFence (s : State) (sc : Scope) (k : State → State) : State :=
  if s.fenceReady sc s.markOf then k s else s.setMark.stall

end Sys2Proof.Machine
end

