-- ==== Sys2Proof/Machine/Flags.lean ====
section
/-! DEFINITION. Predicates, condition registers and execution mask: reading, writing and guarding (R173, R189, R191, R205, R208,
R226). -/

namespace Sys2Proof.Machine

/-- A uniform or condition predicate: k0 is true (R191). -/
def State.kval (s : State) (k : KReg) : Bool :=
  if k.val = 0 then true else if k.val < 8 then s.me.k.getLsbD k.val else s.cond k.val

/-- Its poison bit: clear for k0 and k8 to k15 (R189). -/
def State.kpoison (s : State) (k : KReg) : Bool := k.val != 0 && k.val < 8 && s.me.kp.getLsbD k.val

/-- Bit n of a word set to a value. -/
def setBit {w : Nat} (x : BitVec w) (n : Nat) (b : Bool) : BitVec w :=
  if b then x ||| BitVec.ofNat w (2 ^ n) else x &&& ~~~(BitVec.ofNat w (2 ^ n))

/-- Words of a register are written: an error found in one of them counts again (R426). The files are 0 v, 1 s, 2 p and 3 k,
16 more where only a corrected error has been counted. -/
def TG.wrote (g : TG) (file reg : Nat) (lane : Nat → Bool) : List (Nat × Nat × Nat) :=
  g.found.filter (fun w => !(w.1 % 16 == file && w.2.1 == reg && lane w.2.2))

/-- Write k1 to k7 (R172: no instruction names another destination). -/
def TG.setK (g : TG) (k : KReg) (b p : Bool) : TG :=
  { g with k := setBit g.k k.val b, kp := setBit g.kp k.val p, found := g.wrote 3 k.val (fun _ => true) }

/-- A lane predicate: p0 is true in every lane, clean (R226). -/
def TG.pval (g : TG) (p : PReg) : W32 := if p.val = 0 then 0xFFFFFFFF else g.p[p]
def TG.ppoison (g : TG) (p : PReg) : W32 := if p.val = 0 then 0 else g.pp[p]

/-- Write the active lanes of a predicate; the others keep value and poison (R202, R208). -/
def TG.setP (g : TG) (p : PReg) (active val poison : W32) : TG :=
  { g with p := g.p.set p ((g.p[p] &&& ~~~active) ||| (val &&& active)),
           pp := g.pp.set p ((g.pp[p] &&& ~~~active) ||| (poison &&& active)),
           found := g.wrote 2 p.val (fun _ => active != 0) }

/-- The lanes where X AND p(G) is 1 (R173, R201, R208). -/
def TG.active (g : TG) (gd : Guard) : W32 := g.x &&& g.pval gd

/-- Bits chosen lane by lane. -/
def laneBits (f : Fin 32 → Bool) : W32 := BitVec.ofNat 32 ((List.finRange 32).foldl (fun a l => a + b2n (f l) l.val) 0)

/-- A uniform guard (R173, R189, R227, R286): poisoned it kills, false it does nothing but advance. -/
def State.withK (s : State) (g : Guard) (f : State → State) : State :=
  if g.val = 0 then f s
  else
    let k : KReg := ⟨g.val, by omega⟩
    if s.kpoison k then s.poisonPc else if s.kval k then f s else s.advance

/-- A lane guard (R189, R208): poisoned in a lane where X is 1 it kills. -/
def State.withP (s : State) (g : Guard) (f : State → State) : State :=
  if s.me.ppoison g &&& s.me.x ≠ 0 then s.poisonPc else f s

end Sys2Proof.Machine
end

