-- ==== Sys2Proof/Machine/Operands.lean ====
section
/-! DEFINITION. Register operands with their poison, the B and K operands, effective addresses (R174, R189, R208, R228), and the
shared shapes of the register instructions. -/

namespace Sys2Proof.Machine

/-! ### Uniform registers -/

def TG.sget (g : TG) (r : UReg) : W64 := g.s[r]
def TG.spoison (g : TG) (r : UReg) : Bool := g.sp.getLsbD r.val

/-- Write a uniform register and its poison bit (R189). -/
def TG.setS (g : TG) (r : UReg) (v : W64) (p : Bool) : TG :=
  { g with s := g.s.set r v, sp := setBit g.sp r.val p, found := g.wrote 1 r.val (fun _ => true) }

def State.setS (s : State) (r : UReg) (v : W64) (p : Bool) : State := { s with me := s.me.setS r v p }
def State.setK (s : State) (k : KReg) (v p : Bool) : State := { s with me := s.me.setK k v p }
def State.setP (s : State) (r : PReg) (active val poison : W32) : State := { s with me := s.me.setP r active val poison }

/-! ### Vector registers -/

def TG.vget (g : TG) (r : VReg) : Lanes := g.v[r]
def TG.vpoison (g : TG) (r : VReg) : W32 := g.vp[r]

/-- Write the active lanes of a vector register; the others keep value and poison (R202, R208). -/
def TG.setV (g : TG) (r : VReg) (active : W32) (val : Fin 32 → W32) (poison : W32) : TG :=
  { g with v := g.v.set r (Vector.ofFn (fun l : Fin 32 => if active.getLsbD l.val then val l else g.v[r][l])),
           vp := g.vp.set r ((g.vp[r] &&& ~~~active) ||| (poison &&& active)),
           found := g.wrote 0 r.val (fun l => active.getLsbD l) }

def State.setV (s : State) (r : VReg) (active : W32) (val : Fin 32 → W32) (poison : W32) : State :=
  { s with me := s.me.setV r active val poison }

/-- v(n + k), within the file. -/
def VReg.plus (r : VReg) (k : Nat) : VReg := Fin.ofNat 256 (r.val + k)

/-- The B operand of a lane: a vector register's lane, or the low half of a uniform register (R208). -/
def TG.bval (g : TG) (b : VSrc) (l : Fin 32) : W32 :=
  match b with
  | .v r => g.v[r][l]
  | .s r => (g.sget r).setWidth 32

/-- Its poison, as lanes. -/
def TG.bpoison (g : TG) (b : VSrc) : W32 :=
  match b with
  | .v r => g.vpoison r
  | .s r => if g.spoison r then 0xFFFFFFFF else 0

def allLanes (b : Bool) : W32 := if b then 0xFFFFFFFF else 0

/-! ### The K operand and the M offset (R174) -/

/-- Where a word of the constant window lies (R174). -/
def State.cwAddr (s : State) (n : Byte) : Nat := localAddr s.me.loc.core (4 * n.toNat)

/-- A word of the constant window, read as a load of the core's own local store (R174); none while it waits for an atomic. -/
def State.cwWord (s : State) (n : Byte) : Option (W32 × Bool) :=
  match s.forward s.me.loc.core s.me.asid (s.cwAddr n) (s.marked (s.cwAddr n) 4) with
  | (some b, p) => some (BitVec.ofNat 32 (natOf b), p.any id)
  | (none, _) => none

/-- The K operand with its poison: a literal is clean. -/
def State.kop (s : State) : KOp → Option (W32 × Bool)
  | .imm n => some (n, false)
  | .cw n => s.cwWord n

/-- Go on with the K operand, or wait for it. A word of the constant window is checked against the range locks as a load is (R111, R174), in the
instructions of R210 as well (log 143). -/
def State.withKop (s : State) (k : KOp) (f : W32 → Bool → State) : State :=
  match (match k with | .cw n => s.accCheck false 4 [⟨0, BitVec.ofNat 64 (s.cwAddr n)⟩] | .imm _ => none) with
  | some (c, a, i) => s.trap c a i
  | none =>
    match s.kop k with
    | some (v, p) => f v p
    | none => (match k with | .cw n => s.atomWait (s.cwAddr n) 4 | .imm _ => s.stall)

/-- m_address of R174. -/
def mAddress (base : W64) (o : MOff) (z : Nat) : W64 :=
  match o with
  | .short n => base + (n.signExtend 64) * BitVec.ofNat 64 z
  | .long n => base + (n.signExtend 64) * BitVec.ofNat 64 z

/-! ### Shapes of the register instructions -/

/-- sD := f(sA, sB), poison the OR of the sources (R189, R193). -/
def State.uni2 (s : State) (g : Guard) (d a b : UReg) (f : W64 → W64 → W64) : State :=
  s.withK g fun s => (s.setS d (f (s.me.sget a) (s.me.sget b)) (s.me.spoison a || s.me.spoison b)).advance

/-- sD := f(sA, K), the K operand sign-extended (R174, R192). -/
def State.uniK (s : State) (g : Guard) (d a : UReg) (k : KOp) (f : W64 → W64 → W64) : State :=
  s.withK g fun s => s.withKop k fun v p =>
    (s.setS d (f (s.me.sget a) (v.signExtend 64)) (s.me.spoison a || p)).advance

/-- sD := f(sA) (R194). -/
def State.uni1 (s : State) (g : Guard) (d a : UReg) (f : W64 → W64) : State :=
  s.withK g fun s => (s.setS d (f (s.me.sget a)) (s.me.spoison a)).advance

/-- kD := f(sA, sB) (R195). -/
def State.cmp2 (s : State) (g : Guard) (d : KReg) (a b : UReg) (f : W64 → W64 → Bool) : State :=
  s.withK g fun s => (s.setK d (f (s.me.sget a) (s.me.sget b)) (s.me.spoison a || s.me.spoison b)).advance

/-- kD := f(kA, kB) (R195). -/
def State.kop2 (s : State) (g : Guard) (d a b : KReg) (f : Bool → Bool → Bool) : State :=
  s.withK g fun s => (s.setK d (f (s.kval a) (s.kval b)) (s.kpoison a || s.kpoison b)).advance

/-- vD[l] := f(vA[l], b[l]) in the active lanes (R208, R209). -/
def State.vec2 (s : State) (g : Guard) (d a : VReg) (b : VSrc) (f : W32 → W32 → W32) : State :=
  s.withP g fun s =>
    (s.setV d (s.me.active g) (fun l => f ((s.me.vget a)[l]) (s.me.bval b l)) (s.me.vpoison a ||| s.me.bpoison b)).advance

/-- vD[l] := f(vA[l], b[l], old vD[l]): the old destination is a source (R209). -/
def State.vec3 (s : State) (g : Guard) (d a : VReg) (b : VSrc) (f : W32 → W32 → W32 → W32) : State :=
  s.withP g fun s =>
    (s.setV d (s.me.active g) (fun l => f ((s.me.vget a)[l]) (s.me.bval b l) ((s.me.vget d)[l]))
      (s.me.vpoison a ||| s.me.bpoison b ||| s.me.vpoison d)).advance

/-- vD[l] := f(vA[l]) in the active lanes. -/
def State.vec1 (s : State) (g : Guard) (d a : VReg) (f : W32 → W32) : State :=
  s.withP g fun s => (s.setV d (s.me.active g) (fun l => f ((s.me.vget a)[l])) (s.me.vpoison a)).advance

/-- vD[l] := f(vA[l], K), the K operand never sign-extended (R213). -/
def State.vecK (s : State) (g : Guard) (d a : VReg) (k : KOp) (f : W32 → W32 → W32) : State :=
  s.withP g fun s => s.withKop k fun v p =>
    (s.setV d (s.me.active g) (fun l => f ((s.me.vget a)[l]) v) (s.me.vpoison a ||| allLanes p)).advance

/-- pD[l] := f(vA[l], b[l]) in the active lanes (R226). -/
def State.vcmp (s : State) (g : Guard) (d : PReg) (a : VReg) (b : VSrc) (f : W32 → W32 → Bool) : State :=
  s.withP g fun s =>
    (s.setP d (s.me.active g) (laneBits (fun l => f ((s.me.vget a)[l]) (s.me.bval b l))) (s.me.vpoison a ||| s.me.bpoison b)).advance

/-- pD[l] := f(pA[l], pB[l]) in the active lanes (R226), as words. -/
def State.pop2 (s : State) (g : Guard) (d a b : PReg) (f : W32 → W32 → W32) : State :=
  s.withP g fun s =>
    (s.setP d (s.me.active g) (f (s.me.pval a) (s.me.pval b)) (s.me.ppoison a ||| s.me.ppoison b)).advance

end Sys2Proof.Machine
end

