-- ==== Sys2Proof/Machine/Uniform.lean ====
section
/-! DEFINITION. Majors 0 to 3: uniform arithmetic, compares and predicate logic (R189 to R195), and the compact forms that stand
for them (R185). -/

namespace Sys2Proof.Machine

open Sys2Proof

/-! ### The 64-bit operations (R193, R194) -/

/-- Bits [127:64] of the product of two integers. -/
def mulHigh (a b : Int) : W64 := BitVec.ofInt 64 (a * b / 2 ^ 64)
/-- SDIV: toward zero; 0 for a zero divisor (R193). -/
def sdiv64 (a b : W64) : W64 := if b = 0 then 0 else BitVec.ofInt 64 (a.toInt.tdiv b.toInt)
/-- SDIVU (R193). -/
def sdivu64 (a b : W64) : W64 := if b = 0 then 0 else BitVec.ofNat 64 (a.toNat / b.toNat)
/-- SREM: the sign of the dividend; the dividend for a zero divisor (R193). -/
def srem64 (a b : W64) : W64 := if b = 0 then a else BitVec.ofInt 64 (a.toInt.tmod b.toInt)
/-- A shift amount: bits [5:0] (R193). -/
def sh6 (b : W64) : Nat := b.toNat % 64
def smin64 (a b : W64) : W64 := if a.toInt < b.toInt then a else b
def smax64 (a b : W64) : W64 := if a.toInt > b.toInt then a else b
def sabs64 (a : W64) : W64 := if a.toInt < 0 then -a else a

/-! ### Major 0 (R193) -/

def execSadd (g : Guard) (d a b : UReg) (s : State) : Out State := .next (s.uni2 g d a b fun a b => a + b)
def execSsub (g : Guard) (d a b : UReg) (s : State) : Out State := .next (s.uni2 g d a b fun a b => a - b)
def execSmul (g : Guard) (d a b : UReg) (s : State) : Out State := .next (s.uni2 g d a b fun a b => a * b)
def execSmulh (g : Guard) (d a b : UReg) (s : State) : Out State := .next (s.uni2 g d a b fun a b => mulHigh a.toInt b.toInt)
def execSmulhu (g : Guard) (d a b : UReg) (s : State) : Out State := .next (s.uni2 g d a b fun a b => mulHigh a.toNat b.toNat)
def execSdiv (g : Guard) (d a b : UReg) (s : State) : Out State := .next (s.uni2 g d a b fun a b => sdiv64 a b)
def execSdivu (g : Guard) (d a b : UReg) (s : State) : Out State := .next (s.uni2 g d a b fun a b => sdivu64 a b)
def execSrem (g : Guard) (d a b : UReg) (s : State) : Out State := .next (s.uni2 g d a b fun a b => srem64 a b)
def execSand (g : Guard) (d a b : UReg) (s : State) : Out State := .next (s.uni2 g d a b fun a b => a &&& b)
def execSor (g : Guard) (d a b : UReg) (s : State) : Out State := .next (s.uni2 g d a b fun a b => a ||| b)
def execSxor (g : Guard) (d a b : UReg) (s : State) : Out State := .next (s.uni2 g d a b fun a b => a ^^^ b)
def execSshl (g : Guard) (d a b : UReg) (s : State) : Out State := .next (s.uni2 g d a b fun a b => a <<< sh6 b)
def execSshr (g : Guard) (d a b : UReg) (s : State) : Out State := .next (s.uni2 g d a b fun a b => a >>> sh6 b)
def execSsar (g : Guard) (d a b : UReg) (s : State) : Out State := .next (s.uni2 g d a b fun a b => a.sshiftRight (sh6 b))
def execSmin (g : Guard) (d a b : UReg) (s : State) : Out State := .next (s.uni2 g d a b fun a b => smin64 a b)
def execSmax (g : Guard) (d a b : UReg) (s : State) : Out State := .next (s.uni2 g d a b fun a b => smax64 a b)

/-! ### Major 1: the K operand is sign-extended (R174, R192) -/

def execSmovk (g : Guard) (d : UReg) (k : KOp) (s : State) : Out State :=
  .next (s.withK g fun s => s.withKop k fun v p => (s.setS d (v.signExtend 64) p).advance)
def execSaddk (g : Guard) (d a : UReg) (k : KOp) (s : State) : Out State := .next (s.uniK g d a k fun a b => a + b)
def execSandk (g : Guard) (d a : UReg) (k : KOp) (s : State) : Out State := .next (s.uniK g d a k fun a b => a &&& b)
def execSshlk (g : Guard) (d a : UReg) (k : KOp) (s : State) : Out State := .next (s.uniK g d a k fun a b => a <<< sh6 b)

/-! ### Major 2 (R194) -/

def execSmov (g : Guard) (d a : UReg) (s : State) : Out State := .next (s.uni1 g d a fun a => a)
def execSnot (g : Guard) (d a : UReg) (s : State) : Out State := .next (s.uni1 g d a fun a => ~~~a)
def execSneg (g : Guard) (d a : UReg) (s : State) : Out State := .next (s.uni1 g d a fun a => -a)
def execSabs (g : Guard) (d a : UReg) (s : State) : Out State := .next (s.uni1 g d a fun a => sabs64 a)
def execSclz (g : Guard) (d a : UReg) (s : State) : Out State := .next (s.uni1 g d a fun a => BitVec.ofNat 64 (clz 64 a.toNat))
def execSpopc (g : Guard) (d a : UReg) (s : State) : Out State := .next (s.uni1 g d a fun a => BitVec.ofNat 64 (popcount 64 a.toNat))
def execSsx32 (g : Guard) (d a : UReg) (s : State) : Out State := .next (s.uni1 g d a fun a => (a.setWidth 32).signExtend 64)
def execSzx32 (g : Guard) (d a : UReg) (s : State) : Out State := .next (s.uni1 g d a fun a => (a.setWidth 32).setWidth 64)
def execSbrev (g : Guard) (d a : UReg) (s : State) : Out State := .next (s.uni1 g d a fun a => BitVec.ofNat 64 (brev 64 a.toNat))

/-! ### Major 3 (R195) -/

def execScmpeq (g : Guard) (d : KReg) (a b : UReg) (s : State) : Out State := .next (s.cmp2 g d a b fun a b => a == b)
def execScmpne (g : Guard) (d : KReg) (a b : UReg) (s : State) : Out State := .next (s.cmp2 g d a b fun a b => a != b)
def execScmplt (g : Guard) (d : KReg) (a b : UReg) (s : State) : Out State := .next (s.cmp2 g d a b fun a b => a.slt b)
def execScmple (g : Guard) (d : KReg) (a b : UReg) (s : State) : Out State := .next (s.cmp2 g d a b fun a b => a.sle b)
def execScmpltu (g : Guard) (d : KReg) (a b : UReg) (s : State) : Out State := .next (s.cmp2 g d a b fun a b => a.ult b)
def execScmpleu (g : Guard) (d : KReg) (a b : UReg) (s : State) : Out State := .next (s.cmp2 g d a b fun a b => a.ule b)
def execKand (g : Guard) (d a b : KReg) (s : State) : Out State := .next (s.kop2 g d a b fun a b => a && b)
def execKor (g : Guard) (d a b : KReg) (s : State) : Out State := .next (s.kop2 g d a b fun a b => a || b)
def execKxor (g : Guard) (d a b : KReg) (s : State) : Out State := .next (s.kop2 g d a b fun a b => a != b)
def execKandn (g : Guard) (d a b : KReg) (s : State) : Out State := .next (s.kop2 g d a b fun a b => a && !b)

/-! ### Compact forms (R185): the form that each stands for, with no guard -/

/-- The uniform register of a compact field. -/
def CReg.u (r : CReg) : UReg := ⟨r.val, by omega⟩
def c8u (r : Fin 8) : UReg := ⟨r.val, by omega⟩

def execCSmov (d a : CReg) (s : State) : Out State := .next (s.uni1 0 (CReg.u d) (CReg.u a) fun a => a)
def execCSadd (d a : CReg) (b : Fin 8) (s : State) : Out State := .next (s.uni2 0 (CReg.u d) (CReg.u a) (c8u b) fun a b => a + b)
/-- C.SADDI adds B3, as 3-bit two's complement (R185). -/
def execCSaddi (d a : CReg) (n : BitVec 3) (s : State) : Out State :=
  .next (s.uni1 0 (CReg.u d) (CReg.u a) fun a => a + n.signExtend 64)

end Sys2Proof.Machine
end

