-- ==== Sys2Proof/Machine/Approx.lean ====
section
/-! DEFINITION. The approximating forms of R219: the exact value is enclosed in rationals far below one ulp, and the result is one of the
FP32 values within the stated bound, which one is a free choice of Config, fixed for the form and the input (log 15). -/

namespace Sys2Proof.Machine

/-! ### FP32 codes in the order of their values -/

/-- An FP32 code as a number that rises with the value: -0 just below +0. -/
def ordOf (c : Nat) : Int := if bitOf c 31 then -((c % 2 ^ 31 : Nat) : Int) - 1 else c
def ofOrd (k : Int) : Nat := if k < 0 then 2 ^ 31 + (-k - 1).toNat else k.toNat

/-- Fraction bits to which a bound of a rational is taken: every FP32 value is a multiple of their unit. -/
def apP : Nat := 256
def below (q : Rat) : Fv := .ofInt false ⌊q * 2 ^ apP⌋ (-apP)
def above (q : Rat) : Fv := .ofInt false ⌈q * 2 ^ apP⌉ (-apP)

/-- The places of the greatest FP32 value not above q, of the least not below q, and of one that is nearest to it. -/
def ordDn (q : Rat) : Int := ordOf (FFmt.fp32.code .rdn false (below q))
def ordUp (q : Rat) : Int := ordOf (FFmt.fp32.code .rup false (above q))
def ordNear (q : Rat) : Int := ordOf (FFmt.fp32.code .rne false (below q))

/-- The exponent of the ulp of a value in FP32 (R219). -/
def ulpExp (q : Rat) : Int := max (Int.log 2 |q| - 23) (-149)

/-- The place of a result within the bound b of an exact value that lies from lo to hi: any from exact - b to exact + b; the nearest is
always one, an overflow too (R118). -/
def pickOrd (form a : Nat) (lo hi b : Rat) : Int :=
  let l := min (ordUp (hi - b)) (ordNear lo)
  let h := max (ordDn (lo + b)) (ordNear lo)
  l + (Config.approxPick form (BitVec.ofNat 32 a) % ((h - l).toNat + 1) : Nat)

/-- n ulp of an exact value that lies from lo to hi. -/
def ulps (n : Nat) (lo hi : Rat) : Rat := n * 2 ^ min (ulpExp lo) (ulpExp hi)

def pickUlp (form a n : Nat) (lo hi : Rat) : Nat := ofOrd (pickOrd form a lo hi (ulps n lo hi))

/-- The value of a finite code. -/
def Fv.rat (n : Bool) (m : Nat) (e : Int) : Rat := (if n then -1 else 1) * m * 2 ^ e

/-! ### VFRCP and VFRSQ -/

/-- VFRCP (R219). -/
def rcpApprox (a : Nat) : Nat :=
  match FFmt.fp32.value a with
  | .fin n m e => if m = 0 then FFmt.fp32.code .rne false (.inf n) else pickUlp 4 a 1 (1 / Fv.rat n m e) (1 / Fv.rat n m e)
  | .inf n => FFmt.fp32.code .rne false (.fin n 0 0)
  | .nan _ => FFmt.fp32.nanCode

/-- An enclosure of the root of q. -/
def sqrtLo (q : Rat) : Rat := isqrt ⌊q * 4 ^ apP⌋.toNat / 2 ^ apP
def sqrtHi (q : Rat) : Rat := if sqrtLo q * sqrtLo q = q then sqrtLo q else sqrtLo q + 1 / 2 ^ apP

/-- VFRSQ (R219). -/
def rsqApprox (a : Nat) : Nat :=
  match FFmt.fp32.value a with
  | .fin n m e =>
    if m = 0 then FFmt.fp32.code .rne false (.inf n) else if n then FFmt.fp32.nanCode
    else pickUlp 3 a 1 (sqrtLo (1 / Fv.rat false m e)) (sqrtHi (1 / Fv.rat false m e))
  | .inf n => if n then FFmt.fp32.nanCode else 0
  | .nan _ => FFmt.fp32.nanCode

/-! ### VFEXP2, VFLOG2 and VFTANH, by the series of the exponential and of the logarithm -/

/-- The first n terms of the series of exp z, and a bound of the rest for a z from -1 to 1. -/
def expSum (n : Nat) (z : Rat) : Rat := ∑ i ∈ Finset.range n, z ^ i / (i.factorial : Rat)
def expRest (n : Nat) (z : Rat) : Rat := |z| ^ n * ((n.succ : Rat) * (n.factorial * n : Rat)⁻¹)
def expLo (z : Rat) : Rat := expSum 60 z - expRest 60 z
def expHi (z : Rat) : Rat := expSum 60 z + expRest 60 z

/-- The first n terms of the series of -ln (1 - x). -/
def logSum (n : Nat) (x : Rat) : Rat := ∑ i ∈ Finset.range n, x ^ (i + 1) / ((i : Rat) + 1)
/-- For an x up to 1/2 the terms after the first 200 come to no more than this. -/
def logRest : Rat := 1 / 2 ^ 200
/-- An enclosure of ln 2 = -ln (1 - 1/2). -/
def ln2Lo : Rat := logSum 200 (1 / 2)
def ln2Hi : Rat := ln2Lo + logRest

/-- VFEXP2 (R219): 2^x = 2^I e^((x - I) ln 2), with I the floor of x. -/
def exp2Approx (a : Nat) : Nat :=
  match FFmt.fp32.value a with
  | .nan _ => FFmt.fp32.nanCode
  | .inf n => if n then 0 else FFmt.fp32.infCode
  | .fin n m e =>
    if Fv.lt (.fin n m e) (.fin true 149 0) then 0
    else if !Fv.lt (.fin n m e) (.fin false 128 0) then FFmt.fp32.infCode
    else
      let x := Fv.rat n m e
      if (⌊x⌋ : Rat) = x then FFmt.fp32.code .rne false (.fin false 1 ⌊x⌋)
      else
        let f := x - ⌊x⌋
        pickUlp 5 a 2 (2 ^ ⌊x⌋ * expLo (f * ln2Lo)) (2 ^ ⌊x⌋ * expHi (f * ln2Hi))

/-- VFLOG2 (R219): with a = M 2^K and M from 1/2 up to 1, log2 a = K - (-ln M) / ln 2. -/
def log2Approx (a : Nat) : Nat :=
  match FFmt.fp32.value a with
  | .nan _ => FFmt.fp32.nanCode
  | .inf n => if n then FFmt.fp32.nanCode else FFmt.fp32.infCode
  | .fin n m e =>
    if m = 0 then FFmt.fp32.code .rne false (.inf true)
    else if n then FFmt.fp32.nanCode
    else if m = 2 ^ m.log2 then FFmt.fp32.code .rne false (Fv.ofInt false (binade m e) 0)
    else
      let k := binade m e + 1
      let t := logSum 200 (1 - m / 2 ^ (m.log2 + 1))
      let lo := k - (t + logRest) / ln2Lo
      let hi := k - t / ln2Hi
      if k = 0 ∨ k = 1 then ofOrd (pickOrd 6 a lo hi (1 / 2 ^ 22)) else pickUlp 6 a 2 lo hi

/-- An enclosure of tanh x for a positive x: (e^t - 1) / (e^t + 1) with t = 2x and e^t = 2^I e^(t - I ln 2); beyond 16 it lies within 2^-30
of 1. -/
def tanhOf (y : Rat) : Rat := (y - 1) / (y + 1)
def tanhTurns (x : Rat) : Nat := if 4 * x < 1 then 0 else ⌊2 * x / ln2Lo⌋.toNat
def tanhLo (x : Rat) : Rat :=
  if 16 ≤ x then 1 - 1 / 2 ^ 30 else tanhOf (2 ^ tanhTurns x * expLo (2 * x - tanhTurns x * ln2Hi))
def tanhHi (x : Rat) : Rat :=
  if 16 ≤ x then 1 else tanhOf (2 ^ tanhTurns x * expHi (2 * x - tanhTurns x * ln2Lo))

/-- VFTANH (R219): no result exceeds 1. -/
def tanhApprox (a : Nat) : Nat :=
  match FFmt.fp32.value a with
  | .nan _ => FFmt.fp32.nanCode
  | .inf n => FFmt.fp32.code .rne false (.fin n 1 0)
  | .fin n m e =>
    if m = 0 then a
    else
      let x := Fv.rat false m e
      let lo := if n then -tanhHi x else tanhLo x
      let hi := if n then -tanhLo x else tanhHi x
      ofOrd (max (ordOf 0xBF800000) (min (ordOf 0x3F800000) (pickOrd 12 a lo hi (ulps 2 lo hi))))

end Sys2Proof.Machine
end

