-- ==== Sys2Proof/Machine/VInt.lean ====
section
/-! DEFINITION. Majors 4, 5 and 10 and the compact VMOV and VADD: lane integers, compares and lane predicates (R208 to R213, R226). -/

namespace Sys2Proof.Machine

open Sys2Proof

/-- The low word of an exact sum, or clamped to the signed range (R213). -/
def satW (sat : Bool) (r : Int) : W32 := BitVec.ofInt 32 (if sat then clampInt (-(2 ^ 31)) (2 ^ 31 - 1) r else r)
/-- Bits [63:32] of a product (R213). -/
def mulHigh32 (a b : Int) : W32 := BitVec.ofInt 32 (a * b / 2 ^ 32)
/-- A shift amount: bits [4:0] (R213). -/
def sh5 (b : W32) : Nat := b.toNat % 32

/-! ### Major 4 (R213) -/

def execVadd (g : Guard) (d a : VReg) (b : VSrc) (sat : Bool) (s : State) : Out State :=
  .next (s.vec2 g d a b fun a b => satW sat (a.toInt + b.toInt))
def execVsub (g : Guard) (d a : VReg) (b : VSrc) (sat : Bool) (s : State) : Out State :=
  .next (s.vec2 g d a b fun a b => satW sat (a.toInt - b.toInt))
def execVmul (g : Guard) (d a : VReg) (b : VSrc) (s : State) : Out State := .next (s.vec2 g d a b fun a b => a * b)
def execVmulh (g : Guard) (d a : VReg) (b : VSrc) (s : State) : Out State := .next (s.vec2 g d a b fun a b => mulHigh32 a.toInt b.toInt)
def execVmulhu (g : Guard) (d a : VReg) (b : VSrc) (s : State) : Out State := .next (s.vec2 g d a b fun a b => mulHigh32 a.toNat b.toNat)
def execVand (g : Guard) (d a : VReg) (b : VSrc) (s : State) : Out State := .next (s.vec2 g d a b fun a b => a &&& b)
def execVor (g : Guard) (d a : VReg) (b : VSrc) (s : State) : Out State := .next (s.vec2 g d a b fun a b => a ||| b)
def execVxor (g : Guard) (d a : VReg) (b : VSrc) (s : State) : Out State := .next (s.vec2 g d a b fun a b => a ^^^ b)
def execVshl (g : Guard) (d a : VReg) (b : VSrc) (s : State) : Out State := .next (s.vec2 g d a b fun a b => a <<< sh5 b)
def execVshr (g : Guard) (d a : VReg) (b : VSrc) (s : State) : Out State := .next (s.vec2 g d a b fun a b => a >>> sh5 b)
def execVsar (g : Guard) (d a : VReg) (b : VSrc) (s : State) : Out State := .next (s.vec2 g d a b fun a b => a.sshiftRight (sh5 b))
def execVmin (g : Guard) (d a : VReg) (b : VSrc) (s : State) : Out State := .next (s.vec2 g d a b fun a b => if a.slt b then a else b)
def execVmax (g : Guard) (d a : VReg) (b : VSrc) (s : State) : Out State := .next (s.vec2 g d a b fun a b => if b.slt a then a else b)
def execVminu (g : Guard) (d a : VReg) (b : VSrc) (s : State) : Out State := .next (s.vec2 g d a b fun a b => if a.ult b then a else b)
def execVmaxu (g : Guard) (d a : VReg) (b : VSrc) (s : State) : Out State := .next (s.vec2 g d a b fun a b => if b.ult a then a else b)
/-- VMAD: the old destination is the addend (R213). -/
def execVmad (g : Guard) (d a : VReg) (b : VSrc) (s : State) : Out State := .next (s.vec3 g d a b fun a b o => a * b + o)

/-! ### Major 5 (R213) -/

def execVmovk (g : Guard) (d : VReg) (k : KOp) (s : State) : Out State :=
  .next (s.withP g fun s => s.withKop k fun v p => (s.setV d (s.me.active g) (fun _ => v) (allLanes p)).advance)
def execVaddk (g : Guard) (d a : VReg) (k : KOp) (sat : Bool) (s : State) : Out State :=
  .next (s.vecK g d a k fun a b => satW sat (a.toInt + b.toInt))
def execVandk (g : Guard) (d a : VReg) (k : KOp) (s : State) : Out State := .next (s.vecK g d a k fun a b => a &&& b)
def execVshlk (g : Guard) (d a : VReg) (k : KOp) (s : State) : Out State := .next (s.vecK g d a k fun a b => a <<< sh5 b)

/-! ### Compact lane integers (R185) -/

/-- The vector register of a compact field. -/
def CReg.v (r : CReg) : VReg := ⟨r.val, by omega⟩
def c8v (r : Fin 8) : VReg := ⟨r.val, by omega⟩

/-- C.VMOV is VOR vD, vA, vA. -/
def execCVmov (d a : CReg) (s : State) : Out State := .next (s.vec2 0 (CReg.v d) (CReg.v a) (.v (CReg.v a)) fun a b => a ||| b)
def execCVadd (d a : CReg) (b : Fin 8) (s : State) : Out State := .next (s.vec2 0 (CReg.v d) (CReg.v a) (.v (c8v b)) fun a b => a + b)

/-! ### Major 10 (R226) -/

def execVcmpeq (g : Guard) (d : PReg) (a : VReg) (b : VSrc) (s : State) : Out State :=
  .next (s.vcmp g d a b fun a b => a == b)
def execVcmpne (g : Guard) (d : PReg) (a : VReg) (b : VSrc) (s : State) : Out State :=
  .next (s.vcmp g d a b fun a b => a != b)
def execVcmplt (g : Guard) (d : PReg) (a : VReg) (b : VSrc) (s : State) : Out State :=
  .next (s.vcmp g d a b fun a b => a.slt b)
def execVcmple (g : Guard) (d : PReg) (a : VReg) (b : VSrc) (s : State) : Out State :=
  .next (s.vcmp g d a b fun a b => a.sle b)
def execVcmpltu (g : Guard) (d : PReg) (a : VReg) (b : VSrc) (s : State) : Out State :=
  .next (s.vcmp g d a b fun a b => a.ult b)
def execVcmpleu (g : Guard) (d : PReg) (a : VReg) (b : VSrc) (s : State) : Out State :=
  .next (s.vcmp g d a b fun a b => a.ule b)
def execVfcmpeq (g : Guard) (d : PReg) (a : VReg) (b : VSrc) (s : State) : Out State :=
  .next (s.vcmp g d a b fun a b => (FFmt.fp32.value a.toNat).eq (FFmt.fp32.value b.toNat))
def execVfcmplt (g : Guard) (d : PReg) (a : VReg) (b : VSrc) (s : State) : Out State :=
  .next (s.vcmp g d a b fun a b => (FFmt.fp32.value a.toNat).lt (FFmt.fp32.value b.toNat))
def execVfcmple (g : Guard) (d : PReg) (a : VReg) (b : VSrc) (s : State) : Out State :=
  .next (s.vcmp g d a b fun a b => (FFmt.fp32.value a.toNat).lt (FFmt.fp32.value b.toNat) || (FFmt.fp32.value a.toNat).eq (FFmt.fp32.value b.toNat))
def execVfcmpun (g : Guard) (d : PReg) (a : VReg) (b : VSrc) (s : State) : Out State :=
  .next (s.vcmp g d a b fun a b => (FFmt.fp32.value a.toNat).isNan || (FFmt.fp32.value b.toNat).isNan)
def execPand (g : Guard) (d a b : PReg) (s : State) : Out State := .next (s.pop2 g d a b fun a b => a &&& b)
def execPor (g : Guard) (d a b : PReg) (s : State) : Out State := .next (s.pop2 g d a b fun a b => a ||| b)
def execPxor (g : Guard) (d a b : PReg) (s : State) : Out State := .next (s.pop2 g d a b fun a b => a ^^^ b)
def execPandn (g : Guard) (d a b : PReg) (s : State) : Out State := .next (s.pop2 g d a b fun a b => a &&& ~~~b)

end Sys2Proof.Machine
end

