-- ==== Sys2Proof/Machine/VFloat.lean ====
section
/-! DEFINITION. Majors 6, 7 and 8 and the compact float forms (R214 to R219). -/

namespace Sys2Proof.Machine

open Sys2Proof

/-- A function of codes as a function of lane values. -/
def on1 (f : Nat → Nat) (a : W32) : W32 := BitVec.ofNat 32 (f a.toNat)
def on2 (f : Nat → Nat → Nat) (a b : W32) : W32 := BitVec.ofNat 32 (f a.toNat b.toNat)
def on3 (f : Nat → Nat → Nat → Nat) (a b d : W32) : W32 := BitVec.ofNat 32 (f a.toNat b.toNat d.toNat)

/-- Both 16-bit elements of a lane, each on its own (R216). -/
def half2 (f : Nat → Nat → Nat → Nat) (a b d : W32) : W32 :=
  let e := fun (k : Nat) => f (fieldOf a.toNat k 16) (fieldOf b.toNat k 16) (fieldOf d.toNat k 16)
  BitVec.ofNat 32 (e 0 + 65536 * e 16)

/-! ### Major 6 (R214, R215) -/

def execVfadd (g : Guard) (d a : VReg) (b : VSrc) (r : Rnd) (s : State) : Out State :=
  .next (s.vec2 g d a b (on2 (FFmt.fp32.add r)))
def execVfsub (g : Guard) (d a : VReg) (b : VSrc) (r : Rnd) (s : State) : Out State :=
  .next (s.vec2 g d a b (on2 (FFmt.fp32.sub r)))
def execVfmul (g : Guard) (d a : VReg) (b : VSrc) (r : Rnd) (s : State) : Out State :=
  .next (s.vec2 g d a b (on2 (FFmt.fp32.mul r)))
def execVfdiv (g : Guard) (d a : VReg) (b : VSrc) (r : Rnd) (s : State) : Out State :=
  .next (s.vec2 g d a b (on2 (FFmt.fp32.div r)))
def execVfma (g : Guard) (d a : VReg) (b : VSrc) (r : Rnd) (s : State) : Out State :=
  .next (s.vec3 g d a b (on3 (FFmt.fp32.fma r)))
def execVfms (g : Guard) (d a : VReg) (b : VSrc) (r : Rnd) (s : State) : Out State :=
  .next (s.vec3 g d a b (on3 (FFmt.fp32.fms r)))
def execVfnma (g : Guard) (d a : VReg) (b : VSrc) (r : Rnd) (s : State) : Out State :=
  .next (s.vec3 g d a b (on3 (FFmt.fp32.fnma r)))
def execVfmin (g : Guard) (d a : VReg) (b : VSrc) (s : State) : Out State := .next (s.vec2 g d a b (on2 FFmt.fp32.min))
def execVfmax (g : Guard) (d a : VReg) (b : VSrc) (s : State) : Out State := .next (s.vec2 g d a b (on2 FFmt.fp32.max))
def execVfcpys (g : Guard) (d a : VReg) (b : VSrc) (s : State) : Out State := .next (s.vec2 g d a b (on2 fcpys))

/-! ### Compact float forms: RNE (R185) -/

def execCVfadd (d a : CReg) (b : Fin 8) (s : State) : Out State :=
  .next (s.vec2 0 (CReg.v d) (CReg.v a) (.v (c8v b)) (on2 (FFmt.fp32.add .rne)))
def execCVfma (d a : CReg) (b : Fin 8) (s : State) : Out State :=
  .next (s.vec3 0 (CReg.v d) (CReg.v a) (.v (c8v b)) (on3 (FFmt.fp32.fma .rne)))
def execCVfmul (d a : CReg) (b : Fin 8) (s : State) : Out State :=
  .next (s.vec2 0 (CReg.v d) (CReg.v a) (.v (c8v b)) (on2 (FFmt.fp32.mul .rne)))

/-! ### Major 7 (R216, R217) -/

def execVhaddf (g : Guard) (d a : VReg) (b : VSrc) (r : Rnd) (s : State) : Out State :=
  .next (s.vec2 g d a b fun a b => half2 (fun x y _ => FFmt.fp16.add r x y) a b 0)
def execVhmulf (g : Guard) (d a : VReg) (b : VSrc) (r : Rnd) (s : State) : Out State :=
  .next (s.vec2 g d a b fun a b => half2 (fun x y _ => FFmt.fp16.mul r x y) a b 0)
def execVhfmaf (g : Guard) (d a : VReg) (b : VSrc) (r : Rnd) (s : State) : Out State :=
  .next (s.vec3 g d a b (half2 (FFmt.fp16.fma r)))
def execVhminf (g : Guard) (d a : VReg) (b : VSrc) (s : State) : Out State :=
  .next (s.vec2 g d a b fun a b => half2 (fun x y _ => FFmt.fp16.min x y) a b 0)
def execVhmaxf (g : Guard) (d a : VReg) (b : VSrc) (s : State) : Out State :=
  .next (s.vec2 g d a b fun a b => half2 (fun x y _ => FFmt.fp16.max x y) a b 0)
def execVhaddb (g : Guard) (d a : VReg) (b : VSrc) (r : Rnd) (s : State) : Out State :=
  .next (s.vec2 g d a b fun a b => half2 (fun x y _ => FFmt.bf16.add r x y) a b 0)
def execVhmulb (g : Guard) (d a : VReg) (b : VSrc) (r : Rnd) (s : State) : Out State :=
  .next (s.vec2 g d a b fun a b => half2 (fun x y _ => FFmt.bf16.mul r x y) a b 0)
def execVhfmab (g : Guard) (d a : VReg) (b : VSrc) (r : Rnd) (s : State) : Out State :=
  .next (s.vec3 g d a b (half2 (FFmt.bf16.fma r)))
def execVhminb (g : Guard) (d a : VReg) (b : VSrc) (s : State) : Out State :=
  .next (s.vec2 g d a b fun a b => half2 (fun x y _ => FFmt.bf16.min x y) a b 0)
def execVhmaxb (g : Guard) (d a : VReg) (b : VSrc) (s : State) : Out State :=
  .next (s.vec2 g d a b fun a b => half2 (fun x y _ => FFmt.bf16.max x y) a b 0)
def execVdot2f (g : Guard) (d a : VReg) (b : VSrc) (r : Rnd) (s : State) : Out State :=
  .next (s.vec3 g d a b (on3 (dot2 .fp16 r)))
def execVdot2b (g : Guard) (d a : VReg) (b : VSrc) (r : Rnd) (s : State) : Out State :=
  .next (s.vec3 g d a b (on3 (dot2 .bf16 r)))
def execVdot4i (g : Guard) (d a : VReg) (b : VSrc) (sat : Bool) (s : State) : Out State :=
  .next (s.vec3 g d a b fun a b o => satW sat (dot4i a.toNat b.toNat o.toNat))

/-! ### Major 8: the exact forms (R218) -/

def execVfabs (g : Guard) (d a : VReg) (s : State) : Out State := .next (s.vec1 g d a (on1 fabs))
def execVfneg (g : Guard) (d a : VReg) (s : State) : Out State := .next (s.vec1 g d a (on1 fneg))
def execVffloor (g : Guard) (d a : VReg) (s : State) : Out State := .next (s.vec1 g d a (on1 (frint .rdn)))
def execVfceil (g : Guard) (d a : VReg) (s : State) : Out State := .next (s.vec1 g d a (on1 (frint .rup)))
def execVftrunc (g : Guard) (d a : VReg) (s : State) : Out State := .next (s.vec1 g d a (on1 (frint .rz)))
def execVfclass (g : Guard) (d a : VReg) (s : State) : Out State := .next (s.vec1 g d a (on1 fclass))
def execVfsqrt (g : Guard) (d a : VReg) (r : Rnd) (s : State) : Out State := .next (s.vec1 g d a (on1 (FFmt.fp32.sqrt r)))
def execVfrint (g : Guard) (d a : VReg) (r : Rnd) (s : State) : Out State := .next (s.vec1 g d a (on1 (frint r)))

/-! ### Major 8: the approximating forms (R219) -/

def execVfrsq (g : Guard) (d a : VReg) (s : State) : Out State := .next (s.vec1 g d a (on1 rsqApprox))
def execVfrcp (g : Guard) (d a : VReg) (s : State) : Out State := .next (s.vec1 g d a (on1 rcpApprox))
def execVfexp2 (g : Guard) (d a : VReg) (s : State) : Out State := .next (s.vec1 g d a (on1 exp2Approx))
def execVflog2 (g : Guard) (d a : VReg) (s : State) : Out State := .next (s.vec1 g d a (on1 log2Approx))
def execVftanh (g : Guard) (d a : VReg) (s : State) : Out State := .next (s.vec1 g d a (on1 tanhApprox))

end Sys2Proof.Machine
end

