-- ==== Sys2Proof/Machine/VConv.lean ====
section
/-! DEFINITION. Major 9: conversions and quantisation (R220 to R225), and the checks of QCTX (R137). -/

namespace Sys2Proof.Machine

open Sys2Proof

/-! ### Conversions (R220, R221) -/

def execVcvtfi (g : Guard) (d a : VReg) (r : Rnd) (s : State) : Out State := .next (s.vec1 g d a (on1 (cvtFI r)))
def execVcvtif (g : Guard) (d a : VReg) (r : Rnd) (s : State) : Out State := .next (s.vec1 g d a (on1 (cvtIF r)))
def execVcvtfu (g : Guard) (d a : VReg) (r : Rnd) (s : State) : Out State := .next (s.vec1 g d a (on1 (cvtFU r)))
def execVcvtuf (g : Guard) (d a : VReg) (r : Rnd) (s : State) : Out State := .next (s.vec1 g d a (on1 (cvtUF r)))

/-- A conversion to a narrower IEEE format: a finite value that overflows gives infinity, whatever the rounding mode, unless SAT is set
(R118, R221). -/
def FFmt.narrow (f : FFmt) (r : Rnd) (sat : Bool) (v : Fv) : Nat :=
  if f.overflows r v && !sat then f.code .rne false (.inf v.sign) else f.code r sat v

/-- Two FP32 values packed as 16-bit elements, A below (R221). -/
def packHalves (f : FFmt) (r : Rnd) (sat : Bool) (a b : Nat) : Nat :=
  f.narrow r sat (FFmt.fp32.value a) + 65536 * f.narrow r sat (FFmt.fp32.value b)

def execVcvtfh (g : Guard) (d a b : VReg) (r : Rnd) (sat : Bool) (s : State) : Out State :=
  .next (s.vec2 g d a (.v b) (on2 (packHalves .fp16 r sat)))
def execVcvtfb (g : Guard) (d a b : VReg) (r : Rnd) (sat : Bool) (s : State) : Out State :=
  .next (s.vec2 g d a (.v b) (on2 (packHalves .bf16 r sat)))

/-- One 16-bit element as FP32 (R221). -/
def unpackHalf (f : FFmt) (k : Nat) (a : W32) : W32 := on1 (fun n => FFmt.fp32.code .rne false (f.value (fieldOf n (16 * k) 16))) a

/-- VCVTHF and VCVTBF: two registers from one, read before either is written (R208, R221). -/
def State.unpackPair (s : State) (g : Guard) (d a : VReg) (f : FFmt) : State :=
  s.withP g fun s =>
    let m := s.me
    let p := m.vpoison a
    ((s.setV d (m.active g) (fun l => unpackHalf f 0 (m.vget a)[l]) p).setV (VReg.plus d 1) (m.active g)
      (fun l => unpackHalf f 1 (m.vget a)[l]) p).advance

def execVcvthf (g : Guard) (d a : VReg) (s : State) : Out State := .next (s.unpackPair g d a .fp16)
def execVcvtbf (g : Guard) (d a : VReg) (s : State) : Out State := .next (s.unpackPair g d a .bf16)

/-! ### Quantisation (R137, R138, R222 to R224) -/

def qFmt (q : W64) : Nat := fieldOf q.toNat 0 8
def qScale (q : W64) : Int := signedOf 8 (fieldOf q.toNat 8 8)
def qSeed (q : W64) : W32 := BitVec.ofNat 32 (fieldOf q.toNat 16 32)

/-- The trap of a value written to QCTX: ILLEGAL for a reserved field, FORMAT for any other FMT (R137); of both, the first (log 122). -/
def qctxTrap (q : W64) : Option Nat :=
  if q.toNat / 2 ^ 48 ≠ 0 then some cILLEGAL
  else if [0x00, 0x10, 0x11, 0x20, 0x21, 0x30].contains (qFmt q) then none else some cFORMAT

/-- The format that QCTX names. -/
def qFormat (q : W64) : Fmt := (Fmt.ofCode (qFmt q)).getD .raw

/-- The dither offset of element e, in units of 1/128 (R127, R138). -/
def qDither (q base : W64) (e : W32) : Int := ditherNum (base + e.setWidth 64) (qSeed q)

/-- vqnt of R223, in the low bits of a lane. -/
def qEncode (q base : W64) (e x : W32) : W32 :=
  let f := qFormat q
  let v := FFmt.fp32.value x.toNat
  BitVec.ofNat 32 (match f.grid with
    | .linear _ _ _ => (f.grid.encode .rne (qScale q) (qDither q base e) v).code
    | gr => (gr.encode .rne 0 (qDither q base e) (v.scale2 (-qScale q))).code)

/-- VDQNT of one code (R224). -/
def qDecode (q base : W64) (e : W32) (c : Nat) : W32 :=
  let f := qFormat q
  let v := match f.grid with
    | .linear _ _ _ => f.grid.decode (qScale q) (qDither q base e) (c % 2 ^ f.bits)
    | gr => (gr.decode 0 (qDither q base e) (c % 2 ^ f.bits)).scale2 (qScale q)
  BitVec.ofNat 32 (FFmt.fp32.code .rne false v)

/-- VDGEN (R224): +0.0 when the seed is 0. -/
def qOffset (q base : W64) (e : W32) : W32 :=
  BitVec.ofNat 32 (FFmt.fp32.code .rne false (Fv.ofInt false (qDither q base e) (-7)))

/-- A quantising form: FORMAT when QCTX is unset, whatever X and the guard hold (R210); the quantisation poison bit joins every
written lane (R209). -/
def State.withQ (s : State) (g : Guard) (f : State → W64 → W64 → W32 → State) : State :=
  s.withP g fun s =>
    if qFmt s.me.qctx = 0 then s.trap cFORMAT 0 0 else f s s.me.qctx s.me.qbase (allLanes s.me.qpoison)

def execVqnt (g : Guard) (d a : VReg) (b : VSrc) (s : State) : Out State :=
  .next (s.withQ g fun s q base qp =>
    (s.setV d (s.me.active g) (fun l => qEncode q base (s.me.bval b l) (s.me.vget a)[l])
      (s.me.vpoison a ||| s.me.bpoison b ||| qp)).advance)

def execVdqnt (g : Guard) (d a : VReg) (b : VSrc) (s : State) : Out State :=
  .next (s.withQ g fun s q base qp =>
    (s.setV d (s.me.active g) (fun l => qDecode q base (s.me.bval b l) ((s.me.vget a)[l]).toNat)
      (s.me.vpoison a ||| s.me.bpoison b ||| qp)).advance)

def execVdgen (g : Guard) (d : VReg) (b : VSrc) (s : State) : Out State :=
  .next (s.withQ g fun s q base qp =>
    (s.setV d (s.me.active g) (fun l => qOffset q base (s.me.bval b l)) (s.me.bpoison b ||| qp)).advance)

/-- VPACK8 (R225): the other three bytes of the old destination stay. -/
def pack8 (a b o : W32) : W32 :=
  let j := b.toNat % 4
  (o &&& ~~~(0xFF#32 <<< (8 * j))) ||| ((a &&& 0xFF#32) <<< (8 * j))
def execVpack8 (g : Guard) (d a : VReg) (b : VSrc) (s : State) : Out State := .next (s.vec3 g d a b pack8)

/-- VUNPK8 (R225). -/
def execVunpk8 (g : Guard) (d a : VReg) (b : VSrc) (s : State) : Out State :=
  .next (s.vec2 g d a b fun a b => (a >>> (8 * (b.toNat % 4))) &&& 0xFF#32)

/-- The word of an unprefixed R-format instruction, with the SP bit of the group that runs, for TRAPINFO (R171, R187). -/
def State.ownWord (s : State) (maj mi b a d g : Nat) : W64 :=
  BitVec.ofNat 64 (268435456 * mi + 4194304 * b + 65536 * a + 1024 * d + 128 * g + 64 * b2n s.me.spMask.isSome 0 + 2 * maj + 1)

/-- ILLEGAL, reason 4, of a value check (R187, R222, R314). -/
def State.illegal4 (s : State) (word : W64) : State := s.trap cILLEGAL 0 (BitVec.ofNat 64 (4 * 2 ^ 32) ||| word)

/-- The control state of quantisation, and its poison bit (R222). -/
def TG.setQ (t : TG) (q base : W64) (p : Bool) : TG := { t with qctx := q, qbase := base, qpoison := p }

/-- VQCFG (R222): both registers at once, whatever X holds. -/
def execVqcfg (a b : UReg) (s : State) : Out State :=
  let q := s.me.sget a
  .next (match qctxTrap q with
    | some 1 => s.illegal4 (s.ownWord 9 13 b.val a.val 0 0)
    | some _ => s.trap cFORMAT 0 0
    | none => (s.modMe (TG.setQ · q (s.me.sget b) (s.me.spoison a || s.me.spoison b))).advance)

end Sys2Proof.Machine
end

