-- ==== Sys2Proof/Machine/Memory.lean ====
section
/-! DEFINITION. Majors 12 to 14: vector and uniform loads and stores, the dequantising and quantising forms, and the compact loads
and stores (R227 to R234). -/

namespace Sys2Proof.Machine

open Sys2Proof

/-- The lanes where X is 1, in ascending order (R227). -/
def TG.xLanes (g : TG) : List (Fin 32) := (List.finRange 32).filter (fun l => g.x.getLsbD l.val)

/-- The result of a lane, by its place among the lanes that took part. -/
def laneRes (lanes : List (Fin 32)) (rs : List (List Byte × List Bool)) (l : Fin 32) : List Byte × List Bool :=
  rs.getD (lanes.idxOf l) ([], [])

/-- What the lanes of a load or an atomic return: each lane's number, and the poison of n of its bytes from the k-th on, as lanes: a
register is poisoned when its own bytes include a poisoned word (R231). -/
abbrev LaneVals := (Fin 32 → Nat) × (Nat → Nat → W32)
def laneVals (lanes : List (Fin 32)) (rs : List (List Byte × List Bool)) : LaneVals :=
  (fun l => natOf (laneRes lanes rs l).1, fun k n => laneBits (fun l => (((laneRes lanes rs l).2.drop k).take n).any id))

/-- Steps 2 to 5 of R229, once per instruction: a poisoned address operand, then the checks of every access. -/
def State.withChecks (s : State) (write poison : Bool) (z : Nat) (as_ : List Acc1) (f : State → State) : State :=
  if s.me.phase.next ≠ 0 ∨ s.me.phase.req.isSome = true then f s
  else if poison then s.poisonPc
  else match s.accCheck write z as_ with
    | some (c, a, i) => s.trap c a i
    | none => f s

/-- The address of a lane: a uniform base and a signed 32-bit offset (R232). -/
def TG.laneAddr (g : TG) (a : UReg) (b : VSrc) (l : Fin 32) : W64 := g.sget a + (g.bval b l).signExtend 64

/-- A vector access: no active lane does nothing; otherwise the checks over the active lanes. -/
def State.vecMem (s : State) (g : Guard) (write : Bool) (z : Nat) (addr : TG → Fin 32 → W64) (poison : TG → W32)
    (f : State → List (Fin 32) → State) : State :=
  s.withK g fun s =>
    let lanes := s.me.xLanes
    if lanes = [] then s.advance
    else s.withChecks write (poison s.me &&& s.me.x != 0) z (lanes.map (fun l => ⟨l.val, addr s.me l⟩)) fun s => f s lanes

/-- A load of z bytes a lane; put writes the lanes' results. -/
def State.vload (s : State) (g : Guard) (z : Nat) (addr : TG → Fin 32 → W64) (poison : TG → W32)
    (put : State → LaneVals → State) : State :=
  s.vecMem g false z addr poison fun s lanes =>
    match s.loadAll z (lanes.map (addr s.me)) with
    | (s, none) => s
    | (s, some rs) => (put s (laneVals lanes rs)).advance

/-- One register of results. -/
def put1 (d : VReg) (s : State) (r : LaneVals) : State := s.setV d s.me.x (fun l => BitVec.ofNat 32 (r.1 l)) (r.2 0 4)

/-- n registers of results, the lowest word first (R232, R236). -/
def putN (n : Nat) (d : VReg) (s : State) (r : LaneVals) : State :=
  let x := s.me.x
  (List.range n).foldl (fun (s : State) k =>
    s.setV (VReg.plus d k) x (fun l => BitVec.ofNat 32 (r.1 l / 2 ^ (32 * k))) (r.2 (4 * k) 4)) s

/-- A store of a lane's bytes. -/
def State.vstore (s : State) (g : Guard) (z : Nat) (addr : TG → Fin 32 → W64) (poison : TG → W32)
    (data : TG → Fin 32 → List Byte × Bool) : State :=
  s.vecMem g true z addr poison fun s lanes =>
    match s.storeAll (lanes.map (fun l => s.mkEnt (addr s.me l) .store (data s.me l).1 (data s.me l).2 false)) with
    | (s, false) => s
    | (s, true) => s.advance

/-- The low z bytes of a register's lane (R232). -/
def TG.laneData (z : Nat) (d : VReg) (g : TG) (l : Fin 32) : List Byte × Bool :=
  (bytesOf z ((g.vget d)[l]).toNat, (g.vpoison d).getLsbD l.val)

/-- A register pair's lane (R232). -/
def TG.pairData (d : VReg) (g : TG) (l : Fin 32) : List Byte × Bool :=
  (bytesOf 4 ((g.vget d)[l]).toNat ++ bytesOf 4 ((g.vget (VReg.plus d 1))[l]).toNat,
    (g.vpoison d ||| g.vpoison (VReg.plus d 1)).getLsbD l.val)

/-- The address operands of [sA + vB], of [sA] by the stride sB, and of [sA + 4 l]. -/
def addrOff (a : UReg) (b : VSrc) (g : TG) (l : Fin 32) : W64 := g.laneAddr a b l
def poisonOff (a : UReg) (b : VSrc) (g : TG) : W32 := allLanes (g.spoison a) ||| g.bpoison b
def addrStride (a b : UReg) (g : TG) (l : Fin 32) : W64 := g.sget a + BitVec.ofNat 64 l.val * g.sget b
def poisonStride (a b : UReg) (g : TG) : W32 := allLanes (g.spoison a || g.spoison b)
def addrUnit (a : UReg) (z : Nat) (g : TG) (l : Fin 32) : W64 := g.sget a + BitVec.ofNat 64 (z * l.val)
def poisonUnit (a : UReg) (g : TG) : W32 := allLanes (g.spoison a)

/-! ### Major 12 (R232) -/

def execVldw (g : Guard) (d : VReg) (a : UReg) (b : VSrc) (s : State) : Out State :=
  .next (s.vload g 4 (addrOff a b) (poisonOff a b) (put1 d))
def execVldh (g : Guard) (d : VReg) (a : UReg) (b : VSrc) (s : State) : Out State :=
  .next (s.vload g 2 (addrOff a b) (poisonOff a b) (put1 d))
def execVldb (g : Guard) (d : VReg) (a : UReg) (b : VSrc) (s : State) : Out State :=
  .next (s.vload g 1 (addrOff a b) (poisonOff a b) (put1 d))
def execVldd (g : Guard) (d : VReg) (a : UReg) (b : VSrc) (s : State) : Out State :=
  .next (s.vload g 8 (addrOff a b) (poisonOff a b) (putN 2 d))
def execVldsw (g : Guard) (d : VReg) (a b : UReg) (s : State) : Out State :=
  .next (s.vload g 4 (addrStride a b) (poisonStride a b) (put1 d))
def execVldc (g : Guard) (d : VReg) (a : UReg) (s : State) : Out State :=
  .next (s.vload g 4 (addrUnit a 4) (poisonUnit a) (put1 d))

/-! ### Major 13 (R232) -/

def execVstw (g : Guard) (d : VReg) (a : UReg) (b : VSrc) (s : State) : Out State :=
  .next (s.vstore g 4 (addrOff a b) (poisonOff a b) (TG.laneData 4 d))
def execVsth (g : Guard) (d : VReg) (a : UReg) (b : VSrc) (s : State) : Out State :=
  .next (s.vstore g 2 (addrOff a b) (poisonOff a b) (TG.laneData 2 d))
def execVstb (g : Guard) (d : VReg) (a : UReg) (b : VSrc) (s : State) : Out State :=
  .next (s.vstore g 1 (addrOff a b) (poisonOff a b) (TG.laneData 1 d))
def execVstd (g : Guard) (d : VReg) (a : UReg) (b : VSrc) (s : State) : Out State :=
  .next (s.vstore g 8 (addrOff a b) (poisonOff a b) (TG.pairData d))
def execVstsw (g : Guard) (d : VReg) (a b : UReg) (s : State) : Out State :=
  .next (s.vstore g 4 (addrStride a b) (poisonStride a b) (TG.laneData 4 d))
def execVstc (g : Guard) (d : VReg) (a : UReg) (s : State) : Out State :=
  .next (s.vstore g 4 (addrUnit a 4) (poisonUnit a) (TG.laneData 4 d))

/-! ### Dequantising and quantising forms (R233) -/

/-- The byte that holds element e: two INT4 codes share one. -/
def qAddr (q : W64) (base : W64) (e : W32) : W64 :=
  base + (if qFmt q = 0x11 then e.setWidth 64 >>> 1 else e.setWidth 64)

/-- The code of element e in its byte. -/
def qCode (q : W64) (e : W32) (byte : Nat) : Nat :=
  if qFmt q = 0x11 then (if e.toNat % 2 = 0 then byte % 16 else byte / 16 % 16) else byte

/-- FORMAT at step 1 of R229 when QCTX is unset, whatever X holds. -/
def State.withFmt (s : State) (g : Guard) (f : State → State) : State :=
  s.withK g fun s => if qFmt s.me.qctx = 0 then s.trap cFORMAT 0 0 else f s

/-- A dequantising load of element number e of each lane. -/
def State.qload (s : State) (g : Guard) (d : VReg) (a : UReg) (e : TG → Fin 32 → W32) (ep : TG → W32) : State :=
  s.withFmt g fun s =>
    s.vload 0 1 (fun t l => qAddr t.qctx (t.sget a) (e t l)) (fun t => allLanes (t.spoison a) ||| ep t) fun s r =>
      let t := s.me
      s.setV d t.x (fun l => qDecode t.qctx t.qbase (e t l) (qCode t.qctx (e t l) (r.1 l))) (r.2 0 1 ||| allLanes t.qpoison)

/-- A quantising store of element number e of each lane; a 4-bit code changes its own half of the byte. -/
def State.qstore (s : State) (g : Guard) (d : VReg) (a : UReg) (e : TG → Fin 32 → W32) (ep : TG → W32) : State :=
  s.withFmt g fun s =>
    s.vecMem 0 true 1 (fun t l => qAddr t.qctx (t.sget a) (e t l)) (fun t => allLanes (t.spoison a) ||| ep t) fun s lanes =>
      let t := s.me
      let ent := fun (l : Fin 32) =>
        let c := (qEncode t.qctx t.qbase (e t l) (t.vget d)[l]).toNat
        let op : StOp := if qFmt t.qctx = 0x11 then (if (e t l).toNat % 2 = 0 then .nibLo else .nibHi) else .store
        let byte := if op = .nibHi then c * 16 else c
        s.mkEnt (qAddr t.qctx (t.sget a) (e t l)) op [BitVec.ofNat 8 byte] ((t.vpoison d).getLsbD l.val || t.qpoison) false
      match s.storeAll (lanes.map ent) with
      | (s, false) => s
      | (s, true) => s.advance

/-- The element number from the B operand, or the lane's own. -/
def elemB (b : VSrc) (t : TG) (l : Fin 32) : W32 := t.bval b l
def elemL (_ : TG) (l : Fin 32) : W32 := BitVec.ofNat 32 l.val

def execVldq (g : Guard) (d : VReg) (a : UReg) (b : VSrc) (s : State) : Out State :=
  .next (s.qload g d a (elemB b) (fun t => t.bpoison b))
def execVldsc (g : Guard) (d : VReg) (a : UReg) (s : State) : Out State := .next (s.qload g d a elemL (fun _ => 0))
def execVstq (g : Guard) (d : VReg) (a : UReg) (b : VSrc) (s : State) : Out State :=
  .next (s.qstore g d a (elemB b) (fun t => t.bpoison b))
def execVstsc (g : Guard) (d : VReg) (a : UReg) (s : State) : Out State := .next (s.qstore g d a elemL (fun _ => 0))

/-! ### Major 14 and the compact forms (R234, R185) -/

/-- A uniform load of z bytes into sD through f. -/
def State.uload (s : State) (d a : UReg) (va : W64) (z : Nat) (f : Nat → W64) : State :=
  s.withChecks false (s.me.spoison a) z [⟨0, va⟩] fun s =>
    match s.loadAll z [va] with
    | (s, none) => s
    | (s, some rs) =>
      let r := rs.getD 0 ([], [])
      (s.setS d (f (natOf r.1)) (r.2.any id)).advance

/-- A uniform store of the low z bytes of sD. -/
def State.ustore (s : State) (d a : UReg) (va : W64) (z : Nat) : State :=
  s.withChecks true (s.me.spoison a) z [⟨0, va⟩] fun s =>
    match s.storeAll [s.mkEnt va .store (bytesOf z (s.me.sget d).toNat) (s.me.spoison d) false] with
    | (s, false) => s
    | (s, true) => s.advance

def word64 (n : Nat) : W64 := BitVec.ofNat 64 n
/-- A sign-extended 32-bit word. -/
def sext32 (n : Nat) : W64 := (BitVec.ofNat 32 n).signExtend 64

def execSld (g : Guard) (d a : UReg) (o : MOff) (s : State) : Out State :=
  .next (s.withK g fun s => s.uload d a (mAddress (s.me.sget a) o 8) 8 word64)
def execSst (g : Guard) (d a : UReg) (o : MOff) (s : State) : Out State :=
  .next (s.withK g fun s => s.ustore d a (mAddress (s.me.sget a) o 8) 8)
def execSlds (g : Guard) (d a : UReg) (o : MOff) (s : State) : Out State :=
  .next (s.withK g fun s => s.uload d a (mAddress (s.me.sget a) o 4) 4 sext32)
def execSsts (g : Guard) (d a : UReg) (o : MOff) (s : State) : Out State :=
  .next (s.withK g fun s => s.ustore d a (mAddress (s.me.sget a) o 4) 4)
/-- C.SLD and C.SST: the offset is 8 times B3, unsigned. -/
def execCSld (d a : CReg) (n : BitVec 3) (s : State) : Out State :=
  .next (s.uload (CReg.u d) (CReg.u a) (mAddress (s.me.sget (CReg.u a)) (.short (n.setWidth 8)) 8) 8 word64)
def execCSst (d a : CReg) (n : BitVec 3) (s : State) : Out State :=
  .next (s.ustore (CReg.u d) (CReg.u a) (mAddress (s.me.sget (CReg.u a)) (.short (n.setWidth 8)) 8) 8)

end Sys2Proof.Machine
end

