-- ==== Sys2Proof/Machine/Atomics.lean ====
section
/-! DEFINITION. Major 15: atomics (R235 to R240, R105 to R107). -/

namespace Sys2Proof.Machine

open Sys2Proof

/-- The forms that trap DETERMINISM when k14 is true (R107, R240). -/
def atomRefused (minor : Nat) (nr : Bool) : Bool := !nr || [6, 7, 9, 10, 12].contains minor

/-- DETERMINISM, then FORMAT, at step 1 of R229. -/
def State.withAtomStep1 (s : State) (minor : Nat) (nr format : Bool) (f : State → State) : State :=
  if s.me.det && atomRefused minor nr then s.trap cDETERMINISM 0 0
  else if format then s.trap cFORMAT 0 0
  else f s

/-- The wait of SCOPE before an atomic: scopes 3 to 6 release (R239). -/
def State.atomFence (s : State) (sc : Scope) (f : State → State) : State :=
  match sc with
  | .cluster | .die | .device | .system => s.afterFence sc f
  | _ => f s

/-- The lanes of an atomic that has passed its checks: into the store FIFO without a result, or performed in order (R237, R238). -/
def State.atomRun (s : State) (minor : Nat) (nr : Bool) (sc : Scope) (ops : List (W64 × List Byte × Bool))
    (put : State → List (List Byte × List Bool) → State) : State :=
  let ents := ops.map (fun o => s.mkEnt o.1 (.atom minor) o.2.1 o.2.2 false)
  s.atomFence sc fun s =>
    if nr then
      match s.storeAll ents with
      | (s, false) => s
      | (s, true) => s.advance
    else
      match s.atomAll minor ops with
      | (s, none) => s
      | (s, some rs) => (put s rs).advance

/-- A vector atomic: operand bytes of a lane, and what a returning form writes. -/
def State.vatom (s : State) (minor z : Nat) (g : Guard) (a : UReg) (b : VSrc) (nr : Bool) (sc : Scope) (format : TG → Bool)
    (data : TG → Fin 32 → List Byte × Bool) (put : State → LaneVals → State) : State :=
  s.withK g fun s => s.withAtomStep1 minor nr (format s.me) fun s =>
    s.vecMem 0 true z (addrOff a b) (poisonOff a b) fun s lanes =>
      s.atomRun minor nr sc (lanes.map (fun l => (addrOff a b s.me l, data s.me l))) fun s rs =>
        put s (laneVals lanes rs)

/-- A 32-bit vector atomic on one operand register. -/
def State.vatom32 (s : State) (minor : Nat) (g : Guard) (d : VReg) (a : UReg) (b : VSrc) (nr : Bool) (sc : Scope) : State :=
  s.vatom minor 4 g a b nr sc (fun _ => false) (TG.laneData 4 d) (put1 d)

def execVatadd (g : Guard) (d : VReg) (a : UReg) (b : VSrc) (nr : Bool) (sc : Scope) (s : State) : Out State :=
  .next (s.vatom32 0 g d a b nr sc)
def execVatmin (g : Guard) (d : VReg) (a : UReg) (b : VSrc) (nr : Bool) (sc : Scope) (s : State) : Out State :=
  .next (s.vatom32 1 g d a b nr sc)
def execVatmax (g : Guard) (d : VReg) (a : UReg) (b : VSrc) (nr : Bool) (sc : Scope) (s : State) : Out State :=
  .next (s.vatom32 2 g d a b nr sc)
def execVatand (g : Guard) (d : VReg) (a : UReg) (b : VSrc) (nr : Bool) (sc : Scope) (s : State) : Out State :=
  .next (s.vatom32 3 g d a b nr sc)
def execVator (g : Guard) (d : VReg) (a : UReg) (b : VSrc) (nr : Bool) (sc : Scope) (s : State) : Out State :=
  .next (s.vatom32 4 g d a b nr sc)
def execVatxor (g : Guard) (d : VReg) (a : UReg) (b : VSrc) (nr : Bool) (sc : Scope) (s : State) : Out State :=
  .next (s.vatom32 5 g d a b nr sc)
def execVatxch (g : Guard) (d : VReg) (a : UReg) (b : VSrc) (nr : Bool) (sc : Scope) (s : State) : Out State :=
  .next (s.vatom32 6 g d a b nr sc)

/-- VATCAS: the pair's first register is expected and takes the old value (R236). -/
def execVatcas (g : Guard) (d : VReg) (a : UReg) (b : VSrc) (nr : Bool) (sc : Scope) (s : State) : Out State :=
  .next (s.vatom 7 4 g a b nr sc (fun _ => false) (TG.pairData d) (put1 d))

/-- VFATADD (R236). -/
def execVfatadd (g : Guard) (d : VReg) (a : UReg) (b : VSrc) (nr : Bool) (sc : Scope) (s : State) : Out State :=
  .next (s.vatom32 12 g d a b nr sc)

/-- VXADD: a non-finite active operand traps FORMAT (R236, R144). -/
def execVxadd (g : Guard) (d : VReg) (a : UReg) (b : VSrc) (nr : Bool) (sc : Scope) (s : State) : Out State :=
  .next (s.vatom 11 16 g a b nr sc (fun t => t.xLanes.any (fun l => f32NonFinite ((t.vget d)[l]).toNat)) (TG.laneData 4 d) (putN 4 d))

/-- A uniform atomic on the 64-bit word at sA. -/
def State.uatom (s : State) (minor : Nat) (g : Guard) (d a : UReg) (nr : Bool) (sc : Scope) (data : TG → List Byte × Bool) : State :=
  s.withK g fun s => s.withAtomStep1 minor nr false fun s =>
    let va := s.me.sget a
    s.withChecks true (s.me.spoison a) 8 [⟨0, va⟩] fun s =>
      s.atomRun minor nr sc [(va, data s.me)] fun s rs =>
        let r := rs.getD 0 ([], [])
        s.setS d (word64 (natOf r.1)) (r.2.any id)

/-- The operand sB, and expected sD before sB. -/
def uData (b : UReg) (t : TG) : List Byte × Bool := (bytesOf 8 (t.sget b).toNat, t.spoison b)
def casData (d b : UReg) (t : TG) : List Byte × Bool :=
  (bytesOf 8 (t.sget d).toNat ++ bytesOf 8 (t.sget b).toNat, t.spoison d || t.spoison b)

def execSatadd (g : Guard) (d a b : UReg) (nr : Bool) (sc : Scope) (s : State) : Out State :=
  .next (s.uatom 8 g d a nr sc (uData b))
def execSatcas (g : Guard) (d a b : UReg) (nr : Bool) (sc : Scope) (s : State) : Out State :=
  .next (s.uatom 9 g d a nr sc (casData d b))
def execSatxch (g : Guard) (d a b : UReg) (nr : Bool) (sc : Scope) (s : State) : Out State :=
  .next (s.uatom 10 g d a nr sc (uData b))

end Sys2Proof.Machine
end

