-- ==== Sys2Proof/Machine/Crypto.lean ====
section
/-! DEFINITION. The functions that R407 to R417 name by their standards: SHA-256 and HMAC-SHA-256 (FIPS 180-4, FIPS 198-1) and ECDSA
over P-256 (FIPS 186-5), and AES-256-XTS (FIPS 197, SP 800-38E) for R418; log 29. Byte strings are lists; keys, signatures and digests are big-endian numbers. -/

namespace Sys2Proof.Machine

open Sys2Proof

/-- n bytes of x, highest first. -/
def beBytes (n x : Nat) : List Byte := (bytesOf n x).reverse

/-- The number whose bytes, highest first, are given. -/
def beNat (bs : List Byte) : Nat := natOf bs.reverse

/-! ### SHA-256 -/

def shaK : List W32 :=
  [0x428A2F98, 0x71374491, 0xB5C0FBCF, 0xE9B5DBA5, 0x3956C25B, 0x59F111F1, 0x923F82A4, 0xAB1C5ED5,
   0xD807AA98, 0x12835B01, 0x243185BE, 0x550C7DC3, 0x72BE5D74, 0x80DEB1FE, 0x9BDC06A7, 0xC19BF174] ++
  [0xE49B69C1, 0xEFBE4786, 0x0FC19DC6, 0x240CA1CC, 0x2DE92C6F, 0x4A7484AA, 0x5CB0A9DC, 0x76F988DA,
   0x983E5152, 0xA831C66D, 0xB00327C8, 0xBF597FC7, 0xC6E00BF3, 0xD5A79147, 0x06CA6351, 0x14292967] ++
  [0x27B70A85, 0x2E1B2138, 0x4D2C6DFC, 0x53380D13, 0x650A7354, 0x766A0ABB, 0x81C2C92E, 0x92722C85,
   0xA2BFE8A1, 0xA81A664B, 0xC24B8B70, 0xC76C51A3, 0xD192E819, 0xD6990624, 0xF40E3585, 0x106AA070] ++
  [0x19A4C116, 0x1E376C08, 0x2748774C, 0x34B0BCB5, 0x391C0CB3, 0x4ED8AA4A, 0x5B9CCA4F, 0x682E6FF3,
   0x748F82EE, 0x78A5636F, 0x84C87814, 0x8CC70208, 0x90BEFFFA, 0xA4506CEB, 0xBEF9A3F7, 0xC67178F2]

def shaInit : List W32 :=
  [0x6A09E667, 0xBB67AE85, 0x3C6EF372, 0xA54FF53A, 0x510E527F, 0x9B05688C, 0x1F83D9AB, 0x5BE0CD19]

/-- The message schedule's next word, from the last sixteen. -/
def shaNext (w : List W32) : W32 :=
  let x := w.getD 1 0
  let y := w.getD 14 0
  (y.rotateRight 17 ^^^ y.rotateRight 19 ^^^ (y >>> 10)) + w.getD 9 0 + (x.rotateRight 7 ^^^ x.rotateRight 18 ^^^ (x >>> 3)) + w.getD 0 0

/-- One round on the eight working variables. -/
def shaRound (v : List W32) (k w : W32) : List W32 :=
  match v with
  | [a, b, c, d, e, f, g, h] =>
    let t := h + (e.rotateRight 6 ^^^ e.rotateRight 11 ^^^ e.rotateRight 25) + ((e &&& f) ^^^ (~~~e &&& g)) + k + w
    let u := (a.rotateRight 2 ^^^ a.rotateRight 13 ^^^ a.rotateRight 22) + ((a &&& b) ^^^ (a &&& c) ^^^ (b &&& c))
    [t + u, a, b, c, d + t, e, f, g]
  | _ => v

def shaRounds : List W32 → List W32 → List W32 → List W32
  | [], _, v => v
  | k :: ks, w, v => shaRounds ks (w.drop 1 ++ [shaNext w]) (shaRound v k (w.getD 0 0))

/-- One block of 64 bytes. -/
def shaBlock (h : List W32) (blk : List Byte) : List W32 :=
  let w := (List.range 16).map (fun i => (BitVec.ofNat 32 (beNat ((blk.drop (4 * i)).take 4)) : W32))
  List.zipWith (· + ·) h (shaRounds shaK w h)

def shaBlocks : Nat → List W32 → List Byte → List W32
  | 0, h, _ => h
  | n + 1, h, bs => shaBlocks n (shaBlock h (bs.take 64)) (bs.drop 64)

/-- SHA-256. -/
def sha256 (m : List Byte) : BitVec 256 :=
  let p := m ++ [0x80#8] ++ List.replicate ((119 - m.length % 64) % 64) 0 ++ beBytes 8 (8 * m.length)
  BitVec.ofNat 256 (beNat ((shaBlocks (p.length / 64) shaInit p).flatMap (fun w => beBytes 4 w.toNat)))

/-- HMAC-SHA-256 with a key of 32 bytes. -/
def hmac256 (key : BitVec 256) (m : List Byte) : BitVec 256 :=
  let k := beBytes 32 key.toNat ++ List.replicate 32 0
  sha256 (k.map (· ^^^ 0x5C#8) ++ beBytes 32 (sha256 (k.map (· ^^^ 0x36#8) ++ m)).toNat)

/-! ### P-256 -/

def ecP : Nat := 0xFFFFFFFF00000001000000000000000000000000FFFFFFFFFFFFFFFFFFFFFFFF
def ecN : Nat := 0xFFFFFFFF00000000FFFFFFFFFFFFFFFFBCE6FAADA7179E84F3B9CAC2FC632551
def ecB : Nat := 0x5AC635D8AA3A93E7B3EBBD55769886BC651D06B0CC53B0F63BCE3C3E27D2604B
def ecG : Nat × Nat :=
  (0x6B17D1F2E12C4247F8BCE6E563A440F277037D812DEB33A0F4A13945D898C296,
   0x4FE342E2FE1A7F9B8EE7EB4A7C0F9E162BCE33576B315ECECBB6406837BF51F5)

/-- Euclid's steps from a and b with u and v, where a is u times x modulo p and b is v times x. -/
def euclid (p : Nat) : Nat → Nat → Nat → Nat → Nat → Nat
  | 0, _, _, u, _ => u
  | k + 1, a, b, u, v => if b = 0 then u else euclid p k b (a % b) v ((u + (p - a / b * v % p)) % p)

/-- The inverse modulo a prime below 2^256; 0 for 0. -/
def invMod (p x : Nat) : Nat := euclid p 512 p (x % p) 0 1

/-- A point in homogeneous coordinates: its affine coordinates are x / z and y / z, and z is 0 at infinity. -/
abbrev EcPt : Type := Nat × Nat × Nat

def ecInf : EcPt := (0, 1, 0)
def ecPoint (q : Nat × Nat) : EcPt := (q.1, q.2, 1)
def ecSub (a b : Nat) : Nat := (a + (ecP - b % ecP)) % ecP

/-- The affine coordinates; none at infinity. -/
def ecAffine (p : EcPt) : Option (Nat × Nat) :=
  if p.2.2 = 0 then none
  else
    let i := invMod ecP p.2.2
    some (p.1 * i % ecP, p.2.1 * i % ecP)

/-- Twice a point. -/
def ecDouble : EcPt → EcPt
  | (x, y, z) =>
    let w := 3 * (x + z) * ecSub x z % ecP
    let s := y * z % ecP
    let t := y * s % ecP
    let b := x * t % ecP
    let h := ecSub (w * w) (8 * b)
    (2 * h * s % ecP, ecSub (w * ecSub (4 * b) h) (8 * t * t), 8 * s * s * s % ecP)

/-- Addition on the curve. -/
def ecAdd : EcPt → EcPt → EcPt
  | (x, y, z), (x', y', z') =>
    if z = 0 then (x', y', z')
    else if z' = 0 then (x, y, z)
    else
      let u := ecSub (y' * z) (y * z')
      let v := ecSub (x' * z) (x * z')
      if v = 0 then (if u = 0 then ecDouble (x, y, z) else ecInf)
      else
        let zz := z * z' % ecP
        let v2 := v * v % ecP
        let v3 := v * v2 % ecP
        let r := v2 * (x * z') % ecP
        let a := ecSub (u * u * zz) (v3 + 2 * r)
        (v * a % ecP, ecSub (u * ecSub r a) (v3 * (y * z')), v3 * zz % ecP)

/-- A multiple of a point, over the low k bits. -/
def ecMul : Nat → Nat → EcPt → EcPt
  | 0, _, _ => ecInf
  | k + 1, d, p => ecAdd (if d % 2 = 1 then p else ecInf) (ecMul k (d / 2) (ecDouble p))

/-- A key or a signature as one big-endian number of 64 bytes. -/
def pairOf (x : BitVec 512) : Nat × Nat := (x.toNat / 2 ^ 256, x.toNat % 2 ^ 256)
def ofPair (p : Nat × Nat) : BitVec 512 := BitVec.ofNat 512 (p.1 * 2 ^ 256 + p.2)

/-- A public key names a point of the curve. -/
def ecOn (q : Nat × Nat) : Bool :=
  decide (q.1 < ecP) && decide (q.2 < ecP) && (q.2 * q.2 + 3 * q.1) % ecP == (q.1 * q.1 * q.1 + ecB) % ecP

/-- ECDSA verification: the key, the signature r then s, the digest. -/
def ecdsaVerify (key sig : BitVec 512) (digest : BitVec 256) : Bool :=
  let q := pairOf key
  let (r, s) := pairOf sig
  if !ecOn q || r == 0 || decide (ecN ≤ r) || s == 0 || decide (ecN ≤ s) then false
  else
    let w := invMod ecN s
    match ecAffine (ecAdd (ecMul 256 (digest.toNat * w % ecN) (ecPoint ecG)) (ecMul 256 (r * w % ecN) (ecPoint q))) with
    | some (x, _) => x % ecN == r
    | none => false

/-- The public key of a private scalar. -/
def ecPublic (d : Nat) : BitVec 512 := ofPair ((ecAffine (ecMul 256 d (ecPoint ecG))).getD (0, 0))

/-- An ECDSA signature with a given per-signature secret. -/
def ecdsaSign (d k : Nat) (digest : BitVec 256) : BitVec 512 :=
  let r := ((ecAffine (ecMul 256 k (ecPoint ecG))).getD (0, 0)).1 % ecN
  ofPair (r, invMod ecN k * (digest.toNat + r * d) % ecN)

/-- The identity scalar (R410). -/
def identityScalar (secret : BitVec 256) (lifecycle : Nat) : Nat :=
  (hmac256 secret ([0x44, 0x58, 0x38, 0x20, 0x69, 0x64, 0x65, 0x6E, 0x74, 0x69, 0x74, 0x79] ++ [BitVec.ofNat 8 lifecycle])).toNat % (ecN - 1) + 1

/-! ### AES-256-XTS -/

/-- Multiplication by x in GF(2^8), and of two elements. -/
def gfDouble (a : Byte) : Byte := (a <<< 1) ^^^ (if a.getLsbD 7 then 0x1B#8 else 0#8)
def gfMul (a b : Byte) : Byte :=
  ((List.range 8).foldl (fun (x : Byte × Byte) k => (if b.getLsbD k then x.1 ^^^ x.2 else x.1, gfDouble x.2)) (0#8, a)).1

/-- The inverse, as the power 254; 0 for 0. -/
def gfInv (a : Byte) : Byte :=
  let a2 := gfMul a a
  let a4 := gfMul a2 a2
  let a8 := gfMul a4 a4
  let a16 := gfMul a8 a8
  let a32 := gfMul a16 a16
  let a64 := gfMul a32 a32
  let a128 := gfMul a64 a64
  gfMul a2 (gfMul a4 (gfMul a8 (gfMul a16 (gfMul a32 (gfMul a64 a128)))))

/-- The S-box and its inverse. -/
def aesSub (a : Byte) : Byte :=
  let b := gfInv a
  b ^^^ b.rotateLeft 1 ^^^ b.rotateLeft 2 ^^^ b.rotateLeft 3 ^^^ b.rotateLeft 4 ^^^ 0x63#8
def aesUnsub (b : Byte) : Byte :=
  gfInv (b.rotateLeft 1 ^^^ b.rotateLeft 3 ^^^ b.rotateLeft 6 ^^^ 0x05#8)

def xorBytes (a b : List Byte) : List Byte := List.zipWith (· ^^^ ·) a b

/-- The next eight words of the key schedule, from eight words and the round constant: bytes in order. -/
def aesNextKey (rc : Byte) (k : List Byte) : List Byte :=
  let w := fun (i : Nat) => (k.drop (4 * i)).take 4
  let t := ((w 7).drop 1 ++ (w 7).take 1).map aesSub
  let w0 := xorBytes (xorBytes (w 0) t) [rc, 0, 0, 0]
  let w1 := xorBytes (w 1) w0
  let w2 := xorBytes (w 2) w1
  let w3 := xorBytes (w 3) w2
  let w4 := xorBytes (w 4) (w3.map aesSub)
  let w5 := xorBytes (w 5) w4
  let w6 := xorBytes (w 6) w5
  w0 ++ w1 ++ w2 ++ w3 ++ w4 ++ w5 ++ w6 ++ xorBytes (w 7) w6

def aesSchedule : Nat → Byte → List Byte → List Byte
  | 0, _, k => k
  | n + 1, rc, k => k ++ aesSchedule n (gfDouble rc) (aesNextKey rc k)

/-- The fifteen round keys of a 256-bit key. -/
def aesKeys (key : BitVec 256) : List (List Byte) :=
  let bs := aesSchedule 7 1#8 (beBytes 32 key.toNat)
  (List.range 15).map (fun n => (bs.drop (16 * n)).take 16)

/-- Byte r of column c moves to column c - r, or back. -/
def aesShift (s : List Byte) : List Byte := (List.range 16).map (fun i => s.getD (4 * ((i / 4 + i % 4) % 4) + i % 4) 0)
def aesUnshift (s : List Byte) : List Byte := (List.range 16).map (fun i => s.getD (4 * ((i / 4 + 4 - i % 4) % 4) + i % 4) 0)

/-- Each column times a circulant matrix, given by its first row. -/
def aesMix (m : List Byte) (s : List Byte) : List Byte :=
  (List.range 16).map (fun i =>
    (List.range 4).foldl (fun x k => x ^^^ gfMul (m.getD ((k + 4 - i % 4) % 4) 0) (s.getD (4 * (i / 4) + k) 0)) 0#8)

/-- One block of 16 bytes under a key, and back. -/
def aesEncrypt (ks : List (List Byte)) (b : List Byte) : List Byte :=
  let s := (ks.drop 1 |>.take 13).foldl (fun s k => xorBytes (aesMix [2, 3, 1, 1] (aesShift (s.map aesSub))) k) (xorBytes b (ks.getD 0 []))
  xorBytes (aesShift (s.map aesSub)) (ks.getD 14 [])
def aesDecrypt (ks : List (List Byte)) (b : List Byte) : List Byte :=
  let s := (aesUnshift (xorBytes b (ks.getD 14 []))).map aesUnsub
  let s := ((ks.drop 1).take 13).reverse.foldl (fun s k => (aesUnshift (aesMix [14, 11, 13, 9] (xorBytes s k))).map aesUnsub) s
  xorBytes s (ks.getD 0 [])

/-- The tweak of the next block: times x in GF(2^128). -/
def xtsNext (t : List Byte) : List Byte :=
  let n := natOf t * 2
  bytesOf 16 (if 2 ^ 128 ≤ n then (n - 2 ^ 128) ^^^ 0x87 else n)

def xtsBlocks (f : List Byte → List Byte) : Nat → List Byte → List Byte → List Byte
  | 0, _, _ => []
  | n + 1, t, bs => xorBytes (f (xorBytes (bs.take 16) t)) t ++ xtsBlocks f n (xtsNext t) (bs.drop 16)

/-- A data unit of 4 KiB with its number, under a key and its tweak key. -/
def xtsEncrypt (key tweak : BitVec 256) (unit : Nat) (bs : List Byte) : List Byte :=
  xtsBlocks (aesEncrypt (aesKeys key)) (bs.length / 16) (aesEncrypt (aesKeys tweak) (bytesOf 16 unit)) bs
def xtsDecrypt (key tweak : BitVec 256) (unit : Nat) (bs : List Byte) : List Byte :=
  xtsBlocks (aesDecrypt (aesKeys key)) (bs.length / 16) (aesEncrypt (aesKeys tweak) (bytesOf 16 unit)) bs

end Sys2Proof.Machine
end

