-- ==== Sys2Proof/Machine/Tmap.lean ====
section
/-! DEFINITION. Tensor maps (R132 to R134), slot layouts (R254, R270), MX scale places (R126), ring descriptors (R261). -/

namespace Sys2Proof.Machine

open Sys2Proof

def word8 (bs : List Byte) (off : Nat) : W64 := BitVec.ofNat 64 (fieldAt bs off 8)

/-- Four 16-bit coordinates, dimension 0 first. -/
def coords4 (bs : List Byte) (off : Nat) : List Nat := (List.range 4).map (fun k => fieldAt bs (off + 2 * k) 2)
/-- The reserved bytes from off up to a bound are zero. -/
def zeroFrom (bs : List Byte) (off n : Nat) : Bool := ((bs.drop off).take n).all (· == 0)

/-- A tensor map from its 128 bytes (R132). -/
def parseTMap (bs : List Byte) : TMap :=
  let w4 := fun (off : Nat) => (List.range 4).map (fun k => word8 bs (off + 8 * k))
  { base := word8 bs 0, format := fieldAt bs 8 1, rank := fieldAt bs 9 1, flags := fieldAt bs 10 2,
    seed := BitVec.ofNat 32 (fieldAt bs 12 4), dims := (List.range 4).map (fun k => fieldAt bs (16 + 4 * k) 4),
    bstride := w4 32, dstride := w4 64, dbase := word8 bs 96, scaleBase := word8 bs 104, scaleStride := word8 bs 112,
    sstride2 := BitVec.ofNat 32 (fieldAt bs 120 4), sstride3 := BitVec.ofNat 32 (fieldAt bs 124 4) }

def TMap.fmt (m : TMap) : Fmt := (Fmt.ofCode m.format).getD .raw
def TMap.dim (m : TMap) (k : Nat) : Nat := m.dims.getD k 1
def TMap.bs (m : TMap) (k : Nat) : W64 := m.bstride.getD k 0
def TMap.ds (m : TMap) (k : Nat) : W64 := m.dstride.getD k 0
def TMap.zeropad (m : TMap) : Bool := m.flags % 2 == 1

/-- R133. -/
def TMap.valid (m : TMap) : Bool :=
  match Fmt.ofCode m.format with
  | none => false
  | some f =>
    decide (1 ≤ m.rank) && decide (m.rank ≤ 4) &&
    (List.range 4).all (fun k => if k < m.rank then decide (1 ≤ m.dim k) else m.dim k == 1) &&
    (if f.bits < 8 then m.bs 0 == 0 && m.dim 0 % (if f.bits = 6 then 4 else 2) == 0
     else m.base.toNat % (f.bits / 8) == 0) &&
    (!f.isMx || m.dim 0 % 32 == 0) && m.flags / 2 == 0

/-- The effective scale strides of dimensions 1 to 3 (R126). -/
def TMap.scaleS (m : TMap) (k : Nat) : W64 :=
  let s1 := m.scaleStride
  let s2 := if m.sstride2 = 0 then s1 * BitVec.ofNat 64 (m.dim 1) else m.sstride2.signExtend 64
  let s3 := if m.sstride3 = 0 then s2 * BitVec.ofNat 64 (m.dim 2) else m.sstride3.signExtend 64
  if k = 1 then s1 else if k = 2 then s2 else s3

/-- Where a code lies: its bytes, and the bit of the first of them at which it starts. -/
structure Loc where
  addr : W64
  bytes : Nat
  shift : Nat
  bits : Nat
deriving DecidableEq, Repr

/-- The place of element c0 of a row packed under R121. -/
def packLoc (f : Fmt) (row : W64) (c0 : Nat) : Loc :=
  match f.bits with
  | 4 => ⟨row + BitVec.ofNat 64 (c0 / 2), 1, 4 * (c0 % 2), 4⟩
  | 6 => ⟨row + BitVec.ofNat 64 (3 * (c0 / 4)), 3, 6 * (c0 % 4), 6⟩
  | b => ⟨row + BitVec.ofNat 64 (b / 8 * c0), b / 8, 0, b⟩

/-- A coordinate of a list of four. -/
def cAt (c : List Nat) (k : Nat) : Nat := c.getD k 0
def addC (a b : List Nat) : List Nat := (List.range 4).map (fun k => cAt a k + cAt b k)

/-- The place of an element of a map (R134). -/
def TMap.loc (m : TMap) (c : List Nat) : Loc :=
  let row := m.base + m.bs 1 * BitVec.ofNat 64 (cAt c 1) + m.bs 2 * BitVec.ofNat 64 (cAt c 2) + m.bs 3 * BitVec.ofNat 64 (cAt c 3)
  if m.fmt.bits < 8 then packLoc m.fmt row (cAt c 0)
  else ⟨row + m.bs 0 * BitVec.ofNat 64 (cAt c 0), m.fmt.bits / 8, 0, m.fmt.bits⟩

/-- The canonical index of an element (R134). -/
def TMap.index (m : TMap) (c : List Nat) : W64 :=
  m.dbase + (List.range 4).foldl (fun acc k => acc + m.ds k * BitVec.ofNat 64 (cAt c k)) 0

/-- The address of an element's scale byte (R126). -/
def TMap.scaleAddr (m : TMap) (c : List Nat) : W64 :=
  m.scaleBase + m.scaleS 1 * BitVec.ofNat 64 (cAt c 1) + m.scaleS 2 * BitVec.ofNat 64 (cAt c 2) +
    m.scaleS 3 * BitVec.ofNat 64 (cAt c 3) + BitVec.ofNat 64 (cAt c 0 / 32)

def TMap.inside (m : TMap) (c : List Nat) : Bool := (List.range 4).all (fun k => decide (cAt c k < m.dim k))

/-- A region of a map from an origin. -/
def TMap.covers (m : TMap) (o e : List Nat) : Bool := (List.range 4).all (fun k => decide (cAt o k + cAt e k ≤ m.dim k))

/-- The coordinates of an extent, dimension 0 fastest. -/
def coordsOf (e : List Nat) : List (List Nat) :=
  (List.range (cAt e 3)).flatMap fun c3 => (List.range (cAt e 2)).flatMap fun c2 =>
    (List.range (cAt e 1)).flatMap fun c1 => (List.range (cAt e 0)).map fun c0 => [c0, c1, c2, c3]

/-! ### Slot layout (R270) -/

/-- Bytes of a row of n elements packed under R121. -/
def rowBytes (f : Fmt) (n : Nat) : Nat := if f.bits = 6 then (n + 3) / 4 * 3 else (f.bits * n + 7) / 8
def rowsOf (e : List Nat) : Nat := cAt e 1 * cAt e 2 * cAt e 3
def rowNum (e c : List Nat) : Nat := (cAt c 3 * cAt e 2 + cAt c 2) * cAt e 1 + cAt c 1
def blocksOf (n : Nat) : Nat := (n + 31) / 32
def scaleOff (f : Fmt) (e : List Nat) : Nat := alignUp 16 (rowsOf e * rowBytes f (cAt e 0))

/-- Bytes that a tile takes in a slot, with its scales. -/
def tileSize (f : Fmt) (e : List Nat) : Nat :=
  if f.isMx then scaleOff f e + rowsOf e * blocksOf (cAt e 0) else rowsOf e * rowBytes f (cAt e 0)

def slotLoc (f : Fmt) (slot : W64) (e c : List Nat) : Loc :=
  packLoc f (slot + BitVec.ofNat 64 (rowNum e c * rowBytes f (cAt e 0))) (cAt c 0)
def slotScale (f : Fmt) (slot : W64) (e c : List Nat) : W64 :=
  slot + BitVec.ofNat 64 (scaleOff f e + rowNum e c * blocksOf (cAt e 0) + cAt c 0 / 32)

/-! ### Ring descriptors (R261) -/

def parseRing (bs : List Byte) : RingDesc :=
  { off := fieldAt bs 0 4, slotBytes := fieldAt bs 4 4, slots := fieldAt bs 8 2, flags := fieldAt bs 10 2, tagOff := fieldAt bs 12 4,
    reservedOk := zeroFrom bs 16 16 }

def RingDesc.tagged (r : RingDesc) : Bool := bitOf r.flags 0
def RingDesc.matrix (r : RingDesc) : Bool := bitOf r.flags 1
def RingDesc.arrayEnd (r : RingDesc) : Nat := r.off + r.slots * r.slotBytes

/-- R261, for a ring of a cluster on the given die. -/
def RingDesc.valid (die : Nat) (r : RingDesc) : Bool :=
  r.off % 256 == 0 && r.slotBytes % 256 == 0 && decide (256 ≤ r.slotBytes) && decide (r.slotBytes ≤ 65536) &&
  [1, 2, 4, 8, 16, 32, 64, 128, 256].contains r.slots && r.flags / 4 == 0 && r.reservedOk &&
  decide (r.arrayEnd ≤ spadBytes die) &&
  (!r.tagged || (r.tagOff % 16 == 0 && decide (r.tagOff + 16 * r.slots ≤ spadBytes die) &&
    (decide (r.tagOff + 16 * r.slots ≤ r.off) || decide (r.arrayEnd ≤ r.tagOff))))

end Sys2Proof.Machine
end

