-- ==== Sys2Proof/Machine/EngAcc.lean ====
section
/-! DEFINITION. What the engines share: snapshots (R112, R248), accesses and writes of an engine (R108, R249), word by word in uncached
host memory (R366), tokens (R250), range locks (R110, R282) and the ring table (R262 to R266). -/

namespace Sys2Proof.Machine

open Sys2Proof

/-! ### Reading and writing byte by byte -/

/-- Why an engine's or a snapshot's access is not performed. slow: a word of uncached host memory is to be read first; split: of several
such words that are to be written, these bytes are the first (R366). -/
inductive EFail where
  | slow (va : Nat)
  | split (xs : List (Nat × BW))
  | check (cause : Nat) (va : Nat)
  | replay (va : Nat)
  | stall
  | fatal (va : Nat) (misplaced : Option Nat)
  | poisoned (va : Nat)
deriving DecidableEq, Repr

/-- Who accesses: the die, the core whose store FIFO is forwarded, the mode and the context; the engine, where its accesses are split into
words and its faults wait; and the task and thread group that a peer's refusal of a store falls on (R402). -/
structure Agent where
  die : Nat
  fwd : Option CoreId
  super : Bool
  asid : Half
  who : Option Waiter
  task : W64
  tg : Option TgRef
deriving DecidableEq, Repr

/-- An agent whose accesses are not split, and wait for nothing. -/
def plainAgent (die : Nat) (super : Bool) (asid : Half) : Agent := ⟨die, none, super, asid, none, 0, none⟩

/-- Extended addresses of a peer's memory. -/
def peerExt (dev pa : Nat) : Nat := 2 ^ 70 + dev * 2 ^ 48 + pa

def State.modOp (s : State) (id : Nat) (f : EngOp → EngOp) : State := { s with ops := updFirst (fun x => x.id == id) f s.ops }

/-- The extended address of one byte; none for a peer's that is read. A page that the engine has been told is unmappable fails (R393). -/
def State.byteAt (s : State) (g : Agent) (acc : Acc) (va : Nat) : Except EFail (Option Nat) :=
  match addrCheck s.mode g.super (acc == .store) va 1 with
  | .address => .error (.check cADDRESS va)
  | .priv => .error (.check cPRIV va)
  | .ok =>
    if isWindow va then .ok (some va)
    else if g.who.any (fun w => s.deadPage w g.asid va) then .error (.fatal va none)
    else match translate s.toSoc g.super acc g.asid va with
      | .phys pa => if s.swapWait va then .error .stall else .ok (some pa)
      | .host a _ => .ok (some (hostExt a))
      | .peer dev pa =>
        if s.lost.contains dev || ((acc != .store || (g.task == 0 && g.tg.isNone)) && s.peerRefuses va) then .error (.fatal va none)
        else .ok (if acc = .store then some (peerExt dev pa) else none)
      | .replay => .error (.replay va)
      | .stall => .error .stall
      | .poison => .error (.poisoned va)
      | .misplaced pa => .error (.fatal va (some pa))
      | .fatal => .error (.fatal va none)

/-- One byte as the agent reads it: what its die's slice holds by its tag, else storage, under the die's write-pending entries, then its
core's FIFO, for whose stores under another name of a NOCACHE line it waits (R403). A peer's byte is a free value (log 16). -/
def State.rawByte (s : State) (g : Agent) (va : Nat) : Except EFail (Byte × Bool) :=
  let under := fun (b : Byte) (p : Bool) =>
    let es := s.pendingOf g.die ++ (match g.fwd with | some c => (s.core c).fifo | none => [])
    match es.foldl (fun acc e => e.onByte g.asid va acc) (some b) with
    | some b => (.ok (b, es.foldl (fun acc e => e.onPoison g.asid va acc) p) : Except EFail (Byte × Bool))
    | none => .error .stall
  match (if isWindow va || g.who.any (fun w => s.deadPage w g.asid va) then none else s.heldAt g.die g.asid va 1) with
  | some (b, p) => under (b.getD 0 0) (p.getD 0 false)
  | none =>
    match s.byteAt g .load va with
    | .error e => .error e
    | .ok none => .ok (BitVec.ofNat 8 (Config.pick (s.seq + s.cycle.toNat) va), false)
    | .ok (some a) =>
      let w := winOf va
      if isWindow va ∧ w.kind = 2 then under ((s.tileBytes w.coreId w.off 1).getD 0 0) (s.tilePoison w.coreId w.off)
      else if !isWindow va && isNocache s.sup.active va && g.fwd.any (fun c => s.aliasHeld c g.asid va a) then .error .stall
      else under (memGet s.mem a) (isPoisoned s.poison a 1)

/-! ### Uncached host memory, an aligned 8-byte word at a time (R366) -/

/-- What an agent has read and keeps: structures by address, and words of uncached host memory 2^64 above theirs; none for an agent that
keeps nothing. -/
def State.keptOf (s : State) (g : Agent) : Option (List (Nat × List (Byte × Bool))) :=
  if g.fwd.isSome then some s.me.phase.snaps
  else match g.who with
    | none => none
    | some (.op id) => (s.ops.find? (fun o => o.id == id)).map (·.words.got)
    | some w => some (kget ⟨[], []⟩ s.engWords w).got

/-- The agent keeps what it has read at a key. -/
def State.keepRead (s : State) (g : Agent) (key : Nat) (bs : List (Byte × Bool)) : State :=
  if g.fwd.isSome then s.modMe (fun t => { t with phase := { t.phase with snaps := t.phase.snaps ++ [(key, bs)] } })
  else match g.who with
    | none => s
    | some (.op id) => s.modOp id (fun o => { o with words := { o.words with got := o.words.got ++ [(key, bs)] } })
    | some w =>
      let x := kget ⟨[], []⟩ s.engWords w
      { s with engWords := kset w { x with got := x.got ++ [(key, bs)] } s.engWords }

/-- The words that it has written, by number; and one more. -/
def State.putsOf (s : State) (g : Agent) : List Nat :=
  match g.who with
  | none => []
  | some (.op id) => ((s.ops.find? (fun o => o.id == id)).map (·.words.put)).getD []
  | some w => (kget ⟨[], []⟩ s.engWords w).put
def State.keepPut (s : State) (g : Agent) (n : Nat) : State :=
  match g.who with
  | none => s
  | some (.op id) => s.modOp id (fun o => { o with words := { o.words with put := o.words.put ++ [n] } })
  | some w =>
    let x := kget ⟨[], []⟩ s.engWords w
    { s with engWords := kset w { x with put := x.put ++ [n] } s.engWords }

/-- An engine's access is over: it keeps nothing of it. -/
def State.forgetWords (s : State) (w : Waiter) : State :=
  match w with
  | .op id => s.modOp id (fun o => { o with words := ⟨[], []⟩ })
  | w => if s.engWords = [] then s else { s with engWords := s.engWords.filter (fun x => x.1 != w) }

/-- An agent's access to an address is one to uncached host memory, which it makes word by word. -/
def State.splits (s : State) (g : Agent) (va : Nat) : Bool :=
  (g.fwd.isSome || g.who.isSome) && !isWindow va && (match translate s.toSoc g.super .load g.asid va with
    | .host _ true => true
    | _ => false)

/-- The key of a word that an agent keeps. -/
def wordKey (va : Nat) : Nat := 2 ^ 64 + va / 8 * 8

def State.readByte (s : State) (g : Agent) (va : Nat) : Except EFail (Byte × Bool) :=
  if s.splits g va then
    match s.byteAt g .load va with
    | .error e => .error e
    | .ok _ =>
      match kfind (wordKey va) ((s.keptOf g).getD []) with
      | some bs => .ok (bs.getD (va % 8) (0, false))
      | none => .error (.slow va)
  else s.rawByte g va

/-- The word of an address is read, and kept. -/
def State.slowRead (s : State) (g : Agent) (va : Nat) : State :=
  match (List.range 8).mapM (fun k => s.rawByte g (va / 8 * 8 + k)) with
  | .ok bs => s.keepRead g (wordKey va) bs
  | .error _ => s

def State.readBytes (s : State) (g : Agent) (va n : Nat) : Except EFail (List (Byte × Bool)) :=
  (List.range n).mapM (fun k => s.readByte g (va + k))

/-- A little-endian number and whether any of its bytes is poisoned. -/
def numOf (bs : List (Byte × Bool)) : Nat × Bool := (natOf (bs.map (·.1)), bs.any (·.2))

/-- The code at a place. -/
def State.readLoc (s : State) (g : Agent) (l : Loc) : Except EFail (Nat × Bool) := do
  let bs ← s.readBytes g l.addr.toNat l.bytes
  let (n, p) := numOf bs
  return (n / 2 ^ l.shift % 2 ^ l.bits, p)

/-- The reads that an engine's bytes send to other homes, one for each line (R93, R97). -/
def State.noteReads (s : State) (g : Agent) (vas : List Nat) : State :=
  (vas.foldl (fun l va => insertNat (lineOf va) l) []).foldl (fun (s : State) line =>
    if isWindow line then s
    else if (s.heldAt g.die g.asid line 1).isSome then s.remoteRead g.die g.asid line 0
    else match translate s.toSoc g.super .load g.asid line with
      | .phys pa => s.remoteRead g.die g.asid line pa
      | _ => s) s

/-- A code written at a place. -/
def locWrite (l : Loc) (code : Nat) (p : Bool) : List BW :=
  (List.range l.bytes).map (fun k =>
    ⟨l.addr.toNat + k, BitVec.ofNat 8 ((2 ^ l.bits - 1) * 2 ^ l.shift / 256 ^ k), BitVec.ofNat 8 (code % 2 ^ l.bits * 2 ^ l.shift / 256 ^ k), p⟩)

def bytesWrite (va : Nat) (bs : List Byte) (p : Bool) : List BW := (bs.zipIdx).map (fun b => ⟨va + b.2, 0xFF, b.1, p⟩)

/-- Bytes written twice are merged. -/
def mergeWrites (ws : List (Nat × BW)) : KMap Nat BW :=
  ws.foldl (fun m w =>
    match kfind w.1 m with
    | some o => kset w.1 ⟨o.va, o.mask ||| w.2.mask, (o.val &&& ~~~w.2.mask) ||| (w.2.val &&& w.2.mask), o.p || w.2.p⟩ m
    | none => kset w.1 w.2 m) []

/-- The stores that an engine's bytes for a peer leave as: a run of whole bytes of one aligned 8-byte word is one access (R402). -/
def farStores : List (Nat × BW) → List (Nat × W64 × StOp × List Byte × Bool)
  | [] => []
  | (a, w) :: r =>
    let one := (a, BitVec.ofNat 64 w.va, if w.mask = 0x0F then StOp.nibLo else if w.mask = 0xF0 then .nibHi else .store, [w.val], w.p)
    match farStores r with
    | (b, v, .store, bs, q) :: t =>
      if w.mask = 0xFF ∧ b = a + 1 ∧ a / 8 = b / 8 then (a, BitVec.ofNat 64 w.va, .store, w.val :: bs, w.p || q) :: t
      else one :: (b, v, .store, bs, q) :: t
    | t => one :: t

/-- An engine's bytes for peers set out: a SYSTEM-scope release waits for them, and a refusal falls on the agent's task (R402). -/
def State.sendFar (s : State) (g : Agent) (ws : List (Nat × BW)) : State :=
  (farStores ws).foldl (fun (s : State) x =>
    let e : StEnt := ⟨g.tg.getD (nobodyAt ⟨g.die, 0, 0⟩), g.task, g.super, g.asid, x.2.1, x.2.2.1, x.2.2.2.1, x.2.2.2.2, false, s.seq⟩
    let a := x.1 - 2 ^ 70
    { s.bump with wrs := s.wrs ++ [⟨s.seq, g.die, e, true, a % 2 ^ 48, some (a / 2 ^ 48), 128, s.sup.rtGen, false, [], false, none, false, false⟩] }) s

/-- Scratchpad bytes that are written take their selected mode (R427). -/
def State.encodeBytes (s : State) (as_ : List Nat) : State :=
  if s.dies.all (fun d => d.2.oldMode == []) then s else as_.foldl (fun (s : State) a => s.encodeSpad a 1) s

/-- An engine's bytes are written, those written twice merged: whole bytes as one engine write, parts into the byte that stands there, a
peer's as stores to it. -/
def State.engWrite (s : State) (g : Agent) (ws : List (Nat × BW)) : State :=
  let all := mergeWrites ws
  let merged := all.filter (fun x => decide (x.1 < 2 ^ 70))
  let s := s.encodeBytes (merged.map (·.1))
  let part := merged.filter (fun x => x.2.mask != 0xFF)
  let whole := merged.filter (fun x => x.2.mask == 0xFF)
  let s := s.onSoc (fun c => part.foldl (fun (c : Soc) x => c.putPart x.1 x.2.mask x.2.val x.2.p) c)
  let s := s.onSoc (·.putE (whole.map (fun x => ⟨x.1, x.2.val, x.2.p⟩)))
  let lines := merged.foldl (fun (l : List (Nat × Nat)) x => if l.any (fun y => y.1 == lineOf x.1) then l else l ++ [(lineOf x.1, x.2.va)]) []
  let s : State := lines.foldl (fun (s : State) (l : Nat × Nat) =>
    let s := s.wakeWatches l.1 128
    if 2 ^ 60 ≤ l.1 ∨ isNocache s.sup.active l.2 = true then s
    else
      let home := homeDie s.mode s.sup.active l.2
      (s.countWrite home g.asid l.2).dropReplicas home g.asid l.2) s
  s.sendFar g (all.filter (fun x => decide (2 ^ 70 ≤ x.1)))

/-- The write of an accumulator save area: poison marks its 32-bit words, not the blocks that they lie in (R334). -/
def State.areaWrite (s : State) (g : Agent) (ws : List (Nat × BW)) : State :=
  (s.engWrite g (ws.map (fun x => (x.1, { x.2 with p := false })))).onSoc (fun c =>
    { c with poison := (ws.filter (·.2.p)).foldl (fun q x => insertNat (wordMark x.1) q) c.poison })

/-- A write of which the poison of some bytes marks 32-bit words, not the blocks that they lie in: those of an accumulator save area (R334). -/
def State.engWriteWords (s : State) (g : Agent) (word : BW → Bool) (ws : List (Nat × BW)) : State :=
  let blocks := s.engWrite g (ws.map (fun x => if word x.2 then (x.1, { x.2 with p := false }) else x))
  { s.engWrite g ws with poison := (ws.filter (fun x => x.2.p && word x.2)).foldl (fun q x => insertNat (wordMark x.1) q) blocks.poison }

/-- Translate every byte that is to be written and has not been. While more than one word of uncached host memory is left, the first of
them is to be written by itself (R366). -/
def State.placeWrites (s : State) (g : Agent) (ws : List BW) : Except EFail (List (Nat × BW)) := do
  let xs ← ws.mapM (fun w => do
    let a ← s.byteAt g .store w.va
    return a.map (fun a => (a, w)))
  let left := (xs.filterMap id).filter (fun x => !((s.putsOf g).contains (x.2.va / 8) && s.splits g x.2.va))
  let slow := left.filter (fun x => s.splits g x.2.va)
  match slow.find? (fun x => some (x.2.va / 8) != slow.head?.map (·.2.va / 8)) with
  | none => return left
  | some _ => throw (.split (slow.filter (fun x => some (x.2.va / 8) == slow.head?.map (·.2.va / 8))))

/-- Bytes of one word are written ahead of the others. -/
def State.splitWrite (s : State) (g : Agent) (xs : List (Nat × BW)) : State :=
  match xs.head? with
  | none => s
  | some x => (s.engWrite g xs).keepPut g (x.2.va / 8)

/-- The same for bytes of an accumulator save area. -/
def State.splitArea (s : State) (g : Agent) (xs : List (Nat × BW)) : State :=
  match xs.head? with
  | none => s
  | some x => (s.areaWrite g xs).keepPut g (x.2.va / 8)

/-- What an access that is made word by word does next, in this step (R366). -/
def State.slowStep (s : State) (g : Agent) : EFail → State
  | .slow va => s.slowRead g va
  | .split xs => s.splitWrite g xs
  | _ => s

/-! ### Snapshots by an instruction (R112, R248 step 2) -/

/-- The thread group as an agent. -/
def State.meAgent (s : State) : Agent := ⟨s.me.loc.core.die, some s.me.loc.core, s.me.super, s.me.asid, none, s.me.task, some s.me.loc⟩

/-- A step-2 failure of the current instruction. -/
def State.snapFail (s : State) (va : W64) : EFail → State
  | .check c _ => s.trap c va 0
  | .replay a => s.parkFault a 1
  | .stall | .slow _ | .split _ => s.stall
  | .fatal a m => s.trFail a (match m with | some pa => .misplaced pa | none => .fatal)
  | .poisoned a => s.trFail a .poison

/-- The bytes of a structure, from the cluster's descriptor cache when it still holds them (which is not given), else afresh. An instruction
or a packet reads each structure once, however long it stalls (R112, R248). -/
def State.snapRead (s : State) (c : ClId) (g : Agent) (cached : Bool) (va n : Nat) : State × Except EFail (List (Byte × Bool)) :=
  match ((s.keptOf g).getD []).find? (fun x => x.1 == va && x.2.length == n) with
  | some x => (s, .ok x.2)
  | none =>
  let hit := (s.cluster c).dcache.find? (fun e => e.1 == g.asid && e.2.1.toNat == va)
  let keep := cached && Config.pick 1 s.free % 2 == 0
  match hit, keep with
  | some e, true => (s.useFree.keepRead g va (e.2.2.1.zip e.2.2.2), .ok (e.2.2.1.zip e.2.2.2))
  | _, _ =>
    let s := if cached then s.useFree else s
    match s.readBytes g va n with
    | .error (.slow a) => (s.slowRead g a, .error .stall)
    | .error e => (s, .error e)
    | .ok bs =>
      let s := (s.keepRead g va bs).noteReads g ((List.range n).map (va + ·))
      let ent := (g.asid, BitVec.ofNat 64 va, bs.map (·.1), bs.map (·.2))
      let fill := fun (k : Cluster) => { k with dcache := k.dcache.filter (fun e => !(e.1 == g.asid && e.2.1.toNat == va)) ++ [ent] }
      (if cached then s.modCluster c fill else s, .ok bs)

/-- Go on with the snapshot of a structure of n bytes, aligned to al. -/
def State.withSnap (s : State) (cached : Bool) (va : W64) (n al : Nat) (k : State → List Byte → State) : State :=
  match addrCheck s.mode s.me.super false va.toNat n with
  | .address => s.trap cADDRESS va 0
  | .priv => s.trap cPRIV va 0
  | .ok =>
    if va.toNat % al ≠ 0 then s.trap cALIGN va 0
    else match s.snapRead s.me.loc.core.cluster s.meAgent cached va.toNat n with
      | (s, .error e) => s.snapFail va e
      | (s, .ok bs) =>
        match bs.findIdx? (·.2) with
        | some i => s.killMe kPOISON (BitVec.ofNat 64 (va.toNat + i / 4 * 4))
        | none => k s (bs.map (·.1))

/-- A tensor map, and the trap of an invalid one left to step 4 (R133, R248). -/
def State.withMap (s : State) (va : W64) (k : State → TMap → State) : State :=
  s.withSnap true va 128 128 fun s bs => k s (parseTMap bs)

/-- RING and FORMAT (R248): the reason, and the handle when one is concerned. -/
def State.trapRing (s : State) (addr : W64) (reason handle : Nat) : State := s.trapInfoReason cRING addr reason handle
def State.trapFormat (s : State) (addr : W64) (reason handle : Nat) : State := s.trapInfoReason cFORMAT addr reason handle
/-- FORMAT where no rule numbers the reason: TRAPINFO[3:0] is a free value (log 17). -/
def State.trapFormatAny (s : State) (addr : W64) : State := s.useFree.trapInfoReason cFORMAT addr (s.freeWord.toNat % 16) 0

/-! ### Tokens (R250) -/

def TG.tokOf (g : TG) (t : Nat) : Nat := g.tok.toList.getD t 0

/-! ### Range locks (R110, R282) -/

/-- The bounding range of byte ranges, for each address form on its own. -/
def boundRanges (rs : List (Nat × Nat)) : List LockRange :=
  let one := fun (win : Bool) =>
    match rs.filter (fun r => decide (r.1 < r.2) && isWindow r.1 == win) with
    | [] => []
    | r :: t => [t.foldl (fun (l : LockRange) x => ⟨min l.lo x.1, max l.hi x.2⟩) (⟨r.1, r.2⟩ : LockRange)]
  one false ++ one true

/-- The byte ranges of a region's elements and scales, by its corners: strides may be negative. -/
def TMap.ranges (m : TMap) (o e : List Nat) : List (Nat × Nat) :=
  let corner := fun (k : Nat) => (List.range 4).map (fun d => cAt o d + (if bitOf k d then cAt e d - 1 else 0))
  (List.range 16).flatMap (fun k =>
    let l := m.loc (corner k)
    (l.addr.toNat, l.addr.toNat + l.bytes) ::
      (if m.fmt.isMx then [((m.scaleAddr (corner k)).toNat, (m.scaleAddr (corner k)).toNat + 1)] else []))

/-- A free entry of the cluster's table of 32. -/
def Cluster.freeLock (c : Cluster) : Option Nat := lowest (fun i => !c.locks.any (fun l => l.idx == i)) 32 0

def State.takeLock (s : State) (c : ClId) (op : Nat) (owner : Option TgRef) (asid : Half) (srcs dsts : List (Nat × Nat)) : State :=
  match (s.cluster c).freeLock with
  | some i => s.modCluster c (fun k => { k with locks := k.locks ++ [⟨i, op, owner, asid, boundRanges srcs, boundRanges dsts⟩] })
  | none => s

/-! ### Issue of an operation (R248 steps 7 and 8) -/

/-- An operation of the current thread group. -/
def State.mkOp (s : State) (kind : EKind) (tok : Option Nat) (pkt : List Byte) (pktAddr : W64) (maps : List TMap)
    (handles : List Nat) : EngOp :=
  { id := s.seq, tg := some s.me.loc, task := s.me.task, super := s.me.super, asid := s.me.asid, cl := s.me.loc.core.cluster,
    core := s.me.loc.core, tok := tok, kind := kind, pkt := pkt, pktAddr := pktAddr, maps := maps, queue := none, index := 0,
    fault := none, mark := s.seq, started := false, handles := handles, part := s.me.part, ended := none, flagWr := none, out := none,
    pc := s.me.pc, failed := false, words := ⟨[], []⟩ }

/-- Steps 7 and 8 of R248: the stalls of R108, of a token at 15, of a full table and of a full queue; then the operation starts. -/
def State.issueOp (s : State) (kind : EKind) (tok : Option Nat) (pkt : List Byte) (pktAddr : W64) (maps : List TMap) (full : Bool)
    (lock : Option (List (Nat × Nat) × List (Nat × Nat))) (handles : List Nat) (act : State → State) : State :=
  if full || !s.logClear s.me.loc || (match tok with | some t => decide (15 ≤ s.me.tokOf t) | none => false) ||
      (lock.isSome && (s.cluster s.me.loc.core.cluster).freeLock.isNone) then s.stall
  else
    let s := act s
    let op := s.mkOp kind tok pkt pktAddr maps handles
    let s := match lock with
      | some (a, b) => s.takeLock op.cl op.id op.tg op.asid a b
      | none => s
    let s := match tok with | some t => s.modMe (TG.addTok · t true) | none => s
    { s.bump with ops := s.ops ++ [op] }.advance

/-- An operation as an agent. -/
def EngOp.agent (o : EngOp) : Agent := ⟨o.cl.die, none, o.super, o.asid, some (.op o.id), o.task, o.tg⟩

/-- The stores of the die that were under way when the operation issued have reached their homes (R108). -/
def State.opReady (s : State) (o : EngOp) : Bool := !s.wrs.any (fun w => w.die == o.cl.die && !w.ret && decide (w.id < o.mark))

/-- An operation meets a replayable fault: it waits for the supervisor, with its pending entry (R39, R391). -/
def State.opFault (s : State) (id va : Nat) : State :=
  match s.ops.find? (fun o => o.id == id) with
  | none => s
  | some o =>
    match s.addFault o.asid va 4 o.cl 0xFF with
    | none => s
    | some s => { s with ops := updFirst (fun o => o.id == id) (fun o => { o with fault := some (va / 2 ^ 16 * 2 ^ 16) }) s.ops }

/-- A non-replayable fault of a thread's operation kills its task, or ends its handler activation (R249, R309); the operation ends. -/
def State.opKill (s : State) (o : EngOp) (code : Half) (va : Nat) (m : Option Nat) : State :=
  let s := match m with | some pa => s.misplaced o.asid ⟨o.cl.die, o.cl.cl, 0⟩ va pa | none => s
  let s := s.endOp o.id
  match o.tg with
  | some t => if o.task = 0 then s.killTg t code (BitVec.ofNat 64 va) else s.kill o.task code (BitVec.ofNat 64 va)
  | none => s

/-- A failed access of an operation: it waits, or its task is killed and it ends (R39, R249). -/
def State.engFail (s : State) (o : EngOp) : EFail → State
  | .replay va => s.opFault o.id va
  | .stall => s
  | .fatal va m => s.opKill o kADDRESS va m
  | .poisoned va => s.opKill o kPOISON va none
  | .check _ va => s.opKill o kADDRESS va none
  | e => s.slowStep o.agent e

/-- The outcome of an engine's writes: performed, waiting, or failed. -/
def State.engCommit (s : State) (o : EngOp) (ws : List BW) (done : State → State) : State :=
  match s.placeWrites o.agent ws with
  | .ok xs => done (s.engWrite o.agent xs)
  | .error e => s.engFail o e

/-! ### Handles (R263, R265) -/

/-- The ring that a handle of the current thread group names. -/
def State.bound (s : State) (h : Nat) : Option Ring :=
  let d := s.me.rings.toList.getD h 0
  if d = 0 then none else s.ring s.me.loc.core.cluster s.me.asid s.me.part d

/-- Step 3: an unbound handle traps RING, reason 1 (R265). -/
def State.withRing (s : State) (h : Nat) (k : State → Ring → State) : State :=
  match s.bound h with
  | some r => k s r
  | none => s.trapRing (s.me.rings.toList.getD h 0) 1 h

end Sys2Proof.Machine
end

