-- ==== Sys2Proof/Machine/Matrix.lean ====
section
/-! DEFINITION. Major 20: the matrix unit (R251 to R260), and the steps by which its operations start and complete. -/

namespace Sys2Proof.Machine

open Sys2Proof

/-! ### The context and the tiles (R251, R252) -/

/-- K of an operand format (R254); none where the format is no operand. -/
def Fmt.opK : Fmt → Option Nat
  | .bf16 | .fp16 => some 32
  | .int8 | .e4m3 | .e5m2 | .mf8 | .mxe4m3 | .mxe5m2 | .mxint8 | .mxe3m2 | .mxe2m3 => some 64
  | .int4 | .mxfp4 => some 128
  | _ => none

def opKOf (code : Nat) : Option Nat := (Fmt.ofCode code).bind Fmt.opK
def fmtOf (code : Nat) : Fmt := (Fmt.ofCode code).getD .raw

/-- The rounding mode that a format context names (R251). -/
def FmtCtx.rnd (c : FmtCtx) : Rnd := match fieldOf c.flags 1 2 with | 0 => .rne | 1 => .rz | 2 => .rup | _ => .rdn

/-- A format context and whether MCFG accepts it (R251). -/
def parseCtx (bs : List Byte) : FmtCtx × Bool :=
  let c : FmtCtx := { afmt := fieldAt bs 0 1, bfmt := fieldAt bs 1 1, ofmt := fieldAt bs 2 1, flags := fieldAt bs 3 1,
                      anchor := signedOf 16 (fieldAt bs 4 2), dseed := BitVec.ofNat 32 (fieldAt bs 8 4) }
  let ieee := [0x01, 0x02, 0x03].contains c.ofmt
  (c, (opKOf c.afmt).isSome && (opKOf c.bfmt).isSome && opKOf c.afmt == opKOf c.bfmt &&
    (Fmt.ofCode c.ofmt).isSome && c.ofmt != 0x00 && c.ofmt != 0x50 && decide (-512 ≤ c.anchor) && decide (c.anchor ≤ 511) &&
    (fieldOf c.flags 1 2 == 0 || ieee) && c.flags / 8 == 0 && zeroFrom bs 6 2 && zeroFrom bs 12 20)

/-- The 32 bytes of a context, as MSAVE writes them (R251, R259); zeros when it is unset. -/
def ctxBytes : Option FmtCtx → List Byte
  | none => List.replicate 32 0
  | some c => layout 32 [(0, 1, c.afmt), (1, 1, c.bfmt), (2, 1, c.ofmt), (3, 1, c.flags), (4, 2, codeOf 16 c.anchor), (8, 4, c.dseed.toNat)]

/-- The current task, or its piece, holds the core's tiles (R26). -/
def State.ownsTiles (s : State) : Bool :=
  let k := s.core s.me.loc.core
  k.mowner == s.me.task && k.mpiece == s.me.piece

/-- Park while another task holds the tiles (R252), before step 1 of R248; a thread group of no task takes tiles that nobody holds as they
stand (log 133). -/
def State.withTiles (s : State) (f : State → State) : State :=
  if s.me.wake = some .ended then s.advance
  else if (s.core s.me.loc.core).mowner = 0 ∨ s.ownsTiles = true then f s
  else if s.me.k10 then s.advance
  else s.park 6 0

/-- The format context as the current task sees it. -/
def State.myCtx (s : State) : Option FmtCtx := if s.ownsTiles then (s.core s.me.loc.core).mctx else none

/-- The claim of a task's first major-20 instruction: tiles and context as at dispatch (R41, R252). -/
def State.claimTiles (s : State) : State :=
  if s.ownsTiles then s
  else s.modCore s.me.loc.core (fun c => { c with mowner := s.me.task, mpiece := s.me.piece, a0 := .zero, a1 := .zero, mctx := none })

def State.matFull (s : State) : Bool := decide (4 ≤ (s.matOps s.me.loc.core).length)
def Core.tile (c : Core) (a : Nat) : Tile := if a = 0 then c.a0 else c.a1
def Core.setTile (c : Core) (a : Nat) (t : Tile) : Core := if a = 0 then { c with a0 := t } else { c with a1 := t }

/-- MCFG (R251): the context of the operations that issue after it, each of which snapshots it; MCFG itself takes its place in the
queue (R253). -/
def execMcfg (g : Guard) (a : UReg) (s : State) : Out State :=
  .next (s.withK g fun s => s.withTiles fun s =>
    if s.me.spoison a then s.poisonPc
    else
      let va := s.me.sget a
      s.withSnap false va 32 32 fun s bs =>
        let (c, ok) := parseCtx bs
        if !ok then s.trapFormatAny va
        else s.issueOp .mcfg none [] 0 [] s.matFull none [] fun s =>
          s.claimTiles.modCore s.me.loc.core (fun k => { k with mctx := some c }))

/-- MZERO (R259): in queue order. -/
def execMzero (g : Guard) (d : AReg) (s : State) : Out State :=
  .next (s.withK g fun s => s.withTiles fun s => s.issueOp (.mzero d.val) none [] 0 [] s.matFull none [] State.claimTiles)

/-- MSTAT takes its place in the queue, and the thread group stalls until it has been performed. -/
def State.queueMstat (s : State) (acc : Nat) : State :=
  if s.matFull || !s.logClear s.me.loc then s.stall
  else
    let s := s.claimTiles
    let op := s.mkOp (.mstat acc) none [] 0 [] []
    ({ s.bump with ops := s.ops ++ [op] }.modMe (fun g => { g with phase := { g.phase with req := some op.id } })).stall

/-- MSTAT (R259): after every earlier operation of the queue; at once where the queue is empty. -/
def execMstat (g : Guard) (d : UReg) (a : AReg) (s : State) : Out State :=
  .next (s.withK g fun s => s.withTiles fun s =>
    match kfind 0 s.me.phase.acc with
    | some (bs, _) => (s.setS d (BitVec.ofNat 64 (natOf bs)) false).advance
    | none =>
      if s.me.phase.req.isSome then s.stall
      else if s.matOps s.me.loc.core ≠ [] then s.queueMstat a.val
      else
        let s := s.claimTiles
        (s.setS d (BitVec.ofNat 64 ((s.core s.me.loc.core).tile a.val).status) false).advance)

/-- A queued MSTAT is performed: its thread group takes the status when it next executes. -/
def State.runMstat (s : State) (o : EngOp) (acc : Nat) : State :=
  let st := bytesOf 8 ((s.core o.core).tile acc).status
  let s := s.endOp o.id
  match o.tg with
  | some t => s.modTg t (fun g => if g.phase.req = some o.id then { g with phase := { g.phase with req := none, acc := [(0, st, [])] } } else g)
  | none => s

/-! ### MMA and MMAS (R255, R256) -/

/-- The origin of the tag at an index of a ring, and its map's address; a poisoned word of the tag kills the task at that word (R248,
R335). -/
def State.withTag (s : State) (r : Ring) (c : ClId) (i : Nat) (k : State → W64 × List Byte → State) : State :=
  let a := r.tagAddr c i
  match (List.range 4).find? (fun n => isPoisoned s.poison (a + 4 * n) 4) with
  | some n => s.killMe kPOISON (BitVec.ofNat 64 (a + 4 * n))
  | none =>
    let bs := memBytes s.mem a 16
    k s (word8 bs 0, bs.drop 8)

/-- The check of one slot's tag (R255 step 6): reason 1, then reason 2. -/
def tagBad (m : TMap) (fmt rows cols slotBytes : Nat) : Option Nat :=
  if m.format ≠ fmt then some 1
  else if !m.valid || decide (slotBytes < tileSize m.fmt [cols, rows, 1, 1]) then some 2
  else none

/-- The step-5 wait for a committed slot of two rings (R255, R266). -/
def State.waitTwo (s : State) (a b : Ring) (f : State → State) : State :=
  let lack := if a.committed = 0 then a else b
  s.waitFor 6 lack.desc (a.committed != 0 && b.committed != 0) f

/-- Issue of a matrix multiplication that has passed its checks: both slots are claimed (R262, R264). -/
def State.issueMma (s : State) (kind : EKind) (a b : Ring) (tags : List Byte) (maps : List TMap)
    (handles : List Nat) : State :=
  let c := s.me.loc.core.cluster
  s.issueOp kind none tags 0 maps s.matFull none handles fun s =>
    ((s.claimTiles.modRing c a.asid s.me.part a.desc (Ring.claimR 1)).modRing c b.asid s.me.part b.desc (Ring.claimR 1))

/-- MMA (R255). A trap for the format context names ring A and its handle, for want of a structure of its own (log 18). -/
def execMma (g : Guard) (d : AReg) (a b : HReg) (s : State) : Out State :=
  .next (s.withK g fun s => s.withTiles fun s => s.withRing a.val fun s ra => s.withRing b.val fun s rb =>
    let c := s.me.loc.core.cluster
    if !(ra.rd.tagged && ra.rd.matrix) then s.trapRing ra.desc 6 a.val
    else if !(rb.rd.tagged && rb.rd.matrix) then s.trapRing rb.desc 6 b.val
    else if ra.desc == rb.desc then s.trapRing ra.desc 7 a.val
    else match s.myCtx with
      | none => s.trapFormat ra.desc 4 a.val
      | some ctx => s.waitTwo ra rb fun s => s.withTag ra c ra.r fun s ta => s.withTag rb c rb.r fun s tb =>
        let k := (opKOf ctx.afmt).getD 0
        s.withMap ta.1 fun s ma =>
          match tagBad ma ctx.afmt 128 k ra.rd.slotBytes with
          | some why => s.trapFormat ta.1 why a.val
          | none => s.withMap tb.1 fun s mb =>
            match tagBad mb ctx.bfmt 128 k rb.rd.slotBytes with
            | some why => s.trapFormat tb.1 why b.val
            | none => s.issueMma (.mma d.val ctx ra.desc rb.desc ra.r rb.r) ra rb (ta.2 ++ tb.2) [ma, mb] [a.val, b.val])

/-- Formats that MMAS accepts (R256). -/
def mmasFmt (code : Nat) : Bool := [0x10, 0x20, 0x21, 0x30].contains code

/-- MMAS (R256). So does a trap for the formats of the context (log 18). -/
def execMmas (g : Guard) (d : AReg) (a b : HReg) (s : State) : Out State :=
  .next (s.withK g fun s => s.withTiles fun s => s.withRing a.val fun s ra => s.withRing b.val fun s rb =>
    let c := s.me.loc.core.cluster
    if !ra.rd.matrix then s.trapRing ra.desc 6 a.val
    else if !(rb.rd.tagged && rb.rd.matrix) then s.trapRing rb.desc 6 b.val
    else if ra.desc == rb.desc then s.trapRing ra.desc 7 a.val
    else match s.myCtx with
      | none => s.trapFormat ra.desc 4 a.val
      | some ctx =>
        if !(mmasFmt ctx.afmt && mmasFmt ctx.bfmt) then s.trapFormat ra.desc 3 a.val
        else s.waitTwo ra rb fun s => s.withTag rb c rb.r fun s tb =>
          s.withMap tb.1 fun s mb =>
            match tagBad mb ctx.bfmt (rb.rd.slotBytes / 128) 128 rb.rd.slotBytes with
            | some why => s.trapFormat tb.1 why b.val
            | none => s.issueMma (.mmas d.val ctx ra.desc rb.desc ra.r rb.r) ra rb tb.2 [mb] [a.val, b.val])

/-- A tile after products added to its elements; each of the 16,384 elements takes its own list, in any order (R140, R141). -/
def Tile.addAll (t : Tile) (anchor : Int) (prods : Nat → List Fv) : Tile :=
  (List.range 16384).foldl (fun (t : Tile) n =>
    let (el, inex) := (prods n).foldl (fun (x : FxElem × Bool) p =>
      let (e, i) := fxAdd anchor x.1 p
      (e, x.2 || i)) (kget .zero t.elems n, false)
    { t with elems := if el = .zero then kdel n t.elems else kset n el t.elems,
             status := if inex then t.status ||| 1 else t.status,
             found := [] }) t

/-- One element of a tagged slot as its map decodes it (R254). -/
def slotElem (mem : List Host.Cell) (m : TMap) (o : List Nat) (slot : W64) (rows cols r k : Nat) : Fv :=
  let e := [cols, rows, 1, 1]
  let c := [k, r, 0, 0]
  let l := slotLoc m.fmt slot e c
  let code := natOf (memBytes mem l.addr.toNat l.bytes) / 2 ^ l.shift % 2 ^ l.bits
  let scale := (memGet mem (slotScale m.fmt slot e c).toNat).toNat
  m.fmt.decodeElem m.seed (m.index (addC o c)) scale code

/-- The end of a matrix multiplication: the slots are freed and the tile takes its products. -/
def State.finishMma (s : State) (o : EngOp) (acc : Nat) (ra rb : W64) (ia ib : Nat) (t : Tile) : State :=
  let s := s.modCore o.core (fun c => c.setTile acc t)
  (s.endOp o.id).modRing o.cl o.asid o.part ra (Ring.release ia) |>.modRing o.cl o.asid o.part rb (Ring.release ib)

/-- A matrix multiplication that cannot be performed ends, gives its slots back, and kills its task (R249, R256). -/
def State.matKill (s : State) (o : EngOp) (code : Half) (slot : W64) : State := (s.giveBack o).opKill o code slot.toNat none

/-- mma of R255, at completion. A poisoned operand byte kills the task with the slot's address (R249). -/
def State.runMma (s : State) (o : EngOp) (acc : Nat) (ctx : FmtCtx) (a b : W64) (ia ib : Nat) : State :=
  match s.ring o.cl o.asid o.part a, s.ring o.cl o.asid o.part b, o.maps with
  | some ra, some rb, [ma, mb] =>
    let k := (opKOf ctx.afmt).getD 0
    let sa := ra.slotAddr o.cl ia
    let sb := rb.slotAddr o.cl ib
    let bad := fun (m : TMap) (slot : W64) => isPoisoned s.poison slot.toNat (tileSize m.fmt [k, 128, 1, 1])
    if bad ma sa then s.matKill o kPOISON sa
    else if bad mb sb then s.matKill o kPOISON sb
    else
      let oa := coords4 o.pkt 0
      let ob := coords4 o.pkt 8
      let t := ((s.core o.core).tile acc).addAll ctx.anchor (fun n => (List.range k).map (fun q =>
        (slotElem s.mem ma oa sa 128 k (n / 128) q).mul (slotElem s.mem mb ob sb 128 k (n % 128) q)))
      s.finishMma o acc a b ia ib t
  | _, _, _ => s.endOp o.id

/-- A sparse A slot (R256): for each row, its columns and value codes; none when it breaks the layout. -/
def sparseRows (bs : List Byte) (panels : Nat) : Option (List (List (Nat × Nat))) :=
  let ptr := (List.range 129).map (fun i => fieldAt bs (2 * i) 2)
  let nnz := ptr.getD 128 0
  let vals := alignUp 16 (512 + 2 * nnz)
  let col := fun (q : Nat) => fieldAt bs (512 + 2 * q) 2
  let rising := (List.range 128).all (fun i => decide (ptr.getD i 0 ≤ ptr.getD (i + 1) 0))
  if ptr.getD 0 0 ≠ 0 ∨ rising = false ∨ 16384 < nnz ∨ bs.length < vals + nnz then none
  else if (List.range nnz).any (fun q => decide (panels ≤ col q)) then none
  else some ((List.range 128).map (fun i =>
    (List.range (ptr.getD (i + 1) 0 - ptr.getD i 0)).map (fun q => (col (ptr.getD i 0 + q), fieldAt bs (vals + ptr.getD i 0 + q) 1))))

/-- mmas of R256, at completion: A undithered, entries not stored form no product; AUDIT sets SKIPNF. -/
def State.runMmas (s : State) (o : EngOp) (acc : Nat) (ctx : FmtCtx) (a b : W64) (ia ib : Nat) : State :=
  match s.ring o.cl o.asid o.part a, s.ring o.cl o.asid o.part b, o.maps with
  | some ra, some rb, [mb] =>
    let sa := ra.slotAddr o.cl ia
    let sb := rb.slotAddr o.cl ib
    let p := rb.rd.slotBytes / 128
    let bs := memBytes s.mem sa.toNat ra.rd.slotBytes
    let nnz := fieldAt bs 256 2
    let used := alignUp 16 (512 + 2 * nnz) + nnz
    if isPoisoned s.poison sa.toNat 258 || isPoisoned s.poison (sa.toNat + 512) (min used ra.rd.slotBytes - 512) then
      s.matKill o kPOISON sa
    else match sparseRows bs p with
      | none => s.matKill o kADDRESS sa
      | some rows =>
        let audit := bitOf ctx.flags 0
        let read := fun (c : Nat) => audit || rows.any (fun r => r.any (fun x => x.1 == c))
        if (List.range p).any (fun c => read c && isPoisoned s.poison (sb.toNat + 128 * c) 128) then s.matKill o kPOISON sb
        else
          let ob := coords4 o.pkt 0
          let bElem := fun (c j : Nat) => slotElem s.mem mb ob sb p 128 c j
          let t := ((s.core o.core).tile acc).addAll ctx.anchor (fun n => (rows.getD (n / 128) []).map (fun x =>
            ((fmtOf ctx.afmt).decodeElem 0 0 0 x.2).mul (bElem x.1 (n % 128))))
          let skip := audit && rows.any (fun r => (List.range p).any (fun c => !r.any (fun x => x.1 == c) &&
            (List.range 128).any (fun j => !(bElem c j).isFin)))
          s.finishMma o acc a b ia ib { t with status := if skip then t.status ||| 4 else t.status }
  | _, _, _ => s.endOp o.id

/-! ### MDRAIN (R257, R258, R142) -/

/-- The fields of a drain descriptor. -/
structure Drain where
  dmap : W64
  origin : List Nat
  rows : Nat
  cols : Nat
  zero : Bool
  ring : Bool
  ringh : Nat
deriving DecidableEq, Repr

def parseDrain (bs : List Byte) : Drain × Bool :=
  let fl := fieldAt bs 20 1
  let d : Drain := { dmap := word8 bs 0, origin := coords4 bs 8, rows := fieldAt bs 16 2, cols := fieldAt bs 18 2, zero := bitOf fl 0,
                     ring := bitOf fl 1, ringh := fieldAt bs 21 1 }
  (d, fl / 4 == 0 && (d.ring || d.ringh == 0) && zeroFrom bs 22 42)

/-- Step 4 of MDRAIN (R257). -/
def Drain.ok (d : Drain) (ctx : FmtCtx) (m : TMap) : Bool :=
  m.valid && m.format == ctx.ofmt && decide (1 ≤ d.rows) && decide (d.rows ≤ 128) && decide (1 ≤ d.cols) && decide (d.cols ≤ 128) &&
  m.covers d.origin [d.cols, d.rows, 1, 1] && (!m.fmt.isMx || (cAt d.origin 0 % 32 == 0 && d.cols % 32 == 0))

/-- MDRAIN (R258). A trap for the format context names the drain's own descriptor (log 18). -/
def execMdrain (g : Guard) (d : TReg) (a : AReg) (b : UReg) (s : State) : Out State :=
  .next (s.withK g fun s => s.withTiles fun s =>
    if s.me.spoison b then s.poisonPc
    else
      let va := s.me.sget b
      s.withSnap false va 64 64 fun s bs =>
        let (dr, ok) := parseDrain bs
        s.withMap dr.dmap fun s m =>
          let ext := [dr.cols, dr.rows, 1, 1]
          let format := fun (s : State) (k : State → FmtCtx → State) =>
            match s.myCtx with
            | none => s.trapFormatAny va
            | some ctx => if ok && dr.ok ctx m then k s ctx else s.trapFormatAny va
          if dr.ring then
            match s.bound dr.ringh with
            | none => s.trapRing va 1 (dr.ringh % 16)
            | some r =>
              if r.rd.slotBytes < tileSize m.fmt ext then s.trapRing r.desc 9 dr.ringh
              else format s fun s ctx => s.waitFor 5 r.desc (r.free != 0) fun s =>
                s.issueOp (.mdrain a.val ctx bs r.desc r.w) (some d.val) [] va [m] s.matFull none [dr.ringh] fun s =>
                  s.claimTiles.modRing s.me.loc.core.cluster r.asid s.me.part r.desc (Ring.claimW 1)
          else format s fun s ctx =>
            s.issueOp (.mdrain a.val ctx bs 0 0) (some d.val) [] va [m] s.matFull (some ([], m.ranges dr.origin ext)) [] State.claimTiles)

/-- The codes of a drained region, its MX scales, and the status bits that it sets (R142, R258). -/
def drainCodes (t : Tile) (ctx : FmtCtx) (m : TMap) (d : Drain) : (Nat → Nat → Nat × Bool) × (Nat → Nat → Nat × Bool) × Nat :=
  let f := m.fmt
  let val := fun (i j : Nat) => fxDrain ctx.anchor (kget .zero t.elems (128 * i + j))
  let pois := fun (i j : Nat) => t.pois.contains (128 * i + j)
  let blk := fun (i q : Nat) => (List.range 32).map (fun k => (val i (32 * q + k)).1)
  let scale := fun (i q : Nat) => (mxScale f (blk i q), (List.range 32).any (fun k => pois i (32 * q + k)))
  let enc := fun (i j : Nat) =>
    let idx := m.index (addC d.origin [j, i, 0, 0])
    if f.isMx then mxEncodeElem f (scale i (j / 32)).1 ctx.dseed idx (val i j).1
    else f.encodeElem ctx.rnd ctx.dseed idx (val i j).1
  let cells := (List.range d.rows).flatMap (fun i => (List.range d.cols).map (fun j => (i, j)))
  let st := (if cells.any (fun c => (val c.1 c.2).2) then 2 else 0) ||| (if cells.any (fun c => (enc c.1 c.2).over_) then 8 else 0)
  (fun i j => ((enc i j).code, if f.isMx then (scale i (j / 32)).2 else pois i j), scale, st)

/-- Where the drain writes: the map's storage, or the claimed slot in the layout of R270 with its tag. -/
def drainWrites (m : TMap) (d : Drain) (slot : Option W64) (codes scales : Nat → Nat → Nat × Bool) : List BW :=
  let ext := [d.cols, d.rows, 1, 1]
  let elems := (List.range d.rows).flatMap (fun i => (List.range d.cols).flatMap (fun j =>
    let l := match slot with
      | some sl => slotLoc m.fmt sl ext [j, i, 0, 0]
      | none => m.loc (addC d.origin [j, i, 0, 0])
    locWrite l (codes i j).1 (codes i j).2))
  let sc := if m.fmt.isMx then
      (List.range d.rows).flatMap (fun i => (List.range (blocksOf d.cols)).flatMap (fun q =>
        let a := match slot with
          | some sl => slotScale m.fmt sl ext [32 * q, i, 0, 0]
          | none => m.scaleAddr (addC d.origin [32 * q, i, 0, 0])
        bytesWrite a.toNat [BitVec.ofNat 8 (scales i q).1] (scales i q).2))
    else []
  elems ++ sc

/-- The region's elements zeroed after reading (R257 ZERO). -/
def Tile.zeroRegion (t : Tile) (rows cols : Nat) : Tile :=
  let inR := fun (n : Nat) => decide (n / 128 < rows) && decide (n % 128 < cols)
  { t with elems := t.elems.filter (fun x => !inR x.1), pois := t.pois.filter (fun n => !inR n),
           found := t.found.filter (fun n => !inR (n % 2 ^ 20)) }

/-- MDRAIN reads its tile, and leaves the queue (R258). -/
def State.readDrain (s : State) (o : EngOp) (acc : Nat) (ctx : FmtCtx) (desc : List Byte) (ring : W64) (idx : Nat) : State :=
  match o.maps with
  | [m] =>
    let (d, _) := parseDrain desc
    let t := (s.core o.core).tile acc
    let (codes, scales, st) := drainCodes t ctx m d
    let t' := { (if d.zero then t.zeroRegion d.rows d.cols else t) with status := t.status ||| st }
    let ws :=
      match (if d.ring then s.ring o.cl o.asid o.part ring else none) with
      | some r => drainWrites m d (some (r.slotAddr o.cl idx)) codes scales ++
          (if r.rd.tagged then bytesWrite (r.tagAddr o.cl idx) (tagBytes d.dmap d.origin) false else [])
      | none => if d.ring then [] else drainWrites m d none codes scales
    { (s.modCore o.core (fun c => c.setTile acc t')) with
      ops := updFirst (fun x => x.id == o.id) (fun x => { x with out := some ws }) s.ops }
  | _ => s.endOp o.id

/-- What MDRAIN has read is written, and its slot lands (R258, R264). -/
def State.writeDrain (s : State) (o : EngOp) (ws : List BW) : State :=
  s.engCommit o ws fun s =>
    match o.kind with
    | .mdrain _ _ desc ring idx =>
      if (parseDrain desc).1.ring then (s.endOp o.id).modRing o.cl o.asid o.part ring (Ring.land idx) else s.endOp o.id
    | _ => s.endOp o.id

/-! ### MSAVE and MLOAD (R259) -/

def saveBytes : Nat := 327744

/-- Step 2 of MSAVE and MLOAD: the area is not read at issue. -/
def State.withArea (s : State) (write : Bool) (b : UReg) (f : State → W64 → State) : State :=
  if s.me.spoison b then s.poisonPc
  else
    let va := s.me.sget b
    match addrCheck s.mode s.me.super write va.toNat saveBytes with
    | .address => s.trap cADDRESS va 0
    | .priv => s.trap cPRIV va 0
    | .ok => if va.toNat % 128 ≠ 0 then s.trap cALIGN va 0 else f s va

def execMsave (g : Guard) (d : TReg) (a : AReg) (b : UReg) (s : State) : Out State :=
  .next (s.withK g fun s => s.withTiles fun s => s.withArea true b fun s va =>
    s.issueOp (.msave a.val s.myCtx va) (some d.val) [] va [] s.matFull (some ([], [(va.toNat, va.toNat + saveBytes)])) [] State.claimTiles)

def execMload (g : Guard) (d : TReg) (a : AReg) (b : UReg) (s : State) : Out State :=
  .next (s.withK g fun s => s.withTiles fun s => s.withArea false b fun s va =>
    s.issueOp (.mload a.val va) (some d.val) [] va [] s.matFull (some ([(va.toNat, va.toNat + saveBytes)], [])) [] State.claimTiles)

def FxTag.code : FxTag → Nat
  | .none_ => 0 | .posInf => 1 | .negInf => 2 | .nan => 3
def FxTag.ofCode : Nat → FxTag
  | 0 => .none_ | 1 => .posInf | 2 => .negInf | _ => .nan

/-- The bytes of an element, and of its control word (R259). -/
def FxElem.xBytes (e : FxElem) : List Byte := bytesOf 16 e.x.toNat
def FxElem.ctl (e : FxElem) : Nat := e.count + b2n e.large 20 + e.tag.code * 2 ^ 21

/-- A tile in the MSAVE layout at an address. -/
def tileWrites (va : Nat) (t : Tile) (ctx : Option FmtCtx) : List BW :=
  (List.range 16384).flatMap (fun n => bytesWrite (va + 16 * n) (kget .zero t.elems n).xBytes (t.pois.contains n)) ++
  (List.range 16384).flatMap (fun n => bytesWrite (va + 0x40000 + 4 * n) (bytesOf 4 (kget .zero t.elems n).ctl) (t.pois.contains n)) ++
  bytesWrite (va + 0x50000) (bytesOf 4 t.status) false ++ bytesWrite (va + 0x50020) (ctxBytes ctx) false

/-- A tile from an area's bytes: an element is poisoned when a byte of its two words is. A poisoned status word counts as it reads (log
134). -/
def parseTile (bs : List (Byte × Bool)) : Tile :=
  let at_ := fun (off n : Nat) => numOf ((bs.drop off).take n)
  let el := fun (n : Nat) =>
    let (x, px) := at_ (16 * n) 16
    let (c, pc) := at_ (0x40000 + 4 * n) 4
    (({ x := BitVec.ofNat 128 x, count := fieldOf c 0 20, large := bitOf c 20, tag := FxTag.ofCode (fieldOf c 21 2) } : FxElem), px || pc)
  { elems := ((List.range 16384).map (fun n => (n, (el n).1))).filter (fun x => x.2 != .zero),
    status := (at_ 0x50000 4).1 % 16, pois := (List.range 16384).filter (fun n => (el n).2), found := [] }

def State.runMload (s : State) (o : EngOp) (acc : Nat) (va : W64) : State :=
  match s.readBytes o.agent va.toNat saveBytes with
  | .ok bs =>
    let s := s.noteReads o.agent ((List.range saveBytes).map (va.toNat + ·))
    (s.modCore o.core (fun c => c.setTile acc (parseTile bs))).endOp o.id
  | .error e => s.engFail o e

/-! ### The queue's steps (R253) -/

/-- The oldest matrix operation of a core. -/
def State.matHead (s : State) (c : CoreId) : Option EngOp := (s.matOps c).head?

def EngOp.isMma (o : EngOp) : Bool := match o.kind with | .mma .. => true | _ => false

/-- An operation may start: the head of its core's queue, the 32 cycles between MMAs over, stores under way performed. -/
def State.matMay (s : State) (c : CoreId) : Bool :=
  match s.matHead c with
  | some o => !o.started && o.fault.isNone && s.opReady o &&
      (!o.isMma || decide ((s.cluster c.cluster).mcycle + 32 ≤ s.cycle.toNat))
  | none => false

/-- The core that the unit serves next: round-robin after the one served last (R253). -/
def State.matNext (s : State) (c : ClId) : Option Nat :=
  ((List.range 8).map (fun k => ((s.cluster c).mlast + 1 + k) % 8)).find? (fun k => s.matMay ⟨c.die, c.cl, k⟩)

/-- The head operation of the core that is to be served starts; the step changes nothing when it is not this core's turn. -/
def execMatrixOpStart (c : CoreId) (s : State) : Out State :=
  .next (match s.matHead c with
    | some o =>
      if s.matNext c.cluster = some c.core then
        ({ s with ops := updFirst (fun x => x.id == o.id) (fun x => { x with started := true }) s.ops }.modCluster c.cluster
          (fun k => { k with mlast := c.core, mcycle := if o.isMma then s.cycle.toNat else k.mcycle }))
      else s
    | none => s)

/-- The started operation at the head of a core's queue is performed; one that waits for the supervisor is not (R39). -/
def State.matHeadDone (s : State) (c : CoreId) : State :=
  match s.matHead c with
  | some o =>
    if !o.started || o.fault.isSome then s
    else match o.kind with
      | .mma acc ctx a b i j => s.runMma o acc ctx a b i j
      | .mmas acc ctx a b i j => s.runMmas o acc ctx a b i j
      | .mzero acc => (s.modCore c (fun k => k.setTile acc .zero)).endOp o.id
      | .mdrain acc ctx desc ring idx => s.readDrain o acc ctx desc ring idx
      | .msave acc ctx va =>
        (match s.placeWrites o.agent (tileWrites va.toNat ((s.core c).tile acc) ctx) with
         | .ok xs => (s.areaWrite o.agent xs).endOp o.id
         | .error (.split xs) => s.splitArea o.agent xs
         | .error e => s.engFail o e)
      | .mload acc va => s.runMload o acc va
      | .mcfg => s.endOp o.id
      | .mstat acc => s.runMstat o acc
      | _ => s
  | none => s

/-- MATRIX_OP_COMPLETE: the oldest drain of the core that has read its tile is written, when it need not wait; otherwise the head of the
queue is performed. -/
def execMatrixOpComplete (c : CoreId) (s : State) : Out State :=
  .next (match s.ops.find? (fun o => o.isMat && o.core == c && o.out.isSome && o.fault.isNone &&
      (match o.out with
       | some ws => (match s.placeWrites o.agent ws with
         | .error .stall => false
         | _ => true)
       | none => false)) with
    | some o => s.writeDrain o (o.out.getD [])
    | none => s.matHeadDone c)

end Sys2Proof.Machine
end

