-- ==== Sys2Proof/Machine/Ring.lean ====
section
/-! DEFINITION. Major 21: rings (R261 to R266), and the compact RADVC (R185). -/

namespace Sys2Proof.Machine

open Sys2Proof

/-- Free a handle of the current thread group; an entry to which no handle is bound goes (R262, R263). -/
def State.setHandle (s : State) (h : HReg) (d : W64) : State := s.modMe (fun t => { t with rings := t.rings.set h d })

/-- RDEF (R261, R262, R265). -/
def State.rdef (s : State) (d : HReg) (a : UReg) : State :=
  if s.me.spoison a then s.poisonPc
  else
    let va := s.me.sget a
    let c := s.me.loc.core.cluster
    s.withSnap true va 32 32 fun s bs =>
      let rd := parseRing bs
      if (s.bound d.val).isSome then s.trapRing va 2 d.val
      else if !rd.valid c.die then s.trapRing va 3 d.val
      else if (s.ring c s.me.asid s.me.part va).isSome then (s.setHandle d va).advance
      else if 128 ≤ (s.cluster c).ringCount then s.trapRing va 4 d.val
      else
        let r : Ring := ⟨va, s.me.asid, none, rd, 0, 0, 0, 0, [], []⟩
        ((s.setHandle d va).modCluster c (fun k => { k with rings := k.rings ++ [r] })).advance

def execRdef (g : Guard) (d : HReg) (a : UReg) (s : State) : Out State := .next (s.withK g fun s => s.rdef d a)

/-- Steps 1 and 3 of R248 for a count n: a poisoned count, an unbound handle, a count above SLOTS or above what `room` allows. -/
def State.withCount (s : State) (h : HReg) (poison : Bool) (n : Nat) (room : Ring → Nat) (k : State → Ring → State) : State :=
  if poison then s.poisonPc
  else s.withRing h.val fun s r => if r.rd.slots < n ∨ room r < n then s.trapRing r.desc 5 h.val else k s r

/-- RWFULL and RWFREE (R263, R266): a count of zero completes at once. -/
def State.ringWait (s : State) (h : HReg) (a : UReg) (kind : Nat) (have_ : Ring → Nat) : State :=
  let n := (s.me.sget a).toNat
  s.withCount h (s.me.spoison a) n (fun _ => n) fun s r =>
    if n = 0 then s.advance else s.waitFor kind r.desc (decide (n ≤ have_ r)) State.advance

def execRwfull (g : Guard) (d : HReg) (a : UReg) (s : State) : Out State := .next (s.withK g fun s => s.ringWait d a 6 Ring.committed)
def execRwfree (g : Guard) (d : HReg) (a : UReg) (s : State) : Out State := .next (s.withK g fun s => s.ringWait d a 5 Ring.free)

/-- n slots claimed at W and landed. -/
def Ring.produce (n : Nat) (r : Ring) : Ring :=
  (List.range n).foldl (fun (r : Ring) _ => Ring.land r.w { r with w := (r.w + 1) % 65536 }) r
/-- n slots claimed at R and freed. -/
def Ring.consume (n : Nat) (r : Ring) : Ring :=
  (List.range n).foldl (fun (r : Ring) _ => Ring.release r.r { r with r := (r.r + 1) % 65536 }) r

/-- RADVP (R263): a release at CLUSTER scope, then the claim. -/
def execRadvp (g : Guard) (d : HReg) (a : UReg) (s : State) : Out State :=
  .next (s.withK g fun s =>
    let n := (s.me.sget a).toNat
    s.withCount d (s.me.spoison a) n Ring.free fun s r =>
      if n = 0 then s.advance
      else s.afterFence .cluster fun s => (s.modRing s.me.loc.core.cluster r.asid s.me.part r.desc (Ring.produce n)).advance)

/-- RADVC of n slots (R263). -/
def State.ringAdvance (s : State) (h : HReg) (poison : Bool) (n : Nat) : State :=
  s.withCount h poison n Ring.committed fun s r => (s.modRing s.me.loc.core.cluster r.asid s.me.part r.desc (Ring.consume n)).advance

def execRadvc (g : Guard) (d : HReg) (a : UReg) (s : State) : Out State :=
  .next (s.withK g fun s => s.ringAdvance d (s.me.spoison a) (s.me.sget a).toNat)

/-- C.RADVC: the count is B3 + 1 (R185). -/
def execCRadvc (d : CReg) (n : BitVec 3) (s : State) : Out State := .next (s.ringAdvance d false (n.toNat + 1))

/-- RSLOT and RSLOTC (R263, R265): the window address of the slot n past W or R. -/
def State.ringSlot (s : State) (d : UReg) (h : HReg) (b : UReg) (room base : Ring → Nat) : State :=
  if s.me.spoison b then s.poisonPc
  else s.withRing h.val fun s r =>
    let n := (s.me.sget b).toNat
    if room r ≤ n then s.trapRing r.desc 5 h.val
    else (s.setS d (r.slotAddr s.me.loc.core.cluster (base r + n)) false).advance

def execRslot (g : Guard) (d : UReg) (a : HReg) (b : UReg) (s : State) : Out State :=
  .next (s.withK g fun s => s.ringSlot d a b Ring.free Ring.w)
def execRslotc (g : Guard) (d : UReg) (a : HReg) (b : UReg) (s : State) : Out State :=
  .next (s.withK g fun s => s.ringSlot d a b Ring.committed Ring.r)

/-- An operation that this thread group issued has not completed and names such a handle (R263). -/
def State.names (s : State) (p : Nat → Bool) : Bool := s.ops.any (fun o => o.tg == some s.me.loc && o.handles.any p)

/-- RUNDEF (R263): waits for the operations of this thread group that named the handle, then unbinds it. -/
def execRundef (g : Guard) (d : HReg) (s : State) : Out State :=
  .next (s.withK g fun s => s.withRing d.val fun s _ =>
    if s.names (fun h => h == d.val) then s.stall
    else ((s.setHandle d 0).dropRings s.me.loc.core.cluster).advance)

end Sys2Proof.Machine
end

