-- ==== Sys2Proof/Machine/Copy.lean ====
section
/-! DEFINITION. Copies and tokens (R250, R267 to R271), and the completion of a copy, its flag and its event (R271, R362). -/

namespace Sys2Proof.Machine

open Sys2Proof

/-! ### Packets (R267) -/

structure CPkt where
  kind : Nat
  flags : Nat
  seq : Nat
  src : W64
  dst : W64
  so : List Nat
  do_ : List Nat
  ext : List Nat
  flagAddr : W64
  flagVal : W64
deriving DecidableEq, Repr

def parsePkt (bs : List Byte) : CPkt :=
  { kind := fieldAt bs 0 2, flags := fieldAt bs 2 2, seq := fieldAt bs 4 4, src := word8 bs 8, dst := word8 bs 16,
    so := coords4 bs 24, do_ := coords4 bs 32, ext := coords4 bs 40, flagAddr := word8 bs 48, flagVal := word8 bs 56 }

/-- The extent at the destination: transposed in its two low dimensions under kind 2 (R269). -/
def swap01 (e : List Nat) : List Nat := [cAt e 1, cAt e 0, cAt e 2, cAt e 3]
def CPkt.dext (p : CPkt) (kind : Nat) : List Nat := if kind = 2 then swap01 p.ext else p.ext

/-- R268 for one map and its region; pad lets the region leave the map. -/
def regionOk (m : TMap) (o e : List Nat) (pad : Bool) : Bool :=
  m.valid && m.format != 0x50 && e.all (· != 0) &&
  (List.range 4).all (fun k => decide (k < m.rank) || (cAt o k == 0 && cAt e k == 1)) && (pad || m.covers o e)

/-- R268 and R269 for a copy between two maps; CPYR has no destination map. -/
def copyOk (kind : Nat) (p : CPkt) (ms : Option TMap) (md : Option TMap) : Bool :=
  (match ms with | some m => regionOk m p.so p.ext m.zeropad | none => true) &&
  (match md with | some m => regionOk m p.do_ (p.dext kind) false | none => true) &&
  (match ms, md with
   | some a, some b =>
     (match kind with
      | 1 => a.format == b.format && (!a.fmt.isMx || (cAt p.so 0 % 32 == 0 && cAt p.do_ 0 % 32 == 0 && cAt p.ext 0 % 32 == 0))
      | 2 => a.format == b.format && decide (2 ≤ a.rank) && decide (2 ≤ b.rank)
      | 3 => (a.format == 0) == (b.format == 0)
      | _ => true)
   | some a, none => !a.fmt.isMx || (cAt p.so 0 % 32 == 0 && cAt p.ext 0 % 32 == 0)
   | _, _ => true)

/-- The part of an extent that lies within the map. -/
def TMap.clip (m : TMap) (o e : List Nat) : List Nat := (List.range 4).map (fun k => min (cAt e k) (m.dim k - cAt o k))

/-- The range-lock ranges of a region: what lies beyond a ZEROPAD map is not touched. -/
def TMap.lockRanges (m : TMap) (o e : List Nat) : List (Nat × Nat) :=
  if (m.clip o e).all (· != 0) then m.ranges o (m.clip o e) else []

/-! ### Elements -/

/-- A source element: its code and scale, each with its poison; a coordinate beyond the map reads zero codes, and decodes as zero under every
kind (R268). -/
structure SrcElem where
  code : Nat
  cp : Bool
  scale : Nat
  sp : Bool
  beyond : Bool
deriving DecidableEq, Repr

def SrcElem.zero : SrcElem := ⟨0, false, 0, false, true⟩

def State.srcElem (s : State) (g : Agent) (m : TMap) (c : List Nat) : Except EFail SrcElem :=
  if m.inside c then do
    let (n, p) ← s.readLoc g (m.loc c)
    if m.fmt.isMx then
      let (b, q) ← s.readByte g (m.scaleAddr c).toNat
      return ⟨n, p, b.toNat, q, false⟩
    else return ⟨n, p, 0, false, false⟩
  else .ok .zero

/-- A decoded element, poisoned by its code or its scale. -/
def SrcElem.value (e : SrcElem) (m : TMap) (c : List Nat) : Fv × Bool :=
  (if e.beyond then .fin false 0 0 else m.fmt.decodeElem m.seed (m.index c) e.scale e.code, e.cp || e.sp)

/-- Where an encoded region goes: into a map's storage, or into a slot in the layout of R270. -/
structure Place where
  at_ : List Nat → Loc
  scale : List Nat → W64

def TMap.place (m : TMap) (o : List Nat) : Place := ⟨fun e => m.loc (addC o e), fun e => m.scaleAddr (addC o e)⟩
def slotPlace (f : Fmt) (slot : W64) (ext : List Nat) : Place := ⟨slotLoc f slot ext, slotScale f slot ext⟩

/-- Encoding of a region's values under a map, from origin o (R125, R129, R130, R136). A block that the region covers in part only
takes a scale that is not given (log 19). -/
def encodeRegion (tick : Nat) (m : TMap) (o e : List Nat) (pl : Place) (val : List Nat → Fv × Bool) : List BW :=
  if m.fmt.isMx then
    let rows := coordsOf [1, cAt e 1, cAt e 2, cAt e 3]
    let b0 := cAt o 0 / 32
    let nb := (cAt o 0 + cAt e 0 + 31) / 32 - b0
    rows.flatMap (fun r => (List.range nb).flatMap (fun q =>
      let cs := ((List.range 32).filter (fun k => decide (cAt o 0 ≤ 32 * (b0 + q) + k) && decide (32 * (b0 + q) + k < cAt o 0 + cAt e 0))).map
        (fun k => [32 * (b0 + q) + k - cAt o 0, cAt r 1, cAt r 2, cAt r 3])
      let vs := cs.map val
      let p := vs.any (·.2)
      let sc := if cs.length = 32 then mxScale m.fmt (vs.map (·.1)) else Config.pick tick (b0 + q) % 256
      (match cs.head? with
       | some c => bytesWrite (pl.scale c).toNat [BitVec.ofNat 8 sc] p
       | none => []) ++
      (cs.zip vs).flatMap (fun x => locWrite (pl.at_ x.1) (mxEncodeElem m.fmt sc m.seed (m.index (addC o x.1)) x.2.1).code p)))
  else
    (coordsOf e).flatMap (fun c =>
      let v := val c
      locWrite (pl.at_ c) (m.fmt.encodeElem .rne m.seed (m.index (addC o c)) v.1).code v.2)

/-- A table of the values of an extent. -/
def tableOf {α : Type} (d : α) (xs : List (List Nat × α)) (c : List Nat) : α := ((xs.find? (fun x => x.1 == c)).map (·.2)).getD d

/-- The source elements of an extent. -/
def State.srcAll (s : State) (g : Agent) (m : TMap) (o e : List Nat) : Except EFail (List (List Nat × SrcElem)) :=
  (coordsOf e).mapM (fun c => do
    let x ← s.srcElem g m (addC o c)
    return (c, x))

/-- Codes moved unchanged, with the scale of each block that starts in the extent (R269 COPY, R270). -/
def verbatim (mx : Bool) (xs : List (List Nat × SrcElem)) (pl : Place) : List BW :=
  xs.flatMap (fun x =>
    locWrite (pl.at_ x.1) x.2.code x.2.cp ++
    (if mx && cAt x.1 0 % 32 == 0 then bytesWrite (pl.scale x.1).toNat [BitVec.ofNat 8 x.2.scale] x.2.sp else []))

/-- A transposing copy: each destination block takes the scale of its source elements; a block whose elements carry different
scales is not written, and of the others any may be (R269, log 20). -/
def transposed (tick : Nat) (m : TMap) (o : List Nat) (xs : List (List Nat × SrcElem)) : List BW × Bool :=
  let ys := xs.map (fun x => (addC o (swap01 x.1), x.2))
  if m.fmt.isMx then
    let key := fun (c : List Nat) => [cAt c 0 / 32, cAt c 1, cAt c 2, cAt c 3]
    let keys := (ys.map (fun y => key y.1)).eraseDups
    let of_ := fun (k : List Nat) => ys.filter (fun y => key y.1 == k)
    let bad := fun (k : List Nat) => (of_ k).any (fun y => y.2.scale != ((of_ k).head?.map (·.2.scale)).getD 0)
    let stop := keys.any bad
    ((keys.zipIdx).flatMap (fun k =>
      if bad k.1 || (stop && Config.pick tick k.2 % 2 == 1) then []
      else
        (match (of_ k.1).head? with
         | some y => bytesWrite (m.scaleAddr y.1).toNat [BitVec.ofNat 8 y.2.scale] ((of_ k.1).any (·.2.sp))
         | none => []) ++
        (of_ k.1).flatMap (fun y => locWrite (m.loc y.1) y.2.code y.2.cp)), stop)
  else (ys.flatMap (fun y => locWrite (m.loc y.1) y.2.code y.2.cp), false)

/-- A tile copied into a ring slot, with its tag (R270). -/
def State.slotTile (s : State) (o : EngOp) (m : TMap) (mapAddr : W64) (so ext : List Nat) (r : Ring) (idx : Nat) :
    Except EFail (List BW) := do
  let xs ← s.srcAll o.agent m so ext
  let tag := if r.rd.tagged then bytesWrite (r.tagAddr o.cl idx) (tagBytes mapAddr so) false else []
  return verbatim m.fmt.isMx xs (slotPlace m.fmt (r.slotAddr o.cl idx) ext) ++ tag

/-- The addresses at which a region's source elements and scales begin. -/
def TMap.reads (m : TMap) (o e : List Nat) : List Nat :=
  (coordsOf e).flatMap (fun c =>
    let x := addC o c
    if m.inside x then (m.loc x).addr.toNat :: (if m.fmt.isMx then [(m.scaleAddr x).toNat] else []) else [])

/-- What a copy reads from other homes is counted, and may leave replicas (R93, R94). -/
def State.noteCopy (s : State) (o : EngOp) : State :=
  match o.maps with
  | m :: _ =>
    let p := parsePkt o.pkt
    (match o.kind with
     | .copy 4 => s
     | _ => s.noteReads o.agent (m.reads p.so p.ext))
  | [] => s

/-- What a copy writes, and whether it stops with status FORMAT (R269). -/
def State.copyData (s : State) (o : EngOp) : Except EFail (List BW × Bool) :=
  let p := parsePkt o.pkt
  match o.kind, o.maps with
  | .copy 1, [ms, md] => do
    let xs ← s.srcAll o.agent ms p.so p.ext
    return (verbatim ms.fmt.isMx xs (md.place p.do_), false)
  | .copy 2, [ms, md] => do
    let xs ← s.srcAll o.agent ms p.so p.ext
    return transposed s.free md p.do_ xs
  | .copy 3, [ms, md] => do
    let xs ← s.srcAll o.agent ms p.so p.ext
    if ms.format = 0 then return (verbatim false xs (md.place p.do_), false)
    else
      let vs := xs.map (fun x => (x.1, x.2.value ms (addC p.so x.1)))
      return (encodeRegion s.free md p.do_ p.ext (md.place p.do_) (tableOf (.fin false 0 0, false) vs), false)
  | .copy 4, [md] =>
    .ok ((coordsOf p.ext).flatMap (fun c =>
      locWrite (md.loc (addC p.do_ c)) p.src.toNat false ++
      (if md.fmt.isMx then bytesWrite (md.scaleAddr (addC p.do_ c)).toNat [0x7F] false else [])), false)
  | .copyRing ring idx, [ms] =>
    match s.ring o.cl o.asid o.part ring with
    | some r => do
      let ws ← s.slotTile o ms p.src p.so p.ext r idx
      return (ws, false)
    | none => .ok ([], false)
  | _, _ => .ok ([], false)

/-! ### Completion flags (R271) -/

/-- What became of a flag write: performed or skipped; under way to a register as the write with the identifier; waiting for the
supervisor at an address (R39); or held up by a swap or a darning, with no fault (R396, R398). -/
inductive FlagRes where
  | done (written : Bool)
  | sent (id : Nat)
  | wait (va : Nat)
  | stall
deriving DecidableEq, Repr

/-- A store of an engine outside its data: a completion flag (why 1) or a FUTOUT word (why 2). A store that cannot be performed is
skipped with a FLAG_FAULT event that carries `shown` (R271, R377, R454); one to a register travels as a write (R24). -/
def State.flagStore (s : State) (g : Agent) (cl : ClId) (aligned : Bool) (va shown : W64) (bs : List Byte) (poison : Bool) (why : Nat) :
    State × FlagRes :=
  let skip := fun (s : State) => (s.post 0x113 cl.die cl.cl g.asid [(24, 8, shown.toNat), (32, 1, why)], FlagRes.done false)
  let a := va.toNat
  if !aligned || a % 8 != 0 || addrCheck s.mode g.super true a bs.length != .ok then skip s
  else if isWindow a && decide (2 < (winOf a).kind) then
    let e : StEnt := ⟨nobodyAt ⟨cl.die, cl.cl, 0⟩, 0, g.super, g.asid, va, .store, bs, poison, false, s.seq⟩
    let w : Wr := ⟨s.seq, cl.die, e, false, a, none, 128, s.sup.rtGen, false, [], false, none, false, false⟩
    ({ s.bump with wrs := s.wrs ++ [w] }, .sent s.seq)
  else
    let g := { g with task := 0, tg := none }
    match s.placeWrites g (bytesWrite a bs poison) with
    | .ok xs => (s.engWrite g xs, .done true)
    | .error (.replay v) => (s, .wait v)
    | .error .stall => (s, .stall)
    | .error (.fatal v (some pa)) => skip (s.misplaced g.asid ⟨cl.die, cl.cl, 0⟩ v pa)
    | .error _ => skip s

/-- The value that a completion flag receives (R271). -/
def flagWord (val : W64) (st : Nat) : W64 := if st = 0 then val else BitVec.ofNat 64 (2 ^ 63 + st)

/-- The event of a copy packet (R271, R454). -/
def State.pktEvent (s : State) (g : Agent) (cl : ClId) (p : CPkt) (pktAddr : W64) (st : Nat) (written : Bool) : State :=
  if bitOf p.flags 2 then
    s.post 0x101 cl.die cl.cl g.asid [(16, 1, st), (24, 8, if bitOf p.flags 0 then p.flagAddr.toNat else 0),
      (32, 8, if written then (flagWord p.flagVal st).toNat else 0), (40, 8, pktAddr.toNat)]
  else s

/-- The completion flag and the event of a copy packet (R271, R454): the event when the flag has been written or skipped. -/
def State.signalPkt (s : State) (g : Agent) (cl : ClId) (p : CPkt) (pktAddr : W64) (st : Nat) : State × FlagRes :=
  if bitOf p.flags 0 then
    match s.flagStore g cl true p.flagAddr p.flagAddr (bytesOf 8 (flagWord p.flagVal st).toNat) false 1 with
    | (s, .done w) => (s.pktEvent g cl p pktAddr st w, .done w)
    | r => r
  else (s.pktEvent g cl p pktAddr st false, .done false)

/-- The packet of a queue is complete (R274, R376). -/
def State.endPkt (s : State) (id : Nat) : State := ({ s with pkts := s.pkts.filter (fun k => k.id != id) } : State).forgetWords (.pkt id)

/-- An operation of a copy is complete: its lock and its token, then its queue's entry (R109, R110). -/
def State.closeCopy (s : State) (o : EngOp) : State :=
  let s := s.endOp o.id
  if o.queue.isSome then s.endPkt o.index else s

/-- A packet's range-lock entry goes before its completion flag is sent (R362); a thread's stays until its token falls (R110). -/
def State.openLock (s : State) (o : EngOp) : State :=
  if o.queue.isSome then s.modCluster o.cl (fun c => { c with locks := c.locks.filter (fun l => l.op != o.id) }) else s

/-- A copy whose data have ended with a status: its flag, and when that is visible its end (R109, R271). -/
def State.finishCopy (s : State) (id st : Nat) : State :=
  match s.ops.find? (fun o => o.id == id) with
  | none => s
  | some o =>
    let p := parsePkt o.pkt
    match o.flagWr with
    | some w => if s.wrs.any (fun x => x.id == w) then s else (s.pktEvent o.agent o.cl p o.pktAddr st true).closeCopy o
    | none =>
      match (s.openLock o).signalPkt o.agent o.cl p o.pktAddr st with
      | (s, .done _) => s.closeCopy o
      | (s, .sent w) => s.modOp id (fun x => { x with ended := some st, flagWr := some w })
      | (s, .wait va) => (s.opFault id va).modOp id (fun x => { x with ended := some st })
      | (s, .stall) => s.modOp id (fun x => { x with ended := some st })

/-- The data of a copy fail with status ADDRESS: a thread's copy kills its task (R249), and the copy ends with the status (R271, log 60). -/
def State.copyAddress (s : State) (o : EngOp) (code : Half) (va : Nat) (m : Option Nat) : State :=
  let s := match m with | some pa => s.misplaced o.asid ⟨o.cl.die, o.cl.cl, 0⟩ va pa | none => s
  let s := match o.tg with
    | some t => if o.task = 0 then s.killTg t code (BitVec.ofNat 64 va) else s.kill o.task code (BitVec.ofNat 64 va)
    | none => s
  s.finishCopy o.id 1

/-- The data of a copy are written: its completion follows, once they are visible at the scope that its packet names. Bytes for a peer are
visible at SYSTEM scope when the peer has acknowledged them (R271, R402). -/
def State.copyWritten (s : State) (o : EngOp) (st : Nat) (xs : List (Nat × BW)) : State :=
  if bitOf (parsePkt o.pkt).flags 0 && bitOf (parsePkt o.pkt).flags 1 && xs.any (fun x => decide (2 ^ 70 ≤ x.1)) then
    s.modOp o.id (fun x => { x with ended := some st, mark := s.seq })
  else s.finishCopy o.id st

/-- The copy with the identifier completes, when the stores that it must observe are performed and no fault holds it (R39, R108). -/
def State.copyEnd (s : State) (o : EngOp) : State :=
  match o.ended with
  | some st => s.finishCopy o.id st
  | none =>
    let fail := fun (s : State) (e : EFail) =>
      match e with
      | .replay va => s.opFault o.id va
      | .stall => s
      | .fatal va m => s.copyAddress o kADDRESS va m
      | .poisoned va => s.copyAddress o kPOISON va none
      | .check _ va => s.copyAddress o kADDRESS va none
      | e => s.slowStep o.agent e
    match s.copyData o with
    | .error e => fail s e
    | .ok (ws, stop) =>
      match s.placeWrites o.agent ws with
      | .error e => fail s e
      | .ok xs =>
        let s := (s.noteCopy o).useFree.engWrite o.agent xs
        let s := match o.kind with
          | .copyRing ring idx => s.modRing o.cl o.asid o.part ring (Ring.land idx)
          | _ => s
        s.copyWritten o (if stop then 2 else 0) xs

def execCopyComplete (id : Nat) (s : State) : Out State :=
  .next (match s.ops.find? (fun o => o.id == id) with
    | some o =>
      if o.fault.isSome || !s.opReady o then s
      else match o.kind with
        | .copy _ | .copyRing _ _ => s.copyEnd o
        | _ => s
    | none => s)

/-! ### CPY, CPYT, CPYRD, CPYR -/

/-- The three copies between maps (R267, R268, R269). -/
def State.cpy (s : State) (kind : Nat) (d : TReg) (a : UReg) : State :=
  if s.me.spoison a then s.poisonPc
  else
    let va := s.me.sget a
    s.withSnap false va 64 64 fun s bs =>
      let p := parsePkt bs
      s.withMap p.src fun s ms => s.withMap p.dst fun s md =>
        if p.flags / 8 ≠ 0 || !copyOk kind p (some ms) (some md) then s.trapFormatAny va
        else s.issueOp (.copy kind) (some d.val) bs va [ms, md] false
          (some (ms.lockRanges p.so p.ext, md.ranges p.do_ (p.dext kind))) [] id

def execCpy (g : Guard) (d : TReg) (a : UReg) (s : State) : Out State := .next (s.withK g fun s => s.cpy 1 d a)
def execCpyt (g : Guard) (d : TReg) (a : UReg) (s : State) : Out State := .next (s.withK g fun s => s.cpy 2 d a)
def execCpyrd (g : Guard) (d : TReg) (a : UReg) (s : State) : Out State := .next (s.withK g fun s => s.cpy 3 d a)

/-- CPYR (R267, R270): the slot at W is claimed at issue (R264). -/
def State.cpyr (s : State) (d : TReg) (a : HReg) (b : UReg) : State :=
  if s.me.spoison b then s.poisonPc
  else
    let va := s.me.sget b
    s.withSnap false va 64 64 fun s bs =>
      let p := parsePkt bs
      s.withMap p.src fun s ms => s.withRing a.val fun s r =>
        if (Fmt.ofCode ms.format).isSome && decide (r.rd.slotBytes < tileSize ms.fmt p.ext) then s.trapRing r.desc 9 a.val
        else if p.flags / 8 ≠ 0 || !copyOk 1 p (some ms) none then s.trapFormatAny va
        else s.waitFor 5 r.desc (r.free != 0) fun s =>
          s.issueOp (.copyRing r.desc r.w) (some d.val) bs va [ms] false (some (ms.lockRanges p.so p.ext, [])) [a.val]
            (fun s => s.modRing s.me.loc.core.cluster r.asid s.me.part r.desc (Ring.claimW 1))

def execCpyr (g : Guard) (d : TReg) (a : HReg) (b : UReg) (s : State) : Out State := .next (s.withK g fun s => s.cpyr d a b)

/-! ### Tokens (R109, R250) -/

/-- WAITT: a stall until every token of the mask is zero. -/
def State.waitTokens (s : State) (m : Byte) : State :=
  if (List.range 8).all (fun t => !m.getLsbD t || s.me.tokOf t == 0) then s.advance else s.stall

def execWaitt (g : Guard) (m : Byte) (s : State) : Out State := .next (s.withK g fun s => s.waitTokens m)
def execCWaitt (m : Byte) (s : State) : Out State := .next (s.waitTokens m)
def execTokrd (g : Guard) (d : UReg) (a : TReg) (s : State) : Out State :=
  .next (s.withK g fun s => (s.setS d (BitVec.ofNat 64 (s.me.tokOf a.val)) false).advance)

end Sys2Proof.Machine
end

