-- ==== Sys2Proof/Machine/Gather.lean ====
section
/-! DEFINITION. Major 23: gather streams (R276 to R278), and the step by which a slot of a stream lands. -/

namespace Sys2Proof.Machine

open Sys2Proof

/-- A gather descriptor (R276). -/
structure GDesc where
  smap : W64
  gmap : W64
  idx : W64
  count : Nat
  c0 : Nat
  width : Nat
  rps : Nat
  o2 : Nat
  o3 : Nat
  reservedOk : Bool
deriving DecidableEq, Repr

def parseGather (bs : List Byte) : GDesc :=
  { smap := word8 bs 0, gmap := word8 bs 8, idx := word8 bs 16, count := fieldAt bs 24 4, c0 := fieldAt bs 28 2,
    width := fieldAt bs 30 2, rps := fieldAt bs 32 2, o2 := fieldAt bs 34 2, o3 := fieldAt bs 36 2, reservedOk := zeroFrom bs 38 26 }

/-- The rows of one slot. -/
def GDesc.slotExt (d : GDesc) : List Nat := [d.width, d.rps, 1, 1]

/-- Step 4 of GSTART (R276): the cases that the rule lists, and a breach of its table, as the kinds of R268 have them (log 21). -/
def GDesc.ok (d : GDesc) (ms mg : TMap) : Bool :=
  ms.valid && mg.valid && ms.format != 0x50 && mg.format != 0x50 && (ms.format == 0) == (mg.format == 0) &&
  decide (2 ≤ ms.rank) && decide (1 ≤ d.count) && decide (d.count ≤ 2 ^ 24) && decide (1 ≤ d.rps) && decide (1 ≤ d.width) &&
  d.idx.toNat % 4 == 0 && decide (d.width ≤ mg.dim 0) && decide (d.count ≤ mg.dim 1) &&
  (ms.zeropad || (decide (d.c0 + d.width ≤ ms.dim 0) && decide (d.o2 < ms.dim 2) && decide (d.o3 < ms.dim 3))) &&
  (!(ms.fmt.isMx || mg.fmt.isMx) || (d.c0 % 32 == 0 && d.width % 32 == 0)) && d.reservedOk

/-- A stream of the thread group on a token. -/
def EngOp.isStream (t : TgRef) (k : Nat) (o : EngOp) : Bool :=
  o.tg == some t && o.tok == some k && (match o.kind with
    | .gather .. => true
    | _ => false)

/-- Streams of a cluster's gather engine. -/
def State.streams (s : State) (c : ClId) : Nat :=
  (s.ops.filter (fun o => o.cl == c && (match o.kind with
    | .gather .. => true
    | _ => false))).length

/-- GSTART (R276, R282). A slot too small comes before a token in use, which gives the descriptor's address and the ring's handle (log 140). -/
def State.gstart (s : State) (d : TReg) (a : HReg) (b : UReg) : State :=
  if s.me.spoison b then s.poisonPc
  else
    let va := s.me.sget b
    s.withSnap false va 64 64 fun s bs =>
      let g := parseGather bs
      s.withMap g.smap fun s ms => s.withMap g.gmap fun s mg => s.withRing a.val fun s r =>
        if (Fmt.ofCode mg.format).isSome && decide (r.rd.slotBytes < tileSize mg.fmt g.slotExt) then s.trapRing r.desc 9 a.val
        else if s.ops.any (EngOp.isStream s.me.loc d.val) then s.trapRing va 10 a.val
        else if !g.ok ms mg then s.trapFormatAny va
        else s.issueOp (.gather r.desc bs 0 false none) (some d.val) bs va [ms, mg] (decide (8 ≤ s.streams s.me.loc.core.cluster))
          (some (ms.lockRanges [g.c0, 0, g.o2, g.o3] [g.width, ms.dim 1, 1, 1] ++ [(g.idx.toNat, g.idx.toNat + 4 * g.count)], []))
          [a.val] (fun s => s.modMe (fun t => { t with gstat := kdel d.val t.gstat }))

def execGstart (g : Guard) (d : TReg) (a : HReg) (b : UReg) (s : State) : Out State := .next (s.withK g fun s => s.gstart d a b)

/-- What GSTAT shows: rows landed and the state (R278). -/
def gstatWord (rows st : Nat) : W64 := BitVec.ofNat 64 (rows % 2 ^ 32 + st * 2 ^ 32)

/-- A stream ends, done (3) or stopped (4). -/
def State.endStream (s : State) (o : EngOp) (rows st : Nat) : State :=
  let s := s.endOp o.id
  match o.tg, o.tok with
  | some t, some k => s.modTg t (fun g => { g with gstat := kset k (gstatWord rows st) g.gstat })
  | _, _ => s

/-- GSTOP (R278): at once between slots, otherwise after the slot that has started. -/
def State.gstop (s : State) (t : TgRef) (k : Nat) : State :=
  match s.ops.find? (EngOp.isStream t k) with
  | none => s
  | some o => s.stopStream o

def execGstop (g : Guard) (a : TReg) (s : State) : Out State := .next (s.withK g fun s => (s.gstop s.me.loc a.val).advance)

/-- The word of GSTAT (R278): state 2 while the stream has no slot and none is free. -/
def State.gstatOf (s : State) (k : Nat) : W64 :=
  match s.ops.find? (EngOp.isStream s.me.loc k) with
  | some o =>
    (match o.kind with
     | .gather ring _ row _ claimed =>
       let free := match s.ring o.cl o.asid o.part ring with | some r => r.free | none => 0
       gstatWord row (if claimed = none ∧ free = 0 then 2 else 1)
     | _ => 0)
  | none => kget 0 s.me.gstat k

def execGstat (g : Guard) (d : UReg) (a : TReg) (s : State) : Out State :=
  .next (s.withK g fun s => (s.setS d (s.gstatOf a.val) false).advance)

/-! ### A slot of a stream (R277) -/

/-- One row's source elements under its index; none is an index beyond the map, with the address of the index. -/
def State.gatherRow (s : State) (g : Agent) (d : GDesc) (ms : TMap) (j : Nat) : Except EFail (List SrcElem) := do
  let at_ := d.idx.toNat + 4 * j
  let bs ← s.readBytes g at_ 4
  let (i, p) := numOf bs
  if !ms.zeropad && decide (ms.dim 1 ≤ i) then throw (.check cADDRESS at_)
  else
    (List.range d.width).mapM (fun k => do
      let e ← s.srcElem g ms [d.c0 + k, i, d.o2, d.o3]
      return { e with cp := e.cp || p, sp := e.sp || p })

/-- The source row that index j names. -/
def State.gatherIdx (s : State) (g : Agent) (d : GDesc) (j : Nat) : Nat :=
  match s.readBytes g (d.idx.toNat + 4 * j) 4 with
  | .ok bs => (numOf bs).1
  | .error _ => 0

/-- The addresses that one slot's rows are read from: the indices, then the elements. -/
def State.gatherReads (s : State) (g : Agent) (d : GDesc) (ms : TMap) (row : Nat) : List Nat :=
  (List.range (min d.rps (d.count - row))).flatMap (fun q =>
    (d.idx.toNat + 4 * (row + q)) :: ms.reads [d.c0, s.gatherIdx g d (row + q), d.o2, d.o3] [d.width, 1, 1, 1])

/-- What one slot receives: its rows, zero rows past the last index, and its tag. -/
def State.gatherData (s : State) (o : EngOp) (d : GDesc) (ms mg : TMap) (r : Ring) (row idx : Nat) : Except EFail (List BW) := do
  let slot := r.slotAddr o.cl idx
  let n := min d.rps (d.count - row)
  let pl := slotPlace mg.fmt slot d.slotExt
  let rows ← (List.range n).mapM (fun q => s.gatherRow o.agent d ms (row + q))
  let el := fun (c : List Nat) => ((rows.getD (cAt c 1) []).getD (cAt c 0) .zero)
  let ext := [d.width, n, 1, 1]
  let data :=
    if mg.format = 0 then (coordsOf ext).flatMap (fun c => locWrite (pl.at_ c) (el c).code (el c).cp)
    else encodeRegion s.free mg [0, row, 0, 0] ext pl
      (fun c => (el c).value ms [d.c0 + cAt c 0, s.gatherIdx o.agent d (row + cAt c 1), d.o2, d.o3])
  let pad := (coordsOf d.slotExt).flatMap (fun c =>
    if cAt c 1 < n then []
    else locWrite (pl.at_ c) 0 false ++ (if mg.fmt.isMx && cAt c 0 % 32 == 0 then bytesWrite (pl.scale c).toNat [0] false else []))
  let tag := if r.rd.tagged then bytesWrite (r.tagAddr o.cl idx) (tagBytes d.gmap [0, row, 0, 0]) false else []
  return data ++ pad ++ tag

/-- The next slot of a stream: claimed at W when one is free, filled, and landed; a fault keeps the slot claimed and waits (R39). -/
def State.gatherSlot (s : State) (o : EngOp) (ring : W64) (desc : List Byte) (row : Nat) (stop : Bool) (claimed : Option Nat) : State :=
  match s.ring o.cl o.asid o.part ring, o.maps with
  | some r, [ms, mg] =>
    if claimed = none ∧ r.free = 0 then s
    else
      let d := parseGather desc
      let idx := claimed.getD r.w
      let s := if claimed = none then s.modRing o.cl o.asid o.part ring (Ring.claimW 1) else s
      let keep := fun (s : State) =>
        { s with ops := updFirst (fun x => x.id == o.id) (fun x => { x with kind := .gather ring desc row stop (some idx) }) s.ops }
      match s.gatherData o d ms mg r row idx with
      | .error e => (keep s).engFail o e
      | .ok ws =>
        match s.placeWrites o.agent ws with
        | .error e => (keep s).engFail o e
        | .ok xs =>
          let s : State := (((s.noteReads o.agent (s.gatherReads o.agent d ms row)).useFree.engWrite o.agent xs).modRing o.cl o.asid o.part
            ring (Ring.land idx))
          let next := row + d.rps
          if d.count ≤ next then s.endStream o next 3
          else if stop then s.endStream o next 4
          else { s with ops := updFirst (fun x => x.id == o.id) (fun x => { x with kind := .gather ring desc next false none, words := ⟨[], []⟩ }) s.ops }
  | _, _ => s.endOp o.id

def execGatherSlotLanded (id : Nat) (s : State) : Out State :=
  .next (match s.ops.find? (fun o => o.id == id) with
    | some o =>
      if o.fault.isSome || !s.opReady o then s
      else match o.kind with
        | .gather ring desc row stop claimed => s.gatherSlot o ring desc row stop claimed
        | _ => s
    | none => s)

end Sys2Proof.Machine
end

