-- ==== Sys2Proof/Machine/Reduce.lean ====
section
/-! DEFINITION. Major 26, which gateway cores alone execute (R10): block queues, block addition, selection (R279 to R281, R356, R357,
R364), and the steps of the mangle, of the adder and of the select unit. -/

namespace Sys2Proof.Machine

open Sys2Proof

/-! ### Block queues (R279, R364) -/

/-- A block-queue descriptor. -/
structure BDesc where
  nblk : Nat
  flagAddr : W64
  flagVal : W64
  ok : Bool
deriving DecidableEq, Repr

def parseBq (bs : List Byte) : BDesc :=
  let n := fieldAt bs 0 8
  ⟨n, word8 bs 8, word8 bs 16, zeroFrom bs 24 40 && decide (1 ≤ n) && decide (n ≤ 2 ^ 32)⟩

def State.bq (s : State) (asid : Half) (addr : W64) : Option BQ := s.bqs.find? (fun q => q.addr == addr && q.asid == asid)
def State.modBq (s : State) (asid : Half) (addr : W64) (f : BQ → BQ) : State :=
  { s with bqs := updFirst (fun q => q.addr == addr && q.asid == asid) f s.bqs }

/-- A claim finds no queue and no room for one (R279). -/
def State.bqFull (s : State) (asid : Half) (addr : W64) : Bool := (s.bq asid addr).isNone && decide (64 ≤ s.bqs.length)

/-- The request leaves the core, and the thread group stalls until the mangle answers. -/
def State.askMangle (s : State) (done : Bool) (addr : W64) (d : BDesc) : State :=
  let r : MReq := { id := s.seq, tg := s.me.loc, done := done, addr := addr, asid := s.me.asid, nblk := d.nblk, flagAddr := d.flagAddr,
                    flagVal := d.flagVal, super := s.me.super, answer := none }
  ({ s.bump with mreqs := s.mreqs ++ [r] }.modMe (fun g => { g with phase := { g.phase with req := some r.id } })).stall

/-- The answer to the request of this thread group, once it is there. -/
def State.mangleAnswer (s : State) : Option W64 :=
  (s.mreqs.find? (fun r => s.me.phase.req == some r.id)).bind (·.answer)

def State.dropRequest (s : State) : State :=
  { s with mreqs := s.mreqs.filter (fun r => s.me.phase.req != some r.id) }.modMe (fun g => { g with phase := { g.phase with req := none } })

/-- Steps 2 and 4 of R248 for a block-queue descriptor. -/
def State.withBq (s : State) (a : UReg) (f : State → W64 → BDesc → State) : State :=
  if s.me.spoison a then s.poisonPc
  else
    let va := s.me.sget a
    s.withSnap false va 64 64 fun s bs => if (parseBq bs).ok then f s va (parseBq bs) else s.trapFormatAny va

/-- BQCLAIM: parks while the device holds 64 other queues, in a wait of kind 5 that k10 ends (log 139). -/
def State.bqclaim (s : State) (d a : UReg) : State :=
  if s.me.phase.req.isSome then
    match s.mangleAnswer with
    | some v => (s.dropRequest.setS d v false).advance
    | none =>
      if s.bqFull s.me.asid (s.me.sget a) then s.dropRequest.waitFor 5 (s.me.sget a) false id else s.stall
  else s.withBq a fun s va b => s.waitFor 5 va (!s.bqFull s.me.asid va) fun s => s.askMangle false va b

def execBqclaim (g : Guard) (d a : UReg) (s : State) : Out State := .next (s.withK g fun s => s.bqclaim d a)

/-- BQDONE: a release at DEVICE scope, then the request. -/
def State.bqdone (s : State) (a : UReg) : State :=
  if s.me.phase.req.isSome then
    match s.mangleAnswer with
    | some _ => s.dropRequest.advance
    | none => s.stall
  else s.withBq a fun s va b => s.afterFence .device fun s => s.askMangle true va b

def execBqdone (g : Guard) (a : UReg) (s : State) : Out State := .next (s.withK g fun s => s.bqdone a)

def State.answerMreq (s : State) (id : Nat) (v : W64) : State :=
  { s with mreqs := updFirst (fun r => r.id == id) (fun r => { r with answer := some v }) s.mreqs }

/-- The end of a round: the state goes, and a claim that waits for room looks again. -/
def State.dropBq (s : State) (asid : Half) (addr : W64) : State :=
  let poke := fun (g : TG) =>
    match g.status with
    | .parked 5 _ => { g with wake := g.wake.or (some .go) }
    | _ => g
  { s with bqs := s.bqs.filter (fun q => !(q.addr == addr && q.asid == asid)), me := poke s.me, tgs := s.tgs.map poke }

/-- A request reaches the mangle (R279). -/
def State.mangle (s : State) (r : MReq) : State :=
  if r.answer.isSome then s
  else if r.done then
    match s.bq r.asid r.addr with
    | none => s.answerMreq r.id 0
    | some q =>
      if q.done = q.claimed then s.answerMreq r.id 0
      else if q.done + 1 = r.nblk then
        let g : Agent := ⟨r.tg.core.die, none, r.super, r.asid, some (.mreq r.id), ((s.tgAt r.tg).map (·.task)).getD 0, some r.tg⟩
        if r.flagAddr = 0 then (s.dropBq r.asid r.addr).answerMreq r.id 0
        else match s.flagStore g r.tg.core.cluster true r.flagAddr r.flagAddr (bytesOf 8 r.flagVal.toNat) false 1 with
          | (s, .done _) => (s.dropBq r.asid r.addr).answerMreq r.id 0
          | (s, .sent _) => (s.dropBq r.asid r.addr).answerMreq r.id 0
          | (s, .wait va) => s.engWait (.mreq r.id) r.asid va r.tg.core.cluster
          | (s, .stall) => s
      else (s.modBq r.asid r.addr (fun q => { q with done := q.done + 1 })).answerMreq r.id 0
  else if s.bqFull r.asid r.addr then s
  else
    let s : State := if (s.bq r.asid r.addr).isSome then s else { s with bqs := s.bqs ++ [⟨r.addr, r.asid, 0, 0, 0⟩] }
    let next := match s.bq r.asid r.addr with | some q => q.next | none => 0
    if next < r.nblk then
      (s.modBq r.asid r.addr (fun q => { q with next := q.next + 1, claimed := q.claimed + 1 })).answerMreq r.id (BitVec.ofNat 64 next)
    else s.answerMreq r.id (BitVec.allOnes 64)

def execMangleRequest (id : Nat) (s : State) : Out State :=
  .next (match s.mreqs.find? (fun r => r.id == id) with
    | some r => s.mangle r
    | none => s)

/-! ### Block addition (R280) -/

structure ADesc where
  x : W64
  y : W64
  z : W64
  xo : List Nat
  yo : List Nat
  zo : List Nat
  anchor : Int
  reservedOk : Bool
deriving DecidableEq, Repr

def parseAdd (bs : List Byte) : ADesc :=
  { x := word8 bs 0, y := word8 bs 8, z := word8 bs 16, xo := coords4 bs 24, yo := coords4 bs 32, zo := coords4 bs 40,
    anchor := signedOf 16 (fieldAt bs 48 2), reservedOk := zeroFrom bs 50 14 }

/-- The origin of a block. -/
def blockAt (o : List Nat) (block : Nat) : List Nat := [cAt o 0 + 32 * block, cAt o 1, cAt o 2, cAt o 3]
def blockExt : List Nat := [32, 1, 1, 1]

/-- One map's part of step 4. -/
def addMapOk (m : TMap) (o : List Nat) (block : Nat) : Bool :=
  m.valid && m.format != 0 && m.format != 0x50 && m.covers (blockAt o block) blockExt && (!m.fmt.isMx || cAt o 0 % 32 == 0)

/-- BADDQ (R280, R282). -/
def State.baddq (s : State) (d : TReg) (a b : UReg) : State :=
  if s.me.spoison a || s.me.spoison b then s.poisonPc
  else
    let va := s.me.sget b
    let n := (s.me.sget a).toNat
    s.withSnap false va 64 64 fun s bs =>
      let p := parseAdd bs
      s.withMap p.x fun s mx => s.withMap p.y fun s my => s.withMap p.z fun s mz =>
        if !(addMapOk mx p.xo n && addMapOk my p.yo n && addMapOk mz p.zo n && decide (-512 ≤ p.anchor) && decide (p.anchor ≤ 511) &&
            p.reservedOk) then s.trapFormatAny va
        else s.issueOp (.baddq (s.me.sget a) bs) (some d.val) bs va [mx, my, mz] false
          (some (mx.ranges (blockAt p.xo n) blockExt ++ my.ranges (blockAt p.yo n) blockExt, mz.ranges (blockAt p.zo n) blockExt)) [] id

def execBaddq (g : Guard) (d : TReg) (a b : UReg) (s : State) : Out State := .next (s.withK g fun s => s.baddq d a b)

/-- The 32 results: all 64 source elements are read first; each sum is exact in the accumulator and rounded once (R138, R140). -/
def State.addData (s : State) (o : EngOp) (p : ADesc) (block : Nat) (mx my mz : TMap) : Except EFail (List BW) := do
  let xs ← s.srcAll o.agent mx (blockAt p.xo block) blockExt
  let ys ← s.srcAll o.agent my (blockAt p.yo block) blockExt
  let val := fun (c : List Nat) =>
    let x := (tableOf .zero xs c).value mx (addC (blockAt p.xo block) c)
    let y := (tableOf .zero ys c).value my (addC (blockAt p.yo block) c)
    let acc := (fxAdd p.anchor (fxAdd p.anchor .zero x.1).1 y.1).1
    ((fxDrain p.anchor acc).1, x.2 || y.2)
  return encodeRegion s.free mz (blockAt p.zo block) blockExt (mz.place (blockAt p.zo block)) val

def execBaddqComplete (id : Nat) (s : State) : Out State :=
  .next (match s.ops.find? (fun o => o.id == id) with
    | some o =>
      if o.fault.isSome || !s.opReady o then s
      else match o.kind, o.maps with
        | .baddq block desc, [mx, my, mz] =>
          match s.addData o (parseAdd desc) block.toNat mx my mz with
          | .error e => s.engFail o e
          | .ok ws =>
            let p := parseAdd desc
            s.engCommit o ws (fun s => (s.noteReads o.agent
              (mx.reads (blockAt p.xo block.toNat) blockExt ++ my.reads (blockAt p.yo block.toNat) blockExt)).endOp o.id)
        | _, _ => s
    | none => s)

/-! ### Selection (R281, R356, R357) -/

structure SDesc where
  smap : W64
  iout : W64
  vout : W64
  mout : W64
  ksel : Nat
  reservedOk : Bool
deriving DecidableEq, Repr

def parseSel (bs : List Byte) : SDesc :=
  ⟨word8 bs 0, word8 bs 8, word8 bs 16, word8 bs 24, fieldAt bs 32 2, zeroFrom bs 34 30⟩

/-- Ranked sets, and candidates of each (R356). -/
def selSets (col : Bool) (m : TMap) : Nat := if col then m.dim 0 else m.dim 1
def selCands (col : Bool) (m : TMap) : Nat := if col then m.dim 1 else m.dim 0
def selCoord (col : Bool) (set cand : Nat) : List Nat := if col then [set, cand, 0, 0] else [cand, set, 0, 0]

/-- The byte ranges that a selection writes (R356). -/
def SDesc.outs (d : SDesc) (col : Bool) (m : TMap) : List (Nat × Nat) :=
  let n := selSets col m * d.ksel
  [(d.iout.toNat, d.iout.toNat + 4 * n)] ++ (if d.vout = 0 then [] else [(d.vout.toNat, d.vout.toNat + 4 * n)]) ++
  (if d.mout = 0 then [] else [(d.mout.toNat, d.mout.toNat + (selCands col m + 7) / 8)])

def overlap (a b : Nat × Nat) : Bool := decide (a.1 < b.2) && decide (b.1 < a.2)

/-- No two of the byte ranges overlap, nor a score's bytes with one of them. -/
def SDesc.apart (d : SDesc) (col : Bool) (m : TMap) : Bool :=
  let os := d.outs col m
  (os.zipIdx).all (fun a => (os.zipIdx).all (fun b => a.2 == b.2 || !overlap a.1 b.1)) &&
  (coordsOf [m.dim 0, m.dim 1, 1, 1]).all (fun c =>
    let a := (m.loc c).addr.toNat
    os.all (fun x => !overlap x (a, a + 4)))

/-- Step 4 of TOPKC and TOPKR. -/
def SDesc.ok (d : SDesc) (col : Bool) (m : TMap) : Bool :=
  m.valid && m.format == 1 && m.rank == 2 && decide (m.dim 0 ≤ 128) && decide (m.dim 1 ≤ 4096) && d.iout.toNat % 4 == 0 &&
  d.vout.toNat % 4 == 0 && decide (1 ≤ d.ksel) && decide (d.ksel ≤ 256) && decide (d.ksel ≤ selCands col m) && d.reservedOk &&
  d.apart col m

def State.topk (s : State) (col : Bool) (d : TReg) (a : UReg) : State :=
  if s.me.spoison a then s.poisonPc
  else
    let va := s.me.sget a
    s.withSnap false va 64 64 fun s bs =>
      let p := parseSel bs
      s.withMap p.smap fun s m =>
        if !p.ok col m then s.trapFormatAny va
        else s.issueOp (.topk col bs) (some d.val) bs va [m] false (some (m.ranges [0, 0, 0, 0] [m.dim 0, m.dim 1, 1, 1], p.outs col m))
          [] id

def execTopkc (g : Guard) (d : TReg) (a : UReg) (s : State) : Out State := .next (s.withK g fun s => s.topk true d a)
def execTopkr (g : Guard) (d : TReg) (a : UReg) (s : State) : Out State := .next (s.withK g fun s => s.topk false d a)

/-- The rank of an FP32 code: higher first, zeros equal, NaNs equal and last. -/
def scoreKey (c : Nat) : Int :=
  let m : Nat := c % 2 ^ 31
  if 0x7F800000 < m then -4294967296 else if bitOf c 31 then -(m : Int) else (m : Int)

/-- A candidate put in its place: after those that are no worse. -/
def rankInsert (x : Nat × Nat) : List (Nat × Nat) → List (Nat × Nat)
  | [] => [x]
  | y :: r => if scoreKey y.2 < scoreKey x.2 then x :: y :: r else y :: rankInsert x r

/-- Candidates (index, code) in rank order: equal ones by index. -/
def rankAll (xs : List (Nat × Nat)) : List (Nat × Nat) := xs.foldl (fun l x => rankInsert x l) []

/-- What a selection writes (R249, R281). -/
def State.selData (s : State) (o : EngOp) (col : Bool) (d : SDesc) (m : TMap) : Except EFail (List BW) := do
  let sets ← (List.range (selSets col m)).mapM (fun c => (List.range (selCands col m)).mapM (fun n =>
    s.readLoc o.agent (m.loc (selCoord col c n))))
  let best := sets.map (fun (xs : List (Nat × Bool)) =>
    ((rankAll ((xs.zipIdx).map (fun x => (x.2, x.1.1)))).take d.ksel, xs.any (·.2)))
  let word := fun (base : W64) (f : Nat × Nat → Nat) => (best.zipIdx).flatMap (fun b =>
    ((b.1.1.zipIdx).flatMap (fun x => bytesWrite (base.toNat + 4 * (b.2 * d.ksel + x.2)) (bytesOf 4 (f x.1)) b.1.2)))
  let chosen := fun (n : Nat) => best.any (fun b => b.1.any (fun x => x.1 == n))
  let mask := (List.range ((selCands col m + 7) / 8)).map (fun k =>
    BitVec.ofNat 8 ((List.range 8).foldl (fun acc i => acc + b2n (decide (8 * k + i < selCands col m) && chosen (8 * k + i)) i) 0))
  return word d.iout (·.1) ++ (if d.vout = 0 then [] else word d.vout (·.2)) ++
    (if d.mout = 0 then [] else bytesWrite d.mout.toNat mask (best.any (·.2)))

def EngOp.isSelect (o : EngOp) : Bool := match o.kind with | .topk .. => true | _ => false

/-- The operation that a die's select unit performs: the first to have issued (R357, log 56). -/
def State.selectNext (s : State) (die : Nat) : Option EngOp := s.ops.find? (fun o => o.isSelect && o.cl.die == die)

def execSelectComplete (die : Nat) (s : State) : Out State :=
  .next (match s.selectNext die with
    | some o =>
      let s : State := { s with ops := updFirst (fun x => x.id == o.id) (fun x => { x with started := true }) s.ops }
      if o.fault.isSome || !s.opReady o then s
      else match o.kind, o.maps with
        | .topk col desc, [m] =>
          match s.selData o col (parseSel desc) m with
          | .error e => s.engFail o e
          | .ok ws => s.engCommit o ws (fun s => (s.noteReads o.agent (m.reads [0, 0, 0, 0] [m.dim 0, m.dim 1, 1, 1])).endOp o.id)
        | _, _ => s
    | none => s)

end Sys2Proof.Machine
end

