-- ==== Sys2Proof/Machine/Spawn.lean ====
section
/-! DEFINITION. Creating tasks and promises: the descriptor and its checks (R28 to R32), entries and generations (R59, R358), the
hamper's records (R67, R70 to R73), placement (R12, R34), SPAWN and FNEW (R289 to R291, R298). -/

namespace Sys2Proof.Machine

open Sys2Proof

/-! ### Snapshots under R32 -/

inductive SnapErr where
  | unreadable (a : W64)
  | wait (va : Nat)
  | stall
deriving DecidableEq, Repr

/-- A structure as SPAWN and LAUNCH read it (R32). -/
def State.snapStruct (s : State) (c : ClId) (g : Agent) (cached : Bool) (va : W64) (n al : Nat) : State × Except SnapErr (List Byte) :=
  if va.toNat % al ≠ 0 then (s, .error (.unreadable va))
  else match s.snapRead c g cached va.toNat n with
    | (s, .error (.check _ a)) => (s, .error (.unreadable (BitVec.ofNat 64 a)))
    | (s, .error (.replay a)) => (s, .error (.wait a))
    | (s, .error .stall) | (s, .error (.slow _)) | (s, .error (.split _)) => (s, .error .stall)
    | (s, .error (.fatal a m)) =>
      (match m with | some pa => s.misplaced g.asid ⟨c.die, c.cl, 0⟩ a pa | none => s, .error (.unreadable (BitVec.ofNat 64 a)))
    | (s, .error (.poisoned a)) => (s, .error (.unreadable (BitVec.ofNat 64 a)))
    | (s, .ok bs) =>
      match bs.findIdx? (·.2) with
      | some i => (s, .error (.unreadable (BitVec.ofNat 64 (va.toNat + i / 4 * 4))))
      | none => (s, .ok (bs.map (·.1)))

/-- Fields of the flag word (R29). -/
def fwCount (f : W64) : Nat := fieldOf f.toNat 56 8
def fwPrivls (f : W64) : Nat := fieldOf f.toNat 48 8
def fwUregs (f : W64) : Nat := fieldOf f.toNat 40 8
def fwVregs (f : W64) : Nat := fieldOf f.toNat 32 8
def fwScope (f : W64) : Nat := fieldOf f.toNat 24 8
def fwTdie (f : W64) : Nat := fieldOf f.toNat 16 4
def fwTcluster (f : W64) : Nat := fieldOf f.toNat 8 8
def fwPlace (f : W64) : Nat := fieldOf f.toNat 6 2
def fwSplit (f : W64) : Bool := bitOf f.toNat 5
def fwDet (f : W64) : Bool := bitOf f.toNat 4
def fwPrio (f : W64) : Fin 4 := Fin.ofNat 4 (fieldOf f.toNat 2 2)
def fwWidth (f : W64) : Nat := 2 ^ fieldOf f.toNat 0 2

/-- Footprint entries from the i-th on: each entry, then its map, then its ring descriptor. R32 gives no order among structures that
cannot be read: the first in this order is reported (log 111). -/
def State.snapFps (c : ClId) (g : Agent) (list : W64) : Nat → Nat → State → State × Except SnapErr (List Footprint)
  | 0, _, s => (s, .ok [])
  | k + 1, i, s =>
    let at_ := list + BitVec.ofNat 64 (32 * i)
    match s.snapStruct c g false at_ 32 32 with
    | (s, .error e) => (s, .error e)
    | (s, .ok fb) =>
      match s.snapStruct c g true (word8 fb 0) 128 128 with
      | (s, .error e) => (s, .error e)
      | (s, .ok mb) =>
        match s.snapStruct c g true (word8 fb 24) 32 32 with
        | (s, .error e) => (s, .error e)
        | (s, .ok rb) =>
          let f : Footprint := { addr := at_, map := word8 fb 0, origin := coords4 fb 8, extent := coords4 fb 16, ring := word8 fb 24,
                                 tmap := parseTMap mb, rdesc := parseRing rb, slot := 0, landed := false }
          match State.snapFps c g list k (i + 1) s with
          | (s, .error e) => (s, .error e)
          | (s, .ok fs) => (s, .ok (f :: fs))

/-- The descriptor and all that it names. A count over 4 reads no entry: R32 does not say whether one that cannot be read would be
reported before FOOTPRINT (log 111). -/
def State.snapTask (s : State) (c : ClId) (g : Agent) (desc : W64) : State × Except SnapErr SpawnInfo :=
  match s.snapStruct c g true desc 64 64 with
  | (s, .error e) => (s, .error e)
  | (s, .ok bs) =>
    let fw := word8 bs 8
    let n := if fwCount fw ≤ 4 then fwCount fw else 0
    match State.snapFps c g (word8 bs 48) n 0 s with
    | (s, .error e) => (s, .error e)
    | (s, .ok fs) => (s, .ok ⟨desc, word8 bs 0, fw, (List.range 4).map (fun k => word8 bs (16 + 8 * k)), zeroFrom bs 56 8, fs⟩)

/-- One footprint entry under R30, for a ring of the die. -/
def Footprint.ok (die : Nat) (f : Footprint) : Bool :=
  f.tmap.valid && f.rdesc.valid die && decide (tileSize f.tmap.fmt f.extent ≤ f.rdesc.slotBytes) &&
  (List.range 4).all (fun k =>
    if k < f.tmap.rank then decide (1 ≤ cAt f.extent k) && decide (cAt f.origin k + cAt f.extent k ≤ f.tmap.dim k)
    else cAt f.origin k == 0 && cAt f.extent k == 1)

/-- The first footprint entry that breaks R30 or takes a total past 2 MiB (R32). -/
def badFootprint (die : Nat) : List Footprint → Nat → List (Nat × Nat) → Option W64
  | [], _, _ => none
  | f :: r, tiles, arrays =>
    let a := (f.rdesc.off, f.rdesc.arrayEnd)
    let arrays' := if arrays.contains a then arrays else a :: arrays
    let tiles' := tiles + tileSize f.tmap.fmt f.extent
    if !f.ok die || decide (2 ^ 21 < tiles') || decide (2 ^ 21 < arrays'.foldl (fun n x => n + (x.2 - x.1)) 0) then some f.addr
    else badFootprint die r tiles' arrays'

/-- The formats that a split deterministic task's first tile may have (R32). -/
def splitFmt (code : Nat) : Bool := [0x50, 0x10, 0x11, 0x45, 0x00].contains code

/-- The checks of R32 below the first row, in order; home is the cluster that the task queues at unless placement 2 names one. -/
def SpawnInfo.bad (m : PartMode) (home : ClId) (det : Bool) (i : SpawnInfo) : Option (Half × W64) :=
  let fw := i.flag
  let w := fwWidth fw
  let die := if fwPlace fw = 2 then fwTdie fw else home.die
  if i.entry.toNat % 2 ≠ 0 ∨ fieldOf fw.toNat 20 4 ≠ 0 ∨ i.reserved = false ∨ fwUregs fw < 4 ∨ 64 < fwUregs fw ∨ fwVregs fw < 1 ∨
      32 < fwVregs fw ∨ 64 < fwPrivls fw then some (kRESOURCE, i.desc)
  else if 2048 < w * fwVregs fw * 8 ∨ 255 < w * fwPrivls fw ∨
      (fwPlace fw = 2 ∧ PartMode.hasCluster m ⟨fwTdie fw, fwTcluster fw⟩ = false) then some (kRESOURCE, i.desc)
  else if 4 < fwCount fw then some (kFOOTPRINT, i.desc)
  else match badFootprint die i.fps 0 [] with
    | some a => some (kFOOTPRINT, a)
    | none =>
      if fwSplit fw && (fwDet fw || det) && (match i.fps.head? with | some f => !splitFmt f.tmap.format | none => false) then
        some (kNONDET, i.desc)
      else none

/-! ### Entries (R59, R358) and the hamper's records (R67, R70, R73) -/

/-- The first generation from g that is neither 0 nor held in the hamper. -/
def nextGen (held : List Nat) : Nat → Nat → Nat
  | 0, g => g
  | k + 1, g => if g % 65536 = 0 ∨ held.contains (g % 65536) = true then nextGen held k (g + 1) else g % 65536

/-- A free entry of the table, in the reserve or not, and the generation that its slot receives (R59, R73, R358). -/
def State.freeEntry (s : State) (c : ClId) (reserve : Bool) : Option (Nat × Nat) :=
  (if reserve then s.freePlace c 16 8176 else s.freePlace c 8176 0).map (fun slot =>
    let held := (s.futs.filter (fun f => hTable f.h == c && hSlot f.h == slot)).map (fun f => hGen f.h)
    (slot, nextGen held (held.length + 2) (kget 0 (s.cluster c).gens slot + 1)))

/-- Add an entry under a fresh handle. -/
def State.newFut (s : State) (c : ClId) (slot gen : Nat) (f : W64 → Fut) : State × W64 :=
  let h := mkHandle s.devid c slot gen
  ((({ s.bump with futs := s.futs ++ [f h] }).modCluster c (fun k => { k with gens := kset slot gen k.gens })), h)

/-- A blank entry of a context. -/
def Fut.new (h : W64) (asid : Half) (st : FSt) (scope : Option Nat) (lineage : Option Lineage) (order : Nat) : Fut :=
  { h := h, asid := asid, st := st, value := 0, poison := false, code := 0, addr := 0, promise := false, detached := false,
    waiters := [], far := [], ending := none, scope := scope, lineage := lineage, order := order, settledAt := order, spilled := none,
    place := hSlot h }

/-- Records of a context in use: spilled entries, and one for each three waiters past the fourth (R67). -/
def State.usedRecords (s : State) (a : Half) : Nat :=
  (s.ctx a).usedRecs.length + (s.futs.filter (fun f => f.asid == a)).foldl (fun n f => n + (f.waiters.length + f.far.length - 4 + 2) / 3) 0

def State.recordFree (s : State) (a : Half) : Bool := decide (s.usedRecords a < 2 ^ (s.ctx a).logn)

/-- The context of the current thread group: its futures, scopes and queues (R315, register 25). -/
def State.ctxAsid (s : State) : Half := s.me.ctx

/-- Go on with a free entry of the issuing cluster; otherwise park under R73, or stall while entries can spill (R72). -/
def State.withEntry (s : State) (obj : W64) (f : State → Nat → Nat → State) : State :=
  match s.freeEntry s.me.loc.core.cluster false with
  | some (slot, gen) => f s slot gen
  | none => if s.recordFree s.ctxAsid then s.stall else s.waitFor 8 obj false id

/-! ### Placement (R12, R34) -/

/-- The core of cluster 23 that is the queue supervisor's, on a compute die (R12). -/
def State.reservedCore (s : State) (die : Nat) : CoreId := if (s.die die).spare then ⟨die, 23, 6⟩ else ⟨die, 23, 7⟩

/-- A core that is not the queue supervisor's (R12). -/
def State.unreserved (s : State) (c : CoreId) : Bool := PartMode.hasCore s.mode c && (isGatewayDie c.die || s.reservedCore c.die != c)

/-- A core that receives user tasks: neither quarantined nor under test (R12, R333, R435). -/
def State.userCore (s : State) (c : CoreId) : Bool :=
  s.unreserved c && !(s.core c).quarantined && (s.die c.die).test != some (c.cl, c.core)

/-- The user cores of a cluster, lowest first. -/
def State.userCores (s : State) (c : ClId) : List CoreId := ((List.range 8).map (fun k => ⟨c.die, c.cl, k⟩)).filter s.userCore

/-- The core of placement 0: the spawner's, or where that one is reserved the highest user core of its cluster (R12). With none left the
task has no core that may take it until one comes back. -/
def State.sameCore (s : State) (c : CoreId) : CoreId :=
  if !isGatewayDie c.die && s.reservedCore c.die == c then ((s.userCores c.cluster).getLast?).getD c else c

/-- What a spawn gives its task beside the descriptor. -/
structure SpawnBy where
  asid : Half
  det : Bool
  own : Fin 4
  lmask : W32
  launchx : W32
  lineage : Option Lineage
  core : CoreId
  spawner : W64
deriving DecidableEq, Repr

/-- A task as it is enqueued; it is dispatched in user mode (R289, R315 PRIVMODE). -/
def SpawnInfo.task (i : SpawnInfo) (b : SpawnBy) (h : W64) (queue : ClId) (order : Nat) : Task :=
  { handle := h, asid := b.asid, super := false, flagWord := i.flag, entry := i.entry, args := i.args, fps := i.fps, own := b.own,
    inh := 3, det := b.det, lmask := b.lmask, launchx := b.launchx, lineage := b.lineage, scope := some (fwScope i.flag), spawner := b.spawner,
    st := .queued, told := .queued, dying := false, queue := queue, spawnCore := b.core, order := order, reserved := [], k10 := false, pieces := 1, retiredPieces := [],
    dispatched := 0, firstFree := none, retire := none, preempt := none, area := none, aux := .none }

/-- spawn of R289 and R376 once the checks of R32 have passed: the scope must be OPEN (R86). -/
def State.enqueue (s : State) (i : SpawnInfo) (b : SpawnBy) (table queue : ClId) (slot gen : Nat) (other : Option Nat) : State × W64 :=
  let scope := fwScope i.flag
  if (s.scope b.asid scope).st = .open_ then
    let (s, h) := s.newFut table slot gen (fun h => Fut.new h b.asid .queued (some scope) b.lineage s.seq)
    let s := s.modScope b.asid scope (fun c => { c with count := c.count + 1 })
    ({ s.bump with tasks := s.tasks ++ [i.task b h queue s.seq] }, h)
  else
    s.newFut table slot gen (fun h =>
      { Fut.new h b.asid .faulted other b.lineage s.seq with code := kRESOURCE, addr := i.desc })

/-- The cluster whose queue the task joins (R34). -/
def SpawnInfo.queue (i : SpawnInfo) (home : ClId) : ClId := if fwPlace i.flag = 2 then ⟨fwTdie i.flag, fwTcluster i.flag⟩ else home

/-- A spawn that fails R32: an entry already FAULTED, counted by no scope (R32, R298). -/
def State.spawnFaulted (s : State) (slot gen : Nat) (code : Half) (addr : W64) (lin : Option Lineage) : State × W64 :=
  let a := s.ctxAsid
  let own := s.ownScope a s.me.scopeId
  s.newFut s.me.loc.core.cluster slot gen (fun h => { Fut.new h a .faulted own lin s.seq with code := code, addr := addr })

/-- Remember that the instruction has issued: k10 no longer makes it return 0 (R78, R289). -/
def State.begun (s : State) : State := s.modMe (fun g => { g with phase := { g.phase with next := 1 } })

def State.lineage (s : State) : Option Lineage := (s.task s.me.task).bind (·.lineage)

/-- The snapshot of SPAWN, taken once: a replayable fault parks the thread group, and a page then declared unmappable makes the structure
unreadable (R32, R289). -/
def State.withSnapshot (s : State) (wake : Option Wake) (desc : W64) (k : State → Snap → State) : State :=
  let keep := fun (s : State) (x : Snap) => k (s.modMe (fun g => { g with phase := { g.phase with snap := some x } })) x
  match s.me.phase.snap, wake with
  | some x, _ => k s x
  | none, some (.faulted _ va) => keep s (.unreadable va)
  | none, _ =>
    match s.snapTask s.me.loc.core.cluster s.meAgent desc with
    | (s, .error (.wait va)) => s.parkFault va 1
    | (s, .error .stall) => s.stall
    | (s, .error (.unreadable x)) => keep s (.unreadable x)
    | (s, .ok i) => keep s (.info i)

/-- SPAWN (R289, R290). -/
def State.spawn (s : State) (d a : UReg) : State :=
  let put := fun (x : State × W64) => (x.1.setS d x.2 false).advance
  let wake := s.me.wake
  match wake with
  | some (.value v _) => (s.setS d v false).advance
  | some .ended => s.advance
  | _ =>
    if s.me.spoison a then s.poisonPc
    else if s.me.k10 && s.me.phase.next == 0 then (s.setS d 0 false).advance
    else s.begun.afterFence .device fun s =>
      let c := s.me.loc.core.cluster
      let desc := s.me.sget a
      let lin := s.lineage
      s.withSnapshot wake desc fun s x => s.withEntry desc fun s slot gen =>
        match x with
        | .unreadable a => put (s.spawnFaulted slot gen kADDRESS a lin)
        | .info i =>
          match i.bad s.mode c s.me.det with
          | some (code, addr) => put (s.spawnFaulted slot gen code addr lin)
          | none =>
            let b : SpawnBy := ⟨s.ctxAsid, fwDet i.flag || s.me.det, fwPrio i.flag, 0xFFFFFFFF, 0, lin, s.sameCore s.me.loc.core, s.me.task⟩
            put (s.enqueue i b c (i.queue c) slot gen (s.ownScope s.ctxAsid s.me.scopeId))

def execSpawn (g : Guard) (d a : UReg) (s : State) : Out State := .next (s.withK g fun s => s.spawn d a)

/-- FNEW (R65, R291). -/
def State.fnew (s : State) (d : UReg) : State :=
  match s.me.wake with
  | some (.value v _) => (s.setS d v false).advance
  | some .ended => s.advance
  | _ =>
    if s.me.k10 && s.me.phase.next == 0 then (s.setS d 0 false).advance
    else s.begun.withEntry 0 fun s slot gen =>
      let a := s.ctxAsid
      let own := s.ownScope a s.me.scopeId
      let lin := s.lineage
      let (s, h) := s.newFut s.me.loc.core.cluster slot gen (fun h => { Fut.new h a .running own lin s.seq with promise := true })
      (s.setS d h false).advance

def execFnew (g : Guard) (d : UReg) (s : State) : Out State := .next (s.withK g fun s => s.fnew d)

end Sys2Proof.Machine
end

