-- ==== Sys2Proof/Machine/Sync.lean ====
section
/-! DEFINITION. Major 19: fences, barriers, WAITV, DESCINV, LOGWAIT and the acquiring and releasing accesses (R241 to R246). -/

namespace Sys2Proof.Machine

open Sys2Proof

def execFence (g : Guard) (sc : Scope) (s : State) : Out State := .next (s.withK g fun s => s.afterFence sc State.advance)
def execFenceacq (g : Guard) (sc : Scope) (s : State) : Out State := .next (s.withK g fun s => s.afterFence sc State.advance)
def execFencerel (g : Guard) (sc : Scope) (s : State) : Out State := .next (s.withK g fun s => s.afterFence sc State.advance)

/-- Once every running thread group of the piece has arrived, all arrivals clear and each of them goes on (R242); one that is not at its
BAR, restored and not yet there, passes it when it comes (R342). -/
def State.barCheck (s : State) (task : W64) (piece : Nat) : State :=
  let mine := fun (g : TG) => g.task == task && g.piece == piece && g.status != .stopped
  if (s.allTgs.filter mine).all (·.barArrived) then
    let rel := fun (g : TG) =>
      if mine g && g.barArrived then
        (match g.status with
         | .parked 4 _ => { g with barArrived := false, wake := some .go }
         | .parked _ _ => { g with barArrived := false, barOver := true }
         | _ => { g with barArrived := false, wake := some .go, barOver := true })
      else g
    { s with me := if s.me.status = .free then s.me else rel s.me, tgs := s.tgs.map rel }
  else s

/-- BAR (R242): arrive, and go on as FENCE of the scope once the barrier completes. k10 ends the wait. A group of width 1 that belongs
to no task, a supervisor's of boot or a handler's, completes every BAR at once. -/
def State.bar (s : State) (sc : Scope) : State :=
  if s.me.task = 0 then s.afterFence (Scope.resolve sc .task) State.advance
  else if s.me.wake = some .ended then (s.modMe (fun t => { t with barArrived := false })).advance
  else
    let s := if s.me.barOver then s.modMe (fun t => { t with wake := some .go }) else s
    let s := if s.me.wake = some .go then s
      else (s.modMe (fun t => { t with barArrived := true })).barCheck s.me.task s.me.piece
    if s.me.wake = some .go then s.afterFence (Scope.resolve sc .task) (fun s => (s.modMe (fun t => { t with barOver := false })).advance)
    else if s.me.k10 then (s.modMe (fun t => { t with barArrived := false })).advance
    else s.park 4 0

def execBar (g : Guard) (sc : Scope) (s : State) : Out State := .next (s.withK g fun s => s.bar sc)

/-- Where a watch of an address is held: the home die and the line's storage; for a scratchpad or local-store window the die that the window
names, a gateway die too (log 138); none on a host window, a peer, or a window without a line, which are read again every 1 µs (R243, R100,
log 110). -/
def State.watchAt (s : State) (va : Nat) : Option (Nat × Nat) :=
  if isWindow va then (if (winOf va).kind < 2 then some ((winOf va).die, lineOf va) else none)
  else match s.replicaOf s.me.loc.core.die s.me.asid va with
    | some r => some (homeDie s.mode s.sup.active va, r.line)
    | none =>
      match translate s.toSoc s.me.super .load s.me.asid va with
      | .phys pa => some (homeDie s.mode s.sup.active va, lineOf pa)
      | _ => none

/-- Register a watch where the home die has one free of its 1,024 (R243). -/
def State.setWatch (s : State) (va : Nat) : State :=
  match s.watchAt va with
  | some (d, line) =>
    if (s.watches.filter (fun w => w.die == d)).length < 1024 then
      { s with watches := s.watches.filter (fun w => w.tg != s.me.loc) ++ [⟨d, s.me.loc, s.me.asid, line⟩] }
    else s
  | none => s

def State.dropWatch (s : State) : State := { s with watches := s.watches.filter (fun w => w.tg != s.me.loc) }
def State.clearPhase (s : State) : State := s.modMe (fun t => { t with phase := .start })

/-- WAITV (R243, R244): read; a different word completes the wait as an acquire at the scope, as SLDACQ's does (R103), and an equal
one parks under a watch. -/
def State.waitv (s : State) (d a b : UReg) (sc : Scope) : State :=
  if s.me.wake = some .ended then s.dropWatch.advance
  else
    let va := s.me.sget a
    s.withChecks false (s.me.spoison a) 8 [⟨0, va⟩] fun s =>
      match s.loadAll 8 [va] with
      | (s, none) => s
      | (s, some rs) =>
        let r := rs.getD 0 ([], [])
        let w := word64 (natOf r.1)
        if w ≠ s.me.sget b then s.dropWatch.afterFence sc fun s => (s.setS d w (r.2.any id)).advance
        else if s.me.k10 then s.dropWatch.advance
        else (s.clearPhase.setWatch va.toNat).park 3 va

def execWaitv (g : Guard) (d a b : UReg) (sc : Scope) (s : State) : Out State :=
  .next (s.withK g fun s => s.waitv d a b sc)

/-- DESCINV (R245, R112): a DIE-scope fence, then the entries go. -/
def execDescinv (g : Guard) (a : UReg) (s : State) : Out State :=
  .next (s.withK g fun s =>
    if s.me.spoison a then s.poisonPc
    else s.afterFence .die fun s =>
      (s.modCluster s.me.loc.core.cluster (fun c =>
        { c with dcache := c.dcache.filter (fun e => !(e.1 == s.me.asid && e.2.1 == s.me.sget a)) })).advance)
def execDescinvDeep (g : Guard) (s : State) : Out State :=
  .next (s.withK g fun s => s.afterFence .die fun s =>
    (s.modCluster s.me.loc.core.cluster (fun c => { c with dcache := [] })).advance)

/-- LOGWAIT (R246). -/
def execLogwait (g : Guard) (s : State) : Out State :=
  .next (s.withK g fun s => s.waitFor 10 0 (!(s.core s.me.loc.core).log.any (·.tg == s.me.loc)) State.advance)

/-- SLDACQ: the load, then FENCEACQ of the scope (R103). -/
def execSldacq (g : Guard) (d a : UReg) (sc : Scope) (s : State) : Out State :=
  .next (s.withK g fun s =>
    let va := s.me.sget a
    s.withChecks false (s.me.spoison a) 8 [⟨0, va⟩] fun s =>
      match s.loadAll 8 [va] with
      | (s, none) => s
      | (s, some rs) =>
        let r := rs.getD 0 ([], [])
        s.afterFence sc fun s => (s.setS d (word64 (natOf r.1)) (r.2.any id)).advance)

/-- SSTREL: FENCEREL of the scope, then the store (R103). -/
def execSstrel (g : Guard) (d a : UReg) (sc : Scope) (s : State) : Out State :=
  .next (s.withK g fun s =>
    s.withChecks true (s.me.spoison a) 8 [⟨0, s.me.sget a⟩] fun s => s.afterFence sc fun s => s.ustore d a (s.me.sget a) 8)

end Sys2Proof.Machine
end

