-- ==== Sys2Proof/Machine/Task.lean ====
section
/-! DEFINITION. Major 24: actions on futures (R60 to R69, R75, R81, R82, R292 to R297), finish scopes (R84 to R87, R298, R299), RETIRE,
YIELD, PRIO, SELF (R300 to R303), and the compact TOUCH. -/

namespace Sys2Proof.Machine

open Sys2Proof

/-! ### The entry's side of an action -/

/-- Every thread group of the task that runs is parked, or the task is saved (R61). -/
def State.taskParked (s : State) (t : Task) : Bool :=
  !t.dying &&
  match t.st with
  | .saved | .restoring => true
  | .running =>
    (s.tgsOf t.handle).all (fun g => match g.status with
      | .parked _ _ => true
      | _ => false)
  | _ => false

/-- The state that a task's scheduler sees (R61, R62). -/
def State.viewOf (s : State) (t : Task) : FSt :=
  match t.st with
  | .queued => .queued
  | .prefetch => .prefetch
  | _ => if s.taskParked t then .parked else .running

/-- A scheduler reports the state of a task to its future's entry when it has changed (R62, R360). -/
def State.report (s : State) (h : W64) : State :=
  match s.task h with
  | none => s
  | some t =>
    if t.dying ∨ s.viewOf t = t.told then s
    else (s.modTask h (fun x => { x with told := s.viewOf t })).noteEntry (s.taskCluster t) h (.state (s.viewOf t))

/-- Raise a task that waits to run; a raised queued task joins the tail of its new class (R45). -/
def State.raiseNow (s : State) (h : W64) (cls : Fin 4) : State :=
  match s.task h with
  | none => s
  | some t =>
    if cls < t.inh ∧ (t.st = .queued ∨ t.st = .prefetch) then
      s.bump.modTask h (fun t => { t with inh := cls, order := if t.st = .queued ∧ cls < t.eff then s.seq else t.order })
    else s

/-- A raise seen from a cluster: at once where the task queues, otherwise on message class 0 (R45). -/
def State.raise (s : State) (from_ : ClId) (h : W64) (cls : Fin 4) : State :=
  match s.task h with
  | none => s
  | some t => if t.queue = from_ then s.raiseNow h cls else { s with raises := s.raises ++ [(h, cls)] }

/-- What a thread group is told of a future of another device, which this model does not hold: a free reply (log 22). -/
def State.foreign (s : State) (op : FutOp) : State × Wake :=
  let v := s.freeWord
  let k := Config.pick 3 s.free
  (s.useFree,
    match op with
    | .touch | .touchc =>
      (match k % 6 with
       | 0 => .value v (k / 6 % 2 == 1)
       | 1 => .cancelled
       | 2 => .faulted (v.setWidth 16) (Config.freeWord (s.free + 1))
       | 3 => .stale 3
       | 4 => .stale 2
       | _ => .go)
    | .poll | .resolve | .ffault | .cancel => if k % 10 < 7 then .code (BitVec.ofNat 64 (k % 10 + 1)) else .stale (2 + k % 2)
    | .release => if k % 3 = 0 then .go else .stale (1 + k % 3)
    | .leave => .go)

/-- An action on a handle of a lost device (R66). -/
def lostReply : FutOp → Wake
  | .touch | .touchc => .faulted kTEARDOWN 0
  | .release | .leave => .go
  | _ => .code 7

/-- The chain has room for one more waiter record (R67). -/
def State.chainRoom (s : State) (f : Fut) : Bool :=
  let n := f.waiters.length + f.far.length
  decide (n < 4) || (n - 4) % 3 != 0 || s.recordFree f.asid

/-- Add a waiter record, which names the waiting thread group by its device too; without a hamper record for the chain the wait stays
pending in its thread group (R67). -/
def State.addWaiter (s : State) (f : Fut) (dev : Option Nat) (t : TgRef) : State :=
  match dev with
  | none => if f.waiters.contains t || !s.chainRoom f then s else s.modFut f.h (fun x => { x with waiters := x.waiters ++ [t] })
  | some d => if f.far.contains ⟨d, t⟩ || !s.chainRoom f then s else s.modFut f.h (fun x => { x with far := x.far ++ [⟨d, t⟩] })

/-- The record of a wait that ended under R78 goes (R67). -/
def State.dropWaiter (s : State) (h : W64) (dev : Option Nat) (t : TgRef) : State :=
  match dev with
  | none => s.modFut h (fun f => { f with waiters := f.waiters.filter (· != t) })
  | some d => s.modFut h (fun f => { f with far := f.far.filter (· != ⟨d, t⟩) })

/-- One action applied at its entry (R60, R62, R63); none while a spilled entry cannot come back, and while the entry holds a RETIRE, a
kill or a teardown. -/
def State.act (s : State) (from_ : ClId) (dev : Option Nat) (t : TgRef) (op : FutOp) (h v : W64) (vp : Bool) (eff : Fin 4) : Option (State × Wake) :=
  if hKind h ≠ 1 then some (s, .stale 1)
  else if hDevice h ≠ s.devid then
    (if s.lost.contains (hDevice h) then some (s, lostReply op) else some (s.foreign op))
  else match s.stale h with
    | some r => some (s, .stale r)
    | none =>
      let s := s.refillFut h
      match s.fut h with
      | none => some (s, .stale 3)
      | some f =>
        if f.spilled.isSome || f.ending.isSome then none
        else
          let code := Wake.code (BitVec.ofNat 64 f.st.code)
          match op with
          | .touch | .touchc =>
            if f.st.terminal then some (s, f.outcome) else some ((s.addWaiter f dev t).raise from_ h eff, .go)
          | .poll => some (s, code)
          | .resolve => some (if f.st.terminal then s else (s.settle h .resolved v vp 0 0).dropTask h, code)
          | .ffault => some (if f.st.terminal then s else (s.settle h .faulted 0 false kEXPLICIT v).dropTask h, code)
          | .cancel => some (if f.st.terminal then s else (s.settle h .cancelled 0 false 0 0).dropTask h, code)
          | .release => some (if f.st.terminal then s.freeFut h else s.modFut h (fun x => { x with detached := true }), .go)
          | .leave => some (s.dropWaiter h dev t, .go)

/-! ### The issuer's side (R66, R286, R287) -/

/-- The action is judged where it issues: the thread group's own cluster holds the entry's table, or the handle names no table, by its
KIND or by its cluster (R60, R66, log 146). -/
def State.local_ (s : State) (h : W64) : Bool :=
  hKind h != 1 || (hDevice h == s.devid && (hTable h == s.me.loc.core.cluster || !PartMode.hasCluster s.mode (hTable h)))

/-- The effective class of the current thread group; a handler's is 0 (R309). -/
def State.myEff (s : State) : Fin 4 := ((s.task s.me.task).map (·.eff)).getD 0

/-- Send the action as a request, and stall until its reply (R66, R287). -/
def State.sendReq (s : State) (op : FutOp) (h v : W64) (vp : Bool) : State :=
  let r : Req := ⟨s.seq, none, s.me.loc, op, h, v, vp, s.myEff, none⟩
  ({ s.bump with reqs := s.reqs ++ [r] }.modMe (fun g => { g with phase := { g.phase with req := some r.id }, wake := none })).stall

/-- The thread group's wait has ended under R78: it takes its waiter record back, by request where another device holds it (R67). -/
def State.leaveWait (s : State) (h : W64) : State :=
  if hDevice h = s.devid then s.dropWaiter h none s.me.loc
  else { s.bump with reqs := s.reqs ++ [⟨s.seq, none, s.me.loc, .leave, h, 0, false, s.myEff, none⟩] }

/-- An action that does not park: after a release where the form has one (R64), at once or by request, then the reply. -/
def State.doAct (s : State) (op : FutOp) (h v : W64) (vp rel : Bool) (fin : State → Wake → State) : State :=
  if s.me.phase.req.isSome then
    match s.me.wake with
    | some w => fin s w
    | none => s.stall
  else
    let go := fun (s : State) =>
      if s.local_ h then
        match s.act s.me.loc.core.cluster none s.me.loc op h v vp s.myEff with
        | some (s, w) => fin s w
        | none => s.stall
      else s.sendReq op h v vp
    if rel then s.afterFence .system go else go s

/-- The reply of a form that writes the prior state (R292, R293, R297). -/
def State.codeReply (d : UReg) (h : W64) (s : State) : Wake → State
  | .code n => (s.setS d n false).advance
  | .stale n => s.trap cFUTSTALE h (BitVec.ofNat 64 n)
  | _ => s.advance

def State.stateAct (s : State) (op : FutOp) (d a : UReg) (v : W64) (vp bad rel : Bool) : State :=
  if s.me.spoison a || bad then s.poisonPc
  else s.doAct op (s.me.sget a) v vp rel (State.codeReply d (s.me.sget a))

def execPoll (g : Guard) (d a : UReg) (s : State) : Out State := .next (s.withK g fun s => s.stateAct .poll d a 0 false false false)
def execResolve (g : Guard) (d a b : UReg) (s : State) : Out State :=
  .next (s.withK g fun s => s.stateAct .resolve d a (s.me.sget b) (s.me.spoison b) false true)
def execFfault (g : Guard) (d a b : UReg) (s : State) : Out State :=
  .next (s.withK g fun s => s.stateAct .ffault d a (s.me.sget b) false (s.me.spoison b) true)
def execCancel (g : Guard) (d a : UReg) (s : State) : Out State :=
  .next (s.withK g fun s => s.stateAct .cancel d a 0 false false true)

/-- RELEASE (R69, R294). -/
def execRelease (g : Guard) (a : UReg) (s : State) : Out State :=
  .next (s.withK g fun s =>
    if s.me.spoison a then s.poisonPc
    else
      let h := s.me.sget a
      s.doAct .release h 0 false false fun s w =>
        match w with
        | .stale n => s.trap cFUTSTALE h (BitVec.ofNat 64 n)
        | _ => s.advance)

/-- Wait on a future (R67, R78, R82): fin applies the outcome. -/
def State.touchWith (s : State) (a : UReg) (op : FutOp) (fin : State → Wake → State) : State :=
  let h := s.me.sget a
  let wait := fun (s : State) =>
    if s.me.k10 then (s.leaveWait h).advance
    else (s.modMe (fun g => { g with phase := .start })).park 1 h
  let ask := fun (s : State) =>
    if s.local_ h then
      match s.act s.me.loc.core.cluster none s.me.loc op h 0 false s.myEff with
      | some (s, .go) => wait s
      | some (s, w) => fin s w
      | none => s.stall
    else s.sendReq op h 0 false
  match s.me.wake, s.me.phase.req with
  | some .ended, _ => (s.leaveWait h).advance
  | some .go, some _ => wait s
  | some .go, none => if s.me.spoison a then s.poisonPc else ask s
  | some w, _ => fin s w
  | none, some _ => s.stall
  | none, none => if s.me.spoison a then s.poisonPc else ask s

/-- TOUCH's outcomes (R82, R329). -/
def State.touched (d : UReg) (h : W64) (s : State) : Wake → State
  | .value v p => (s.setS d v p).advance
  | .cancelled => s.trap cFUTCANCELLED h 0
  | .faulted c a => s.trap cFUTFAULTED a (c.setWidth 64)
  | .stale n => s.trap cFUTSTALE h (BitVec.ofNat 64 n)
  | _ => s.advance

/-- The status word of R82. -/
def statusWord (st : Nat) (code : Half) : W64 := BitVec.ofNat 64 (st + code.toNat * 2 ^ 16)

/-- TOUCHC's outcomes (R82, R296). -/
def State.touchedC (d : UReg) (k : KReg) (h : W64) (s : State) : Wake → State
  | .value v p => ((s.setS d v p).setK k true false).advance
  | .cancelled => ((s.setS d (statusWord 6 0) false).setK k false false).advance
  | .faulted c _ => ((s.setS d (statusWord 7 c) false).setK k false false).advance
  | .stale n => s.trap cFUTSTALE h (BitVec.ofNat 64 n)
  | _ => s.advance

def execTouch (g : Guard) (d a : UReg) (s : State) : Out State :=
  .next (s.withK g fun s => s.touchWith a .touch (State.touched d (s.me.sget a)))
def execCTouch (d a : CReg) (s : State) : Out State :=
  .next (s.touchWith (CReg.u a) .touch (State.touched (CReg.u d) (s.me.sget (CReg.u a))))
def execTouchc (g : Guard) (d a : UReg) (b : KReg) (s : State) : Out State :=
  .next (s.withK g fun s => s.touchWith a .touchc (State.touchedC d b (s.me.sget a)))

/-! ### Finish scopes (R84 to R87, R298, R299) -/

/-- A scope id, when the value names one. -/
def scopeIdOf (v : W64) : Option Nat := if v.toNat < 256 then some v.toNat else none

/-- SCOPEO: the lowest FREE id, opened under an OPEN parent; all ones otherwise. -/
def State.scopeOpen (s : State) (a : Half) (parent : W64) : State × W64 :=
  match scopeIdOf parent with
  | none => (s, BitVec.allOnes 64)
  | some p =>
    if (s.scope a p).st ≠ .open_ then (s, BitVec.allOnes 64)
    else match lowest (fun i => (s.scope a i).st == .free) 256 0 with
      | none => (s, BitVec.allOnes 64)
      | some i =>
        ((s.modScope a i (fun _ => ⟨.open_, some p, 0, []⟩)).modScope a p (fun c => { c with count := c.count + 1 }), BitVec.ofNat 64 i)

def execScopeo (g : Guard) (d a : UReg) (s : State) : Out State :=
  .next (s.withK g fun s =>
    if s.me.spoison a then s.poisonPc
    else
      let r := s.scopeOpen s.ctxAsid (s.me.sget a)
      (r.1.setS d r.2 false).advance)

/-- SCOPEC of an OPEN scope; scope 0 cannot be closed (R84, R86). -/
def State.scopeClose (s : State) (a : Half) (i : Nat) : State :=
  if i = 0 ∨ (s.scope a i).st ≠ .open_ then s
  else if (s.scope a i).count = 0 then s.scopeDone 256 a i
  else s.modScope a i (fun c => { c with st := .closed })

def execScopec (g : Guard) (a : UReg) (s : State) : Out State :=
  .next (s.withK g fun s =>
    if s.me.spoison a then s.poisonPc
    else match scopeIdOf (s.me.sget a) with
      | some i => (s.scopeClose s.ctxAsid i).advance
      | none => s.advance)

/-- The scope i is j or is nested in it; scopes nest at most 256 deep. -/
def State.nestedIn (s : State) (a : Half) (j : Nat) : Nat → Nat → Bool
  | 0, _ => false
  | fuel + 1, i => i == j || (match (s.scope a i).parent with
    | some p => s.nestedIn a j fuel p
    | none => false)

/-- The ids of a scope and of every scope nested in it. -/
def State.scopeTree (s : State) (a : Half) (j : Nat) : List Nat :=
  (List.range 256).filter (fun i => (s.scope a i).st != .free && s.nestedIn a j 257 i)

/-- SCOPEW has nothing to wait for (R86, R299). -/
def State.scopeOver (s : State) (a : Half) (i : Nat) : Bool :=
  let c := s.scope a i
  c.st == .free || c.st == .done || c.count == 0

/-- SCOPEW: it raises the QUEUED members of the scope and of its nested scopes (R45), joins the waiter list, and parks. A wake ends it:
the count has come to zero, though the scope may have been freed and opened anew since (R47, R84, R87). -/
def State.scopew (s : State) (a : UReg) : State :=
  if s.me.wake = some .go then s.advance
  else if s.me.wake = some .ended then (s.leaveScopes s.me.loc).advance
  else if s.me.spoison a then s.poisonPc
  else match scopeIdOf (s.me.sget a) with
    | none => s.advance
    | some i =>
      let asid := s.ctxAsid
      if s.scopeOver asid i then s.advance
      else if s.me.k10 then s.advance
      else
        let tree := s.scopeTree asid i
        let hs := (s.tasks.filter (fun t => t.asid == asid && t.st == .queued && (match t.scope with
          | some j => tree.contains j
          | none => false))).map (·.handle)
        let eff := s.myEff
        let cl := s.me.loc.core.cluster
        let s : State := hs.foldl (fun (s : State) h => s.raise cl h eff) s
        let me := s.me.loc
        (s.modScope asid i (fun c => { c with waiters := c.waiters.filter (· != me) ++ [me] })).park 2 (BitVec.ofNat 64 i)

def execScopew (g : Guard) (a : UReg) (s : State) : Out State := .next (s.withK g fun s => s.scopew a)

/-- The scopes of a deep cancel are closed (R76): their ids, the scope's own among them. -/
def State.closeTree (s : State) (a : Half) (i : Nat) : State × List Nat :=
  let c := s.scope a i
  if c.st = .free ∨ c.st = .done then (s, [])
  else
    let tree := s.scopeTree a i
    (tree.foldl (fun (s : State) j => s.scopeClose a j) s, tree)

/-- The deep cancel reaches one entry: whether it moved the future to CANCELLED; none while the entry cannot take it (R63, R72). -/
def State.cancelOne (s : State) (h : W64) : Option (State × Bool) :=
  let s := s.refillFut h
  match s.fut h with
  | none => some (s, false)
  | some f =>
    if f.st.terminal then some (s, false)
    else if f.spilled.isSome || f.ending.isSome then none
    else some ((s.settle h .cancelled 0 false 0 0).dropTask h, true)

/-- The entries of a deep cancel, one at a time: the state, how many it cancelled, and those that could not take it yet. -/
def State.cancelEach (s : State) : List W64 → State × Nat × List W64
  | [] => (s, 0, [])
  | h :: r =>
    match s.cancelOne h with
    | none => let (s, n, l) := s.cancelEach r; (s, n, h :: l)
    | some (s, hit) => let (s, n, l) := s.cancelEach r; (s, n + b2n hit 0, l)

/-- The non-terminal futures of some scopes. -/
def State.futsIn (s : State) (a : Half) (tree : List Nat) : List W64 :=
  (s.futs.filter (fun f => f.asid == a && !f.st.terminal && (match f.scope with
    | some j => tree.contains j
    | none => false))).map (·.h)

/-- CANCEL.DEEP (R76, R293): the scopes are closed, then each non-terminal future of them is cancelled. Those whose entries cannot take
it yet are tried again while the thread group stalls. -/
def State.cancelDeep (s : State) (d : UReg) (i : Nat) : State :=
  let a := s.ctxAsid
  let (s, hs) :=
    match s.me.phase.todo with
    | some hs => (s, hs)
    | none => let (t, tree) := s.closeTree a i; (t, s.futsIn a tree)
  let (s, n, left) := s.cancelEach hs
  let total := s.me.phase.next + n
  if left = [] then (s.setS d (BitVec.ofNat 64 total) false).advance
  else (s.modMe (fun g => { g with phase := { g.phase with next := total, todo := some left } })).stall

def execCancelDeep (g : Guard) (d a : UReg) (s : State) : Out State :=
  .next (s.withK g fun s =>
    if s.me.spoison a then s.poisonPc
    else s.afterFence .system fun s =>
      match scopeIdOf (s.me.sget a) with
      | none => (s.setS d 0 false).advance
      | some i => s.cancelDeep d i)

/-! ### The running task (R300 to R303) -/

/-- Every store of the task, and every store that reached its die's ordering point before, is SYSTEM-visible (R64). -/
def State.taskVisible (s : State) (h : W64) (mark : Nat) : Bool :=
  !s.cores.any (fun c => c.2.fifo.any (fun e => e.task == h)) &&
  !s.wrs.any (fun w => !w.ret && (w.ent.task == h || (decide (w.id < mark) && w.die == s.me.loc.core.die)))

/-- The watches of a thread group that has gone. -/
def State.dropWatchOf (s : State) (t : TgRef) : State := { s with watches := s.watches.filter (fun w => w.tg != t) }

/-- The thread group has retired: its handles are unbound, its registers freed, and a barrier may complete without it (R242, R300). It
keeps its place and its local store until the last of its piece retires (R27). -/
def State.leaveGroup (s : State) (g : TG) : State :=
  let gone := fun (x : TG) => { x with status := .stopped, vregs := 0, wake := none, phase := .start, cur := none, spMask := none }
  (((s.unbind g.loc).modTg g.loc gone).barCheck g.task g.piece).dropWatchOf g.loc

/-- The last thread group of a piece has retired: the piece's thread groups, tiles and local store are free (R27, R300). -/
def State.pieceDone (s : State) (g : TG) : State :=
  let s : State := ((s.tgsAll g.task).filter (fun x => x.piece == g.piece)).foldl (fun (s : State) x => s.dropTg x.loc) s
  (s.releaseCore g.task g.piece g.loc.core).modTask g.task (fun t => { t with retiredPieces := t.retiredPieces ++ [g.piece] })

/-- The last piece of a task has retired: the entry takes the value of TGID 0 of piece 0, and the scope counts one less (R62, R85). -/
def State.taskDone (s : State) (t : Task) : State :=
  let cl := t.queue
  let (v, p) := t.retire.getD (0, false)
  let s : State := { s with tasks := s.tasks.filter (fun x => x.handle != t.handle) }
  (((s.dropRings cl).noteEntry cl t.handle (.ending ⟨.resolved, v, p, 0, 0⟩)).settleHeld t.handle).scopeLeave cl t.handle t.asid t.scope

/-- RETIRE once its waits are over. -/
def State.retireNow (s : State) (a : UReg) : State :=
  let g := s.me
  let others := (s.tgsOf g.task).filter (fun x => x.loc != g.loc)
  let s := if g.tgid = 0 ∧ g.piece = 0 then s.modTask g.task (fun t => { t with retire := some (g.sget a, g.spoison a) }) else s
  let s := s.leaveGroup g
  if others.any (fun x => x.piece == g.piece) then s
  else
    let s := s.pieceDone g
    match s.task g.task with
    | some t => if decide (t.pieces ≤ t.retiredPieces.length) then s.taskDone t else s
    | none => s

/-- RETIRE (R300): it waits for the tokens, for the side log, and as RUNDEF for the operations that name its handles (R263); k10 ends no
wait of it. The last thread group of the task waits for the release of R64 as well. -/
def State.retire (s : State) (a : UReg) : State :=
  let g := s.me
  if !g.tok.toList.all (· == 0) then s.stall
  else if (s.core g.loc.core).log.any (fun e => e.tg == g.loc) then
    (s.modMe (fun t => { t with phase := { t.phase with claim := some 0 } })).park 10 0
  else if s.names (fun _ => true) then s.stall
  else if g.loc.slot = 16 ∨ g.task = 0 then s.dropLone g
  else if (s.tgsOf g.task).all (fun x => x.loc == g.loc) ∧ s.taskVisible g.task s.markOf = false then s.setMark.stall
  else s.retireNow a

def execRetire (g : Guard) (a : UReg) (s : State) : Out State := .next (s.withK g fun s => s.retire a)

/-- YIELD (R301): out of candidacy for min(sA, 65,535) cycles; with 0 for one turn. -/
def execYield (g : Guard) (a : UReg) (s : State) : Out State :=
  .next (s.withK g fun s =>
    if s.me.spoison a then s.poisonPc
    else
      let n := min (s.me.sget a).toNat 65535
      let s := s.advance
      if s.me.status = .ready then s.modMe (fun t => { t with status := .yielding (s.cycle.toNat + n), age := s.seq }) else s)

/-- PRIO (R302): a poisoned class does not kill, for R286 names handles, scope ids, addresses and counts alone. -/
def execPrio (g : Guard) (d a : UReg) (s : State) : Out State :=
  .next (s.withK g fun s =>
    match s.task s.me.task with
      | some t =>
        ((s.modTask t.handle (fun t => { t with own := Fin.ofNat 4 (s.me.sget a).toNat })).setS d
          (BitVec.ofNat 64 t.own.val) false).advance
      | none => (s.setS d 0 false).advance)

/-- SELF (R303). -/
def execSelf (g : Guard) (d : UReg) (s : State) : Out State := .next (s.withK g fun s => (s.setS d s.me.task false).advance)

end Sys2Proof.Machine
end

