-- ==== Sys2Proof/Machine/Sched.lean ====
section
/-! DEFINITION. The scheduler and the tables of futures as agents: reservation, footprint copies and dispatch (R38 to R42), stealing
(R36), raises and wakes (R45, R47), DEADLOCK (R50, R51), requests and replies (R66), the hamper (R70 to R74), scope updates (R84). -/

namespace Sys2Proof.Machine

open Sys2Proof

/-! ### Reservation and footprint copies (R38, R39) -/

/-- The distinct slot arrays of a task's footprint rings. -/
def Task.arrays (t : Task) : List (Nat × Nat) := (t.fps.map (fun f => (f.rdesc.off, f.rdesc.arrayEnd))).eraseDups

/-- Two ranges share no byte. -/
def apart (a b : Nat × Nat) : Bool := decide (a.2 ≤ b.1) || decide (b.2 ≤ a.1)

/-- No other task of the cluster holds a byte of the ranges. -/
def State.rangesFree (s : State) (h : W64) (c : ClId) (rs : List (Nat × Nat)) : Bool :=
  s.tasks.all (fun u => u.handle == h || u.queue != c || u.reserved.all (fun r => rs.all (fun a => apart a r)))

/-- Every footprint ring has, or can have, an entry with a free slot for each tile, and every copy a range-lock entry (R262, R266,
R282). -/
def State.tilesFit (s : State) (t : Task) : Bool :=
  let rings := (t.fps.map (·.ring)).eraseDups
  let room := fun (a : W64) =>
    let need := (t.fps.filter (fun f => f.ring == a)).length
    match s.ring t.queue t.asid none a with
    | some r => decide (need ≤ r.free)
    | none => decide (need ≤ ((t.fps.find? (fun f => f.ring == a)).map (·.rdesc.slots)).getD 0)
  let fresh := (rings.filter (fun a => (s.ring t.queue t.asid none a).isNone)).length
  rings.all room && decide ((s.cluster t.queue).ringCount + fresh ≤ 128) &&
    decide ((s.cluster t.queue).locks.length + t.fps.length ≤ 32)

/-- The task can move to PREFETCH. -/
def State.reservable (s : State) (t : Task) : Bool :=
  t.st == .queued && s.rangesFree t.handle t.queue t.arrays && s.tilesFit t

/-- Start the copy of the i-th tile: its slot is claimed as CPYR claims one. -/
def State.startTile (s : State) (t : Task) (f : Footprint) (i : Nat) : State :=
  let c := t.queue
  let s := if (s.ring c t.asid none f.ring).isSome then s
    else s.modCluster c (fun k => { k with rings := k.rings ++ [⟨f.ring, t.asid, none, f.rdesc, 0, 0, 0, 0, [], []⟩] })
  let w := ((s.ring c t.asid none f.ring).map (·.w)).getD 0
  let s := s.modTask t.handle (fun x => { x with
    fps := (x.fps.zipIdx).map (fun y => if y.2 = i then { y.1 with slot := w } else y.1) })
  let op : EngOp :=
    { id := s.seq, tg := none, task := t.handle, super := t.super, asid := t.asid, cl := c, core := ⟨c.die, c.cl, 0⟩, tok := none,
      kind := .footprint i, pkt := [], pktAddr := f.addr, maps := [f.tmap], queue := none, index := w, fault := none, mark := 0,
      started := true, handles := [], part := none, ended := none, flagWr := none, out := none, pc := 0, failed := false,
      words := ⟨[], []⟩ }
  let s := (s.modRing c t.asid none f.ring (Ring.claimW 1)).takeLock c op.id none t.asid (f.tmap.lockRanges f.origin f.extent) []
  { s.bump with ops := s.ops ++ [op] }

/-- The move to PREFETCH (R38, R62). -/
def State.reserve (s : State) (t : Task) : State :=
  let s := (s.modTask t.handle (fun x => { x with st := .prefetch, reserved := t.arrays })).report t.handle
  (t.fps.zipIdx).foldl (fun (s : State) x => s.startTile t x.1 x.2) s

/-- RESERVATION_MADE: the oldest task of its class whose reservation can be made; a spilled entry comes back first (R38, R72). -/
def execReservationMade (h : W64) (s : State) : Out State :=
  .next (
    let s := s.refillFut h
    match s.task h, s.fut h with
    | some t, some f =>
      if f.spilled.isSome || !s.reservable t ||
          s.tasks.any (fun u => u.queue == t.queue && u.eff == t.eff && decide (u.order < t.order) && s.reservable u) then s
      else s.reserve t
    | _, _ => s)

/-- The cores that may take a task (R12, R34, R333). -/
def State.permitted (s : State) (t : Task) : List CoreId :=
  if fwPlace t.flagWord = 0 ∧ (s.core t.spawnCore).quarantined = false ∧ s.unreserved t.spawnCore = true then [t.spawnCore]
  else s.userCores t.queue

/-- The thread groups of a core beside its handler. -/
def State.onCore (s : State) (c : CoreId) : List TG := s.allTgs.filter (fun g => g.loc.core == c && decide (g.loc.slot < 16))

def State.freeTgSlots (s : State) (c : CoreId) : List Nat :=
  (List.range 16).filter (fun i => !s.allTgs.any (fun g => g.loc == ⟨c, i⟩))

/-- The KiB of a core's local store that its thread groups hold (R27, R41). -/
def State.lsBusy (s : State) (c : CoreId) : List (Nat × Nat) :=
  ((s.onCore c).filter (fun g => g.lsKib != 0)).map (fun g =>
    ((g.lsBase - localAddr c 0) / 1024, (g.lsBase - localAddr c 0) / 1024 + g.lsKib))

/-- How many blocks of n KiB have a place from KiB b on; the constant window holds the lowest KiB (R23, R231). -/
def lsRoom (busy : List (Nat × Nat)) (n : Nat) : Nat → Nat → Nat
  | 0, _ => 0
  | k + 1, b =>
    if 256 < b + n then 0
    else if busy.all (apart (b, b + n)) then 1 + lsRoom busy n k (b + n)
    else lsRoom busy n k (b + 1)

/-- Places for the blocks of some thread groups, each in a free part that is not given and leaves room for the others (log 33). -/
def lsPlaces (n seed : Nat) : Nat → List (Nat × Nat) → List Nat
  | 0, _ => []
  | k + 1, busy =>
    let ok := (List.range 256).filter (fun b => decide (1 ≤ b) && decide (b + n ≤ 256) && busy.all (apart (b, b + n)) &&
      decide (k ≤ lsRoom ((b, b + n) :: busy) n 256 1))
    let b := ok.getD (Config.pick seed k % ok.length) 1
    b :: lsPlaces n seed k ((b, b + n) :: busy)

/-- The core has w thread groups, w × VREGS × 8 vector registers per lane and w × PRIVLS KiB free, a contiguous block for each thread
group (R39, R57, R231). -/
def State.coreFits (s : State) (t : Task) (c : CoreId) (w : Nat) : Bool :=
  let gs := s.onCore c
  let n := fwPrivls t.flagWord
  decide (w ≤ (s.freeTgSlots c).length) &&
  decide (gs.foldl (fun n g => n + g.vregs) 0 + w * fwVregs t.flagWord * 8 ≤ 2048) &&
  (n == 0 || decide (w ≤ lsRoom (s.lsBusy c) n 256 1))

/-- Places for the pieces, each on the lowest permitted core that takes it beside the pieces placed before. -/
def State.placePieces (s : State) (t : Task) (w : Nat) : Nat → List CoreId → Option (List CoreId)
  | 0, got => some got
  | k + 1, got =>
    match (s.permitted t).find? (fun c => s.coreFits t c (w * ((got.filter (· == c)).length + 1))) with
    | some c => s.placePieces t w k (got ++ [c])
    | none => none

/-- The footprint tiles of a task that land in one ring. -/
def Task.tilesIn (t : Task) (ring : W64) : List Footprint := t.fps.filter (fun f => f.ring == ring)

/-- The extent of a slice along dimension 0, and a coordinate of its tile. -/
def sliceExt (n : Nat) (e : List Nat) : List Nat := [cAt e 0 / n, cAt e 1, cAt e 2, cAt e 3]
def sliceAt (n j : Nat) (e c : List Nat) : List Nat := addC c [j * (cAt e 0 / n), 0, 0, 0]

/-- The j-th of n equal shares of a ring's slot array, for k tiles: 1/n of the slots where they hold the tiles, otherwise as many slots as
the tiles take, each smaller; tags that the tag array does not hold stand behind the share's slots (log 58). -/
def RingDesc.share (rd : RingDesc) (k n j : Nat) : RingDesc :=
  let bytes := rd.slots * rd.slotBytes / n
  let slots := if k ≤ rd.slots / n then rd.slots / n else if k ≤ 2 then k else 4
  let inside := rd.tagged && decide (rd.slots < n * slots)
  let off := rd.off + j * bytes
  let slotBytes := if slots = rd.slots / n then rd.slotBytes else (bytes - (if inside then 16 * slots else 0)) / slots / 16 * 16
  { rd with off := off, slots := slots, slotBytes := slotBytes,
            tagOff := if inside then off + slots * slotBytes else rd.tagOff + 16 * j * slots }

/-- A task may be cut into n pieces: n divides the extents (R42), and the slices have room where the tiles lie (log 58). -/
def Task.cuts (t : Task) (n : Nat) : Bool :=
  decide (n ≤ fwWidth t.flagWord) &&
  t.fps.all (fun f => cAt f.extent 0 % n == 0 &&
    decide (tileSize f.tmap.fmt (sliceExt n f.extent) ≤ (f.rdesc.share (t.tilesIn f.ring).length n 0).slotBytes))

/-- Where a task would be dispatched: whole where a core takes it, otherwise in the fewest pieces that fit (R39, R42). -/
def State.plan (s : State) (t : Task) : Option (List CoreId) :=
  let w := fwWidth t.flagWord
  match s.placePieces t w 1 [] with
  | some cs => some cs
  | none =>
    if fwSplit t.flagWord then ([2, 4, 8].filter t.cuts).findSome? (fun n => s.placePieces t (w / n) n [])
    else none

/-- A tile of a task's footprint lands (R39, R270). The delay that PFLATE counts runs from the cycle in which a permitted core was
free (R317). -/
def State.tileLanded (s : State) (o : EngOp) (i : Nat) (ring : W64) : State :=
  let mark := fun (t : Task) => { t with fps := (t.fps.zipIdx).map (fun x => if x.2 = i then { x.1 with landed := true } else x.1) }
  let s := ((s.modTask o.task mark).modRing o.cl o.asid none ring (Ring.land o.index)).endOp o.id
  s.modTask o.task (fun t => if t.fps.all (·.landed) then { t with firstFree := t.firstFree.map (fun c => s.cycle.toNat - c) } else t)

/-- A footprint copy fails for good: the future is FAULTED and the task removed (R39). -/
def State.tileFatal (s : State) (o : EngOp) (code : Half) (va : Nat) (m : Option Nat) : State :=
  let s := match m with | some pa => s.misplaced o.asid ⟨o.cl.die, o.cl.cl, 0⟩ va pa | none => s
  s.endQueued o.task ⟨.faulted, 0, false, code, BitVec.ofNat 64 va⟩

def State.tileCopy (s : State) (o : EngOp) (i : Nat) : State :=
  match s.task o.task with
  | none => s.endOp o.id
  | some t =>
    match t.fps[i]?, o.maps with
    | some f, [m] =>
      (match s.ring o.cl o.asid none f.ring with
       | none => s
       | some r =>
         let fail := fun (e : EFail) =>
           match e with
           | .replay va => s.opFault o.id va
           | .stall => s
           | .fatal va x => s.tileFatal o kADDRESS va x
           | .poisoned va => s.tileFatal o kADDRESS va none
           | .check _ va => s.tileFatal o kADDRESS va none
           | e => s.slowStep o.agent e
         match s.slotTile o m f.map f.origin f.extent r o.index with
         | .error e => fail e
         | .ok ws =>
           match s.placeWrites o.agent ws with
           | .error e => fail e
           | .ok xs => ((s.noteReads o.agent (m.reads f.origin f.extent)).engWrite o.agent xs).tileLanded o i f.ring)
    | _, _ => s

/-- FOOTPRINT_COPY_LANDED. -/
def execFootprintCopyLanded (h : W64) (tile : Nat) (s : State) : Out State :=
  .next (match s.ops.find? (fun o => o.task == h && o.kind == .footprint tile) with
    | some o => if o.fault.isSome then s else s.tileCopy o tile
    | none => s)

/-! ### The round and dispatch (R39 to R42) -/

/-- The class of each of the 15 turns (R40). -/
def turnClass (n : Nat) : Nat := [0, 1, 0, 2, 0, 1, 0, 3, 0, 1, 0, 2, 0, 1, 0].getD (n % 15) 0

/-- The oldest of some tasks. -/
def oldest : List Task → Option Task
  | [] => none
  | t :: r => match oldest r with
    | some u => if u.order < t.order then some u else some t
    | none => some t

/-- The task that a turn takes among the candidates: of the turn's class, else of the highest class that has one. -/
def turnPick (turn : Nat) (cands : List Task) : Option Task :=
  match oldest (cands.filter (fun t => t.eff.val == turnClass turn)) with
  | some t => some t
  | none => ((List.range 4).filterMap (fun c => oldest (cands.filter (fun t => t.eff.val == c)))).head?

/-- A task in PREFETCH that could be dispatched now. -/
def State.dispatchable (s : State) (t : Task) : Bool :=
  t.st == .prefetch && t.fps.all (·.landed) && (s.plan t).isSome

/-- The state of a thread group at dispatch (R41, R315). -/
def Task.initTg (t : Task) (loc : TgRef) (piece tgid w pieces base : Nat) (age : Nat) : TG :=
  let kib := fwPrivls t.flagWord
  let top : W64 := BitVec.ofNat 64 (localAddr loc.core (1024 * (base + kib)))
  let arg := fun (k : Nat) => t.args.getD k 0
  { TG.zero loc with
    status := .ready, task := t.handle, piece := piece, tgid := tgid, width := w, vregs := 8 * fwVregs t.flagWord,
    uregs := fwUregs t.flagWord, super := t.super, asid := t.asid, ctx := t.asid, pc := t.entry,
    s := ((((((Vector.replicate 64 0).set 0 (arg 0)).set 1 (arg 1)).set 2 (arg 2)).set 3 (arg 3)).set 63 top),
    v := ((Vector.replicate 256 (Vector.replicate 32 0)).set 0 (Vector.ofFn (fun l : Fin 32 => BitVec.ofNat 32 l.val))).set 1
      (Vector.ofFn (fun l : Fin 32 => BitVec.ofNat 32 (tgid * 32 + l.val))),
    x := t.lmask,
    rings := Vector.ofFn (fun i : Fin 16 => match t.fps[i.val]? with
      | some f => f.ring
      | none => 0),
    scopeId := BitVec.ofNat 64 (fwScope t.flagWord),
    launchx := BitVec.ofNat 64 (t.launchx.toNat + (if 1 < pieces then piece * 2 ^ 32 + pieces * 2 ^ 40 else 0)),
    det := t.det, age := age, lsBase := localAddr loc.core (1024 * base), lsKib := kib }

/-- One piece on its core: the lowest free slots, each thread group with a block of the local store (R41). -/
def State.startPiece (s : State) (t : Task) (c : CoreId) (j w n : Nat) : State :=
  let kib := fwPrivls t.flagWord
  let bases := if kib = 0 then [] else lsPlaces kib (s.free + 4) w (s.lsBusy c)
  let slots := (s.freeTgSlots c).take w
  (slots.zipIdx).foldl (fun (s : State) x => (s.addTg (t.initTg ⟨c, x.1⟩ j x.2 w n (bases.getD x.2 1) s.seq)).bump) s.useFree

/-! ### The slices of a split task (R42, log 58) -/

/-- The j-th of n slices of a tile that has landed, for the k-th slot of the piece's share. -/
def State.sliceWrites (s : State) (t : Task) (f : Footprint) (n j k : Nat) : List BW :=
  let c := t.queue
  let fm := f.tmap.fmt
  let ag := plainAgent c.die true t.asid
  let e := sliceExt n f.extent
  match s.ring c t.asid none f.ring with
  | none => []
  | some r =>
    let mine : Ring := { r with rd := r.rd.share (t.tilesIn f.ring).length n j }
    let elem := fun (x : List Nat) =>
      let at_ := sliceAt n j f.extent x
      let code := (s.readLoc ag (slotLoc fm (r.slotAddr c f.slot) f.extent at_)).toOption.getD (0, false)
      let scale := (s.readByte ag (slotScale fm (r.slotAddr c f.slot) f.extent at_).toNat).toOption.getD (0, false)
      (⟨code.1, code.2, scale.1.toNat, scale.2, false⟩ : SrcElem)
    verbatim fm.isMx ((coordsOf e).map (fun x => (x, elem x))) (slotPlace fm (mine.slotAddr c k) e) ++
      (if r.rd.tagged then bytesWrite (mine.tagAddr c k) (tagBytes f.map (sliceAt n j f.extent f.origin)) false else [])

/-- Every piece receives its slice of each tile in a ring of its own, in the place of the whole tiles. -/
def State.giveSlices (s : State) (t : Task) (n : Nat) : State :=
  let c := t.queue
  let rings := (t.fps.map (·.ring)).eraseDups
  let ws := (List.range n).flatMap (fun j => rings.flatMap (fun a => ((t.tilesIn a).zipIdx).flatMap (fun x => s.sliceWrites t x.1 n j x.2)))
  let new := (List.range n).flatMap (fun j => rings.filterMap (fun a => ((t.tilesIn a).head?).map (fun f =>
    let k := (t.tilesIn a).length
    (⟨a, t.asid, some (t.handle, j), f.rdesc.share k n j, k, k, 0, 0, [], []⟩ : Ring))))
  (s.engWrite (plainAgent c.die true t.asid) (ws.map (fun w => (w.va, w)))).modCluster c (fun k => { k with rings := k.rings ++ new })

def satAdd (n k : Nat) : Nat := min (n + k) (2 ^ 32 - 1)

/-- The dispatch of a task to the cores of its plan (R39, R41, R42, R317). -/
def State.dispatchTo (s : State) (t : Task) (cs : List CoreId) : State :=
  let n := cs.length
  let w := fwWidth t.flagWord / n
  let s := if 1 < n then s.giveSlices t n else s
  let s : State := (cs.zipIdx).foldl (fun (s : State) x => s.startPiece t x.1 x.2 w n) s
  let s := s.modCluster t.queue (fun c => { c with
    turn := (c.turn + 1) % 15, pfUseful := satAdd c.pfUseful t.fps.length,
    pfLate := if t.firstFree.isSome then satAdd c.pfLate 1 else c.pfLate, pfDelay := c.pfDelay + t.firstFree.getD 0 })
  ((s.modTask t.handle (fun x => { x with st := .running, pieces := n, dispatched := s.seq, firstFree := none })).dropRings
    t.queue).report t.handle

/-- Dispatch goes on in P0 only, and stops until the end of POWER and CHECKPOINT (R421, R422, R450). -/
def State.dispatchStopped (s : State) : Bool := s.mgmt.power != 0 || s.mgmt.mb.stops || s.mgmt.hmb.stops

/-- DISPATCH: of the task that the cluster's turn takes. -/
def execDispatch (h : W64) (s : State) : Out State :=
  .next (if s.dispatchStopped then s else match s.task h with
    | none => s
    | some t =>
      match s.plan t, turnPick (s.cluster t.queue).turn (s.tasks.filter (fun u => u.queue == t.queue && s.dispatchable u)) with
      | some cs, some u => if u.handle = h then s.dispatchTo t cs else s
      | _, _ => s)

/-! ### Stealing (R36, R37) -/

/-- What a cluster offers to a thief: of its queued tasks of placement 3, the one it would dispatch next. -/
def State.offer (s : State) (c : ClId) : Option Task :=
  turnPick (s.cluster c).turn (s.tasks.filter (fun t => t.queue == c && t.st == .queued && fwPlace t.flagWord == 3))

/-- The cluster has nothing to dispatch and a user core with a free thread group. -/
def State.idle (s : State) (c : ClId) : Bool :=
  !s.tasks.any (fun t => t.queue == c && (s.dispatchable t || s.reservable t)) &&
  (s.userCores c).any (fun k => !(s.freeTgSlots k).isEmpty)

def State.computeClusters (s : State) : List ClId :=
  (List.range s.mode.computeDies).flatMap (fun d => (List.range 24).map (fun k => ⟨d, k⟩))

/-- Boundaries between two compute dies of the grid (R7, R8). -/
def dieDist (a b : Nat) : Nat := (a / 4 - b / 4) + (b / 4 - a / 4) + (a % 4 - b % 4) + (b % 4 - a % 4)

/-- a comes before b for the thief (R36): the nearer die first; then the nearer cluster on the mesh, with ties to the lower number. Of
dies equally near, and of the clusters of another die, R36 gives no order (log 61). -/
def nearer (thief a b : ClId) : Bool :=
  let key := fun (c : ClId) => [dieDist thief.die c.die, Config.meshDist thief c, c.cl, c.die]
  decide (key a ≤ key b)

/-- Cross-die steals of the last 10 µs. -/
def State.recentSteals (s : State) (c : ClId) : List Nat := (s.cluster c).steals.filter (fun t => decide (s.ptp.toNat < t + 10000))

/-- Whether the thief takes a task of the victim now. -/
def State.mayStealFrom (s : State) (thief victim : ClId) : Bool :=
  let others := s.computeClusters.filter (fun c => c != thief && (s.offer c).isSome)
  let near := others.filter (fun c => c.die == thief.die)
  !isGatewayDie thief.die && PartMode.hasCluster s.mode thief && (s.cluster thief).steal && s.idle thief &&
  (if near.isEmpty then others.contains victim && others.all (fun c => nearer thief victim c) &&
      decide ((s.recentSteals thief).length < (s.cluster thief).xsteal)
   else near.contains victim && near.all (fun c => nearer thief victim c))

/-- STEAL: the task joins the tail of its class at the thief; its future's entry stays where it is. -/
def execSteal (thief victim : ClId) (s : State) : Out State :=
  .next (match s.offer victim with
    | none => s
    | some t =>
      if s.mayStealFrom thief victim then
        let s := s.bump.modTask t.handle (fun x => { x with queue := thief, order := s.seq })
        s.modCluster thief (fun c =>
          { c with steals := if thief.die = victim.die then s.recentSteals thief else s.ptp.toNat :: s.recentSteals thief })
      else s)

/-! ### Issue, raises, wakes (R44, R45, R47, R301) -/

/-- CANDIDATE_AGE_EXPIRY: the thread group takes the next cycle of its slot (R44). -/
def execCandidateAgeExpiry (t : TgRef) (s : State) : Out State :=
  .next (match s.tgAt t with
    | some g => if g.status = .ready then s.focus t else s
    | none => s)

/-- PRIORITY_RAISE: a raise on its way arrives at the task's scheduler (R45). -/
def execPriorityRaise (h : W64) (cls : Fin 4) (s : State) : Out State :=
  .next (if s.raises.contains (h, cls) then
      { s with raises := dropFirst (fun r => r == (h, cls)) s.raises }.raiseNow h cls
    else s)

/-- YIELD_EXPIRY (R301). -/
def execYieldExpiry (t : TgRef) (s : State) : Out State :=
  .next (s.modTg t (fun g => match g.status with
    | .yielding u => if u ≤ s.cycle.toNat then { g with status := .ready } else g
    | _ => g))

/-- What a TOUCH that has no waiter record finds: its future settled or gone, or a record free for the chain (R67). A future of
another device settles at a time of its own, or with its device declared lost (R66). -/
def State.touchDue (s : State) (g : TG) (h : W64) : State × Option Wake :=
  if hDevice h ≠ s.devid then
    (if s.lost.contains (hDevice h) then (s, some (lostReply .touch))
     else match s.foreign .touch with
       | (s, .go) => (s, none)
       | (s, w) => (s, some w))
  else match s.fut h with
    | none => (s, some .go)
    | some f =>
      if f.st.terminal then (s, some .go)
      else if f.waiters.contains g.loc then (s, none)
      else if s.chainRoom f then (s, some .go) else (s, none)

/-- A CSAVE goes on once no request of another party stands before it (R321). -/
def State.saverDue (s : State) (h : W64) : Bool :=
  match s.task h with
  | some t => t.preempt.isNone && !t.dying
  | none => (match s.fut h with
    | some f => f.ending.isNone && !s.futMsgs.any (fun m => m.h == h)
    | none => true)

/-- The wake of a parked thread group whose condition is true (R47); none while it is not. The settling side wakes the waiters of a
scope (R84). -/
def State.wakeDue (s : State) (g : TG) : State × Option Wake :=
  match g.wake, g.status with
  | some w, .parked _ _ => (s, some w)
  | none, .parked k o =>
    (match k with
     | 1 => if g.saver o then (s, if s.saverDue o then some .go else none) else s.touchDue g o
     | 6 => (s, if o = 0 ∧ (s.core g.loc.core).mowner = 0 then some .go else none)
     | 7 => (s, if (s.core g.loc.core).recvList.any (fun m => o.getLsbD m.cls) then some .go else none)
     | 8 => (s, if (s.freeEntry g.loc.core.cluster false).isSome || s.recordFree g.ctx then some .go else none)
     | 9 => (s, if State.cond { s with me := g } o.toNat then some .go else none)
     | 10 => (s, if (s.core g.loc.core).log.any (fun e => e.tg == g.loc) then none else some .go)
     | _ => (s, none))
  | _, _ => (s, none)

/-- WAKE: the thread group executes its waiting instruction again (R47, R288). -/
def execWake (t : TgRef) (s : State) : Out State :=
  .next (match s.tgAt t with
    | none => s
    | some g =>
      match s.wakeDue g with
      | (s, some w) => s.modTg t (fun x => { x with wake := some w, status := .ready })
      | (s, none) => s)

/-! ### Quiescence and DEADLOCK (R50, R51) -/

def TG.isParked (g : TG) : Bool :=
  match g.status with
  | .parked _ _ => true
  | _ => false

/-- Nothing of R50's list is in flight for the context; the receive list counts with the inbox (R307). -/
def State.nothingInFlight (s : State) (a : Half) : Bool :=
  let mine := fun (h : W64) => s.tasks.any (fun t => t.handle == h && t.asid == a)
  let futOf := fun (h : W64) => (s.fut h).any (fun f => f.asid == a)
  !s.ops.any (fun o => o.asid == a) && !s.faults.any (fun f => f.asid == a) &&
  !s.msgs.any (fun m => m.asid == a) && !s.cores.any (fun c => (c.2.inbox ++ c.2.spill ++ c.2.recvList).any (fun m => m.asid == a)) &&
  !s.cores.any (fun c => c.2.log.any (fun e => e.asid == a)) &&
  !s.reqs.any (fun r => futOf r.h || (r.dev.isNone && (s.tgAt r.tg).any (fun g => g.ctx == a))) &&
  !s.futMsgs.any (fun m => futOf m.h) && !s.scopeMsgs.any (fun m => m.asid == a) && !s.raises.any (fun r => mine r.1)

/-- The spawner of a queued task is parked (R50). -/
def State.spawnerParked (s : State) (t : Task) : Bool := (s.task t.spawner).any s.taskParked

/-- Every task of the context is parked with no wake due and no debugger's halt (R419), or queued behind a parked spawner, and nothing is in flight (R50). -/
def State.quiescent (s : State) (a : Half) : Bool :=
  let ts := s.tasks.filter (fun t => t.asid == a)
  !ts.isEmpty &&
  ts.all (fun t => !t.dying && (match t.st with
    | .running => s.taskParked t && (s.tgsOf t.handle).all (fun g => !g.dbg && g.wake.isNone && (s.wakeDue g).2.isNone)
    | .queued => s.spawnerParked t
    | .saved => true
    | _ => false)) &&
  s.nothingInFlight a

/-- The waits of a context, as R51 lists them: handle, object, kind, TGID. Those of resident thread groups; a saved task counts as parked
and has none there (log 136). -/
def State.waits (s : State) (a : Half) : List (W64 × W64 × Nat × Nat) :=
  (s.tasks.filter (fun t => t.asid == a)).flatMap (fun t => (s.tgsOf t.handle).filterMap (fun g =>
    match g.status with
    | .parked k o => some (t.handle, o, k, g.tgid)
    | _ => none))

/-- The base of a context's hamper, and of its report area (R51, R70). -/
def Ctx.reportArea (c : Ctx) : Nat := c.hbase + 32 * 2 ^ c.logn

/-- DEADLOCK: the report, then the event; once for each unbroken period (R50). -/
def execDeadlock (asid : Half) (s : State) : Out State :=
  .next (
    let c := s.ctx asid
    match c.quietSince with
    | none => s
    | some t =>
      if c.deadlocked || decide (s.ptp.toNat < t + 50000) || !s.quiescent asid then s
      else
        let ws := s.waits asid
        let area := c.reportArea
        let s : State := ((ws.take 2048).zipIdx).foldl (fun (s : State) x =>
          s.hwWrite asid (area + 32 * x.2) (layout 32 [(0, 8, x.1.1.toNat), (8, 8, x.1.2.1.toNat), (16, 1, x.1.2.2.1), (17, 1, x.1.2.2.2)])) s
        (s.modCtx asid (fun c => { c with deadlocked := true })).post 0x12 0 0 asid
          [(16, 4, ws.length), (20, 1, if 2048 < ws.length then 1 else 0), (24, 8, area)])

/-- A thread group whose park falls under R73: SPAWN or FNEW, or a TOUCH without a record for its chain (R67). -/
def State.hamperWait (s : State) (g : TG) : Bool :=
  match g.status with
  | .parked 8 _ => true
  | .parked 1 h => g.wake.isNone && !g.saver h && (match s.fut h with
    | some f => !f.st.terminal && !f.waiters.contains g.loc
    | none => false)
  | _ => false

/-- The engine of a wait still has something to do. -/
def State.waiterLives (s : State) (who : Waiter) : Bool :=
  match who with
  | .op id => s.ops.any (fun o => o.id == id)
  | .task h => s.tasks.any (fun t => t.handle == h)
  | .mreq id => s.mreqs.any (fun r => r.id == id)
  | .fut h => (s.fut h).any (·.spilled.isSome)
  | .pkt id => s.pkts.any (fun p => p.id == id)
  | .queue _ => true

/-- A single step of the debugger ends with its group (R419). -/
def TG.afterStep (g : TG) : TG := if g.stepping = 2 ∧ g.cur.isNone then { g with stepping := 0, dbg := true } else g

/-- HALT, or a BREAK that halts, has stopped it. -/
def TG.isHalted (g : TG) : Bool :=
  match g.status with
  | .halted _ => true
  | _ => false

/-- A thread group of the task is halted (R419). -/
def State.taskHalted (s : State) (h : W64) : Bool := (s.tgsOf h).any (fun g => g.isHalted || g.dbg)

/-- The limit of R54 runs on, or stands still while a thread group of the task is halted. -/
def State.countLimit (s : State) (t : Task) : Task :=
  match t.preempt with
  | some p => { t with preempt := some { p with
      since := if s.taskHalted t.handle then p.since + (s.cycle.toNat - p.seen) else p.since, seen := s.cycle.toNat } }
  | none => t

/-- Where a quiescent period of a context begins and ends (R50), and whether a wait of R73 still lasts. -/
def State.noteCtx (s : State) (a : Half) : State :=
  let c := s.ctx a
  let s := if s.quiescent a then (if c.quietSince.isNone then s.modCtx a (fun c => { c with quietSince := some s.ptp.toNat }) else s)
    else if c.quietSince.isSome then s.modCtx a (fun c => { c with quietSince := none, deadlocked := false }) else s
  if c.fullPosted && !s.allTgs.any (fun g => g.ctx == a && s.hamperWait g) then
    s.modCtx a (fun c => { c with fullPosted := false }) else s

/-! ### Accesses by the host (R365) -/

def State.hostGot (s : State) (bs : List Byte) : State := s.modMgmt (fun m => { m with hostOut := m.hostOut ++ bs })

/-- The host's agent at the home slice of a line. -/
def State.hostAgent (s : State) (asid : Half) (va : Nat) : Agent := plainAgent (homeDie s.mode s.sup.active va) false asid

/-- A load or store that the home cannot perform has no effect but the event of a misplaced frame (R92). -/
def State.hostFail (s : State) (asid : Half) : EFail → State
  | .fatal va (some pa) => s.misplaced asid ⟨homeDie s.mode s.sup.active va, 0, 0⟩ va pa
  | _ => s

/-- A load or store by the host through the device's mapping; none while its page is under darning (R398, R400). -/
def State.hostNow (s : State) : HostAcc → Option State
  | .load asid va z =>
    match (List.range z).mapM (fun k => s.readByte (s.hostAgent asid (va.toNat + k)) (va.toNat + k)) with
    | .ok bs => some (s.hostGot (bs.map (·.1)))
    | .error .stall => none
    | .error e => some (s.hostFail asid e)
  | .store asid va bs =>
    let g := s.hostAgent asid va.toNat
    match s.placeWrites g (bytesWrite va.toNat bs false) with
    | .ok xs => some (s.engWrite g xs)
    | .error .stall => none
    | .error e => some (s.hostFail asid e)
  | _ => some s

/-- Host accesses that waited are performed, oldest first, up to one that must wait still. -/
def State.flushHost : Nat → State → State
  | 0, s => s
  | k + 1, s =>
    match s.hostq with
    | [] => s
    | a :: r =>
      match s.hostNow a with
      | some s => State.flushHost k { s with hostq := r }
      | none => s

/-- What the entries and the schedulers do between themselves after every step: writes of the hardware and accesses of the host that can
go on do, tasks that end and have drained let go, entries that hold an action settle, and each task's state is reported to its entry (R62, R64, R79, R360, R398). -/
def State.settleAll (s : State) : State :=
  let s := State.flushHw s.hwq.length s
  let s := State.flushHost s.hostq.length s
  let s : State := ((s.tasks.filter (·.dying)).map (·.handle)).foldl State.reapTask s
  let s : State := ((s.futs.filter (·.ending.isSome)).map (·.h)).foldl State.settleHeld s
  (s.tasks.map (·.handle)).foldl State.report s

/-- After every step: the above, the periods of the contexts, waits of engines that have gone, the debugger's single step, the limits of
R54, and since when a permitted core has been free for a task whose tiles have not landed (R317). -/
def State.afterStep (s : State) : State :=
  let s := s.settleAll
  let as_ := ((s.tasks.map (·.asid)) ++ (s.ctxs.filter (fun c => c.2.quietSince.isSome || c.2.fullPosted)).map (·.1)).eraseDups
  let s : State := as_.foldl State.noteCtx s
  let s : State := if s.engWaits.all (fun w => s.waiterLives w.who) then s
    else { s with engWaits := s.engWaits.filter (fun w => s.waiterLives w.who) }.pruneFaults
  let s : State := if s.engWords = [] then s else { s with engWords := s.engWords.filter (fun x => s.waiterLives x.1) }
  let s : State := { s with
    me := s.me.afterStep,
    tasks := if s.tasks.any (fun t => t.preempt.isSome) then s.tasks.map s.countLimit else s.tasks,
    tgs := s.tgs.map TG.afterStep }
  if s.tasks.any (fun t => t.st == .prefetch) then
    { s with tasks := s.tasks.map (fun t =>
        if t.st == .prefetch && !t.fps.all (·.landed) then
          { t with firstFree := if (s.plan t).isSome then some (t.firstFree.getD s.cycle.toNat) else none }
        else t) }
  else s

/-! ### Requests and replies on message class 0 (R66, R84, R360) -/

/-- A request at its entry: applied once, when a spilled entry has come back and none of its actions is held (R63). The reply to a
thread group of another device leaves the device (R66). -/
def State.serveReq (s : State) (r : Req) : State :=
  if r.reply.isSome then s
  else match s.act (hTable r.h) r.dev r.tg r.op r.h r.v r.vp r.eff with
    | none => s
    | some (s, w) =>
      match r.dev with
      | none => { s with reqs := updFirst (fun x => x.id == r.id) (fun x => { x with reply := some w }) s.reqs }
      | some d => { s with reqs := s.reqs.filter (fun x => x.id != r.id), farOut := s.farOut ++ [(⟨d, r.tg⟩, w)] }

/-- A scheduler's report reaches its entry, behind those before it (R360); a spilled one comes back first (R63). -/
def State.serveNote (s : State) (m : FutMsg) : State :=
  if (s.futMsgs.find? (fun x => x.h == m.h)).any (fun x => x.id == m.id) then
    match s.noteNow m.h m.note with
    | (s, true) => ({ s with futMsgs := s.futMsgs.filter (fun x => x.id != m.id) } : State).settleHeld m.h
    | (s, false) => s
  else s

/-- FUTURE_REQUEST: a message of class 0 arrives at an entry: a request of this device, a scheduler's report, or a request that a thread
group of another device sends (R66, R360), which wakes this one (R422). -/
def execFutureRequest (q : FutReq) (s : State) : Out State :=
  .next (match q with
    | .own id =>
      (match s.reqs.find? (fun r => r.id == id), s.futMsgs.find? (fun m => m.id == id) with
       | some r, _ => s.serveReq r
       | none, some m => s.serveNote m
       | none, none => s)
    | .far d t op h v vp eff =>
      if d = s.devid ∨ hDevice h ≠ s.devid then s
      else
        let r : Req := ⟨s.seq, some d, t, op, h, v, vp, eff, none⟩
        ({ s.bump with reqs := s.reqs ++ [r] } : State).wakeUp.serveReq r)

/-- FUTURE_REPLY: the reply reaches the stalled thread group; an outcome that overtook it stands. -/
def execFutureReply (id : Nat) (s : State) : Out State :=
  .next (match s.reqs.find? (fun r => r.id == id) with
    | none => s
    | some r =>
      match r.reply with
      | none => s
      | some w =>
        let s : State := { s with reqs := s.reqs.filter (fun x => x.id != id) }
        s.modTg r.tg (fun g => if g.phase.req = some id then { g with wake := g.wake.or (some w) } else g))

/-- SCOPE_UPDATE: a task or child leaves its scope at the scope records, behind the settlement of its future (R300, R360). -/
def execScopeUpdate (id : Nat) (s : State) : Out State :=
  .next (match s.scopeMsgs.find? (fun m => m.id == id) with
    | none => s
    | some m => if s.settled m.task = false then s else { s with scopeMsgs := s.scopeMsgs.filter (fun x => x.id != id) }.scopeLeaveNow m.asid m.scope)

/-! ### The hamper (R70 to R74) -/

/-- Free entries of a cluster's table (R72, R316). -/
def State.freeEntries (s : State) (c : ClId) : Nat := 8192 - (s.resident c).length

/-- The order in which entries are chosen for spilling (R72). -/
def State.spillRank (s : State) (f : Fut) : Nat × Nat :=
  if f.st.terminal && f.waiters.isEmpty && f.far.isEmpty then (0, f.settledAt)
  else if f.st = .queued then (1, s.seq - ((s.task f.h).map (·.order)).getD f.order)
  else if f.promise && f.waiters.isEmpty && f.far.isEmpty then (2, f.order)
  else (3, f.order)

/-- The first in that order. -/
def State.spillFirst (s : State) : List Fut → Option Fut
  | [] => none
  | f :: r =>
    match s.spillFirst r with
    | none => some f
    | some g =>
      let a := s.spillRank f
      let b := s.spillRank g
      if a.1 < b.1 ∨ (a.1 = b.1 ∧ a.2 ≤ b.2) then some f else some g

/-- Write one entry to the lowest free record of its context (R71); none where the record cannot be written now. -/
def State.spillFut (s : State) (f : Fut) : Option State :=
  let cx := s.ctx f.asid
  match lowest (fun i => !cx.usedRecs.contains i) (2 ^ cx.logn) 0 with
  | none => none
  | some r =>
    match s.hwAddr f.asid true .store (s.recordAddr f.asid r) 32 with
    | .at_ _ | .slow _ => some (((s.hwWrite f.asid (s.recordAddr f.asid r) (recordBytes f.h)).modFut f.h
        (fun x => { x with spilled := some r })).modCtx f.asid (fun k => { k with usedRecs := insertNat r k.usedRecs }))
    | _ => none

/-- An action of the thread group waits at its stall for the entry of a handle (R63). -/
def TG.acts (g : TG) (h : W64) : Bool :=
  g.status == .stalled && (match g.cur with
    | some (.poll _ _ a) | some (.resolve _ _ a _) | some (.ffault _ _ a _) | some (.cancel _ _ a) | some (.release _ a)
    | some (.touch _ _ a) | some (.touchc _ _ a _) => g.sget a == h
    | some (.cTouch _ a) => g.sget (CReg.u a) == h
    | some (.cancelDeep ..) => (g.phase.todo.getD []).contains h
    | _ => false)

/-- The entries of a table that may be spilled: none of an area that moves or is full, and none that has an action waiting (R63). -/
def State.spillable (s : State) (c : ClId) : List Fut :=
  (s.resident c).filter (fun f => !(s.ctx f.asid).moving && s.recordFree f.asid && f.ending.isNone &&
    !s.reqs.any (fun r => r.h == f.h && r.reply.isNone) && !s.futMsgs.any (fun m => m.h == f.h) && !s.allTgs.any (fun g => g.acts f.h))

/-- Spill the first entry, in the order of R72, whose record can be written. -/
def State.spillSome (s : State) : Nat → List Fut → Option State
  | 0, _ => none
  | k + 1, fs =>
    match s.spillFirst fs with
    | none => none
    | some f => (s.spillFut f).or (s.spillSome k (fs.filter (fun x => x.h != f.h)))

def State.spillOne (s : State) (c : ClId) : Option State := s.spillSome (s.spillable c).length (s.spillable c)

def State.spillUntil (c : ClId) : Nat → State → State
  | 0, s => s
  | k + 1, s =>
    if 1024 ≤ s.freeEntries c then s
    else match s.spillOne c with
      | some s => State.spillUntil c k s
      | none => s

/-- A record that an entry would be spilled to lies on the wrong controller: its event (R92). -/
def State.spillMisplaced (s : State) (c : ClId) : State :=
  let place := fun (f : Fut) =>
    match lowest (fun i => !(s.ctx f.asid).usedRecs.contains i) (2 ^ (s.ctx f.asid).logn) 0 with
    | none => none
    | some r =>
      match s.hwAddr f.asid true .store (s.recordAddr f.asid r) 32 with
      | .misplaced pa => some (f.asid, s.recordAddr f.asid r, pa)
      | _ => none
  match (s.spillable c).findSome? place with
  | some (a, va, pa) => s.misplaced a ⟨c.die, c.cl, 0⟩ va pa
  | none => s

/-- SPILL: fewer than 512 entries are free. -/
def execSpill (c : ClId) (s : State) : Out State :=
  .next (if s.freeEntries c < 512 then State.spillUntil c 1024 (s.spillMisplaced c) else s)

/-- REFILL. -/
def execRefill (h : W64) (s : State) : Out State := .next (s.refillFut h)

/-- FAILSP (R74): every SPAWN and FNEW of the context parked under R73 receives a FAULTED future from the reserve. R87 names no scope
for it: it takes that of R291 and R298, which SCOPEID names while it is OPEN or CLOSED (log 112). -/
def State.failsp (s : State) (a : Half) : State :=
  let waits := s.allTgs.filter (fun g => g.ctx == a && (match g.status with
    | .parked 8 _ => g.wake.isNone
    | _ => false))
  waits.foldl (fun (s : State) g =>
    match s.freeEntry g.loc.core.cluster true with
    | none => s
    | some (slot, gen) =>
      let own := s.ownScope a g.scopeId
      let lin := (s.task g.task).bind (·.lineage)
      let base := BitVec.ofNat 64 (s.ctx a).hbase
      let (s, h) := s.newFut g.loc.core.cluster slot gen (fun h =>
        { Fut.new h a .faulted own lin s.seq with code := kHAMPER, addr := base })
      s.modTg g.loc (fun x => { x with wake := some (.value h false) })) s

def execFailsp (asid : Half) (s : State) : Out State := .next (s.failsp asid)

/-- The fields of HAMPER; a value that traps writes nothing (R70). -/
def hamperOk (v : W64) : Bool :=
  let n := v.toNat
  fieldOf n 57 7 == 0 && fieldOf n 6 10 == 0 && decide (10 ≤ fieldOf n 0 5) && decide (fieldOf n 0 5 ≤ 26)

/-- A write of HAMPER for a context: with records spilled, a change of the area starts their move; then FAILSP. -/
def State.hamperWrite (s : State) (a : Half) (v : W64) : State :=
  let c := s.ctx a
  let base := fieldOf v.toNat 16 41 * 2 ^ 16
  let logn := fieldOf v.toNat 0 5
  let move := (base != c.hbase || logn != c.logn) && s.usedRecords a != 0
  let s := s.modCtx a (fun c => { c with hbase := base, logn := logn, moving := c.moving || move,
                                         oldBase := if c.moving then c.oldBase else c.hbase })
  if bitOf v.toNat 5 then s.failsp a else s

def execHamper (asid : Half) (v : W64) (s : State) : Out State := .next (if hamperOk v then s.hamperWrite asid v else s)

/-- The bytes of a spilled entry's record in the area that its context leaves, each with its poison: some none where it cannot be read, none
while it waits for a page under darning or has words left to read (R366). -/
def State.oldRecord (s : State) (f : Fut) : State × Option (Option (List (Byte × Bool))) :=
  let va := (s.ctx f.asid).oldBase + 32 * f.spilled.getD 0
  match s.hwAddr f.asid true .load va 32 with
  | .at_ a => (s, some (some ((List.range 32).map (fun k => (memGet s.mem (a + k), isPoisoned s.poison (a + k) 1)))))
  | .slow a =>
    match s.hwGather (.fut f.h) va 32 a with
    | (s, bs) => (s, bs.map some)
  | .stall => (s, none)
  | .misplaced pa => (s.misplaced f.asid ⟨(hTable f.h).die, (hTable f.h).cl, 0⟩ va pa, some none)
  | _ => (s, some none)

/-- Those of some entries, all of them read. -/
def State.oldRecords (s : State) : List Fut → State × Option (List (Fut × Option (List (Byte × Bool))))
  | [] => (s, some [])
  | f :: r =>
    match s.oldRecord f with
    | (s, none) => (s, none)
    | (s, some b) =>
      match s.oldRecords r with
      | (s, none) => (s, none)
      | (s, some bs) => (s, some ((f, b) :: bs))

/-- A moved record at its new place, with its poison; one that could not be read is not written, and fails its check (R71). -/
def State.putRecord (s : State) (f : Fut) (n : Nat) (b : Option (List (Byte × Bool))) : State :=
  let va := s.recordAddr f.asid n
  let s : State := match b, s.hwAddr f.asid true .store va 32 with
    | some bs, .at_ a =>
      let t := s.hwPut f.asid va a (bs.map (fun x => x.1))
      if bs.any (fun x => x.2) then t.onSoc (·.put a (bs.map (fun x => x.1)) true) else t
    | some bs, .slow _ => if bs.any (fun x => x.2) then s else s.hwWrite f.asid va (bs.map (fun x => x.1))
    | _, .misplaced pa => s.misplaced f.asid ⟨(hTable f.h).die, (hTable f.h).cl, 0⟩ va pa
    | _, _ => s
  s.modFut f.h (fun f => { f with spilled := some n })

/-- What a context's hamper has to move. -/
def State.spilledOf (s : State) (a : Half) : List Fut := s.futs.filter (fun f => f.asid == a && f.spilled.isSome)

/-- The records of a move once all of them can be read and have their places: none while hardware writes of the context wait, or a page of
either area is under darning. -/
def State.moveRead (s : State) (a : Half) : State × Option (List (Fut × Option (List (Byte × Bool)))) :=
  let fs := s.spilledOf a
  if s.hwq.any (fun j => match j with | .write x _ _ => x == a | _ => false) ||
      (List.range fs.length).any (fun n => s.hwAddr a true .store (s.recordAddr a n) 32 == .stall) then (s, none)
  else s.oldRecords fs

/-- HAMPER_MOVED: every record is in the new area, numbered from 0 (log 37), and the event is posted (R70). -/
def execHamperMoved (asid : Half) (s : State) : Out State :=
  .next (
    let c := s.ctx asid
    if c.moving then
      match s.moveRead asid with
      | (s, none) => s
      | (s, some rs) =>
        let s : State := (rs.zipIdx).foldl (fun (s : State) x => s.putRecord x.1.1 x.2 x.1.2) s
        (s.modCtx asid (fun c => { c with moving := false, usedRecs := List.range rs.length })).post 0x104 0 0 asid
          [(24, 8, c.hbase), (32, 1, c.logn)]
    else s)

/-- HAMPER_FULL: a park of R73 has lasted 10 ms (R73). -/
def execHamperFull (asid : Half) (s : State) : Out State :=
  .next (
    let c := s.ctx asid
    if !c.fullPosted && s.allTgs.any (fun g => g.ctx == asid && s.hamperWait g && decide (g.parkedAt + 10000000 ≤ s.ptp.toNat)) then
      (s.modCtx asid (fun c => { c with fullPosted := true })).post 0x103 0 0 asid [(24, 8, c.hbase)]
    else s)

end Sys2Proof.Machine
end

