-- ==== Sys2Proof/Machine/Save.lean ====
section
/-! DEFINITION. Pre-emption: the save area (R336 to R340), the saves at safe points and by force (R52 to R55), CSAVE and CREST (R321),
and the resumption of a saved task (R341, R342). -/

namespace Sys2Proof.Machine

open Sys2Proof

/-- Bytes of a record, each with its poison. -/
abbrev PBytes := List (Byte × Bool)

def cleanB (bs : List Byte) : PBytes := bs.map (fun b => (b, false))
def zeroB (n : Nat) : PBytes := List.replicate n (0, false)

/-- Pad to the 256-byte boundary on which the next record begins (R336). -/
def pad256 (bs : PBytes) : PBytes := bs ++ zeroB (alignUp 256 bs.length - bs.length)

/-- Bytes of storage with their poison. -/
def State.storage (s : State) (a n : Nat) : PBytes := (List.range n).map (fun k => (memGet s.mem (a + k), isPoisoned s.poison (a + k) 1))

/-! ### Thread-group records (R338) -/

/-- The blocks that a mask word marks live and that hold an allocated register (R53, R180). -/
def vBlocks (g : TG) (m : Nat) : List Nat := (List.range 8).filter (fun b => bitOf m (7 + b) && decide (32 * b < g.vregs))
def sBlocks (g : TG) (m : Nat) : List Nat := (List.range 8).filter (fun b => bitOf m (15 + b) && (decide (8 * b < g.uregs) || b == 7))
def hBlocks (m : Nat) : List Nat := (List.range 4).filter (fun b => bitOf m (23 + b))

/-- The word of a full save: every allocated block live, ALIVE and PLIVE set. -/
def fullMask (g : TG) : Nat :=
  59 + 2 ^ 28 + 2 ^ 27 + 15 * 2 ^ 23 +
  (List.range 8).foldl (fun n b => n + b2n (decide (32 * b < g.vregs)) (7 + b) + b2n (decide (8 * b < g.uregs) || b == 7) (15 + b)) 0

def vBytes (g : TG) (b : Nat) : PBytes :=
  let reg := fun (j : Nat) => if 32 * b + j < g.vregs then g.v.toList.getD (32 * b + j) (Vector.replicate 32 0) else Vector.replicate 32 0
  let poi := fun (j : Nat) => if 32 * b + j < g.vregs then g.vp.toList.getD (32 * b + j) 0 else 0
  cleanB ((List.range 32).flatMap (fun j => (reg j).toList.flatMap (fun w => bytesOf 4 w.toNat))) ++
  cleanB ((List.range 32).flatMap (fun j => bytesOf 4 (poi j).toNat))

/-- s62 and s63 are always allocated (R33). -/
def TG.hasS (g : TG) (n : Nat) : Bool := decide (n < g.uregs) || decide (62 ≤ n)

def sBytes (g : TG) (b : Nat) : PBytes :=
  cleanB ((List.range 8).flatMap (fun n => bytesOf 8 (if g.hasS (8 * b + n) then (g.s.toList.getD (8 * b + n) 0).toNat else 0))) ++
  cleanB (bytesOf 8 ((List.range 8).foldl (fun a n => a + b2n (g.hasS (8 * b + n) && g.sp.getLsbD (8 * b + n)) n) 0))

def bitsOf (l : List Nat) : Nat := l.foldl (fun a k => a + 2 ^ k) 0

def State.hBytes (s : State) (g : TG) (b : Nat) : PBytes :=
  (List.range 4).flatMap (fun n =>
    let d := g.rings.toList.getD (4 * b + n) 0
    match s.ring g.loc.core.cluster g.asid g.part d with
    | some r => if d = 0 then zeroB 96 else
      cleanB (layout 96 [(0, 8, d.toNat), (8, 2, r.w), (10, 2, r.c), (12, 2, r.r), (14, 2, r.f), (16, 32, bitsOf r.landed), (48, 32, bitsOf r.freed)])
    | none => zeroB 96)

/-- The wait that a record names, pending until its outcome is applied (R55); a thread group is saved parked, or after a group. -/
def TG.waitOf (g : TG) : Nat × W64 :=
  match g.status with
  | .parked k o => (k, o)
  | _ => (0, 0)

/-- The control part. -/
def controlPart (g : TG) (m : Nat) (runnable : Bool) : PBytes :=
  let p := bitOf m 28
  let pf := fun (i : Nat) => if p then (g.p.toList.getD i 0).toNat else 0
  let pq := fun (i : Nat) => if p then (g.pp.toList.getD i 0).toNat else 0
  let is := (List.range 7).map (· + 1)
  cleanB (layout 256 (
    [(0, 8, g.pc.toNat), (8, 4, m), (12, 4, if p then g.x.toNat else 0)] ++
    is.map (fun i => (12 + 4 * i, 4, pf i)) ++ is.map (fun i => (40 + 4 * i, 4, pq i)) ++
    [(72, 1, g.k.toNat / 2 * 2), (73, 1, g.kp.toNat / 2 * 2),
     (74, 1, b2n g.qpoison 0 + b2n g.barArrived 1 + b2n runnable 2 + b2n g.super 3), (75, 1, g.waitOf.1), (80, 8, g.waitOf.2.toNat),
     (88, 8, g.qctx.toNat), (96, 8, g.qbase.toNat), (104, 8, g.scopeId.toNat), (112, 8, g.trapBase.toNat), (120, 8, g.trapCause.toNat),
     (128, 8, g.trapPc.toNat), (136, 8, g.trapAddr.toNat), (144, 8, g.trapInfo.toNat), (152, 8, g.trapSave.toNat),
     (160, 8, g.launchx.toNat), (168, 2, g.cntSel.toNat), (170, 2, g.asid.toNat)]))

def State.tgRecord (s : State) (g : TG) (m : Nat) (runnable : Bool) : PBytes :=
  controlPart g m runnable ++ (vBlocks g m).flatMap (vBytes g) ++ (sBlocks g m).flatMap (sBytes g) ++ (hBlocks m).flatMap (s.hBytes g) ++
  s.storage g.lsBase (1024 * g.lsKib)

/-! ### The other records (R339) -/

/-- A tile in the MSAVE layout. -/
def tileRecord (t : Tile) (ctx : Option FmtCtx) : PBytes :=
  (List.range 16384).flatMap (fun n => (kget .zero t.elems n).xBytes.map (fun b => (b, t.pois.contains n))) ++
  (List.range 16384).flatMap (fun n => (bytesOf 4 (kget .zero t.elems n).ctl).map (fun b => (b, t.pois.contains n))) ++
  cleanB (bytesOf 32 t.status) ++ cleanB (ctxBytes ctx)

/-- The kind of a side-log record. -/
def StOp.logKind : StOp → Nat
  | .store | .read _ => 0
  | .atom m => m + 1
  | .nibLo => 14
  | .nibHi => 15

/-- The bytes that an entry puts into its line's record: an atomic's operands from its word on, as far as the line goes. -/
def StEnt.recordBytes (e : StEnt) : List (Nat × Byte) :=
  let at_ := min (e.va.toNat % 128) (128 - e.data.length)
  (e.data.zipIdx).map (fun b => (at_ + b.2, b.1))

/-- The bytes that an entry masks. -/
def StEnt.recordMask (e : StEnt) : List Nat := (List.range (min e.size e.data.length)).map (fun k => e.va.toNat % 128 + k)

/-- One record: entries of one line and one kind. Of lanes that store to one byte the highest stands (R230). A poisoned entry's bytes are
written poisoned. The operands of a compare-and-swap need more room than its word: each has a record of its own (log 24). -/
def logRecord (tgid : Nat) (es : List StEnt) : PBytes :=
  match es with
  | [] => []
  | e :: _ =>
    let mask := (es.flatMap StEnt.recordMask).foldl (fun m k => m ||| 2 ^ k) 0
    let bs : KMap Nat (Byte × Bool) := es.foldl (fun m x => x.recordBytes.foldl (fun m b => kset b.1 (b.2, x.poison) m) m) []
    cleanB (layout 32 [(0, 8, lineOf e.va.toNat), (8, 2, e.asid.toNat), (10, 1, e.op.logKind), (11, 1, tgid), (16, 16, mask)]) ++
      (List.range 128).map (fun k => kget (0, false) bs k)

/-- The entries of one group in layers: one record for each kind, and for each lane that names a word again. -/
def layersOf : Nat → List StEnt → List (List StEnt)
  | 0, _ => []
  | _, [] => []
  | k + 1, e :: r =>
    let alone := match e.op with
      | .atom m => m == 7 || m == 9
      | _ => false
    let take := if alone then [e] else (r.foldl (fun (acc : List StEnt) x =>
      if x.op == e.op && !(acc.any (fun y => y.va == x.va && (match x.op with | .store => false | _ => true))) then acc ++ [x] else acc) [e])
    take :: layersOf k ((e :: r).filter (fun x => !take.contains x))

/-- The records of a piece's side-log entries, in log order. -/
def logImages (s : State) (l : List StEnt) : List PBytes :=
  (groupLines l.length l).flatMap (fun g => (layersOf g.length g).map (fun es =>
    logRecord (((es.head?.bind (fun e => s.tgAt e.tg)).map (·.tgid)).getD 0) es))

/-- A stopped stream: descriptor, next row, token, handle, TGID. -/
def gatherRecord (s : State) (o : EngOp) : PBytes :=
  match o.kind with
  | .gather _ _ row _ _ =>
    cleanB (layout 32 [(0, 8, o.pktAddr.toNat), (8, 4, row), (12, 1, o.tok.getD 0), (13, 1, o.handles.headD 0),
      (14, 1, ((o.tg.bind s.tgAt).map (·.tgid)).getD 0)])
  | _ => []

/-! ### The area (R336, R337) -/

/-- Records laid one after another, each on its boundary: the bytes, and where each begins. -/
def layRecords : List PBytes → PBytes → List Nat → PBytes × List Nat
  | [], acc, offs => (acc, offs)
  | r :: rs, acc, offs => let a := pad256 acc; layRecords rs (a ++ r) (offs ++ [a.length])

/-- A thread group to be saved, its mask, and RUNNABLE. -/
abbrev SaveTg := TG × Nat × Bool

/-- Thread groups in the order of their TGIDs (R336). -/
def byTgid (gs : List SaveTg) : List SaveTg := (List.range 8).filterMap (fun k => gs.find? (fun x => x.1.tgid == k))

/-- A piece holds the tiles of its core (R252). -/
def State.holdsTiles (s : State) (t : Task) (gs : List SaveTg) : Bool :=
  match gs with
  | x :: _ => (s.core x.1.loc.core).mowner == t.handle && (s.core x.1.loc.core).mpiece == x.1.piece
  | [] => false

/-- The bytes of a save of one piece, with an accumulator record or without, and with the task's reservations or without. -/
def State.saveImage (s : State) (t : Task) (gs0 : List SaveTg) (log : List StEnt) (streams : List EngOp) (forced acc res : Bool) : PBytes :=
  let gs := byTgid gs0
  let reserved := if res then t.reserved else []
  let core := match gs with
    | x :: _ => x.1.loc.core
    | [] => ⟨0, 0, 0⟩
  let c := s.core core
  let accRec := if s.holdsTiles t gs then tileRecord c.a0 c.mctx ++ tileRecord c.a1 c.mctx else tileRecord .zero none ++ tileRecord .zero none
  let logRecs := logImages s log
  let spad := reserved.flatMap (fun r => s.storage (spadAddr core.cluster r.1) (r.2 - r.1))
  let tgRecs := gs.map (fun x => s.tgRecord x.1 x.2.1 x.2.2)
  let (b1, o1) := layRecords tgRecs (zeroB 256) []
  let (b2, o2) := if acc then layRecords [accRec] b1 [] else (b1, [0])
  let (b3, o3) := if logRecs.isEmpty then (b2, [0]) else layRecords logRecs b2 []
  let (b4, o4) := if streams.isEmpty then (b3, [0]) else layRecords (streams.map (gatherRecord s)) b3 []
  let (b5, o5) := if reserved.isEmpty then (b4, [0]) else layRecords [spad] b4 []
  let width := match gs with
    | x :: _ => x.1.width
    | [] => 0
  let fw := t.flagWord.toNat - fieldOf t.flagWord.toNat 2 2 * 4 + t.own.val * 4
  let hdr := layout 256 (
    [(0, 4, 0x56535844), (4, 2, 1), (6, 2, b2n forced 0 + b2n acc 1 + b2n t.k10 2), (8, 8, t.handle.toNat), (16, 8, fw),
     (24, 1, t.eff.val + 4 * t.own.val), (25, 1, width), (26, 1, core.core), (28, 2, logRecs.length), (30, 2, streams.length),
     (32, 8, b5.length), (40, 8, o2.headD 0), (48, 8, o3.headD 0), (56, 8, o4.headD 0)] ++
    (gs.zip o1).map (fun x => (64 + 8 * x.1.1.tgid, 8, x.2)) ++
    ((reserved.take 4).zipIdx).flatMap (fun x => [(128 + 8 * x.2, 4, x.1.1), (132 + 8 * x.2, 4, x.1.2 - x.1.1)]) ++
    [(160, 8, o5.headD 0)])
  cleanB hdr ++ b5.drop 256

/-! ### When a task may be saved (R52, R54, R55) -/

/-- A wait whose outcome is recorded completes before the save (R55). -/
def State.finishWait (s : State) : Option State :=
  let done := fun (o : Out State) => match o with
    | .next s => some s
    | _ => none
  match s.me.cur with
  | some (.touch g d a) => done (execTouch g d a s)
  | some (.touchc g d a b) => done (execTouchc g d a b s)
  | some (.cTouch d a) => done (execCTouch d a s)
  | some (.scopew g a) => done (execScopew g a s)
  | some (.spawn g d a) => done (execSpawn g d a s)
  | some (.fnew g d) => done (execFnew g d s)
  | _ => none

/-- What a save does with a thread group: its record's mask and RUNNABLE, or nothing while it cannot be saved: while it runs, and while
the debugger holds it (R419). A wake without an outcome leaves the wait pending. -/
def State.saveTg (s : State) (forced : Bool) (t : TgRef) : State × Option SaveTg :=
  match s.tgAt t with
  | none => (s, none)
  | some g =>
    let mask := if forced then fullMask g else match g.spMask with
      | some m => m.toNat
      | none => fullMask g
    if g.dbg then (s, none)
    else match g.status with
    | .held w => (s, some (g, mask, w))
    | .parked k _ =>
      let pending := g.wake.isNone || g.wake == some .ended || (g.wake == some .go && k != 2 && k != 4)
      if pending then (s, some (g, mask, false))
      else match (s.focus t).finishWait with
        | some s' => if s'.me.loc = t ∧ s'.me.pc = g.npc ∧ s'.me.task = g.task then (s', some (s'.me, mask, true)) else (s, none)
        | none => (s, none)
    | _ => (s, none)

/-- All thread groups of a task, by piece and TGID; none while one of them cannot be saved. -/
def State.saveTgs (forced : Bool) : List TgRef → State → Option (State × List SaveTg)
  | [], s => some (s, [])
  | t :: r, s =>
    match s.saveTg forced t with
    | (_, none) => none
    | (s, some x) => (State.saveTgs forced r s).map (fun y => (y.1, x :: y.2))

/-- A stream between slots, which a pre-emption stops (R278). -/
def EngOp.idleStream (o : EngOp) : Bool :=
  match o.kind with
  | .gather _ _ _ _ none => true
  | _ => false

/-- Tokens at zero but for streams, and the stores that do not wait in the side log performed (R52). -/
def State.drained (s : State) (h : W64) : Bool :=
  (s.ops.filter (fun o => o.task == h && o.tg.isSome)).all (·.idleStream) &&
  !s.cores.any (fun c => c.2.fifo.any (fun e => e.task == h && !e.inLog))

/-- The engine that writes or reads a task's save area: as the supervisor of the context that named it. -/
def areaAgent (die : Nat) (asid : Half) (h : W64) : Agent := ⟨die, none, true, asid, some (.task h), 0, none⟩

/-- The images of a split task's pieces follow one another in its area, each on a page (log 25). -/
def imagesFrom : List PBytes → Nat → List (Nat × PBytes)
  | [], _ => []
  | b :: r, off => (off, b) :: imagesFrom r (off + alignUp 4096 b.length)

def imageWrites (va : Nat) (bs : PBytes) : List BW := (bs.zipIdx).map (fun b => ⟨va + b.2, 0xFF, b.1.1, b.1.2⟩)

/-- The pieces of a task that have a thread group on a core. -/
def piecesOf (gs : List SaveTg) : List Nat := ((gs.map (fun x => x.1.piece)).eraseDups)

/-- A piece of a task. -/
def pieceTgs (gs : List SaveTg) (k : Nat) : List SaveTg := gs.filter (fun x => x.1.piece == k)

/-- The accumulators of a piece are to be saved: it holds tiles, under a forced save or a mask that marks them live; and the task's first
piece has a record for them in either case (R53, R54). -/
def State.tilesLive (s : State) (t : Task) (gs : List SaveTg) (forced : Bool) (k : Nat) : Bool :=
  (forced || (pieceTgs gs k).any (fun x => bitOf x.2.1 27)) && ((piecesOf gs).head? == some k || s.holdsTiles t (byTgid (pieceTgs gs k)))

/-- The task leaves its cores and its resources (R27), with what its area does not hold kept aside; acc lists the pieces whose tiles it
holds. -/
def State.takeOff (s : State) (t : Task) (gs : List SaveTg) (streams : List EngOp) (forced : Bool) (acc : List Nat) : State :=
  let homes := gs.map (fun x => (x.1.piece, x.1.tgid, (x.1.lsBase - localAddr x.1.loc.core 0) / 1024))
  let rings := (gs.flatMap (fun x => x.1.rings.toList.filterMap (fun d =>
    if d = 0 then none else (s.ring x.1.loc.core.cluster x.1.asid x.1.part d).map (fun r => (d, r.part, r.rd))))).eraseDups
  let kept := streams.filterMap (fun o => (o.tg.bind s.tgAt).map (fun g => (g.piece, g.tgid, o)))
  let left := (piecesOf gs).filter (fun k => s.tilesLive t gs forced k && !acc.contains k)
  let tiles := left.filterMap (fun k => (gs.find? (fun x => x.1.piece == k)).map (fun x =>
    let c := s.core x.1.loc.core
    (k, c.a0, c.a1, c.mctx)))
  let over_ := (gs.filter (fun x => x.1.barOver)).map (fun x => (x.1.piece, x.1.tgid))
  let s : State := { s with ops := s.ops.filter (fun o => !streams.any (fun x => x.id == o.id)) }
  (s.discard t.handle).modTask t.handle (fun x =>
    { x with st := .saved, reserved := [], preempt := none, k10 := x.k10, aux := ⟨homes, rings, kept, tiles, over_⟩ })

/-- The request is withdrawn, and its thread groups go on. -/
def State.withdraw (s : State) (h : W64) : State := (s.modTask_tgs h TG.release).modTask h (fun t => { t with preempt := none })

/-- The context and mode in which a request's area is named. -/
def State.areaAsid (s : State) (p : Preempt) : Half :=
  match p.by_ with
  | .csave t => ((s.tgAt t).map (·.asid)).getD supAsid
  | .slice _ => supAsid

/-- The task's streams between slots, which a save takes along. -/
def State.streamsOf (s : State) (t : Task) : List EngOp := s.ops.filter (fun o => o.task == t.handle && o.idleStream)

/-- The image of one piece, with its side-log entries and its streams; the first piece's has the task's reservations (log 25). -/
def State.pieceImage (s : State) (t : Task) (p : Preempt) (gs : List SaveTg) (acc : Bool) (k : Nat) : PBytes :=
  let mine := pieceTgs gs k
  let log := match mine with
    | x :: _ => (s.core x.1.loc.core).log.filter (fun e => mine.any (fun y => y.1.loc == e.tg))
    | [] => []
  s.saveImage t mine log ((s.streamsOf t).filter (fun o => mine.any (fun x => o.tg == some x.1.loc))) p.forced acc
    ((piecesOf gs).head? == some k)

/-- The pieces whose accumulators stand in the area: as many as its 4 MiB have room for beside everything else (R336, log 25). -/
def State.accPieces (s : State) (t : Task) (p : Preempt) (gs : List SaveTg) : List Nat :=
  let bare := (piecesOf gs).foldl (fun n k => n + alignUp 4096 (s.pieceImage t p gs false k).length) 0
  ((piecesOf gs).filter (s.tilesLive t gs p.forced)).take ((2 ^ 22 - bare) / 659456)

/-- The images of a save, each at its offset of the area. -/
def State.saveImages (s : State) (t : Task) (p : Preempt) (gs : List SaveTg) : List (Nat × PBytes) :=
  let acc := s.accPieces t p gs
  imagesFrom ((piecesOf gs).map (fun k => s.pieceImage t p gs (acc.contains k) k)) 0

/-- What a save writes. -/
def State.saveWrites (s : State) (t : Task) (p : Preempt) (gs : List SaveTg) : List BW :=
  (s.saveImages t p gs).flatMap (fun x => imageWrites (p.area.toNat + x.1) x.2)

/-- The bytes of the area that accumulator records take, whose poison marks words (R334). -/
def State.saveTiles (s : State) (t : Task) (p : Preempt) (gs : List SaveTg) : List (Nat × Nat) :=
  (s.saveImages t p gs).filterMap (fun x =>
    let off := natOf (((x.2.drop 40).take 8).map (·.1))
    if off = 0 then none else some (p.area.toNat + x.1 + off, p.area.toNat + x.1 + off + 655488))

/-- Words of an area in uncached host memory that a save wrote and that the state it saves has overtaken are written again. -/
def State.recheckPuts (s : State) (g : Agent) (xs : List BW) : State :=
  let same := fun (b : BW) =>
    match s.byteAt g .store b.va with
    | .ok (some a) => memGet s.mem a == b.val
    | _ => true
  match g.who with
  | none => s
  | some w =>
    if s.engWords = [] then s
    else
      let k := kget ⟨[], []⟩ s.engWords w
      { s with engWords := kset w { k with put := k.put.filter (fun n => (xs.filter (fun b => b.va / 8 == n)).all same) } s.engWords }

/-- An area that a save or a restore cannot use: the first address that failed, with the event of a misplaced frame (R92). -/
def State.areaFail (s : State) (asid : Half) (c : ClId) (area : W64) : EFail → State × Nat
  | .fatal va (some pa) => (s.misplaced asid ⟨c.die, c.cl, 0⟩ va pa, va)
  | .fatal va none => (s, va)
  | .poisoned va => (s, va)
  | .check _ va => (s, va)
  | _ => (s, area.toNat)

/-- The save of a task whose thread groups can all be saved: the area, its LENGTH last, then the resources, then CSAVE (R340). An
area that cannot be written leaves the task running, and kills the task that named it (log 26). -/
def State.saveNow (s0 : State) (t : Task) (p : Preempt) : State :=
  let here := s0.me.loc
  match State.saveTgs p.forced ((s0.tgsOf t.handle).map (·.loc)) s0 with
  | none => s0
  | some (s, gs) =>
    if gs.isEmpty || !s.drained t.handle then s0
    else
      let asid := s.areaAsid p
      let g := areaAgent t.queue.die asid t.handle
      let ws := s.saveWrites t p gs
      match (s.recheckPuts g ws).placeWrites g ws with
      | .error (.replay va) => s0.engWait (.task t.handle) asid va t.queue
      | .error .stall => s0
      | .error (.split xs) => ({ s0 with engWords := (s.recheckPuts g ws).engWords } : State).splitWrite g xs
      | .error e =>
        let (s, va) := (s0.withdraw t.handle).areaFail asid t.queue p.area e
        (match p.by_ with
         | .csave r => s.killTg r kADDRESS (BitVec.ofNat 64 va)
         | .slice _ => s)
      | .ok xs =>
        let tiles := s.saveTiles t p gs
        let s : State := ((s.engWriteWords g (fun w => tiles.any (fun r => decide (r.1 ≤ w.va) && decide (w.va < r.2))) xs).forgetWords
          (.task t.handle)).takeOff t gs (s.streamsOf t) p.forced (s.accPieces t p gs)
        let s : State := match p.by_ with
          | .csave r => s.modTg r (fun (g : TG) => if g.status = .parked 1 t.handle then { g with wake := some (.code (BitVec.ofNat 64 p.prior)) } else g)
          | .slice _ => s
        s.focus here

/-- PREEMPT_SAVE. -/
def execPreemptSave (h : W64) (s : State) : Out State :=
  .next (match s.task h with
    | some t => (match t.st, t.preempt with
      | .running, some p => s.attempt (.task h) (fun s => s.saveNow t p)
      | _, _ => s)
    | none => s)

/-- A thread group under a forced save: it stops after its next instruction, at once where it only waits for its turn (R54). -/
def TG.stop (g : TG) : TG :=
  { g with
    stopping := true
    status := match g.status with
      | .yielding _ => .held false
      | x => x }

/-- FORCED_SAVE: 1,000,000 cycles after the request every thread group stops after its next instruction, and the task is saved whole. -/
def execForcedSave (h : W64) (s : State) : Out State :=
  .next (match s.task h with
    | none => s
    | some t =>
      match t.st, t.preempt with
      | .running, some p =>
        if s.cycle.toNat < p.since + 1000000 ∨ s.taskHalted h = true then s
        else
          let p := { p with forced := true }
          let s := (s.modTask h (fun t => { t with preempt := some p })).modTask_tgs h TG.stop
          s.attempt (.task h) (fun s => s.saveNow { t with preempt := some p } p)
      | _, _ => s)

/-! ### CSAVE and CREST (R321) -/

/-- Raise a pre-emption request (R54). -/
def State.requestSave (s : State) (t : Task) (area : W64) (by_ : PreemptBy) : State :=
  let prior := if s.taskParked t then 4 else 3
  (s.modTask t.handle (fun x => { x with preempt := some ⟨area, by_, s.cycle.toNat, s.cycle.toNat, prior, false⟩ })).modTask_tgs t.handle
    (fun g => { g with k12 := true })

/-- The operands of CSAVE and CREST: poison, the handle, then the area. -/
def State.withSaveArea (s : State) (a b : UReg) (f : State → State) : State :=
  if s.me.spoison a || s.me.spoison b then s.poisonPc
  else
    let h := s.me.sget a
    let va := s.me.sget b
    match s.stale h with
    | some r => s.trap cFUTSTALE h (BitVec.ofNat 64 r)
    | none =>
      if addrCheck s.mode s.me.super false va.toNat 1 != .ok then s.trap cADDRESS va 0
      else if va.toNat % 4096 ≠ 0 then s.trap cALIGN va 0
      else f s

/-- The state code of a task that the form does not act on; a future of another device answers freely (log 22). -/
def State.saveCode (s : State) (d : UReg) (h : W64) : State :=
  if hDevice h = s.devid then
    (s.setS d (BitVec.ofNat 64 (((s.fut h).map (·.st.code)).getD 0)) false).advance
  else if s.lost.contains (hDevice h) then (s.setS d 7 false).advance
  else match s.foreign .poll with
    | (s, .code n) => (s.setS d n false).advance
    | (s, .stale n) => s.trap cFUTSTALE h (BitVec.ofNat 64 n)
    | (s, _) => s.advance

/-- The future's task has ended, and its entry has still to settle (R62). -/
def State.settling (s : State) (h : W64) : Bool :=
  (s.fut h).any (fun f => !f.st.terminal && (f.ending.isSome || s.futMsgs.any (fun m => m.h == h)))

/-- CSAVE (R321, R405): behind a request of another party, and while the task ends, it waits. An area that nothing may store to traps ADDRESS
where it acts (R24). -/
def State.csave (s : State) (d a b : UReg) : State :=
  match s.me.wake with
  | some .ended => s.advance
  | some (.code n) => (s.setS d n false).advance
  | _ => s.withSaveArea a b fun s =>
    let h := s.me.sget a
    match s.task h with
    | some t =>
      if t.st = .running ∧ (s.fut h).any (fun f => !f.st.terminal) = true then
        if s.me.k10 then s.advance
        else if addrCheck s.mode s.me.super true (s.me.sget b).toNat 1 != .ok then s.trap cADDRESS (s.me.sget b) 0
        else if t.preempt.isSome ∨ t.dying = true then s.park 1 h
        else (s.requestSave t (s.me.sget b) (.csave s.me.loc)).park 1 h
      else s.saveCode d h
    | none => if s.settling h then (if s.me.k10 then s.advance else s.park 1 h) else s.saveCode d h

def execCsave (g : Guard) (d a b : UReg) (s : State) : Out State :=
  .next (if !s.me.super then s.trap cPRIV 0 0 else s.withK g fun s => s.csave d a b)

/-- The head of an area: MAGIC, VERSION and HANDLE (R340). -/
def headOk (bs : List Byte) (h : W64) : Bool :=
  fieldAt bs 0 4 == 0x56535844 && fieldAt bs 4 2 == 1 && fieldAt bs 8 8 == h.toNat

def State.crest (s : State) (d a b : UReg) : State :=
  s.withSaveArea a b fun s =>
    let h := s.me.sget a
    let va := s.me.sget b
    match s.task h with
    | some t =>
      if t.st = .saved then
        let g : Agent := { s.meAgent with super := true }
        (match s.readBytes g va.toNat 16 with
         | .error e => (s.slowStep g e).snapFail va e
         | .ok bs =>
           if bs.any (·.2) then s.killMe kPOISON va
           else
             let prior := ((s.fut h).map (·.st.code)).getD 4
             let s := if headOk (bs.map (·.1)) h then s.modTask h (fun t => { t with st := .restoring, area := some (va, s.me.asid) })
               else s.kill h kRESOURCE va
             (s.setS d (BitVec.ofNat 64 prior) false).advance)
      else s.saveCode d h
    | none => s.saveCode d h

def execCrest (g : Guard) (d a b : UReg) (s : State) : Out State :=
  .next (if !s.me.super then s.trap cPRIV 0 0 else s.withK g fun s => s.crest d a b)

/-! ### Resumption (R341, R342) -/

/-- Bytes of an image. -/
def pAt (bs : PBytes) (off n : Nat) : Nat := natOf (((bs.drop off).take n).map (·.1))
def p8 (bs : PBytes) (off : Nat) : W64 := BitVec.ofNat 64 (pAt bs off 8)

/-- The vector blocks of a record, from an offset. -/
def restV (bs : PBytes) : List Nat → Nat → TG → TG × Nat
  | [], off, g => (g, off)
  | b :: r, off, g =>
    let n := fun (i : Nat) => i - 32 * b
    let mine := fun (i : Nat) => decide (32 * b ≤ i) && decide (i < 32 * b + 32) && decide (i < g.vregs)
    restV bs r (off + 4224) { g with
      v := Vector.ofFn (fun i : Fin 256 => if mine i.val then Vector.ofFn (fun l : Fin 32 => BitVec.ofNat 32 (pAt bs (off + 128 * n i.val + 4 * l.val) 4)) else g.v[i]),
      vp := Vector.ofFn (fun i : Fin 256 => if mine i.val then BitVec.ofNat 32 (pAt bs (off + 4096 + 4 * n i.val) 4) else g.vp[i]) }

/-- The uniform blocks. -/
def restS (bs : PBytes) : List Nat → Nat → TG → TG × Nat
  | [], off, g => (g, off)
  | b :: r, off, g =>
    let mine := fun (i : Nat) => decide (8 * b ≤ i) && decide (i < 8 * b + 8) && g.hasS i
    let poi := pAt bs (off + 64) 1
    restS bs r (off + 72) { g with
      s := Vector.ofFn (fun i : Fin 64 => if mine i.val then p8 bs (off + 8 * (i.val - 8 * b)) else g.s[i]),
      sp := (List.range 8).foldl (fun (w : W64) n => if mine (8 * b + n) then setBit w (8 * b + n) (bitOf poi n) else w) g.sp }

/-- What a ring-handle record says (R338). -/
structure RingRec where
  slot : Nat
  desc : W64
  idx : List Nat
  landed : Nat
  freed : Nat

def restH (bs : PBytes) : List Nat → Nat → List RingRec × Nat
  | [], off => ([], off)
  | b :: r, off =>
    let (rest, o) := restH bs r (off + 384)
    ((List.range 4).map (fun n =>
      let q := off + 96 * n
      ⟨4 * b + n, p8 bs q, (List.range 4).map (fun k => pAt bs (q + 8 + 2 * k) 2), pAt bs (q + 16) 32, pAt bs (q + 48) 32⟩) ++ rest, o)

/-- A thread group from its record; its ring records; the offset of its private local store. What R53 leaves undefined outside the live
blocks takes the value of a thread group just dispatched: handles unbound, no tile held (log 113). -/
def restTg (g0 : TG) (k10 : Bool) (bs : PBytes) : TG × List RingRec × Nat :=
  let m := pAt bs 8 4
  let p := bitOf m 28
  let st := pAt bs 74 1
  let g : TG := { g0 with
    pc := p8 bs 0, x := BitVec.ofNat 32 (if p then pAt bs 12 4 else 0),
    p := Vector.ofFn (fun i : Fin 8 => if i.val = 0 then 0 else BitVec.ofNat 32 (pAt bs (12 + 4 * i.val) 4)),
    pp := Vector.ofFn (fun i : Fin 8 => if i.val = 0 then 0 else BitVec.ofNat 32 (pAt bs (40 + 4 * i.val) 4)),
    k := BitVec.ofNat 8 (pAt bs 72 1), kp := BitVec.ofNat 8 (pAt bs 73 1), qpoison := bitOf st 0, barArrived := bitOf st 1,
    super := bitOf st 3, qctx := p8 bs 88, qbase := p8 bs 96, scopeId := p8 bs 104, trapBase := p8 bs 112, trapCause := p8 bs 120,
    trapPc := p8 bs 128, trapAddr := p8 bs 136, trapInfo := p8 bs 144, trapSave := p8 bs 152, launchx := p8 bs 160,
    cntSel := BitVec.ofNat 64 (pAt bs 168 2), asid := BitVec.ofNat 16 (pAt bs 170 2), k10 := k10,
    s := Vector.replicate 64 0, v := Vector.replicate 256 (Vector.replicate 32 0), rings := Vector.replicate 16 0, found := [] }
  let (g, o) := restV bs (vBlocks g m) 256 g
  let (g, o) := restS bs (sBlocks g m) o g
  let (hs, o) := restH bs (hBlocks m) o
  (g, hs, o)

/-- One side-log record back as entries: the runs of masked bytes within each aligned eight, or an atomic's words. -/
def restLog (bs : PBytes) (tg : TgRef) (task : W64) (super : Bool) (seq : Nat) : List StEnt :=
  let line := pAt bs 0 8
  let asid : Half := BitVec.ofNat 16 (pAt bs 8 2)
  let kind := pAt bs 10 1
  let mask := pAt bs 16 16
  let byte := fun (k : Nat) => BitVec.ofNat 8 (pAt bs (32 + k) 1)
  let bad := fun (k n : Nat) => ((bs.drop (32 + k)).take n).any (·.2)
  let ent := fun (off : Nat) (op : StOp) (d : List Byte) =>
    (⟨tg, task, super, asid, BitVec.ofNat 64 (line + off), op, d, bad (min off (128 - d.length)) d.length, true, seq⟩ : StEnt)
  let starts := (List.range 128).filter (fun k => bitOf mask k && (k % 8 == 0 || !bitOf mask (k - 1)))
  if kind = 0 then
    starts.map (fun k =>
      let n := ((List.range (8 - k % 8)).takeWhile (fun j => bitOf mask (k + j))).length
      ent k .store ((List.range n).map (fun j => byte (k + j))))
  else if kind = 14 ∨ kind = 15 then
    ((List.range 128).filter (bitOf mask ·)).map (fun k => ent k (if kind = 14 then .nibLo else .nibHi) [byte k])
  else
    let m := kind - 1
    let len := if m = 9 then 16 else if m = 7 ∨ m = 8 ∨ m = 10 then 8 else 4
    let step := if m = 8 ∨ m = 9 ∨ m = 10 then 8 else 4
    ((List.range 128).filter (fun k => bitOf mask k && k % step == 0)).map (fun k =>
      ent k (.atom m) ((List.range len).map (fun j => byte (min k (128 - len) + j))))

/-- The pieces that a saved task has. -/
def Task.savedPieces (t : Task) : List Nat := (t.aux.homes.map (·.1)).eraseDups

/-- The images of some pieces of a saved task, from an offset of its area on. -/
def State.readImages (s : State) (t : Task) (area : W64) (asid : Half) : List Nat → Nat → Except EFail (List (Nat × PBytes))
  | [], _ => .ok []
  | k :: r, off => do
    let g := areaAgent t.queue.die asid t.handle
    let n ← s.readBytes g (area.toNat + off + 32) 8
    let len := min (numOf n).1 (2 ^ 22)
    let b ← s.readBytes g (area.toNat + off) len
    let rest ← s.readImages t area asid r (off + alignUp 4096 len)
    return (k, b) :: rest

/-- The core that an image names. -/
def imageCore (t : Task) (bs : PBytes) : CoreId := ⟨t.queue.die, t.queue.cl, pAt bs 26 1 % 8⟩

/-- The TGIDs that have a record. -/
def imageTgs (bs : PBytes) : List (Nat × Nat) := ((List.range 8).map (fun k => (k, pAt bs (64 + 8 * k) 8))).filter (fun x => x.2 != 0)

/-- The reservations of an image. -/
def imageRanges (bs : PBytes) : List (Nat × Nat) :=
  ((List.range 4).map (fun k => (pAt bs (128 + 8 * k) 4, pAt bs (128 + 8 * k) 4 + pAt bs (132 + 8 * k) 4))).filter (fun r => decide (r.1 < r.2))

/-- The saved core has the resources again: thread groups, registers, the places of the private local stores, the reservations, and
with ACC the tiles; and the side log and the ring table take what comes back (R39, R262, R341). -/
def State.pieceFits (s : State) (t : Task) (k : Nat) (bs : PBytes) : Bool :=
  let c := imageCore t bs
  let kib := fwPrivls t.flagWord
  let n := (imageTgs bs).length
  let homes := (t.aux.homes.filter (fun h => h.1 == k)).map (fun h => (h.2.2, h.2.2 + kib))
  let recs := pAt bs 28 2
  decide (n ≤ (s.freeTgSlots c).length) &&
  decide ((s.onCore c).foldl (fun a g => a + g.vregs) 0 + n * fwVregs t.flagWord * 8 ≤ 2048) &&
  (kib == 0 || homes.all (fun h => (s.lsBusy c).all (apart h))) &&
  s.rangesFree t.handle t.queue (imageRanges bs) &&
  (!(bitOf (pAt bs 6 2) 1 || t.aux.tiles.any (·.1 == k)) || (s.core c).mowner == 0 || (s.core c).mowner == t.handle) &&
  decide (logRecords (s.core c).log + recs ≤ 64) &&
  decide ((s.cluster t.queue).ringCount + ((t.aux.rings.map (·.1)).eraseDups).length ≤ 128) &&
  decide ((s.cluster t.queue).locks.length + (t.aux.streams.filter (fun x => x.1 == k)).length ≤ 32)

/-- Bytes of an image back into storage. -/
def State.putBack (s : State) (a : Nat) (bs : PBytes) : State :=
  s.onSoc (·.putE ((bs.zipIdx).map (fun b => ⟨a + b.2, b.1.1, b.1.2⟩)))

/-- Bind a saved handle: to the entry that exists, or to a new one with the saved indices and bits. -/
def State.bindBack (s : State) (t : Task) (loc : TgRef) (r : RingRec) : State :=
  if r.desc = 0 then s
  else
    match s.tgAt loc, t.aux.rings.find? (fun x => x.1 == r.desc && (x.2.1.isNone || some x.2.1 == (s.tgAt loc).map (·.part))) with
    | some g, some (_, part, rd) =>
      let bitsIn := fun (n : Nat) => (List.range rd.slots).filter (bitOf n ·)
      let s := if (s.cluster t.queue).rings.any (fun x => x.desc == r.desc && x.asid == g.asid && x.part == part) then s
        else s.modCluster t.queue (fun c => { c with rings := c.rings ++
          [⟨r.desc, g.asid, part, rd, r.idx.getD 0 0, r.idx.getD 1 0, r.idx.getD 2 0, r.idx.getD 3 0, bitsIn r.landed, bitsIn r.freed⟩] })
      s.modTg loc (fun g => { g with rings := Vector.ofFn (fun i : Fin 16 => if i.val = r.slot then r.desc else g.rings[i]) })
    | _, _ => s

/-- Restart a stopped stream at its next row, with its token and its lock (R278, R341). -/
def State.restartStream (s : State) (o : EngOp) (loc : TgRef) : State :=
  let lock := match o.kind, o.maps with
    | .gather _ desc _ _ _, [ms, _] =>
      let g := parseGather desc
      ms.lockRanges [g.c0, 0, g.o2, g.o3] [g.width, ms.dim 1, 1, 1] ++ [(g.idx.toNat, g.idx.toNat + 4 * g.count)]
    | _, _ => []
  let o' := { o with id := s.seq, tg := some loc, core := loc.core, cl := loc.core.cluster, fault := none, mark := s.seq }
  let s := s.takeLock o'.cl o'.id o'.tg o'.asid lock []
  ({ s.bump with ops := s.ops ++ [o'] }).modTg loc (fun g => match o.tok with
    | some k => g.addTok k true
    | none => g)

/-- The accumulator record of an image holds zeros alone: one of two pieces on a core held no tiles at a forced save (log 25). -/
def accZero (bs : PBytes) : Bool := ((bs.drop (pAt bs 40 8)).take 655488).all (fun b => b.1 == 0 && !b.2)

/-- One piece restored, in the order of R341. A side log that comes back meets its own faults when it is performed. -/
def State.restorePiece (s : State) (t : Task) (k10 : Bool) (k : Nat) (bs : PBytes) : State :=
  let c := imageCore t bs
  let spads := imageRanges bs
  let s : State := (spads.foldl (fun (x : State × Nat) r =>
    (x.1.putBack (spadAddr c.cluster r.1) ((bs.drop x.2).take (r.2 - r.1)), x.2 + (r.2 - r.1))) (s, pAt bs 160 8)).1
  let slots := s.freeTgSlots c
  let width := pAt bs 25 1
  let made := ((imageTgs bs).zipIdx).map (fun x =>
    let tgid := x.1.1
    let rec_ := bs.drop x.1.2
    let base := ((t.aux.homes.find? (fun h => h.1 == k && h.2.1 == tgid)).map (·.2.2)).getD 1
    let g0 := t.initTg ⟨c, slots.getD x.2 0⟩ k tgid width t.pieces base (s.seq + x.2)
    let (g, hs, o) := restTg g0 k10 rec_
    (({ g with barOver := t.aux.over_.contains (k, tgid) }, hs, o), rec_))
  let s : State := made.foldl (fun (s : State) x =>
    let g := x.1.1
    (s.addTg g).bump.putBack g.lsBase ((x.2.drop x.1.2.2).take (1024 * g.lsKib))) s
  let s := if bitOf (pAt bs 6 2) 1 && ((s.core c).mowner == 0 || !accZero bs) then
      let off := pAt bs 40 8
      let ctx := fun (n : Nat) =>
        let b := ((bs.drop (off + n + 0x50020)).take 32).map (·.1)
        if b.all (· == 0) then none
        else some (⟨fieldAt b 0 1, fieldAt b 1 1, fieldAt b 2 1, fieldAt b 3 1, signedOf 16 (fieldAt b 4 2), BitVec.ofNat 32 (fieldAt b 8 4)⟩ : FmtCtx)
      s.modCore c (fun x => { x with
        a0 := parseTile ((bs.drop off).take 327744), a1 := parseTile ((bs.drop (off + 327744)).take 327744), mctx := ctx 0,
        mowner := t.handle, mpiece := k })
    else match t.aux.tiles.find? (·.1 == k) with
      | some x => s.modCore c (fun y => { y with a0 := x.2.1, a1 := x.2.2.1, mctx := x.2.2.2, mowner := t.handle, mpiece := k })
      | none => s
  let locOf := fun (tgid : Nat) => ((made.find? (fun x => x.1.1.tgid == tgid)).map (fun x => x.1.1.loc)).getD ⟨c, 0⟩
  let superOf := fun (tgid : Nat) => ((made.find? (fun x => x.1.1.tgid == tgid)).map (fun x => x.1.1.super)).getD false
  let s : State := (List.range (pAt bs 28 2)).foldl (fun (s : State) i =>
    let r := bs.drop (pAt bs 48 8 + 256 * i)
    let tgid := pAt r 11 1
    s.bump.modCore c (fun x => { x with
      fifo := x.log ++ restLog r (locOf tgid) t.handle (superOf tgid) s.seq ++ x.buffer })) s
  let s : State := made.foldl (fun (s : State) x => x.1.2.1.foldl (fun (s : State) r => s.bindBack t x.1.1.loc r) s) s
  (t.aux.streams.filter (fun x => x.1 == k)).foldl (fun (s : State) x => s.restartStream x.2.2 (locOf x.2.1)) s

/-- The pieces of a task come back one after another, each to a core that takes it beside those before; all of them, or none (R341). -/
def State.restoreAll (t : Task) (k10 : Bool) : List (Nat × PBytes) → State → Option State
  | [], s => some s
  | x :: r, s => if s.pieceFits t x.1 x.2 then State.restoreAll t k10 r (s.restorePiece t k10 x.1 x.2) else none

/-- RESUME: every piece of a task that CREST or the slice timer has queued comes back to its core, and all its thread groups go on. -/
def execResume (h : W64) (s : State) : Out State :=
  .next (s.attempt (.task h) fun s => match s.task h with
    | none => s
    | some t =>
      match t.st, t.area with
      | .restoring, some (area, asid) =>
        (match s.readImages t area asid t.savedPieces 0 with
         | .error (.replay va) => s.engWait (.task h) asid va t.queue
         | .error .stall => s
         | .error (.slow va) => s.slowRead (areaAgent t.queue.die asid h) va
         | .error e =>
           let (s, va) := s.areaFail asid t.queue area e
           s.kill h (match e with | .poisoned _ => kPOISON | _ => kADDRESS) (BitVec.ofNat 64 va)
         | .ok imgs =>
           let k10 := t.k10 || imgs.any (fun x => bitOf (pAt x.2 6 2) 2)
           match State.restoreAll t k10 imgs s with
           | some s => (s.forgetWords (.task h)).modTask h (fun x => { x with
               st := .running, area := none, aux := .none, dispatched := s.seq, k10 := k10,
               reserved := (imgs.flatMap (fun y => imageRanges y.2)).eraseDups })
           | none => s)
      | _, _ => s)

end Sys2Proof.Machine
end

