-- ==== Sys2Proof/Machine/Queue.lean ====
section
/-! DEFINITION. Copy queues and user queues: CQPUSH and CQKICK (R272 to R275), kicks (R369 to R371), hardware slots (R372 to R374),
the packets that a serving engine starts (R267, R269, R274, R362), LAUNCH (R375 to R377) and teardown (R83, R380, R381). -/

namespace Sys2Proof.Machine

open Sys2Proof

/-! ### Queue headers (R272) -/

structure QHdr where
  wridx : W64
  rdidx : W64
  cap : Nat
  serve : Nat
  base : W64
  zeros : Bool
deriving DecidableEq, Repr

def parseHdr (bs : List Byte) : QHdr := ⟨word8 bs 0, word8 bs 8, fieldAt bs 16 4, fieldAt bs 20 4, word8 bs 24, zeroFrom bs 40 24⟩

/-- CAP, SLOTBASE and the reserved fields. -/
def QHdr.sound (h : QHdr) : Bool := decide (1 ≤ h.cap) && decide (h.cap ≤ 65536) && 2 ^ h.cap.log2 == h.cap && h.base.toNat % 64 == 0 && h.zeros

def QHdr.user (h : QHdr) : Bool := bitOf h.serve 31
def QHdr.engine (h : QHdr) : ClId := ⟨fieldOf h.serve 8 4, fieldOf h.serve 0 5⟩

/-- SERVE as CQPUSH and CQKICK read it. -/
def QHdr.serveOk (m : PartMode) (h : QHdr) : Bool :=
  if h.user then fieldOf h.serve 10 21 == 0
  else fieldOf h.serve 12 19 == 0 && fieldOf h.serve 5 3 == 0 && PartMode.hasCluster m h.engine

def QHdr.slot (h : QHdr) (i : Nat) : Nat := h.base.toNat + 64 * (i % h.cap)

/-! ### Kicks (R369 to R371) -/

/-- The slot that holds a queue. -/
def State.slotOf (s : State) (q : Nat) : Option Nat := (List.range 64).find? (fun n => (s.slot n).mapped && (s.slot n).qid == q)

def State.setPend (s : State) (q : Nat) : State :=
  s.modSup (fun r => { r with pend := kset (q / 64) (setBit (kget 0 r.pend (q / 64)) (q % 64) true) r.pend })

/-- A queue under teardown keeps no latch: a kick sets its pending bit (R381). -/
def State.torn (s : State) (q : Nat) : Bool := s.sup.qtearBusy && s.sup.qtearQid == q

/-- A kick of a user queue (R370): a look at it that reads word by word begins anew (R366). -/
def State.kickQueue (s : State) (q : Nat) : State :=
  match s.slotOf q with
  | some n =>
    if (s.slot n).drain then (if s.torn q then s.setPend q else s.modSlot n (fun x => { x with latch := true }))
    else (s.modSlot n (fun x => { x with awake := true })).forgetWords (.queue (.slot n))
  | none => s.setPend q

/-- DOORBELL. -/
def execDoorbell (q : Nat) (s : State) : Out State := .next (if q < 1024 then s.wakeUp.kickQueue q else s)

/-- PEND_CLEAR. -/
def execPendClear (w : Fin 16) (v : W64) (s : State) : Out State :=
  .next (s.modSup (fun r => { r with pend := kset w.val (kget 0 r.pend w.val &&& ~~~v) r.pend }))

/-! ### CQPUSH and CQKICK (R248, R273, R275) -/

/-- The header of a queue, checked (RING, reason 8). -/
def State.withHdr (s : State) (va : W64) (k : State → List Byte → State) : State :=
  s.withSnap false va 64 64 fun s bs =>
    if (parseHdr bs).sound && (parseHdr bs).serveOk s.mode then k s bs else s.trapRing va 8 0

/-- The claimed slot is filled: bytes 0 to 7 with the sequence come last; one line takes them at one moment (R230). A slot whose address
fails a check traps with its index claimed and not filled (log 141). -/
def State.fillSlot (s : State) (d : UReg) (h : QHdr) (pkt : List Byte) (i : W64) : State :=
  let at_ := h.slot i.toNat
  let first := pkt.take 4 ++ bytesOf 4 i.toNat
  match s.accCheck true 8 [⟨0, BitVec.ofNat 64 at_⟩] with
  | some (c, a, info) => s.trap c a info
  | none =>
    let ent := fun (k : Nat) (bs : List Byte) => s.mkEnt (BitVec.ofNat 64 (at_ + 8 * k)) .store bs false false
    let es := (List.range 7).map (fun k => ent (k + 1) ((pkt.drop (8 * (k + 1))).take 8)) ++ [ent 0 first]
    match s.storeAll es with
    | (s, false) => s
    | (s, true) => (s.dropWatch.setS d i false).advance

/-- What follows the claim: the wait for room, the release, the slot. -/
def State.pushRest (s : State) (d : UReg) (hdr : W64) (h : QHdr) (pkt : List Byte) (i : W64) : State :=
  if s.me.phase.mark.isSome || s.me.phase.next != 0 then s.afterFence .device (fun s => s.fillSlot d h pkt i)
  else
    match s.loadLine 8 [(0, hdr + 8)] with
    | (s, .blocked) => s
    | (s, .done rs) =>
      if (i - word64 (natOf (kget ([], []) rs 0).1)).toNat < h.cap then s.afterFence .device (fun s => s.fillSlot d h pkt i)
      else (s.setWatch (hdr.toNat + 8)).park 5 hdr

/-- The claim at WRIDX (R105), then the rest. -/
def State.pushClaim (s : State) (d : UReg) (hdr : W64) (hb pkt : List Byte) : State :=
  match s.me.phase.claim with
  | some i => s.pushRest d hdr (parseHdr hb) pkt i
  | none =>
    match s.atomOne hdr 8 (bytesOf 8 1) false with
    | (s, none) => s
    | (s, some o) =>
      let i := word64 (natOf o.1)
      (s.modMe (fun g => { g with phase := { g.phase with claim := some i } })).pushRest d hdr (parseHdr hb) pkt i

/-- Where CQPUSH keeps its two snapshots while it waits, beside its lanes. -/
def pushKey (k : Nat) : Nat := 32 + k

/-- CQPUSH: the snapshots, the claim at WRIDX, then the rest. Its progress is kept while it waits; k10 does not end it. -/
def State.cqpush (s : State) (d a b : UReg) : State :=
  let hdr := s.me.sget a
  let s := s.modMe (fun g => { g with wake := none })
  match kfind (pushKey 0) s.me.phase.acc, kfind (pushKey 1) s.me.phase.acc with
  | some hb, some pkt => s.pushClaim d hdr hb.1 pkt.1
  | _, _ =>
    if s.me.spoison a || s.me.spoison b then s.poisonPc
    else s.withHdr hdr fun s hb => s.withSnap false (s.me.sget b) 64 64 fun s pkt =>
      match s.accCheck true 8 [⟨0, hdr⟩] with
      | some (c, x, info) => s.trap c x info
      | none =>
        (s.modMe (fun g => { g with phase := { g.phase with acc := [(pushKey 0, hb, []), (pushKey 1, pkt, [])] } })).pushClaim d hdr hb pkt

def execCqpush (g : Guard) (d a b : UReg) (s : State) : Out State := .next (s.withK g fun s => s.cqpush d a b)

/-- CQKICK: release, the store to KICK, then the signal; a copy engine that holds 64 kicked queues makes it wait. -/
def State.cqkick (s : State) (a : UReg) : State :=
  if s.me.spoison a then s.poisonPc
  else
    let hdr := s.me.sget a
    s.withHdr hdr fun s hb =>
      let h := parseHdr hb
      let key := (s.me.asid, hdr, s.me.super)
      s.afterFence .device fun s =>
        let full := !h.user && !(s.cluster h.engine).kicked.contains key && decide (64 ≤ (s.cluster h.engine).kicked.length)
        if full then s.setMark.stall
        else match s.accCheck true 8 [⟨0, hdr + 32⟩] with
          | some (c, x, info) => s.trap c x info
          | none =>
            match s.storeAll [s.mkEnt (hdr + 32) .store (bytesOf 8 h.wridx.toNat) false false] with
            | (s, false) => s
            | (s, true) =>
              let s := if h.user then s.kickQueue (fieldOf h.serve 0 10)
                else (s.modCluster h.engine (fun c =>
                { c with kicked := if c.kicked.contains key then c.kicked else c.kicked ++ [key] })).forgetWords
                  (.queue (.cq h.engine s.me.asid hdr))
              s.advance

def execCqkick (g : Guard) (a : UReg) (s : State) : Out State := .next (s.withK g fun s => s.cqkick a)

/-! ### Slots (R372 to R374) -/

/-- The die that owns a slot. -/
def State.slotDie (s : State) (n : Nat) : Nat := n / (64 / s.mode.computeDies)

/-- A queue control block from its bytes (R368). -/
def parseQcb (bs : List Byte) : QCB := ⟨word8 bs 0, BitVec.ofNat 16 (fieldAt bs 8 2), Fin.ofNat 4 (fieldAt bs 10 1), bitOf (fieldAt bs 11 1) 0⟩

/-- Map a queue: read the QCB in the supervisor's context (log 13). A lifecycle without user contexts refuses it (R424), and so does an erasing
UNLOCK (R418). A read that waits for the supervisor, or for a darning, is made again. The slot holds what it read until it is unmapped,
whatever is written to the block meanwhile (R112, log 137). One of a queue under teardown unmaps again (R381). -/
def State.mapSlot (s : State) (n q : Nat) : State :=
  let x := s.slot n
  let refuse := fun (s : State) => s.modSlot n (fun x => { x with err := true, awake := false })
  let again := fun (s : State) => s.modSlot n (fun x => { x with qid := q, awake := true })
  let va := x.qcbAddr.toNat
  let map := fun (s : State) (bs : List Byte) =>
    ({ s.modSlot n (fun x => { x with mapped := true, qid := q, err := false, svcns := 0, mapNs := s.ptp.toNat, drain := s.torn q,
                                      qcb := parseQcb bs, awake := true }) with
       qcbOf := kset q x.qcbAddr s.qcbOf } : State).forgetWords (.queue (.slot n))
  if [0, 3, 4].contains s.mgmt.lifecycle || s.mgmt.unlocking.isSome || (s.slotOf q).isSome || va % 128 != 0 || va / 2 ^ 57 != 0 then refuse s
  else match s.hwAddr supAsid true .load va 128 with
    | .at_ a =>
      if isPoisoned s.poison a 128 then refuse s else map s (memBytes s.mem a 128)
    | .slow a =>
      (match s.hwGather (.queue (.slot n)) va 128 a with
       | (s, none) => again s
       | (s, some bs) => if bs.any (·.2) then refuse s else map s (bs.map (·.1)))
    | .wait => if s.deadPage (.queue (.slot n)) supAsid va then refuse s else (again s).engWait (.queue (.slot n)) supAsid va ⟨s.slotDie n, 23⟩
    | .stall => again s
    | .misplaced pa => refuse (s.misplaced supAsid ⟨s.slotDie n, 23, 0⟩ va pa)
    | .bad => refuse s

/-- SLOT_MAP: MAPPED = 1, DRAIN = 0 on an unmapped slot; a map that waited goes on. -/
def State.slotMap (s : State) (n : Nat) (v : W64) : State :=
  let x := s.slot n
  if x.mapped then s
  else if x.awake then s.mapSlot n x.qid
  else if bitOf v.toNat 31 && !bitOf v.toNat 30 then s.mapSlot n (v.toNat % 1024)
  else s

def execSlotMap (n : Nat) (v : W64) (s : State) : Out State := .next (if n < 64 then s.attempt (.queue (.slot n)) (fun s => s.slotMap n v) else s)

/-- SLOT_DRAIN: DRAIN = 1 on a mapped slot that does not drain. -/
def State.slotDrain (s : State) (n : Nat) (v : W64) : State :=
  if (s.slot n).mapped && !(s.slot n).drain && bitOf v.toNat 30 then s.modSlot n (fun x => { x with drain := true }) else s

def execSlotDrain (n : Nat) (v : W64) (s : State) : Out State := .next (if n < 64 then s.slotDrain n v else s)

/-- A write of SLOTCTL. -/
def State.slotCtl (s : State) (n : Nat) (v : W64) : State := if (s.slot n).mapped then s.slotDrain n v else s.slotMap n v

/-- An engine that serves queues: the slot's die, cluster 23, in user mode; or the copy engine, in the mode of the kick. -/
def State.serveAgent (s : State) (q : QRef) : Agent :=
  match q with
  | .slot n => ⟨s.slotDie n, none, false, (s.slot n).qcb.asid, some (.queue q), 0, none⟩
  | .cq c asid hdr =>
    ⟨c.die, none, ((s.cluster c).kicked.find? (fun k => k.1 == asid && k.2.1 == hdr)).any (·.2.2), asid, some (.queue q), 0, none⟩

def State.serveCl (s : State) : QRef → ClId
  | .slot n => ⟨s.slotDie n, 23⟩
  | .cq c _ _ => c

def QRef.hdr (s : State) : QRef → W64
  | .slot n => (s.slot n).qcb.hdr
  | .cq _ _ h => h

/-- A packet of the queue that an engine serves: of the queue id that a slot now holds, whichever slot started the packet, or of the copy
queue. -/
def State.isOf (s : State) (q : QRef) (p : Pkt) : Bool :=
  match q with
  | .slot n => p.qid == some (s.slot n).qid
  | _ => p.q == q

/-- Packets of the queue that are not complete, oldest first. -/
def State.pktsOf (s : State) (q : QRef) : List Pkt := s.pkts.filter (s.isOf q)

def Pkt.kind (p : Pkt) : Nat := fieldAt p.bytes 0 2

/-- A packet has started (R374, R404): it runs, its outcome waits to be shown, or it is a BARRIER. -/
def Pkt.started (p : Pkt) : Bool := p.live || p.fin.isSome || p.kind == 9

/-- RDIDX of a slot's queue as it unmaps: none while the read waits; what the slot last wrote where the header cannot be read. -/
def State.slotRdidx (s : State) (n : Nat) : State × Option W64 :=
  let x := s.slot n
  let g := s.serveAgent (.slot n)
  match s.readBytes g (x.qcb.hdr.toNat + 8) 8 with
  | .ok b => (s, some (BitVec.ofNat 64 (numOf b).1))
  | .error .stall => (s, none)
  | .error (.replay a) => (s.engWait (.queue (.slot n)) g.asid a ⟨s.slotDie n, 23⟩, none)
  | .error (.fatal a (some pa)) => (s.misplaced g.asid ⟨s.slotDie n, 23, 0⟩ a pa, some x.rdidx)
  | .error (.slow a) => (s.slowRead g a, none)
  | .error _ => (s, some x.rdidx)

/-- UNMAP (R374): a draining slot finishes; it adds to the QCB that its queue was mapped from, behind hardware writes that wait, before DRAIN
reads clear (R404). A queue under teardown sets no pending bit (R381). -/
def State.unmapSlot (s : State) (n : Nat) : State :=
  let x := s.slot n
  if x.mapped && x.drain && (s.pkts.filter (fun p => p.q == .slot n)).all (·.started) && s.hwq.isEmpty then
    match s.slotRdidx n with
    | (s, none) => s
    | (s, some rd) =>
    let g := s.serveAgent (.slot n)
    let ns : W64 := BitVec.ofNat 64 (s.ptp.toNat - x.mapNs)
    let at_ := (kget 0 s.qcbOf x.qid).toNat + 16
    let finish := fun (s : State) =>
      let s := (s.modSlot n (fun x => { x with mapped := false, drain := false, latch := false, awake := false, svcns := ns })).forgetWords
        (.queue (.slot n))
      if x.latch && !s.torn x.qid then s.setPend x.qid else s
    match s.hwAddr supAsid true .store at_ 16 with
    | .at_ a =>
      let old : W64 := BitVec.ofNat 64 (s.word (a + 8) 8)
      finish (s.supWrite at_ (bytesOf 8 rd.toNat ++ bytesOf 8 (old + ns).toNat))
    | .slow a =>
      let old : W64 := BitVec.ofNat 64 (s.word (a + 8) 8)
      if (s.putsOf g).contains (at_ / 8) then finish (s.hwPut supAsid (at_ + 8) (a + 8) (bytesOf 8 (old + ns).toNat))
      else (s.hwPut supAsid at_ a (bytesOf 8 rd.toNat)).keepPut g (at_ / 8)
    | .wait => if s.deadPage (.queue (.slot n)) supAsid at_ then finish s else s.engWait (.queue (.slot n)) supAsid at_ ⟨s.slotDie n, 23⟩
    | .stall => s
    | .misplaced pa => finish (s.misplaced supAsid ⟨s.slotDie n, 23, 0⟩ at_ pa)
    | .bad => finish s
  else s

def execUnmap (n : Nat) (s : State) : Out State := .next (s.attempt (.queue (.slot n)) (fun s => s.unmapSlot n))

/-! ### Serving (R274, R362, R374) -/

/-- The engine stops looking at a queue until its next kick. -/
def State.sleep (s : State) (q : QRef) : State :=
  let s := s.forgetWords (.queue q)
  match q with
  | .slot n => s.modSlot n (fun x => { x with awake := false })
  | .cq c asid hdr => s.modCluster c (fun k => { k with kicked := k.kicked.filter (fun e => !(e.1 == asid && e.2.1 == hdr)) })

/-- The queue may start a packet: it is kicked, mapped and enabled, does not drain, and no BARRIER waits (R269). -/
def State.mayStart (s : State) (q : QRef) : Bool :=
  (match q with
   | .slot n => let x := s.slot n; x.mapped && x.awake && !x.drain && x.qcb.enabled && !s.torn x.qid
   | .cq c asid hdr => (s.cluster c).kicked.any (fun e => e.1 == asid && e.2.1 == hdr)) &&
  (s.pktsOf q).all (fun p => p.started && p.kind != 9)

/-- A header or packet that cannot be read: a slot sets ERR and posts QUEUE_FAULT (R374); a copy engine stops (log 27). -/
def State.queueFault (s : State) (q : QRef) : State :=
  match q with
  | .slot n =>
    let x := s.slot n
    ((s.modSlot n (fun x => { x with err := true })).sleep q).post 0x112 (s.slotDie n) 23 x.qcb.asid [(16, 2, x.qid), (24, 8, x.qcb.hdr.toNat)]
  | _ => s.sleep q

/-- A read by the engine, all of it or not: waiting reads stay pending at the supervisor (R39). -/
def State.serveRead (s : State) (q : QRef) (va n : Nat) : State × Option (List Byte) :=
  let g := s.serveAgent q
  match s.readBytes g va n with
  | .ok bs => if bs.any (·.2) then (s.queueFault q, none) else (s.noteReads g ((List.range n).map (va + ·)), some (bs.map (·.1)))
  | .error (.replay a) => (s.engWait (.queue q) g.asid a (s.serveCl q), none)
  | .error .stall => (s, none)
  | .error (.slow a) => (s.slowRead g a, none)
  | .error (.fatal a (some pa)) => ((s.misplaced g.asid ⟨g.die, (s.serveCl q).cl, 0⟩ a pa).queueFault q, none)
  | .error _ => (s.queueFault q, none)

/-- The next packet of a queue: its index and bytes, when one stands at RDIDX; the engine sleeps when none does. -/
def State.lookNext (s : State) (q : QRef) : State × Option (W64 × QHdr × List Byte) :=
  if !s.mayStart q then (s, none)
  else
    let hdr := QRef.hdr s q
    if hdr.toNat % 64 ≠ 0 then (s.queueFault q, none)
    else match s.serveRead q hdr.toNat 64 with
      | (s, none) => (s, none)
      | (s, some hb) =>
        let h := parseHdr hb
        if !h.sound then (s.queueFault q, none)
        else
          let s := match q with
            | .slot n => s.modSlot n (fun x => { x with err := false })
            | _ => s
          match s.serveRead q (h.slot h.rdidx.toNat) 64 with
          | (s, none) => (s, none)
          | (s, some pb) => if fieldAt pb 4 4 = h.rdidx.toNat % 2 ^ 32 then (s, some (h.rdidx, h, pb)) else (s.sleep q, none)

/-- Begin the packet at RDIDX, if its kind is one of those asked for: RDIDX counts one more and the snapshot is kept (R274). A look that
finds another kind changes nothing. -/
def State.beginPkt (s : State) (q : QRef) (want : List Byte → Bool) : State :=
  match s.lookNext q with
  | (s', none) => s'
  | (s', some (i, h, pb)) =>
    if !want pb then s
    else
      let g := s'.serveAgent q
      match s'.placeWrites g (bytesWrite ((QRef.hdr s' q).toNat + 8) (bytesOf 8 (i + 1).toNat) false) with
      | .error (.replay a) => s.engWait (.queue q) g.asid a (s.serveCl q)
      | .error .stall => s
      | .error _ => s'.queueFault q
      | .ok xs =>
        let s := (s'.engWrite g xs).forgetWords (.queue q)
        let (qid, cls, s) : Option Nat × Fin 4 × State := match q with
          | .slot n => (some (s.slot n).qid, (s.slot n).qcb.cls, s.modSlot n (fun x => { x with rdidx := i + 1 }))
          | _ => (none, 0, s)
        let p : Pkt := { id := s.seq, q := q, qid := qid, index := i.toNat, addr := BitVec.ofNat 64 (h.slot i.toNat), asid := g.asid,
                         super := g.super, cl := s.serveCl q, cls := cls, bytes := pb, live := false, fut := 0, outcome := none, fin := none,
                         flagWr := none, info := none }
        { s.bump with pkts := s.pkts ++ [p] }

def State.modPkt (s : State) (p : Pkt) (f : Pkt → Pkt) : State := { s with pkts := updFirst (fun k => k.id == p.id) f s.pkts }

def Pkt.agent (p : Pkt) : Agent := ⟨p.cl.die, none, p.super, p.asid, some (.pkt p.id), 0, none⟩
def Pkt.isLaunch (p : Pkt) : Bool := p.kind == 8 && (match p.q with | .slot _ => true | _ => false)

/-- The value that the flag of a packet receives (R271, R377). -/
def pktFlag (val : W64) (st code : Nat) : W64 := if st = 0 then val else BitVec.ofNat 64 (2 ^ 63 + code * 2 ^ 32 + st)

/-- The event of a packet that ends with a status (R271, R377, R454). -/
def State.finEvent (s : State) (p : Pkt) (st code : Nat) (written : Bool) : State :=
  let c := parsePkt p.bytes
  if !bitOf c.flags 2 then s
  else
    let common := [(16, 1, st), (24, 8, if bitOf c.flags 0 then c.flagAddr.toNat else 0),
      (32, 8, if written then (pktFlag c.flagVal st code).toNat else 0)]
    if p.isLaunch then s.post 0x100 p.cl.die p.cl.cl p.asid (common ++ [(18, 2, code), (40, 8, p.fut.toNat)])
    else s.post 0x101 p.cl.die p.cl.cl p.asid (common ++ [(40, 8, p.addr.toNat)])

/-- Show the outcome of a packet: its flag, its event, and its end. A flag that waits for the supervisor or for a darning is tried again;
one on its way to a register ends the packet when it is there. -/
def State.finishPkt (s : State) (p : Pkt) : State :=
  match p.fin with
  | none => s
  | some (st, code) =>
    let c := parsePkt p.bytes
    match p.flagWr with
    | some w => if s.wrs.any (fun x => x.id == w) then s else (s.finEvent p st code true).endPkt p.id
    | none =>
      if bitOf c.flags 0 then
        match s.flagStore p.agent p.cl true c.flagAddr c.flagAddr (bytesOf 8 (pktFlag c.flagVal st code).toNat) false 1 with
        | (s, .done w) => (s.finEvent p st code w).endPkt p.id
        | (s, .sent w) => s.modPkt p (fun k => { k with flagWr := some w })
        | (s, .wait va) => s.engWait (.pkt p.id) p.asid va p.cl
        | (s, .stall) => s
      else (s.finEvent p st code false).endPkt p.id

def State.setFin (s : State) (p : Pkt) (st code : Nat) : State :=
  let p' := { p with fin := p.fin.or (some (st, code)) }
  (s.modPkt p (fun _ => p')).finishPkt p'

/-- FLAGS bits [15:3] are zero; a queued packet that breaks this completes with status KIND (R267). -/
def pktOk (bs : List Byte) : Bool := fieldAt bs 2 2 / 8 == 0

/-- One attempt to go on with a packet that has begun: to show its outcome, or to start it. -/
def State.tryPkt (go : State → Pkt → State) (s : State) (p : Pkt) : State :=
  s.attempt (.pkt p.id) (fun s => if p.fin.isSome then s.finishPkt p else go s p)

/-- What an engine does for packets of some kinds: those that have begun and wait are tried again; then the packet at RDIDX is begun
and tried. -/
def State.servePkt (s : State) (q : QRef) (want : List Byte → Bool) (go : State → Pkt → State) : State :=
  let waiting := s.pkts.filter (fun p => p.q == q && !p.live && want p.bytes)
  let s : State := waiting.foldl (State.tryPkt go) s
  let s' := s.attempt (.queue q) (fun s => s.beginPkt q want)
  match s'.pkts.find? (fun p => !s.pkts.any (fun k => k.id == p.id)) with
  | some p => s'.tryPkt go p
  | none => s'

/-- A packet whose KIND is k, with sound flags. -/
def isKind (k : Nat) (bs : List Byte) : Bool := fieldAt bs 0 2 == k && pktOk bs

def execNopPacket (q : QRef) (s : State) : Out State := .next (s.servePkt q (isKind 0) (fun s p => s.setFin p 0 0))
def execSignal (q : QRef) (s : State) : Out State := .next (s.servePkt q (isKind 10) (fun s p => s.setFin p 0 0))

/-- An earlier packet of the same queue is not complete. -/
def State.earlier (s : State) (p : Pkt) : Bool :=
  s.pkts.any (fun k => decide (k.id < p.id) && (if p.qid.isSome then k.qid == p.qid else k.q == p.q))

/-- BARRIER: complete once every earlier packet of its queue is, whichever slot started it (R269, R377). -/
def execBarrier (q : QRef) (s : State) : Out State :=
  .next (s.servePkt q (isKind 9) (fun s p => if s.earlier p then s else s.setFin p 0 0))

/-- UNKNOWN_KIND: an unaccepted KIND, a LAUNCH on a copy queue, or reserved flags (a LAUNCH on a user queue apart). -/
def unknownKind (q : QRef) (bs : List Byte) : Bool :=
  let k := fieldAt bs 0 2
  match q with
  | .slot _ => k != 8 && (!pktOk bs || !([0, 1, 2, 3, 4, 9, 10].contains k))
  | _ => !pktOk bs || !([0, 1, 2, 3, 4, 9, 10].contains k)

def execUnknownKind (q : QRef) (s : State) : Out State := .next (s.servePkt q (unknownKind q) (fun s p => s.setFin p 4 0))

/-- A tensor map that a packet names; unreadable, its packet completes with status ADDRESS. -/
def State.pktMap (s : State) (p : Pkt) (va : W64) : State × Except SnapErr TMap :=
  match s.snapStruct p.cl p.agent true va 128 128 with
  | (s, .ok bs) => (s, .ok (parseTMap bs))
  | (s, .error e) => (s, .error e)

def State.pktWait (s : State) (p : Pkt) : SnapErr → State
  | .wait va => s.engWait (.pkt p.id) p.asid va p.cl
  | .stall => s
  | .unreadable _ => s.setFin p 1 0

/-- Start the copy of a packet: its maps, its checks, its range lock, then the operation (R112, R268, R269, R282). -/
def State.startCopy (kind : Nat) (s : State) (p : Pkt) : State :=
  let c := parsePkt p.bytes
  let start := fun (s : State) (maps : List TMap) (src : List (Nat × Nat)) (dst : List (Nat × Nat)) =>
    if (s.cluster p.cl).freeLock.isNone then s
    else
      let op : EngOp :=
        { id := s.seq, tg := none, task := 0, super := p.super, asid := p.asid, cl := p.cl, core := ⟨p.cl.die, p.cl.cl, 0⟩, tok := none,
          kind := .copy kind, pkt := p.bytes, pktAddr := p.addr, maps := maps, queue := some p.q, index := p.id, fault := none,
          mark := 0, started := true, handles := [], part := none, ended := none, flagWr := none, out := none, pc := 0, failed := false,
          words := ⟨[], []⟩ }
      let s := s.takeLock p.cl op.id none p.asid src dst
      { s.bump with ops := s.ops ++ [op] }.modPkt p (fun k => { k with live := true })
  let dstMap := fun (s : State) (k : State → TMap → State) =>
    match s.pktMap p c.dst with
    | (s, .error e) => s.pktWait p e
    | (s, .ok md) => k s md
  if kind = 4 then
    dstMap s fun s md => if copyOk 4 c none (some md) then start s [md] [] (md.ranges c.do_ c.ext) else s.setFin p 2 0
  else
    match s.pktMap p c.src with
    | (s, .error e) => s.pktWait p e
    | (s, .ok ms) => dstMap s fun s md =>
      if copyOk kind c (some ms) (some md) then start s [ms, md] (ms.lockRanges c.so c.ext) (md.ranges c.do_ (c.dext kind))
      else s.setFin p 2 0

def execCopy (q : QRef) (s : State) : Out State := .next (s.servePkt q (isKind 1) (State.startCopy 1))
def execCopyTranspose (q : QRef) (s : State) : Out State := .next (s.servePkt q (isKind 2) (State.startCopy 2))
def execCopyRedither (q : QRef) (s : State) : Out State := .next (s.servePkt q (isKind 3) (State.startCopy 3))
def execFill (q : QRef) (s : State) : Out State := .next (s.servePkt q (isKind 4) (State.startCopy 4))

/-! ### LAUNCH (R375 to R377) -/

structure LPkt where
  tdesc : W64
  cwimg : W64
  lmask : W32
  launchx : W32
  futout : W64
  ok : Bool
deriving DecidableEq, Repr

def parseLaunch (bs : List Byte) : LPkt :=
  ⟨word8 bs 8, word8 bs 16, BitVec.ofNat 32 (fieldAt bs 24 4), BitVec.ofNat 32 (fieldAt bs 28 4), word8 bs 32, pktOk bs && zeroFrom bs 40 8⟩

/-- Every core of the device. -/
def State.allCores (s : State) : List CoreId :=
  ((List.range s.mode.computeDies).flatMap (fun d => (List.range 24).flatMap (fun c => (List.range 8).map (fun k => (⟨d, c, k⟩ : CoreId))))) ++
  ((List.range s.mode.gatewayDies).flatMap (fun d => (List.range s.mode.gatewayClusters).flatMap (fun c =>
    (List.range 8).map (fun k => (⟨8 + d, c, k⟩ : CoreId)))))

/-- Write the image to entries 0 to 223 of every user core. -/
def State.loadImage (s : State) (img : List Byte) : State :=
  (s.allCores.filter s.unreserved).foldl (fun (s : State) c => s.writeAt (localAddr c 0) img false) s

/-- A store of a LAUNCH to its result area, at an offset (R377): skipped with its event where it cannot be performed. -/
def State.futoutStore (s : State) (p : Pkt) (off : W64) (bs : List Byte) (poison : Bool) (k : State → State) : State :=
  let l := parseLaunch p.bytes
  if l.futout = 0 then k s
  else match s.flagStore p.agent p.cl (l.futout.toNat % 16 == 0) (l.futout + off) l.futout bs poison 2 with
    | (s, .done _) | (s, .sent _) => k s
    | (s, .wait va) => s.engWait (.pkt p.id) p.asid va p.cl
    | (s, .stall) => s

/-- The store of the handle at FUTOUT, then the launch runs. -/
def State.storeFutout (s : State) (p : Pkt) : State :=
  s.futoutStore p 0 (bytesOf 8 p.fut.toNat) false (fun s => s.modPkt p (fun k => { k with live := true }))

/-- The cluster in whose table a LAUNCH spawns (R376). -/
def launchTable (p : Pkt) (i : SpawnInfo) : ClId := if fwPlace i.flag = 2 then ⟨fwTdie i.flag, fwTcluster i.flag⟩ else ⟨p.cl.die, 0⟩

/-- The spawn of a LAUNCH whose checks have passed and whose image is written; it waits for an entry of the table. -/
def State.launchSpawn (s : State) (p : Pkt) (i : SpawnInfo) : State :=
  let l := parseLaunch p.bytes
  let cl := launchTable p i
  match s.freeEntry cl false with
  | none => s.modPkt p (fun k => { k with info := some i })
  | some (slot, gen) =>
    let place := if fwPlace i.flag = 0 then i.flag + 64 else i.flag
    let i := { i with flag := place }
    let b : SpawnBy :=
      { asid := p.asid, det := fwDet i.flag, own := max (fwPrio i.flag) p.cls, lmask := l.lmask, launchx := l.launchx,
        lineage := p.qid.map (fun q => ⟨q, p.index⟩), core := ⟨cl.die, cl.cl, 0⟩, spawner := 0 }
    let (s, h) := s.enqueue i b cl cl slot gen none
    let p := { p with fut := h, info := none }
    (s.modPkt p (fun _ => p)).storeFutout p

/-- launch of R376. -/
def State.launch (s : State) (p : Pkt) : State :=
  let l := parseLaunch p.bytes
  if p.fut ≠ 0 then s.storeFutout p
  else match p.info with
  | some i => s.launchSpawn p i
  | none =>
    if !l.ok then s.setFin p 4 0
    else
      let fail := fun (s : State) (e : SnapErr) =>
        match e with
        | .wait va => s.engWait (.pkt p.id) p.asid va p.cl
        | .stall => s
        | .unreadable _ => s.setFin p 1 kADDRESS.toNat
      match s.snapTask p.cl p.agent l.tdesc with
      | (s, .error e) => fail s e
      | (s, .ok i) =>
        match i.bad s.mode ⟨p.cl.die, 0⟩ false with
        | some (code, _) => s.setFin p 5 code.toNat
        | none =>
          if (s.scope p.asid (fwScope i.flag)).st ≠ .open_ then s.setFin p 5 kRESOURCE.toNat
          else if l.cwimg = 0 then s.launchSpawn p i
          else match s.snapStruct p.cl p.agent false l.cwimg 896 128 with
            | (s, .error e) => fail s e
            | (s, .ok img) => (s.loadImage img).launchSpawn p i

/-- A LAUNCH on a user queue. -/
def launchWant (q : QRef) (bs : List Byte) : Bool :=
  match q with
  | .slot _ => fieldAt bs 0 2 == 8
  | _ => false

def execLaunch (q : QRef) (s : State) : Out State := .next (s.servePkt q (launchWant q) State.launch)

/-- LAUNCH_COMPLETE (R377): the value at FUTOUT + 8 before the flag. A future that the teardown settled completes it with ABORTED
(R381). -/
def State.launchDone (s : State) (p : Pkt) : State :=
  match p.fin, p.outcome with
  | some _, _ => s.finishPkt p
  | none, some (.value v q) => s.futoutStore p 8 (bytesOf 8 v.toNat) q (fun s => s.setFin p 0 0)
  | none, some .cancelled => s.setFin p 7 0
  | none, some (.faulted c _) => if c = kTEARDOWN then s.setFin p 3 0 else s.setFin p 6 c.toNat
  | none, _ => s

def execLaunchComplete (h : W64) (s : State) : Out State :=
  .next (match s.pkts.find? (fun p => p.fut == h && p.live) with
    | some p => s.attempt (.pkt p.id) (fun s => s.launchDone p)
    | none => s)

/-! ### Teardown (R83, R380, R381) -/

def ofQueue (q : Nat) : Option Lineage → Bool
  | some l => l.queue == q
  | none => false

/-- How the teardown of a queue settles a future: the fault address is the queue's control block (R80). -/
def State.tearCode (s : State) (q : Nat) : Ending := ⟨.faulted, 0, false, kTEARDOWN, kget 0 s.qcbOf q⟩

/-- What teardown aborts of the packets that have started: a LAUNCH whose spawn has not happened, a BARRIER, a SIGNAL (R381). -/
def Pkt.tornAway (q : Nat) (p : Pkt) : Bool :=
  p.qid == some q && p.fin.isNone && (if p.isLaunch then p.fut == 0 else p.kind == 9 || p.kind == 10)

/-- The start of a teardown: the slot drains, packets that it aborts complete with ABORTED, waiting tasks go at once, and running ones are
asked to stop at their next safe point (R83). -/
def State.tearStart (s : State) (q : Nat) : State :=
  let s := match s.slotOf q with
    | some n => s.modSlot n (fun x => { x with drain := true, latch := false })
    | none => s
  let s : State := (s.pkts.filter (Pkt.tornAway q)).foldl (fun (s : State) p => s.setFin p 3 0) s
  let mine := s.tasks.filter (fun t => ofQueue q t.lineage)
  let s : State := (mine.filter (fun t => t.st == .queued || t.st == .prefetch)).foldl (fun (s : State) t =>
    s.endQueued t.handle (s.tearCode q)) s
  (mine.filter (·.st == .running)).foldl (fun (s : State) t => s.modTask_tgs t.handle (fun g => { g with k12 := true })) s

/-- A write of QTEAR. -/
def State.qtear (s : State) (v : W64) : State :=
  if s.sup.qtearBusy then s
  else
    let q := v.toNat % 1024
    (s.modSup (fun r => { r with qtearBusy := true, qtearQid := q })).tearStart q

def execQtear (v : W64) (s : State) : Out State := .next (s.qtear v)

/-- Discard what still descends from the queue's launches, and settle its promises (R83): a task that has not come to a safe point is
forced. -/
def State.tearTasks (s : State) (q : Nat) : State :=
  let s : State := (s.tasks.filter (fun t => ofQueue q t.lineage)).foldl (fun (s : State) t =>
    if t.st = .queued ∨ t.st = .prefetch then s.endQueued t.handle (s.tearCode q) else s.endTask t.handle (s.tearCode q)) s
  (s.futs.filter (fun f => ofQueue q f.lineage && f.promise && !f.st.terminal)).foldl (fun (s : State) f =>
    match s.noteNow f.h (.ending (s.tearCode q)) with
    | (s, true) => s.settleHeld f.h
    | (s, false) => s) s

/-- Something of a queue is left: a slot that holds it, a packet, a task, or a future that has still to settle. -/
def State.queueLives (s : State) (q : Nat) : Bool :=
  (s.slotOf q).isSome || s.pkts.any (fun p => p.qid == some q) || s.tasks.any (fun t => ofQueue q t.lineage) ||
  s.futs.any (fun f => ofQueue q f.lineage && !f.st.terminal)

/-- TORN is set and ENABLED cleared in the control block that the queue was last mapped from (R381, log 114); false while hardware writes
wait, the page is under darning, or it waits for the supervisor. -/
def State.tearQcb (s : State) (q : Nat) : State × Bool :=
  match kfind q s.qcbOf with
  | none => (s, true)
  | some qcb =>
    if s.hwq != [] then (s, false)
    else
    let a := qcb.toNat + 11
    let s : State := { s with engWaits := s.engWaits.filter (fun w => w.who != .queue (.cq ⟨0, 0⟩ supAsid qcb) || w.dead) }
    match s.hwAddr supAsid true .store a 1 with
    | .at_ x | .slow x => (s.supWrite a [((memGet s.mem x) ||| 2#8) &&& 0xFE#8], true)
    | .wait =>
      if s.deadPage (.queue (.cq ⟨0, 0⟩ supAsid qcb)) supAsid a then (s, true) else (s.engWait (.queue (.cq ⟨0, 0⟩ supAsid qcb)) supAsid a ⟨0, 0⟩, false)
    | .stall => (s, false)
    | .misplaced pa => (s.misplaced supAsid ⟨0, 0, 0⟩ a pa, true)
    | .bad => (s, true)

/-- The end of a teardown, when nothing of the queue is left: the control block and the event. -/
def State.tearEnd (s : State) (q : Nat) : State × Bool :=
  let s := s.tearTasks q
  let s : State := (s.pkts.filter (fun p => p.qid == some q && p.fin.isSome)).foldl (State.tryPkt (fun s _ => s)) s
  if s.queueLives q then (s, false)
  else
    match s.tearQcb q with
    | (s, true) => (s.post 0x102 0 0 0 [(16, 2, q)], true)
    | r => r

/-- TEARDOWN_COMPLETE. -/
def State.tearDone (s : State) : State :=
  if !s.sup.qtearBusy then s
  else
    let r := s.tearEnd s.sup.qtearQid
    if r.2 then r.1.modSup (fun r => { r with qtearBusy := false }) else r.1

def execTeardownComplete (s : State) : Out State := .next s.tearDone

/-- Every queue of the device that a slot holds or that has packets, tasks or futures that have not settled. -/
def State.liveQueues (s : State) : List Nat :=
  (((List.range 64).filter (fun n => (s.slot n).mapped)).map (fun n => (s.slot n).qid) ++ s.pkts.filterMap (·.qid) ++
    s.tasks.filterMap (fun t => t.lineage.map (·.queue)) ++
    (s.futs.filter (fun f => !f.st.terminal)).filterMap (fun f => f.lineage.map (·.queue))).eraseDups

/-- One of every queue's teardowns, complete: its control block is written once. -/
def State.tearOne (s : State) (q : Nat) : State :=
  match s.tearEnd q with
  | (s, true) => { s with qcbOf := s.qcbOf.filter (fun x => x.1 != q) }
  | (s, false) => s

/-- Tear down every queue (R381), one at rest that has been mapped among them, as POWER, RESTORE and UNLOCK do: true once none is left. A task
is given the step in which it is asked to stop. -/
def State.tearAll (s : State) : State × Bool :=
  let qs := s.liveQueues
  let fresh := qs.filter (fun q => match s.slotOf q with | some n => !(s.slot n).drain | none => false)
  if fresh != [] then (fresh.foldl (fun (s : State) q => s.tearStart q) s, false)
  else
    let s : State := (List.range 64).foldl (fun (s : State) n => if (s.slot n).mapped then s.unmapSlot n else s) s
    let s : State := (qs ++ (s.qcbOf.map (·.1)).filter (fun q => !qs.contains q)).foldl State.tearOne s
    (s, s.liveQueues.isEmpty && s.qcbOf.isEmpty)

end Sys2Proof.Machine
end

