-- ==== Sys2Proof/Machine/Trans.lean ====
section
/-! DEFINITION. Invalidation (R389, R390), answers to faults (R393, R394), the swap of the region table (R395, R396), darning (R398,
R399) and peer memory (R402). -/

namespace Sys2Proof.Machine

open Sys2Proof

/-! ### Invalidation -/

/-- The pages that the last TINVCTL write names (R383). -/
def SupRegs.tinvNames (r : SupRegs) (asid : Half) (va : Nat) : Bool :=
  r.tinvAll || (r.tinvAsid == asid &&
    (r.tinvPages == 0 || (decide (r.tinvFrom ≤ va) && decide (va < r.tinvFrom + r.tinvPages * 2 ^ 16))))

/-- What a parked thread group waits on. -/
def TG.parkedOn (g : TG) : Nat :=
  match g.status with
  | .parked _ o => o.toNat
  | _ => 0

/-- Drop the replicas and cached lines of the pages that a test names; a line that a write holds does not stay when the write is
acknowledged (R389, R390). The waiters of WAITV read again. -/
def State.dropPages (s : State) (names : Half → Nat → Bool) : State :=
  let poke := fun (s : State) (w : Watch) => s.modTg w.tg (fun g => { g with wake := g.wake.or (some .go) })
  let hit := fun (w : Watch) => names w.asid (((s.tgAt w.tg).map TG.parkedOn).getD 0)
  let s : State := (s.watches.filter hit).foldl poke s
  { s with replicas := s.replicas.filter (fun r => !names r.asid r.va), watches := s.watches.filter (fun w => !hit w),
           wrs := s.wrs.map (fun w => if names w.ent.asid w.ent.va.toNat then { w with dropped := true } else w) }

/-- A write of TINVCTL (R389); with PAGES = 0 the context entry that it names takes effect as storage holds it (R388). -/
def State.tinvWrite (s : State) (v : W64) : State :=
  if s.sup.tinvBusy then s
  else
    let s := s.modSup (fun r => { r with tinvPages := fieldOf v.toNat 32 28, tinvAll := bitOf v.toNat 16, tinvAsid := v.setWidth 16,
                                         tinvBusy := true, tinvFrom := r.tinvaddr })
    let s : State := { s with ctxOld := s.ctxOld.filter (fun c => !(s.sup.tinvAll || (s.sup.tinvPages == 0 && c.1 == s.sup.tinvAsid))) }
    s.dropPages s.sup.tinvNames

def execInvalidation (v : W64) (s : State) : Out State := .next (s.tinvWrite v)

/-- INVALIDATION_COMPLETE: every access under a dropped translation has been performed; a page that is being darned holds it up
(R400). -/
def execInvalidationComplete (s : State) : Out State :=
  .next (
    let r := s.sup
    let darns := r.darnBusy && !r.darn.unmapped && r.tinvNames r.darn.asid r.darn.va
    if r.tinvBusy && !darns && !s.wrs.any (fun w => r.tinvNames w.ent.asid w.ent.va.toNat) then
      s.modSup (fun r => { r with tinvBusy := false })
    else s)

/-- A host broadcast acts on the contexts that mirror the space (R390); 0 pages name the whole space. -/
def execBroadcastInvalidation (space : Option W32) (va : W64) (pages : Nat) (s : State) : Out State :=
  .next (s.dropPages (fun asid x => ctxMirrors s.toSoc asid space &&
    (pages == 0 || (decide (va.toNat / 2 ^ 16 * 2 ^ 16 ≤ x) && decide (x < va.toNat / 2 ^ 16 * 2 ^ 16 + pages * 2 ^ 16)))))

/-- HOST_SYNC: answered once no access of a mirrored context is under way (R390). -/
def execHostSync (s : State) : Out State :=
  .next (if s.wrs.any (fun w => ctxMirrors s.toSoc w.ent.asid none) then s
    else s.modMgmt (fun m => { m with syncs := m.syncs + 1 }))

/-! ### Answers to faults (R393, R394) -/

/-- A SPAWN that waits for a structure of its snapshot (R32, R113). -/
def TG.snapping (g : TG) : Bool :=
  g.phase.snap.isNone && (match g.cur with
    | some (.spawn ..) => true
    | _ => false)

/-- The thread groups parked on a page. -/
def State.parkedOn (s : State) (asid : Half) (page : Nat) : List (TgRef × W64) :=
  s.allTgs.filterMap (fun g => match g.status with
    | .parked k o => if k = 11 ∧ g.asid = asid ∧ o.toNat / 2 ^ 16 = page / 2 ^ 16 then some (g.loc, o) else none
    | _ => none)

/-- FLTRESP. With unmap, parked accesses kill their tasks, a SPAWN finds its structure unreadable (R32), waiting engines fail on their next
attempt, and a stopped side log whose head lies on the page discards it at REPLAY. -/
def State.faultAnswer (s : State) (asid : Half) (page : Nat) (unmap : Bool) : State :=
  if !s.faults.any (fun e => e.asid == asid && e.page == page) then s
  else
    let s : State := { s with faults := s.faults.filter (fun e => !(e.asid == asid && e.page == page)) }
    let s : State := (s.parkedOn asid page).foldl (fun (s : State) x =>
      let wake := fun (w : Wake) => s.modTg x.1 (fun g => { g with wake := g.wake.or (some w) })
      if !unmap then wake .go
      else if (s.tgAt x.1).any (·.snapping) then wake (.faulted kADDRESS x.2)
      else s.killTg x.1 kADDRESS x.2) s
    let mine := fun (o : EngOp) => o.asid == asid && o.fault == some page
    let dead : List EngWait := if unmap then (s.ops.filter mine).map (fun o => ⟨.op o.id, asid, page, true⟩) else []
    let s : State := { s with
      ops := s.ops.map (fun o => if mine o then { o with fault := none } else o)
      engWaits := (s.engWaits.filterMap (fun w =>
        if w.asid = asid ∧ w.page = page ∧ w.dead = false then (if unmap then some { w with dead := true } else none) else some w)) ++ dead }
    if unmap then
      { s with cores := s.cores.map (fun (c : CoreId × Core) =>
          match c.2.log.head? with
          | some e => if c.2.stopped ∧ e.asid = asid ∧ e.va.toNat / 2 ^ 16 = page / 2 ^ 16 then (c.1, { c.2 with discard := true }) else c
          | none => c) }
    else s

def fltAsid (v : W64) : Half := v.setWidth 16
def fltPage (v : W64) : Nat := fieldOf v.toNat 16 41 * 2 ^ 16

/-- A write of FLTRESP. -/
def State.fltresp (s : State) (v : W64) : State := s.faultAnswer (fltAsid v) (fltPage v) (bitOf v.toNat 63)

def execFltrespRetry (v : W64) (s : State) : Out State := .next (s.faultAnswer (fltAsid v) (fltPage v) false)
def execFltrespUnmap (v : W64) (s : State) : Out State := .next (s.faultAnswer (fltAsid v) (fltPage v) true)

/-! ### The region table (R395, R396) -/

/-- An entry that a swap refuses. -/
def rtBad (m : PartMode) (w : W64) : Bool :=
  let e := rtEntry w
  e.v && (decide (e.log2size < 21) || decide (56 < e.log2size) || e.base % 2 ^ e.log2size != 0 ||
    (e.pin && decide (m.computeDies ≤ e.home)) || (e.log2g != 0 && (decide (e.log2g < 17) || decide (32 < e.log2g))) ||
    decide (e.log2size < e.log2g) || e.policy == 3 || e.reserved != 0)

/-- A write of RTCTL: SWAP validates the shadow table, then activates it under the next generation. -/
def State.rtWrite (s : State) (v : W64) : State :=
  let r := s.sup
  if r.rtBusy || r.darnBusy || !bitOf v.toNat 4 then s
  else
    let first := (r.shadow.filter (fun p => rtBad s.mode p.2)).foldl
      (fun (m : Option Nat) p => some (match m with | none => p.1 | some i => min i p.1)) none
    match first with
    | some i => s.modSup (fun r => { r with rtErr := true, rtErrIdx := i })
    | none => s.modSup (fun r => { r with rtErr := false, rtErrIdx := 0, rtBusy := true, rtGen := (r.rtGen + 1) % 16,
                                          prev := r.active, active := r.shadow })

def execSwap (s : State) : Out State := .next (s.rtWrite 0x10)

/-- SWAP_COMPLETE: the old generation has drained; the old homes collapse the replicas of lines that move, and of lines whose degree the
table lowers (R94). -/
def execSwapComplete (s : State) : Out State :=
  .next (
    let r := s.sup
    if r.rtBusy && s.wrs.all (fun w => w.gen == r.rtGen) then
      let gone := fun (x : Replica) => homeDie s.mode r.prev x.va != homeDie s.mode r.active x.va ||
        decide (s.degreeIn r.active x.asid x.va < s.degreeIn r.prev x.asid x.va)
      let t : State := (s.replicas.filter gone).foldl (fun (t : State) x =>
        (t.count x.die 0x43 1).count (homeDie t.mode r.prev x.va) 0x42 1) s
      { t with replicas := t.replicas.filter (fun x => !gone x) }.modSup (fun r => { r with rtBusy := false, prev := [] })
    else s)

/-! ### Darning (R398, R399) -/

/-- The level-4 entry of a page: its address and its word, when the walk reaches it through pointers (R385). -/
def pteFrom (s : Soc) (va : Nat) : Nat → Nat → Nat → Option (Nat × Nat)
  | 0, _, _ => none
  | fuel + 1, level, base =>
    let at_ := base + 8 * fieldOf va (levelShift level).1 (levelShift level).2
    let pte := s.word at_ 8
    if isPoisoned s.poison at_ 8 then none
    else if level = 4 then some (at_, pte)
    else if !bitOf pte 0 || bitOf pte 1 || fieldOf pte 60 4 != 0 then none
    else pteFrom s va fuel (level + 1) (fieldOf pte 8 52 * 256)

/-- The mapping of the page. -/
def State.darnPte (s : State) (j : DarnJob) : Option (Nat × Nat) := (ctxRoot s.toSoc j.asid).bind (pteFrom s.toSoc j.va 5 0)

/-- A valid TGT 0 leaf of the frame. -/
def darnLeaf (pte frame : Nat) : Bool :=
  bitOf pte 0 && bitOf pte 1 && fieldOf pte 6 2 == 0 && fieldOf pte 60 4 == 0 && fieldOf pte 8 52 * 256 == frame

def State.listed (s : State) (frame : Nat) : Bool := (kget [] s.badFrames (frame / 2 ^ 36)).contains frame

/-- Why a darning is refused. -/
def State.darnCode (s : State) (j : DarnJob) : Option Nat :=
  if !j.unmapped && !(match s.darnPte j with | some (_, p) => darnLeaf p j.src | none => false) then some 1
  else if j.dst / 2 ^ 36 != j.src / 2 ^ 36 || s.listed j.dst then some 2
  else if decide (1024 ≤ (kget [] s.badFrames (j.src / 2 ^ 36)).length) then some 3
  else none

/-- A write of DARNCTL: START begins, with the page's lines written back and dropped. -/
def State.darnWrite (s : State) (v : W64) : State :=
  if s.sup.darnBusy || s.sup.rtBusy || !bitOf v.toNat 0 then s
  else
    let j : DarnJob := ⟨s.sup.darnUnmapped, s.sup.darnVa, s.sup.darnAsid, s.sup.darnSrc, s.sup.darnDst⟩
    match s.darnCode j with
    | some c => s.modSup (fun r => { r with darnErr := true, darnCode := c })
    | none =>
      let s := s.modSup (fun r => { r with darnErr := false, darnCode := 0, darnBusy := true, darn := j })
      if j.unmapped then s
      else s.dropPages (fun asid va => asid == j.asid && va / 2 ^ 16 == j.va / 2 ^ 16)

def execDarning (s : State) : Out State := .next (s.darnWrite 1)

/-- Copy a 64 KiB frame with its poison (R334). -/
def Soc.copyFrame (s : Soc) (src dst : Nat) : Soc :=
  let at_ := fun (f a : Nat) => decide (f ≤ a) && decide (a < f + 2 ^ 16)
  let cells := s.mem.filter (fun c => at_ src c.1)
  { s with mem := cells.foldl (fun m c => memSet (dst + (c.1 - src)) c.2 m) (s.mem.filter (fun c => !at_ dst c.1)),
           poison := (s.poison.filter (fun g => at_ src (markAt g))).foldl (fun p g => insertNat (g + dst - src) p)
             (s.poison.filter (fun g => !at_ dst (markAt g))),
           ctxOld := s.keepCtx dst (2 ^ 16) }

/-- The SHA-256 digest of a bad-frame list (R407, log 30). -/
def listDigest (l : List Nat) : BitVec 256 := sha256 (l.flatMap (bytesOf 8))

/-- List a frame in its controller's translation unit and in module flash. -/
def State.listFrame (s : State) (frame : Nat) : State :=
  let c := frame / 2 ^ 36
  let l := insertNat frame (kget [] s.badFrames c)
  { s with badFrames := kset c l s.badFrames, mgmt := { s.mgmt with badList := kset c ⟨l, listDigest l⟩ s.mgmt.badList } }

/-- DARNING_COMPLETE: the accesses under the old translation have been performed; copy, rewrite the leaf, as any write of its line, and list
the frame (R243, R398). -/
def execDarningComplete (s : State) : Out State :=
  .next (
    let j := s.sup.darn
    if !s.sup.darnBusy then s
    else if j.unmapped then (s.listFrame j.src).modSup (fun r => { r with darnBusy := false })
    else if s.wrs.any (fun w => w.ent.asid == j.asid && w.ent.va.toNat / 2 ^ 16 == j.va / 2 ^ 16) then s
    else
      let s := s.onSoc (·.copyFrame j.src j.dst)
      let s := match s.darnPte j with
        | some (a, p) => s.homeWrite a (bytesOf 8 (p - fieldOf p 8 52 * 256 + j.dst))
        | none => s
      (s.listFrame j.src).modSup (fun r => { r with darnBusy := false }))

/-! ### Peer memory (R402) -/

/-- A physical range lies within one valid export range and names memory of the device. -/
def State.exported (s : State) (pa z : Nat) : Bool :=
  PartMode.paOk s.mode pa && s.sup.peerXp.any (fun p =>
    let w := p.2.toNat
    let n := fieldOf w 57 6
    let b := fieldOf w 16 23 * 2 ^ 16
    bitOf w 63 && decide (16 ≤ n) && decide (n ≤ 36) && b % 2 ^ n == 0 && decide (b ≤ pa) && decide (pa + z ≤ b + 2 ^ n))

def State.answerPeer (s : State) (r : PeerRes) : State := s.modMgmt (fun m => { m with peerOut := m.peerOut ++ [r] })

/-- An access that a peer sends: performed at the controller that the address names, or refused. -/
def State.peerAcc (s : State) (a : PeerAcc) : State :=
  match a with
  | .load pa z => if s.exported pa z then s.answerPeer (.done (memBytes s.mem pa z)) else s.answerPeer .refused
  | .store pa bs => if s.exported pa bs.length then (s.writeAt pa bs false).answerPeer (.done []) else s.answerPeer .refused
  | .atom pa m bs =>
    let e : StEnt := ⟨tg0, 0, false, 0, BitVec.ofNat 64 pa, .atom m, bs, false, false, 0⟩
    if s.exported pa e.size then
      let r := s.atomAt pa e
      r.1.answerPeer (.done r.2.1)
    else s.answerPeer .refused

def execPeerAccess (a : PeerAcc) (s : State) : Out State := .next (s.wakeUp.peerAcc a)

/-- n bytes of what a peer sent. -/
def takeBytes (n : Nat) (bs : List Byte) : List Byte := (bs ++ List.replicate n 0).take n

/-- Requests that belong to one access (R230, R366); a lane of an atomic stands alone (R237). -/
def State.wrGroup (s : State) (w : Wr) : List Wr :=
  if w.ret then [w]
  else s.wrs.filter (fun x => x.id == w.id || (x.die == w.die && !x.applied && !x.ret && w.ent.joins x.ent && x.host == w.host &&
    x.peer == w.peer && x.at_ / w.unit == w.at_ / w.unit))

/-- A peer refuses an access, or is declared lost: the accessing task is killed with ADDRESS (R402, R451). -/
def State.refused (s : State) (w : Wr) : State :=
  let ids := (s.wrGroup w).map (·.id)
  let s : State := { s with wrs := s.wrs.filter (fun x => !ids.contains x.id) }
  if (s.task w.ent.task).isSome then s.kill w.ent.task kADDRESS w.ent.va
  else if w.ent.task = 0 then s.killTg w.ent.tg kADDRESS w.ent.va else s

/-- A peer's reply ends the access; a refusal kills the accessing task, or thread group without one, with ADDRESS. -/
def State.peerReply (s : State) (id : Nat) (r : PeerRes) : State :=
  match s.wrs.find? (fun w => w.id == id && w.peer.isSome && !w.done) with
  | none => s
  | some w =>
    match r with
    | .done bs =>
      if w.ret then
        { s with wrs := updFirst (fun x => x.id == id) (fun x => { x with old := some (takeBytes w.ent.size bs, []), done := true }) s.wrs }
      else
        let ids := (s.wrGroup w).map (·.id)
        { s with wrs := s.wrs.filter (fun x => !ids.contains x.id) }
    | .refused => s.refused w

/-- PEER_REPLY: a packet from another device, which wakes this one (R422). -/
def execPeerReply (id : Nat) (r : PeerRes) (s : State) : Out State := .next (s.wakeUp.peerReply id r)

end Sys2Proof.Machine
end

