-- ==== Sys2Proof/Machine/Ras.lean ====
section
/-! DEFINITION. Reliability: ECC findings of the scrub and the sweep (R425 to R433), ECC strength (R427), core tests (R435), pipeline
errors (R332), links (R436 to R438), device failure (R439), the power limit (R15) and telemetry (R442). -/

namespace Sys2Proof.Machine

open Sys2Proof

/-! ### Events with a fault-history entry (R440, R443) -/

/-- The package number of a die of the device (R17, R20). -/
def State.packageDie (s : State) (d : Nat) : Nat :=
  match s.mode with
  | .whole => d
  | .half => if isGatewayDie d then 8 + 2 * s.part + (d - 8) else 4 * s.part + d
  | .die => if isGatewayDie d then 8 + s.part / 2 else s.part

/-- An entry of the fault history, which keeps the newest 65,536. -/
def State.record (s : State) (typ die : Nat) (payload : List Byte) : State :=
  s.modMgmt (fun m => 
    let e : HistEnt := ⟨s.ptp, typ, s.packageDie die, payload⟩
    { m with history := (m.history ++ [e]).drop (m.history.length + 1 - 65536) })

/-- An event of R440, and its entry: payload bytes 16 to 31. -/
def State.postRas (s : State) (typ die cl : Nat) (asid : Half) (fs : List (Nat × Nat × Nat)) : State :=
  (s.post typ die cl asid fs).record typ die (((eventRecord typ die cl asid s.ptp fs).drop 16).take 16)

/-- Background activities run in P0 and P1 of a device that works (R423, R439). -/
def State.background (s : State) : Bool := decide (s.mgmt.power ≤ 1) && !s.mgmt.off && !s.mgmt.failed

/-! ### ECC findings (R425, R426, R431) -/

/-- One correctable error of an array kind of a die in its 1 s window, reported once when the window's count reaches the threshold. -/
def State.ceWindow (s : State) (d array : Nat) : State :=
  let x := s.die d
  let w := s.ptp.toNat / 1000000000
  let on_ := kfind array x.windowAt == some w
  let n := if on_ then kget 0 x.windowCe array + 1 else 1
  let told := on_ && x.cePosted.contains array
  let due := x.ceth != 0 && decide (x.ceth ≤ n) && !told
  let s := s.modDie d (fun x => { x with
    windowAt := kset array w x.windowAt, windowCe := kset array n x.windowCe
    cePosted := if told || due then insertNat array x.cePosted else x.cePosted.filter (· != array) })
  if due then s.postRas 0x10C d 0 0 [(16, 1, array), (24, 8, n)] else s

/-- The same, counted. -/
def State.correctable (s : State) (d array sel : Nat) : State := (s.count d sel 1).ceWindow d array

/-- The correctable errors of a frame within 24 h. -/
def State.frameTimes (s : State) (d frame : Nat) : List Nat :=
  (kget [] (s.die d).frameCe frame).filter (fun t => decide (s.ptp.toNat < t + 86400000000000))

def State.frameSuspect (s : State) (d frame : Nat) (ue : Bool) : State :=
  s.postRas 0x10D d 0 0 [(24, 8, frame), (32, 1, (s.frameTimes d frame).length), (33, 1, b2n ue 0)]

/-- The gateway die and the first counter of a controller's stack (R90, R430). -/
def stackOf (c : Nat) : Nat × Nat := (8 + c / 2, 0x68 + 2 * (c % 2))

/-- A code word is counted once until a write replaces it; an uncorrectable error of a word that has been corrected is counted too. -/
def State.notice (s : State) (ue : Bool) (array a : Nat) (f : State → State) : State :=
  if s.seen.contains (array, a) || (!ue && s.seen.contains (array + 16, a)) then s
  else f { s with seen := (if ue then array else array + 16, a) :: s.seen }

/-- What stands for the DEVICE_FAILED message among the interrupts (R439). -/
def irqDeviceFailed : Nat := 2 ^ 16

/-- The device fails: its dies stop, the history gains an entry whose type and payload are free, and the host is told. -/
def State.failDevice (s : State) : State :=
  if s.mgmt.failed then s
  else
    let s := (s.useFree.record (s.freeWord.toNat % 2 ^ 16) 8 (bytesOf 16 (Config.freeWord (s.free + 1)).toNat)).useFree
    s.modMgmt (fun m => { m with failed := true, irqs := m.irqs ++ [irqDeviceFailed] })

/-- A finding in HBM. -/
def State.hbmFinding (s : State) (block : Nat) (e : EccFinding) : State :=
  let a := block / 32 * 32
  let (d, sel) := stackOf (a / 2 ^ 36)
  let frame := a / 2 ^ 16 * 2 ^ 16
  if !PartMode.paOk s.mode a then s
  else match e with
    | .clean => s
    | .corrected => s.notice false 4 a fun s =>
      let s := s.correctable d 4 sel
      let s := s.modDie d (fun x => { x with frameCe := kset frame (s.frameTimes d frame ++ [s.ptp.toNat]) x.frameCe })
      if (s.frameTimes d frame).length = (s.die d).frameth then s.frameSuspect d frame false else s
    | .uncorrectable =>
      let s : State := { s with poison := insertNat a s.poison }
      s.notice true 4 a fun s => ((s.count d (sel + 1) 1).postRas 0x10B d 0 0 [(16, 1, 4), (24, 8, a)]).frameSuspect d frame true

/-- PATROL_SCRUB. -/
def execPatrolScrub (block : Nat) (e : EccFinding) (s : State) : Out State :=
  .next (if s.background then s.hbmFinding block e else s)

/-- An uncorrectable word of a vector, in an array of marks. -/
def laneMark (v : W32) (lane : Fin 32) : W32 := v ||| (1#32 <<< lane.val)

/-- The core that a word of the core arrays is in, and the offset that its event shows: the byte offset in its own array (R440). -/
def wordAt : CoreWord → CoreId × Nat
  | .v t r l => (t.core, 128 * r.val + 4 * l.val)
  | .s t r => (t.core, 8 * r.val)
  | .p t r => (t.core, 4 * r.val)
  | .k t r => (t.core, r.val)
  | .local_ a => ((winOf a).coreId, (winOf a).off)
  | .acc c t n => (c, 0x40000 * t.val + 16 * n)

/-- The word exists: its thread group is resident, its address is one of a local store, its element one of a tile. -/
def State.hasWord (s : State) : CoreWord → Bool
  | .v t _ _ | .s t _ | .p t _ | .k t _ => (s.tgAt t).isSome
  | .local_ a => isWindow a && (winOf a).kind == 1 && winCheck s.mode true false a 1 == .ok
  | .acc c _ n => PartMode.hasCore s.mode c && !isGatewayDie c.die && decide (n < 16384)

/-- An uncorrectable word of the core arrays is poisoned (R334, R425). -/
def State.poisonWord (s : State) : CoreWord → State
  | .v t r l => s.modTg t (fun g => { g with vp := g.vp.set r (laneMark g.vp[r] l) })
  | .s t r => s.modTg t (fun g => { g with sp := g.sp ||| (1#64 <<< r.val) })
  | .p t r => s.modTg t (fun g => { g with pp := g.pp.set r (BitVec.allOnes 32) })
  | .k t r => s.modTg t (fun g => { g with kp := g.kp ||| (1#8 <<< r.val) })
  | .local_ a => { s with poison := insertNat (granule a) s.poison }
  | .acc c t n =>
    let mark := fun (x : Tile) => { x with pois := insertNat n x.pois }
    s.modCore c (fun k => if t.val = 0 then { k with a0 := mark k.a0 } else { k with a1 := mark k.a1 })

/-- A word of a thread group's registers is counted as one in memory is. -/
def State.noticeReg (s : State) (ue : Bool) (t : TgRef) (file reg lane : Nat) (f : State → State) : State :=
  if (s.tgAt t).any (fun g => g.found.contains (file, reg, lane) || (!ue && g.found.contains (file + 16, reg, lane))) then s
  else f (s.modTg t (fun g => { g with found := (if ue then file else file + 16, reg, lane) :: g.found }))

/-- So is an element of a tile. -/
def State.noticeAcc (s : State) (ue : Bool) (c : CoreId) (t n : Nat) (f : State → State) : State :=
  let mark := fun (x : Tile) => { x with found := (if ue then n else n + 2 ^ 20) :: x.found }
  if ((s.core c).tile t).found.contains n || (!ue && ((s.core c).tile t).found.contains (n + 2 ^ 20)) then s
  else f (s.modCore c (fun k => k.setTile t (mark (k.tile t))))

/-- A word of the core arrays is counted once until a write replaces it (R426). -/
def State.noticeWord (s : State) (ue : Bool) (w : CoreWord) (f : State → State) : State :=
  match w with
  | .v t r l => s.noticeReg ue t 0 r.val l.val f
  | .s t r => s.noticeReg ue t 1 r.val 0 f
  | .p t r => s.noticeReg ue t 2 r.val 0 f
  | .k t r => s.noticeReg ue t 3 r.val 0 f
  | .local_ a => s.notice ue 3 (granule a) f
  | .acc c t n => s.noticeAcc ue c t.val n f

/-- A finding in a slice: of the line that the die is home to, or of its replica. -/
def State.sliceFinding (s : State) (d : Nat) (asid : Half) (va : Nat) (what : EccFinding) : State :=
  let bad := fun (s : State) => (s.count d 0x61 1).postRas 0x10B d 0 asid [(16, 1, 1), (24, 8, va)]
  if isGatewayDie d ∨ what = .clean then s
  else match s.replicaOf d asid va with
    | some r =>
      let n := va % 128 / 32
      let hit := fun (x : Replica) => x.die == d && x.tags asid va
      let hurt := fun (x : Replica) => { x with poison := (x.poison.zipIdx).map (fun b => b.1 || b.2 / 8 == n) }
      let ue := what == .uncorrectable
      if r.found.contains n || (!ue && r.found.contains (n + 16)) then
        (if what = .corrected then s else { s with replicas := updFirst hit hurt s.replicas })
      else
        let s : State := { s with replicas := updFirst hit (fun x => { x with found := (if ue then n else n + 16) :: x.found }) s.replicas }
        if what = .corrected then s.correctable d 1 0x60 else bad { s with replicas := updFirst hit hurt s.replicas }
    | none =>
      if homeDie s.mode s.sup.active va ≠ d then s
      else match translate s.toSoc true .load asid va with
        | .phys pa =>
          let k := pa / 32 * 32
          if what = .corrected then s.notice false 1 k fun s => s.correctable d 1 0x60
          else ({ s with poison := insertNat k s.poison } : State).notice true 1 k bad
        | _ => s

/-- A block of an image in the keep tier, among the code words whose errors have been counted; those of an image that is written anew. -/
def keepMark (i a : Nat) : Nat := 2 ^ 68 + i * 2 ^ 48 + a
def State.forgetKeep (s : State) (i : Nat) : State :=
  { s with seen := s.seen.filter (fun w => !(w.1 % 16 == 5 && decide (keepMark i 0 ≤ w.2) && decide (w.2 < keepMark (i + 1) 0))) }

/-- A finding in the arrays of a die (R425): counted once for each code word, an uncorrectable one with its event. A parity error of a
first-level cache only refetches; an entry of a descriptor cache is dropped; an entry of another table that cannot be corrected fails the
device (R439); a block of the keep tier is poisoned in the HBM contents of its image. The row of a table or a cache is one finding (log 116). -/
def State.arrayFinding (s : State) (d : Nat) (f : ArrayFinding) : State :=
  let ue := f.what == .uncorrectable
  match f.place with
  | .slice asid va => s.sliceFinding d asid va f.what
  | .spad a =>
    let w := winOf a
    let k := a / 8 * 8
    if !(isWindow a && w.kind == 0 && w.die == d && winCheck s.mode true false a 1 == .ok) || f.what == .clean then s
    else if ue then
      let s : State := { s with poison := insertNat k (insertNat (k + 4) s.poison) }
      s.notice true 2 k fun s => (s.count d 0x63 1).postRas 0x10B d w.cl 0 [(16, 1, 2), (17, 1, w.cl), (24, 8, w.off)]
    else s.notice false 2 k fun s => s.correctable d 2 0x62
  | .core w =>
    let (c, off) := wordAt w
    if c.die ≠ d ∨ s.hasWord w = false ∨ f.what = .clean then s
    else if ue then
      (s.poisonWord w).noticeWord true w fun s =>
        (s.count d 0x65 1).postRas 0x10B d c.cl 0 [(16, 1, 3), (17, 1, c.cl), (18, 1, c.core), (24, 8, off)]
    else s.noticeWord false w fun s => s.correctable d 3 0x64
  | .table cl =>
    if PartMode.hasCluster s.mode ⟨d, cl⟩ = false ∨ f.what = .clean then s
    else if ue then (s.count d 0x67 1).failDevice else s.count d 0x66 1
  | .dcache cl asid va =>
    if PartMode.hasCluster s.mode ⟨d, cl⟩ = false ∨ f.what = .clean then s
    else if ue then
      (s.count d 0x67 1).modCluster ⟨d, cl⟩ (fun k => { k with dcache := k.dcache.filter (fun e => !(e.1 == asid && e.2.1 == va)) })
    else s.count d 0x66 1
  | .firstLevel => if f.what = .clean then s else s.count d 0x70 1
  | .keep i pa =>
    let a := pa / 32 * 32
    match kfind i s.mgmt.images, f.what with
    | some img, .uncorrectable =>
      if !PartMode.paOk img.mode a then s
      else (s.modMgmt (fun m => { m with images := kset i { img with soc := { img.soc with poison := insertNat a img.soc.poison } } m.images })).notice
        true 5 (keepMark i a) fun s => s.postRas 0x10B d 0 0 [(16, 1, 5), (24, 8, a)]
    | some _, .corrected => s.notice false 5 (keepMark i a) fun s => s.ceWindow d 5
    | _, _ => s

/-- ARRAY_SWEEP: one full sweep of a die's slice and scratchpads; every word is then in its selected mode (R427, R429). -/
def execArraySweep (die : Nat) (e : List ArrayFinding) (s : State) : Out State :=
  .next (if s.background && PartMode.hasDie s.mode die then
      let s : State := e.foldl (fun (s : State) f => s.arrayFinding die f) s
      s.modDie die (fun x => { x with sweeps := (x.sweeps + 1) % 2 ^ 32, oldMode := [] })
    else s)

/-- PHY_CALIBRATION costs time only (R432). -/
def execPhyCalibration (ctrl channel : Nat) (s : State) : Out State :=
  let _ := (ctrl, channel)
  .next s

/-- AGEING_MARGIN: 5 mV more while margin falls short; at +50 mV the event. -/
def execAgeingMargin (die : Nat) (short : Bool) (s : State) : Out State :=
  .next (
    let n := (s.die die).supply
    if s.background && PartMode.hasDie s.mode die && short && decide (n < 10) then
      let s := s.modDie die (fun x => { x with supply := n + 1 })
      if n + 1 = 10 then s.postRas 0x10F die 0 0 [(16, 1, s.packageDie die), (18, 1, 10)] else s
    else s)

/-! ### Registers that start something (R427, R429, R435) -/

/-- The arrays whose selection a write of ECCMODE changes: segments of the slice, and scratchpads, as ranges of bytes. -/
def State.eccChange (s : State) (d : Nat) (v : W64) : List (Nat × Nat) :=
  let n := if isGatewayDie d then 2 else 24
  ((List.range 8).filter (fun k => !isGatewayDie d && bitOf v.toNat k != bitOf (s.die d).slicedt k)).map (fun k => (k * 2 ^ 23, (k + 1) * 2 ^ 23)) ++
  ((List.range n).filter (fun c => bitOf v.toNat (8 + c) != (s.cluster ⟨d, c⟩).spadDt)).map (fun c =>
    (spadAddr ⟨d, c⟩ 0, spadAddr ⟨d, c⟩ (spadBytes d)))

/-- A write of ECCMODE: on a gateway die SPADDT has two bits and SLICEDT none. The words of an array whose selection changes keep the mode
that they have (R427). -/
def State.eccWrite (s : State) (d : Nat) (v : W64) : State :=
  let n := if isGatewayDie d then 2 else 24
  let old := (s.eccChange d v).foldl (fun l r => flipRanges r.1 r.2 l) (s.die d).oldMode
  let s : State := (List.range n).foldl (fun (s : State) c => s.modCluster ⟨d, c⟩ (fun k => { k with spadDt := bitOf v.toNat (8 + c) })) s
  s.modDie d (fun x => { x with slicedt := if isGatewayDie d then 0 else v.toNat % 256, oldMode := old })

def execEccmode (die : Nat) (v : W64) (s : State) : Out State :=
  .next (if PartMode.hasDie s.mode die then s.eccWrite die v else s)

/-- A write of QUARCTL: the fields, and with START the test of a core that exists. -/
def State.quarWrite (s : State) (d : Nat) (v : W64) : State :=
  let cl := fieldOf v.toNat 8 5
  let co := fieldOf v.toNat 0 3
  s.modDie d (fun x => { x with
    testCl := cl, testCore := co,
    test := if bitOf v.toNat 15 ∧ x.test.isNone ∧ PartMode.hasCore s.mode ⟨d, cl, co⟩ = true then some (cl, co) else x.test })

def execCoreTest (die : Nat) (v : W64) (s : State) : Out State :=
  .next (if PartMode.hasDie s.mode die then s.quarWrite die v else s)

/-- CORE_TEST_COMPLETE: the core has no resident task; it leaves QUARMAP, or stays. -/
def execCoreTestComplete (die : Nat) (pass : Bool) (s : State) : Out State :=
  .next (match (s.die die).test with
    | none => s
    | some (cl, co) =>
      let c : CoreId := ⟨die, cl, co⟩
      if s.allTgs.any (fun g => g.loc.core == c) then s
      else
        let s := (s.modCore c (fun k => { k with quarantined := !pass })).modDie die (fun x => { x with test := none, testFail := !pass })
        s.postRas 0x10E die 0 0 [(16, 1, cl), (17, 1, co), (18, 1, b2n (!pass) 0)])

/-! ### Pipeline errors (R332, R333) -/

/-- The fields of a PIPELINE event: the core, the checker, the count and the PC. -/
def pipeFields (c : CoreId) (checker : Byte) (n : Nat) (pc : W64) : List (Nat × Nat × Nat) :=
  [(16, 1, c.cl), (17, 1, c.core), (18, 1, checker.toNat), (19, 1, n), (24, 8, pc.toNat)]

/-- A checker fails on a thread group's instruction before it writes: a retry, then the kill and the quarantine (R332, R333). -/
def State.instrError (s : State) (t : TgRef) (checker : Byte) : State :=
  match s.tgAt t with
  | none => s
  | some g =>
    if (g.status != .ready && g.status != .stalled) || g.phase != .start then s
    else if g.pipe then
      ((s.killTg t kPIPELINE g.pc).modCore t.core (fun c => { c with quarantined := true })).postRas 0x11 t.core.die t.core.cl g.asid
        (pipeFields t.core checker 2 g.pc)
    else
      ((s.modTg t (fun g => { g with pipe := true, cur := none })).count t.core.die 0x71 1).post 0x11 t.core.die t.core.cl g.asid
        (pipeFields t.core checker 1 g.pc)

/-- The end of an operation on which a checker has failed twice: its task is killed, a footprint's settles, and a packet completes with
ABORTED (R434, log 82). -/
def State.opLost (s : State) (o : EngOp) : State :=
  match o.kind, o.queue with
  | .footprint _, _ => s.endQueued o.task ⟨.faulted, 0, false, kPIPELINE, o.pc⟩
  | _, some _ => if o.ended.isSome then s else s.finishCopy o.id 3
  | _, none => s.opKill o kPIPELINE o.pc.toNat none

/-- A checker fails on an engine operation: it starts again, then its task is killed and the core at fault quarantined (R434); of one that no
thread group issued that is core 0 of the engine's cluster, which its event names (log 82). -/
def State.opError (s : State) (n : Nat) (checker : Byte) : State :=
  match s.ops.find? (fun o => o.id == n) with
  | none => s
  | some o =>
    if o.failed then
      ((s.opLost o).modCore o.core (fun c => { c with quarantined := true })).postRas 0x11 o.core.die o.core.cl
        o.asid (pipeFields o.core checker 2 o.pc)
    else
      let s := { s with ops := updFirst (fun o => o.id == n) (fun o => { o with failed := true, words := ⟨[], []⟩ }) s.ops }.count o.core.die 0x71 1
      s.post 0x11 o.core.die o.core.cl o.asid (pipeFields o.core checker 1 o.pc)

/-- PIPELINE_ERROR: on an instruction of a thread group, or on an operation of an engine. -/
def execPipelineError (t : TgRef) (checker : Byte) (op : Option Nat) (s : State) : Out State :=
  .next (match op with
    | some n => s.opError n checker
    | none => s.instrError t checker)

/-! ### Links (R436 to R439) -/

/-- The width code of a link: 0 full to 3 eighth, 4 down. -/
def State.width (s : State) (k : LinkRef) : Nat := kget 0 s.links k

/-- The package dies that a link joins (R9). -/
def linkDies (k : LinkRef) : List Nat :=
  match k.cls with
  | 0 =>
    if k.idx < 3 then [k.idx, k.idx + 1]
    else if k.idx < 6 then [k.idx + 1, k.idx + 2]
    else if k.idx < 10 then [k.idx - 6, k.idx - 2]
    else [8 + (k.idx - 10) / 2, k.idx - 10]
  | 1 => [8 + 2 * k.idx]
  | _ => [8 + k.idx / 4]

def linkExists (k : LinkRef) : Bool :=
  (k.cls == 0 && decide (k.idx < 18)) || (k.cls == 1 && decide (k.idx < 2)) || (k.cls == 2 && decide (k.idx < 16))

/-- Dies of the device, by package number. -/
def State.ownDies (s : State) : List Nat := (List.range 12).filter (fun d => PartMode.hasDie s.mode d)

/-- The device's die with a package number. -/
def State.dieOf (s : State) (p : Nat) : Option Nat := s.ownDies.find? (fun d => s.packageDie d == p)

/-- The link is the device's: it joins dies that are all its own, or is a port or lanes of its own (R9). In mode DIE the device beside a
gateway die with number 2g + j has ports 2j and 2j + 1 of that die (R17, log 115). -/
def State.ownsLink (s : State) (k : LinkRef) : Bool :=
  linkExists k && (linkDies k).all (fun p => (s.dieOf p).isSome) &&
  !(s.mode == .die && k.cls == 2 && k.idx % 4 / 2 != s.part % 2)

/-- The boundary between two compute dies of the package that share a grid edge. -/
def edge (a b : Nat) : Nat :=
  let lo := min a b
  if a / 4 = b / 4 then (if lo / 4 = 0 then lo else lo - 1) else 6 + lo % 4

/-- The dies of a run along a row, from one column to another. -/
def rowRun (row c d : Nat) : List Nat :=
  (List.range (max c d - min c d + 1)).map (fun k => 4 * row + (if c ≤ d then c + k else c - k))

/-- Every boundary of a path is up. -/
def State.pathUp (s : State) : List Nat → Bool
  | a :: b :: r => s.width ⟨0, edge a b⟩ != 4 && s.pathUp (b :: r)
  | _ => true

/-- Two compute dies can reach each other row first, column first, or through the other row (R438). -/
def State.routable (s : State) (a b : Nat) : Bool :=
  let (ra, ca, rb, cb) := (a / 4, a % 4, b / 4, b % 4)
  if ra = rb then s.pathUp (rowRun ra ca cb) || s.pathUp ([a] ++ rowRun (1 - ra) ca cb ++ [b])
  else s.pathUp (rowRun ra ca cb ++ [b]) || s.pathUp ([a] ++ rowRun rb ca cb)

/-- The links leave a pair of dies unroutable, or both Gorum halves are down (R438, R439). -/
def State.linksFail (s : State) : Bool :=
  let own := s.ownDies.map s.packageDie
  let comp := own.filter (· < 8)
  comp.any (fun a => comp.any (fun b => decide (a < b) && !s.routable a b)) ||
  (own.filter (8 ≤ ·)).any (fun g => s.width ⟨0, 10 + 2 * (g - 8)⟩ == 4 && s.width ⟨0, 11 + 2 * (g - 8)⟩ == 4) ||
  (s.width ⟨1, 0⟩ == 4 && s.width ⟨1, 1⟩ == 4)

def execDeviceFailure (s : State) : Out State := .next s.failDevice

/-- LANE_FAILURE: the link halves its width, or goes down. -/
def execLaneFailure (k : LinkRef) (mask : W64) (s : State) : Out State :=
  .next (
    let w := s.width k
    let own := (linkDies k).filterMap s.dieOf
    match own with
    | [] => s
    | d :: _ =>
      if !s.ownsLink k || decide (4 ≤ w) then s
      else
        let s : State := { s with links := kset k (w + 1) s.links }
        let fs := [(16, 1, k.cls), (17, 1, k.idx), (18, 1, w), (19, 1, w + 1), (24, 8, mask.toNat)]
        if w + 1 = 4 then
          let s := s.postRas 0x110 d 0 0 fs
          if s.linksFail then s.failDevice else s
        else (own.foldl (fun (s : State) x => s.count x 0x73 1) s).postRas 0x109 d 0 0 fs)

/-- FLIT_REPLAY (R425, R430). -/
def execFlitReplay (die : Nat) (s : State) : Out State := .next (if PartMode.hasDie s.mode die then s.count die 0x72 1 else s)

/-- POWER_LIMIT: the clock falls in steps of 25 MHz (R15). Its event names die 8 and cluster 0 (log 135). -/
def execPowerLimit (mhz : Nat) (s : State) : Out State :=
  .next (if 0 < mhz ∧ mhz < s.clock ∧ (s.clock - mhz) % 25 = 0 then { s with clock := mhz }.post 0x108 8 0 0 [(16, 2, mhz)] else s)

/-! ### Telemetry (R442) -/

/-- Where the ring of 2^20 records lies in the keep tier: its last 4 GiB (log 28). -/
def telemBase : Nat := keepExt (2 ^ 41 - 2 ^ 32)
def telemAt (seq : Nat) : Nat := telemBase + 4096 * (seq % 2 ^ 20)

/-- The links of a package die, in the order of the record. -/
def dieLinks (p : Nat) : List LinkRef :=
  ((List.range 18).map (fun i => (⟨0, i⟩ : LinkRef)) ++ (List.range 16).map (fun i => (⟨2, i⟩ : LinkRef)) ++
    (List.range 2).map (fun i => (⟨1, i⟩ : LinkRef))).filter (fun k => (linkDies k).contains p)

/-- Correctable and uncorrectable errors of a die since reset. -/
def State.errors (s : State) (d : Nat) : Nat × Nat :=
  ([0, 2, 4, 6, 8, 10].foldl (fun n k => n + kget 0 (s.die d).counters (0x60 + k)) 0,
   [1, 3, 5, 7, 9, 11].foldl (fun n k => n + kget 0 (s.die d).counters (0x60 + k)) 0)

def State.quarCount (s : State) (d : Nat) : Nat := (s.allCores.filter (fun c => c.die == d && (s.core c).quarantined)).length

/-- The entry of a package die; that of another device's die is free. -/
def State.telemDie (s : State) (p : Nat) (t : TelemetrySample) : List Byte :=
  match s.dieOf p with
  | none => (List.range 256).map (fun k => BitVec.ofNat 8 (Config.pick (s.free + p) k))
  | some d =>
    let x := s.die d
    let ws := (dieLinks p).map s.width
    layout 256 ([(0, 2, t.temp.toNat), (4, 4, t.powerMw.toNat), (8, 2, s.clock), (10, 1, x.supply), (11, 1, s.quarCount d),
      (12, 4, (s.errors d).1 - x.telCe), (16, 4, (s.errors d).2 - x.telUe), (20, 4, kget 0 x.counters 0x72)] ++
      (List.range 8).map (fun k => (24 + k, 1, ws.getD k 0xFF)))

/-- TELEMETRY: one record. -/
def execTelemetry (t : List TelemetrySample) (s : State) : Out State :=
  .next (if !s.background then s
    else
      let seq := s.mgmt.telemSeq
      let bs := layout 256 [(0, 8, seq), (8, 8, s.ptp.toNat)] ++ (List.range 12).flatMap (fun p => s.telemDie p (t.getD p ⟨0, 0, 0⟩)) ++
        List.replicate 768 0
      let s : State := s.ownDies.foldl (fun (s : State) d =>
        s.modDie d (fun x => { x with telCe := (s.errors d).1, telUe := (s.errors d).2 })) s
      let s : State := { s with free := s.free + 12 }
      (s.onSoc (·.put (telemAt seq) bs false)).modMgmt (fun m => { m with telemSeq := seq + 1 }))

end Sys2Proof.Machine
end

