-- ==== Sys2Proof/Machine/Slice.lean ====
section
/-! DEFINITION. The slice timer (R56, R446 to R449). -/

namespace Sys2Proof.Machine

open Sys2Proof

/-- A write of SLICETIME arms the switch. -/
def State.sliceArm (s : State) (v : W64) : State :=
  if s.sup.armed then s else s.modSup (fun r => { r with sliceTime := v, armed := true, switching := false, claimed := [] })

def execSlicetime (v : W64) (s : State) : Out State := .next (s.sliceArm v)

/-- Words of the supervisor's tables; one that cannot be read is 0 (log 13). -/
def State.supWord (s : State) (va : Nat) : Nat :=
  match s.hwAddr supAsid true .load va 8 with
  | .at_ a => s.word a 8
  | _ => 0

/-- The entries of a save or restore table: area and handle (R447). -/
def State.tableEntry (s : State) (tab e : Nat) : Nat × Nat := (s.supWord (tab + 16 + 16 * e), s.supWord (tab + 24 + 16 * e))

/-- The pages of a table: those of its COUNT entries, and of its header (R447). -/
def State.tablePages (s : State) (tab : Nat) : List Nat :=
  (List.range ((tab % 2 ^ 16 + 16 + 16 * s.supWord tab + 65535) / 2 ^ 16)).map (fun k => (tab / 2 ^ 16 + k) * 2 ^ 16)

/-- A table of the supervisor cannot be worked on yet: a page of it is under darning, or hardware writes wait (R398). -/
def State.supHeld (s : State) (tab : Nat) : Bool :=
  s.hwq != [] || (s.tablePages tab).any (fun va => s.hwAddr supAsid true .load va 8 == .stall)

/-- A misplaced frame that a page of the table leads to posts its event (R92). -/
def State.tableEvents (s : State) (tab : Nat) : State :=
  (s.tablePages tab).foldl (fun (s : State) va => match s.hwAddr supAsid true .load va 8 with
    | .misplaced pa => s.misplaced supAsid ⟨0, 0, 0⟩ va pa
    | _ => s) s

/-- The lowest free entry of the save table, of those that can be read. -/
def State.freeSave (s : State) : Option Nat :=
  let readable := fun (va : Nat) => match s.hwAddr supAsid true .load va 8 with
    | .at_ _ => true
    | _ => false
  lowest (fun e => readable (s.sup.saveTab + 24 + 16 * e) && (s.tableEntry s.sup.saveTab e).2 == 0) (s.supWord s.sup.saveTab) 0

/-- A request is raised for the slice timer: one that CSAVE raised before goes on, and saves into the timer's area (log 145). -/
def State.sliceRequest (s : State) (t : Task) (area : W64) (e : Nat) : State :=
  match t.preempt with
  | none => s.requestSave t area (.slice e)
  | some p => s.modTask t.handle (fun x => { x with preempt := some { p with area := area, by_ := .slice e } })

/-- One task of the outgoing gang claims an entry, or runs on. -/
def State.claimSave (s : State) (t : Task) : State :=
  match s.freeSave with
  | none => (s.modSup (fun r => { r with sliceShort := true })).post 0x111 t.queue.die t.queue.cl t.asid [(24, 8, t.handle.toNat)]
  | some e =>
    let area := BitVec.ofNat 64 (s.tableEntry s.sup.saveTab e).1
    let s := s.supWrite (s.sup.saveTab + 24 + 16 * e) (bytesOf 8 t.handle.toNat)
    (s.sliceRequest t area e).modSup (fun r => { r with claimed := r.claimed ++ [(e, t.handle)] })

/-- The tasks of the outgoing gang that a switch takes: those that run, but for one whose future has settled, which is not saved
(R405, R448, R449). -/
def State.gang (s : State) : List Task :=
  s.tasks.filter (fun t => t.asid == s.sup.outAsid && t.st == .running && !t.dying && !(s.fut t.handle).any (·.st.terminal))

/-- SLICE_SWITCH. -/
def execSliceSwitch (s : State) : Out State :=
  .next (
    let r := s.sup
    if r.armed && !r.switching && decide (r.sliceTime.toNat ≤ s.ptp.toNat) && !s.supHeld r.saveTab then
      let s := (s.wakeUp).tableEvents r.saveTab
      let gang := s.gang
      let s := s.modSup (fun r => { r with switching := true, sliceShort := false, claimed := [] })
      gang.foldl (fun (s : State) t => s.claimSave t) s
    else s)

/-- A save that was claimed is no longer pending. -/
def State.savesDone (s : State) : Bool :=
  !s.tasks.any (fun t => match t.preempt with
    | some p => (match p.by_ with | .slice _ => true | _ => false)
    | none => false)

/-- The head of an area that the restore table names for a saved task, as CREST reads it (R321, R340): its bytes with their poison, or why
they cannot be had. Uncached host memory is read word by word (R366). -/
def State.headRead (s : State) (h : W64) (area : Nat) : State × Except EFail PBytes :=
  match s.hwAddr supAsid true .load area 16 with
  | .at_ a => (s, .ok ((List.range 16).map (fun k => (memGet s.mem (a + k), isPoisoned s.poison (a + k) 1))))
  | .slow a =>
    (match s.hwGather (.task h) area 16 a with
     | (s, some bs) => (s, .ok bs)
     | (s, none) => (s, .error (.slow area)))
  | .wait => (s, .error (if s.deadPage (.task h) supAsid area then .fatal area none else .replay area))
  | .stall => (s, .error .stall)
  | .bad => (s, .error (.fatal area none))
  | .misplaced pa => (s, .error (.fatal area (some pa)))

/-- One entry of the restore table: a saved task is queued as CREST queues it, or is killed where its area cannot be used, then the entry
is cleared. -/
def State.restoreEntry (s : State) (e : Nat) : State :=
  let (area, h) := s.tableEntry s.sup.restTab e
  if h = 0 then s
  else
    let hw := BitVec.ofNat 64 h
    let va := BitVec.ofNat 64 area
    let s : State := match s.task hw with
      | some t =>
        if t.st = TaskSt.saved then s.attempt (.task hw) fun s => match s.headRead hw area with
          | (s, .ok bs) =>
            if bs.any (·.2) then s.kill hw kPOISON va
            else if headOk (bs.map (·.1)) hw then s.modTask hw (fun t => { t with st := .restoring, area := some (va, supAsid) })
            else s.kill hw kRESOURCE va
          | (s, .error f) => (s.areaFail supAsid t.queue va f).1.kill hw kADDRESS va
        else s
      | none => s
    s.supWrite (s.sup.restTab + 24 + 16 * e) (bytesOf 8 0)

/-- The first saved task of the restore table whose area's head is not to be had yet, and what it waits for (R39, R366, R398). -/
def State.areaHeld (s : State) : Option (W64 × Nat × EFail) :=
  ((List.range (s.supWord s.sup.restTab)).map (s.tableEntry s.sup.restTab)).findSome? (fun (x : Nat × Nat) =>
    let h := BitVec.ofNat 64 x.2
    if x.2 = 0 ∨ ((s.task h).any (fun t => t.st == .saved)) = false then none
    else match (s.headRead h x.1).2 with
      | .error (.fatal _ _) => none
      | .error f => some (h, x.1, f)
      | .ok _ => none)

/-- SLICE_RESTORE: a claimed entry whose task settled before its save is cleared; the restore table's tasks come back; ARMED
clears. -/
def execSliceRestore (s : State) : Out State :=
  .next (
    if s.sup.armed && s.sup.switching && s.savesDone && !s.supHeld s.sup.saveTab && !s.supHeld s.sup.restTab then
      match s.areaHeld with
      | some (h, va, .replay _) => s.attempt (.task h) (fun s => s.engWait (.task h) supAsid va ⟨0, 0⟩)
      | some (h, va, .slow _) => (s.headRead h va).1
      | some _ => s
      | none =>
      let gone := s.sup.claimed.filter (fun c => !(match s.task c.2 with | some t => t.st == TaskSt.saved | none => false))
      let s : State := gone.foldl (fun (s : State) c => s.supWrite (s.sup.saveTab + 24 + 16 * c.1) (bytesOf 8 0)) s
      let s := s.tableEvents s.sup.restTab
      let s : State := (List.range (s.supWord s.sup.restTab)).foldl (fun (s : State) e => s.restoreEntry e) s
      s.modSup (fun r => { r with armed := false, switching := false, claimed := [] })
    else s)

end Sys2Proof.Machine
end

