-- ==== Sys2Proof/Machine/RegW.lean ====
section
/-! DEFINITION. Writes of the registers of the KIND 3 and KIND 4 windows (R22 to R24): each goes to the operation that the register's
own rule gives. Reserved bits, read-only registers and offsets that no rule names ignore the write (log 14). -/

namespace Sys2Proof.Machine

open Sys2Proof

/-- EVENTS_LOST: dropped events are reported once there is space (R379). -/
def State.reportLost (s : State) : State :=
  if s.evDropped = 0 ∨ s.evUsed.contains (s.evNext % 2 ^ s.sup.evLogn) = true then s
  else
    let n := s.evDropped
    { s with evDropped := 0 }.post 0x10A 0 0 0 [(16, 8, n)]

/-- The registers of slot n (R373). -/
def State.writeSlot (s : State) (n off : Nat) (v : W64) : State :=
  match off with
  | 0x00 => s.attempt (.queue (.slot n)) (fun s => s.slotCtl n v)
  | 0x08 => s.modSlot n (fun x => { x with qcbAddr := v })
  | _ => s

/-- A mailbox register (R412): a command starts unless one is in progress. -/
def MB.write (b : MB) (off : Nat) (v : W64) : MB :=
  match off with
  | 0x00 => if b.busy then b else { b with busy := true, cmd := v.toNat % 2 ^ 16, finished := none }
  | 0x08 => { b with args := b.args.set 0 v }
  | 0x10 => { b with args := b.args.set 1 v }
  | 0x18 => { b with args := b.args.set 2 v }
  | 0x20 => { b with args := b.args.set 3 v }
  | _ => b

/-- Bits [lo + n - 1 : lo] in place. -/
def keepBits (v : W64) (lo n : Nat) : Nat := fieldOf v.toNat lo n * 2 ^ lo

/-- The registers of die 0, cluster 0, core 0 alone (R371, R379, R380, R383, R395, R401, R446). -/
def State.writeSup (s : State) (off : Nat) (v : W64) : State :=
  let n := v.toNat
  if 0x8000 ≤ off then s.modSup (fun r => { r with shadow := kset ((off - 0x8000) / 8) v r.shadow })
  else if 0x400 ≤ off ∧ off < 0x480 then
    s.modSup (fun r => { r with pend := kset ((off - 0x400) / 8) (kget 0 r.pend ((off - 0x400) / 8) &&& ~~~v) r.pend })
  else if 0x980 ≤ off ∧ off < 0xA00 then
    let x : W64 := BitVec.ofNat 64 (keepBits v 63 1 + keepBits v 57 6 + keepBits v 16 23)
    s.modSup (fun r => { r with peerXp := kset ((off - 0x980) / 8) x r.peerXp })
  else match off with
  | 0x300 => (s.modSup (fun r => { r with evBase := keepBits v 12 45, evHostIrq := bitOf n 11, evLogn := n % 32 })).reportLost
  | 0x480 => s.qtear v
  | 0x600 => { s.modSup (fun r => { r with ctxbase := keepBits v 21 39 }) with ctxOld := [] }
  | 0x608 => s.modSup (fun r => { r with tinvaddr := keepBits v 16 41 })
  | 0x610 => s.tinvWrite v
  | 0x618 => s.modSup (fun r => { r with fltBase := keepBits v 12 45, fltLogn := n % 32 })
  | 0x620 => s.fltresp v
  | 0x628 => s.rtWrite v
  | 0x630 => s.modSup (fun r => { r with darnUnmapped := bitOf n 63, darnVa := keepBits v 16 41, darnAsid := v.setWidth 16 })
  | 0x638 => s.modSup (fun r => { r with darnSrc := keepBits v 16 44 })
  | 0x640 => s.modSup (fun r => { r with darnDst := keepBits v 16 44 })
  | 0x648 => s.darnWrite v
  | 0x800 => s.sliceArm v
  | 0x808 => s.modSup (fun r => { r with inAsid := BitVec.ofNat 16 (fieldOf n 32 16), outAsid := v.setWidth 16 })
  | 0x810 => s.modSup (fun r => { r with saveTab := keepBits v 4 53 })
  | 0x818 => s.modSup (fun r => { r with restTab := keepBits v 4 53 })
  | 0x900 => s.modSup (fun r => { r with peerBase := keepBits v 13 47, peerEn := bitOf n 0 })
  | _ => s

/-- The registers of cluster 0, core 0 of each die (R95, R429). -/
def State.writeDie (s : State) (d off : Nat) (v : W64) : State :=
  let n := v.toNat
  match off with
  | 0x100 =>
    if isGatewayDie d then s
    else s.modDie d (fun x => { x with lowerth := fieldOf n 32 16, raiseth := fieldOf n 16 16, autoen := bitOf n 0 })
  | 0x700 => s.modDie d (fun x => { x with ceth := fieldOf n 32 16, frameth := fieldOf n 24 8 })
  | 0x708 => s.eccWrite d v
  | 0x718 => s.quarWrite d v
  | _ => s

/-- A unit register (KIND 4): INBOXOVF of a core, SCHEDCFG of a cluster, then the others (R37, R313). -/
def State.writeUnit (s : State) (w : Win) (v : W64) : State :=
  let first := w.cl == 0 && w.core == 0
  if w.off = 0x200 then s.modCore w.coreId (fun c => { c with inboxovf := BitVec.ofNat 64 (keepBits v 12 45 + keepBits v 0 1) })
  else if w.off = 0 then
    if w.core = 0 then s.modCluster w.cluster (fun c => { c with xsteal := fieldOf v.toNat 16 16, steal := bitOf v.toNat 0 }) else s
  else if !first then s
  else
    let s := s.writeDie w.die w.off v
    if w.die = 0 then s.writeSup w.off v
    else if w.die = 8 ∧ 0x1000 ≤ w.off then
      (if w.off = 0x1000 ∧ s.mgmt.mb.busy = false then s.wakeUp else s).modMgmt (fun m => { m with mb := m.mb.write (w.off - 0x1000) v })
    else s

/-- One write of a register, at its window address. -/
def State.writeReg (s : State) (va : Nat) (v : W64) : State :=
  let w := winOf va
  if w.kind = 3 then s.writeSlot (w.off / 256) (w.off % 256) v else s.writeUnit w v

/-- FLTRESP and MBCTL are written only once the writer's earlier stores are DEVICE-visible (R393, R412). -/
def releasesFirst (va : Nat) : Bool :=
  let w := winOf va
  w.kind == 4 && w.cl == 0 && w.core == 0 && ((w.die == 0 && w.off == 0x620) || (w.die == 8 && w.off == 0x1000))

/-- REGISTER_WRITE. -/
def execRegisterWrite (addr v : W64) (s : State) : Out State :=
  let a := addr.toNat
  .next (if isWindow a && decide (2 < (winOf a).kind) && winCheck s.mode true true a 8 == .ok then s.writeReg a v else s)

end Sys2Proof.Machine
end

