-- ==== Sys2Proof/Machine/MemEv.lean ====
section
/-! DEFINITION. The steps of the memory system: store buffers and side logs (R98, R114, R115), writes and atomics at their homes
(R99, R102, R105), collapses and acknowledgements (R102), replicas (R93, R94) and the repeated reads of WAITV (R243). -/

namespace Sys2Proof.Machine

open Sys2Proof

/-! ### Performing the head of a core's FIFO -/

/-- What comes of a line's entries when they reach the ordering point. -/
inductive Perf where
  | done (s : State)
  | wait
  | replay
  | fatal (t : Tr)
  /-- A poisoned store that has no place for poison: the lowest such address of its instruction. -/
  | tainted (va : W64)

/-- The task of a store is killed, or a thread group without one ends: its own, while it is there (R79, R309). -/
def State.killEnt (s : State) (e : StEnt) (code : Half) (va : W64) : State :=
  if (s.task e.task).isSome then s.kill e.task code va
  else if e.task = 0 then s.killTg e.tg code va else s

/-- A store that cannot be performed (R79, R92). -/
def State.entFatal (s : State) (e : StEnt) : Tr → State
  | .misplaced pa => (s.misplaced e.asid e.tg.core e.va.toNat pa).killEnt e kADDRESS e.va
  | .poison => s.killEnt e kPOISON e.va
  | _ => s.killEnt e kADDRESS e.va

/-- One entry applied to its storage. -/
def State.applyEnt (s : State) (at_ : Nat) (e : StEnt) : State := (s.atomAt at_ e).1

/-- The halves of bytes that a store at an address writes, each with its poison. -/
def StEnt.halves (at_ : Nat) (e : StEnt) : List (Nat × Bool) :=
  match e.op with
  | .store => (List.range (2 * e.data.length)).map (fun k => (2 * at_ + k, e.poison))
  | .nibLo => [(2 * at_, e.poison)]
  | .nibHi => [(2 * at_ + 1, e.poison)]
  | _ => []

/-- Entries that are one access applied to their storage: they clear the poison of what they write whole and clean together (R230, R334). -/
def State.applyAll (s : State) (xs : List (Nat × StEnt)) : State :=
  let t := xs.foldl (fun (s : State) x => s.applyEnt x.1 x.2) s
  if xs.length ≤ 1 then t else { t with poison := marksAfter s.poison (xs.flatMap (fun x => x.2.halves x.1)) }

/-- Where an entry of a line lies, given where the line's head entry lies. -/
def sameLine (e x : StEnt) (at_ : Nat) : Nat := at_ + x.va.toNat - e.va.toNat

/-- A request enters the network at the entry's die. -/
def State.sendEnt (s : State) (d : Nat) (e : StEnt) (host : Bool) (at_ : Nat) (peer : Option Nat) (unit : Nat) : State :=
  { s.bump with wrs := s.wrs ++ [⟨s.seq, d, e, host, at_, peer, unit, s.sup.rtGen, false, [], false, none, false, false⟩] }

/-- A register store, or an atomic on a register: one read-modify-write (R24, R105). The old bytes. -/
def State.regEnt (s : State) (e : StEnt) : State × List Byte :=
  let old := bytesOf 8 (s.readReg e.va.toNat)
  let new := match e.op with
    | .atom m => atomNew m old e.data
    | _ => e.data
  (s.writeReg e.va.toNat (BitVec.ofNat 64 (natOf new)), old)

/-- The entry holds poison that may be kept in its thread group's private local store alone: step 7 of R229, for an entry that went
through the side log (log 109). -/
def State.tainted (s : State) (e : StEnt) : Bool :=
  e.poison && !(s.tgAt e.tg).any (fun g => g.isPrivate e.va.toNat e.size)

/-- The lowest address of its instruction at which an access has poison that may not be kept (R229); none where it has none. -/
def State.taintAt (s : State) (c : CoreId) (g : List StEnt) : Option W64 :=
  match g with
  | [] => none
  | e :: _ =>
    if g.any s.tainted then
      some (BitVec.ofNat 64 (((s.core c).fifo.filter (fun x => x.seq == e.seq && x.tg == e.tg && s.tainted x)).foldl
        (fun (m : Nat) x => min m x.va.toNat) (((g.find? s.tainted).map (·.va.toNat)).getD 0)))
    else none

/-- The entries of one access that leave a core together. A line that the die holds write-pending needs no translation (R89). -/
def State.performLine (s : State) (c : CoreId) (g : List StEnt) : Perf :=
  match g with
  | [] => .done s
  | e :: _ =>
    let a := e.va.toNat
    let apply := fun (at_ : Nat) (s : State) => s.applyAll (g.map (fun x => (sameLine e x at_, x)))
    let clean := fun (p : Perf) => match s.taintAt c g with
      | some va => Perf.tainted va
      | none => p
    let send := fun (host : Bool) (at_ : Nat) (peer : Option Nat) (unit : Nat) (s : State) =>
      g.foldl (fun (s : State) x => s.sendEnt c.die x host (sameLine e x at_) peer unit) s
    if isWindow a then
      let w := winOf a
      clean <| if 2 < w.kind then
        if releasesFirst a && s.wrs.any (fun x => x.ent.tg == e.tg && !x.ret && !x.host) then .wait
        else .done (g.foldl (fun (s : State) e => (s.regEnt e).1) s)
      else if w.die = c.die then .done (apply a s)
      else .done (send false a none 128 s)
    else match s.storeTr c.die e.super e.asid a with
      | .replay => .replay
      | .stall => .wait
      | .phys pa =>
        let home := homeDie s.mode s.sup.active a
        clean <| if s.swapWait a then .wait
        else if isNocache s.sup.active a then .done (apply pa s)
        else if home = c.die then
          if s.holders (some c.die) home e.asid a = [] then .done (apply pa (s.countWrite home e.asid a))
          else
            let id := s.seq
            let (s, acks) := (apply pa (s.bump.countWrite home e.asid a)).sendCollapses (some id) (some c.die) home e.asid a true
            .done { s with wrs := s.wrs ++ [⟨id, c.die, e, false, pa, none, 128, s.sup.rtGen, true, acks, false, none, false, false⟩] }
        else .done (send false pa none 128 s)
      | .host h un => clean (.done (send true (hostExt h) none (if un then 8 else 128) s))
      | .peer dev pa => if s.lost.contains dev then .fatal .fatal else clean (.done (send true pa (some dev) 128 s))
      | t => .fatal t

/-- The entries at the head of a FIFO that are one access. -/
def headGroup : List StEnt → List StEnt
  | [] => []
  | e :: r => e :: r.takeWhile (e.joins ·)

def State.dropHead (s : State) (c : CoreId) (n : Nat) : State := s.modCore c (fun k => { k with fifo := k.fifo.drop n })

/-- Entries of a store buffer that go into a side log behind those that it holds, as many accesses as its 64 records take (R114). -/
def logFill : Nat → List StEnt → List StEnt → List StEnt
  | 0, log, _ => log
  | k + 1, log, buf =>
    let g := headGroup buf
    if g = [] ∨ 64 < logRecords (log ++ g) then log
    else logFill k (log ++ g.map (fun e => { e with inLog := true })) (buf.drop g.length)

/-- The side log takes what it has room for; the rest stays in the store buffer behind it (R114). -/
def Core.fillLog (k : Core) : Core :=
  let log := logFill k.buffer.length k.log k.buffer
  { k with fifo := log ++ k.buffer.drop (log.length - k.log.length) }

/-- The store buffer's head meets a replayable fault: it and the stores behind it form the side log, which is stopped (R114). -/
def State.stopLog (s : State) (c : CoreId) (e : StEnt) : State :=
  match s.addFault e.asid e.va.toNat 2 c.cluster c.core with
  | none => s
  | some s => s.modCore c (fun k => { k.fillLog with stopped := true })

/-- The head access of a core is performed, or its log stops, or its task is killed. -/
def State.performHead (s : State) (c : CoreId) : State :=
  let g := headGroup (s.core c).fifo
  match g, s.performLine c g with
  | [], _ => s
  | _, .done s => s.dropHead c g.length
  | _, .wait => s
  | e :: _, .replay => s.stopLog c e
  | e :: _, .fatal t => (s.dropHead c g.length).entFatal e t
  | e :: _, .tainted va => (s.dropHead c g.length).killEnt e kPOISON va

/-- STORE_BUFFER_DRAIN: the buffer's oldest access is performed, or goes into a side log that is not empty, once it has room. -/
def execStoreBufferDrain (c : CoreId) (s : State) : Out State :=
  .next (match (s.core c).buffer.head? with
    | some _ => if (s.core c).log = [] then s.performHead c else s.modCore c Core.fillLog
    | none => s)

/-- SIDE_LOG_PERFORM: in order, while it is not stopped. -/
def execSideLogPerform (c : CoreId) (s : State) : Out State :=
  .next (match (s.core c).fifo.head? with
    | some e => if e.inLog && !(s.core c).stopped then s.performHead c else s
    | none => s)

/-- REPLAY's effect on a core (R115, R324): a head whose page has been declared unmappable goes with its task; then the log resumes,
unless its head's page is still unmapped. False: the fault cannot be recorded yet. -/
def State.replayLog (s : State) (c : CoreId) : State × Bool :=
  let k := s.core c
  if !k.stopped then (s, true)
  else
    let s := if k.discard then
        match headGroup k.log with
        | [] => s
        | e :: r =>
          let s := s.modCore c (fun k => { k with fifo := k.fifo.drop (r.length + 1), discard := false })
          s.killEnt e kADDRESS e.va
      else s
    match (s.core c).log.head? with
    | none => ((s.modCore c (fun k => { k with stopped := false, discard := false })).wakeLoads c, true)
    | some e =>
      let unmapped := !isWindow e.va.toNat && translate s.toSoc e.super .store e.asid e.va.toNat == .replay
      if !unmapped then ((s.modCore c (fun k => { k with stopped := false })).wakeLoads c, true)
      else match s.addFault e.asid e.va.toNat 2 c.cluster c.core with
        | none => (s, false)
        | some s => (s.modCore c (fun k => { k with stopped := true }), true)

/-! ### At the home (R102, R105) -/

/-- The region table by which a request is routed: its own generation's (R396). -/
def State.tableOf (s : State) (w : Wr) : KMap Nat W64 := if s.sup.rtBusy ∧ w.gen ≠ s.sup.rtGen then s.sup.prev else s.sup.active

/-- An earlier write of the same die to the same line has not been applied, or a swap holds the request up (R99, R105, R396). -/
def State.heldUp (s : State) (w : Wr) : Bool :=
  s.wrs.any (fun x => x.die == w.die && !x.applied && decide (x.id < w.id) && !(s.wrGroup w).any (·.id == x.id) && lineOf x.at_ == lineOf w.at_ &&
    x.host == w.host && x.peer.isNone) ||
  (w.toLine && w.gen == s.sup.rtGen && s.swapWait w.ent.va.toNat)

/-- A request's entry applied to a register, or to its storage: the old bytes and the poison of each. -/
def State.applyOne (s : State) (r : Wr) : State × List Byte × List Bool :=
  if isWindow r.ent.va.toNat && decide (2 < (winOf r.ent.va.toNat).kind) then let (s, old) := s.regEnt r.ent; (s, old, [])
  else s.atomAt r.at_ r.ent

/-- Writes are applied where they lead, and collapses are sent; the acknowledgement waits for them. -/
def State.applyWr (s : State) (w : Wr) : State :=
  let g := s.wrGroup w
  let ids := g.map (·.id)
  let va := w.ent.va.toNat
  let home := homeDie s.mode (s.tableOf w) va
  let (s, acks) := if w.toLine then (s.countWrite home w.ent.asid va).sendCollapses (some w.id) (if w.ret then none else some w.die) home
      w.ent.asid va true else (s, [])
  let before := s.poison
  let (s, olds) := g.foldl (fun (x : State × List (Nat × List Byte × List Bool)) r =>
    let y := x.1.applyOne r
    (y.1, x.2 ++ [(r.id, y.2)])) (s, [])
  let s : State := if g.length ≤ 1 ∨ 2 < (winOf va).kind ∧ isWindow va = true then s
    else { s with poison := marksAfter before (g.flatMap (fun x => x.ent.halves x.at_)) }
  { s with wrs := s.wrs.map (fun x => if ids.contains x.id then { x with applied := true, acks := acks, old := kfind x.id olds } else x) }

def State.wr (s : State) (id : Nat) : Option Wr := s.wrs.find? (fun w => w.id == id)

/-- A write (atom false) or an atomic (atom true) that has reached its home. -/
def State.arrive (s : State) (id : Nat) (atom : Bool) : State :=
  match s.wr id with
  | none => s
  | some w => if w.applied || w.peer.isSome || w.ent.op.isAtom != atom || s.heldUp w then s else s.applyWr w

def execWriteAtHome (id : Nat) (s : State) : Out State := .next (s.arrive id false)
def execAtomicAtHome (id : Nat) (s : State) : Out State := .next (s.arrive id true)

/-- COLLAPSE: applied, or deferred while the die holds the line write-pending; it wakes the waiters on the line (R243). -/
def execCollapse (id : Nat) (s : State) : Out State :=
  .next (match s.cols.find? (fun c => c.id == id && !c.applied) with
    | none => s
    | some c =>
      if s.wrs.any (fun w => w.die == c.die && !w.ret && w.toLine && some w.id != c.wr && w.ent.asid == c.asid &&
          lineOf w.ent.va.toNat == c.va) then s
      else
        let s : State := { s with replicas := s.replicas.filter (fun r => !(r.die == c.die && r.tags c.asid c.va)),
                                  cols := updFirst (fun x => x.id == id) (fun x => { x with applied := true }) s.cols }
        (s.count c.die 0x43 1).wakeWatches c.line 128)

/-- COLLAPSE_ACK. -/
def execCollapseAck (id : Nat) (s : State) : Out State :=
  .next (match s.cols.find? (fun c => c.id == id && c.applied) with
    | none => s
    | some _ => { s with cols := s.cols.filter (fun c => c.id != id),
                         wrs := s.wrs.map (fun w => { w with acks := w.acks.filter (· != id) }) })

/-- After its acknowledgement a pending line stays as an ordinary replica where R93 allows one, and none of its pages has been invalidated
since (R389); a replica that it was before shows the home's bytes again. -/
def State.keepReplica (s : State) (w : Wr) : State :=
  let va := w.ent.va.toNat
  let home := homeDie s.mode s.sup.active va
  let mine := fun (r : Replica) => r.die == w.die && r.tags w.ent.asid va
  if !w.toLine || isGatewayDie w.die || home == w.die || s.linePending w.die w.ent.asid va then s
  else if w.dropped then { s with replicas := s.replicas.filter (fun r => !mine r) }
  else if s.replicas.any mine then
    { s with replicas := s.replicas.map (fun r => if mine r then s.newReplica w.die w.ent.asid va w.at_ else r) }
  else if s.degree w.ent.asid va ≤ (s.plainReplicas w.ent.asid va).length then s
  else { (s.count w.die 0x41 1) with replicas := s.replicas ++ [s.newReplica w.die w.ent.asid va w.at_] }

/-- WRITE_ACK: the write is DEVICE-visible, and performed where it leads beyond the device. -/
def execWriteAck (id : Nat) (s : State) : Out State :=
  .next (match s.wr id with
    | none => s
    | some w =>
      if !w.applied || w.acks != [] then s
      else if w.ret then { s with wrs := updFirst (fun x => x.id == id) (fun x => { x with done := true }) s.wrs }
      else ({ s with wrs := s.wrs.filter (fun x => x.id != id) } : State).keepReplica w)

/-! ### Replicas (R93, R94) -/

/-- REMOTE_READ: a read by the supervisor's agent of a die, as R93 treats every read. -/
def execRemoteRead (die : Nat) (asid : Half) (va : W64) (s : State) : Out State :=
  .next (if PartMode.hasDie s.mode die && !isWindow va.toNat && decide (va.toNat < 2 ^ 57) then
      s.noteReads (plainAgent die true asid) [va.toNat]
    else s)

/-- REPLICA_EVICT: the home, which keeps no count but the replicas themselves, learns of it at once. -/
def execReplicaEvict (die : Nat) (asid : Half) (va : W64) (s : State) : Out State :=
  .next { s with replicas := s.replicas.filter (fun r => !(r.die == die && r.asid == asid && r.va == lineOf va.toNat)) }

/-- REPLICATION_WINDOW: 65,536 accesses have been counted (R94, R95). -/
def execReplicationWindow (die : Nat) (asid : Half) (va : W64) (s : State) : Out State :=
  .next (
    let r := s.region die asid va.toNat
    if r.reads + r.writes < 65536 then s else s.windowEnd die asid va.toNat)

/-! ### WAITV without a watch (R243, R366, R402) -/

/-- WAITV_REPOLL: 1 µs after the read before, a waiter that holds no watch reads again. -/
def execWaitvRepoll (t : TgRef) (s : State) : Out State :=
  .next (match s.tgAt t with
    | none => s
    | some g =>
      match g.status with
      | .parked k _ =>
        if (k = 3 ∨ (k = 5 ∧ g.phase.claim.isSome)) ∧ s.watches.all (fun w => w.tg != t) ∧ g.parkedAt + 1000 ≤ s.ptp.toNat then
          s.modTg t (fun g => { g with wake := g.wake.or (some .go) })
        else s
      | _ => s)

end Sys2Proof.Machine
end

