-- ==== Sys2Proof/Machine/Msg.lean ====
section
/-! DEFINITION. Messages: SEND, SENDR, RECV, HTWR (R304 to R313), and their delivery and dequeue (R307, R309, R311). -/

namespace Sys2Proof.Machine

open Sys2Proof

/-! ### Destination words (R304) -/

def dwCore (w : W64) : CoreId := ⟨fieldOf w.toNat 38 4, fieldOf w.toNat 33 5, fieldOf w.toNat 30 3⟩
def dwClass (w : W64) : Nat := fieldOf w.toNat 24 6
def dwLen (w : W64) : Nat := fieldOf w.toNat 0 7

/-- The word that names a core of this device. -/
def State.coreWord (s : State) (c : CoreId) (cls len : Nat) : W64 :=
  BitVec.ofNat 64 (s.devid * 2 ^ 42 + c.die * 2 ^ 38 + c.cl * 2 ^ 33 + c.core * 2 ^ 30 + cls * 2 ^ 24 + len)

/-- The word names a core: of this device, or one that another device of the system can have (R306, log 75). -/
def State.dwNames (s : State) (w : W64) : Bool :=
  if hDevice w = s.devid then PartMode.hasCore s.mode (dwCore w)
  else Config.deviceExists (hDevice w) && PartMode.hasCore .whole (dwCore w)

/-- Step 1 of R306. -/
def State.dwBad (s : State) (w : W64) : Bool :=
  fieldOf w.toNat 7 17 != 0 || decide (64 < dwLen w) || dwClass w == 0 || !s.dwNames w

/-- The record of R305. -/
def Msg.record (m : Msg) : List Byte := bytesOf 8 m.sender.toNat ++ bytesOf 8 m.reply.toNat ++ (m.payload ++ List.replicate 64 0).take 64

/-! ### NACKs (R311) -/

/-- A core generates a NACK; one that has nowhere to go is dropped. -/
def State.nack (s : State) (c : CoreId) (reply dest : W64) (reason : Nat) (asid : Half) : State :=
  let s := s.modCore c (fun k => { k with nacks := k.nacks + 1 })
  if dwClass reply = 0 ∨ hDevice reply ≠ s.devid ∨ s.dwNames reply = false then s
  else
    let cls := dwClass reply
    let m : Msg := { id := s.seq, dst := dwCore reply, cls := cls, len := 16, sender := s.coreWord c cls 16, reply := 0,
                     payload := bytesOf 8 dest.toNat ++ bytesOf 8 reason, asid := asid, tg := none, answer := none, arrived := false }
    { s.bump with msgs := s.msgs ++ [m] }

/-! ### SEND and SENDR (R306) -/

/-- LEN bytes of the issuing core's local store; none while an atomic is pending on them. -/
def State.payloadAt (s : State) (off len : Nat) : Option (List Byte) × Bool :=
  let c := s.me.loc.core
  let a := localAddr c off
  let r := s.forward c s.me.asid a (s.marked a len)
  (r.1, r.2.any id)

/-- The release has been made: the message leaves, or its destination device answers. -/
def State.launchMsg (s : State) (w reply : W64) (payload : List Byte) : State :=
  if hDevice w ≠ s.devid then
    if s.lost.contains (hDevice w) then (s.nack s.me.loc.core reply w 2 s.me.asid).advance
    else
      let n := s.freeWord.toNat % 3
      if n = 2 then s.useFree.trap cINBOX w 0 else s.useFree.advance
  else
    let id := s.seq
    let m : Msg := { id := id, dst := dwCore w, cls := dwClass w, len := dwLen w,
                     sender := s.coreWord s.me.loc.core (dwClass w) (dwLen w), reply := reply, payload := payload, asid := s.me.asid,
                     tg := some s.me.loc, answer := none, arrived := false }
    ({ s.bump with msgs := s.msgs ++ [m] }.modMe (fun g => { g with phase := { g.phase with req := some id }, wake := none })).stall

/-- SEND, and SENDR with its reply register. -/
def State.send (s : State) (a b : UReg) (r : Option UReg) : State :=
  let w := s.me.sget a
  match s.me.phase.req, s.me.wake with
  | some _, some (.code n) => if n = 2 then s.trap cINBOX w 0 else s.advance
  | some _, _ => s.stall
  | none, _ =>
    let off := (s.me.sget b).toNat
    if s.me.spoison a || s.me.spoison b || (match r with | some r => s.me.spoison r | none => false) then s.poisonPc
    else if s.dwBad w then s.trap cADDRESS w 0
    else if off % 8 ≠ 0 then s.trap cALIGN (s.me.sget b) 0
    else if 2 ^ 18 < off + dwLen w then s.trap cADDRESS (s.me.sget b) 0
    else match s.payloadAt off (dwLen w) with
      | (none, _) => s.stall
      | (some bs, p) =>
        if p then s.poisonPc
        else s.afterFence (if hDevice w = s.devid then .device else .system) fun s =>
          s.launchMsg w (match r with | some r => s.me.sget r | none => 0) bs

def execSend (g : Guard) (a b : UReg) (s : State) : Out State := .next (s.withK g fun s => s.send a b none)
def execSendr (g : Guard) (d a b : UReg) (s : State) : Out State := .next (s.withK g fun s => s.send a b (some d))

/-! ### RECV (R310) -/

/-- The record goes to the local store as stores of the core, and the message leaves the list. -/
def State.takeMsg (s : State) (d : UReg) (off : Nat) (m : Msg) : State :=
  let c := s.me.loc.core
  let log := (s.core c).log
  if log != [] && ((s.core c).buffer != [] || decide (64 < logRecords log + 2)) then s.stall
  else
    let a := localAddr c off
    let ents := (List.range 10).map (fun k => s.mkEnt (BitVec.ofNat 64 (a + 8 * k)) .store ((m.record.drop (8 * k)).take 8) false false)
    let s := s.bump.modCore c (fun k => { k with
      fifo := k.fifo ++ ents.map (fun e => { e with inLog := log != [] }), recvList := dropFirst (fun x => x.id == m.id) k.recvList })
    (s.setS d (BitVec.ofNat 64 (m.cls + 256 * m.len)) false).advance

def State.recv (s : State) (d a b : UReg) : State :=
  if s.me.spoison a then s.poisonPc
  else
    let off := (s.me.sget a).toNat
    let mask := s.me.sget b
    if off % 16 ≠ 0 then s.trap cALIGN (s.me.sget a) 0
    else if 2 ^ 18 < off + 80 then s.trap cADDRESS (s.me.sget a) 0
    else if mask = 0 then (s.setS d (BitVec.allOnes 64) false).advance
    else if s.me.wake = some .ended then s.advance
    else match (s.core s.me.loc.core).recvList.find? (fun m => mask.getLsbD m.cls) with
      | some m => s.takeMsg d off m
      | none => if s.me.k10 then s.advance else s.park 7 mask

def execRecv (g : Guard) (d a b : UReg) (s : State) : Out State := .next (s.withK g fun s => s.recv d a b)

/-! ### HTWR (R308) -/

/-- A value that HTWR refuses. -/
def handlerBad (cls v : W64) : Bool :=
  cls.toNat / 64 != 0 || cls == 0 || v.toNat / 2 ^ 57 != 0 || (bitOf v.toNat 0 && decide (2 ≤ v.toNat))

def execHtwr (g : Guard) (a b : UReg) (s : State) : Out State :=
  .next (s.withK g fun s =>
    let cls := s.me.sget a
    let v := s.me.sget b
    let c := s.me.loc.core
    if s.me.spoison b then s.poisonPc
    else if handlerBad cls v then s.illegal4 (s.ownWord 25 3 b.val a.val 0 g.val)
    else
      let old := kget ⟨0, 0, false⟩ (s.core c).handlers cls.toNat
      if !s.me.super && old.value != 0 && old.asid != s.me.asid then s.trap cPRIV 0 0
      else (s.modCore c (fun k => { k with handlers := kset cls.toNat ⟨v, s.me.asid, s.me.super⟩ k.handlers })).advance)

/-! ### Delivery (R306, R307, R313) -/

/-- What the destination core does with a message: 0 inbox, 1 overflow area, 2 refused. -/
def State.accept (s : State) (m : Msg) : State × Nat :=
  let k := s.core m.dst
  if k.spill.isEmpty && decide (k.inbox.length + k.recvList.length < 64) then
    (s.modCore m.dst (fun k => { k with inbox := k.inbox ++ [m] }), 0)
  else if bitOf k.inboxovf.toNat 0 && decide (k.spill.length < 51) then
    let base := keepBits k.inboxovf 12 45
    let s := s.supWrite (base + 80 * (k.spills.toNat % 51)) m.record
    (s.modCore m.dst (fun k => { k with spill := k.spill ++ [m], spills := k.spills + 1 }), 1)
  else (s, 2)

/-- MESSAGE_DELIVERY: a SEND's answer sets out; a NACK that is refused is dropped. -/
def execMessageDelivery (id : Nat) (s : State) : Out State :=
  .next (match s.msgs.find? (fun m => m.id == id && !m.arrived) with
    | none => s
    | some m =>
      let (s, n) := s.accept m
      if m.tg.isSome then
        { s with msgs := updFirst (fun x => x.id == id) (fun x => { x with arrived := true, answer := some n }) s.msgs }
      else
        let s : State := { s with msgs := s.msgs.filter (fun x => x.id != id) }
        if n = 2 then s.modCore m.dst (fun k => { k with nacks := k.nacks + 1 }) else s)

/-- MESSAGE_ANSWER reaches the stalled sender. -/
def execMessageAnswer (id : Nat) (s : State) : Out State :=
  .next (match s.msgs.find? (fun m => m.id == id && m.arrived) with
    | none => s
    | some m =>
      let s : State := { s with msgs := s.msgs.filter (fun x => x.id != id) }
      match m.tg, m.answer with
      | some t, some n => s.modTg t (fun g => if g.phase.req = some id then { g with wake := some (.code (BitVec.ofNat 64 n)) } else g)
      | _, _ => s)

/-! ### Dequeue (R307, R309) -/

/-- Where a message goes. -/
inductive Route where
  | handler (h : Handler) (cls : Nat)
  | queued (cls : Nat)
  | none_
deriving DecidableEq, Repr

/-- The entry of a class, for a message of a context. -/
def Core.entryFor (k : Core) (cls : Nat) (asid : Half) : Route :=
  let h := kget ⟨0, 0, false⟩ k.handlers cls
  if h.value = 0 ∨ h.asid ≠ asid then .none_
  else if bitOf h.value.toNat 0 then .queued cls else .handler h cls

/-- The message's own class, then class 63. -/
def Core.route (k : Core) (m : Msg) : Route :=
  match k.entryFor m.cls m.asid with
  | .none_ => k.entryFor 63 m.asid
  | r => r

/-- The handler thread group at the start of an activation (R309). -/
def handlerTg (c : CoreId) (h : Handler) (cls : Nat) (m : Msg) (age : Nat) : TG :=
  let words := (List.range 10).map (fun k => fieldAt m.record (8 * k) 8)
  { TG.zero ⟨c, 16⟩ with
    status := .ready, vregs := 32, uregs := 16, super := h.super, asid := h.asid, ctx := h.asid,
    pc := BitVec.ofNat 64 (fieldOf h.value.toNat 1 56 * 2), x := 0xFFFFFFFF, age := age, hcls := cls,
    s := Vector.ofFn (fun i : Fin 64 => BitVec.ofNat 64 (words.getD i.val 0)),
    v := Vector.ofFn (fun i : Fin 256 => if i.val = 0 then Vector.ofFn (fun l : Fin 32 => BitVec.ofNat 32 l.val) else Vector.replicate 32 0) }

/-- Messages of the overflow area move up into the inbox (R307). -/
def Core.refillInbox : Nat → Core → Core
  | 0, k => k
  | n + 1, k =>
    match k.spill with
    | m :: r => if k.inbox.length + k.recvList.length < 64 then Core.refillInbox n { k with inbox := k.inbox ++ [m], spill := r } else k
    | [] => k

/-- DEQUEUE: the head message starts the handler, is listed for RECV, or is dropped with a NACK of reason 1. -/
def execDequeue (c : CoreId) (s : State) : Out State :=
  .next (
    let s := s.modCore c (Core.refillInbox 64)
    match (s.core c).inbox with
    | [] => s
    | m :: r =>
      let pop := fun (s : State) (f : Core → Core) => s.modCore c (fun k => Core.refillInbox 64 (f { k with inbox := r }))
      match (s.core c).route m with
      | .handler h cls =>
        if (s.tgAt ⟨c, 16⟩).isSome then s
        else (pop s id).bump.addTg (handlerTg c h cls m s.seq)
      | .queued cls => pop s (fun k => { k with recvList := k.recvList ++ [{ m with cls := cls }] })
      | .none_ => (pop s id).nack c m.reply (s.coreWord c m.cls m.len) 1 m.asid)

end Sys2Proof.Machine
end

