-- ==== Sys2Proof/Machine/Mbox.lean ====
section
/-! DEFINITION. The management core's mailbox commands (R411 to R418, R422, R424, R444, R450, R451), images (R407) and measurements
(R409). A command's own event carries it out and leaves its outcome; MAILBOX_COMPLETE publishes that. -/

namespace Sys2Proof.Machine

open Sys2Proof

/-! ### Commands and their outcomes (R412 to R414) -/

def State.mb (s : State) : MbBox → MB
  | .device => s.mgmt.mb
  | .host => s.mgmt.hmb

def State.modMb (s : State) (b : MbBox) (f : MB → MB) : State :=
  match b with
  | .device => s.modMgmt (fun m => { m with mb := f m.mb })
  | .host => s.modMgmt (fun m => { m with hmb := f m.hmb })

def State.arg (s : State) (b : MbBox) (n : Nat) : Nat := ((s.mb b).args.getD n 0).toNat

/-- STATUS codes (R414). -/
def mOK : Nat := 0
def mBADCMD : Nat := 1
def mBADSIG : Nat := 2
def mBADNONCE : Nat := 3
def mREFUSED : Nat := 4
def mABORTED : Nat := 5
def mADDRESS : Nat := 6
def mBADSVN : Nat := 7

/-- The outcome of a command. -/
def State.finish (s : State) (b : MbBox) (status res : Nat) : State :=
  s.modMb b (fun m => { m with finished := some (status, BitVec.ofNat 64 res) })

/-- In recovery only the host mailbox serves, and only ATTEST, READLOG and FWSTAGE (R408). -/
def servedInRecovery (b : MbBox) (cmd : Nat) : Bool := b == .host && (cmd == 1 || cmd == 2 || cmd == 7)

/-- A command that waits to be served. -/
def MB.waits (m : MB) : Bool := m.busy && m.finished.isNone

/-- The management core serves, or begins to serve, a mailbox: one command at a time, the two mailboxes in turn (R412, R413). -/
def State.serves (s : State) (b : MbBox) : Bool :=
  match s.mgmt.serving with
  | some x => x == b
  | none => s.mgmt.lastServed != b || !(s.mb (if b = .host then .device else .host)).waits

/-- A command begins: from now on its time counts, and so do wakes (R422). -/
def State.beginCmd (s : State) (b : MbBox) : State :=
  if s.mgmt.serving.isSome then s
  else (s.modMgmt (fun m => { m with serving := some b, lastServed := b })).modMb b (fun m => { m with since := s.ptp.toNat, woken := false })

/-- A command under way is carried out; one that recovery does not serve is a bad command. -/
def State.onCmd (s : State) (b : MbBox) (cmd : Nat) (f : State → State) : State :=
  let m := s.mb b
  if s.mgmt.off || !m.waits || m.cmd != cmd || !s.serves b then s
  else
    let s := s.beginCmd b
    if s.mgmt.recovery && !servedInRecovery b cmd then s.finish b mBADCMD 0 else f s

/-! ### Buffers -/

/-- Where a buffer lies: device memory (R384), or the host mailbox page (R413); otherwise the STATUS that refuses it. -/
def State.bufAt (s : State) (b : MbBox) (a n : Nat) : Except Nat Nat :=
  match b with
  | .device => if n = 0 ∨ (PartMode.paOk s.mode a = true ∧ PartMode.paOk s.mode (a + n - 1) = true) then .ok a else .error mADDRESS
  | .host => if a + n ≤ 65280 then .ok (hmbExt (256 + a)) else .error mBADCMD

/-- Read a buffer, or end the command. -/
def State.withBuf (s : State) (b : MbBox) (a n : Nat) (k : State → List Byte → State) : State :=
  match s.bufAt b a n with
  | .ok x => k s (memBytes s.mem x n)
  | .error st => s.finish b st 0

/-- Write a result, and end the command. -/
def State.reply (s : State) (b : MbBox) (a : Nat) (bs : List Byte) (res : Nat) : State :=
  match s.bufAt b a bs.length with
  | .ok x => (s.homeWrite x bs).finish b mOK res
  | .error st => s.finish b st 0

/-! ### Measurement (R409) -/

def Mgmt.extend (m : Mgmt) (kind svn : Nat) (d : BitVec 256) : Mgmt :=
  let e : LogEnt := ⟨kind, svn, d⟩
  { m with m := sha256 (beBytes 32 m.m.toNat ++ beBytes 32 d.toNat), items := m.items + 1,
           log := if m.log.length < 256 then m.log ++ [e] else m.log }

def LogEnt.bytes (e : LogEnt) : List Byte :=
  [BitVec.ofNat 8 e.kind, 0, 0, 0] ++ bytesOf 4 e.svn ++ List.replicate 8 0 ++ beBytes 32 e.digest.toNat

/-! ### Images (R407) -/

def beField (bs : List Byte) (at_ n : Nat) : Nat := beNat ((bs.drop at_).take n)

/-- Every byte of a range is zero. -/
def zerosAt (bs : List Byte) (at_ n : Nat) : Bool := ((bs.drop at_).take n).all (· == 0)

/-- The signed part of an image: header bytes 0 to 79, then the body. -/
def imgSigned (bs : List Byte) : List Byte := bs.take 80 ++ bs.drop 256

/-- Why an image of a kind does not verify: none when it does. One older than the fuse counter gives BADSVN: what a committed update rules
out (R407, R453). -/
def Mgmt.imgBad (m : Mgmt) (kind : Nat) (bs : List Byte) : Option Nat :=
  let key : BitVec 512 := BitVec.ofNat 512 (beField bs 16 64)
  let signer := if m.lifecycle = 0 then key == Config.romKey else sha256 ((bs.drop 16).take 64) == m.rootKeyHash
  if fieldAt bs 0 4 != 0x474D5844 || fieldAt bs 4 1 != kind || !zerosAt bs 5 3 || !zerosAt bs 144 112 ||
      bs.length != 256 + fieldAt bs 12 4 || !signer ||
      !ecdsaVerify key (BitVec.ofNat 512 (beField bs 80 64)) (sha256 (imgSigned bs)) then some mBADSIG
  else if fieldAt bs 8 4 < m.svns.getD (kind - 1) 0 then some mBADSVN
  else none

/-- An image is written to the inactive bank of its kind, or refused. -/
def State.stageImage (s : State) (b : MbBox) (bs : List Byte) : State :=
  let kind := fieldAt bs 4 1
  if kind = 0 ∨ 3 < kind then s.finish b mBADSIG 0
  else match s.mgmt.imgBad kind bs with
    | some st => s.finish b st 0
    | none =>
      (s.modMgmt (fun m =>
        { m with banks := kset (kind, 1 - kget 0 m.activeBank kind) bs m.banks, staged := insertNat kind m.staged })).finish b mOK 0

/-- The image at the start of n bytes. -/
def imgOf (bs : List Byte) : List Byte := bs.take (256 + fieldAt bs 12 4)

/-- FWSTAGE: an image in device memory, or chunk by chunk from the host. -/
def execFwstage (b : MbBox) (s : State) : Out State :=
  .next (s.onCmd b 7 fun s =>
    match b with
    | .device => s.withBuf b (s.arg b 0) (s.arg b 1) fun s bs => s.stageImage b (imgOf bs)
    | .host =>
      if 2 ≤ s.arg b 2 then s.finish b mBADCMD 0
      else s.withBuf b 0 (s.arg b 1) fun s bs =>
        let at_ := s.arg b 0
        let stage := memPut at_ bs s.mgmt.stage
        if s.arg b 2 = 0 then (s.modMgmt (fun m => { m with stage := stage })).finish b mOK 0
        else
          let n := min (256 + natOf (memBytes stage 12 4)) (at_ + bs.length)
          (s.modMgmt (fun m => { m with stage := [] })).stageImage b (memBytes stage 0 n))

/-- COMMITSVN: the last step of an update, after which no older image of the kind verifies (R450, R453). -/
def execCommitsvn (b : MbBox) (s : State) : Out State :=
  .next (s.onCmd b 0xE fun s =>
    let k := s.arg b 0
    if k = 0 ∨ 3 < k then s.finish b mBADCMD 0
    else (s.modMgmt (fun m =>
      { m with svns := m.svns.set (k - 1) (max (m.svns.getD (k - 1) 0) (m.running.getD (k - 1) 0)) })).finish b mOK 0)

/-! ### Attestation and records (R410, R411, R414, R444) -/

def modeCode : PartMode → Nat
  | .whole => 0
  | .half => 1
  | .die => 2

/-- Bytes 0 to 191 of the report. -/
def State.reportHead (s : State) (nonce : List Byte) : List Byte :=
  let m := s.mgmt
  bytesOf 4 0x52545844 ++ bytesOf 2 1 ++
    [BitVec.ofNat 8 m.lifecycle, BitVec.ofNat 8 m.debug, BitVec.ofNat 8 (modeCode s.mode), BitVec.ofNat 8 m.power, 0, 0] ++
    bytesOf 4 m.items ++ bytesOf 16 m.serial.toNat ++ nonce ++ beBytes 32 m.m.toNat ++
    beBytes 64 (ecPublic (identityScalar m.fuseSecret m.lifecycle)).toNat ++ List.replicate 32 0

/-- ATTEST. -/
def execAttest (b : MbBox) (s : State) : Out State :=
  .next (s.onCmd b 1 fun s =>
    if s.mgmt.lifecycle = 4 then s.finish b mREFUSED 0
    else s.withBuf b (s.arg b 0) 32 fun s nonce =>
      let head := s.reportHead nonce
      let k := (Config.signSecret s.mgmt.attests).toNat % (ecN - 1) + 1
      let sig := ecdsaSign (identityScalar s.mgmt.fuseSecret s.mgmt.lifecycle) k (sha256 head)
      (s.modMgmt (fun m => { m with attests := m.attests + 1 })).reply b (s.arg b 1) (head ++ beBytes 64 sig.toNat) 0)

/-- READLOG. -/
def execReadlog (b : MbBox) (s : State) : Out State :=
  .next (s.onCmd b 2 fun s =>
    let es := s.mgmt.log.take (s.arg b 1)
    s.reply b (s.arg b 0) (es.flatMap LogEnt.bytes) es.length)

/-- READBADFRAMES. -/
def execReadbadframes (b : MbBox) (s : State) : Out State :=
  .next (s.onCmd b 3 fun s =>
    if s.mode.controllers ≤ s.arg b 0 then s.finish b mBADCMD 0
    else
      let l := (kget ⟨[], 0⟩ s.mgmt.badList (s.arg b 0)).frames
      s.reply b (s.arg b 1) (l.flatMap (bytesOf 8)) l.length)

/-- UNLOCKCHAL: a fresh nonce replaces the outstanding one. -/
def execUnlockchal (b : MbBox) (s : State) : Out State :=
  .next (s.onCmd b 4 fun s =>
    let n := Config.nonce s.mgmt.nonces
    (s.modMgmt (fun m => { m with nonce := some n, nonces := m.nonces + 1 })).reply b (s.arg b 0) (beBytes 32 n.toNat) 0)

/-- READTELEM. -/
def execReadtelem (b : MbBox) (s : State) : Out State :=
  .next (s.onCmd b 9 fun s =>
    let n := s.arg b 2
    if n = 0 ∨ 256 < n then s.finish b mBADCMD 0
    else
      let first := max (s.arg b 1) (s.mgmt.telemSeq - 2 ^ 20)
      let k := min n (s.mgmt.telemSeq - first)
      s.reply b (s.arg b 0) ((List.range k).flatMap (fun i => memBytes s.mem (telemAt (first + i)) 4096)) k)

def HistEnt.bytes (e : HistEnt) : List Byte :=
  bytesOf 8 e.time.toNat ++ bytesOf 2 e.typ ++ bytesOf 2 e.die ++ List.replicate 4 0 ++ (e.payload ++ List.replicate 16 0).take 16

/-- READFAULTHIST: newest first. -/
def execReadfaulthist (b : MbBox) (s : State) : Out State :=
  .next (s.onCmd b 0xA fun s =>
    let es := s.mgmt.history.reverse.take (s.arg b 1)
    s.reply b (s.arg b 0) (es.flatMap HistEnt.bytes) es.length)

/-! ### Tokens, UNLOCK and LIFECYCLE (R415 to R418) -/

/-- The outstanding nonce is consumed, whether or not the token serves. -/
def State.useToken (s : State) (b : MbBox) (k : State → List Byte → State) : State :=
  match s.bufAt b (s.arg b 0) 192 with
  | .error st => s.finish b st 0
  | .ok x =>
    let t := memBytes s.mem x 192
    let m := s.mgmt
    let key : BitVec 512 := BitVec.ofNat 512 (beField t 56 64)
    let signer := if m.lifecycle = 0 then key == Config.romKey else sha256 ((t.drop 56).take 64) == m.dbgKeyHash
    let formed := fieldAt t 0 4 == 0x4B545844 && fieldAt t 5 1 / 2 == 0 && fieldAt t 6 2 == 0 && fieldAt t 8 16 == m.serial.toNat &&
      zerosAt t 120 8
    let s := s.modMgmt (fun m => { m with nonce := none })
    if m.nonce.map (·.toNat) ≠ some (beField t 24 32) then s.finish b mBADNONCE 0
    else if !formed || !signer || !ecdsaVerify key (BitVec.ofNat 512 (beField t 128 64)) (sha256 (t.take 128)) then s.finish b mBADSIG 0
    else k s t

/-- A digest that nothing determines: that of an UNLOCK without a token. -/
def State.freeDigest (s : State) : BitVec 256 :=
  BitVec.ofNat 256 ((List.range 4).foldl (fun n k => n * 2 ^ 64 + (Config.freeWord (s.free + k)).toNat) 0)

/-- The level is raised and measured. -/
def State.setLevel (s : State) (b : MbBox) (level : Nat) (d : BitVec 256) : State :=
  (s.modMgmt (fun m => { (m.extend 0x11 0 d) with debug := level, unlocking := none })).finish b mOK 0

/-- Context keys are erased; what the keep tier holds under them is lost, and with it each image that holds data of a context (R418,
log 117). -/
def State.eraseKeys (s : State) : State :=
  s.modMgmt (fun m => { m with
    keys := []
    images := m.images.map (fun (i : Nat × Image) => (i.1, { i.2 with intact := i.2.intact && i.2.sealed_.isEmpty && i.2.holds.isEmpty })) })

/-- A thread group's register file at zero. -/
def TG.zeroRegs (g : TG) : TG :=
  let z := TG.zero g.loc
  { g with s := z.s, sp := 0, v := z.v, vp := z.vp, p := z.p, pp := z.pp, k := 0, kp := 0, x := 0, found := [] }

/-- Storage of a range of extended addresses at zero. -/
def Soc.clear (s : Soc) (lo hi : Nat) : Soc :=
  { s with mem := s.mem.filter (fun c => decide (c.1 < lo) || decide (hi ≤ c.1)),
           poison := s.poison.filter (fun g => decide (g < lo) || decide (hi ≤ g)) }

/-- Scratchpads, local stores, register files, accumulators and slices at zero (R418 step 2). -/
def State.eraseArrays (s : State) : State :=
  let s := s.onSoc (·.clear (2 ^ 63) (2 ^ 64))
  { s with me := s.me.zeroRegs, tgs := s.tgs.map TG.zeroRegs, replicas := [],
           cores := s.cores.map (fun (c : CoreId × Core) => (c.1, { c.2 with a0 := .zero, a1 := .zero })) }

/-- HBM at zero, with the marks of its words. -/
def State.eraseHbm (s : State) : State := s.onSoc (·.clear 0 (2 ^ 61))

/-- Steps 1 to 4 of R418; the queues' teardown may take several steps of the machine. -/
def State.unlockHalt (s : State) (b : MbBox) (d : BitVec 256) (erase : Bool) : State :=
  match s.tearAll with
  | (s, false) => s
  | (s, true) =>
    let s := s.eraseKeys.eraseArrays
    (if erase then s.eraseHbm else s).setLevel b 2 d

/-- UNLOCK. Which level an UNLOCK without a token raises to is a free choice. -/
def execUnlock (b : MbBox) (s : State) : Out State :=
  .next (s.onCmd b 5 fun s =>
    match s.mgmt.unlocking with
    | some (d, erase) => s.unlockHalt b d erase
    | none =>
      if s.mgmt.lifecycle = 4 then s.finish b mREFUSED 0
      else if s.mgmt.lifecycle = 2 then s.useToken b fun s t =>
        let level := fieldAt t 4 1
        let d := sha256 (t.take 128)
        if level = 0 ∨ 2 < level then s.finish b mBADSIG 0
        else if level ≤ s.mgmt.debug then s.finish b mOK 0
        else if level = 1 then s.setLevel b 1 d
        else
          let erase := bitOf (fieldAt t 5 1) 0
          (s.modMgmt (fun m => { m with unlocking := some (d, erase) })).unlockHalt b d erase
      else if s.arg b 0 ≠ 0 then s.finish b mBADCMD 0
      else
        let level := 1 + s.freeWord.toNat % 2
        if level ≤ s.mgmt.debug then s.useFree.finish b mOK 0
        else { s with free := s.free + 5 }.setLevel b level { s with free := s.free + 1 }.freeDigest)

/-- The transitions of R415. -/
def lifecycleOk (from_ to_ : Nat) : Bool :=
  (from_ == 0 && to_ == 1) || (from_ == 0 && to_ == 2) || (from_ == 1 && to_ == 2) || (from_ == 2 && to_ == 3) || to_ == 4

/-- The device stops until its next boot. -/
def State.stopDevice (s : State) : State :=
  { s with
    me := .zero tg0, tgs := [],
    mgmt := { s.mgmt with off := true, mb := .zero, hmb := .zero, serving := none, trace := none, debug := 0, unlocking := none, nonce := none } }

/-- LIFECYCLE: erase, burn the fuses and reset the device. -/
def execLifecycle (b : MbBox) (s : State) : Out State :=
  .next (s.onCmd b 8 fun s => s.useToken b fun s t =>
    let to_ := fieldAt t 4 1 - 0x10
    if fieldAt t 4 1 < 0x10 ∨ lifecycleOk s.mgmt.lifecycle to_ = false then s.finish b mREFUSED 0
    else
      let s := if to_ = 3 then
          (s.eraseKeys.eraseHbm.onSoc (·.clear (2 ^ 65) (2 ^ 66))).modMgmt (fun m => { m with images := [] })
        else s
      (s.modMgmt (fun m => { (m.extend 0x12 0 (sha256 (t.take 128))) with
        lifecycle := to_, fuseSecret := if to_ = 4 then BitVec.allOnes 256 else m.fuseSecret })).stopDevice)

/-! ### Power and checkpoints (R14, R422, R424, R450) -/

/-- A thread group that can issue now or later without a wake (R47, R50). -/
def TG.runnable (g : TG) : Bool :=
  match g.status with
  | .ready | .stalled | .yielding _ => !g.dbg
  | _ => false

/-- A launched task that runs on keeps no queue slot busy. -/
def Pkt.idle (p : Pkt) : Bool := p.isLaunch && p.live && p.outcome.isNone

/-- R422: no user core has a runnable thread group, engines and queue slots are idle, and every side log is empty. -/
def State.quiet (s : State) : Bool :=
  s.allTgs.all (fun g => !(g.runnable && s.unreserved g.loc.core)) && s.ops.isEmpty && s.pkts.all Pkt.idle && s.mreqs.isEmpty &&
  s.slots.all (fun x => !x.2.awake) && s.clusters.all (fun c => c.2.kicked.isEmpty) && s.cores.all (fun c => c.2.log.isEmpty)

/-- Quiescence as POWER and CHECKPOINT wait for it (R422, R450): reached within ARG1 µs the command acts; a wake, or the end of that time,
aborts it; until then it waits. The package's other devices have a part in it too: idle says that they have come to rest. -/
def State.whenQuiet (s : State) (b : MbBox) (idle : Bool) (act : State → State) : State :=
  let until_ := (s.mb b).since + 1000 * s.arg b 1
  let now := s.ptp.toNat
  if (s.mb b).woken then s.finish b mABORTED 0
  else if s.quiet && (idle || s.mode == .whole) && decide (now ≤ until_) then act s
  else if now < until_ then s
  else s.finish b mABORTED 0

/-- R424. -/
def powerOk (lifecycle debug target : Nat) : Bool :=
  match target with
  | 0 => true
  | 1 => lifecycle != 4
  | 2 => (lifecycle == 1 || lifecycle == 2) && debug != 2
  | _ => debug != 2

/-- Bytes that a checkpoint moves: HBM and the arrays of R13. -/
def imageBytes (m : PartMode) : Nat :=
  m.controllers * 2 ^ 36 + m.computeDies * 24 * (8 * (2 ^ 18 + 2 ^ 18 + 2 ^ 19) + 2 ^ 22) + m.gatewayDies * m.gatewayClusters * 2 ^ 21

/-- The contexts whose tasks and thread groups are on the device: their registers, accumulators and tables are on-chip data of theirs. -/
def Soc.onChip (s : Soc) : List Half :=
  (s.tasks.map (·.asid) ++ ((s.me :: s.tgs).filter (fun g => g.status != .free)).map (·.ctx)).eraseDups

/-- The context whose data a 4 KiB unit of storage holds: of a scratchpad, that of the task that has reserved it; of a local store, that of
the thread group whose private part it is in; of HBM, one that has a context entry (log 117). -/
def Soc.ownerOf (s : Soc) (u : Nat) : Option Half :=
  let a := 4096 * u
  if a < 2 ^ 60 then (Config.unitOwner u).filter (fun c => (ctxRoot s c).isSome)
  else if !isWindow a then none
  else
    let w := winOf a
    let reserved := fun (t : Task) => t.queue == ⟨w.die, w.cl⟩ && t.reserved.any (fun r => decide (r.1 < w.off + 4096) && decide (w.off < r.2))
    let private_ := fun (g : TG) => g.status != .free && g.loc.core == w.coreId &&
      decide (g.lsBase < a + 4096) && decide (a < g.lsBase + 1024 * g.lsKib)
    if w.kind = 0 then (s.tasks.find? reserved).map (·.asid)
    else if w.kind = 1 then ((s.me :: s.tgs).find? private_).map (·.ctx)
    else none

/-- The 4 KiB units of HBM, scratchpads and local stores that hold data of a context, each with its context. -/
def Soc.units (s : Soc) : List (Nat × Half) :=
  ((s.mem.filter (fun c => decide (c.1 < 2 ^ 64))).map (fun c => c.1 / 4096)).eraseDups.filterMap (fun u => (s.ownerOf u).map (fun a => (u, a)))

/-- A context has a key from the first time that one is needed. -/
def Mgmt.withKey (m : Mgmt) (a : Half) : Mgmt :=
  if (kfind a m.keys).isSome then m else { m with keys := kset a (Config.ctxKey m.keyCount) m.keys, keyCount := m.keyCount + 1 }

/-- Units under their contexts' keys, encrypted or decrypted by f (R418). -/
def Mgmt.crypt (m : Mgmt) (f : BitVec 256 → BitVec 256 → Nat → List Byte → List Byte) (us : List (Nat × Half)) (mem : List Host.Cell) :
    List Host.Cell :=
  us.foldl (fun mem u =>
    let key := kget 0 m.keys u.2
    memPut (4096 * u.1) (f key (Config.tweakKey key) u.1 (memBytes mem (4096 * u.1) 4096)) mem) mem

/-- Write image i (R14), each context's data under its key (R418); the code words of the one before are replaced (R426). -/
def State.writeImage (s : State) (i : Nat) : State :=
  let us := s.toSoc.units
  let own := s.toSoc.onChip
  (s.forgetKeep i).modMgmt (fun m =>
    let m := (us.map (·.2) ++ own).foldl Mgmt.withKey m
    let img : Image := ⟨{ s.toSoc with mem := m.crypt xtsEncrypt us s.mem }, us, own, true, s.mode, m.serial, imageBytes s.mode⟩
    { m with images := kset i img m.images })

/-- Everything volatile is gone: what remains is host memory, the keep tier and what fuses and flash hold (R14, R421). -/
def State.powerGone (s : State) (hbm : Bool) : State :=
  let kept := ((s.toSoc.clear (2 ^ 63) (2 ^ 64)).clear (2 ^ 66) (2 ^ 67))
  let kept := if hbm then kept.clear 0 (2 ^ 61) else kept
  { (s.onSoc (fun o => { Soc.reset with
      mode := o.mode, part := o.part, devid := o.devid, mem := kept.mem, poison := kept.poison, ptp := o.ptp, seq := o.seq, free := o.free })) with
    agenda := s.agenda }.stopDevice

/-- POWER. -/
def execPower (b : MbBox) (idle : Bool) (s : State) : Out State :=
  .next (s.onCmd b 6 fun s =>
    let t := s.arg b 0
    if 3 < t ∨ 2 ≤ s.arg b 2 then s.finish b mBADCMD 0
    else if !powerOk s.mgmt.lifecycle s.mgmt.debug t then s.finish b mREFUSED 0
    else if t = 0 then s.finish b mOK 0
    else if t = 3 then
      match s.tearAll with
      | (s, false) => s
      | (s, true) => (if s.arg b 2 = 1 then s.useFree.writeImage (Config.pick s.free 3 % 3) else s).powerGone true
    else s.whenQuiet b idle (fun s => (s.modMgmt (fun m => { m with power := t })).finish b mOK 0))

/-- The device that a command of R450 or R451 acts on: a device mailbox's own; the host names one of the package (R413). Of another device
of the package this model holds nothing: its outcome is free. -/
def State.onDevice (s : State) (b : MbBox) (k : State → State) : State :=
  if b = .device ∨ s.arg b 3 = s.devid then k s
  else if s.mgmt.siblings.contains (s.arg b 3) then s.useFree.finish b (s.freeWord.toNat % 8) 0
  else s.finish b mBADCMD 0

/-- CHECKPOINT. -/
def execCheckpoint (b : MbBox) (idle : Bool) (s : State) : Out State :=
  .next (s.onCmd b 0xB fun s =>
    if 2 < s.arg b 0 then s.finish b mBADCMD 0
    else s.onDevice b fun s =>
      s.whenQuiet b idle (fun s => (s.writeImage (s.arg b 0)).finish b mOK (imageBytes s.mode)))

/-- The counters of errors, which count from device reset (R430). -/
def rasSel (sel : Nat) : Bool := decide (0x60 ≤ sel) && decide (sel < 0x74)

/-- A die as an image captured it, with what the reliability unit has counted since the device's reset, and the core test under way: no image
rewinds those (R430, R431, R435). Every word of its arrays has been written in its selected mode (R427). -/
def Die.loaded (now img : Die) : Die :=
  { img with
    counters := (now.counters.filter (fun c => rasSel c.1)).foldl (fun l c => kset c.1 c.2 l) (img.counters.filter (fun c => !rasSel c.1))
    oldMode := [], sweeps := now.sweeps, testCl := now.testCl, testCore := now.testCore, test := now.test, testFail := now.testFail
    supply := now.supply, windowCe := now.windowCe, windowAt := now.windowAt, cePosted := now.cePosted, frameCe := now.frameCe
    telCe := now.telCe, telUe := now.telUe }

/-- A core as an image captured it: a quarantine is lifted by the reliability flow alone (R333). -/
def Core.loaded (now img : Core) : Core :=
  { img with quarantined := now.quarantined, a0 := { img.a0 with found := [] }, a1 := { img.a1 with found := [] } }

/-- Entries of a map as an image has them, merged by f with those of the device. -/
def merged {κ ν : Type} [DecidableEq κ] (zero : ν) (f : ν → ν → ν) (now img : KMap κ ν) : KMap κ ν :=
  img.map (fun x => (x.1, f (kget zero now x.1) x.2)) ++
    (now.filter (fun x => (kfind x.1 img).isNone)).map (fun x => (x.1, f x.2 zero))

/-- The device as an image captured it, with what no checkpoint holds: host memory, the keep tier, the clock, lists and counters of the
package, quarantines and counts of errors, and the model's own counters. Every code word has been written (R426). -/
def State.loadImage_ (s : State) (img : Image) : State :=
  let unmark := fun (g : TG) => { g with found := [] }
  let dev := (s.mgmt.crypt xtsDecrypt img.sealed_ img.soc.mem).filter (fun c => decide (c.1 < 2 ^ 64))
  let out := s.mem.filter (fun c => decide (2 ^ 64 ≤ c.1))
  { s with
    toSoc := { img.soc with
      mem := dev ++ out,
      poison := img.soc.poison.filter (fun g => decide (g < 2 ^ 64)) ++ s.poison.filter (fun g => decide (2 ^ 64 ≤ g)),
      seen := s.seen.filter (fun w => w.1 % 16 == 5), me := unmark img.soc.me, tgs := img.soc.tgs.map unmark,
      cores := merged .zero Core.loaded s.cores img.soc.cores, dies := merged .zero Die.loaded s.dies img.soc.dies,
      devid := s.devid, part := s.part, badFrames := s.badFrames, lost := s.lost, links := s.links, clock := s.clock,
      ptp := s.ptp, seq := max s.seq img.soc.seq, free := s.free } }

/-- RESTORE. -/
def execRestore (b : MbBox) (s : State) : Out State :=
  .next (s.onCmd b 0xC fun s =>
    if 2 < s.arg b 0 then s.finish b mBADCMD 0
    else s.onDevice b fun s =>
      match kfind (s.arg b 0) s.mgmt.images with
      | none => s.finish b mBADSIG 0
      | some img =>
        if !img.intact then s.finish b mBADSIG 0
        else if img.mode ≠ s.mode then s.finish b mREFUSED 0
        else match s.tearAll with
          | (s, false) => s
          | (s, true) => (s.loadImage_ img).finish b mOK 0)

/-- DECLARELOST (R451): what waits on the device completes as lost. -/
def State.declareLost (s : State) (dev : Nat) : State :=
  let gone := s.wrs.filter (fun w => w.peer == some dev && !w.done)
  let s : State := { s with
    lost := insertNat dev s.lost,
    reqs := s.reqs.map (fun r => if hDevice r.h = dev then { r with reply := some (lostReply r.op) } else r) }
  gone.foldl (fun (s : State) w => if s.wrs.any (fun x => x.id == w.id) then s.refused w else s) s

def execDeclarelost (b : MbBox) (s : State) : Out State :=
  .next (s.onCmd b 0xD fun s =>
    if 2 ^ 22 ≤ s.arg b 0 then s.finish b mBADCMD 0
    else s.onDevice b fun s => (s.declareLost (s.arg b 0)).finish b mOK 0)

/-! ### The end of a command (R412) -/

/-- MAILBOX_COMPLETE: the results are published and BUSY clears; an unknown command is refused. -/
def execMailboxComplete (b : MbBox) (s : State) : Out State :=
  .next (
    let m := s.mb b
    let done := fun (s : State) => s.modMgmt (fun m => { m with serving := none, lastServed := b })
    if s.mgmt.off || !m.busy then s
    else match m.finished with
      | some (st, r) => done (s.modMb b (fun m => { m with busy := false, status := st, res := r, finished := none }))
      | none =>
        if (m.cmd = 0 ∨ 0xE < m.cmd) ∧ s.serves b = true then done (s.modMb b (fun m => { m with busy := false, status := mBADCMD, finished := none }))
        else s)

end Sys2Proof.Machine
end

