-- ==== Sys2Proof/WellFormed.lean ====
section
/-! DEFINITION. Which terms of Instr the encoding can express (R172, R201, R212, R232, R235, R284): destinations that may be
written, aligned register groups, and condition registers where a form names one. -/

namespace Sys2Proof

/-- A lane predicate that an instruction may write: p1 to p7 (R172). -/
def PReg.dest (p : PReg) : Bool := p.val != 0

/-- A uniform predicate that an instruction may write: k1 to k7 (R172, R191). -/
def KReg.dest (k : KReg) : Bool := k.val != 0 && k.val < 8

/-- A condition register: k8 to k15 (R199). -/
def KReg.cond (k : KReg) : Bool := 8 ≤ k.val

/-- A system register that SRD may name in supervisor mode: the numbers that R315 lists (R314). -/
def SysReg.known (n : SysReg) : Bool := n.val < 30 || n.val == 32 || n.val == 33

/-- A system register that SWR may name in supervisor mode (R314, R315). -/
def SysReg.dest (n : SysReg) : Bool :=
  n.val == 7 || n.val == 10 || (14 ≤ n.val && n.val ≤ 19) || n.val == 23 || n.val == 25 || n.val == 27 || n.val == 32

/-- The first register of an aligned pair, or of an aligned group of four (R172, R201, R236). -/
def VReg.even (v : VReg) : Bool := v.val % 2 == 0
def VReg.quad (v : VReg) : Bool := v.val % 4 == 0

/-- A K operand or an M offset always fits its fields (R174). An instruction is well formed when its encoding exists. -/
def Instr.wf : Instr → Bool
  | .scmpeq _ d _ _ | .scmpne _ d _ _ | .scmplt _ d _ _ | .scmple _ d _ _ | .scmpltu _ d _ _ | .scmpleu _ d _ _ => d.dest
  | .kand _ d _ _ | .kor _ d _ _ | .kxor _ d _ _ | .kandn _ d _ _ => d.dest
  | .vcmpeq _ d _ _ | .vcmpne _ d _ _ | .vcmplt _ d _ _ | .vcmple _ d _ _ | .vcmpltu _ d _ _ | .vcmpleu _ d _ _ => d.dest
  | .vfcmpeq _ d _ _ | .vfcmplt _ d _ _ | .vfcmple _ d _ _ | .vfcmpun _ d _ _ => d.dest
  | .pand _ d _ _ | .por _ d _ _ | .pxor _ d _ _ | .pandn _ d _ _ => d.dest
  | .pfroms _ d _ => d.dest
  | .panyk _ d _ | .pallk _ d _ => d.dest
  | .vcvthf _ d _ | .vcvtbf _ d _ => d.even
  | .vxacc _ d _ => d.quad
  | .vldd _ d _ _ | .vstd _ d _ _ => d.even
  | .vatcas _ d _ _ _ _ => d.even
  | .vxadd _ d _ _ nr _ => nr || d.quad
  | .satadd _ d _ _ nr _ | .satxch _ d _ _ nr _ => !nr || d.val == 0
  | .waitk _ a => a.cond
  | .touchc _ _ _ b => b.dest
  | .pchk _ d _ => d.dest
  | .srd _ _ n => n.known
  | .swr _ _ n => n.dest
  | .illegalEncoding r _ => r.val != 0 && r.val < 9
  | _ => true

end Sys2Proof
end

