-- ==== Sys2Proof/Decode.lean ====
section
/-! DEFINITION. Decoding of an instruction group (R167 to R188), total on any halfwords, and the encoder. A word that is not an
instruction decodes to illegalEncoding with the reason of R187; PREFIX, PRIV and REGRANGE are reported as traps. Definitions that build an Instr
are marked noncomputable: the compiler's runtime has no object tag for so many constructors; the kernel evaluates them. -/

namespace Sys2Proof

open Machine

/-- What a register or literal field of a form names (R172, R192, R201, R208, R212, R232, R235, R247, R284). -/
inductive Opd where
  | zero | s | v | v2 | v4 | vx | p | pd | k | kd | kc | h | t | acc | vs | sb | kop | off | sys | tmask | tmaskHi
deriving DecidableEq, Repr

/-- A form's operands and the WIDE fields it accepts beside DHI, AHI, BHI and BSCAL (R177). -/
structure Form where
  d : Opd
  a : Opd
  b : Opd
  guard : Bool
  rnd : Bool
  sat : Bool
  nr : Bool
  scope : Bool
  deep : Bool
deriving DecidableEq, Repr

/-- The thread group's place and allocation, as far as decoding reads them (R10, R33, R186). -/
structure DecEnv where
  gateway : Bool
  super : Bool
  vregs : Nat
  uregs : Nat
deriving DecidableEq, Repr

/-- The outcome of decoding: a group with its length in bytes and its mask word, a decoding trap, or too few halfwords. -/
inductive DecRes where
  | ok (i : Instr) (len : Nat) (mask : Option W32)
  | trap (cause : Nat) (info : W64)
  | short
deriving DecidableEq, Repr

/-- TRAPINFO of PREFIX and ILLEGAL (R187). -/
def reasonInfo (reason w : Nat) : W64 := BitVec.ofNat 64 (reason * 2 ^ 32 + w % 2 ^ 32)

/-- The fields of a word and its prefixes, with registers widened by the high bits of WIDE (R172, R176). -/
structure Flds where
  w : Nat
  wide : Option Nat
  imm : Option Nat

namespace Flds
def maj (f : Flds) : Nat := f.w / 2 % 32
def sp (f : Flds) : Bool := f.w / 64 % 2 == 1
def gN (f : Flds) : Nat := f.w / 128 % 8
def dN (f : Flds) : Nat := f.w / 1024 % 64
def aN (f : Flds) : Nat := f.w / 65536 % 64
def bN (f : Flds) : Nat := f.w / 4194304 % 64
def minR (f : Flds) : Nat := f.w / 268435456 % 16
def minK (f : Flds) : Nat := f.w / 1073741824 % 4
def k8 (f : Flds) : Nat := f.w / 4194304 % 256
def wideN (f : Flds) : Nat := f.wide.getD 0
def dhi (f : Flds) : Nat := f.wideN / 128 % 4
def ahi (f : Flds) : Nat := f.wideN / 512 % 4
def bhi (f : Flds) : Nat := f.wideN / 2048 % 4
def scN (f : Flds) : Nat := f.wideN / 8192 % 8
def rndN (f : Flds) : Nat := f.wideN / 65536 % 4
def sat (f : Flds) : Bool := f.wideN / 262144 % 2 == 1
def nr (f : Flds) : Bool := f.wideN / 524288 % 2 == 1
def bscal (f : Flds) : Bool := f.wideN / 1048576 % 2 == 1
def width (f : Flds) : Nat := f.wideN / 2097152 % 8
def deep (f : Flds) : Bool := f.wideN / 16777216 % 2 == 1
def dV (f : Flds) : VReg := Fin.ofNat 256 (64 * f.dhi + f.dN)
def aV (f : Flds) : VReg := Fin.ofNat 256 (64 * f.ahi + f.aN)
def bV (f : Flds) : VReg := Fin.ofNat 256 (64 * f.bhi + f.bN)
def dS (f : Flds) : UReg := Fin.ofNat 64 f.dN
def aS (f : Flds) : UReg := Fin.ofNat 64 f.aN
def bS (f : Flds) : UReg := Fin.ofNat 64 f.bN
def bVS (f : Flds) : VSrc := if f.bscal then .s f.bS else .v f.bV
def dP (f : Flds) : PReg := Fin.ofNat 8 f.dN
def aP (f : Flds) : PReg := Fin.ofNat 8 f.aN
def bP (f : Flds) : PReg := Fin.ofNat 8 f.bN
def dK (f : Flds) : KReg := Fin.ofNat 16 f.dN
def aK (f : Flds) : KReg := Fin.ofNat 16 f.aN
def bK (f : Flds) : KReg := Fin.ofNat 16 f.bN
def dH (f : Flds) : HReg := Fin.ofNat 16 f.dN
def aH (f : Flds) : HReg := Fin.ofNat 16 f.aN
def bH (f : Flds) : HReg := Fin.ofNat 16 f.bN
def dT (f : Flds) : TReg := Fin.ofNat 8 f.dN
def aT (f : Flds) : TReg := Fin.ofNat 8 f.aN
def dA (f : Flds) : AReg := Fin.ofNat 2 f.dN
def aA (f : Flds) : AReg := Fin.ofNat 2 f.aN
def g (f : Flds) : Guard := Fin.ofNat 8 f.gN
def sys (f : Flds) : SysReg := Fin.ofNat 64 f.bN
def tm (f : Flds) : Byte := BitVec.ofNat 8 (f.w / 1024 % 256)
def cwn (f : Flds) : Byte := BitVec.ofNat 8 (64 * f.bhi + f.bN)
def kop (f : Flds) : KOp := match f.imm with
  | some p => .imm (BitVec.ofNat 32 (p / 256 % 16777216 * 256 + f.k8))
  | none => .cw (BitVec.ofNat 8 f.k8)
def off (f : Flds) : MOff := match f.imm with
  | some p => .long (BitVec.ofNat 32 (p / 256 % 16777216 * 256 + f.k8))
  | none => .short (BitVec.ofNat 8 f.k8)
def rnd (f : Flds) : Rnd := match f.rndN with | 0 => .rne | 1 => .rz | 2 => .rup | _ => .rdn
def sc (f : Flds) : Scope := match f.wide with
  | none => .dflt
  | some _ => match f.scN with
    | 0 => .tg | 1 => .task | 2 => .core | 3 => .cluster | 4 => .die | 5 => .device | 6 => .system | _ => .dflt
end Flds

/-- The operand files and accepted fields of each form (R183, R192, R197, R201, R212, R232, R235, R241, R247, R284); none is an
unassigned minor or SUB. -/
def form : Nat → Nat → Option Form
  | 0, 0 => some ⟨.s, .s, .s, true, false, false, false, false, false⟩
  | 0, 1 => some ⟨.s, .s, .s, true, false, false, false, false, false⟩
  | 0, 2 => some ⟨.s, .s, .s, true, false, false, false, false, false⟩
  | 0, 3 => some ⟨.s, .s, .s, true, false, false, false, false, false⟩
  | 0, 4 => some ⟨.s, .s, .s, true, false, false, false, false, false⟩
  | 0, 5 => some ⟨.s, .s, .s, true, false, false, false, false, false⟩
  | 0, 6 => some ⟨.s, .s, .s, true, false, false, false, false, false⟩
  | 0, 7 => some ⟨.s, .s, .s, true, false, false, false, false, false⟩
  | 0, 8 => some ⟨.s, .s, .s, true, false, false, false, false, false⟩
  | 0, 9 => some ⟨.s, .s, .s, true, false, false, false, false, false⟩
  | 0, 10 => some ⟨.s, .s, .s, true, false, false, false, false, false⟩
  | 0, 11 => some ⟨.s, .s, .s, true, false, false, false, false, false⟩
  | 0, 12 => some ⟨.s, .s, .s, true, false, false, false, false, false⟩
  | 0, 13 => some ⟨.s, .s, .s, true, false, false, false, false, false⟩
  | 0, 14 => some ⟨.s, .s, .s, true, false, false, false, false, false⟩
  | 0, 15 => some ⟨.s, .s, .s, true, false, false, false, false, false⟩
  | 1, 0 => some ⟨.s, .zero, .kop, true, false, false, false, false, false⟩
  | 1, 1 => some ⟨.s, .s, .kop, true, false, false, false, false, false⟩
  | 1, 2 => some ⟨.s, .s, .kop, true, false, false, false, false, false⟩
  | 1, 3 => some ⟨.s, .s, .kop, true, false, false, false, false, false⟩
  | 2, 0 => some ⟨.s, .s, .zero, true, false, false, false, false, false⟩
  | 2, 1 => some ⟨.s, .s, .zero, true, false, false, false, false, false⟩
  | 2, 2 => some ⟨.s, .s, .zero, true, false, false, false, false, false⟩
  | 2, 3 => some ⟨.s, .s, .zero, true, false, false, false, false, false⟩
  | 2, 4 => some ⟨.s, .s, .zero, true, false, false, false, false, false⟩
  | 2, 5 => some ⟨.s, .s, .zero, true, false, false, false, false, false⟩
  | 2, 6 => some ⟨.s, .s, .zero, true, false, false, false, false, false⟩
  | 2, 7 => some ⟨.s, .s, .zero, true, false, false, false, false, false⟩
  | 2, 8 => some ⟨.s, .s, .zero, true, false, false, false, false, false⟩
  | 3, 0 => some ⟨.kd, .s, .s, true, false, false, false, false, false⟩
  | 3, 1 => some ⟨.kd, .s, .s, true, false, false, false, false, false⟩
  | 3, 2 => some ⟨.kd, .s, .s, true, false, false, false, false, false⟩
  | 3, 3 => some ⟨.kd, .s, .s, true, false, false, false, false, false⟩
  | 3, 4 => some ⟨.kd, .s, .s, true, false, false, false, false, false⟩
  | 3, 5 => some ⟨.kd, .s, .s, true, false, false, false, false, false⟩
  | 3, 6 => some ⟨.kd, .k, .k, true, false, false, false, false, false⟩
  | 3, 7 => some ⟨.kd, .k, .k, true, false, false, false, false, false⟩
  | 3, 8 => some ⟨.kd, .k, .k, true, false, false, false, false, false⟩
  | 3, 9 => some ⟨.kd, .k, .k, true, false, false, false, false, false⟩
  | 4, 0 => some ⟨.v, .v, .vs, true, false, true, false, false, false⟩
  | 4, 1 => some ⟨.v, .v, .vs, true, false, true, false, false, false⟩
  | 4, 2 => some ⟨.v, .v, .vs, true, false, false, false, false, false⟩
  | 4, 3 => some ⟨.v, .v, .vs, true, false, false, false, false, false⟩
  | 4, 4 => some ⟨.v, .v, .vs, true, false, false, false, false, false⟩
  | 4, 5 => some ⟨.v, .v, .vs, true, false, false, false, false, false⟩
  | 4, 6 => some ⟨.v, .v, .vs, true, false, false, false, false, false⟩
  | 4, 7 => some ⟨.v, .v, .vs, true, false, false, false, false, false⟩
  | 4, 8 => some ⟨.v, .v, .vs, true, false, false, false, false, false⟩
  | 4, 9 => some ⟨.v, .v, .vs, true, false, false, false, false, false⟩
  | 4, 10 => some ⟨.v, .v, .vs, true, false, false, false, false, false⟩
  | 4, 11 => some ⟨.v, .v, .vs, true, false, false, false, false, false⟩
  | 4, 12 => some ⟨.v, .v, .vs, true, false, false, false, false, false⟩
  | 4, 13 => some ⟨.v, .v, .vs, true, false, false, false, false, false⟩
  | 4, 14 => some ⟨.v, .v, .vs, true, false, false, false, false, false⟩
  | 4, 15 => some ⟨.v, .v, .vs, true, false, false, false, false, false⟩
  | 5, 0 => some ⟨.v, .zero, .kop, true, false, false, false, false, false⟩
  | 5, 1 => some ⟨.v, .v, .kop, true, false, true, false, false, false⟩
  | 5, 2 => some ⟨.v, .v, .kop, true, false, false, false, false, false⟩
  | 5, 3 => some ⟨.v, .v, .kop, true, false, false, false, false, false⟩
  | 6, 0 => some ⟨.v, .v, .vs, true, true, false, false, false, false⟩
  | 6, 1 => some ⟨.v, .v, .vs, true, true, false, false, false, false⟩
  | 6, 2 => some ⟨.v, .v, .vs, true, true, false, false, false, false⟩
  | 6, 3 => some ⟨.v, .v, .vs, true, true, false, false, false, false⟩
  | 6, 4 => some ⟨.v, .v, .vs, true, true, false, false, false, false⟩
  | 6, 5 => some ⟨.v, .v, .vs, true, true, false, false, false, false⟩
  | 6, 6 => some ⟨.v, .v, .vs, true, false, false, false, false, false⟩
  | 6, 7 => some ⟨.v, .v, .vs, true, false, false, false, false, false⟩
  | 6, 8 => some ⟨.v, .v, .vs, true, true, false, false, false, false⟩
  | 6, 9 => some ⟨.v, .v, .vs, true, false, false, false, false, false⟩
  | 7, 0 => some ⟨.v, .v, .vs, true, true, false, false, false, false⟩
  | 7, 1 => some ⟨.v, .v, .vs, true, true, false, false, false, false⟩
  | 7, 2 => some ⟨.v, .v, .vs, true, true, false, false, false, false⟩
  | 7, 3 => some ⟨.v, .v, .vs, true, false, false, false, false, false⟩
  | 7, 4 => some ⟨.v, .v, .vs, true, false, false, false, false, false⟩
  | 7, 5 => some ⟨.v, .v, .vs, true, true, false, false, false, false⟩
  | 7, 6 => some ⟨.v, .v, .vs, true, true, false, false, false, false⟩
  | 7, 7 => some ⟨.v, .v, .vs, true, true, false, false, false, false⟩
  | 7, 8 => some ⟨.v, .v, .vs, true, false, false, false, false, false⟩
  | 7, 9 => some ⟨.v, .v, .vs, true, false, false, false, false, false⟩
  | 7, 10 => some ⟨.v, .v, .vs, true, true, false, false, false, false⟩
  | 7, 11 => some ⟨.v, .v, .vs, true, true, false, false, false, false⟩
  | 7, 12 => some ⟨.v, .v, .vs, true, false, true, false, false, false⟩
  | 8, 0 => some ⟨.v, .v, .zero, true, false, false, false, false, false⟩
  | 8, 1 => some ⟨.v, .v, .zero, true, false, false, false, false, false⟩
  | 8, 2 => some ⟨.v, .v, .zero, true, true, false, false, false, false⟩
  | 8, 3 => some ⟨.v, .v, .zero, true, false, false, false, false, false⟩
  | 8, 4 => some ⟨.v, .v, .zero, true, false, false, false, false, false⟩
  | 8, 5 => some ⟨.v, .v, .zero, true, false, false, false, false, false⟩
  | 8, 6 => some ⟨.v, .v, .zero, true, false, false, false, false, false⟩
  | 8, 7 => some ⟨.v, .v, .zero, true, false, false, false, false, false⟩
  | 8, 8 => some ⟨.v, .v, .zero, true, false, false, false, false, false⟩
  | 8, 9 => some ⟨.v, .v, .zero, true, true, false, false, false, false⟩
  | 8, 10 => some ⟨.v, .v, .zero, true, false, false, false, false, false⟩
  | 8, 11 => some ⟨.v, .v, .zero, true, false, false, false, false, false⟩
  | 8, 12 => some ⟨.v, .v, .zero, true, false, false, false, false, false⟩
  | 9, 0 => some ⟨.v, .v, .zero, true, true, false, false, false, false⟩
  | 9, 1 => some ⟨.v, .v, .zero, true, true, false, false, false, false⟩
  | 9, 2 => some ⟨.v, .v, .zero, true, true, false, false, false, false⟩
  | 9, 3 => some ⟨.v, .v, .zero, true, true, false, false, false, false⟩
  | 9, 4 => some ⟨.v, .v, .v, true, true, true, false, false, false⟩
  | 9, 5 => some ⟨.v2, .v, .zero, true, false, false, false, false, false⟩
  | 9, 6 => some ⟨.v, .v, .v, true, true, true, false, false, false⟩
  | 9, 7 => some ⟨.v2, .v, .zero, true, false, false, false, false, false⟩
  | 9, 8 => some ⟨.v, .v, .vs, true, false, false, false, false, false⟩
  | 9, 9 => some ⟨.v, .v, .vs, true, false, false, false, false, false⟩
  | 9, 10 => some ⟨.v, .zero, .vs, true, false, false, false, false, false⟩
  | 9, 11 => some ⟨.v, .v, .vs, true, false, false, false, false, false⟩
  | 9, 12 => some ⟨.v, .v, .vs, true, false, false, false, false, false⟩
  | 9, 13 => some ⟨.zero, .s, .sb, false, false, false, false, false, false⟩
  | 10, 0 => some ⟨.pd, .v, .vs, true, false, false, false, false, false⟩
  | 10, 1 => some ⟨.pd, .v, .vs, true, false, false, false, false, false⟩
  | 10, 2 => some ⟨.pd, .v, .vs, true, false, false, false, false, false⟩
  | 10, 3 => some ⟨.pd, .v, .vs, true, false, false, false, false, false⟩
  | 10, 4 => some ⟨.pd, .v, .vs, true, false, false, false, false, false⟩
  | 10, 5 => some ⟨.pd, .v, .vs, true, false, false, false, false, false⟩
  | 10, 6 => some ⟨.pd, .v, .vs, true, false, false, false, false, false⟩
  | 10, 7 => some ⟨.pd, .v, .vs, true, false, false, false, false, false⟩
  | 10, 8 => some ⟨.pd, .v, .vs, true, false, false, false, false, false⟩
  | 10, 9 => some ⟨.pd, .v, .vs, true, false, false, false, false, false⟩
  | 10, 10 => some ⟨.pd, .p, .p, true, false, false, false, false, false⟩
  | 10, 11 => some ⟨.pd, .p, .p, true, false, false, false, false, false⟩
  | 10, 12 => some ⟨.pd, .p, .p, true, false, false, false, false, false⟩
  | 10, 13 => some ⟨.pd, .p, .p, true, false, false, false, false, false⟩
  | 11, 0 => some ⟨.v, .s, .zero, true, false, false, false, false, false⟩
  | 11, 1 => some ⟨.s, .v, .sb, false, false, false, false, false, false⟩
  | 11, 2 => some ⟨.v, .s, .sb, false, false, false, false, false, false⟩
  | 11, 3 => some ⟨.s, .v, .zero, true, false, false, false, false, false⟩
  | 11, 4 => some ⟨.s, .p, .zero, true, false, false, false, false, false⟩
  | 11, 5 => some ⟨.pd, .s, .zero, true, false, false, false, false, false⟩
  | 11, 6 => some ⟨.kd, .p, .zero, true, false, false, false, false, false⟩
  | 11, 7 => some ⟨.kd, .p, .zero, true, false, false, false, false, false⟩
  | 11, 8 => some ⟨.zero, .p, .zero, false, false, false, false, false, false⟩
  | 11, 9 => some ⟨.s, .zero, .zero, false, false, false, false, false, false⟩
  | 11, 10 => some ⟨.zero, .s, .zero, false, false, false, false, false, false⟩
  | 11, 11 => some ⟨.v, .v, .vs, true, false, false, false, false, false⟩
  | 11, 12 => some ⟨.s, .v, .zero, true, false, false, false, false, false⟩
  | 11, 13 => some ⟨.s, .v, .zero, true, false, false, false, false, false⟩
  | 11, 14 => some ⟨.s, .v, .zero, true, false, false, false, false, false⟩
  | 11, 15 => some ⟨.v4, .v, .zero, true, false, false, false, false, false⟩
  | 12, 0 => some ⟨.v, .s, .vs, true, false, false, false, false, false⟩
  | 12, 1 => some ⟨.v, .s, .vs, true, false, false, false, false, false⟩
  | 12, 2 => some ⟨.v, .s, .vs, true, false, false, false, false, false⟩
  | 12, 3 => some ⟨.v2, .s, .vs, true, false, false, false, false, false⟩
  | 12, 4 => some ⟨.v, .s, .sb, true, false, false, false, false, false⟩
  | 12, 5 => some ⟨.v, .s, .vs, true, false, false, false, false, false⟩
  | 12, 6 => some ⟨.v, .s, .zero, true, false, false, false, false, false⟩
  | 12, 7 => some ⟨.v, .s, .zero, true, false, false, false, false, false⟩
  | 13, 0 => some ⟨.v, .s, .vs, true, false, false, false, false, false⟩
  | 13, 1 => some ⟨.v, .s, .vs, true, false, false, false, false, false⟩
  | 13, 2 => some ⟨.v, .s, .vs, true, false, false, false, false, false⟩
  | 13, 3 => some ⟨.v2, .s, .vs, true, false, false, false, false, false⟩
  | 13, 4 => some ⟨.v, .s, .sb, true, false, false, false, false, false⟩
  | 13, 5 => some ⟨.v, .s, .vs, true, false, false, false, false, false⟩
  | 13, 6 => some ⟨.v, .s, .zero, true, false, false, false, false, false⟩
  | 13, 7 => some ⟨.v, .s, .zero, true, false, false, false, false, false⟩
  | 14, 0 => some ⟨.s, .s, .off, true, false, false, false, false, false⟩
  | 14, 1 => some ⟨.s, .s, .off, true, false, false, false, false, false⟩
  | 14, 2 => some ⟨.s, .s, .off, true, false, false, false, false, false⟩
  | 14, 3 => some ⟨.s, .s, .off, true, false, false, false, false, false⟩
  | 15, 0 => some ⟨.v, .s, .vs, true, false, false, true, true, false⟩
  | 15, 1 => some ⟨.v, .s, .vs, true, false, false, true, true, false⟩
  | 15, 2 => some ⟨.v, .s, .vs, true, false, false, true, true, false⟩
  | 15, 3 => some ⟨.v, .s, .vs, true, false, false, true, true, false⟩
  | 15, 4 => some ⟨.v, .s, .vs, true, false, false, true, true, false⟩
  | 15, 5 => some ⟨.v, .s, .vs, true, false, false, true, true, false⟩
  | 15, 6 => some ⟨.v, .s, .vs, true, false, false, true, true, false⟩
  | 15, 7 => some ⟨.v2, .s, .vs, true, false, false, true, true, false⟩
  | 15, 8 => some ⟨.s, .s, .s, true, false, false, true, true, false⟩
  | 15, 9 => some ⟨.s, .s, .s, true, false, false, true, true, false⟩
  | 15, 10 => some ⟨.s, .s, .s, true, false, false, true, true, false⟩
  | 15, 11 => some ⟨.vx, .s, .vs, true, false, false, true, true, false⟩
  | 15, 12 => some ⟨.v, .s, .vs, true, false, false, true, true, false⟩
  | 18, 0 => some ⟨.zero, .s, .zero, true, false, false, false, false, false⟩
  | 18, 1 => some ⟨.zero, .s, .zero, true, false, false, false, false, false⟩
  | 18, 2 => some ⟨.zero, .zero, .zero, true, false, false, false, false, false⟩
  | 18, 3 => some ⟨.zero, .zero, .zero, true, false, false, false, false, false⟩
  | 18, 4 => some ⟨.zero, .kc, .zero, true, false, false, false, false, false⟩
  | 18, 5 => some ⟨.zero, .zero, .zero, true, false, false, false, false, false⟩
  | 19, 0 => some ⟨.zero, .zero, .zero, true, false, false, false, true, false⟩
  | 19, 1 => some ⟨.zero, .zero, .zero, true, false, false, false, true, false⟩
  | 19, 2 => some ⟨.zero, .zero, .zero, true, false, false, false, true, false⟩
  | 19, 3 => some ⟨.zero, .zero, .zero, true, false, false, false, true, false⟩
  | 19, 4 => some ⟨.s, .s, .s, true, false, false, false, true, false⟩
  | 19, 5 => some ⟨.zero, .s, .zero, true, false, false, false, false, true⟩
  | 19, 6 => some ⟨.zero, .zero, .zero, true, false, false, false, false, false⟩
  | 19, 7 => some ⟨.s, .s, .zero, true, false, false, false, true, false⟩
  | 19, 8 => some ⟨.s, .s, .zero, true, false, false, false, true, false⟩
  | 20, 0 => some ⟨.zero, .s, .zero, true, false, false, false, false, false⟩
  | 20, 1 => some ⟨.acc, .zero, .zero, true, false, false, false, false, false⟩
  | 20, 2 => some ⟨.acc, .h, .h, true, false, false, false, false, false⟩
  | 20, 3 => some ⟨.acc, .h, .h, true, false, false, false, false, false⟩
  | 20, 4 => some ⟨.t, .acc, .s, true, false, false, false, false, false⟩
  | 20, 5 => some ⟨.s, .acc, .zero, true, false, false, false, false, false⟩
  | 20, 6 => some ⟨.t, .acc, .s, true, false, false, false, false, false⟩
  | 20, 7 => some ⟨.t, .acc, .s, true, false, false, false, false, false⟩
  | 21, 0 => some ⟨.h, .s, .zero, true, false, false, false, false, false⟩
  | 21, 1 => some ⟨.h, .s, .zero, true, false, false, false, false, false⟩
  | 21, 2 => some ⟨.h, .s, .zero, true, false, false, false, false, false⟩
  | 21, 3 => some ⟨.h, .s, .zero, true, false, false, false, false, false⟩
  | 21, 4 => some ⟨.h, .s, .zero, true, false, false, false, false, false⟩
  | 21, 5 => some ⟨.s, .h, .s, true, false, false, false, false, false⟩
  | 21, 6 => some ⟨.s, .h, .s, true, false, false, false, false, false⟩
  | 21, 7 => some ⟨.h, .zero, .zero, true, false, false, false, false, false⟩
  | 22, 0 => some ⟨.t, .s, .zero, true, false, false, false, false, false⟩
  | 22, 1 => some ⟨.t, .h, .s, true, false, false, false, false, false⟩
  | 22, 2 => some ⟨.t, .s, .zero, true, false, false, false, false, false⟩
  | 22, 3 => some ⟨.t, .s, .zero, true, false, false, false, false, false⟩
  | 22, 4 => some ⟨.tmask, .tmaskHi, .zero, true, false, false, false, false, false⟩
  | 22, 5 => some ⟨.s, .t, .zero, true, false, false, false, false, false⟩
  | 22, 6 => some ⟨.s, .s, .s, true, false, false, false, false, false⟩
  | 22, 7 => some ⟨.zero, .s, .zero, true, false, false, false, false, false⟩
  | 23, 0 => some ⟨.t, .h, .s, true, false, false, false, false, false⟩
  | 23, 1 => some ⟨.zero, .t, .zero, true, false, false, false, false, false⟩
  | 23, 2 => some ⟨.s, .t, .zero, true, false, false, false, false, false⟩
  | 24, 0 => some ⟨.s, .s, .zero, true, false, false, false, false, false⟩
  | 24, 1 => some ⟨.s, .s, .zero, true, false, false, false, false, false⟩
  | 24, 2 => some ⟨.s, .s, .kd, true, false, false, false, false, false⟩
  | 24, 3 => some ⟨.s, .s, .zero, true, false, false, false, false, false⟩
  | 24, 4 => some ⟨.s, .s, .s, true, false, false, false, false, false⟩
  | 24, 5 => some ⟨.s, .zero, .zero, true, false, false, false, false, false⟩
  | 24, 6 => some ⟨.s, .s, .s, true, false, false, false, false, false⟩
  | 24, 7 => some ⟨.s, .s, .zero, true, false, false, false, false, true⟩
  | 24, 8 => some ⟨.zero, .s, .zero, true, false, false, false, false, false⟩
  | 24, 9 => some ⟨.s, .s, .zero, true, false, false, false, false, false⟩
  | 24, 10 => some ⟨.zero, .s, .zero, true, false, false, false, false, false⟩
  | 24, 11 => some ⟨.zero, .s, .zero, true, false, false, false, false, false⟩
  | 24, 12 => some ⟨.zero, .s, .zero, true, false, false, false, false, false⟩
  | 24, 13 => some ⟨.zero, .s, .zero, true, false, false, false, false, false⟩
  | 24, 14 => some ⟨.s, .s, .zero, true, false, false, false, false, false⟩
  | 24, 15 => some ⟨.s, .zero, .zero, true, false, false, false, false, false⟩
  | 25, 0 => some ⟨.zero, .s, .s, true, false, false, false, false, false⟩
  | 25, 1 => some ⟨.s, .s, .s, true, false, false, false, false, false⟩
  | 25, 2 => some ⟨.s, .s, .s, true, false, false, false, false, false⟩
  | 25, 3 => some ⟨.zero, .s, .s, true, false, false, false, false, false⟩
  | 26, 0 => some ⟨.s, .s, .zero, true, false, false, false, false, false⟩
  | 26, 1 => some ⟨.t, .s, .s, true, false, false, false, false, false⟩
  | 26, 2 => some ⟨.zero, .s, .zero, true, false, false, false, false, false⟩
  | 26, 3 => some ⟨.t, .s, .zero, true, false, false, false, false, false⟩
  | 26, 4 => some ⟨.t, .s, .zero, true, false, false, false, false, false⟩
  | 27, 0 => some ⟨.s, .zero, .sys, true, false, false, false, false, false⟩
  | 27, 1 => some ⟨.zero, .s, .sys, true, false, false, false, false, true⟩
  | 27, 2 => some ⟨.zero, .s, .zero, true, false, false, false, false, false⟩
  | 27, 3 => some ⟨.zero, .zero, .zero, true, false, false, false, false, false⟩
  | 27, 4 => some ⟨.s, .s, .s, true, false, false, false, false, false⟩
  | 27, 5 => some ⟨.s, .s, .s, true, false, false, false, false, false⟩
  | 27, 6 => some ⟨.zero, .zero, .zero, true, false, false, false, false, false⟩
  | 27, 7 => some ⟨.kd, .s, .zero, true, false, false, false, false, false⟩
  | 27, 8 => some ⟨.zero, .s, .zero, true, false, false, false, false, false⟩
  | _, _ => none

/-- The instruction that the fields of an assigned word name (R183). -/
noncomputable def build (f : Flds) : Nat → Nat → Option Instr
  | 0, 0 => some (.sadd f.g f.dS f.aS f.bS)
  | 0, 1 => some (.ssub f.g f.dS f.aS f.bS)
  | 0, 2 => some (.smul f.g f.dS f.aS f.bS)
  | 0, 3 => some (.smulh f.g f.dS f.aS f.bS)
  | 0, 4 => some (.smulhu f.g f.dS f.aS f.bS)
  | 0, 5 => some (.sdiv f.g f.dS f.aS f.bS)
  | 0, 6 => some (.sdivu f.g f.dS f.aS f.bS)
  | 0, 7 => some (.srem f.g f.dS f.aS f.bS)
  | 0, 8 => some (.sand f.g f.dS f.aS f.bS)
  | 0, 9 => some (.sor f.g f.dS f.aS f.bS)
  | 0, 10 => some (.sxor f.g f.dS f.aS f.bS)
  | 0, 11 => some (.sshl f.g f.dS f.aS f.bS)
  | 0, 12 => some (.sshr f.g f.dS f.aS f.bS)
  | 0, 13 => some (.ssar f.g f.dS f.aS f.bS)
  | 0, 14 => some (.smin f.g f.dS f.aS f.bS)
  | 0, 15 => some (.smax f.g f.dS f.aS f.bS)
  | 1, 0 => some (.smovk f.g f.dS f.kop)
  | 1, 1 => some (.saddk f.g f.dS f.aS f.kop)
  | 1, 2 => some (.sandk f.g f.dS f.aS f.kop)
  | 1, 3 => some (.sshlk f.g f.dS f.aS f.kop)
  | 2, 0 => some (.smov f.g f.dS f.aS)
  | 2, 1 => some (.snot f.g f.dS f.aS)
  | 2, 2 => some (.sneg f.g f.dS f.aS)
  | 2, 3 => some (.sabs f.g f.dS f.aS)
  | 2, 4 => some (.sclz f.g f.dS f.aS)
  | 2, 5 => some (.spopc f.g f.dS f.aS)
  | 2, 6 => some (.ssx32 f.g f.dS f.aS)
  | 2, 7 => some (.szx32 f.g f.dS f.aS)
  | 2, 8 => some (.sbrev f.g f.dS f.aS)
  | 3, 0 => some (.scmpeq f.g f.dK f.aS f.bS)
  | 3, 1 => some (.scmpne f.g f.dK f.aS f.bS)
  | 3, 2 => some (.scmplt f.g f.dK f.aS f.bS)
  | 3, 3 => some (.scmple f.g f.dK f.aS f.bS)
  | 3, 4 => some (.scmpltu f.g f.dK f.aS f.bS)
  | 3, 5 => some (.scmpleu f.g f.dK f.aS f.bS)
  | 3, 6 => some (.kand f.g f.dK f.aK f.bK)
  | 3, 7 => some (.kor f.g f.dK f.aK f.bK)
  | 3, 8 => some (.kxor f.g f.dK f.aK f.bK)
  | 3, 9 => some (.kandn f.g f.dK f.aK f.bK)
  | 4, 0 => some (.vadd f.g f.dV f.aV f.bVS f.sat)
  | 4, 1 => some (.vsub f.g f.dV f.aV f.bVS f.sat)
  | 4, 2 => some (.vmul f.g f.dV f.aV f.bVS)
  | 4, 3 => some (.vmulh f.g f.dV f.aV f.bVS)
  | 4, 4 => some (.vmulhu f.g f.dV f.aV f.bVS)
  | 4, 5 => some (.vmad f.g f.dV f.aV f.bVS)
  | 4, 6 => some (.vand f.g f.dV f.aV f.bVS)
  | 4, 7 => some (.vor f.g f.dV f.aV f.bVS)
  | 4, 8 => some (.vxor f.g f.dV f.aV f.bVS)
  | 4, 9 => some (.vshl f.g f.dV f.aV f.bVS)
  | 4, 10 => some (.vshr f.g f.dV f.aV f.bVS)
  | 4, 11 => some (.vsar f.g f.dV f.aV f.bVS)
  | 4, 12 => some (.vmin f.g f.dV f.aV f.bVS)
  | 4, 13 => some (.vmax f.g f.dV f.aV f.bVS)
  | 4, 14 => some (.vminu f.g f.dV f.aV f.bVS)
  | 4, 15 => some (.vmaxu f.g f.dV f.aV f.bVS)
  | 5, 0 => some (.vmovk f.g f.dV f.kop)
  | 5, 1 => some (.vaddk f.g f.dV f.aV f.kop f.sat)
  | 5, 2 => some (.vandk f.g f.dV f.aV f.kop)
  | 5, 3 => some (.vshlk f.g f.dV f.aV f.kop)
  | 6, 0 => some (.vfadd f.g f.dV f.aV f.bVS f.rnd)
  | 6, 1 => some (.vfsub f.g f.dV f.aV f.bVS f.rnd)
  | 6, 2 => some (.vfmul f.g f.dV f.aV f.bVS f.rnd)
  | 6, 3 => some (.vfma f.g f.dV f.aV f.bVS f.rnd)
  | 6, 4 => some (.vfms f.g f.dV f.aV f.bVS f.rnd)
  | 6, 5 => some (.vfnma f.g f.dV f.aV f.bVS f.rnd)
  | 6, 6 => some (.vfmin f.g f.dV f.aV f.bVS)
  | 6, 7 => some (.vfmax f.g f.dV f.aV f.bVS)
  | 6, 8 => some (.vfdiv f.g f.dV f.aV f.bVS f.rnd)
  | 6, 9 => some (.vfcpys f.g f.dV f.aV f.bVS)
  | 7, 0 => some (.vhaddf f.g f.dV f.aV f.bVS f.rnd)
  | 7, 1 => some (.vhmulf f.g f.dV f.aV f.bVS f.rnd)
  | 7, 2 => some (.vhfmaf f.g f.dV f.aV f.bVS f.rnd)
  | 7, 3 => some (.vhminf f.g f.dV f.aV f.bVS)
  | 7, 4 => some (.vhmaxf f.g f.dV f.aV f.bVS)
  | 7, 5 => some (.vhaddb f.g f.dV f.aV f.bVS f.rnd)
  | 7, 6 => some (.vhmulb f.g f.dV f.aV f.bVS f.rnd)
  | 7, 7 => some (.vhfmab f.g f.dV f.aV f.bVS f.rnd)
  | 7, 8 => some (.vhminb f.g f.dV f.aV f.bVS)
  | 7, 9 => some (.vhmaxb f.g f.dV f.aV f.bVS)
  | 7, 10 => some (.vdot2f f.g f.dV f.aV f.bVS f.rnd)
  | 7, 11 => some (.vdot2b f.g f.dV f.aV f.bVS f.rnd)
  | 7, 12 => some (.vdot4i f.g f.dV f.aV f.bVS f.sat)
  | 8, 0 => some (.vfabs f.g f.dV f.aV)
  | 8, 1 => some (.vfneg f.g f.dV f.aV)
  | 8, 2 => some (.vfsqrt f.g f.dV f.aV f.rnd)
  | 8, 3 => some (.vfrsq f.g f.dV f.aV)
  | 8, 4 => some (.vfrcp f.g f.dV f.aV)
  | 8, 5 => some (.vfexp2 f.g f.dV f.aV)
  | 8, 6 => some (.vflog2 f.g f.dV f.aV)
  | 8, 7 => some (.vffloor f.g f.dV f.aV)
  | 8, 8 => some (.vfceil f.g f.dV f.aV)
  | 8, 9 => some (.vfrint f.g f.dV f.aV f.rnd)
  | 8, 10 => some (.vftrunc f.g f.dV f.aV)
  | 8, 11 => some (.vfclass f.g f.dV f.aV)
  | 8, 12 => some (.vftanh f.g f.dV f.aV)
  | 9, 0 => some (.vcvtfi f.g f.dV f.aV f.rnd)
  | 9, 1 => some (.vcvtif f.g f.dV f.aV f.rnd)
  | 9, 2 => some (.vcvtfu f.g f.dV f.aV f.rnd)
  | 9, 3 => some (.vcvtuf f.g f.dV f.aV f.rnd)
  | 9, 4 => some (.vcvtfh f.g f.dV f.aV f.bV f.rnd f.sat)
  | 9, 5 => some (.vcvthf f.g f.dV f.aV)
  | 9, 6 => some (.vcvtfb f.g f.dV f.aV f.bV f.rnd f.sat)
  | 9, 7 => some (.vcvtbf f.g f.dV f.aV)
  | 9, 8 => some (.vqnt f.g f.dV f.aV f.bVS)
  | 9, 9 => some (.vdqnt f.g f.dV f.aV f.bVS)
  | 9, 10 => some (.vdgen f.g f.dV f.bVS)
  | 9, 11 => some (.vpack8 f.g f.dV f.aV f.bVS)
  | 9, 12 => some (.vunpk8 f.g f.dV f.aV f.bVS)
  | 9, 13 => some (.vqcfg f.aS f.bS)
  | 10, 0 => some (.vcmpeq f.g f.dP f.aV f.bVS)
  | 10, 1 => some (.vcmpne f.g f.dP f.aV f.bVS)
  | 10, 2 => some (.vcmplt f.g f.dP f.aV f.bVS)
  | 10, 3 => some (.vcmple f.g f.dP f.aV f.bVS)
  | 10, 4 => some (.vcmpltu f.g f.dP f.aV f.bVS)
  | 10, 5 => some (.vcmpleu f.g f.dP f.aV f.bVS)
  | 10, 6 => some (.vfcmpeq f.g f.dP f.aV f.bVS)
  | 10, 7 => some (.vfcmplt f.g f.dP f.aV f.bVS)
  | 10, 8 => some (.vfcmple f.g f.dP f.aV f.bVS)
  | 10, 9 => some (.vfcmpun f.g f.dP f.aV f.bVS)
  | 10, 10 => some (.pand f.g f.dP f.aP f.bP)
  | 10, 11 => some (.por f.g f.dP f.aP f.bP)
  | 10, 12 => some (.pxor f.g f.dP f.aP f.bP)
  | 10, 13 => some (.pandn f.g f.dP f.aP f.bP)
  | 11, 0 => some (.vbcst f.g f.dV f.aS)
  | 11, 1 => some (.vrdln f.dS f.aV f.bS)
  | 11, 2 => some (.vwrln f.dV f.aS f.bS)
  | 11, 3 => some (.vfirst f.g f.dS f.aV)
  | 11, 4 => some (.vballot f.g f.dS f.aP)
  | 11, 5 => some (.pfroms f.g f.dP f.aS)
  | 11, 6 => some (.panyk f.g f.dK f.aP)
  | 11, 7 => some (.pallk f.g f.dK f.aP)
  | 11, 8 => some (.xset f.aP)
  | 11, 9 => some (.xsave f.dS)
  | 11, 10 => some (.xrest f.aS)
  | 11, 11 => some (.vshfl f.g f.dV f.aV f.bVS)
  | 11, 12 => some (.vredai f.g f.dS f.aV)
  | 11, 13 => some (.vredaf f.g f.dS f.aV)
  | 11, 14 => some (.vredmx f.g f.dS f.aV)
  | 11, 15 => some (.vxacc f.g f.dV f.aV)
  | 12, 0 => some (.vldw f.g f.dV f.aS f.bVS)
  | 12, 1 => some (.vldh f.g f.dV f.aS f.bVS)
  | 12, 2 => some (.vldb f.g f.dV f.aS f.bVS)
  | 12, 3 => some (.vldd f.g f.dV f.aS f.bVS)
  | 12, 4 => some (.vldsw f.g f.dV f.aS f.bS)
  | 12, 5 => some (.vldq f.g f.dV f.aS f.bVS)
  | 12, 6 => some (.vldc f.g f.dV f.aS)
  | 12, 7 => some (.vldsc f.g f.dV f.aS)
  | 13, 0 => some (.vstw f.g f.dV f.aS f.bVS)
  | 13, 1 => some (.vsth f.g f.dV f.aS f.bVS)
  | 13, 2 => some (.vstb f.g f.dV f.aS f.bVS)
  | 13, 3 => some (.vstd f.g f.dV f.aS f.bVS)
  | 13, 4 => some (.vstsw f.g f.dV f.aS f.bS)
  | 13, 5 => some (.vstq f.g f.dV f.aS f.bVS)
  | 13, 6 => some (.vstc f.g f.dV f.aS)
  | 13, 7 => some (.vstsc f.g f.dV f.aS)
  | 14, 0 => some (.sld f.g f.dS f.aS f.off)
  | 14, 1 => some (.sst f.g f.dS f.aS f.off)
  | 14, 2 => some (.slds f.g f.dS f.aS f.off)
  | 14, 3 => some (.ssts f.g f.dS f.aS f.off)
  | 15, 0 => some (.vatadd f.g f.dV f.aS f.bVS f.nr f.sc)
  | 15, 1 => some (.vatmin f.g f.dV f.aS f.bVS f.nr f.sc)
  | 15, 2 => some (.vatmax f.g f.dV f.aS f.bVS f.nr f.sc)
  | 15, 3 => some (.vatand f.g f.dV f.aS f.bVS f.nr f.sc)
  | 15, 4 => some (.vator f.g f.dV f.aS f.bVS f.nr f.sc)
  | 15, 5 => some (.vatxor f.g f.dV f.aS f.bVS f.nr f.sc)
  | 15, 6 => some (.vatxch f.g f.dV f.aS f.bVS f.nr f.sc)
  | 15, 7 => some (.vatcas f.g f.dV f.aS f.bVS f.nr f.sc)
  | 15, 8 => some (.satadd f.g f.dS f.aS f.bS f.nr f.sc)
  | 15, 9 => some (.satcas f.g f.dS f.aS f.bS f.nr f.sc)
  | 15, 10 => some (.satxch f.g f.dS f.aS f.bS f.nr f.sc)
  | 15, 11 => some (.vxadd f.g f.dV f.aS f.bVS f.nr f.sc)
  | 15, 12 => some (.vfatadd f.g f.dV f.aS f.bVS f.nr f.sc)
  | 18, 0 => some (.jmpr f.g f.aS)
  | 18, 1 => some (.callr f.g f.aS)
  | 18, 2 => some (.ret f.g)
  | 18, 3 => some (.nop f.g)
  | 18, 4 => some (.waitk f.g f.aK)
  | 18, 5 => some (.brk f.g)
  | 19, 0 => some (.fence f.g f.sc)
  | 19, 1 => some (.fenceacq f.g f.sc)
  | 19, 2 => some (.fencerel f.g f.sc)
  | 19, 3 => some (.bar f.g f.sc)
  | 19, 4 => some (.waitv f.g f.dS f.aS f.bS f.sc)
  | 19, 5 => some (if f.deep then .descinvDeep f.g else .descinv f.g f.aS)
  | 19, 6 => some (.logwait f.g)
  | 19, 7 => some (.sldacq f.g f.dS f.aS f.sc)
  | 19, 8 => some (.sstrel f.g f.dS f.aS f.sc)
  | 20, 0 => some (.mcfg f.g f.aS)
  | 20, 1 => some (.mzero f.g f.dA)
  | 20, 2 => some (.mma f.g f.dA f.aH f.bH)
  | 20, 3 => some (.mmas f.g f.dA f.aH f.bH)
  | 20, 4 => some (.mdrain f.g f.dT f.aA f.bS)
  | 20, 5 => some (.mstat f.g f.dS f.aA)
  | 20, 6 => some (.msave f.g f.dT f.aA f.bS)
  | 20, 7 => some (.mload f.g f.dT f.aA f.bS)
  | 21, 0 => some (.rdef f.g f.dH f.aS)
  | 21, 1 => some (.rwfull f.g f.dH f.aS)
  | 21, 2 => some (.rwfree f.g f.dH f.aS)
  | 21, 3 => some (.radvp f.g f.dH f.aS)
  | 21, 4 => some (.radvc f.g f.dH f.aS)
  | 21, 5 => some (.rslot f.g f.dS f.aH f.bS)
  | 21, 6 => some (.rslotc f.g f.dS f.aH f.bS)
  | 21, 7 => some (.rundef f.g f.dH)
  | 22, 0 => some (.cpy f.g f.dT f.aS)
  | 22, 1 => some (.cpyr f.g f.dT f.aH f.bS)
  | 22, 2 => some (.cpyt f.g f.dT f.aS)
  | 22, 3 => some (.cpyrd f.g f.dT f.aS)
  | 22, 4 => some (.waitt f.g f.tm)
  | 22, 5 => some (.tokrd f.g f.dS f.aT)
  | 22, 6 => some (.cqpush f.g f.dS f.aS f.bS)
  | 22, 7 => some (.cqkick f.g f.aS)
  | 23, 0 => some (.gstart f.g f.dT f.aH f.bS)
  | 23, 1 => some (.gstop f.g f.aT)
  | 23, 2 => some (.gstat f.g f.dS f.aT)
  | 24, 0 => some (.spawn f.g f.dS f.aS)
  | 24, 1 => some (.touch f.g f.dS f.aS)
  | 24, 2 => some (.touchc f.g f.dS f.aS f.bK)
  | 24, 3 => some (.poll f.g f.dS f.aS)
  | 24, 4 => some (.resolve f.g f.dS f.aS f.bS)
  | 24, 5 => some (.fnew f.g f.dS)
  | 24, 6 => some (.ffault f.g f.dS f.aS f.bS)
  | 24, 7 => some (if f.deep then .cancelDeep f.g f.dS f.aS else .cancel f.g f.dS f.aS)
  | 24, 8 => some (.release f.g f.aS)
  | 24, 9 => some (.scopeo f.g f.dS f.aS)
  | 24, 10 => some (.scopec f.g f.aS)
  | 24, 11 => some (.scopew f.g f.aS)
  | 24, 12 => some (.retire f.g f.aS)
  | 24, 13 => some (.yield f.g f.aS)
  | 24, 14 => some (.prio f.g f.dS f.aS)
  | 24, 15 => some (.self f.g f.dS)
  | 25, 0 => some (.send f.g f.aS f.bS)
  | 25, 1 => some (.sendr f.g f.dS f.aS f.bS)
  | 25, 2 => some (.recv f.g f.dS f.aS f.bS)
  | 25, 3 => some (.htwr f.g f.aS f.bS)
  | 26, 0 => some (.bqclaim f.g f.dS f.aS)
  | 26, 1 => some (.baddq f.g f.dT f.aS f.bS)
  | 26, 2 => some (.bqdone f.g f.aS)
  | 26, 3 => some (.topkc f.g f.dT f.aS)
  | 26, 4 => some (.topkr f.g f.dT f.aS)
  | 27, 0 => some (.srd f.g f.dS f.sys)
  | 27, 1 => some (if f.deep then .swrDeep f.g f.aS f.cwn else .swr f.g f.aS f.sys)
  | 27, 2 => some (.trap f.g f.aS)
  | 27, 3 => some (.tret f.g)
  | 27, 4 => some (.csave f.g f.dS f.aS f.bS)
  | 27, 5 => some (.crest f.g f.dS f.aS f.bS)
  | 27, 6 => some (.halt f.g)
  | 27, 7 => some (.pchk f.g f.dK f.aS)
  | 27, 8 => some (.replay f.g f.aS)
  | _, _ => none

/-- Majors of format X, whose minor code is SUB, and of the formats with two MIN bits (R171, R183). -/
def isX (maj : Nat) : Bool := maj == 2 || maj == 8
def isKM (maj : Nat) : Bool := maj == 1 || maj == 5 || maj == 14
def isJ (maj : Nat) : Bool := maj == 16 || maj == 17

/-- The minor code of a word in its major's format (R171). -/
def Flds.minor (f : Flds) : Nat := if isX f.maj then f.bN else if isKM f.maj then f.minK else f.minR

def Opd.isVec : Opd → Bool
  | .v | .v2 | .v4 | .vx | .vs => true
  | _ => false

/-- Whether the form accepts every non-zero field of the WIDE prefix (R177). -/
def Form.accepts (m : Form) (f : Flds) : Bool :=
  (f.dhi == 0 || m.d.isVec) && (f.ahi == 0 || m.a.isVec) &&
  (f.bhi == 0 || (m.b.isVec && !f.bscal) || (m.b == .sys && m.deep && f.deep)) &&
  (f.scN == 0 || m.scope) && (f.rndN == 0 || m.rnd) && (!f.sat || m.sat) && (!f.nr || m.nr) &&
  (!f.bscal || m.b == .vs || m.b == .sb) && f.width == 0 && (!f.deep || m.deep)

/-- The ILLEGAL reason of one register field, by its number n and its number widened by WIDE (R172, R192, R199, R201). -/
def Opd.bad (nr : Bool) (n full : Nat) : Opd → Option Nat
  | .zero => if n = 0 then none else some 4
  | .tmaskHi => if n < 4 then none else some 4
  | .p => if n < 8 then none else some 5
  | .pd => if 0 < n ∧ n < 8 then none else some 5
  | .k => if n < 16 then none else some 5
  | .kd => if 0 < n ∧ n < 8 then none else some 5
  | .kc => if 8 ≤ n ∧ n < 16 then none else some 5
  | .h => if n < 16 then none else some 5
  | .t => if n < 8 then none else some 5
  | .acc => if n < 2 then none else some 5
  | .v2 => if full % 2 = 0 then none else some 5
  | .v4 => if full % 4 = 0 then none else some 5
  | .vx => if nr ∨ full % 4 = 0 then none else some 5
  | _ => none

/-- System registers with no number (R314), those the user mode may not reach, and those that a mode may write (R315). -/
def sysUnknown (n : Nat) : Bool := n == 30 || n == 31 || 34 ≤ n
def sysHidden (n : Nat) : Bool := n == 23 || n == 26
def sysWritable (super : Bool) (n : Nat) : Bool :=
  n == 7 || n == 10 || (14 ≤ n && n ≤ 19) || n == 27 || n == 32 || (super && (n == 23 || n == 25))

/-- The lower of two reasons, when either fails: reason 4 is found before reason 5 (R187). -/
def firstReason (l : List (Option Nat)) : Option Nat :=
  if some 4 ∈ l then some 4 else if some 5 ∈ l then some 5 else none

/-- ILLEGAL reasons 4 and 5 of an assigned word (R171, R172, R188, R314). VQCFG without BSCAL has reason 5, as VRDLN and VWRLN have
(log 122). -/
def Form.illegal (m : Form) (e : DecEnv) (f : Flds) : Option Nat :=
  firstReason [
    if isX f.maj && f.minR != 0 then some 4 else none,
    if !m.guard && f.gN != 0 then some 4 else none,
    m.d.bad f.nr f.dN (64 * f.dhi + f.dN),
    if m.deep && f.deep && m.b != .sys && f.maj == 19 then (if f.aN = 0 then none else some 4) else m.a.bad f.nr f.aN f.aN,
    if isX f.maj || isKM f.maj then none else m.b.bad f.nr f.bN f.bN,
    if m.b == .sb && !f.bscal then some 5 else none,
    if f.maj == 15 && (f.minR == 8 || f.minR == 10) && f.nr && f.dN != 0 then some 5 else none,
    if m.b == .sys && !f.deep && (sysUnknown f.bN ||
        (f.minR == 1 && !sysWritable e.super f.bN && (e.super || !sysHidden f.bN))) then some 4 else none ]

/-- Words reserved to the supervisor (R184, R199, R325). -/
def Form.priv (m : Form) (e : DecEnv) (f : Flds) : Bool :=
  !e.super && (
    (f.maj == 18 && f.minR == 4 && (f.aN == 13 || f.aN == 15)) ||
    (f.maj == 27 && (f.minR == 4 || f.minR == 5 || f.minR == 6 || f.minR == 8)) ||
    (m.b == .sys && ((f.deep && 224 ≤ 64 * f.bhi + f.bN) || (!f.deep && sysHidden f.bN))))

/-- The first vector register of n, n + 1, … that lies beyond the allocation (R33). -/
def vOut (vregs n cnt : Nat) : Option Nat := if n + cnt ≤ vregs then none else some (max n vregs)

/-- A uniform register beyond the allocation; s62 and s63 are always allocated (R33). -/
def uOut (uregs n : Nat) : Option Nat := if uregs ≤ n ∧ n < 62 then some n else none

/-- REGRANGE of one field: file and register number (R33, R329). -/
def Opd.out (e : DecEnv) (nr bscal : Bool) (n full : Nat) : Opd → Option (Nat × Nat)
  | .s | .sb => (uOut e.uregs n).map (1, ·)
  | .v => (vOut e.vregs full 1).map (0, ·)
  | .v2 => (vOut e.vregs full 2).map (0, ·)
  | .v4 => (vOut e.vregs full 4).map (0, ·)
  | .vx => (vOut e.vregs full (if nr then 1 else 4)).map (0, ·)
  | .vs => if bscal then (uOut e.uregs n).map (1, ·) else (vOut e.vregs full 1).map (0, ·)
  | _ => none

/-- The first register beyond the allocation, in the order D, A, B (log 11). -/
def Form.regRange (m : Form) (e : DecEnv) (f : Flds) : Option (Nat × Nat) :=
  (m.d.out e f.nr f.bscal f.dN (64 * f.dhi + f.dN)).or
    ((m.a.out e f.nr f.bscal f.aN (64 * f.ahi + f.aN)).or (m.b.out e f.nr f.bscal f.bN (64 * f.bhi + f.bN)))

/-- A 32-bit word from the head of the stream (R167). -/
def word32 : List Half → Option (Nat × List Half)
  | a :: b :: r => some (a.toNat + 65536 * b.toNat, r)
  | _ => none

/-- An ILLEGAL trap as the instruction that raises it (R188). -/
noncomputable def illegalRes (reason w len : Nat) : DecRes := .ok (.illegalEncoding (Fin.ofNat 16 reason) (BitVec.ofNat 32 w)) len none

/-- A mask word is well formed (R180, R181). -/
def maskOk (w : Nat) : Bool := w % 128 == 59 && w / 536870912 == 0

/-- What follows a word: no mask word, a valid one, an invalid one, or too few halfwords (R168, R181). -/
inductive MaskRes where
  | ok (len : Nat) (mask : Option W32)
  | bad (w : Nat)
  | short

/-- The mask word after a word with SP set. -/
def maskOf (sp : Bool) (r : List Half) : MaskRes :=
  if sp then
    match word32 r with
    | none => .short
    | some (mw, _) => if maskOk mw then .ok 4 (some (BitVec.ofNat 32 mw)) else .bad mw
  else .ok 0 none

/-- PRIV and REGRANGE, tested after every ILLEGAL check (R186). -/
def lateTrap (e : DecEnv) (f : Flds) : Option Form → Option (Nat × W64)
  | none => none
  | some m =>
    if m.priv e f then some (3, 0)
    else (m.regRange e f).map (fun q => (4, BitVec.ofNat 64 (q.1 * 256 + q.2)))

/-- The end of decoding once reasons 1 to 5 are passed: mask word, PRIV, REGRANGE. -/
noncomputable def finish (e : DecEnv) (f : Flds) (m : Option Form) (i : Instr) (len : Nat) (r : List Half) : DecRes :=
  match maskOf f.sp r with
  | .short => .short
  | .bad mw => illegalRes 6 mw len
  | .ok n mask => match lateTrap e f m with
    | some (c, info) => .trap c info
    | none => .ok i (len + n) mask

/-- check_word of R179: reason 8 first (R10), then the other ILLEGAL reasons, PRIV and REGRANGE (R186). -/
noncomputable def checkWord (e : DecEnv) (f : Flds) (len : Nat) (r : List Half) : DecRes :=
  if (e.gateway && (f.maj == 20 || f.maj == 23)) || (!e.gateway && f.maj == 26) then illegalRes 8 f.w len
  else if f.maj = 28 then illegalRes 1 f.w len
  else if f.maj = 29 then illegalRes 2 f.w len
  else if isJ f.maj then
    let c : KReg := Fin.ofNat 16 (f.w / 128 % 16)
    let cn := f.w / 2048 % 2 == 1
    let o := BitVec.ofNat 20 (f.w / 4096)
    finish e f none (if f.maj = 16 then .br c cn o else .call c cn o) len r
  else match form f.maj f.minor, build f f.maj f.minor with
    | some m, some i =>
      match m.illegal e f with
      | some reason => illegalRes reason f.w len
      | none => finish e f (some m) i len r
    | _, _ => illegalRes 3 f.w len

/-- A word is assigned when it is J format or its minor code is (R178, R183). -/
def assigned (f : Flds) : Bool := isJ f.maj || (form f.maj f.minor).isSome

/-- A compact instruction (R185), and the registers it names, for REGRANGE. -/
noncomputable def compactInstr (h : Nat) : Option (Instr × List (Nat × Nat)) :=
  let cop := h / 2 % 16
  let d := h / 32 % 16
  let a := h / 512 % 16
  let b := h / 8192 % 8
  let dC : CReg := Fin.ofNat 16 d
  let aC : CReg := Fin.ofNat 16 a
  let b8 : Fin 8 := Fin.ofNat 8 b
  let n := BitVec.ofNat 3 b
  match cop with
  | 0 => if d = 0 ∧ a = 0 ∧ b = 0 then some (.cNop, []) else none
  | 1 => if b = 0 then some (.cSmov dC aC, [(1, d), (1, a)]) else none
  | 2 => some (.cSadd dC aC b8, [(1, d), (1, a), (1, b)])
  | 3 => some (.cSaddi dC aC n, [(1, d), (1, a)])
  | 4 => if b = 0 then some (.cVmov dC aC, [(0, d), (0, a)]) else none
  | 5 => some (.cVadd dC aC b8, [(0, d), (0, a), (0, b)])
  | 6 => some (.cVfadd dC aC b8, [(0, d), (0, a), (0, b)])
  | 7 => some (.cVfma dC aC b8, [(0, d), (0, a), (0, b)])
  | 8 => some (.cVfmul dC aC b8, [(0, d), (0, a), (0, b)])
  | 9 => some (.cSld dC aC n, [(1, d), (1, a)])
  | 10 => some (.cSst dC aC n, [(1, d), (1, a)])
  | 11 => if d = 0 ∧ a = 0 ∧ b = 0 then some (.cRet, []) else none
  | 12 => if b = 0 then some (.cTouch dC aC, [(1, d), (1, a)]) else none
  | 13 => if b = 0 then some (.cWaitt (BitVec.ofNat 8 (h / 32 % 256)), []) else none
  | 14 => if a = 0 then some (.cRadvc dC n, []) else none
  | _ => none

/-- The first named register beyond the allocation. -/
def regsOut (e : DecEnv) : List (Nat × Nat) → Option (Nat × Nat)
  | [] => none
  | (file, n) :: r =>
    if (if file = 0 then (vOut e.vregs n 1).isSome else (uOut e.uregs n).isSome) then some (file, n) else regsOut e r

/-- decode_compact of R179. -/
noncomputable def decodeCompact (e : DecEnv) (h : Nat) : DecRes :=
  match compactInstr h with
  | none => illegalRes 7 h 2
  | some (i, regs) => match regsOut e regs with
    | some (file, n) => .trap 4 (BitVec.ofNat 64 (file * 256 + n))
    | none => .ok i 2 none

/-- The checks on prefixes that stand before a 32-bit word, then the word itself (R178, R179). -/
noncomputable def decodeMain (e : DecEnv) (imm wide : Option Nat) (w len : Nat) (r : List Half) : DecRes :=
  let f : Flds := ⟨w, wide, imm⟩
  if imm.isSome || wide.isSome then
    if isJ f.maj then .trap 2 (reasonInfo 3 w)
    else if !assigned f then .trap 2 (reasonInfo 4 w)
    else if imm.isSome && !isKM f.maj then .trap 2 (reasonInfo 4 w)
    else match form f.maj f.minor with
      | some m => if m.accepts f then checkWord e f len r else .trap 2 (reasonInfo 5 f.wideN)
      | none => .trap 2 (reasonInfo 4 w)
  else checkWord e f len r

/-- decode_group of R179: at most one prefix of each kind, so three turns of the loop reach the instruction. -/
noncomputable def decodeLoop (e : DecEnv) : Nat → Option Nat → Option Nat → Option Nat → Nat → List Half → DecRes
  | 0, _, _, _, _, _ => .short
  | fuel + 1, imm, wide, first, len, hs =>
    match hs with
    | [] => .short
    | h :: _ =>
      if h.toNat % 2 = 0 then
        match first with
        | some p => .trap 2 (reasonInfo 2 p)
        | none => decodeCompact e h.toNat
      else match word32 hs with
        | none => .short
        | some (w, r) =>
          if w / 2 % 32 = 30 then
            if imm.isSome then .trap 2 (reasonInfo 1 w)
            else if w / 64 % 4 ≠ 0 then .trap 2 (reasonInfo 6 w)
            else decodeLoop e fuel (some w) wide (first.or (some w)) (len + 4) r
          else if w / 2 % 32 = 31 then
            if wide.isSome then .trap 2 (reasonInfo 1 w)
            else if w / 64 % 2 ≠ 0 ∨ w / 33554432 ≠ 0 ∨ w / 8388608 % 2 = 1 then .trap 2 (reasonInfo 6 w)
            else decodeLoop e fuel imm (some w) (first.or (some w)) (len + 4) r
          else decodeMain e imm wide w (len + 4) r

/-- Decode the group at the head of a halfword stream (R179). -/
noncomputable def decode (e : DecEnv) (hs : List Half) : DecRes := decodeLoop e 4 none none none 0 hs

/-- Format R and X words (R171): for X the minor code 0 and SUB in B. -/
def wordR (maj mi b a d g : Nat) : Nat :=
  268435456 * mi + 4194304 * b + 65536 * a + 1024 * d + 128 * g + 2 * maj + 1

/-- Format K and M words (R171). -/
def wordK (maj mi k8 a d g : Nat) : Nat :=
  1073741824 * mi + 4194304 * k8 + 65536 * a + 1024 * d + 128 * g + 2 * maj + 1

/-- Format J words (R171). -/
def wordJ (maj off : Nat) (cn : Bool) (c : Nat) : Nat := 4096 * off + (if cn then 2048 else 0) + 128 * c + 2 * maj + 1

/-- The fields of a WIDE prefix (R176). -/
structure WideF where
  deep : Bool := false
  bscal : Bool := false
  nr : Bool := false
  sat : Bool := false
  rnd : Nat := 0
  scope : Scope := .dflt
  bhi : Nat := 0
  ahi : Nat := 0
  dhi : Nat := 0

def scopeCode : Scope → Nat
  | .tg => 0 | .task => 1 | .core => 2 | .cluster => 3 | .die => 4 | .device => 5 | .system => 6 | .dflt => 7

def rndCode : Rnd → Nat
  | .rne => 0 | .rz => 1 | .rup => 2 | .rdn => 3

/-- Bits of a WIDE prefix beside SCOPE. -/
def WideF.bits (x : WideF) : Nat :=
  (if x.deep then 16777216 else 0) + (if x.bscal then 1048576 else 0) + (if x.nr then 524288 else 0) +
  (if x.sat then 262144 else 0) + 65536 * x.rnd + 2048 * x.bhi + 512 * x.ahi + 128 * x.dhi

def halves (w : Nat) : List Half := [BitVec.ofNat 16 w, BitVec.ofNat 16 (w / 65536)]

/-- A group from its prefixes and its word; WIDE stands only where a field of it is not the default. hasScope says that the form
accepts SCOPE, whose default is code 7 (R176). -/
def groupS (hasScope : Bool) (imm : Option Nat) (x : WideF) (w : Nat) : List Half :=
  (match imm with | some n => halves (256 * n + 61) | none => []) ++
  (if x.bits = 0 ∧ x.scope = .dflt then []
   else halves (x.bits + (if hasScope then 8192 * scopeCode x.scope else 0) + 63)) ++
  halves w

def group (imm : Option Nat) (x : WideF) (w : Nat) : List Half := groupS false imm x w
def groupSc (imm : Option Nat) (x : WideF) (w : Nat) : List Half := groupS true imm x w

def compact (cop d a b : Nat) : Half := BitVec.ofNat 16 (8192 * b + 512 * a + 32 * d + 2 * cop)

def VSrc.field : VSrc → Nat
  | .v r => r.val % 64
  | .s r => r.val
def VSrc.hi : VSrc → Nat
  | .v r => r.val / 64
  | .s _ => 0
def VSrc.bscal : VSrc → Bool
  | .v _ => false
  | .s _ => true
def KOp.low : KOp → Nat
  | .imm n => n.toNat % 256
  | .cw n => n.toNat
def KOp.pay : KOp → Option Nat
  | .imm n => some (n.toNat / 256)
  | .cw _ => none
def MOff.low : MOff → Nat
  | .long n => n.toNat % 256
  | .short n => n.toNat
def MOff.pay : MOff → Option Nat
  | .long n => some (n.toNat / 256)
  | .short _ => none

/-- The halfwords of an instruction of the map (R183, R185); none for an agent's step, which has no encoding. -/
def encode : Instr → Option (List Half)
  | .sadd g d a b => some (group none {} (wordR 0 0 b.val a.val d.val g.val))
  | .ssub g d a b => some (group none {} (wordR 0 1 b.val a.val d.val g.val))
  | .smul g d a b => some (group none {} (wordR 0 2 b.val a.val d.val g.val))
  | .smulh g d a b => some (group none {} (wordR 0 3 b.val a.val d.val g.val))
  | .smulhu g d a b => some (group none {} (wordR 0 4 b.val a.val d.val g.val))
  | .sdiv g d a b => some (group none {} (wordR 0 5 b.val a.val d.val g.val))
  | .sdivu g d a b => some (group none {} (wordR 0 6 b.val a.val d.val g.val))
  | .srem g d a b => some (group none {} (wordR 0 7 b.val a.val d.val g.val))
  | .sand g d a b => some (group none {} (wordR 0 8 b.val a.val d.val g.val))
  | .sor g d a b => some (group none {} (wordR 0 9 b.val a.val d.val g.val))
  | .sxor g d a b => some (group none {} (wordR 0 10 b.val a.val d.val g.val))
  | .sshl g d a b => some (group none {} (wordR 0 11 b.val a.val d.val g.val))
  | .sshr g d a b => some (group none {} (wordR 0 12 b.val a.val d.val g.val))
  | .ssar g d a b => some (group none {} (wordR 0 13 b.val a.val d.val g.val))
  | .smin g d a b => some (group none {} (wordR 0 14 b.val a.val d.val g.val))
  | .smax g d a b => some (group none {} (wordR 0 15 b.val a.val d.val g.val))
  | .smovk g d k => some (group k.pay {} (wordK 1 0 k.low 0 d.val g.val))
  | .saddk g d a k => some (group k.pay {} (wordK 1 1 k.low a.val d.val g.val))
  | .sandk g d a k => some (group k.pay {} (wordK 1 2 k.low a.val d.val g.val))
  | .sshlk g d a k => some (group k.pay {} (wordK 1 3 k.low a.val d.val g.val))
  | .smov g d a => some (group none {} (wordR 2 0 0 a.val d.val g.val))
  | .snot g d a => some (group none {} (wordR 2 0 1 a.val d.val g.val))
  | .sneg g d a => some (group none {} (wordR 2 0 2 a.val d.val g.val))
  | .sabs g d a => some (group none {} (wordR 2 0 3 a.val d.val g.val))
  | .sclz g d a => some (group none {} (wordR 2 0 4 a.val d.val g.val))
  | .spopc g d a => some (group none {} (wordR 2 0 5 a.val d.val g.val))
  | .ssx32 g d a => some (group none {} (wordR 2 0 6 a.val d.val g.val))
  | .szx32 g d a => some (group none {} (wordR 2 0 7 a.val d.val g.val))
  | .sbrev g d a => some (group none {} (wordR 2 0 8 a.val d.val g.val))
  | .scmpeq g d a b => some (group none {} (wordR 3 0 b.val a.val d.val g.val))
  | .scmpne g d a b => some (group none {} (wordR 3 1 b.val a.val d.val g.val))
  | .scmplt g d a b => some (group none {} (wordR 3 2 b.val a.val d.val g.val))
  | .scmple g d a b => some (group none {} (wordR 3 3 b.val a.val d.val g.val))
  | .scmpltu g d a b => some (group none {} (wordR 3 4 b.val a.val d.val g.val))
  | .scmpleu g d a b => some (group none {} (wordR 3 5 b.val a.val d.val g.val))
  | .kand g d a b => some (group none {} (wordR 3 6 b.val a.val d.val g.val))
  | .kor g d a b => some (group none {} (wordR 3 7 b.val a.val d.val g.val))
  | .kxor g d a b => some (group none {} (wordR 3 8 b.val a.val d.val g.val))
  | .kandn g d a b => some (group none {} (wordR 3 9 b.val a.val d.val g.val))
  | .vadd g d a b sat => some (group none { dhi := d.val / 64, ahi := a.val / 64, bhi := b.hi, bscal := b.bscal, sat := sat } (wordR 4 0 b.field (a.val % 64) (d.val % 64) g.val))
  | .vsub g d a b sat => some (group none { dhi := d.val / 64, ahi := a.val / 64, bhi := b.hi, bscal := b.bscal, sat := sat } (wordR 4 1 b.field (a.val % 64) (d.val % 64) g.val))
  | .vmul g d a b => some (group none { dhi := d.val / 64, ahi := a.val / 64, bhi := b.hi, bscal := b.bscal } (wordR 4 2 b.field (a.val % 64) (d.val % 64) g.val))
  | .vmulh g d a b => some (group none { dhi := d.val / 64, ahi := a.val / 64, bhi := b.hi, bscal := b.bscal } (wordR 4 3 b.field (a.val % 64) (d.val % 64) g.val))
  | .vmulhu g d a b => some (group none { dhi := d.val / 64, ahi := a.val / 64, bhi := b.hi, bscal := b.bscal } (wordR 4 4 b.field (a.val % 64) (d.val % 64) g.val))
  | .vmad g d a b => some (group none { dhi := d.val / 64, ahi := a.val / 64, bhi := b.hi, bscal := b.bscal } (wordR 4 5 b.field (a.val % 64) (d.val % 64) g.val))
  | .vand g d a b => some (group none { dhi := d.val / 64, ahi := a.val / 64, bhi := b.hi, bscal := b.bscal } (wordR 4 6 b.field (a.val % 64) (d.val % 64) g.val))
  | .vor g d a b => some (group none { dhi := d.val / 64, ahi := a.val / 64, bhi := b.hi, bscal := b.bscal } (wordR 4 7 b.field (a.val % 64) (d.val % 64) g.val))
  | .vxor g d a b => some (group none { dhi := d.val / 64, ahi := a.val / 64, bhi := b.hi, bscal := b.bscal } (wordR 4 8 b.field (a.val % 64) (d.val % 64) g.val))
  | .vshl g d a b => some (group none { dhi := d.val / 64, ahi := a.val / 64, bhi := b.hi, bscal := b.bscal } (wordR 4 9 b.field (a.val % 64) (d.val % 64) g.val))
  | .vshr g d a b => some (group none { dhi := d.val / 64, ahi := a.val / 64, bhi := b.hi, bscal := b.bscal } (wordR 4 10 b.field (a.val % 64) (d.val % 64) g.val))
  | .vsar g d a b => some (group none { dhi := d.val / 64, ahi := a.val / 64, bhi := b.hi, bscal := b.bscal } (wordR 4 11 b.field (a.val % 64) (d.val % 64) g.val))
  | .vmin g d a b => some (group none { dhi := d.val / 64, ahi := a.val / 64, bhi := b.hi, bscal := b.bscal } (wordR 4 12 b.field (a.val % 64) (d.val % 64) g.val))
  | .vmax g d a b => some (group none { dhi := d.val / 64, ahi := a.val / 64, bhi := b.hi, bscal := b.bscal } (wordR 4 13 b.field (a.val % 64) (d.val % 64) g.val))
  | .vminu g d a b => some (group none { dhi := d.val / 64, ahi := a.val / 64, bhi := b.hi, bscal := b.bscal } (wordR 4 14 b.field (a.val % 64) (d.val % 64) g.val))
  | .vmaxu g d a b => some (group none { dhi := d.val / 64, ahi := a.val / 64, bhi := b.hi, bscal := b.bscal } (wordR 4 15 b.field (a.val % 64) (d.val % 64) g.val))
  | .vmovk g d k => some (group k.pay { dhi := d.val / 64 } (wordK 5 0 k.low 0 (d.val % 64) g.val))
  | .vaddk g d a k sat => some (group k.pay { dhi := d.val / 64, ahi := a.val / 64, sat := sat } (wordK 5 1 k.low (a.val % 64) (d.val % 64) g.val))
  | .vandk g d a k => some (group k.pay { dhi := d.val / 64, ahi := a.val / 64 } (wordK 5 2 k.low (a.val % 64) (d.val % 64) g.val))
  | .vshlk g d a k => some (group k.pay { dhi := d.val / 64, ahi := a.val / 64 } (wordK 5 3 k.low (a.val % 64) (d.val % 64) g.val))
  | .vfadd g d a b r => some (group none { dhi := d.val / 64, ahi := a.val / 64, bhi := b.hi, bscal := b.bscal, rnd := rndCode r } (wordR 6 0 b.field (a.val % 64) (d.val % 64) g.val))
  | .vfsub g d a b r => some (group none { dhi := d.val / 64, ahi := a.val / 64, bhi := b.hi, bscal := b.bscal, rnd := rndCode r } (wordR 6 1 b.field (a.val % 64) (d.val % 64) g.val))
  | .vfmul g d a b r => some (group none { dhi := d.val / 64, ahi := a.val / 64, bhi := b.hi, bscal := b.bscal, rnd := rndCode r } (wordR 6 2 b.field (a.val % 64) (d.val % 64) g.val))
  | .vfma g d a b r => some (group none { dhi := d.val / 64, ahi := a.val / 64, bhi := b.hi, bscal := b.bscal, rnd := rndCode r } (wordR 6 3 b.field (a.val % 64) (d.val % 64) g.val))
  | .vfms g d a b r => some (group none { dhi := d.val / 64, ahi := a.val / 64, bhi := b.hi, bscal := b.bscal, rnd := rndCode r } (wordR 6 4 b.field (a.val % 64) (d.val % 64) g.val))
  | .vfnma g d a b r => some (group none { dhi := d.val / 64, ahi := a.val / 64, bhi := b.hi, bscal := b.bscal, rnd := rndCode r } (wordR 6 5 b.field (a.val % 64) (d.val % 64) g.val))
  | .vfmin g d a b => some (group none { dhi := d.val / 64, ahi := a.val / 64, bhi := b.hi, bscal := b.bscal } (wordR 6 6 b.field (a.val % 64) (d.val % 64) g.val))
  | .vfmax g d a b => some (group none { dhi := d.val / 64, ahi := a.val / 64, bhi := b.hi, bscal := b.bscal } (wordR 6 7 b.field (a.val % 64) (d.val % 64) g.val))
  | .vfdiv g d a b r => some (group none { dhi := d.val / 64, ahi := a.val / 64, bhi := b.hi, bscal := b.bscal, rnd := rndCode r } (wordR 6 8 b.field (a.val % 64) (d.val % 64) g.val))
  | .vfcpys g d a b => some (group none { dhi := d.val / 64, ahi := a.val / 64, bhi := b.hi, bscal := b.bscal } (wordR 6 9 b.field (a.val % 64) (d.val % 64) g.val))
  | .vhaddf g d a b r => some (group none { dhi := d.val / 64, ahi := a.val / 64, bhi := b.hi, bscal := b.bscal, rnd := rndCode r } (wordR 7 0 b.field (a.val % 64) (d.val % 64) g.val))
  | .vhmulf g d a b r => some (group none { dhi := d.val / 64, ahi := a.val / 64, bhi := b.hi, bscal := b.bscal, rnd := rndCode r } (wordR 7 1 b.field (a.val % 64) (d.val % 64) g.val))
  | .vhfmaf g d a b r => some (group none { dhi := d.val / 64, ahi := a.val / 64, bhi := b.hi, bscal := b.bscal, rnd := rndCode r } (wordR 7 2 b.field (a.val % 64) (d.val % 64) g.val))
  | .vhminf g d a b => some (group none { dhi := d.val / 64, ahi := a.val / 64, bhi := b.hi, bscal := b.bscal } (wordR 7 3 b.field (a.val % 64) (d.val % 64) g.val))
  | .vhmaxf g d a b => some (group none { dhi := d.val / 64, ahi := a.val / 64, bhi := b.hi, bscal := b.bscal } (wordR 7 4 b.field (a.val % 64) (d.val % 64) g.val))
  | .vhaddb g d a b r => some (group none { dhi := d.val / 64, ahi := a.val / 64, bhi := b.hi, bscal := b.bscal, rnd := rndCode r } (wordR 7 5 b.field (a.val % 64) (d.val % 64) g.val))
  | .vhmulb g d a b r => some (group none { dhi := d.val / 64, ahi := a.val / 64, bhi := b.hi, bscal := b.bscal, rnd := rndCode r } (wordR 7 6 b.field (a.val % 64) (d.val % 64) g.val))
  | .vhfmab g d a b r => some (group none { dhi := d.val / 64, ahi := a.val / 64, bhi := b.hi, bscal := b.bscal, rnd := rndCode r } (wordR 7 7 b.field (a.val % 64) (d.val % 64) g.val))
  | .vhminb g d a b => some (group none { dhi := d.val / 64, ahi := a.val / 64, bhi := b.hi, bscal := b.bscal } (wordR 7 8 b.field (a.val % 64) (d.val % 64) g.val))
  | .vhmaxb g d a b => some (group none { dhi := d.val / 64, ahi := a.val / 64, bhi := b.hi, bscal := b.bscal } (wordR 7 9 b.field (a.val % 64) (d.val % 64) g.val))
  | .vdot2f g d a b r => some (group none { dhi := d.val / 64, ahi := a.val / 64, bhi := b.hi, bscal := b.bscal, rnd := rndCode r } (wordR 7 10 b.field (a.val % 64) (d.val % 64) g.val))
  | .vdot2b g d a b r => some (group none { dhi := d.val / 64, ahi := a.val / 64, bhi := b.hi, bscal := b.bscal, rnd := rndCode r } (wordR 7 11 b.field (a.val % 64) (d.val % 64) g.val))
  | .vdot4i g d a b sat => some (group none { dhi := d.val / 64, ahi := a.val / 64, bhi := b.hi, bscal := b.bscal, sat := sat } (wordR 7 12 b.field (a.val % 64) (d.val % 64) g.val))
  | .vfabs g d a => some (group none { dhi := d.val / 64, ahi := a.val / 64 } (wordR 8 0 0 (a.val % 64) (d.val % 64) g.val))
  | .vfneg g d a => some (group none { dhi := d.val / 64, ahi := a.val / 64 } (wordR 8 0 1 (a.val % 64) (d.val % 64) g.val))
  | .vfsqrt g d a r => some (group none { dhi := d.val / 64, ahi := a.val / 64, rnd := rndCode r } (wordR 8 0 2 (a.val % 64) (d.val % 64) g.val))
  | .vfrsq g d a => some (group none { dhi := d.val / 64, ahi := a.val / 64 } (wordR 8 0 3 (a.val % 64) (d.val % 64) g.val))
  | .vfrcp g d a => some (group none { dhi := d.val / 64, ahi := a.val / 64 } (wordR 8 0 4 (a.val % 64) (d.val % 64) g.val))
  | .vfexp2 g d a => some (group none { dhi := d.val / 64, ahi := a.val / 64 } (wordR 8 0 5 (a.val % 64) (d.val % 64) g.val))
  | .vflog2 g d a => some (group none { dhi := d.val / 64, ahi := a.val / 64 } (wordR 8 0 6 (a.val % 64) (d.val % 64) g.val))
  | .vffloor g d a => some (group none { dhi := d.val / 64, ahi := a.val / 64 } (wordR 8 0 7 (a.val % 64) (d.val % 64) g.val))
  | .vfceil g d a => some (group none { dhi := d.val / 64, ahi := a.val / 64 } (wordR 8 0 8 (a.val % 64) (d.val % 64) g.val))
  | .vfrint g d a r => some (group none { dhi := d.val / 64, ahi := a.val / 64, rnd := rndCode r } (wordR 8 0 9 (a.val % 64) (d.val % 64) g.val))
  | .vftrunc g d a => some (group none { dhi := d.val / 64, ahi := a.val / 64 } (wordR 8 0 10 (a.val % 64) (d.val % 64) g.val))
  | .vfclass g d a => some (group none { dhi := d.val / 64, ahi := a.val / 64 } (wordR 8 0 11 (a.val % 64) (d.val % 64) g.val))
  | .vftanh g d a => some (group none { dhi := d.val / 64, ahi := a.val / 64 } (wordR 8 0 12 (a.val % 64) (d.val % 64) g.val))
  | .vcvtfi g d a r => some (group none { dhi := d.val / 64, ahi := a.val / 64, rnd := rndCode r } (wordR 9 0 0 (a.val % 64) (d.val % 64) g.val))
  | .vcvtif g d a r => some (group none { dhi := d.val / 64, ahi := a.val / 64, rnd := rndCode r } (wordR 9 1 0 (a.val % 64) (d.val % 64) g.val))
  | .vcvtfu g d a r => some (group none { dhi := d.val / 64, ahi := a.val / 64, rnd := rndCode r } (wordR 9 2 0 (a.val % 64) (d.val % 64) g.val))
  | .vcvtuf g d a r => some (group none { dhi := d.val / 64, ahi := a.val / 64, rnd := rndCode r } (wordR 9 3 0 (a.val % 64) (d.val % 64) g.val))
  | .vcvtfh g d a b r sat => some (group none { dhi := d.val / 64, ahi := a.val / 64, bhi := b.val / 64, rnd := rndCode r, sat := sat } (wordR 9 4 (b.val % 64) (a.val % 64) (d.val % 64) g.val))
  | .vcvthf g d a => some (group none { dhi := d.val / 64, ahi := a.val / 64 } (wordR 9 5 0 (a.val % 64) (d.val % 64) g.val))
  | .vcvtfb g d a b r sat => some (group none { dhi := d.val / 64, ahi := a.val / 64, bhi := b.val / 64, rnd := rndCode r, sat := sat } (wordR 9 6 (b.val % 64) (a.val % 64) (d.val % 64) g.val))
  | .vcvtbf g d a => some (group none { dhi := d.val / 64, ahi := a.val / 64 } (wordR 9 7 0 (a.val % 64) (d.val % 64) g.val))
  | .vqnt g d a b => some (group none { dhi := d.val / 64, ahi := a.val / 64, bhi := b.hi, bscal := b.bscal } (wordR 9 8 b.field (a.val % 64) (d.val % 64) g.val))
  | .vdqnt g d a b => some (group none { dhi := d.val / 64, ahi := a.val / 64, bhi := b.hi, bscal := b.bscal } (wordR 9 9 b.field (a.val % 64) (d.val % 64) g.val))
  | .vdgen g d b => some (group none { dhi := d.val / 64, bhi := b.hi, bscal := b.bscal } (wordR 9 10 b.field 0 (d.val % 64) g.val))
  | .vpack8 g d a b => some (group none { dhi := d.val / 64, ahi := a.val / 64, bhi := b.hi, bscal := b.bscal } (wordR 9 11 b.field (a.val % 64) (d.val % 64) g.val))
  | .vunpk8 g d a b => some (group none { dhi := d.val / 64, ahi := a.val / 64, bhi := b.hi, bscal := b.bscal } (wordR 9 12 b.field (a.val % 64) (d.val % 64) g.val))
  | .vqcfg a b => some (group none { bscal := true } (wordR 9 13 b.val a.val 0 0))
  | .vcmpeq g d a b => some (group none { ahi := a.val / 64, bhi := b.hi, bscal := b.bscal } (wordR 10 0 b.field (a.val % 64) d.val g.val))
  | .vcmpne g d a b => some (group none { ahi := a.val / 64, bhi := b.hi, bscal := b.bscal } (wordR 10 1 b.field (a.val % 64) d.val g.val))
  | .vcmplt g d a b => some (group none { ahi := a.val / 64, bhi := b.hi, bscal := b.bscal } (wordR 10 2 b.field (a.val % 64) d.val g.val))
  | .vcmple g d a b => some (group none { ahi := a.val / 64, bhi := b.hi, bscal := b.bscal } (wordR 10 3 b.field (a.val % 64) d.val g.val))
  | .vcmpltu g d a b => some (group none { ahi := a.val / 64, bhi := b.hi, bscal := b.bscal } (wordR 10 4 b.field (a.val % 64) d.val g.val))
  | .vcmpleu g d a b => some (group none { ahi := a.val / 64, bhi := b.hi, bscal := b.bscal } (wordR 10 5 b.field (a.val % 64) d.val g.val))
  | .vfcmpeq g d a b => some (group none { ahi := a.val / 64, bhi := b.hi, bscal := b.bscal } (wordR 10 6 b.field (a.val % 64) d.val g.val))
  | .vfcmplt g d a b => some (group none { ahi := a.val / 64, bhi := b.hi, bscal := b.bscal } (wordR 10 7 b.field (a.val % 64) d.val g.val))
  | .vfcmple g d a b => some (group none { ahi := a.val / 64, bhi := b.hi, bscal := b.bscal } (wordR 10 8 b.field (a.val % 64) d.val g.val))
  | .vfcmpun g d a b => some (group none { ahi := a.val / 64, bhi := b.hi, bscal := b.bscal } (wordR 10 9 b.field (a.val % 64) d.val g.val))
  | .pand g d a b => some (group none {} (wordR 10 10 b.val a.val d.val g.val))
  | .por g d a b => some (group none {} (wordR 10 11 b.val a.val d.val g.val))
  | .pxor g d a b => some (group none {} (wordR 10 12 b.val a.val d.val g.val))
  | .pandn g d a b => some (group none {} (wordR 10 13 b.val a.val d.val g.val))
  | .vbcst g d a => some (group none { dhi := d.val / 64 } (wordR 11 0 0 a.val (d.val % 64) g.val))
  | .vrdln d a b => some (group none { ahi := a.val / 64, bscal := true } (wordR 11 1 b.val (a.val % 64) d.val 0))
  | .vwrln d a b => some (group none { dhi := d.val / 64, bscal := true } (wordR 11 2 b.val a.val (d.val % 64) 0))
  | .vfirst g d a => some (group none { ahi := a.val / 64 } (wordR 11 3 0 (a.val % 64) d.val g.val))
  | .vballot g d a => some (group none {} (wordR 11 4 0 a.val d.val g.val))
  | .pfroms g d a => some (group none {} (wordR 11 5 0 a.val d.val g.val))
  | .panyk g d a => some (group none {} (wordR 11 6 0 a.val d.val g.val))
  | .pallk g d a => some (group none {} (wordR 11 7 0 a.val d.val g.val))
  | .xset a => some (group none {} (wordR 11 8 0 a.val 0 0))
  | .xsave d => some (group none {} (wordR 11 9 0 0 d.val 0))
  | .xrest a => some (group none {} (wordR 11 10 0 a.val 0 0))
  | .vshfl g d a b => some (group none { dhi := d.val / 64, ahi := a.val / 64, bhi := b.hi, bscal := b.bscal } (wordR 11 11 b.field (a.val % 64) (d.val % 64) g.val))
  | .vredai g d a => some (group none { ahi := a.val / 64 } (wordR 11 12 0 (a.val % 64) d.val g.val))
  | .vredaf g d a => some (group none { ahi := a.val / 64 } (wordR 11 13 0 (a.val % 64) d.val g.val))
  | .vredmx g d a => some (group none { ahi := a.val / 64 } (wordR 11 14 0 (a.val % 64) d.val g.val))
  | .vxacc g d a => some (group none { dhi := d.val / 64, ahi := a.val / 64 } (wordR 11 15 0 (a.val % 64) (d.val % 64) g.val))
  | .vldw g d a b => some (group none { dhi := d.val / 64, bhi := b.hi, bscal := b.bscal } (wordR 12 0 b.field a.val (d.val % 64) g.val))
  | .vldh g d a b => some (group none { dhi := d.val / 64, bhi := b.hi, bscal := b.bscal } (wordR 12 1 b.field a.val (d.val % 64) g.val))
  | .vldb g d a b => some (group none { dhi := d.val / 64, bhi := b.hi, bscal := b.bscal } (wordR 12 2 b.field a.val (d.val % 64) g.val))
  | .vldd g d a b => some (group none { dhi := d.val / 64, bhi := b.hi, bscal := b.bscal } (wordR 12 3 b.field a.val (d.val % 64) g.val))
  | .vldsw g d a b => some (group none { dhi := d.val / 64, bscal := true } (wordR 12 4 b.val a.val (d.val % 64) g.val))
  | .vldq g d a b => some (group none { dhi := d.val / 64, bhi := b.hi, bscal := b.bscal } (wordR 12 5 b.field a.val (d.val % 64) g.val))
  | .vldc g d a => some (group none { dhi := d.val / 64 } (wordR 12 6 0 a.val (d.val % 64) g.val))
  | .vldsc g d a => some (group none { dhi := d.val / 64 } (wordR 12 7 0 a.val (d.val % 64) g.val))
  | .vstw g d a b => some (group none { dhi := d.val / 64, bhi := b.hi, bscal := b.bscal } (wordR 13 0 b.field a.val (d.val % 64) g.val))
  | .vsth g d a b => some (group none { dhi := d.val / 64, bhi := b.hi, bscal := b.bscal } (wordR 13 1 b.field a.val (d.val % 64) g.val))
  | .vstb g d a b => some (group none { dhi := d.val / 64, bhi := b.hi, bscal := b.bscal } (wordR 13 2 b.field a.val (d.val % 64) g.val))
  | .vstd g d a b => some (group none { dhi := d.val / 64, bhi := b.hi, bscal := b.bscal } (wordR 13 3 b.field a.val (d.val % 64) g.val))
  | .vstsw g d a b => some (group none { dhi := d.val / 64, bscal := true } (wordR 13 4 b.val a.val (d.val % 64) g.val))
  | .vstq g d a b => some (group none { dhi := d.val / 64, bhi := b.hi, bscal := b.bscal } (wordR 13 5 b.field a.val (d.val % 64) g.val))
  | .vstc g d a => some (group none { dhi := d.val / 64 } (wordR 13 6 0 a.val (d.val % 64) g.val))
  | .vstsc g d a => some (group none { dhi := d.val / 64 } (wordR 13 7 0 a.val (d.val % 64) g.val))
  | .sld g d a o => some (group o.pay {} (wordK 14 0 o.low a.val d.val g.val))
  | .sst g d a o => some (group o.pay {} (wordK 14 1 o.low a.val d.val g.val))
  | .slds g d a o => some (group o.pay {} (wordK 14 2 o.low a.val d.val g.val))
  | .ssts g d a o => some (group o.pay {} (wordK 14 3 o.low a.val d.val g.val))
  | .vatadd g d a b nr sc => some (groupSc none { dhi := d.val / 64, bhi := b.hi, bscal := b.bscal, nr := nr, scope := sc } (wordR 15 0 b.field a.val (d.val % 64) g.val))
  | .vatmin g d a b nr sc => some (groupSc none { dhi := d.val / 64, bhi := b.hi, bscal := b.bscal, nr := nr, scope := sc } (wordR 15 1 b.field a.val (d.val % 64) g.val))
  | .vatmax g d a b nr sc => some (groupSc none { dhi := d.val / 64, bhi := b.hi, bscal := b.bscal, nr := nr, scope := sc } (wordR 15 2 b.field a.val (d.val % 64) g.val))
  | .vatand g d a b nr sc => some (groupSc none { dhi := d.val / 64, bhi := b.hi, bscal := b.bscal, nr := nr, scope := sc } (wordR 15 3 b.field a.val (d.val % 64) g.val))
  | .vator g d a b nr sc => some (groupSc none { dhi := d.val / 64, bhi := b.hi, bscal := b.bscal, nr := nr, scope := sc } (wordR 15 4 b.field a.val (d.val % 64) g.val))
  | .vatxor g d a b nr sc => some (groupSc none { dhi := d.val / 64, bhi := b.hi, bscal := b.bscal, nr := nr, scope := sc } (wordR 15 5 b.field a.val (d.val % 64) g.val))
  | .vatxch g d a b nr sc => some (groupSc none { dhi := d.val / 64, bhi := b.hi, bscal := b.bscal, nr := nr, scope := sc } (wordR 15 6 b.field a.val (d.val % 64) g.val))
  | .vatcas g d a b nr sc => some (groupSc none { dhi := d.val / 64, bhi := b.hi, bscal := b.bscal, nr := nr, scope := sc } (wordR 15 7 b.field a.val (d.val % 64) g.val))
  | .satadd g d a b nr sc => some (groupSc none { nr := nr, scope := sc } (wordR 15 8 b.val a.val d.val g.val))
  | .satcas g d a b nr sc => some (groupSc none { nr := nr, scope := sc } (wordR 15 9 b.val a.val d.val g.val))
  | .satxch g d a b nr sc => some (groupSc none { nr := nr, scope := sc } (wordR 15 10 b.val a.val d.val g.val))
  | .vxadd g d a b nr sc => some (groupSc none { dhi := d.val / 64, bhi := b.hi, bscal := b.bscal, nr := nr, scope := sc } (wordR 15 11 b.field a.val (d.val % 64) g.val))
  | .vfatadd g d a b nr sc => some (groupSc none { dhi := d.val / 64, bhi := b.hi, bscal := b.bscal, nr := nr, scope := sc } (wordR 15 12 b.field a.val (d.val % 64) g.val))
  | .br c cn o => some (halves (wordJ 16 o.toNat cn c.val))
  | .call c cn o => some (halves (wordJ 17 o.toNat cn c.val))
  | .jmpr g a => some (group none {} (wordR 18 0 0 a.val 0 g.val))
  | .callr g a => some (group none {} (wordR 18 1 0 a.val 0 g.val))
  | .ret g => some (group none {} (wordR 18 2 0 0 0 g.val))
  | .nop g => some (group none {} (wordR 18 3 0 0 0 g.val))
  | .waitk g a => some (group none {} (wordR 18 4 0 a.val 0 g.val))
  | .brk g => some (group none {} (wordR 18 5 0 0 0 g.val))
  | .fence g sc => some (groupSc none { scope := sc } (wordR 19 0 0 0 0 g.val))
  | .fenceacq g sc => some (groupSc none { scope := sc } (wordR 19 1 0 0 0 g.val))
  | .fencerel g sc => some (groupSc none { scope := sc } (wordR 19 2 0 0 0 g.val))
  | .bar g sc => some (groupSc none { scope := sc } (wordR 19 3 0 0 0 g.val))
  | .waitv g d a b sc => some (groupSc none { scope := sc } (wordR 19 4 b.val a.val d.val g.val))
  | .descinv g a => some (group none {} (wordR 19 5 0 a.val 0 g.val))
  | .descinvDeep g => some (group none { deep := true } (wordR 19 5 0 0 0 g.val))
  | .logwait g => some (group none {} (wordR 19 6 0 0 0 g.val))
  | .sldacq g d a sc => some (groupSc none { scope := sc } (wordR 19 7 0 a.val d.val g.val))
  | .sstrel g d a sc => some (groupSc none { scope := sc } (wordR 19 8 0 a.val d.val g.val))
  | .mcfg g a => some (group none {} (wordR 20 0 0 a.val 0 g.val))
  | .mzero g d => some (group none {} (wordR 20 1 0 0 d.val g.val))
  | .mma g d a b => some (group none {} (wordR 20 2 b.val a.val d.val g.val))
  | .mmas g d a b => some (group none {} (wordR 20 3 b.val a.val d.val g.val))
  | .mdrain g d a b => some (group none {} (wordR 20 4 b.val a.val d.val g.val))
  | .mstat g d a => some (group none {} (wordR 20 5 0 a.val d.val g.val))
  | .msave g d a b => some (group none {} (wordR 20 6 b.val a.val d.val g.val))
  | .mload g d a b => some (group none {} (wordR 20 7 b.val a.val d.val g.val))
  | .rdef g d a => some (group none {} (wordR 21 0 0 a.val d.val g.val))
  | .rwfull g d a => some (group none {} (wordR 21 1 0 a.val d.val g.val))
  | .rwfree g d a => some (group none {} (wordR 21 2 0 a.val d.val g.val))
  | .radvp g d a => some (group none {} (wordR 21 3 0 a.val d.val g.val))
  | .radvc g d a => some (group none {} (wordR 21 4 0 a.val d.val g.val))
  | .rslot g d a b => some (group none {} (wordR 21 5 b.val a.val d.val g.val))
  | .rslotc g d a b => some (group none {} (wordR 21 6 b.val a.val d.val g.val))
  | .rundef g d => some (group none {} (wordR 21 7 0 0 d.val g.val))
  | .cpy g d a => some (group none {} (wordR 22 0 0 a.val d.val g.val))
  | .cpyr g d a b => some (group none {} (wordR 22 1 b.val a.val d.val g.val))
  | .cpyt g d a => some (group none {} (wordR 22 2 0 a.val d.val g.val))
  | .cpyrd g d a => some (group none {} (wordR 22 3 0 a.val d.val g.val))
  | .waitt g m => some (group none {} (wordR 22 4 0 (m.toNat / 64) (m.toNat % 64) g.val))
  | .tokrd g d a => some (group none {} (wordR 22 5 0 a.val d.val g.val))
  | .cqpush g d a b => some (group none {} (wordR 22 6 b.val a.val d.val g.val))
  | .cqkick g a => some (group none {} (wordR 22 7 0 a.val 0 g.val))
  | .gstart g d a b => some (group none {} (wordR 23 0 b.val a.val d.val g.val))
  | .gstop g a => some (group none {} (wordR 23 1 0 a.val 0 g.val))
  | .gstat g d a => some (group none {} (wordR 23 2 0 a.val d.val g.val))
  | .spawn g d a => some (group none {} (wordR 24 0 0 a.val d.val g.val))
  | .touch g d a => some (group none {} (wordR 24 1 0 a.val d.val g.val))
  | .touchc g d a b => some (group none {} (wordR 24 2 b.val a.val d.val g.val))
  | .poll g d a => some (group none {} (wordR 24 3 0 a.val d.val g.val))
  | .resolve g d a b => some (group none {} (wordR 24 4 b.val a.val d.val g.val))
  | .fnew g d => some (group none {} (wordR 24 5 0 0 d.val g.val))
  | .ffault g d a b => some (group none {} (wordR 24 6 b.val a.val d.val g.val))
  | .cancel g d a => some (group none {} (wordR 24 7 0 a.val d.val g.val))
  | .cancelDeep g d a => some (group none { deep := true } (wordR 24 7 0 a.val d.val g.val))
  | .release g a => some (group none {} (wordR 24 8 0 a.val 0 g.val))
  | .scopeo g d a => some (group none {} (wordR 24 9 0 a.val d.val g.val))
  | .scopec g a => some (group none {} (wordR 24 10 0 a.val 0 g.val))
  | .scopew g a => some (group none {} (wordR 24 11 0 a.val 0 g.val))
  | .retire g a => some (group none {} (wordR 24 12 0 a.val 0 g.val))
  | .yield g a => some (group none {} (wordR 24 13 0 a.val 0 g.val))
  | .prio g d a => some (group none {} (wordR 24 14 0 a.val d.val g.val))
  | .self g d => some (group none {} (wordR 24 15 0 0 d.val g.val))
  | .send g a b => some (group none {} (wordR 25 0 b.val a.val 0 g.val))
  | .sendr g d a b => some (group none {} (wordR 25 1 b.val a.val d.val g.val))
  | .recv g d a b => some (group none {} (wordR 25 2 b.val a.val d.val g.val))
  | .htwr g a b => some (group none {} (wordR 25 3 b.val a.val 0 g.val))
  | .bqclaim g d a => some (group none {} (wordR 26 0 0 a.val d.val g.val))
  | .baddq g d a b => some (group none {} (wordR 26 1 b.val a.val d.val g.val))
  | .bqdone g a => some (group none {} (wordR 26 2 0 a.val 0 g.val))
  | .topkc g d a => some (group none {} (wordR 26 3 0 a.val d.val g.val))
  | .topkr g d a => some (group none {} (wordR 26 4 0 a.val d.val g.val))
  | .srd g d n => some (group none {} (wordR 27 0 n.val 0 d.val g.val))
  | .swr g a n => some (group none {} (wordR 27 1 n.val a.val 0 g.val))
  | .swrDeep g a n => some (group none { deep := true, bhi := n.toNat / 64 } (wordR 27 1 (n.toNat % 64) a.val 0 g.val))
  | .trap g a => some (group none {} (wordR 27 2 0 a.val 0 g.val))
  | .tret g => some (group none {} (wordR 27 3 0 0 0 g.val))
  | .csave g d a b => some (group none {} (wordR 27 4 b.val a.val d.val g.val))
  | .crest g d a b => some (group none {} (wordR 27 5 b.val a.val d.val g.val))
  | .halt g => some (group none {} (wordR 27 6 0 0 0 g.val))
  | .pchk g d a => some (group none {} (wordR 27 7 0 a.val d.val g.val))
  | .replay g a => some (group none {} (wordR 27 8 0 a.val 0 g.val))
  | .cNop => some [compact 0 0 0 0]
  | .cSmov d a => some [compact 1 d.val a.val 0]
  | .cVmov d a => some [compact 4 d.val a.val 0]
  | .cTouch d a => some [compact 12 d.val a.val 0]
  | .cSadd d a b => some [compact 2 d.val a.val b.val]
  | .cVadd d a b => some [compact 5 d.val a.val b.val]
  | .cVfadd d a b => some [compact 6 d.val a.val b.val]
  | .cVfma d a b => some [compact 7 d.val a.val b.val]
  | .cVfmul d a b => some [compact 8 d.val a.val b.val]
  | .cSaddi d a n => some [compact 3 d.val a.val n.toNat]
  | .cSld d a n => some [compact 9 d.val a.val n.toNat]
  | .cSst d a n => some [compact 10 d.val a.val n.toNat]
  | .cRet => some [compact 11 0 0 0]
  | .cWaitt m => some [compact 13 (m.toNat % 16) (m.toNat / 16) 0]
  | .cRadvc d n => some [compact 14 d.val 0 n.toNat]
  | _ => none

/-- The environment in which the table's words are read: supervisor mode and the whole allocation; a gateway core for major 26. -/
def tableEnv (w : Nat) : DecEnv := ⟨w / 2 % 32 == 26, true, 256, 64⟩

/-- Halfwords of a table word, and zeros above it (the longest group is 16 bytes). -/
def tableHalves (nbits w : Nat) : List Half :=
  let w := w % 2 ^ nbits
  (List.range 8).map (fun k => BitVec.ofNat 16 (w / 65536 ^ k))

/-- The instruction that the decoder reads from a word of the opcode table. -/
noncomputable def decodeTableWord (nbits w : Nat) : Option Instr :=
  match decode (tableEnv w) (tableHalves nbits w) with
  | .ok i _ _ => some i
  | _ => none

end Sys2Proof
end

