-- ==== Sys2Proof/Machine/Sys.lean ====
section
/-! DEFINITION. Major 27: system registers (R314 to R319, R184), TRAP, TRET, HALT, PCHK, REPLAY (R320 to R324), and the step of a word
that is not an instruction (R188). -/

namespace Sys2Proof.Machine

open Sys2Proof

/-! ### Reading (R314 to R318) -/

/-- LOGSTAT. -/
def State.logstat (s : State) : Nat :=
  let k := s.core s.me.loc.core
  b2n k.stopped 16 + logRecords (k.log.filter (fun e => e.tg == s.me.loc)) * 256 + logRecords k.log

/-- RLSTAT. -/
def State.rlstat (s : State) : Nat :=
  let l := (s.cluster s.me.loc.core.cluster).locks
  (l.filter (fun e => e.owner == some s.me.loc)).length * 256 + (32 - l.length)

/-- FUTSTAT, of the context of the task. -/
def State.futstat (s : State) : Nat :=
  let a := s.ctxAsid
  b2n (s.allTgs.any (fun g => g.ctx == a && s.hamperWait g)) 48 + s.usedRecords a * 2 ^ 16 + s.freeEntries s.me.loc.core.cluster

/-- HAMPER of the context that ASID names. -/
def State.hamperWord (s : State) : Nat := (s.ctx s.me.asid).hbase + (s.ctx s.me.asid).logn

def State.priocls (s : State) : Nat :=
  match s.task s.me.task with
  | some t => t.eff.val + 4 * t.own.val
  | none => 0

def State.pfacc (s : State) : Nat := let c := s.cluster s.me.loc.core.cluster; c.pfUseful + c.pfWasted * 2 ^ 32
def State.pflate (s : State) : Nat := let c := s.cluster s.me.loc.core.cluster; c.pfLate + min (c.pfDelay / 64) (2 ^ 32 - 1) * 2 ^ 32

/-- The counter that CNTSEL selects (R97, R317, R430). -/
def State.cntval (s : State) : W64 :=
  let n := s.me.cntSel.toNat
  let k := s.core s.me.loc.core
  if n = 0x50 then k.nacks
  else if n = 0x51 then k.spills
  else BitVec.ofNat 64 (kget 0 (s.die s.me.loc.core.die).counters n)

/-- A register that reads without an effect (R315). -/
def State.sysRead (s : State) (n : Nat) : W64 :=
  let g := s.me
  let c := g.loc.core
  let w := fun (x : Nat) => (BitVec.ofNat 64 x : W64)
  match n with
  | 0 => w g.tgid
  | 1 => w g.width
  | 2 => w c.core
  | 3 => w c.cl
  | 4 => w c.die
  | 5 => w s.devid
  | 6 => g.task
  | 7 => g.scopeId
  | 8 => w s.priocls
  | 9 => w (b2n g.det 0)
  | 10 => g.qctx
  | 11 => s.cycle
  | 12 => s.ptp
  | 13 => g.launchx
  | 14 => g.trapBase
  | 15 => g.trapCause
  | 16 => g.trapPc
  | 17 => g.trapAddr
  | 18 => g.trapInfo
  | 19 => g.trapSave
  | 20 => w s.logstat
  | 21 => w s.rlstat
  | 22 => w s.futstat
  | 23 => w s.hamperWord
  | 24 => w (b2n g.super 0)
  | 25 => g.asid.setWidth 64
  | 27 => g.qbase
  | 28 => w s.pfacc
  | 29 => w s.pflate
  | 32 => g.cntSel
  | 33 => s.cntval
  | _ => 0

/-- A read of EVQ: the oldest entry, whose record may be reused (R318, R379). -/
def State.readEvq (s : State) : State × W64 :=
  match s.evq with
  | [] => (s, 0)
  | e :: r =>
    ({ s with evq := r, evUsed := s.evUsed.filter (· != e.idx) }.reportLost,
      BitVec.ofNat 64 (e.typ * 2 ^ 48 + e.asid.toNat * 2 ^ 32 + e.idx))

/-- EVQ: a supervisor's read. -/
def execEvq (d : UReg) (s : State) : Out State :=
  .next (if !s.me.super then s.trap cPRIV 0 0
    else
      let r := s.readEvq
      (r.1.setS d r.2 false).advance)

/-- SRD. A number or a mode that decoding turns away traps here as there (R314). -/
def execSrd (g : Guard) (d : UReg) (n : SysReg) (s : State) : Out State :=
  .next (
    if sysUnknown n.val then s.illegal4 (s.ownWord 27 0 n.val 0 d.val g.val)
    else if !s.me.super && sysHidden n.val then s.trap cPRIV 0 0
    else s.withK g fun s =>
      if n.val = 26 then
        let r := s.readEvq
        (r.1.setS d r.2 false).advance
      else (s.setS d (s.sysRead n.val) false).advance)

/-! ### Writing (R314, R315, R137, R328, R70) -/

/-- Why a value is refused: a trap cause, with ILLEGAL meaning reason 4. -/
def State.sysRefuse (s : State) (n : Nat) (v : W64) : Option Nat :=
  match n with
  | 7 => if 255 < v.toNat then some cILLEGAL else none
  | 10 => qctxTrap v
  | 14 => if v.toNat % 2 = 1 then some cILLEGAL else none
  | 15 => if v.toNat / 2 ^ 10 ≠ 0 then some cILLEGAL else if !s.me.super && bitOf v.toNat 9 then some cPRIV else none
  | 23 => if hamperOk v then none else some cILLEGAL
  | 25 => none
  | _ => none

/-- The write itself; p is the poison of sA. ASID and CNTSEL take the low 16 bits of sA: of the others R315 says nothing, and they are not
looked at (log 142). -/
def State.sysWrite (s : State) (n : Nat) (v : W64) (p : Bool) : State :=
  match n with
  | 7 => s.modMe (fun g => { g with scopeId := v })
  | 10 => s.modMe (fun g => g.setQ v g.qbase p)
  | 14 => s.modMe (fun g => { g with trapBase := v })
  | 15 => s.modMe (fun g => { g with trapCause := v })
  | 16 => s.modMe (fun g => { g with trapPc := v })
  | 17 => s.modMe (fun g => { g with trapAddr := v })
  | 18 => s.modMe (fun g => { g with trapInfo := v })
  | 19 => s.modMe (fun g => { g with trapSave := v })
  | 23 => s.hamperWrite s.me.asid v
  | 25 => s.modMe (fun g => { g with asid := v.setWidth 16 })
  | 27 => s.modMe (fun g => g.setQ g.qctx v p)
  | 32 => s.modMe (fun g => { g with cntSel := BitVec.ofNat 64 (v.toNat % 65536) })
  | _ => s

def execSwr (g : Guard) (a : UReg) (n : SysReg) (s : State) : Out State :=
  let word := s.ownWord 27 1 n.val a.val 0 g.val
  .next (
    if sysUnknown n.val then s.illegal4 word
    else if !s.me.super && sysHidden n.val then s.trap cPRIV 0 0
    else if !sysWritable s.me.super n.val then s.illegal4 word
    else s.withK g fun s =>
      let v := s.me.sget a
      let p := s.me.spoison a
      if p && n.val != 10 && n.val != 27 then s.poisonPc
      else match s.sysRefuse n.val v with
        | some c => if c = cILLEGAL then s.illegal4 word else s.trap c 0 0
        | none => (s.sysWrite n.val v p).advance)

/-- SWR.DEEP: entry n of the core's own constant window, as a store to the local store (R184, R23), checked against the range locks (R111);
the entry is a 32-bit word. -/
def execSwrDeep (g : Guard) (a : UReg) (n : Byte) (s : State) : Out State :=
  .next (
    if !s.me.super && decide (224 ≤ n.toNat) then s.trap cPRIV 0 0
    else s.withK g fun s =>
      if s.me.spoison a then s.poisonPc
      else
        let va : W64 := BitVec.ofNat 64 (localAddr s.me.loc.core (4 * n.toNat))
        match s.accCheck true 4 [⟨0, va⟩] with
        | some (c, x, i) => s.trap c x i
        | none =>
          match s.storeAll [s.mkEnt va .store (bytesOf 4 (s.me.sget a).toNat) false false] with
          | (s, false) => s
          | (s, true) => s.advance)

/-! ### TRAP, TRET, HALT, PCHK, REPLAY (R320 to R324) -/

/-- TRAP: the poison of sA is no use of it (R335). -/
def execTrap (g : Guard) (a : UReg) (s : State) : Out State := .next (s.withK g fun s => s.trap cSOFTWARE 0 (s.me.sget a))

def execTret (g : Guard) (s : State) : Out State := .next (s.withK g fun s => s.tret)

def execHalt (g : Guard) (s : State) : Out State :=
  .next (if !s.me.super then s.trap cPRIV 0 0 else s.withK g fun s => s.haltMe s.me.npc)

def execPchk (g : Guard) (d : KReg) (a : UReg) (s : State) : Out State :=
  .next (s.withK g fun s => (s.setK d (s.me.spoison a) false).advance)

/-- The core that REPLAY names. -/
def State.replayCore (s : State) (v : W64) : Option CoreId :=
  let w := winOf v.toNat
  if isWindow v.toNat && w.kind == 4 && w.off == 0 && PartMode.hasCore s.mode w.coreId then some w.coreId else none

def execReplay (g : Guard) (a : UReg) (s : State) : Out State :=
  .next (if !s.me.super then s.trap cPRIV 0 0
    else s.withK g fun s =>
      if s.me.spoison a then s.poisonPc
      else match s.replayCore (s.me.sget a) with
        | none => s.trap cADDRESS (s.me.sget a) 0
        | some c =>
          let (s, done) := s.replayLog c
          if s.me.status = .free ∨ s.me.status = .stopped then s else if done then s.advance else s.stall)

/-- A word that is not an instruction traps ILLEGAL with its reason (R187, R188). -/
def execIllegalEncoding (reason : Fin 16) (w : W32) (s : State) : Out State :=
  .next (s.trap cILLEGAL 0 (BitVec.ofNat 64 (reason.val * 2 ^ 32 + w.toNat)))

end Sys2Proof.Machine
end

