-- ==== Sys2Proof/Machine/Boot.lean ====
section
/-! DEFINITION. Host accesses (R365, R413), boot (R406 to R409, R435), wakes and loss of power (R14, R422), and the JTAG port (R416,
R419, R420). -/

namespace Sys2Proof.Machine

open Sys2Proof

/-! ### The host (R365, R413) -/

/-- One byte of the host mailbox page. -/
def State.pageByte (s : State) (off : Nat) : Byte :=
  if s.mgmt.off then 0
  else if off < 0x30 then BitVec.ofNat 8 (s.mgmt.hmb.read (off / 8 * 8) / 256 ^ (off % 8))
  else if off < 0x100 then 0
  else memGet s.mem (hmbExt off)

/-- A host write to the page: a register takes its 8 bytes at once. -/
def State.pageWrite (s : State) (off : Nat) (bs : List Byte) : State :=
  if s.mgmt.off || decide (2 ^ 16 < off + bs.length) then s
  else if off < 0x30 then
    if off % 8 = 0 ∧ bs.length = 8 then
      let v : W64 := BitVec.ofNat 64 (natOf bs)
      s.modMgmt (fun m => { m with hmb := m.hmb.write off v })
    else s
  else if off < 0x100 then s
  else s.onSoc (·.put (hmbExt off) bs false)

/-- The dies stand still: in recovery, off, or failed (R408, R421, R439). -/
def State.stopped (s : State) : Bool := s.mgmt.off || s.mgmt.recovery || s.mgmt.failed

/-! ### Boot (R406 to R409, R435) -/

/-- The bank that boots a kind: the active one, then the other, as when an update's image does not verify (R408, R453). -/
def Mgmt.bootBank (m : Mgmt) (kind : Nat) : Option (Nat × List Byte) :=
  let a := kget 0 m.activeBank kind
  let ok := fun (n : Nat) => match kfind (kind, n) m.banks with
    | some bs => if m.imgBad kind bs = none then some (n, bs) else none
    | none => none
  (ok a).or (ok (1 - a))

/-- One image is loaded, verified and measured; without a bank that verifies, boot stops in recovery (R408, R453). -/
def Mgmt.bootImage (m : Mgmt) (kind : Nat) : Mgmt :=
  if m.recovery then m
  else match m.bootBank kind with
    | none => { m with recovery := true }
    | some (n, bs) =>
      { (m.extend kind (fieldAt bs 8 4) (sha256 (imgSigned bs))) with
        activeBank := kset kind n m.activeBank, running := m.running.set (kind - 1) (fieldAt bs 8 4) }

/-- A controller's list is measured by its stored digest; one that is missing, or does not match it, is replaced by an empty one of digest
zero (R407, R408). -/
def Mgmt.bootList (m : Mgmt) (c : Nat) : Mgmt :=
  if m.recovery then m
  else match kfind c m.badList with
    | some l =>
      if listDigest l.frames = l.digest then m.extend 4 0 l.digest
      else { (m.extend 4 0 0) with badList := m.badList.filter (fun e => e.1 != c) }
    | none => m.extend 4 0 0

/-- The management core's own boot: what it forgets, the banks that become active, and the measurements. -/
def Mgmt.boot (m : Mgmt) : Mgmt :=
  let flip := m.staged.foldl (fun (l : KMap Nat Nat) k => kset k (1 - kget 0 l k) l) m.activeBank
  let m := { m with
    debug := 0, power := 0, recovery := false, m := 0, items := 0, log := [], nonce := none, mb := .zero, hmb := .zero,
    serving := none, lastServed := .host, trace := none,
    stage := [], staged := [], unlocking := none, activeBank := flip, brkHalt := false, failed := false, off := false,
    running := [0, 0, 0] }
  let m := [1, 2, 3].foldl Mgmt.bootImage m
  let m := (List.range 8).foldl Mgmt.bootList m
  if m.recovery then m else m.extend 0x10 0 (sha256 [BitVec.ofNat 8 m.lifecycle])

/-- The core that a history entry concerns, and whether it starts quarantined for it: a second pipeline failure or a failed test. -/
def HistEnt.coreOf (e : HistEnt) : Option (Nat × Nat × Nat × Bool) :=
  let b := fun (k : Nat) => (e.payload.getD k 0).toNat
  if e.typ = 0x11 then some (e.die, b 0, b 1, b 3 == 2)
  else if e.typ = 0x10E then some (e.die, b 0, b 1, b 2 == 1)
  else none

/-- Quarantine from the latest entry of each core. -/
def State.bootQuarantine (s : State) : State :=
  s.mgmt.history.foldl (fun (s : State) e =>
    match e.coreOf with
    | none => s
    | some (p, cl, co, bad) =>
      match s.dieOf p with
      | none => s
      | some d => s.modCore ⟨d, cl, co⟩ (fun k => { k with quarantined := bad })) s

/-- A queue supervisor's thread group at its start (R406): where the image begins and what else it holds is firmware's (log 30). -/
def bootTg (c : CoreId) (pc s0 : W64) : TG :=
  { TG.zero ⟨c, 0⟩ with
    status := .ready, vregs := 256, uregs := 64, super := true, pc := pc, x := 0xFFFFFFFF,
    s := Vector.ofFn (fun i : Fin 64 => if i.val = 0 then s0 else 0) }

/-- The compute dies whose reserved core moves from core 7 to core 6 (R12). -/
def State.bootSpare (s : State) : State :=
  (List.range s.mode.computeDies).foldl (fun (s : State) d =>
    s.modDie d (fun x => { x with spare := (s.core ⟨d, 23, 7⟩).quarantined })) s

/-- Firmware starts the queue supervisor on a compute die's reserved core. Where the table names no start, the PC and s0 are free (log 30). -/
def State.bootDie (table : List (Nat × W64 × W64)) (s : State) (d : Nat) : State :=
  let c := s.reservedCore d
  match table.find? (fun e => e.1 == d) with
  | some e => s.addTg (bootTg c e.2.1 e.2.2)
  | none => s.useFree.useFree.addTg (bootTg c s.freeWord s.useFree.freeWord)

/-- The device starts, as a part of its package in a mode. Memory keeps what it holds: where firmware loads the images is not given
(log 30). -/
def State.start (s : State) (mode : PartMode) (part : Nat) (table : List (Nat × W64 × W64)) : State :=
  let o := s.toSoc
  let m := s.mgmt
  let kept := ((o.clear (2 ^ 63) (2 ^ 64)).clear (2 ^ 66) (2 ^ 67))
  let s : State := { toSoc := { Soc.reset with
                       mode := mode, part := part, devid := o.devid, mem := kept.mem, poison := kept.poison, ptp := o.ptp, seq := o.seq,
                       free := o.free, badFrames := if m.recovery then [] else m.badList.map (fun e => (e.1, e.2.frames)) },
                     mgmt := m, agenda := s.agenda, pace := none }
  if m.recovery then s
  else
    let s := s.bootQuarantine.bootSpare
    if s.mgmt.lifecycle = 4 then s else (List.range s.mode.computeDies).foldl (State.bootDie table) s

/-- Device reset and boot: no context has been created, and the mode is that before, until the first one is (R17, R445). -/
def State.boot (s : State) (table : List (Nat × W64 × W64)) : State :=
  ({ s with mgmt := s.mgmt.boot } : State).start s.mode s.part table

/-- The partition modes, and how many devices each divides a package into (R17). -/
def modeOf (n : Fin 3) : PartMode := if n.val = 0 then .whole else if n.val = 1 then .half else .die
def PartMode.parts : PartMode → Nat
  | .whole => 1
  | .half => 2
  | .die => 8

/-- The host creates a context: the first since the package's reset, while the device holds nothing of one, fixes the mode, and the device
starts in it where it differs (R17, R445, log 144). -/
def State.createFirst (s : State) (n : Fin 3) (part devid : Nat) : State :=
  let mode := modeOf n
  let idle := s.tasks.isEmpty && s.futs.isEmpty && s.slots.all (fun x => !x.2.mapped)
  if s.created || !idle || decide (PartMode.parts mode ≤ part) || decide (2 ^ 22 ≤ devid) then s
  else
    let s := if mode = s.mode ∧ part = s.part then s else s.start mode part []
    { s with created := true, devid := devid }

/-- A host access; one that its home cannot perform yet waits behind those before it. Any access over the link wakes the device (R422). -/
def State.hostAcc (s : State) (a : HostAcc) : State :=
  let s := if s.mgmt.off then s else s.wakeUp
  match a with
  | .load .. | .store .. =>
    (match (if s.hostq = [] then s.hostNow a else none) with
     | some s => s
     | none => { s with hostq := s.hostq ++ [a] })
  | .create m part devid => s.createFirst m part devid
  | .pageLoad off z => s.hostGot ((List.range z).map (fun k => s.pageByte (off + k)))
  | .pageStore off bs => s.pageWrite off bs
  | .doorLoad _ z => s.hostGot (List.replicate z 0)
  | .doorStore off bs => if off % 8 = 0 ∧ off < 8192 ∧ bs.length = 8 ∧ s.stopped = false then s.kickQueue (off / 8) else s

def execHostAccess (a : HostAcc) (s : State) : Out State :=
  .next (match a with
    | .load .. | .store .. | .create .. => if s.stopped then s else s.hostAcc a
    | _ => s.hostAcc a)

def execBoot (table : List (Nat × W64 × W64)) (s : State) : Out State := .next (s.boot table)

/-- POWER_WAKE. -/
def execPowerWake (s : State) : Out State := .next s.wakeUp

/-- POWER_LOSS: on-chip state is lost; memory stacks and the keep tier keep theirs (log 30). -/
def execPowerLoss (s : State) : Out State := .next (s.powerGone false)

/-! ### JTAG (R416, R419) -/

def State.shiftOut (s : State) (bs : List Byte) : State := s.modMgmt (fun m => { m with jtagOut := m.jtagOut ++ bs })

def bitByte (b : Bool) : Byte := if b then 1 else 0

/-- IDCODE: 32 bits, lowest first. -/
def execIdcode (s : State) : Out State :=
  .next (if s.mgmt.off then s else s.shiftOut ((List.range 32).map (fun k => bitByte (Config.idcodeWord.getLsbD k))))

/-- BYPASS: one bit of delay, which starts as zero. -/
def execBypass (bits : List Bool) (s : State) : Out State :=
  .next (if s.mgmt.off then s else s.shiftOut (((false :: bits).take bits.length).map bitByte))

/-- What only a debugger at HALT may do; at any lower level the port acts as BYPASS. -/
def State.invasive (s : State) (f : State → State) : State := if s.mgmt.debug = 2 ∧ s.mgmt.off = false then f s else s

/-- JTAG_HALT: no further group is fetched. -/
def execJtagHalt (t : TgRef) (s : State) : Out State :=
  .next (s.invasive fun s => s.modTg t (fun g => if g.status = .free then g else { g with dbg := true, stepping := 0 }))

/-- A thread group that the debugger, HALT or BREAK has halted goes on; one that HALT stopped below HALT does not, before the next boot. -/
def TG.resume (g : TG) (step : Nat) : TG :=
  if g.dbg || g.status == .halted true then
    { g with dbg := false, stepping := step, status := if g.status = .halted true then .ready else g.status }
  else g

def execJtagResume (t : TgRef) (s : State) : Out State := .next (s.invasive fun s => s.modTg t (TG.resume · 0))

/-- JTAG_STEP: one group, then halted again. -/
def execJtagStep (t : TgRef) (s : State) : Out State := .next (s.invasive fun s => s.modTg t (TG.resume · 1))

/-- A halted thread group at a group boundary, or before the parked instruction in which it was halted. -/
def State.halted (s : State) (t : TgRef) : Option TG :=
  match s.tgAt t with
  | some g => if (g.dbg || g.isHalted) && (g.cur.isNone || g.isParked) then some g else none
  | none => none

/-- The debugger moves a halted thread group: it leaves the wait of a parked instruction, and goes on elsewhere. -/
def State.moveTo (s : State) (t : TgRef) (pc : W64) : State :=
  match s.halted t with
  | none => s
  | some g =>
    let leave := fun (g : TG) => { g with cur := none, phase := .start, wake := none, status := .ready }
    let s : State := match g.status with
      | .parked k h =>
        let s : State := if k = 1 then ((s.focus t).leaveWait h).focus s.me.loc else s
        ({ s with watches := s.watches.filter (fun w => w.tg != t) } : State).modTg t leave
      | _ => s
    s.modTg t (fun g => { g with pc := pc })

/-- Bytes written into a tile window: the words that elements show (R25, R419). -/
def Tile.putByte (t : Tile) (o : Nat) (b : Byte) : Tile :=
  let el := kget .zero t.elems (o / 16)
  let x := el.x.toNat
  let k := o % 16
  let el := { el with x := BitVec.ofNat 128 (x - x / 256 ^ k % 256 * 256 ^ k + b.toNat * 256 ^ k) }
  { t with elems := if el = .zero then kdel (o / 16) t.elems else kset (o / 16) el t.elems, found := t.found.filter (fun n => n % 2 ^ 20 != o / 16) }

/-- An element that is written whole is clean. -/
def State.tilePut (s : State) (c : CoreId) (off : Nat) (bs : List Byte) : State :=
  s.modCore c (fun k => (bs.zipIdx).foldl (fun (k : Core) b =>
    let a := off + b.2
    let n := a % 0x40000 / 16
    let whole := decide (off ≤ a / 16 * 16) && decide (a / 16 * 16 + 16 ≤ off + bs.length)
    let t := (k.tile (a / 0x40000)).putByte (a % 0x40000) b.1
    k.setTile (a / 0x40000) { t with pois := if whole then t.pois.filter (· != n) else t.pois }) k)

/-- The debugger reads storage: a window, or device memory by physical address. -/
def State.dbgRead (s : State) (a n : Nat) : List Byte :=
  if isWindow a then
    let w := winOf a
    if 2 < w.kind then bytesOf n (s.readReg a)
    else if w.kind = 2 then s.tileBytes w.coreId w.off n
    else memBytes s.mem a n
  else memBytes s.mem a n

def State.dbgOk (s : State) (write : Bool) (a n : Nat) : Bool :=
  if isWindow a then winCheck s.mode true write a n == .ok else PartMode.paOk s.mode a && PartMode.paOk s.mode (a + n - 1)

/-- The debugger names the buffer of TRACE, in device memory or in a scratchpad or local store; no bytes end the recording (R420). -/
def State.traceTo (s : State) (a n : Nat) : State :=
  let store := if isWindow a then decide ((winOf a).kind < 2) else true
  if s.mgmt.debug = 0 ∨ s.mgmt.off = true then s
  else if n < 32 then s.modMgmt (fun m => { m with trace := none })
  else if store && s.dbgOk true a n then s.modMgmt (fun m => { m with trace := some ⟨a, n, 0⟩ }) else s

/-- A register or memory access of a debugger at HALT. -/
def State.jtag (s : State) (a : JtagAcc) : State :=
    let read := fun (t : TgRef) (f : TG → List Byte) => match s.halted t with
      | some g => s.shiftOut (f g)
      | none => s
    let write := fun (t : TgRef) (f : TG → TG) => if (s.halted t).isSome then s.modTg t f else s
    match a with
    | .readS t r => read t (fun g => bytesOf 8 g.s[r].toNat)
    | .writeS t r v => write t (fun g => g.setS r v (g.spoison r))
    | .readV t r l => read t (fun g => bytesOf 4 (g.v[r][l]).toNat)
    | .writeV t r l v => write t (fun g => g.setV r (BitVec.ofNat 32 (2 ^ l.val)) (fun _ => v) g.vp[r])
    | .readPc t => read t (fun g => bytesOf 8 g.pc.toNat)
    | .writePc t v => s.moveTo t v
    | .readP t r => read t (fun g => bytesOf 4 g.p[r].toNat)
    | .writeP t r v => write t (fun g => { g with p := g.p.set r v, found := g.wrote 2 r.val (fun _ => true) })
    | .readK t => read t (fun g => [g.k])
    | .writeK t v => write t (fun g => { g with k := v, found := g.found.filter (fun w => w.1 % 16 != 3) })
    | .readX t => read t (fun g => bytesOf 4 g.x.toNat)
    | .writeX t v => write t (fun g => { g with x := v })
    | .readH t r => read t (fun g => bytesOf 8 g.rings[r].toNat)
    | .writeH t r v => (write t (fun g => { g with rings := g.rings.set r v })).dropRings t.core.cluster
    | .readTok t n => read t (fun g => bytesOf 1 g.tok[n])
    | .writeTok t n v => write t (fun g => { g with tok := g.tok.set n v.val })
    | .readVPoison t r => read t (fun g => bytesOf 4 g.vp[r].toNat)
    | .writeVPoison t r v => write t (fun g => { g with vp := g.vp.set r v })
    | .readSPoison t => read t (fun g => bytesOf 8 g.sp.toNat)
    | .writeSPoison t v => write t (fun g => { g with sp := v })
    | .readPPoison t r => read t (fun g => bytesOf 4 g.pp[r].toNat)
    | .writePPoison t r v => write t (fun g => { g with pp := g.pp.set r v })
    | .readKPoison t => read t (fun g => [g.kp])
    | .writeKPoison t v => write t (fun g => { g with kp := v })
    | .readSys t n => if (s.halted t).isSome then s.shiftOut (bytesOf 8 ((s.focus t).sysRead n.val).toNat) else s
    | .writeSys t n v => if (s.halted t).isSome then ((s.focus t).sysWrite n.val v false).focus s.me.loc else s
    | .readMem x n => if s.dbgOk false x n then s.shiftOut (s.dbgRead x n) else s
    | .writeMem x bs =>
      if isWindow x && (winOf x).kind == 2 then (if s.dbgOk false x bs.length then s.tilePut (winOf x).coreId (winOf x).off bs else s)
      else if !s.dbgOk true x bs.length then s
      else if isWindow x && decide (2 < (winOf x).kind) then s.writeReg x (BitVec.ofNat 64 (natOf bs))
      else s.homeWrite x bs
    | .traceBuf x n => s.traceTo x n
    | .brkHalt on => s.modMgmt (fun m => { m with brkHalt := on })

def execJtagAccess (a : JtagAcc) (s : State) : Out State :=
  .next (match a with
    | .traceBuf x n => s.traceTo x n
    | a => s.invasive (·.jtag a))

end Sys2Proof.Machine
end

