-- ==== Sys2Proof/Machine/Control.lean ====
section
/-! DEFINITION. Majors 16 to 18: branches, calls, returns, NOP, WAITK and BRK (R196 to R200). -/

namespace Sys2Proof.Machine

open Sys2Proof

/-- s62, the link register (R196, R197). -/
def link : UReg := 62

/-- The target of a J-format word (R196). -/
def State.jTarget (s : State) (o : BitVec 20) : W64 := s.me.pc + 2 * o.signExtend 64

/-- branch of R196: the poison of the condition, the condition, the target's check, then the transfer; setLink for CALL. -/
def State.branch (s : State) (c : KReg) (cn : Bool) (o : BitVec 20) (setLink : Bool) : State :=
  if s.kpoison c then s.poisonPc
  else if s.kval c == cn then s.advance
  else
    let t := s.jTarget o
    if t.toNat / 2 ^ 57 ≠ 0 then s.trap cADDRESS t 0
    else (if setLink then s.setS link s.me.npc false else s).jump t

/-- A transfer to a register's value (R198): checked before any write. -/
def State.transfer (s : State) (a : UReg) (setLink : Bool) : State :=
  let t := s.me.sget a
  if s.me.spoison a then s.poisonPc
  else match targetTrap t with
    | some c => s.trap c t 0
    | none => (if setLink then s.setS link s.me.npc false else s).jump t

def execBr (c : KReg) (cn : Bool) (o : BitVec 20) (s : State) : Out State := .next (s.branch c cn o false)
def execCall (c : KReg) (cn : Bool) (o : BitVec 20) (s : State) : Out State := .next (s.branch c cn o true)
def execJmpr (g : Guard) (a : UReg) (s : State) : Out State := .next (s.withK g fun s => s.transfer a false)
def execCallr (g : Guard) (a : UReg) (s : State) : Out State := .next (s.withK g fun s => s.transfer a true)
/-- RET is JMPR s62 (R198). -/
def execRet (g : Guard) (s : State) : Out State := .next (s.withK g fun s => s.transfer link false)
def execCRet (s : State) : Out State := .next (s.transfer link false)
def execNop (g : Guard) (s : State) : Out State := .next (s.withK g fun s => s.advance)
def execCNop (s : State) : Out State := .next s.advance

/-- WAITK (R199): in user mode a wait for k13 or k15 traps PRIV, whatever the guard (R186). -/
def execWaitk (g : Guard) (a : KReg) (s : State) : Out State :=
  .next (if !s.me.super && (a.val == 13 || a.val == 15) then s.trap cPRIV 0 0
    else s.withK g fun s => s.waitFor 9 (BitVec.ofNat 64 a.val) (s.kval a) State.advance)

/-- BRK (R200): with the debug level HALT and BRKHALT set, BREAK halts the thread group instead (R419). -/
def execBrk (g : Guard) (s : State) : Out State :=
  .next (s.withK g fun s =>
    if s.mgmt.debug == 2 && s.mgmt.brkHalt then s.haltMe s.me.pc else s.trap cBREAK 0 0)

end Sys2Proof.Machine
end

