-- ==== Sys2Proof/Machine/Cross.lean ====
section
/-! DEFINITION. Major 11: values that cross between the uniform and the lane file (R201 to R207). -/

namespace Sys2Proof.Machine

open Sys2Proof

/-- The active lanes, in ascending order. -/
def TG.lanes (g : TG) (gd : Guard) : List (Fin 32) := (List.finRange 32).filter (fun l => (g.active gd).getLsbD l.val)

/-- A lane number from bits [4:0] (R202, R203). -/
def lane5 (n : Nat) : Fin 32 := Fin.ofNat 32 n

/-- VBCST (R202). -/
def execVbcst (g : Guard) (d : VReg) (a : UReg) (s : State) : Out State :=
  .next (s.withP g fun s =>
    (s.setV d (s.me.active g) (fun _ => (s.me.sget a).setWidth 32) (allLanes (s.me.spoison a))).advance)

/-- VRDLN (R203): one lane, whatever X holds. -/
def execVrdln (d : UReg) (a : VReg) (b : UReg) (s : State) : Out State :=
  let l := lane5 (s.me.sget b).toNat
  .next (s.setS d (((s.me.vget a)[l]).setWidth 64) ((s.me.vpoison a).getLsbD l.val || s.me.spoison b)).advance

/-- VWRLN (R203): one lane, whatever X holds. -/
def execVwrln (d : VReg) (a b : UReg) (s : State) : Out State :=
  let l := lane5 (s.me.sget b).toNat
  .next (s.setV d (BitVec.ofNat 32 (2 ^ l.val)) (fun _ => (s.me.sget a).setWidth 32)
    (allLanes (s.me.spoison a || s.me.spoison b))).advance

/-- VFIRST (R204). -/
def execVfirst (g : Guard) (d : UReg) (a : VReg) (s : State) : Out State :=
  .next (s.withP g fun s =>
    (match s.me.lanes g with
     | [] => s.setS d 0 false
     | l :: _ => s.setS d (((s.me.vget a)[l]).setWidth 64) ((s.me.vpoison a).getLsbD l.val)).advance)

/-- VBALLOT (R204). -/
def execVballot (g : Guard) (d : UReg) (a : PReg) (s : State) : Out State :=
  .next (s.withP g fun s =>
    (s.setS d ((s.me.active g &&& s.me.pval a).setWidth 64) (s.me.active g &&& s.me.ppoison a != 0)).advance)

/-- PFROMS (R202). -/
def execPfroms (g : Guard) (d : PReg) (a : UReg) (s : State) : Out State :=
  .next (s.withP g fun s =>
    (s.setP d (s.me.active g) ((s.me.sget a).setWidth 32) (allLanes (s.me.spoison a))).advance)

/-- PANYK (R204). -/
def execPanyk (g : Guard) (d : KReg) (a : PReg) (s : State) : Out State :=
  .next (s.withP g fun s =>
    (s.setK d (s.me.active g &&& s.me.pval a != 0) (s.me.active g &&& s.me.ppoison a != 0)).advance)

/-- PALLK (R204): true when no lane is active. -/
def execPallk (g : Guard) (d : KReg) (a : PReg) (s : State) : Out State :=
  .next (s.withP g fun s =>
    (s.setK d (s.me.active g &&& ~~~(s.me.pval a) == 0) (s.me.active g &&& s.me.ppoison a != 0)).advance)

/-- XSET (R205). -/
def execXset (a : PReg) (s : State) : Out State :=
  .next (if s.me.ppoison a &&& s.me.x ≠ 0 then s.poisonPc
    else (s.modMe (fun t => { t with x := t.x &&& t.pval a })).advance)

/-- XSAVE (R205). -/
def execXsave (d : UReg) (s : State) : Out State := .next (s.setS d (s.me.x.setWidth 64) false).advance

/-- XREST (R205). -/
def execXrest (a : UReg) (s : State) : Out State :=
  .next (if s.me.spoison a then s.poisonPc else (s.modMe (fun t => { t with x := (t.sget a).setWidth 32 })).advance)

/-- The source lane of VSHFL (R202). -/
def TG.shflIndex (g : TG) (b : VSrc) (l : Fin 32) : Fin 32 :=
  match b with
  | .v r => lane5 ((g.vget r)[l]).toNat
  | .s r => lane5 (l.val ^^^ ((g.sget r).toNat % 32))

/-- VSHFL (R202): reads any lane, writes the active ones. -/
def execVshfl (g : Guard) (d a : VReg) (b : VSrc) (s : State) : Out State :=
  .next (s.withP g fun s =>
    (s.setV d (s.me.active g) (fun l => (s.me.vget a)[s.me.shflIndex b l])
      (laneBits (fun l => (s.me.vpoison a).getLsbD (s.me.shflIndex b l).val) ||| s.me.bpoison b)).advance)

/-- VREDAI (R204, R145). -/
def execVredai (g : Guard) (d : UReg) (a : VReg) (s : State) : Out State :=
  .next (s.withP g fun s =>
    (s.setS d (BitVec.ofInt 64 ((s.me.lanes g).foldl (fun acc l => acc + ((s.me.vget a)[l]).toInt) 0))
      (s.me.active g &&& s.me.vpoison a != 0)).advance)

/-- A tree reduction over the active lanes, with its result when none is active (R145, R204). -/
def State.treeRed (s : State) (g : Guard) (d : UReg) (a : VReg) (op : Nat → Nat → Nat) (empty : Nat) : State :=
  s.withP g fun s =>
    let leaves := (List.finRange 32).map (fun l : Fin 32 =>
      if (s.me.active g).getLsbD l.val then some ((s.me.vget a)[l]).toNat else none)
    (s.setS d (BitVec.ofNat 64 ((treeRoot op leaves).getD empty)) (s.me.active g &&& s.me.vpoison a != 0)).advance

def execVredaf (g : Guard) (d : UReg) (a : VReg) (s : State) : Out State := .next (s.treeRed g d a (FFmt.fp32.add .rne) 0)
def execVredmx (g : Guard) (d : UReg) (a : VReg) (s : State) : Out State := .next (s.treeRed g d a fmaxNan 0xFF800000)

/-- The FX128 integer of a lane: four registers, the lowest first (R144). -/
def TG.fxLane (g : TG) (d : VReg) (l : Fin 32) : W128 :=
  BitVec.ofNat 128 ((List.range 4).foldl (fun acc k => acc + ((g.vget (VReg.plus d k))[l]).toNat * 2 ^ (32 * k)) 0)

/-- VXACC (R206): a non-finite active addend traps FORMAT. -/
def execVxacc (g : Guard) (d a : VReg) (s : State) : Out State :=
  .next (s.withP g fun s =>
    if (s.me.lanes g).any (fun l => f32NonFinite ((s.me.vget a)[l]).toNat) then s.trap cFORMAT 0 0
    else
      let m := s.me
      let sum := fun (l : Fin 32) => fxAddF32 (m.fxLane d l) ((m.vget a)[l]).toNat
      let p := m.vpoison a ||| m.vpoison (VReg.plus d 0) ||| m.vpoison (VReg.plus d 1) ||| m.vpoison (VReg.plus d 2) |||
        m.vpoison (VReg.plus d 3)
      ((List.range 4).foldl (fun (s : State) k =>
        s.setV (VReg.plus d k) (m.active g) (fun l => ((sum l) >>> (32 * k)).setWidth 32) p) s).advance)

end Sys2Proof.Machine
end

