-- ==== Sys2Proof/Machine/Dispatch.lean ====
section
/-! DEFINITION. The dispatch of every instruction and agent step to its meaning. -/

namespace Sys2Proof.Machine

def exec (i : Instr) (s : State) : Host.Outcome State Fault Refusal :=
  match i with
  | .sadd g d a b => Sys2Proof.Machine.execSadd g d a b s
  | .ssub g d a b => Sys2Proof.Machine.execSsub g d a b s
  | .smul g d a b => Sys2Proof.Machine.execSmul g d a b s
  | .smulh g d a b => Sys2Proof.Machine.execSmulh g d a b s
  | .smulhu g d a b => Sys2Proof.Machine.execSmulhu g d a b s
  | .sdiv g d a b => Sys2Proof.Machine.execSdiv g d a b s
  | .sdivu g d a b => Sys2Proof.Machine.execSdivu g d a b s
  | .srem g d a b => Sys2Proof.Machine.execSrem g d a b s
  | .sand g d a b => Sys2Proof.Machine.execSand g d a b s
  | .sor g d a b => Sys2Proof.Machine.execSor g d a b s
  | .sxor g d a b => Sys2Proof.Machine.execSxor g d a b s
  | .sshl g d a b => Sys2Proof.Machine.execSshl g d a b s
  | .sshr g d a b => Sys2Proof.Machine.execSshr g d a b s
  | .ssar g d a b => Sys2Proof.Machine.execSsar g d a b s
  | .smin g d a b => Sys2Proof.Machine.execSmin g d a b s
  | .smax g d a b => Sys2Proof.Machine.execSmax g d a b s
  | .smovk g d k => Sys2Proof.Machine.execSmovk g d k s
  | .saddk g d a k => Sys2Proof.Machine.execSaddk g d a k s
  | .sandk g d a k => Sys2Proof.Machine.execSandk g d a k s
  | .sshlk g d a k => Sys2Proof.Machine.execSshlk g d a k s
  | .smov g d a => Sys2Proof.Machine.execSmov g d a s
  | .snot g d a => Sys2Proof.Machine.execSnot g d a s
  | .sneg g d a => Sys2Proof.Machine.execSneg g d a s
  | .sabs g d a => Sys2Proof.Machine.execSabs g d a s
  | .sclz g d a => Sys2Proof.Machine.execSclz g d a s
  | .spopc g d a => Sys2Proof.Machine.execSpopc g d a s
  | .ssx32 g d a => Sys2Proof.Machine.execSsx32 g d a s
  | .szx32 g d a => Sys2Proof.Machine.execSzx32 g d a s
  | .sbrev g d a => Sys2Proof.Machine.execSbrev g d a s
  | .scmpeq g d a b => Sys2Proof.Machine.execScmpeq g d a b s
  | .scmpne g d a b => Sys2Proof.Machine.execScmpne g d a b s
  | .scmplt g d a b => Sys2Proof.Machine.execScmplt g d a b s
  | .scmple g d a b => Sys2Proof.Machine.execScmple g d a b s
  | .scmpltu g d a b => Sys2Proof.Machine.execScmpltu g d a b s
  | .scmpleu g d a b => Sys2Proof.Machine.execScmpleu g d a b s
  | .kand g d a b => Sys2Proof.Machine.execKand g d a b s
  | .kor g d a b => Sys2Proof.Machine.execKor g d a b s
  | .kxor g d a b => Sys2Proof.Machine.execKxor g d a b s
  | .kandn g d a b => Sys2Proof.Machine.execKandn g d a b s
  | .vadd g d a b sat => Sys2Proof.Machine.execVadd g d a b sat s
  | .vsub g d a b sat => Sys2Proof.Machine.execVsub g d a b sat s
  | .vmul g d a b => Sys2Proof.Machine.execVmul g d a b s
  | .vmulh g d a b => Sys2Proof.Machine.execVmulh g d a b s
  | .vmulhu g d a b => Sys2Proof.Machine.execVmulhu g d a b s
  | .vmad g d a b => Sys2Proof.Machine.execVmad g d a b s
  | .vand g d a b => Sys2Proof.Machine.execVand g d a b s
  | .vor g d a b => Sys2Proof.Machine.execVor g d a b s
  | .vxor g d a b => Sys2Proof.Machine.execVxor g d a b s
  | .vshl g d a b => Sys2Proof.Machine.execVshl g d a b s
  | .vshr g d a b => Sys2Proof.Machine.execVshr g d a b s
  | .vsar g d a b => Sys2Proof.Machine.execVsar g d a b s
  | .vmin g d a b => Sys2Proof.Machine.execVmin g d a b s
  | .vmax g d a b => Sys2Proof.Machine.execVmax g d a b s
  | .vminu g d a b => Sys2Proof.Machine.execVminu g d a b s
  | .vmaxu g d a b => Sys2Proof.Machine.execVmaxu g d a b s
  | .vmovk g d k => Sys2Proof.Machine.execVmovk g d k s
  | .vaddk g d a k sat => Sys2Proof.Machine.execVaddk g d a k sat s
  | .vandk g d a k => Sys2Proof.Machine.execVandk g d a k s
  | .vshlk g d a k => Sys2Proof.Machine.execVshlk g d a k s
  | .vfadd g d a b r => Sys2Proof.Machine.execVfadd g d a b r s
  | .vfsub g d a b r => Sys2Proof.Machine.execVfsub g d a b r s
  | .vfmul g d a b r => Sys2Proof.Machine.execVfmul g d a b r s
  | .vfma g d a b r => Sys2Proof.Machine.execVfma g d a b r s
  | .vfms g d a b r => Sys2Proof.Machine.execVfms g d a b r s
  | .vfnma g d a b r => Sys2Proof.Machine.execVfnma g d a b r s
  | .vfmin g d a b => Sys2Proof.Machine.execVfmin g d a b s
  | .vfmax g d a b => Sys2Proof.Machine.execVfmax g d a b s
  | .vfdiv g d a b r => Sys2Proof.Machine.execVfdiv g d a b r s
  | .vfcpys g d a b => Sys2Proof.Machine.execVfcpys g d a b s
  | .vhaddf g d a b r => Sys2Proof.Machine.execVhaddf g d a b r s
  | .vhmulf g d a b r => Sys2Proof.Machine.execVhmulf g d a b r s
  | .vhfmaf g d a b r => Sys2Proof.Machine.execVhfmaf g d a b r s
  | .vhminf g d a b => Sys2Proof.Machine.execVhminf g d a b s
  | .vhmaxf g d a b => Sys2Proof.Machine.execVhmaxf g d a b s
  | .vhaddb g d a b r => Sys2Proof.Machine.execVhaddb g d a b r s
  | .vhmulb g d a b r => Sys2Proof.Machine.execVhmulb g d a b r s
  | .vhfmab g d a b r => Sys2Proof.Machine.execVhfmab g d a b r s
  | .vhminb g d a b => Sys2Proof.Machine.execVhminb g d a b s
  | .vhmaxb g d a b => Sys2Proof.Machine.execVhmaxb g d a b s
  | .vdot2f g d a b r => Sys2Proof.Machine.execVdot2f g d a b r s
  | .vdot2b g d a b r => Sys2Proof.Machine.execVdot2b g d a b r s
  | .vdot4i g d a b sat => Sys2Proof.Machine.execVdot4i g d a b sat s
  | .vfabs g d a => Sys2Proof.Machine.execVfabs g d a s
  | .vfneg g d a => Sys2Proof.Machine.execVfneg g d a s
  | .vfsqrt g d a r => Sys2Proof.Machine.execVfsqrt g d a r s
  | .vfrsq g d a => Sys2Proof.Machine.execVfrsq g d a s
  | .vfrcp g d a => Sys2Proof.Machine.execVfrcp g d a s
  | .vfexp2 g d a => Sys2Proof.Machine.execVfexp2 g d a s
  | .vflog2 g d a => Sys2Proof.Machine.execVflog2 g d a s
  | .vffloor g d a => Sys2Proof.Machine.execVffloor g d a s
  | .vfceil g d a => Sys2Proof.Machine.execVfceil g d a s
  | .vfrint g d a r => Sys2Proof.Machine.execVfrint g d a r s
  | .vftrunc g d a => Sys2Proof.Machine.execVftrunc g d a s
  | .vfclass g d a => Sys2Proof.Machine.execVfclass g d a s
  | .vftanh g d a => Sys2Proof.Machine.execVftanh g d a s
  | .vcvtfi g d a r => Sys2Proof.Machine.execVcvtfi g d a r s
  | .vcvtif g d a r => Sys2Proof.Machine.execVcvtif g d a r s
  | .vcvtfu g d a r => Sys2Proof.Machine.execVcvtfu g d a r s
  | .vcvtuf g d a r => Sys2Proof.Machine.execVcvtuf g d a r s
  | .vcvtfh g d a b r sat => Sys2Proof.Machine.execVcvtfh g d a b r sat s
  | .vcvthf g d a => Sys2Proof.Machine.execVcvthf g d a s
  | .vcvtfb g d a b r sat => Sys2Proof.Machine.execVcvtfb g d a b r sat s
  | .vcvtbf g d a => Sys2Proof.Machine.execVcvtbf g d a s
  | .vqnt g d a b => Sys2Proof.Machine.execVqnt g d a b s
  | .vdqnt g d a b => Sys2Proof.Machine.execVdqnt g d a b s
  | .vdgen g d b => Sys2Proof.Machine.execVdgen g d b s
  | .vpack8 g d a b => Sys2Proof.Machine.execVpack8 g d a b s
  | .vunpk8 g d a b => Sys2Proof.Machine.execVunpk8 g d a b s
  | .vqcfg a b => Sys2Proof.Machine.execVqcfg a b s
  | .vcmpeq g d a b => Sys2Proof.Machine.execVcmpeq g d a b s
  | .vcmpne g d a b => Sys2Proof.Machine.execVcmpne g d a b s
  | .vcmplt g d a b => Sys2Proof.Machine.execVcmplt g d a b s
  | .vcmple g d a b => Sys2Proof.Machine.execVcmple g d a b s
  | .vcmpltu g d a b => Sys2Proof.Machine.execVcmpltu g d a b s
  | .vcmpleu g d a b => Sys2Proof.Machine.execVcmpleu g d a b s
  | .vfcmpeq g d a b => Sys2Proof.Machine.execVfcmpeq g d a b s
  | .vfcmplt g d a b => Sys2Proof.Machine.execVfcmplt g d a b s
  | .vfcmple g d a b => Sys2Proof.Machine.execVfcmple g d a b s
  | .vfcmpun g d a b => Sys2Proof.Machine.execVfcmpun g d a b s
  | .pand g d a b => Sys2Proof.Machine.execPand g d a b s
  | .por g d a b => Sys2Proof.Machine.execPor g d a b s
  | .pxor g d a b => Sys2Proof.Machine.execPxor g d a b s
  | .pandn g d a b => Sys2Proof.Machine.execPandn g d a b s
  | .vbcst g d a => Sys2Proof.Machine.execVbcst g d a s
  | .vrdln d a b => Sys2Proof.Machine.execVrdln d a b s
  | .vwrln d a b => Sys2Proof.Machine.execVwrln d a b s
  | .vfirst g d a => Sys2Proof.Machine.execVfirst g d a s
  | .vballot g d a => Sys2Proof.Machine.execVballot g d a s
  | .pfroms g d a => Sys2Proof.Machine.execPfroms g d a s
  | .panyk g d a => Sys2Proof.Machine.execPanyk g d a s
  | .pallk g d a => Sys2Proof.Machine.execPallk g d a s
  | .xset a => Sys2Proof.Machine.execXset a s
  | .xsave d => Sys2Proof.Machine.execXsave d s
  | .xrest a => Sys2Proof.Machine.execXrest a s
  | .vshfl g d a b => Sys2Proof.Machine.execVshfl g d a b s
  | .vredai g d a => Sys2Proof.Machine.execVredai g d a s
  | .vredaf g d a => Sys2Proof.Machine.execVredaf g d a s
  | .vredmx g d a => Sys2Proof.Machine.execVredmx g d a s
  | .vxacc g d a => Sys2Proof.Machine.execVxacc g d a s
  | .vldw g d a b => Sys2Proof.Machine.execVldw g d a b s
  | .vldh g d a b => Sys2Proof.Machine.execVldh g d a b s
  | .vldb g d a b => Sys2Proof.Machine.execVldb g d a b s
  | .vldd g d a b => Sys2Proof.Machine.execVldd g d a b s
  | .vldsw g d a b => Sys2Proof.Machine.execVldsw g d a b s
  | .vldq g d a b => Sys2Proof.Machine.execVldq g d a b s
  | .vldc g d a => Sys2Proof.Machine.execVldc g d a s
  | .vldsc g d a => Sys2Proof.Machine.execVldsc g d a s
  | .vstw g d a b => Sys2Proof.Machine.execVstw g d a b s
  | .vsth g d a b => Sys2Proof.Machine.execVsth g d a b s
  | .vstb g d a b => Sys2Proof.Machine.execVstb g d a b s
  | .vstd g d a b => Sys2Proof.Machine.execVstd g d a b s
  | .vstsw g d a b => Sys2Proof.Machine.execVstsw g d a b s
  | .vstq g d a b => Sys2Proof.Machine.execVstq g d a b s
  | .vstc g d a => Sys2Proof.Machine.execVstc g d a s
  | .vstsc g d a => Sys2Proof.Machine.execVstsc g d a s
  | .sld g d a o => Sys2Proof.Machine.execSld g d a o s
  | .sst g d a o => Sys2Proof.Machine.execSst g d a o s
  | .slds g d a o => Sys2Proof.Machine.execSlds g d a o s
  | .ssts g d a o => Sys2Proof.Machine.execSsts g d a o s
  | .vatadd g d a b nr sc => Sys2Proof.Machine.execVatadd g d a b nr sc s
  | .vatmin g d a b nr sc => Sys2Proof.Machine.execVatmin g d a b nr sc s
  | .vatmax g d a b nr sc => Sys2Proof.Machine.execVatmax g d a b nr sc s
  | .vatand g d a b nr sc => Sys2Proof.Machine.execVatand g d a b nr sc s
  | .vator g d a b nr sc => Sys2Proof.Machine.execVator g d a b nr sc s
  | .vatxor g d a b nr sc => Sys2Proof.Machine.execVatxor g d a b nr sc s
  | .vatxch g d a b nr sc => Sys2Proof.Machine.execVatxch g d a b nr sc s
  | .vatcas g d a b nr sc => Sys2Proof.Machine.execVatcas g d a b nr sc s
  | .satadd g d a b nr sc => Sys2Proof.Machine.execSatadd g d a b nr sc s
  | .satcas g d a b nr sc => Sys2Proof.Machine.execSatcas g d a b nr sc s
  | .satxch g d a b nr sc => Sys2Proof.Machine.execSatxch g d a b nr sc s
  | .vxadd g d a b nr sc => Sys2Proof.Machine.execVxadd g d a b nr sc s
  | .vfatadd g d a b nr sc => Sys2Proof.Machine.execVfatadd g d a b nr sc s
  | .br c cn o => Sys2Proof.Machine.execBr c cn o s
  | .call c cn o => Sys2Proof.Machine.execCall c cn o s
  | .jmpr g a => Sys2Proof.Machine.execJmpr g a s
  | .callr g a => Sys2Proof.Machine.execCallr g a s
  | .ret g => Sys2Proof.Machine.execRet g s
  | .nop g => Sys2Proof.Machine.execNop g s
  | .waitk g a => Sys2Proof.Machine.execWaitk g a s
  | .brk g => Sys2Proof.Machine.execBrk g s
  | .fence g sc => Sys2Proof.Machine.execFence g sc s
  | .fenceacq g sc => Sys2Proof.Machine.execFenceacq g sc s
  | .fencerel g sc => Sys2Proof.Machine.execFencerel g sc s
  | .bar g sc => Sys2Proof.Machine.execBar g sc s
  | .waitv g d a b sc => Sys2Proof.Machine.execWaitv g d a b sc s
  | .descinv g a => Sys2Proof.Machine.execDescinv g a s
  | .descinvDeep g => Sys2Proof.Machine.execDescinvDeep g s
  | .logwait g => Sys2Proof.Machine.execLogwait g s
  | .sldacq g d a sc => Sys2Proof.Machine.execSldacq g d a sc s
  | .sstrel g d a sc => Sys2Proof.Machine.execSstrel g d a sc s
  | .mcfg g a => Sys2Proof.Machine.execMcfg g a s
  | .mzero g d => Sys2Proof.Machine.execMzero g d s
  | .mma g d a b => Sys2Proof.Machine.execMma g d a b s
  | .mmas g d a b => Sys2Proof.Machine.execMmas g d a b s
  | .mdrain g d a b => Sys2Proof.Machine.execMdrain g d a b s
  | .mstat g d a => Sys2Proof.Machine.execMstat g d a s
  | .msave g d a b => Sys2Proof.Machine.execMsave g d a b s
  | .mload g d a b => Sys2Proof.Machine.execMload g d a b s
  | .rdef g d a => Sys2Proof.Machine.execRdef g d a s
  | .rwfull g d a => Sys2Proof.Machine.execRwfull g d a s
  | .rwfree g d a => Sys2Proof.Machine.execRwfree g d a s
  | .radvp g d a => Sys2Proof.Machine.execRadvp g d a s
  | .radvc g d a => Sys2Proof.Machine.execRadvc g d a s
  | .rslot g d a b => Sys2Proof.Machine.execRslot g d a b s
  | .rslotc g d a b => Sys2Proof.Machine.execRslotc g d a b s
  | .rundef g d => Sys2Proof.Machine.execRundef g d s
  | .cpy g d a => Sys2Proof.Machine.execCpy g d a s
  | .cpyr g d a b => Sys2Proof.Machine.execCpyr g d a b s
  | .cpyt g d a => Sys2Proof.Machine.execCpyt g d a s
  | .cpyrd g d a => Sys2Proof.Machine.execCpyrd g d a s
  | .waitt g m => Sys2Proof.Machine.execWaitt g m s
  | .tokrd g d a => Sys2Proof.Machine.execTokrd g d a s
  | .cqpush g d a b => Sys2Proof.Machine.execCqpush g d a b s
  | .cqkick g a => Sys2Proof.Machine.execCqkick g a s
  | .gstart g d a b => Sys2Proof.Machine.execGstart g d a b s
  | .gstop g a => Sys2Proof.Machine.execGstop g a s
  | .gstat g d a => Sys2Proof.Machine.execGstat g d a s
  | .spawn g d a => Sys2Proof.Machine.execSpawn g d a s
  | .touch g d a => Sys2Proof.Machine.execTouch g d a s
  | .touchc g d a b => Sys2Proof.Machine.execTouchc g d a b s
  | .poll g d a => Sys2Proof.Machine.execPoll g d a s
  | .resolve g d a b => Sys2Proof.Machine.execResolve g d a b s
  | .fnew g d => Sys2Proof.Machine.execFnew g d s
  | .ffault g d a b => Sys2Proof.Machine.execFfault g d a b s
  | .cancel g d a => Sys2Proof.Machine.execCancel g d a s
  | .cancelDeep g d a => Sys2Proof.Machine.execCancelDeep g d a s
  | .release g a => Sys2Proof.Machine.execRelease g a s
  | .scopeo g d a => Sys2Proof.Machine.execScopeo g d a s
  | .scopec g a => Sys2Proof.Machine.execScopec g a s
  | .scopew g a => Sys2Proof.Machine.execScopew g a s
  | .retire g a => Sys2Proof.Machine.execRetire g a s
  | .yield g a => Sys2Proof.Machine.execYield g a s
  | .prio g d a => Sys2Proof.Machine.execPrio g d a s
  | .self g d => Sys2Proof.Machine.execSelf g d s
  | .send g a b => Sys2Proof.Machine.execSend g a b s
  | .sendr g d a b => Sys2Proof.Machine.execSendr g d a b s
  | .recv g d a b => Sys2Proof.Machine.execRecv g d a b s
  | .htwr g a b => Sys2Proof.Machine.execHtwr g a b s
  | .bqclaim g d a => Sys2Proof.Machine.execBqclaim g d a s
  | .baddq g d a b => Sys2Proof.Machine.execBaddq g d a b s
  | .bqdone g a => Sys2Proof.Machine.execBqdone g a s
  | .topkc g d a => Sys2Proof.Machine.execTopkc g d a s
  | .topkr g d a => Sys2Proof.Machine.execTopkr g d a s
  | .srd g d n => Sys2Proof.Machine.execSrd g d n s
  | .swr g a n => Sys2Proof.Machine.execSwr g a n s
  | .swrDeep g a n => Sys2Proof.Machine.execSwrDeep g a n s
  | .trap g a => Sys2Proof.Machine.execTrap g a s
  | .tret g => Sys2Proof.Machine.execTret g s
  | .csave g d a b => Sys2Proof.Machine.execCsave g d a b s
  | .crest g d a b => Sys2Proof.Machine.execCrest g d a b s
  | .halt g => Sys2Proof.Machine.execHalt g s
  | .pchk g d a => Sys2Proof.Machine.execPchk g d a s
  | .replay g a => Sys2Proof.Machine.execReplay g a s
  | .cNop => Sys2Proof.Machine.execCNop s
  | .cSmov d a => Sys2Proof.Machine.execCSmov d a s
  | .cSadd d a b => Sys2Proof.Machine.execCSadd d a b s
  | .cSaddi d a n => Sys2Proof.Machine.execCSaddi d a n s
  | .cVmov d a => Sys2Proof.Machine.execCVmov d a s
  | .cVadd d a b => Sys2Proof.Machine.execCVadd d a b s
  | .cVfadd d a b => Sys2Proof.Machine.execCVfadd d a b s
  | .cVfma d a b => Sys2Proof.Machine.execCVfma d a b s
  | .cVfmul d a b => Sys2Proof.Machine.execCVfmul d a b s
  | .cSld d a n => Sys2Proof.Machine.execCSld d a n s
  | .cSst d a n => Sys2Proof.Machine.execCSst d a n s
  | .cRet => Sys2Proof.Machine.execCRet s
  | .cTouch d a => Sys2Proof.Machine.execCTouch d a s
  | .cWaitt m => Sys2Proof.Machine.execCWaitt m s
  | .cRadvc d n => Sys2Proof.Machine.execCRadvc d n s
  | .illegalEncoding reason w => Sys2Proof.Machine.execIllegalEncoding reason w s
  | .reservationMade h => Sys2Proof.Machine.execReservationMade h s
  | .footprintCopyLanded h tile => Sys2Proof.Machine.execFootprintCopyLanded h tile s
  | .dispatch h => Sys2Proof.Machine.execDispatch h s
  | .steal thief victim => Sys2Proof.Machine.execSteal thief victim s
  | .candidateAgeExpiry t => Sys2Proof.Machine.execCandidateAgeExpiry t s
  | .priorityRaise h cls => Sys2Proof.Machine.execPriorityRaise h cls s
  | .wake t => Sys2Proof.Machine.execWake t s
  | .deadlock asid => Sys2Proof.Machine.execDeadlock asid s
  | .preemptSave h => Sys2Proof.Machine.execPreemptSave h s
  | .forcedSave h => Sys2Proof.Machine.execForcedSave h s
  | .resume h => Sys2Proof.Machine.execResume h s
  | .futureRequest r => Sys2Proof.Machine.execFutureRequest r s
  | .futureReply id => Sys2Proof.Machine.execFutureReply id s
  | .spill c => Sys2Proof.Machine.execSpill c s
  | .refill h => Sys2Proof.Machine.execRefill h s
  | .hamper asid v => Sys2Proof.Machine.execHamper asid v s
  | .hamperMoved asid => Sys2Proof.Machine.execHamperMoved asid s
  | .failsp asid => Sys2Proof.Machine.execFailsp asid s
  | .hamperFull asid => Sys2Proof.Machine.execHamperFull asid s
  | .scopeUpdate id => Sys2Proof.Machine.execScopeUpdate id s
  | .storeBufferDrain c => Sys2Proof.Machine.execStoreBufferDrain c s
  | .remoteRead die asid va => Sys2Proof.Machine.execRemoteRead die asid va s
  | .replicaEvict die asid va => Sys2Proof.Machine.execReplicaEvict die asid va s
  | .writeAtHome id => Sys2Proof.Machine.execWriteAtHome id s
  | .atomicAtHome id => Sys2Proof.Machine.execAtomicAtHome id s
  | .collapse id => Sys2Proof.Machine.execCollapse id s
  | .collapseAck id => Sys2Proof.Machine.execCollapseAck id s
  | .writeAck id => Sys2Proof.Machine.execWriteAck id s
  | .waitvRepoll t => Sys2Proof.Machine.execWaitvRepoll t s
  | .replicationWindow die asid va => Sys2Proof.Machine.execReplicationWindow die asid va s
  | .sideLogPerform c => Sys2Proof.Machine.execSideLogPerform c s
  | .matrixOpStart c => Sys2Proof.Machine.execMatrixOpStart c s
  | .matrixOpComplete c => Sys2Proof.Machine.execMatrixOpComplete c s
  | .copyComplete id => Sys2Proof.Machine.execCopyComplete id s
  | .gatherSlotLanded id => Sys2Proof.Machine.execGatherSlotLanded id s
  | .baddqComplete id => Sys2Proof.Machine.execBaddqComplete id s
  | .selectComplete die => Sys2Proof.Machine.execSelectComplete die s
  | .nopPacket q => Sys2Proof.Machine.execNopPacket q s
  | .copy q => Sys2Proof.Machine.execCopy q s
  | .copyTranspose q => Sys2Proof.Machine.execCopyTranspose q s
  | .copyRedither q => Sys2Proof.Machine.execCopyRedither q s
  | .fill q => Sys2Proof.Machine.execFill q s
  | .barrier q => Sys2Proof.Machine.execBarrier q s
  | .signal q => Sys2Proof.Machine.execSignal q s
  | .launch q => Sys2Proof.Machine.execLaunch q s
  | .unknownKind q => Sys2Proof.Machine.execUnknownKind q s
  | .launchComplete h => Sys2Proof.Machine.execLaunchComplete h s
  | .messageDelivery id => Sys2Proof.Machine.execMessageDelivery id s
  | .dequeue c => Sys2Proof.Machine.execDequeue c s
  | .evq d => Sys2Proof.Machine.execEvq d s
  | .registerWrite addr v => Sys2Proof.Machine.execRegisterWrite addr v s
  | .doorbell q => Sys2Proof.Machine.execDoorbell q s
  | .pendClear w v => Sys2Proof.Machine.execPendClear w v s
  | .slotMap n v => Sys2Proof.Machine.execSlotMap n v s
  | .slotDrain n v => Sys2Proof.Machine.execSlotDrain n v s
  | .unmap n => Sys2Proof.Machine.execUnmap n s
  | .qtear v => Sys2Proof.Machine.execQtear v s
  | .teardownComplete => Sys2Proof.Machine.execTeardownComplete s
  | .hostAccess a => Sys2Proof.Machine.execHostAccess a s
  | .invalidation v => Sys2Proof.Machine.execInvalidation v s
  | .invalidationComplete => Sys2Proof.Machine.execInvalidationComplete s
  | .broadcastInvalidation space va pages => Sys2Proof.Machine.execBroadcastInvalidation space va pages s
  | .hostSync => Sys2Proof.Machine.execHostSync s
  | .fltrespRetry v => Sys2Proof.Machine.execFltrespRetry v s
  | .fltrespUnmap v => Sys2Proof.Machine.execFltrespUnmap v s
  | .swap => Sys2Proof.Machine.execSwap s
  | .swapComplete => Sys2Proof.Machine.execSwapComplete s
  | .darning => Sys2Proof.Machine.execDarning s
  | .darningComplete => Sys2Proof.Machine.execDarningComplete s
  | .peerAccess a => Sys2Proof.Machine.execPeerAccess a s
  | .attest b => Sys2Proof.Machine.execAttest b s
  | .readlog b => Sys2Proof.Machine.execReadlog b s
  | .readbadframes b => Sys2Proof.Machine.execReadbadframes b s
  | .unlockchal b => Sys2Proof.Machine.execUnlockchal b s
  | .unlock b => Sys2Proof.Machine.execUnlock b s
  | .power b idle => Sys2Proof.Machine.execPower b idle s
  | .fwstage b => Sys2Proof.Machine.execFwstage b s
  | .lifecycle b => Sys2Proof.Machine.execLifecycle b s
  | .readtelem b => Sys2Proof.Machine.execReadtelem b s
  | .readfaulthist b => Sys2Proof.Machine.execReadfaulthist b s
  | .checkpoint b idle => Sys2Proof.Machine.execCheckpoint b idle s
  | .restore b => Sys2Proof.Machine.execRestore b s
  | .declarelost b => Sys2Proof.Machine.execDeclarelost b s
  | .commitsvn b => Sys2Proof.Machine.execCommitsvn b s
  | .mailboxComplete b => Sys2Proof.Machine.execMailboxComplete b s
  | .eccmode die v => Sys2Proof.Machine.execEccmode die v s
  | .coreTest die v => Sys2Proof.Machine.execCoreTest die v s
  | .coreTestComplete die pass => Sys2Proof.Machine.execCoreTestComplete die pass s
  | .slicetime v => Sys2Proof.Machine.execSlicetime v s
  | .sliceSwitch => Sys2Proof.Machine.execSliceSwitch s
  | .sliceRestore => Sys2Proof.Machine.execSliceRestore s
  | .patrolScrub block e => Sys2Proof.Machine.execPatrolScrub block e s
  | .arraySweep die e => Sys2Proof.Machine.execArraySweep die e s
  | .phyCalibration ctrl channel => Sys2Proof.Machine.execPhyCalibration ctrl channel s
  | .ageingMargin die short => Sys2Proof.Machine.execAgeingMargin die short s
  | .telemetry t => Sys2Proof.Machine.execTelemetry t s
  | .pipelineError t checker op => Sys2Proof.Machine.execPipelineError t checker op s
  | .laneFailure k mask => Sys2Proof.Machine.execLaneFailure k mask s
  | .deviceFailure => Sys2Proof.Machine.execDeviceFailure s
  | .powerLimit mhz => Sys2Proof.Machine.execPowerLimit mhz s
  | .boot table => Sys2Proof.Machine.execBoot table s
  | .powerWake => Sys2Proof.Machine.execPowerWake s
  | .idcode => Sys2Proof.Machine.execIdcode s
  | .bypass bits => Sys2Proof.Machine.execBypass bits s
  | .jtagHalt t => Sys2Proof.Machine.execJtagHalt t s
  | .jtagResume t => Sys2Proof.Machine.execJtagResume t s
  | .jtagStep t => Sys2Proof.Machine.execJtagStep t s
  | .jtagAccess a => Sys2Proof.Machine.execJtagAccess a s
  | .yieldExpiry t => Sys2Proof.Machine.execYieldExpiry t s
  | .messageAnswer id => Sys2Proof.Machine.execMessageAnswer id s
  | .mangleRequest id => Sys2Proof.Machine.execMangleRequest id s
  | .peerReply id r => Sys2Proof.Machine.execPeerReply id r s
  | .flitReplay die => Sys2Proof.Machine.execFlitReplay die s
  | .powerLoss => Sys2Proof.Machine.execPowerLoss s

end Sys2Proof.Machine
end

