-- ==== Sys2Proof/Machine/Fetch.lean ====
section
/-! DEFINITION. Instruction fetch (R25, R167 to R170, R386, R387): halfword after halfword from the program counter until the decoder
has a whole group. -/

namespace Sys2Proof.Machine

open Sys2Proof

/-- One halfword of the instruction stream, or why it is not fetched. -/
inductive Half1 where
  | ok (h : Half)
  | beyond
  | bad (t : Tr)
deriving DecidableEq, Repr

/-- A halfword read as the die's slice holds it (R170); of a poisoned one nothing is known. -/
def State.halfOf (s : State) (bs : List Byte × List Bool) (a : Nat) : Half :=
  if bs.2.any id then BitVec.ofNat 16 (Config.pick s.free a) else BitVec.ofNat 16 (natOf bs.1)

/-- The halfword at an address: what the die's slice holds by its tag, without a translation (R89); else host memory is read at the host,
a peer's halfword is free (log 16). -/
def State.fetchHalf (s : State) (a : Nat) : Half1 :=
  if 2 ^ 57 ≤ a then .beyond
  else match s.heldAt s.me.loc.core.die s.me.asid a 2, translate s.toSoc s.me.super .fetch s.me.asid a with
    | some bs, _ => .ok (s.halfOf bs a)
    | none, t => match t with
    | .phys pa => if s.swapWait a then .bad .stall else .ok (s.halfOf (s.marked pa 2) a)
    | .host h _ => .ok (s.halfOf (memBytes s.mem (hostExt h) 2, (List.range 2).map (fun k => isPoisoned s.poison (hostExt h + k) 1)) a)
    | .peer dev _ => if s.lost.contains dev || s.peerRefuses a then .bad .fatal else .ok (BitVec.ofNat 16 (Config.pick s.free a))
    | t => .bad t

/-- What decoding depends on beside the words (R10, R172, R186). -/
def TG.decEnv (g : TG) : DecEnv := ⟨isGatewayDie g.loc.core.die, g.super, g.vregs, g.uregs⟩

/-- The outcome of a fetch. -/
inductive Fetched where
  | instr (i : Instr) (len : Nat) (mask : Option W32)
  | trap (cause : Nat) (addr info : W64)
  | bad (va : Nat) (t : Tr)

/-- Halfwords from a on, until the group is whole; n bounds the halfwords of a group (R168). -/
noncomputable def State.fetchFrom (s : State) : Nat → Nat → List Half → Fetched
  | 0, _, _ => .trap cILLEGAL 0 0
  | n + 1, a, hs =>
    match s.fetchHalf a with
    | .beyond => .trap cADDRESS (BitVec.ofNat 64 a) 0
    | .bad t => .bad a t
    | .ok h =>
      match decode s.me.decEnv (hs ++ [h]) with
      | .ok i len mask => .instr i len mask
      | .trap c info => .trap c 0 info
      | .short => s.fetchFrom n (a + 2) (hs ++ [h])

/-- Fetch the group at the program counter of the current thread group. -/
noncomputable def State.fetch (s : State) : Fetched := s.fetchFrom 9 s.me.pc.toNat []

/-- The current thread group with a group fetched: its instruction, the address after it and its mask (R168, R181). -/
def TG.begin (g : TG) (i : Instr) (len : Nat) (mask : Option W32) : TG :=
  { g with cur := some i, npc := g.pc + BitVec.ofNat 64 len, spMask := mask, wake := none, phase := .start,
           stepping := if g.stepping = 1 then 2 else g.stepping }

def State.beginGroup (s : State) (i : Instr) (len : Nat) (mask : Option W32) : State := s.modMe (·.begin i len mask)

/-- A fetch that fails (R169, R391). -/
def State.fetchFail (s : State) (va : Nat) (t : Tr) : State :=
  match t with
  | .replay => s.parkFault va 3
  | t => s.trFail va t

end Sys2Proof.Machine
end

