-- ==== Sys2Proof/Machine/Turn.lean ====
section
/-! DEFINITION. The interleaving of thread groups and agents: one turn at a time (log 3). -/

namespace Sys2Proof.Machine

open Sys2Proof

/-! ### A thread group's turn -/

/-- Time of one issue: a cycle, and the nanoseconds that it adds at the present clock (R2, log 8). -/
def State.issueTime (s : State) : State :=
  let c := s.cycle.toNat
  { s with cycle := s.cycle + 1, ptp := s.ptp + BitVec.ofNat 64 ((c + 1) * 1000 / s.clock - c * 1000 / s.clock) }

/-- The clock of the compute dies runs and the device works (R421, R439). -/
def State.running (s : State) : Bool := s.mgmt.power == 0 && !s.mgmt.off && !s.mgmt.failed && !s.mgmt.recovery

/-- The thread group has a group to issue: one under execution, or leave to fetch (R47, R419). -/
def TG.canIssue (g : TG) : Bool := (g.status == .ready || g.status == .stalled) && (g.cur.isSome || !g.dbg)

/-- The current thread group fetches a group and executes it. -/
noncomputable def State.runNew (s : State) : Out State :=
  match s.fetch with
  | .instr i len mask => exec i (s.beginGroup i len mask)
  | .trap c a info => .next (s.trap c a info)
  | .bad va t => .next (s.fetchFail va t)

/-- The current thread group executes its group: the one under execution, or the next. -/
noncomputable def State.runMe (s : State) : Out State :=
  match s.me.cur with
  | some i => exec i s
  | none => s.runNew

/-- The turn of a thread group; without leave to issue it passes. -/
noncomputable def State.issue (s : State) (t : TgRef) : Out State :=
  let f := s.focus t
  if f.me.loc = t ∧ s.running = true ∧ f.me.canIssue = true then f.issueTime.runMe else .next s

/-! ### An agent's turn -/

/-- The rows that agents take by themselves: every row but those a thread group issues. -/
def isEvent (i : Instr) : Bool :=
  match i with
  | .reservationMade .. | .footprintCopyLanded .. | .dispatch .. | .steal .. | .candidateAgeExpiry .. | .priorityRaise ..
  | .wake .. | .deadlock .. | .preemptSave .. | .forcedSave .. | .resume .. | .futureRequest .. | .futureReply .. | .spill ..
  | .refill .. | .hamper .. | .hamperMoved .. | .failsp .. | .hamperFull .. | .scopeUpdate .. | .storeBufferDrain ..
  | .remoteRead .. | .replicaEvict .. | .writeAtHome .. | .atomicAtHome .. | .collapse .. | .collapseAck .. | .writeAck ..
  | .waitvRepoll .. | .replicationWindow .. | .sideLogPerform .. | .matrixOpStart .. | .matrixOpComplete .. | .copyComplete ..
  | .gatherSlotLanded .. | .baddqComplete .. | .selectComplete .. | .nopPacket .. | .copy .. | .copyTranspose ..
  | .copyRedither .. | .fill .. | .barrier .. | .signal .. | .launch .. | .unknownKind .. | .launchComplete ..
  | .messageDelivery .. | .dequeue .. | .registerWrite .. | .doorbell .. | .pendClear .. | .slotMap .. | .slotDrain ..
  | .unmap .. | .qtear .. | .teardownComplete | .hostAccess .. | .invalidation .. | .invalidationComplete
  | .broadcastInvalidation .. | .hostSync | .fltrespRetry .. | .fltrespUnmap .. | .swap | .swapComplete | .darning
  | .darningComplete | .peerAccess .. | .attest .. | .readlog .. | .readbadframes .. | .unlockchal .. | .unlock ..
  | .power .. | .fwstage .. | .lifecycle .. | .readtelem .. | .readfaulthist .. | .checkpoint .. | .restore ..
  | .declarelost .. | .commitsvn .. | .mailboxComplete .. | .eccmode .. | .coreTest .. | .coreTestComplete .. | .slicetime ..
  | .sliceSwitch | .sliceRestore | .patrolScrub .. | .arraySweep .. | .phyCalibration .. | .ageingMargin ..
  | .telemetry .. | .pipelineError .. | .laneFailure .. | .deviceFailure | .powerLimit .. | .boot .. | .powerWake
  | .idcode | .bypass .. | .jtagHalt .. | .jtagResume .. | .jtagStep .. | .jtagAccess .. | .yieldExpiry ..
  | .messageAnswer .. | .mangleRequest .. | .peerReply .. | .flitReplay .. | .powerLoss => true
  | _ => false

/-- Rows of the management core, the host mailbox and the package, which go on while the dies stand still. -/
def isOutside (i : Instr) : Bool :=
  match i with
  | .hostAccess .. | .attest .. | .readlog .. | .readbadframes .. | .unlockchal .. | .unlock .. | .power .. | .fwstage ..
  | .lifecycle .. | .readtelem .. | .readfaulthist .. | .checkpoint .. | .restore .. | .declarelost .. | .commitsvn ..
  | .mailboxComplete .. | .deviceFailure | .boot .. | .powerWake | .idcode | .bypass .. | .powerLoss => true
  | _ => false

/-- Time passes. Outside P0 CYCLE stands still, and no period of quiescence counts it (R423); a PC sample may be recorded (R420). -/
def State.tick (s : State) (cycles ns : Nat) : State :=
  let s := if s.running && s.me.status != .free then s.trace 0 s.me.pc else s
  let later := fun (c : Ctx) => { c with quietSince := c.quietSince.map (· + ns) }
  { s with cycle := if s.mgmt.power = 0 ∧ s.mgmt.off = false then s.cycle + BitVec.ofNat 64 cycles else s.cycle
           ptp := s.ptp + BitVec.ofNat 64 ns
           ctxs := if s.mgmt.power = 0 then s.ctxs else s.ctxs.map (fun c => (c.1, later c.2)) }

/-- The end of a turn that stops after some of its accesses (R230, R237, log 108). -/
def unpaced (o : Out State) : Out State :=
  match o with
  | .next s => .next { s with pace := none }
  | o => o

/-- One turn. -/
noncomputable def State.take (s : State) (t : Turn) : Out State :=
  match t with
  | .issue g => s.issue g
  | .part g n => unpaced ({ s with pace := some n }.issue g)
  | .event i => if isEvent i && (isOutside i || !s.stopped) then exec i s else .next s
  | .tick c n => .next (s.tick c n)

/-! ### The default schedule, when the agenda names no turn -/

/-- Steps that the memory system, the network and the engines have under way. -/
noncomputable def State.busyEvents (s : State) : List Instr :=
  (s.cores.filter (fun c => c.2.fifo != [])).flatMap (fun c => [.storeBufferDrain c.1, .sideLogPerform c.1]) ++
  s.wrs.flatMap (fun w => if w.applied then [.writeAck w.id] else [if w.ent.op.isAtom then .atomicAtHome w.id else .writeAtHome w.id]) ++
  s.cols.map (fun c => if c.applied then .collapseAck c.id else .collapse c.id) ++
  s.reqs.map (fun r => if r.reply.isSome then .futureReply r.id else .futureRequest (.own r.id)) ++
  s.futMsgs.map (fun m => .futureRequest (.own m.id)) ++
  s.scopeMsgs.map (fun m => .scopeUpdate m.id) ++
  s.raises.map (fun r => .priorityRaise r.1 r.2) ++
  s.msgs.map (fun m => if m.arrived then .messageAnswer m.id else .messageDelivery m.id) ++
  (s.cores.filter (fun c => c.2.inbox != [])).map (fun c => .dequeue c.1) ++
  s.mreqs.map (fun r => .mangleRequest r.id)

/-- The step that ends an operation of an engine. -/
noncomputable def EngOp.event (o : EngOp) : Instr :=
  match o.kind with
  | .gather .. => .gatherSlotLanded o.id
  | .baddq .. => .baddqComplete o.id
  | .topk .. => .selectComplete o.cl.die
  | .footprint i => .footprintCopyLanded o.task i
  | .mma .. | .mmas .. | .mzero .. | .mdrain .. | .msave .. | .mload .. | .mcfg | .mstat .. => if o.started || o.out.isSome then .matrixOpComplete o.core else .matrixOpStart o.core
  | _ => .copyComplete o.id

/-- Steps of the schedulers for tasks and waits. -/
noncomputable def State.taskEvents (s : State) : List Instr :=
  (s.allTgs.filter TG.isParked).map (fun g => .wake g.loc) ++
  (s.allTgs.filter (fun g => match g.status with | .yielding _ => true | _ => false)).map (fun g => .yieldExpiry g.loc) ++
  s.tasks.flatMap (fun t => match t.st with
    | .queued => [.reservationMade t.handle]
    | .prefetch => [.dispatch t.handle]
    | .restoring => [.resume t.handle]
    | .running => if t.preempt.isSome then [.preemptSave t.handle] else []
    | _ => [])

/-- Steps that serve a queue. -/
noncomputable def queueEvents (q : QRef) : List Instr :=
  [.nopPacket q, .copy q, .copyTranspose q, .copyRedither q, .fill q, .barrier q, .signal q, .launch q, .unknownKind q]

noncomputable def State.serveEvents (s : State) : List Instr :=
  (s.slots.filter (fun x => x.2.awake && !x.2.mapped)).map (fun x => .slotMap x.1 0) ++
  (s.slots.filter (fun x => x.2.awake && x.2.mapped)).flatMap (fun x => queueEvents (.slot x.1)) ++
  s.clusters.flatMap (fun c => c.2.kicked.flatMap (fun k => queueEvents (.cq c.1 k.1 k.2.1))) ++
  (s.pkts.filter (fun p => !p.live)).flatMap (fun p => queueEvents p.q) ++
  s.pkts.filterMap (fun p => if p.live ∧ p.outcome.isSome = true then some (.launchComplete p.fut) else none) ++
  (s.slots.filter (fun x => x.2.drain)).map (fun x => .unmap x.1)

/-- Steps of the supervisor's units and of the management core. -/
noncomputable def State.unitEvents (s : State) : List Instr :=
  [.invalidationComplete, .swapComplete, .darningComplete, .teardownComplete, .sliceSwitch, .sliceRestore,
   .attest .device, .readlog .device, .readbadframes .device, .unlockchal .device, .unlock .device, .power .device true, .fwstage .device,
   .lifecycle .device, .readtelem .device, .readfaulthist .device, .checkpoint .device true, .restore .device, .declarelost .device] ++
  [.commitsvn .device, .mailboxComplete .device,
   .attest .host, .readlog .host, .readbadframes .host, .unlockchal .host, .unlock .host, .power .host true, .fwstage .host,
   .lifecycle .host, .readtelem .host, .readfaulthist .host, .checkpoint .host true, .restore .host, .declarelost .host,
   .commitsvn .host, .mailboxComplete .host] ++
  (List.range s.mode.computeDies).map (fun d => .coreTestComplete d true)

/-- Whether a step changes anything. -/
def State.moves (s : State) (i : Instr) : Bool :=
  match exec i s with
  | .next t => t != s
  | _ => false

/-- The first internal step that changes anything. -/
noncomputable def State.dueEvent (s : State) : Option Instr :=
  (s.busyEvents ++ s.ops.map EngOp.event ++ s.taskEvents ++ s.serveEvents ++ s.unitEvents).find? s.moves

/-- A thread group in a status that may issue. -/
def State.pickTg (s : State) (st : TStatus) : Option TgRef :=
  if s.me.status = st ∧ s.me.canIssue = true then some s.me.loc
  else (s.tgs.find? (fun g => g.status == st && g.canIssue)).map (·.loc)

/-- The turn taken when the agenda is empty: a ready thread group, an internal step, a stalled thread group, or the passage of time;
none when nothing of the device can run. -/
noncomputable def State.defaultTurn (s : State) : Option Turn :=
  if s.stopped then (s.unitEvents.find? (fun i => isOutside i && s.moves i)).map .event
  else match (if s.running then s.pickTg .ready else none) with
    | some t => some (.issue t)
    | none => match s.dueEvent with
      | some i => some (.event i)
      | none => match (if s.running then s.pickTg .stalled else none) with
        | some t => some (.issue t)
        | none => some (if s.mgmt.power = 0 then .tick (s.clock / 25) 40 else if s.allTgs.any TG.canIssue then .event .powerWake else .tick 0 1)

/-- The turn that a step takes, and the state without it. -/
noncomputable def State.nextTurn (s : State) : Option (Turn × State) :=
  match s.agenda with
  | t :: r => some (t, { s with agenda := r })
  | [] => s.defaultTurn.map (fun t => (t, s))

/-- What every step ends with (R50, R54, R419). -/
def settleStep (o : Out State) : Out State :=
  match o with
  | .next s => .next s.afterStep
  | o => o

/-- One step: the next turn, then what the schedulers note. -/
noncomputable def State.run (s : State) : Out State :=
  match s.nextTurn with
  | none => .fault .poweredOff
  | some (t, s) => settleStep (s.take t)

/-! ### An instruction placed for the next step -/

/-- Where an instruction of the opcode table is placed, and the tables that lead there (R385, R388): context 0 at 2 MiB, one table
of each level from 4 MiB, and the page that holds the words at 5 MiB. -/
def placePc : Nat := 0x1000
def placePage : Nat := 0x500000
def placeCtx : Nat := 0x200000
def placeTable (level : Nat) : Nat := 0x400000 + 0x10000 * level

/-- A pointer entry, and the leaf: valid, user, executable and writable, of this device's memory. -/
def placeLeaf : Nat := placePage + 0x1F
def placePtr (level : Nat) : Nat := placeTable (level + 1) + 1

def placeWords : List (Nat × List Byte) :=
  [(placeCtx, bytesOf 8 (placeTable 0) ++ bytesOf 8 1 ++ List.replicate 16 0),
   (placeTable 0, bytesOf 8 (placePtr 0)), (placeTable 1, bytesOf 8 (placePtr 1)), (placeTable 2, bytesOf 8 (placePtr 2)),
   (placeTable 3, bytesOf 8 (placePtr 3)), (placeTable 4, bytesOf 8 placeLeaf)]

/-- Storage of an address as the fetch needs it: the bytes, unpoisoned. -/
def Soc.place (s : Soc) (x : Nat × List Byte) : Soc :=
  let s := s.put x.1 x.2 false
  { s with poison := s.poison.filter (fun g => decide (markAt g + markSize g ≤ x.1) || decide (x.1 + x.2.length ≤ markAt g)) }

/-- The thread group that fetches: the current one, or where none is there, or its core does not execute the major, one that
firmware starts on core 0 of cluster 0 of die 0, or of gateway die 8 (R10, R406). -/
def State.placeTg (s : State) (gateway : Bool) : TG :=
  let fits := s.me.status != .free && isGatewayDie s.me.loc.core.die == gateway
  let g := if fits then s.me else TG.zero ⟨⟨if gateway then 8 else 0, 0, 0⟩, 0⟩
  { g with status := .ready, dbg := false, cur := none, wake := none, phase := .start, stepping := 0, pc := BitVec.ofNat 64 placePc,
           super := true, asid := 0, vregs := 256, uregs := 64 }

/-- The bytes of an instruction as they lie in memory: halfwords, little-endian (R3, R167). -/
def wordBytes (nbits w : Nat) : List Byte := (tableHalves nbits w).flatMap (fun h => bytesOf 2 h.toNat)

/-- The state whose next step fetches and runs the instruction. -/
def State.placeWord (s : State) (nbits w : Nat) : State :=
  let gateway := w / 2 % 32 == 26
  let g := s.placeTg gateway
  let o := s.toSoc
  let rest := if s.me.status = .free ∨ s.me.loc = g.loc then s.tgs else s.tgs ++ [s.me]
  let o := { o with
    me := g, tgs := rest.filter (fun x => x.loc != g.loc), replicas := [], badFrames := [],
    sup := { o.sup with ctxbase := placeCtx, active := [], rtBusy := false, darnBusy := false } }
  let o := placeWords.foldl Soc.place o
  { s with
    toSoc := { o.place (placePage + placePc, wordBytes nbits w) with ctxOld := [] }, agenda := [],
    mgmt := { s.mgmt with power := 0, off := false, failed := false, recovery := false } }

end Sys2Proof.Machine
end

