-- ==== Sys2Proof/Machine/Step.lean ====
section
/-! DEFINITION. The step of the machine. -/

namespace Sys2Proof.Machine

noncomputable section

/-- One turn of one thread group or agent (log 3). -/
def step (s : State) : Host.Outcome State Fault Refusal := s.run

/-- s with an instruction stored where step fetches next (log 4). -/
def State.withFetchWord (s : State) (nbits w : Nat) : State := s.placeWord nbits w

end

end Sys2Proof.Machine
end

