-- ==== Sys2Proof/Safety.lean ====
section
/-! DEFINITION. What claims are stated in: a group that ends normally, guards that let an instruction act, memory in its canonical
form, and what a snapshot or an access must find to succeed. -/

namespace Sys2Proof.Machine

open Sys2Proof

/-- The machine goes on. -/
def Goes (o : Out State) : Prop := ∃ t, o = .next t

/-- Memory of the device, and of every checkpoint image that a RESTORE may load, is in canonical form. -/
def State.MemOk (s : State) : Prop :=
  Memory.wf s.mem = true ∧ ∀ p ∈ s.mgmt.images, Memory.wf p.2.soc.mem = true

/-- Every byte of storage reads as before. -/
def SameMem (s t : State) : Prop := ∀ a, memGet t.mem a = memGet s.mem a

/-- The forms of the block-queue major, which only the cores of a gateway die execute (R10, R183). -/
def isGatewayForm (i : Instr) : Bool :=
  match i with
  | .bqclaim .. | .baddq .. | .bqdone .. | .topkc .. | .topkr .. => true
  | _ => false

/-! ### Guards (R173, R189, R208) -/

/-- A uniform guard lets the instruction act: none, or a predicate that is set and clean. -/
def TG.opens (t : TG) (g : Guard) : Prop := g.val = 0 ∨ (t.k.getLsbD g.val = true ∧ t.kp.getLsbD g.val = false)
/-- A uniform guard holds the instruction back: a predicate that is clear and clean. -/
def TG.shuts (t : TG) (g : Guard) : Prop := g.val ≠ 0 ∧ t.k.getLsbD g.val = false ∧ t.kp.getLsbD g.val = false
/-- A uniform guard is poisoned. -/
def TG.taints (t : TG) (g : Guard) : Prop := g.val ≠ 0 ∧ t.kp.getLsbD g.val = true
/-- A lane guard is clean in every lane where X is 1. -/
def TG.clean (t : TG) (g : Guard) : Prop := t.ppoison g &&& t.x = 0

/-! ### Exact values of FP32 codes (R118, R219) -/

def fp32Finite (w : W32) : Prop := (FFmt.fp32.value w.toNat).isFin = true
/-- The value of a finite code. -/
noncomputable def fp32Real (w : W32) : ℝ :=
  match FFmt.fp32.value w.toNat with
  | .fin n m e => (Fv.rat n m e : ℝ)
  | _ => 0
/-- The code is finite and lies within n ulp of an exact result. -/
noncomputable def withinUlps (n : ℕ) (w : W32) (y : ℝ) : Prop :=
  fp32Finite w ∧ |fp32Real w - y| ≤ n * 2 ^ max (Int.log 2 |y| - 23) (-149)

/-! ### How a group ends (R168, R181) -/

/-- The group completes and leaves its thread group as f makes it: the next group follows. -/
def State.ends (s : State) (f : TG → TG) : State := { s with me := (f s.me).advance }

/-! ### Accesses that succeed (R229, R230) -/

/-- An access of z bytes passes the address, alignment and range-lock checks of R229. -/
def State.clears (s : State) (write : Bool) (va z : Nat) : Prop :=
  addrCheck s.mode s.me.super write va z = .ok ∧ va % z = 0 ∧
  s.lockHit s.me.loc.core.cluster s.me.asid (if write then .store else .load) va z = none

/-- The storage that a load of the current thread group reads: a scratchpad or local-store byte, device memory or host memory. -/
def State.loadAt (s : State) (va : Nat) : Option Nat :=
  if isWindow va then (if (winOf va).kind < 2 then some va else none)
  else match translate s.toSoc s.me.super .load s.me.asid va with
    | .phys pa => some pa
    | .host a _ => some (hostExt a)
    | _ => none

/-- The die that holds the line of an address of the current thread group: the one that a window names, the home of device memory; none
for host memory. -/
def State.lineHome (s : State) (va : Nat) : Option Nat :=
  if isWindow va then some (winOf va).die
  else match translate s.toSoc s.me.super .load s.me.asid va with
    | .phys _ => some (homeDie s.mode s.sup.active va)
    | _ => none

/-- A store of the current thread group is accepted without a fault: it does not kill, and it does not wait for the supervisor. -/
def State.accepts (s : State) (va : W64) : Prop := s.storeFatal va = none ∧ s.storeFaults va = false

/-- Every replica holds what its home holds, and its tag still leads to the line that it was read from (R89, R93, R102). -/
def State.Coherent (s : State) : Prop :=
  ∀ r ∈ s.replicas, r.data = memBytes s.mem r.line 128 ∧
    (∀ k < 128, r.poison.getD (k / 4) false = isPoisoned s.poison (r.line + k) 1) ∧
    ∀ (super : Bool) (va : Nat), lineOf va = r.va →
      match translate s.toSoc super .load r.asid va with
      | .phys pa => pa = r.line + va % 128
      | .host _ _ => False
      | _ => True

/-- Nothing stands between the current thread group and storage: its core holds no store, no write is in flight, replicas agree
with their homes, no table swap is under way, its group is at its first step, and its turn performs all line accesses of the group. -/
def State.Calm (s : State) : Prop :=
  (s.core s.me.loc.core).fifo = [] ∧ s.wrs = [] ∧ s.Coherent ∧ s.sup.rtBusy = false ∧ s.me.phase = .start ∧ s.pace = none

/-- The K operand is n, with poison p (R174): a literal, or a word of the constant window that no range lock covers (R111). -/
def State.takes (s : State) (k : KOp) (n : W32) (p : Bool) : Prop :=
  s.kop k = some (n, p) ∧ ∀ c, k = .cw c → s.clears false (BitVec.ofNat 64 (s.cwAddr c)).toNat 4

/-- The bytes at an address of storage, and whether one of them is poisoned. -/
def State.num (s : State) (a z : Nat) : Nat := natOf (memBytes s.mem a z)
def State.bad (s : State) (a z : Nat) : Bool := (List.range z).any (fun k => isPoisoned s.poison (a + k) 1)

/-- t is s after its group, apart from what reading leaves behind: replicas, the counts of reads, and the collapses that a degree sends
when the counts lower it (R93, R94). -/
def State.readsTo (s t : State) (f : TG → TG) : Prop :=
  { t with
    replicas := s.replicas
    regions := s.regions
    dies := s.dies
    cols := s.cols
    seq := s.seq } = s.ends f

/-- t is s after its group, with entries of the thread group's stores behind those of its core's FIFO, grouped into line accesses. Entries
that write one byte stand in the order of their lanes, so that the highest lane's is performed last and stays (R230). -/
def State.storesTo (s t : State) (es : List StEnt) : Prop :=
  { t with cores := s.cores, seq := s.seq } = s.ends id ∧
  (∃ l : List StEnt, l.Perm es ∧ (∀ x, l.filter (·.covers s.me.asid x) = es.filter (·.covers s.me.asid x)) ∧
    (t.core s.me.loc.core).fifo = (s.core s.me.loc.core).fifo ++ l) ∧
  ∀ c, { t.core c with fifo := [] } = { s.core c with fifo := [] } ∧ (c ≠ s.me.loc.core → (t.core c).fifo = (s.core c).fifo)

/-! ### Structures read at issue, and operations of engines (R112, R248, R250) -/

/-- The snapshot of a structure of n bytes succeeds: it passes the checks, bs are its bytes, none of them is poisoned, and u is the
machine that the reading leaves. -/
def State.snaps (s : State) (cached : Bool) (va : W64) (n al : Nat) (bs : List Byte) (u : State) : Prop :=
  addrCheck s.mode s.me.super false va.toNat n = .ok ∧ va.toNat % al = 0 ∧
  ∃ ps, s.snapRead s.me.loc.core.cluster s.meAgent cached va.toNat n = (u, .ok ps) ∧ ps.map (·.1) = bs ∧ ∀ p ∈ ps, p.2 = false

/-- The snapshot of a tensor map succeeds. -/
def State.snapsMap (s : State) (va : W64) (m : TMap) (u : State) : Prop := ∃ bs, s.snaps true va 128 128 bs u ∧ parseTMap bs = m

/-- Nothing holds back the issue of an operation with this token, which takes a lock or not: no store of the thread group is left
on its core, its token counts less than 15, and the lock table has a free entry. -/
def State.mayIssue (s : State) (tok : Option (Fin 8)) (lock : Bool) : Prop :=
  s.logClear s.me.loc = true ∧ (∀ k ∈ tok, s.me.tok[k] < 15) ∧
  (lock = true → (s.cluster s.me.loc.core.cluster).freeLock.isSome = true)

/-- t is s with one more operation of the thread group, the last, whose token counts one more, after the group has ended. Storage,
tasks and futures are as before. -/
def State.starts (s t : State) (kind : EKind) (tok : Option (Fin 8)) (pkt : List Byte) (at_ : W64) (maps : List TMap) (hs : List Nat) : Prop :=
  t.ops = s.ops ++ [s.mkOp kind (tok.map (·.val)) pkt at_ maps hs] ∧
  t.me = (match tok with | some k => s.me.addTok k.val true | none => s.me).advance ∧
  { t with
    me := s.me
    ops := s.ops
    tgs := s.tgs
    cores := s.cores
    clusters := s.clusters
    seq := s.seq } = s

/-- The lock that the operation takes is the only new entry of its cluster's table; with none, the table is as before. -/
def State.locks (s t : State) (lock : Option (List (Nat × Nat) × List (Nat × Nat))) : Prop :=
  let c := s.me.loc.core.cluster
  (t.cluster c).locks = (s.cluster c).locks ++ (match lock with
    | some r => [(⟨((s.cluster c).freeLock).getD 0, s.seq, some s.me.loc, s.me.asid, boundRanges r.1, boundRanges r.2⟩ : RLock)]
    | none => [])

/-- t is s but for one entry of the current cluster's ring table, changed by f, and for waits on rings, which look again. -/
def State.ringsTo (s t : State) (r : Ring) (f : Ring → Ring) : Prop :=
  let c := s.me.loc.core.cluster
  t.cluster c = { s.cluster c with rings := updFirst (fun x => x.desc == r.desc && x.asid == r.asid && x.part == r.part) f (s.cluster c).rings } ∧
  (∀ d, d ≠ c → t.cluster d = s.cluster d) ∧ t.tgs.map (fun g => { g with wake := none }) = s.tgs.map (fun g => { g with wake := none })

/-! ### Tokens (R416) -/

/-- The 192 bytes at the buffer of a command are a token that serves: its nonce is the outstanding one, it names this package, its
reserved fields are zero, and its signature verifies under a key that the package accepts. -/
def State.tokenServes (s : State) (b : MbBox) (tk : List Byte) : Prop :=
  (∃ x, s.bufAt b (s.arg b 0) 192 = .ok x ∧ memBytes s.mem x 192 = tk) ∧
  s.mgmt.nonce.map (·.toNat) = some (beField tk 24 32) ∧ fieldAt tk 0 4 = 0x4B545844 ∧ fieldAt tk 5 1 / 2 = 0 ∧ fieldAt tk 6 2 = 0 ∧
  fieldAt tk 8 16 = s.mgmt.serial.toNat ∧ zerosAt tk 120 8 = true ∧
  (if s.mgmt.lifecycle = 0 then BitVec.ofNat 512 (beField tk 56 64) = Config.romKey
   else sha256 ((tk.drop 56).take 64) = s.mgmt.dbgKeyHash) ∧
  ecdsaVerify (BitVec.ofNat 512 (beField tk 56 64)) (BitVec.ofNat 512 (beField tk 128 64)) (sha256 (tk.take 128)) = true

end Sys2Proof.Machine
end

