-- ==== Sys2Proof/Certificates/Slice0/Obligations.lean ====
section
/-! DEFINITION. The statements for the provers. -/

open Sys2Proof Sys2Proof.Machine

/-! ### Registers of the uniform and lane files -/

/-- R193. The operation of a major-0 form on two uniform registers, and of a major-1 form on a register and the K operand; nothing else
changes but the program counter. R174. The K operand is the literal, or in a calm state the word of the constant window, where the checks
of a load of the core's own local store let it through. -/
def Obligations.UniformArithmeticResult : Prop :=
  (∀ (s : State) (g : Guard) (d a b : UReg), s.me.opens g →
    let x := s.me.s[a]
    let y := s.me.s[b]
    ∀ c ∈ ([
      (.sadd g d a b, x + y), (.ssub g d a b, x - y), (.smul g d a b, x * y),
      (.smulh g d a b, BitVec.ofInt 64 (x.toInt * y.toInt / 2 ^ 64)),
      (.smulhu g d a b, BitVec.ofNat 64 (x.toNat * y.toNat / 2 ^ 64)),
      (.sdiv g d a b, if y = 0 then 0 else BitVec.ofInt 64 (x.toInt.tdiv y.toInt)),
      (.sdivu g d a b, if y = 0 then 0 else BitVec.ofNat 64 (x.toNat / y.toNat)),
      (.srem g d a b, if y = 0 then x else BitVec.ofInt 64 (x.toInt.tmod y.toInt)),
      (.sand g d a b, x &&& y), (.sor g d a b, x ||| y), (.sxor g d a b, x ^^^ y),
      (.sshl g d a b, x <<< (y.toNat % 64)), (.sshr g d a b, x >>> (y.toNat % 64)),
      (.ssar g d a b, x.sshiftRight (y.toNat % 64)),
      (.smin g d a b, BitVec.ofInt 64 (min x.toInt y.toInt)),
      (.smax g d a b, BitVec.ofInt 64 (max x.toInt y.toInt))] : List (Instr × W64)),
      exec c.1 s = .next (s.ends fun t => t.setS d c.2 (t.sp.getLsbD a.val || t.sp.getLsbD b.val))) ∧
  (∀ (s : State) (g : Guard) (d a : UReg) (k : KOp) (n : W32) (p : Bool), s.me.opens g → s.takes k n p →
    let x := s.me.s[a]
    let v : W64 := n.signExtend 64
    (∀ c ∈ ([(.saddk g d a k, x + v), (.sandk g d a k, x &&& v), (.sshlk g d a k, x <<< (v.toNat % 64))] : List (Instr × W64)),
      exec c.1 s = .next (s.ends fun t => t.setS d c.2 (t.sp.getLsbD a.val || p))) ∧
    exec (.smovk g d k) s = .next (s.ends fun t => t.setS d v p)) ∧
  (∀ (s : State) (n : W32) (c : Byte), s.takes (.imm n) n false ∧
    (let at_ := localAddr s.me.loc.core (4 * c.toNat)
     s.Calm → s.clears false (BitVec.ofNat 64 at_).toNat 4 → s.takes (.cw c) (BitVec.ofNat 32 (s.num at_ 4)) (s.bad at_ 4)))

/-- R194. The one-operand forms of major 2: moves, extensions, the counts and the reversal, each by what its bits are; the SUB codes
above 8 decode to ILLEGAL, reason 3. -/
def Obligations.UniformUnaryResult : Prop :=
  (∀ (s : State) (g : Guard) (d a : UReg), s.me.opens g →
    let x := s.me.s[a]
    let fin_ := fun (r : W64) => (.next (s.ends fun t => t.setS d r (t.sp.getLsbD a.val)) : Out State)
    (∀ c ∈ ([(.smov g d a, x), (.snot g d a, ~~~x), (.sneg g d a, 0 - x), (.sabs g d a, BitVec.ofInt 64 x.toInt.natAbs),
        (.ssx32 g d a, (x.extractLsb' 0 32).signExtend 64), (.szx32 g d a, (x.extractLsb' 0 32).zeroExtend 64)] : List (Instr × W64)),
      exec c.1 s = fin_ c.2) ∧
    (∃ r : W64, exec (.sbrev g d a) s = fin_ r ∧ ∀ i < 64, r.getLsbD i = x.getLsbD (63 - i)) ∧
    (∃ n : Nat, exec (.sclz g d a) s = fin_ (BitVec.ofNat 64 n) ∧ n ≤ 64 ∧ (∀ i < n, x.getLsbD (63 - i) = false) ∧
      (n < 64 → x.getLsbD (63 - n) = true)) ∧
    exec (.spopc g d a) s = fin_ (BitVec.ofNat 64 ((List.range 64).filter (x.getLsbD ·)).length)) ∧
  (∀ (sub : Fin 64) (d a : UReg) (g : Guard), 9 ≤ sub.val →
    let w := wordR 2 0 sub.val a.val d.val g.val
    decode ⟨false, true, 256, 64⟩ (halves w) = .ok (.illegalEncoding 3 (BitVec.ofNat 32 w)) 4 none)

/-- R185. A compact uniform form acts as the form it stands for, with no guard.
R185. The compact uniform and vector forms complete with the result of the form that each stands for. -/
def Obligations.CompactFormResult : Prop :=
  (∀ (s : State) (d a : CReg) (b : Fin 8) (n : BitVec 3) (m : Byte),
    let du : UReg := d.castLE (Nat.le_of_ble_eq_true rfl)
    let au : UReg := a.castLE (Nat.le_of_ble_eq_true rfl)
    let bu : UReg := b.castLE (Nat.le_of_ble_eq_true rfl)
    let dv : VReg := d.castLE (Nat.le_of_ble_eq_true rfl)
    let av : VReg := a.castLE (Nat.le_of_ble_eq_true rfl)
    let bv : VReg := b.castLE (Nat.le_of_ble_eq_true rfl)
    exec .cNop s = exec (.nop 0) s ∧ exec (.cSmov d a) s = exec (.smov 0 du au) s ∧
    exec (.cSadd d a b) s = exec (.sadd 0 du au bu) s ∧
    exec (.cSaddi d a n) s = exec (.saddk 0 du au (.imm (n.signExtend 32))) s ∧
    exec (.cVmov d a) s = exec (.vor 0 dv av (.v av)) s ∧ exec (.cVadd d a b) s = exec (.vadd 0 dv av (.v bv) false) s ∧
    exec (.cVfadd d a b) s = exec (.vfadd 0 dv av (.v bv) .rne) s ∧ exec (.cVfma d a b) s = exec (.vfma 0 dv av (.v bv) .rne) s ∧
    exec (.cVfmul d a b) s = exec (.vfmul 0 dv av (.v bv) .rne) s ∧
    exec (.cSld d a n) s = exec (.sld 0 du au (.short (n.zeroExtend 8))) s ∧
    exec (.cSst d a n) s = exec (.sst 0 du au (.short (n.zeroExtend 8))) s ∧
    exec .cRet s = exec (.ret 0) s ∧ exec (.cTouch d a) s = exec (.touch 0 du au) s ∧ exec (.cWaitt m) s = exec (.waitt 0 m) s ∧
    (∀ (h : HReg) (c : UReg), h.val = d.val → s.me.s[c] = BitVec.ofNat 64 (n.toNat + 1) → s.me.sp.getLsbD c.val = false →
      exec (.cRadvc d n) s = exec (.radvc 0 h c) s)) ∧
  (∀ (s : State) (d a : CReg) (b : Fin 8) (n : BitVec 3),
    let du : UReg := d.castLE (Nat.le_of_ble_eq_true rfl)
    let au : UReg := a.castLE (Nat.le_of_ble_eq_true rfl)
    let bu : UReg := b.castLE (Nat.le_of_ble_eq_true rfl)
    let dv : VReg := d.castLE (Nat.le_of_ble_eq_true rfl)
    let av : VReg := a.castLE (Nat.le_of_ble_eq_true rfl)
    let bv : VReg := b.castLE (Nat.le_of_ble_eq_true rfl)
    let x := s.me.s[au]
    let sp := fun (t : TG) => t.sp.getLsbD au.val
    let va := fun (l : Fin 32) => s.me.v[av][l]
    let vb := fun (l : Fin 32) => s.me.v[bv][l]
    let vd := fun (l : Fin 32) => s.me.v[dv][l]
    exec .cNop s = .next (s.ends id) ∧
    exec (.cSmov d a) s = .next (s.ends fun t => t.setS du x (sp t)) ∧
    exec (.cSadd d a b) s = .next (s.ends fun t => t.setS du (x + t.s[bu]) (sp t || t.sp.getLsbD bu.val)) ∧
    exec (.cSaddi d a n) s = .next (s.ends fun t => t.setS du (x + n.signExtend 64) (sp t)) ∧
    exec (.cVmov d a) s = .next (s.ends fun t => t.setV dv t.x va t.vp[av]) ∧
    exec (.cVadd d a b) s = .next (s.ends fun t => t.setV dv t.x (fun l => va l + vb l) (t.vp[av] ||| t.vp[bv])) ∧
    exec (.cVfadd d a b) s = .next (s.ends fun t => t.setV dv t.x
      (fun l => BitVec.ofNat 32 (FFmt.fp32.add .rne (va l).toNat (vb l).toNat)) (t.vp[av] ||| t.vp[bv])) ∧
    exec (.cVfmul d a b) s = .next (s.ends fun t => t.setV dv t.x
      (fun l => BitVec.ofNat 32 (FFmt.fp32.mul .rne (va l).toNat (vb l).toNat)) (t.vp[av] ||| t.vp[bv])) ∧
    exec (.cVfma d a b) s = .next (s.ends fun t => t.setV dv t.x
      (fun l => BitVec.ofNat 32 (FFmt.fp32.fma .rne (va l).toNat (vb l).toNat (vd l).toNat)) (t.vp[av] ||| t.vp[bv] ||| t.vp[dv])))

/-- R195. A compare writes its predicate with the truth of the relation; predicate logic combines two of them.
R226. Lane compares and lane predicate logic. -/
def Obligations.CompareResult : Prop :=
  (∀ (s : State) (g : Guard) (d : KReg) (a b : UReg) (ka kb : KReg), s.me.opens g →
    let x := s.me.s[a]
    let y := s.me.s[b]
    let u := s.kval ka
    let w := s.kval kb
    (∀ c ∈ ([
      (.scmpeq g d a b, decide (x = y)), (.scmpne g d a b, decide (x ≠ y)), (.scmplt g d a b, decide (x.toInt < y.toInt)),
      (.scmple g d a b, decide (x.toInt ≤ y.toInt)), (.scmpltu g d a b, decide (x.toNat < y.toNat)),
      (.scmpleu g d a b, decide (x.toNat ≤ y.toNat))] : List (Instr × Bool)),
      exec c.1 s = .next (s.ends fun t => t.setK d c.2 (t.sp.getLsbD a.val || t.sp.getLsbD b.val))) ∧
    (∀ c ∈ ([(.kand g d ka kb, u && w), (.kor g d ka kb, u || w), (.kxor g d ka kb, u ^^ w), (.kandn g d ka kb, u && !w)] :
        List (Instr × Bool)),
      exec c.1 s = .next (s.ends fun t => t.setK d c.2 (s.kpoison ka || s.kpoison kb)))) ∧
  (∀ (s : State) (g : Guard) (d pa pb : PReg) (a : VReg) (b : VSrc), s.me.clean g →
    let v := fun (x : W32) => FFmt.fp32.value x.toNat
    (∀ c ∈ ([
      (.vcmpeq g d a b, fun x y => decide (x = y)), (.vcmpne g d a b, fun x y => decide (x ≠ y)),
      (.vcmplt g d a b, fun x y => decide (x.toInt < y.toInt)), (.vcmple g d a b, fun x y => decide (x.toInt ≤ y.toInt)),
      (.vcmpltu g d a b, fun x y => decide (x.toNat < y.toNat)), (.vcmpleu g d a b, fun x y => decide (x.toNat ≤ y.toNat)),
      (.vfcmpeq g d a b, fun x y => (v x).eq (v y)), (.vfcmplt g d a b, fun x y => (v x).lt (v y)),
      (.vfcmple g d a b, fun x y => (v x).lt (v y) || (v x).eq (v y)),
      (.vfcmpun g d a b, fun x y => (v x).isNan || (v y).isNan)] : List (Instr × (W32 → W32 → Bool))),
      ∃ r : W32, exec c.1 s = .next (s.ends fun t => t.setP d (t.active g) r (t.vp[a] ||| t.bpoison b)) ∧
        ∀ l : Fin 32, r.getLsbD l.val = c.2 s.me.v[a][l] (s.me.bval b l)) ∧
    ∀ c ∈ ([
      (.pand g d pa pb, s.me.pval pa &&& s.me.pval pb), (.por g d pa pb, s.me.pval pa ||| s.me.pval pb),
      (.pxor g d pa pb, s.me.pval pa ^^^ s.me.pval pb), (.pandn g d pa pb, s.me.pval pa &&& ~~~s.me.pval pb)] : List (Instr × W32)),
      exec c.1 s = .next (s.ends fun t => t.setP d (t.active g) c.2 (t.ppoison pa ||| t.ppoison pb)))

/-- R208, R213. Lane integers: the active lanes take the result, the others keep value and poison.
R209, R213. VMAD reads its old destination; the K forms take the 32-bit K operand, never sign-extended. -/
def Obligations.LaneIntegerResult : Prop :=
  (∀ (s : State) (g : Guard) (d a : VReg) (b : VSrc) (sat : Bool), s.me.clean g →
    let clamp := fun (r : Int) => BitVec.ofInt 32 (if sat then max (-2 ^ 31) (min r (2 ^ 31 - 1)) else r)
    ∀ c ∈ ([
      (.vadd g d a b sat, fun x y _ => clamp (x.toInt + y.toInt)), (.vsub g d a b sat, fun x y _ => clamp (x.toInt - y.toInt)),
      (.vmul g d a b, fun x y _ => x * y), (.vmulh g d a b, fun x y _ => BitVec.ofInt 32 (x.toInt * y.toInt / 2 ^ 32)),
      (.vmulhu g d a b, fun x y _ => BitVec.ofNat 32 (x.toNat * y.toNat / 2 ^ 32)),
      (.vand g d a b, fun x y _ => x &&& y), (.vor g d a b, fun x y _ => x ||| y), (.vxor g d a b, fun x y _ => x ^^^ y),
      (.vshl g d a b, fun x y _ => x <<< (y.toNat % 32)), (.vshr g d a b, fun x y _ => x >>> (y.toNat % 32)),
      (.vsar g d a b, fun x y _ => x.sshiftRight (y.toNat % 32)),
      (.vmin g d a b, fun x y _ => BitVec.ofInt 32 (min x.toInt y.toInt)), (.vmax g d a b, fun x y _ => BitVec.ofInt 32 (max x.toInt y.toInt)),
      (.vminu g d a b, fun x y _ => BitVec.ofNat 32 (min x.toNat y.toNat)),
      (.vmaxu g d a b, fun x y _ => BitVec.ofNat 32 (max x.toNat y.toNat))] : List (Instr × (W32 → W32 → W32 → W32))),
      exec c.1 s = .next (s.ends fun t => t.setV d (t.active g) (fun l => c.2 t.v[a][l] (t.bval b l) t.v[d][l]) (t.vp[a] ||| t.bpoison b))) ∧
  (∀ (s : State) (g : Guard) (d a : VReg) (b : VSrc) (k : KOp) (n : W32) (p sat : Bool), s.me.clean g →
    let clamp := fun (r : Int) => BitVec.ofInt 32 (if sat then max (-2 ^ 31) (min r (2 ^ 31 - 1)) else r)
    let all : W32 := if p then 0xFFFFFFFF#32 else 0#32
    exec (.vmad g d a b) s = .next (s.ends fun t => t.setV d (t.active g) (fun l => t.v[a][l] * t.bval b l + t.v[d][l])
      (t.vp[a] ||| t.bpoison b ||| t.vp[d])) ∧
    (s.takes k n p →
      exec (.vmovk g d k) s = .next (s.ends fun t => t.setV d (t.active g) (fun _ => n) all) ∧
      ∀ c ∈ ([(.vaddk g d a k sat, fun x => clamp (x.toInt + n.toInt)), (.vandk g d a k, fun x => x &&& n),
          (.vshlk g d a k, fun x => x <<< (n.toNat % 32))] : List (Instr × (W32 → W32))),
        exec c.1 s = .next (s.ends fun t => t.setV d (t.active g) (fun l => c.2 t.v[a][l]) (t.vp[a] ||| all))))

/-- R214 to R217. Two-operand float forms: one rounding of the exact result in each lane, or in each 16-bit element.
R209, R214 to R217. Fused and dot forms: the old destination is a source, and its poison joins.
R218, R220, R221. One-source float forms and conversions; a narrowing that overflows gives infinity, or with SAT the largest value. -/
def Obligations.LaneFloatResult : Prop :=
  ((∀ (s : State) (g : Guard) (d a : VReg) (b : VSrc) (r : Rnd), s.me.clean g →
    let add := fun (m : FFmt) (x y : Nat) => m.code r false ((m.value x).add (r == .rdn) (m.value y))
    let sub := fun (m : FFmt) (x y : Nat) => m.code r false ((m.value x).add (r == .rdn) (m.value y).neg)
    let mul := fun (m : FFmt) (x y : Nat) => m.code r false ((m.value x).mul (m.value y))
    let div := fun (m : FFmt) (x y : Nat) => m.code r false ((m.value x).div (m.value y))
    let f32 := fun (f : Nat → Nat → Nat) (x y : W32) => BitVec.ofNat 32 (f x.toNat y.toNat)
    let lo := fun (x : W32) => (x.extractLsb' 0 16).toNat
    let hi := fun (x : W32) => (x.extractLsb' 16 16).toNat
    let f16 := fun (f : Nat → Nat → Nat) (x y : W32) => BitVec.ofNat 32 (f (lo x) (lo y) + 65536 * f (hi x) (hi y))
    ∀ c ∈ ([
      (.vfadd g d a b r, f32 (add .fp32)), (.vfsub g d a b r, f32 (sub .fp32)), (.vfmul g d a b r, f32 (mul .fp32)),
      (.vfdiv g d a b r, f32 (div .fp32)), (.vfmin g d a b, f32 FFmt.fp32.min), (.vfmax g d a b, f32 FFmt.fp32.max),
      (.vfcpys g d a b, f32 fcpys), (.vhaddf g d a b r, f16 (add .fp16)), (.vhmulf g d a b r, f16 (mul .fp16)),
      (.vhminf g d a b, f16 FFmt.fp16.min), (.vhmaxf g d a b, f16 FFmt.fp16.max), (.vhaddb g d a b r, f16 (add .bf16)),
      (.vhmulb g d a b r, f16 (mul .bf16)), (.vhminb g d a b, f16 FFmt.bf16.min), (.vhmaxb g d a b, f16 FFmt.bf16.max)] :
        List (Instr × (W32 → W32 → W32))),
      exec c.1 s = .next (s.ends fun t => t.setV d (t.active g) (fun l => c.2 t.v[a][l] (t.bval b l)) (t.vp[a] ||| t.bpoison b))) ∧
  (∀ (s : State) (g : Guard) (d a : VReg) (b : VSrc) (r : Rnd) (sat : Bool), s.me.clean g →
    let fma := fun (m : FFmt) (x y o : Nat) => m.code r false (((m.value x).mul (m.value y)).add (r == .rdn) (m.value o))
    let fms := fun (m : FFmt) (x y o : Nat) => m.code r false (((m.value x).mul (m.value y)).add (r == .rdn) (m.value o).neg)
    let fnma := fun (m : FFmt) (x y o : Nat) => m.code r false (((m.value x).mul (m.value y)).neg.add (r == .rdn) (m.value o))
    let f32 := fun (f : Nat → Nat → Nat → Nat) (x y o : W32) => BitVec.ofNat 32 (f x.toNat y.toNat o.toNat)
    let lo := fun (x : W32) => (x.extractLsb' 0 16).toNat
    let hi := fun (x : W32) => (x.extractLsb' 16 16).toNat
    let f16 := fun (f : Nat → Nat → Nat → Nat) (x y o : W32) =>
      BitVec.ofNat 32 (f (lo x) (lo y) (lo o) + 65536 * f (hi x) (hi y) (hi o))
    let dot := fun (x y o : W32) =>
      let i := (List.range 4).foldl (fun acc k => acc + (x.extractLsb' (8 * k) 8).toInt * (y.extractLsb' (8 * k) 8).toInt) o.toInt
      BitVec.ofInt 32 (if sat then max (-2 ^ 31) (min i (2 ^ 31 - 1)) else i)
    ∀ c ∈ ([
      (.vfma g d a b r, f32 (fma .fp32)), (.vfms g d a b r, f32 (fms .fp32)), (.vfnma g d a b r, f32 (fnma .fp32)),
      (.vhfmaf g d a b r, f16 (fma .fp16)), (.vhfmab g d a b r, f16 (fma .bf16)),
      (.vdot2f g d a b r, f32 (dot2 .fp16 r)), (.vdot2b g d a b r, f32 (dot2 .bf16 r)), (.vdot4i g d a b sat, dot)] :
        List (Instr × (W32 → W32 → W32 → W32))),
      exec c.1 s = .next (s.ends fun t => t.setV d (t.active g) (fun l => c.2 t.v[a][l] (t.bval b l) t.v[d][l])
        (t.vp[a] ||| t.bpoison b ||| t.vp[d])))) ∧
  (∀ (s : State) (g : Guard) (d a b : VReg) (r : Rnd) (sat : Bool), s.me.clean g →
    let f := fun (f : Nat → Nat) (x : W32) => BitVec.ofNat 32 (f x.toNat)
    let half := fun (m : FFmt) (x : W32) =>
      let v := FFmt.fp32.value x.toNat
      if m.overflows r v = true ∧ sat = false then (if v.sign then m.signBit else 0) + m.infCode else m.code r sat v
    let narrow := fun (m : FFmt) (x y : W32) => BitVec.ofNat 32 (half m x + 65536 * half m y)
    let widen := fun (m : FFmt) (k : Nat) (x : W32) => BitVec.ofNat 32 (FFmt.fp32.code .rne false (m.value (x.extractLsb' (16 * k) 16).toNat))
    (∀ c ∈ ([
      (.vfabs g d a, fun x => if (FFmt.fp32.value x.toNat).isNan then 0x7FC00000#32 else x &&& 0x7FFFFFFF#32),
      (.vfneg g d a, fun x => if (FFmt.fp32.value x.toNat).isNan then 0x7FC00000#32 else x ^^^ 0x80000000#32), (.vfsqrt g d a r, f (FFmt.fp32.sqrt r)),
      (.vffloor g d a, f (frint .rdn)), (.vfceil g d a, f (frint .rup)), (.vftrunc g d a, f (frint .rz)), (.vfrint g d a r, f (frint r)),
      (.vfclass g d a, f fclass), (.vcvtfi g d a r, f (cvtFI r)), (.vcvtif g d a r, f (cvtIF r)), (.vcvtfu g d a r, f (cvtFU r)),
      (.vcvtuf g d a r, f (cvtUF r))] : List (Instr × (W32 → W32))),
      exec c.1 s = .next (s.ends fun t => t.setV d (t.active g) (fun l => c.2 t.v[a][l]) t.vp[a])) ∧
    (∀ c ∈ ([(.vcvtfh g d a b r sat, narrow .fp16), (.vcvtfb g d a b r sat, narrow .bf16)] : List (Instr × (W32 → W32 → W32))),
      exec c.1 s = .next (s.ends fun t => t.setV d (t.active g) (fun l => c.2 t.v[a][l] t.v[b][l]) (t.vp[a] ||| t.vp[b]))) ∧
    ∀ c ∈ ([(.vcvthf g d a, widen .fp16), (.vcvtbf g d a, widen .bf16)] : List (Instr × (Nat → W32 → W32))),
      exec c.1 s = .next (s.ends fun t => ((t.setV d (t.active g) (fun l => c.2 0 t.v[a][l]) t.vp[a]).setV (d + 1) (t.active g)
        (fun l => c.2 1 t.v[a][l]) t.vp[a])))

/-- R219. Each approximating form is one fixed function of its input, with the table's special values, and with a result within the table's
bound of the exact value: 1/√a, 1/a (where it does not overflow), 2^a, log2 a and tanh a, exact where the table says so. What it gives
within its bound is a free choice of the model (log 15). -/
def Obligations.ApproximatingFormsAreFixedFunctions : Prop :=
  ∃ rsq rcp exp2 log2 tanh : W32 → W32,
    (∀ (s : State) (g : Guard) (d a : VReg), s.me.clean g →
      ∀ c ∈ ([(.vfrsq g d a, rsq), (.vfrcp g d a, rcp), (.vfexp2 g d a, exp2), (.vflog2 g d a, log2), (.vftanh g d a, tanh)] :
          List (Instr × (W32 → W32))),
        exec c.1 s = .next (s.ends fun t => t.setV d (t.active g) (fun l => c.2 t.v[a][l]) t.vp[a])) ∧
    (∀ f ∈ [rsq, rcp, exp2, log2, tanh], ∀ x : W32, (FFmt.fp32.value x.toNat).isNan = true → f x = 0x7FC00000#32) ∧
    (∀ x : W32, (FFmt.fp32.value x.toNat).lt (.fin false 0 0) = true → rsq x = 0x7FC00000#32 ∧ log2 x = 0x7FC00000#32) ∧
    (∀ x : W32, (FFmt.fp32.value x.toNat).isNan = false → (FFmt.fp32.value x.toNat).lt (.fin false 128 0) = false →
      exp2 x = 0x7F800000#32) ∧
    (∀ x : W32, (FFmt.fp32.value x.toNat).lt (.fin true 149 0) = true → exp2 x = 0#32) ∧
    rsq 0#32 = 0x7F800000#32 ∧ rsq 0x80000000#32 = 0xFF800000#32 ∧ rsq 0x7F800000#32 = 0#32 ∧
    rcp 0#32 = 0x7F800000#32 ∧ rcp 0x80000000#32 = 0xFF800000#32 ∧ rcp 0x7F800000#32 = 0#32 ∧ rcp 0xFF800000#32 = 0x80000000#32 ∧
    log2 0#32 = 0xFF800000#32 ∧ log2 0x80000000#32 = 0xFF800000#32 ∧ log2 0x7F800000#32 = 0x7F800000#32 ∧ log2 0x3F800000#32 = 0#32 ∧
    tanh 0#32 = 0#32 ∧ tanh 0x80000000#32 = 0x80000000#32 ∧ tanh 0x7F800000#32 = 0x3F800000#32 ∧ tanh 0xFF800000#32 = 0xBF800000#32 ∧
    ∀ x : W32, fp32Finite x →
      let a := fp32Real x
      (0 < a → withinUlps 1 (rsq x) (1 / √a)) ∧
      (2 ^ (-128 : ℤ) < |a| → withinUlps 1 (rcp x) (1 / a)) ∧
      (-149 ≤ a → a < 128 → withinUlps 2 (exp2 x) (2 ^ a) ∧ ∀ k : ℤ, a = k → fp32Real (exp2 x) = 2 ^ k) ∧
      (0 < a →
        (a < 1 / 2 ∨ 2 < a → withinUlps 2 (log2 x) (Real.logb 2 a)) ∧
        (1 / 2 ≤ a → a ≤ 2 → fp32Finite (log2 x) ∧ |fp32Real (log2 x) - Real.logb 2 a| ≤ 2 ^ (-22 : ℤ)) ∧
        ∀ k : ℤ, a = 2 ^ k → fp32Real (log2 x) = k) ∧
      withinUlps 2 (tanh x) (Real.tanh a) ∧ |fp32Real (tanh x)| ≤ 1

/-- R222 to R224. The quantising forms under a set QCTX, and VQCFG; QCTX's poison bit joins every written lane.
R225. VPACK8 replaces the byte that B names, VUNPK8 takes it. -/
def Obligations.LaneQuantiseAndPackResult : Prop :=
  (∀ (s : State) (g : Guard) (d a : VReg) (b : VSrc) (ua ub : UReg), s.me.clean g →
    let q := s.me.qctx
    let i := fun (l : Fin 32) => s.me.bval b l
    let qp : W32 := if s.me.qpoison then 0xFFFFFFFF#32 else 0#32
    (q.toNat % 256 ≠ 0 →
      exec (.vqnt g d a b) s = .next (s.ends fun t => t.setV d (t.active g) (fun l => qEncode q t.qbase (i l) t.v[a][l])
        (t.vp[a] ||| t.bpoison b ||| qp)) ∧
      exec (.vdqnt g d a b) s = .next (s.ends fun t => t.setV d (t.active g) (fun l => qDecode q t.qbase (i l) t.v[a][l].toNat)
        (t.vp[a] ||| t.bpoison b ||| qp)) ∧
      exec (.vdgen g d b) s = .next (s.ends fun t => t.setV d (t.active g)
        (fun l => BitVec.ofNat 32 (FFmt.fp32.code .rne false (Fv.ofInt false (qDither q t.qbase (i l)) (-7)))) (t.bpoison b ||| qp))) ∧
    (s.me.s[ua].toNat / 2 ^ 48 = 0 → s.me.s[ua].toNat % 256 ∈ [0x00, 0x10, 0x11, 0x20, 0x21, 0x30] →
      exec (.vqcfg ua ub) s = .next (s.ends fun t => { t with
        qctx := t.s[ua]
        qbase := t.s[ub]
        qpoison := t.sp.getLsbD ua.val || t.sp.getLsbD ub.val }))) ∧
  (∀ (s : State) (g : Guard) (d a : VReg) (b : VSrc), s.me.clean g →
    ∃ pack : Fin 32 → W32,
      exec (.vpack8 g d a b) s = .next (s.ends fun t => t.setV d (t.active g) pack (t.vp[a] ||| t.bpoison b ||| t.vp[d])) ∧
      (∀ (l : Fin 32) (k : Fin 4), (pack l).extractLsb' (8 * k.val) 8 =
        if (s.me.bval b l).toNat % 4 = k.val then (s.me.v[a][l]).extractLsb' 0 8 else (s.me.v[d][l]).extractLsb' (8 * k.val) 8) ∧
      exec (.vunpk8 g d a b) s = .next (s.ends fun t => t.setV d (t.active g)
        (fun l => (t.v[a][l].extractLsb' (8 * ((t.bval b l).toNat % 4)) 8).zeroExtend 32) (t.vp[a] ||| t.bpoison b)))

/-- R202, R203, R205. Values that cross between the files, and the execution mask. -/
def Obligations.CrossFileMoveResult : Prop :=
  ∀ (s : State) (g : Guard) (d a : VReg) (ud ua ub : UReg) (pd pa : PReg) (b : VSrc), s.me.clean g →
    let L : Fin 32 := Fin.ofNat 32 s.me.s[ub].toNat
    let all := fun (p : Bool) => if p then 0xFFFFFFFF#32 else 0#32
    let from_ := fun (l : Fin 32) => match b with
      | .v r => Fin.ofNat 32 s.me.v[r][l].toNat
      | .s r => Fin.ofNat 32 (l.val ^^^ (s.me.s[r].toNat % 32))
    exec (.vbcst g d ua) s = .next (s.ends fun t => t.setV d (t.active g) (fun _ => t.s[ua].setWidth 32) (all (t.sp.getLsbD ua.val))) ∧
    exec (.pfroms g pd ua) s = .next (s.ends fun t => t.setP pd (t.active g) (t.s[ua].setWidth 32) (all (t.sp.getLsbD ua.val))) ∧
    exec (.vrdln ud a ub) s = .next (s.ends fun t => t.setS ud (t.v[a][L].setWidth 64) (t.vp[a].getLsbD L.val || t.sp.getLsbD ub.val)) ∧
    exec (.vwrln d ua ub) s = .next (s.ends fun t => t.setV d (BitVec.ofNat 32 (2 ^ L.val)) (fun _ => t.s[ua].setWidth 32)
      (all (t.sp.getLsbD ua.val || t.sp.getLsbD ub.val))) ∧
    (∃ p : W32, exec (.vshfl g d a b) s = .next (s.ends fun t => t.setV d (t.active g) (fun l => t.v[a][from_ l]) p) ∧
      ∀ l : Fin 32, p.getLsbD l.val = (s.me.vp[a].getLsbD (from_ l).val || (s.me.bpoison b).getLsbD l.val)) ∧
    (s.me.ppoison pa &&& s.me.x = 0 → exec (.xset pa) s = .next (s.ends fun t => { t with x := t.x &&& t.pval pa })) ∧
    exec (.xsave ud) s = .next (s.ends fun t => t.setS ud (t.x.zeroExtend 64) false) ∧
    (s.me.sp.getLsbD ua.val = false → exec (.xrest ua) s = .next (s.ends fun t => { t with x := t.s[ua].setWidth 32 }))

/-- R204, R145. What the active lanes give to uniform state, and the stated results when no lane is active.
R206. VXACC adds finite values to the 128-bit accumulators of the active lanes; a NaN or an infinity traps FORMAT. -/
def Obligations.LaneReductionAndAccumulateResult : Prop :=
  (∀ (s : State) (g : Guard) (d : UReg) (k : KReg) (a : VReg) (p : PReg), s.me.clean g →
    let act := s.me.active g
    let lanes := (List.finRange 32).filter fun l : Fin 32 => act.getLsbD l.val
    let pois := fun (w : W32) => act &&& w != 0#32
    let codes := (List.finRange 32).map fun l : Fin 32 => if act.getLsbD l.val then some s.me.v[a][l].toNat else none
    exec (.vfirst g d a) s = .next (s.ends fun t => match lanes with
      | [] => t.setS d 0 false
      | l :: _ => t.setS d (t.v[a][l].zeroExtend 64) (t.vp[a].getLsbD l.val)) ∧
    exec (.vballot g d p) s = .next (s.ends fun t => t.setS d ((act &&& t.pval p).zeroExtend 64) (pois (t.ppoison p))) ∧
    exec (.panyk g k p) s = .next (s.ends fun t => t.setK k (lanes.any fun l => (t.pval p).getLsbD l.val) (pois (t.ppoison p))) ∧
    exec (.pallk g k p) s = .next (s.ends fun t => t.setK k (lanes.all fun l => (t.pval p).getLsbD l.val) (pois (t.ppoison p))) ∧
    exec (.vredai g d a) s = .next (s.ends fun t => t.setS d (BitVec.ofInt 64 (lanes.map fun l => t.v[a][l].toInt).sum) (pois t.vp[a])) ∧
    exec (.vredaf g d a) s = .next (s.ends fun t => t.setS d (BitVec.ofNat 64 ((treeRoot (FFmt.fp32.add .rne) codes).getD 0)) (pois t.vp[a])) ∧
    exec (.vredmx g d a) s =
      .next (s.ends fun t => t.setS d (BitVec.ofNat 64 ((treeRoot fmaxNan codes).getD 0xFF800000)) (pois t.vp[a]))) ∧
  (∀ (s : State) (g : Guard) (d a : VReg), s.me.clean g → d.val % 4 = 0 →
    let lanes := (List.finRange 32).filter fun l : Fin 32 => (s.me.active g).getLsbD l.val
    let r := fun (k : Fin 4) => (Fin.ofNat 256 (d.val + k.val) : VReg)
    let old := fun (l : Fin 32) => s.me.v[r 3][l] ++ s.me.v[r 2][l] ++ s.me.v[r 1][l] ++ s.me.v[r 0][l]
    let sum := fun (l : Fin 32) => fxAddF32 (old l) s.me.v[a][l].toNat
    let p := s.me.vp[a] ||| s.me.vp[r 0] ||| s.me.vp[r 1] ||| s.me.vp[r 2] ||| s.me.vp[r 3]
    let put := fun (k : Fin 4) (t : TG) => t.setV (r k) (t.active g) (fun l => (sum l).extractLsb' (32 * k.val) 32) p
    if lanes.any fun l => (s.me.v[a][l]).extractLsb' 23 8 == 0xFF#8 then exec (.vxacc g d a) s = .next (s.trap cFORMAT 0 0)
    else exec (.vxacc g d a) s = .next (s.ends fun t => put 3 (put 2 (put 1 (put 0 t)))))

/-! ### Loads, stores, atomics -/

/-- R229, R234, R185, R243. A uniform load of clean storage: SLD, SLDS, C.SLD, SLDACQ, and WAITV when the word differs. An equal word parks
WAITV on the address, with one of the 1,024 watches of the line's home die where one is free; a line of no home die has no watch. The die of
a window's line is the one that the window names, the model's choice (log 138). -/
def Obligations.UniformLoadResult : Prop :=
  ∀ (s : State) (g : Guard) (d a b : UReg) (o : MOff) (sc : Scope) (cd ca : CReg) (n : BitVec 3) (va at_ : Nat), s.me.opens g → s.Calm →
    let u := fun (r : CReg) => (r.castLE (Nat.le_of_ble_eq_true rfl) : UReg)
    (∀ c ∈ ([(.sld g d a o, 8, mAddress s.me.s[a] o 8, a, d, false), (.slds g d a o, 4, mAddress s.me.s[a] o 4, a, d, true),
        (.sldacq g d a sc, 8, s.me.s[a], a, d, false),
        (.cSld cd ca n, 8, s.me.s[u ca] + 8 * n.zeroExtend 64, u ca, u cd, false)] : List (Instr × Nat × W64 × UReg × UReg × Bool)),
      c.2.2.1.toNat = va → s.me.sp.getLsbD c.2.2.2.1.val = false → s.clears false va c.2.1 → s.loadAt va = some at_ →
      ∃ t, exec c.1 s = .next t ∧ s.readsTo t fun r => r.setS c.2.2.2.2.1
        (if c.2.2.2.2.2 then (BitVec.ofNat 32 (s.num at_ 4)).signExtend 64 else BitVec.ofNat 64 (s.num at_ 8)) (s.bad at_ c.2.1)) ∧
    (s.me.s[a].toNat = va → s.me.sp.getLsbD a.val = false → s.clears false va 8 → s.loadAt va = some at_ → s.me.wake = none →
      BitVec.ofNat 64 (s.num at_ 8) ≠ s.me.s[b] → s.watches = [] →
      ∃ t, exec (.waitv g d a b sc) s = .next t ∧ s.readsTo t fun r => r.setS d (BitVec.ofNat 64 (s.num at_ 8)) (s.bad at_ 8)) ∧
    (s.me.s[a].toNat = va → s.me.sp.getLsbD a.val = false → s.clears false va 8 → s.loadAt va = some at_ → s.me.wake = none →
      BitVec.ofNat 64 (s.num at_ 8) = s.me.s[b] → s.me.k10 = false → (∀ w ∈ s.watches, w.tg ≠ s.me.loc) →
      ∃ t, exec (.waitv g d a b sc) s = .next t ∧
        { t with
          watches := s.watches
          replicas := s.replicas
          regions := s.regions
          dies := s.dies
          cols := s.cols
          seq := s.seq } = s.park 3 s.me.s[a] ∧
        match s.lineHome va with
        | none => t.watches = s.watches
        | some home => t.watches = s.watches ++
            (if (s.watches.filter fun w => w.die == home).length < 1024 then [⟨home, s.me.loc, s.me.asid, lineOf at_⟩] else []))

/-- R229, R232. A vector load: each lane where X is 1 takes the bytes at its own address; VLDD fills two registers. R231. A register is
poisoned in a lane when the bytes that it takes there include a poisoned word.
R233. The dequantising loads: each lane decodes the code of its element under QCTX; two INT4 codes share a byte, even low. -/
def Obligations.VectorLoadResult : Prop :=
  (∀ (s : State) (g : Guard) (d : VReg) (a : UReg) (b : VSrc) (w : UReg) (A : W64 → Nat), s.me.opens g → s.Calm → s.me.x ≠ 0 →
    let off := fun (l : Fin 32) => s.me.s[a] + (s.me.bval b l).signExtend 64
    let stride := fun (l : Fin 32) => s.me.s[a] + BitVec.ofNat 64 l.val * s.me.s[w]
    let unit := fun (l : Fin 32) => s.me.s[a] + BitVec.ofNat 64 (4 * l.val)
    let ok := fun (z : Nat) (x : Fin 32 → W64) => ∀ l : Fin 32, s.me.x.getLsbD l.val = true →
      s.clears false (x l).toNat z ∧ s.loadAt (x l).toNat = some (A (x l))
    let pois := fun (z : Nat) (x : Fin 32 → W64) (p : W32) => ∀ l : Fin 32, s.me.x.getLsbD l.val = true → p.getLsbD l.val = s.bad (A (x l)) z
    s.me.sp.getLsbD a.val = false →
    (s.me.bpoison b &&& s.me.x = 0 →
      (∀ c ∈ ([(.vldw g d a b, 4), (.vldh g d a b, 2), (.vldb g d a b, 1)] : List (Instr × Nat)), ok c.2 off →
        ∃ t p, exec c.1 s = .next t ∧ pois c.2 off p ∧
          s.readsTo t fun r => r.setV d r.x (fun l => BitVec.ofNat 32 (s.num (A (off l)) c.2)) p) ∧
      (ok 8 off → ∃ t p q, exec (.vldd g d a b) s = .next t ∧ pois 4 off p ∧
        (∀ l : Fin 32, s.me.x.getLsbD l.val = true → q.getLsbD l.val = s.bad (A (off l) + 4) 4) ∧
        s.readsTo t fun r => (r.setV d r.x (fun l => BitVec.ofNat 32 (s.num (A (off l)) 4)) p).setV (VReg.plus d 1) r.x
          (fun l => BitVec.ofNat 32 (s.num (A (off l) + 4) 4)) q)) ∧
    (s.me.sp.getLsbD w.val = false → ok 4 stride → ∃ t p, exec (.vldsw g d a w) s = .next t ∧ pois 4 stride p ∧
      s.readsTo t fun r => r.setV d r.x (fun l => BitVec.ofNat 32 (s.num (A (stride l)) 4)) p) ∧
    (ok 4 unit → ∃ t p, exec (.vldc g d a) s = .next t ∧ pois 4 unit p ∧
      s.readsTo t fun r => r.setV d r.x (fun l => BitVec.ofNat 32 (s.num (A (unit l)) 4)) p)) ∧
  (∀ (s : State) (g : Guard) (d : VReg) (a : UReg) (b : VSrc) (A : W64 → Nat), s.me.opens g → s.Calm → s.me.x ≠ 0 →
    s.me.sp.getLsbD a.val = false → s.me.qctx.toNat % 256 ≠ 0 →
    let int4 := s.me.qctx.toNat % 256 = 0x11
    let place := fun (e : W32) => s.me.s[a] + BitVec.ofNat 64 (if int4 then e.toNat / 2 else e.toNat)
    let code := fun (e : W32) => if int4 then s.num (A (place e)) 1 / 16 ^ (e.toNat % 2) % 16 else s.num (A (place e)) 1
    ∀ c ∈ ([(.vldq g d a b, s.me.bval b, s.me.bpoison b), (.vldsc g d a, fun l => BitVec.ofNat 32 l.val, 0#32)] :
        List (Instr × (Fin 32 → W32) × W32)),
      c.2.2 &&& s.me.x = 0 →
      (∀ l : Fin 32, s.me.x.getLsbD l.val = true →
        s.clears false (place (c.2.1 l)).toNat 1 ∧ s.loadAt (place (c.2.1 l)).toNat = some (A (place (c.2.1 l)))) →
      ∃ t p, exec c.1 s = .next t ∧
        (∀ l : Fin 32, s.me.x.getLsbD l.val = true → p.getLsbD l.val = (s.bad (A (place (c.2.1 l))) 1 || s.me.qpoison)) ∧
        s.readsTo t fun r => r.setV d r.x (fun l => qDecode s.me.qctx s.me.qbase (c.2.1 l) (code (c.2.1 l))) p)

/-- R98, R229, R232 to R234, R185. A store leaves memory as it is and adds its bytes to the core's store buffer.
R233. The quantising stores: each lane's code enters the store buffer, a 4-bit code as its half of the byte. -/
def Obligations.StoreEntersTheBuffer : Prop :=
  (∀ (s : State) (g : Guard) (d : VReg) (a : UReg) (b : VSrc) (w u : UReg) (o : MOff) (cd ca : CReg) (n : BitVec 3) (sc : Scope),
    s.me.opens g → s.Calm → s.me.sp.getLsbD a.val = false →
    let c32 := fun (r : CReg) => (r.castLE (Nat.le_of_ble_eq_true rfl) : UReg)
    let ent := fun (va : W64) (data : List Byte) (p : Bool) => s.mkEnt va .store data p false
    let off := fun (l : Fin 32) => s.me.s[a] + (s.me.bval b l).signExtend 64
    let stride := fun (l : Fin 32) => s.me.s[a] + BitVec.ofNat 64 l.val * s.me.s[w]
    let unit := fun (l : Fin 32) => s.me.s[a] + BitVec.ofNat 64 (4 * l.val)
    let lanes := (List.finRange 32).filter fun l : Fin 32 => s.me.x.getLsbD l.val
    let low := fun (z : Nat) (l : Fin 32) => bytesOf z (s.me.v[d][l]).toNat
    let pd := fun (l : Fin 32) => s.me.vp[d].getLsbD l.val
    let both := fun (l : Fin 32) => bytesOf 4 (s.me.v[d][l]).toNat ++ bytesOf 4 (s.me.v[VReg.plus d 1][l]).toNat
    let pboth := fun (l : Fin 32) => (s.me.vp[d] ||| s.me.vp[VReg.plus d 1]).getLsbD l.val
    let ok := fun (z : Nat) (va : W64) (p : Bool) => s.clears true va.toNat z ∧ s.accepts va ∧ (p = true → s.me.isPrivate va.toNat z = true)
    (∀ c ∈ ([(.vstw g d a b, 4, off, low 4, pd, s.me.bpoison b), (.vsth g d a b, 2, off, low 2, pd, s.me.bpoison b),
        (.vstb g d a b, 1, off, low 1, pd, s.me.bpoison b), (.vstd g d a b, 8, off, both, pboth, s.me.bpoison b),
        (.vstsw g d a w, 4, stride, low 4, pd, if s.me.sp.getLsbD w.val then 0xFFFFFFFF#32 else 0#32),
        (.vstc g d a, 4, unit, low 4, pd, 0#32)] :
          List (Instr × Nat × (Fin 32 → W64) × (Fin 32 → List Byte) × (Fin 32 → Bool) × W32)),
      c.2.2.2.2.2 &&& s.me.x = 0 → (∀ l ∈ lanes, ok c.2.1 (c.2.2.1 l) (c.2.2.2.2.1 l)) →
      ∃ t, exec c.1 s = .next t ∧ s.storesTo t (lanes.map fun l => ent (c.2.2.1 l) (c.2.2.2.1 l) (c.2.2.2.2.1 l))) ∧
    (∀ c ∈ ([(.sst g u a o, mAddress s.me.s[a] o 8, u, 8, a), (.ssts g u a o, mAddress s.me.s[a] o 4, u, 4, a),
        (.sstrel g u a sc, s.me.s[a], u, 8, a), (.cSst cd ca n, s.me.s[c32 ca] + 8 * n.zeroExtend 64, c32 cd, 8, c32 ca)] :
          List (Instr × W64 × UReg × Nat × UReg)),
      s.me.sp.getLsbD c.2.2.2.2.val = false → ok c.2.2.2.1 c.2.1 (s.me.sp.getLsbD c.2.2.1.val) →
      ∃ t, exec c.1 s = .next t ∧
        s.storesTo t [ent c.2.1 (bytesOf c.2.2.2.1 (s.me.s[c.2.2.1]).toNat) (s.me.sp.getLsbD c.2.2.1.val)])) ∧
  (∀ (s : State) (g : Guard) (d : VReg) (a : UReg) (b : VSrc), s.me.opens g → s.Calm →
    s.me.sp.getLsbD a.val = false → s.me.qctx.toNat % 256 ≠ 0 →
    let int4 := s.me.qctx.toNat % 256 = 0x11
    let place := fun (e : W32) => s.me.s[a] + BitVec.ofNat 64 (if int4 then e.toNat / 2 else e.toNat)
    let code := fun (e : W32) (l : Fin 32) => (qEncode s.me.qctx s.me.qbase e s.me.v[d][l]).toNat
    let lanes := (List.finRange 32).filter fun l : Fin 32 => s.me.x.getLsbD l.val
    let p := fun (l : Fin 32) => s.me.vp[d].getLsbD l.val || s.me.qpoison
    ∀ c ∈ ([(.vstq g d a b, s.me.bval b, s.me.bpoison b), (.vstsc g d a, fun l => BitVec.ofNat 32 l.val, 0#32)] :
        List (Instr × (Fin 32 → W32) × W32)),
      c.2.2 &&& s.me.x = 0 →
      (∀ l ∈ lanes, s.clears true (place (c.2.1 l)).toNat 1 ∧ s.accepts (place (c.2.1 l)) ∧
        (p l = true → s.me.isPrivate (place (c.2.1 l)).toNat 1 = true)) →
      ∃ t, exec c.1 s = .next t ∧ s.storesTo t (lanes.map fun l =>
        let e := c.2.1 l
        if int4 then (if e.toNat % 2 = 0 then s.mkEnt (place e) .nibLo [BitVec.ofNat 8 (code e l)] (p l) false
          else s.mkEnt (place e) .nibHi [BitVec.ofNat 8 (16 * code e l)] (p l) false)
        else s.mkEnt (place e) .store [BitVec.ofNat 8 (code e l)] (p l) false))

/-- R236, R238. An atomic with NR writes no register and enters the store buffer with its operand, for SCOPE below CLUSTER or the default. -/
def Obligations.AtomicWithoutResultEntersTheBuffer : Prop :=
  ∀ (s : State) (g : Guard) (d : VReg) (a : UReg) (b : VSrc) (e u : UReg) (sc : Scope),
    s.me.opens g → s.Calm → s.me.det = false → s.me.sp.getLsbD a.val = false → s.me.bpoison b &&& s.me.x = 0 →
    let at_ := fun (l : Fin 32) => s.me.s[a] + (s.me.bval b l).signExtend 64
    let lanes := (List.finRange 32).filter fun l : Fin 32 => s.me.x.getLsbD l.val
    let one := fun (l : Fin 32) => bytesOf 4 (s.me.v[d][l]).toNat
    let two := fun (l : Fin 32) => bytesOf 4 (s.me.v[d][l]).toNat ++ bytesOf 4 (s.me.v[VReg.plus d 1][l]).toNat
    let p1 := fun (l : Fin 32) => s.me.vp[d].getLsbD l.val
    let p2 := fun (l : Fin 32) => (s.me.vp[d] ||| s.me.vp[VReg.plus d 1]).getLsbD l.val
    (∀ c ∈ ([
      (.vatadd g d a b true sc, 0, 4, one, p1), (.vatmin g d a b true sc, 1, 4, one, p1), (.vatmax g d a b true sc, 2, 4, one, p1),
      (.vatand g d a b true sc, 3, 4, one, p1), (.vator g d a b true sc, 4, 4, one, p1), (.vatxor g d a b true sc, 5, 4, one, p1),
      (.vatxch g d a b true sc, 6, 4, one, p1), (.vatcas g d a b true sc, 7, 4, two, p2), (.vxadd g d a b true sc, 11, 16, one, p1),
      (.vfatadd g d a b true sc, 12, 4, one, p1)] : List (Instr × Nat × Nat × (Fin 32 → List Byte) × (Fin 32 → Bool))),
      (c.2.1 = 11 → ∀ l ∈ lanes, (s.me.v[d][l]).extractLsb' 23 8 ≠ 0xFF#8) →
      (∀ l ∈ lanes, s.clears true (at_ l).toNat c.2.2.1 ∧ s.accepts (at_ l) ∧
        (c.2.2.2.2 l = true → s.me.isPrivate (at_ l).toNat c.2.2.1 = true)) →
      ∃ t, exec c.1 s = .next t ∧
        s.storesTo t (lanes.map fun l => s.mkEnt (at_ l) (.atom c.2.1) (c.2.2.2.1 l) (c.2.2.2.2 l) false)) ∧
    (∀ c ∈ ([(.satadd g 0 a e true sc, 8, bytesOf 8 (s.me.s[e]).toNat, s.me.sp.getLsbD e.val),
        (.satcas g u a e true sc, 9, bytesOf 8 (s.me.s[u]).toNat ++ bytesOf 8 (s.me.s[e]).toNat, s.me.sp.getLsbD u.val || s.me.sp.getLsbD e.val),
        (.satxch g 0 a e true sc, 10, bytesOf 8 (s.me.s[e]).toNat, s.me.sp.getLsbD e.val)] : List (Instr × Nat × List Byte × Bool)),
      s.clears true (s.me.s[a]).toNat 8 → s.accepts s.me.s[a] → (c.2.2.2 = true → s.me.isPrivate (s.me.s[a]).toNat 8 = true) →
      ∃ t, exec c.1 s = .next t ∧ s.storesTo t [s.mkEnt s.me.s[a] (.atom c.2.1) c.2.2.1 c.2.2.2 false])

/-- R236, R237. A returning atomic on storage of its own die: lanes that name one location apply in ascending order, each takes the
value that the lower lanes left, and the location holds the last. Stated for clean data of a scratchpad or local store. -/
def Obligations.AtomicReturnsOldValue : Prop :=
  ∀ (s : State) (g : Guard) (d : VReg) (a : UReg) (b : VSrc) (e u : UReg) (sc : Scope) (at_ : W64),
    s.me.opens g → s.MemOk → s.Calm → s.me.det = false → s.watches = [] → s.me.sp.getLsbD a.val = false → s.me.bpoison b &&& s.me.x = 0 →
    isWindow at_.toNat = true → (winOf at_.toNat).kind < 2 → (winOf at_.toNat).die = s.me.loc.core.die →
    let lanes := (List.finRange 32).filter fun l : Fin 32 => s.me.x.getLsbD l.val
    let m32 : W32 := BitVec.ofNat 32 (s.num at_.toNat 4)
    let m64 : W64 := BitVec.ofNat 64 (s.num at_.toNat 8)
    let p1 := fun (l : Fin 32) => s.me.vp[d].getLsbD l.val
    let p2 := fun (l : Fin 32) => (s.me.vp[d] ||| s.me.vp[VReg.plus d 1]).getLsbD l.val
    let v := fun (l : Fin 32) => s.me.v[d][l]
    let v1 := fun (l : Fin 32) => s.me.v[VReg.plus d 1][l]
    let left := fun (t : State) (f : TG → TG) (z n : Nat) =>
      { t with mem := s.mem, poison := s.poison, seen := s.seen, ctxOld := s.ctxOld, dies := s.dies } = s.ends f ∧ t.num at_.toNat z = n ∧
      (∀ d, { t.die d with oldMode := [] } = { s.die d with oldMode := [] }) ∧ ∀ x, (x < at_.toNat ∨ at_.toNat + z ≤ x) → memGet t.mem x = memGet s.mem x
    (∀ c ∈ ([
      (.vatadd g d a b false sc, fun m l => m + v l, p1), (.vatmin g d a b false sc, fun m l => BitVec.ofInt 32 (min m.toInt (v l).toInt), p1),
      (.vatmax g d a b false sc, fun m l => BitVec.ofInt 32 (max m.toInt (v l).toInt), p1), (.vatand g d a b false sc, fun m l => m &&& v l, p1),
      (.vator g d a b false sc, fun m l => m ||| v l, p1), (.vatxor g d a b false sc, fun m l => m ^^^ v l, p1),
      (.vatxch g d a b false sc, fun _ l => v l, p1), (.vatcas g d a b false sc, fun m l => if m = v l then v1 l else m, p2),
      (.vfatadd g d a b false sc, fun m l => BitVec.ofNat 32 (FFmt.fp32.add .rne m.toNat (v l).toNat), p1)] :
        List (Instr × (W32 → Fin 32 → W32) × (Fin 32 → Bool))),
      lanes ≠ [] → (∀ l ∈ lanes, s.me.s[a] + (s.me.bval b l).signExtend 64 = at_) → s.clears true at_.toNat 4 →
      (∀ l ∈ lanes, c.2.2 l = false) → s.bad at_.toNat 4 = false →
      ∃ t r, exec c.1 s = .next t ∧ left t (fun x => x.setV d x.x r 0) 4 (lanes.foldl c.2.1 m32).toNat ∧
        ∀ k (h : k < lanes.length), r lanes[k] = (lanes.take k).foldl c.2.1 m32) ∧
    (lanes ≠ [] → (∀ l ∈ lanes, s.me.s[a] + (s.me.bval b l).signExtend 64 = at_) → s.clears true at_.toNat 16 →
      (∀ l ∈ lanes, s.me.vp[d].getLsbD l.val = false ∧ (v l).extractLsb' 23 8 ≠ 0xFF#8) → s.bad at_.toNat 16 = false → d.val % 4 = 0 →
      let m : W128 := BitVec.ofNat 128 (s.num at_.toNat 16)
      let op := fun (m : W128) (l : Fin 32) => fxAddF32 m (v l).toNat
      ∃ (t : State) (r : Fin 32 → W128), exec (.vxadd g d a b false sc) s = .next t ∧
        left t (fun x => (List.range 4).foldl (fun (x : TG) k =>
          x.setV (VReg.plus d k) s.me.x (fun l => (r l).extractLsb' (32 * k) 32) 0) x) 16 (lanes.foldl op m).toNat ∧
        ∀ k (h : k < lanes.length), r lanes[k] = (lanes.take k).foldl op m) ∧
    (s.me.s[a] = at_ → s.clears true at_.toNat 8 → s.me.sp.getLsbD e.val = false → s.me.sp.getLsbD u.val = false → s.bad at_.toNat 8 = false →
      ∀ c ∈ ([(.satadd g u a e false sc, m64 + s.me.s[e]), (.satcas g u a e false sc, if m64 = s.me.s[u] then s.me.s[e] else m64),
          (.satxch g u a e false sc, s.me.s[e])] : List (Instr × W64)),
        ∃ t, exec c.1 s = .next t ∧ left t (fun x => x.setS u m64 false) 8 c.2.toNat)


/-! ### Control flow, fences and waits -/

/-- R196 to R199, R185. Transfers: a condition that holds back, one that takes the branch, register targets, NOP, and WAITK of a true
condition. -/
def Obligations.ControlTransferResult : Prop :=
  ∀ (s : State) (g : Guard) (a : UReg) (c k : KReg) (cn : Bool) (o : BitVec 20), s.me.opens g →
    let go := fun (x : State) (t : W64) => { x with me := x.me.goto t }
    let lk := fun (x : State) => { x with me := x.me.setS 62 x.me.npc false }
    let t := s.me.pc + 2 * o.signExtend 64
    let r := s.me.s[a]
    let ret := s.me.s[(62 : UReg)]
    (s.kpoison c = false → s.kval c = cn → ∀ i ∈ ([.br c cn o, .call c cn o] : List Instr), exec i s = .next (s.ends id)) ∧
    (s.kpoison c = false → s.kval c ≠ cn → t.toNat < 2 ^ 57 →
      exec (.br c cn o) s = .next (go s t) ∧ exec (.call c cn o) s = .next (go (lk s) t)) ∧
    (s.me.sp.getLsbD a.val = false → r.toNat % 2 = 0 → r.toNat < 2 ^ 57 →
      exec (.jmpr g a) s = .next (go s r) ∧ exec (.callr g a) s = .next (go (lk s) r)) ∧
    (s.me.sp.getLsbD 62 = false → ret.toNat % 2 = 0 → ret.toNat < 2 ^ 57 →
      exec (.ret g) s = .next (go s ret) ∧ exec .cRet s = .next (go s ret)) ∧
    exec (.nop g) s = .next (s.ends id) ∧ exec .cNop s = .next (s.ends id) ∧
    ((s.me.super = true ∨ (k.val ≠ 13 ∧ k.val ≠ 15)) → s.me.wake = none → s.kval k = true → exec (.waitk g k) s = .next (s.ends id))

/-- R103, R241. Every fence completes in a calm state whatever its scope; so do LOGWAIT, DESCINV and its DEEP form, which empty the
cluster's descriptor cache of what they name.
R103. A fence of DIE scope or wider stalls while the thread group's own store has not left the core, and nothing else changes.
R242. The last running thread group of a piece to arrive at a barrier completes it and releases the others; an earlier one parks; one
without a task completes at once. -/
def Obligations.FenceAndBarrierResult : Prop :=
  (∀ (s : State) (g : Guard) (a : UReg) (sc : Scope), s.me.opens g → s.Calm → s.me.wake = none →
    let c := s.me.loc.core.cluster
    let cache := fun (f : Half × W64 → Bool) =>
      ({ s with clusters := kset c { s.cluster c with dcache := (s.cluster c).dcache.filter fun e => f (e.1, e.2.1) } s.clusters } : State)
    (∀ i ∈ ([.fence g sc, .fenceacq g sc, .fencerel g sc, .logwait g] : List Instr), exec i s = .next (s.ends id)) ∧
    (s.me.sp.getLsbD a.val = false →
      exec (.descinv g a) s = .next ((cache fun e => !(e.1 == s.me.asid && e.2 == s.me.s[a])).ends id)) ∧
    exec (.descinvDeep g) s = .next ((cache fun _ => false).ends id)) ∧
  (∀ (s : State) (g : Guard) (sc : Scope) (e : StEnt), s.me.opens g →
    e ∈ (s.core s.me.loc.core).fifo → e.tg = s.me.loc → sc ∈ [Scope.die, .device, .system, .dflt] →
    ∀ i ∈ ([.fence g sc, .fenceacq g sc, .fencerel g sc] : List Instr),
      ∃ t, exec i s = .next t ∧ t.me.status = .stalled ∧ t.me.pc = s.me.pc ∧
        { t with me := s.me } = s) ∧
  (∀ (s : State) (g : Guard) (sc : Scope), s.me.opens g → s.Calm → s.me.wake = none → s.me.k10 = false → s.me.status = .ready →
      s.me.barOver = false →
      let mine := fun (x : TG) => x.task == s.me.task && x.piece == s.me.piece && x.status != .stopped
      let waits := fun (x : TG) => match x.status with | .parked _ _ => true | _ => false
      let released := fun (x : TG) => { x with
        barArrived := false
        wake := some .go
        barOver := x.barOver || !waits x }
      (s.me.task = 0 → exec (.bar g sc) s = .next (s.ends id)) ∧
      (s.me.task ≠ 0 → (∀ x ∈ s.tgs, mine x = true → x.barArrived = true) →
        exec (.bar g sc) s = .next (({ s with
          me := { s.me with barArrived := false }
          tgs := s.tgs.map fun x => if mine x && x.barArrived then released x else x } : State).ends id)) ∧
      (s.me.task ≠ 0 → (∃ x ∈ s.tgs, mine x = true ∧ x.barArrived = false) →
        exec (.bar g sc) s = .next { s with me := { s.me with
          barArrived := true
          status := .parked 4 0
          parkedAt := s.ptp.toNat } }))


/-! ### Rings, copies, streams (majors 21, 22, 23) -/

/-- R262, R263, R265, R266, R185. Waits with their condition met, slot addresses, advances, unbinding, and the binding of a handle. -/
def Obligations.RingResult : Prop :=
  ∀ (s : State) (g : Guard) (d a : UReg) (h : HReg) (ch : CReg) (n3 : BitVec 3) (r : Ring),
    s.me.opens g → s.me.sp.getLsbD a.val = false → (∀ k o, s.me.status ≠ .parked k o) →
    let c := s.me.loc.core.cluster
    let n := s.me.s[a].toNat
    let slot := fun (i : Nat) => (BitVec.ofNat 64 (spadAddr c (r.rd.off + i % r.rd.slots * r.rd.slotBytes)) : W64)
    let idle := r.landed = [] ∧ r.freed = [] ∧ r.w < 65536 ∧ r.r < 65536 ∧ r.rd.slots ≤ 256 ∧ 0 < r.rd.slots
    let bind := fun (u : State) (x : W64) => { u with me := { u.me with rings := u.me.rings.set h x } }
    (s.bound h.val = some r →
      (n < r.free → exec (.rslot g d h a) s = .next (s.ends fun t => t.setS d (slot (r.w + n)) false)) ∧
      (n < r.committed → exec (.rslotc g d h a) s = .next (s.ends fun t => t.setS d (slot (r.r + n)) false)) ∧
      (s.me.wake = none → n ≤ r.rd.slots → n ≤ r.committed → exec (.rwfull g h a) s = .next (s.ends id)) ∧
      (s.me.wake = none → n ≤ r.rd.slots → n ≤ r.free → exec (.rwfree g h a) s = .next (s.ends id)) ∧
      (idle → r.c = r.w → n ≤ r.rd.slots → n ≤ r.free → s.bufferClear s.me.loc = true → 0 < n →
        ∃ t, exec (.radvp g h a) s = .next t ∧ t.me = s.me.advance ∧
          s.ringsTo t r (fun x => { x with w := (r.w + n) % 65536, c := (r.w + n) % 65536 })) ∧
      (∀ i ∈ ([(.radvc g h a, n), (.cRadvc ch n3, n3.toNat + 1)] : List (Instr × Nat)), ch.val = h.val ∨ i.1 = .radvc g h a →
        idle → r.f = r.r → i.2 ≤ r.rd.slots → i.2 ≤ r.committed →
        ∃ t, exec i.1 s = .next t ∧ t.me = s.me.advance ∧
          s.ringsTo t r (fun x => { x with r := (r.r + i.2) % 65536, f := (r.r + i.2) % 65536 })) ∧
      ((∀ o ∈ s.ops, o.tg = some s.me.loc → h.val ∉ o.handles) →
        ∃ t, exec (.rundef g h) s = .next t ∧ t.me = (bind s 0).me.advance ∧ { t with me := s.me, clusters := s.clusters } = s)) ∧
    (∀ (bs : List Byte) (u : State), s.snaps true s.me.s[a] 32 32 bs u → u.bound h.val = none → (parseRing bs).valid c.die = true →
      ((u.ring c u.me.asid u.me.part s.me.s[a]).isSome = true → exec (.rdef g h a) s = .next ((bind u s.me.s[a]).ends id)) ∧
      (u.ring c u.me.asid u.me.part s.me.s[a] = none → (u.cluster c).ringCount < 128 →
        ∃ t, exec (.rdef g h a) s = .next t ∧ t.me = (bind u s.me.s[a]).me.advance ∧
          (t.cluster c).rings = (u.cluster c).rings ++ [(⟨s.me.s[a], u.me.asid, none, parseRing bs, 0, 0, 0, 0, [], []⟩ : Ring)] ∧
          { t with me := u.me, clusters := u.clusters } = u))

/-- R263, R265, R266, R185. A wait on a ring that lacks the count parks on its descriptor; a handle with no ring, a count above the
slots, an advance or a slot past what is free or committed, and RDEF of a bound handle, of an invalid descriptor and with the table full
trap with their reasons. -/
def Obligations.RingWaitsAndTraps : Prop :=
  ∀ (s : State) (g : Guard) (d a : UReg) (h : HReg) (ch : CReg) (n3 : BitVec 3) (r : Ring), s.me.opens g → s.me.sp.getLsbD a.val = false →
    let n := s.me.s[a].toNat
    let ring := fun (x : W64) (why : Nat) => s.trap cRING x (BitVec.ofNat 64 (why + 256 * h.val))
    (s.bound h.val = none →
      ∀ i ∈ ([.rwfull g h a, .rwfree g h a, .radvp g h a, .radvc g h a, .rslot g d h a, .rslotc g d h a, .rundef g h] : List Instr),
        exec i s = .next (ring s.me.rings[h] 1)) ∧
    (s.bound h.val = some r →
      (r.rd.slots < n → ∀ i ∈ ([.rwfull g h a, .rwfree g h a, .radvp g h a, .radvc g h a] : List Instr), exec i s = .next (ring r.desc 5)) ∧
      (r.free < n → exec (.radvp g h a) s = .next (ring r.desc 5)) ∧
      (r.committed < n → exec (.radvc g h a) s = .next (ring r.desc 5)) ∧
      (ch.val = h.val → r.rd.slots < n3.toNat + 1 ∨ r.committed < n3.toNat + 1 → exec (.cRadvc ch n3) s = .next (ring r.desc 5)) ∧
      (r.free ≤ n → exec (.rslot g d h a) s = .next (ring r.desc 5)) ∧
      (r.committed ≤ n → exec (.rslotc g d h a) s = .next (ring r.desc 5)) ∧
      (s.me.wake = none → s.me.k10 = false → 0 < n → n ≤ r.rd.slots →
        (r.committed < n → exec (.rwfull g h a) s = .next (s.dropSnaps.park 6 r.desc)) ∧
        (r.free < n → exec (.rwfree g h a) s = .next (s.dropSnaps.park 5 r.desc)))) ∧
    (∀ (bs : List Byte) (u : State), s.snaps true s.me.s[a] 32 32 bs u →
      let c := s.me.loc.core.cluster
      let rdef := fun (why : Nat) => exec (.rdef g h a) s = .next (u.trap cRING s.me.s[a] (BitVec.ofNat 64 (why + 256 * h.val)))
      (u.bound h.val ≠ none → rdef 2) ∧
      (u.bound h.val = none → (parseRing bs).valid c.die = false → rdef 3) ∧
      (u.bound h.val = none → (parseRing bs).valid c.die = true → u.ring c u.me.asid u.me.part s.me.s[a] = none →
        128 ≤ (u.cluster c).ringCount → rdef 4))

/-- R109, R250. TOKRD reads a token's count; WAITT completes when every token of its mask is zero and stalls otherwise. -/
def Obligations.TokenResult : Prop :=
  ∀ (s : State) (g : Guard) (d : UReg) (k : TReg) (m : Byte), s.me.opens g →
    exec (.tokrd g d k) s = .next (s.ends fun t => t.setS d (BitVec.ofNat 64 s.me.tok[k]) false) ∧
    ∀ i ∈ ([.waitt g m, .cWaitt m] : List Instr),
      ((∀ j : Fin 8, m.getLsbD j.val = true → s.me.tok[j] = 0) → exec i s = .next (s.ends id)) ∧
      ((∃ j : Fin 8, m.getLsbD j.val = true ∧ s.me.tok[j] ≠ 0) → exec i s = .next { s with me := { s.me with status := .stalled } })

/-- R267 to R270, R110, R248, R250. CPY, CPYT and CPYRD snapshot their packet and its two maps, and start with the lock of both
regions; CPYR claims the slot at W of its ring, whose index the operation keeps. -/
def Obligations.CopyStarts : Prop :=
  ∀ (s u u1 u2 : State) (g : Guard) (k : TReg) (a : UReg) (h : HReg) (bs : List Byte) (ms md : TMap) (r : Ring),
    s.me.opens g → s.me.sp.getLsbD a.val = false → (∀ k o, s.me.status ≠ .parked k o) → s.snaps false s.me.s[a] 64 64 bs u →
    (parsePkt bs).flags / 8 = 0 →
    u.snapsMap (parsePkt bs).src ms u1 →
    let p := parsePkt bs
    (∀ i ∈ ([(.cpy g k a, 1, p.ext), (.cpyt g k a, 2, swap01 p.ext), (.cpyrd g k a, 3, p.ext)] : List (Instr × Nat × List Nat)),
      u1.snapsMap p.dst md u2 → copyOk i.2.1 p (some ms) (some md) = true → u2.mayIssue (some k) true →
      ∃ t, exec i.1 s = .next t ∧ u2.starts t (.copy i.2.1) (some k) bs s.me.s[a] [ms, md] [] ∧
        u2.locks t (some (ms.lockRanges p.so p.ext, md.ranges p.do_ i.2.2)) ∧ t.tgs = u2.tgs ∧ t.cores = u2.cores) ∧
    (u1.bound h.val = some r → copyOk 1 p (some ms) none = true → tileSize ms.fmt p.ext ≤ r.rd.slotBytes → s.me.wake = none → r.free ≠ 0 →
      u1.mayIssue (some k) true →
      ∃ t, exec (.cpyr g k h a) s = .next t ∧ u1.starts t (.copyRing r.desc r.w) (some k) bs s.me.s[a] [ms] [h.val] ∧
        u1.locks t (some (ms.lockRanges p.so p.ext, [])) ∧ (t.cluster s.me.loc.core.cluster).rings =
          updFirst (fun x => x.desc == r.desc && x.asid == r.asid && x.part == r.part) (fun x => { x with w := (x.w + 1) % 65536 })
            (u1.cluster s.me.loc.core.cluster).rings)

/-- R276, R278, R282. A stream starts on its token with the lock of its source and index list; GSTAT reads rows and state; GSTOP
between slots ends it, and inside one lets the slot end. -/
def Obligations.GatherResult : Prop :=
  ∀ (s u u1 u2 : State) (g : Guard) (d a : UReg) (k : TReg) (h : HReg) (bs : List Byte) (ms mg : TMap) (r : Ring) (o : EngOp)
    (ring : W64) (desc : List Byte) (row : Nat) (stop : Bool) (claimed : Option Nat), s.me.opens g →
    let p := parseGather bs
    (s.me.sp.getLsbD a.val = false → s.snaps false s.me.s[a] 64 64 bs u → u.snapsMap p.smap ms u1 → u1.snapsMap p.gmap mg u2 →
      u2.bound h.val = some r → tileSize mg.fmt [p.width, p.rps, 1, 1] ≤ r.rd.slotBytes →
      (∀ o ∈ u2.ops, EngOp.isStream s.me.loc k.val o = false) → p.ok ms mg = true → u2.streams s.me.loc.core.cluster < 8 →
      u2.mayIssue (some k) true →
      ∃ t, exec (.gstart g k h a) s = .next t ∧
        { u2 with me := { u2.me with gstat := kdel k.val u2.me.gstat } }.starts { t with clusters := u2.clusters }
          (.gather r.desc bs 0 false none) (some k) bs s.me.s[a] [ms, mg] [h.val] ∧
        u2.locks t (some (ms.lockRanges [p.c0, 0, p.o2, p.o3] [p.width, ms.dim 1, 1, 1] ++ [(p.idx.toNat, p.idx.toNat + 4 * p.count)], []))) ∧
    ((∀ o ∈ s.ops, EngOp.isStream s.me.loc k.val o = false) →
      exec (.gstat g d k) s = .next (s.ends fun t => t.setS d (kget 0 s.me.gstat k.val) false) ∧ exec (.gstop g k) s = .next (s.ends id)) ∧
    (s.ops.find? (EngOp.isStream s.me.loc k.val) = some o → o.kind = .gather ring desc row stop claimed →
      (∀ x ∈ s.ops, x.id = o.id → x = o) →
      exec (.gstat g d k) s = .next (s.ends fun t =>
        let free := match s.ring o.cl o.asid o.part ring with | some r => r.free | none => 0
        t.setS d (BitVec.ofNat 64 (row % 2 ^ 32 + (if claimed = none ∧ free = 0 then 2 else 1) * 2 ^ 32)) false) ∧
      (claimed = none → ∃ t, exec (.gstop g k) s = .next t ∧ (∀ x ∈ t.ops, x.id ≠ o.id) ∧
        t.me = { (s.me.addTok k.val false) with gstat := kset k.val (BitVec.ofNat 64 (row % 2 ^ 32 + 4 * 2 ^ 32)) s.me.gstat }.advance) ∧
      (∀ i, claimed = some i → exec (.gstop g k) s = .next (({ s with
        ops := updFirst (fun x => x.id == o.id) (fun x => { x with kind := .gather ring desc row true (some i) }) s.ops } : State).ends id)))

/-! ### The matrix unit, block queues and selection, queues (majors 20, 26, and CQPUSH, CQKICK) -/

/-- R251 to R253, R259. The forms of the matrix unit take the core's tiles for their piece of the task, which finds them at zero when it did
not hold them; MCFG sets the format context of the operations that follow, MSTAT reads a tile's status at once where the queue is empty and
otherwise takes its place in it; each operation joins the core's queue, MSAVE with the context as it stands. -/
def Obligations.MatrixSetupResult : Prop :=
  ∀ (s u : State) (g : Guard) (d a : UReg) (k : TReg) (acc : AReg) (bs : List Byte), s.me.opens g → s.me.wake ≠ some .ended →
    let c := s.me.loc.core
    let mine := (s.core c).mowner = s.me.task ∧ (s.core c).mpiece = s.me.piece
    (s.core c).mowner = 0 ∨ mine →
    let claimed := if mine then s.core c else { s.core c with
      mowner := s.me.task
      mpiece := s.me.piece
      a0 := .zero
      a1 := .zero
      mctx := none }
    let with_ := fun (t : State) (k : Core) => t.core c = k ∧ ∀ x, x ≠ c → t.core x = s.core x
    (s.me.sp.getLsbD a.val = false → s.snaps false s.me.s[a] 32 32 bs u → (parseCtx bs).2 = true → u.matFull = false →
      u.mayIssue none false → ∃ t, exec (.mcfg g a) s = .next t ∧ u.starts t .mcfg none [] 0 [] [] ∧
        with_ t { claimed with mctx := some (parseCtx bs).1 }) ∧
    (s.me.phase = .start → s.matOps c = [] → ∃ t, exec (.mstat g d acc) s = .next t ∧ with_ t claimed ∧
      { t with cores := s.cores } = s.ends fun t => t.setS d (BitVec.ofNat 64 (claimed.tile acc.val).status) false) ∧
    (s.me.phase = .start → s.matOps c ≠ [] → s.matFull = false → s.logClear s.me.loc = true →
      ∃ t, exec (.mstat g d acc) s = .next t ∧ with_ t claimed ∧ t.me.status = .stalled ∧ t.me.pc = s.me.pc ∧
        t.ops = s.ops ++ [s.mkOp (.mstat acc.val) none [] 0 [] []] ∧
        { t with
          me := s.me
          ops := s.ops
          cores := s.cores
          seq := s.seq } = s) ∧
    (s.matFull = false → s.mayIssue none false →
      ∃ t, exec (.mzero g acc) s = .next t ∧ s.starts t (.mzero acc.val) none [] 0 [] [] ∧ with_ t claimed) ∧
    (s.matFull = false → s.mayIssue (some k) true → s.me.sp.getLsbD a.val = false → s.me.s[a].toNat % 128 = 0 →
      ∀ x ∈ ([(.msave g k acc a, .msave acc.val claimed.mctx s.me.s[a], true), (.mload g k acc a, .mload acc.val s.me.s[a], false)] :
          List (Instr × EKind × Bool)),
        addrCheck s.mode s.me.super x.2.2 s.me.s[a].toNat 327744 = .ok →
        let area := [(s.me.s[a].toNat, s.me.s[a].toNat + 327744)]
        ∃ t, exec x.1 s = .next t ∧ s.starts t x.2.1 (some k) [] s.me.s[a] [] [] ∧ with_ t claimed ∧
          s.locks t (some (if x.2.2 then ([], area) else (area, []))))

/-- R253 to R257, R262, R264. MMA, MMAS and MDRAIN: with their rings bound, tagged and committed, their maps as the format context
asks and the queue not full, they claim the slots at R (MDRAIN: at W) and join the core's queue. -/
def Obligations.MatrixOperationStarts : Prop :=
  ∀ (s u u1 : State) (g : Guard) (k : TReg) (acc : AReg) (h1 h2 : HReg) (a : UReg) (ra rb : Ring) (ctx : FmtCtx) (ma mb : TMap)
    (bs : List Byte), s.me.opens g → s.me.wake ≠ some .ended → (∀ k o, s.me.status ≠ .parked k o) →
    (s.core s.me.loc.core).mowner = s.me.task → (s.core s.me.loc.core).mpiece = s.me.piece → (s.core s.me.loc.core).mctx = some ctx →
    let c := s.me.loc.core.cluster
    let one := fun (r : Ring) (f : Ring → Ring) => updFirst (fun x => x.desc == r.desc && x.asid == r.asid && x.part == r.part) f
    let tag := fun (r : Ring) =>
      let bs := memBytes s.mem (r.tagAddr c r.r) 16
      (word8 bs 0, bs.drop 8)
    let cleanTag := fun (r : Ring) => isPoisoned s.poison (r.tagAddr c r.r) 16 = false
    let eat := fun (x : Ring) => { x with r := (x.r + 1) % 65536 }
    (s.bound h1.val = some ra → s.bound h2.val = some rb → ra.desc ≠ rb.desc → ra.rd.matrix = true → rb.rd.tagged = true → rb.rd.matrix = true →
      ra.committed ≠ 0 → rb.committed ≠ 0 →
      cleanTag rb →
      let ta := tag ra
      let tb := tag rb
      let kk := (opKOf ctx.afmt).getD 0
      (ra.rd.tagged = true → cleanTag ra → s.snapsMap ta.1 ma u → tagBad ma ctx.afmt 128 kk ra.rd.slotBytes = none → u.snapsMap tb.1 mb u1 →
        tagBad mb ctx.bfmt 128 kk rb.rd.slotBytes = none → u1.matFull = false → u1.mayIssue none false →
        ∃ t, exec (.mma g acc h1 h2) s = .next t ∧
          u1.starts t (.mma acc.val ctx ra.desc rb.desc ra.r rb.r) none (ta.2 ++ tb.2) 0 [ma, mb] [h1.val, h2.val] ∧
          t.cores = u1.cores ∧ (t.cluster c).rings = one rb eat (one ra eat (u1.cluster c).rings)) ∧
      (mmasFmt ctx.afmt = true → mmasFmt ctx.bfmt = true → s.snapsMap tb.1 mb u →
        tagBad mb ctx.bfmt (rb.rd.slotBytes / 128) 128 rb.rd.slotBytes = none → u.matFull = false → u.mayIssue none false →
        ∃ t, exec (.mmas g acc h1 h2) s = .next t ∧
          u.starts t (.mmas acc.val ctx ra.desc rb.desc ra.r rb.r) none tb.2 0 [mb] [h1.val, h2.val] ∧
          t.cores = u.cores ∧ (t.cluster c).rings = one rb eat (one ra eat (u.cluster c).rings))) ∧
    (s.me.sp.getLsbD a.val = false → s.snaps false s.me.s[a] 64 64 bs u → (parseDrain bs).2 = true →
      let p := (parseDrain bs).1
      u.snapsMap p.dmap ma u1 → p.ok ctx ma = true → u1.matFull = false → u1.mayIssue (some k) (!p.ring) →
      (p.ring = false → ∃ t, exec (.mdrain g k acc a) s = .next t ∧
        u1.starts t (.mdrain acc.val ctx bs 0 0) (some k) [] s.me.s[a] [ma] [] ∧
        u1.locks t (some ([], ma.ranges p.origin [p.cols, p.rows, 1, 1])) ∧ t.cores = u1.cores) ∧
      (p.ring = true → u1.bound p.ringh = some ra → tileSize ma.fmt [p.cols, p.rows, 1, 1] ≤ ra.rd.slotBytes → ra.free ≠ 0 →
        ∃ t, exec (.mdrain g k acc a) s = .next t ∧
          u1.starts t (.mdrain acc.val ctx bs ra.desc ra.w) (some k) [] s.me.s[a] [ma] [p.ringh] ∧ t.cores = u1.cores ∧
          (t.cluster c).rings = one ra (fun x => { x with w := (x.w + 1) % 65536 }) (u1.cluster c).rings))

/-- R279 to R282, R364. BQCLAIM and BQDONE send their request to the mangle and complete with its answer; BADDQ, TOPKC and TOPKR
start with the lock of what they read and write. -/
def Obligations.ReductionResult : Prop :=
  ∀ (s u u1 u2 u3 : State) (g : Guard) (d a : UReg) (k : TReg) (bs : List Byte) (m mx my mz : TMap) (q : MReq) (v : W64),
    s.me.opens g →
    (s.me.phase.req = some q.id → s.mreqs.find? (fun r => r.id == q.id) = some q → q.answer = some v →
      let rest := { s with mreqs := s.mreqs.filter (fun r => r.id != q.id) }
      exec (.bqclaim g d a) s = .next (State.ends rest fun t => t.setS d v false) ∧ exec (.bqdone g a) s = .next (State.ends rest id)) ∧
    (s.me.sp.getLsbD a.val = false → s.me.phase = .start → s.me.wake = none → s.snaps false s.me.s[a] 64 64 bs u → (parseBq bs).ok = true →
      let req := fun (done : Bool) =>
        { u with
          seq := u.seq + 1
          mreqs := u.mreqs ++ [(⟨u.seq, s.me.loc, done, s.me.s[a], s.me.asid, (parseBq bs).nblk, (parseBq bs).flagAddr,
            (parseBq bs).flagVal, s.me.super, none⟩ : MReq)]
          me := { u.me with
            phase := { u.me.phase with req := some u.seq }
            status := .stalled } }
      (u.bqFull s.me.asid s.me.s[a] = false → exec (.bqclaim g d a) s = .next (req false)) ∧
      (u.fenceReady .device u.seq = true → exec (.bqdone g a) s = .next (req true))) ∧
    (s.me.sp.getLsbD a.val = false → s.me.sp.getLsbD d.val = false → s.snaps false s.me.s[a] 64 64 bs u →
      let p := parseAdd bs
      let n := s.me.s[d].toNat
      u.snapsMap p.x mx u1 → u1.snapsMap p.y my u2 → u2.snapsMap p.z mz u3 → addMapOk mx p.xo n = true → addMapOk my p.yo n = true →
      addMapOk mz p.zo n = true → -512 ≤ p.anchor → p.anchor ≤ 511 → p.reservedOk = true → u3.mayIssue (some k) true →
      ∃ t, exec (.baddq g k d a) s = .next t ∧ u3.starts t (.baddq s.me.s[d] bs) (some k) bs s.me.s[a] [mx, my, mz] [] ∧
        u3.locks t (some (mx.ranges (blockAt p.xo n) blockExt ++ my.ranges (blockAt p.yo n) blockExt, mz.ranges (blockAt p.zo n) blockExt))) ∧
    (s.me.sp.getLsbD a.val = false → s.snaps false s.me.s[a] 64 64 bs u → u.snapsMap (parseSel bs).smap m u1 → u1.mayIssue (some k) true →
      ∀ x ∈ ([(.topkc g k a, true), (.topkr g k a, false)] : List (Instr × Bool)), (parseSel bs).ok x.2 m = true →
        ∃ t, exec x.1 s = .next t ∧ u1.starts t (.topk x.2 bs) (some k) bs s.me.s[a] [m] [] ∧
          u1.locks t (some (m.ranges [0, 0, 0, 0] [m.dim 0, m.dim 1, 1, 1], (parseSel bs).outs x.2 m)))

/-- R273, R230. CQPUSH with room, for a header and slots in a scratchpad or local store of its own die: WRIDX counts one more, its old
value is the result, and the packet with that sequence enters the store buffer, bytes 0 to 7 last.
R275, R370. CQKICK: WRIDX of the header's snapshot enters the store buffer as KICK, and the serving engine, or the slot or pending
bit of the user queue, takes the signal. -/
def Obligations.QueuePushAndKickResult : Prop :=
  (∀ (s u u1 : State) (g : Guard) (d a b : UReg) (hb pkt : List Byte), s.me.opens g → s.MemOk → s.Calm → s.me.wake = none → s.watches = [] →
    s.me.sp.getLsbD a.val = false → s.me.sp.getLsbD b.val = false →
    s.snaps false s.me.s[a] 64 64 hb u → u.snaps false s.me.s[b] 64 64 pkt u1 →
    let h := parseHdr hb
    let hdr := s.me.s[a].toNat
    let wr := s.num hdr 8
    let slot := h.base.toNat + 64 * (wr % h.cap)
    h.sound = true → h.serveOk s.mode = true → isWindow hdr = true → (winOf hdr).kind < 2 → (winOf hdr).die = s.me.loc.core.die →
    s.clears true hdr 8 → ((BitVec.ofNat 64 wr : W64) - BitVec.ofNat 64 (s.num (hdr + 8) 8)).toNat < h.cap →
    slot < 2 ^ 64 → isWindow slot = true → (winOf slot).kind < 2 → s.clears true slot 8 →
    ∃ t, exec (.cqpush g d a b) s = .next t ∧ t.me = (s.me.setS d (BitVec.ofNat 64 wr) false).advance ∧
      t.num hdr 8 = (wr + 1) % 2 ^ 64 ∧ (∀ x, (x < hdr ∨ hdr + 8 ≤ x) → memGet t.mem x = memGet s.mem x) ∧
      (t.core s.me.loc.core).fifo.map (fun e => (e.va.toNat, e.op, e.data)) =
        (List.range 7).map (fun k => (slot + 8 * (k + 1), StOp.store, (pkt.drop (8 * (k + 1))).take 8)) ++
          [(slot, StOp.store, pkt.take 4 ++ bytesOf 4 wr)]) ∧
  (∀ (s u : State) (g : Guard) (a : UReg) (hb : List Byte), s.me.opens g → s.Calm → s.me.wake = none → s.me.sp.getLsbD a.val = false →
    s.snaps false s.me.s[a] 64 64 hb u →
    let h := parseHdr hb
    let key := (s.me.asid, s.me.s[a], s.me.super)
    let q := h.serve % 1024
    h.sound = true → h.serveOk s.mode = true → (s.cluster h.engine).kicked.length < 64 →
    u.clears true (s.me.s[a] + 32).toNat 8 → u.accepts (s.me.s[a] + 32) →
    ∃ t, exec (.cqkick g a) s = .next t ∧ t.me = s.me.advance ∧ t.mem = s.mem ∧
      (t.core s.me.loc.core).fifo.map (fun e => (e.va, e.op, e.data)) = [(s.me.s[a] + 32, StOp.store, bytesOf 8 h.wridx.toNat)] ∧
      (h.user = false → key ∈ (t.cluster h.engine).kicked ∧ t.slots = s.slots ∧ t.sup = s.sup) ∧
      (h.user = true → t.clusters = u.clusters ∧
        (s.slotOf q = none → bitOf (kget 0 t.sup.pend (q / 64)).toNat (q % 64) = true) ∧
        (∀ n, s.slotOf q = some n → (s.slot n).drain = false → (t.slot n).awake = true)))

/-- R267 to R269, R271, R274, R362, R374 to R377. A packet at RDIDX begins and RDIDX counts one more; NOP, SIGNAL, BARRIER and an unknown
kind, with no flag and no event, end at once. A copy that has begun starts with the lock of its regions, a LAUNCH makes its task, and the
packet of a resolved launch ends. Of a packet that has begun, what its engine does when it begins no other. -/
def Obligations.QueuePacketResult : Prop :=
  ∀ (s u u1 : State) (q : QRef) (i : W64) (hdr : QHdr) (pb : List Byte) (xs : List (Nat × BW)) (p : Pkt) (ms md : TMap) (li : SpawnInfo)
    (slot gen : Nat) (v : W64), s.engWaits = [] →
    let fresh := fun (p : Pkt) => p.fin = none ∧ p.flagWr = none ∧ p.info = none ∧ ∀ k ∈ s.pkts, k.id = p.id → k = p
    let quietFlags := bitOf (parsePkt p.bytes).flags 0 = false ∧ bitOf (parsePkt p.bytes).flags 2 = false
    let rests := match q with
      | .slot n => (s.slot n).awake = false
      | .cq c asid hdr => ∀ e ∈ (s.cluster c).kicked, e.1 = asid → e.2.1 ≠ hdr
    let waits := fun (want : List Byte → Bool) => s.pkts.filter (fun k => k.q == q && !k.live && want k.bytes) = [p]
    (s.pktsOf q = [] → s.lookNext q = (u, some (i, hdr, pb)) → (∀ k ∈ s.pkts, k.q ≠ q ∧ k.id < u.seq) → fieldAt pb 2 2 = 0 →
      u.placeWrites (u.serveAgent q) (bytesWrite ((QRef.hdr u q).toNat + 8) (bytesOf 8 (i + 1).toNat) false) = .ok xs →
      let k := fieldAt pb 0 2
      ∀ c ∈ ([(.nopPacket q, k = 0), (.signal q, k = 10), (.barrier q, k = 9),
          (.unknownKind q, k = 5 ∨ k = 6 ∨ k = 7 ∨ 10 < k ∨ (k = 8 ∧ ∀ n, q ≠ .slot n))] : List (Instr × Prop)), c.2 →
        ∃ r, exec c.1 s = .next r ∧ r.mem = (u.engWrite (u.serveAgent q) xs).mem ∧ r.pkts = s.pkts ∧ r.tasks = s.tasks ∧
          ∀ n, q = .slot n → (r.slot n).rdidx = i + 1) ∧
    (rests → ∀ c ∈ ([(.copy q, 1), (.copyTranspose q, 2), (.copyRedither q, 3), (.fill q, 4)] : List (Instr × Nat)),
      waits (isKind c.2) → fresh p →
      (if c.2 = 4 then u = s else s.pktMap p (parsePkt p.bytes).src = (u, .ok ms)) → u.pktMap p (parsePkt p.bytes).dst = (u1, .ok md) →
      copyOk c.2 (parsePkt p.bytes) (if c.2 = 4 then none else some ms) (some md) = true → (u1.cluster p.cl).freeLock.isSome = true →
      ∃ r o l, exec c.1 s = .next r ∧ r.ops = u1.ops ++ [o] ∧ o.kind = .copy c.2 ∧ o.pkt = p.bytes ∧ o.queue = some q ∧ o.index = p.id ∧
        o.maps = (if c.2 = 4 then [md] else [ms, md]) ∧ (r.cluster p.cl).locks = (u1.cluster p.cl).locks ++ [l] ∧ l.op = o.id ∧
        l.dsts = boundRanges (md.ranges (parsePkt p.bytes).do_ ((parsePkt p.bytes).dext c.2)) ∧ { p with live := true } ∈ r.pkts ∧
        r.mem = s.mem ∧ r.tasks = s.tasks) ∧
    (rests → waits (launchWant q) → fresh p → p.fut = 0 →
      let l := parseLaunch p.bytes
      let home : ClId := ⟨p.cl.die, 0⟩
      let h := mkHandle s.devid home slot gen
      l.ok = true → l.cwimg = 0 → l.futout = 0 → s.snapTask p.cl p.agent l.tdesc = (u, .ok li) → li.bad s.mode home false = none →
      (u.scope p.asid (fwScope li.flag)).st = .open_ → fwPlace li.flag ≠ 2 → u.freeEntry home false = some (slot, gen) →
      ∃ r f k, exec (.launch q) s = .next r ∧ r.futs = u.futs ++ [f] ∧ f.h = h ∧ f.st = .queued ∧ f.asid = p.asid ∧
        r.tasks = u.tasks ++ [k] ∧ k.handle = h ∧ k.entry = li.entry ∧ k.args = li.args ∧ k.lmask = l.lmask ∧ k.launchx = l.launchx ∧
        k.queue = home ∧ k.own = max (fwPrio li.flag) p.cls ∧ k.super = false ∧ k.lineage = p.qid.map (fun n => ⟨n, p.index⟩) ∧
        { p with
          live := true
          fut := h } ∈ r.pkts ∧ r.mem = s.mem) ∧
    (s.pkts.find? (fun k => k.fut == p.fut && k.live) = some p → fresh p → p.outcome = some (.value v false) →
      (parseLaunch p.bytes).futout = 0 → quietFlags →
      ∃ r, exec (.launchComplete p.fut) s = .next r ∧ r.pkts = s.pkts.filter (fun k => k.id != p.id) ∧ r.mem = s.mem ∧
        r.tasks = s.tasks ∧ r.futs = s.futs)

/-! ### Futures, scopes and the running task (major 24) -/

/-- R63, R67, R82, R296, R297. What TOUCH, TOUCHC and POLL do at a future of their own cluster in each of its states: the value, the
trap or the status word, or a wait recorded at the entry. -/
def Obligations.FutureReadResult : Prop :=
  ∀ (s : State) (g : Guard) (d a : UReg) (k : KReg) (cd ca : CReg) (f : Fut), s.me.opens g → s.me.phase = .start → s.me.wake = none →
    let c32 := fun (r : CReg) => (r.castLE (Nat.le_of_ble_eq_true rfl) : UReg)
    s.me.sp.getLsbD a.val = false → s.me.s[a] = f.h → s.fut f.h = some f → f.spilled = none → f.ending = none → hKind f.h = 1 →
    hDevice f.h = s.devid → hTable f.h = s.me.loc.core.cluster → PartMode.hasCluster s.mode (hTable f.h) = true →
    (∀ c ∈ ([(.queued, 1), (.prefetch, 2), (.running, 3), (.parked, 4), (.resolved, 5), (.cancelled, 6), (.faulted, 7)] : List (FSt × Nat)),
      f.st = c.1 → exec (.poll g d a) s = .next (s.ends fun t => t.setS d (BitVec.ofNat 64 c.2) false)) ∧
    (∀ i ∈ ([(.touch g d a, d), (.cTouch cd ca, c32 cd)] : List (Instr × UReg)), i.1 = .touch g d a ∨ c32 ca = a →
      (f.st = .resolved → exec i.1 s = .next (s.ends fun t => t.setS i.2 f.value f.poison)) ∧
      (f.st = .cancelled → exec i.1 s = .next (s.trap cFUTCANCELLED f.h 0)) ∧
      (f.st = .faulted → exec i.1 s = .next (s.trap cFUTFAULTED f.addr (f.code.setWidth 64)))) ∧
    (f.st = .resolved → exec (.touchc g d a k) s = .next (s.ends fun t => (t.setS d f.value f.poison).setK k true false)) ∧
    (f.st = .cancelled → exec (.touchc g d a k) s = .next (s.ends fun t => (t.setS d 6 false).setK k false false)) ∧
    (f.st = .faulted →
      exec (.touchc g d a k) s = .next (s.ends fun t => (t.setS d (BitVec.ofNat 64 (7 + f.code.toNat * 2 ^ 16)) false).setK k false false)) ∧
    (f.st.terminal = false → s.task f.h = none → s.me.k10 = false → f.waiters.length + f.far.length < 4 → s.me.loc ∉ f.waiters →
      ∀ i ∈ ([.touch g d a, .touchc g d a k] : List Instr), ∃ t, exec i s = .next t ∧ t.me.status = .parked 1 f.h ∧ t.me.pc = s.me.pc ∧
        t.fut f.h = some { f with waiters := f.waiters ++ [s.me.loc] })

/-- R60, R292, R295, R297, R329. A handle of the wrong kind, of no cluster, or of another generation traps FUT_STALE with its reason,
whatever cluster issues the action where no table could judge it. That the first two reasons are found at the issuer is the model's choice
(log 146). -/
def Obligations.StaleHandleTraps : Prop :=
  ∀ (s : State) (g : Guard) (d a b : UReg) (k : KReg), s.me.opens g → s.Calm → s.me.wake = none →
    s.me.sp.getLsbD a.val = false → s.me.sp.getLsbD b.val = false →
    let h := s.me.s[a]
    ∀ i ∈ ([.touch g d a, .touchc g d a k, .poll g d a, .resolve g d a b, .ffault g d a b, .cancel g d a, .release g a] : List Instr),
      (hKind h ≠ 1 → exec i s = .next (s.trap cFUTSTALE h 1)) ∧
      (hDevice h = s.devid → hKind h = 1 → PartMode.hasCluster s.mode (hTable h) = false → exec i s = .next (s.trap cFUTSTALE h 2)) ∧
      (hDevice h = s.devid → hTable h = s.me.loc.core.cluster → hKind h = 1 → PartMode.hasCluster s.mode (hTable h) = true →
        s.fut h = none → exec i s = .next (s.trap cFUTSTALE h 3))

/-- R62, R64, R65, R68, R69, R293 to R295. RESOLVE, FFAULT and CANCEL of a pending promise settle it, wake its waiters with the
outcome and report the state it had; at a settled one they change nothing; RELEASE frees a settled future and detaches another. -/
def Obligations.FutureSettleResult : Prop :=
  ∀ (s : State) (g : Guard) (d a b : UReg) (f : Fut), s.me.opens g → s.Calm → s.me.wake = none →
    s.me.sp.getLsbD a.val = false → s.me.s[a] = f.h → s.fut f.h = some f → f.spilled = none → f.ending = none → hKind f.h = 1 →
    hDevice f.h = s.devid → hTable f.h = s.me.loc.core.cluster → PartMode.hasCluster s.mode (hTable f.h) = true →
    (∀ k o, s.me.status ≠ .parked k o) → s.me.loc ∉ f.waiters → (∀ w ∈ f.waiters, ∀ x, s.tgAt w = some x → x.wake = none) →
    let code := BitVec.ofNat 64 f.st.code
    (∀ c ∈ ([(.resolve g d a b, .value s.me.s[b] (s.me.sp.getLsbD b.val)), (.ffault g d a b, .faulted 9 s.me.s[b]),
        (.cancel g d a, .cancelled)] : List (Instr × Wake)), (c.1 = .ffault g d a b → s.me.sp.getLsbD b.val = false) →
      (f.st.terminal = true → exec c.1 s = .next (s.ends fun t => t.setS d code false)) ∧
      (f.st.terminal = false → s.task f.h = none →
        ∃ t, exec c.1 s = .next t ∧ t.me = (s.me.setS d code false).advance ∧ t.mem = s.mem ∧ t.tasks = s.tasks ∧
          (∀ h, h ≠ f.h → t.fut h = s.fut h) ∧ (∀ w ∈ f.waiters, ∀ x, t.tgAt w = some x → x.wake = some c.2) ∧
          (f.detached = true → t.fut f.h = none) ∧
          (f.detached = false → ∃ x, t.fut f.h = some x ∧ x.outcome = c.2 ∧ x.st.terminal = true ∧ x.waiters = []))) ∧
    (f.st.terminal = false → exec (.release g a) s = .next (({ s with
      futs := updFirst (fun x => x.h == f.h) (fun x => { x with detached := true }) s.futs } : State).ends id)) ∧
    (f.st.terminal = true → ∃ t, exec (.release g a) s = .next t ∧ t.me = s.me.advance ∧ t.fut f.h = none ∧ t.mem = s.mem ∧
      ∀ h, h ≠ f.h → t.fut h = s.fut h)

/-- R65, R75, R78, R293. CANCEL of a task: one that is queued leaves its queue, one that runs goes on with k10 set in each of its
thread groups. -/
def Obligations.CancelOfATask : Prop :=
  ∀ (s : State) (g : Guard) (d a : UReg) (f : Fut) (k : Task), s.me.opens g → s.Calm → s.me.wake = none →
    s.me.sp.getLsbD a.val = false → s.me.s[a] = f.h → s.fut f.h = some f → f.spilled = none → f.ending = none → f.detached = false →
    (∀ k o, s.me.status ≠ .parked k o) → s.me.loc ∉ f.waiters → (∀ i, s.me.loc ∉ (s.scope k.asid i).waiters) → hKind f.h = 1 →
    hDevice f.h = s.devid → hTable f.h = s.me.loc.core.cluster → PartMode.hasCluster s.mode (hTable f.h) = true →
    f.st.terminal = false → s.task f.h = some k → s.me.task ≠ f.h →
    ∃ t, exec (.cancel g d a) s = .next t ∧ t.me = (s.me.setS d (BitVec.ofNat 64 f.st.code) false).advance ∧ t.mem = s.mem ∧
      (k.st = .queued → t.task f.h = none) ∧
      (k.st = .running → (∃ x, t.fut f.h = some x ∧ x.st = .cancelled) ∧ (∀ x ∈ t.tgs, x.task = f.h → x.k10 = true) ∧
        t.task f.h = some { k with
          k10 := true
          preempt := none })

/-- R59, R289, R290, R298, R291. SPAWN with a readable and sound descriptor, an entry free and its scope OPEN: a QUEUED future, a task
with the descriptor's entry and arguments at the tail of its queue, and the handle as the result. FNEW: a promise. -/
def Obligations.SpawnAndPromiseResult : Prop :=
  ∀ (s u : State) (g : Guard) (d a : UReg) (i : SpawnInfo) (slot gen : Nat), s.me.opens g → s.Calm → s.me.wake = none → s.me.k10 = false →
    let c := s.me.loc.core.cluster
    let h := mkHandle s.devid c slot gen
    (s.me.sp.getLsbD a.val = false → s.begun.snapTask c s.begun.meAgent s.me.s[a] = (u, .ok i) → u.freeEntry c false = some (slot, gen) →
      i.bad s.mode c s.me.det = none → (u.scope s.ctxAsid (fwScope i.flag)).st = .open_ →
      ∃ t, exec (.spawn g d a) s = .next t ∧ t.me = (s.me.setS d h false).advance ∧ t.mem = s.mem ∧
        (∃ f, t.futs = u.futs ++ [f] ∧ f.h = h ∧ f.st = .queued ∧ f.asid = s.ctxAsid ∧ f.scope = some (fwScope i.flag) ∧ f.waiters = []) ∧
        (∃ k, t.tasks = u.tasks ++ [k] ∧ k.handle = h ∧ k.st = .queued ∧ k.entry = i.entry ∧ k.args = i.args ∧ k.asid = s.ctxAsid ∧
          k.queue = i.queue c ∧ k.own = fwPrio i.flag ∧ k.super = false) ∧
        (t.scope s.ctxAsid (fwScope i.flag)).count = (u.scope s.ctxAsid (fwScope i.flag)).count + 1) ∧
    (s.freeEntry c false = some (slot, gen) →
      ∃ t, exec (.fnew g d) s = .next t ∧ t.me = (s.me.setS d h false).advance ∧ t.mem = s.mem ∧ t.tasks = s.tasks ∧
        ∃ f, t.futs = s.futs ++ [f] ∧ f.h = h ∧ f.st = .running ∧ f.promise = true ∧ f.asid = s.ctxAsid)

/-- R84 to R87, R298, R299, R76, R293. SCOPEO opens the lowest free id under an OPEN parent, SCOPEC closes, SCOPEW goes on when nothing
is left to wait for and parks otherwise, and CANCEL.DEEP of a scope that is FREE or DONE counts nothing. -/
def Obligations.ScopeResult : Prop :=
  ∀ (s : State) (g : Guard) (d a : UReg) (i : Nat), s.me.opens g → s.Calm → s.me.wake = none → s.me.sp.getLsbD a.val = false →
    let n := s.me.s[a].toNat
    let c := s.ctxAsid
    let put := fun (t : State) => t.me = s.me.advance ∧ t.mem = s.mem ∧ t.tasks = s.tasks ∧ t.tgs = s.tgs
    (255 < n ∨ (s.scope c n).st ≠ .open_ ∨ (∀ j < 256, (s.scope c j).st ≠ .free) →
      exec (.scopeo g d a) s = .next (s.ends fun t => t.setS d (BitVec.allOnes 64) false)) ∧
    (n < 256 → (s.scope c n).st = .open_ → i < 256 → (s.scope c i).st = .free → (∀ j < i, (s.scope c j).st ≠ .free) →
      ∃ t, exec (.scopeo g d a) s = .next t ∧ t.me = (s.me.setS d (BitVec.ofNat 64 i) false).advance ∧ t.mem = s.mem ∧
        t.scope c i = ⟨.open_, some n, 0, []⟩ ∧ t.scope c n = { s.scope c n with count := (s.scope c n).count + 1 } ∧
        ∀ j, j ≠ i → j ≠ n → t.scope c j = s.scope c j) ∧
    (255 < n ∨ n = 0 ∨ (s.scope c n).st ≠ .open_ → exec (.scopec g a) s = .next (s.ends id)) ∧
    (n < 256 → n ≠ 0 → (s.scope c n).st = .open_ → (s.scope c n).count ≠ 0 →
      ∃ t, exec (.scopec g a) s = .next t ∧ put t ∧ (t.scope c n).st = .closed ∧ ∀ j, j ≠ n → t.scope c j = s.scope c j) ∧
    (255 < n → exec (.scopew g a) s = .next (s.ends id)) ∧
    (n < 256 → (s.scope c n).st = .free ∨ (s.scope c n).st = .done ∨ (s.scope c n).count = 0 →
      exec (.scopew g a) s = .next (s.ends id)) ∧
    (n < 256 → ¬((s.scope c n).st = .free ∨ (s.scope c n).st = .done ∨ (s.scope c n).count = 0) → s.me.k10 = false →
      ∃ t, exec (.scopew g a) s = .next t ∧ t.me = { s.me with
        status := .parked 2 s.me.s[a]
        parkedAt := s.ptp.toNat } ∧ t.mem = s.mem ∧ t.futs = s.futs ∧ s.me.loc ∈ (t.scope c n).waiters) ∧
    (255 < n ∨ (s.scope c n).st = .free ∨ (s.scope c n).st = .done →
      exec (.cancelDeep g d a) s = .next (s.ends fun t => t.setS d 0 false))

/-- R76, R293. CANCEL.DEEP of a live scope whose pending futures are promises cancels each of them, and its result is their number. -/
def Obligations.CancelDeepCountsAndCancels : Prop :=
  ∀ (s : State) (g : Guard) (d a : UReg), s.me.opens g → s.Calm → s.me.sp.getLsbD a.val = false → s.me.s[a].toNat < 256 →
    let c := s.ctxAsid
    let n := s.me.s[a].toNat
    let hit := fun (f : Fut) => f.asid == c && !f.st.terminal && (match f.scope with
      | some j => (s.scopeTree c n).contains j
      | none => false)
    (s.scope c n).st = .open_ ∨ (s.scope c n).st = .closed → (s.futs.map (·.h)).Nodup →
    (∀ k o, s.me.status ≠ .parked k o) →
    (∀ f ∈ s.futs, hit f = true → f.spilled = none ∧ f.ending = none ∧ f.detached = false ∧ s.task f.h = none ∧ s.me.loc ∉ f.waiters) →
    (∀ j ∈ s.scopeTree c n, (s.scope c j).st = .open_ → (s.scope c j).count ≠ 0) →
    ∃ t, exec (.cancelDeep g d a) s = .next t ∧ t.me = (s.me.setS d (BitVec.ofNat 64 (s.futs.filter hit).length) false).advance ∧
      t.mem = s.mem ∧ (∀ f ∈ s.futs, hit f = true → ∃ x, t.fut f.h = some x ∧ x.st = .cancelled) ∧
      ∀ f ∈ s.futs, hit f = false → t.fut f.h = some f

/-- R26, R27, R62, R85, R300, R309. RETIRE of a thread group whose tokens are zero, with no store left on its core and no operation under
way that names its handles. One that belongs to no task leaves its core. One whose piece goes on stops and keeps its place; the last of its
piece frees the piece's places, while other pieces go on; the last of its task ends the task, whose future takes the value that TGID 0 of
piece 0 gave: at once on its own die, otherwise by a report to its entry, and the finish scope of the task counts one less. -/
def Obligations.RetireResult : Prop :=
  ∀ (s : State) (g : Guard) (a : UReg) (k : Task) (f : Fut), s.me.opens g → s.Calm → s.me.status = .ready →
    (∀ j : Fin 8, s.me.tok[j] = 0) → (∀ o ∈ s.ops, o.tg = some s.me.loc → o.handles = []) →
    let h := s.me.task
    let first := s.me.tgid = 0 ∧ s.me.piece = 0
    let goesOn := fun (x : TG) => x.task = h ∧ x.loc ≠ s.me.loc ∧ x.status ≠ .stopped
    let stored := ∀ c ∈ s.cores, ∀ e ∈ c.2.fifo, e.task ≠ h
    let kept := fun (x : Task) => if first then some (s.me.s[a], s.me.sp.getLsbD a.val) else x.retire
    let out := (kept k).getD (0, false)
    (s.me.loc.slot = 16 ∨ h = 0 →
      ∃ t, exec (.retire g a) s = .next t ∧ t.me = .zero s.me.loc ∧ t.mem = s.mem ∧ t.tasks = s.tasks) ∧
    (s.me.loc.slot ≠ 16 → h ≠ 0 → (∃ x ∈ s.tgs, goesOn x ∧ x.piece = s.me.piece) →
      ∃ t, exec (.retire g a) s = .next t ∧ t.me.status = .stopped ∧ t.me.rings = Vector.replicate 16 0 ∧ t.mem = s.mem ∧ t.futs = s.futs ∧
        (t.task h).map (·.retire) = (s.task h).map kept) ∧
    (s.me.loc.slot ≠ 16 → h ≠ 0 → (∀ x ∈ s.tgs, goesOn x → x.piece ≠ s.me.piece) → s.task h = some k →
      (k.retiredPieces.length + 1 < k.pieces → (∃ x ∈ s.tgs, goesOn x) ∨ stored →
        ∃ t, exec (.retire g a) s = .next t ∧ t.me = .zero s.me.loc ∧ t.mem = s.mem ∧ t.futs = s.futs ∧
          t.task h = some { k with
            retire := kept k
            retiredPieces := k.retiredPieces ++ [s.me.piece] }) ∧
      (k.pieces ≤ k.retiredPieces.length + 1 → (∀ x ∈ s.tgs, ¬goesOn x) → stored → s.fut h = some f → f.st.terminal = false →
        f.ending = none → f.spilled = none → f.detached = false → (∀ m ∈ s.futMsgs, m.h ≠ h) →
        (∀ i, k.scope = some i → k.queue = ⟨0, 0⟩ → (s.scope k.asid i).count ≠ 1) →
        ∃ t, exec (.retire g a) s = .next t ∧ t.me.status = .free ∧ t.mem = s.mem ∧ t.task h = none ∧
          (hDie h = k.queue.die → ∃ x, t.fut h = some x ∧ x.st = .resolved ∧ x.outcome = .value out.1 out.2) ∧
          (hDie h ≠ k.queue.die → t.fut h = some f ∧
            ∃ m, t.futMsgs = s.futMsgs ++ [m] ∧ m.h = h ∧ m.note = .ending ⟨.resolved, out.1, out.2, 0, 0⟩) ∧
          ∀ i, k.scope = some i →
            (k.queue = ⟨0, 0⟩ → (t.scope k.asid i).count = (s.scope k.asid i).count - 1) ∧
            (k.queue ≠ ⟨0, 0⟩ → ∃ m, t.scopeMsgs = s.scopeMsgs ++ [m] ∧ m.asid = k.asid ∧ m.scope = i)))

/-- R301 to R303. YIELD leaves candidacy for min(sA, 65,535) cycles, PRIO sets the task's own class and gives the old one, SELF the
task's handle. -/
def Obligations.TaskControlResult : Prop :=
  ∀ (s : State) (g : Guard) (d a : UReg) (k : Task), s.me.opens g →
    exec (.self g d) s = .next (s.ends fun t => t.setS d s.me.task false) ∧
    (s.me.sp.getLsbD a.val = false →
      (s.me.spMask = none → s.me.stopping = false → exec (.yield g a) s = .next (s.ends id |>.modMe fun t => { t with
        status := .yielding (s.cycle.toNat + min s.me.s[a].toNat 65535)
        age := s.seq }))) ∧
    (s.task s.me.task = some k →
      let ts := updFirst (fun x => x.handle == k.handle) (fun x => { x with own := Fin.ofNat 4 s.me.s[a].toNat }) s.tasks
      exec (.prio g d a) s = .next (State.ends { s with tasks := ts } fun t => t.setS d (BitVec.ofNat 64 k.own.val) false)) ∧
    (s.task s.me.task = none → exec (.prio g d a) s = .next (s.ends fun t => t.setS d 0 false))

/-! ### Messages, system registers, traps (majors 25, 27, 18) -/

/-- R304 to R306, R313. SEND and SENDR of 64 bytes at most from the core's own local store: the message sets out with its payload,
reply word and context, and the group stalls; with the answer that a queue took it the group goes on, refused it traps INBOX. -/
def Obligations.SendResult : Prop :=
  ∀ (s : State) (g : Guard) (r a b : UReg) (rq : Nat), s.me.opens g →
    let w := s.me.s[a]
    let off := s.me.s[b].toNat
    let len := w.toNat % 128
    let bytes := fun (n : Nat) => s.num (localAddr s.me.loc.core off) n
    (∀ i ∈ ([.send g a b, .sendr g r a b] : List Instr), s.me.phase.req = some rq →
      (∀ n : W64, n ≠ 2 → s.me.wake = some (.code n) → exec i s = .next (s.ends id)) ∧
      (s.me.wake = some (.code 2) → exec i s = .next (s.trap cINBOX w 0))) ∧
    (s.Calm → s.me.wake = none → s.me.sp.getLsbD a.val = false → s.me.sp.getLsbD b.val = false → s.me.sp.getLsbD r.val = false →
      (w.toNat / 2 ^ 7) % 2 ^ 17 = 0 → len ≤ 64 → (w.toNat / 2 ^ 24) % 64 ≠ 0 → hDevice w = s.devid →
      PartMode.hasCore s.mode (dwCore w) = true → off % 8 = 0 → off + len ≤ 2 ^ 18 → s.bad (localAddr s.me.loc.core off) len = false →
      ∀ i ∈ ([(.send g a b, 0), (.sendr g r a b, s.me.s[r])] : List (Instr × W64)),
        ∃ t m, exec i.1 s = .next t ∧ t.msgs = s.msgs ++ [m] ∧ m.dst = dwCore w ∧ m.cls = (w.toNat / 2 ^ 24) % 64 ∧ m.len = len ∧
          m.reply = i.2 ∧ m.asid = s.me.asid ∧ natOf m.payload = bytes len ∧ m.payload.length = len ∧ t.mem = s.mem ∧
          t.me = { s.me with
            phase := { s.me.phase with req := some m.id }
            status := .stalled })

/-- R308, R310. RECV takes the oldest listed message that its mask admits: its class and length into sD, its 80-byte record into the
store buffer; with an empty mask it gives all ones, with no such message it parks. HTWR sets a handler entry of the core. -/
def Obligations.ReceiveAndHandlerResult : Prop :=
  ∀ (s : State) (g : Guard) (d a b : UReg) (m : Msg), s.me.opens g → s.me.sp.getLsbD a.val = false → s.me.sp.getLsbD b.val = false →
    let off := s.me.s[a].toNat
    let mask := s.me.s[b]
    let k := s.core s.me.loc.core
    let at_ := localAddr s.me.loc.core off
    (off % 16 = 0 → off + 80 ≤ 2 ^ 18 → s.me.wake = none →
      (mask = 0 → exec (.recv g d a b) s = .next (s.ends fun t => t.setS d (BitVec.allOnes 64) false)) ∧
      (mask ≠ 0 → k.fifo = [] → k.recvList.find? (fun x => mask.getLsbD x.cls) = some m →
        ∃ t, exec (.recv g d a b) s = .next t ∧ t.me = (s.me.setS d (BitVec.ofNat 64 (m.cls + 256 * m.len)) false).advance ∧
          t.mem = s.mem ∧ (t.core s.me.loc.core).recvList = dropFirst (fun x => x.id == m.id) k.recvList ∧
          (t.core s.me.loc.core).fifo.map (fun e => (e.va, e.data)) =
            (List.range 10).map (fun j => (BitVec.ofNat 64 (at_ + 8 * j), (m.record.drop (8 * j)).take 8))) ∧
      (mask ≠ 0 → s.me.k10 = false → k.recvList.find? (fun x => mask.getLsbD x.cls) = none →
        exec (.recv g d a b) s = .next { s with me := { s.me with
          status := .parked 7 mask
          parkedAt := s.ptp.toNat } })) ∧
    (handlerBad s.me.s[a] s.me.s[b] = false →
      let old := kget ⟨0, 0, false⟩ k.handlers s.me.s[a].toNat
      (s.me.super = true ∨ old.value = 0 ∨ old.asid = s.me.asid →
        ∃ t, exec (.htwr g a b) s = .next t ∧ { t with cores := s.cores } = s.ends id ∧
          (t.core s.me.loc.core).handlers = kset s.me.s[a].toNat ⟨s.me.s[b], s.me.asid, s.me.super⟩ k.handlers ∧
          { t.core s.me.loc.core with handlers := [] } = { k with handlers := [] } ∧ ∀ c, c ≠ s.me.loc.core → t.core c = s.core c) ∧
      (s.me.super = false → old.value ≠ 0 → old.asid ≠ s.me.asid → exec (.htwr g a b) s = .next (s.trap cPRIV 0 0)))

/-- R314 to R318. SRD writes the register to sD with its poison clear, in either mode: those of the thread group, its place, its task and
the device; the counts of LOGSTAT, RLSTAT, FUTSTAT, PFACC, PFLATE and CNTVAL; in supervisor mode HAMPER of the context in ASID. EVQ, and SRD
of it, give the supervisor the oldest event entry and remove it, or 0. -/
def Obligations.SystemRegisterReadResult : Prop :=
  ∀ (s : State) (g : Guard) (d : UReg), s.me.opens g →
    let x := s.me
    let k := s.core x.loc.core
    let c := s.cluster x.loc.core.cluster
    let w := fun (n : Nat) => (BitVec.ofNat 64 n : W64)
    (∀ p ∈ ([(0, w x.tgid), (1, w x.width), (2, w x.loc.core.core), (3, w x.loc.core.cl), (4, w x.loc.core.die), (5, w s.devid),
        (6, x.task), (7, x.scopeId), (9, w (if x.det then 1 else 0)), (10, x.qctx), (11, s.cycle), (12, s.ptp), (13, x.launchx),
        (14, x.trapBase), (15, x.trapCause), (16, x.trapPc), (17, x.trapAddr), (18, x.trapInfo), (19, x.trapSave),
        (20, w ((if k.stopped then 2 ^ 16 else 0) + 256 * logRecords (k.log.filter (fun e => e.tg == x.loc)) + logRecords k.log)),
        (21, w (256 * (c.locks.filter (fun l => l.owner == some x.loc)).length + (32 - c.locks.length))),
        (22, w ((if s.allTgs.any (fun y => y.ctx == x.ctx && s.hamperWait y) then 2 ^ 48 else 0) + 2 ^ 16 * s.usedRecords x.ctx +
          s.freeEntries x.loc.core.cluster)),
        (24, w (if x.super then 1 else 0)), (25, x.asid.setWidth 64), (27, x.qbase), (28, w (c.pfUseful + 2 ^ 32 * c.pfWasted)),
        (29, w (c.pfLate + 2 ^ 32 * min (c.pfDelay / 64) (2 ^ 32 - 1))), (32, x.cntSel),
        (33, if x.cntSel.toNat = 0x50 then k.nacks else if x.cntSel.toNat = 0x51 then k.spills
          else w (kget 0 (s.die x.loc.core.die).counters x.cntSel.toNat))] : List (SysReg × W64)),
      exec (.srd g d p.1) s = .next (s.ends fun t => t.setS d p.2 false)) ∧
    (∀ t, s.task x.task = some t → exec (.srd g d 8) s = .next (s.ends fun y => y.setS d (w (t.eff.val + 4 * t.own.val)) false)) ∧
    (s.task x.task = none → exec (.srd g d 8) s = .next (s.ends fun y => y.setS d 0 false)) ∧
    (x.super = true → exec (.srd g d 23) s = .next (s.ends fun t => t.setS d (w ((s.ctx x.asid).hbase + (s.ctx x.asid).logn)) false)) ∧
    (x.super = true → ∀ i ∈ ([.srd g d 26, .evq d] : List Instr),
      (s.evq = [] → exec i s = .next (s.ends fun t => t.setS d 0 false)) ∧
      ∀ (e : EvEnt) (r : List EvEnt), s.evq = e :: r → s.evDropped = 0 →
        exec i s = .next (State.ends { s with
          evq := r
          evUsed := s.evUsed.filter (· != e.idx) } fun t => t.setS d (w (e.typ * 2 ^ 48 + e.asid.toNat * 2 ^ 32 + e.idx)) false))

/-- R314, R315, R328, R137, R317, R70. SWR writes its register and nothing else; ASID and HAMPER only in supervisor mode.
R23, R184. SWR.DEEP enters the store buffer with the low word of sA for its entry of the core's constant window. -/
def Obligations.SystemRegisterWriteResult : Prop :=
  (∀ (s : State) (g : Guard) (a : UReg), s.me.opens g → s.me.sp.getLsbD a.val = false →
    let v := s.me.s[a]
    (∀ p ∈ ([(14, fun (t : TG) => { t with trapBase := v }, v.toNat % 2 = 0), (16, fun t => { t with trapPc := v }, True),
        (17, fun t => { t with trapAddr := v }, True), (18, fun t => { t with trapInfo := v }, True),
        (19, fun t => { t with trapSave := v }, True), (7, fun t => { t with scopeId := v }, v.toNat < 256),
        (15, fun t => { t with trapCause := v }, v.toNat < 1024 ∧ (s.me.super = true ∨ v.getLsbD 9 = false)),
        (27, fun t => t.setQ t.qctx v false, True), (10, fun t => t.setQ v t.qbase false, qctxTrap v = none),
        (32, fun t => { t with cntSel := v &&& 0xFFFF#64 }, True), (25, fun t => { t with asid := v.setWidth 16 }, s.me.super = true)] :
          List (SysReg × (TG → TG) × Prop)),
      p.2.2 → exec (.swr g a p.1) s = .next (s.ends p.2.1)) ∧
    (s.me.super = true → hamperOk v = true → v.getLsbD 5 = false → ∃ t, exec (.swr g a 23) s = .next t ∧
      { t with ctxs := s.ctxs } = s.ends id ∧ (t.ctx s.me.asid).hbase = (v.toNat / 2 ^ 16) % 2 ^ 41 * 2 ^ 16 ∧
      (t.ctx s.me.asid).logn = v.toNat % 32)) ∧
  (∀ (s : State) (g : Guard) (a : UReg) (n : Byte), s.me.opens g → s.Calm → s.me.sp.getLsbD a.val = false →
    (s.me.super = true ∨ n.toNat < 224) →
    let va : W64 := BitVec.ofNat 64 (localAddr s.me.loc.core (4 * n.toNat))
    s.clears true va.toNat 4 →
    ∃ t, exec (.swrDeep g a n) s = .next t ∧ s.storesTo t [s.mkEnt va .store (bytesOf 4 s.me.s[a].toNat) false false])

/-- R187, R200, R320, R326, R327. TRAP, BRK and a word that is no instruction take their trap: cause with ACTIVE and mode, address and
information are saved and the PC goes to TRAPBASE; nothing else changes. -/
def Obligations.TrapTaken : Prop :=
  ∀ (s : State) (g : Guard) (a : UReg) (r : Fin 16) (w : W32), s.me.opens g → bitOf s.me.trapCause.toNat 8 = false → s.me.trapBase ≠ 0 →
    (s.mgmt.debug = 2 → s.mgmt.brkHalt = false) →
    ∀ c ∈ ([(.trap g a, 13, s.me.s[a]), (.brk g, 14, 0), (.illegalEncoding r w, 1, BitVec.ofNat 64 (r.val * 2 ^ 32 + w.toNat))] :
        List (Instr × Nat × W64)),
      exec c.1 s = .next { s with me := { s.me with
        trapCause := BitVec.ofNat 64 (c.2.1 + 256 + (if s.me.super then 512 else 0))
        trapPc := s.me.pc
        trapAddr := 0
        trapInfo := c.2.2
        pc := s.me.trapBase
        status := .ready
        phase := .start
        wake := none
        cur := none
        pipe := false } }

/-- R326, R62, R64, R79, R80. A trap while one is active, or with TRAPBASE zero, kills the task with code UNHANDLED and the cause as
address. With nothing of it in flight, its future is FAULTED at once and none of its thread groups is left; while a copy of it drains, its
thread groups are stopped and the entry holds the action. -/
def Obligations.UnhandledTrapKills : Prop :=
  ∀ (s : State) (c : Nat) (addr info : W64) (k : Task) (f : Fut), (bitOf s.me.trapCause.toNat 8 = true ∨ s.me.trapBase = 0) →
    s.me.loc.slot ≠ 16 → s.me.task ≠ 0 → s.me.status ≠ .free → s.task s.me.task = some k → k.scope = none → k.dying = false →
    s.fut s.me.task = some f → f.st.terminal = false → f.detached = false → f.spilled = none → f.ending = none →
    hDie s.me.task = s.me.loc.core.die → (∀ m ∈ s.futMsgs, m.h ≠ s.me.task) →
    let h := s.me.task
    let t := s.trap c addr info
    ((∀ o ∈ s.ops, o.task ≠ h) → s.taskStored h = true →
      t.mem = s.mem ∧ t.task h = none ∧ (∀ x ∈ t.allTgs, x.task ≠ h) ∧
      ∃ x, t.fut h = some x ∧ x.st = .faulted ∧ x.code = 4 ∧ x.addr = BitVec.ofNat 64 c) ∧
    ((∃ o ∈ s.ops, o.task = h) → (∀ o ∈ s.ops, o.task = h → ∃ n, o.kind = .copy n) →
      t.mem = s.mem ∧ t.task h = some { k with dying := true } ∧ (∀ x ∈ t.allTgs, x.task = h → x.status = .stopped) ∧
      ∃ x, t.fut h = some x ∧ x.st = f.st ∧ x.ending = some ⟨.faulted, 0, false, 4, BitVec.ofNat 64 c⟩)

/-- R330, R328. TRET: to TRAPPC in the mode of PMODE, ACTIVE clear; in user mode with PMODE set it traps PRIV. -/
def Obligations.TrapReturnResult : Prop :=
  ∀ (s : State) (g : Guard), s.me.opens g →
    let p := s.me.trapCause.getLsbD 9
    ((s.me.super = true ∨ p = false) → s.me.trapPc.toNat % 2 = 0 → s.me.trapPc.toNat < 2 ^ 57 → s.me.spMask = none → s.me.stopping = false →
      exec (.tret g) s = .next { s with me := { s.me with
        pc := s.me.trapPc
        super := p
        trapCause := s.me.trapCause &&& ~~~(0x100#64)
        status := .ready
        phase := .start
        wake := none
        cur := none
        pipe := false } }) ∧
    (s.me.super = false → p = true → exec (.tret g) s = .next (s.trap cPRIV 0 0)) ∧
    ((s.me.super = true ∨ p = false) → s.me.trapPc.toNat % 2 = 1 → exec (.tret g) s = .next (s.trap cALIGN s.me.trapPc 0))

/-- R314, R184, R199, R321 to R325. In user mode every form reserved to the supervisor traps PRIV, whatever its guard.
R229, R240. The checks of an access in their order: DETERMINISM, a poisoned base, ADDRESS or PRIV, ALIGN, RANGELOCK, each with its
address, lane and lock entry; of several lanes that fail a check the lowest-numbered decides. That PRIV gives no lane, after R329's row
and against R229's general sentence, is the model's choice (log 123). -/
def Obligations.PrivilegeAndAccessTraps : Prop :=
  (∀ (s : State) (g : Guard) (d a b : UReg) (n : Byte) (k : KReg) (r : SysReg), s.me.super = false → 224 ≤ n.toNat → (k.val = 13 ∨ k.val = 15) →
    (r.val = 23 ∨ r.val = 26) →
    ∀ i ∈ ([.halt g, .csave g d a b, .crest g d a b, .replay g a, .evq d, .swrDeep g a n, .waitk g k, .srd g d r, .swr g a r] : List Instr),
      exec i s = .next (s.trap cPRIV 0 0)) ∧
  (∀ (s : State) (g : Guard) (d a b : UReg) (v : VReg) (y : VSrc) (nr : Bool) (sc : Scope), s.me.opens g → s.me.det = true →
    ∀ i ∈ ([.vatadd g v a y false sc, .vatmin g v a y false sc, .vatmax g v a y false sc, .vatand g v a y false sc, .vator g v a y false sc,
        .vatxor g v a y false sc, .satadd g d a b false sc, .vxadd g v a y false sc, .vatxch g v a y nr sc, .vatcas g v a y nr sc,
        .satcas g d a b nr sc, .satxch g d a b nr sc, .vfatadd g v a y nr sc] : List Instr),
      exec i s = .next (s.trap cDETERMINISM 0 0)) ∧
  (∀ (s : State) (g : Guard) (d a b : UReg) (o : MOff) (nr : Bool) (sc : Scope), s.me.opens g → s.me.phase = .start → s.me.det = false →
    let x := s.me.s[a]
    ∀ c ∈ ([(.sld g d a o, mAddress x o 8, 8, false), (.slds g d a o, mAddress x o 4, 4, false), (.sst g d a o, mAddress x o 8, 8, true),
        (.ssts g d a o, mAddress x o 4, 4, true), (.sldacq g d a sc, x, 8, false), (.sstrel g d a sc, x, 8, true),
        (.satadd g d a b nr sc, x, 8, true), (.satcas g d a b nr sc, x, 8, true), (.satxch g d a b nr sc, x, 8, true)] :
        List (Instr × W64 × Nat × Bool)),
      let va := c.2.1
      let z := c.2.2.1
      let r := addrCheck s.mode s.me.super c.2.2.2 va.toNat z
      let lock := s.lockHit s.me.loc.core.cluster s.me.asid (if c.2.2.2 then .store else .load) va.toNat z
      (s.me.sp.getLsbD a.val = true → exec c.1 s = .next (s.killMe kPOISON s.me.pc)) ∧
      (s.me.sp.getLsbD a.val = false →
        (r = .priv → exec c.1 s = .next (s.trap cPRIV va 0)) ∧ (r = .address → exec c.1 s = .next (s.trap cADDRESS va 0)) ∧
        (r = .ok → va.toNat % z ≠ 0 → exec c.1 s = .next (s.trap cALIGN va 0)) ∧
        (r = .ok → va.toNat % z = 0 → ∀ n, lock = some n → exec c.1 s = .next (s.trap cRANGELOCK va (BitVec.ofNat 64 (256 * n)))))) ∧
  (∀ (s : State) (g : Guard) (v : VReg) (a : UReg) (y : VSrc) (l : Fin 32), s.me.opens g → s.me.phase = .start → s.me.x.getLsbD l.val = true →
    let off := fun (l : Fin 32) => s.me.s[a] + (s.me.bval y l).signExtend 64
    let unit := fun (l : Fin 32) => s.me.s[a] + BitVec.ofNat 64 (4 * l.val)
    let bad := s.me.bpoison y &&& s.me.x
    ∀ c ∈ ([(.vldw g v a y, off, 4, false), (.vldh g v a y, off, 2, false), (.vldb g v a y, off, 1, false), (.vldd g v a y, off, 8, false),
        (.vstw g v a y, off, 4, true), (.vsth g v a y, off, 2, true), (.vstb g v a y, off, 1, true), (.vstd g v a y, off, 8, true),
        (.vldc g v a, unit, 4, false), (.vstc g v a, unit, 4, true)] : List (Instr × (Fin 32 → W64) × Nat × Bool)),
      let va := c.2.1
      let z := c.2.2.1
      let r := fun (m : Fin 32) => addrCheck s.mode s.me.super c.2.2.2 (va m).toNat z
      let on := fun (m : Fin 32) => s.me.x.getLsbD m.val = true
      (s.me.sp.getLsbD a.val = true → exec c.1 s = .next (s.killMe kPOISON s.me.pc)) ∧
      (s.me.sp.getLsbD a.val = false → bad = 0 →
        ((∀ m, m < l → on m → r m = .ok) → (r l = .priv → exec c.1 s = .next (s.trap cPRIV (va l) 0)) ∧
          (r l = .address → exec c.1 s = .next (s.trap cADDRESS (va l) (BitVec.ofNat 64 l.val)))) ∧
        ((∀ m, on m → r m = .ok) → (∀ m, m < l → on m → (va m).toNat % z = 0) → (va l).toNat % z ≠ 0 →
          exec c.1 s = .next (s.trap cALIGN (va l) (BitVec.ofNat 64 l.val)))))

/-- R321 to R324, R334, R340. HALT stops the thread group, with the PC at the next group, the model's choice (log 47); PCHK reads a poison bit;
REPLAY of a core whose log is not stopped goes on; CSAVE of a task that runs asks for its save and parks, and ends with the state that it had; CREST of a saved
task whose area is sound starts its restore; of a future without a task both give its state code. An area
that nothing may read traps ADDRESS, and where CSAVE acts one that nothing may store to. -/
def Obligations.SupervisorFormsResult : Prop :=
  ∀ (s : State) (g : Guard) (d a b : UReg) (k : KReg), s.me.opens g →
    let h := s.me.s[a]
    let va := s.me.s[b]
    let quiet := fun (x : TG) => { x with wake := none }
    exec (.pchk g k a) s = .next (s.ends fun t => t.setK k (s.me.sp.getLsbD a.val) false) ∧
    (s.me.super = true →
      (∃ t, exec (.halt g) s = .next t ∧ t.me = { s.me.goto s.me.npc with status := .halted (s.mgmt.debug == 2) } ∧
        t.tgs.map quiet = s.tgs.map quiet ∧ t.tasks = s.tasks ∧ t.futs = s.futs) ∧
      (s.me.sp.getLsbD a.val = false → isWindow h.toNat = true → (winOf h.toNat).kind = 4 → (winOf h.toNat).off = 0 →
        PartMode.hasCore s.mode (winOf h.toNat).coreId = true → (s.core (winOf h.toNat).coreId).stopped = false →
        s.me.status ≠ .free → s.me.status ≠ .stopped → exec (.replay g a) s = .next (s.ends id)) ∧
      (∀ n : W64, s.me.wake = some (.code n) → exec (.csave g d a b) s = .next (s.ends fun t => t.setS d n false)) ∧
      (s.me.sp.getLsbD a.val = false → s.me.sp.getLsbD b.val = false → s.stale h = none → hDevice h = s.devid →
        s.me.wake = none → ∀ f, s.fut h = some f →
        (addrCheck s.mode true false va.toNat 1 ≠ .ok → ∀ i ∈ ([.csave g d a b, .crest g d a b] : List Instr),
          exec i s = .next (s.trap cADDRESS va 0)) ∧
        (addrCheck s.mode true false va.toNat 1 = .ok → va.toNat % 4096 ≠ 0 → ∀ i ∈ ([.csave g d a b, .crest g d a b] : List Instr),
          exec i s = .next (s.trap cALIGN va 0)) ∧
        (addrCheck s.mode true false va.toNat 1 = .ok → va.toNat % 4096 = 0 →
        (s.task h = none → s.settling h = false → ∀ i ∈ ([.csave g d a b, .crest g d a b] : List Instr),
          exec i s = .next (s.ends fun t => t.setS d (BitVec.ofNat 64 f.st.code) false)) ∧
        ∀ t0, s.task h = some t0 →
        (t0.st = .running → f.st.terminal = false → s.me.k10 = false → addrCheck s.mode true true va.toNat 1 ≠ .ok →
          exec (.csave g d a b) s = .next (s.trap cADDRESS va 0)) ∧
        (t0.st = .running → f.st.terminal = false → t0.preempt = none → t0.dying = false → s.me.k10 = false → s.me.task ≠ h →
          addrCheck s.mode true true va.toNat 1 = .ok → ∃ t, exec (.csave g d a b) s = .next t ∧ t.me = { s.me with
              status := .parked 1 h
              parkedAt := s.ptp.toNat } ∧ t.mem = s.mem ∧
            (∃ p, t.task h = some { t0 with preempt := some p } ∧ p.area = va ∧ p.by_ = .csave s.me.loc ∧ p.forced = false ∧
              p.prior = if s.taskParked t0 then 4 else 3) ∧
            t.tgs = s.tgs.map (fun x => if x.task = h then { x with k12 := true } else x)) ∧
        (∀ bs, t0.st = .saved → s.readBytes { s.meAgent with super := true } va.toNat 16 = .ok bs → bs.any (·.2) = false →
          headOk (bs.map (·.1)) h = true →
          ∃ t, exec (.crest g d a b) s = .next t ∧ t.me = (s.me.setS d (BitVec.ofNat 64 f.st.code) false).advance ∧ t.mem = s.mem ∧
            t.task h = some { t0 with
              st := .restoring
              area := some (va, s.me.asid) }))))

/-! ### Steps of the schedulers and of the tables of futures -/

/-- R36, R38, R39, R42, R44, R45, R47, R301, R360. The scheduler's steps when their condition holds: a reservation claims its ranges, a
landed tile ends its copy, a dispatch makes the thread groups of its task, a steal moves a task, an aged thread group comes into focus, a
raise and a wake arrive, a yield ends. The new state is in the future's entry at once where its die is the scheduler's. That a stolen task
joins the tail of the thief's queue (log 36) and that a tile is written whole in the step in which it lands (log 49) are the model's
choices. -/
def Obligations.SchedulerStepResult : Prop :=
  ∀ (s : State) (t : Task) (f : Fut) (x : TG) (c : CoreId) (o : EngOp) (tile : Nat) (v thief : ClId) (cls : Fin 4) (w : Wake) (u : Nat),
    let h := t.handle
    let fresh := s.task h = some t ∧ s.fut h = some f ∧ f.spilled = none ∧ f.st.terminal = false ∧ f.ending = none ∧ t.dying = false ∧
      h ≠ 0 ∧ (∀ g ∈ s.allTgs, g.task ≠ h) ∧ (∀ m ∈ s.futMsgs, m.h ≠ h)
    (fresh → s.reservable t = true → t.told = .queued →
      (∀ k ∈ s.tasks, k.queue = t.queue → k.eff = t.eff → k.order < t.order → s.reservable k = false) →
      ∃ r k, exec (.reservationMade h) s = .next r ∧ r.task h = some k ∧ k.st = .prefetch ∧ k.reserved = t.arrays ∧ r.mem = s.mem ∧
        k.fps.map (fun p => { p with slot := 0 }) = t.fps.map (fun p => { p with slot := 0 }) ∧
        r.ops.length = s.ops.length + t.fps.length ∧ (hDie h = t.queue.die → r.fut h = some { f with st := .prefetch }) ∧
        (hDie h ≠ t.queue.die → r.fut h = some f ∧ r.futMsgs = s.futMsgs ++ [(⟨s.seq, h, .state .prefetch⟩ : FutMsg)])) ∧
    (∀ (p : Footprint) (m : TMap) (ring : Ring) (ws : List BW) (xs : List (Nat × BW)),
      s.ops.find? (fun k => k.task == h && k.kind == .footprint tile) = some o → o.fault = none → s.task h = some t →
      t.fps[tile]? = some p → o.maps = [m] → s.ring o.cl o.asid none p.ring = some ring →
      s.slotTile o m p.map p.origin p.extent ring o.index = .ok ws → s.placeWrites o.agent ws = .ok xs →
      ∃ r k, exec (.footprintCopyLanded h tile) s = .next r ∧ (∀ y ∈ r.ops, y.id ≠ o.id) ∧ r.task h = some k ∧
        (k.fps[tile]?).map (·.landed) = some true ∧ k.st = t.st ∧
        r.mem = ((s.noteReads o.agent (m.reads p.origin p.extent)).engWrite o.agent xs).mem) ∧
    (fresh → s.dispatchStopped = false → s.plan t = some [c] → t.told = .prefetch →
      turnPick (s.cluster t.queue).turn (s.tasks.filter fun k => k.queue == t.queue && s.dispatchable k) = some t →
      ∃ r k, exec (.dispatch h) s = .next r ∧ r.task h = some k ∧ k.st = .running ∧ k.pieces = 1 ∧ r.mem = s.mem ∧
        (hDie h = c.die → r.fut h = some { f with st := .running }) ∧ (r.cluster t.queue).turn = ((s.cluster t.queue).turn + 1) % 15 ∧
        ∀ j, j < fwWidth t.flagWord → ∃ y ∈ r.allTgs, y.task = h ∧ y.loc.core = c ∧ y.tgid = j ∧ y.pc = t.entry ∧ y.status = .ready ∧
          y.width = fwWidth t.flagWord ∧ y.asid = t.asid ∧ y.x = t.lmask) ∧
    (s.offer v = some t → s.task h = some t → s.mayStealFrom thief v = true →
      ∃ r, exec (.steal thief v) s = .next r ∧ r.task h = some { t with
          queue := thief
          order := s.seq } ∧ r.mem = s.mem ∧ r.futs = s.futs ∧ r.tgs = s.tgs) ∧
    (s.raises.contains (h, cls) = true → s.task h = some t → cls < t.inh → t.st = .queued →
      ∃ r k, exec (.priorityRaise h cls) s = .next r ∧ r.task h = some k ∧ k.inh = cls ∧ k.st = .queued ∧
        r.raises = dropFirst (fun q => q == (h, cls)) s.raises ∧ r.mem = s.mem) ∧
    (s.me.loc ≠ x.loc → s.tgAt x.loc = some x →
      (x.status = .ready → ∃ r, exec (.candidateAgeExpiry x.loc) s = .next r ∧ r.me = x ∧ r.mem = s.mem ∧ r.tasks = s.tasks) ∧
      (x.isParked = true → x.wake = some w → ∃ r, exec (.wake x.loc) s = .next r ∧ r.me = s.me ∧ r.mem = s.mem ∧ r.tgAt x.loc = some { x with
        wake := some w
        status := .ready }) ∧
      (x.status = .yielding u → u ≤ s.cycle.toNat → ∃ r, exec (.yieldExpiry x.loc) s = .next r ∧ r.me = s.me ∧ r.mem = s.mem ∧
        r.tgAt x.loc = some { x with status := .ready }))

/-- R50, R51. DEADLOCK reports a context that has been quiescent for 50 µs, once, with its event.
R52, R54, R55, R340. PREEMPT_SAVE, and a million cycles after the request FORCED_SAVE, which stops the thread groups: once each can be
saved and the task has drained, the area holds its image, the task is off its cores, and the CSAVE that asked for it has its answer.
R341, R342. RESUME: every piece comes back to its core, and the task runs. -/
def Obligations.SaveAndQuiescenceStepResult : Prop :=
  ∀ (s u v : State) (a : Half) (t0 : Nat) (t : Task) (p : Preempt) (gs : List SaveTg) (xs : List (Nat × BW)) (area : W64) (asid : Half)
    (imgs : List (Nat × PBytes)),
    let h := t.handle
    let quiet := fun (x : TG) => { x with wake := none }
    let saved := fun (r : State) (p : Preempt) => (r.task h).map (·.st) = some .saved ∧ (r.task h).bind (·.preempt) = none ∧
      (∀ y ∈ r.allTgs, y.task ≠ h) ∧ r.mem = (u.engWrite (areaAgent t.queue.die (u.areaAsid p) h) xs).mem ∧
      ∀ x y, p.by_ = .csave x → u.tgAt x = some y → y.status = .parked 1 h → (∀ z ∈ u.tgsAll h, z.loc ≠ x) →
        (u.me.loc = x → u.me.status ≠ .free) → ∃ z ∈ r.allTgs, z.loc = x ∧ z.wake = some (.code (BitVec.ofNat 64 p.prior))
    ((s.ctx a).quietSince = some t0 → (s.ctx a).deadlocked = false → t0 + 50000 ≤ s.ptp.toNat → s.quiescent a = true →
      ∃ r, exec (.deadlock a) s = .next r ∧ (r.ctx a).deadlocked = true ∧ r.tasks = s.tasks ∧ quiet r.me = quiet s.me ∧
        r.tgs.map quiet = s.tgs.map quiet ∧
        (let w := ((s.waits a).take 2048).zipIdx.foldl (fun (w : State) x => w.hwWrite a ((s.ctx a).reportArea + 32 * x.2)
           (layout 32 [(0, 8, x.1.1.toNat), (8, 8, x.1.2.1.toNat), (16, 1, x.1.2.2.1), (17, 1, x.1.2.2.2)])) s
         w.evq = s.evq → w.evUsed = [] → w.hwq = [] → w.sup.darnBusy = false →
          r.evq = s.evq ++ [(⟨0x12, a, w.evNext % 2 ^ w.sup.evLogn⟩ : EvEnt)])) ∧
    (s.engWaits = [] → s.task h = some t → h ≠ 0 → t.st = .running → t.preempt = some p →
      (State.saveTgs p.forced ((s.tgsOf h).map (·.loc)) s = some (u, gs) → gs ≠ [] → u.drained h = true → u.task h = some t → u.engWords = [] →
        u.placeWrites (areaAgent t.queue.die (u.areaAsid p) h) (u.saveWrites t p gs) = .ok xs →
        ∃ r, exec (.preemptSave h) s = .next r ∧ saved r p) ∧
      (let q := { p with forced := true }
       let stopped := (s.modTask h (fun k => { k with preempt := some q })).modTask_tgs h TG.stop
       p.since + 1000000 ≤ s.cycle.toNat → s.taskHalted h = false →
        (State.saveTgs true ((stopped.tgsOf h).map (·.loc)) stopped = none → exec (.forcedSave h) s = .next stopped) ∧
        (State.saveTgs true ((stopped.tgsOf h).map (·.loc)) stopped = some (u, gs) → gs ≠ [] → u.drained h = true →
          u.task h = some { t with preempt := some q } → u.engWords = [] →
          u.placeWrites (areaAgent t.queue.die (u.areaAsid q) h) (u.saveWrites { t with preempt := some q } q gs) = .ok xs →
          ∃ r, exec (.forcedSave h) s = .next r ∧ saved r q))) ∧
    (s.engWaits = [] → s.task h = some t → t.st = .restoring → t.area = some (area, asid) → s.readImages t area asid t.savedPieces 0 = .ok imgs →
      let k10 := t.k10 || imgs.any fun x => bitOf (pAt x.2 6 2) 2
      State.restoreAll t k10 imgs s = some v → v.task h = some t →
      ∃ r, exec (.resume h) s = .next r ∧ r.mem = v.mem ∧ r.me = v.me ∧ r.tgs = v.tgs ∧ r.cores = v.cores ∧ r.task h = some { t with
        st := .running
        area := none
        aux := .none
        dispatched := v.seq
        k10 := k10
        reserved := (imgs.flatMap fun y => imageRanges y.2).eraseDups })

/-- R62, R66 to R74, R84, R360. Requests, those of other devices among them, and reports of schedulers apply at their entry, and replies
reach their thread group; SPILL frees entries without losing a future, REFILL brings one back, and the hamper's steps keep their records.
A scope counts a leave once the task's future has settled, and at zero its waiters leave its list. That the records of a moved hamper are
numbered from 0 is the model's choice (log 37). -/
def Obligations.FutureTableStepResult : Prop :=
  ∀ (s : State) (q : Req) (f : Fut) (x : TG) (c : ClId) (a : Half) (v : W64) (w : Wake) (m : ScopeMsg) (n slot gen place : Nat)
    (k : FutMsg) (st : FSt) (tg : TgRef) (cls : Fin 4),
    let quiet := fun (y : TG) => { y with wake := none }
    (q.h = f.h → hKind f.h = 1 → hDevice f.h = s.devid → PartMode.hasCluster s.mode (hTable f.h) = true → s.fut f.h = some f →
      f.spilled = none → f.ending = none →
      let code := Wake.code (BitVec.ofNat 64 f.st.code)
      (s.reqs.find? (fun r => r.id == q.id) = some q → q.reply = none → q.dev = none →
        (q.op = .poll → ∃ r, exec (.futureRequest (.own q.id)) s = .next r ∧ { r with reqs := s.reqs } = s ∧
          r.reqs.find? (fun k => k.id == q.id) = some { q with reply := some code }) ∧
        (q.op = .resolve → f.st.terminal = false → f.detached = false → s.task f.h = none →
          ∃ r y, exec (.futureRequest (.own q.id)) s = .next r ∧ r.fut f.h = some y ∧ y.outcome = .value q.v q.vp ∧ y.st = .resolved ∧
            r.mem = s.mem ∧ r.reqs.find? (fun k => k.id == q.id) = some { q with reply := some code })) ∧
      (n ≠ s.devid → ∃ r, exec (.futureRequest (.far n tg .poll f.h v false cls)) s = .next r ∧ r.farOut = s.farOut ++ [(⟨n, tg⟩, code)] ∧
        r.futs = s.futs ∧ r.mem = s.mem ∧ r.me = s.me)) ∧
    (s.reqs.find? (fun r => r.id == k.id) = none → s.futMsgs.find? (fun y => y.id == k.id) = some k →
      s.futMsgs.find? (fun y => y.h == k.h) = some k → k.note = .state st → s.fut k.h = some f → f.spilled = none → f.st.terminal = false → f.ending = none →
      ∃ r, exec (.futureRequest (.own k.id)) s = .next r ∧ r.fut k.h = some { f with st := st } ∧ r.mem = s.mem ∧ r.tasks = s.tasks ∧
        r.futMsgs = s.futMsgs.filter (fun y => y.id != k.id)) ∧
    (s.reqs.find? (fun r => r.id == q.id) = some q → q.reply = some w → q.tg = x.loc → s.me.loc ≠ x.loc → s.tgAt x.loc = some x →
      x.phase.req = some q.id → x.wake = none →
      ∃ r, exec (.futureReply q.id) s = .next r ∧ r.tgAt x.loc = some { x with wake := some w } ∧ r.me = s.me ∧ r.mem = s.mem ∧
        ∀ k ∈ r.reqs, k.id ≠ q.id) ∧
    (s.freeEntries c < 512 → (s.resident c).length ≤ 8192 → (s.futs.map (·.h)).Nodup →
      ∃ r, exec (.spill c) s = .next r ∧ (1024 ≤ r.freeEntries c ∨ r.spillOne c = none) ∧
        r.futs.map (fun y => { y with spilled := none }) = s.futs.map (fun y => { y with spilled := none }) ∧ quiet r.me = quiet s.me ∧
        r.tasks = s.tasks) ∧
    (s.fut f.h = some f → f.spilled = some n → (s.ctx f.asid).moving = false → s.freePlace (hTable f.h) 8176 0 = some place →
      s.recordOk f n = true → s.hwq = [] →
      ∃ r, exec (.refill f.h) s = .next r ∧ n ∉ (r.ctx f.asid).usedRecs ∧ r.mem = s.mem ∧ r.fut f.h = some { f with
        spilled := none
        place := place }) ∧
    (hamperOk v = true → v.getLsbD 5 = false → ∃ r, exec (.hamper a v) s = .next r ∧ (r.ctx a).hbase = v.toNat / 2 ^ 16 % 2 ^ 41 * 2 ^ 16 ∧
      (r.ctx a).logn = v.toNat % 32 ∧ r.mem = s.mem ∧ r.futs = s.futs) ∧
    ((s.ctx a).moving = true → (s.moveRead a).2.isSome = true → ∃ r, exec (.hamperMoved a) s = .next r ∧ (r.ctx a).moving = false ∧ r.tasks = s.tasks ∧
      quiet r.me = quiet s.me ∧ (r.ctx a).usedRecs = List.range (s.futs.filter fun y => y.asid == a && y.spilled.isSome).length) ∧
    (s.allTgs.filter (fun g => g.ctx == a && (match g.status with
        | .parked 8 _ => g.wake.isNone
        | _ => false)) = [x] → s.me.loc ≠ x.loc → s.tgAt x.loc = some x → s.freeEntry x.loc.core.cluster true = some (slot, gen) →
      let h := mkHandle s.devid x.loc.core.cluster slot gen
      ∃ r y, exec (.failsp a) s = .next r ∧ r.futs = s.futs ++ [y] ∧ y.h = h ∧ y.st = .faulted ∧ y.code = 10 ∧ y.asid = a ∧
        r.tgAt x.loc = some { x with wake := some (.value h false) } ∧ r.me = s.me ∧ r.mem = s.mem) ∧
    ((s.ctx a).fullPosted = false → (∃ g ∈ s.allTgs, g.ctx = a ∧ s.hamperWait g = true ∧ g.parkedAt + 10000000 ≤ s.ptp.toNat) →
      ∃ r, exec (.hamperFull a) s = .next r ∧ (r.ctx a).fullPosted = true ∧ r.futs = s.futs ∧ quiet r.me = quiet s.me) ∧
    (s.scopeMsgs.find? (fun k => k.id == m.id) = some m → s.settled m.task = true →
      let sc := s.scope m.asid m.scope
      ∃ r, exec (.scopeUpdate m.id) s = .next r ∧ r.scopeMsgs = s.scopeMsgs.filter (fun k => k.id != m.id) ∧ r.mem = s.mem ∧
        (sc.count ≠ 1 → r.scope m.asid m.scope = { sc with count := sc.count - 1 } ∧ r.futs = s.futs) ∧
        (sc.count = 1 → sc.st = .open_ → r.scope m.asid m.scope = { sc with
          count := 0
          waiters := [] } ∧ r.futs = s.futs))

/-! ### Steps of the memory system, of the engines, of messages and queues -/

/-- R93 to R105, R115, R230, R243. Stores and atomics performed at their storage, collapses and acknowledgements, replicas made and
dropped, the repeated read of a waiter, and the end of a replication window. The stores of one line access are performed together, and of
those that write one byte the last, which is the highest lane's, remains. -/
def Obligations.MemoryStepResult : Prop :=
  ∀ (s : State) (c : CoreId) (e : StEnt) (w : Wr) (q : Col) (x : TG) (m die pa : Nat) (asid : Half) (va : W64), s.MemOk →
    let other := fun (r : State) (a n : Nat) => ∀ y, (y < a ∨ a + n ≤ y) → memGet r.mem y = memGet s.mem y
    let at_ := e.va.toNat
    (∀ es : List StEnt, (s.core c).fifo = e :: es → (∀ y ∈ es, e.joins y = true) →
      isWindow at_ = true → (winOf at_).kind < 2 → (winOf at_).die = c.die → (∀ y ∈ e :: es, y.op = .store ∧ y.poison = false) →
      ∀ i ∈ ([(.storeBufferDrain c, false), (.sideLogPerform c, true)] : List (Instr × Bool)), (∀ y ∈ e :: es, y.inLog = i.2) →
        (i.2 = true → (s.core c).stopped = false) →
        ∃ r, exec i.1 s = .next r ∧ (r.core c).fifo = [] ∧ ∀ x, memGet r.mem x = (e :: es).foldl (fun b y =>
          if y.va.toNat ≤ x ∧ x < y.va.toNat + y.data.length then y.data.getD (x - y.va.toNat) 0 else b) (memGet s.mem x)) ∧
    (s.wr w.id = some w → w.applied = false → w.peer = none → s.heldUp w = false → s.wrGroup w = [w] →
      (isWindow w.ent.va.toNat = true → (winOf w.ent.va.toNat).kind < 3) →
      (w.ent.op = .store → ∃ r, exec (.writeAtHome w.id) s = .next r ∧ memBytes r.mem w.at_ w.ent.data.length = w.ent.data ∧
        other r w.at_ w.ent.data.length ∧ (r.wr w.id).map (·.applied) = some true) ∧
      (w.ent.op = .atom m → ∃ r, exec (.atomicAtHome w.id) s = .next r ∧
        memBytes r.mem w.at_ w.ent.size = (atomNew m (memBytes s.mem w.at_ w.ent.size) w.ent.data).take w.ent.size ∧
        ((r.wr w.id).bind (·.old)).map (·.1) = some (memBytes s.mem w.at_ w.ent.size) ∧ (r.wr w.id).map (·.applied) = some true)) ∧
    (s.wr w.id = some w → w.applied = true → w.acks = [] →
      (w.ret = true → exec (.writeAck w.id) s = .next { s with wrs := updFirst (fun y => y.id == w.id) (fun y => { y with done := true }) s.wrs }) ∧
      (w.ret = false → ∃ r, exec (.writeAck w.id) s = .next r ∧ r.wrs = s.wrs.filter (fun y => y.id != w.id) ∧ r.mem = s.mem)) ∧
    (s.cols.find? (fun k => k.id == q.id && !k.applied) = some q →
      (∀ y ∈ s.wrs, ¬(y.die = q.die ∧ y.ret = false ∧ y.toLine = true ∧ some y.id ≠ q.wr ∧ y.ent.asid = q.asid ∧
        lineOf y.ent.va.toNat = q.va)) →
      ∃ r, exec (.collapse q.id) s = .next r ∧ r.replicas = s.replicas.filter (fun k => !(k.die == q.die && k.tags q.asid q.va)) ∧
        r.cols.find? (fun k => k.id == q.id) = (s.cols.find? (fun k => k.id == q.id)).map (fun k => { k with applied := true }) ∧ r.mem = s.mem) ∧
    (s.cols.find? (fun k => k.id == q.id && k.applied) = some q →
      exec (.collapseAck q.id) s = .next { s with
        cols := s.cols.filter (fun k => k.id != q.id)
        wrs := s.wrs.map (fun y => { y with acks := y.acks.filter (· != q.id) }) }) ∧
    (let line := lineOf va.toNat
     let home := homeDie s.mode s.sup.active line
     PartMode.hasDie s.mode die = true → isWindow va.toNat = false → va.toNat < 2 ^ 57 → translate s.toSoc true .load asid line = .phys pa →
      die ≠ home → isNocache s.sup.active line = false → s.linePending die asid line = false → isGatewayDie die = false →
      s.replicaOf die asid line = none →
      (s.replicasOf asid line).length < (s.countAccess home asid line fun k => { k with reads := k.reads + 1 }).degree asid line →
      ∃ r k, exec (.remoteRead die asid va) s = .next r ∧ r.replicas = s.replicas ++ [k] ∧ k.die = die ∧ k.asid = asid ∧ k.va = line ∧
        k.line = lineOf pa ∧ k.data = memBytes s.mem (lineOf pa) 128 ∧ r.mem = s.mem) ∧
    exec (.replicaEvict die asid va) s =
      .next { s with replicas := s.replicas.filter (fun r => !(r.die == die && r.asid == asid && r.va == lineOf va.toNat)) } ∧
    (s.me.loc ≠ x.loc → s.tgAt x.loc = some x → (∃ o, x.status = .parked 3 o) → (∀ y ∈ s.watches, y.tg ≠ x.loc) →
      x.parkedAt + 1000 ≤ s.ptp.toNat → x.wake = none →
      ∃ r, exec (.waitvRepoll x.loc) s = .next r ∧ r.tgAt x.loc = some { x with wake := some .go } ∧ r.me = s.me ∧ r.mem = s.mem) ∧
    (let k := s.region die asid va.toNat
     65536 ≤ k.reads + k.writes → (s.die die).autoen = false →
      ∃ r, exec (.replicationWindow die asid va) s = .next r ∧ r.mem = s.mem ∧ r.replicas = s.replicas ∧
        (r.region die asid va.toNat).reads = 0 ∧ (r.region die asid va.toNat).writes = 0 ∧ (r.region die asid va.toNat).degree = k.degree)

/-- R249, R250, R253, R255, R258, R259, R270, R271, R277 to R281, R357. An operation of an engine that can be performed writes its data and
ends, and its token counts one less. A matrix operation starts in its turn; at the head of its queue it is performed: a multiplication adds
its products to the tile, a drain reads its tile and leaves the queue, and is written later. A stream goes on to its next rows; the mangle
answers. That all the bytes of an operation are read and written in the step that completes it (log 49), and that a drain leaves the queue
when it has read its tile (log 124), are the model's choices. -/
def Obligations.EngineStepResult : Prop :=
  ∀ (s : State) (o : EngOp) (c : CoreId) (ws : List BW) (xs : List (Nat × BW)) (stop col : Bool) (k acc row : Nat) (desc : List Byte)
    (ms mg mx my mz : TMap) (ring ra rb : Ring) (b : W64) (ctx : FmtCtx) (bs : List (Byte × Bool)) (q : MReq) (z : BQ),
    let gone := fun (r : State) => (∀ y ∈ r.ops, y.id ≠ o.id) ∧
      ∀ n : Fin 8, o.tg = some s.me.loc → o.tok = some n.val → r.me.tok[n] = s.me.tok[n] - 1
    let wrote := fun (u r : State) => r.mem = (u.engWrite o.agent xs).mem
    let found := s.ops.find? (fun y => y.id == o.id) = some o ∧ o.fault = none ∧ s.opReady o = true
    let head := s.matHead c = some o ∧ o.started = true ∧ o.fault = none ∧ ∀ y ∈ s.ops, y.out = none
    let tile := (s.core c).tile acc
    (s.matHead c = some o → s.matNext c.cluster = some c.core →
      ∃ r, exec (.matrixOpStart c) s = .next r ∧ r.ops = updFirst (fun y => y.id == o.id) (fun y => { y with started := true }) s.ops ∧
        r.mem = s.mem ∧ (r.cluster c.cluster).mlast = c.core ∧ (o.isMma = true → (r.cluster c.cluster).mcycle = s.cycle.toNat)) ∧
    (head →
      (o.kind = .mzero acc → ∃ r, exec (.matrixOpComplete c) s = .next r ∧ gone r ∧ (r.core c).tile acc = .zero ∧ r.mem = s.mem) ∧
      (o.kind = .mcfg → ∃ r, exec (.matrixOpComplete c) s = .next r ∧ gone r ∧ r.cores = s.cores ∧ r.mem = s.mem) ∧
      (o.kind = .mstat acc → o.tg = some s.me.loc → s.me.phase.req = some o.id →
        ∃ r, exec (.matrixOpComplete c) s = .next r ∧ gone r ∧ r.cores = s.cores ∧ r.mem = s.mem ∧ r.me.phase = { s.me.phase with
          req := none
          acc := [(0, bytesOf 8 tile.status, [])] }) ∧
      (o.kind = .msave acc (some ctx) b → s.placeWrites o.agent (tileWrites b.toNat tile (some ctx)) = .ok xs →
        ∃ r, exec (.matrixOpComplete c) s = .next r ∧ gone r ∧ r.mem = (s.areaWrite o.agent xs).mem) ∧
      (o.kind = .mload acc b → s.readBytes o.agent b.toNat saveBytes = .ok bs →
        ∃ r, exec (.matrixOpComplete c) s = .next r ∧ gone r ∧ (r.core c).tile acc = parseTile bs ∧ r.mem = s.mem) ∧
      (o.kind = .mma acc ctx ra.desc rb.desc ra.r rb.r → s.ring o.cl o.asid o.part ra.desc = some ra → s.ring o.cl o.asid o.part rb.desc = some rb →
        o.maps = [ms, mg] →
        let n := (opKOf ctx.afmt).getD 0
        let sa := ra.slotAddr o.cl ra.r
        let sb := rb.slotAddr o.cl rb.r
        isPoisoned s.poison sa.toNat (tileSize ms.fmt [n, 128, 1, 1]) = false → isPoisoned s.poison sb.toNat (tileSize mg.fmt [n, 128, 1, 1]) = false →
        ∃ r, exec (.matrixOpComplete c) s = .next r ∧ gone r ∧ r.mem = s.mem ∧ (r.core c).tile acc = tile.addAll ctx.anchor fun e =>
          (List.range n).map fun p => (slotElem s.mem ms (coords4 o.pkt 0) sa 128 n (e / 128) p).mul
            (slotElem s.mem mg (coords4 o.pkt 8) sb 128 n (e % 128) p)) ∧
      (o.kind = .mdrain acc ctx desc b k → o.maps = [ms] → let d := (parseDrain desc).1
        ∃ r, exec (.matrixOpComplete c) s = .next r ∧ (r.ops.find? fun y => y.id == o.id).any (·.out.isSome) = true ∧ r.mem = s.mem ∧
          ((r.core c).tile acc).elems = (if d.zero then tile.zeroRegion d.rows d.cols else tile).elems)) ∧
    (s.ops.find? (fun y => y.isMat && y.core == c && y.out.isSome && y.fault.isNone) = some o → o.kind = .mdrain acc ctx desc b k →
      o.out = some ws → s.placeWrites o.agent ws = .ok xs → ∃ r, exec (.matrixOpComplete c) s = .next r ∧ gone r ∧ wrote s r) ∧
    (found → o.kind = .copy k → o.ended = none → o.flagWr = none → s.copyData o = .ok (ws, stop) → s.placeWrites o.agent ws = .ok xs →
      bitOf (parsePkt o.pkt).flags 0 = false → bitOf (parsePkt o.pkt).flags 2 = false →
      ∃ r, exec (.copyComplete o.id) s = .next r ∧ gone r ∧ wrote (s.noteCopy o).useFree r) ∧
    (found → o.kind = .gather ring.desc desc row stop none → o.maps = [ms, mg] → s.ring o.cl o.asid o.part ring.desc = some ring →
      ring.free ≠ 0 →
      let d := parseGather desc
      let u := s.modRing o.cl o.asid o.part ring.desc (Ring.claimW 1)
      u.gatherData o d ms mg ring row ring.w = .ok ws → u.placeWrites o.agent ws = .ok xs →
      ∃ r, exec (.gatherSlotLanded o.id) s = .next r ∧ wrote (u.noteReads o.agent (u.gatherReads o.agent d ms row)).useFree r ∧
        (d.count ≤ row + d.rps ∨ stop = true → gone r) ∧
        (row + d.rps < d.count → stop = false →
          r.ops.find? (fun y => y.id == o.id) = some { o with
            kind := .gather ring.desc desc (row + d.rps) false none
            words := ⟨[], []⟩ })) ∧
    (found → o.kind = .baddq b desc → o.maps = [mx, my, mz] → s.addData o (parseAdd desc) b.toNat mx my mz = .ok ws →
      s.placeWrites o.agent ws = .ok xs → ∃ r, exec (.baddqComplete o.id) s = .next r ∧ gone r ∧ wrote s r) ∧
    (s.selectNext o.cl.die = some o → o.fault = none → o.kind = .topk col desc → o.maps = [ms] →
      let u := { s with ops := updFirst (fun x => x.id == o.id) (fun x => { x with started := true }) s.ops }
      State.opReady u o = true → State.selData u o col (parseSel desc) ms = .ok ws → State.placeWrites u o.agent ws = .ok xs →
      ∃ r, exec (.selectComplete o.cl.die) s = .next r ∧ gone r ∧ wrote u r) ∧
    (s.mreqs.find? (fun y => y.id == q.id) = some q → q.answer = none →
      (q.done = false → s.bqFull q.asid q.addr = false →
        let next := match s.bq q.asid q.addr with | some z => z.next | none => 0
        ∃ r, exec (.mangleRequest q.id) s = .next r ∧ r.mem = s.mem ∧ r.me = s.me ∧
          r.mreqs.find? (fun y => y.id == q.id) = some { q with answer := some (if next < q.nblk then BitVec.ofNat 64 next else BitVec.allOnes 64) } ∧
          (r.bq q.asid q.addr).map (·.next) = some (if next < q.nblk then next + 1 else next)) ∧
      (q.done = true → s.bq q.asid q.addr = some z → z.done ≠ z.claimed → z.done + 1 ≠ q.nblk →
        ∃ r, exec (.mangleRequest q.id) s = .next r ∧ r.mem = s.mem ∧ r.me = s.me ∧
          r.mreqs.find? (fun y => y.id == q.id) = some { q with answer := some 0 } ∧
          r.bq q.asid q.addr = some { z with done := z.done + 1 }))

/-- R307, R309, R311, R370, R371, R373, R374, R379 to R381. Messages arrive, are answered and dequeued; registers, doorbells and
pending bits are written; slots map, drain and finish; a teardown begins and ends. That queue control blocks are addresses of context 0
(log 13), and that the teardown marks the block that its queue was last mapped from (log 41), are the model's choices. -/
def Obligations.MessageAndQueueStepResult : Prop :=
  ∀ (s : State) (m : Msg) (x : TG) (c : CoreId) (l : List Msg) (h : Handler) (n q cls k : Nat) (v addr : W64) (wd : Fin 16)
    (bs : List (Byte × Bool)),
    let quiet := fun (y : TG) => { y with wake := none }
    (s.msgs.find? (fun y => y.id == m.id && !y.arrived) = some m → (s.core m.dst).spill = [] →
      (s.core m.dst).inbox.length + (s.core m.dst).recvList.length < 64 → m.tg.isSome = true →
      ∃ r, exec (.messageDelivery m.id) s = .next r ∧ (r.core m.dst).inbox = (s.core m.dst).inbox ++ [m] ∧ r.mem = s.mem ∧
        r.msgs = updFirst (fun y => y.id == m.id) (fun y => { y with
          arrived := true
          answer := some 0 }) s.msgs) ∧
    (s.msgs.find? (fun y => y.id == m.id && y.arrived) = some m → m.tg = some x.loc → m.answer = some n → s.me.loc ≠ x.loc →
      s.tgAt x.loc = some x → x.phase.req = some m.id →
      ∃ r, exec (.messageAnswer m.id) s = .next r ∧ r.tgAt x.loc = some { x with wake := some (.code (BitVec.ofNat 64 n)) } ∧ r.me = s.me ∧
        r.msgs = s.msgs.filter (fun y => y.id != m.id)) ∧
    ((s.core c).inbox = m :: l → (s.core c).spill = [] →
      ((s.core c).route m = .queued cls → ∃ r, exec (.dequeue c) s = .next r ∧ (r.core c).inbox = l ∧
        (r.core c).recvList = (s.core c).recvList ++ [{ m with cls := cls }] ∧ r.mem = s.mem) ∧
      ((s.core c).route m = .handler h cls → s.tgAt ⟨c, 16⟩ = none →
        ∃ r, exec (.dequeue c) s = .next r ∧ (r.core c).inbox = l ∧ r.mem = s.mem ∧
          r.tgAt ⟨c, 16⟩ = some (handlerTg c h cls m s.seq)) ∧
      ((s.core c).route m = .none_ → m.reply = 0 → ∃ r, exec (.dequeue c) s = .next r ∧ (r.core c).inbox = l ∧ r.msgs = s.msgs ∧
        (r.core c).nacks = (s.core c).nacks + 1 ∧ r.mem = s.mem)) ∧
    (isWindow addr.toNat = true → (winOf addr.toNat).kind = 4 → (winOf addr.toNat).off = 0x200 → winCheck s.mode true true addr.toNat 8 = .ok →
      ∃ r, exec (.registerWrite addr v) s = .next r ∧ r.mem = s.mem ∧ r.me = s.me ∧
        (r.core (winOf addr.toNat).coreId).inboxovf = BitVec.ofNat 64 (v.toNat / 2 ^ 12 % 2 ^ 45 * 2 ^ 12 + v.toNat % 2)) ∧
    (q < 1024 →
      (s.slotOf q = none → ∃ r, exec (.doorbell q) s = .next r ∧ bitOf (kget 0 r.sup.pend (q / 64)).toNat (q % 64) = true ∧ r.slots = s.slots ∧ r.mem = s.mem) ∧
      (s.slotOf q = some n → (s.slot n).drain = false →
        ∃ r, exec (.doorbell q) s = .next r ∧ r.slot n = { s.slot n with awake := true } ∧ r.sup = s.sup ∧ r.mem = s.mem)) ∧
    (∃ r, exec (.pendClear wd v) s = .next r ∧ kget 0 r.sup.pend wd.val = kget 0 s.sup.pend wd.val &&& ~~~v ∧ r.mem = s.mem ∧ r.slots = s.slots) ∧
    (n < 64 → s.engWaits = [] → (s.slot n).mapped = false → (s.slot n).awake = false → v.getLsbD 31 = true → v.getLsbD 30 = false →
      s.mgmt.lifecycle = 2 → s.mgmt.unlocking = none → s.slotOf (v.toNat % 1024) = none → (s.slot n).qcbAddr.toNat % 128 = 0 →
      (s.slot n).qcbAddr.toNat < 2 ^ 57 → s.hwAddr supAsid true .load (s.slot n).qcbAddr.toNat 128 = .at_ k → isPoisoned s.poison k 128 = false →
      ∃ r, exec (.slotMap n v) s = .next r ∧ r.mem = s.mem ∧ (r.slot n).mapped = true ∧ (r.slot n).qid = v.toNat % 1024 ∧
        (r.slot n).qcb = parseQcb (memBytes s.mem k 128) ∧ (r.slot n).awake = true ∧
        kget 0 r.qcbOf (v.toNat % 1024) = (s.slot n).qcbAddr) ∧
    (n < 64 → (s.slot n).mapped = true → (s.slot n).drain = false → v.getLsbD 30 = true →
      ∃ r, exec (.slotDrain n v) s = .next r ∧ r.slot n = { s.slot n with drain := true } ∧ r.mem = s.mem) ∧
    (let at_ := (kget 0 s.qcbOf (s.slot n).qid).toNat + 16
     s.engWaits = [] → s.hwq = [] → s.slotRdidx n = (s, some addr) → (s.slot n).mapped = true → (s.slot n).drain = true → (∀ p ∈ s.pkts, p.q = .slot n → p.started = true) →
      s.hwAddr supAsid true .store at_ 16 = .at_ k →
      ∃ r, exec (.unmap n) s = .next r ∧ (r.slot n).mapped = false ∧ (r.slot n).drain = false ∧ quiet r.me = quiet s.me ∧ r.tasks = s.tasks ∧
        (s.MemOk → s.readBytes (s.serveAgent (.slot n)) ((s.slot n).qcb.hdr.toNat + 8) 8 = .ok bs →
          r.num k 8 = (numOf bs).1 ∧ r.num (k + 8) 8 = (s.num (k + 8) 8 + (s.ptp.toNat - (s.slot n).mapNs)) % 2 ^ 64)) ∧
    (s.sup.qtearBusy = false → (∀ t ∈ s.tasks, t.lineage = none) → s.pkts = [] →
      ∃ r, exec (.qtear v) s = .next r ∧ r.sup.qtearBusy = true ∧ r.sup.qtearQid = v.toNat % 1024 ∧ r.mem = s.mem ∧ r.tasks = s.tasks ∧
        ∀ n, s.slotOf (v.toNat % 1024) = some n → (r.slot n).drain = true) ∧
    (s.sup.qtearBusy = true → (∀ t ∈ s.tasks, t.lineage = none) → (∀ f ∈ s.futs, f.lineage = none) → s.pkts = [] →
      s.slotOf s.sup.qtearQid = none → s.hwq = [] →
      (∀ qcb, kfind s.sup.qtearQid s.qcbOf = some qcb → ∃ k, s.hwAddr supAsid true .store (qcb.toNat + 11) 1 = .at_ k) →
      ∃ r, exec .teardownComplete s = .next r ∧ r.sup.qtearBusy = false ∧ r.tasks = s.tasks ∧ r.futs = s.futs ∧ quiet r.me = quiet s.me ∧
        (s.evUsed = [] → s.sup.darnBusy = false →
          r.evq = s.evq ++ [(⟨0x102, 0, s.evNext % 2 ^ s.sup.evLogn⟩ : EvEnt)]))

/-! ### Steps of the supervisor's units, of host and peers, of the management core and of the package -/

/-- R365, R369, R370, R389 to R401, R402. Invalidations and their completion, answers to faults, the swap of the region table and darning with
their completions, and what the host and peers do to storage. -/
def Obligations.TranslationHostAndPeerStepResult : Prop :=
  ∀ (s : State) (v va : W64) (sp : Option W32) (n pa : Nat) (x : TG) (o : W64) (bs data : List Byte) (w : Wr) (asid : Half)
    (ps : List (Byte × Bool)) (xs : List (Nat × BW)), s.MemOk →
    let awake := s.mgmt.power = 0 ∧ s.mgmt.serving = none
    let quiet := fun (y : TG) => { y with wake := none }
    let answer := fun (r : State) (a : PeerRes) => r.mgmt.peerOut = s.mgmt.peerOut ++ [a]
    (s.sup.tinvBusy = false → ∃ r, exec (.invalidation v) s = .next r ∧ r.sup.tinvBusy = true ∧ r.sup.tinvAsid = v.setWidth 16 ∧
      r.sup.tinvPages = v.toNat / 2 ^ 32 % 2 ^ 28 ∧ r.mem = s.mem ∧ (∀ k ∈ r.replicas, r.sup.tinvNames k.asid k.va = false) ∧
      ∀ e ∈ r.ctxOld, r.sup.tinvAll = false ∧ (r.sup.tinvPages = 0 → e.1 ≠ r.sup.tinvAsid)) ∧
    (s.sup.tinvBusy = true → s.sup.darnBusy = false → s.wrs = [] →
      exec .invalidationComplete s = .next { s with sup := { s.sup with tinvBusy := false } }) ∧
    (∃ r, exec (.broadcastInvalidation sp va n) s = .next r ∧ r.mem = s.mem ∧ r.sup = s.sup ∧
      (n = 0 → ∀ k ∈ r.replicas, ctxMirrors s.toSoc k.asid sp = false)) ∧
    ((∀ y ∈ s.wrs, ctxMirrors s.toSoc y.ent.asid none = false) →
      exec .hostSync s = .next { s with mgmt := { s.mgmt with syncs := s.mgmt.syncs + 1 } }) ∧
    (s.faults.any (fun e => e.asid == fltAsid v && e.page == fltPage v) = true →
      (∃ r, exec (.fltrespRetry v) s = .next r ∧ r.mem = s.mem ∧ r.tasks = s.tasks ∧
        r.faults = s.faults.filter (fun e => !(e.asid == fltAsid v && e.page == fltPage v)) ∧
        (s.parkedOn (fltAsid v) (fltPage v) = [(x.loc, o)] → s.me.loc ≠ x.loc → s.tgAt x.loc = some x → x.wake = none →
          r.tgAt x.loc = some { x with wake := some .go })) ∧
      (s.parkedOn (fltAsid v) (fltPage v) = [(x.loc, o)] → s.me.loc ≠ x.loc → s.tgAt x.loc = some x → x.wake = none → x.snapping = true →
        ∃ r, exec (.fltrespUnmap v) s = .next r ∧ r.mem = s.mem ∧ r.tasks = s.tasks ∧ r.tgAt x.loc = some { x with
          wake := some (.faulted 1 o) }) ∧
      (s.parkedOn (fltAsid v) (fltPage v) = [] → ∃ r, exec (.fltrespUnmap v) s = .next r ∧ r.mem = s.mem ∧ r.me = s.me ∧ r.tgs = s.tgs ∧
        r.faults = s.faults.filter (fun e => !(e.asid == fltAsid v && e.page == fltPage v)) ∧
        ∀ k ∈ r.ops, k.asid = fltAsid v → k.fault ≠ some (fltPage v))) ∧
    (s.sup.rtBusy = false → s.sup.darnBusy = false → (∀ p ∈ s.sup.shadow, rtBad s.mode p.2 = false) →
      exec .swap s = .next { s with sup := { s.sup with
        rtErr := false
        rtErrIdx := 0
        rtBusy := true
        rtGen := (s.sup.rtGen + 1) % 16
        prev := s.sup.active
        active := s.sup.shadow } }) ∧
    (s.sup.rtBusy = true → s.wrs = [] → ∃ r, exec .swapComplete s = .next r ∧ r.sup.rtBusy = false ∧ r.sup.active = s.sup.active ∧ r.mem = s.mem ∧
      ∀ k ∈ r.replicas, homeDie s.mode s.sup.prev k.va = homeDie s.mode s.sup.active k.va) ∧
    (s.sup.darnBusy = false → s.sup.rtBusy = false →
      let j : DarnJob := ⟨s.sup.darnUnmapped, s.sup.darnVa, s.sup.darnAsid, s.sup.darnSrc, s.sup.darnDst⟩
      s.darnCode j = none → ∃ r, exec .darning s = .next r ∧ r.sup.darnBusy = true ∧ r.sup.darn = j ∧ r.sup.darnErr = false ∧ r.mem = s.mem) ∧
    (s.sup.darnBusy = true → s.wrs = [] → ∃ r, exec .darningComplete s = .next r ∧ r.sup.darnBusy = false ∧
      s.sup.darn.src ∈ kget [] r.badFrames (s.sup.darn.src / 2 ^ 36) ∧ quiet r.me = quiet s.me ∧ r.tasks = s.tasks ∧ (s.sup.darn.unmapped = true → r.mem = s.mem)) ∧
    (s.stopped = false → awake → s.hostq = [] →
      ((List.range n).mapM (fun k => s.readByte (s.hostAgent asid (va.toNat + k)) (va.toNat + k)) = .ok ps →
        exec (.hostAccess (.load asid va n)) s = .next { s with mgmt := { s.mgmt with hostOut := s.mgmt.hostOut ++ ps.map (·.1) } }) ∧
      (s.placeWrites (s.hostAgent asid va.toNat) (bytesWrite va.toNat bs false) = .ok xs →
        exec (.hostAccess (.store asid va bs)) s = .next (s.engWrite (s.hostAgent asid va.toNat) xs)) ∧
      (s.hostNow (.store asid va bs) = none →
        exec (.hostAccess (.store asid va bs)) s = .next { s with hostq := [.store asid va bs] }) ∧
      exec (.hostAccess (.doorStore n bs)) s = .next (if n % 8 = 0 ∧ n < 8192 ∧ bs.length = 8 then s.kickQueue (n / 8) else s)) ∧
    (awake → exec (.hostAccess (.doorLoad pa n)) s = .next { s with mgmt := { s.mgmt with
      hostOut := s.mgmt.hostOut ++ List.replicate n 0 } }) ∧
    (awake →
      (s.exported pa n = true → ∃ r, exec (.peerAccess (.load pa n)) s = .next r ∧ answer r (.done (memBytes s.mem pa n)) ∧ r.mem = s.mem) ∧
      (s.exported pa n = false → ∃ r, exec (.peerAccess (.load pa n)) s = .next r ∧ answer r .refused ∧ r.mem = s.mem) ∧
      (s.exported pa bs.length = true → ∃ r, exec (.peerAccess (.store pa bs)) s = .next r ∧ answer r (.done []) ∧
        memBytes r.mem pa bs.length = bs ∧ ∀ y, (y < pa ∨ pa + bs.length ≤ y) → memGet r.mem y = memGet s.mem y)) ∧
    (s.wrs.find? (fun k => k.id == w.id && k.peer.isSome && !k.done) = some w →
      awake →
      (w.ret = false → exec (.peerReply w.id (.done data)) s = .next { s with
        wrs := s.wrs.filter (fun k => !((s.wrGroup w).map (·.id)).contains k.id) }) ∧
      (w.ret = true → exec (.peerReply w.id (.done data)) s = .next { s with
        wrs := updFirst (fun k => k.id == w.id) (fun k => { k with
          old := some (takeBytes w.ent.size data, [])
          done := true }) s.wrs }))

/-- R411 to R418, R422, R424, R444, R450, R451. The commands of the management core: what each leaves as its outcome, and its
publication. Where telemetry lies (log 28), that recovery answers UNLOCKCHAL with BADCMD (log 89), what the level of an UNLOCK without a
token is (log 91), what size CHECKPOINT reports (log 93), that a wake by the host's polling aborts POWER (log 100), that LIFECYCLE leaves the
device off until its next boot (log 101) and that the step says whether the package's other devices are idle (log 127) are the model's
choices. -/
def Obligations.MailboxCommandResult : Prop :=
  ∀ (s : State) (b : MbBox) (cmd : Nat) (st : Nat) (rv : W64) (x : Nat) (tk : List Byte) (img : Image) (t : State) (idle : Bool), s.MemOk →
    s.mgmt.off = false → (s.mb b).busy = true → s.serves b = true →
    let u := s.beginCmd b
    let waits := (s.mb b).cmd = cmd ∧ (s.mb b).finished = none
    let runs := waits ∧ s.mgmt.recovery = false
    let ends := fun (r : State) (st res : Nat) => (r.mb b).finished = some (st, BitVec.ofNat 64 res)
    let arg := fun (k : Nat) => s.arg b k
    let out := fun (i : Instr) (a : Nat) (data : List Byte) (res : Nat) => ∃ r, exec i s = .next r ∧
      (s.bufAt b a data.length = .ok x → ends r 0 res ∧ r.mem = memPut x data s.mem) ∧ (∀ e, s.bufAt b a data.length = .error e → ends r e 0 ∧ r.mem = s.mem)
    let until_ := (u.mb b).since + 1000 * arg 1
    let rest := (u.mb b).woken = false ∧ s.quiet = true ∧ (idle = true ∨ s.mode = .whole) ∧ s.ptp.toNat ≤ until_
    let late := (u.mb b).woken = true ∨ (s.quiet = false ∧ until_ < s.ptp.toNat)
    let early := (u.mb b).woken = false ∧ s.quiet = false ∧ s.ptp.toNat < until_
    (waits → s.mgmt.recovery = true → cmd = 4 → exec (.unlockchal b) s = .next (u.finish b 1 0)) ∧
    (runs → cmd = 1 → (s.mgmt.lifecycle = 4 → exec (.attest b) s = .next (u.finish b 4 0)) ∧
      (s.mgmt.lifecycle ≠ 4 → s.bufAt b (arg 0) 32 = .ok x → ∀ y, s.bufAt b (arg 1) 256 = .ok y →
        ∃ r, exec (.attest b) s = .next r ∧ ends r 0 0 ∧ memBytes r.mem y 192 = s.reportHead (memBytes s.mem x 32))) ∧
    (runs → cmd = 2 → out (.readlog b) (arg 0) ((s.mgmt.log.take (arg 1)).flatMap LogEnt.bytes) (s.mgmt.log.take (arg 1)).length) ∧
    (runs → cmd = 3 → (s.mode.controllers ≤ arg 0 → exec (.readbadframes b) s = .next (u.finish b 1 0)) ∧
      (arg 0 < s.mode.controllers →
        let fs := (kget ⟨[], 0⟩ s.mgmt.badList (arg 0)).frames
        out (.readbadframes b) (arg 1) (fs.flatMap (bytesOf 8)) fs.length)) ∧
    (runs → cmd = 4 → out (.unlockchal b) (arg 0) (beBytes 32 (Config.nonce s.mgmt.nonces).toNat) 0) ∧
    (runs → cmd = 5 → s.mgmt.unlocking = none → (s.mgmt.lifecycle = 4 → exec (.unlock b) s = .next (u.finish b 4 0)) ∧
      (s.mgmt.lifecycle ≠ 4 → s.mgmt.lifecycle ≠ 2 → arg 0 = 0 → ∃ r lv, exec (.unlock b) s = .next r ∧ ends r 0 0 ∧ (lv = 1 ∨ lv = 2) ∧
        r.mgmt.debug = max lv s.mgmt.debug ∧ r.mem = s.mem)) ∧
    (runs → cmd = 6 → arg 2 < 2 → powerOk s.mgmt.lifecycle s.mgmt.debug (arg 0) = true →
      (arg 0 = 0 → exec (.power b idle) s = .next (u.finish b 0 0)) ∧
      (arg 0 = 1 ∨ arg 0 = 2 →
        (rest → ∃ r, exec (.power b idle) s = .next r ∧ ends r 0 0 ∧ r.mgmt.power = arg 0 ∧ r.mem = s.mem) ∧
        (late → exec (.power b idle) s = .next (u.finish b 5 0)) ∧ (early → exec (.power b idle) s = .next u)) ∧
      (arg 0 = 3 → u.tearAll = (t, true) → ∃ r, exec (.power b idle) s = .next r ∧ r.mgmt.off = true ∧ r.tasks = [] ∧ r.me.status = .free)) ∧
    (runs → cmd = 7 → b = .device → s.bufAt b (arg 0) (arg 1) = .ok x →
      let im := imgOf (memBytes s.mem x (arg 1))
      1 ≤ fieldAt im 4 1 → fieldAt im 4 1 ≤ 3 → s.mgmt.imgBad (fieldAt im 4 1) im = none →
      ∃ r, exec (.fwstage b) s = .next r ∧ ends r 0 0 ∧ r.mem = s.mem ∧
        kfind (fieldAt im 4 1, 1 - kget 0 s.mgmt.activeBank (fieldAt im 4 1)) r.mgmt.banks = some im) ∧
    (runs → cmd = 7 → b = .host → arg 2 = 0 → s.bufAt b 0 (arg 1) = .ok x → ∃ r, exec (.fwstage b) s = .next r ∧ ends r 0 0 ∧ r.mem = s.mem ∧
      r.mgmt.stage = memPut (arg 0) (memBytes s.mem x (arg 1)) s.mgmt.stage) ∧
    (runs → cmd = 5 → s.mgmt.unlocking = none → s.mgmt.lifecycle = 2 → s.tokenServes b tk →
      (fieldAt tk 4 1 = 1 → s.mgmt.debug = 0 →
        ∃ r, exec (.unlock b) s = .next r ∧ ends r 0 0 ∧ r.mgmt.debug = 1 ∧ r.mgmt.nonce = none ∧ r.mem = s.mem) ∧
      (fieldAt tk 4 1 = 2 → s.mgmt.debug < 2 →
        { u with mgmt := { u.mgmt with
          nonce := none
          unlocking := some (sha256 (tk.take 128), bitOf (fieldAt tk 5 1) 0) } }.tearAll = (t, true) →
        ∃ r, exec (.unlock b) s = .next r ∧ ends r 0 0 ∧ r.mgmt.debug = 2 ∧ r.mgmt.keys = [] ∧ r.replicas = [] ∧
          (∀ a, 2 ^ 63 ≤ a → a < 2 ^ 64 → memGet r.mem a = 0) ∧
          (fieldAt tk 5 1 % 2 = 1 → ∀ a < 2 ^ 61, memGet r.mem a = 0))) ∧
    (runs → cmd = 8 →
      (s.tokenServes b tk → 0x10 ≤ fieldAt tk 4 1 → fieldAt tk 4 1 ≠ 0x13 → lifecycleOk s.mgmt.lifecycle (fieldAt tk 4 1 - 0x10) = true →
        ∃ r, exec (.lifecycle b) s = .next r ∧ r.mgmt.lifecycle = fieldAt tk 4 1 - 0x10 ∧ r.mgmt.off = true ∧ r.mgmt.nonce = none ∧ r.mem = s.mem) ∧
      (s.bufAt b (arg 0) 192 = .ok x → s.mgmt.nonce.map (·.toNat) ≠ some (beField (memBytes s.mem x 192) 24 32) →
        ∃ r, exec (.lifecycle b) s = .next r ∧ ends r 3 0 ∧ r.mgmt.nonce = none ∧ r.mgmt.lifecycle = s.mgmt.lifecycle ∧ r.mem = s.mem)) ∧
    (runs → cmd = 9 → 1 ≤ arg 2 → arg 2 ≤ 256 →
      let first := max (arg 1) (s.mgmt.telemSeq - 2 ^ 20)
      let n := min (arg 2) (s.mgmt.telemSeq - first)
      out (.readtelem b) (arg 0) ((List.range n).flatMap (fun i => memBytes s.mem (telemAt (first + i)) 4096)) n) ∧
    (runs → cmd = 10 → out (.readfaulthist b) (arg 0) ((s.mgmt.history.reverse.take (arg 1)).flatMap HistEnt.bytes)
      (s.mgmt.history.reverse.take (arg 1)).length) ∧
    (runs → cmd = 11 → b = .device → arg 0 ≤ 2 →
      (rest → ∃ r k, exec (.checkpoint b idle) s = .next r ∧ ends r 0 (imageBytes s.mode) ∧ r.mem = s.mem ∧
        kfind (arg 0) r.mgmt.images = some k ∧ k.intact = true ∧ k.mode = s.mode ∧ k.sealed_ = s.toSoc.units ∧
        k.soc = { s.toSoc with mem := r.mgmt.crypt xtsEncrypt s.toSoc.units s.mem }) ∧
      (late → exec (.checkpoint b idle) s = .next (u.finish b 5 0)) ∧ (early → exec (.checkpoint b idle) s = .next u)) ∧
    (runs → cmd = 12 → b = .device → arg 0 ≤ 2 → (kfind (arg 0) s.mgmt.images = none → exec (.restore b) s = .next (u.finish b 2 0)) ∧
      (kfind (arg 0) s.mgmt.images = some img → img.intact = true → img.mode = s.mode → u.tearAll = (t, true) →
        ∃ r, exec (.restore b) s = .next r ∧ ends r 0 0 ∧ r.me = { img.soc.me with found := [] } ∧ r.tasks = img.soc.tasks ∧ r.futs = img.soc.futs ∧
          r.mem = (t.mgmt.crypt xtsDecrypt img.sealed_ img.soc.mem).filter (fun c => decide (c.1 < 2 ^ 64)) ++
            t.mem.filter (fun c => decide (2 ^ 64 ≤ c.1)))) ∧
    (runs → cmd = 13 → arg 0 < 2 ^ 22 →
      (b = .device → s.wrs = [] →
        ∃ r, exec (.declarelost b) s = .next r ∧ ends r 0 0 ∧ r.lost = insertNat (arg 0) s.lost ∧ r.mem = s.mem ∧ r.tasks = s.tasks) ∧
      (b = .host → arg 3 ≠ s.devid → arg 3 ∉ s.mgmt.siblings → exec (.declarelost b) s = .next (u.finish b 1 0))) ∧
    (runs → cmd = 14 → 1 ≤ arg 0 → arg 0 ≤ 3 → ∃ r, exec (.commitsvn b) s = .next r ∧ ends r 0 0 ∧ r.mem = s.mem ∧
      r.mgmt.svns = s.mgmt.svns.set (arg 0 - 1) (max (s.mgmt.svns.getD (arg 0 - 1) 0) (s.mgmt.running.getD (arg 0 - 1) 0))) ∧
    (let publish := fun (st : Nat) (rv : W64) => (s.modMb b fun m => { m with
       busy := false
       status := st
       res := rv
       finished := none }).modMgmt fun m => { m with
       serving := none
       lastServed := b }
     ((s.mb b).finished = some (st, rv) → exec (.mailboxComplete b) s = .next (publish st rv)) ∧
     ((s.mb b).finished = none → (s.mb b).cmd = 0 ∨ 14 < (s.mb b).cmd → exec (.mailboxComplete b) s = .next (publish 1 (s.mb b).res)))

/-- R12, R15, R17, R332, R406, R416, R419, R422, R425 to R448. Scrubs and sweeps count what they find, cores are tested, links lose width,
the clock falls, telemetry is recorded, a group is retried, a slice is switched, power goes and the device boots, and the debugger acts
at HALT. That a code word counts once (log 116), where telemetry lies (log 28), what TRACE records (logs 81 and 118), what boot and a
loss of power keep (log 30), that the supervisor's tables and areas are addresses of context 0 (log 13), which die POWER_LIMIT names
(log 135) and how a first context fixes the mode (log 144) are the model's choices. -/
def Obligations.ReliabilityAndPackageStepResult : Prop :=
  ∀ (s : State) (die n mhz : Nat) (v : W64) (pass : Bool) (x : TG) (k : LinkRef) (ts : List TelemetrySample) (chk : Byte)
    (tb : List (Nat × W64 × W64)) (r : UReg) (m : Fin 3) (e : Nat × Nat) (bits : List Bool) (cl co : Nat) (kt : Task) (b : TraceBuf), s.MemOk →
    let quiet := fun (y : TG) => { y with wake := none }
    let same := fun (t : State) => t.mem = s.mem ∧ t.tasks = s.tasks
    let live := s.background = true ∧ PartMode.hasDie s.mode die = true
    (PartMode.hasDie s.mode die = true → isGatewayDie die = false → ∃ t, exec (.eccmode die v) s = .next t ∧ same t ∧
      (t.die die).slicedt = v.toNat % 256 ∧ (s.eccChange die v = [] → (t.die die).reenc = (s.die die).reenc) ∧
      (s.eccChange die v = [e] → (s.die die).oldMode = [] → (t.die die).reenc = true) ∧ ∀ c < 24, (t.cluster ⟨die, c⟩).spadDt = v.getLsbD (8 + c)) ∧
    (PartMode.hasDie s.mode die = true → v.getLsbD 15 = true → (s.die die).test = none →
      PartMode.hasCore s.mode ⟨die, v.toNat / 2 ^ 8 % 32, v.toNat % 8⟩ = true →
      ∃ t, exec (.coreTest die v) s = .next t ∧ same t ∧ (t.die die).test = some (v.toNat / 2 ^ 8 % 32, v.toNat % 8)) ∧
    ((s.die die).test = some (cl, co) → (∀ g ∈ s.allTgs, g.loc.core ≠ ⟨die, cl, co⟩) → ∃ t, exec (.coreTestComplete die pass) s = .next t ∧
      (t.core ⟨die, cl, co⟩).quarantined = !pass ∧ (t.die die).test = none ∧ (t.die die).testFail = !pass ∧ t.tasks = s.tasks ∧ quiet t.me = quiet s.me) ∧
    (s.sup.armed = false → exec (.slicetime v) s = .next { s with sup := { s.sup with
      sliceTime := v
      armed := true
      switching := false
      claimed := [] } }) ∧
    (s.sup.armed = true → s.sup.switching = false → s.sup.sliceTime.toNat ≤ s.ptp.toNat → s.mgmt.power = 0 → s.mgmt.serving = none →
      s.supHeld s.sup.saveTab = false → (∀ p ∈ s.tablePages s.sup.saveTab, ∀ a, s.hwAddr supAsid true .load p 8 ≠ .misplaced a) → s.gang = [] →
      exec .sliceSwitch s = .next { s with sup := { s.sup with
        switching := true
        sliceShort := false
        claimed := [] } }) ∧
    (s.sup.armed = true → s.sup.switching = true → s.savesDone = true → s.sup.claimed = [] →
      s.supHeld s.sup.saveTab = false → s.supHeld s.sup.restTab = false →
      (∀ p ∈ s.tablePages s.sup.restTab, ∀ a, s.hwAddr supAsid true .load p 8 ≠ .misplaced a) →
      (s.supWord s.sup.restTab = 0 → exec .sliceRestore s = .next { s with sup := { s.sup with
        armed := false
        switching := false
        claimed := [] } }) ∧
      (s.supWord s.sup.restTab = 1 → s.tableEntry s.sup.restTab 0 = (n, kt.handle.toNat) → kt.handle ≠ 0 → s.task kt.handle = some kt →
        kt.st = .saved → s.hwAddr supAsid true .load n 16 = .at_ mhz → headOk (memBytes s.mem mhz 16) kt.handle = true →
        (∀ i < 16, isPoisoned s.poison (mhz + i) 1 = false) →
        ∃ t, exec .sliceRestore s = .next t ∧ t.sup.armed = false ∧ t.task kt.handle = some { kt with
          st := .restoring
          area := some (BitVec.ofNat 64 n, supAsid) })) ∧
    (s.background = true → PartMode.paOk s.mode (n / 32 * 32) = true →
      let a := n / 32 * 32
      let d := stackOf (a / 2 ^ 36)
      exec (.patrolScrub n .clean) s = .next s ∧
      ((4, a) ∈ s.seen → exec (.patrolScrub n .uncorrectable) s = .next { s with poison := insertNat a s.poison }) ∧
      ((4, a) ∉ s.seen → (∃ t, exec (.patrolScrub n .uncorrectable) s = .next t ∧ t.tasks = s.tasks ∧ quiet t.me = quiet s.me ∧
          kget 0 (t.die d.1).counters (d.2 + 1) = (kget 0 (s.die d.1).counters (d.2 + 1) + 1) % 2 ^ 64) ∧
        ((20, a) ∉ s.seen → ∃ t, exec (.patrolScrub n .corrected) s = .next t ∧ t.tasks = s.tasks ∧ quiet t.me = quiet s.me ∧
          kget 0 (t.die d.1).counters d.2 = (kget 0 (s.die d.1).counters d.2 + 1) % 2 ^ 64))) ∧
    (live → ∃ t, exec (.arraySweep die []) s = .next t ∧ same t ∧ (t.die die).sweeps = ((s.die die).sweeps + 1) % 2 ^ 32 ∧ (t.die die).reenc = false) ∧
    (live → s.me.loc ≠ x.loc → s.tgAt x.loc = some x → x.loc.core.die = die →
      ∀ (vr : VReg) (lane : Fin 32), (0, vr.val, lane.val) ∉ x.found →
      ∃ t, exec (.arraySweep die [⟨.core (.v x.loc vr lane), .uncorrectable⟩]) s = .next t ∧ t.tasks = s.tasks ∧ quiet t.me = quiet s.me ∧
        (t.tgAt x.loc).map quiet = some (quiet { x with
          vp := x.vp.set vr (laneMark x.vp[vr] lane)
          found := (0, vr.val, lane.val) :: x.found }) ∧
        kget 0 (t.die die).counters 0x65 = (kget 0 (s.die die).counters 0x65 + 1) % 2 ^ 64) ∧
    (exec (.phyCalibration n mhz) s = .next s) ∧
    (live → (s.die die).supply < 9 → ∃ t, exec (.ageingMargin die true) s = .next t ∧ same t ∧ (t.die die).supply = (s.die die).supply + 1) ∧
    (s.background = true → ∃ t, exec (.telemetry ts) s = .next t ∧ t.mgmt.telemSeq = s.mgmt.telemSeq + 1 ∧ t.tasks = s.tasks ∧
      memBytes t.mem (telemAt s.mgmt.telemSeq) 8 = bytesOf 8 s.mgmt.telemSeq) ∧
    (s.me.loc ≠ x.loc → s.tgAt x.loc = some x → x.status = .ready → x.phase = .start →
      (x.pipe = false → ∃ t, exec (.pipelineError x.loc chk none) s = .next t ∧ t.tasks = s.tasks ∧ quiet t.me = quiet s.me ∧
        (t.tgAt x.loc).map quiet = some (quiet { x with
          pipe := true
          cur := none })) ∧
      (x.pipe = true → ∃ t, exec (.pipelineError x.loc chk none) s = .next t ∧ (t.core x.loc.core).quarantined = true)) ∧
    (∀ o, s.ops.find? (fun o => o.id == n) = some o → o.failed = false →
      ∃ t, exec (.pipelineError x.loc chk (some n)) s = .next t ∧ t.tasks = s.tasks ∧ quiet t.me = quiet s.me ∧
        t.ops = updFirst (fun o => o.id == n) (fun o => { o with
          failed := true
          words := ⟨[], []⟩ }) s.ops) ∧
    (s.ownsLink k = false → exec (.laneFailure k v) s = .next s) ∧
    (s.ownsLink k = true → s.width k < 3 →
      ∃ t, exec (.laneFailure k v) s = .next t ∧ t.width k = s.width k + 1 ∧ t.tasks = s.tasks ∧ t.mgmt.failed = s.mgmt.failed) ∧
    (s.mgmt.failed = false → ∃ t, exec .deviceFailure s = .next t ∧ t.mgmt.failed = true ∧ same t) ∧
    (PartMode.hasDie s.mode die = true → ∃ t, exec (.flitReplay die) s = .next t ∧ same t ∧
      kget 0 (t.die die).counters 0x72 = (kget 0 (s.die die).counters 0x72 + 1) % 2 ^ 64) ∧
    (0 < mhz → mhz < s.clock → (s.clock - mhz) % 25 = 0 → ∃ t, exec (.powerLimit mhz) s = .next t ∧ t.clock = mhz ∧ t.tasks = s.tasks ∧ quiet t.me = quiet s.me ∧
      (s.mgmt.trace = some b → s.mgmt.debug ≠ 0 → t.mgmt.trace = some { b with next := b.next + 1 })) ∧
    (∃ t, exec (.boot tb) s = .next t ∧ t.tasks = [] ∧ t.futs = [] ∧ t.ops = [] ∧ t.mgmt.off = false ∧ t.mgmt.debug = 0 ∧ t.mgmt.power = 0 ∧
      (t.mgmt.recovery = false → t.mgmt.lifecycle ≠ 4 → ∀ d < s.mode.computeDies, ∃ g ∈ t.allTgs, g.loc = ⟨t.reservedCore d, 0⟩ ∧
        g.status = .ready ∧ g.super = true ∧ g.task = 0)) ∧
    (s.stopped = false → s.created = false → s.tasks = [] → s.futs = [] → s.slots = [] → n < PartMode.parts (modeOf m) → mhz < 2 ^ 22 →
      ∃ t, exec (.hostAccess (.create m n mhz)) s = .next t ∧ t.created = true ∧ t.mode = modeOf m ∧ t.part = n ∧ t.devid = mhz ∧
        t.tasks = [] ∧ t.mgmt.svns = s.mgmt.svns) ∧
    (s.mgmt.serving = none → s.mgmt.power = 1 ∨ s.mgmt.power = 2 → exec .powerWake s = .next { s with mgmt := { s.mgmt with power := 0 } }) ∧
    (∃ t, exec .powerLoss s = .next t ∧ t.mgmt.off = true ∧ t.tasks = [] ∧ t.me.status = .free ∧ ∀ a < 2 ^ 60, memGet t.mem a = memGet s.mem a) ∧
    (s.mgmt.off = false → ∃ t, exec .idcode s = .next t ∧ same t ∧ t.mgmt.jtagOut.length = s.mgmt.jtagOut.length + 32) ∧
    (s.mgmt.off = false → ∃ t, exec (.bypass bits) s = .next t ∧ same t ∧
      t.mgmt.jtagOut = s.mgmt.jtagOut ++ ((false :: bits).take bits.length).map (fun b => if b then (1 : Byte) else 0)) ∧
    (s.mgmt.debug = 2 → s.mgmt.off = false → s.me.loc ≠ x.loc → s.tgAt x.loc = some x → x.status ≠ .free →
      (∃ t, exec (.jtagHalt x.loc) s = .next t ∧ same t ∧ t.tgAt x.loc = some { x with
        dbg := true
        stepping := 0 }) ∧
      exec (.jtagAccess (.brkHalt pass)) s = .next { s with mgmt := { s.mgmt with brkHalt := pass } } ∧
      (x.dbg = true → x.status = .ready →
        (∃ t, exec (.jtagResume x.loc) s = .next t ∧ same t ∧ t.tgAt x.loc = some { x with
          dbg := false
          stepping := 0 }) ∧
        (∃ t, exec (.jtagStep x.loc) s = .next t ∧ same t ∧ t.tgAt x.loc = some { x with
          dbg := false
          stepping := 1 }) ∧
        (x.cur = none → (∃ t, exec (.jtagAccess (.readS x.loc r)) s = .next t ∧ same t ∧
            t.mgmt.jtagOut = s.mgmt.jtagOut ++ bytesOf 8 x.s[r].toNat) ∧
          (∃ t, exec (.jtagAccess (.readX x.loc)) s = .next t ∧ same t ∧ t.mgmt.jtagOut = s.mgmt.jtagOut ++ bytesOf 4 x.x.toNat) ∧
          (∃ t, exec (.jtagAccess (.writeSPoison x.loc v)) s = .next t ∧ same t ∧ t.tgAt x.loc = some { x with sp := v }) ∧
          (∃ t, exec (.jtagAccess (.writeS x.loc r v)) s = .next t ∧ same t ∧ t.tgAt x.loc = some { x with s := x.s.set r v }))) ∧
      (x.dbg = true → x.isParked = true → ∃ t, exec (.jtagAccess (.readS x.loc r)) s = .next t ∧ same t ∧
        t.mgmt.jtagOut = s.mgmt.jtagOut ++ bytesOf 8 x.s[r].toNat)) ∧
    (s.mgmt.debug ≠ 0 → s.mgmt.off = false → 32 ≤ n → isWindow mhz = false → PartMode.paOk s.mode mhz = true →
      PartMode.paOk s.mode (mhz + n - 1) = true →
      exec (.jtagAccess (.traceBuf mhz n)) s = .next { s with mgmt := { s.mgmt with trace := some ⟨mhz, n, 0⟩ } })
/-! ### Guards, reset, the step, encodings and memory -/

/-- R173, R189, R208, R227. A uniform guard whose predicate is false makes the group end with nothing done, and a poisoned one kills the
task at the pc, for every form with a uniform guard; a lane guard that is poisoned in a lane of X kills it, for every lane form. That the
guard comes before the FORMAT trap of VQNT, VDQNT and VDGEN is the model's choice (log 43). -/
def Obligations.GuardResult : Prop :=
  (∀ (s : State) (g : Guard) (u1 u2 u3 : UReg) (v1 : VReg) (k1 k2 k3 : KReg) (h1 h2 : HReg) (t1 : TReg) (a1 : AReg) (b : VSrc) (k : KOp)
      (o : MOff) (nr : Bool) (sc : Scope) (n : Byte),
    ∀ i ∈ ([.sadd g u1 u2 u3, .ssub g u1 u2 u3, .smul g u1 u2 u3, .smulh g u1 u2 u3, .smulhu g u1 u2 u3, .sdiv g u1 u2 u3,
      .sdivu g u1 u2 u3, .srem g u1 u2 u3, .sand g u1 u2 u3, .sor g u1 u2 u3, .sxor g u1 u2 u3, .sshl g u1 u2 u3,
      .sshr g u1 u2 u3, .ssar g u1 u2 u3, .smin g u1 u2 u3, .smax g u1 u2 u3, .smovk g u1 k, .saddk g u1 u2 k,
      .sandk g u1 u2 k, .sshlk g u1 u2 k, .smov g u1 u2, .snot g u1 u2, .sneg g u1 u2, .sabs g u1 u2, .sclz g u1 u2,
      .spopc g u1 u2, .ssx32 g u1 u2, .szx32 g u1 u2, .sbrev g u1 u2, .scmpeq g k1 u1 u2, .scmpne g k1 u1 u2,
      .scmplt g k1 u1 u2, .scmple g k1 u1 u2, .scmpltu g k1 u1 u2, .scmpleu g k1 u1 u2, .kand g k1 k2 k3, .kor g k1 k2 k3,
      .kxor g k1 k2 k3, .kandn g k1 k2 k3, .vldw g v1 u1 b, .vldh g v1 u1 b, .vldb g v1 u1 b, .vldd g v1 u1 b,
      .vldsw g v1 u1 u2, .vldq g v1 u1 b, .vldc g v1 u1, .vldsc g v1 u1, .vstw g v1 u1 b, .vsth g v1 u1 b, .vstb g v1 u1 b,
      .vstd g v1 u1 b, .vstsw g v1 u1 u2, .vstq g v1 u1 b, .vstc g v1 u1, .vstsc g v1 u1, .sld g u1 u2 o, .sst g u1 u2 o,
      .slds g u1 u2 o, .ssts g u1 u2 o, .vatadd g v1 u1 b nr sc, .vatmin g v1 u1 b nr sc, .vatmax g v1 u1 b nr sc,
      .vatand g v1 u1 b nr sc, .vator g v1 u1 b nr sc, .vatxor g v1 u1 b nr sc, .vatxch g v1 u1 b nr sc,
      .vatcas g v1 u1 b nr sc, .satadd g u1 u2 u3 nr sc, .satcas g u1 u2 u3 nr sc, .satxch g u1 u2 u3 nr sc,
      .vxadd g v1 u1 b nr sc] ++
      [.vfatadd g v1 u1 b nr sc, .jmpr g u1, .callr g u1, .ret g, .nop g, .brk g, .fence g sc, .fenceacq g sc,
      .fencerel g sc, .bar g sc, .waitv g u1 u2 u3 sc, .descinv g u1, .descinvDeep g, .logwait g, .sldacq g u1 u2 sc,
      .sstrel g u1 u2 sc, .mcfg g u1, .mzero g a1, .mma g a1 h1 h2, .mmas g a1 h1 h2, .mdrain g t1 a1 u1, .mstat g u1 a1,
      .msave g t1 a1 u1, .mload g t1 a1 u1, .rdef g h1 u1, .rwfull g h1 u1, .rwfree g h1 u1, .radvp g h1 u1,
      .radvc g h1 u1, .rslot g u1 h1 u2, .rslotc g u1 h1 u2, .rundef g h1, .cpy g t1 u1, .cpyr g t1 h1 u1, .cpyt g t1 u1,
      .cpyrd g t1 u1, .waitt g n, .tokrd g u1 t1, .cqpush g u1 u2 u3, .cqkick g u1, .gstart g t1 h1 u1, .gstop g t1,
      .gstat g u1 t1, .spawn g u1 u2, .touch g u1 u2, .touchc g u1 u2 k1, .poll g u1 u2, .resolve g u1 u2 u3, .fnew g u1,
      .ffault g u1 u2 u3, .cancel g u1 u2, .cancelDeep g u1 u2, .release g u1, .scopeo g u1 u2, .scopec g u1, .scopew g u1,
      .retire g u1, .yield g u1, .prio g u1 u2, .self g u1, .send g u1 u2, .sendr g u1 u2 u3, .recv g u1 u2 u3,
      .htwr g u1 u2, .bqclaim g u1 u2, .baddq g t1 u1 u2, .bqdone g u1, .topkc g t1 u1, .topkr g t1 u1, .trap g u1,
      .tret g, .pchk g k1 u1] : List Instr),
      (s.me.shuts g → exec i s = .next (s.ends id)) ∧ (s.me.taints g → exec i s = .next (s.killMe kPOISON s.me.pc))) ∧
  (∀ (s : State) (g : Guard) (u1 u2 u3 : UReg) (k1 : KReg) (y : SysReg) (n : Byte), s.me.super = true → y.known = true →
    ∀ i ∈ ([.waitk g k1, .srd g u1 y, .swrDeep g u1 n, .csave g u1 u2 u3, .crest g u1 u2 u3, .halt g, .replay g u1] ++
        (if y.dest then [.swr g u1 y] else []) : List Instr),
      (s.me.shuts g → exec i s = .next (s.ends id)) ∧ (s.me.taints g → exec i s = .next (s.killMe kPOISON s.me.pc))) ∧
  (∀ (s : State) (g : Guard) (u1 : UReg) (v1 v2 v3 : VReg) (k1 : KReg) (p1 p2 p3 : PReg) (b : VSrc) (k : KOp) (r : Rnd) (nr : Bool),
    ¬ s.me.clean g →
    ∀ i ∈ ([.vadd g v1 v2 b nr, .vsub g v1 v2 b nr, .vmul g v1 v2 b, .vmulh g v1 v2 b, .vmulhu g v1 v2 b, .vmad g v1 v2 b,
      .vand g v1 v2 b, .vor g v1 v2 b, .vxor g v1 v2 b, .vshl g v1 v2 b, .vshr g v1 v2 b, .vsar g v1 v2 b, .vmin g v1 v2 b,
      .vmax g v1 v2 b, .vminu g v1 v2 b, .vmaxu g v1 v2 b, .vmovk g v1 k, .vaddk g v1 v2 k nr, .vandk g v1 v2 k,
      .vshlk g v1 v2 k, .vfadd g v1 v2 b r, .vfsub g v1 v2 b r, .vfmul g v1 v2 b r, .vfma g v1 v2 b r, .vfms g v1 v2 b r,
      .vfnma g v1 v2 b r, .vfmin g v1 v2 b, .vfmax g v1 v2 b, .vfdiv g v1 v2 b r, .vfcpys g v1 v2 b, .vhaddf g v1 v2 b r,
      .vhmulf g v1 v2 b r, .vhfmaf g v1 v2 b r, .vhminf g v1 v2 b, .vhmaxf g v1 v2 b, .vhaddb g v1 v2 b r,
      .vhmulb g v1 v2 b r, .vhfmab g v1 v2 b r, .vhminb g v1 v2 b, .vhmaxb g v1 v2 b, .vdot2f g v1 v2 b r,
      .vdot2b g v1 v2 b r, .vdot4i g v1 v2 b nr, .vfabs g v1 v2, .vfneg g v1 v2, .vfsqrt g v1 v2 r, .vfrsq g v1 v2,
      .vfrcp g v1 v2, .vfexp2 g v1 v2, .vflog2 g v1 v2] ++
      [.vffloor g v1 v2, .vfceil g v1 v2, .vfrint g v1 v2 r, .vftrunc g v1 v2, .vfclass g v1 v2, .vftanh g v1 v2,
      .vcvtfi g v1 v2 r, .vcvtif g v1 v2 r, .vcvtfu g v1 v2 r, .vcvtuf g v1 v2 r, .vcvtfh g v1 v2 v3 r nr, .vcvthf g v1 v2,
      .vcvtfb g v1 v2 v3 r nr, .vcvtbf g v1 v2, .vqnt g v1 v2 b, .vdqnt g v1 v2 b, .vdgen g v1 b, .vpack8 g v1 v2 b,
      .vunpk8 g v1 v2 b, .vcmpeq g p1 v1 b, .vcmpne g p1 v1 b, .vcmplt g p1 v1 b, .vcmple g p1 v1 b, .vcmpltu g p1 v1 b,
      .vcmpleu g p1 v1 b, .vfcmpeq g p1 v1 b, .vfcmplt g p1 v1 b, .vfcmple g p1 v1 b, .vfcmpun g p1 v1 b, .pand g p1 p2 p3,
      .por g p1 p2 p3, .pxor g p1 p2 p3, .pandn g p1 p2 p3, .vbcst g v1 u1, .vfirst g u1 v1, .vballot g u1 p1,
      .pfroms g p1 u1, .panyk g k1 p1, .pallk g k1 p1, .vshfl g v1 v2 b, .vredai g u1 v1, .vredaf g u1 v1, .vredmx g u1 v1,
      .vxacc g v1 v2] : List Instr),
      exec i s = .next (s.killMe kPOISON s.me.pc))

/-- What reset leaves in the registers for which the specification states a value (R14, R15, R37, R61, R84, R95, R97, R137, R138, R307,
R315, R317, R371, R373, R379, R380, R383, R396, R401, R406, R412, R416, R429, R430, R446), with no task, no future, no store and no operation, and
memory in canonical form. Registers with no stated value are the model's choice (logs 1 and 2). -/
def Obligations.ResetState : Prop :=
  let s := State.reset
  s.MemOk ∧ s.mem = [] ∧ s.poison = [] ∧ s.tasks = [] ∧ s.futs = [] ∧ s.tgs = [] ∧ s.me.status = .free ∧ s.ops = [] ∧ s.wrs = [] ∧
  s.replicas = [] ∧ s.clock = 1200 ∧ s.cycle = 0 ∧ s.mgmt.debug = 0 ∧ s.mgmt.power = 0 ∧ s.mgmt.nonce = none ∧
  (∀ c : ClId, (s.cluster c).xsteal = 0x10 ∧ (s.cluster c).steal = true ∧ (s.cluster c).pfUseful = 0 ∧ (s.cluster c).pfWasted = 0 ∧
    (s.cluster c).pfLate = 0 ∧ (s.cluster c).rings = [] ∧ (s.cluster c).locks = [] ∧ ∀ n, kget 0 (s.cluster c).gens n = 0) ∧
  (∀ c : CoreId, (s.core c).fifo = [] ∧ (s.core c).stopped = false ∧ (s.core c).inbox = [] ∧ (s.core c).inboxovf = 0 ∧ (s.core c).handlers = [] ∧
    (s.core c).mctx = none ∧ (s.core c).nacks = 0 ∧ (s.core c).spills = 0) ∧
  (∀ d : Nat, (s.die d).lowerth = 0x100 ∧ (s.die d).raiseth = 0x40 ∧ (s.die d).autoen = true ∧ (s.die d).ceth = 0x400 ∧ (s.die d).frameth = 4 ∧
    (s.die d).slicedt = 0 ∧ (s.die d).reenc = false ∧ (s.die d).sweeps = 0 ∧ ∀ n, kget 0 (s.die d).counters n = 0) ∧
  (∀ n : Nat, (s.slot n).mapped = false ∧ (s.slot n).drain = false ∧ kget 0 s.sup.pend n = 0 ∧ kget 0 s.sup.shadow n = 0 ∧
    kget 0 s.sup.active n = 0 ∧ kget 0 s.sup.peerXp n = 0) ∧
  s.sup.evBase = 0 ∧ s.sup.evHostIrq = false ∧ s.sup.evLogn = 10 ∧ s.sup.qtearBusy = false ∧ s.sup.ctxbase = 0 ∧ s.sup.tinvBusy = false ∧
  s.sup.fltBase = 0 ∧ s.sup.fltLogn = 8 ∧ s.sup.rtBusy = false ∧ s.sup.darnBusy = false ∧ s.sup.peerEn = false ∧ s.sup.armed = false ∧
  (s.mb .device).busy = false ∧ (s.mb .device).status = 0 ∧
  (∀ a : Half, (s.ctx a).hbase = 0 ∧ (s.ctx a).logn = 20 ∧ (s.scope a 0).st = .open_ ∧ ∀ n, n ≠ 0 → (s.scope a n).st = .free)

/-- R167, R168, R180 and log 3. A turn of a thread group that may issue executes the group under execution, or the group whose
halfwords stand at its pc: exec of the decoded instruction, with the address after the group and the mask word noted first, and what
every step ends with after it. An agent's turn is exec of its row; a turn of time only moves the clocks. -/
def Obligations.StepRunsTheDecodedInstruction : Prop :=
  (∀ (s : State) (g : TgRef) (r : List Turn) (i : Instr) (hs : List Half) (pa : Nat → Nat) (mask : Option W32),
    s.agenda = .issue g :: r →
    let u := (({ s with agenda := r } : State).focus g).issueTime
    let pc := u.me.pc.toNat
    u.me.loc = g → s.running = true → u.me.canIssue = true →
    (u.me.cur = some i → step s = settleStep (exec i u)) ∧
    (u.me.cur = none → u.sup.rtBusy = false → u.replicas = [] → u.wrs = [] → hs.length ≤ 9 → pc + 2 * hs.length ≤ 2 ^ 57 →
      (∀ k < hs.length, translate u.toSoc u.me.super .fetch u.me.asid (pc + 2 * k) = .phys (pa k) ∧
        natOf (memBytes u.mem (pa k) 2) = (hs.getD k 0).toNat ∧ isPoisoned u.poison (pa k) 1 = false ∧ isPoisoned u.poison (pa k + 1) 1 = false) →
      decode u.me.decEnv hs = .ok i (2 * hs.length) mask →
      (∀ n, 0 < n → n < hs.length → decode u.me.decEnv (hs.take n) = .short) →
      step s = settleStep (exec i { u with me := { u.me with
        cur := some i
        npc := u.me.pc + BitVec.ofNat 64 (2 * hs.length)
        spMask := mask
        wake := none
        phase := .start
        stepping := if u.me.stepping = 1 then 2 else u.me.stepping } }))) ∧
  (∀ (s : State) (r : List Turn) (i : Instr) (c n : Nat) (g : TgRef),
    (s.agenda = .part g n :: r → step s = settleStep (unpaced (({ s with
      agenda := r
      pace := some n } : State).issue g))) ∧
    (s.agenda = .event i :: r → isEvent i = true → s.stopped = false → step s = settleStep (exec i { s with agenda := r })) ∧
    (s.agenda = .tick c n :: r → step s = settleStep (.next (({ s with agenda := r } : State).tick c n))))

/-- R167, R171 to R176, R180, R183, R185. Words written out from the encodings of the specification decode to the instruction that
each stands for, with its prefixes, its mask word, and the length of its group. -/
def Obligations.SpecWordsDecode : Prop :=
  let e : DecEnv := ⟨false, true, 256, 64⟩
  let hv := fun (w : Nat) => [BitVec.ofNat 16 w, (BitVec.ofNat 16 (w / 65536) : Half)]
  decode e (hv 0x21440807) = .ok (.scmplt 0 2 4 5) 4 none ∧
  decode e (hv 0x92810C07) = .ok (.kandn 0 3 1 10) 4 none ∧
  decode e (hv 0x0014003F ++ hv 0x01420409) = .ok (.vadd 0 1 2 (.s 5) true) 8 none ∧
  decode e (hv 0x00C21419) = .ok (.vldw 0 5 2 (.v 3)) 4 none ∧
  decode e (hv 0x20C20429) = .ok (.mma 0 1 2 3) 4 none ∧
  decode e (hv 0x4004042B) = .ok (.radvc 0 1 4) 4 none ∧
  decode e [0x003C] = .ok (.cRadvc 1 0) 2 none ∧
  decode e [0x00DA] = .ok (.cWaitt 6) 2 none ∧
  decode e (hv 0x61C6142D) = .ok (.cqpush 0 5 6 7) 4 none ∧
  decode e (hv 0x02C4002F) = .ok (.gstart 0 0 4 11) 4 none ∧
  decode ⟨true, true, 256, 64⟩ (hv 0x00041435) = .ok (.bqclaim 0 5 4) 4 none ∧
  decode e (hv 0x0100003F ++ hv 0x70060831) = .ok (.cancelDeep 0 2 6) 8 none ∧
  decode e (hv 0x10051071 ++ hv 0x0000803B) = .ok (.touch 0 4 5) 8 (some 0x0000803B) ∧
  decode e (hv 0x22481C33) = .ok (.recv 0 7 8 9) 4 none ∧
  decode e (hv 0x12940037) = .ok (.swr 0 20 10) 4 none ∧
  decode e (hv 0x0100183F ++ hv 0x12050037) = .ok (.swrDeep 0 5 200) 8 none ∧
  decode e (hv 0x0000E03F ++ hv 0x70196427) = .ok (.sldacq 0 25 25 .dflt) 8 none ∧
  decode e (hv 0xFFFF80E1 ++ hv 0x0000803B) = .ok (.br 1 false 0xFFFF8) 8 (some 0x0000803B)

/-- R167, R171 to R176, R183, R185. Encoding a well-formed instruction and decoding its halfwords gives the instruction back, with
every operand at every value, whatever follows them; and no shorter run of them is a group. -/
def Obligations.DecodeOfEncode : Prop :=
  ∀ (i : Instr) (hs r : List Half), i.wf = true → encode i = some hs →
    let e : DecEnv := ⟨isGatewayForm i, true, 256, 64⟩
    decode e (hs ++ r) = .ok i (2 * hs.length) none ∧ ∀ n < hs.length, decode e (hs.take n) = .short

/-- R3, R22, R384. Every step keeps storage in its canonical form, and that of every checkpoint image with it. -/
def Obligations.StepKeepsMemory : Prop :=
  ∀ s t : State, s.MemOk → step s = .next t → t.MemOk
end

