-- ==== Sys2Proof/Laws/Guards.lean ====
section
/-! SUPPORT. What a guard does to the instruction behind it (R173, R189, R208): one lemma for each outcome. -/

namespace Sys2Proof.Machine

open Sys2Proof

theorem withK_open (s : State) (g : Guard) (f : State → State) (h : s.me.opens g) : s.withK g f = f s := by
  unfold State.withK
  split
  · rfl
  · rename_i h0
    obtain h | ⟨h1, h2⟩ := h
    · exact absurd h h0
    · have hg : g.val < 8 := g.isLt
      simp [State.kpoison, State.kval, h0, hg, h1, h2, -BitVec.getLsbD_eq_getElem]

theorem withK_shut (s : State) (g : Guard) (f : State → State) (h : s.me.shuts g) : s.withK g f = s.advance := by
  obtain ⟨h0, h1, h2⟩ := h
  have hg : g.val < 8 := g.isLt
  simp [State.withK, State.kpoison, State.kval, h0, hg, h1, h2, -BitVec.getLsbD_eq_getElem]

theorem withK_taint (s : State) (g : Guard) (f : State → State) (h : s.me.taints g) : s.withK g f = s.poisonPc := by
  obtain ⟨h0, h1⟩ := h
  have hg : g.val < 8 := g.isLt
  simp [State.withK, State.kpoison, h0, hg, h1, -BitVec.getLsbD_eq_getElem]

theorem withP_clean (s : State) (g : Guard) (f : State → State) (h : s.me.clean g) : s.withP g f = f s := by
  have h' : s.me.ppoison g &&& s.me.x = 0 := h
  simp [State.withP, h']

/-- The state in which a group has ended, from the register write that it made. -/
theorem setS_ends (s : State) (d : UReg) (v : W64) (p : Bool) : (s.setS d v p).advance = s.ends (·.setS d v p) := rfl
theorem setK_ends (s : State) (d : KReg) (v p : Bool) : (s.setK d v p).advance = s.ends (·.setK d v p) := rfl
theorem setV_ends (s : State) (d : VReg) (a : W32) (v : Fin 32 → W32) (p : W32) : (s.setV d a v p).advance = s.ends (·.setV d a v p) := rfl
theorem setP_ends (s : State) (d : PReg) (a v p : W32) : (s.setP d a v p).advance = s.ends (·.setP d a v p) := rfl

end Sys2Proof.Machine
end

