-- ==== Sys2Proof/Laws/Access.lean ====
section
/-! SUPPORT. What one line access and the loads of an instruction do in a calm state (R89, R98, R229, R230). -/

namespace Sys2Proof.Machine

open Sys2Proof

theorem map_fst_zipIdx {α : Type} (l : List α) (n : Nat) : (l.zipIdx n).map (·.1) = l := by
  induction l generalizing n with
  | nil => rfl
  | cons a l ih => simp [List.zipIdx_cons, ih]

/-- With no store ahead, forwarding gives what storage holds. -/
theorem forward_calm (s : State) (c : CoreId) (asid : Half) (va : Nat) (b : List Byte × List Bool)
    (hf : (s.core c).fifo = []) (hw : s.wrs = []) : s.forward c asid va b = (some b.1, b.2) := by
  have he : s.pendingOf c.die ++ (s.core c).fifo = [] := by simp [State.pendingOf, hf, hw]
  simp only [State.forward, he, List.foldl_nil]
  have h1 : (b.1.zipIdx.map fun x => some x.1).all (·.isSome) = true := by simp
  have h2 : (b.1.zipIdx.map fun x => some x.1).map (·.getD (0 : Byte)) = b.1 := by
    rw [List.map_map]; exact map_fst_zipIdx b.1 0
  have h3 : (b.2.zipIdx.map fun x => x.1) = b.2 := map_fst_zipIdx b.2 0
  rw [if_pos h1, h2, h3]

theorem memBytes_length (m : List Host.Cell) (a n : Nat) : (memBytes m a n).length = n := by
  induction n generalizing a with
  | zero => rfl
  | succ n ih => simp [memBytes, ih]

theorem memBytes_drop (m : List Host.Cell) (a n k : Nat) : (memBytes m a n).drop k = memBytes m (a + k) (n - k) := by
  induction k generalizing a n with
  | zero => simp
  | succ k ih =>
    cases n with
    | zero => simp [memBytes]
    | succ n => simp only [memBytes, List.drop_succ_cons, ih]; congr 1 <;> omega

theorem memBytes_take (m : List Host.Cell) (a n k : Nat) (h : k ≤ n) : (memBytes m a n).take k = memBytes m a k := by
  induction k generalizing a n with
  | zero => simp [memBytes]
  | succ k ih =>
    cases n with
    | zero => omega
    | succ n => simp only [memBytes, List.take_succ_cons]; rw [ih _ _ (by omega)]

/-- Bytes of a run are the bytes at their address. -/
theorem memBytes_part (m : List Host.Cell) (a n k z : Nat) (h : k + z ≤ n) : ((memBytes m a n).drop k).take z = memBytes m (a + k) z := by
  rw [memBytes_drop, memBytes_take _ _ _ _ (by omega)]

/-! ### Slices (R89, R93) -/

/-- Without requests, nothing is write-pending. -/
theorem pendingAt_calm (s : State) (d : Nat) (asid : Half) (va : Nat) (hw : s.wrs = []) : s.pendingAt d asid va = none := by
  unfold State.pendingAt
  split
  · rfl
  · simp [hw]

/-- With no swap under way and no request, the slice holds its replicas. -/
theorem heldAt_replica (s : State) (d : Nat) (asid : Half) (va z : Nat) (hw : s.wrs = []) (hb : s.sup.rtBusy = false) :
    s.heldAt d asid va z = (s.replicaOf d asid va).map (fun r =>
      ((r.data.drop (va % 128)).take z, (List.range z).map (fun k => r.poison.getD ((va % 128 + k) / 4) false))) := by
  simp [State.heldAt, State.swapWait, hb, pendingAt_calm s d asid va hw]

/-- What a slice holds by its tag is what storage holds, when replicas agree with their homes. -/
theorem heldAt_calm (s : State) (d : Nat) (asid : Half) (va z : Nat) (hc : s.Coherent) (hw : s.wrs = []) (hz : va % 128 + z ≤ 128)
    (b : List Byte × List Bool) (h : s.heldAt d asid va z = some b) :
    ∃ r ∈ s.replicas, r.asid = asid ∧ r.va = lineOf va ∧ b = s.marked (r.line + va % 128) z := by
  unfold State.heldAt at h
  split at h
  · cases h
  · rw [pendingAt_calm s d asid va hw] at h
    obtain ⟨r, hr, h⟩ := Option.map_eq_some_iff.mp h
    have hm := List.mem_of_find?_eq_some hr
    have ht := List.find?_some hr
    simp only [Replica.tags, Bool.and_eq_true, beq_iff_eq] at ht
    obtain ⟨h1, h2, h3⟩ := hc r hm
    refine ⟨r, hm, ht.2.1, ht.2.2, ?_⟩
    cases h
    unfold Soc.marked
    rw [h1, memBytes_part _ _ _ _ _ hz]
    congr 1
    apply List.map_congr_left
    intro k hk
    have hk' : k < z := List.mem_range.mp hk
    rw [h2 (va % 128 + k) (by omega), Nat.add_assoc]

/-- t is s but for counts and the collapses that they send (R93, R94). -/
structure State.Counts (s t : State) : Prop where
  eq : { t with regions := s.regions, dies := s.dies, cols := s.cols, seq := s.seq } = s

theorem State.Counts.refl (s : State) : s.Counts s := ⟨rfl⟩
theorem State.Counts.trans {s t u : State} (h : s.Counts t) (k : t.Counts u) : s.Counts u :=
  ⟨(congrArg (fun x : State => ({ x with regions := s.regions, dies := s.dies, cols := s.cols, seq := s.seq } : State)) k.eq).trans h.eq⟩

theorem count_counts (s : State) (d sel n : Nat) : s.Counts (s.count d sel n) := ⟨rfl⟩
theorem modRegion_counts (s : State) (d : Nat) (asid : Half) (va : Nat) (f : Region → Region) : s.Counts (s.modRegion d asid va f) := ⟨rfl⟩

theorem foldl_counts {α : Type} (f : State → α → State) (hf : ∀ (s : State) x, s.Counts (f s x)) (l : List α) (s : State) : s.Counts (l.foldl f s) := by
  induction l generalizing s with
  | nil => exact .refl s
  | cons x l ih => exact (hf s x).trans (ih _)

theorem addCol_counts (s : State) (cs : List Col) : s.Counts { s.bump with cols := cs } := ⟨rfl⟩

theorem sendCollapses_counts (s : State) (wr by_ : Option Nat) (home : Nat) (asid : Half) (va : Nat) (w : Bool) :
    s.Counts (s.sendCollapses wr by_ home asid va w).1 := by
  unfold State.sendCollapses
  dsimp only
  split
  · exact .refl s
  · refine State.Counts.trans ?_ (foldl_counts _ (fun s _ => addCol_counts s _) _ _)
    split
    · exact State.Counts.trans (count_counts s _ _ _) (modRegion_counts (s.count home 0x42 _) _ _ _ _)
    · exact count_counts s _ _ _

theorem collapseRegion_counts (s : State) (r : Region) : s.Counts (s.collapseRegion r) := by
  unfold State.collapseRegion
  exact foldl_counts _ (fun s va => sendCollapses_counts s none none r.die r.asid va false) _ _

theorem windowEnd_counts (s : State) (d : Nat) (asid : Half) (va : Nat) : s.Counts (s.windowEnd d asid va) := by
  unfold State.windowEnd
  dsimp only
  generalize h : s.modRegion d asid va (fun r => { r with reads := 0, writes := 0, collapses := 0 }) = t
  have h0 : s.Counts t := h ▸ modRegion_counts s d asid va _
  split_ifs
  · exact h0
  · exact h0
  · exact ((h0.trans (modRegion_counts t _ _ _ _)).trans (count_counts _ _ _ _)).trans (collapseRegion_counts _ _)
  · exact h0
  · exact (h0.trans (modRegion_counts t _ _ _ _)).trans (count_counts _ _ _ _)
  · exact h0

theorem countAccess_counts (s : State) (home : Nat) (asid : Half) (va : Nat) (f : Region → Region) : s.Counts (s.countAccess home asid va f) := by
  unfold State.countAccess
  dsimp only
  split
  · exact (windowEnd_counts s home asid va).trans (modRegion_counts _ _ _ _ _)
  · exact modRegion_counts s _ _ _ _

/-! ### Reads that a die sends to a home (R93, R94) -/

/-- t with what reading leaves behind as it is in s: replicas, counts and collapses. -/
def State.unread (s t : State) : State :=
  { t with replicas := s.replicas, regions := s.regions, dies := s.dies, cols := s.cols, seq := s.seq }

/-- t is s but for what reading leaves behind. -/
structure State.Reads (s t : State) : Prop where
  eq : s.unread t = s

theorem State.Reads.refl (s : State) : s.Reads s := ⟨rfl⟩
theorem State.Reads.trans {s t u : State} (h : s.Reads t) (k : t.Reads u) : s.Reads u :=
  ⟨(congrArg s.unread k.eq).trans h.eq⟩

theorem State.Counts.reads {s t : State} (h : s.Counts t) : s.Reads t :=
  ⟨(congrArg (fun x : State => ({ x with replicas := s.replicas } : State)) h.eq).trans rfl⟩

/-- A read leaves nothing behind but counts, collapses and one replica of its own line. -/
theorem remoteRead_reads (s : State) (d : Nat) (asid : Half) (va pa : Nat) :
    s.Reads (s.remoteRead d asid va pa) ∧
    ∀ y, lineOf y ≠ lineOf va → (s.remoteRead d asid va pa).replicaOf d asid y = s.replicaOf d asid y := by
  unfold State.remoteRead
  dsimp only
  split
  · exact ⟨.refl s, fun _ _ => rfl⟩
  · split
    · exact ⟨(count_counts s _ _ _).reads, fun _ _ => rfl⟩
    · generalize h : s.countAccess (homeDie s.mode s.sup.active va) asid va (fun r => { r with reads := r.reads + 1 }) = t
      have ht : s.Counts t := h ▸ countAccess_counts s _ _ _ _
      have hr : t.replicas = s.replicas := congrArg (·.replicas) ht.eq
      split
      · refine ⟨ht.reads.trans ⟨rfl⟩, fun y hy => ?_⟩
        have hn : ¬ lineOf va = lineOf y := fun e => hy e.symm
        simp [State.replicaOf, hr, Replica.tags, State.newReplica, List.find?_append, hn]
      · refine ⟨ht.reads, fun y _ => ?_⟩
        simp [State.replicaOf, hr]

/-! ### One line access, and the loads of an instruction (R230) -/

/-- t is s but for what reading leaves behind, and the progress of the instruction, which waits for no request. -/
structure State.Like (s t : State) : Prop where
  eq : (s.unread t).modMe (fun g => { g with phase := s.me.phase }) = s
  req : t.me.phase.req = none

theorem State.Like.refl {s : State} (h : s.Calm) : s.Like s := ⟨rfl, by rw [h.2.2.2.2.1]; rfl⟩

theorem State.Like.reads {s t u : State} (h : s.Like t) (k : t.Reads u) : s.Like u ∧ u.me = t.me := by
  have hm : u.me = t.me := congrArg (·.me) k.eq
  refine ⟨⟨?_, by rw [hm]; exact h.req⟩, hm⟩
  exact (congrArg (fun x : State => (s.unread x).modMe (fun g => { g with phase := s.me.phase })) k.eq).trans h.eq

/-- What loads ask of a state is the same after reading. -/
structure State.Same (s t : State) : Prop where
  wrs : t.wrs = []
  fifo : (t.core t.me.loc.core).fifo = []
  loc : t.me.loc = s.me.loc
  asid : t.me.asid = s.me.asid
  active : t.sup.active = s.sup.active
  busy : t.sup.rtBusy = false
  pace : t.pace = none
  marked : ∀ a z, t.marked a z = s.marked a z
  tr : ∀ acc va, translate t.toSoc t.me.super acc t.me.asid va = translate s.toSoc s.me.super acc s.me.asid va

theorem State.Like.same {s t : State} (h : s.Like t) (hs : s.Calm) : s.Same t := by
  obtain ⟨hf, hw, -, hb, -, hp⟩ := hs
  have he := fun {α : Type} (f : State → α) => congrArg f h.eq
  have hl : t.me.loc = s.me.loc := he (·.me.loc)
  have hc : (t.core s.me.loc.core).fifo = [] := (he (fun x => (x.core s.me.loc.core).fifo)).trans hf
  exact ⟨(he (·.wrs)).trans hw, by rw [hl]; exact hc, hl, he (·.me.asid), he (·.sup.active), (he (·.sup.rtBusy)).trans hb,
    (he (·.pace)).trans hp, fun a z => he (·.marked a z), fun acc va => he (fun x => translate x.toSoc x.me.super acc x.me.asid va)⟩

theorem serveLanes_calm (s : State) (z : Nat) (g : List LaneAt) (base : Nat → List Byte × List Bool) (f : State → State)
    (hf : (s.core s.me.loc.core).fifo = []) (hw : s.wrs = []) :
    s.serveLanes z g base f = (f s, .done (g.map fun x => (x.1, base x.2.toNat))) := by
  unfold State.serveLanes
  simp only [forward_calm _ _ _ _ _ hf hw]
  have : (g.map fun x => (x.1, x.2.toNat, (some (base x.2.toNat).1, (base x.2.toNat).2))).find? (fun r => r.2.2.1.isNone) = none := by
    simp
  simp [this]

/-- The addresses that an access of the current thread group reaches. -/
theorem loadAt_cases (s : State) (va a : Nat) (h : s.loadAt va = some a) :
    (isWindow va = true ∧ (winOf va).kind < 2 ∧ a = va) ∨
    (isWindow va = false ∧ ((translate s.toSoc s.me.super .load s.me.asid va = .phys a) ∨
      ∃ b unc, translate s.toSoc s.me.super .load s.me.asid va = .host b unc ∧ a = hostExt b)) := by
  unfold State.loadAt at h
  split at h
  · rename_i hw
    split at h
    · rename_i hk
      cases h
      exact .inl ⟨hw, hk, rfl⟩
    · cases h
  · rename_i hw
    refine .inr ⟨by simpa using hw, ?_⟩
    split at h
    · rename_i pa ht
      cases h
      exact .inl ht
    · rename_i b unc ht
      cases h
      exact .inr ⟨b, unc, ht, rfl⟩
    · cases h

theorem isWindow_line {x y : Nat} (h : lineOf x = lineOf y) : isWindow x = isWindow y := by
  unfold lineOf at h
  unfold isWindow
  simp only [decide_eq_decide]
  omega

theorem replicaOf_line (s : State) (d : Nat) (asid : Half) {x y : Nat} (h : lineOf x = lineOf y) :
    s.replicaOf d asid x = s.replicaOf d asid y := by
  unfold State.replicaOf Replica.tags
  rw [h]

theorem heldAt_isSome (s : State) (d : Nat) (asid : Half) (va z : Nat) (hw : s.wrs = []) (hb : s.sup.rtBusy = false) :
    (s.heldAt d asid va z).isSome = (s.replicaOf d asid va).isSome := by
  rw [heldAt_replica s d asid va z hw hb, Option.isSome_map]

theorem heldAt_congr (s t : State) (d : Nat) (asid : Half) (va z : Nat) (hs : s.wrs = []) (ht : t.wrs = [])
    (hr : t.replicaOf d asid va = s.replicaOf d asid va) (hb : s.sup.rtBusy = false) (hc : t.sup.rtBusy = false) :
    t.heldAt d asid va z = s.heldAt d asid va z := by
  rw [heldAt_replica s d asid va z hs hb, heldAt_replica t d asid va z ht hc, hr]

/-- One line access in a calm state: every lane has the bytes of its storage, and lines of other accesses keep their replicas. -/
theorem loadLine_calm (s t : State) (z : Nat) (A : W64 → Nat) (x : LaneAt) (g : List LaneAt) (hs : s.Calm) (ht : s.Like t)
    (hz : z = 1 ∨ z = 2 ∨ z = 4 ∨ z = 8)
    (hg : ∀ y ∈ x :: g, y.2.toNat % z = 0 ∧ s.loadAt y.2.toNat = some (A y.2) ∧
      t.replicaOf s.me.loc.core.die s.me.asid y.2.toNat = s.replicaOf s.me.loc.core.die s.me.asid y.2.toNat)
    (hu : ∀ y ∈ g, t.sameUnit x.2.toNat y.2.toNat = true) :
    ∃ u, t.loadLine z (x :: g) = (u, .done ((x :: g).map fun y => (y.1, s.marked (A y.2) z))) ∧ s.Like u ∧ u.me = t.me ∧
      ∀ y, t.sameUnit x.2.toNat y = false → u.replicaOf s.me.loc.core.die s.me.asid y = t.replicaOf s.me.loc.core.die s.me.asid y := by
  have hS := ht.same hs
  have hline : ∀ y ∈ x :: g, lineOf x.2.toNat = lineOf y.2.toNat := by
    intro y hy
    rcases List.mem_cons.mp hy with rfl | hy
    · rfl
    · have := hu y hy
      unfold State.sameUnit at this
      simp only [Bool.and_eq_true, beq_iff_eq] at this
      exact this.1
  have hfit : ∀ y ∈ x :: g, y.2.toNat % 128 + z ≤ 128 := by
    intro y hy
    have := (hg y hy).1
    rcases hz with rfl | rfl | rfl | rfl <;> omega
  have hmap : ∀ base : Nat → List Byte × List Bool, (∀ y ∈ x :: g, base y.2.toNat = s.marked (A y.2) z) →
      (x :: g).map (fun y => (y.1, base y.2.toNat)) = (x :: g).map fun y => (y.1, s.marked (A y.2) z) :=
    fun base hb => List.map_congr_left fun y hy => by rw [hb y hy]
  have hother : ∀ u, t.Reads u → (∀ y, lineOf y ≠ lineOf x.2.toNat →
      u.replicaOf s.me.loc.core.die s.me.asid y = t.replicaOf s.me.loc.core.die s.me.asid y) →
      (∀ y, t.sameUnit x.2.toNat y = false → lineOf y = lineOf x.2.toNat →
        u.replicaOf s.me.loc.core.die s.me.asid y = t.replicaOf s.me.loc.core.die s.me.asid y) →
      s.Like u ∧ u.me = t.me ∧
        ∀ y, t.sameUnit x.2.toNat y = false → u.replicaOf s.me.loc.core.die s.me.asid y = t.replicaOf s.me.loc.core.die s.me.asid y := by
    intro u hr h1 h2
    refine ⟨(ht.reads hr).1, (ht.reads hr).2, fun y hy => ?_⟩
    by_cases hl : lineOf y = lineOf x.2.toNat
    · exact h2 y hy hl
    · exact h1 y hl
  have hx := hg x (List.mem_cons_self ..)
  unfold State.loadLine
  simp only [ht.req, List.head?_cons, Option.map_some, Option.getD_some]
  rcases loadAt_cases s _ _ hx.2.1 with ⟨hwin, hk, -⟩ | ⟨hwin, htr⟩
  · -- a window
    have h2 : ¬ (winOf x.2.toNat).kind = 2 := by omega
    have h3 : ¬ 2 < (winOf x.2.toNat).kind := by omega
    refine ⟨t, ?_, hother t (.refl t) (fun _ _ => rfl) (fun _ _ _ => rfl)⟩
    simp only [hwin, if_true, h2, h3, if_false, serveLanes_calm _ _ _ _ _ hS.fifo hS.wrs]
    rw [hmap (fun a => t.marked a z)]
    · rfl
    · intro y hy
      rw [hS.marked]
      rcases loadAt_cases s _ _ (hg y hy).2.1 with ⟨-, -, h⟩ | ⟨h, -⟩
      · rw [h]
      · rw [← isWindow_line (hline y hy), hwin] at h; cases h
  · simp only [hwin, Bool.false_eq_true, if_false]
    have hheld : ∀ y ∈ x :: g, t.heldAt t.me.loc.core.die t.me.asid y.2.toNat z = s.heldAt s.me.loc.core.die s.me.asid y.2.toNat z := by
      intro y hy
      rw [hS.loc, hS.asid]
      exact heldAt_congr s t _ _ _ _ hs.2.1 hS.wrs (hg y hy).2.2 hs.2.2.2.1 hS.busy
    have hx' := hheld x (List.mem_cons_self ..)
    by_cases hh : (s.heldAt s.me.loc.core.die s.me.asid x.2.toNat z).isSome = true
    · -- the slice holds the line
      have hh' := hh
      rw [← hx'] at hh'
      simp only [hh', if_true, serveLanes_calm _ _ _ _ _ hS.fifo hS.wrs]
      obtain ⟨hr, hd⟩ := remoteRead_reads t t.me.loc.core.die t.me.asid x.2.toNat 0
      refine ⟨_, ?_, hother _ hr ?_ ?_⟩
      · rw [hmap (fun a => (t.heldAt t.me.loc.core.die t.me.asid a z).getD ([], []))]
        intro y hy
        rw [hheld y hy]
        have hy' : (s.heldAt s.me.loc.core.die s.me.asid y.2.toNat z).isSome = true := by
          rw [heldAt_isSome _ _ _ _ _ hs.2.1 hs.2.2.2.1] at hh ⊢
          rwa [← replicaOf_line s _ _ (hline y hy)]
        obtain ⟨b, hb⟩ := Option.isSome_iff_exists.mp hy'
        rw [hb, Option.getD_some]
        obtain ⟨r, hrm, hra, hrv, hrb⟩ := heldAt_calm s _ _ _ _ hs.2.2.1 hs.2.1 (hfit y hy) b hb
        rw [hrb]
        have h3 := (hs.2.2.1 r hrm).2.2 s.me.super y.2.toNat hrv.symm
        rw [hra] at h3
        rcases loadAt_cases s _ _ (hg y hy).2.1 with ⟨h, -, -⟩ | ⟨-, h | ⟨b', unc, h, -⟩⟩
        · rw [← isWindow_line (hline y hy), hwin] at h; cases h
        · rw [h] at h3; rw [← h3]
        · rw [h] at h3; exact h3.elim
      · intro y hy
        simpa only [hS.loc, hS.asid] using hd y hy
      · intro y hy hl
        rw [heldAt_isSome _ _ _ _ _ hs.2.1 hs.2.2.2.1] at hh
        have hsome : (t.replicaOf t.me.loc.core.die t.me.asid x.2.toNat).isSome = true := by
          rw [hS.loc, hS.asid, hx.2.2]; exact hh
        unfold State.remoteRead
        simp only [hsome, if_true]
        split
        · rfl
        · rfl
    · have hh' := hh
      rw [← hx'] at hh'
      simp only [hh', hS.tr]
      have hback : ∀ y ∈ x :: g, t.backing z y.2.toNat = s.marked (A y.2) z := by
        intro y hy
        unfold State.backing
        rw [hS.tr]
        rcases loadAt_cases s _ _ (hg y hy).2.1 with ⟨h, -, -⟩ | ⟨-, h | ⟨b', unc, h, h'⟩⟩
        · rw [← isWindow_line (hline y hy), hwin] at h; cases h
        · rw [h]; exact hS.marked _ _
        · rw [h, h']; exact hS.marked _ _
      rcases htr with htr | ⟨b, unc, htr, -⟩
      · have hq : (t.swapWait x.2.toNat || isNocache t.sup.active x.2.toNat && t.aliasHeld t.me.loc.core t.me.asid x.2.toNat (A x.2)) = false := by
          simp [State.swapWait, hS.busy, State.aliasHeld, hS.fifo]
        simp only [htr, hq, Bool.false_eq_true, if_false, serveLanes_calm _ _ _ _ _ hS.fifo hS.wrs, hmap _ hback]
        obtain ⟨hr, hd⟩ := remoteRead_reads t t.me.loc.core.die t.me.asid x.2.toNat (A x.2)
        refine ⟨_, rfl, hother _ hr ?_ ?_⟩
        · intro y hy
          simpa only [hS.loc, hS.asid] using hd y hy
        · intro y hy hl
          exfalso
          unfold State.sameUnit at hy
          rw [hS.tr, htr] at hy
          simp [hl] at hy
      · simp only [htr, serveLanes_calm _ _ _ _ _ hS.fifo hS.wrs, hmap _ hback]
        exact ⟨t, rfl, hother t (.refl t) (fun _ _ => rfl) (fun _ _ _ => rfl)⟩

/-- The results of lanes, each under its number, in any order. -/
theorem kfind_perm {α : Type} (l : KMap Nat α) (h : (l.map (·.1)).Nodup) (k : Nat) (v : α) (hm : (k, v) ∈ l) : kfind k l = some v := by
  induction l with
  | nil => cases hm
  | cons p l ih =>
    obtain ⟨k', v'⟩ := p
    simp only [List.map_cons, List.nodup_cons] at h
    unfold kfind
    rcases List.mem_cons.mp hm with hm | hm
    · cases hm; rw [if_pos rfl]
    · split
      · rename_i hk
        subst hk
        exact absurd (List.mem_map.mpr ⟨_, hm, rfl⟩) h.1
      · exact ih h.2 hm

/-- The line accesses of one load in a calm state: each lane has the bytes of its storage. -/
theorem loadLoop_calm (s : State) (z : Nat) (A : W64 → Nat) (hs : s.Calm) (hz : z = 1 ∨ z = 2 ∨ z = 4 ∨ z = 8) (n : Nat) :
    ∀ (l : List LaneAt) (t : State), l.length ≤ n → s.Like t →
    (∀ y ∈ l, y.2.toNat % z = 0 ∧ s.loadAt y.2.toNat = some (A y.2) ∧
      t.replicaOf s.me.loc.core.die s.me.asid y.2.toNat = s.replicaOf s.me.loc.core.die s.me.asid y.2.toNat) →
    ∃ u rs, State.loadLoop z n t l = (u, some ()) ∧ s.Like u ∧ u.me.phase.acc = t.me.phase.acc ++ rs ∧
      rs.Perm (l.map fun y => (y.1, s.marked (A y.2) z)) := by
  induction n with
  | zero =>
    intro l t hl ht _
    cases l with
    | nil => exact ⟨t, [], rfl, ht, by simp, .refl _⟩
    | cons x r => simp at hl
  | succ n ih =>
    intro l t hl ht h
    cases l with
    | nil => exact ⟨t, [], rfl, ht, by simp, .refl _⟩
    | cons x r =>
      let same := fun (y : LaneAt) => t.sameUnit x.2.toNat y.2.toNat
      have hsub : ∀ y ∈ x :: r.filter same, y ∈ x :: r := by
        intro y hy
        rcases List.mem_cons.mp hy with rfl | hy
        · exact List.mem_cons_self ..
        · exact List.mem_cons_of_mem _ (List.mem_filter.mp hy).1
      obtain ⟨u, hu, hlike, hme, hrep⟩ := loadLine_calm s t z A x (r.filter same) hs ht hz (fun y hy => h y (hsub y hy))
        (fun y hy => (List.mem_filter.mp hy).2)
      have hperm : ((x :: r.filter same) ++ r.filter (fun y => !same y)).Perm (x :: r) :=
        .cons x (List.filter_append_perm same r)
      let rs := (x :: r.filter same).map fun y => (y.1, s.marked (A y.2) z)
      have hk : s.Like (u.keepLanes rs) := ⟨hlike.eq, hlike.req⟩
      have hacc : (u.keepLanes rs).me.phase.acc = t.me.phase.acc ++ rs := by
        show u.me.phase.acc ++ rs = _
        rw [hme]
      unfold State.loadLoop
      simp only [State.firstUnit]
      rw [hu]
      dsimp only
      change ∃ w qs, (if r.filter (fun y => !same y) = [] then (u.keepLanes rs, some ()) else
        (u.keepLanes rs).paced fun s => State.loadLoop z n s (r.filter fun y => !same y)) = (w, some ()) ∧ s.Like w ∧
          w.me.phase.acc = t.me.phase.acc ++ qs ∧ qs.Perm ((x :: r).map fun y => (y.1, s.marked (A y.2) z))
      by_cases hr : r.filter (fun y => !same y) = []
      · rw [if_pos hr]
        refine ⟨_, rs, rfl, hk, hacc, ?_⟩
        rw [hr, List.append_nil] at hperm
        exact hperm.map _
      · rw [if_neg hr]
        have hp : (u.keepLanes rs).pace = none := (hk.same hs).pace
        unfold State.paced
        rw [hp]
        dsimp only
        have hlen : (r.filter (fun y => !same y)).length ≤ n :=
          le_trans (List.length_filter_le ..) (by simpa using hl)
        obtain ⟨w, rs', hw, hwl, hwa, hwp⟩ := ih _ _ hlen hk (fun y hy => by
          obtain ⟨hy1, hy2⟩ := List.mem_filter.mp hy
          obtain ⟨h1, h2, h3⟩ := h y (List.mem_cons_of_mem _ hy1)
          refine ⟨h1, h2, ?_⟩
          have : u.replicaOf s.me.loc.core.die s.me.asid y.2.toNat = _ := hrep y.2.toNat (by simpa [same] using hy2)
          exact this.trans h3)
        refine ⟨w, rs ++ rs', hw, hwl, ?_, ?_⟩
        · rw [hwa, hacc, List.append_assoc]
        · refine ((hwp.append_left rs).trans ?_)
          rw [← List.map_append]
          exact hperm.map _

/-- The loads of an instruction in a calm state: each lane has the bytes of its storage and their poison. -/
theorem loadAll_calm (s : State) (z : Nat) (A : W64 → Nat) (hs : s.Calm) (hz : z = 1 ∨ z = 2 ∨ z = 4 ∨ z = 8) (as_ : List W64)
    (hx : ∀ x ∈ as_, x.toNat % z = 0 ∧ s.loadAt x.toNat = some (A x)) :
    ∃ u, s.loadAll z as_ = (u, some (as_.map fun x => s.marked (A x) z)) ∧ s.Like u := by
  have hph := hs.2.2.2.2.1
  have hacc : s.me.phase.acc = [] := by rw [hph]; rfl
  let todo : List LaneAt := (as_.zipIdx).map (fun x => (x.2, x.1))
  have htodo : ((as_.zipIdx).map (fun x => ((x.2, x.1) : LaneAt))).filter (fun x => (kfind x.1 s.me.phase.acc).isNone) = todo := by
    rw [hacc]
    exact List.filter_eq_self.mpr fun _ _ => rfl
  have hmem : ∀ y ∈ todo, y.2 ∈ as_ := by
    intro y hy
    obtain ⟨p, hp, rfl⟩ := List.mem_map.mp hy
    exact (List.mem_zipIdx' hp).2 ▸ List.getElem_mem _
  have hfault : s.loadFault z todo = none := by
    unfold State.loadFault
    dsimp only
    rw [Option.map_eq_none_iff, List.find?_eq_none]
    intro y hy
    have h2 := (hx y.2 (hmem y hy)).2
    rcases loadAt_cases s _ _ h2 with ⟨h, -, -⟩ | ⟨-, h | ⟨b, unc, h, -⟩⟩
    · simp [h]
    · simp [h, Tr.fails]
    · simp [h, Tr.fails]
  obtain ⟨u, rs, hu, hlike, ha, hp⟩ := loadLoop_calm s z A hs hz todo.length todo s le_rfl (.refl hs)
    (fun y hy => ⟨(hx _ (hmem y hy)).1, (hx _ (hmem y hy)).2, rfl⟩)
  refine ⟨u, ?_, hlike⟩
  unfold State.loadAll
  simp only [htodo, hfault, ite_self, hu]
  congr 2
  rw [hacc, List.nil_append] at ha
  have hkeys : (rs.map (·.1)).Nodup := by
    rw [(hp.map (·.1)).nodup_iff, List.map_map]
    have : ((fun x => x.1) ∘ fun (y : LaneAt) => (y.1, s.marked (A y.2) z)) = fun (y : LaneAt) => y.1 := rfl
    rw [this, List.map_map]
    have h2 : ((fun (y : LaneAt) => y.1) ∘ fun (x : W64 × Nat) => ((x.2, x.1) : LaneAt)) = fun x => x.2 := rfl
    rw [h2, List.zipIdx_map_snd]
    exact List.nodup_range'
  apply List.ext_getElem
  · simp
  · intro i h1 h2
    simp only [List.getElem_map, List.getElem_range]
    have hi : i < as_.length := by simpa using h2
    unfold kget
    rw [ha, kfind_perm rs hkeys i (s.marked (A as_[i]) z)]
    · rfl
    · rw [hp.mem_iff, List.mem_map]
      refine ⟨(i, as_[i]), ?_, rfl⟩
      rw [List.mem_map]
      exact ⟨(as_[i], i), by rw [List.mem_zipIdx_iff_getElem?]; simp [hi], rfl⟩

/-- The group ends: nothing is left of the instruction's progress. -/
theorem State.Like.readsTo {s u : State} (f : TG → TG) (h : s.Like u) (hf : ∀ (g : TG) (p : Phase), f { g with phase := p } = { f g with phase := p }) :
    s.readsTo ({ u with me := (f u.me).advance }) f := by
  have hm : ({ u.me with phase := s.me.phase } : TG) = s.me := congrArg (·.me) h.eq
  have hadv : ∀ (g : TG) (p : Phase), ({ g with phase := p } : TG).advance = g.advance := fun _ _ => rfl
  have hme : (f u.me).advance = (f s.me).advance := by
    have h2 := hf u.me s.me.phase
    rw [hm] at h2
    rw [h2]
    rfl
  unfold State.readsTo State.ends
  rw [hme]
  exact congrArg (fun x : State => ({ x with me := (f s.me).advance } : State)) h.eq

end Sys2Proof.Machine
end

