-- ==== Sys2Proof/Laws/Round.lean ====
section
/-! SUPPORT. Rounding to FP32 (R118): the value of a code's magnitude, what one rounding gives of a number, the places of the codes in the
order of their values, and what a choice within a bound of an exact value is (R219). -/

namespace Sys2Proof.Machine

theorem fp32_codes : FFmt.fp32.mb = 23 ∧ FFmt.fp32.umin = -149 ∧ FFmt.fp32.infCode = 255 * 2 ^ 23 ∧ FFmt.fp32.maxCode = 255 * 2 ^ 23 - 1 ∧
    FFmt.fp32.signBit = 2 ^ 31 := by decide

/-- The value of a magnitude of FP32 codes, with no bound above. -/
def magRat (c : Nat) : Rat := if c < 2 ^ 23 then c * 2 ^ (-149 : ℤ) else ((2 ^ 23 + c % 2 ^ 23 : ℕ) : Rat) * 2 ^ (((c / 2 ^ 23 : ℕ) : ℤ) - 150)

/-- k units of 2^(j - 149), as the code writes it. -/
theorem magRat_unit (j k : Nat) (h : k ≤ 2 ^ 24) (hj : j = 0 ∨ 2 ^ 23 ≤ k) : magRat (k + j * 2 ^ 23) = k * 2 ^ ((j : ℤ) - 149) := by
  unfold magRat
  by_cases hk : k < 2 ^ 23
  · obtain rfl := hj.resolve_right (by omega)
    rw [if_pos (by omega)]
    simp
  · rw [if_neg (by omega)]
    by_cases hk2 : k < 2 ^ 24
    · have h1 : (k + j * 2 ^ 23) / 2 ^ 23 = j + 1 := by omega
      have h2 : 2 ^ 23 + (k + j * 2 ^ 23) % 2 ^ 23 = k := by omega
      rw [h1, h2]
      congr 2
      push_cast
      ring
    · obtain rfl : k = 2 ^ 24 := by omega
      have h1 : (2 ^ 24 + j * 2 ^ 23) / 2 ^ 23 = j + 2 := by omega
      have h2 : 2 ^ 23 + (2 ^ 24 + j * 2 ^ 23) % 2 ^ 23 = 2 ^ 23 := by omega
      rw [h1, h2, show (((j + 2 : ℕ) : ℤ) - 150) = 1 + ((j : ℤ) - 149) by push_cast; ring, zpow_add₀ (by norm_num)]
      push_cast
      ring

theorem magRat_strictMono : StrictMono magRat := by
  refine strictMono_nat_of_lt_succ fun c => ?_
  obtain ⟨j, k, hc, hk, hj⟩ : ∃ j k, c = k + j * 2 ^ 23 ∧ k < 2 ^ 24 ∧ (j = 0 ∨ 2 ^ 23 ≤ k) := by
    by_cases h : c < 2 ^ 23
    · exact ⟨0, c, by omega, by omega, .inl rfl⟩
    · exact ⟨c / 2 ^ 23 - 1, 2 ^ 23 + c % 2 ^ 23, by omega, by omega, .inr (by omega)⟩
  have h1 := magRat_unit j k hk.le hj
  have h2 := magRat_unit j (k + 1) (by omega) (hj.imp_right (by omega))
  rw [hc, show k + j * 2 ^ 23 + 1 = k + 1 + j * 2 ^ 23 by ring, h1, h2]
  have : (0 : Rat) < 2 ^ ((j : ℤ) - 149) := by positivity
  push_cast
  nlinarith

theorem magRat_nonneg (c : Nat) : 0 ≤ magRat c := by
  unfold magRat
  split <;> positivity

theorem magRat_inf : magRat (255 * 2 ^ 23) = 2 ^ 128 := by
  have h := magRat_unit 253 (2 ^ 24) le_rfl (.inr (by norm_num))
  rw [show 255 * 2 ^ 23 = 2 ^ 24 + 253 * 2 ^ 23 by norm_num, h]
  norm_num

/-! ### Rounding to a unit -/

/-- m / 2^sh and its rounding: the floor, or with a remainder the next integer. -/
theorem roundShift_cases (r : Rnd) (neg : Bool) (m sh : Nat) :
    roundShift r neg m sh = m / 2 ^ sh ∨ (roundShift r neg m sh = m / 2 ^ sh + 1 ∧ m % 2 ^ sh ≠ 0) := by
  have hp : 0 < 2 ^ sh := by positivity
  unfold roundShift
  cases r <;> simp only
  · split
    · refine .inr ⟨rfl, fun h => ?_⟩
      rename_i hu
      simp only [h, Nat.mul_zero, Bool.or_eq_true, Bool.and_eq_true, decide_eq_true_eq, beq_iff_eq] at hu
      omega
    · exact .inl rfl
  · exact .inl rfl
  all_goals
    split
    · rename_i hu
      simp only [Bool.and_eq_true, bne_iff_ne] at hu
      exact .inr ⟨rfl, hu.1⟩
    · exact .inl rfl

/-- What rounding to a multiple of 2^u gives for the exact multiple t. -/
structure Rounds (r : Rnd) (neg : Bool) (t : Rat) (k : Nat) : Prop where
  low : (k : Rat) < t + 1
  high : t < k + 1
  down : r = .rdn ∧ neg = false ∨ r = .rup ∧ neg = true → (k : Rat) ≤ t
  up : r = .rdn ∧ neg = true ∨ r = .rup ∧ neg = false → t ≤ k
  near : r = .rne → |(k : Rat) - t| ≤ 1 / 2

theorem rounds_exact (r : Rnd) (neg : Bool) (k : Nat) : Rounds r neg k k :=
  ⟨by linarith, by linarith, fun _ => le_rfl, fun _ => le_rfl, fun _ => by norm_num⟩

theorem rounds_shift (r : Rnd) (neg : Bool) (m sh : Nat) : Rounds r neg (m / 2 ^ sh) (roundShift r neg m sh) := by
  obtain ⟨q, x, hq, hx, hm, hlt⟩ : ∃ q x, q = m / 2 ^ sh ∧ x = m % 2 ^ sh ∧ m = q * 2 ^ sh + x ∧ x < 2 ^ sh :=
    ⟨_, _, rfl, rfl, by rw [mul_comm]; exact (Nat.div_add_mod _ _).symm, Nat.mod_lt _ (by positivity)⟩
  have hp : (0 : Rat) < 2 ^ sh := by positivity
  obtain ⟨f, hf⟩ : ∃ f : Rat, f = x / 2 ^ sh := ⟨_, rfl⟩
  have ht : (m : Rat) / 2 ^ sh = q + f := by
    rw [hf, hm]
    push_cast
    field_simp
  have hf0 : 0 ≤ f := by rw [hf]; positivity
  have hf1 : f < 1 := by rw [hf, div_lt_one hp]; exact_mod_cast hlt
  have hfx : f * 2 ^ sh = x := by rw [hf]; field_simp
  have hpos : x ≠ 0 → 0 < f := fun h => by rw [hf]; exact div_pos (by exact_mod_cast Nat.pos_of_ne_zero h) hp
  have hz : x = 0 → f = 0 := fun h => by rw [hf, h]; simp
  rw [ht]
  have key : ∀ up : Bool, roundShift r neg m sh = (if up then q + 1 else q) → (up = true → x ≠ 0) →
      (r = .rdn ∧ neg = false ∨ r = .rup ∧ neg = true → up = false) →
      (r = .rdn ∧ neg = true ∨ r = .rup ∧ neg = false → up = false → x = 0) →
      (r = .rne → (up = true → (1 / 2 : Rat) ≤ f) ∧ (up = false → f ≤ 1 / 2)) → Rounds r neg (q + f) (roundShift r neg m sh) := by
    intro up hk h1 h2 h3 h4
    rw [hk]
    cases up
    · refine ⟨?_, ?_, fun _ => ?_, fun h => ?_, fun h => ?_⟩ <;> simp only [Bool.false_eq_true, if_false]
      · linarith
      · linarith
      · linarith
      · rw [hz (h3 h rfl)]; linarith
      · rw [abs_le]; constructor <;> linarith [(h4 h).2 rfl]
    · have := hpos (h1 rfl)
      refine ⟨?_, ?_, fun h => ?_, fun _ => ?_, fun h => ?_⟩ <;> simp only [if_true] <;> push_cast
      · linarith
      · linarith
      · cases h2 h
      · linarith
      · rw [abs_le]; constructor <;> linarith [(h4 h).1 rfl]
  have hr : (2 ^ sh < 2 * x → (1 / 2 : Rat) ≤ f) ∧ (2 * x ≤ 2 ^ sh → f ≤ 1 / 2) ∧ (2 * x = 2 ^ sh → (1 / 2 : Rat) ≤ f) := by
    refine ⟨fun h => ?_, fun h => ?_, fun h => ?_⟩
    · have : (2 : Rat) ^ sh < 2 * x := by exact_mod_cast h
      nlinarith
    · have : 2 * (x : Rat) ≤ 2 ^ sh := by exact_mod_cast h
      nlinarith
    · have : 2 * (x : Rat) = 2 ^ sh := by exact_mod_cast h
      nlinarith
  cases r
  · refine key (decide (2 ^ sh < 2 * x) || (2 * x == 2 ^ sh && q % 2 == 1)) (by rw [hq, hx]; rfl) ?_ (by simp) (by simp) fun _ => ?_
    · simp only [Bool.or_eq_true, Bool.and_eq_true, decide_eq_true_eq, beq_iff_eq]
      have : 0 < 2 ^ sh := by positivity
      omega
    · simp only [Bool.or_eq_true, Bool.and_eq_true, decide_eq_true_eq, beq_iff_eq, Bool.or_eq_false_iff, decide_eq_false_iff_not, not_lt]
      exact ⟨fun h => h.elim hr.1 fun h => hr.2.2 h.1, fun h => hr.2.1 h.1⟩
  · exact key false (by rw [hq]; rfl) (by simp) (by simp) (by simp) (by simp)
  · refine key (x != 0 && !neg) (by rw [hq, hx]; rfl) (by intro h; simp at h; exact h.1) (by cases neg <;> simp) ?_ (by simp)
    cases neg <;> simp
  · refine key (x != 0 && neg) (by rw [hq, hx]; rfl) (by intro h; simp at h; exact h.1) (by cases neg <;> simp) ?_ (by simp)
    cases neg <;> simp

theorem toUnit_rounds (r : Rnd) (neg : Bool) (m : Nat) (e u : Int) : Rounds r neg (m * 2 ^ (e - u)) (toUnit r neg m e u) := by
  unfold toUnit
  split
  · rename_i h
    have he : (2 : Rat) ^ (e - u) = 2 ^ (e - u).toNat := by
      rw [← zpow_natCast, Int.toNat_of_nonneg (by omega)]
    have := rounds_exact r neg (m * 2 ^ (e - u).toNat)
    rw [he]
    push_cast at this
    exact this
  · rename_i h
    have he : (m : Rat) * 2 ^ (e - u) = m / 2 ^ (u - e).toNat := by
      rw [show e - u = -((u - e).toNat : ℤ) by omega, zpow_neg, zpow_natCast, div_eq_mul_inv]
    rw [he]
    exact rounds_shift r neg m _

/-! ### The magnitude of a code -/

/-- The unit to which a magnitude rounds. -/
def unitExp (m : Nat) (e : Int) : Int := max (binade m e - 23) (-149)

theorem binade_le (m : Nat) (e : Int) (h : m ≠ 0) : (2 : Rat) ^ binade m e ≤ m * 2 ^ e ∧ (m : Rat) * 2 ^ e < 2 ^ (binade m e + 1) := by
  have h1 : 2 ^ m.log2 ≤ m := Nat.log2_self_le h
  have h2 : m < 2 ^ (m.log2 + 1) := Nat.lt_log2_self
  have hp : (0 : Rat) < 2 ^ e := by positivity
  have e1 : (2 : Rat) ^ binade m e = (2 ^ m.log2 : ℕ) * 2 ^ e := by
    unfold binade
    rw [zpow_add₀ (by norm_num), zpow_natCast]
    push_cast
    ring
  have e2 : (2 : Rat) ^ (binade m e + 1) = (2 ^ (m.log2 + 1) : ℕ) * 2 ^ e := by
    rw [zpow_add₀ (by norm_num), e1, zpow_one]
    push_cast
    ring
  rw [e1, e2]
  constructor
  · exact mul_le_mul_of_nonneg_right (by exact_mod_cast h1) hp.le
  · exact mul_lt_mul_of_pos_right (by exact_mod_cast h2) hp

/-- The magnitude of the code is the value rounded to its unit. -/
theorem magCode_rounds (r : Rnd) (neg : Bool) (m : Nat) (e : Int) (h : m ≠ 0) :
    ∃ k : Nat, Rounds r neg (m * 2 ^ e / 2 ^ unitExp m e) k ∧ magRat (magCode r neg 23 (-149) m e) = k * 2 ^ unitExp m e := by
  obtain ⟨hb1, hb2⟩ := binade_le m e h
  have hr := toUnit_rounds r neg m e (unitExp m e)
  have ht : (m : Rat) * 2 ^ (e - unitExp m e) = m * 2 ^ e / 2 ^ unitExp m e := by
    rw [zpow_sub₀ (by norm_num), mul_div_assoc]
  refine ⟨toUnit r neg m e (unitExp m e), ht ▸ hr, ?_⟩
  obtain ⟨j, hj⟩ : ∃ j : ℕ, (j : ℤ) = unitExp m e + 149 := ⟨(unitExp m e + 149).toNat, Int.toNat_of_nonneg (by unfold unitExp; omega)⟩
  have hc : magCode r neg 23 (-149) m e = toUnit r neg m e (unitExp m e) + j * 2 ^ 23 := by
    unfold magCode
    rw [if_neg h]
    show toUnit r neg m e (unitExp m e) + (unitExp m e - -149).toNat * 2 ^ 23 = _
    congr 2
    omega
  have hu : (0 : Rat) < 2 ^ (e - unitExp m e) := by positivity
  have hhi : (m : Rat) * 2 ^ (e - unitExp m e) < 2 ^ 24 := by
    rw [ht, div_lt_iff₀ (by positivity)]
    refine hb2.trans_le ?_
    rw [← zpow_natCast (2 : Rat) 24, ← zpow_add₀ (by norm_num)]
    exact zpow_le_zpow_right₀ (by norm_num) (by unfold unitExp; omega)
  have hk : toUnit r neg m e (unitExp m e) ≤ 2 ^ 24 := by
    have := hr.low.trans_le (add_le_add_left hhi.le 1)
    have h3 : (toUnit r neg m e (unitExp m e) : Rat) < (2 ^ 24 + 1 : ℕ) := by push_cast; linarith
    have := Nat.cast_lt.mp h3
    omega
  have hlo : j = 0 ∨ 2 ^ 23 ≤ toUnit r neg m e (unitExp m e) := by
    by_cases hj0 : j = 0
    · exact .inl hj0
    right
    have hge : (2 : Rat) ^ 23 ≤ m * 2 ^ (e - unitExp m e) := by
      rw [ht, le_div_iff₀ (by positivity)]
      refine le_trans ?_ hb1
      rw [← zpow_natCast (2 : Rat) 23, ← zpow_add₀ (by norm_num)]
      exact zpow_le_zpow_right₀ (by norm_num) (by unfold unitExp at *; omega)
    have h3 : ((2 ^ 23 : ℕ) : Rat) < (toUnit r neg m e (unitExp m e) + 1 : ℕ) := by push_cast; linarith [hr.high]
    have := Nat.cast_lt.mp h3
    omega
  rw [hc, magRat_unit j _ hk hlo]
  congr 2
  omega

/-- The greatest finite value of FP32, and the magnitude code of the infinities. -/
def fpMax : Rat := 2 ^ 128 - 2 ^ 104

/-- The value of a place in the order of the codes. -/
def ordRat (k : Int) : Rat := if k < 0 then -magRat (-k - 1).toNat else magRat k.toNat

theorem ordRat_mono : Monotone ordRat := by
  intro a b h
  have hm := magRat_strictMono.monotone
  unfold ordRat
  split <;> split
  · exact neg_le_neg (hm (by omega))
  · linarith [magRat_nonneg (-a - 1).toNat, magRat_nonneg b.toNat]
  · omega
  · exact hm (by omega)

/-- The places of the finite codes. -/
def PlaceOk (k : Int) : Prop := -(255 * 2 ^ 23) ≤ k ∧ k < 255 * 2 ^ 23

/-- The code of a finite place is a code of 32 bits, finite, and has the value of the place. -/
theorem ofOrd_value (k : Int) (h : PlaceOk k) :
    ofOrd k < 2 ^ 32 ∧ ∃ n m e, FFmt.fp32.value (ofOrd k) = .fin n m e ∧ Fv.rat n m e = ordRat k := by
  obtain ⟨neg, c, hc, hlt, hv⟩ : ∃ (neg : Bool) (c : Nat), ofOrd k = (if neg then 2 ^ 31 else 0) + c ∧ c < 255 * 2 ^ 23 ∧
      ordRat k = (if neg then -1 else 1) * magRat c := by
    unfold PlaceOk at h
    unfold ofOrd ordRat
    by_cases hk : k < 0
    · exact ⟨true, (-k - 1).toNat, by simp [hk], by omega, by simp [hk]⟩
    · exact ⟨false, k.toNat, by simp [hk], by omega, by simp [hk]⟩
  have hb : bitOf (ofOrd k) 31 = neg := by
    rw [hc]
    unfold bitOf
    cases neg <;> simp <;> omega
  have hx : fieldOf (ofOrd k) 23 8 = c / 2 ^ 23 := by rw [hc]; unfold fieldOf; cases neg <;> simp <;> omega
  have hf : fieldOf (ofOrd k) 0 23 = c % 2 ^ 23 := by
    rw [hc]
    unfold fieldOf
    cases neg
    · simp
    · simp; omega
  refine ⟨by rw [hc]; cases neg <;> simp <;> omega, ?_⟩
  unfold FFmt.value
  show ∃ n m e, (let neg := bitOf (ofOrd k) 31; let ex := fieldOf (ofOrd k) 23 8; let fr := fieldOf (ofOrd k) 0 23
    if ex = 255 then (if fr = 0 then Fv.inf neg else .nan neg) else if ex = 0 then .fin neg fr (-149)
      else .fin neg (2 ^ 23 + fr) (-149 + ex - 1)) = .fin n m e ∧ _
  simp only [hb, hx, hf]
  rw [if_neg (by omega), hv]
  by_cases h0 : c / 2 ^ 23 = 0
  · rw [if_pos h0]
    refine ⟨_, _, _, rfl, ?_⟩
    rw [show magRat c = c * 2 ^ (-149 : ℤ) from if_pos (by omega), show c % 2 ^ 23 = c by omega, ← mul_assoc]
    rfl
  · rw [if_neg h0]
    refine ⟨_, _, _, rfl, ?_⟩
    rw [show magRat c = ((2 ^ 23 + c % 2 ^ 23 : ℕ) : Rat) * 2 ^ (((c / 2 ^ 23 : ℕ) : ℤ) - 150) from if_neg (by omega),
      show (-149 : ℤ) + (c / 2 ^ 23 : ℕ) - 1 = (c / 2 ^ 23 : ℕ) - 150 by ring, ← mul_assoc]
    rfl

/-- What a finite place gives as a word. -/
theorem ofOrd_real (k : Int) (h : PlaceOk k) :
    fp32Finite (BitVec.ofNat 32 (ofOrd k)) ∧ fp32Real (BitVec.ofNat 32 (ofOrd k)) = (ordRat k : ℝ) := by
  obtain ⟨hlt, n, m, e, hv, hr⟩ := ofOrd_value k h
  have : (BitVec.ofNat 32 (ofOrd k)).toNat = ofOrd k := by rw [BitVec.toNat_ofNat, Nat.mod_eq_of_lt hlt]
  unfold fp32Finite fp32Real
  rw [this, hv]
  exact ⟨rfl, by show ((Fv.rat n m e : Rat) : ℝ) = _; rw [hr]⟩

/-! ### The place of a rounded number -/

/-- A rounded number that is within the format: its place is finite, on the side that the mode names, and the nearest one is within half
the unit of any binade that holds the number. -/
theorem code_place (r : Rnd) (k e : Int) (hq : |(k : Rat) * 2 ^ e| ≤ fpMax) :
    let o := ordOf (FFmt.fp32.code r false (.ofInt false k e))
    PlaceOk o ∧ (r = .rdn → ordRat o ≤ k * 2 ^ e) ∧ (r = .rup → k * 2 ^ e ≤ ordRat o) ∧
    (∀ v : Int, r = .rne → -149 ≤ v → |(k : Rat) * 2 ^ e| ≤ 2 ^ (v + 24) → |ordRat o - k * 2 ^ e| ≤ 2 ^ v / 2) ∧
    FFmt.fp32.code r false (.ofInt false k e) = ofOrd o ∧
    ∀ z : Nat, |(k : Rat) * 2 ^ e| = z * 2 ^ unitExp k.natAbs e → ordRat o = k * 2 ^ e := by
  by_cases hk : k = 0
  · subst hk
    have : ordOf (FFmt.fp32.code r false (.ofInt false 0 e)) = 0 := by
      show ordOf (FFmt.fp32.code r false (.fin false 0 0)) = 0
      cases r <;> decide
    intro o
    have ho : ordRat o = 0 := by show ordRat (ordOf _) = 0; rw [this]; simp [ordRat, magRat]
    rw [ho]
    refine ⟨by show PlaceOk (ordOf _); rw [this]; unfold PlaceOk; norm_num, by simp, by simp, fun v _ _ _ => ?_, ?_, by simp⟩
    · simp
      positivity
    · show FFmt.fp32.code r false (.fin false 0 0) = ofOrd (ordOf (FFmt.fp32.code r false (.fin false 0 0)))
      cases r <;> decide
  have hm : k.natAbs ≠ 0 := by omega
  obtain ⟨n, hr, hc⟩ := magCode_rounds r (decide (k < 0)) k.natAbs e hm
  obtain ⟨hb1, hb2⟩ := binade_le k.natAbs e hm
  have hp : (0 : Rat) < 2 ^ e := by positivity
  have habs : |(k : Rat) * 2 ^ e| = (k.natAbs : Rat) * 2 ^ e := by rw [abs_mul, abs_of_pos hp, Nat.cast_natAbs, Int.cast_abs]
  rw [habs] at hq ⊢
  obtain ⟨u, hu⟩ : ∃ u, u = unitExp k.natAbs e := ⟨_, rfl⟩
  obtain ⟨q, hqd⟩ : ∃ q : Rat, q = (k.natAbs : Rat) * 2 ^ e := ⟨_, rfl⟩
  obtain ⟨c, hcd⟩ : ∃ c, c = magCode r (decide (k < 0)) 23 (-149) k.natAbs e := ⟨_, rfl⟩
  rw [← hu, ← hqd] at hr
  rw [← hu, ← hcd] at hc
  rw [← hqd] at hq hb1 hb2
  rw [← hqd]
  have hup : (0 : Rat) < 2 ^ u := by positivity
  have hbin : binade k.natAbs e ≤ 127 := by
    have : (2 : Rat) ^ binade k.natAbs e < 2 ^ (128 : ℤ) := by
      refine hb1.trans_lt (hq.trans_lt ?_)
      unfold fpMax
      norm_num
    have := (zpow_lt_zpow_iff_right₀ (by norm_num)).mp this
    omega
  have hule : u ≤ 104 := by rw [hu]; unfold unitExp; omega
  have hu104 : (2 : Rat) ^ u ≤ 2 ^ 104 := by
    rw [← zpow_natCast]
    exact zpow_le_zpow_right₀ (by norm_num) hule
  have hqu : q / 2 ^ u * 2 ^ u = q := by field_simp
  have hfin : c < 255 * 2 ^ 23 := by
    refine magRat_strictMono.lt_iff_lt.mp ?_
    rw [magRat_inf, hc]
    have := mul_lt_mul_of_pos_right hr.low hup
    rw [add_mul, hqu] at this
    unfold fpMax at hq
    linarith
  have hcode : FFmt.fp32.code r false (.ofInt false k e) = (if k < 0 then 2 ^ 31 else 0) + c := by
    unfold Fv.ofInt
    rw [if_neg hk]
    show (if decide (k < 0) = true then 2 ^ 31 else 0) + (if decide (255 * 2 ^ 23 ≤ magCode r (decide (k < 0)) 23 (-149) k.natAbs e) = true
      then _ else magCode r (decide (k < 0)) 23 (-149) k.natAbs e) = _
    rw [← hcd, decide_eq_false (Nat.not_le.mpr hfin)]
    simp
  have hord : ordOf (FFmt.fp32.code r false (.ofInt false k e)) = if k < 0 then -(c : ℤ) - 1 else c := by
    rw [hcode]
    unfold ordOf bitOf
    by_cases h : k < 0 <;> simp [h] <;> omega
  have hval : ordRat (if k < 0 then -(c : ℤ) - 1 else c) = (if k < 0 then -1 else 1) * (n * 2 ^ u) := by
    rw [← hc]
    unfold ordRat
    by_cases h : k < 0
    · rw [if_pos h, if_pos h, if_pos (by omega), show (-(-(c : ℤ) - 1) - 1).toNat = c by omega]
      ring
    · rw [if_neg h, if_neg h, if_neg (by omega)]
      simp
  have hkq : (k : Rat) * 2 ^ e = (if k < 0 then -1 else 1) * q := by
    rw [hqd, Nat.cast_natAbs]
    by_cases h : k < 0
    · rw [if_pos h, abs_of_neg h]; push_cast; ring
    · rw [if_neg h, abs_of_nonneg (not_lt.mp h)]; ring
  intro o
  have ho : o = if k < 0 then -(c : ℤ) - 1 else c := hord
  rw [ho, hval, hkq, hcode]
  have low : (n : Rat) ≤ q / 2 ^ u → n * 2 ^ u ≤ q := fun h => by rwa [le_div_iff₀ hup] at h
  have high : q / 2 ^ u ≤ (n : Rat) → q ≤ n * 2 ^ u := fun h => by rwa [div_le_iff₀ hup] at h
  refine ⟨by unfold PlaceOk; split <;> omega, fun h => ?_, fun h => ?_, fun v h hv hqv => ?_, ?_, fun z hz => ?_⟩
  · by_cases hs : k < 0
    · simp only [if_pos hs]
      linarith [high (hr.up (.inl ⟨h, by simp [hs]⟩))]
    · simp only [if_neg hs]
      linarith [low (hr.down (.inl ⟨h, by simp [hs]⟩))]
  · by_cases hs : k < 0
    · simp only [if_pos hs]
      linarith [low (hr.down (.inr ⟨h, by simp [hs]⟩))]
    · simp only [if_neg hs]
      linarith [high (hr.up (.inr ⟨h, by simp [hs]⟩))]
  · rw [← mul_sub, abs_mul, show |(if k < 0 then (-1 : Rat) else 1)| = 1 by split <;> norm_num, one_mul]
    have hd : (n : Rat) * 2 ^ u - q = (n - q / 2 ^ u) * 2 ^ u := by rw [sub_mul, hqu]
    rw [hd, abs_mul, abs_of_pos hup]
    have hnear := hr.near h
    rcases lt_or_eq_of_le hqv with hlt | heq
    · have hbv : binade k.natAbs e < v + 24 := (zpow_lt_zpow_iff_right₀ (by norm_num : (1 : Rat) < 2)).mp (hb1.trans_lt hlt)
      have huv : (2 : Rat) ^ u ≤ 2 ^ v := zpow_le_zpow_right₀ (by norm_num) (by rw [hu]; unfold unitExp; omega)
      nlinarith [abs_nonneg ((n : Rat) - q / 2 ^ u)]
    · obtain ⟨j, hj⟩ : ∃ j : ℕ, (j : ℤ) = v + 24 - u := by
        have hbv : binade k.natAbs e ≤ v + 24 := (zpow_le_zpow_iff_right₀ (by norm_num : (1 : Rat) < 2)).mp (heq ▸ hb1)
        exact ⟨(v + 24 - u).toNat, Int.toNat_of_nonneg (by rw [hu]; unfold unitExp; omega)⟩
      have hint : q / 2 ^ u = ((2 ^ j : ℕ) : Rat) := by
        rw [heq, ← zpow_sub₀ (by norm_num), ← hj]
        push_cast
        rw [zpow_natCast]
      have : n = 2 ^ j := by
        rw [hint] at hr
        have h1 : n < 2 ^ j + 1 := by exact_mod_cast hr.low
        have h2 : 2 ^ j < n + 1 := by exact_mod_cast hr.high
        omega
      rw [hint, this, sub_self, abs_zero, zero_mul]
      positivity
  · unfold ofOrd
    by_cases hs : k < 0
    · rw [if_pos hs, if_pos hs, if_pos (by omega)]
      omega
    · rw [if_neg hs, if_neg hs, if_neg (by omega)]
      omega
  · rw [← hu] at hz
    have hint : q / 2 ^ u = z := by rw [hz]; field_simp
    rw [hint] at hr
    have h1 : n < z + 1 := by exact_mod_cast hr.low
    have h2 : z < n + 1 := by exact_mod_cast hr.high
    rw [show n = z by omega, ← hz]

/-! ### Bounds of a rational as places -/

theorem floor_scaled (q : Rat) : (⌊q * 2 ^ apP⌋ : Rat) * 2 ^ (-(apP : ℤ)) ≤ q ∧ q < (⌊q * 2 ^ apP⌋ : Rat) * 2 ^ (-(apP : ℤ)) + 1 / 2 ^ 256 := by
  have hp : (0 : Rat) < 2 ^ apP := by positivity
  have h1 := Int.floor_le (q * 2 ^ apP)
  have h2 := Int.lt_floor_add_one (q * 2 ^ apP)
  rw [zpow_neg, zpow_natCast, ← div_eq_mul_inv]
  constructor
  · rwa [div_le_iff₀ hp]
  · rw [show (1 : Rat) / 2 ^ 256 = 1 / 2 ^ apP from rfl, ← add_div, lt_div_iff₀ hp]
    exact h2

/-- A bound that is a multiple of the unit holds of what is cut to the unit. -/
theorem floor_abs (q B : Rat) (z : ℤ) (hB : B * 2 ^ apP = z) (h : |q| ≤ B) : |(⌊q * 2 ^ apP⌋ : Rat) * 2 ^ (-(apP : ℤ))| ≤ B := by
  have hp : (0 : Rat) < 2 ^ apP := by positivity
  rw [zpow_neg, zpow_natCast, ← div_eq_mul_inv, abs_div, abs_of_pos hp, div_le_iff₀ hp, hB]
  have h1 : |q * 2 ^ apP| ≤ z := by rw [abs_mul, abs_of_pos hp, ← hB]; exact mul_le_mul_of_nonneg_right h hp.le
  rw [abs_le] at h1
  have h2 : -z ≤ ⌊q * 2 ^ apP⌋ := Int.le_floor.mpr (by push_cast; exact h1.1)
  have h3 : ⌊q * 2 ^ apP⌋ ≤ z := by
    have := Int.floor_le_floor h1.2
    rwa [Int.floor_intCast] at this
  rw [abs_le]
  exact ⟨by exact_mod_cast h2, by exact_mod_cast h3⟩

theorem fpMax_int : fpMax * 2 ^ apP = ((2 ^ 128 - 2 ^ 104) * 2 ^ apP : ℤ) := by unfold fpMax apP; norm_num

theorem ordDn_spec (q : Rat) (h : |q| ≤ fpMax) : PlaceOk (ordDn q) ∧ ordRat (ordDn q) ≤ q := by
  have := code_place .rdn ⌊q * 2 ^ apP⌋ (-apP) (floor_abs q fpMax _ fpMax_int h)
  exact ⟨this.1, (this.2.1 rfl).trans (floor_scaled q).1⟩

theorem ordUp_spec (q : Rat) (h : |q| ≤ fpMax) : PlaceOk (ordUp q) ∧ q ≤ ordRat (ordUp q) := by
  have hc : (⌈q * 2 ^ apP⌉ : Rat) = -(⌊-q * 2 ^ apP⌋ : ℤ) := by rw [neg_mul, Int.floor_neg]; push_cast; ring
  have hf := floor_abs (-q) fpMax _ fpMax_int (by rwa [abs_neg])
  have := code_place .rup ⌈q * 2 ^ apP⌉ (-apP) (by rw [hc, neg_mul, abs_neg]; exact hf)
  refine ⟨this.1, le_trans ?_ (this.2.2.1 rfl)⟩
  rw [hc]
  linarith [(floor_scaled (-q)).1]

theorem ordNear_spec (q : Rat) (v : ℤ) (h : |q| ≤ fpMax) (hv : -149 ≤ v) (hq : |q| ≤ 2 ^ (v + 24)) :
    PlaceOk (ordNear q) ∧ |ordRat (ordNear q) - q| ≤ 2 ^ v / 2 + 1 / 2 ^ 256 := by
  obtain ⟨j, hj⟩ : ∃ j : ℕ, (j : ℤ) = v + 24 + apP := ⟨(v + 24 + apP).toNat, Int.toNat_of_nonneg (by unfold apP; omega)⟩
  have hz : (2 : Rat) ^ (v + 24) * 2 ^ apP = ((2 ^ j : ℤ) : Rat) := by
    rw [← zpow_natCast, ← zpow_add₀ (by norm_num), ← hj]
    push_cast
    rw [zpow_natCast]
  have := code_place .rne ⌊q * 2 ^ apP⌋ (-apP) (floor_abs q fpMax _ fpMax_int h)
  refine ⟨this.1, ?_⟩
  have h1 := this.2.2.2.1 v rfl hv (floor_abs q _ _ hz hq)
  obtain ⟨h2, h3⟩ := floor_scaled q
  have h4 := abs_le.mp h1
  show |ordRat (ordOf (FFmt.fp32.code .rne false (.ofInt false ⌊q * 2 ^ apP⌋ (-apP)))) - q| ≤ _
  rw [abs_le]
  constructor <;> linarith

/-- What the choice within a bound gives: a finite place whose value lies within the bound of the exact value y. -/
theorem pickOrd_spec (form a : Nat) {lo hi b : Rat} {v : ℤ} {y : ℝ} (hlo : (lo : ℝ) ≤ y) (hhi : y ≤ hi) (hv : -149 ≤ v)
    (hq : |lo| ≤ 2 ^ (v + 24)) (hb : hi - lo + 2 ^ v / 2 + 1 / 2 ^ 256 ≤ b) (h1 : |lo| + b ≤ fpMax) (h2 : |hi| + b ≤ fpMax) :
    PlaceOk (pickOrd form a lo hi b) ∧ |(ordRat (pickOrd form a lo hi b) : ℝ) - y| ≤ b := by
  have hlh : lo ≤ hi := by exact_mod_cast hlo.trans hhi
  have hvp : (0 : Rat) < 2 ^ v := by positivity
  have hb0 : 0 ≤ b := by have : (0 : Rat) < 1 / 2 ^ 256 := by positivity
                         linarith
  obtain ⟨hn1, hn2⟩ := ordNear_spec lo v (by linarith) hv hq
  obtain ⟨hu1, hu2⟩ := ordUp_spec (hi - b) (by rw [abs_le] at *; constructor <;> linarith [neg_abs_le hi, le_abs_self hi])
  obtain ⟨hd1, hd2⟩ := ordDn_spec (lo + b) (by rw [abs_le] at *; constructor <;> linarith [neg_abs_le lo, le_abs_self lo])
  obtain ⟨hn3, hn4⟩ := abs_le.mp hn2
  obtain ⟨l, hl⟩ : ∃ l, l = min (ordUp (hi - b)) (ordNear lo) := ⟨_, rfl⟩
  obtain ⟨h, hh⟩ : ∃ h, h = max (ordDn (lo + b)) (ordNear lo) := ⟨_, rfl⟩
  obtain ⟨o, ho⟩ : ∃ o, o = pickOrd form a lo hi b := ⟨_, rfl⟩
  have ho1 : l ≤ o ∧ o ≤ h := by
    have h3 : o = l + (Config.approxPick form (BitVec.ofNat 32 a) % ((h - l).toNat + 1) : Nat) := by rw [ho, hl, hh]; rfl
    have h4 := Nat.mod_lt (Config.approxPick form (BitVec.ofNat 32 a)) (show 0 < (h - l).toNat + 1 by omega)
    have h5 : l ≤ h := by rw [hl, hh]; exact (min_le_right _ _).trans (le_max_right _ _)
    clear ho hl hh
    omega
  rw [← ho]
  unfold PlaceOk at *
  refine ⟨by omega, ?_⟩
  have low : hi - b ≤ ordRat o := by
    refine le_trans ?_ (ordRat_mono ho1.1)
    rcases min_choice (ordUp (hi - b)) (ordNear lo) with hc | hc <;> rw [hl, hc]
    · exact hu2
    · linarith
  have high : ordRat o ≤ lo + b := by
    refine (ordRat_mono ho1.2).trans ?_
    rcases max_choice (ordDn (lo + b)) (ordNear lo) with hc | hc <;> rw [hh, hc]
    · exact hd2
    · linarith
  have low' : (hi : ℝ) - b ≤ ordRat o := by exact_mod_cast low
  have high' : (ordRat o : ℝ) ≤ lo + b := by exact_mod_cast high
  rw [abs_le]
  constructor <;> linarith

/-! ### The ulp of an enclosed value -/

theorem log_cast (q : Rat) (h : 0 < q) : Int.log 2 (q : ℝ) = Int.log 2 q := by
  have hr : (0 : ℝ) < q := by exact_mod_cast h
  have hc : ∀ z : ℤ, (2 : ℝ) ^ z ≤ q ↔ (2 : Rat) ^ z ≤ q := fun z => by
    rw [← Rat.cast_le (K := ℝ)]
    push_cast
    rfl
  refine le_antisymm ?_ ?_
  · exact (Int.zpow_le_iff_le_log (by norm_num) h).mp ((hc _).mp (Int.zpow_log_le_self (b := 2) (by norm_num) hr))
  · exact (Int.zpow_le_iff_le_log (by norm_num) hr).mp ((hc _).mpr (Int.zpow_log_le_self (b := 2) (by norm_num) h))

/-- The exponent of the ulp of a real number. -/
noncomputable def ulpReal (y : ℝ) : ℤ := max (Int.log 2 |y| - 23) (-149)

theorem ulpExp_cast (q : Rat) (h : q ≠ 0) : ulpReal q = ulpExp q := by
  unfold ulpReal ulpExp
  rw [← Rat.cast_abs, log_cast _ (abs_pos.mpr h)]

theorem ulpReal_mono {x y : ℝ} (hx : x ≠ 0) (h : |x| ≤ |y|) : ulpReal x ≤ ulpReal y := by
  have := Int.log_mono_right (b := 2) (abs_pos.mpr hx) h
  unfold ulpReal
  omega

theorem ulpExp_mono {x y : Rat} (hx : x ≠ 0) (h : |x| ≤ |y|) : ulpExp x ≤ ulpExp y := by
  have := Int.log_mono_right (b := 2) (abs_pos.mpr hx) h
  unfold ulpExp
  omega

theorem ulpExp_ge (q : Rat) : -149 ≤ ulpExp q := le_max_right _ _

theorem ulpExp_lt (q : Rat) : |q| < 2 ^ (ulpExp q + 24) := by
  have := Int.lt_zpow_succ_log_self (b := 2) (by norm_num) |q|
  refine this.trans_le ?_
  have : Int.log 2 |q| - 23 ≤ ulpExp q := le_max_left _ _
  exact zpow_le_zpow_right₀ (by norm_num) (by omega)

theorem ulpExp_half {x y : Rat} (hx : y ≠ 0) (h : |y| ≤ 2 * |x|) : ulpExp y - 1 ≤ ulpExp x := by
  have hx0 : 0 < |x| := by have := abs_pos.mpr hx; linarith
  have h1 := Int.zpow_log_le_self (b := 2) (by norm_num) (abs_pos.mpr hx)
  have : Int.log 2 |y| - 1 ≤ Int.log 2 |x| := by
    refine (Int.zpow_le_iff_le_log (by norm_num) hx0).mp ?_
    rw [zpow_sub_one₀ (by norm_num)]
    push_cast at h1 ⊢
    linarith
  unfold ulpExp
  omega

/-- The choice within n ulp of an exact value y that lies from lo to hi, when the enclosure is far below the ulp: a finite place within n
ulp of y. -/
theorem pickUlp_spec (form a n : Nat) {lo hi : Rat} {y : ℝ} (hlo : (lo : ℝ) ≤ y) (hhi : y ≤ hi) (hs : 0 < lo ∨ hi < 0) (hn : n = 1 ∨ n = 2)
    (hw : hi - lo + 1 / 2 ^ 256 ≤ 2 ^ ulpExp lo / 4) (h1 : n = 1 → 0 < lo ∨ lo = hi) (hM : |lo| ≤ 2 ^ 128 - 2 ^ 106)
    (hM2 : |hi| ≤ 2 ^ 128 - 2 ^ 106) :
    PlaceOk (pickOrd form a lo hi (ulps n lo hi)) ∧ |(ordRat (pickOrd form a lo hi (ulps n lo hi)) : ℝ) - y| ≤ n * 2 ^ ulpReal y := by
  have hlh : lo ≤ hi := by exact_mod_cast hlo.trans hhi
  have hl0 : lo ≠ 0 := by rcases hs with h | h <;> [exact h.ne'; linarith]
  have hh0 : hi ≠ 0 := by rcases hs with h | h <;> [linarith; exact h.ne]
  have hv := ulpExp_ge lo
  have hvp : (0 : Rat) < 2 ^ ulpExp lo := by positivity
  have hn0 : (0 : Rat) ≤ n := by positivity
  have hlo104 : (2 : Rat) ^ ulpExp lo ≤ 2 ^ 104 := by
    rw [← zpow_natCast]
    refine zpow_le_zpow_right₀ (by norm_num) (max_le ?_ (by norm_num))
    have h2 := Int.zpow_log_le_self (b := 2) (by norm_num) (abs_pos.mpr hl0)
    have : (2 : Rat) ^ Int.log 2 |lo| < 2 ^ (128 : ℤ) := by
      push_cast at h2
      refine h2.trans_lt (hM.trans_lt (by norm_num))
    have := (zpow_lt_zpow_iff_right₀ (by norm_num : (1 : Rat) < 2)).mp this
    push_cast
    omega
  have hble : ulps n lo hi ≤ n * 2 ^ ulpExp lo :=
    mul_le_mul_of_nonneg_left (zpow_le_zpow_right₀ (by norm_num) (min_le_left _ _)) hn0
  have hbM : ulps n lo hi ≤ 2 ^ 105 := by
    rcases hn with rfl | rfl <;> norm_num at hble ⊢ <;> linarith
  have hb : hi - lo + 2 ^ ulpExp lo / 2 + 1 / 2 ^ 256 ≤ ulps n lo hi := by
    rcases hs with hs | hs
    · have hm : min (ulpExp lo) (ulpExp hi) = ulpExp lo :=
        min_eq_left (ulpExp_mono hl0 (by rw [abs_of_pos hs, abs_of_pos (hs.trans_le hlh)]; exact hlh))
      unfold ulps
      rw [hm]
      rcases hn with rfl | rfl <;> push_cast <;> linarith
    · rcases hn with rfl | rfl
      · obtain rfl := (h1 rfl).resolve_left (by linarith)
        unfold ulps
        rw [min_self]
        push_cast
        linarith
      · have hlog : (2 : Rat) ^ ulpExp lo ≤ 2 * |lo| ∨ ulpExp lo = -149 := by
          rcases max_choice (Int.log 2 |lo| - 23) (-149) with hc | hc
          · left
            have h2 := Int.zpow_log_le_self (b := 2) (by norm_num) (abs_pos.mpr hl0)
            have h3 : (2 : Rat) ^ ulpExp lo ≤ 2 ^ Int.log 2 |lo| := by
              unfold ulpExp; rw [hc]
              exact zpow_le_zpow_right₀ (by norm_num) (by omega)
            push_cast at h2
            linarith [abs_pos.mpr hl0]
          · exact .inr hc
        have hmin : (2 : Rat) ^ ulpExp lo ≤ 2 * 2 ^ min (ulpExp lo) (ulpExp hi) := by
          have hle : ulpExp lo - 1 ≤ min (ulpExp lo) (ulpExp hi) := by
            refine le_min (by omega) ?_
            rcases hlog with hlog | hlog
            · have h256 : (0 : Rat) < 1 / 2 ^ 256 := by positivity
              exact ulpExp_half hl0 (by rw [abs_of_neg hs, abs_of_neg (hlh.trans_lt hs)] at *; linarith)
            · rw [hlog]; linarith [ulpExp_ge hi]
          calc (2 : Rat) ^ ulpExp lo = 2 * 2 ^ (ulpExp lo - 1) := by rw [zpow_sub_one₀ (by norm_num)]; ring
            _ ≤ _ := mul_le_mul_of_nonneg_left (zpow_le_zpow_right₀ (by norm_num) hle) (by norm_num)
        unfold ulps
        push_cast
        linarith
  obtain ⟨hp, hd⟩ := pickOrd_spec form a hlo hhi hv (ulpExp_lt lo).le hb (by unfold fpMax; linarith) (by unfold fpMax; linarith)
  refine ⟨hp, hd.trans ?_⟩
  have hu : min (ulpExp lo) (ulpExp hi) ≤ ulpReal y := by
    rcases hs with hs | hs
    · have h0 : (0 : ℝ) < lo := by exact_mod_cast hs
      refine (min_le_left _ _).trans ?_
      rw [← ulpExp_cast lo hl0]
      exact ulpReal_mono h0.ne' (by rw [abs_of_pos h0, abs_of_pos (h0.trans_le hlo)]; exact hlo)
    · have h0 : (hi : ℝ) < 0 := by exact_mod_cast hs
      refine (min_le_right _ _).trans ?_
      rw [← ulpExp_cast hi hh0]
      exact ulpReal_mono h0.ne (by rw [abs_of_neg h0, abs_of_neg (hhi.trans_lt h0)]; linarith)
  unfold ulps
  push_cast
  exact mul_le_mul_of_nonneg_left (zpow_le_zpow_right₀ (by norm_num) hu) (by positivity)

/-- A finite place as the word of a result. -/
theorem withinUlps_of_place {n : Nat} {k : Int} {y : ℝ} (h : PlaceOk k ∧ |(ordRat k : ℝ) - y| ≤ n * 2 ^ ulpReal y) :
    withinUlps n (BitVec.ofNat 32 (ofOrd k)) y :=
  ⟨(ofOrd_real k h.1).1, by rw [(ofOrd_real k h.1).2]; exact h.2⟩

end Sys2Proof.Machine
end

