-- ==== Sys2Proof/Laws/Approx.lean ====
section
/-! SUPPORT. One lemma for each approximating form of R219: its result lies within the bound of the exact value, and is exact where the
table says so; and the enclosures of the root, the exponential, the logarithm and the hyperbolic tangent behind them. -/

namespace Sys2Proof.Machine

/-! ### Finite inputs -/

/-- A finite code has an integer significand below 2^24 and a unit of at least 2^-149. -/
theorem fp32_fin (x : W32) (h : fp32Finite x) :
    ∃ n m e, FFmt.fp32.value x.toNat = .fin n m e ∧ m < 2 ^ 24 ∧ -149 ≤ e ∧ e ≤ 104 ∧ fp32Real x = (Fv.rat n m e : ℝ) := by
  have hv : FFmt.fp32.value x.toNat = (if fieldOf x.toNat 23 8 = 255 then
      (if fieldOf x.toNat 0 23 = 0 then Fv.inf (bitOf x.toNat 31) else .nan (bitOf x.toNat 31))
      else if fieldOf x.toNat 23 8 = 0 then .fin (bitOf x.toNat 31) (fieldOf x.toNat 0 23) (-149)
      else .fin (bitOf x.toNat 31) (2 ^ 23 + fieldOf x.toNat 0 23) (-149 + fieldOf x.toNat 23 8 - 1)) := rfl
  have hf : fieldOf x.toNat 0 23 < 2 ^ 23 := Nat.mod_lt _ (by norm_num)
  have hx : fieldOf x.toNat 23 8 < 2 ^ 8 := Nat.mod_lt _ (by norm_num)
  have key : ∃ n m e, FFmt.fp32.value x.toNat = .fin n m e ∧ m < 2 ^ 24 ∧ -149 ≤ e ∧ e ≤ 104 := by
    unfold fp32Finite at h
    rw [hv] at h ⊢
    by_cases h1 : fieldOf x.toNat 23 8 = 255
    · rw [if_pos h1] at h
      split at h <;> cases h
    · rw [if_neg h1]
      split
      · exact ⟨_, _, _, rfl, by omega, by omega, by omega⟩
      · exact ⟨_, _, _, rfl, by omega, by omega, by omega⟩
  obtain ⟨n, m, e, h1, h2, h3, h4⟩ := key
  exact ⟨n, m, e, h1, h2, h3, h4, by unfold fp32Real; rw [h1]⟩

theorem rat_lt (na nb : Bool) (ma mb : Nat) (ea eb : Int) :
    Fv.lt (.fin na ma ea) (.fin nb mb eb) = true ↔ Fv.rat na ma ea < Fv.rat nb mb eb := by
  have key : ∀ (n : Bool) (m : Nat) (e u : Int), u ≤ e → (Fv.scaled n m e u : Rat) * 2 ^ u = Fv.rat n m e := by
    intro n m e u h
    have : (2 : Rat) ^ e = 2 ^ (e - u).toNat * 2 ^ u := by
      rw [← zpow_natCast, Int.toNat_of_nonneg (by omega), ← zpow_add₀ (by norm_num)]
      congr 1
      ring
    unfold Fv.scaled Fv.rat
    rw [this]
    cases n <;> simp <;> ring
  show decide (Fv.scaled na ma ea (min ea eb) < Fv.scaled nb mb eb (min ea eb)) = true ↔ _
  rw [← key na ma ea _ (min_le_left ea eb), ← key nb mb eb _ (min_le_right ea eb), decide_eq_true_iff,
    mul_lt_mul_iff_left₀ (by positivity : (0 : Rat) < 2 ^ min ea eb)]
  exact_mod_cast Iff.rfl

theorem rat_ne_zero {n : Bool} {m : Nat} {e : Int} : Fv.rat n m e ≠ 0 ↔ m ≠ 0 := by
  unfold Fv.rat
  cases n <;> simp [zpow_ne_zero]

theorem rat_abs (n : Bool) (m : Nat) (e : Int) : |Fv.rat n m e| = m * 2 ^ e := by
  unfold Fv.rat
  rw [abs_mul, abs_mul, abs_of_pos (by positivity : (0 : Rat) < 2 ^ e), Nat.abs_cast]
  cases n <;> simp

/-! ### VFRCP -/

/-- R219: VFRCP gives 1/a within 1 ulp, where that does not overflow. -/
theorem rcp_within (x : W32) (h : fp32Finite x) (hb : 2 ^ (-128 : ℤ) < |fp32Real x|) : withinUlps 1 (on1 rcpApprox x) (1 / fp32Real x) := by
  obtain ⟨n, m, e, hv, hm, he, -, hr⟩ := fp32_fin x h
  obtain ⟨a, ha⟩ : ∃ a, a = Fv.rat n m e := ⟨_, rfl⟩
  rw [hr, ← ha] at hb ⊢
  have hb' : (2 : Rat) ^ (-128 : ℤ) < |a| := by
    have : ((2 ^ (-128 : ℤ) : Rat) : ℝ) < ((|a| : Rat) : ℝ) := by push_cast; exact hb
    exact_mod_cast this
  have hm0 : m ≠ 0 := by
    rintro rfl
    have : a = 0 := by rw [ha]; simp [Fv.rat]
    rw [this, abs_zero] at hb'
    exact absurd hb' (not_lt.mpr (by positivity))
  have hstep : (2 : Rat) ^ (-128 : ℤ) + 2 ^ (-149 : ℤ) ≤ |a| := by
    obtain ⟨j, hj⟩ : ∃ j : ℕ, (j : ℤ) = e + 149 := ⟨(e + 149).toNat, by omega⟩
    have hint : |a| = ((m * 2 ^ j : ℕ) : Rat) * 2 ^ (-149 : ℤ) := by
      rw [ha, rat_abs, show e = j + (-149) by omega, zpow_add₀ (by norm_num)]
      push_cast
      rw [zpow_natCast]
      ring
    rw [hint] at hb' ⊢
    have h1 : (2 : Rat) ^ (-128 : ℤ) = ((2 ^ 21 : ℕ) : Rat) * 2 ^ (-149 : ℤ) := by norm_num
    rw [h1] at hb' ⊢
    have h2 := lt_of_mul_lt_mul_right hb' (by positivity)
    have h3 : 2 ^ 21 + 1 ≤ m * 2 ^ j := by exact_mod_cast h2
    have h4 : ((2 ^ 21 : ℕ) : Rat) + 1 ≤ ((m * 2 ^ j : ℕ) : Rat) := by exact_mod_cast h3
    have h5 := mul_le_mul_of_nonneg_right h4 (by positivity : (0 : Rat) ≤ 2 ^ (-149 : ℤ))
    rw [add_mul, one_mul] at h5
    exact h5
  have ha0 : a ≠ 0 := by rw [ha]; exact rat_ne_zero.mpr hm0
  have hM : |1 / a| ≤ 2 ^ 128 - 2 ^ 106 := by
    rw [abs_div, abs_one]
    refine (one_div_le_one_div_of_le (by positivity) hstep).trans ?_
    norm_num
  have hv1 := ulpExp_ge (1 / a)
  have hv2 : (2 : Rat) ^ (-149 : ℤ) ≤ 2 ^ ulpExp (1 / a) := zpow_le_zpow_right₀ (by norm_num) hv1
  have hp := pickUlp_spec 4 x.toNat 1 (lo := 1 / a) (hi := 1 / a) (y := 1 / (a : ℝ)) (by push_cast; exact le_rfl) (by push_cast; exact le_rfl)
    (by rcases lt_or_gt_of_ne ha0 with h | h <;> [right; left] <;> simpa using h) (.inl rfl)
    (by rw [sub_self, zero_add]; refine le_trans ?_ (div_le_div_of_nonneg_right hv2 (by norm_num)); norm_num) (fun _ => .inr rfl) hM hM
  have hc : on1 rcpApprox x = BitVec.ofNat 32 (ofOrd (pickOrd 4 x.toNat (1 / a) (1 / a) (ulps 1 (1 / a) (1 / a)))) := by
    unfold on1 rcpApprox
    rw [hv]
    simp only [if_neg hm0, ha]
    rfl
  rw [hc]
  exact withinUlps_of_place hp

/-! ### VFRSQ -/

theorem isqrtFrom_spec : ∀ k n r : Nat, r * r ≤ n → n < (r + 2 ^ k) * (r + 2 ^ k) →
    isqrtFrom k n r * isqrtFrom k n r ≤ n ∧ n < (isqrtFrom k n r + 1) * (isqrtFrom k n r + 1)
  | 0, _, _, h1, h2 => ⟨h1, by simpa only [isqrtFrom, pow_zero] using h2⟩
  | k + 1, n, r, h1, h2 => by
    unfold isqrtFrom
    simp only
    split
    · exact isqrtFrom_spec k n _ (by assumption) (by rw [add_assoc, ← two_mul, ← pow_succ']; exact h2)
    · exact isqrtFrom_spec k n r h1 (by omega)

/-- The integer square root is the floor of the root. -/
theorem isqrt_spec (n : Nat) : isqrt n * isqrt n ≤ n ∧ n < (isqrt n + 1) * (isqrt n + 1) := by
  refine isqrtFrom_spec _ n 0 (by simp) ?_
  have h1 : n < 2 ^ (n.log2 + 1) := Nat.lt_log2_self
  rw [zero_add, ← pow_add]
  exact h1.trans_le (Nat.pow_le_pow_right (by norm_num) (by omega))

theorem sqrt_encl (q : Rat) (h : 0 ≤ q) :
    (sqrtLo q : ℝ) ≤ √q ∧ √q ≤ sqrtHi q ∧ 0 ≤ sqrtLo q ∧ sqrtHi q ≤ sqrtLo q + 1 / 2 ^ 256 ∧ sqrtLo q ≤ sqrtHi q ∧
    (1 ≤ q * 4 ^ 256 → 0 < sqrtLo q) := by
  obtain ⟨s, hs⟩ : ∃ s, s = isqrt ⌊q * 4 ^ apP⌋.toNat := ⟨_, rfl⟩
  have hP : (0 : Rat) < 2 ^ apP := by positivity
  have h4 : (4 : Rat) ^ apP = 2 ^ apP * 2 ^ apP := by rw [← mul_pow]; norm_num
  have hlo : sqrtLo q = s / 2 ^ apP := by rw [hs]; rfl
  have hq0 : 0 ≤ q * 4 ^ apP := by positivity
  have hfl : ((⌊q * 4 ^ apP⌋.toNat : ℕ) : Rat) = (⌊q * 4 ^ apP⌋ : Rat) := by
    have := Int.toNat_of_nonneg (Int.floor_nonneg.mpr hq0)
    exact_mod_cast this
  obtain ⟨h1, h2⟩ := isqrt_spec ⌊q * 4 ^ apP⌋.toNat
  rw [← hs] at h1 h2
  have h1' : (s : Rat) * s ≤ q * 4 ^ apP := by
    have : ((s * s : ℕ) : Rat) ≤ (⌊q * 4 ^ apP⌋.toNat : ℕ) := by exact_mod_cast h1
    rw [hfl] at this
    push_cast at this
    exact this.trans (Int.floor_le _)
  have h2' : q * 4 ^ apP < (s + 1 : Rat) * (s + 1) := by
    have : ((⌊q * 4 ^ apP⌋.toNat + 1 : ℕ) : Rat) ≤ ((s + 1) * (s + 1) : ℕ) := by exact_mod_cast h2
    push_cast at this
    rw [hfl] at this
    exact (Int.lt_floor_add_one _).trans_le this
  have hlo2 : sqrtLo q * sqrtLo q ≤ q := by
    rw [hlo, div_mul_div_comm, ← h4, div_le_iff₀ (by positivity)]
    exact h1'
  have hlo0 : 0 ≤ sqrtLo q := by rw [hlo]; positivity
  have hhi2 : q ≤ sqrtHi q * sqrtHi q := by
    unfold sqrtHi
    split
    · rename_i h; exact h.ge
    · rw [hlo, ← add_div, div_mul_div_comm, ← h4, le_div_iff₀ (by positivity)]
      exact h2'.le
  have hlh : sqrtLo q ≤ sqrtHi q := by
    unfold sqrtHi
    split
    · exact le_rfl
    · exact le_add_of_nonneg_right (by positivity)
  refine ⟨?_, ?_, hlo0, ?_, hlh, fun hq => ?_⟩
  · refine Real.le_sqrt_of_sq_le ?_
    rw [sq]
    exact_mod_cast hlo2
  · rw [Real.sqrt_le_iff, sq]
    exact ⟨by exact_mod_cast hlo0.trans hlh, by exact_mod_cast hhi2⟩
  · unfold sqrtHi
    split
    · exact le_add_of_nonneg_right (by positivity)
    · exact le_rfl
  · rw [hlo]
    have : 0 < s := by
      rcases Nat.eq_zero_or_pos s with h0 | h0
      · rw [h0] at h2'
        norm_num at h2'
        exact absurd hq (not_le.mpr h2')
      · exact h0
    positivity

/-- R219: VFRSQ gives 1/√a within 1 ulp. -/
theorem rsq_within (x : W32) (h : fp32Finite x) (hb : 0 < fp32Real x) : withinUlps 1 (on1 rsqApprox x) (1 / √(fp32Real x)) := by
  obtain ⟨n, m, e, hv, hm, he, he2, hr⟩ := fp32_fin x h
  have hb' : 0 < Fv.rat n m e := by rw [hr] at hb; exact_mod_cast hb
  obtain rfl : n = false := by
    cases n
    · rfl
    · have : Fv.rat true m e ≤ 0 := by unfold Fv.rat; simp; positivity
      exact absurd hb' (not_lt.mpr this)
  have hm0 : m ≠ 0 := rat_ne_zero.mp hb'.ne'
  obtain ⟨a, ha⟩ : ∃ a, a = Fv.rat false m e := ⟨_, rfl⟩
  rw [hr]
  rw [← ha] at hb' ⊢
  have ham : a = m * 2 ^ e := by rw [ha]; simp [Fv.rat]
  have halo : (2 : Rat) ^ (-149 : ℤ) ≤ a := by
    rw [ham]
    have h1 : (1 : Rat) ≤ m := by exact_mod_cast Nat.one_le_iff_ne_zero.mpr hm0
    have h2 : (2 : Rat) ^ (-149 : ℤ) ≤ 2 ^ e := zpow_le_zpow_right₀ (by norm_num) he
    nlinarith [(by positivity : (0 : Rat) < 2 ^ e)]
  have hahi : a ≤ 2 ^ (128 : ℤ) := by
    rw [ham]
    have h1 : (m : Rat) ≤ 2 ^ 24 := by exact_mod_cast hm.le
    have h2 : (2 : Rat) ^ e ≤ 2 ^ (104 : ℤ) := zpow_le_zpow_right₀ (by norm_num) he2
    calc (m : Rat) * 2 ^ e ≤ 2 ^ 24 * 2 ^ (104 : ℤ) := mul_le_mul h1 h2 (by positivity) (by positivity)
      _ = _ := by norm_num
  have hq : 0 ≤ 1 / a := by positivity
  obtain ⟨s1, s2, s3, s4, s5, s6⟩ := sqrt_encl (1 / a) hq
  have hpos := s6 (by rw [div_mul_eq_mul_div, one_mul, le_div_iff₀ hb', one_mul]; exact hahi.trans (by norm_num))
  have hup : sqrtLo (1 / a) ≤ 2 ^ 100 := by
    have h1 : (sqrtLo (1 / a) : ℝ) ≤ √((2 ^ 100 * 2 ^ 100 : Rat) : ℝ) := by
      refine s1.trans (Real.sqrt_le_sqrt ?_)
      have : 1 / a ≤ 2 ^ 100 * 2 ^ 100 := (one_div_le_one_div_of_le (by positivity) halo).trans (by norm_num)
      exact_mod_cast this
    push_cast at h1
    rw [Real.sqrt_mul_self (by positivity)] at h1
    exact_mod_cast h1
  have hv2 : (2 : Rat) ^ (-149 : ℤ) ≤ 2 ^ ulpExp (sqrtLo (1 / a)) := zpow_le_zpow_right₀ (by norm_num) (ulpExp_ge _)
  have heq : (1 : ℝ) / √(a : ℝ) = √((1 / a : Rat) : ℝ) := by push_cast; rw [Real.sqrt_div (by norm_num), Real.sqrt_one]
  have hp := pickUlp_spec 3 x.toNat 1 s1 s2 (.inl hpos) (.inl rfl)
    (by refine le_trans ?_ (div_le_div_of_nonneg_right hv2 (by norm_num)); norm_num at s4 ⊢; linarith) (fun _ => .inl hpos)
    (by rw [abs_of_pos hpos]; norm_num at hup ⊢; linarith)
    (by rw [abs_of_pos (hpos.trans_le s5)]; norm_num at hup s4 ⊢; linarith)
  have hc : on1 rsqApprox x = BitVec.ofNat 32 (ofOrd (pickOrd 3 x.toNat (sqrtLo (1 / a)) (sqrtHi (1 / a)) (ulps 1 (sqrtLo (1 / a)) (sqrtHi (1 / a))))) := by
    unfold on1 rsqApprox
    rw [hv]
    simp only [if_neg hm0, ha]
    rfl
  rw [hc, heq]
  exact withinUlps_of_place hp

/-! ### The series -/

theorem expRest_le (z : Rat) (h : |z| ≤ 1) : 0 ≤ expRest 60 z ∧ expRest 60 z ≤ |z| / 2 ^ 250 := by
  obtain ⟨c, hc⟩ : ∃ c : Rat, c = ((Nat.succ 60 : ℕ) : Rat) * ((Nat.factorial 60 : Rat) * (60 : ℕ))⁻¹ := ⟨_, rfl⟩
  have hc0 : 0 ≤ c := by rw [hc]; positivity
  have hcb : c ≤ 1 / 2 ^ 250 := by rw [hc]; norm_num [Nat.factorial]
  have he : expRest 60 z = |z| ^ 60 * c := by rw [hc]; rfl
  have hp : |z| ^ 60 ≤ |z| := by
    calc |z| ^ 60 ≤ |z| ^ 1 := pow_le_pow_of_le_one (abs_nonneg z) h (by norm_num)
      _ = _ := pow_one _
  rw [he]
  refine ⟨by positivity, ?_⟩
  calc |z| ^ 60 * c ≤ |z| * (1 / 2 ^ 250) := mul_le_mul hp hcb hc0 (abs_nonneg z)
    _ = _ := by ring

/-- The enclosure of the exponential. -/
theorem exp_encl (z : Rat) (h : |z| ≤ 1) : (expLo z : ℝ) ≤ Real.exp z ∧ Real.exp z ≤ expHi z ∧ expHi z - expLo z ≤ 2 / 2 ^ 250 := by
  have hb := Real.exp_bound (x := (z : ℝ)) (by exact_mod_cast h) (n := 60) (by norm_num)
  have hs : ((expSum 60 z : Rat) : ℝ) = ∑ m ∈ Finset.range 60, (z : ℝ) ^ m / (m.factorial : ℝ) := by
    unfold expSum
    push_cast
    rfl
  have hr : ((expRest 60 z : Rat) : ℝ) = |(z : ℝ)| ^ 60 * ((Nat.succ 60 : ℕ) / ((Nat.factorial 60 : ℕ) * (60 : ℕ))) := by
    unfold expRest
    push_cast
    rw [div_eq_mul_inv]
  rw [← hs, ← hr, abs_le] at hb
  obtain ⟨h0, h1⟩ := expRest_le z h
  unfold expLo expHi
  refine ⟨by push_cast; linarith, by push_cast; linarith, ?_⟩
  have : |z| / 2 ^ 250 ≤ 1 / 2 ^ 250 := div_le_div_of_nonneg_right h (by positivity)
  have h2 : (2 : Rat) / 2 ^ 250 = 2 * (1 / 2 ^ 250) := by ring
  linarith

/-- For a positive z the lower end lies above 1. -/
theorem expLo_gt (z : Rat) (h : 0 < z) (h1 : z ≤ 1) : 1 < expLo z := by
  have hz : |z| = z := abs_of_pos h
  obtain ⟨-, hr⟩ := expRest_le z (by rw [hz]; exact h1)
  have hs : 1 + z ≤ expSum 60 z := by
    unfold expSum
    rw [Finset.sum_range_succ', Finset.sum_range_succ']
    have : 0 ≤ ∑ k ∈ Finset.range 58, z ^ (k + 1 + 1) / ((k + 1 + 1).factorial : Rat) := Finset.sum_nonneg fun i _ => by positivity
    norm_num
    linarith
  rw [hz] at hr
  have : z / 2 ^ 250 < z := div_lt_self h (by norm_num)
  unfold expLo
  linarith

/-- Two close arguments have close enclosures. -/
theorem exp_width {z1 z2 d : Rat} (h1 : |z1| ≤ 1) (h2 : |z2| ≤ 1) (hd : z2 - z1 ≤ d) (hd0 : 0 ≤ d) :
    expHi z2 - expLo z1 ≤ 3 * d + 4 / 2 ^ 250 := by
  obtain ⟨a1, a2, a3⟩ := exp_encl z1 h1
  obtain ⟨b1, b2, b3⟩ := exp_encl z2 h2
  have hm : Real.exp z2 - Real.exp z1 ≤ 3 * d := by
    have e1 : Real.exp z1 = Real.exp z2 * Real.exp ((z1 : ℝ) - z2) := by rw [← Real.exp_add]; congr 1; ring
    have e2 := Real.add_one_le_exp ((z1 : ℝ) - z2)
    have e3 : Real.exp z2 ≤ 3 := by
      have : (z2 : ℝ) ≤ 1 := by exact_mod_cast (abs_le.mp h2).2
      exact (Real.exp_le_exp.mpr this).trans (by linarith [Real.exp_one_lt_d9])
    have e4 : (z2 : ℝ) - z1 ≤ d := by exact_mod_cast hd
    have e5 : (0 : ℝ) ≤ d := by exact_mod_cast hd0
    have e6 := Real.exp_pos (z2 : ℝ)
    nlinarith
  have a3' : (expHi z1 : ℝ) - expLo z1 ≤ 2 / 2 ^ 250 := by
    have := (Rat.cast_le (K := ℝ)).mpr a3
    push_cast at this
    exact this
  have b3' : (expHi z2 : ℝ) - expLo z2 ≤ 2 / 2 ^ 250 := by
    have := (Rat.cast_le (K := ℝ)).mpr b3
    push_cast at this
    exact this
  have : (expHi z2 : ℝ) - expLo z1 ≤ 3 * d + 4 / 2 ^ 250 := by
    have : (4 : ℝ) / 2 ^ 250 = 2 / 2 ^ 250 + 2 / 2 ^ 250 := by ring
    linarith
  refine (Rat.cast_le (K := ℝ)).mp ?_
  push_cast
  exact this

/-- The enclosure of -ln (1 - x) for an x from 0 to 1/2. -/
theorem log_encl (x : Rat) (h0 : 0 ≤ x) (h1 : x ≤ 1 / 2) :
    (logSum 200 x : ℝ) ≤ -Real.log (1 - x) ∧ -Real.log (1 - x) ≤ (logSum 200 x + logRest : Rat) := by
  have hx0 : (0 : ℝ) ≤ x := by exact_mod_cast h0
  have hx1 : (x : ℝ) ≤ 1 / 2 := by
    have := (Rat.cast_le (K := ℝ)).mpr h1
    push_cast at this
    exact this
  have habs : |(x : ℝ)| < 1 := by rw [abs_of_nonneg hx0]; linarith
  have hs : ((logSum 200 x : Rat) : ℝ) = ∑ i ∈ Finset.range 200, (x : ℝ) ^ (i + 1) / (i + 1) := by
    unfold logSum
    push_cast
    rfl
  constructor
  · rw [hs]
    exact sum_le_hasSum _ (fun i _ => by positivity) (Real.hasSum_pow_div_log_of_abs_lt_one habs)
  · have hb := (abs_le.mp (Real.abs_log_sub_add_sum_range_le habs 200)).1
    rw [← hs, abs_of_nonneg hx0] at hb
    have hr : (x : ℝ) ^ (200 + 1) / (1 - x) ≤ 1 / 2 ^ 200 := by
      rw [div_le_iff₀ (by linarith)]
      have : (x : ℝ) ^ (200 + 1) ≤ (1 / 2) ^ (200 + 1) := pow_le_pow_left₀ hx0 hx1 _
      have h2 : (1 / 2 : ℝ) ^ (200 + 1) = 1 / 2 ^ 200 * (1 / 2) := by rw [pow_succ, one_div_pow]
      have h3 : (1 : ℝ) / 2 ^ 200 * (1 / 2) ≤ 1 / 2 ^ 200 * (1 - x) := mul_le_mul_of_nonneg_left (by linarith) (by positivity)
      linarith
    unfold logRest
    push_cast
    linarith

theorem ln2_encl : (ln2Lo : ℝ) ≤ Real.log 2 ∧ Real.log 2 ≤ ln2Hi ∧ 0.69 ≤ ln2Lo ∧ ln2Lo ≤ 0.7 ∧ ln2Hi = ln2Lo + 1 / 2 ^ 200 := by
  obtain ⟨h1, h2⟩ := log_encl (1 / 2) (by norm_num) le_rfl
  have he : -Real.log (1 - ((1 / 2 : Rat) : ℝ)) = Real.log 2 := by
    push_cast
    rw [show (1 : ℝ) - 1 / 2 = 2⁻¹ by norm_num, Real.log_inv, neg_neg]
  rw [he] at h1 h2
  have h3 := Real.log_two_gt_d9
  have h4 := Real.log_two_lt_d9
  refine ⟨h1, h2, ?_, ?_, rfl⟩
  · have : (0.69 : ℝ) ≤ ln2Lo := by
      have h5 : Real.log 2 ≤ (ln2Lo : ℝ) + 1 / 2 ^ 200 := by
        refine h2.trans (le_of_eq ?_)
        unfold ln2Lo logRest
        push_cast
        rfl
      norm_num at h5 ⊢
      linarith
    refine (Rat.cast_le (K := ℝ)).mp ?_
    push_cast
    norm_num at this ⊢
    exact this
  · have : (ln2Lo : ℝ) ≤ 0.7 := by
      have h1' : (ln2Lo : ℝ) ≤ Real.log 2 := h1
      norm_num at h4 ⊢
      linarith
    refine (Rat.cast_le (K := ℝ)).mp ?_
    push_cast
    norm_num at this ⊢
    exact this

/-- A number that is a multiple of its unit has its own code. -/
theorem code_exact (k e : Int) (hq : |(k : Rat) * 2 ^ e| ≤ fpMax) (z : Nat) (hz : |(k : Rat) * 2 ^ e| = z * 2 ^ unitExp k.natAbs e) :
    fp32Finite (BitVec.ofNat 32 (FFmt.fp32.code .rne false (.ofInt false k e))) ∧
    fp32Real (BitVec.ofNat 32 (FFmt.fp32.code .rne false (.ofInt false k e))) = ((k * 2 ^ e : Rat) : ℝ) := by
  obtain ⟨hp, -, -, -, hc, hx⟩ := code_place .rne k e hq
  have := ofOrd_real _ hp
  rw [hc]
  exact ⟨this.1, by rw [this.2, hx z hz]⟩

theorem withinUlps_exact {n : Nat} {w : W32} {y : ℝ} (h : fp32Finite w) (hy : fp32Real w = y) : withinUlps n w y :=
  ⟨h, by rw [hy, sub_self, abs_zero]; positivity⟩

/-- 2^I is a code of FP32 from I = -149 on. -/
theorem code_pow (I : Int) (h1 : -149 ≤ I) (h2 : I ≤ 127) :
    fp32Finite (BitVec.ofNat 32 (FFmt.fp32.code .rne false (.fin false 1 I))) ∧
    fp32Real (BitVec.ofNat 32 (FFmt.fp32.code .rne false (.fin false 1 I))) = 2 ^ I := by
  have hp : (0 : Rat) < 2 ^ I := by positivity
  have hle : (2 : Rat) ^ I ≤ 2 ^ (127 : ℤ) := zpow_le_zpow_right₀ (by norm_num) h2
  have hu : unitExp (1 : Int).natAbs I = max (I - 23) (-149) := by
    unfold unitExp binade
    rw [show (1 : Int).natAbs.log2 = 0 by decide]
    simp
  have h := code_exact 1 I (by rw [Int.cast_one, one_mul, abs_of_pos hp]; refine hle.trans ?_; unfold fpMax; norm_num)
    (2 ^ (I - max (I - 23) (-149)).toNat) (by
      rw [Int.cast_one, one_mul, abs_of_pos hp, hu]
      push_cast
      rw [← zpow_natCast, Int.toNat_of_nonneg (by omega), ← zpow_add₀ (by norm_num)]
      congr 1
      ring)
  push_cast at h
  rw [one_mul] at h
  exact h

theorem two_rpow_split (I : Int) (f : ℝ) : (2 : ℝ) ^ ((I : ℝ) + f) = 2 ^ I * Real.exp (f * Real.log 2) := by
  rw [Real.rpow_add (by norm_num), Real.rpow_intCast, Real.rpow_def_of_pos (by norm_num : (0 : ℝ) < 2) f, mul_comm (Real.log 2)]

/-- An input of FP32 from 127 up to 128 is at most 128 - 2^-17. -/
theorem below_128 {m : Nat} {e : Int} (hm : m < 2 ^ 24) (h1 : (127 : Rat) ≤ m * 2 ^ e) (h2 : (m : Rat) * 2 ^ e < 128) :
    (m : Rat) * 2 ^ e ≤ 128 - 1 / 2 ^ 17 := by
  have he : -17 ≤ e := by
    by_contra hc
    have : (2 : Rat) ^ e ≤ 2 ^ (-18 : ℤ) := zpow_le_zpow_right₀ (by norm_num) (by omega)
    have h3 : (m : Rat) ≤ 2 ^ 24 := by exact_mod_cast hm.le
    have : (m : Rat) * 2 ^ e ≤ 2 ^ 24 * 2 ^ (-18 : ℤ) := mul_le_mul h3 this (by positivity) (by positivity)
    norm_num at this
    linarith
  obtain ⟨j, hj⟩ : ∃ j : ℕ, (j : ℤ) = e + 17 := ⟨(e + 17).toNat, by omega⟩
  have hint : (m : Rat) * 2 ^ e = ((m * 2 ^ j : ℕ) : Rat) * (1 / 2 ^ 17) := by
    rw [show e = j + (-17) by omega, zpow_add₀ (by norm_num)]
    push_cast
    rw [zpow_natCast]
    norm_num
    ring
  rw [hint] at h2 ⊢
  have h4 : ((m * 2 ^ j : ℕ) : Rat) < (128 * 2 ^ 17 : ℕ) := by
    push_cast at h2 ⊢
    linarith
  have h5 : m * 2 ^ j + 1 ≤ 128 * 2 ^ 17 := by exact_mod_cast h4
  have h6 : ((m * 2 ^ j : ℕ) : Rat) + 1 ≤ (128 * 2 ^ 17 : ℕ) := by exact_mod_cast h5
  push_cast at h6 ⊢
  linarith

/-- R219: VFEXP2 gives 2^a within 2 ulp, exactly for an integer a. -/
theorem exp2_within (x : W32) (h : fp32Finite x) (h1 : -149 ≤ fp32Real x) (h2 : fp32Real x < 128) :
    withinUlps 2 (on1 exp2Approx x) (2 ^ fp32Real x) ∧ ∀ k : ℤ, fp32Real x = k → fp32Real (on1 exp2Approx x) = 2 ^ k := by
  obtain ⟨n, m, e, hv, hm, he, -, hr⟩ := fp32_fin x h
  obtain ⟨a, ha⟩ : ∃ a, a = Fv.rat n m e := ⟨_, rfl⟩
  rw [hr, ← ha] at h1 h2 ⊢
  have h1' : (-149 : Rat) ≤ a := by exact_mod_cast h1
  have h2' : a < 128 := by exact_mod_cast h2
  have b1 : ¬ Fv.lt (.fin n m e) (.fin true 149 0) = true := by
    rw [rat_lt, ← ha]
    norm_num [Fv.rat]
    exact h1'
  have b2 : Fv.lt (.fin n m e) (.fin false 128 0) = true := by
    rw [rat_lt, ← ha]
    norm_num [Fv.rat]
    exact h2'
  have hI1 : -149 ≤ ⌊a⌋ := Int.le_floor.mpr (by exact_mod_cast h1')
  have hI2 : ⌊a⌋ ≤ 127 := by
    have : ⌊a⌋ < 128 := Int.floor_lt.mpr (by exact_mod_cast h2')
    omega
  by_cases hint : (⌊a⌋ : Rat) = a
  · have hc : on1 exp2Approx x = BitVec.ofNat 32 (FFmt.fp32.code .rne false (.fin false 1 ⌊a⌋)) := by
      unfold on1 exp2Approx
      rw [hv]
      simp only [← ha]
      rw [if_neg b1, if_neg (by rw [b2]; decide), if_pos hint]
    obtain ⟨c1, c2⟩ := code_pow ⌊a⌋ hI1 hI2
    have hay : (a : ℝ) = (⌊a⌋ : ℤ) := by exact_mod_cast hint.symm
    rw [hc]
    refine ⟨withinUlps_exact c1 ?_, fun k hk => ?_⟩
    · rw [c2, hay, Real.rpow_intCast]
    · rw [c2]
      rw [hay] at hk
      rw [Int.cast_injective hk]
  obtain ⟨I, hI⟩ : ∃ I, I = ⌊a⌋ := ⟨_, rfl⟩
  obtain ⟨f, hf⟩ : ∃ f, f = a - ⌊a⌋ := ⟨_, rfl⟩
  have hc : on1 exp2Approx x = BitVec.ofNat 32 (ofOrd (pickOrd 5 x.toNat (2 ^ I * expLo (f * ln2Lo)) (2 ^ I * expHi (f * ln2Hi))
      (ulps 2 (2 ^ I * expLo (f * ln2Lo)) (2 ^ I * expHi (f * ln2Hi))))) := by
    unfold on1 exp2Approx
    rw [hv]
    simp only [← ha]
    rw [if_neg b1, if_neg (by rw [b2]; decide), if_neg hint, hI, hf]
    rfl
  rw [← hI] at hI1 hI2 hf
  have hf0 : 0 ≤ f := by rw [hf, hI]; linarith [Int.floor_le a]
  have hf1 : f < 1 := by rw [hf, hI]; linarith [Int.lt_floor_add_one a]
  obtain ⟨l1, l2, l3, l4, l5⟩ := ln2_encl
  have h200 : (0 : Rat) < 1 / 2 ^ 200 := by positivity
  have h200b : (1 : Rat) / 2 ^ 200 ≤ 1 / 100 := by norm_num
  have z1 : |f * ln2Lo| ≤ 1 := by rw [abs_of_nonneg (by nlinarith)]; nlinarith
  have z2 : |f * ln2Hi| ≤ 1 := by rw [abs_of_nonneg (by nlinarith)]; nlinarith
  obtain ⟨p1, p2, p3⟩ := exp_encl _ z1
  obtain ⟨q1, q2, q3⟩ := exp_encl _ z2
  have hw := exp_width (d := 1 / 2 ^ 200) z1 z2 (by rw [l5]; nlinarith) h200.le
  have hf0' : (0 : ℝ) ≤ f := by exact_mod_cast hf0
  have hpow : (0 : ℝ) < 2 ^ I := by positivity
  have hpowq : (0 : Rat) < 2 ^ I := by positivity
  have hy : (2 : ℝ) ^ (a : ℝ) = 2 ^ I * Real.exp (f * Real.log 2) := by
    rw [← two_rpow_split]
    congr 1
    rw [hf]
    push_cast
    ring
  have hylo : ((2 ^ I * expLo (f * ln2Lo) : Rat) : ℝ) ≤ 2 ^ (a : ℝ) := by
    rw [hy]
    push_cast
    refine mul_le_mul_of_nonneg_left (p1.trans (Real.exp_le_exp.mpr ?_)) hpow.le
    push_cast
    exact mul_le_mul_of_nonneg_left l1 hf0'
  have hyhi : (2 : ℝ) ^ (a : ℝ) ≤ ((2 ^ I * expHi (f * ln2Hi) : Rat) : ℝ) := by
    rw [hy]
    push_cast
    refine mul_le_mul_of_nonneg_left (le_trans (Real.exp_le_exp.mpr ?_) q2) hpow.le
    push_cast
    exact mul_le_mul_of_nonneg_left l2 hf0'
  have hloge : 1 / 2 ≤ expLo (f * ln2Lo) := by
    have e1 : (1 : ℝ) ≤ Real.exp ((f * ln2Lo : Rat) : ℝ) := Real.one_le_exp (by
      have : 0 ≤ f * ln2Lo := by nlinarith
      exact_mod_cast this)
    have e2 : (1 : Rat) ≤ expHi (f * ln2Lo) := by exact_mod_cast e1.trans p2
    have : (2 : Rat) / 2 ^ 250 ≤ 1 / 2 := by norm_num
    linarith
  have hlo0 : 0 < 2 ^ I * expLo (f * ln2Lo) := mul_pos hpowq (by linarith)
  have hulp : (2 : Rat) ^ (I - 24) ≤ 2 ^ ulpExp (2 ^ I * expLo (f * ln2Lo)) := by
    refine zpow_le_zpow_right₀ (by norm_num) (le_trans ?_ (le_max_left _ _))
    have : I - 1 ≤ Int.log 2 |2 ^ I * expLo (f * ln2Lo)| := by
      refine (Int.zpow_le_iff_le_log (by norm_num) (abs_pos.mpr hlo0.ne')).mp ?_
      rw [abs_of_pos hlo0]
      push_cast
      rw [zpow_sub_one₀ (by norm_num)]
      exact mul_le_mul_of_nonneg_left (by linarith) hpowq.le
    omega
  have hulp2 : (2 : Rat) ^ (-149 : ℤ) ≤ 2 ^ ulpExp (2 ^ I * expLo (f * ln2Lo)) := zpow_le_zpow_right₀ (by norm_num) (ulpExp_ge _)
  have hwid : 2 ^ I * expHi (f * ln2Hi) - 2 ^ I * expLo (f * ln2Lo) + 1 / 2 ^ 256 ≤ 2 ^ ulpExp (2 ^ I * expLo (f * ln2Lo)) / 4 := by
    have e1 : (2 : Rat) ^ (I - 24) = 2 ^ I * (1 / 2 ^ 24) := by rw [zpow_sub₀ (by norm_num)]; norm_num; ring
    have e2 : 3 * (1 / 2 ^ 200) + 4 / 2 ^ 250 ≤ (1 : Rat) / 2 ^ 24 / 8 := by norm_num
    have e3 : (2 : Rat) ^ I * (expHi (f * ln2Hi) - expLo (f * ln2Lo)) ≤ 2 ^ I * (1 / 2 ^ 24 / 8) := mul_le_mul_of_nonneg_left (hw.trans e2) hpowq.le
    have e4 : (1 : Rat) / 2 ^ 256 ≤ 2 ^ (-149 : ℤ) / 8 := by norm_num
    rw [e1] at hulp
    rw [mul_sub] at e3
    generalize (2 : Rat) ^ I * expHi (f * ln2Hi) = H at *
    generalize (2 : Rat) ^ ulpExp (2 ^ I * expLo (f * ln2Lo)) = U at *
    generalize (2 : Rat) ^ I * expLo (f * ln2Lo) = L at *
    generalize (2 : Rat) ^ (-149 : ℤ) = t at *
    generalize (1 : Rat) / 2 ^ 256 = r at *
    linarith
  have hhi : 2 ^ I * expHi (f * ln2Hi) ≤ 2 ^ 128 - 2 ^ 106 := by
    have hH : (expHi (f * ln2Hi) : ℝ) ≤ Real.exp ((f * ln2Hi : Rat) : ℝ) + 2 / 2 ^ 250 := by
      have := (Rat.cast_le (K := ℝ)).mpr q3
      push_cast at this
      push_cast at q1 ⊢
      linarith
    have hlog : ((ln2Hi : Rat) : ℝ) ≤ Real.log 2 + 1 / 2 ^ 200 := by
      rw [l5]
      push_cast
      linarith
    have hH0 : 0 ≤ expHi (f * ln2Hi) := by exact_mod_cast (Real.exp_pos _).le.trans q2
    rcases lt_or_eq_of_le hI2 with hlt | heq
    · have e1 : expHi (f * ln2Hi) ≤ 3 + 1 / 2 := by
        have : Real.exp ((f * ln2Hi : Rat) : ℝ) ≤ 3 := by
          have : ((f * ln2Hi : Rat) : ℝ) ≤ 1 := by exact_mod_cast (abs_le.mp z2).2
          exact (Real.exp_le_exp.mpr this).trans (by linarith [Real.exp_one_lt_d9])
        have e3 : (2 : ℝ) / 2 ^ 250 ≤ 1 / 2 := by norm_num
        refine (Rat.cast_le (K := ℝ)).mp ?_
        push_cast
        push_cast at hH this
        linarith
      have e2 : (2 : Rat) ^ I ≤ 2 ^ (126 : ℤ) := zpow_le_zpow_right₀ (by norm_num) (by omega)
      calc 2 ^ I * expHi (f * ln2Hi) ≤ 2 ^ (126 : ℤ) * (3 + 1 / 2) := mul_le_mul e2 e1 hH0 (by positivity)
        _ ≤ _ := by norm_num
    · have hfl : f ≤ 1 - 1 / 2 ^ 17 := by
        have hn : n = false := by
          cases n
          · rfl
          · have : a ≤ 0 := by rw [ha]; unfold Fv.rat; simp; positivity
            have : ⌊a⌋ ≤ 0 := by
              have := Int.floor_le_floor this
              simpa using this
            omega
        have ham : a = m * 2 ^ e := by rw [ha, hn]; simp [Fv.rat]
        have hIa : (127 : Rat) ≤ a := by
          have := Int.floor_le a
          rw [← hI, heq] at this
          exact_mod_cast this
        have := below_128 hm (by rw [← ham]; exact hIa) (by rw [← ham]; exact h2')
        rw [hf, heq, ham]
        push_cast
        linarith
      have e1 : Real.exp ((f * ln2Hi : Rat) : ℝ) ≤ 2 * (1 - 1 / 2 ^ 19) := by
        have hfl' : (f : ℝ) ≤ 1 - 1 / 2 ^ 17 := by
          have := (Rat.cast_le (K := ℝ)).mpr hfl
          push_cast at this
          exact this
        have e3 : ((f * ln2Hi : Rat) : ℝ) ≤ Real.log 2 + -(1 / 2 ^ 18) := by
          push_cast
          have l3' : (0.69 : ℝ) ≤ Real.log 2 := by linarith [Real.log_two_gt_d9]
          have e5 : (f : ℝ) * ln2Hi ≤ f * (Real.log 2 + 1 / 2 ^ 200) := mul_le_mul_of_nonneg_left hlog hf0'
          have e6 : (f : ℝ) * (Real.log 2 + 1 / 2 ^ 200) ≤ (1 - 1 / 2 ^ 17) * (Real.log 2 + 1 / 2 ^ 200) :=
            mul_le_mul_of_nonneg_right hfl' (by positivity)
          norm_num at e5 e6 ⊢
          linarith
        refine (Real.exp_le_exp.mpr e3).trans ?_
        rw [Real.exp_add, Real.exp_log (by norm_num)]
        refine mul_le_mul_of_nonneg_left ?_ (by norm_num)
        rw [Real.exp_neg]
        have e4 := Real.add_one_le_exp (1 / 2 ^ 18 : ℝ)
        refine (inv_anti₀ (by positivity) e4).trans ?_
        norm_num
      have e2 : expHi (f * ln2Hi) ≤ 2 * (1 - 1 / 2 ^ 20) := by
        refine (Rat.cast_le (K := ℝ)).mp ?_
        push_cast
        push_cast at e1 hH
        norm_num at e1 hH ⊢
        linarith
      rw [heq]
      calc (2 : Rat) ^ (127 : ℤ) * expHi (f * ln2Hi) ≤ 2 ^ (127 : ℤ) * (2 * (1 - 1 / 2 ^ 20)) := mul_le_mul_of_nonneg_left e2 (by positivity)
        _ ≤ _ := by norm_num
  have hlh : 2 ^ I * expLo (f * ln2Lo) ≤ 2 ^ I * expHi (f * ln2Hi) := by exact_mod_cast hylo.trans hyhi
  refine ⟨?_, fun k hk => ?_⟩
  · rw [hc]
    exact withinUlps_of_place (pickUlp_spec 5 x.toNat 2 hylo hyhi (.inl hlo0) (.inr rfl) hwid (by norm_num)
      (by rw [abs_of_pos hlo0]; exact hlh.trans hhi) (by rw [abs_of_pos (hlo0.trans_le hlh)]; exact hhi))
  · have : a = (k : Rat) := by exact_mod_cast hk
    exact absurd (by rw [this, Int.floor_intCast]) hint

/-- A whole number below 2^24 has its own code. -/
theorem code_int (k : Int) (h : k.natAbs < 2 ^ 24) :
    fp32Finite (BitVec.ofNat 32 (FFmt.fp32.code .rne false (.ofInt false k 0))) ∧
    fp32Real (BitVec.ofNat 32 (FFmt.fp32.code .rne false (.ofInt false k 0))) = k := by
  have hlog : k.natAbs.log2 ≤ 23 := by
    by_cases h0 : k.natAbs = 0
    · rw [h0]; decide
    · have : k.natAbs.log2 < 24 := (Nat.log2_lt h0).mpr h
      omega
  obtain ⟨j, hj⟩ : ∃ j : ℕ, (j : ℤ) = -unitExp k.natAbs 0 := ⟨(-unitExp k.natAbs 0).toNat, by unfold unitExp binade; omega⟩
  have habs : |(k : Rat) * 2 ^ (0 : ℤ)| = k.natAbs := by rw [zpow_zero, mul_one, Nat.cast_natAbs, Int.cast_abs]
  have hx := code_exact k 0 (by
      rw [habs]
      have : (k.natAbs : Rat) ≤ 2 ^ 24 := by exact_mod_cast h.le
      unfold fpMax
      norm_num at this ⊢
      linarith) (k.natAbs * 2 ^ j) (by
      rw [habs, show unitExp k.natAbs 0 = -(j : ℤ) by omega, zpow_neg, zpow_natCast]
      push_cast
      field_simp)
  exact ⟨hx.1, hx.2.trans (by simp)⟩

/-- The enclosure that VFLOG2 takes of log2 (m 2^e), for an m that is no power of two. -/
theorem log2_encl (m : Nat) (e : Int) (hm : m ≠ 0) :
    let t := logSum 200 (1 - m / 2 ^ (m.log2 + 1))
    let lo := ((binade m e + 1 : ℤ) : Rat) - (t + logRest) / ln2Lo
    let hi := ((binade m e + 1 : ℤ) : Rat) - t / ln2Hi
    (lo : ℝ) ≤ Real.logb 2 (m * 2 ^ e) ∧ Real.logb 2 (m * 2 ^ e) ≤ hi ∧ hi - lo ≤ 1 / 2 ^ 190 := by
  have hP : (0 : Rat) < 2 ^ (m.log2 + 1) := by positivity
  obtain ⟨M, hM⟩ : ∃ M : Rat, M = m / 2 ^ (m.log2 + 1) := ⟨_, rfl⟩
  have hM1 : 1 / 2 ≤ M := by
    rw [hM, le_div_iff₀ hP, pow_succ]
    have : ((2 ^ m.log2 : ℕ) : Rat) ≤ m := by exact_mod_cast Nat.log2_self_le hm
    push_cast at this
    linarith
  have hM2 : M ≤ 1 := by
    rw [hM, div_le_one hP]
    have : (m : Rat) ≤ (2 ^ (m.log2 + 1) : ℕ) := by exact_mod_cast Nat.lt_log2_self.le
    push_cast at this
    exact this
  obtain ⟨L, hL⟩ : ∃ L, L = Real.log 2 := ⟨_, rfl⟩
  obtain ⟨T, hT⟩ : ∃ T, T = -Real.log M := ⟨_, rfl⟩
  have hlog : Real.logb 2 (m * 2 ^ e) = ((binade m e + 1 : ℤ) : ℝ) - T / L := by
    have hMp : (0 : ℝ) < M := by
      have : 0 < M := by linarith
      exact_mod_cast this
    have hmE : (m : ℝ) * 2 ^ e = M * 2 ^ (binade m e + 1) := by
      rw [hM]
      push_cast
      unfold binade
      rw [show e + (m.log2 : ℤ) + 1 = e + ((m.log2 + 1 : ℕ) : ℤ) by push_cast; ring, zpow_add₀ (by norm_num), zpow_natCast]
      field_simp
    rw [hmE, hT, hL, Real.logb, Real.log_mul hMp.ne' (by positivity), Real.log_zpow]
    have : Real.log 2 ≠ 0 := (Real.log_pos (by norm_num)).ne'
    field_simp
    ring
  rw [← hM]
  obtain ⟨t, ht⟩ : ∃ t, t = logSum 200 (1 - M) := ⟨_, rfl⟩
  rw [← ht]
  obtain ⟨s1, s2⟩ := log_encl (1 - M) (by linarith) (by linarith)
  have hs : -Real.log (1 - ((1 - M : Rat) : ℝ)) = T := by rw [hT]; push_cast; ring_nf
  rw [hs, ← ht] at s1 s2
  obtain ⟨l1, l2, l3, l4, l5⟩ := ln2_encl
  rw [← hL] at l1 l2
  have ht0 : 0 ≤ t := by
    rw [ht]
    exact Finset.sum_nonneg fun i _ => div_nonneg (pow_nonneg (by linarith) _) (by positivity)
  have hr0 : (0 : Rat) < logRest := by unfold logRest; positivity
  have hlo0 : 0 < ln2Lo := by linarith
  have h200 : (0 : Rat) < 1 / 2 ^ 200 := by positivity
  have hhi0 : 0 < ln2Hi := by rw [l5]; linarith
  have hlo0' : (0 : ℝ) < ln2Lo := by exact_mod_cast hlo0
  have hhi0' : (0 : ℝ) < ln2Hi := by exact_mod_cast hhi0
  have hL0 : 0 < L := hlo0'.trans_le l1
  have ht0' : (0 : ℝ) ≤ t := by exact_mod_cast ht0
  have ht1 : t ≤ 1 := by
    have hT1 : T ≤ 1 := by
      rw [hT]
      have h1 := Real.log_le_log (by norm_num : (0 : ℝ) < 1 / 2) (show (1 / 2 : ℝ) ≤ M by
        have := (Rat.cast_le (K := ℝ)).mpr hM1
        push_cast at this
        exact this)
      rw [show (1 / 2 : ℝ) = 2⁻¹ by norm_num, Real.log_inv] at h1
      linarith [Real.log_two_lt_d9]
    exact_mod_cast s1.trans hT1
  simp only
  rw [hlog]
  refine ⟨?_, ?_, ?_⟩
  · push_cast
    push_cast at s2
    have : T / L ≤ ((t : ℝ) + (logRest : ℝ)) / ln2Lo := div_le_div₀ (by positivity) s2 hlo0' l1
    linarith
  · push_cast
    have : (t : ℝ) / ln2Hi ≤ T / L := div_le_div₀ (ht0'.trans s1) s1 hL0 l2
    linarith
  · have hd : (t + logRest) / ln2Lo - t / ln2Hi ≤ 1 / 2 ^ 190 := by
      rw [div_sub_div _ _ hlo0.ne' hhi0.ne', div_le_iff₀ (by positivity)]
      have e1 : (t + logRest) * ln2Hi - ln2Lo * t = t * (1 / 2 ^ 200) + logRest * ln2Hi := by rw [l5]; ring
      have e2 : t * (1 / 2 ^ 200) ≤ 1 * (1 / 2 ^ 200) := mul_le_mul_of_nonneg_right ht1 h200.le
      have e3 : logRest * ln2Hi ≤ 1 / 2 ^ 200 * 1 := by
        refine mul_le_mul le_rfl ?_ hhi0.le h200.le
        rw [l5]
        have : (1 : Rat) / 2 ^ 200 ≤ 1 / 100 := by norm_num
        linarith
      have e4 : (1 / 4 : Rat) ≤ ln2Lo * ln2Hi := by
        have : ln2Lo ≤ ln2Hi := by rw [l5]; linarith
        nlinarith
      have e5 : (1 : Rat) / 2 ^ 190 * (1 / 4) ≤ 1 / 2 ^ 190 * (ln2Lo * ln2Hi) := mul_le_mul_of_nonneg_left e4 (by positivity)
      rw [e1]
      norm_num at e2 e3 e5 ⊢
      linarith
    linarith

/-- R219: VFLOG2 gives log2 a within 2 ulp outside [1/2, 2], within 2^-22 inside, exactly for a power of two. -/
theorem log2_within (x : W32) (h : fp32Finite x) (hb : 0 < fp32Real x) :
    (fp32Real x < 1 / 2 ∨ 2 < fp32Real x → withinUlps 2 (on1 log2Approx x) (Real.logb 2 (fp32Real x))) ∧
    (1 / 2 ≤ fp32Real x → fp32Real x ≤ 2 →
      fp32Finite (on1 log2Approx x) ∧ |fp32Real (on1 log2Approx x) - Real.logb 2 (fp32Real x)| ≤ 2 ^ (-22 : ℤ)) ∧
    ∀ k : ℤ, fp32Real x = 2 ^ k → fp32Real (on1 log2Approx x) = k := by
  obtain ⟨n, m, e, hv, hm, he, he2, hr⟩ := fp32_fin x h
  have hb' : 0 < Fv.rat n m e := by rw [hr] at hb; exact_mod_cast hb
  obtain rfl : n = false := by
    cases n
    · rfl
    · have : Fv.rat true m e ≤ 0 := by unfold Fv.rat; simp; positivity
      exact absurd hb' (not_lt.mpr this)
  have hm0 : m ≠ 0 := rat_ne_zero.mp hb'.ne'
  have ha : fp32Real x = m * 2 ^ e := by rw [hr]; simp [Fv.rat]
  have hml : m.log2 ≤ 23 := by
    have : m.log2 < 24 := (Nat.log2_lt hm0).mpr hm
    omega
  have hK : (binade m e).natAbs ≤ 150 := by unfold binade; omega
  rw [ha]
  by_cases hp : m = 2 ^ m.log2
  · have hc : on1 log2Approx x = BitVec.ofNat 32 (FFmt.fp32.code .rne false (Fv.ofInt false (binade m e) 0)) := by
      unfold on1 log2Approx
      rw [hv]
      simp only [if_neg hm0, if_pos hp]
      rfl
    obtain ⟨c1, c2⟩ := code_int (binade m e) (by omega)
    have hpow : (m : ℝ) * 2 ^ e = 2 ^ binade m e := by
      have : (m : ℝ) = ((2 ^ m.log2 : ℕ) : ℝ) := by exact_mod_cast hp
      unfold binade
      rw [this, add_comm, zpow_add₀ (by norm_num)]
      push_cast
      rw [zpow_natCast]
    have hlog : Real.logb 2 ((m : ℝ) * 2 ^ e) = binade m e := by
      rw [hpow, ← Real.rpow_intCast, Real.logb_rpow (by norm_num) (by norm_num)]
    rw [hc, hlog]
    refine ⟨fun _ => withinUlps_exact c1 c2, fun _ _ => ⟨c1, by rw [c2, sub_self, abs_zero]; positivity⟩, fun k hk => ?_⟩
    rw [hpow] at hk
    rw [c2, zpow_right_injective₀ (by norm_num : (0 : ℝ) < 2) (by norm_num) hk]
  obtain ⟨y, hy⟩ : ∃ y, y = Real.logb 2 (m * 2 ^ e) := ⟨_, rfl⟩
  obtain ⟨e1, e2, e3⟩ := log2_encl m e hm0
  obtain ⟨lo, hlo⟩ : ∃ lo : Rat, lo = ((binade m e + 1 : ℤ) : Rat) - (logSum 200 (1 - m / 2 ^ (m.log2 + 1)) + logRest) / ln2Lo := ⟨_, rfl⟩
  obtain ⟨hi, hhi⟩ : ∃ hi : Rat, hi = ((binade m e + 1 : ℤ) : Rat) - logSum 200 (1 - m / 2 ^ (m.log2 + 1)) / ln2Hi := ⟨_, rfl⟩
  rw [← hlo, ← hhi] at e3
  rw [← hlo, ← hy] at e1
  rw [← hhi, ← hy] at e2
  have hc : on1 log2Approx x = BitVec.ofNat 32 (if binade m e + 1 = 0 ∨ binade m e + 1 = 1 then
      ofOrd (pickOrd 6 x.toNat lo hi (1 / 2 ^ 22)) else ofOrd (pickOrd 6 x.toNat lo hi (ulps 2 lo hi))) := by
    unfold on1 log2Approx
    rw [hv, hlo, hhi]
    simp only [if_neg hm0, if_neg hp]
    rfl
  obtain ⟨hb1, hb2⟩ := binade_le m e hm0
  have hb1' : (2 : ℝ) ^ binade m e ≤ m * 2 ^ e := by
    have := (Rat.cast_le (K := ℝ)).mpr hb1
    push_cast at this
    exact this
  have hb2' : (m : ℝ) * 2 ^ e < 2 ^ (binade m e + 1) := by
    have := (Rat.cast_lt (K := ℝ)).mpr hb2
    push_cast at this
    exact this
  have hne : (2 : ℝ) ^ binade m e ≠ m * 2 ^ e := by
    intro heq
    apply hp
    have h1 : (2 : ℝ) ^ m.log2 * 2 ^ e = m * 2 ^ e := by
      rw [← heq]
      unfold binade
      rw [add_comm e, zpow_add₀ (by norm_num), zpow_natCast]
    have h2 := mul_right_cancel₀ (by positivity) h1
    exact_mod_cast h2.symm
  have hapos : (0 : ℝ) < m * 2 ^ e := by rw [← ha]; exact hb
  have hlb : ∀ z : ℤ, Real.logb 2 ((2 : ℝ) ^ z) = z := fun z => by
    rw [← Real.rpow_intCast, Real.logb_rpow (by norm_num) (by norm_num)]
  have hy1 : (binade m e : ℝ) < y := by
    rw [hy, ← hlb (binade m e)]
    exact Real.logb_lt_logb (by norm_num) (by positivity) (lt_of_le_of_ne hb1' hne)
  have hy2 : y < ((binade m e + 1 : ℤ) : ℝ) := by
    rw [hy, ← hlb (binade m e + 1)]
    exact Real.logb_lt_logb (by norm_num) hapos hb2'
  have e3' : (hi : ℝ) - lo ≤ 1 / 2 ^ 190 := by
    have := (Rat.cast_le (K := ℝ)).mpr e3
    push_cast at this
    exact this
  have hsm : (1 : ℝ) / 2 ^ 190 ≤ 1 / 2 := by norm_num
  have hKr : (-150 : ℝ) ≤ binade m e ∧ (binade m e : ℝ) ≤ 150 := by
    constructor
    · have : -150 ≤ binade m e := by omega
      exact_mod_cast this
    · have : binade m e ≤ 150 := by omega
      exact_mod_cast this
  push_cast at hy2
  have hlM : |lo| ≤ 1000 := by
    rw [abs_le]
    constructor <;> refine (Rat.cast_le (K := ℝ)).mp ?_ <;> push_cast <;> linarith
  have hhM : |hi| ≤ 1000 := by
    rw [abs_le]
    constructor <;> refine (Rat.cast_le (K := ℝ)).mp ?_ <;> push_cast <;> linarith
  have hnot : ∀ k : ℤ, (m : ℝ) * 2 ^ e = 2 ^ k → False := fun k hk => by
    rw [hy, hk, hlb] at hy1 hy2
    have h1 : binade m e < k := by exact_mod_cast hy1
    have h2 : k < binade m e + 1 := by exact_mod_cast hy2
    omega
  rw [← hy, hc]
  by_cases hk : binade m e + 1 = 0 ∨ binade m e + 1 = 1
  · rw [if_pos hk]
    have hin : 1 / 2 ≤ (m : ℝ) * 2 ^ e ∧ (m : ℝ) * 2 ^ e ≤ 2 := by
      have h1 : (2 : ℝ) ^ (-1 : ℤ) ≤ 2 ^ binade m e := zpow_le_zpow_right₀ (by norm_num) (by omega)
      have h2 : (2 : ℝ) ^ (binade m e + 1) ≤ 2 ^ (1 : ℤ) := zpow_le_zpow_right₀ (by norm_num) (by omega)
      norm_num at h1 h2
      constructor <;> linarith
    have hk1 : (-1 : ℝ) ≤ binade m e ∧ (binade m e : ℝ) ≤ 0 := by
      constructor
      · have : -1 ≤ binade m e := by omega
        exact_mod_cast this
      · have : binade m e ≤ 0 := by omega
        exact_mod_cast this
    have hl2 : |lo| ≤ 2 ^ (-23 + 24 : ℤ) := by
      rw [abs_le]
      constructor <;> refine (Rat.cast_le (K := ℝ)).mp ?_ <;> norm_num <;> linarith
    obtain ⟨r1, r2⟩ := pickOrd_spec 6 x.toNat (b := 1 / 2 ^ 22) (v := -23) e1 e2 (by norm_num) hl2
      (by norm_num at e3 ⊢; linarith) (by unfold fpMax; norm_num at hlM ⊢; linarith) (by unfold fpMax; norm_num at hhM ⊢; linarith)
    obtain ⟨o1, o2⟩ := ofOrd_real _ r1
    refine ⟨fun ho => absurd ho (by push Not; exact hin), fun _ _ => ⟨o1, ?_⟩, fun k hk => (hnot k hk).elim⟩
    rw [o2]
    refine r2.trans ?_
    push_cast
    norm_num
  · rw [if_neg hk]
    have hs : 0 < lo ∨ hi < 0 := by
      rcases le_or_gt (binade m e) (-2) with hneg | hpos
      · right
        have : (binade m e : ℝ) ≤ -2 := by exact_mod_cast hneg
        refine (Rat.cast_lt (K := ℝ)).mp ?_
        push_cast
        linarith
      · left
        have : (1 : ℝ) ≤ binade m e := by
          have : 1 ≤ binade m e := by omega
          exact_mod_cast this
        refine (Rat.cast_lt (K := ℝ)).mp ?_
        push_cast
        linarith
    have hu : (2 : Rat) ^ (-149 : ℤ) ≤ 2 ^ ulpExp lo := zpow_le_zpow_right₀ (by norm_num) (ulpExp_ge lo)
    have hout : ¬((1 : ℝ) / 2 ≤ m * 2 ^ e ∧ (m : ℝ) * 2 ^ e ≤ 2) := by
      rintro ⟨i1, i2⟩
      rcases le_or_gt (binade m e) (-2) with hneg | hpos
      · have : (2 : ℝ) ^ (binade m e + 1) ≤ 2 ^ (-1 : ℤ) := zpow_le_zpow_right₀ (by norm_num) (by omega)
        norm_num at this i1
        linarith
      · have : (2 : ℝ) ^ (1 : ℤ) ≤ 2 ^ binade m e := zpow_le_zpow_right₀ (by norm_num) (by omega)
        have := lt_of_le_of_ne hb1' hne
        norm_num at *
        linarith
    refine ⟨fun _ => withinUlps_of_place (pickUlp_spec 6 x.toNat 2 e1 e2 hs (.inr rfl) ?_ (by norm_num) (hlM.trans (by norm_num))
      (hhM.trans (by norm_num))), fun i1 i2 => absurd ⟨i1, i2⟩ hout, fun k hk => (hnot k hk).elim⟩
    refine le_trans ?_ (div_le_div_of_nonneg_right hu (by norm_num))
    norm_num at e3 ⊢
    linarith

theorem tanh_exp (x : ℝ) : Real.tanh x = (Real.exp (2 * x) - 1) / (Real.exp (2 * x) + 1) := by
  rw [Real.tanh_eq_sinh_div_cosh, Real.sinh_eq, Real.cosh_eq]
  have h : Real.exp (2 * x) = Real.exp x * Real.exp x := by rw [← Real.exp_add]; congr 1; ring
  have h2 : Real.exp x * Real.exp (-x) = 1 := by rw [← Real.exp_add, add_neg_cancel, Real.exp_zero]
  have hp := Real.exp_pos x
  have hn := Real.exp_pos (-x)
  rw [h, div_div_div_cancel_right₀ (by norm_num), div_eq_div_iff (by positivity) (by positivity)]
  linear_combination (-2 * Real.exp x) * h2

theorem tanhOf_mono {u v : ℝ} (hu : 0 < u) (h : u ≤ v) : (u - 1) / (u + 1) ≤ (v - 1) / (v + 1) := by
  rw [div_le_div_iff₀ (by linarith) (by linarith)]
  nlinarith

/-- The enclosure that VFTANH takes of tanh x for a positive x. -/
theorem tanh_encl (x : Rat) (hx : 0 < x) :
    (tanhLo x : ℝ) ≤ Real.tanh x ∧ Real.tanh x ≤ tanhHi x ∧ 0 < tanhLo x ∧ tanhHi x ≤ 1 ∧
    (tanhHi x - tanhLo x ≤ 1 / 2 ^ 170 ∨ 1 / 2 ≤ tanhLo x ∧ tanhHi x - tanhLo x ≤ 1 / 2 ^ 30) := by
  rcases le_or_gt 16 x with h16 | h16
  · have hlo : tanhLo x = 1 - 1 / 2 ^ 30 := if_pos h16
    have hhi : tanhHi x = 1 := if_pos h16
    rw [hlo, hhi]
    refine ⟨?_, by push_cast; exact (Real.tanh_lt_one _).le, by norm_num, le_rfl, .inr ⟨by norm_num, by norm_num⟩⟩
    have h16' : (16 : ℝ) ≤ x := by exact_mod_cast h16
    have he : (2 : ℝ) ^ 32 ≤ Real.exp (2 * x) := by
      have h1 : (2 : ℝ) ≤ Real.exp 1 := by linarith [Real.exp_one_gt_d9]
      calc (2 : ℝ) ^ 32 ≤ Real.exp 1 ^ 32 := pow_le_pow_left₀ (by norm_num) h1 _
        _ = Real.exp ((32 : ℕ) * 1) := (Real.exp_nat_mul 1 32).symm
        _ ≤ _ := Real.exp_le_exp.mpr (by push_cast; linarith)
    rw [tanh_exp]
    have := tanhOf_mono (by norm_num : (0 : ℝ) < 2 ^ 32) he
    push_cast
    norm_num at this ⊢
    linarith
  obtain ⟨l1, l2, l3, l4, l5⟩ := ln2_encl
  have h200 : (0 : Rat) < 1 / 2 ^ 200 := by positivity
  obtain ⟨I, hI⟩ : ∃ I, I = tanhTurns x := ⟨_, rfl⟩
  obtain ⟨zl, hzl⟩ : ∃ z, z = 2 * x - I * ln2Hi := ⟨_, rfl⟩
  obtain ⟨zh, hzh⟩ : ∃ z, z = 2 * x - I * ln2Lo := ⟨_, rfl⟩
  have hlo : tanhLo x = tanhOf (2 ^ I * expLo zl) := by rw [hzl, hI]; exact if_neg (not_le.mpr h16)
  have hhi : tanhHi x = tanhOf (2 ^ I * expHi zh) := by rw [hzh, hI]; exact if_neg (not_le.mpr h16)
  have hturn : 0 ≤ zh ∧ zh ≤ 9 / 10 ∧ I ≤ 47 := by
    have hd : (⌊2 * x / ln2Lo⌋.toNat : Rat) = (⌊2 * x / ln2Lo⌋ : Rat) := by
      have := Int.toNat_of_nonneg (Int.floor_nonneg.mpr (by positivity : 0 ≤ 2 * x / ln2Lo))
      exact_mod_cast this
    have hdiv : 2 * x / ln2Lo * ln2Lo = 2 * x := by field_simp
    by_cases h4 : 4 * x < 1
    · have : I = 0 := by rw [hI]; exact if_pos h4
      rw [hzh, this]
      push_cast
      refine ⟨by linarith, by linarith, by norm_num⟩
    · have hIv : I = ⌊2 * x / ln2Lo⌋.toNat := by rw [hI]; exact if_neg h4
      have f1 := Int.floor_le (2 * x / ln2Lo)
      have f2 := Int.lt_floor_add_one (2 * x / ln2Lo)
      rw [← hd, ← hIv] at f1 f2
      have f3 := mul_le_mul_of_nonneg_right f1 (by linarith : 0 ≤ ln2Lo)
      have f4 := mul_le_mul_of_nonneg_right f2.le (by linarith : 0 ≤ ln2Lo)
      rw [hdiv] at f3 f4
      refine ⟨by rw [hzh]; linarith, by rw [hzh]; linarith, ?_⟩
      by_contra hc
      have : (48 : Rat) ≤ I := by exact_mod_cast (by omega : 48 ≤ I)
      nlinarith
  obtain ⟨g1, g2, g3⟩ := hturn
  have hI0 : (0 : Rat) ≤ I := by positivity
  have hI47 : (I : Rat) ≤ 47 := by exact_mod_cast g3
  have hdz : zh - zl = I * (1 / 2 ^ 200) := by rw [hzh, hzl, l5]; ring
  have hdz2 : zh - zl ≤ 47 * (1 / 2 ^ 200) := by rw [hdz]; exact mul_le_mul_of_nonneg_right hI47 h200.le
  have hdz0 : 0 ≤ zh - zl := by rw [hdz]; positivity
  have hs : (47 : Rat) * (1 / 2 ^ 200) ≤ 1 / 100 := by norm_num
  have a1 : |zl| ≤ 1 := by rw [abs_le]; constructor <;> linarith
  have a2 : |zh| ≤ 1 := by rw [abs_le]; constructor <;> linarith
  obtain ⟨p1, p2, p3⟩ := exp_encl zl a1
  obtain ⟨q1, q2, q3⟩ := exp_encl zh a2
  have hw := exp_width a1 a2 hdz2 (by positivity)
  have hE : Real.exp (2 * x) = 2 ^ I * Real.exp (2 * x - I * Real.log 2) := by
    have : (2 : ℝ) ^ I = Real.exp (I * Real.log 2) := by rw [Real.exp_nat_mul, Real.exp_log (by norm_num)]
    rw [this, ← Real.exp_add]
    congr 1
    ring
  have hIr : (0 : ℝ) ≤ I := by positivity
  have hP : (0 : ℝ) < 2 ^ I := by positivity
  have hPq : (1 : Rat) ≤ 2 ^ I := one_le_pow₀ (by norm_num)
  have e1 : ((2 ^ I * expLo zl : Rat) : ℝ) ≤ Real.exp (2 * x) := by
    rw [hE]
    push_cast
    refine mul_le_mul_of_nonneg_left (p1.trans (Real.exp_le_exp.mpr ?_)) hP.le
    rw [hzl]
    push_cast
    linarith [mul_le_mul_of_nonneg_left l2 hIr]
  have e2 : Real.exp (2 * x) ≤ ((2 ^ I * expHi zh : Rat) : ℝ) := by
    rw [hE]
    push_cast
    refine mul_le_mul_of_nonneg_left (le_trans (Real.exp_le_exp.mpr ?_) q2) hP.le
    rw [hzh]
    push_cast
    linarith [mul_le_mul_of_nonneg_left l1 hIr]
  have hone : 1 < 2 ^ I * expLo zl := by
    by_cases h0 : I = 0
    · have hz : zl = 2 * x := by rw [hzl, h0]; simp
      have := expLo_gt zl (by rw [hz]; linarith) (by linarith)
      rw [h0, pow_zero, one_mul]
      exact this
    · have h2 : (2 : Rat) ≤ 2 ^ I := by
        calc (2 : Rat) = 2 ^ 1 := (pow_one _).symm
          _ ≤ _ := pow_le_pow_right₀ (by norm_num) (by omega)
      have h3 : 1 / 2 < expLo zl := by
        have r1 := Real.add_one_le_exp (zl : ℝ)
        have r2 : zl + 1 ≤ expHi zl := by
          refine (Rat.cast_le (K := ℝ)).mp ?_
          push_cast
          linarith
        have r3 : (2 : Rat) / 2 ^ 250 ≤ 1 / 100 := by norm_num
        linarith
      nlinarith
  have hlohi : 2 ^ I * expLo zl ≤ 2 ^ I * expHi zh := by exact_mod_cast e1.trans e2
  have hone' : (1 : ℝ) < ((2 ^ I * expLo zl : Rat) : ℝ) := by exact_mod_cast hone
  rw [hlo, hhi, tanh_exp]
  refine ⟨?_, ?_, ?_, ?_, .inl ?_⟩
  · have := tanhOf_mono (by linarith) e1
    unfold tanhOf
    push_cast at this ⊢
    exact this
  · have := tanhOf_mono (Real.exp_pos _) e2
    unfold tanhOf
    push_cast at this ⊢
    exact this
  · exact div_pos (by linarith) (by linarith)
  · unfold tanhOf
    rw [div_le_one (by linarith)]
    linarith
  · unfold tanhOf
    rw [div_sub_div _ _ (by linarith) (by linarith), div_le_iff₀ (mul_pos (by linarith) (by linarith))]
    have w1 : 2 ^ I * expHi zh - 2 ^ I * expLo zl ≤ 2 ^ I * (1 / 2 ^ 180) := by
      rw [← mul_sub]
      refine mul_le_mul_of_nonneg_left (hw.trans ?_) (by linarith)
      norm_num
    have w2 : (2 : Rat) ^ I / 2 ≤ 2 ^ I * expHi zh := by
      have : 1 ≤ expHi zh := by
        have : (1 : ℝ) ≤ Real.exp zh := Real.one_le_exp (by exact_mod_cast g1)
        exact_mod_cast this.trans q2
      nlinarith
    generalize (2 : Rat) ^ I * expHi zh = H at *
    generalize (2 : Rat) ^ I * expLo zl = L at *
    generalize (2 : Rat) ^ I = P at *
    have w3 : (H - 1) * (L + 1) - (H + 1) * (L - 1) = 2 * (H - L) := by ring
    have w4 : P ≤ (H + 1) * (L + 1) := by nlinarith
    have w5 : (1 : Rat) / 2 ^ 170 * P ≤ 1 / 2 ^ 170 * ((H + 1) * (L + 1)) := mul_le_mul_of_nonneg_left w4 (by positivity)
    have w6 : 2 * (P * (1 / 2 ^ 180)) ≤ 1 / 2 ^ 170 * P := by
      have : (2 : Rat) * (1 / 2 ^ 180) ≤ 1 / 2 ^ 170 := by norm_num
      nlinarith
    rw [w3]
    linarith

/-- R219: VFTANH gives tanh a within 2 ulp, and never a result beyond 1. -/
theorem tanh_within (x : W32) (h : fp32Finite x) :
    withinUlps 2 (on1 tanhApprox x) (Real.tanh (fp32Real x)) ∧ |fp32Real (on1 tanhApprox x)| ≤ 1 := by
  obtain ⟨n, m, e, hv, hm, he, he2, hr⟩ := fp32_fin x h
  by_cases hm0 : m = 0
  · have hc : on1 tanhApprox x = x := by
      unfold on1 tanhApprox
      rw [hv]
      simp only [if_pos hm0]
      simp
    have h0 : fp32Real x = 0 := by rw [hr, hm0]; simp [Fv.rat]
    rw [hc, h0, Real.tanh_zero]
    exact ⟨withinUlps_exact h h0, by norm_num⟩
  obtain ⟨a, ha⟩ : ∃ a : Rat, a = Fv.rat false m e := ⟨_, rfl⟩
  have ha0 : 0 < a := by
    rw [ha, show Fv.rat false m e = m * 2 ^ e by simp [Fv.rat]]
    have : (0 : Rat) < m := by exact_mod_cast Nat.pos_of_ne_zero hm0
    positivity
  obtain ⟨t1, t2, t3, t4, t5⟩ := tanh_encl a ha0
  have t34 : tanhLo a ≤ tanhHi a := by exact_mod_cast t1.trans t2
  obtain ⟨lo, hlo⟩ : ∃ lo, lo = if n then -tanhHi a else tanhLo a := ⟨_, rfl⟩
  obtain ⟨hi, hhi⟩ : ∃ hi, hi = if n then -tanhLo a else tanhHi a := ⟨_, rfl⟩
  obtain ⟨y, hy⟩ : ∃ y, y = Real.tanh (fp32Real x) := ⟨_, rfl⟩
  have hya : y = if n then -Real.tanh a else Real.tanh a := by
    rw [hy, hr, ha]
    cases n
    · rfl
    · rw [if_pos rfl, ← Real.tanh_neg]
      congr 1
      unfold Fv.rat
      push_cast
      simp
  have y1 : (lo : ℝ) ≤ y := by
    rw [hlo, hya]
    cases n <;> simp <;> linarith
  have y2 : y ≤ hi := by
    rw [hhi, hya]
    cases n <;> simp <;> linarith
  have hs : 0 < lo ∨ hi < 0 := by
    rw [hlo, hhi]
    cases n
    · exact .inl t3
    · exact .inr (by simpa using t3)
  have hw0 : hi - lo = tanhHi a - tanhLo a := by
    rw [hlo, hhi]
    cases n <;> simp
    ring
  have habs : tanhLo a ≤ |lo| ∧ |lo| ≤ 1 ∧ |hi| ≤ 1 := by
    rw [hlo, hhi]
    cases n <;> simp <;> rw [abs_of_pos t3, abs_of_pos (t3.trans_le t34)] <;> refine ⟨?_, ?_, ?_⟩ <;> linarith
  have hw : hi - lo + 1 / 2 ^ 256 ≤ 2 ^ ulpExp lo / 4 := by
    rw [hw0]
    rcases t5 with t5 | ⟨t5, t6⟩
    · have hu : (2 : Rat) ^ (-149 : ℤ) ≤ 2 ^ ulpExp lo := zpow_le_zpow_right₀ (by norm_num) (ulpExp_ge lo)
      refine le_trans ?_ (div_le_div_of_nonneg_right hu (by norm_num))
      norm_num at t5 ⊢
      linarith
    · have hu : (2 : Rat) ^ (-24 : ℤ) ≤ 2 ^ ulpExp lo := by
        refine zpow_le_zpow_right₀ (by norm_num) (le_trans ?_ (le_max_left _ _))
        have : -1 ≤ Int.log 2 |lo| := by
          refine (Int.zpow_le_iff_le_log (by norm_num) (by linarith [habs.1])).mp ?_
          norm_num
          linarith [habs.1]
        omega
      refine le_trans ?_ (div_le_div_of_nonneg_right hu (by norm_num))
      norm_num at t6 ⊢
      linarith
  obtain ⟨p, hp⟩ : ∃ p, p = pickOrd 12 x.toNat lo hi (ulps 2 lo hi) := ⟨_, rfl⟩
  obtain ⟨q1, q2⟩ := pickUlp_spec 12 x.toNat 2 y1 y2 hs (.inr rfl) hw (by norm_num) (habs.2.1.trans (by norm_num)) (habs.2.2.trans (by norm_num))
  rw [← hp] at q1 q2
  obtain ⟨c, hcd⟩ : ∃ c, c = max (ordOf 0xBF800000) (min (ordOf 0x3F800000) p) := ⟨_, rfl⟩
  have hc : on1 tanhApprox x = BitVec.ofNat 32 (ofOrd c) := by
    unfold on1 tanhApprox
    rw [hv, hcd, hp, hlo, hhi]
    simp only [if_neg hm0, ha]
  have o1 : ordOf 0x3F800000 = 0x3F800000 := by decide
  have o2 : ordOf 0xBF800000 = -0x3F800000 - 1 := by decide
  rw [o1, o2] at hcd
  have r1 : ordRat 0x3F800000 = 1 := by
    unfold ordRat magRat
    norm_num
  have r2 : ordRat (-0x3F800000 - 1) = -1 := by
    unfold ordRat magRat
    norm_num
  have hcp : PlaceOk c := by unfold PlaceOk at *; omega
  have hc1 : ordRat c ≤ 1 := by rw [← r1]; exact ordRat_mono (by omega)
  have hc2 : -1 ≤ ordRat c := by rw [← r2]; exact ordRat_mono (by omega)
  have hc1' : (ordRat c : ℝ) ≤ 1 := by exact_mod_cast hc1
  have hc2' : (-1 : ℝ) ≤ ordRat c := by exact_mod_cast hc2
  have hy1 : y < 1 := by rw [hy]; exact Real.tanh_lt_one _
  have hy2 : -1 < y := by rw [hy]; exact Real.neg_one_lt_tanh _
  obtain ⟨f1, f2⟩ := ofOrd_real c hcp
  rw [hc, ← hy]
  refine ⟨withinUlps_of_place ⟨hcp, le_trans ?_ q2⟩, by rw [f2, abs_le]; exact ⟨hc2', hc1'⟩⟩
  have cases3 : c = p ∨ (c = 0x3F800000 ∧ c ≤ p) ∨ (c = -0x3F800000 - 1 ∧ p ≤ c) := by omega
  rcases cases3 with hcase | ⟨hcase, hle⟩ | ⟨hcase, hle⟩
  · rw [hcase]
  · have h1 : (ordRat c : ℝ) ≤ ordRat p := by exact_mod_cast ordRat_mono hle
    have h2 : (ordRat c : ℝ) = 1 := by rw [hcase, r1]; norm_num
    rw [abs_of_nonneg (by linarith), abs_of_nonneg (by linarith)]
    linarith
  · have h1 : (ordRat p : ℝ) ≤ ordRat c := by exact_mod_cast ordRat_mono hle
    have h2 : (ordRat c : ℝ) = -1 := by rw [hcase, r2]; norm_num
    rw [abs_of_neg (by linarith), abs_of_neg (by linarith)]
    linarith

end Sys2Proof.Machine
end

