-- ==== Sys2Proof/Laws/Arms.lean ====
section
/-! SUPPORT. The arm of every constructor: exec calls its meaning. -/

namespace Sys2Proof.Machine

open Sys2Proof

@[simp] theorem exec_sadd (g : Guard) (d a b : UReg) (s : State) :
    exec (.sadd g d a b) s = execSadd g d a b s := rfl
@[simp] theorem exec_ssub (g : Guard) (d a b : UReg) (s : State) :
    exec (.ssub g d a b) s = execSsub g d a b s := rfl
@[simp] theorem exec_smul (g : Guard) (d a b : UReg) (s : State) :
    exec (.smul g d a b) s = execSmul g d a b s := rfl
@[simp] theorem exec_smulh (g : Guard) (d a b : UReg) (s : State) :
    exec (.smulh g d a b) s = execSmulh g d a b s := rfl
@[simp] theorem exec_smulhu (g : Guard) (d a b : UReg) (s : State) :
    exec (.smulhu g d a b) s = execSmulhu g d a b s := rfl
@[simp] theorem exec_sdiv (g : Guard) (d a b : UReg) (s : State) :
    exec (.sdiv g d a b) s = execSdiv g d a b s := rfl
@[simp] theorem exec_sdivu (g : Guard) (d a b : UReg) (s : State) :
    exec (.sdivu g d a b) s = execSdivu g d a b s := rfl
@[simp] theorem exec_srem (g : Guard) (d a b : UReg) (s : State) :
    exec (.srem g d a b) s = execSrem g d a b s := rfl
@[simp] theorem exec_sand (g : Guard) (d a b : UReg) (s : State) :
    exec (.sand g d a b) s = execSand g d a b s := rfl
@[simp] theorem exec_sor (g : Guard) (d a b : UReg) (s : State) :
    exec (.sor g d a b) s = execSor g d a b s := rfl
@[simp] theorem exec_sxor (g : Guard) (d a b : UReg) (s : State) :
    exec (.sxor g d a b) s = execSxor g d a b s := rfl
@[simp] theorem exec_sshl (g : Guard) (d a b : UReg) (s : State) :
    exec (.sshl g d a b) s = execSshl g d a b s := rfl
@[simp] theorem exec_sshr (g : Guard) (d a b : UReg) (s : State) :
    exec (.sshr g d a b) s = execSshr g d a b s := rfl
@[simp] theorem exec_ssar (g : Guard) (d a b : UReg) (s : State) :
    exec (.ssar g d a b) s = execSsar g d a b s := rfl
@[simp] theorem exec_smin (g : Guard) (d a b : UReg) (s : State) :
    exec (.smin g d a b) s = execSmin g d a b s := rfl
@[simp] theorem exec_smax (g : Guard) (d a b : UReg) (s : State) :
    exec (.smax g d a b) s = execSmax g d a b s := rfl
@[simp] theorem exec_smovk (g : Guard) (d : UReg) (k : KOp) (s : State) :
    exec (.smovk g d k) s = execSmovk g d k s := rfl
@[simp] theorem exec_saddk (g : Guard) (d a : UReg) (k : KOp) (s : State) :
    exec (.saddk g d a k) s = execSaddk g d a k s := rfl
@[simp] theorem exec_sandk (g : Guard) (d a : UReg) (k : KOp) (s : State) :
    exec (.sandk g d a k) s = execSandk g d a k s := rfl
@[simp] theorem exec_sshlk (g : Guard) (d a : UReg) (k : KOp) (s : State) :
    exec (.sshlk g d a k) s = execSshlk g d a k s := rfl
@[simp] theorem exec_smov (g : Guard) (d a : UReg) (s : State) :
    exec (.smov g d a) s = execSmov g d a s := rfl
@[simp] theorem exec_snot (g : Guard) (d a : UReg) (s : State) :
    exec (.snot g d a) s = execSnot g d a s := rfl
@[simp] theorem exec_sneg (g : Guard) (d a : UReg) (s : State) :
    exec (.sneg g d a) s = execSneg g d a s := rfl
@[simp] theorem exec_sabs (g : Guard) (d a : UReg) (s : State) :
    exec (.sabs g d a) s = execSabs g d a s := rfl
@[simp] theorem exec_sclz (g : Guard) (d a : UReg) (s : State) :
    exec (.sclz g d a) s = execSclz g d a s := rfl
@[simp] theorem exec_spopc (g : Guard) (d a : UReg) (s : State) :
    exec (.spopc g d a) s = execSpopc g d a s := rfl
@[simp] theorem exec_ssx32 (g : Guard) (d a : UReg) (s : State) :
    exec (.ssx32 g d a) s = execSsx32 g d a s := rfl
@[simp] theorem exec_szx32 (g : Guard) (d a : UReg) (s : State) :
    exec (.szx32 g d a) s = execSzx32 g d a s := rfl
@[simp] theorem exec_sbrev (g : Guard) (d a : UReg) (s : State) :
    exec (.sbrev g d a) s = execSbrev g d a s := rfl
@[simp] theorem exec_scmpeq (g : Guard) (d : KReg) (a b : UReg) (s : State) :
    exec (.scmpeq g d a b) s = execScmpeq g d a b s := rfl
@[simp] theorem exec_scmpne (g : Guard) (d : KReg) (a b : UReg) (s : State) :
    exec (.scmpne g d a b) s = execScmpne g d a b s := rfl
@[simp] theorem exec_scmplt (g : Guard) (d : KReg) (a b : UReg) (s : State) :
    exec (.scmplt g d a b) s = execScmplt g d a b s := rfl
@[simp] theorem exec_scmple (g : Guard) (d : KReg) (a b : UReg) (s : State) :
    exec (.scmple g d a b) s = execScmple g d a b s := rfl
@[simp] theorem exec_scmpltu (g : Guard) (d : KReg) (a b : UReg) (s : State) :
    exec (.scmpltu g d a b) s = execScmpltu g d a b s := rfl
@[simp] theorem exec_scmpleu (g : Guard) (d : KReg) (a b : UReg) (s : State) :
    exec (.scmpleu g d a b) s = execScmpleu g d a b s := rfl
@[simp] theorem exec_kand (g : Guard) (d a b : KReg) (s : State) :
    exec (.kand g d a b) s = execKand g d a b s := rfl
@[simp] theorem exec_kor (g : Guard) (d a b : KReg) (s : State) :
    exec (.kor g d a b) s = execKor g d a b s := rfl
@[simp] theorem exec_kxor (g : Guard) (d a b : KReg) (s : State) :
    exec (.kxor g d a b) s = execKxor g d a b s := rfl
@[simp] theorem exec_kandn (g : Guard) (d a b : KReg) (s : State) :
    exec (.kandn g d a b) s = execKandn g d a b s := rfl
@[simp] theorem exec_vadd (g : Guard) (d a : VReg) (b : VSrc) (sat : Bool) (s : State) :
    exec (.vadd g d a b sat) s = execVadd g d a b sat s := rfl
@[simp] theorem exec_vsub (g : Guard) (d a : VReg) (b : VSrc) (sat : Bool) (s : State) :
    exec (.vsub g d a b sat) s = execVsub g d a b sat s := rfl
@[simp] theorem exec_vmul (g : Guard) (d a : VReg) (b : VSrc) (s : State) :
    exec (.vmul g d a b) s = execVmul g d a b s := rfl
@[simp] theorem exec_vmulh (g : Guard) (d a : VReg) (b : VSrc) (s : State) :
    exec (.vmulh g d a b) s = execVmulh g d a b s := rfl
@[simp] theorem exec_vmulhu (g : Guard) (d a : VReg) (b : VSrc) (s : State) :
    exec (.vmulhu g d a b) s = execVmulhu g d a b s := rfl
@[simp] theorem exec_vmad (g : Guard) (d a : VReg) (b : VSrc) (s : State) :
    exec (.vmad g d a b) s = execVmad g d a b s := rfl
@[simp] theorem exec_vand (g : Guard) (d a : VReg) (b : VSrc) (s : State) :
    exec (.vand g d a b) s = execVand g d a b s := rfl
@[simp] theorem exec_vor (g : Guard) (d a : VReg) (b : VSrc) (s : State) :
    exec (.vor g d a b) s = execVor g d a b s := rfl
@[simp] theorem exec_vxor (g : Guard) (d a : VReg) (b : VSrc) (s : State) :
    exec (.vxor g d a b) s = execVxor g d a b s := rfl
@[simp] theorem exec_vshl (g : Guard) (d a : VReg) (b : VSrc) (s : State) :
    exec (.vshl g d a b) s = execVshl g d a b s := rfl
@[simp] theorem exec_vshr (g : Guard) (d a : VReg) (b : VSrc) (s : State) :
    exec (.vshr g d a b) s = execVshr g d a b s := rfl
@[simp] theorem exec_vsar (g : Guard) (d a : VReg) (b : VSrc) (s : State) :
    exec (.vsar g d a b) s = execVsar g d a b s := rfl
@[simp] theorem exec_vmin (g : Guard) (d a : VReg) (b : VSrc) (s : State) :
    exec (.vmin g d a b) s = execVmin g d a b s := rfl
@[simp] theorem exec_vmax (g : Guard) (d a : VReg) (b : VSrc) (s : State) :
    exec (.vmax g d a b) s = execVmax g d a b s := rfl
@[simp] theorem exec_vminu (g : Guard) (d a : VReg) (b : VSrc) (s : State) :
    exec (.vminu g d a b) s = execVminu g d a b s := rfl
@[simp] theorem exec_vmaxu (g : Guard) (d a : VReg) (b : VSrc) (s : State) :
    exec (.vmaxu g d a b) s = execVmaxu g d a b s := rfl
@[simp] theorem exec_vmovk (g : Guard) (d : VReg) (k : KOp) (s : State) :
    exec (.vmovk g d k) s = execVmovk g d k s := rfl
@[simp] theorem exec_vaddk (g : Guard) (d a : VReg) (k : KOp) (sat : Bool) (s : State) :
    exec (.vaddk g d a k sat) s = execVaddk g d a k sat s := rfl
@[simp] theorem exec_vandk (g : Guard) (d a : VReg) (k : KOp) (s : State) :
    exec (.vandk g d a k) s = execVandk g d a k s := rfl
@[simp] theorem exec_vshlk (g : Guard) (d a : VReg) (k : KOp) (s : State) :
    exec (.vshlk g d a k) s = execVshlk g d a k s := rfl
@[simp] theorem exec_vfadd (g : Guard) (d a : VReg) (b : VSrc) (r : Rnd) (s : State) :
    exec (.vfadd g d a b r) s = execVfadd g d a b r s := rfl
@[simp] theorem exec_vfsub (g : Guard) (d a : VReg) (b : VSrc) (r : Rnd) (s : State) :
    exec (.vfsub g d a b r) s = execVfsub g d a b r s := rfl
@[simp] theorem exec_vfmul (g : Guard) (d a : VReg) (b : VSrc) (r : Rnd) (s : State) :
    exec (.vfmul g d a b r) s = execVfmul g d a b r s := rfl
@[simp] theorem exec_vfma (g : Guard) (d a : VReg) (b : VSrc) (r : Rnd) (s : State) :
    exec (.vfma g d a b r) s = execVfma g d a b r s := rfl
@[simp] theorem exec_vfms (g : Guard) (d a : VReg) (b : VSrc) (r : Rnd) (s : State) :
    exec (.vfms g d a b r) s = execVfms g d a b r s := rfl
@[simp] theorem exec_vfnma (g : Guard) (d a : VReg) (b : VSrc) (r : Rnd) (s : State) :
    exec (.vfnma g d a b r) s = execVfnma g d a b r s := rfl
@[simp] theorem exec_vfmin (g : Guard) (d a : VReg) (b : VSrc) (s : State) :
    exec (.vfmin g d a b) s = execVfmin g d a b s := rfl
@[simp] theorem exec_vfmax (g : Guard) (d a : VReg) (b : VSrc) (s : State) :
    exec (.vfmax g d a b) s = execVfmax g d a b s := rfl
@[simp] theorem exec_vfdiv (g : Guard) (d a : VReg) (b : VSrc) (r : Rnd) (s : State) :
    exec (.vfdiv g d a b r) s = execVfdiv g d a b r s := rfl
@[simp] theorem exec_vfcpys (g : Guard) (d a : VReg) (b : VSrc) (s : State) :
    exec (.vfcpys g d a b) s = execVfcpys g d a b s := rfl
@[simp] theorem exec_vhaddf (g : Guard) (d a : VReg) (b : VSrc) (r : Rnd) (s : State) :
    exec (.vhaddf g d a b r) s = execVhaddf g d a b r s := rfl
@[simp] theorem exec_vhmulf (g : Guard) (d a : VReg) (b : VSrc) (r : Rnd) (s : State) :
    exec (.vhmulf g d a b r) s = execVhmulf g d a b r s := rfl
@[simp] theorem exec_vhfmaf (g : Guard) (d a : VReg) (b : VSrc) (r : Rnd) (s : State) :
    exec (.vhfmaf g d a b r) s = execVhfmaf g d a b r s := rfl
@[simp] theorem exec_vhminf (g : Guard) (d a : VReg) (b : VSrc) (s : State) :
    exec (.vhminf g d a b) s = execVhminf g d a b s := rfl
@[simp] theorem exec_vhmaxf (g : Guard) (d a : VReg) (b : VSrc) (s : State) :
    exec (.vhmaxf g d a b) s = execVhmaxf g d a b s := rfl
@[simp] theorem exec_vhaddb (g : Guard) (d a : VReg) (b : VSrc) (r : Rnd) (s : State) :
    exec (.vhaddb g d a b r) s = execVhaddb g d a b r s := rfl
@[simp] theorem exec_vhmulb (g : Guard) (d a : VReg) (b : VSrc) (r : Rnd) (s : State) :
    exec (.vhmulb g d a b r) s = execVhmulb g d a b r s := rfl
@[simp] theorem exec_vhfmab (g : Guard) (d a : VReg) (b : VSrc) (r : Rnd) (s : State) :
    exec (.vhfmab g d a b r) s = execVhfmab g d a b r s := rfl
@[simp] theorem exec_vhminb (g : Guard) (d a : VReg) (b : VSrc) (s : State) :
    exec (.vhminb g d a b) s = execVhminb g d a b s := rfl
@[simp] theorem exec_vhmaxb (g : Guard) (d a : VReg) (b : VSrc) (s : State) :
    exec (.vhmaxb g d a b) s = execVhmaxb g d a b s := rfl
@[simp] theorem exec_vdot2f (g : Guard) (d a : VReg) (b : VSrc) (r : Rnd) (s : State) :
    exec (.vdot2f g d a b r) s = execVdot2f g d a b r s := rfl
@[simp] theorem exec_vdot2b (g : Guard) (d a : VReg) (b : VSrc) (r : Rnd) (s : State) :
    exec (.vdot2b g d a b r) s = execVdot2b g d a b r s := rfl
@[simp] theorem exec_vdot4i (g : Guard) (d a : VReg) (b : VSrc) (sat : Bool) (s : State) :
    exec (.vdot4i g d a b sat) s = execVdot4i g d a b sat s := rfl
@[simp] theorem exec_vfabs (g : Guard) (d a : VReg) (s : State) :
    exec (.vfabs g d a) s = execVfabs g d a s := rfl
@[simp] theorem exec_vfneg (g : Guard) (d a : VReg) (s : State) :
    exec (.vfneg g d a) s = execVfneg g d a s := rfl
@[simp] theorem exec_vfsqrt (g : Guard) (d a : VReg) (r : Rnd) (s : State) :
    exec (.vfsqrt g d a r) s = execVfsqrt g d a r s := rfl
@[simp] theorem exec_vfrsq (g : Guard) (d a : VReg) (s : State) :
    exec (.vfrsq g d a) s = execVfrsq g d a s := rfl
@[simp] theorem exec_vfrcp (g : Guard) (d a : VReg) (s : State) :
    exec (.vfrcp g d a) s = execVfrcp g d a s := rfl
@[simp] theorem exec_vfexp2 (g : Guard) (d a : VReg) (s : State) :
    exec (.vfexp2 g d a) s = execVfexp2 g d a s := rfl
@[simp] theorem exec_vflog2 (g : Guard) (d a : VReg) (s : State) :
    exec (.vflog2 g d a) s = execVflog2 g d a s := rfl
@[simp] theorem exec_vffloor (g : Guard) (d a : VReg) (s : State) :
    exec (.vffloor g d a) s = execVffloor g d a s := rfl
@[simp] theorem exec_vfceil (g : Guard) (d a : VReg) (s : State) :
    exec (.vfceil g d a) s = execVfceil g d a s := rfl
@[simp] theorem exec_vfrint (g : Guard) (d a : VReg) (r : Rnd) (s : State) :
    exec (.vfrint g d a r) s = execVfrint g d a r s := rfl
@[simp] theorem exec_vftrunc (g : Guard) (d a : VReg) (s : State) :
    exec (.vftrunc g d a) s = execVftrunc g d a s := rfl
@[simp] theorem exec_vfclass (g : Guard) (d a : VReg) (s : State) :
    exec (.vfclass g d a) s = execVfclass g d a s := rfl
@[simp] theorem exec_vftanh (g : Guard) (d a : VReg) (s : State) :
    exec (.vftanh g d a) s = execVftanh g d a s := rfl
@[simp] theorem exec_vcvtfi (g : Guard) (d a : VReg) (r : Rnd) (s : State) :
    exec (.vcvtfi g d a r) s = execVcvtfi g d a r s := rfl
@[simp] theorem exec_vcvtif (g : Guard) (d a : VReg) (r : Rnd) (s : State) :
    exec (.vcvtif g d a r) s = execVcvtif g d a r s := rfl
@[simp] theorem exec_vcvtfu (g : Guard) (d a : VReg) (r : Rnd) (s : State) :
    exec (.vcvtfu g d a r) s = execVcvtfu g d a r s := rfl
@[simp] theorem exec_vcvtuf (g : Guard) (d a : VReg) (r : Rnd) (s : State) :
    exec (.vcvtuf g d a r) s = execVcvtuf g d a r s := rfl
@[simp] theorem exec_vcvtfh (g : Guard) (d a b : VReg) (r : Rnd) (sat : Bool) (s : State) :
    exec (.vcvtfh g d a b r sat) s = execVcvtfh g d a b r sat s := rfl
@[simp] theorem exec_vcvthf (g : Guard) (d a : VReg) (s : State) :
    exec (.vcvthf g d a) s = execVcvthf g d a s := rfl
@[simp] theorem exec_vcvtfb (g : Guard) (d a b : VReg) (r : Rnd) (sat : Bool) (s : State) :
    exec (.vcvtfb g d a b r sat) s = execVcvtfb g d a b r sat s := rfl
@[simp] theorem exec_vcvtbf (g : Guard) (d a : VReg) (s : State) :
    exec (.vcvtbf g d a) s = execVcvtbf g d a s := rfl
@[simp] theorem exec_vqnt (g : Guard) (d a : VReg) (b : VSrc) (s : State) :
    exec (.vqnt g d a b) s = execVqnt g d a b s := rfl
@[simp] theorem exec_vdqnt (g : Guard) (d a : VReg) (b : VSrc) (s : State) :
    exec (.vdqnt g d a b) s = execVdqnt g d a b s := rfl
@[simp] theorem exec_vdgen (g : Guard) (d : VReg) (b : VSrc) (s : State) :
    exec (.vdgen g d b) s = execVdgen g d b s := rfl
@[simp] theorem exec_vpack8 (g : Guard) (d a : VReg) (b : VSrc) (s : State) :
    exec (.vpack8 g d a b) s = execVpack8 g d a b s := rfl
@[simp] theorem exec_vunpk8 (g : Guard) (d a : VReg) (b : VSrc) (s : State) :
    exec (.vunpk8 g d a b) s = execVunpk8 g d a b s := rfl
@[simp] theorem exec_vqcfg (a b : UReg) (s : State) :
    exec (.vqcfg a b) s = execVqcfg a b s := rfl
@[simp] theorem exec_vcmpeq (g : Guard) (d : PReg) (a : VReg) (b : VSrc) (s : State) :
    exec (.vcmpeq g d a b) s = execVcmpeq g d a b s := rfl
@[simp] theorem exec_vcmpne (g : Guard) (d : PReg) (a : VReg) (b : VSrc) (s : State) :
    exec (.vcmpne g d a b) s = execVcmpne g d a b s := rfl
@[simp] theorem exec_vcmplt (g : Guard) (d : PReg) (a : VReg) (b : VSrc) (s : State) :
    exec (.vcmplt g d a b) s = execVcmplt g d a b s := rfl
@[simp] theorem exec_vcmple (g : Guard) (d : PReg) (a : VReg) (b : VSrc) (s : State) :
    exec (.vcmple g d a b) s = execVcmple g d a b s := rfl
@[simp] theorem exec_vcmpltu (g : Guard) (d : PReg) (a : VReg) (b : VSrc) (s : State) :
    exec (.vcmpltu g d a b) s = execVcmpltu g d a b s := rfl
@[simp] theorem exec_vcmpleu (g : Guard) (d : PReg) (a : VReg) (b : VSrc) (s : State) :
    exec (.vcmpleu g d a b) s = execVcmpleu g d a b s := rfl
@[simp] theorem exec_vfcmpeq (g : Guard) (d : PReg) (a : VReg) (b : VSrc) (s : State) :
    exec (.vfcmpeq g d a b) s = execVfcmpeq g d a b s := rfl
@[simp] theorem exec_vfcmplt (g : Guard) (d : PReg) (a : VReg) (b : VSrc) (s : State) :
    exec (.vfcmplt g d a b) s = execVfcmplt g d a b s := rfl
@[simp] theorem exec_vfcmple (g : Guard) (d : PReg) (a : VReg) (b : VSrc) (s : State) :
    exec (.vfcmple g d a b) s = execVfcmple g d a b s := rfl
@[simp] theorem exec_vfcmpun (g : Guard) (d : PReg) (a : VReg) (b : VSrc) (s : State) :
    exec (.vfcmpun g d a b) s = execVfcmpun g d a b s := rfl
@[simp] theorem exec_pand (g : Guard) (d a b : PReg) (s : State) :
    exec (.pand g d a b) s = execPand g d a b s := rfl
@[simp] theorem exec_por (g : Guard) (d a b : PReg) (s : State) :
    exec (.por g d a b) s = execPor g d a b s := rfl
@[simp] theorem exec_pxor (g : Guard) (d a b : PReg) (s : State) :
    exec (.pxor g d a b) s = execPxor g d a b s := rfl
@[simp] theorem exec_pandn (g : Guard) (d a b : PReg) (s : State) :
    exec (.pandn g d a b) s = execPandn g d a b s := rfl
@[simp] theorem exec_vbcst (g : Guard) (d : VReg) (a : UReg) (s : State) :
    exec (.vbcst g d a) s = execVbcst g d a s := rfl
@[simp] theorem exec_vrdln (d : UReg) (a : VReg) (b : UReg) (s : State) :
    exec (.vrdln d a b) s = execVrdln d a b s := rfl
@[simp] theorem exec_vwrln (d : VReg) (a b : UReg) (s : State) :
    exec (.vwrln d a b) s = execVwrln d a b s := rfl
@[simp] theorem exec_vfirst (g : Guard) (d : UReg) (a : VReg) (s : State) :
    exec (.vfirst g d a) s = execVfirst g d a s := rfl
@[simp] theorem exec_vballot (g : Guard) (d : UReg) (a : PReg) (s : State) :
    exec (.vballot g d a) s = execVballot g d a s := rfl
@[simp] theorem exec_pfroms (g : Guard) (d : PReg) (a : UReg) (s : State) :
    exec (.pfroms g d a) s = execPfroms g d a s := rfl
@[simp] theorem exec_panyk (g : Guard) (d : KReg) (a : PReg) (s : State) :
    exec (.panyk g d a) s = execPanyk g d a s := rfl
@[simp] theorem exec_pallk (g : Guard) (d : KReg) (a : PReg) (s : State) :
    exec (.pallk g d a) s = execPallk g d a s := rfl
@[simp] theorem exec_xset (a : PReg) (s : State) :
    exec (.xset a) s = execXset a s := rfl
@[simp] theorem exec_xsave (d : UReg) (s : State) :
    exec (.xsave d) s = execXsave d s := rfl
@[simp] theorem exec_xrest (a : UReg) (s : State) :
    exec (.xrest a) s = execXrest a s := rfl
@[simp] theorem exec_vshfl (g : Guard) (d a : VReg) (b : VSrc) (s : State) :
    exec (.vshfl g d a b) s = execVshfl g d a b s := rfl
@[simp] theorem exec_vredai (g : Guard) (d : UReg) (a : VReg) (s : State) :
    exec (.vredai g d a) s = execVredai g d a s := rfl
@[simp] theorem exec_vredaf (g : Guard) (d : UReg) (a : VReg) (s : State) :
    exec (.vredaf g d a) s = execVredaf g d a s := rfl
@[simp] theorem exec_vredmx (g : Guard) (d : UReg) (a : VReg) (s : State) :
    exec (.vredmx g d a) s = execVredmx g d a s := rfl
@[simp] theorem exec_vxacc (g : Guard) (d a : VReg) (s : State) :
    exec (.vxacc g d a) s = execVxacc g d a s := rfl
@[simp] theorem exec_vldw (g : Guard) (d : VReg) (a : UReg) (b : VSrc) (s : State) :
    exec (.vldw g d a b) s = execVldw g d a b s := rfl
@[simp] theorem exec_vldh (g : Guard) (d : VReg) (a : UReg) (b : VSrc) (s : State) :
    exec (.vldh g d a b) s = execVldh g d a b s := rfl
@[simp] theorem exec_vldb (g : Guard) (d : VReg) (a : UReg) (b : VSrc) (s : State) :
    exec (.vldb g d a b) s = execVldb g d a b s := rfl
@[simp] theorem exec_vldd (g : Guard) (d : VReg) (a : UReg) (b : VSrc) (s : State) :
    exec (.vldd g d a b) s = execVldd g d a b s := rfl
@[simp] theorem exec_vldsw (g : Guard) (d : VReg) (a b : UReg) (s : State) :
    exec (.vldsw g d a b) s = execVldsw g d a b s := rfl
@[simp] theorem exec_vldq (g : Guard) (d : VReg) (a : UReg) (b : VSrc) (s : State) :
    exec (.vldq g d a b) s = execVldq g d a b s := rfl
@[simp] theorem exec_vldc (g : Guard) (d : VReg) (a : UReg) (s : State) :
    exec (.vldc g d a) s = execVldc g d a s := rfl
@[simp] theorem exec_vldsc (g : Guard) (d : VReg) (a : UReg) (s : State) :
    exec (.vldsc g d a) s = execVldsc g d a s := rfl
@[simp] theorem exec_vstw (g : Guard) (d : VReg) (a : UReg) (b : VSrc) (s : State) :
    exec (.vstw g d a b) s = execVstw g d a b s := rfl
@[simp] theorem exec_vsth (g : Guard) (d : VReg) (a : UReg) (b : VSrc) (s : State) :
    exec (.vsth g d a b) s = execVsth g d a b s := rfl
@[simp] theorem exec_vstb (g : Guard) (d : VReg) (a : UReg) (b : VSrc) (s : State) :
    exec (.vstb g d a b) s = execVstb g d a b s := rfl
@[simp] theorem exec_vstd (g : Guard) (d : VReg) (a : UReg) (b : VSrc) (s : State) :
    exec (.vstd g d a b) s = execVstd g d a b s := rfl
@[simp] theorem exec_vstsw (g : Guard) (d : VReg) (a b : UReg) (s : State) :
    exec (.vstsw g d a b) s = execVstsw g d a b s := rfl
@[simp] theorem exec_vstq (g : Guard) (d : VReg) (a : UReg) (b : VSrc) (s : State) :
    exec (.vstq g d a b) s = execVstq g d a b s := rfl
@[simp] theorem exec_vstc (g : Guard) (d : VReg) (a : UReg) (s : State) :
    exec (.vstc g d a) s = execVstc g d a s := rfl
@[simp] theorem exec_vstsc (g : Guard) (d : VReg) (a : UReg) (s : State) :
    exec (.vstsc g d a) s = execVstsc g d a s := rfl
@[simp] theorem exec_sld (g : Guard) (d a : UReg) (o : MOff) (s : State) :
    exec (.sld g d a o) s = execSld g d a o s := rfl
@[simp] theorem exec_sst (g : Guard) (d a : UReg) (o : MOff) (s : State) :
    exec (.sst g d a o) s = execSst g d a o s := rfl
@[simp] theorem exec_slds (g : Guard) (d a : UReg) (o : MOff) (s : State) :
    exec (.slds g d a o) s = execSlds g d a o s := rfl
@[simp] theorem exec_ssts (g : Guard) (d a : UReg) (o : MOff) (s : State) :
    exec (.ssts g d a o) s = execSsts g d a o s := rfl
@[simp] theorem exec_vatadd (g : Guard) (d : VReg) (a : UReg) (b : VSrc) (nr : Bool) (sc : Scope) (s : State) :
    exec (.vatadd g d a b nr sc) s = execVatadd g d a b nr sc s := rfl
@[simp] theorem exec_vatmin (g : Guard) (d : VReg) (a : UReg) (b : VSrc) (nr : Bool) (sc : Scope) (s : State) :
    exec (.vatmin g d a b nr sc) s = execVatmin g d a b nr sc s := rfl
@[simp] theorem exec_vatmax (g : Guard) (d : VReg) (a : UReg) (b : VSrc) (nr : Bool) (sc : Scope) (s : State) :
    exec (.vatmax g d a b nr sc) s = execVatmax g d a b nr sc s := rfl
@[simp] theorem exec_vatand (g : Guard) (d : VReg) (a : UReg) (b : VSrc) (nr : Bool) (sc : Scope) (s : State) :
    exec (.vatand g d a b nr sc) s = execVatand g d a b nr sc s := rfl
@[simp] theorem exec_vator (g : Guard) (d : VReg) (a : UReg) (b : VSrc) (nr : Bool) (sc : Scope) (s : State) :
    exec (.vator g d a b nr sc) s = execVator g d a b nr sc s := rfl
@[simp] theorem exec_vatxor (g : Guard) (d : VReg) (a : UReg) (b : VSrc) (nr : Bool) (sc : Scope) (s : State) :
    exec (.vatxor g d a b nr sc) s = execVatxor g d a b nr sc s := rfl
@[simp] theorem exec_vatxch (g : Guard) (d : VReg) (a : UReg) (b : VSrc) (nr : Bool) (sc : Scope) (s : State) :
    exec (.vatxch g d a b nr sc) s = execVatxch g d a b nr sc s := rfl
@[simp] theorem exec_vatcas (g : Guard) (d : VReg) (a : UReg) (b : VSrc) (nr : Bool) (sc : Scope) (s : State) :
    exec (.vatcas g d a b nr sc) s = execVatcas g d a b nr sc s := rfl
@[simp] theorem exec_satadd (g : Guard) (d a b : UReg) (nr : Bool) (sc : Scope) (s : State) :
    exec (.satadd g d a b nr sc) s = execSatadd g d a b nr sc s := rfl
@[simp] theorem exec_satcas (g : Guard) (d a b : UReg) (nr : Bool) (sc : Scope) (s : State) :
    exec (.satcas g d a b nr sc) s = execSatcas g d a b nr sc s := rfl
@[simp] theorem exec_satxch (g : Guard) (d a b : UReg) (nr : Bool) (sc : Scope) (s : State) :
    exec (.satxch g d a b nr sc) s = execSatxch g d a b nr sc s := rfl
@[simp] theorem exec_vxadd (g : Guard) (d : VReg) (a : UReg) (b : VSrc) (nr : Bool) (sc : Scope) (s : State) :
    exec (.vxadd g d a b nr sc) s = execVxadd g d a b nr sc s := rfl
@[simp] theorem exec_vfatadd (g : Guard) (d : VReg) (a : UReg) (b : VSrc) (nr : Bool) (sc : Scope) (s : State) :
    exec (.vfatadd g d a b nr sc) s = execVfatadd g d a b nr sc s := rfl
@[simp] theorem exec_br (c : KReg) (cn : Bool) (o : BitVec 20) (s : State) :
    exec (.br c cn o) s = execBr c cn o s := rfl
@[simp] theorem exec_call (c : KReg) (cn : Bool) (o : BitVec 20) (s : State) :
    exec (.call c cn o) s = execCall c cn o s := rfl
@[simp] theorem exec_jmpr (g : Guard) (a : UReg) (s : State) :
    exec (.jmpr g a) s = execJmpr g a s := rfl
@[simp] theorem exec_callr (g : Guard) (a : UReg) (s : State) :
    exec (.callr g a) s = execCallr g a s := rfl
@[simp] theorem exec_ret (g : Guard) (s : State) :
    exec (.ret g) s = execRet g s := rfl
@[simp] theorem exec_nop (g : Guard) (s : State) :
    exec (.nop g) s = execNop g s := rfl
@[simp] theorem exec_waitk (g : Guard) (a : KReg) (s : State) :
    exec (.waitk g a) s = execWaitk g a s := rfl
@[simp] theorem exec_brk (g : Guard) (s : State) :
    exec (.brk g) s = execBrk g s := rfl
@[simp] theorem exec_fence (g : Guard) (sc : Scope) (s : State) :
    exec (.fence g sc) s = execFence g sc s := rfl
@[simp] theorem exec_fenceacq (g : Guard) (sc : Scope) (s : State) :
    exec (.fenceacq g sc) s = execFenceacq g sc s := rfl
@[simp] theorem exec_fencerel (g : Guard) (sc : Scope) (s : State) :
    exec (.fencerel g sc) s = execFencerel g sc s := rfl
@[simp] theorem exec_bar (g : Guard) (sc : Scope) (s : State) :
    exec (.bar g sc) s = execBar g sc s := rfl
@[simp] theorem exec_waitv (g : Guard) (d a b : UReg) (sc : Scope) (s : State) :
    exec (.waitv g d a b sc) s = execWaitv g d a b sc s := rfl
@[simp] theorem exec_descinv (g : Guard) (a : UReg) (s : State) :
    exec (.descinv g a) s = execDescinv g a s := rfl
@[simp] theorem exec_descinvDeep (g : Guard) (s : State) :
    exec (.descinvDeep g) s = execDescinvDeep g s := rfl
@[simp] theorem exec_logwait (g : Guard) (s : State) :
    exec (.logwait g) s = execLogwait g s := rfl
@[simp] theorem exec_sldacq (g : Guard) (d a : UReg) (sc : Scope) (s : State) :
    exec (.sldacq g d a sc) s = execSldacq g d a sc s := rfl
@[simp] theorem exec_sstrel (g : Guard) (d a : UReg) (sc : Scope) (s : State) :
    exec (.sstrel g d a sc) s = execSstrel g d a sc s := rfl
@[simp] theorem exec_mcfg (g : Guard) (a : UReg) (s : State) :
    exec (.mcfg g a) s = execMcfg g a s := rfl
@[simp] theorem exec_mzero (g : Guard) (d : AReg) (s : State) :
    exec (.mzero g d) s = execMzero g d s := rfl
@[simp] theorem exec_mma (g : Guard) (d : AReg) (a b : HReg) (s : State) :
    exec (.mma g d a b) s = execMma g d a b s := rfl
@[simp] theorem exec_mmas (g : Guard) (d : AReg) (a b : HReg) (s : State) :
    exec (.mmas g d a b) s = execMmas g d a b s := rfl
@[simp] theorem exec_mdrain (g : Guard) (d : TReg) (a : AReg) (b : UReg) (s : State) :
    exec (.mdrain g d a b) s = execMdrain g d a b s := rfl
@[simp] theorem exec_mstat (g : Guard) (d : UReg) (a : AReg) (s : State) :
    exec (.mstat g d a) s = execMstat g d a s := rfl
@[simp] theorem exec_msave (g : Guard) (d : TReg) (a : AReg) (b : UReg) (s : State) :
    exec (.msave g d a b) s = execMsave g d a b s := rfl
@[simp] theorem exec_mload (g : Guard) (d : TReg) (a : AReg) (b : UReg) (s : State) :
    exec (.mload g d a b) s = execMload g d a b s := rfl
@[simp] theorem exec_rdef (g : Guard) (d : HReg) (a : UReg) (s : State) :
    exec (.rdef g d a) s = execRdef g d a s := rfl
@[simp] theorem exec_rwfull (g : Guard) (d : HReg) (a : UReg) (s : State) :
    exec (.rwfull g d a) s = execRwfull g d a s := rfl
@[simp] theorem exec_rwfree (g : Guard) (d : HReg) (a : UReg) (s : State) :
    exec (.rwfree g d a) s = execRwfree g d a s := rfl
@[simp] theorem exec_radvp (g : Guard) (d : HReg) (a : UReg) (s : State) :
    exec (.radvp g d a) s = execRadvp g d a s := rfl
@[simp] theorem exec_radvc (g : Guard) (d : HReg) (a : UReg) (s : State) :
    exec (.radvc g d a) s = execRadvc g d a s := rfl
@[simp] theorem exec_rslot (g : Guard) (d : UReg) (a : HReg) (b : UReg) (s : State) :
    exec (.rslot g d a b) s = execRslot g d a b s := rfl
@[simp] theorem exec_rslotc (g : Guard) (d : UReg) (a : HReg) (b : UReg) (s : State) :
    exec (.rslotc g d a b) s = execRslotc g d a b s := rfl
@[simp] theorem exec_rundef (g : Guard) (d : HReg) (s : State) :
    exec (.rundef g d) s = execRundef g d s := rfl
@[simp] theorem exec_cpy (g : Guard) (d : TReg) (a : UReg) (s : State) :
    exec (.cpy g d a) s = execCpy g d a s := rfl
@[simp] theorem exec_cpyr (g : Guard) (d : TReg) (a : HReg) (b : UReg) (s : State) :
    exec (.cpyr g d a b) s = execCpyr g d a b s := rfl
@[simp] theorem exec_cpyt (g : Guard) (d : TReg) (a : UReg) (s : State) :
    exec (.cpyt g d a) s = execCpyt g d a s := rfl
@[simp] theorem exec_cpyrd (g : Guard) (d : TReg) (a : UReg) (s : State) :
    exec (.cpyrd g d a) s = execCpyrd g d a s := rfl
@[simp] theorem exec_waitt (g : Guard) (m : Byte) (s : State) :
    exec (.waitt g m) s = execWaitt g m s := rfl
@[simp] theorem exec_tokrd (g : Guard) (d : UReg) (a : TReg) (s : State) :
    exec (.tokrd g d a) s = execTokrd g d a s := rfl
@[simp] theorem exec_cqpush (g : Guard) (d a b : UReg) (s : State) :
    exec (.cqpush g d a b) s = execCqpush g d a b s := rfl
@[simp] theorem exec_cqkick (g : Guard) (a : UReg) (s : State) :
    exec (.cqkick g a) s = execCqkick g a s := rfl
@[simp] theorem exec_gstart (g : Guard) (d : TReg) (a : HReg) (b : UReg) (s : State) :
    exec (.gstart g d a b) s = execGstart g d a b s := rfl
@[simp] theorem exec_gstop (g : Guard) (a : TReg) (s : State) :
    exec (.gstop g a) s = execGstop g a s := rfl
@[simp] theorem exec_gstat (g : Guard) (d : UReg) (a : TReg) (s : State) :
    exec (.gstat g d a) s = execGstat g d a s := rfl
@[simp] theorem exec_spawn (g : Guard) (d a : UReg) (s : State) :
    exec (.spawn g d a) s = execSpawn g d a s := rfl
@[simp] theorem exec_touch (g : Guard) (d a : UReg) (s : State) :
    exec (.touch g d a) s = execTouch g d a s := rfl
@[simp] theorem exec_touchc (g : Guard) (d a : UReg) (b : KReg) (s : State) :
    exec (.touchc g d a b) s = execTouchc g d a b s := rfl
@[simp] theorem exec_poll (g : Guard) (d a : UReg) (s : State) :
    exec (.poll g d a) s = execPoll g d a s := rfl
@[simp] theorem exec_resolve (g : Guard) (d a b : UReg) (s : State) :
    exec (.resolve g d a b) s = execResolve g d a b s := rfl
@[simp] theorem exec_fnew (g : Guard) (d : UReg) (s : State) :
    exec (.fnew g d) s = execFnew g d s := rfl
@[simp] theorem exec_ffault (g : Guard) (d a b : UReg) (s : State) :
    exec (.ffault g d a b) s = execFfault g d a b s := rfl
@[simp] theorem exec_cancel (g : Guard) (d a : UReg) (s : State) :
    exec (.cancel g d a) s = execCancel g d a s := rfl
@[simp] theorem exec_cancelDeep (g : Guard) (d a : UReg) (s : State) :
    exec (.cancelDeep g d a) s = execCancelDeep g d a s := rfl
@[simp] theorem exec_release (g : Guard) (a : UReg) (s : State) :
    exec (.release g a) s = execRelease g a s := rfl
@[simp] theorem exec_scopeo (g : Guard) (d a : UReg) (s : State) :
    exec (.scopeo g d a) s = execScopeo g d a s := rfl
@[simp] theorem exec_scopec (g : Guard) (a : UReg) (s : State) :
    exec (.scopec g a) s = execScopec g a s := rfl
@[simp] theorem exec_scopew (g : Guard) (a : UReg) (s : State) :
    exec (.scopew g a) s = execScopew g a s := rfl
@[simp] theorem exec_retire (g : Guard) (a : UReg) (s : State) :
    exec (.retire g a) s = execRetire g a s := rfl
@[simp] theorem exec_yield (g : Guard) (a : UReg) (s : State) :
    exec (.yield g a) s = execYield g a s := rfl
@[simp] theorem exec_prio (g : Guard) (d a : UReg) (s : State) :
    exec (.prio g d a) s = execPrio g d a s := rfl
@[simp] theorem exec_self (g : Guard) (d : UReg) (s : State) :
    exec (.self g d) s = execSelf g d s := rfl
@[simp] theorem exec_send (g : Guard) (a b : UReg) (s : State) :
    exec (.send g a b) s = execSend g a b s := rfl
@[simp] theorem exec_sendr (g : Guard) (d a b : UReg) (s : State) :
    exec (.sendr g d a b) s = execSendr g d a b s := rfl
@[simp] theorem exec_recv (g : Guard) (d a b : UReg) (s : State) :
    exec (.recv g d a b) s = execRecv g d a b s := rfl
@[simp] theorem exec_htwr (g : Guard) (a b : UReg) (s : State) :
    exec (.htwr g a b) s = execHtwr g a b s := rfl
@[simp] theorem exec_bqclaim (g : Guard) (d a : UReg) (s : State) :
    exec (.bqclaim g d a) s = execBqclaim g d a s := rfl
@[simp] theorem exec_baddq (g : Guard) (d : TReg) (a b : UReg) (s : State) :
    exec (.baddq g d a b) s = execBaddq g d a b s := rfl
@[simp] theorem exec_bqdone (g : Guard) (a : UReg) (s : State) :
    exec (.bqdone g a) s = execBqdone g a s := rfl
@[simp] theorem exec_topkc (g : Guard) (d : TReg) (a : UReg) (s : State) :
    exec (.topkc g d a) s = execTopkc g d a s := rfl
@[simp] theorem exec_topkr (g : Guard) (d : TReg) (a : UReg) (s : State) :
    exec (.topkr g d a) s = execTopkr g d a s := rfl
@[simp] theorem exec_srd (g : Guard) (d : UReg) (n : SysReg) (s : State) :
    exec (.srd g d n) s = execSrd g d n s := rfl
@[simp] theorem exec_swr (g : Guard) (a : UReg) (n : SysReg) (s : State) :
    exec (.swr g a n) s = execSwr g a n s := rfl
@[simp] theorem exec_swrDeep (g : Guard) (a : UReg) (n : Byte) (s : State) :
    exec (.swrDeep g a n) s = execSwrDeep g a n s := rfl
@[simp] theorem exec_trap (g : Guard) (a : UReg) (s : State) :
    exec (.trap g a) s = execTrap g a s := rfl
@[simp] theorem exec_tret (g : Guard) (s : State) :
    exec (.tret g) s = execTret g s := rfl
@[simp] theorem exec_csave (g : Guard) (d a b : UReg) (s : State) :
    exec (.csave g d a b) s = execCsave g d a b s := rfl
@[simp] theorem exec_crest (g : Guard) (d a b : UReg) (s : State) :
    exec (.crest g d a b) s = execCrest g d a b s := rfl
@[simp] theorem exec_halt (g : Guard) (s : State) :
    exec (.halt g) s = execHalt g s := rfl
@[simp] theorem exec_pchk (g : Guard) (d : KReg) (a : UReg) (s : State) :
    exec (.pchk g d a) s = execPchk g d a s := rfl
@[simp] theorem exec_replay (g : Guard) (a : UReg) (s : State) :
    exec (.replay g a) s = execReplay g a s := rfl
@[simp] theorem exec_cNop (s : State) :
    exec (.cNop) s = execCNop s := rfl
@[simp] theorem exec_cSmov (d a : CReg) (s : State) :
    exec (.cSmov d a) s = execCSmov d a s := rfl
@[simp] theorem exec_cSadd (d a : CReg) (b : Fin 8) (s : State) :
    exec (.cSadd d a b) s = execCSadd d a b s := rfl
@[simp] theorem exec_cSaddi (d a : CReg) (n : BitVec 3) (s : State) :
    exec (.cSaddi d a n) s = execCSaddi d a n s := rfl
@[simp] theorem exec_cVmov (d a : CReg) (s : State) :
    exec (.cVmov d a) s = execCVmov d a s := rfl
@[simp] theorem exec_cVadd (d a : CReg) (b : Fin 8) (s : State) :
    exec (.cVadd d a b) s = execCVadd d a b s := rfl
@[simp] theorem exec_cVfadd (d a : CReg) (b : Fin 8) (s : State) :
    exec (.cVfadd d a b) s = execCVfadd d a b s := rfl
@[simp] theorem exec_cVfma (d a : CReg) (b : Fin 8) (s : State) :
    exec (.cVfma d a b) s = execCVfma d a b s := rfl
@[simp] theorem exec_cVfmul (d a : CReg) (b : Fin 8) (s : State) :
    exec (.cVfmul d a b) s = execCVfmul d a b s := rfl
@[simp] theorem exec_cSld (d a : CReg) (n : BitVec 3) (s : State) :
    exec (.cSld d a n) s = execCSld d a n s := rfl
@[simp] theorem exec_cSst (d a : CReg) (n : BitVec 3) (s : State) :
    exec (.cSst d a n) s = execCSst d a n s := rfl
@[simp] theorem exec_cRet (s : State) :
    exec (.cRet) s = execCRet s := rfl
@[simp] theorem exec_cTouch (d a : CReg) (s : State) :
    exec (.cTouch d a) s = execCTouch d a s := rfl
@[simp] theorem exec_cWaitt (m : Byte) (s : State) :
    exec (.cWaitt m) s = execCWaitt m s := rfl
@[simp] theorem exec_cRadvc (d : CReg) (n : BitVec 3) (s : State) :
    exec (.cRadvc d n) s = execCRadvc d n s := rfl
@[simp] theorem exec_illegalEncoding (reason : Fin 16) (w : W32) (s : State) :
    exec (.illegalEncoding reason w) s = execIllegalEncoding reason w s := rfl
@[simp] theorem exec_reservationMade (h : W64) (s : State) :
    exec (.reservationMade h) s = execReservationMade h s := rfl
@[simp] theorem exec_footprintCopyLanded (h : W64) (tile : Nat) (s : State) :
    exec (.footprintCopyLanded h tile) s = execFootprintCopyLanded h tile s := rfl
@[simp] theorem exec_dispatch (h : W64) (s : State) :
    exec (.dispatch h) s = execDispatch h s := rfl
@[simp] theorem exec_steal (thief victim : ClId) (s : State) :
    exec (.steal thief victim) s = execSteal thief victim s := rfl
@[simp] theorem exec_candidateAgeExpiry (t : TgRef) (s : State) :
    exec (.candidateAgeExpiry t) s = execCandidateAgeExpiry t s := rfl
@[simp] theorem exec_priorityRaise (h : W64) (cls : Fin 4) (s : State) :
    exec (.priorityRaise h cls) s = execPriorityRaise h cls s := rfl
@[simp] theorem exec_wake (t : TgRef) (s : State) :
    exec (.wake t) s = execWake t s := rfl
@[simp] theorem exec_deadlock (asid : Half) (s : State) :
    exec (.deadlock asid) s = execDeadlock asid s := rfl
@[simp] theorem exec_preemptSave (h : W64) (s : State) :
    exec (.preemptSave h) s = execPreemptSave h s := rfl
@[simp] theorem exec_forcedSave (h : W64) (s : State) :
    exec (.forcedSave h) s = execForcedSave h s := rfl
@[simp] theorem exec_resume (h : W64) (s : State) :
    exec (.resume h) s = execResume h s := rfl
@[simp] theorem exec_futureRequest (id : FutReq) (s : State) :
    exec (.futureRequest id) s = execFutureRequest id s := rfl
@[simp] theorem exec_futureReply (id : Nat) (s : State) :
    exec (.futureReply id) s = execFutureReply id s := rfl
@[simp] theorem exec_spill (c : ClId) (s : State) :
    exec (.spill c) s = execSpill c s := rfl
@[simp] theorem exec_refill (h : W64) (s : State) :
    exec (.refill h) s = execRefill h s := rfl
@[simp] theorem exec_hamper (asid : Half) (v : W64) (s : State) :
    exec (.hamper asid v) s = execHamper asid v s := rfl
@[simp] theorem exec_hamperMoved (asid : Half) (s : State) :
    exec (.hamperMoved asid) s = execHamperMoved asid s := rfl
@[simp] theorem exec_failsp (asid : Half) (s : State) :
    exec (.failsp asid) s = execFailsp asid s := rfl
@[simp] theorem exec_hamperFull (asid : Half) (s : State) :
    exec (.hamperFull asid) s = execHamperFull asid s := rfl
@[simp] theorem exec_scopeUpdate (id : Nat) (s : State) :
    exec (.scopeUpdate id) s = execScopeUpdate id s := rfl
@[simp] theorem exec_storeBufferDrain (c : CoreId) (s : State) :
    exec (.storeBufferDrain c) s = execStoreBufferDrain c s := rfl
@[simp] theorem exec_remoteRead (die : Nat) (asid : Half) (va : W64) (s : State) :
    exec (.remoteRead die asid va) s = execRemoteRead die asid va s := rfl
@[simp] theorem exec_replicaEvict (die : Nat) (asid : Half) (va : W64) (s : State) :
    exec (.replicaEvict die asid va) s = execReplicaEvict die asid va s := rfl
@[simp] theorem exec_writeAtHome (id : Nat) (s : State) :
    exec (.writeAtHome id) s = execWriteAtHome id s := rfl
@[simp] theorem exec_atomicAtHome (id : Nat) (s : State) :
    exec (.atomicAtHome id) s = execAtomicAtHome id s := rfl
@[simp] theorem exec_collapse (id : Nat) (s : State) :
    exec (.collapse id) s = execCollapse id s := rfl
@[simp] theorem exec_collapseAck (id : Nat) (s : State) :
    exec (.collapseAck id) s = execCollapseAck id s := rfl
@[simp] theorem exec_writeAck (id : Nat) (s : State) :
    exec (.writeAck id) s = execWriteAck id s := rfl
@[simp] theorem exec_waitvRepoll (t : TgRef) (s : State) :
    exec (.waitvRepoll t) s = execWaitvRepoll t s := rfl
@[simp] theorem exec_replicationWindow (die : Nat) (asid : Half) (va : W64) (s : State) :
    exec (.replicationWindow die asid va) s = execReplicationWindow die asid va s := rfl
@[simp] theorem exec_sideLogPerform (c : CoreId) (s : State) :
    exec (.sideLogPerform c) s = execSideLogPerform c s := rfl
@[simp] theorem exec_matrixOpStart (c : CoreId) (s : State) :
    exec (.matrixOpStart c) s = execMatrixOpStart c s := rfl
@[simp] theorem exec_matrixOpComplete (c : CoreId) (s : State) :
    exec (.matrixOpComplete c) s = execMatrixOpComplete c s := rfl
@[simp] theorem exec_copyComplete (id : Nat) (s : State) :
    exec (.copyComplete id) s = execCopyComplete id s := rfl
@[simp] theorem exec_gatherSlotLanded (id : Nat) (s : State) :
    exec (.gatherSlotLanded id) s = execGatherSlotLanded id s := rfl
@[simp] theorem exec_baddqComplete (id : Nat) (s : State) :
    exec (.baddqComplete id) s = execBaddqComplete id s := rfl
@[simp] theorem exec_selectComplete (die : Nat) (s : State) :
    exec (.selectComplete die) s = execSelectComplete die s := rfl
@[simp] theorem exec_nopPacket (q : QRef) (s : State) :
    exec (.nopPacket q) s = execNopPacket q s := rfl
@[simp] theorem exec_copy (q : QRef) (s : State) :
    exec (.copy q) s = execCopy q s := rfl
@[simp] theorem exec_copyTranspose (q : QRef) (s : State) :
    exec (.copyTranspose q) s = execCopyTranspose q s := rfl
@[simp] theorem exec_copyRedither (q : QRef) (s : State) :
    exec (.copyRedither q) s = execCopyRedither q s := rfl
@[simp] theorem exec_fill (q : QRef) (s : State) :
    exec (.fill q) s = execFill q s := rfl
@[simp] theorem exec_barrier (q : QRef) (s : State) :
    exec (.barrier q) s = execBarrier q s := rfl
@[simp] theorem exec_signal (q : QRef) (s : State) :
    exec (.signal q) s = execSignal q s := rfl
@[simp] theorem exec_launch (q : QRef) (s : State) :
    exec (.launch q) s = execLaunch q s := rfl
@[simp] theorem exec_unknownKind (q : QRef) (s : State) :
    exec (.unknownKind q) s = execUnknownKind q s := rfl
@[simp] theorem exec_launchComplete (h : W64) (s : State) :
    exec (.launchComplete h) s = execLaunchComplete h s := rfl
@[simp] theorem exec_messageDelivery (id : Nat) (s : State) :
    exec (.messageDelivery id) s = execMessageDelivery id s := rfl
@[simp] theorem exec_dequeue (c : CoreId) (s : State) :
    exec (.dequeue c) s = execDequeue c s := rfl
@[simp] theorem exec_evq (d : UReg) (s : State) :
    exec (.evq d) s = execEvq d s := rfl
@[simp] theorem exec_registerWrite (addr v : W64) (s : State) :
    exec (.registerWrite addr v) s = execRegisterWrite addr v s := rfl
@[simp] theorem exec_doorbell (q : Nat) (s : State) :
    exec (.doorbell q) s = execDoorbell q s := rfl
@[simp] theorem exec_pendClear (w : Fin 16) (v : W64) (s : State) :
    exec (.pendClear w v) s = execPendClear w v s := rfl
@[simp] theorem exec_slotMap (n : Nat) (v : W64) (s : State) :
    exec (.slotMap n v) s = execSlotMap n v s := rfl
@[simp] theorem exec_slotDrain (n : Nat) (v : W64) (s : State) :
    exec (.slotDrain n v) s = execSlotDrain n v s := rfl
@[simp] theorem exec_unmap (n : Nat) (s : State) :
    exec (.unmap n) s = execUnmap n s := rfl
@[simp] theorem exec_qtear (v : W64) (s : State) :
    exec (.qtear v) s = execQtear v s := rfl
@[simp] theorem exec_teardownComplete (s : State) :
    exec (.teardownComplete) s = execTeardownComplete s := rfl
@[simp] theorem exec_hostAccess (a : HostAcc) (s : State) :
    exec (.hostAccess a) s = execHostAccess a s := rfl
@[simp] theorem exec_invalidation (v : W64) (s : State) :
    exec (.invalidation v) s = execInvalidation v s := rfl
@[simp] theorem exec_invalidationComplete (s : State) :
    exec (.invalidationComplete) s = execInvalidationComplete s := rfl
@[simp] theorem exec_broadcastInvalidation (space : Option W32) (va : W64) (pages : Nat) (s : State) :
    exec (.broadcastInvalidation space va pages) s = execBroadcastInvalidation space va pages s := rfl
@[simp] theorem exec_hostSync (s : State) :
    exec (.hostSync) s = execHostSync s := rfl
@[simp] theorem exec_fltrespRetry (v : W64) (s : State) :
    exec (.fltrespRetry v) s = execFltrespRetry v s := rfl
@[simp] theorem exec_fltrespUnmap (v : W64) (s : State) :
    exec (.fltrespUnmap v) s = execFltrespUnmap v s := rfl
@[simp] theorem exec_swap (s : State) :
    exec (.swap) s = execSwap s := rfl
@[simp] theorem exec_swapComplete (s : State) :
    exec (.swapComplete) s = execSwapComplete s := rfl
@[simp] theorem exec_darning (s : State) :
    exec (.darning) s = execDarning s := rfl
@[simp] theorem exec_darningComplete (s : State) :
    exec (.darningComplete) s = execDarningComplete s := rfl
@[simp] theorem exec_peerAccess (a : PeerAcc) (s : State) :
    exec (.peerAccess a) s = execPeerAccess a s := rfl
@[simp] theorem exec_attest (b : MbBox) (s : State) :
    exec (.attest b) s = execAttest b s := rfl
@[simp] theorem exec_readlog (b : MbBox) (s : State) :
    exec (.readlog b) s = execReadlog b s := rfl
@[simp] theorem exec_readbadframes (b : MbBox) (s : State) :
    exec (.readbadframes b) s = execReadbadframes b s := rfl
@[simp] theorem exec_unlockchal (b : MbBox) (s : State) :
    exec (.unlockchal b) s = execUnlockchal b s := rfl
@[simp] theorem exec_unlock (b : MbBox) (s : State) :
    exec (.unlock b) s = execUnlock b s := rfl
@[simp] theorem exec_power (b : MbBox) (idle : Bool) (s : State) :
    exec (.power b idle) s = execPower b idle s := rfl
@[simp] theorem exec_fwstage (b : MbBox) (s : State) :
    exec (.fwstage b) s = execFwstage b s := rfl
@[simp] theorem exec_lifecycle (b : MbBox) (s : State) :
    exec (.lifecycle b) s = execLifecycle b s := rfl
@[simp] theorem exec_readtelem (b : MbBox) (s : State) :
    exec (.readtelem b) s = execReadtelem b s := rfl
@[simp] theorem exec_readfaulthist (b : MbBox) (s : State) :
    exec (.readfaulthist b) s = execReadfaulthist b s := rfl
@[simp] theorem exec_checkpoint (b : MbBox) (idle : Bool) (s : State) :
    exec (.checkpoint b idle) s = execCheckpoint b idle s := rfl
@[simp] theorem exec_restore (b : MbBox) (s : State) :
    exec (.restore b) s = execRestore b s := rfl
@[simp] theorem exec_declarelost (b : MbBox) (s : State) :
    exec (.declarelost b) s = execDeclarelost b s := rfl
@[simp] theorem exec_commitsvn (b : MbBox) (s : State) :
    exec (.commitsvn b) s = execCommitsvn b s := rfl
@[simp] theorem exec_mailboxComplete (b : MbBox) (s : State) :
    exec (.mailboxComplete b) s = execMailboxComplete b s := rfl
@[simp] theorem exec_eccmode (die : Nat) (v : W64) (s : State) :
    exec (.eccmode die v) s = execEccmode die v s := rfl
@[simp] theorem exec_coreTest (die : Nat) (v : W64) (s : State) :
    exec (.coreTest die v) s = execCoreTest die v s := rfl
@[simp] theorem exec_coreTestComplete (die : Nat) (pass : Bool) (s : State) :
    exec (.coreTestComplete die pass) s = execCoreTestComplete die pass s := rfl
@[simp] theorem exec_slicetime (v : W64) (s : State) :
    exec (.slicetime v) s = execSlicetime v s := rfl
@[simp] theorem exec_sliceSwitch (s : State) :
    exec (.sliceSwitch) s = execSliceSwitch s := rfl
@[simp] theorem exec_sliceRestore (s : State) :
    exec (.sliceRestore) s = execSliceRestore s := rfl
@[simp] theorem exec_patrolScrub (block : Nat) (e : EccFinding) (s : State) :
    exec (.patrolScrub block e) s = execPatrolScrub block e s := rfl
@[simp] theorem exec_arraySweep (die : Nat) (e : List ArrayFinding) (s : State) :
    exec (.arraySweep die e) s = execArraySweep die e s := rfl
@[simp] theorem exec_phyCalibration (ctrl channel : Nat) (s : State) :
    exec (.phyCalibration ctrl channel) s = execPhyCalibration ctrl channel s := rfl
@[simp] theorem exec_ageingMargin (die : Nat) (short : Bool) (s : State) :
    exec (.ageingMargin die short) s = execAgeingMargin die short s := rfl
@[simp] theorem exec_telemetry (t : List TelemetrySample) (s : State) :
    exec (.telemetry t) s = execTelemetry t s := rfl
@[simp] theorem exec_pipelineError (t : TgRef) (checker : Byte) (op : Option Nat) (s : State) :
    exec (.pipelineError t checker op) s = execPipelineError t checker op s := rfl
@[simp] theorem exec_laneFailure (k : LinkRef) (mask : W64) (s : State) :
    exec (.laneFailure k mask) s = execLaneFailure k mask s := rfl
@[simp] theorem exec_deviceFailure (s : State) :
    exec (.deviceFailure) s = execDeviceFailure s := rfl
@[simp] theorem exec_powerLimit (mhz : Nat) (s : State) :
    exec (.powerLimit mhz) s = execPowerLimit mhz s := rfl
@[simp] theorem exec_boot (table : List (Nat × W64 × W64)) (s : State) :
    exec (.boot table) s = execBoot table s := rfl
@[simp] theorem exec_powerWake (s : State) :
    exec (.powerWake) s = execPowerWake s := rfl
@[simp] theorem exec_idcode (s : State) :
    exec (.idcode) s = execIdcode s := rfl
@[simp] theorem exec_bypass (bits : List Bool) (s : State) :
    exec (.bypass bits) s = execBypass bits s := rfl
@[simp] theorem exec_jtagHalt (t : TgRef) (s : State) :
    exec (.jtagHalt t) s = execJtagHalt t s := rfl
@[simp] theorem exec_jtagResume (t : TgRef) (s : State) :
    exec (.jtagResume t) s = execJtagResume t s := rfl
@[simp] theorem exec_jtagStep (t : TgRef) (s : State) :
    exec (.jtagStep t) s = execJtagStep t s := rfl
@[simp] theorem exec_jtagAccess (a : JtagAcc) (s : State) :
    exec (.jtagAccess a) s = execJtagAccess a s := rfl
@[simp] theorem exec_yieldExpiry (t : TgRef) (s : State) :
    exec (.yieldExpiry t) s = execYieldExpiry t s := rfl
@[simp] theorem exec_messageAnswer (id : Nat) (s : State) :
    exec (.messageAnswer id) s = execMessageAnswer id s := rfl
@[simp] theorem exec_mangleRequest (id : Nat) (s : State) :
    exec (.mangleRequest id) s = execMangleRequest id s := rfl
@[simp] theorem exec_peerReply (id : Nat) (r : PeerRes) (s : State) :
    exec (.peerReply id r) s = execPeerReply id r s := rfl
@[simp] theorem exec_flitReplay (die : Nat) (s : State) :
    exec (.flitReplay die) s = execFlitReplay die s := rfl
@[simp] theorem exec_powerLoss (s : State) :
    exec (.powerLoss) s = execPowerLoss s := rfl

end Sys2Proof.Machine
end

