-- ==== Sys2Proof/Laws/Memory.lean ====
section
/-! SUPPORT. Storage (R3, R22, R384): what a byte reads as after each operation on it, and that every operation keeps the canonical
form. -/

namespace Sys2Proof.Machine

open Sys2Proof

/-! ### One byte -/

/-- Below the least address of a list, nothing is written. -/
theorem memGet_below (m : List Host.Cell) (l x : Nat) (h : memWfFrom (some l) m = true) (hx : x ≤ l) : memGet m x = unwritten := by
  cases m with
  | nil => rfl
  | cons c r =>
    obtain ⟨a, b⟩ := c
    simp only [memWfFrom, Bool.and_eq_true, decide_eq_true_eq] at h
    unfold memGet
    rw [if_neg (by omega), if_pos (by omega)]

theorem memWfFrom_none (l : Nat) (m : List Host.Cell) (h : memWfFrom (some l) m = true) : memWfFrom none m = true := by
  cases m with
  | nil => rfl
  | cons c r =>
    obtain ⟨a, b⟩ := c
    simp only [memWfFrom, Bool.and_eq_true] at h ⊢
    exact ⟨⟨trivial, h.1.2⟩, h.2⟩

theorem memWfFrom_mono (l k : Nat) (m : List Host.Cell) (h : memWfFrom (some l) m = true) (hk : k ≤ l) : memWfFrom (some k) m = true := by
  cases m with
  | nil => rfl
  | cons c r =>
    obtain ⟨a, b⟩ := c
    simp only [memWfFrom, Bool.and_eq_true, decide_eq_true_eq] at h ⊢
    exact ⟨⟨by omega, h.1.2⟩, h.2⟩

/-- Writing a byte keeps the canonical form. -/
theorem memWfFrom_memSet (lo : Option Nat) (a : Nat) (b : Byte) (m : List Host.Cell) (h : memWfFrom lo m = true) (hl : ∀ l ∈ lo, l < a) :
    memWfFrom lo (memSet a b m) = true := by
  induction m generalizing lo with
  | nil =>
    unfold memSet
    split
    · rfl
    · rename_i hb
      cases lo with
      | none => simp [memWfFrom, hb]
      | some l => simp [memWfFrom, hb, hl l rfl]
  | cons c r ih =>
    obtain ⟨a', b'⟩ := c
    have hw := h
    simp only [memWfFrom, Bool.and_eq_true] at h
    unfold memSet
    split_ifs with h1 h2 h3 h4
    · exact hw
    · simp only [memWfFrom, Bool.and_eq_true, bne_iff_ne, ne_eq, decide_eq_true_eq]
      refine ⟨⟨?_, h2⟩, ⟨h1, by simpa using h.1.2⟩, h.2⟩
      cases lo with
      | none => rfl
      | some l => simpa using hl l rfl
    · cases lo with
      | none => exact memWfFrom_none a' r h.2
      | some l => exact memWfFrom_mono a' l r h.2 (by have := hl l rfl; omega)
    · subst h3
      simp only [memWfFrom, Bool.and_eq_true, bne_iff_ne, ne_eq]
      refine ⟨⟨?_, h4⟩, h.2⟩
      cases lo with
      | none => rfl
      | some l => simpa using hl l rfl
    · simp only [memWfFrom, Bool.and_eq_true]
      exact ⟨h.1, ih (some a') h.2 (fun l hl' => by cases hl'; omega)⟩

/-- What a byte reads as after one has been written. -/
theorem memGet_memSet (lo : Option Nat) (a : Nat) (b : Byte) (m : List Host.Cell) (x : Nat) (h : memWfFrom lo m = true) :
    memGet (memSet a b m) x = if x = a then b else memGet m x := by
  induction m generalizing lo with
  | nil =>
    unfold memSet
    split_ifs with hb hx <;> simp_all [memGet]
  | cons c r ih =>
    obtain ⟨a', b'⟩ := c
    simp only [memWfFrom, Bool.and_eq_true] at h
    unfold memSet
    by_cases h1 : a < a'
    · rw [if_pos h1]
      by_cases hb : b = unwritten
      · rw [if_pos hb]
        by_cases hx : x = a
        · subst hx; rw [if_pos rfl, hb]; unfold memGet; rw [if_neg (by omega), if_pos h1]
        · rw [if_neg hx]
      · rw [if_neg hb]
        by_cases hx : x = a
        · subst hx; rw [if_pos rfl]; unfold memGet; rw [if_pos rfl]
        · rw [if_neg hx]
          conv => lhs; unfold memGet
          rw [if_neg hx]
          by_cases hxa : x < a
          · rw [if_pos hxa]; unfold memGet; rw [if_neg (by omega), if_pos (by omega)]
          · rw [if_neg hxa]
    · rw [if_neg h1]
      by_cases h2 : a = a'
      · subst h2
        rw [if_pos rfl]
        by_cases hb : b = unwritten
        · rw [if_pos hb]
          by_cases hx : x = a
          · subst hx; rw [if_pos rfl, hb]; exact memGet_below r x x h.2 le_rfl
          · rw [if_neg hx]
            conv => rhs; unfold memGet
            rw [if_neg hx]
            by_cases hxa : x < a
            · rw [if_pos hxa]; exact memGet_below r a x h.2 (by omega)
            · rw [if_neg hxa]
        · rw [if_neg hb]
          unfold memGet
          by_cases hx : x = a
          · rw [if_pos hx, if_pos hx]
          · rw [if_neg hx, if_neg hx, if_neg hx]
      · rw [if_neg h2]
        unfold memGet
        by_cases hx : x = a'
        · subst hx; rw [if_pos rfl, if_neg (fun e => h2 e.symm), if_pos rfl]
        · rw [if_neg hx, if_neg hx]
          by_cases hxa : x < a'
          · rw [if_pos hxa, if_pos hxa, if_neg (by omega)]
          · rw [if_neg hxa, if_neg hxa]; exact ih (some a') h.2

/-! ### Runs of bytes -/

/-- Writing bytes keeps the canonical form. -/
theorem wf_memPut (a : Nat) (bs : List Byte) (m : List Host.Cell) (h : Memory.wf m = true) : Memory.wf (memPut a bs m) = true := by
  induction bs generalizing a m with
  | nil => exact h
  | cons b bs ih => exact ih (a + 1) _ (memWfFrom_memSet none a b m h (by simp))

/-- What a byte reads as after a run of bytes has been written. -/
theorem memGet_memPut (a : Nat) (bs : List Byte) (m : List Host.Cell) (x : Nat) (h : Memory.wf m = true) :
    memGet (memPut a bs m) x = if a ≤ x ∧ x < a + bs.length then bs.getD (x - a) 0 else memGet m x := by
  induction bs generalizing a m with
  | nil => rw [if_neg (by simp)]; rfl
  | cons b bs ih =>
    unfold memPut
    rw [ih (a + 1) _ (memWfFrom_memSet none a b m h (by simp)), memGet_memSet none a b m x h]
    by_cases hx : x = a
    · subst hx
      rw [if_neg (by omega), if_pos rfl, if_pos (by simp)]
      simp
    · rw [if_neg hx]
      by_cases hr : a + 1 ≤ x ∧ x < a + 1 + bs.length
      · rw [if_pos hr, if_pos (by simp; omega)]
        obtain ⟨k, rfl⟩ : ∃ k, x = a + (k + 1) := ⟨x - a - 1, by omega⟩
        simp [show a + (k + 1) - (a + 1) = k by omega]
      · rw [if_neg hr, if_neg (by simp; omega)]

theorem memBytes_eq_of_get (m n : List Host.Cell) (a b k : Nat) (h : ∀ i < k, memGet m (a + i) = memGet n (b + i)) :
    memBytes m a k = memBytes n b k := by
  induction k generalizing a b with
  | zero => rfl
  | succ k ih =>
    unfold memBytes
    have h0 := h 0 (by omega)
    simp only [Nat.add_zero] at h0
    rw [h0, ih (a + 1) (b + 1) (fun i hi => by have := h (i + 1) (by omega); rwa [Nat.add_assoc, Nat.add_comm 1, Nat.add_assoc, Nat.add_comm 1])]

theorem memBytes_getD (m : List Host.Cell) (a n i : Nat) (h : i < n) : (memBytes m a n).getD i 0 = memGet m (a + i) := by
  induction n generalizing a i with
  | zero => omega
  | succ n ih =>
    cases i with
    | zero => rfl
    | succ i => simp only [memBytes, List.getD_cons_succ]; rw [ih (a + 1) i (by omega)]; congr 1; omega

/-- A run that has just been written reads as written. -/
theorem memBytes_memPut (a : Nat) (bs : List Byte) (m : List Host.Cell) (h : Memory.wf m = true) :
    memBytes (memPut a bs m) a bs.length = bs := by
  have hlen : ∀ (m : List Host.Cell) (a n : Nat), (memBytes m a n).length = n := by
    intro m a n
    induction n generalizing a with
    | zero => rfl
    | succ n ih => simp [memBytes, ih]
  apply List.ext_getElem (hlen ..)
  intro i h1 h2
  have hi : i < bs.length := by simpa [hlen] using h1
  have := memBytes_getD (memPut a bs m) a bs.length i hi
  rw [memGet_memPut _ _ _ _ h, if_pos (by omega), Nat.add_sub_cancel_left] at this
  simpa [List.getD_eq_getElem?_getD, h1, h2] using this

/-- Writing bytes one by one keeps the canonical form. -/
theorem wf_foldl_memSet {α : Type} (f : α → Nat) (g : α → Byte) (l : List α) (m : List Host.Cell) (h : Memory.wf m = true) :
    Memory.wf (l.foldl (fun m x => memSet (f x) (g x) m) m) = true := by
  induction l generalizing m with
  | nil => exact h
  | cons x l ih => exact ih _ (memWfFrom_memSet none _ _ m h (by simp))

/-- Writing runs one after the other keeps the canonical form. -/
theorem wf_foldl_memPut {α : Type} (f : List Host.Cell → α → Nat) (g : List Host.Cell → α → List Byte) (l : List α) (m : List Host.Cell)
    (h : Memory.wf m = true) : Memory.wf (l.foldl (fun m x => memPut (f m x) (g m x) m) m) = true := by
  induction l generalizing m with
  | nil => exact h
  | cons x l ih => exact ih _ (wf_memPut _ _ m h)

/-! ### Parts of storage -/

theorem memWfFrom_filter (lo : Option Nat) (p : Host.Cell → Bool) (m : List Host.Cell) (h : memWfFrom lo m = true) :
    memWfFrom lo (m.filter p) = true := by
  induction m generalizing lo with
  | nil => rfl
  | cons c r ih =>
    obtain ⟨a, b⟩ := c
    simp only [memWfFrom, Bool.and_eq_true] at h
    rw [List.filter_cons]
    split
    · simp only [memWfFrom, Bool.and_eq_true]
      exact ⟨h.1, ih _ h.2⟩
    · have hr := ih (some a) h.2
      cases lo with
      | none => exact memWfFrom_none a _ hr
      | some l => exact memWfFrom_mono a l _ hr (by have := h.1.1; simp at this; omega)

/-- Dropping cells keeps the canonical form. -/
theorem wf_filter (p : Host.Cell → Bool) (m : List Host.Cell) (h : Memory.wf m = true) : Memory.wf (m.filter p) = true :=
  memWfFrom_filter none p m h

/-- What a byte reads as when only some addresses are kept. -/
theorem memGet_filter (lo : Option Nat) (p : Nat → Bool) (m : List Host.Cell) (x : Nat) (h : memWfFrom lo m = true) :
    memGet (m.filter (fun c => p c.1)) x = if p x then memGet m x else unwritten := by
  induction m generalizing lo with
  | nil => simp [memGet]
  | cons c r ih =>
    obtain ⟨a, b⟩ := c
    simp only [memWfFrom, Bool.and_eq_true] at h
    have hr := ih (some a) h.2
    rw [List.filter_cons]
    by_cases hp : p a = true
    · rw [if_pos hp]
      unfold memGet
      by_cases hx : x = a
      · subst hx; rw [if_pos rfl, if_pos rfl, if_pos hp]
      · rw [if_neg hx, if_neg hx, hr]
        split_ifs <;> rfl
    · rw [if_neg hp, hr]
      by_cases hx : x = a
      · subst hx; rw [if_neg hp, if_neg hp]
      · split_ifs with hpx
        · conv => rhs; unfold memGet
          rw [if_neg hx]
          by_cases hxa : x < a
          · rw [if_pos hxa]; exact memGet_below r a x h.2 (by omega)
          · rw [if_neg hxa]
        · rfl

/-- Two parts of storage, one below an address and one from it on, make one list in canonical form. -/
theorem memWfFrom_append (lo : Option Nat) (k : Nat) (m n : List Host.Cell) (hm : memWfFrom lo m = true) (hlo : ∀ l ∈ lo, l < k)
    (hk : ∀ c ∈ m, c.1 < k) (hn : memWfFrom none n = true) (hge : ∀ c ∈ n, k ≤ c.1) : memWfFrom lo (m ++ n) = true := by
  induction m generalizing lo with
  | nil =>
    cases n with
    | nil => rfl
    | cons c r =>
      obtain ⟨a, b⟩ := c
      simp only [List.nil_append, memWfFrom, Bool.and_eq_true] at hn ⊢
      refine ⟨⟨?_, hn.1.2⟩, hn.2⟩
      cases lo with
      | none => rfl
      | some l =>
        have h1 := hlo l rfl
        have h2 := hge (a, b) (List.mem_cons_self ..)
        simp only [decide_eq_true_eq]
        simp only at h2
        omega
  | cons c r ih =>
    obtain ⟨a, b⟩ := c
    simp only [List.cons_append, memWfFrom, Bool.and_eq_true] at hm ⊢
    exact ⟨hm.1, ih (some a) hm.2 (fun l hl => by cases hl; exact hk (a, b) (List.mem_cons_self ..))
      (fun c hc => hk c (List.mem_cons_of_mem _ hc))⟩

theorem wf_split (k : Nat) (m n : List Host.Cell) (hm : Memory.wf m = true) (hn : Memory.wf n = true) :
    Memory.wf (m.filter (fun c => decide (c.1 < k)) ++ n.filter (fun c => decide (k ≤ c.1))) = true :=
  memWfFrom_append none k _ _ (wf_filter _ m hm) (by simp) (fun c hc => by simpa using (List.mem_filter.mp hc).2) (wf_filter _ n hn)
    (fun c hc => by simpa using (List.mem_filter.mp hc).2)

/-! ### The operations on storage of the machine -/

theorem put_wf (s : Soc) (a : Nat) (bs : List Byte) (p : Bool) (h : Memory.wf s.mem = true) : Memory.wf (s.put a bs p).mem = true :=
  wf_memPut a bs s.mem h
theorem putE_wf (s : Soc) (es : List EByte) (h : Memory.wf s.mem = true) : Memory.wf (s.putE es).mem = true :=
  wf_foldl_memSet _ _ es s.mem h
theorem clear_wf (s : Soc) (lo hi : Nat) (h : Memory.wf s.mem = true) : Memory.wf (s.clear lo hi).mem = true := wf_filter _ s.mem h
theorem copyFrame_wf (s : Soc) (src dst : Nat) (h : Memory.wf s.mem = true) : Memory.wf (s.copyFrame src dst).mem = true :=
  wf_foldl_memSet _ _ _ _ (wf_filter _ s.mem h)
theorem crypt_wf (m : Mgmt) (f : BitVec 256 → BitVec 256 → Nat → List Byte → List Byte) (us : List (Nat × Half)) (mem : List Host.Cell)
    (h : Memory.wf mem = true) : Memory.wf (m.crypt f us mem) = true := wf_foldl_memPut _ _ us mem h
theorem loadImage_wf (s : State) (img : Image) (h : Memory.wf s.mem = true) (hi : Memory.wf img.soc.mem = true) :
    Memory.wf (s.loadImage_ img).mem = true := wf_split (2 ^ 64) _ _ (crypt_wf _ _ _ _ hi) h
@[simp] theorem encode_mem (s : State) (d lo hi : Nat) : (s.encode d lo hi).mem = s.mem := by
  unfold State.encode
  split <;> rfl
@[simp] theorem encodeSpad_mem (s : State) (a n : Nat) : (s.encodeSpad a n).mem = s.mem := by
  unfold State.encodeSpad
  split <;> simp
theorem writeAt_mem (s : State) (a : Nat) (bs : List Byte) (p : Bool) : (s.writeAt a bs p).mem = memPut a bs s.mem := by
  have hw : ∀ (l : List Watch) (s : State), (l.foldl (fun (s : State) w => s.modTg w.tg (fun g => { g with wake := g.wake.or (some .go) })) s).mem =
      s.mem := by
    intro l
    induction l with
    | nil => exact fun _ => rfl
    | cons w l ih =>
      intro s
      rw [List.foldl_cons, ih]
      unfold State.modTg
      split <;> rfl
  exact (hw _ _).trans (congrArg (memPut a bs) (encodeSpad_mem s a bs.length))
theorem writeAt_wf (s : State) (a : Nat) (bs : List Byte) (p : Bool) (h : Memory.wf s.mem = true) :
    Memory.wf (s.writeAt a bs p).mem = true := by
  rw [writeAt_mem]
  exact wf_memPut a bs s.mem h

/-- Memory at reset is in canonical form. -/
theorem reset_memOk : State.reset.MemOk := ⟨rfl, fun _ h => by cases h⟩

end Sys2Proof.Machine
end

