-- ==== Sys2Proof/Laws/State.lean ====
section
/-! SUPPORT. The fields of the machine after each of its small updates: one lemma for each. -/

namespace Sys2Proof.Machine

open Sys2Proof

/-! ### modCore -/

@[simp] theorem modCore_mode (s : State) (c : CoreId) (f : Core → Core) : (s.modCore c f).mode = s.mode := rfl
@[simp] theorem modCore_me (s : State) (c : CoreId) (f : Core → Core) : (s.modCore c f).me = s.me := rfl
@[simp] theorem modCore_tgs (s : State) (c : CoreId) (f : Core → Core) : (s.modCore c f).tgs = s.tgs := rfl
@[simp] theorem modCore_tasks (s : State) (c : CoreId) (f : Core → Core) : (s.modCore c f).tasks = s.tasks := rfl
@[simp] theorem modCore_futs (s : State) (c : CoreId) (f : Core → Core) : (s.modCore c f).futs = s.futs := rfl
@[simp] theorem modCore_ctxs (s : State) (c : CoreId) (f : Core → Core) : (s.modCore c f).ctxs = s.ctxs := rfl
@[simp] theorem modCore_mem (s : State) (c : CoreId) (f : Core → Core) : (s.modCore c f).mem = s.mem := rfl
@[simp] theorem modCore_poison (s : State) (c : CoreId) (f : Core → Core) : (s.modCore c f).poison = s.poison := rfl
@[simp] theorem modCore_cores (s : State) (c : CoreId) (f : Core → Core) : (s.modCore c f).cores = kset c (f (s.core c)) s.cores := rfl
@[simp] theorem modCore_clusters (s : State) (c : CoreId) (f : Core → Core) : (s.modCore c f).clusters = s.clusters := rfl
@[simp] theorem modCore_dies (s : State) (c : CoreId) (f : Core → Core) : (s.modCore c f).dies = s.dies := rfl
@[simp] theorem modCore_wrs (s : State) (c : CoreId) (f : Core → Core) : (s.modCore c f).wrs = s.wrs := rfl
@[simp] theorem modCore_replicas (s : State) (c : CoreId) (f : Core → Core) : (s.modCore c f).replicas = s.replicas := rfl
@[simp] theorem modCore_watches (s : State) (c : CoreId) (f : Core → Core) : (s.modCore c f).watches = s.watches := rfl
@[simp] theorem modCore_ops (s : State) (c : CoreId) (f : Core → Core) : (s.modCore c f).ops = s.ops := rfl
@[simp] theorem modCore_reqs (s : State) (c : CoreId) (f : Core → Core) : (s.modCore c f).reqs = s.reqs := rfl
@[simp] theorem modCore_msgs (s : State) (c : CoreId) (f : Core → Core) : (s.modCore c f).msgs = s.msgs := rfl
@[simp] theorem modCore_slots (s : State) (c : CoreId) (f : Core → Core) : (s.modCore c f).slots = s.slots := rfl
@[simp] theorem modCore_pkts (s : State) (c : CoreId) (f : Core → Core) : (s.modCore c f).pkts = s.pkts := rfl
@[simp] theorem modCore_sup (s : State) (c : CoreId) (f : Core → Core) : (s.modCore c f).sup = s.sup := rfl
@[simp] theorem modCore_faults (s : State) (c : CoreId) (f : Core → Core) : (s.modCore c f).faults = s.faults := rfl
@[simp] theorem modCore_cycle (s : State) (c : CoreId) (f : Core → Core) : (s.modCore c f).cycle = s.cycle := rfl
@[simp] theorem modCore_ptp (s : State) (c : CoreId) (f : Core → Core) : (s.modCore c f).ptp = s.ptp := rfl
@[simp] theorem modCore_seq (s : State) (c : CoreId) (f : Core → Core) : (s.modCore c f).seq = s.seq := rfl
@[simp] theorem modCore_free (s : State) (c : CoreId) (f : Core → Core) : (s.modCore c f).free = s.free := rfl
@[simp] theorem modCore_created (s : State) (c : CoreId) (f : Core → Core) : (s.modCore c f).created = s.created := rfl
@[simp] theorem modCore_seen (s : State) (c : CoreId) (f : Core → Core) : (s.modCore c f).seen = s.seen := rfl
@[simp] theorem modCore_engWords (s : State) (c : CoreId) (f : Core → Core) : (s.modCore c f).engWords = s.engWords := rfl
@[simp] theorem modCore_hwq (s : State) (c : CoreId) (f : Core → Core) : (s.modCore c f).hwq = s.hwq := rfl
@[simp] theorem modCore_hostq (s : State) (c : CoreId) (f : Core → Core) : (s.modCore c f).hostq = s.hostq := rfl
@[simp] theorem modCore_engWaits (s : State) (c : CoreId) (f : Core → Core) : (s.modCore c f).engWaits = s.engWaits := rfl
@[simp] theorem modCore_mgmt (s : State) (c : CoreId) (f : Core → Core) : (s.modCore c f).mgmt = s.mgmt := rfl
@[simp] theorem modCore_agenda (s : State) (c : CoreId) (f : Core → Core) : (s.modCore c f).agenda = s.agenda := rfl
@[simp] theorem modCore_pace (s : State) (c : CoreId) (f : Core → Core) : (s.modCore c f).pace = s.pace := rfl

/-! ### modCluster -/

@[simp] theorem modCluster_mode (s : State) (c : ClId) (f : Cluster → Cluster) : (s.modCluster c f).mode = s.mode := rfl
@[simp] theorem modCluster_me (s : State) (c : ClId) (f : Cluster → Cluster) : (s.modCluster c f).me = s.me := rfl
@[simp] theorem modCluster_tgs (s : State) (c : ClId) (f : Cluster → Cluster) : (s.modCluster c f).tgs = s.tgs := rfl
@[simp] theorem modCluster_tasks (s : State) (c : ClId) (f : Cluster → Cluster) : (s.modCluster c f).tasks = s.tasks := rfl
@[simp] theorem modCluster_futs (s : State) (c : ClId) (f : Cluster → Cluster) : (s.modCluster c f).futs = s.futs := rfl
@[simp] theorem modCluster_ctxs (s : State) (c : ClId) (f : Cluster → Cluster) : (s.modCluster c f).ctxs = s.ctxs := rfl
@[simp] theorem modCluster_mem (s : State) (c : ClId) (f : Cluster → Cluster) : (s.modCluster c f).mem = s.mem := rfl
@[simp] theorem modCluster_poison (s : State) (c : ClId) (f : Cluster → Cluster) : (s.modCluster c f).poison = s.poison := rfl
@[simp] theorem modCluster_cores (s : State) (c : ClId) (f : Cluster → Cluster) : (s.modCluster c f).cores = s.cores := rfl
@[simp] theorem modCluster_clusters (s : State) (c : ClId) (f : Cluster → Cluster) : (s.modCluster c f).clusters = kset c (f (s.cluster c)) s.clusters := rfl
@[simp] theorem modCluster_dies (s : State) (c : ClId) (f : Cluster → Cluster) : (s.modCluster c f).dies = s.dies := rfl
@[simp] theorem modCluster_wrs (s : State) (c : ClId) (f : Cluster → Cluster) : (s.modCluster c f).wrs = s.wrs := rfl
@[simp] theorem modCluster_replicas (s : State) (c : ClId) (f : Cluster → Cluster) : (s.modCluster c f).replicas = s.replicas := rfl
@[simp] theorem modCluster_watches (s : State) (c : ClId) (f : Cluster → Cluster) : (s.modCluster c f).watches = s.watches := rfl
@[simp] theorem modCluster_ops (s : State) (c : ClId) (f : Cluster → Cluster) : (s.modCluster c f).ops = s.ops := rfl
@[simp] theorem modCluster_reqs (s : State) (c : ClId) (f : Cluster → Cluster) : (s.modCluster c f).reqs = s.reqs := rfl
@[simp] theorem modCluster_msgs (s : State) (c : ClId) (f : Cluster → Cluster) : (s.modCluster c f).msgs = s.msgs := rfl
@[simp] theorem modCluster_slots (s : State) (c : ClId) (f : Cluster → Cluster) : (s.modCluster c f).slots = s.slots := rfl
@[simp] theorem modCluster_pkts (s : State) (c : ClId) (f : Cluster → Cluster) : (s.modCluster c f).pkts = s.pkts := rfl
@[simp] theorem modCluster_sup (s : State) (c : ClId) (f : Cluster → Cluster) : (s.modCluster c f).sup = s.sup := rfl
@[simp] theorem modCluster_faults (s : State) (c : ClId) (f : Cluster → Cluster) : (s.modCluster c f).faults = s.faults := rfl
@[simp] theorem modCluster_cycle (s : State) (c : ClId) (f : Cluster → Cluster) : (s.modCluster c f).cycle = s.cycle := rfl
@[simp] theorem modCluster_ptp (s : State) (c : ClId) (f : Cluster → Cluster) : (s.modCluster c f).ptp = s.ptp := rfl
@[simp] theorem modCluster_seq (s : State) (c : ClId) (f : Cluster → Cluster) : (s.modCluster c f).seq = s.seq := rfl
@[simp] theorem modCluster_free (s : State) (c : ClId) (f : Cluster → Cluster) : (s.modCluster c f).free = s.free := rfl
@[simp] theorem modCluster_created (s : State) (c : ClId) (f : Cluster → Cluster) : (s.modCluster c f).created = s.created := rfl
@[simp] theorem modCluster_seen (s : State) (c : ClId) (f : Cluster → Cluster) : (s.modCluster c f).seen = s.seen := rfl
@[simp] theorem modCluster_engWords (s : State) (c : ClId) (f : Cluster → Cluster) : (s.modCluster c f).engWords = s.engWords := rfl
@[simp] theorem modCluster_hwq (s : State) (c : ClId) (f : Cluster → Cluster) : (s.modCluster c f).hwq = s.hwq := rfl
@[simp] theorem modCluster_hostq (s : State) (c : ClId) (f : Cluster → Cluster) : (s.modCluster c f).hostq = s.hostq := rfl
@[simp] theorem modCluster_engWaits (s : State) (c : ClId) (f : Cluster → Cluster) : (s.modCluster c f).engWaits = s.engWaits := rfl
@[simp] theorem modCluster_mgmt (s : State) (c : ClId) (f : Cluster → Cluster) : (s.modCluster c f).mgmt = s.mgmt := rfl
@[simp] theorem modCluster_agenda (s : State) (c : ClId) (f : Cluster → Cluster) : (s.modCluster c f).agenda = s.agenda := rfl
@[simp] theorem modCluster_pace (s : State) (c : ClId) (f : Cluster → Cluster) : (s.modCluster c f).pace = s.pace := rfl

/-! ### modDie -/

@[simp] theorem modDie_mode (s : State) (d : Nat) (f : Die → Die) : (s.modDie d f).mode = s.mode := rfl
@[simp] theorem modDie_me (s : State) (d : Nat) (f : Die → Die) : (s.modDie d f).me = s.me := rfl
@[simp] theorem modDie_tgs (s : State) (d : Nat) (f : Die → Die) : (s.modDie d f).tgs = s.tgs := rfl
@[simp] theorem modDie_tasks (s : State) (d : Nat) (f : Die → Die) : (s.modDie d f).tasks = s.tasks := rfl
@[simp] theorem modDie_futs (s : State) (d : Nat) (f : Die → Die) : (s.modDie d f).futs = s.futs := rfl
@[simp] theorem modDie_ctxs (s : State) (d : Nat) (f : Die → Die) : (s.modDie d f).ctxs = s.ctxs := rfl
@[simp] theorem modDie_mem (s : State) (d : Nat) (f : Die → Die) : (s.modDie d f).mem = s.mem := rfl
@[simp] theorem modDie_poison (s : State) (d : Nat) (f : Die → Die) : (s.modDie d f).poison = s.poison := rfl
@[simp] theorem modDie_cores (s : State) (d : Nat) (f : Die → Die) : (s.modDie d f).cores = s.cores := rfl
@[simp] theorem modDie_clusters (s : State) (d : Nat) (f : Die → Die) : (s.modDie d f).clusters = s.clusters := rfl
@[simp] theorem modDie_dies (s : State) (d : Nat) (f : Die → Die) : (s.modDie d f).dies = kset d (f (s.die d)) s.dies := rfl
@[simp] theorem modDie_wrs (s : State) (d : Nat) (f : Die → Die) : (s.modDie d f).wrs = s.wrs := rfl
@[simp] theorem modDie_replicas (s : State) (d : Nat) (f : Die → Die) : (s.modDie d f).replicas = s.replicas := rfl
@[simp] theorem modDie_watches (s : State) (d : Nat) (f : Die → Die) : (s.modDie d f).watches = s.watches := rfl
@[simp] theorem modDie_ops (s : State) (d : Nat) (f : Die → Die) : (s.modDie d f).ops = s.ops := rfl
@[simp] theorem modDie_reqs (s : State) (d : Nat) (f : Die → Die) : (s.modDie d f).reqs = s.reqs := rfl
@[simp] theorem modDie_msgs (s : State) (d : Nat) (f : Die → Die) : (s.modDie d f).msgs = s.msgs := rfl
@[simp] theorem modDie_slots (s : State) (d : Nat) (f : Die → Die) : (s.modDie d f).slots = s.slots := rfl
@[simp] theorem modDie_pkts (s : State) (d : Nat) (f : Die → Die) : (s.modDie d f).pkts = s.pkts := rfl
@[simp] theorem modDie_sup (s : State) (d : Nat) (f : Die → Die) : (s.modDie d f).sup = s.sup := rfl
@[simp] theorem modDie_faults (s : State) (d : Nat) (f : Die → Die) : (s.modDie d f).faults = s.faults := rfl
@[simp] theorem modDie_cycle (s : State) (d : Nat) (f : Die → Die) : (s.modDie d f).cycle = s.cycle := rfl
@[simp] theorem modDie_ptp (s : State) (d : Nat) (f : Die → Die) : (s.modDie d f).ptp = s.ptp := rfl
@[simp] theorem modDie_seq (s : State) (d : Nat) (f : Die → Die) : (s.modDie d f).seq = s.seq := rfl
@[simp] theorem modDie_free (s : State) (d : Nat) (f : Die → Die) : (s.modDie d f).free = s.free := rfl
@[simp] theorem modDie_created (s : State) (d : Nat) (f : Die → Die) : (s.modDie d f).created = s.created := rfl
@[simp] theorem modDie_seen (s : State) (d : Nat) (f : Die → Die) : (s.modDie d f).seen = s.seen := rfl
@[simp] theorem modDie_engWords (s : State) (d : Nat) (f : Die → Die) : (s.modDie d f).engWords = s.engWords := rfl
@[simp] theorem modDie_hwq (s : State) (d : Nat) (f : Die → Die) : (s.modDie d f).hwq = s.hwq := rfl
@[simp] theorem modDie_hostq (s : State) (d : Nat) (f : Die → Die) : (s.modDie d f).hostq = s.hostq := rfl
@[simp] theorem modDie_engWaits (s : State) (d : Nat) (f : Die → Die) : (s.modDie d f).engWaits = s.engWaits := rfl
@[simp] theorem modDie_mgmt (s : State) (d : Nat) (f : Die → Die) : (s.modDie d f).mgmt = s.mgmt := rfl
@[simp] theorem modDie_agenda (s : State) (d : Nat) (f : Die → Die) : (s.modDie d f).agenda = s.agenda := rfl
@[simp] theorem modDie_pace (s : State) (d : Nat) (f : Die → Die) : (s.modDie d f).pace = s.pace := rfl

/-! ### modSlot -/

@[simp] theorem modSlot_mode (s : State) (n : Nat) (f : Slot → Slot) : (s.modSlot n f).mode = s.mode := rfl
@[simp] theorem modSlot_me (s : State) (n : Nat) (f : Slot → Slot) : (s.modSlot n f).me = s.me := rfl
@[simp] theorem modSlot_tgs (s : State) (n : Nat) (f : Slot → Slot) : (s.modSlot n f).tgs = s.tgs := rfl
@[simp] theorem modSlot_tasks (s : State) (n : Nat) (f : Slot → Slot) : (s.modSlot n f).tasks = s.tasks := rfl
@[simp] theorem modSlot_futs (s : State) (n : Nat) (f : Slot → Slot) : (s.modSlot n f).futs = s.futs := rfl
@[simp] theorem modSlot_ctxs (s : State) (n : Nat) (f : Slot → Slot) : (s.modSlot n f).ctxs = s.ctxs := rfl
@[simp] theorem modSlot_mem (s : State) (n : Nat) (f : Slot → Slot) : (s.modSlot n f).mem = s.mem := rfl
@[simp] theorem modSlot_poison (s : State) (n : Nat) (f : Slot → Slot) : (s.modSlot n f).poison = s.poison := rfl
@[simp] theorem modSlot_cores (s : State) (n : Nat) (f : Slot → Slot) : (s.modSlot n f).cores = s.cores := rfl
@[simp] theorem modSlot_clusters (s : State) (n : Nat) (f : Slot → Slot) : (s.modSlot n f).clusters = s.clusters := rfl
@[simp] theorem modSlot_dies (s : State) (n : Nat) (f : Slot → Slot) : (s.modSlot n f).dies = s.dies := rfl
@[simp] theorem modSlot_wrs (s : State) (n : Nat) (f : Slot → Slot) : (s.modSlot n f).wrs = s.wrs := rfl
@[simp] theorem modSlot_replicas (s : State) (n : Nat) (f : Slot → Slot) : (s.modSlot n f).replicas = s.replicas := rfl
@[simp] theorem modSlot_watches (s : State) (n : Nat) (f : Slot → Slot) : (s.modSlot n f).watches = s.watches := rfl
@[simp] theorem modSlot_ops (s : State) (n : Nat) (f : Slot → Slot) : (s.modSlot n f).ops = s.ops := rfl
@[simp] theorem modSlot_reqs (s : State) (n : Nat) (f : Slot → Slot) : (s.modSlot n f).reqs = s.reqs := rfl
@[simp] theorem modSlot_msgs (s : State) (n : Nat) (f : Slot → Slot) : (s.modSlot n f).msgs = s.msgs := rfl
@[simp] theorem modSlot_slots (s : State) (n : Nat) (f : Slot → Slot) : (s.modSlot n f).slots = kset n (f (s.slot n)) s.slots := rfl
@[simp] theorem modSlot_pkts (s : State) (n : Nat) (f : Slot → Slot) : (s.modSlot n f).pkts = s.pkts := rfl
@[simp] theorem modSlot_sup (s : State) (n : Nat) (f : Slot → Slot) : (s.modSlot n f).sup = s.sup := rfl
@[simp] theorem modSlot_faults (s : State) (n : Nat) (f : Slot → Slot) : (s.modSlot n f).faults = s.faults := rfl
@[simp] theorem modSlot_cycle (s : State) (n : Nat) (f : Slot → Slot) : (s.modSlot n f).cycle = s.cycle := rfl
@[simp] theorem modSlot_ptp (s : State) (n : Nat) (f : Slot → Slot) : (s.modSlot n f).ptp = s.ptp := rfl
@[simp] theorem modSlot_seq (s : State) (n : Nat) (f : Slot → Slot) : (s.modSlot n f).seq = s.seq := rfl
@[simp] theorem modSlot_free (s : State) (n : Nat) (f : Slot → Slot) : (s.modSlot n f).free = s.free := rfl
@[simp] theorem modSlot_created (s : State) (n : Nat) (f : Slot → Slot) : (s.modSlot n f).created = s.created := rfl
@[simp] theorem modSlot_seen (s : State) (n : Nat) (f : Slot → Slot) : (s.modSlot n f).seen = s.seen := rfl
@[simp] theorem modSlot_engWords (s : State) (n : Nat) (f : Slot → Slot) : (s.modSlot n f).engWords = s.engWords := rfl
@[simp] theorem modSlot_hwq (s : State) (n : Nat) (f : Slot → Slot) : (s.modSlot n f).hwq = s.hwq := rfl
@[simp] theorem modSlot_hostq (s : State) (n : Nat) (f : Slot → Slot) : (s.modSlot n f).hostq = s.hostq := rfl
@[simp] theorem modSlot_engWaits (s : State) (n : Nat) (f : Slot → Slot) : (s.modSlot n f).engWaits = s.engWaits := rfl
@[simp] theorem modSlot_mgmt (s : State) (n : Nat) (f : Slot → Slot) : (s.modSlot n f).mgmt = s.mgmt := rfl
@[simp] theorem modSlot_agenda (s : State) (n : Nat) (f : Slot → Slot) : (s.modSlot n f).agenda = s.agenda := rfl
@[simp] theorem modSlot_pace (s : State) (n : Nat) (f : Slot → Slot) : (s.modSlot n f).pace = s.pace := rfl

/-! ### modSup -/

@[simp] theorem modSup_mode (s : State) (f : SupRegs → SupRegs) : (s.modSup f).mode = s.mode := rfl
@[simp] theorem modSup_me (s : State) (f : SupRegs → SupRegs) : (s.modSup f).me = s.me := rfl
@[simp] theorem modSup_tgs (s : State) (f : SupRegs → SupRegs) : (s.modSup f).tgs = s.tgs := rfl
@[simp] theorem modSup_tasks (s : State) (f : SupRegs → SupRegs) : (s.modSup f).tasks = s.tasks := rfl
@[simp] theorem modSup_futs (s : State) (f : SupRegs → SupRegs) : (s.modSup f).futs = s.futs := rfl
@[simp] theorem modSup_ctxs (s : State) (f : SupRegs → SupRegs) : (s.modSup f).ctxs = s.ctxs := rfl
@[simp] theorem modSup_mem (s : State) (f : SupRegs → SupRegs) : (s.modSup f).mem = s.mem := rfl
@[simp] theorem modSup_poison (s : State) (f : SupRegs → SupRegs) : (s.modSup f).poison = s.poison := rfl
@[simp] theorem modSup_cores (s : State) (f : SupRegs → SupRegs) : (s.modSup f).cores = s.cores := rfl
@[simp] theorem modSup_clusters (s : State) (f : SupRegs → SupRegs) : (s.modSup f).clusters = s.clusters := rfl
@[simp] theorem modSup_dies (s : State) (f : SupRegs → SupRegs) : (s.modSup f).dies = s.dies := rfl
@[simp] theorem modSup_wrs (s : State) (f : SupRegs → SupRegs) : (s.modSup f).wrs = s.wrs := rfl
@[simp] theorem modSup_replicas (s : State) (f : SupRegs → SupRegs) : (s.modSup f).replicas = s.replicas := rfl
@[simp] theorem modSup_watches (s : State) (f : SupRegs → SupRegs) : (s.modSup f).watches = s.watches := rfl
@[simp] theorem modSup_ops (s : State) (f : SupRegs → SupRegs) : (s.modSup f).ops = s.ops := rfl
@[simp] theorem modSup_reqs (s : State) (f : SupRegs → SupRegs) : (s.modSup f).reqs = s.reqs := rfl
@[simp] theorem modSup_msgs (s : State) (f : SupRegs → SupRegs) : (s.modSup f).msgs = s.msgs := rfl
@[simp] theorem modSup_slots (s : State) (f : SupRegs → SupRegs) : (s.modSup f).slots = s.slots := rfl
@[simp] theorem modSup_pkts (s : State) (f : SupRegs → SupRegs) : (s.modSup f).pkts = s.pkts := rfl
@[simp] theorem modSup_sup (s : State) (f : SupRegs → SupRegs) : (s.modSup f).sup = f s.sup := rfl
@[simp] theorem modSup_faults (s : State) (f : SupRegs → SupRegs) : (s.modSup f).faults = s.faults := rfl
@[simp] theorem modSup_cycle (s : State) (f : SupRegs → SupRegs) : (s.modSup f).cycle = s.cycle := rfl
@[simp] theorem modSup_ptp (s : State) (f : SupRegs → SupRegs) : (s.modSup f).ptp = s.ptp := rfl
@[simp] theorem modSup_seq (s : State) (f : SupRegs → SupRegs) : (s.modSup f).seq = s.seq := rfl
@[simp] theorem modSup_free (s : State) (f : SupRegs → SupRegs) : (s.modSup f).free = s.free := rfl
@[simp] theorem modSup_created (s : State) (f : SupRegs → SupRegs) : (s.modSup f).created = s.created := rfl
@[simp] theorem modSup_seen (s : State) (f : SupRegs → SupRegs) : (s.modSup f).seen = s.seen := rfl
@[simp] theorem modSup_engWords (s : State) (f : SupRegs → SupRegs) : (s.modSup f).engWords = s.engWords := rfl
@[simp] theorem modSup_hwq (s : State) (f : SupRegs → SupRegs) : (s.modSup f).hwq = s.hwq := rfl
@[simp] theorem modSup_hostq (s : State) (f : SupRegs → SupRegs) : (s.modSup f).hostq = s.hostq := rfl
@[simp] theorem modSup_engWaits (s : State) (f : SupRegs → SupRegs) : (s.modSup f).engWaits = s.engWaits := rfl
@[simp] theorem modSup_mgmt (s : State) (f : SupRegs → SupRegs) : (s.modSup f).mgmt = s.mgmt := rfl
@[simp] theorem modSup_agenda (s : State) (f : SupRegs → SupRegs) : (s.modSup f).agenda = s.agenda := rfl
@[simp] theorem modSup_pace (s : State) (f : SupRegs → SupRegs) : (s.modSup f).pace = s.pace := rfl

/-! ### modMgmt -/

@[simp] theorem modMgmt_mode (s : State) (f : Mgmt → Mgmt) : (s.modMgmt f).mode = s.mode := rfl
@[simp] theorem modMgmt_me (s : State) (f : Mgmt → Mgmt) : (s.modMgmt f).me = s.me := rfl
@[simp] theorem modMgmt_tgs (s : State) (f : Mgmt → Mgmt) : (s.modMgmt f).tgs = s.tgs := rfl
@[simp] theorem modMgmt_tasks (s : State) (f : Mgmt → Mgmt) : (s.modMgmt f).tasks = s.tasks := rfl
@[simp] theorem modMgmt_futs (s : State) (f : Mgmt → Mgmt) : (s.modMgmt f).futs = s.futs := rfl
@[simp] theorem modMgmt_ctxs (s : State) (f : Mgmt → Mgmt) : (s.modMgmt f).ctxs = s.ctxs := rfl
@[simp] theorem modMgmt_mem (s : State) (f : Mgmt → Mgmt) : (s.modMgmt f).mem = s.mem := rfl
@[simp] theorem modMgmt_poison (s : State) (f : Mgmt → Mgmt) : (s.modMgmt f).poison = s.poison := rfl
@[simp] theorem modMgmt_cores (s : State) (f : Mgmt → Mgmt) : (s.modMgmt f).cores = s.cores := rfl
@[simp] theorem modMgmt_clusters (s : State) (f : Mgmt → Mgmt) : (s.modMgmt f).clusters = s.clusters := rfl
@[simp] theorem modMgmt_dies (s : State) (f : Mgmt → Mgmt) : (s.modMgmt f).dies = s.dies := rfl
@[simp] theorem modMgmt_wrs (s : State) (f : Mgmt → Mgmt) : (s.modMgmt f).wrs = s.wrs := rfl
@[simp] theorem modMgmt_replicas (s : State) (f : Mgmt → Mgmt) : (s.modMgmt f).replicas = s.replicas := rfl
@[simp] theorem modMgmt_watches (s : State) (f : Mgmt → Mgmt) : (s.modMgmt f).watches = s.watches := rfl
@[simp] theorem modMgmt_ops (s : State) (f : Mgmt → Mgmt) : (s.modMgmt f).ops = s.ops := rfl
@[simp] theorem modMgmt_reqs (s : State) (f : Mgmt → Mgmt) : (s.modMgmt f).reqs = s.reqs := rfl
@[simp] theorem modMgmt_msgs (s : State) (f : Mgmt → Mgmt) : (s.modMgmt f).msgs = s.msgs := rfl
@[simp] theorem modMgmt_slots (s : State) (f : Mgmt → Mgmt) : (s.modMgmt f).slots = s.slots := rfl
@[simp] theorem modMgmt_pkts (s : State) (f : Mgmt → Mgmt) : (s.modMgmt f).pkts = s.pkts := rfl
@[simp] theorem modMgmt_sup (s : State) (f : Mgmt → Mgmt) : (s.modMgmt f).sup = s.sup := rfl
@[simp] theorem modMgmt_faults (s : State) (f : Mgmt → Mgmt) : (s.modMgmt f).faults = s.faults := rfl
@[simp] theorem modMgmt_cycle (s : State) (f : Mgmt → Mgmt) : (s.modMgmt f).cycle = s.cycle := rfl
@[simp] theorem modMgmt_ptp (s : State) (f : Mgmt → Mgmt) : (s.modMgmt f).ptp = s.ptp := rfl
@[simp] theorem modMgmt_seq (s : State) (f : Mgmt → Mgmt) : (s.modMgmt f).seq = s.seq := rfl
@[simp] theorem modMgmt_free (s : State) (f : Mgmt → Mgmt) : (s.modMgmt f).free = s.free := rfl
@[simp] theorem modMgmt_created (s : State) (f : Mgmt → Mgmt) : (s.modMgmt f).created = s.created := rfl
@[simp] theorem modMgmt_seen (s : State) (f : Mgmt → Mgmt) : (s.modMgmt f).seen = s.seen := rfl
@[simp] theorem modMgmt_engWords (s : State) (f : Mgmt → Mgmt) : (s.modMgmt f).engWords = s.engWords := rfl
@[simp] theorem modMgmt_hwq (s : State) (f : Mgmt → Mgmt) : (s.modMgmt f).hwq = s.hwq := rfl
@[simp] theorem modMgmt_hostq (s : State) (f : Mgmt → Mgmt) : (s.modMgmt f).hostq = s.hostq := rfl
@[simp] theorem modMgmt_engWaits (s : State) (f : Mgmt → Mgmt) : (s.modMgmt f).engWaits = s.engWaits := rfl
@[simp] theorem modMgmt_mgmt (s : State) (f : Mgmt → Mgmt) : (s.modMgmt f).mgmt = f s.mgmt := rfl
@[simp] theorem modMgmt_agenda (s : State) (f : Mgmt → Mgmt) : (s.modMgmt f).agenda = s.agenda := rfl
@[simp] theorem modMgmt_pace (s : State) (f : Mgmt → Mgmt) : (s.modMgmt f).pace = s.pace := rfl

/-! ### modMe -/

@[simp] theorem modMe_mode (s : State) (f : TG → TG) : (s.modMe f).mode = s.mode := rfl
@[simp] theorem modMe_me (s : State) (f : TG → TG) : (s.modMe f).me = f s.me := rfl
@[simp] theorem modMe_tgs (s : State) (f : TG → TG) : (s.modMe f).tgs = s.tgs := rfl
@[simp] theorem modMe_tasks (s : State) (f : TG → TG) : (s.modMe f).tasks = s.tasks := rfl
@[simp] theorem modMe_futs (s : State) (f : TG → TG) : (s.modMe f).futs = s.futs := rfl
@[simp] theorem modMe_ctxs (s : State) (f : TG → TG) : (s.modMe f).ctxs = s.ctxs := rfl
@[simp] theorem modMe_mem (s : State) (f : TG → TG) : (s.modMe f).mem = s.mem := rfl
@[simp] theorem modMe_poison (s : State) (f : TG → TG) : (s.modMe f).poison = s.poison := rfl
@[simp] theorem modMe_cores (s : State) (f : TG → TG) : (s.modMe f).cores = s.cores := rfl
@[simp] theorem modMe_clusters (s : State) (f : TG → TG) : (s.modMe f).clusters = s.clusters := rfl
@[simp] theorem modMe_dies (s : State) (f : TG → TG) : (s.modMe f).dies = s.dies := rfl
@[simp] theorem modMe_wrs (s : State) (f : TG → TG) : (s.modMe f).wrs = s.wrs := rfl
@[simp] theorem modMe_replicas (s : State) (f : TG → TG) : (s.modMe f).replicas = s.replicas := rfl
@[simp] theorem modMe_watches (s : State) (f : TG → TG) : (s.modMe f).watches = s.watches := rfl
@[simp] theorem modMe_ops (s : State) (f : TG → TG) : (s.modMe f).ops = s.ops := rfl
@[simp] theorem modMe_reqs (s : State) (f : TG → TG) : (s.modMe f).reqs = s.reqs := rfl
@[simp] theorem modMe_msgs (s : State) (f : TG → TG) : (s.modMe f).msgs = s.msgs := rfl
@[simp] theorem modMe_slots (s : State) (f : TG → TG) : (s.modMe f).slots = s.slots := rfl
@[simp] theorem modMe_pkts (s : State) (f : TG → TG) : (s.modMe f).pkts = s.pkts := rfl
@[simp] theorem modMe_sup (s : State) (f : TG → TG) : (s.modMe f).sup = s.sup := rfl
@[simp] theorem modMe_faults (s : State) (f : TG → TG) : (s.modMe f).faults = s.faults := rfl
@[simp] theorem modMe_cycle (s : State) (f : TG → TG) : (s.modMe f).cycle = s.cycle := rfl
@[simp] theorem modMe_ptp (s : State) (f : TG → TG) : (s.modMe f).ptp = s.ptp := rfl
@[simp] theorem modMe_seq (s : State) (f : TG → TG) : (s.modMe f).seq = s.seq := rfl
@[simp] theorem modMe_free (s : State) (f : TG → TG) : (s.modMe f).free = s.free := rfl
@[simp] theorem modMe_created (s : State) (f : TG → TG) : (s.modMe f).created = s.created := rfl
@[simp] theorem modMe_seen (s : State) (f : TG → TG) : (s.modMe f).seen = s.seen := rfl
@[simp] theorem modMe_engWords (s : State) (f : TG → TG) : (s.modMe f).engWords = s.engWords := rfl
@[simp] theorem modMe_hwq (s : State) (f : TG → TG) : (s.modMe f).hwq = s.hwq := rfl
@[simp] theorem modMe_hostq (s : State) (f : TG → TG) : (s.modMe f).hostq = s.hostq := rfl
@[simp] theorem modMe_engWaits (s : State) (f : TG → TG) : (s.modMe f).engWaits = s.engWaits := rfl
@[simp] theorem modMe_mgmt (s : State) (f : TG → TG) : (s.modMe f).mgmt = s.mgmt := rfl
@[simp] theorem modMe_agenda (s : State) (f : TG → TG) : (s.modMe f).agenda = s.agenda := rfl
@[simp] theorem modMe_pace (s : State) (f : TG → TG) : (s.modMe f).pace = s.pace := rfl

/-! ### modFut -/

@[simp] theorem modFut_mode (s : State) (h : W64) (f : Fut → Fut) : (s.modFut h f).mode = s.mode := rfl
@[simp] theorem modFut_me (s : State) (h : W64) (f : Fut → Fut) : (s.modFut h f).me = s.me := rfl
@[simp] theorem modFut_tgs (s : State) (h : W64) (f : Fut → Fut) : (s.modFut h f).tgs = s.tgs := rfl
@[simp] theorem modFut_tasks (s : State) (h : W64) (f : Fut → Fut) : (s.modFut h f).tasks = s.tasks := rfl
@[simp] theorem modFut_futs (s : State) (h : W64) (f : Fut → Fut) : (s.modFut h f).futs = updFirst (fun x => x.h == h) f s.futs := rfl
@[simp] theorem modFut_ctxs (s : State) (h : W64) (f : Fut → Fut) : (s.modFut h f).ctxs = s.ctxs := rfl
@[simp] theorem modFut_mem (s : State) (h : W64) (f : Fut → Fut) : (s.modFut h f).mem = s.mem := rfl
@[simp] theorem modFut_poison (s : State) (h : W64) (f : Fut → Fut) : (s.modFut h f).poison = s.poison := rfl
@[simp] theorem modFut_cores (s : State) (h : W64) (f : Fut → Fut) : (s.modFut h f).cores = s.cores := rfl
@[simp] theorem modFut_clusters (s : State) (h : W64) (f : Fut → Fut) : (s.modFut h f).clusters = s.clusters := rfl
@[simp] theorem modFut_dies (s : State) (h : W64) (f : Fut → Fut) : (s.modFut h f).dies = s.dies := rfl
@[simp] theorem modFut_wrs (s : State) (h : W64) (f : Fut → Fut) : (s.modFut h f).wrs = s.wrs := rfl
@[simp] theorem modFut_replicas (s : State) (h : W64) (f : Fut → Fut) : (s.modFut h f).replicas = s.replicas := rfl
@[simp] theorem modFut_watches (s : State) (h : W64) (f : Fut → Fut) : (s.modFut h f).watches = s.watches := rfl
@[simp] theorem modFut_ops (s : State) (h : W64) (f : Fut → Fut) : (s.modFut h f).ops = s.ops := rfl
@[simp] theorem modFut_reqs (s : State) (h : W64) (f : Fut → Fut) : (s.modFut h f).reqs = s.reqs := rfl
@[simp] theorem modFut_msgs (s : State) (h : W64) (f : Fut → Fut) : (s.modFut h f).msgs = s.msgs := rfl
@[simp] theorem modFut_slots (s : State) (h : W64) (f : Fut → Fut) : (s.modFut h f).slots = s.slots := rfl
@[simp] theorem modFut_pkts (s : State) (h : W64) (f : Fut → Fut) : (s.modFut h f).pkts = s.pkts := rfl
@[simp] theorem modFut_sup (s : State) (h : W64) (f : Fut → Fut) : (s.modFut h f).sup = s.sup := rfl
@[simp] theorem modFut_faults (s : State) (h : W64) (f : Fut → Fut) : (s.modFut h f).faults = s.faults := rfl
@[simp] theorem modFut_cycle (s : State) (h : W64) (f : Fut → Fut) : (s.modFut h f).cycle = s.cycle := rfl
@[simp] theorem modFut_ptp (s : State) (h : W64) (f : Fut → Fut) : (s.modFut h f).ptp = s.ptp := rfl
@[simp] theorem modFut_seq (s : State) (h : W64) (f : Fut → Fut) : (s.modFut h f).seq = s.seq := rfl
@[simp] theorem modFut_free (s : State) (h : W64) (f : Fut → Fut) : (s.modFut h f).free = s.free := rfl
@[simp] theorem modFut_created (s : State) (h : W64) (f : Fut → Fut) : (s.modFut h f).created = s.created := rfl
@[simp] theorem modFut_seen (s : State) (h : W64) (f : Fut → Fut) : (s.modFut h f).seen = s.seen := rfl
@[simp] theorem modFut_engWords (s : State) (h : W64) (f : Fut → Fut) : (s.modFut h f).engWords = s.engWords := rfl
@[simp] theorem modFut_hwq (s : State) (h : W64) (f : Fut → Fut) : (s.modFut h f).hwq = s.hwq := rfl
@[simp] theorem modFut_hostq (s : State) (h : W64) (f : Fut → Fut) : (s.modFut h f).hostq = s.hostq := rfl
@[simp] theorem modFut_engWaits (s : State) (h : W64) (f : Fut → Fut) : (s.modFut h f).engWaits = s.engWaits := rfl
@[simp] theorem modFut_mgmt (s : State) (h : W64) (f : Fut → Fut) : (s.modFut h f).mgmt = s.mgmt := rfl
@[simp] theorem modFut_agenda (s : State) (h : W64) (f : Fut → Fut) : (s.modFut h f).agenda = s.agenda := rfl
@[simp] theorem modFut_pace (s : State) (h : W64) (f : Fut → Fut) : (s.modFut h f).pace = s.pace := rfl

/-! ### modTask -/

@[simp] theorem modTask_mode (s : State) (h : W64) (f : Task → Task) : (s.modTask h f).mode = s.mode := rfl
@[simp] theorem modTask_me (s : State) (h : W64) (f : Task → Task) : (s.modTask h f).me = s.me := rfl
@[simp] theorem modTask_tgs (s : State) (h : W64) (f : Task → Task) : (s.modTask h f).tgs = s.tgs := rfl
@[simp] theorem modTask_tasks (s : State) (h : W64) (f : Task → Task) : (s.modTask h f).tasks = updFirst (fun x => x.handle == h) f s.tasks := rfl
@[simp] theorem modTask_futs (s : State) (h : W64) (f : Task → Task) : (s.modTask h f).futs = s.futs := rfl
@[simp] theorem modTask_ctxs (s : State) (h : W64) (f : Task → Task) : (s.modTask h f).ctxs = s.ctxs := rfl
@[simp] theorem modTask_mem (s : State) (h : W64) (f : Task → Task) : (s.modTask h f).mem = s.mem := rfl
@[simp] theorem modTask_poison (s : State) (h : W64) (f : Task → Task) : (s.modTask h f).poison = s.poison := rfl
@[simp] theorem modTask_cores (s : State) (h : W64) (f : Task → Task) : (s.modTask h f).cores = s.cores := rfl
@[simp] theorem modTask_clusters (s : State) (h : W64) (f : Task → Task) : (s.modTask h f).clusters = s.clusters := rfl
@[simp] theorem modTask_dies (s : State) (h : W64) (f : Task → Task) : (s.modTask h f).dies = s.dies := rfl
@[simp] theorem modTask_wrs (s : State) (h : W64) (f : Task → Task) : (s.modTask h f).wrs = s.wrs := rfl
@[simp] theorem modTask_replicas (s : State) (h : W64) (f : Task → Task) : (s.modTask h f).replicas = s.replicas := rfl
@[simp] theorem modTask_watches (s : State) (h : W64) (f : Task → Task) : (s.modTask h f).watches = s.watches := rfl
@[simp] theorem modTask_ops (s : State) (h : W64) (f : Task → Task) : (s.modTask h f).ops = s.ops := rfl
@[simp] theorem modTask_reqs (s : State) (h : W64) (f : Task → Task) : (s.modTask h f).reqs = s.reqs := rfl
@[simp] theorem modTask_msgs (s : State) (h : W64) (f : Task → Task) : (s.modTask h f).msgs = s.msgs := rfl
@[simp] theorem modTask_slots (s : State) (h : W64) (f : Task → Task) : (s.modTask h f).slots = s.slots := rfl
@[simp] theorem modTask_pkts (s : State) (h : W64) (f : Task → Task) : (s.modTask h f).pkts = s.pkts := rfl
@[simp] theorem modTask_sup (s : State) (h : W64) (f : Task → Task) : (s.modTask h f).sup = s.sup := rfl
@[simp] theorem modTask_faults (s : State) (h : W64) (f : Task → Task) : (s.modTask h f).faults = s.faults := rfl
@[simp] theorem modTask_cycle (s : State) (h : W64) (f : Task → Task) : (s.modTask h f).cycle = s.cycle := rfl
@[simp] theorem modTask_ptp (s : State) (h : W64) (f : Task → Task) : (s.modTask h f).ptp = s.ptp := rfl
@[simp] theorem modTask_seq (s : State) (h : W64) (f : Task → Task) : (s.modTask h f).seq = s.seq := rfl
@[simp] theorem modTask_free (s : State) (h : W64) (f : Task → Task) : (s.modTask h f).free = s.free := rfl
@[simp] theorem modTask_created (s : State) (h : W64) (f : Task → Task) : (s.modTask h f).created = s.created := rfl
@[simp] theorem modTask_seen (s : State) (h : W64) (f : Task → Task) : (s.modTask h f).seen = s.seen := rfl
@[simp] theorem modTask_engWords (s : State) (h : W64) (f : Task → Task) : (s.modTask h f).engWords = s.engWords := rfl
@[simp] theorem modTask_hwq (s : State) (h : W64) (f : Task → Task) : (s.modTask h f).hwq = s.hwq := rfl
@[simp] theorem modTask_hostq (s : State) (h : W64) (f : Task → Task) : (s.modTask h f).hostq = s.hostq := rfl
@[simp] theorem modTask_engWaits (s : State) (h : W64) (f : Task → Task) : (s.modTask h f).engWaits = s.engWaits := rfl
@[simp] theorem modTask_mgmt (s : State) (h : W64) (f : Task → Task) : (s.modTask h f).mgmt = s.mgmt := rfl
@[simp] theorem modTask_agenda (s : State) (h : W64) (f : Task → Task) : (s.modTask h f).agenda = s.agenda := rfl
@[simp] theorem modTask_pace (s : State) (h : W64) (f : Task → Task) : (s.modTask h f).pace = s.pace := rfl

/-! ### modCtx -/

@[simp] theorem modCtx_mode (s : State) (a : Half) (f : Ctx → Ctx) : (s.modCtx a f).mode = s.mode := rfl
@[simp] theorem modCtx_me (s : State) (a : Half) (f : Ctx → Ctx) : (s.modCtx a f).me = s.me := rfl
@[simp] theorem modCtx_tgs (s : State) (a : Half) (f : Ctx → Ctx) : (s.modCtx a f).tgs = s.tgs := rfl
@[simp] theorem modCtx_tasks (s : State) (a : Half) (f : Ctx → Ctx) : (s.modCtx a f).tasks = s.tasks := rfl
@[simp] theorem modCtx_futs (s : State) (a : Half) (f : Ctx → Ctx) : (s.modCtx a f).futs = s.futs := rfl
@[simp] theorem modCtx_ctxs (s : State) (a : Half) (f : Ctx → Ctx) : (s.modCtx a f).ctxs = kset a (f (s.ctx a)) s.ctxs := rfl
@[simp] theorem modCtx_mem (s : State) (a : Half) (f : Ctx → Ctx) : (s.modCtx a f).mem = s.mem := rfl
@[simp] theorem modCtx_poison (s : State) (a : Half) (f : Ctx → Ctx) : (s.modCtx a f).poison = s.poison := rfl
@[simp] theorem modCtx_cores (s : State) (a : Half) (f : Ctx → Ctx) : (s.modCtx a f).cores = s.cores := rfl
@[simp] theorem modCtx_clusters (s : State) (a : Half) (f : Ctx → Ctx) : (s.modCtx a f).clusters = s.clusters := rfl
@[simp] theorem modCtx_dies (s : State) (a : Half) (f : Ctx → Ctx) : (s.modCtx a f).dies = s.dies := rfl
@[simp] theorem modCtx_wrs (s : State) (a : Half) (f : Ctx → Ctx) : (s.modCtx a f).wrs = s.wrs := rfl
@[simp] theorem modCtx_replicas (s : State) (a : Half) (f : Ctx → Ctx) : (s.modCtx a f).replicas = s.replicas := rfl
@[simp] theorem modCtx_watches (s : State) (a : Half) (f : Ctx → Ctx) : (s.modCtx a f).watches = s.watches := rfl
@[simp] theorem modCtx_ops (s : State) (a : Half) (f : Ctx → Ctx) : (s.modCtx a f).ops = s.ops := rfl
@[simp] theorem modCtx_reqs (s : State) (a : Half) (f : Ctx → Ctx) : (s.modCtx a f).reqs = s.reqs := rfl
@[simp] theorem modCtx_msgs (s : State) (a : Half) (f : Ctx → Ctx) : (s.modCtx a f).msgs = s.msgs := rfl
@[simp] theorem modCtx_slots (s : State) (a : Half) (f : Ctx → Ctx) : (s.modCtx a f).slots = s.slots := rfl
@[simp] theorem modCtx_pkts (s : State) (a : Half) (f : Ctx → Ctx) : (s.modCtx a f).pkts = s.pkts := rfl
@[simp] theorem modCtx_sup (s : State) (a : Half) (f : Ctx → Ctx) : (s.modCtx a f).sup = s.sup := rfl
@[simp] theorem modCtx_faults (s : State) (a : Half) (f : Ctx → Ctx) : (s.modCtx a f).faults = s.faults := rfl
@[simp] theorem modCtx_cycle (s : State) (a : Half) (f : Ctx → Ctx) : (s.modCtx a f).cycle = s.cycle := rfl
@[simp] theorem modCtx_ptp (s : State) (a : Half) (f : Ctx → Ctx) : (s.modCtx a f).ptp = s.ptp := rfl
@[simp] theorem modCtx_seq (s : State) (a : Half) (f : Ctx → Ctx) : (s.modCtx a f).seq = s.seq := rfl
@[simp] theorem modCtx_free (s : State) (a : Half) (f : Ctx → Ctx) : (s.modCtx a f).free = s.free := rfl
@[simp] theorem modCtx_created (s : State) (a : Half) (f : Ctx → Ctx) : (s.modCtx a f).created = s.created := rfl
@[simp] theorem modCtx_seen (s : State) (a : Half) (f : Ctx → Ctx) : (s.modCtx a f).seen = s.seen := rfl
@[simp] theorem modCtx_engWords (s : State) (a : Half) (f : Ctx → Ctx) : (s.modCtx a f).engWords = s.engWords := rfl
@[simp] theorem modCtx_hwq (s : State) (a : Half) (f : Ctx → Ctx) : (s.modCtx a f).hwq = s.hwq := rfl
@[simp] theorem modCtx_hostq (s : State) (a : Half) (f : Ctx → Ctx) : (s.modCtx a f).hostq = s.hostq := rfl
@[simp] theorem modCtx_engWaits (s : State) (a : Half) (f : Ctx → Ctx) : (s.modCtx a f).engWaits = s.engWaits := rfl
@[simp] theorem modCtx_mgmt (s : State) (a : Half) (f : Ctx → Ctx) : (s.modCtx a f).mgmt = s.mgmt := rfl
@[simp] theorem modCtx_agenda (s : State) (a : Half) (f : Ctx → Ctx) : (s.modCtx a f).agenda = s.agenda := rfl
@[simp] theorem modCtx_pace (s : State) (a : Half) (f : Ctx → Ctx) : (s.modCtx a f).pace = s.pace := rfl

/-! ### count -/

@[simp] theorem count_mode (s : State) (d sel n : Nat) : (s.count d sel n).mode = s.mode := rfl
@[simp] theorem count_me (s : State) (d sel n : Nat) : (s.count d sel n).me = s.me := rfl
@[simp] theorem count_tgs (s : State) (d sel n : Nat) : (s.count d sel n).tgs = s.tgs := rfl
@[simp] theorem count_tasks (s : State) (d sel n : Nat) : (s.count d sel n).tasks = s.tasks := rfl
@[simp] theorem count_futs (s : State) (d sel n : Nat) : (s.count d sel n).futs = s.futs := rfl
@[simp] theorem count_ctxs (s : State) (d sel n : Nat) : (s.count d sel n).ctxs = s.ctxs := rfl
@[simp] theorem count_mem (s : State) (d sel n : Nat) : (s.count d sel n).mem = s.mem := rfl
@[simp] theorem count_poison (s : State) (d sel n : Nat) : (s.count d sel n).poison = s.poison := rfl
@[simp] theorem count_cores (s : State) (d sel n : Nat) : (s.count d sel n).cores = s.cores := rfl
@[simp] theorem count_clusters (s : State) (d sel n : Nat) : (s.count d sel n).clusters = s.clusters := rfl
@[simp] theorem count_wrs (s : State) (d sel n : Nat) : (s.count d sel n).wrs = s.wrs := rfl
@[simp] theorem count_replicas (s : State) (d sel n : Nat) : (s.count d sel n).replicas = s.replicas := rfl
@[simp] theorem count_watches (s : State) (d sel n : Nat) : (s.count d sel n).watches = s.watches := rfl
@[simp] theorem count_ops (s : State) (d sel n : Nat) : (s.count d sel n).ops = s.ops := rfl
@[simp] theorem count_reqs (s : State) (d sel n : Nat) : (s.count d sel n).reqs = s.reqs := rfl
@[simp] theorem count_msgs (s : State) (d sel n : Nat) : (s.count d sel n).msgs = s.msgs := rfl
@[simp] theorem count_slots (s : State) (d sel n : Nat) : (s.count d sel n).slots = s.slots := rfl
@[simp] theorem count_pkts (s : State) (d sel n : Nat) : (s.count d sel n).pkts = s.pkts := rfl
@[simp] theorem count_sup (s : State) (d sel n : Nat) : (s.count d sel n).sup = s.sup := rfl
@[simp] theorem count_faults (s : State) (d sel n : Nat) : (s.count d sel n).faults = s.faults := rfl
@[simp] theorem count_cycle (s : State) (d sel n : Nat) : (s.count d sel n).cycle = s.cycle := rfl
@[simp] theorem count_ptp (s : State) (d sel n : Nat) : (s.count d sel n).ptp = s.ptp := rfl
@[simp] theorem count_seq (s : State) (d sel n : Nat) : (s.count d sel n).seq = s.seq := rfl
@[simp] theorem count_free (s : State) (d sel n : Nat) : (s.count d sel n).free = s.free := rfl
@[simp] theorem count_created (s : State) (d sel n : Nat) : (s.count d sel n).created = s.created := rfl
@[simp] theorem count_seen (s : State) (d sel n : Nat) : (s.count d sel n).seen = s.seen := rfl
@[simp] theorem count_engWords (s : State) (d sel n : Nat) : (s.count d sel n).engWords = s.engWords := rfl
@[simp] theorem count_hwq (s : State) (d sel n : Nat) : (s.count d sel n).hwq = s.hwq := rfl
@[simp] theorem count_hostq (s : State) (d sel n : Nat) : (s.count d sel n).hostq = s.hostq := rfl
@[simp] theorem count_engWaits (s : State) (d sel n : Nat) : (s.count d sel n).engWaits = s.engWaits := rfl
@[simp] theorem count_mgmt (s : State) (d sel n : Nat) : (s.count d sel n).mgmt = s.mgmt := rfl
@[simp] theorem count_agenda (s : State) (d sel n : Nat) : (s.count d sel n).agenda = s.agenda := rfl
@[simp] theorem count_pace (s : State) (d sel n : Nat) : (s.count d sel n).pace = s.pace := rfl

/-! ### bump -/

@[simp] theorem bump_mode (s : State) : (s.bump).mode = s.mode := rfl
@[simp] theorem bump_me (s : State) : (s.bump).me = s.me := rfl
@[simp] theorem bump_tgs (s : State) : (s.bump).tgs = s.tgs := rfl
@[simp] theorem bump_tasks (s : State) : (s.bump).tasks = s.tasks := rfl
@[simp] theorem bump_futs (s : State) : (s.bump).futs = s.futs := rfl
@[simp] theorem bump_ctxs (s : State) : (s.bump).ctxs = s.ctxs := rfl
@[simp] theorem bump_mem (s : State) : (s.bump).mem = s.mem := rfl
@[simp] theorem bump_poison (s : State) : (s.bump).poison = s.poison := rfl
@[simp] theorem bump_cores (s : State) : (s.bump).cores = s.cores := rfl
@[simp] theorem bump_clusters (s : State) : (s.bump).clusters = s.clusters := rfl
@[simp] theorem bump_dies (s : State) : (s.bump).dies = s.dies := rfl
@[simp] theorem bump_wrs (s : State) : (s.bump).wrs = s.wrs := rfl
@[simp] theorem bump_replicas (s : State) : (s.bump).replicas = s.replicas := rfl
@[simp] theorem bump_watches (s : State) : (s.bump).watches = s.watches := rfl
@[simp] theorem bump_ops (s : State) : (s.bump).ops = s.ops := rfl
@[simp] theorem bump_reqs (s : State) : (s.bump).reqs = s.reqs := rfl
@[simp] theorem bump_msgs (s : State) : (s.bump).msgs = s.msgs := rfl
@[simp] theorem bump_slots (s : State) : (s.bump).slots = s.slots := rfl
@[simp] theorem bump_pkts (s : State) : (s.bump).pkts = s.pkts := rfl
@[simp] theorem bump_sup (s : State) : (s.bump).sup = s.sup := rfl
@[simp] theorem bump_faults (s : State) : (s.bump).faults = s.faults := rfl
@[simp] theorem bump_cycle (s : State) : (s.bump).cycle = s.cycle := rfl
@[simp] theorem bump_ptp (s : State) : (s.bump).ptp = s.ptp := rfl
@[simp] theorem bump_seq (s : State) : (s.bump).seq = s.seq + 1 := rfl
@[simp] theorem bump_free (s : State) : (s.bump).free = s.free := rfl
@[simp] theorem bump_created (s : State) : (s.bump).created = s.created := rfl
@[simp] theorem bump_seen (s : State) : (s.bump).seen = s.seen := rfl
@[simp] theorem bump_engWords (s : State) : (s.bump).engWords = s.engWords := rfl
@[simp] theorem bump_hwq (s : State) : (s.bump).hwq = s.hwq := rfl
@[simp] theorem bump_hostq (s : State) : (s.bump).hostq = s.hostq := rfl
@[simp] theorem bump_engWaits (s : State) : (s.bump).engWaits = s.engWaits := rfl
@[simp] theorem bump_mgmt (s : State) : (s.bump).mgmt = s.mgmt := rfl
@[simp] theorem bump_agenda (s : State) : (s.bump).agenda = s.agenda := rfl
@[simp] theorem bump_pace (s : State) : (s.bump).pace = s.pace := rfl

/-! ### useFree -/

@[simp] theorem useFree_mode (s : State) : (s.useFree).mode = s.mode := rfl
@[simp] theorem useFree_me (s : State) : (s.useFree).me = s.me := rfl
@[simp] theorem useFree_tgs (s : State) : (s.useFree).tgs = s.tgs := rfl
@[simp] theorem useFree_tasks (s : State) : (s.useFree).tasks = s.tasks := rfl
@[simp] theorem useFree_futs (s : State) : (s.useFree).futs = s.futs := rfl
@[simp] theorem useFree_ctxs (s : State) : (s.useFree).ctxs = s.ctxs := rfl
@[simp] theorem useFree_mem (s : State) : (s.useFree).mem = s.mem := rfl
@[simp] theorem useFree_poison (s : State) : (s.useFree).poison = s.poison := rfl
@[simp] theorem useFree_cores (s : State) : (s.useFree).cores = s.cores := rfl
@[simp] theorem useFree_clusters (s : State) : (s.useFree).clusters = s.clusters := rfl
@[simp] theorem useFree_dies (s : State) : (s.useFree).dies = s.dies := rfl
@[simp] theorem useFree_wrs (s : State) : (s.useFree).wrs = s.wrs := rfl
@[simp] theorem useFree_replicas (s : State) : (s.useFree).replicas = s.replicas := rfl
@[simp] theorem useFree_watches (s : State) : (s.useFree).watches = s.watches := rfl
@[simp] theorem useFree_ops (s : State) : (s.useFree).ops = s.ops := rfl
@[simp] theorem useFree_reqs (s : State) : (s.useFree).reqs = s.reqs := rfl
@[simp] theorem useFree_msgs (s : State) : (s.useFree).msgs = s.msgs := rfl
@[simp] theorem useFree_slots (s : State) : (s.useFree).slots = s.slots := rfl
@[simp] theorem useFree_pkts (s : State) : (s.useFree).pkts = s.pkts := rfl
@[simp] theorem useFree_sup (s : State) : (s.useFree).sup = s.sup := rfl
@[simp] theorem useFree_faults (s : State) : (s.useFree).faults = s.faults := rfl
@[simp] theorem useFree_cycle (s : State) : (s.useFree).cycle = s.cycle := rfl
@[simp] theorem useFree_ptp (s : State) : (s.useFree).ptp = s.ptp := rfl
@[simp] theorem useFree_seq (s : State) : (s.useFree).seq = s.seq := rfl
@[simp] theorem useFree_free (s : State) : (s.useFree).free = s.free + 1 := rfl
@[simp] theorem useFree_created (s : State) : (s.useFree).created = s.created := rfl
@[simp] theorem useFree_seen (s : State) : (s.useFree).seen = s.seen := rfl
@[simp] theorem useFree_engWords (s : State) : (s.useFree).engWords = s.engWords := rfl
@[simp] theorem useFree_hwq (s : State) : (s.useFree).hwq = s.hwq := rfl
@[simp] theorem useFree_hostq (s : State) : (s.useFree).hostq = s.hostq := rfl
@[simp] theorem useFree_engWaits (s : State) : (s.useFree).engWaits = s.engWaits := rfl
@[simp] theorem useFree_mgmt (s : State) : (s.useFree).mgmt = s.mgmt := rfl
@[simp] theorem useFree_agenda (s : State) : (s.useFree).agenda = s.agenda := rfl
@[simp] theorem useFree_pace (s : State) : (s.useFree).pace = s.pace := rfl

/-! ### advance -/

@[simp] theorem advance_mode (s : State) : (s.advance).mode = s.mode := rfl
@[simp] theorem advance_me (s : State) : (s.advance).me = s.me.advance := rfl
@[simp] theorem advance_tgs (s : State) : (s.advance).tgs = s.tgs := rfl
@[simp] theorem advance_tasks (s : State) : (s.advance).tasks = s.tasks := rfl
@[simp] theorem advance_futs (s : State) : (s.advance).futs = s.futs := rfl
@[simp] theorem advance_ctxs (s : State) : (s.advance).ctxs = s.ctxs := rfl
@[simp] theorem advance_mem (s : State) : (s.advance).mem = s.mem := rfl
@[simp] theorem advance_poison (s : State) : (s.advance).poison = s.poison := rfl
@[simp] theorem advance_cores (s : State) : (s.advance).cores = s.cores := rfl
@[simp] theorem advance_clusters (s : State) : (s.advance).clusters = s.clusters := rfl
@[simp] theorem advance_dies (s : State) : (s.advance).dies = s.dies := rfl
@[simp] theorem advance_wrs (s : State) : (s.advance).wrs = s.wrs := rfl
@[simp] theorem advance_replicas (s : State) : (s.advance).replicas = s.replicas := rfl
@[simp] theorem advance_watches (s : State) : (s.advance).watches = s.watches := rfl
@[simp] theorem advance_ops (s : State) : (s.advance).ops = s.ops := rfl
@[simp] theorem advance_reqs (s : State) : (s.advance).reqs = s.reqs := rfl
@[simp] theorem advance_msgs (s : State) : (s.advance).msgs = s.msgs := rfl
@[simp] theorem advance_slots (s : State) : (s.advance).slots = s.slots := rfl
@[simp] theorem advance_pkts (s : State) : (s.advance).pkts = s.pkts := rfl
@[simp] theorem advance_sup (s : State) : (s.advance).sup = s.sup := rfl
@[simp] theorem advance_faults (s : State) : (s.advance).faults = s.faults := rfl
@[simp] theorem advance_cycle (s : State) : (s.advance).cycle = s.cycle := rfl
@[simp] theorem advance_ptp (s : State) : (s.advance).ptp = s.ptp := rfl
@[simp] theorem advance_seq (s : State) : (s.advance).seq = s.seq := rfl
@[simp] theorem advance_free (s : State) : (s.advance).free = s.free := rfl
@[simp] theorem advance_created (s : State) : (s.advance).created = s.created := rfl
@[simp] theorem advance_seen (s : State) : (s.advance).seen = s.seen := rfl
@[simp] theorem advance_engWords (s : State) : (s.advance).engWords = s.engWords := rfl
@[simp] theorem advance_hwq (s : State) : (s.advance).hwq = s.hwq := rfl
@[simp] theorem advance_hostq (s : State) : (s.advance).hostq = s.hostq := rfl
@[simp] theorem advance_engWaits (s : State) : (s.advance).engWaits = s.engWaits := rfl
@[simp] theorem advance_mgmt (s : State) : (s.advance).mgmt = s.mgmt := rfl
@[simp] theorem advance_agenda (s : State) : (s.advance).agenda = s.agenda := rfl
@[simp] theorem advance_pace (s : State) : (s.advance).pace = s.pace := rfl

/-! ### jump -/

@[simp] theorem jump_mode (s : State) (t : W64) : (s.jump t).mode = s.mode := rfl
@[simp] theorem jump_me (s : State) (t : W64) : (s.jump t).me = s.me.goto t := rfl
@[simp] theorem jump_tgs (s : State) (t : W64) : (s.jump t).tgs = s.tgs := rfl
@[simp] theorem jump_tasks (s : State) (t : W64) : (s.jump t).tasks = s.tasks := rfl
@[simp] theorem jump_futs (s : State) (t : W64) : (s.jump t).futs = s.futs := rfl
@[simp] theorem jump_ctxs (s : State) (t : W64) : (s.jump t).ctxs = s.ctxs := rfl
@[simp] theorem jump_mem (s : State) (t : W64) : (s.jump t).mem = s.mem := rfl
@[simp] theorem jump_poison (s : State) (t : W64) : (s.jump t).poison = s.poison := rfl
@[simp] theorem jump_cores (s : State) (t : W64) : (s.jump t).cores = s.cores := rfl
@[simp] theorem jump_clusters (s : State) (t : W64) : (s.jump t).clusters = s.clusters := rfl
@[simp] theorem jump_dies (s : State) (t : W64) : (s.jump t).dies = s.dies := rfl
@[simp] theorem jump_wrs (s : State) (t : W64) : (s.jump t).wrs = s.wrs := rfl
@[simp] theorem jump_replicas (s : State) (t : W64) : (s.jump t).replicas = s.replicas := rfl
@[simp] theorem jump_watches (s : State) (t : W64) : (s.jump t).watches = s.watches := rfl
@[simp] theorem jump_ops (s : State) (t : W64) : (s.jump t).ops = s.ops := rfl
@[simp] theorem jump_reqs (s : State) (t : W64) : (s.jump t).reqs = s.reqs := rfl
@[simp] theorem jump_msgs (s : State) (t : W64) : (s.jump t).msgs = s.msgs := rfl
@[simp] theorem jump_slots (s : State) (t : W64) : (s.jump t).slots = s.slots := rfl
@[simp] theorem jump_pkts (s : State) (t : W64) : (s.jump t).pkts = s.pkts := rfl
@[simp] theorem jump_sup (s : State) (t : W64) : (s.jump t).sup = s.sup := rfl
@[simp] theorem jump_faults (s : State) (t : W64) : (s.jump t).faults = s.faults := rfl
@[simp] theorem jump_cycle (s : State) (t : W64) : (s.jump t).cycle = s.cycle := rfl
@[simp] theorem jump_ptp (s : State) (t : W64) : (s.jump t).ptp = s.ptp := rfl
@[simp] theorem jump_seq (s : State) (t : W64) : (s.jump t).seq = s.seq := rfl
@[simp] theorem jump_free (s : State) (t : W64) : (s.jump t).free = s.free := rfl
@[simp] theorem jump_created (s : State) (t : W64) : (s.jump t).created = s.created := rfl
@[simp] theorem jump_seen (s : State) (t : W64) : (s.jump t).seen = s.seen := rfl
@[simp] theorem jump_engWords (s : State) (t : W64) : (s.jump t).engWords = s.engWords := rfl
@[simp] theorem jump_hwq (s : State) (t : W64) : (s.jump t).hwq = s.hwq := rfl
@[simp] theorem jump_hostq (s : State) (t : W64) : (s.jump t).hostq = s.hostq := rfl
@[simp] theorem jump_engWaits (s : State) (t : W64) : (s.jump t).engWaits = s.engWaits := rfl
@[simp] theorem jump_mgmt (s : State) (t : W64) : (s.jump t).mgmt = s.mgmt := rfl
@[simp] theorem jump_agenda (s : State) (t : W64) : (s.jump t).agenda = s.agenda := rfl
@[simp] theorem jump_pace (s : State) (t : W64) : (s.jump t).pace = s.pace := rfl

/-! ### stall -/

@[simp] theorem stall_mode (s : State) : (s.stall).mode = s.mode := rfl
@[simp] theorem stall_me (s : State) : (s.stall).me = { s.me with status := .stalled } := rfl
@[simp] theorem stall_tgs (s : State) : (s.stall).tgs = s.tgs := rfl
@[simp] theorem stall_tasks (s : State) : (s.stall).tasks = s.tasks := rfl
@[simp] theorem stall_futs (s : State) : (s.stall).futs = s.futs := rfl
@[simp] theorem stall_ctxs (s : State) : (s.stall).ctxs = s.ctxs := rfl
@[simp] theorem stall_mem (s : State) : (s.stall).mem = s.mem := rfl
@[simp] theorem stall_poison (s : State) : (s.stall).poison = s.poison := rfl
@[simp] theorem stall_cores (s : State) : (s.stall).cores = s.cores := rfl
@[simp] theorem stall_clusters (s : State) : (s.stall).clusters = s.clusters := rfl
@[simp] theorem stall_dies (s : State) : (s.stall).dies = s.dies := rfl
@[simp] theorem stall_wrs (s : State) : (s.stall).wrs = s.wrs := rfl
@[simp] theorem stall_replicas (s : State) : (s.stall).replicas = s.replicas := rfl
@[simp] theorem stall_watches (s : State) : (s.stall).watches = s.watches := rfl
@[simp] theorem stall_ops (s : State) : (s.stall).ops = s.ops := rfl
@[simp] theorem stall_reqs (s : State) : (s.stall).reqs = s.reqs := rfl
@[simp] theorem stall_msgs (s : State) : (s.stall).msgs = s.msgs := rfl
@[simp] theorem stall_slots (s : State) : (s.stall).slots = s.slots := rfl
@[simp] theorem stall_pkts (s : State) : (s.stall).pkts = s.pkts := rfl
@[simp] theorem stall_sup (s : State) : (s.stall).sup = s.sup := rfl
@[simp] theorem stall_faults (s : State) : (s.stall).faults = s.faults := rfl
@[simp] theorem stall_cycle (s : State) : (s.stall).cycle = s.cycle := rfl
@[simp] theorem stall_ptp (s : State) : (s.stall).ptp = s.ptp := rfl
@[simp] theorem stall_seq (s : State) : (s.stall).seq = s.seq := rfl
@[simp] theorem stall_free (s : State) : (s.stall).free = s.free := rfl
@[simp] theorem stall_created (s : State) : (s.stall).created = s.created := rfl
@[simp] theorem stall_seen (s : State) : (s.stall).seen = s.seen := rfl
@[simp] theorem stall_engWords (s : State) : (s.stall).engWords = s.engWords := rfl
@[simp] theorem stall_hwq (s : State) : (s.stall).hwq = s.hwq := rfl
@[simp] theorem stall_hostq (s : State) : (s.stall).hostq = s.hostq := rfl
@[simp] theorem stall_engWaits (s : State) : (s.stall).engWaits = s.engWaits := rfl
@[simp] theorem stall_mgmt (s : State) : (s.stall).mgmt = s.mgmt := rfl
@[simp] theorem stall_agenda (s : State) : (s.stall).agenda = s.agenda := rfl
@[simp] theorem stall_pace (s : State) : (s.stall).pace = s.pace := rfl

/-! ### park -/

@[simp] theorem park_mode (s : State) (k : Nat) (o : W64) : (s.park k o).mode = s.mode := rfl
@[simp] theorem park_tgs (s : State) (k : Nat) (o : W64) : (s.park k o).tgs = s.tgs := rfl
@[simp] theorem park_tasks (s : State) (k : Nat) (o : W64) : (s.park k o).tasks = s.tasks := rfl
@[simp] theorem park_futs (s : State) (k : Nat) (o : W64) : (s.park k o).futs = s.futs := rfl
@[simp] theorem park_ctxs (s : State) (k : Nat) (o : W64) : (s.park k o).ctxs = s.ctxs := rfl
@[simp] theorem park_mem (s : State) (k : Nat) (o : W64) : (s.park k o).mem = s.mem := rfl
@[simp] theorem park_poison (s : State) (k : Nat) (o : W64) : (s.park k o).poison = s.poison := rfl
@[simp] theorem park_cores (s : State) (k : Nat) (o : W64) : (s.park k o).cores = s.cores := rfl
@[simp] theorem park_clusters (s : State) (k : Nat) (o : W64) : (s.park k o).clusters = s.clusters := rfl
@[simp] theorem park_dies (s : State) (k : Nat) (o : W64) : (s.park k o).dies = s.dies := rfl
@[simp] theorem park_wrs (s : State) (k : Nat) (o : W64) : (s.park k o).wrs = s.wrs := rfl
@[simp] theorem park_replicas (s : State) (k : Nat) (o : W64) : (s.park k o).replicas = s.replicas := rfl
@[simp] theorem park_watches (s : State) (k : Nat) (o : W64) : (s.park k o).watches = s.watches := rfl
@[simp] theorem park_ops (s : State) (k : Nat) (o : W64) : (s.park k o).ops = s.ops := rfl
@[simp] theorem park_reqs (s : State) (k : Nat) (o : W64) : (s.park k o).reqs = s.reqs := rfl
@[simp] theorem park_msgs (s : State) (k : Nat) (o : W64) : (s.park k o).msgs = s.msgs := rfl
@[simp] theorem park_slots (s : State) (k : Nat) (o : W64) : (s.park k o).slots = s.slots := rfl
@[simp] theorem park_pkts (s : State) (k : Nat) (o : W64) : (s.park k o).pkts = s.pkts := rfl
@[simp] theorem park_sup (s : State) (k : Nat) (o : W64) : (s.park k o).sup = s.sup := rfl
@[simp] theorem park_faults (s : State) (k : Nat) (o : W64) : (s.park k o).faults = s.faults := rfl
@[simp] theorem park_cycle (s : State) (k : Nat) (o : W64) : (s.park k o).cycle = s.cycle := rfl
@[simp] theorem park_ptp (s : State) (k : Nat) (o : W64) : (s.park k o).ptp = s.ptp := rfl
@[simp] theorem park_seq (s : State) (k : Nat) (o : W64) : (s.park k o).seq = s.seq := rfl
@[simp] theorem park_free (s : State) (k : Nat) (o : W64) : (s.park k o).free = s.free := rfl
@[simp] theorem park_created (s : State) (k : Nat) (o : W64) : (s.park k o).created = s.created := rfl
@[simp] theorem park_seen (s : State) (k : Nat) (o : W64) : (s.park k o).seen = s.seen := rfl
@[simp] theorem park_engWords (s : State) (k : Nat) (o : W64) : (s.park k o).engWords = s.engWords := rfl
@[simp] theorem park_hwq (s : State) (k : Nat) (o : W64) : (s.park k o).hwq = s.hwq := rfl
@[simp] theorem park_hostq (s : State) (k : Nat) (o : W64) : (s.park k o).hostq = s.hostq := rfl
@[simp] theorem park_engWaits (s : State) (k : Nat) (o : W64) : (s.park k o).engWaits = s.engWaits := rfl
@[simp] theorem park_mgmt (s : State) (k : Nat) (o : W64) : (s.park k o).mgmt = s.mgmt := rfl
@[simp] theorem park_agenda (s : State) (k : Nat) (o : W64) : (s.park k o).agenda = s.agenda := rfl
@[simp] theorem park_pace (s : State) (k : Nat) (o : W64) : (s.park k o).pace = s.pace := rfl

/-! ### ends -/

@[simp] theorem ends_mode (s : State) (f : TG → TG) : (s.ends f).mode = s.mode := rfl
@[simp] theorem ends_me (s : State) (f : TG → TG) : (s.ends f).me = (f s.me).advance := rfl
@[simp] theorem ends_tgs (s : State) (f : TG → TG) : (s.ends f).tgs = s.tgs := rfl
@[simp] theorem ends_tasks (s : State) (f : TG → TG) : (s.ends f).tasks = s.tasks := rfl
@[simp] theorem ends_futs (s : State) (f : TG → TG) : (s.ends f).futs = s.futs := rfl
@[simp] theorem ends_ctxs (s : State) (f : TG → TG) : (s.ends f).ctxs = s.ctxs := rfl
@[simp] theorem ends_mem (s : State) (f : TG → TG) : (s.ends f).mem = s.mem := rfl
@[simp] theorem ends_poison (s : State) (f : TG → TG) : (s.ends f).poison = s.poison := rfl
@[simp] theorem ends_cores (s : State) (f : TG → TG) : (s.ends f).cores = s.cores := rfl
@[simp] theorem ends_clusters (s : State) (f : TG → TG) : (s.ends f).clusters = s.clusters := rfl
@[simp] theorem ends_dies (s : State) (f : TG → TG) : (s.ends f).dies = s.dies := rfl
@[simp] theorem ends_wrs (s : State) (f : TG → TG) : (s.ends f).wrs = s.wrs := rfl
@[simp] theorem ends_replicas (s : State) (f : TG → TG) : (s.ends f).replicas = s.replicas := rfl
@[simp] theorem ends_watches (s : State) (f : TG → TG) : (s.ends f).watches = s.watches := rfl
@[simp] theorem ends_ops (s : State) (f : TG → TG) : (s.ends f).ops = s.ops := rfl
@[simp] theorem ends_reqs (s : State) (f : TG → TG) : (s.ends f).reqs = s.reqs := rfl
@[simp] theorem ends_msgs (s : State) (f : TG → TG) : (s.ends f).msgs = s.msgs := rfl
@[simp] theorem ends_slots (s : State) (f : TG → TG) : (s.ends f).slots = s.slots := rfl
@[simp] theorem ends_pkts (s : State) (f : TG → TG) : (s.ends f).pkts = s.pkts := rfl
@[simp] theorem ends_sup (s : State) (f : TG → TG) : (s.ends f).sup = s.sup := rfl
@[simp] theorem ends_faults (s : State) (f : TG → TG) : (s.ends f).faults = s.faults := rfl
@[simp] theorem ends_cycle (s : State) (f : TG → TG) : (s.ends f).cycle = s.cycle := rfl
@[simp] theorem ends_ptp (s : State) (f : TG → TG) : (s.ends f).ptp = s.ptp := rfl
@[simp] theorem ends_seq (s : State) (f : TG → TG) : (s.ends f).seq = s.seq := rfl
@[simp] theorem ends_free (s : State) (f : TG → TG) : (s.ends f).free = s.free := rfl
@[simp] theorem ends_created (s : State) (f : TG → TG) : (s.ends f).created = s.created := rfl
@[simp] theorem ends_seen (s : State) (f : TG → TG) : (s.ends f).seen = s.seen := rfl
@[simp] theorem ends_engWords (s : State) (f : TG → TG) : (s.ends f).engWords = s.engWords := rfl
@[simp] theorem ends_hwq (s : State) (f : TG → TG) : (s.ends f).hwq = s.hwq := rfl
@[simp] theorem ends_hostq (s : State) (f : TG → TG) : (s.ends f).hostq = s.hostq := rfl
@[simp] theorem ends_engWaits (s : State) (f : TG → TG) : (s.ends f).engWaits = s.engWaits := rfl
@[simp] theorem ends_mgmt (s : State) (f : TG → TG) : (s.ends f).mgmt = s.mgmt := rfl
@[simp] theorem ends_agenda (s : State) (f : TG → TG) : (s.ends f).agenda = s.agenda := rfl
@[simp] theorem ends_pace (s : State) (f : TG → TG) : (s.ends f).pace = s.pace := rfl

/-! ### setS -/

@[simp] theorem setS_loc (t : TG) (d : UReg) (w : W64) (b : Bool) : (t.setS d w b).loc = t.loc := rfl
@[simp] theorem setS_status (t : TG) (d : UReg) (w : W64) (b : Bool) : (t.setS d w b).status = t.status := rfl
@[simp] theorem setS_task (t : TG) (d : UReg) (w : W64) (b : Bool) : (t.setS d w b).task = t.task := rfl
@[simp] theorem setS_tgid (t : TG) (d : UReg) (w : W64) (b : Bool) : (t.setS d w b).tgid = t.tgid := rfl
@[simp] theorem setS_width (t : TG) (d : UReg) (w : W64) (b : Bool) : (t.setS d w b).width = t.width := rfl
@[simp] theorem setS_super (t : TG) (d : UReg) (w : W64) (b : Bool) : (t.setS d w b).super = t.super := rfl
@[simp] theorem setS_asid (t : TG) (d : UReg) (w : W64) (b : Bool) : (t.setS d w b).asid = t.asid := rfl
@[simp] theorem setS_ctx (t : TG) (d : UReg) (w : W64) (b : Bool) : (t.setS d w b).ctx = t.ctx := rfl
@[simp] theorem setS_pc (t : TG) (d : UReg) (w : W64) (b : Bool) : (t.setS d w b).pc = t.pc := rfl
@[simp] theorem setS_npc (t : TG) (d : UReg) (w : W64) (b : Bool) : (t.setS d w b).npc = t.npc := rfl
@[simp] theorem setS_v (t : TG) (d : UReg) (w : W64) (b : Bool) : (t.setS d w b).v = t.v := rfl
@[simp] theorem setS_vp (t : TG) (d : UReg) (w : W64) (b : Bool) : (t.setS d w b).vp = t.vp := rfl
@[simp] theorem setS_p (t : TG) (d : UReg) (w : W64) (b : Bool) : (t.setS d w b).p = t.p := rfl
@[simp] theorem setS_pp (t : TG) (d : UReg) (w : W64) (b : Bool) : (t.setS d w b).pp = t.pp := rfl
@[simp] theorem setS_k (t : TG) (d : UReg) (w : W64) (b : Bool) : (t.setS d w b).k = t.k := rfl
@[simp] theorem setS_kp (t : TG) (d : UReg) (w : W64) (b : Bool) : (t.setS d w b).kp = t.kp := rfl
@[simp] theorem setS_x (t : TG) (d : UReg) (w : W64) (b : Bool) : (t.setS d w b).x = t.x := rfl
@[simp] theorem setS_rings (t : TG) (d : UReg) (w : W64) (b : Bool) : (t.setS d w b).rings = t.rings := rfl
@[simp] theorem setS_tok (t : TG) (d : UReg) (w : W64) (b : Bool) : (t.setS d w b).tok = t.tok := rfl
@[simp] theorem setS_qctx (t : TG) (d : UReg) (w : W64) (b : Bool) : (t.setS d w b).qctx = t.qctx := rfl
@[simp] theorem setS_qbase (t : TG) (d : UReg) (w : W64) (b : Bool) : (t.setS d w b).qbase = t.qbase := rfl
@[simp] theorem setS_scopeId (t : TG) (d : UReg) (w : W64) (b : Bool) : (t.setS d w b).scopeId = t.scopeId := rfl
@[simp] theorem setS_trapBase (t : TG) (d : UReg) (w : W64) (b : Bool) : (t.setS d w b).trapBase = t.trapBase := rfl
@[simp] theorem setS_trapCause (t : TG) (d : UReg) (w : W64) (b : Bool) : (t.setS d w b).trapCause = t.trapCause := rfl
@[simp] theorem setS_trapPc (t : TG) (d : UReg) (w : W64) (b : Bool) : (t.setS d w b).trapPc = t.trapPc := rfl
@[simp] theorem setS_trapAddr (t : TG) (d : UReg) (w : W64) (b : Bool) : (t.setS d w b).trapAddr = t.trapAddr := rfl
@[simp] theorem setS_trapInfo (t : TG) (d : UReg) (w : W64) (b : Bool) : (t.setS d w b).trapInfo = t.trapInfo := rfl
@[simp] theorem setS_k10 (t : TG) (d : UReg) (w : W64) (b : Bool) : (t.setS d w b).k10 = t.k10 := rfl
@[simp] theorem setS_k12 (t : TG) (d : UReg) (w : W64) (b : Bool) : (t.setS d w b).k12 = t.k12 := rfl
@[simp] theorem setS_wake (t : TG) (d : UReg) (w : W64) (b : Bool) : (t.setS d w b).wake = t.wake := rfl
@[simp] theorem setS_phase (t : TG) (d : UReg) (w : W64) (b : Bool) : (t.setS d w b).phase = t.phase := rfl
@[simp] theorem setS_cur (t : TG) (d : UReg) (w : W64) (b : Bool) : (t.setS d w b).cur = t.cur := rfl

/-! ### setV -/

@[simp] theorem setV_loc (t : TG) (d : VReg) (a : W32) (w : Fin 32 → W32) (b : W32) : (t.setV d a w b).loc = t.loc := rfl
@[simp] theorem setV_status (t : TG) (d : VReg) (a : W32) (w : Fin 32 → W32) (b : W32) : (t.setV d a w b).status = t.status := rfl
@[simp] theorem setV_task (t : TG) (d : VReg) (a : W32) (w : Fin 32 → W32) (b : W32) : (t.setV d a w b).task = t.task := rfl
@[simp] theorem setV_tgid (t : TG) (d : VReg) (a : W32) (w : Fin 32 → W32) (b : W32) : (t.setV d a w b).tgid = t.tgid := rfl
@[simp] theorem setV_width (t : TG) (d : VReg) (a : W32) (w : Fin 32 → W32) (b : W32) : (t.setV d a w b).width = t.width := rfl
@[simp] theorem setV_super (t : TG) (d : VReg) (a : W32) (w : Fin 32 → W32) (b : W32) : (t.setV d a w b).super = t.super := rfl
@[simp] theorem setV_asid (t : TG) (d : VReg) (a : W32) (w : Fin 32 → W32) (b : W32) : (t.setV d a w b).asid = t.asid := rfl
@[simp] theorem setV_ctx (t : TG) (d : VReg) (a : W32) (w : Fin 32 → W32) (b : W32) : (t.setV d a w b).ctx = t.ctx := rfl
@[simp] theorem setV_pc (t : TG) (d : VReg) (a : W32) (w : Fin 32 → W32) (b : W32) : (t.setV d a w b).pc = t.pc := rfl
@[simp] theorem setV_npc (t : TG) (d : VReg) (a : W32) (w : Fin 32 → W32) (b : W32) : (t.setV d a w b).npc = t.npc := rfl
@[simp] theorem setV_s (t : TG) (d : VReg) (a : W32) (w : Fin 32 → W32) (b : W32) : (t.setV d a w b).s = t.s := rfl
@[simp] theorem setV_sp (t : TG) (d : VReg) (a : W32) (w : Fin 32 → W32) (b : W32) : (t.setV d a w b).sp = t.sp := rfl
@[simp] theorem setV_p (t : TG) (d : VReg) (a : W32) (w : Fin 32 → W32) (b : W32) : (t.setV d a w b).p = t.p := rfl
@[simp] theorem setV_pp (t : TG) (d : VReg) (a : W32) (w : Fin 32 → W32) (b : W32) : (t.setV d a w b).pp = t.pp := rfl
@[simp] theorem setV_k (t : TG) (d : VReg) (a : W32) (w : Fin 32 → W32) (b : W32) : (t.setV d a w b).k = t.k := rfl
@[simp] theorem setV_kp (t : TG) (d : VReg) (a : W32) (w : Fin 32 → W32) (b : W32) : (t.setV d a w b).kp = t.kp := rfl
@[simp] theorem setV_x (t : TG) (d : VReg) (a : W32) (w : Fin 32 → W32) (b : W32) : (t.setV d a w b).x = t.x := rfl
@[simp] theorem setV_rings (t : TG) (d : VReg) (a : W32) (w : Fin 32 → W32) (b : W32) : (t.setV d a w b).rings = t.rings := rfl
@[simp] theorem setV_tok (t : TG) (d : VReg) (a : W32) (w : Fin 32 → W32) (b : W32) : (t.setV d a w b).tok = t.tok := rfl
@[simp] theorem setV_qctx (t : TG) (d : VReg) (a : W32) (w : Fin 32 → W32) (b : W32) : (t.setV d a w b).qctx = t.qctx := rfl
@[simp] theorem setV_qbase (t : TG) (d : VReg) (a : W32) (w : Fin 32 → W32) (b : W32) : (t.setV d a w b).qbase = t.qbase := rfl
@[simp] theorem setV_scopeId (t : TG) (d : VReg) (a : W32) (w : Fin 32 → W32) (b : W32) : (t.setV d a w b).scopeId = t.scopeId := rfl
@[simp] theorem setV_trapBase (t : TG) (d : VReg) (a : W32) (w : Fin 32 → W32) (b : W32) : (t.setV d a w b).trapBase = t.trapBase := rfl
@[simp] theorem setV_trapCause (t : TG) (d : VReg) (a : W32) (w : Fin 32 → W32) (b : W32) : (t.setV d a w b).trapCause = t.trapCause := rfl
@[simp] theorem setV_trapPc (t : TG) (d : VReg) (a : W32) (w : Fin 32 → W32) (b : W32) : (t.setV d a w b).trapPc = t.trapPc := rfl
@[simp] theorem setV_trapAddr (t : TG) (d : VReg) (a : W32) (w : Fin 32 → W32) (b : W32) : (t.setV d a w b).trapAddr = t.trapAddr := rfl
@[simp] theorem setV_trapInfo (t : TG) (d : VReg) (a : W32) (w : Fin 32 → W32) (b : W32) : (t.setV d a w b).trapInfo = t.trapInfo := rfl
@[simp] theorem setV_k10 (t : TG) (d : VReg) (a : W32) (w : Fin 32 → W32) (b : W32) : (t.setV d a w b).k10 = t.k10 := rfl
@[simp] theorem setV_k12 (t : TG) (d : VReg) (a : W32) (w : Fin 32 → W32) (b : W32) : (t.setV d a w b).k12 = t.k12 := rfl
@[simp] theorem setV_wake (t : TG) (d : VReg) (a : W32) (w : Fin 32 → W32) (b : W32) : (t.setV d a w b).wake = t.wake := rfl
@[simp] theorem setV_phase (t : TG) (d : VReg) (a : W32) (w : Fin 32 → W32) (b : W32) : (t.setV d a w b).phase = t.phase := rfl
@[simp] theorem setV_cur (t : TG) (d : VReg) (a : W32) (w : Fin 32 → W32) (b : W32) : (t.setV d a w b).cur = t.cur := rfl

/-! ### setP -/

@[simp] theorem setP_loc (t : TG) (d : PReg) (a w b : W32) : (t.setP d a w b).loc = t.loc := rfl
@[simp] theorem setP_status (t : TG) (d : PReg) (a w b : W32) : (t.setP d a w b).status = t.status := rfl
@[simp] theorem setP_task (t : TG) (d : PReg) (a w b : W32) : (t.setP d a w b).task = t.task := rfl
@[simp] theorem setP_tgid (t : TG) (d : PReg) (a w b : W32) : (t.setP d a w b).tgid = t.tgid := rfl
@[simp] theorem setP_width (t : TG) (d : PReg) (a w b : W32) : (t.setP d a w b).width = t.width := rfl
@[simp] theorem setP_super (t : TG) (d : PReg) (a w b : W32) : (t.setP d a w b).super = t.super := rfl
@[simp] theorem setP_asid (t : TG) (d : PReg) (a w b : W32) : (t.setP d a w b).asid = t.asid := rfl
@[simp] theorem setP_ctx (t : TG) (d : PReg) (a w b : W32) : (t.setP d a w b).ctx = t.ctx := rfl
@[simp] theorem setP_pc (t : TG) (d : PReg) (a w b : W32) : (t.setP d a w b).pc = t.pc := rfl
@[simp] theorem setP_npc (t : TG) (d : PReg) (a w b : W32) : (t.setP d a w b).npc = t.npc := rfl
@[simp] theorem setP_s (t : TG) (d : PReg) (a w b : W32) : (t.setP d a w b).s = t.s := rfl
@[simp] theorem setP_sp (t : TG) (d : PReg) (a w b : W32) : (t.setP d a w b).sp = t.sp := rfl
@[simp] theorem setP_v (t : TG) (d : PReg) (a w b : W32) : (t.setP d a w b).v = t.v := rfl
@[simp] theorem setP_vp (t : TG) (d : PReg) (a w b : W32) : (t.setP d a w b).vp = t.vp := rfl
@[simp] theorem setP_k (t : TG) (d : PReg) (a w b : W32) : (t.setP d a w b).k = t.k := rfl
@[simp] theorem setP_kp (t : TG) (d : PReg) (a w b : W32) : (t.setP d a w b).kp = t.kp := rfl
@[simp] theorem setP_x (t : TG) (d : PReg) (a w b : W32) : (t.setP d a w b).x = t.x := rfl
@[simp] theorem setP_rings (t : TG) (d : PReg) (a w b : W32) : (t.setP d a w b).rings = t.rings := rfl
@[simp] theorem setP_tok (t : TG) (d : PReg) (a w b : W32) : (t.setP d a w b).tok = t.tok := rfl
@[simp] theorem setP_qctx (t : TG) (d : PReg) (a w b : W32) : (t.setP d a w b).qctx = t.qctx := rfl
@[simp] theorem setP_qbase (t : TG) (d : PReg) (a w b : W32) : (t.setP d a w b).qbase = t.qbase := rfl
@[simp] theorem setP_scopeId (t : TG) (d : PReg) (a w b : W32) : (t.setP d a w b).scopeId = t.scopeId := rfl
@[simp] theorem setP_trapBase (t : TG) (d : PReg) (a w b : W32) : (t.setP d a w b).trapBase = t.trapBase := rfl
@[simp] theorem setP_trapCause (t : TG) (d : PReg) (a w b : W32) : (t.setP d a w b).trapCause = t.trapCause := rfl
@[simp] theorem setP_trapPc (t : TG) (d : PReg) (a w b : W32) : (t.setP d a w b).trapPc = t.trapPc := rfl
@[simp] theorem setP_trapAddr (t : TG) (d : PReg) (a w b : W32) : (t.setP d a w b).trapAddr = t.trapAddr := rfl
@[simp] theorem setP_trapInfo (t : TG) (d : PReg) (a w b : W32) : (t.setP d a w b).trapInfo = t.trapInfo := rfl
@[simp] theorem setP_k10 (t : TG) (d : PReg) (a w b : W32) : (t.setP d a w b).k10 = t.k10 := rfl
@[simp] theorem setP_k12 (t : TG) (d : PReg) (a w b : W32) : (t.setP d a w b).k12 = t.k12 := rfl
@[simp] theorem setP_wake (t : TG) (d : PReg) (a w b : W32) : (t.setP d a w b).wake = t.wake := rfl
@[simp] theorem setP_phase (t : TG) (d : PReg) (a w b : W32) : (t.setP d a w b).phase = t.phase := rfl
@[simp] theorem setP_cur (t : TG) (d : PReg) (a w b : W32) : (t.setP d a w b).cur = t.cur := rfl

/-! ### setK -/

@[simp] theorem setK_loc (t : TG) (d : KReg) (w b : Bool) : (t.setK d w b).loc = t.loc := rfl
@[simp] theorem setK_status (t : TG) (d : KReg) (w b : Bool) : (t.setK d w b).status = t.status := rfl
@[simp] theorem setK_task (t : TG) (d : KReg) (w b : Bool) : (t.setK d w b).task = t.task := rfl
@[simp] theorem setK_tgid (t : TG) (d : KReg) (w b : Bool) : (t.setK d w b).tgid = t.tgid := rfl
@[simp] theorem setK_width (t : TG) (d : KReg) (w b : Bool) : (t.setK d w b).width = t.width := rfl
@[simp] theorem setK_super (t : TG) (d : KReg) (w b : Bool) : (t.setK d w b).super = t.super := rfl
@[simp] theorem setK_asid (t : TG) (d : KReg) (w b : Bool) : (t.setK d w b).asid = t.asid := rfl
@[simp] theorem setK_ctx (t : TG) (d : KReg) (w b : Bool) : (t.setK d w b).ctx = t.ctx := rfl
@[simp] theorem setK_pc (t : TG) (d : KReg) (w b : Bool) : (t.setK d w b).pc = t.pc := rfl
@[simp] theorem setK_npc (t : TG) (d : KReg) (w b : Bool) : (t.setK d w b).npc = t.npc := rfl
@[simp] theorem setK_s (t : TG) (d : KReg) (w b : Bool) : (t.setK d w b).s = t.s := rfl
@[simp] theorem setK_sp (t : TG) (d : KReg) (w b : Bool) : (t.setK d w b).sp = t.sp := rfl
@[simp] theorem setK_v (t : TG) (d : KReg) (w b : Bool) : (t.setK d w b).v = t.v := rfl
@[simp] theorem setK_vp (t : TG) (d : KReg) (w b : Bool) : (t.setK d w b).vp = t.vp := rfl
@[simp] theorem setK_p (t : TG) (d : KReg) (w b : Bool) : (t.setK d w b).p = t.p := rfl
@[simp] theorem setK_pp (t : TG) (d : KReg) (w b : Bool) : (t.setK d w b).pp = t.pp := rfl
@[simp] theorem setK_x (t : TG) (d : KReg) (w b : Bool) : (t.setK d w b).x = t.x := rfl
@[simp] theorem setK_rings (t : TG) (d : KReg) (w b : Bool) : (t.setK d w b).rings = t.rings := rfl
@[simp] theorem setK_tok (t : TG) (d : KReg) (w b : Bool) : (t.setK d w b).tok = t.tok := rfl
@[simp] theorem setK_qctx (t : TG) (d : KReg) (w b : Bool) : (t.setK d w b).qctx = t.qctx := rfl
@[simp] theorem setK_qbase (t : TG) (d : KReg) (w b : Bool) : (t.setK d w b).qbase = t.qbase := rfl
@[simp] theorem setK_scopeId (t : TG) (d : KReg) (w b : Bool) : (t.setK d w b).scopeId = t.scopeId := rfl
@[simp] theorem setK_trapBase (t : TG) (d : KReg) (w b : Bool) : (t.setK d w b).trapBase = t.trapBase := rfl
@[simp] theorem setK_trapCause (t : TG) (d : KReg) (w b : Bool) : (t.setK d w b).trapCause = t.trapCause := rfl
@[simp] theorem setK_trapPc (t : TG) (d : KReg) (w b : Bool) : (t.setK d w b).trapPc = t.trapPc := rfl
@[simp] theorem setK_trapAddr (t : TG) (d : KReg) (w b : Bool) : (t.setK d w b).trapAddr = t.trapAddr := rfl
@[simp] theorem setK_trapInfo (t : TG) (d : KReg) (w b : Bool) : (t.setK d w b).trapInfo = t.trapInfo := rfl
@[simp] theorem setK_k10 (t : TG) (d : KReg) (w b : Bool) : (t.setK d w b).k10 = t.k10 := rfl
@[simp] theorem setK_k12 (t : TG) (d : KReg) (w b : Bool) : (t.setK d w b).k12 = t.k12 := rfl
@[simp] theorem setK_wake (t : TG) (d : KReg) (w b : Bool) : (t.setK d w b).wake = t.wake := rfl
@[simp] theorem setK_phase (t : TG) (d : KReg) (w b : Bool) : (t.setK d w b).phase = t.phase := rfl
@[simp] theorem setK_cur (t : TG) (d : KReg) (w b : Bool) : (t.setK d w b).cur = t.cur := rfl

/-! ### addTok -/

@[simp] theorem addTok_loc (t : TG) (n : Nat) (up : Bool) : (t.addTok n up).loc = t.loc := rfl
@[simp] theorem addTok_status (t : TG) (n : Nat) (up : Bool) : (t.addTok n up).status = t.status := rfl
@[simp] theorem addTok_task (t : TG) (n : Nat) (up : Bool) : (t.addTok n up).task = t.task := rfl
@[simp] theorem addTok_tgid (t : TG) (n : Nat) (up : Bool) : (t.addTok n up).tgid = t.tgid := rfl
@[simp] theorem addTok_width (t : TG) (n : Nat) (up : Bool) : (t.addTok n up).width = t.width := rfl
@[simp] theorem addTok_super (t : TG) (n : Nat) (up : Bool) : (t.addTok n up).super = t.super := rfl
@[simp] theorem addTok_asid (t : TG) (n : Nat) (up : Bool) : (t.addTok n up).asid = t.asid := rfl
@[simp] theorem addTok_ctx (t : TG) (n : Nat) (up : Bool) : (t.addTok n up).ctx = t.ctx := rfl
@[simp] theorem addTok_pc (t : TG) (n : Nat) (up : Bool) : (t.addTok n up).pc = t.pc := rfl
@[simp] theorem addTok_npc (t : TG) (n : Nat) (up : Bool) : (t.addTok n up).npc = t.npc := rfl
@[simp] theorem addTok_s (t : TG) (n : Nat) (up : Bool) : (t.addTok n up).s = t.s := rfl
@[simp] theorem addTok_sp (t : TG) (n : Nat) (up : Bool) : (t.addTok n up).sp = t.sp := rfl
@[simp] theorem addTok_v (t : TG) (n : Nat) (up : Bool) : (t.addTok n up).v = t.v := rfl
@[simp] theorem addTok_vp (t : TG) (n : Nat) (up : Bool) : (t.addTok n up).vp = t.vp := rfl
@[simp] theorem addTok_p (t : TG) (n : Nat) (up : Bool) : (t.addTok n up).p = t.p := rfl
@[simp] theorem addTok_pp (t : TG) (n : Nat) (up : Bool) : (t.addTok n up).pp = t.pp := rfl
@[simp] theorem addTok_k (t : TG) (n : Nat) (up : Bool) : (t.addTok n up).k = t.k := rfl
@[simp] theorem addTok_kp (t : TG) (n : Nat) (up : Bool) : (t.addTok n up).kp = t.kp := rfl
@[simp] theorem addTok_x (t : TG) (n : Nat) (up : Bool) : (t.addTok n up).x = t.x := rfl
@[simp] theorem addTok_rings (t : TG) (n : Nat) (up : Bool) : (t.addTok n up).rings = t.rings := rfl
@[simp] theorem addTok_qctx (t : TG) (n : Nat) (up : Bool) : (t.addTok n up).qctx = t.qctx := rfl
@[simp] theorem addTok_qbase (t : TG) (n : Nat) (up : Bool) : (t.addTok n up).qbase = t.qbase := rfl
@[simp] theorem addTok_scopeId (t : TG) (n : Nat) (up : Bool) : (t.addTok n up).scopeId = t.scopeId := rfl
@[simp] theorem addTok_trapBase (t : TG) (n : Nat) (up : Bool) : (t.addTok n up).trapBase = t.trapBase := rfl
@[simp] theorem addTok_trapCause (t : TG) (n : Nat) (up : Bool) : (t.addTok n up).trapCause = t.trapCause := rfl
@[simp] theorem addTok_trapPc (t : TG) (n : Nat) (up : Bool) : (t.addTok n up).trapPc = t.trapPc := rfl
@[simp] theorem addTok_trapAddr (t : TG) (n : Nat) (up : Bool) : (t.addTok n up).trapAddr = t.trapAddr := rfl
@[simp] theorem addTok_trapInfo (t : TG) (n : Nat) (up : Bool) : (t.addTok n up).trapInfo = t.trapInfo := rfl
@[simp] theorem addTok_k10 (t : TG) (n : Nat) (up : Bool) : (t.addTok n up).k10 = t.k10 := rfl
@[simp] theorem addTok_k12 (t : TG) (n : Nat) (up : Bool) : (t.addTok n up).k12 = t.k12 := rfl
@[simp] theorem addTok_wake (t : TG) (n : Nat) (up : Bool) : (t.addTok n up).wake = t.wake := rfl
@[simp] theorem addTok_phase (t : TG) (n : Nat) (up : Bool) : (t.addTok n up).phase = t.phase := rfl
@[simp] theorem addTok_cur (t : TG) (n : Nat) (up : Bool) : (t.addTok n up).cur = t.cur := rfl

@[simp] theorem tgAdvance_loc (t : TG) : t.advance.loc = t.loc := rfl
@[simp] theorem tgAdvance_task (t : TG) : t.advance.task = t.task := rfl
@[simp] theorem tgAdvance_tgid (t : TG) : t.advance.tgid = t.tgid := rfl
@[simp] theorem tgAdvance_width (t : TG) : t.advance.width = t.width := rfl
@[simp] theorem tgAdvance_super (t : TG) : t.advance.super = t.super := rfl
@[simp] theorem tgAdvance_asid (t : TG) : t.advance.asid = t.asid := rfl
@[simp] theorem tgAdvance_ctx (t : TG) : t.advance.ctx = t.ctx := rfl
@[simp] theorem tgAdvance_npc (t : TG) : t.advance.npc = t.npc := rfl
@[simp] theorem tgAdvance_s (t : TG) : t.advance.s = t.s := rfl
@[simp] theorem tgAdvance_sp (t : TG) : t.advance.sp = t.sp := rfl
@[simp] theorem tgAdvance_v (t : TG) : t.advance.v = t.v := rfl
@[simp] theorem tgAdvance_vp (t : TG) : t.advance.vp = t.vp := rfl
@[simp] theorem tgAdvance_p (t : TG) : t.advance.p = t.p := rfl
@[simp] theorem tgAdvance_pp (t : TG) : t.advance.pp = t.pp := rfl
@[simp] theorem tgAdvance_k (t : TG) : t.advance.k = t.k := rfl
@[simp] theorem tgAdvance_kp (t : TG) : t.advance.kp = t.kp := rfl
@[simp] theorem tgAdvance_x (t : TG) : t.advance.x = t.x := rfl
@[simp] theorem tgAdvance_rings (t : TG) : t.advance.rings = t.rings := rfl
@[simp] theorem tgAdvance_tok (t : TG) : t.advance.tok = t.tok := rfl
@[simp] theorem tgAdvance_qctx (t : TG) : t.advance.qctx = t.qctx := rfl
@[simp] theorem tgAdvance_qbase (t : TG) : t.advance.qbase = t.qbase := rfl
@[simp] theorem tgAdvance_scopeId (t : TG) : t.advance.scopeId = t.scopeId := rfl
@[simp] theorem tgAdvance_trapBase (t : TG) : t.advance.trapBase = t.trapBase := rfl
@[simp] theorem tgAdvance_trapCause (t : TG) : t.advance.trapCause = t.trapCause := rfl
@[simp] theorem tgAdvance_trapPc (t : TG) : t.advance.trapPc = t.trapPc := rfl
@[simp] theorem tgAdvance_trapAddr (t : TG) : t.advance.trapAddr = t.trapAddr := rfl
@[simp] theorem tgAdvance_trapInfo (t : TG) : t.advance.trapInfo = t.trapInfo := rfl
@[simp] theorem tgAdvance_k10 (t : TG) : t.advance.k10 = t.k10 := rfl
@[simp] theorem tgAdvance_k12 (t : TG) : t.advance.k12 = t.k12 := rfl
@[simp] theorem tgAdvance_pc (t : TG) : t.advance.pc = t.npc := rfl

end Sys2Proof.Machine
end

