-- ==== Sys2Proof/Tests/Slice0.lean ====
section
/-! SUPPORT. Tests of the model, and for each statement of Obligations with hypotheses a state and operands that meet them. Expected
values are worked out by hand from the rules that each comment names. -/

set_option maxRecDepth 100000
set_option Elab.async false

namespace Sys2Proof.Tests

open Sys2Proof Sys2Proof.Machine

/-! ### Well-formedness refuses a destination k0, p0, an unaligned group, a plain predicate for WAITK, an unknown register (WellFormed) -/

theorem test_wf_k0 : (Instr.scmpeq 0 0 1 2).wf = false ∧ (Instr.kand 0 0 1 2).wf = false ∧ (Instr.panyk 0 0 1).wf = false ∧
    (Instr.touchc 0 1 2 0).wf = false ∧ (Instr.pchk 0 0 1).wf = false := by decide
theorem test_wf_k8 : (Instr.scmplt 0 8 1 2).wf = false ∧ (Instr.kor 0 15 1 2).wf = false := by decide
theorem test_wf_p0 : (Instr.vcmplt 0 0 1 (.v 2)).wf = false ∧ (Instr.vfcmpun 0 0 1 (.s 2)).wf = false ∧ (Instr.por 0 0 1 2).wf = false ∧
    (Instr.pfroms 0 0 3).wf = false := by decide
theorem test_wf_pair : (Instr.vldd 0 1 2 (.v 3)).wf = false ∧ (Instr.vcvthf 0 3 4).wf = false ∧ (Instr.vatcas 0 5 1 (.v 2) true .dflt).wf = false := by decide
theorem test_wf_quad : (Instr.vxacc 0 2 1).wf = false ∧ (Instr.vxadd 0 6 1 (.v 2) false .dflt).wf = false ∧
    (Instr.vxadd 0 6 1 (.v 2) true .dflt).wf = true := by decide
theorem test_wf_nr : (Instr.satadd 0 1 2 3 true .dflt).wf = false ∧ (Instr.satxch 0 1 2 3 true .dflt).wf = false ∧
    (Instr.satadd 0 1 2 3 false .dflt).wf = true := by decide
theorem test_wf_cond : (Instr.waitk 0 7).wf = false ∧ (Instr.waitk 0 8).wf = true := by decide
theorem test_wf_sysreg : (Instr.srd 0 1 30).wf = false ∧ (Instr.srd 0 1 33).wf = true ∧ (Instr.swr 0 1 0).wf = false ∧
    (Instr.swr 0 1 32).wf = true := by decide
theorem test_wf_reason : (Instr.illegalEncoding 0 0).wf = false ∧ (Instr.illegalEncoding 8 0).wf = true ∧ (Instr.illegalEncoding 9 0).wf = false := by decide

/-! ### Words written out from the encodings (R167 to R185 and the tables of each major), one or two for each family -/

def env : DecEnv := ⟨false, true, 256, 64⟩
def gwEnv : DecEnv := ⟨true, true, 256, 64⟩
/-- The halfwords of words, low halfword first. -/
def hv (ws : List Nat) : List Half := ws.flatMap fun w => [BitVec.ofNat 16 w, BitVec.ofNat 16 (w / 65536)]

theorem test_dec_sshr : decode env (hv [0xCA671001]) = .ok (.sshr 0 4 39 41) 4 none := by decide
theorem test_dec_smov_guarded : decode env (hv [0x00082D05]) = .ok (.smov 2 11 8) 4 none := by decide
theorem test_dec_scmplt : decode env (hv [0x21440807]) = .ok (.scmplt 0 2 4 5) 4 none := by decide
theorem test_dec_kandn : decode env (hv [0x92810C07]) = .ok (.kandn 0 3 1 10) 4 none := by decide
theorem test_dec_vadd_sat : decode env (hv [0x0014003F, 0x01420409]) = .ok (.vadd 0 1 2 (.s 5) true) 8 none := by decide
theorem test_dec_vmovk : decode env (hv [0x0000003D, 0x0280240B]) = .ok (.vmovk 0 9 (.imm 10)) 8 none := by decide
theorem test_dec_vqnt : decode env (hv [0x80045013]) = .ok (.vqnt 0 20 4 (.v 0)) 4 none := by decide
theorem test_dec_vqcfg : decode env (hv [0x0010003F, 0xD5540013]) = .ok (.vqcfg 20 21) 8 none := by decide
theorem test_dec_vcmplt : decode env (hv [0x21C60815]) = .ok (.vcmplt 0 2 6 (.v 7)) 4 none := by decide
theorem test_dec_vrdln : decode env (hv [0x0010003F, 0x12471017]) = .ok (.vrdln 4 7 9) 8 none := by decide
theorem test_dec_vldw : decode env (hv [0x00C21419]) = .ok (.vldw 0 5 2 (.v 3)) 4 none := by decide
theorem test_dec_vstc : decode env (hv [0x6004181B]) = .ok (.vstc 0 6 4) 4 none := by decide
theorem test_dec_sld : decode env (hv [0x080C301D]) = .ok (.sld 0 12 12 (.short 32)) 4 none := by decide
theorem test_dec_sldacq : decode env (hv [0x0000E03F, 0x70196427]) = .ok (.sldacq 0 25 25 .dflt) 8 none := by decide
theorem test_dec_br : decode env (hv [0x00008521]) = .ok (.br 10 false 8) 4 none := by decide
theorem test_dec_br_sp : decode env (hv [0xFFFF80E1, 0x0000803B]) = .ok (.br 1 false 0xFFFF8) 8 (some 0x0000803B) := by decide
theorem test_dec_trap : decode env (hv [0x20010037]) = .ok (.trap 0 1) 4 none := by decide
theorem test_dec_waitk : decode env (hv [0x400D0025]) = .ok (.waitk 0 13) 4 none := by decide
theorem test_dec_mcfg : decode env (hv [0x000A0029]) = .ok (.mcfg 0 10) 4 none := by decide
theorem test_dec_mma : decode env (hv [0x20C20429]) = .ok (.mma 0 1 2 3) 4 none := by decide
theorem test_dec_mdrain : decode env (hv [0x42000429]) = .ok (.mdrain 0 1 0 8) 4 none := by decide
theorem test_dec_rdef : decode env (hv [0x000C082B]) = .ok (.rdef 0 2 12) 4 none := by decide
theorem test_dec_cpyr : decode env (hv [0x1181082D]) = .ok (.cpyr 0 2 1 6) 4 none := by decide
theorem test_dec_waitt : decode env (hv [0x4000182D]) = .ok (.waitt 0 6) 4 none := by decide
theorem test_dec_cqpush : decode env (hv [0x61C6142D]) = .ok (.cqpush 0 5 6 7) 4 none := by decide
theorem test_dec_gstart : decode env (hv [0x02C4002F]) = .ok (.gstart 0 0 4 11) 4 none := by decide
theorem test_dec_bqclaim : decode gwEnv (hv [0x00041435]) = .ok (.bqclaim 0 5 4) 4 none := by decide
theorem test_dec_topkc : decode gwEnv (hv [0x30090C35]) = .ok (.topkc 0 3 9) 4 none := by decide
theorem test_dec_spawn : decode env (hv [0x00092031]) = .ok (.spawn 0 8 9) 4 none := by decide
theorem test_dec_resolve : decode env (hv [0x41440C31]) = .ok (.resolve 0 3 4 5) 4 none := by decide
theorem test_dec_cancel_deep : decode env (hv [0x0100003F, 0x70060831]) = .ok (.cancelDeep 0 2 6) 8 none := by decide
theorem test_dec_touch_sp : decode env (hv [0x10051071, 0x0000803B]) = .ok (.touch 0 4 5) 8 (some 0x0000803B) := by decide
theorem test_dec_send : decode env (hv [0x01440033]) = .ok (.send 0 4 5) 4 none := by decide
theorem test_dec_recv : decode env (hv [0x22481C33]) = .ok (.recv 0 7 8 9) 4 none := by decide
theorem test_dec_srd : decode env (hv [0x02C00C37]) = .ok (.srd 0 3 11) 4 none := by decide
theorem test_dec_swr : decode env (hv [0x12940037]) = .ok (.swr 0 20 10) 4 none := by decide
theorem test_dec_swr_deep : decode env (hv [0x0100183F, 0x12050037]) = .ok (.swrDeep 0 5 200) 8 none := by decide
theorem test_dec_csave : decode env (hv [0x46996C37]) = .ok (.csave 0 27 25 26) 4 none := by decide
theorem test_dec_compact : decode env [0x003C] = .ok (.cRadvc 1 0) 2 none ∧ decode env [0x00DA] = .ok (.cWaitt 6) 2 none ∧
    decode env [0xE666] = .ok (.cSaddi 3 3 (BitVec.ofInt 3 (-1))) 2 none := by decide
/-- R10, R187: the block-queue forms are illegal off a gateway die. -/
theorem test_dec_gateway_only : decode env (hv [0x00041435]) = .ok (.illegalEncoding 8 0x00041435) 4 none := by decide

/-! ### States for the tests -/

/-- The handle of the tests' task, in cluster 0 of die 0. -/
def hT : W64 := mkHandle 0 ⟨0, 0⟩ 5 1
/-- A thread group in supervisor mode, all lanes on, with the 64 KiB page at 0 mapped, and one stack of its core's local store. -/
def base : State :=
  let s := State.reset.placeWord 16 0
  { s with me := { s.me with x := 0xFFFFFFFF, task := hT, npc := s.me.pc + 4 } }
def setR (s : State) (r : UReg) (v : W64) : State := { s with me := { s.me with s := s.me.s.set r.val v } }
def setV (s : State) (r : VReg) (f : Fin 32 → W32) : State := { s with me := { s.me with v := s.me.v.set r.val (Vector.ofFn f) } }
def store (s : State) (a : Nat) (bs : List Byte) : State := { s with mem := memPut a bs s.mem }
/-- A byte of the local store of core 0, beyond the constant window. -/
def ls (off : Nat) : Nat := localAddr ⟨0, 0, 0⟩ off
/-- A byte of the scratchpad of cluster 0. -/
def sp (off : Nat) : Nat := spadAddr ⟨0, 0⟩ off
def w (n : Nat) : W64 := BitVec.ofNat 64 n

/-- The result of a meaning, or the state before it. -/
def after (o : Out State) (s : State) : State := match o with | .next t => t | _ => s

theorem opens0 (s : State) : s.me.opens 0 := Or.inl rfl
theorem calm_of (s : State) (h : ((s.core s.me.loc.core).fifo == [] && s.wrs == [] && s.replicas == [] && !s.sup.rtBusy &&
    s.me.phase == Phase.start && s.pace == none) = true) : s.Calm := by
  simp only [Bool.and_eq_true, beq_iff_eq, Bool.not_eq_true'] at h
  exact ⟨h.1.1.1.1.1, h.1.1.1.1.2, (by unfold State.Coherent; rw [h.1.1.1.2]; intro r hr; cases hr), h.1.1.2, h.1.2, h.2⟩
theorem memOk_of (s : State) (h : (Memory.wf s.mem && s.mgmt.images.isEmpty) = true) : s.MemOk := by
  simp only [Bool.and_eq_true, List.isEmpty_iff] at h
  exact ⟨h.1, by rw [h.2]; intro p hp; cases hp⟩
theorem clean_of (s : State) (g : Guard) (h : (s.me.ppoison g &&& s.me.x == 0) = true) : s.me.clean g := beq_iff_eq.mp h
theorem clears_of (s : State) (wr : Bool) (va z : Nat) (h : (addrCheck s.mode s.me.super wr va z == .ok && va % z == 0 &&
    s.lockHit s.me.loc.core.cluster s.me.asid (if wr then .store else .load) va z == none) = true) : s.clears wr va z := by
  simp only [Bool.and_eq_true, beq_iff_eq] at h
  exact ⟨h.1.1, h.1.2, h.2⟩
theorem accepts_of (s : State) (va : W64) (h : (s.storeFatal va == none && !s.storeFaults va) = true) : s.accepts va := by
  simp only [Bool.and_eq_true, beq_iff_eq, Bool.not_eq_true'] at h
  exact h
/-- What the snapshot of a structure leaves, and whether it is readable and clean. -/
def snapState (s : State) (cached : Bool) (va : W64) (n : Nat) : State := (s.snapRead s.me.loc.core.cluster s.meAgent cached va.toNat n).1
def snapOk (s : State) (cached : Bool) (va : W64) (n al : Nat) (bs : List Byte) : Bool :=
  addrCheck s.mode s.me.super false va.toNat n == .ok && va.toNat % al == 0 &&
  (match (s.snapRead s.me.loc.core.cluster s.meAgent cached va.toNat n).2 with
   | .ok ps => ps.map (·.1) == bs && ps.all (fun p => !p.2)
   | .error _ => false)
theorem snaps_of (s : State) (cached : Bool) (va : W64) (n al : Nat) (bs : List Byte) (h : snapOk s cached va n al bs = true) :
    s.snaps cached va n al bs (snapState s cached va n) := by
  unfold snapOk at h
  simp only [Bool.and_eq_true, beq_iff_eq] at h
  obtain ⟨⟨h1, h2⟩, h3⟩ := h
  refine ⟨h1, h2, ?_⟩
  split at h3
  · rename_i ps hp
    simp only [Bool.and_eq_true, beq_iff_eq, List.all_eq_true, Bool.not_eq_true'] at h3
    exact ⟨ps, Prod.ext rfl hp, h3⟩
  · cases h3
theorem snapsMap_of (s : State) (va : W64) (bs : List Byte) (h : snapOk s true va 128 128 bs = true) :
    s.snapsMap va (parseTMap bs) (snapState s true va 128) := ⟨bs, snaps_of s true va 128 128 bs h, rfl⟩

/-! ### Witnesses: registers, compares, lanes -/

theorem takes_imm (s : State) (n : W32) : s.takes (.imm n) n false := ⟨rfl, fun _ h => by cases h⟩
/-- The last word of the constant window holds 5. -/
def window : State := store base (localAddr ⟨0, 0, 0⟩ 1020) [5, 0, 0, 0]
theorem wit_UniformArithmeticResult : base.me.opens 0 ∧ base.takes (.imm 0x80000000) 0x80000000 false ∧ window.takes (.cw 255) 5 false ∧
    base.Calm ∧ base.clears false (BitVec.ofNat 64 (localAddr base.me.loc.core (4 * 255)) : W64).toNat 4 := by
  have h : window.clears false (BitVec.ofNat 64 (window.cwAddr 255) : W64).toNat 4 := clears_of _ _ _ _ (by decide)
  exact ⟨opens0 _, takes_imm _ _, ⟨by decide, fun c hc => by cases hc; exact h⟩, calm_of _ (by decide), clears_of _ _ _ _ (by decide)⟩
theorem wit_UniformUnaryResult : base.me.opens 0 ∧ 9 ≤ (9 : Fin 64).val ∧ 9 ≤ (63 : Fin 64).val := ⟨opens0 _, by decide, by decide⟩
def radv : State := setR base 7 8
theorem wit_CompactFormResult : (15 : HReg).val = (15 : CReg).val ∧ radv.me.s[(7 : UReg)] = BitVec.ofNat 64 ((7 : BitVec 3).toNat + 1) ∧
    radv.me.sp.getLsbD (7 : UReg).val = false := by decide
theorem wit_CompareResult : base.me.opens 0 ∧ base.me.clean 0 := ⟨opens0 _, clean_of _ _ (by decide)⟩
theorem wit_LaneIntegerResult : base.me.clean 0 ∧ base.takes (.imm 0xFFFFFFFF) 0xFFFFFFFF false := ⟨clean_of _ _ (by decide), takes_imm _ _⟩
theorem wit_LaneFloatResult : base.me.clean 0 := clean_of _ _ (by decide)
theorem wit_ApproximatingFormsAreFixedFunctions : base.me.clean 0 ∧ (FFmt.fp32.value (0x7F800001#32).toNat).isNan = true ∧
    (FFmt.fp32.value (0x80000001#32).toNat).lt (.fin false 0 0) = true ∧
    ((FFmt.fp32.value (0x43000000#32).toNat).isNan = false ∧ (FFmt.fp32.value (0x43000000#32).toNat).lt (.fin false 128 0) = false) ∧
    (FFmt.fp32.value (0xC3150001#32).toNat).lt (.fin true 149 0) = true :=
  ⟨clean_of _ _ (by decide), by decide, by decide, by decide, by decide⟩
/-- One, four and the least subnormal, in the ranges of the bounds of R219. -/
theorem wit_ApproximatingFormsAreFixedFunctions_bounds :
    (fp32Finite 0x3F800000#32 ∧ fp32Real 0x3F800000#32 = 1) ∧ (fp32Finite 0x40800000#32 ∧ fp32Real 0x40800000#32 = 4) ∧
    (fp32Finite 1#32 ∧ fp32Real 1#32 = 2 ^ (-149 : ℤ)) ∧
    (0 < (1 : ℝ) ∧ 2 ^ (-128 : ℤ) < |(1 : ℝ)| ∧ -149 ≤ (1 : ℝ) ∧ (1 : ℝ) < 128 ∧ (1 : ℝ) = ((1 : ℤ) : ℝ) ∧ 1 / 2 ≤ (1 : ℝ) ∧ (1 : ℝ) ≤ 2 ∧
      (1 : ℝ) = 2 ^ (0 : ℤ)) ∧ (0 < (4 : ℝ) ∧ 2 < (4 : ℝ)) ∧ (0 < (2 : ℝ) ^ (-149 : ℤ) ∧ (2 : ℝ) ^ (-149 : ℤ) < 1 / 2) := by
  have h1 : FFmt.fp32.value (0x3F800000#32).toNat = .fin false (2 ^ 23) (-23) := by decide
  have h4 : FFmt.fp32.value (0x40800000#32).toNat = .fin false (2 ^ 23) (-21) := by decide
  have h0 : FFmt.fp32.value (1#32).toNat = .fin false 1 (-149) := by decide
  refine ⟨⟨?_, ?_⟩, ⟨?_, ?_⟩, ⟨?_, ?_⟩, ?_, ?_, ?_⟩
  · unfold fp32Finite; rw [h1]; rfl
  · unfold fp32Real; rw [h1]; norm_num [Fv.rat]
  · unfold fp32Finite; rw [h4]; rfl
  · unfold fp32Real; rw [h4]; norm_num [Fv.rat]
  · unfold fp32Finite; rw [h0]; rfl
  · unfold fp32Real; rw [h0]; norm_num [Fv.rat]
  all_goals norm_num
def quant : State := { setR base 20 0x0A5F0030 with me := { (setR base 20 0x0A5F0030).me with qctx := 0x0A5F0030, qbase := 0x0A5E } }
theorem wit_LaneQuantiseAndPackResult : quant.me.clean 0 ∧ quant.me.qctx.toNat % 256 ≠ 0 ∧ quant.me.s[(20 : UReg)].toNat / 2 ^ 48 = 0 ∧
    quant.me.s[(20 : UReg)].toNat % 256 ∈ [0x00, 0x10, 0x11, 0x20, 0x21, 0x30] :=
  ⟨clean_of _ _ (by decide), by decide, by decide, by decide⟩
theorem wit_CrossFileMoveResult : base.me.clean 0 ∧ base.me.ppoison 1 &&& base.me.x = 0 ∧ base.me.sp.getLsbD (3 : UReg).val = false :=
  ⟨clean_of _ _ (by decide), by decide, by decide⟩
def infLane : State := setV base 9 (fun l => if l = 31 then 0xFF800000 else 0x3F800000)
theorem wit_LaneReductionAndAccumulateResult : base.me.clean 0 ∧ (infLane.me.clean 0 ∧ (252 : VReg).val % 4 = 0 ∧
    (((List.finRange 32).filter fun l : Fin 32 => (infLane.me.active 0).getLsbD l.val).any
      fun l => (infLane.me.v[(9 : VReg)][l]).extractLsb' 23 8 == 0xFF#8) = true) :=
  ⟨clean_of _ _ (by decide), clean_of _ _ (by decide), by decide, by decide⟩

/-! ### Witnesses: loads, stores, atomics -/

def okLoad (s : State) (z : Nat) (va : W64) (at_ : Nat) : Bool :=
  addrCheck s.mode s.me.super false va.toNat z == .ok && va.toNat % z == 0 &&
    s.lockHit s.me.loc.core.cluster s.me.asid .load va.toNat z == none && s.loadAt va.toNat == some at_
theorem load_of (s : State) (z : Nat) (va : W64) (at_ : Nat) (h : okLoad s z va at_ = true) :
    s.clears false va.toNat z ∧ s.loadAt va.toNat = some at_ := by
  simp only [okLoad, Bool.and_eq_true, beq_iff_eq] at h
  exact ⟨⟨h.1.1.1, h.1.1.2, h.1.2⟩, h.2⟩
def okStore (s : State) (z : Nat) (va : W64) : Bool :=
  addrCheck s.mode s.me.super true va.toNat z == .ok && va.toNat % z == 0 &&
    s.lockHit s.me.loc.core.cluster s.me.asid .store va.toNat z == none && s.storeFatal va == none && !s.storeFaults va
theorem store_of (s : State) (z : Nat) (va : W64) (h : okStore s z va = true) : s.clears true va.toNat z ∧ s.accepts va := by
  simp only [okStore, Bool.and_eq_true, beq_iff_eq, Bool.not_eq_true'] at h
  exact ⟨⟨h.1.1.1.1, h.1.1.1.2, h.1.1.2⟩, h.1.2, h.2⟩

/-- A word in the local store, its address in s3; s4 addresses the page at 0 in device memory. -/
def word8 : State := store (setR (setR base 3 (w (ls 0x400))) 4 0x1000) (ls 0x400) [1, 2, 3, 4, 5, 6, 7, 0x88]
theorem wit_UniformLoadResult : word8.me.opens 0 ∧ word8.Calm ∧
    (mAddress word8.me.s[(3 : UReg)] (.short 0) 8).toNat = ls 0x400 ∧ (mAddress word8.me.s[(3 : UReg)] (.short 0) 4).toNat = ls 0x400 ∧
    (word8.me.s[(3 : UReg)] + 8 * (0 : BitVec 3).zeroExtend 64).toNat = ls 0x400 ∧ word8.me.sp.getLsbD (3 : UReg).val = false ∧
    (word8.clears false (w (ls 0x400)).toNat 8 ∧ word8.loadAt (w (ls 0x400)).toNat = some (ls 0x400)) ∧
    (word8.clears false (w (ls 0x400)).toNat 4 ∧ word8.loadAt (w (ls 0x400)).toNat = some (ls 0x400)) ∧
    (word8.clears false (0x1000 : W64).toNat 8 ∧ word8.loadAt (0x1000 : W64).toNat = some 0x501000) ∧
    word8.me.wake = none ∧ BitVec.ofNat 64 (word8.num (ls 0x400) 8) ≠ word8.me.s[(5 : UReg)] ∧ word8.watches = [] :=
  ⟨opens0 _, calm_of _ (by decide), by decide, by decide, by decide, by decide, load_of _ _ _ _ (by decide), load_of _ _ _ _ (by decide),
    load_of _ _ _ _ (by decide), by decide, by decide, by decide⟩
/-- s5 holds the word itself; of a line of device memory that nothing has written, zero. -/
def equal (a v : W64) : State := setR (setR word8 3 a) 5 v
theorem wit_UniformLoadResult_park : ∀ c ∈ [(equal (w (ls 0x400)) 0x8807060504030201, ls 0x400, some 0), (equal 0x1000 0, 0x501000, some 1)],
    let s := c.1
    s.me.opens 0 ∧ s.Calm ∧ s.me.sp.getLsbD (3 : UReg).val = false ∧
      (s.clears false (s.me.s[(3 : UReg)]).toNat 8 ∧ s.loadAt (s.me.s[(3 : UReg)]).toNat = some c.2.1) ∧ s.me.wake = none ∧
      BitVec.ofNat 64 (s.num c.2.1 8) = s.me.s[(5 : UReg)] ∧ s.me.k10 = false ∧ (∀ w ∈ s.watches, w.tg ≠ s.me.loc) ∧
      s.lineHome (s.me.s[(3 : UReg)]).toNat = c.2.2 := by
  intro c hc
  fin_cases hc <;> exact ⟨opens0 _, calm_of _ (by decide), by decide, load_of _ _ _ _ (by decide), by decide⟩
/-- Lane l's offset in v4 is 16 l; the stride in s5 is 4; v6 holds 1.0 in every lane. -/
def lanes : State := setV (setV (setR (setR base 3 (w (ls 0x400))) 5 4) 4 (fun l => BitVec.ofNat 32 (16 * l.val))) 6 (fun _ => 0x3F800000)
def off (l : Fin 32) : W64 := lanes.me.s[(3 : UReg)] + (lanes.me.bval (.v 4) l).signExtend 64
def stride (l : Fin 32) : W64 := lanes.me.s[(3 : UReg)] + BitVec.ofNat 64 l.val * lanes.me.s[(5 : UReg)]
def unit (l : Fin 32) : W64 := lanes.me.s[(3 : UReg)] + BitVec.ofNat 64 (4 * l.val)
theorem wit_VectorLoadResult : lanes.me.opens 0 ∧ lanes.Calm ∧ lanes.me.x ≠ 0 ∧ lanes.me.sp.getLsbD (3 : UReg).val = false ∧
    lanes.me.bpoison (.v 4) &&& lanes.me.x = 0 ∧ lanes.me.sp.getLsbD (5 : UReg).val = false ∧
    (∀ z ∈ [1, 2, 4, 8], ∀ l : Fin 32, lanes.clears false (off l).toNat z ∧ lanes.loadAt (off l).toNat = some (off l).toNat) ∧
    (∀ l : Fin 32, lanes.clears false (stride l).toNat 4 ∧ lanes.loadAt (stride l).toNat = some (stride l).toNat) ∧
    (∀ l : Fin 32, lanes.clears false (unit l).toNat 4 ∧ lanes.loadAt (unit l).toNat = some (unit l).toNat) := by
  have ho : ∀ z ∈ [1, 2, 4, 8], ∀ l : Fin 32, okLoad lanes z (off l) (off l).toNat = true := by decide
  have hs : ∀ l : Fin 32, okLoad lanes 4 (stride l) (stride l).toNat = true := by decide
  have hu : ∀ l : Fin 32, okLoad lanes 4 (unit l) (unit l).toNat = true := by decide
  exact ⟨opens0 _, calm_of _ (by decide), by decide, by decide, by decide, by decide, fun z hz l => load_of _ _ _ _ (ho z hz l),
    fun l => load_of _ _ _ _ (hs l), fun l => load_of _ _ _ _ (hu l)⟩

/-- QCTX is set to INT8, and to INT4 where two lanes share a byte. -/
def lanes8 : State := { lanes with me := { lanes.me with qctx := 0x10 } }
def lanes4 : State := { lanes with me := { lanes.me with qctx := 0x11 } }
def place8 (e : W32) : W64 := lanes8.me.s[(3 : UReg)] + BitVec.ofNat 64 e.toNat
def place4 (e : W32) : W64 := lanes4.me.s[(3 : UReg)] + BitVec.ofNat 64 (e.toNat / 2)
theorem wit_VectorLoadResult_quantised : (lanes8.me.opens 0 ∧ lanes8.Calm ∧ lanes8.me.x ≠ 0 ∧ lanes8.me.qctx.toNat % 256 ≠ 0 ∧
    ∀ l : Fin 32, lanes8.clears false (place8 (lanes8.me.bval (.v 4) l)).toNat 1 ∧
      lanes8.loadAt (place8 (lanes8.me.bval (.v 4) l)).toNat = some (place8 (lanes8.me.bval (.v 4) l)).toNat) ∧
    (lanes4.me.opens 0 ∧ lanes4.Calm ∧ lanes4.me.qctx.toNat % 256 = 0x11 ∧
    ∀ l : Fin 32, lanes4.clears false (place4 (BitVec.ofNat 32 l.val)).toNat 1 ∧
      lanes4.loadAt (place4 (BitVec.ofNat 32 l.val)).toNat = some (place4 (BitVec.ofNat 32 l.val)).toNat) := by
  have h8 : ∀ l : Fin 32, okLoad lanes8 1 (place8 (lanes8.me.bval (.v 4) l)) (place8 (lanes8.me.bval (.v 4) l)).toNat = true := by decide
  have h4 : ∀ l : Fin 32, okLoad lanes4 1 (place4 (BitVec.ofNat 32 l.val)) (place4 (BitVec.ofNat 32 l.val)).toNat = true := by decide
  exact ⟨⟨opens0 _, calm_of _ (by decide), by decide, by decide, fun l => load_of _ _ _ _ (h8 l)⟩, opens0 _, calm_of _ (by decide), by decide,
    fun l => load_of _ _ _ _ (h4 l)⟩

/-- A private stack of 8 KiB at the local store's 1 KiB; v6 is poisoned in lane 31. -/
def stack : State := { lanes with me := { lanes.me with lsBase := ls 0x400, lsKib := 8, vp := lanes.me.vp.set 6 0x80000000 } }
theorem wit_StoreEntersTheBuffer : stack.me.opens 0 ∧ stack.Calm ∧ stack.me.sp.getLsbD (3 : UReg).val = false ∧
    stack.me.bpoison (.v 4) &&& stack.me.x = 0 ∧
    (∀ z ∈ [1, 2, 4, 8], ∀ l : Fin 32, (stack.clears true (off l).toNat z ∧ stack.accepts (off l)) ∧
      (stack.me.vp[(6 : VReg)].getLsbD l.val = true → stack.me.isPrivate (off l).toNat z = true)) ∧
    (∀ l : Fin 32, stack.clears true (stride l).toNat 4 ∧ stack.accepts (stride l)) ∧
    (∀ l : Fin 32, stack.clears true (unit l).toNat 4 ∧ stack.accepts (unit l)) ∧
    (stack.clears true (mAddress stack.me.s[(3 : UReg)] (.short 0) 8).toNat 8 ∧ stack.accepts (mAddress stack.me.s[(3 : UReg)] (.short 0) 8)) ∧
    (word8.clears true (0x1000 : W64).toNat 8 ∧ word8.accepts 0x1000) ∧
    (lanes8.me.opens 0 ∧ lanes8.Calm ∧ ∀ l : Fin 32, lanes8.clears true (place8 (lanes8.me.bval (.v 4) l)).toNat 1 ∧
      lanes8.accepts (place8 (lanes8.me.bval (.v 4) l))) ∧
    (lanes4.me.opens 0 ∧ lanes4.Calm ∧ ∀ l : Fin 32, lanes4.clears true (place4 (BitVec.ofNat 32 l.val)).toNat 1 ∧
      lanes4.accepts (place4 (BitVec.ofNat 32 l.val))) := by
  have ho : ∀ z ∈ [1, 2, 4, 8], ∀ l : Fin 32, okStore stack z (off l) = true := by decide
  have hp : ∀ z ∈ [1, 2, 4, 8], ∀ l : Fin 32, stack.me.isPrivate (off l).toNat z = true := by decide
  have hs : ∀ l : Fin 32, okStore stack 4 (stride l) = true := by decide
  have hu : ∀ l : Fin 32, okStore stack 4 (unit l) = true := by decide
  have h8 : ∀ l : Fin 32, okStore lanes8 1 (place8 (lanes8.me.bval (.v 4) l)) = true := by decide
  have h4 : ∀ l : Fin 32, okStore lanes4 1 (place4 (BitVec.ofNat 32 l.val)) = true := by decide
  exact ⟨opens0 _, calm_of _ (by decide), by decide, by decide, fun z hz l => ⟨store_of _ _ _ (ho z hz l), fun _ => hp z hz l⟩,
    fun l => store_of _ _ _ (hs l), fun l => store_of _ _ _ (hu l), store_of _ _ _ (by decide), store_of _ _ _ (by decide),
    ⟨opens0 _, calm_of _ (by decide), fun l => store_of _ _ _ (h8 l)⟩, opens0 _, calm_of _ (by decide), fun l => store_of _ _ _ (h4 l)⟩

theorem wit_AtomicWithoutResultEntersTheBuffer : lanes.me.opens 0 ∧ lanes.Calm ∧ lanes.me.det = false ∧ lanes.me.sp.getLsbD (3 : UReg).val = false ∧
    lanes.me.bpoison (.v 4) &&& lanes.me.x = 0 ∧ (∀ l : Fin 32, (lanes.me.v[(6 : VReg)][l]).extractLsb' 23 8 ≠ 0xFF#8) ∧
    (∀ z ∈ [4, 16], ∀ l : Fin 32, lanes.clears true (off l).toNat z ∧ lanes.accepts (off l)) ∧
    (∀ l : Fin 32, lanes.me.vp[(6 : VReg)].getLsbD l.val = false) ∧
    (lanes.clears true (lanes.me.s[(3 : UReg)]).toNat 8 ∧ lanes.accepts lanes.me.s[(3 : UReg)]) := by
  have ho : ∀ z ∈ [4, 16], ∀ l : Fin 32, okStore lanes z (off l) = true := by decide
  exact ⟨opens0 _, calm_of _ (by decide), by decide, by decide, by decide, by decide, fun z hz l => store_of _ _ _ (ho z hz l), by decide,
    store_of _ _ _ (by decide)⟩

/-- Every lane names one location of 16 bytes of the local store. -/
def one : State := store (setV (setR base 3 (w (ls 0x400))) 8 (fun l => BitVec.ofNat 32 l.val)) (ls 0x400) [0xFF, 0xFF, 0xFF, 0xFF]
theorem wit_AtomicReturnsOldValue : one.me.opens 0 ∧ one.MemOk ∧ one.Calm ∧ one.me.det = false ∧ one.watches = [] ∧
    isWindow (w (ls 0x400)).toNat = true ∧ (winOf (w (ls 0x400)).toNat).kind < 2 ∧ (winOf (w (ls 0x400)).toNat).die = one.me.loc.core.die ∧
    ((List.finRange 32).filter fun l : Fin 32 => one.me.x.getLsbD l.val) ≠ [] ∧
    (∀ l : Fin 32, one.me.s[(3 : UReg)] + (one.me.bval (.v 9) l).signExtend 64 = w (ls 0x400)) ∧
    one.clears true (w (ls 0x400)).toNat 4 ∧ one.clears true (w (ls 0x400)).toNat 16 ∧ one.clears true (w (ls 0x400)).toNat 8 ∧
    (∀ l : Fin 32, one.me.vp[(8 : VReg)].getLsbD l.val = false ∧ (one.me.v[(8 : VReg)][l]).extractLsb' 23 8 ≠ 0xFF#8) ∧
    one.bad (w (ls 0x400)).toNat 16 = false ∧ one.me.s[(3 : UReg)] = w (ls 0x400) :=
  ⟨opens0 _, memOk_of _ (by decide), calm_of _ (by decide), by decide, by decide, by decide, by decide, by decide, by decide, by decide, clears_of _ _ _ _ (by decide),
    clears_of _ _ _ _ (by decide), clears_of _ _ _ _ (by decide), by decide, by decide, by decide⟩
/-- R230: all lanes write one word; the highest lane's entry is the last, and stays. -/
theorem test_vstw_highest_lane : (((after (exec (.vstw 0 8 3 (.v 9)) one) one).core ⟨0, 0, 0⟩).fifo.getLast?.map (·.data)) =
    some [31, 0, 0, 0] := by decide
/-! ### Witnesses: control, fences, rings, copies, streams -/

/-- s9 holds the last even address that a transfer may reach, s10 an odd one; s62 an even one. -/
def ctl : State := setR (setR (setR base 9 0x1FFFFFFFFFFFFFE) 10 0x1001) 62 0x1010
theorem wit_ControlTransferResult : ctl.me.opens 0 ∧ (ctl.kpoison 0 = false ∧ ctl.kval 0 = true) ∧
    (ctl.kpoison 1 = false ∧ ctl.kval 1 ≠ true ∧ (ctl.me.pc + 2 * (0xFFFFF : BitVec 20).signExtend 64).toNat < 2 ^ 57) ∧
    (ctl.me.sp.getLsbD (9 : UReg).val = false ∧ ctl.me.s[(9 : UReg)].toNat % 2 = 0 ∧ ctl.me.s[(9 : UReg)].toNat < 2 ^ 57) ∧
    (ctl.me.sp.getLsbD 62 = false ∧ ctl.me.s[(62 : UReg)].toNat % 2 = 0 ∧ ctl.me.s[(62 : UReg)].toNat < 2 ^ 57) ∧
    ((ctl.me.super = true ∨ ((8 : KReg).val ≠ 13 ∧ (8 : KReg).val ≠ 15)) ∧ ctl.me.wake = none ∧ ctl.kval 0 = true) :=
  ⟨opens0 _, by decide, by decide, by decide, by decide, by decide⟩

def other : TG := { base.me with loc := ⟨⟨0, 0, 0⟩, 1⟩, tgid := 1 }
def arrived : State := { base with tgs := [{ other with barArrived := true, status := .parked 4 0 }, { other with loc := ⟨⟨0, 0, 0⟩, 2⟩, status := .stopped }] }
def early : State := { base with tgs := [other] }
/-- A supervisor thread group that holds no task. -/
def noTask : State := { base with me := { base.me with task := 0 } }
def myStore : StEnt := base.mkEnt (w (ls 0x400)) .store [1, 0, 0, 0, 0, 0, 0, 0] false false
def held : State := { base with cores := [(⟨0, 0, 0⟩, { Core.zero with fifo := [myStore] })] }
theorem wit_FenceAndBarrierResult : (base.me.opens 0 ∧ base.Calm ∧ base.me.wake = none ∧ base.me.sp.getLsbD (3 : UReg).val = false) ∧
    (held.me.opens 0 ∧ myStore ∈ (held.core held.me.loc.core).fifo ∧ myStore.tg = held.me.loc ∧ Scope.die ∈ [Scope.die, .device, .system, .dflt]) ∧
    (∀ s ∈ [noTask, arrived, early], s.me.opens 0 ∧ s.Calm ∧ s.me.wake = none ∧ s.me.k10 = false ∧ s.me.status = .ready ∧ s.me.barOver = false) ∧
    noTask.me.task = 0 ∧
    (arrived.me.task ≠ 0 ∧ ∀ x ∈ arrived.tgs, (x.task == arrived.me.task && x.piece == arrived.me.piece && x.status != .stopped) = true →
      x.barArrived = true) ∧
    (early.me.task ≠ 0 ∧ ∃ x ∈ early.tgs, (x.task == early.me.task && x.piece == early.me.piece && x.status != .stopped) = true ∧
      x.barArrived = false) := by
  refine ⟨⟨opens0 _, calm_of _ (by decide), by decide, by decide⟩, ⟨opens0 _, List.mem_singleton.mpr rfl, by decide, by decide⟩,
    fun s hs => ?_, by decide, by decide, by decide, other, List.mem_singleton.mpr rfl, by decide, by decide⟩
  fin_cases hs <;> exact ⟨opens0 _, calm_of _ (by decide), by decide⟩

/-- A ring of four slots of 4 KiB, its descriptor in the local store; one slot is committed and three are free. -/
def ringD : RingDesc := ⟨0x10000, 4096, 4, 3, 0x8000, true⟩
def ringA : Ring := ⟨w (ls 0x2000), 0, none, ringD, 1, 1, 0, 0, [], []⟩
def ringB : Ring := ⟨w (ls 0x2020), 0, none, { ringD with off := 0x20000, tagOff := 0x8100 }, 1, 1, 0, 0, [], []⟩
def rings (a b : Ring) (s : State) : State :=
  { s with clusters := [(⟨0, 0⟩, { Cluster.zero with rings := [a, b] })],
           me := { s.me with rings := (s.me.rings.set 2 a.desc).set 3 b.desc } }
def ringS : State := rings ringA ringB (setR (setR (setR (setR base 5 1) 6 5) 7 3) 8 2)
def empty : State := rings { ringA with c := 0, w := 0 } { ringB with w := 4, c := 4 } (setR (setR base 5 1) 6 5)
def ringBytes : List Byte := layout 32 [(0, 4, 0x30000), (4, 4, 4096), (8, 2, 256), (10, 2, 0)]
/-- A descriptor that no handle names yet, and one whose ring the table holds. -/
def unbound : State := store (setR base 9 (w (ls 0x2040))) (ls 0x2040) ringBytes
def known : State := { unbound with clusters := [(⟨0, 0⟩, { Cluster.zero with rings := [{ ringA with desc := w (ls 0x2040) }] })] }
/-- The thread group is ready, hence not parked. -/
theorem awake_of (s : State) (h : (s.me.status == .ready) = true) : ∀ k o, s.me.status ≠ .parked k o := by
  rw [beq_iff_eq.mp h]
  intro k o h
  cases h
theorem wit_RingResult : ringS.me.opens 0 ∧ (∀ k o, ringS.me.status ≠ .parked k o) ∧ ringS.me.sp.getLsbD (5 : UReg).val = false ∧
    ringS.bound (2 : HReg).val = some ringA ∧
    (ringS.me.s[(8 : UReg)].toNat < ringA.free ∧ ringS.me.s[(0 : UReg)].toNat < ringA.committed) ∧
    (ringS.me.wake = none ∧ ringS.me.s[(5 : UReg)].toNat ≤ ringA.rd.slots ∧ ringS.me.s[(5 : UReg)].toNat ≤ ringA.committed ∧
      ringS.me.s[(7 : UReg)].toNat ≤ ringA.free) ∧
    (ringA.landed = [] ∧ ringA.freed = [] ∧ ringA.w < 65536 ∧ ringA.r < 65536 ∧ ringA.rd.slots ≤ 256 ∧ 0 < ringA.rd.slots) ∧
    (ringA.c = ringA.w ∧ ringA.f = ringA.r ∧ ringS.bufferClear ringS.me.loc = true ∧ 0 < ringS.me.s[(7 : UReg)].toNat) ∧
    ((2 : CReg).val = (2 : HReg).val ∧ (0 : BitVec 3).toNat + 1 ≤ ringA.committed) ∧
    (∀ o ∈ ringS.ops, o.tg = some ringS.me.loc → (2 : HReg).val ∉ o.handles) :=
  ⟨opens0 _, awake_of _ (by decide), by decide, by decide, by decide, by decide, by decide, by decide, by decide, by decide⟩
theorem wit_RingResult_rdef : unbound.me.opens 0 ∧ unbound.snaps true unbound.me.s[(9 : UReg)] 32 32 ringBytes (snapState unbound true unbound.me.s[(9 : UReg)] 32) ∧
    (snapState unbound true unbound.me.s[(9 : UReg)] 32).bound (2 : HReg).val = none ∧ (parseRing ringBytes).valid 0 = true ∧
    ((snapState unbound true unbound.me.s[(9 : UReg)] 32).ring ⟨0, 0⟩ 0 none unbound.me.s[(9 : UReg)] = none ∧
      ((snapState unbound true unbound.me.s[(9 : UReg)] 32).cluster ⟨0, 0⟩).ringCount < 128) ∧
    ((snapState known true known.me.s[(9 : UReg)] 32).ring ⟨0, 0⟩ 0 none known.me.s[(9 : UReg)]).isSome = true :=
  ⟨opens0 _, snaps_of _ _ _ _ _ _ (by decide), by decide, by decide, by decide, by decide⟩
theorem wit_RingWaitsAndTraps : ringS.me.opens 0 ∧ base.bound (2 : HReg).val = none ∧ ringS.bound (2 : HReg).val = some ringA ∧
    ringA.rd.slots < ringS.me.s[(6 : UReg)].toNat ∧ ringA.free ≤ ringS.me.s[(7 : UReg)].toNat ∧ ringA.committed ≤ ringS.me.s[(5 : UReg)].toNat ∧
    (empty.bound (2 : HReg).val = some { ringA with c := 0, w := 0 } ∧ empty.me.wake = none ∧ empty.me.k10 = false ∧
      0 < empty.me.s[(5 : UReg)].toNat ∧ empty.me.s[(5 : UReg)].toNat ≤ ringA.rd.slots ∧
      Ring.committed { ringA with c := 0, w := 0 } < empty.me.s[(5 : UReg)].toNat) ∧
    (empty.bound (3 : HReg).val = some { ringB with w := 4, c := 4 } ∧ Ring.free { ringB with w := 4, c := 4 } < empty.me.s[(5 : UReg)].toNat) :=
  ⟨opens0 _, by decide, by decide, by decide, by decide, by decide, by decide, by decide⟩
/-- Three slots are free and one is committed: by four, two and C.RADVC's two the indices cannot move. -/
theorem wit_RingWaitsAndTraps_room : ringS.me.opens 0 ∧ (ringS.bound (2 : HReg).val = some ringA ∧
    ringA.free < (setR ringS 6 4).me.s[(6 : UReg)].toNat ∧ ringA.committed < ringS.me.s[(8 : UReg)].toNat ∧
    (2 : CReg).val = (2 : HReg).val ∧ ringA.committed < (1 : BitVec 3).toNat + 1 ∧ ringA.rd.slots < (7 : BitVec 3).toNat + 1) :=
  ⟨opens0 _, by decide⟩
/-- A handle that is bound, a descriptor of slots of no bytes, and a ring table with 128 entries. -/
def boundTo : State := store (rings ringA ringB (setR base 9 (w (ls 0x2040)))) (ls 0x2040) ringBytes
def noRing : List Byte := layout 32 [(0, 4, 0x30000), (8, 2, 256)]
def badRing : State := store (setR base 9 (w (ls 0x2040))) (ls 0x2040) noRing
def fullRings : State := { unbound with clusters := [(⟨0, 0⟩, { Cluster.zero with rings := (List.range 128).map fun k => { ringA with desc := w (ls 0x3000 + 32 * k) } })] }
theorem wit_RingWaitsAndTraps_rdef :
    (∀ c ∈ [(boundTo, ringBytes), (badRing, noRing), (fullRings, ringBytes)],
      c.1.me.opens 0 ∧ c.1.me.sp.getLsbD (9 : UReg).val = false ∧
      c.1.snaps true c.1.me.s[(9 : UReg)] 32 32 c.2 (snapState c.1 true c.1.me.s[(9 : UReg)] 32)) ∧
    (snapState boundTo true boundTo.me.s[(9 : UReg)] 32).bound (2 : HReg).val ≠ none ∧
    ((snapState badRing true badRing.me.s[(9 : UReg)] 32).bound (2 : HReg).val = none ∧ (parseRing noRing).valid 0 = false) ∧
    (let u := snapState fullRings true fullRings.me.s[(9 : UReg)] 32
     u.bound (2 : HReg).val = none ∧ (parseRing ringBytes).valid 0 = true ∧ u.ring ⟨0, 0⟩ u.me.asid u.me.part fullRings.me.s[(9 : UReg)] = none ∧
      128 ≤ (u.cluster ⟨0, 0⟩).ringCount) := by
  refine ⟨fun c hc => ?_, by decide, by decide, by decide⟩
  fin_cases hc <;> exact ⟨opens0 _, by decide, snaps_of _ _ _ _ _ _ (by decide)⟩
def counts : State := { base with me := { base.me with tok := base.me.tok.set 2 15 } }
theorem wit_TokenResult : counts.me.opens 0 ∧ (∀ j : Fin 8, (0xFB : Byte).getLsbD j.val = true → counts.me.tok[j] = 0) ∧
    (∃ j : Fin 8, (0x04 : Byte).getLsbD j.val = true ∧ counts.me.tok[j] ≠ 0) := ⟨opens0 _, by decide, 2, by decide, by decide⟩

/-- Whether an operation may issue. -/
def canIssue (s : State) (tok : Option (Fin 8)) (lock : Bool) : Bool :=
  s.logClear s.me.loc && (match tok with | some k => decide (s.me.tok[k] < 15) | none => true) &&
    (!lock || (s.cluster s.me.loc.core.cluster).freeLock.isSome)
theorem mayIssue_of (s : State) (tok : Option (Fin 8)) (lock : Bool) (h : canIssue s tok lock = true) : s.mayIssue tok lock := by
  simp only [canIssue, Bool.and_eq_true, Bool.or_eq_true, Bool.not_eq_true'] at h
  refine ⟨h.1.1, ?_, fun hl => h.2.resolve_left (by simp [hl])⟩
  intro k hk
  cases tok with
  | none => cases hk
  | some j =>
    have := h.1.2
    simp only [decide_eq_true_eq] at this
    cases hk
    exact this

/-- A map of rank 2 in two dimensions, elements of z bytes in rows of the stride. -/
def mapBytes (at_ code z d0 d1 row : Nat) : List Byte :=
  layout 128 [(0, 8, at_), (8, 1, code), (9, 1, 2), (16, 4, d0), (20, 4, d1), (24, 4, 1), (28, 4, 1), (32, 8, z), (40, 8, row)]
def srcMap : List Byte := mapBytes (ls 0x4000) 1 4 4 4 16
def dstMap : List Byte := mapBytes (ls 0x5000) 1 4 4 4 16
def copyPkt (kind : Nat) : List Byte :=
  layout 64 [(0, 2, kind), (8, 8, ls 0x1000), (16, 8, ls 0x1080), (40, 2, 4), (42, 2, 4), (44, 2, 1), (46, 2, 1)]
/-- A packet, its two maps, 16 elements to copy, and a ring of slots of 4 KiB. -/
def copies : State := store (store (store (store (rings ringA ringB (setR base 9 (w (ls 0x800)))) (ls 0x800) (copyPkt 1)) (ls 0x1000) srcMap)
  (ls 0x1080) dstMap) (ls 0x4000) ((List.range 64).map fun k => BitVec.ofNat 8 (k + 1))
def copies0 : State := snapState copies false (w (ls 0x800)) 64
def copies1 : State := snapState copies0 true (w (ls 0x1000)) 128
def copies2 : State := snapState copies1 true (w (ls 0x1080)) 128
theorem wit_CopyStarts : copies.me.opens 0 ∧ copies.me.sp.getLsbD (9 : UReg).val = false ∧ (∀ k o, copies.me.status ≠ .parked k o) ∧
    copies.snaps false copies.me.s[(9 : UReg)] 64 64 (copyPkt 1) copies0 ∧ (parsePkt (copyPkt 1)).flags / 8 = 0 ∧
    copies0.snapsMap (parsePkt (copyPkt 1)).src (parseTMap srcMap) copies1 ∧
    (copies1.snapsMap (parsePkt (copyPkt 1)).dst (parseTMap dstMap) copies2 ∧
      (∀ k ∈ [1, 2, 3], copyOk k (parsePkt (copyPkt 1)) (some (parseTMap srcMap)) (some (parseTMap dstMap)) = true) ∧ copies2.mayIssue (some 7) true) ∧
    (copies1.bound (2 : HReg).val = some ringA ∧ copyOk 1 (parsePkt (copyPkt 1)) (some (parseTMap srcMap)) none = true ∧
      tileSize (parseTMap srcMap).fmt (parsePkt (copyPkt 1)).ext ≤ ringA.rd.slotBytes ∧ copies.me.wake = none ∧ ringA.free ≠ 0 ∧
      copies1.mayIssue (some 7) true) :=
  ⟨opens0 _, by decide, awake_of _ (by decide), snaps_of _ _ _ _ _ _ (by decide), by decide, snapsMap_of _ _ _ (by decide),
    ⟨snapsMap_of _ _ _ (by decide), by decide, mayIssue_of _ _ _ (by decide)⟩, by decide, by decide, by decide, by decide, by decide,
    mayIssue_of _ _ _ (by decide)⟩

def gatherBytes : List Byte := layout 64 [(0, 8, ls 0x1000), (8, 8, ls 0x1080), (16, 8, ls 0x6000), (24, 4, 4), (30, 2, 4), (32, 2, 2)]
def gathers : State := store copies (ls 0x800) gatherBytes
def gathers0 : State := snapState gathers false (w (ls 0x800)) 64
def gathers1 : State := snapState gathers0 true (w (ls 0x1000)) 128
def gathers2 : State := snapState gathers1 true (w (ls 0x1080)) 128
def stream (claimed : Option Nat) : EngOp :=
  { base.mkOp (.gather ringA.desc gatherBytes 2 false claimed) (some 7) gatherBytes (w (ls 0x800)) [parseTMap srcMap, parseTMap dstMap] [2] with id := 9 }
def streaming (claimed : Option Nat) : State := { gathers with ops := [stream claimed] }
theorem wit_GatherResult : gathers.me.opens 0 ∧ (gathers.me.sp.getLsbD (9 : UReg).val = false ∧
      gathers.snaps false gathers.me.s[(9 : UReg)] 64 64 gatherBytes gathers0 ∧ gathers0.snapsMap (parseGather gatherBytes).smap (parseTMap srcMap) gathers1 ∧
      gathers1.snapsMap (parseGather gatherBytes).gmap (parseTMap dstMap) gathers2 ∧ gathers2.bound (2 : HReg).val = some ringA ∧
      tileSize (parseTMap dstMap).fmt [(parseGather gatherBytes).width, (parseGather gatherBytes).rps, 1, 1] ≤ ringA.rd.slotBytes ∧
      (∀ o ∈ gathers2.ops, EngOp.isStream gathers.me.loc (7 : TReg).val o = false) ∧
      (parseGather gatherBytes).ok (parseTMap srcMap) (parseTMap dstMap) = true ∧ gathers2.streams gathers.me.loc.core.cluster < 8 ∧
      gathers2.mayIssue (some 7) true) ∧
    (∀ o ∈ gathers.ops, EngOp.isStream gathers.me.loc (7 : TReg).val o = false) ∧
    ∀ c ∈ [none, some 1], (streaming c).ops.find? (EngOp.isStream (streaming c).me.loc (7 : TReg).val) = some (stream c) ∧
      (stream c).kind = .gather ringA.desc gatherBytes 2 false c ∧ ∀ x ∈ (streaming c).ops, x.id = (stream c).id → x = stream c :=
  ⟨opens0 _, ⟨by decide, snaps_of _ _ _ _ _ _ (by decide), snapsMap_of _ _ _ (by decide), snapsMap_of _ _ _ (by decide), by decide, by decide,
    by decide, by decide, by decide, mayIssue_of _ _ _ (by decide)⟩, by decide,
    fun c hc => ⟨by revert c; decide, rfl, fun x hx _ => List.mem_singleton.mp hx⟩⟩

/-! ### Witnesses: the matrix unit, block queues, selection, queues -/

/-- INT8 by INT8 into FP32. -/
def ctxBytes32 : List Byte := layout 32 [(0, 1, 0x10), (1, 1, 0x10), (2, 1, 1)]
def tiles : State := store (setR (setR base 9 (w (ls 0x800))) 10 (w (sp 0x40000))) (ls 0x800) ctxBytes32
def tiles0 : State := snapState tiles false (w (ls 0x800)) 32
/-- One operation of the thread group stands in the queue of its core, whose tiles it holds. -/
def tilesBusy : State := { tiles with
  ops := [{ tiles.mkOp (.mzero 0) none [] 0 [] [] with id := 9 }], cores := [(⟨0, 0, 0⟩, { Core.zero with mowner := hT })] }
theorem wit_MatrixSetupResult : tiles.me.opens 0 ∧ tiles.me.wake ≠ some .ended ∧
    (tiles.core tiles.me.loc.core).mowner = 0 ∧
    (tiles.me.sp.getLsbD (9 : UReg).val = false ∧ tiles.snaps false tiles.me.s[(9 : UReg)] 32 32 ctxBytes32 tiles0 ∧
      (parseCtx ctxBytes32).2 = true ∧ tiles0.matFull = false ∧ tiles0.mayIssue none false) ∧
    (tiles.me.phase = .start ∧ tiles.matOps tiles.me.loc.core = []) ∧
    ((tilesBusy.core tilesBusy.me.loc.core).mowner = tilesBusy.me.task ∧ (tilesBusy.core tilesBusy.me.loc.core).mpiece = tilesBusy.me.piece ∧
      tilesBusy.me.opens 0 ∧ tilesBusy.me.wake ≠ some .ended ∧ tilesBusy.me.phase = .start ∧ tilesBusy.matOps tilesBusy.me.loc.core ≠ [] ∧
      tilesBusy.matFull = false ∧ tilesBusy.logClear tilesBusy.me.loc = true) ∧
    (tiles.matFull = false ∧ tiles.mayIssue none false) ∧
    (tiles.mayIssue (some 7) true ∧ tiles.me.s[(10 : UReg)].toNat % 128 = 0 ∧
      ∀ x ∈ [true, false], addrCheck tiles.mode tiles.me.super x tiles.me.s[(10 : UReg)].toNat 327744 = .ok) :=
  ⟨opens0 _, by decide, by decide, ⟨by decide, snaps_of _ _ _ _ _ _ (by decide), by decide, by decide, mayIssue_of _ _ _ (by decide)⟩, by decide,
    ⟨by decide, by decide, opens0 _, by decide⟩,
    ⟨by decide, mayIssue_of _ _ _ (by decide)⟩, mayIssue_of _ _ _ (by decide), by decide, by decide⟩

def mctx : FmtCtx := (parseCtx ctxBytes32).1
def mringA : Ring := { ringA with rd := { ringD with slotBytes := 8192 } }
def mringB : Ring := { ringB with rd := { ringD with slotBytes := 8192, off := 0x20000, tagOff := 0x8100 } }
def opMap : List Byte := mapBytes 0x2000 0x10 1 128 128 128
def outMap : List Byte := mapBytes 0x8000 1 4 128 64 512
def drainBytes (flags h : Nat) : List Byte := layout 64 [(0, 8, ls 0x1100), (16, 2, 8), (18, 2, 128), (20, 1, flags), (21, 1, h)]
def mats (drain : List Byte) : State :=
  let s := rings mringA mringB (setR base 9 (w (ls 0x800)))
  let s := store (store s (sp 0x8000) (tagBytes (w (ls 0x1000)) [0, 0, 0, 0])) (sp 0x8100) (tagBytes (w (ls 0x1080)) [0, 0, 0, 0])
  let s := store (store (store (store s (ls 0x800) drain) (ls 0x1000) opMap) (ls 0x1080) opMap) (ls 0x1100) outMap
  { s with cores := [(⟨0, 0, 0⟩, { Core.zero with mowner := hT, mctx := some mctx })] }
def mats0 : State := mats (drainBytes 1 0)
def mats1 : State := mats (drainBytes 2 3)
def matsA : State := snapState mats0 true (w (ls 0x1000)) 128
def matsB : State := snapState matsA true (w (ls 0x1080)) 128
def matsC : State := snapState mats0 true (w (ls 0x1080)) 128
/-- The tag of a ring's next slot names the map at a. -/
def tagged (r : Ring) (a : W64) : Prop :=
  Machine.word8 (memBytes mats0.mem (r.tagAddr mats0.me.loc.core.cluster r.r) 16) 0 = a ∧
  isPoisoned mats0.poison (r.tagAddr mats0.me.loc.core.cluster r.r) 16 = false
theorem wit_MatrixOperationStarts_mma : mats0.me.opens 0 ∧ mats0.me.wake ≠ some .ended ∧ (∀ k o, mats0.me.status ≠ .parked k o) ∧
    (mats0.core mats0.me.loc.core).mowner = mats0.me.task ∧ (mats0.core mats0.me.loc.core).mpiece = mats0.me.piece ∧
    tagged mringA (w (ls 0x1000)) ∧ tagged mringB (w (ls 0x1080)) ∧ (mats0.core mats0.me.loc.core).mctx = some mctx ∧
    mats0.bound (2 : HReg).val = some mringA ∧ mats0.bound (3 : HReg).val = some mringB ∧ mringA.desc ≠ mringB.desc ∧ mringA.rd.matrix = true ∧
    mringB.rd.tagged = true ∧ mringB.rd.matrix = true ∧ mringA.committed ≠ 0 ∧ mringB.committed ≠ 0 ∧
    (mringA.rd.tagged = true ∧ mats0.snapsMap (w (ls 0x1000)) (parseTMap opMap) matsA ∧
      tagBad (parseTMap opMap) mctx.afmt 128 ((opKOf mctx.afmt).getD 0) mringA.rd.slotBytes = none ∧
      matsA.snapsMap (w (ls 0x1080)) (parseTMap opMap) matsB ∧
      tagBad (parseTMap opMap) mctx.bfmt 128 ((opKOf mctx.afmt).getD 0) mringB.rd.slotBytes = none ∧ matsB.matFull = false ∧ matsB.mayIssue none false) ∧
    (mmasFmt mctx.afmt = true ∧ mmasFmt mctx.bfmt = true ∧ mats0.snapsMap (w (ls 0x1080)) (parseTMap opMap) matsC ∧
      tagBad (parseTMap opMap) mctx.bfmt (mringB.rd.slotBytes / 128) 128 mringB.rd.slotBytes = none ∧ matsC.matFull = false ∧ matsC.mayIssue none false) := by
  exact ⟨opens0 _, by decide, awake_of _ (by decide), by decide, by decide, ⟨by decide, by decide⟩, ⟨by decide, by decide⟩, by decide, by decide, by decide, by decide, by decide, by decide, by decide, by decide, by decide,
    ⟨by decide, snapsMap_of _ _ _ (by decide), by decide, snapsMap_of _ _ _ (by decide), by decide, by decide, mayIssue_of _ _ _ (by decide)⟩,
    by decide, by decide, snapsMap_of _ _ _ (by decide), by decide, by decide, mayIssue_of _ _ _ (by decide)⟩
def drain0 : State := snapState mats0 false (w (ls 0x800)) 64
def drain1 : State := snapState mats1 false (w (ls 0x800)) 64
def drain0m : State := snapState drain0 true (w (ls 0x1100)) 128
def drain1m : State := snapState drain1 true (w (ls 0x1100)) 128
theorem wit_MatrixOperationStarts_mdrain : (mats0.me.sp.getLsbD (9 : UReg).val = false ∧
      mats0.snaps false mats0.me.s[(9 : UReg)] 64 64 (drainBytes 1 0) drain0 ∧ (parseDrain (drainBytes 1 0)).2 = true ∧
      drain0.snapsMap (parseDrain (drainBytes 1 0)).1.dmap (parseTMap outMap) drain0m ∧ (parseDrain (drainBytes 1 0)).1.ok mctx (parseTMap outMap) = true ∧
      drain0m.matFull = false ∧ drain0m.mayIssue (some 7) true ∧ (parseDrain (drainBytes 1 0)).1.ring = false) ∧
    (mats1.snaps false mats1.me.s[(9 : UReg)] 64 64 (drainBytes 2 3) drain1 ∧ (parseDrain (drainBytes 2 3)).2 = true ∧
      drain1.snapsMap (parseDrain (drainBytes 2 3)).1.dmap (parseTMap outMap) drain1m ∧ (parseDrain (drainBytes 2 3)).1.ok mctx (parseTMap outMap) = true ∧
      drain1m.matFull = false ∧ drain1m.mayIssue (some 7) false ∧ (parseDrain (drainBytes 2 3)).1.ring = true ∧
      drain1m.bound (parseDrain (drainBytes 2 3)).1.ringh = some mringB ∧
      tileSize (parseTMap outMap).fmt [(parseDrain (drainBytes 2 3)).1.cols, (parseDrain (drainBytes 2 3)).1.rows, 1, 1] ≤ mringB.rd.slotBytes ∧
      mringB.free ≠ 0) :=
  ⟨⟨by decide, snaps_of _ _ _ _ _ _ (by decide), by decide, snapsMap_of _ _ _ (by decide), by decide, by decide, mayIssue_of _ _ _ (by decide), by decide⟩,
    snaps_of _ _ _ _ _ _ (by decide), by decide, snapsMap_of _ _ _ (by decide), by decide, by decide, mayIssue_of _ _ _ (by decide), by decide, by decide,
    by decide, by decide⟩

def bqBytes : List Byte := layout 64 [(0, 8, 2 ^ 32), (8, 8, 0), (16, 8, 0)]
def mangle : State := store (setR base 9 (w (ls 0x800))) (ls 0x800) bqBytes
def claim : MReq := ⟨3, base.me.loc, false, w (ls 0x800), 0, 4, 0, 0, true, some 2⟩
def answered : State := { mangle with mreqs := [claim], me := { mangle.me with phase := { Phase.start with req := some 3 } } }
def addBytes : List Byte := layout 64 [(0, 8, ls 0x1000), (8, 8, ls 0x1080), (16, 8, ls 0x1100), (48, 2, 0xFE00)]
def rowMap (at_ : Nat) : List Byte := mapBytes at_ 1 4 64 1 256
def adds : State := store (store (store (store (setR (setR base 9 (w (ls 0x800))) 10 1) (ls 0x800) addBytes) (ls 0x1000) (rowMap (ls 0x4000))) (ls 0x1080)
  (rowMap (ls 0x4400))) (ls 0x1100) (rowMap (ls 0x4800))
def adds0 : State := snapState adds false (w (ls 0x800)) 64
def addsX : State := snapState adds0 true (w (ls 0x1000)) 128
def addsY : State := snapState addsX true (w (ls 0x1080)) 128
def addsZ : State := snapState addsY true (w (ls 0x1100)) 128
def selBytes : List Byte := layout 64 [(0, 8, ls 0x1000), (8, 8, ls 0x6000), (16, 8, ls 0x6100), (32, 2, 2)]
def sels : State := store (store (setR base 9 (w (ls 0x800))) (ls 0x800) selBytes) (ls 0x1000) srcMap
def sels0 : State := snapState sels false (w (ls 0x800)) 64
def selsM : State := snapState sels0 true (w (ls 0x1000)) 128
theorem wit_ReductionResult : answered.me.opens 0 ∧
    (answered.me.phase.req = some claim.id ∧ answered.mreqs.find? (fun r => r.id == claim.id) = some claim ∧ claim.answer = some 2) ∧
    (mangle.me.sp.getLsbD (9 : UReg).val = false ∧ mangle.me.phase = .start ∧ mangle.me.wake = none ∧
      mangle.snaps false mangle.me.s[(9 : UReg)] 64 64 bqBytes (snapState mangle false (w (ls 0x800)) 64) ∧ (parseBq bqBytes).ok = true ∧
      (snapState mangle false (w (ls 0x800)) 64).bqFull mangle.me.asid mangle.me.s[(9 : UReg)] = false ∧
      (snapState mangle false (w (ls 0x800)) 64).fenceReady .device (snapState mangle false (w (ls 0x800)) 64).seq = true) :=
  ⟨opens0 _, by decide, by decide, by decide, by decide, snaps_of _ _ _ _ _ _ (by decide), by decide, by decide, by decide⟩
theorem wit_ReductionResult_baddq : adds.me.sp.getLsbD (9 : UReg).val = false ∧ adds.me.sp.getLsbD (10 : UReg).val = false ∧
    adds.snaps false adds.me.s[(9 : UReg)] 64 64 addBytes adds0 ∧ adds0.snapsMap (parseAdd addBytes).x (parseTMap (rowMap (ls 0x4000))) addsX ∧
    addsX.snapsMap (parseAdd addBytes).y (parseTMap (rowMap (ls 0x4400))) addsY ∧ addsY.snapsMap (parseAdd addBytes).z (parseTMap (rowMap (ls 0x4800))) addsZ ∧
    addMapOk (parseTMap (rowMap (ls 0x4000))) (parseAdd addBytes).xo adds.me.s[(10 : UReg)].toNat = true ∧
    addMapOk (parseTMap (rowMap (ls 0x4400))) (parseAdd addBytes).yo adds.me.s[(10 : UReg)].toNat = true ∧
    addMapOk (parseTMap (rowMap (ls 0x4800))) (parseAdd addBytes).zo adds.me.s[(10 : UReg)].toNat = true ∧
    -512 ≤ (parseAdd addBytes).anchor ∧ (parseAdd addBytes).anchor ≤ 511 ∧ (parseAdd addBytes).reservedOk = true ∧ addsZ.mayIssue (some 7) true :=
  ⟨by decide, by decide, snaps_of _ _ _ _ _ _ (by decide), snapsMap_of _ _ _ (by decide), snapsMap_of _ _ _ (by decide), snapsMap_of _ _ _ (by decide),
    by decide, by decide, by decide, by decide, by decide, by decide, mayIssue_of _ _ _ (by decide)⟩
theorem wit_ReductionResult_select : sels.me.sp.getLsbD (9 : UReg).val = false ∧ sels.snaps false sels.me.s[(9 : UReg)] 64 64 selBytes sels0 ∧
    sels0.snapsMap (parseSel selBytes).smap (parseTMap srcMap) selsM ∧ selsM.mayIssue (some 7) true ∧
    (parseSel selBytes).ok true (parseTMap srcMap) = true ∧ (parseSel selBytes).ok false (parseTMap srcMap) = true :=
  ⟨by decide, snaps_of _ _ _ _ _ _ (by decide), snapsMap_of _ _ _ (by decide), mayIssue_of _ _ _ (by decide), by decide, by decide⟩

/-- A header of 16 slots with WRIDX 15 and RDIDX 0 counts, SERVE and SLOTBASE as given. -/
def hdrBytes (wr rd serve : Nat) : List Byte := layout 64 [(0, 8, wr), (8, 8, rd), (16, 4, 16), (20, 4, serve), (24, 8, ls 0x1000)]
def queue (serve : Nat) : State := store (store (setR (setR base 9 (w (ls 0x800))) 10 (w (ls 0xC00))) (ls 0x800) (hdrBytes 15 0 serve)) (ls 0xC00) (copyPkt 1)
def copyQ : State := queue 0
def userQ : State := queue 0x800003FF
def userSlot : State := { userQ with slots := [(63, { Slot.zero with mapped := true, qid := 1023 })] }
theorem wit_QueuePushAndKickResult_push : copyQ.me.opens 0 ∧ copyQ.MemOk ∧ copyQ.Calm ∧ copyQ.me.wake = none ∧ copyQ.watches = [] ∧
    copyQ.me.sp.getLsbD (9 : UReg).val = false ∧ copyQ.me.sp.getLsbD (10 : UReg).val = false ∧
    copyQ.snaps false copyQ.me.s[(9 : UReg)] 64 64 (hdrBytes 15 0 0) (snapState copyQ false (w (ls 0x800)) 64) ∧
    (snapState copyQ false (w (ls 0x800)) 64).snaps false copyQ.me.s[(10 : UReg)] 64 64 (copyPkt 1)
      (snapState (snapState copyQ false (w (ls 0x800)) 64) false (w (ls 0xC00)) 64) ∧
    (parseHdr (hdrBytes 15 0 0)).sound = true ∧ (parseHdr (hdrBytes 15 0 0)).serveOk copyQ.mode = true ∧
    isWindow copyQ.me.s[(9 : UReg)].toNat = true ∧ (winOf copyQ.me.s[(9 : UReg)].toNat).kind < 2 ∧
    (winOf copyQ.me.s[(9 : UReg)].toNat).die = copyQ.me.loc.core.die ∧ copyQ.clears true copyQ.me.s[(9 : UReg)].toNat 8 ∧
    ((BitVec.ofNat 64 (copyQ.num (ls 0x800) 8) : W64) - BitVec.ofNat 64 (copyQ.num (ls 0x800 + 8) 8)).toNat < (parseHdr (hdrBytes 15 0 0)).cap ∧
    ls 0x1000 + 64 * 15 < 2 ^ 64 ∧ isWindow (ls 0x1000 + 64 * 15) = true ∧ (winOf (ls 0x1000 + 64 * 15)).kind < 2 ∧ copyQ.clears true (ls 0x1000 + 64 * 15) 8 :=
  ⟨opens0 _, memOk_of _ (by decide), calm_of _ (by decide), by decide, by decide, by decide, by decide, snaps_of _ _ _ _ _ _ (by decide),
    snaps_of _ _ _ _ _ _ (by decide),
    by decide, by decide, by decide, by decide, by decide, clears_of _ _ _ _ (by decide), by decide, by decide, by decide, by decide, clears_of _ _ _ _ (by decide)⟩
theorem wit_QueuePushAndKickResult_kick : ∀ x ∈ [(copyQ, 0), (userQ, 0x800003FF), (userSlot, 0x800003FF)], x.1.me.opens 0 ∧ x.1.Calm ∧ x.1.me.wake = none ∧
    x.1.me.sp.getLsbD (9 : UReg).val = false ∧
    x.1.snaps false x.1.me.s[(9 : UReg)] 64 64 (hdrBytes 15 0 x.2) (snapState x.1 false x.1.me.s[(9 : UReg)] 64) ∧ (parseHdr (hdrBytes 15 0 x.2)).sound = true ∧
    (parseHdr (hdrBytes 15 0 x.2)).serveOk x.1.mode = true ∧ (x.1.cluster (parseHdr (hdrBytes 15 0 x.2)).engine).kicked.length < 64 ∧
    (snapState x.1 false x.1.me.s[(9 : UReg)] 64).clears true (x.1.me.s[(9 : UReg)] + 32).toNat 8 ∧
    (snapState x.1 false x.1.me.s[(9 : UReg)] 64).accepts (x.1.me.s[(9 : UReg)] + 32) := by
  intro x hx
  fin_cases hx <;> exact ⟨opens0 _, calm_of _ (by decide), by decide, by decide, snaps_of _ _ _ _ _ _ (by decide), by decide, by decide, by decide,
    clears_of _ _ _ _ (by decide), accepts_of _ _ (by decide)⟩
theorem wit_QueuePushAndKickResult_slots : (parseHdr (hdrBytes 15 0 0)).user = false ∧ (parseHdr (hdrBytes 15 0 0x800003FF)).user = true ∧
    userQ.slotOf 1023 = none ∧ userSlot.slotOf 1023 = some 63 ∧ (userSlot.slot 63).drain = false := by decide


/-! ### Witnesses: futures, scopes, the running task -/

def hP : W64 := mkHandle 0 ⟨0, 0⟩ 6 1
def promise : Fut := { Fut.new hP 0 .running none none 0 with promise := true, waiters := [⟨⟨0, 0, 0⟩, 1⟩] }
def waiter : TG := { other with task := mkHandle 0 ⟨0, 0⟩ 7 1, status := .parked 1 hP }
/-- The handle of a future in s4 and in compact register c4. -/
def futS (f : Fut) : State := { setR base 4 hP with futs := [f], tgs := [waiter] }
theorem wit_FutureReadResult : ∀ st ∈ [FSt.resolved, .cancelled, .faulted, .running],
    let f := { promise with st := st }
    let s := futS f
    s.me.opens 0 ∧ s.me.phase = .start ∧ s.me.wake = none ∧ s.me.sp.getLsbD (4 : UReg).val = false ∧ s.me.s[(4 : UReg)] = f.h ∧
      s.fut f.h = some f ∧ f.spilled = none ∧ f.ending = none ∧ hKind f.h = 1 ∧ hDevice f.h = s.devid ∧ hTable f.h = s.me.loc.core.cluster ∧
      PartMode.hasCluster s.mode (hTable f.h) = true ∧ (((4 : CReg).castLE (Nat.le_of_ble_eq_true rfl) : UReg) = 4) ∧
      s.task f.h = none ∧ s.me.k10 = false ∧ f.waiters.length + f.far.length < 4 ∧ s.me.loc ∉ f.waiters := by
  intro st hst
  exact ⟨opens0 _, by fin_cases hst <;> decide⟩
def hNone : W64 := mkHandle 0 ⟨0, 0⟩ 6 2
/-- Handles of no kind, of this device and of another, of a cluster that the partition does not have, and of a generation that is gone; the
thread group's own cluster is cluster 0. -/
theorem wit_StaleHandleTraps : ∀ c ∈ [(setR base 4 0, true, true), (setR base 4 (mkHandle 3 ⟨1, 2⟩ 6 1 + 1), true, true),
      (setR base 4 (mkHandle 0 ⟨0, 31⟩ 6 1), false, false), (setR base 4 (mkHandle 0 ⟨15, 0⟩ 6 1), false, false), (setR base 4 hNone, false, true)],
    let s := c.1
    let h := s.me.s[(4 : UReg)]
    s.me.opens 0 ∧ s.Calm ∧ s.me.wake = none ∧ s.me.sp.getLsbD (4 : UReg).val = false ∧ s.me.sp.getLsbD (5 : UReg).val = false ∧
      PartMode.hasCluster s.mode s.me.loc.core.cluster = true ∧ (hKind h ≠ 1) = c.2.1 ∧
      (hKind h = 1 → hDevice h = s.devid ∧ PartMode.hasCluster s.mode (hTable h) = c.2.2 ∧
        (c.2.2 = true → hTable h = s.me.loc.core.cluster ∧ s.fut h = none)) := by
  intro c hc
  fin_cases hc <;> exact ⟨opens0 _, calm_of _ (by decide), by decide⟩
theorem wit_FutureSettleResult : ∀ f ∈ [promise, { promise with detached := true }, { promise with st := .resolved }],
    let s := futS f
    s.me.opens 0 ∧ s.Calm ∧ s.me.wake = none ∧ s.me.sp.getLsbD (4 : UReg).val = false ∧ s.me.s[(4 : UReg)] = f.h ∧ s.fut f.h = some f ∧
      f.spilled = none ∧ f.ending = none ∧ hKind f.h = 1 ∧ hDevice f.h = s.devid ∧ hTable f.h = s.me.loc.core.cluster ∧
      PartMode.hasCluster s.mode (hTable f.h) = true ∧ (∀ k o, s.me.status ≠ .parked k o) ∧ s.me.loc ∉ f.waiters ∧
      (∀ w ∈ f.waiters, ∀ x, s.tgAt w = some x → x.wake = none) ∧ s.me.sp.getLsbD (5 : UReg).val = false ∧ s.task f.h = none := by
  have hw : ∀ f ∈ [promise, { promise with detached := true }, { promise with st := .resolved }],
      ∀ w ∈ f.waiters, (futS f).tgAt w = some waiter := by
    intro f hf
    fin_cases hf <;> simp [promise] <;> rfl
  intro f hf
  refine ⟨opens0 _, calm_of _ ?_, ?_, ?_, ?_, ?_, ?_, ?_, ?_, ?_, ?_, ?_, awake_of _ ?_, ?_, fun w hwt x hx => ?_, ?_, ?_⟩
  rotate_right 3
  · rw [hw f hf w hwt] at hx
    cases hx
    rfl
  all_goals fin_cases hf <;> decide

/-- Task of a handle, in a state of the scheduler. -/
def someTask (h : W64) (st : TaskSt) : Task :=
  { (SpawnInfo.task ⟨0, 0x2000, 0x0000040100000000, [1, 2, 3, 4], true, []⟩ ⟨0, false, 2, 0xFFFFFFFF, 0, none, ⟨0, 0, 0⟩, 0⟩ h ⟨0, 0⟩ 9) with st := st, scope := none }
def taskS (st : TaskSt) (fs : FSt) : State := { futS { Fut.new hP 0 fs none none 0 with waiters := [] } with tasks := [someTask hP st], tgs := [{ other with task := hP }] }
theorem noWaiters (s : State) (h : s.ctxs = []) (a : Half) (i : Nat) : (s.scope a i).waiters = [] := by
  unfold State.scope State.ctx
  rw [h]
  unfold Ctx.scope
  by_cases hi : i = 0 <;> simp [kget, kfind, Ctx.zero, hi]
theorem wit_CancelOfATask : ∀ c ∈ [(TaskSt.queued, FSt.queued), (.running, .running)],
    let s := taskS c.1 c.2
    let f := { Fut.new hP 0 c.2 none none 0 with waiters := [] }
    s.me.opens 0 ∧ s.Calm ∧ s.me.wake = none ∧ s.me.sp.getLsbD (4 : UReg).val = false ∧ s.me.s[(4 : UReg)] = f.h ∧ s.fut f.h = some f ∧
      f.spilled = none ∧ f.ending = none ∧ f.detached = false ∧ (∀ k o, s.me.status ≠ .parked k o) ∧ s.me.loc ∉ f.waiters ∧
      (∀ i, s.me.loc ∉ (s.scope (someTask hP c.1).asid i).waiters) ∧ hKind f.h = 1 ∧ hDevice f.h = s.devid ∧ hTable f.h = s.me.loc.core.cluster ∧
      PartMode.hasCluster s.mode (hTable f.h) = true ∧ f.st.terminal = false ∧ s.task f.h = some (someTask hP c.1) ∧ s.me.task ≠ f.h := by
  intro c hc
  refine ⟨opens0 _, calm_of _ ?_, ?_, ?_, ?_, ?_, ?_, ?_, ?_, awake_of _ ?_, ?_, fun i => ?_, ?_⟩
  rotate_right 2
  · rw [noWaiters (taskS c.1 c.2) rfl]
    exact List.not_mem_nil
  all_goals fin_cases hc <;> decide

/-- A descriptor: entry 0x2000, four uniform and eight vector registers, scope 0, same-cluster placement, class 2; arguments 1 to 4. -/
def descBytes : List Byte := layout 64 [(0, 8, 0x2000), (8, 8, 0x0000040100000048), (16, 8, 1), (24, 8, 2), (32, 8, 3), (40, 8, 4)]
def spawnS : State := store (setR base 4 (w (ls 0x800))) (ls 0x800) descBytes
def spawnU : State := (spawnS.begun.snapTask ⟨0, 0⟩ spawnS.begun.meAgent (w (ls 0x800))).1
def spawnI : SpawnInfo := ⟨w (ls 0x800), 0x2000, 0x0000040100000048, [1, 2, 3, 4], true, []⟩
theorem wit_SpawnAndPromiseResult : spawnS.me.opens 0 ∧ spawnS.Calm ∧ spawnS.me.wake = none ∧ spawnS.me.k10 = false ∧
    (spawnS.me.sp.getLsbD (4 : UReg).val = false ∧ spawnS.begun.snapTask ⟨0, 0⟩ spawnS.begun.meAgent spawnS.me.s[(4 : UReg)] = (spawnU, .ok spawnI) ∧
      spawnU.freeEntry ⟨0, 0⟩ false = some (0, 1) ∧ spawnI.bad spawnS.mode ⟨0, 0⟩ spawnS.me.det = none ∧
      (spawnU.scope spawnS.ctxAsid (fwScope spawnI.flag)).st = .open_) ∧
    spawnS.freeEntry ⟨0, 0⟩ false = some (0, 1) := by
  refine ⟨opens0 _, calm_of _ (by decide), by decide, by decide, ⟨by decide, Prod.ext rfl ?_, by decide, by decide, by decide⟩, by decide⟩
  have h : (match (spawnS.begun.snapTask ⟨0, 0⟩ spawnS.begun.meAgent spawnS.me.s[(4 : UReg)]).2 with | .ok i => i == spawnI | .error _ => false) = true := by decide
  split at h
  · rename_i i hi
    rw [hi, beq_iff_eq.mp h]
  · cases h

/-- Scopes: 1 OPEN under 0 and counting n, 2 CLOSED and counting 1, 3 DONE; a = the id in s4. -/
def scopes (n : Nat) (a : W64) : State :=
  { setR base 4 a with ctxs := [(0, { Ctx.zero with scopes := [(0, ⟨.open_, none, 1, []⟩), (1, ⟨.open_, some 0, n, []⟩), (2, ⟨.closed, some 0, 1, []⟩), (3, ⟨.done, some 0, 0, []⟩)] })] }
def fullScopes : State := { setR base 4 0 with ctxs := [(0, { Ctx.zero with scopes := (List.range 256).map fun i => (i, ⟨.open_, some 0, 1, []⟩) })] }
theorem wit_ScopeResult : (∀ s ∈ [scopes 1 0, scopes 1 255, scopes 1 256, scopes 0 1, scopes 1 1, scopes 1 2, scopes 1 3, fullScopes],
      s.me.opens 0 ∧ s.Calm ∧ s.me.wake = none ∧ s.me.sp.getLsbD (4 : UReg).val = false ∧ s.me.k10 = false ∧ s.ctxAsid = 0) ∧
    255 < (scopes 1 256).me.s[(4 : UReg)].toNat ∧ ((scopes 1 2).scope 0 2).st ≠ .open_ ∧ (∀ j < 256, (fullScopes.scope 0 j).st ≠ .free) ∧
    ((scopes 1 1).scope 0 1).st = .open_ ∧ ((scopes 1 1).scope 0 4).st = .free ∧ (∀ j < 4, ((scopes 1 1).scope 0 j).st ≠ .free) ∧
    ((scopes 1 1).scope 0 1).count ≠ 0 ∧ ((scopes 1 255).scope 0 255).st = .free ∧ ((scopes 1 3).scope 0 3).st = .done ∧
    ((scopes 0 1).scope 0 1).count = 0 ∧
    ¬(((scopes 1 2).scope 0 2).st = .free ∨ ((scopes 1 2).scope 0 2).st = .done ∨ ((scopes 1 2).scope 0 2).count = 0) := by
  refine ⟨fun s hs => ?_, by decide, by decide, by decide, by decide, by decide, by decide, by decide, by decide, by decide, by decide, by decide⟩
  fin_cases hs <;> exact ⟨opens0 _, calm_of _ (by decide), by decide⟩

/-- A promise in scope 1, one in no scope. -/
def deep : State := { scopes 1 1 with futs := [{ promise with scope := some 1, waiters := [] }, { promise with h := hNone, waiters := [] }] }
theorem wit_CancelDeepCountsAndCancels : deep.me.opens 0 ∧ deep.Calm ∧ deep.me.sp.getLsbD (4 : UReg).val = false ∧ deep.me.s[(4 : UReg)].toNat < 256 ∧
    (deep.scope 0 1).st = .open_ ∧ (deep.futs.map (·.h)).Nodup ∧ (∀ k o, deep.me.status ≠ .parked k o) ∧
    (∀ f ∈ deep.futs, f.spilled = none ∧ f.ending = none ∧ f.detached = false ∧ deep.task f.h = none ∧ deep.me.loc ∉ f.waiters) ∧ (deep.scopeTree 0 1).contains 1 = true ∧
    (∀ j ∈ deep.scopeTree 0 1, (deep.scope 0 j).st = .open_ → (deep.scope 0 j).count ≠ 0) :=
  ⟨opens0 _, calm_of _ (by decide), by decide, by decide, by decide, by decide, awake_of _ (by decide), by decide, by decide, by decide⟩

def mineF : Fut := Fut.new hT 0 .running none none 0
def mineK : Task := someTask hT .running
def last : State := { base with tasks := [mineK], futs := [mineF] }
def notLast : State := { last with tgs := [other] }
/-- A thread group of no task, and a handler activation of the core. -/
def handling : State := { base with me := { base.me with loc := ⟨⟨0, 0, 0⟩, 16⟩, task := 0 } }
/-- The first of two pieces ends; the other runs on, or has stopped with no store left. -/
def half : Task := { mineK with pieces := 2 }
def split (st : TStatus) : State := { last with tasks := [half], tgs := [{ other with loc := ⟨⟨0, 0, 1⟩, 0⟩, piece := 1, status := st }] }
/-- The second piece of two ends, and with it a task in scope 1 of a cluster of die 0, or of die 1, away from its entry. -/
def ending (q : ClId) : Task := { half with retiredPieces := [1], scope := some 1, queue := q }
def done_ (q : ClId) : State := { last with tasks := [ending q], ctxs := (scopes 2 0).ctxs }
theorem wit_RetireResult : (∀ s ∈ [handling, noTask, last, notLast, split .ready, split .stopped, done_ ⟨0, 0⟩, done_ ⟨1, 3⟩],
      s.me.opens 0 ∧ s.Calm ∧ s.me.status = .ready ∧ (∀ j : Fin 8, s.me.tok[j] = 0) ∧ (∀ o ∈ s.ops, o.tg = some s.me.loc → o.handles = [])) ∧
    (handling.me.loc.slot = 16 ∧ noTask.me.task = 0) ∧
    (∀ s ∈ [last, notLast, split .ready, split .stopped, done_ ⟨0, 0⟩, done_ ⟨1, 3⟩], s.me.loc.slot ≠ 16 ∧ s.me.task ≠ 0 ∧ s.me.tgid = 0 ∧
      s.me.piece = 0) ∧
    (∃ x ∈ notLast.tgs, (x.task = notLast.me.task ∧ x.loc ≠ notLast.me.loc ∧ x.status ≠ .stopped) ∧ x.piece = notLast.me.piece) ∧
    (∀ s ∈ [split .ready, split .stopped], (∀ x ∈ s.tgs, x.task = s.me.task ∧ x.loc ≠ s.me.loc ∧ x.status ≠ .stopped → x.piece ≠ s.me.piece) ∧
      s.task s.me.task = some half ∧ half.retiredPieces.length + 1 < half.pieces ∧ (∀ c ∈ s.cores, ∀ e ∈ c.2.fifo, e.task ≠ s.me.task)) ∧
    (∀ q ∈ [(⟨0, 0⟩ : ClId), ⟨1, 3⟩], let s := done_ q
      s.task s.me.task = some (ending q) ∧ (ending q).pieces ≤ (ending q).retiredPieces.length + 1 ∧
      (∀ x ∈ s.tgs, ¬(x.task = s.me.task ∧ x.loc ≠ s.me.loc ∧ x.status ≠ .stopped)) ∧
      (∀ c ∈ s.cores, ∀ e ∈ c.2.fifo, e.task ≠ s.me.task) ∧ s.fut s.me.task = some mineF ∧ mineF.st.terminal = false ∧ mineF.ending = none ∧
      mineF.spilled = none ∧ mineF.detached = false ∧ (∀ m ∈ s.futMsgs, m.h ≠ s.me.task) ∧
      (s.scope (ending q).asid 1).count ≠ 1) ∧
    hDie hT = (ending ⟨0, 0⟩).queue.die ∧ hDie hT ≠ (ending ⟨1, 3⟩).queue.die := by
  refine ⟨fun s hs => ?_, by decide, by decide, ⟨other, List.mem_singleton.mpr rfl, by decide, by decide⟩, by decide, by decide, by decide, by decide⟩
  fin_cases hs <;> exact ⟨opens0 _, calm_of _ (by decide), by decide⟩
theorem wit_TaskControlResult : last.me.opens 0 ∧ last.me.sp.getLsbD (4 : UReg).val = false ∧ last.me.spMask = none ∧ last.me.stopping = false ∧
    last.task last.me.task = some mineK ∧ base.task base.me.task = none := ⟨opens0 _, by decide⟩


/-! ### Witnesses: messages, system registers, traps -/

/-- The word of core 0 of cluster 0 for a message of class 9 and LEN bytes. -/
def destW (len : Nat) : W64 := BitVec.ofNat 64 (9 * 2 ^ 24 + len)
/-- The word in s4, the offset in s5, the reply word in s6; the payload is the local store's last 64 bytes. -/
def sender (len off : Nat) : State := store (setR (setR (setR base 4 (destW len)) 5 (w off)) 6 0x123) (ls 0x3FFC0) [1, 2, 3, 4, 5, 6, 7, 8]
def sent (n : W64) : State := { sender 64 0x3FFC0 with me := { (sender 64 0x3FFC0).me with phase := { Phase.start with req := some 7 }, wake := some (.code n) } }
theorem wit_SendResult : (∀ s ∈ [sent 0, sent 2], s.me.opens 0 ∧ s.me.phase.req = some 7) ∧ (sent 2).me.wake = some (.code 2) ∧
    (∀ s ∈ [sender 64 0x3FFC0, sender 0 0x40000], s.me.opens 0 ∧ s.Calm ∧ s.me.wake = none ∧ s.me.sp.getLsbD (4 : UReg).val = false ∧
      s.me.sp.getLsbD (5 : UReg).val = false ∧ s.me.sp.getLsbD (6 : UReg).val = false ∧ (s.me.s[(4 : UReg)].toNat / 2 ^ 7) % 2 ^ 17 = 0 ∧
      s.me.s[(4 : UReg)].toNat % 128 ≤ 64 ∧ (s.me.s[(4 : UReg)].toNat / 2 ^ 24) % 64 ≠ 0 ∧ hDevice s.me.s[(4 : UReg)] = s.devid ∧
      PartMode.hasCore s.mode (dwCore s.me.s[(4 : UReg)]) = true ∧ s.me.s[(5 : UReg)].toNat % 8 = 0 ∧
      s.me.s[(5 : UReg)].toNat + s.me.s[(4 : UReg)].toNat % 128 ≤ 2 ^ 18 ∧
      s.bad (localAddr s.me.loc.core s.me.s[(5 : UReg)].toNat) (s.me.s[(4 : UReg)].toNat % 128) = false) := by
  refine ⟨fun s hs => ?_, by decide, fun s hs => ?_⟩
  · fin_cases hs <;> exact ⟨opens0 _, by decide⟩
  · fin_cases hs <;> exact ⟨opens0 _, calm_of _ (by decide), by decide⟩

def mail : Msg := ⟨3, ⟨0, 0, 0⟩, 9, 8, 0x11, 0x22, [1, 2, 3, 4, 5, 6, 7, 8], 0, none, none, true⟩
/-- Two messages listed; the offset 2 ^ 18 - 80 in s5, the mask in s6. -/
def receiver (mask : W64) : State := { setR (setR base 5 0x3FFB0) 6 mask with cores := [(⟨0, 0, 0⟩, { Core.zero with recvList := [{ mail with id := 2, cls := 8 }, mail] })] }
def htwrS (super : Bool) (asid : Half) : State :=
  let s := setR (setR base 4 63) 5 0x1FFFFFFFFFFFFFE
  { s with me := { s.me with super := super }, cores := [(⟨0, 0, 0⟩, { Core.zero with handlers := [(63, ⟨0x4000, asid, true⟩)] })] }
theorem wit_ReceiveAndHandlerResult : (∀ s ∈ [receiver 0, receiver 0x200, receiver 0x400], s.me.opens 0 ∧ s.me.sp.getLsbD (5 : UReg).val = false ∧
      s.me.sp.getLsbD (6 : UReg).val = false ∧ s.me.s[(5 : UReg)].toNat % 16 = 0 ∧ s.me.s[(5 : UReg)].toNat + 80 ≤ 2 ^ 18 ∧ s.me.wake = none ∧
      s.me.k10 = false ∧ (s.core s.me.loc.core).fifo = []) ∧
    ((receiver 0x200).core ⟨0, 0, 0⟩).recvList.find? (fun x => ((receiver 0x200).me.s[(6 : UReg)]).getLsbD x.cls) = some mail ∧
    ((receiver 0x400).core ⟨0, 0, 0⟩).recvList.find? (fun x => ((receiver 0x400).me.s[(6 : UReg)]).getLsbD x.cls) = none ∧
    (∀ s ∈ [htwrS true 5, htwrS false 0, htwrS false 5], s.me.opens 0 ∧ s.me.sp.getLsbD (4 : UReg).val = false ∧ s.me.sp.getLsbD (5 : UReg).val = false ∧
      handlerBad s.me.s[(4 : UReg)] s.me.s[(5 : UReg)] = false ∧ (kget ⟨0, 0, false⟩ (s.core s.me.loc.core).handlers s.me.s[(4 : UReg)].toNat).value ≠ 0) ∧
    (htwrS true 5).me.super = true ∧ (htwrS false 0).me.asid = 0 ∧ (htwrS false 5).me.super = false ∧ (htwrS false 5).me.asid ≠ 5 := by
  refine ⟨fun s hs => ?_, by decide, by decide, fun s hs => ?_, by decide⟩ <;> fin_cases hs <;> exact ⟨opens0 _, by decide⟩
theorem wit_SystemRegisterReadResult : base.me.opens 0 ∧ last.me.opens 0 ∧ last.task last.me.task = some mineK ∧ base.task base.me.task = none ∧
    base.me.super = true ∧ base.evq = [] ∧ base.evDropped = 0 ∧
    ({ base with evq := [⟨0x12, 3, 4⟩] } : State).evq = ⟨0x12, 3, 4⟩ :: [] :=
  ⟨opens0 _, opens0 _, by decide, by decide, by decide, rfl, rfl, rfl⟩
/-- The address of an entry of the constant window. -/
def winWord (n : Byte) : W64 := BitVec.ofNat 64 (localAddr base.me.loc.core (4 * n.toNat))
theorem winWord_ok : ∀ n ∈ ([0, 223, 224, 255] : List Byte), okStore base 4 (winWord n) = true := by decide
theorem winWord_clears : ∀ n ∈ ([0, 223, 224, 255] : List Byte), base.clears true (winWord n).toNat 4 :=
  fun n hn => (store_of base 4 (winWord n) (winWord_ok n hn)).1
/-- The value in s4: the least and the greatest that each register takes. -/
theorem wit_SystemRegisterWriteResult : (∀ v ∈ [0, 254, 255, 1023], (setR base 4 v).me.opens 0 ∧ (setR base 4 v).me.sp.getLsbD (4 : UReg).val = false ∧
      (setR base 4 v).me.super = true) ∧ (0 : W64).toNat % 2 = 0 ∧ (255 : W64).toNat < 256 ∧ (1023 : W64).toNat < 1024 ∧ qctxTrap 0 = none ∧
    (([10, 26, 0x1FFFFFFFFFF001A] : List W64).all fun v => hamperOk v && !v.getLsbD 5) = true ∧
    (base.Calm ∧ ∀ n ∈ ([0, 223, 224, 255] : List Byte), base.clears true (winWord n).toNat 4) := by
  have hv : ∀ v : W64, (setR base 4 v).me.sp.getLsbD (4 : UReg).val = false ∧ (setR base 4 v).me.super = true :=
    fun _ => ⟨(by decide : base.me.sp.getLsbD (4 : UReg).val = false), (by decide : base.me.super = true)⟩
  exact ⟨fun v _ => ⟨opens0 _, hv v⟩, by decide, by decide, by decide, by decide, by decide, calm_of _ (by decide), winWord_clears⟩

def trapping (super : Bool) (cause : W64) : State := { base with me := { base.me with super := super, trapBase := 0x8000, trapCause := cause, trapPc := 0x2000 } }
def debugged : State := { trapping true 0 with mgmt := { (trapping true 0).mgmt with debug := 2 } }
theorem wit_TrapTaken : ∀ s ∈ [trapping true 0, trapping false 0, debugged], s.me.opens 0 ∧ bitOf s.me.trapCause.toNat 8 = false ∧
    s.me.trapBase ≠ 0 ∧ (s.mgmt.debug = 2 → s.mgmt.brkHalt = false) := by
  intro s hs
  fin_cases hs <;> exact ⟨opens0 _, by decide⟩
def dying : State := { last with me := { last.me with trapBase := 0x8000, trapCause := 0x100 } }
/-- A copy of the task is under way. -/
def draining : State := { last with ops := [{ last.mkOp (.copy 1) (some 7) [] 0 [] [] with id := 9 }] }
theorem wit_UnhandledTrapKills : (∀ s ∈ [last, dying, draining], (bitOf s.me.trapCause.toNat 8 = true ∨ s.me.trapBase = 0) ∧ s.me.loc.slot ≠ 16 ∧
      s.me.task ≠ 0 ∧ s.me.status ≠ .free ∧ s.task s.me.task = some mineK ∧ mineK.scope = none ∧ mineK.dying = false ∧
      s.fut s.me.task = some mineF ∧ mineF.st.terminal = false ∧ mineF.detached = false ∧ mineF.spilled = none ∧ mineF.ending = none ∧
      hDie s.me.task = s.me.loc.core.die ∧ ∀ m ∈ s.futMsgs, m.h ≠ s.me.task) ∧
    (∀ s ∈ [last, dying], (∀ o ∈ s.ops, o.task ≠ s.me.task) ∧ s.taskStored s.me.task = true) ∧
    (∃ o ∈ draining.ops, o.task = draining.me.task) ∧ (∀ o ∈ draining.ops, o.task = draining.me.task → ∃ n, o.kind = .copy n) :=
  ⟨by decide, by decide, by decide, fun o ho _ => by rw [List.mem_singleton.mp ho]; exact ⟨1, rfl⟩⟩
theorem wit_TrapReturnResult : (∀ s ∈ [trapping true 0x300, trapping false 0x100], s.me.opens 0 ∧ (s.me.super = true ∨ s.me.trapCause.getLsbD 9 = false) ∧
      s.me.trapPc.toNat % 2 = 0 ∧ s.me.trapPc.toNat < 2 ^ 57 ∧ s.me.spMask = none ∧ s.me.stopping = false) ∧
    ((trapping false 0x300).me.super = false ∧ (trapping false 0x300).me.trapCause.getLsbD 9 = true) ∧
    (({ trapping true 0 with me := { (trapping true 0).me with trapPc := 0x2001 } } : State).me.trapPc.toNat % 2 = 1) := by
  refine ⟨fun s hs => ?_, by decide, by decide⟩
  fin_cases hs <;> exact ⟨opens0 _, by decide⟩

def userS : State := { base with me := { base.me with super := false } }
def detS : State := { base with me := { base.me with det := true } }
theorem wit_PrivilegeAndAccessTraps : (userS.me.super = false ∧ 224 ≤ (224 : Byte).toNat ∧ 224 ≤ (255 : Byte).toNat ∧ (13 : KReg).val = 13 ∧ (23 : SysReg).val = 23) ∧
    (detS.me.opens 0 ∧ detS.me.det = true) :=
  ⟨by decide, opens0 _, rfl⟩
/-- The address in s4: one past the last, a misaligned one, a supervisor's window, and one under a range lock. -/
def at4 (s : State) (a : W64) : State := setR s 4 a
def lockedS : State := { at4 base (w (ls 0x400)) with clusters := [(⟨0, 0⟩, { Cluster.zero with locks := [⟨0, 3, none, 0, [⟨ls 0x400, ls 0x500⟩], [⟨ls 0x400, ls 0x500⟩]⟩] })] }
def privS : State := at4 userS (BitVec.ofNat 64 (2 ^ 63 + 4 * 2 ^ 60))
def poisonS : State := { base with me := { base.me with sp := 16 } }
theorem wit_PrivilegeAndAccessTraps_uniform :
    (∀ s ∈ [poisonS, at4 base (2 ^ 57), at4 base (2 ^ 57 - 7), privS, lockedS], s.me.opens 0 ∧ s.me.phase = .start ∧ s.me.det = false) ∧
    poisonS.me.sp.getLsbD (4 : UReg).val = true ∧
    (∀ s ∈ [at4 base (2 ^ 57), at4 base (2 ^ 57 - 7), privS, lockedS], s.me.sp.getLsbD (4 : UReg).val = false) ∧
    (∀ t ∈ [true, false], addrCheck (at4 base (2 ^ 57)).mode (at4 base (2 ^ 57)).me.super t (2 ^ 57) 8 = .address ∧
      addrCheck privS.mode privS.me.super t (privS.me.s[(4 : UReg)]).toNat 8 = .priv) ∧
    addrCheck base.mode base.me.super false (2 ^ 57 - 7) 8 = .ok ∧ (2 ^ 57 - 7) % 8 ≠ 0 ∧
    (∀ u ∈ [LockUse.load, .store], lockedS.lockHit ⟨0, 0⟩ 0 u (w (ls 0x400)).toNat 8 = some 0) := by
  refine ⟨fun s hs => ?_, by decide, by decide, by decide, by decide, by decide, by decide⟩
  fin_cases hs <;> exact ⟨opens0 _, by decide⟩
/-- A user's stores start at the words of the constant window that are the supervisor's. -/
def privLanes : State := at4 userS (w (ls 896))
/-- Lane 31 of a unit-stride access is the first beyond the device's addresses; lane 0 is misaligned; lane 0 is the supervisor's. -/
theorem wit_PrivilegeAndAccessTraps_lanes :
    (∀ s ∈ [at4 base (2 ^ 57 - 124), at4 base 0x1001, privLanes, poisonS], s.me.opens 0 ∧ s.me.phase = .start ∧ s.me.x.getLsbD (31 : Fin 32).val = true) ∧
    (let s := at4 base (2 ^ 57 - 124)
     (∀ m : Fin 32, m < 31 → addrCheck s.mode s.me.super false (s.me.s[(4 : UReg)] + BitVec.ofNat 64 (4 * m.val)).toNat 4 = .ok) ∧
      addrCheck s.mode s.me.super false (s.me.s[(4 : UReg)] + BitVec.ofNat 64 (4 * 31)).toNat 4 = .address) ∧
    (let s := at4 base 0x1001
     (∀ m : Fin 32, addrCheck s.mode s.me.super false (s.me.s[(4 : UReg)] + BitVec.ofNat 64 (4 * m.val)).toNat 4 = .ok) ∧
      (s.me.s[(4 : UReg)] + BitVec.ofNat 64 (4 * 0)).toNat % 4 ≠ 0) ∧
    addrCheck privLanes.mode privLanes.me.super true (privLanes.me.s[(4 : UReg)] + BitVec.ofNat 64 (4 * 0)).toNat 4 = .priv := by
  refine ⟨fun s hs => ?_, by decide, by decide, by decide⟩
  fin_cases hs <;> exact ⟨opens0 _, by decide⟩

/-- A supervisor looks at a task that runs, with k10 clear, and at one that is saved, whose area is at 0x4000 of the page at 0. -/
def areaS (t : Task) : State := { setR (setR { futS { Fut.new hP 0 .running none none 0 with st := .running } with tasks := [t] } 4 hP) 5 0x4000 with
  mem := memPut 0x504000 (bytesOf 4 0x56535844 ++ bytesOf 2 1 ++ bytesOf 2 0 ++ bytesOf 8 hP.toNat) base.mem }
def runs : State := areaS (someTask hP .running)
def sleeps : State := areaS (someTask hP .saved)
def noneThere : State := { runs with tasks := [] }
theorem wit_SupervisorFormsResult : (∀ s ∈ [runs, sleeps, noneThere], s.me.opens 0 ∧ s.me.super = true ∧ s.me.sp.getLsbD (4 : UReg).val = false ∧
      s.me.sp.getLsbD (5 : UReg).val = false ∧ s.stale s.me.s[(4 : UReg)] = none ∧ hDevice s.me.s[(4 : UReg)] = s.devid ∧
      (∀ t ∈ [true, false], addrCheck s.mode true t (s.me.s[(5 : UReg)]).toNat 1 = .ok) ∧ (s.me.s[(5 : UReg)]).toNat % 4096 = 0 ∧ s.me.wake = none ∧
      (s.fut s.me.s[(4 : UReg)]).isSome = true) ∧
    (noneThere.task hP = none ∧ noneThere.settling hP = false) ∧
    (runs.task hP = some (someTask hP .running) ∧ (someTask hP .running).preempt = none ∧ (someTask hP .running).dying = false ∧
      runs.me.k10 = false ∧ runs.me.task ≠ hP ∧ runs.fut hP = some (Fut.new hP 0 .running none none 0)) ∧
    (sleeps.task hP = some (someTask hP .saved) ∧
      (match sleeps.readBytes { sleeps.meAgent with super := true } 0x4000 16 with
       | .ok bs => bs.all (fun b => !b.2) && headOk (bs.map (·.1)) hP
       | .error _ => false) = true) ∧
    (∀ n : W64, ({ runs with me := { runs.me with wake := some (.code n) } } : State).me.wake = some (.code n)) := by
  refine ⟨fun s hs => ?_, by decide, by decide, by decide, fun n => rfl⟩
  fin_cases hs <;> exact ⟨opens0 _, by decide⟩
/-- An area beyond the device's addresses, one that is not aligned, and one in a window that may only be read. -/
def areaAt (a : W64) : State := setR runs 5 a
theorem wit_SupervisorFormsResult_area : (∀ s ∈ [areaAt (2 ^ 57), areaAt 0x4008, areaAt (BitVec.ofNat 64 (2 ^ 63 + 2 * 2 ^ 60))],
      s.me.opens 0 ∧ s.me.super = true ∧ s.me.sp.getLsbD (4 : UReg).val = false ∧ s.me.sp.getLsbD (5 : UReg).val = false ∧
      s.stale s.me.s[(4 : UReg)] = none ∧ hDevice s.me.s[(4 : UReg)] = s.devid ∧ s.me.wake = none ∧ s.fut hP = some (Fut.new hP 0 .running none none 0)) ∧
    addrCheck (areaAt (2 ^ 57)).mode true false (2 ^ 57) 1 ≠ .ok ∧ (addrCheck (areaAt 0x4008).mode true false 0x4008 1 = .ok ∧ 0x4008 % 4096 ≠ 0) ∧
    (let s := areaAt (BitVec.ofNat 64 (2 ^ 63 + 2 * 2 ^ 60))
     addrCheck s.mode true false (s.me.s[(5 : UReg)]).toNat 1 = .ok ∧ (s.me.s[(5 : UReg)]).toNat % 4096 = 0 ∧
      s.task hP = some (someTask hP .running) ∧ s.me.k10 = false ∧ addrCheck s.mode true true (s.me.s[(5 : UReg)]).toNat 1 ≠ .ok) := by
  refine ⟨fun s hs => ?_, by decide, by decide, by decide⟩
  fin_cases hs <;> exact ⟨opens0 _, by decide⟩
/-- REPLAY names the window of the core itself, whose side log is not stopped. -/
def replays : State := at4 base (BitVec.ofNat 64 (2 ^ 63 + 4 * 2 ^ 60))
theorem wit_SupervisorFormsResult_replay : replays.me.opens 0 ∧ replays.me.super = true ∧ replays.me.sp.getLsbD (4 : UReg).val = false ∧
    (let h := (replays.me.s[(4 : UReg)]).toNat
     isWindow h = true ∧ (winOf h).kind = 4 ∧ (winOf h).off = 0 ∧ PartMode.hasCore replays.mode (winOf h).coreId = true ∧
       (replays.core (winOf h).coreId).stopped = false) ∧ replays.me.status ≠ .free ∧ replays.me.status ≠ .stopped := ⟨opens0 _, by decide⟩

/-! ### Witnesses: the schedulers and the tables of futures -/

/-- The result is a value. -/
def okE {α ε : Type} (x : Except ε α) : Bool := match x with | .ok _ => true | .error _ => false
theorem ok_of {α ε : Type} (x : Except ε α) (h : okE x = true) : ∃ a, x = .ok a := by
  cases x with
  | ok a => exact ⟨a, rfl⟩
  | error e => cases h
/-- The bytes are made and each of them has its place. -/
def okWrites (s : State) (g : Agent) (x : Except EFail (List BW)) : Bool :=
  match x with | .ok ws => okE (s.placeWrites g ws) | .error _ => false
theorem writes_of (s : State) (g : Agent) (x : Except EFail (List BW)) (h : okWrites s g x = true) :
    ∃ ws xs, x = .ok ws ∧ s.placeWrites g ws = .ok xs := by
  cases x with
  | ok ws => obtain ⟨xs, hx⟩ := ok_of _ h; exact ⟨ws, xs, rfl, hx⟩
  | error e => cases h

/-- A task that waits in a queue under the flag word, and a machine that holds it and its future. -/
def waitingTask (fw : W64) (st : TaskSt) (told : FSt) (fps : List Footprint) : Task :=
  { someTask hP st with flagWord := fw, told := told, fps := fps }
def sched (t : Task) (fst : FSt) : State := { base with tasks := [t], futs := [Fut.new hP 0 fst none none 0] }
def isFresh (s : State) (t : Task) (fst : FSt) : Prop :=
  let f := Fut.new hP 0 fst none none 0
  s.task t.handle = some t ∧ s.fut t.handle = some f ∧ f.spilled = none ∧ f.st.terminal = false ∧ f.ending = none ∧ t.dying = false ∧
    t.handle ≠ 0 ∧ (∀ g ∈ s.allTgs, g.task ≠ t.handle) ∧ ∀ m ∈ s.futMsgs, m.h ≠ t.handle
def tile0 : Footprint := ⟨w (ls 0x900), w (ls 0x1000), [0, 0, 0, 0], [4, 4, 1, 1], w (ls 0x2000), parseTMap srcMap, ringD, 0, false⟩
def tQueued : Task := waitingTask 0x0000040100000040 .queued .queued [tile0]
def tPrefetch : Task := waitingTask 0x0000040100000042 .prefetch .prefetch []
def tAnywhere : Task := waitingTask 0x00000401000000C0 .queued .queued []
theorem wit_SchedulerStepResult_reservation : isFresh (sched tQueued .queued) tQueued .queued ∧ (sched tQueued .queued).reservable tQueued = true ∧
    tQueued.told = .queued ∧ hDie tQueued.handle = tQueued.queue.die ∧
    (∀ k ∈ (sched tQueued .queued).tasks, k.queue = tQueued.queue → k.eff = tQueued.eff → k.order < tQueued.order →
      (sched tQueued .queued).reservable k = false) := by
  unfold isFresh
  decide
/-- The queue is on die 1, away from the entry. -/
def tAway : Task := { tQueued with queue := ⟨1, 0⟩ }
theorem wit_SchedulerStepResult_away : isFresh (sched tAway .queued) tAway .queued ∧ (sched tAway .queued).reservable tAway = true ∧
    hDie tAway.handle ≠ tAway.queue.die := by
  unfold isFresh
  decide
def tileOp : EngOp :=
  { base.mkOp (.footprint 0) none [] 0 [parseTMap srcMap] [] with id := 9, tg := none, task := hP, index := 3 }
def tiled : State := { copies with tasks := [tQueued], ops := [tileOp] }
theorem wit_SchedulerStepResult_tile : tiled.ops.find? (fun k => k.task == hP && k.kind == .footprint 0) = some tileOp ∧ tileOp.fault = none ∧
    tiled.task hP = some tQueued ∧ tQueued.fps[0]? = some tile0 ∧ tileOp.maps = [parseTMap srcMap] ∧
    tiled.ring tileOp.cl tileOp.asid none tile0.ring = some ringA ∧
    ∃ ws xs, tiled.slotTile tileOp (parseTMap srcMap) tile0.map tile0.origin tile0.extent ringA tileOp.index = .ok ws ∧
      tiled.placeWrites tileOp.agent ws = .ok xs :=
  ⟨by decide, by decide, by decide, by decide, by decide, by decide, writes_of _ _ _ (by decide)⟩
theorem wit_SchedulerStepResult_dispatch : isFresh (sched tPrefetch .prefetch) tPrefetch .prefetch ∧ (sched tPrefetch .prefetch).dispatchStopped = false ∧
    (sched tPrefetch .prefetch).plan tPrefetch = some [⟨0, 0, 0⟩] ∧ tPrefetch.told = .prefetch ∧ hDie hP = (0 : Nat) ∧ fwWidth tPrefetch.flagWord = 4 ∧
    turnPick ((sched tPrefetch .prefetch).cluster tPrefetch.queue).turn
      ((sched tPrefetch .prefetch).tasks.filter fun k => k.queue == tPrefetch.queue && (sched tPrefetch .prefetch).dispatchable k) = some tPrefetch := by
  unfold isFresh
  decide
theorem wit_SchedulerStepResult_steal : (sched tAnywhere .queued).offer ⟨0, 0⟩ = some tAnywhere ∧ (sched tAnywhere .queued).task hP = some tAnywhere ∧
    (sched tAnywhere .queued).mayStealFrom ⟨0, 5⟩ ⟨0, 0⟩ = true := by
  refine ⟨by decide, by decide, ?_⟩
  have hv : (sched tAnywhere .queued).computeClusters.filter (fun c => c != ⟨0, 5⟩ && ((sched tAnywhere .queued).offer c).isSome) = [⟨0, 0⟩] := by
    decide
  have hi : (!isGatewayDie 0 && PartMode.hasCluster (sched tAnywhere .queued).mode ⟨0, 5⟩ && ((sched tAnywhere .queued).cluster ⟨0, 5⟩).steal &&
      (sched tAnywhere .queued).idle ⟨0, 5⟩) = true := by decide
  have hn : nearer ⟨0, 5⟩ ⟨0, 0⟩ ⟨0, 0⟩ = true := decide_eq_true (le_refl _)
  unfold State.mayStealFrom
  simp only [hv, hi, Bool.true_and]
  simp [hn]
def raised : State := { sched tQueued .queued with raises := [(hP, 1)] }
def asleep (st : TStatus) : State := { base with tgs := [{ waiter with status := st, wake := some (.value 5 false) }] }
def sleeper (st : TStatus) : TG := { waiter with status := st, wake := some (.value 5 false) }
theorem wit_SchedulerStepResult_rest : (raised.raises.contains (hP, 1) = true ∧ raised.task hP = some tQueued ∧ (1 : Fin 4) < tQueued.inh ∧
      tQueued.st = .queued) ∧
    (∀ st, (asleep st).me.loc ≠ (sleeper st).loc ∧ (asleep st).tgAt (sleeper st).loc = some (sleeper st) ∧
      (sleeper st).wake = some (.value 5 false)) ∧
    (sleeper (.parked 1 hP)).isParked = true ∧ (0 : Nat) ≤ (asleep (.yielding 0)).cycle.toNat :=
  ⟨by decide, fun _ => ⟨(by decide : base.me.loc ≠ waiter.loc), rfl, rfl⟩, rfl, Nat.zero_le _⟩

/-- Reads and writes of a scratchpad's bytes succeed, however many. -/
theorem mapM_ok {α β ε : Type} (f : α → Except ε β) (l : List α) (h : ∀ x ∈ l, ∃ y, f x = .ok y) : ∃ ys, l.mapM f = .ok ys := by
  induction l with
  | nil => exact ⟨[], rfl⟩
  | cons a r ih =>
    obtain ⟨y, hy⟩ := h a (by simp)
    obtain ⟨ys, hys⟩ := ih (fun x hx => h x (by simp [hx]))
    exact ⟨y :: ys, by rw [List.mapM_cons, hy, hys]; rfl⟩
theorem mapM_all {α β ε : Type} (p : β → Prop) (f : α → Except ε β) (l : List α) (h : ∀ x ∈ l, ∃ y, f x = .ok y ∧ p y) :
    ∃ ys, l.mapM f = .ok ys ∧ ∀ y ∈ ys, p y := by
  induction l with
  | nil => exact ⟨[], rfl, fun y hy => by cases hy⟩
  | cons a r ih =>
    obtain ⟨y, hy, py⟩ := h a (by simp)
    obtain ⟨ys, hys, pys⟩ := ih (fun x hx => h x (by simp [hx]))
    exact ⟨y :: ys, by rw [List.mapM_cons, hy, hys]; rfl, fun z hz => (List.mem_cons.mp hz).elim (fun e => e ▸ py) (pys z)⟩
theorem placeWrites_ok (s : State) (g : Agent) (ws : List BW) (h : ∀ w ∈ ws, isWindow w.va = true ∧ ∃ a, s.byteAt g .store w.va = .ok a) :
    ∃ xs, s.placeWrites g ws = .ok xs := by
  obtain ⟨ys, hy, hp⟩ := mapM_all (fun y : Option (Nat × BW) => ∀ x, y = some x → s.splits g x.2.va = false)
    (fun w => do let a ← s.byteAt g .store w.va; return a.map (fun a => (a, w))) ws (fun w hw => by
    obtain ⟨hi, a, ha⟩ := h w hw
    refine ⟨a.map (fun a => (a, w)), by rw [ha]; rfl, fun x hx => ?_⟩
    cases a with
    | none => cases hx
    | some a => cases hx; unfold State.splits; rw [hi]; simp)
  have hf : ∀ x ∈ ys.filterMap id, s.splits g x.2.va = false := fun x hx => by
    obtain ⟨y, hy', e⟩ := List.mem_filterMap.mp hx
    exact hp y hy' x e
  refine ⟨(ys.filterMap id).filter (fun x => !((s.putsOf g).contains (x.2.va / 8) && s.splits g x.2.va)), ?_⟩
  have hz : ∀ p : Nat × BW → Bool, ((ys.filterMap id).filter p).filter (fun x => s.splits g x.2.va) = [] := fun p =>
    List.filter_eq_nil_iff.mpr fun x hx => by simp [hf x (List.mem_filter.mp hx).1]
  unfold State.placeWrites
  rw [hy]
  simp only [bind, Except.bind, pure, Except.pure, hz, List.find?_nil]
theorem sp_check (super : Bool) (wr : Bool) (k : Nat) (h : k < 2 ^ 22) : addrCheck .whole super wr (sp k) 1 = .ok := by
  have hs : sp k = 2 ^ 63 + k := by simp [sp, spadAddr]
  have hw : winOf (sp k) = ⟨0, 0, 0, 0, k⟩ := by
    rw [hs]
    unfold winOf fieldOf
    congr <;> omega
  have hi : isWindow (sp k) = true := by rw [hs]; exact decide_eq_true (by omega)
  unfold addrCheck winCheck
  rw [if_pos hi, hw]
  simp [PartMode.hasCluster, Win.cluster, spadBytes, isGatewayDie]
  exact ⟨rfl, by omega⟩
theorem sp_window (k : Nat) : isWindow (sp k) = true := decide_eq_true (by simp [sp, spadAddr])
theorem sp_byteAt (s : State) (g : Agent) (acc : Acc) (k : Nat) (hm : s.mode = .whole) (h : k < 2 ^ 22) : s.byteAt g acc (sp k) = .ok (some (sp k)) := by
  have hi : isWindow (sp k) = true := decide_eq_true (by simp [sp, spadAddr])
  unfold State.byteAt
  rw [hm, sp_check _ _ k h]
  simp [hi]


/-- Context 0, quiescent for 50 µs: its one task waits for a promise that nothing will settle; its hamper is at 0x8000. -/
def idleTask : Task := someTask hP .running
def deadS : State := { base with
  tasks := [idleTask], tgs := [{ waiter with task := hP, status := .parked 1 hNone }], ptp := 50000,
  futs := [Fut.new hP 0 .running none none 0, { promise with h := hNone, waiters := [⟨⟨0, 0, 0⟩, 1⟩] }],
  ctxs := [(0, { Ctx.zero with hbase := 0x8000, quietSince := some 0 })] }
/-- The report of its one wait, written to the area behind the hamper. -/
def deadW : State := deadS.hwWrite 0 ((deadS.ctx 0).reportArea) (layout 32 [(0, 8, hP.toNat), (8, 8, hNone.toNat), (16, 1, 1), (17, 1, 1)])
theorem wit_SaveAndQuiescenceStepResult_deadlock : (deadS.ctx 0).quietSince = some 0 ∧ (deadS.ctx 0).deadlocked = false ∧
    0 + 50000 ≤ deadS.ptp.toNat ∧ deadS.quiescent 0 = true ∧ deadS.waits 0 = [(hP, hNone, 1, 1)] ∧
    deadW.evq = deadS.evq ∧ deadW.evUsed = [] ∧ deadW.hwq = [] ∧ deadW.sup.darnBusy = false := by decide +kernel

/-- A task held after a group at a safe point whose mask marks nothing live; the area is in the scratchpad. -/
def request (forced : Bool) : Preempt := ⟨w (sp 0x10000), .csave base.me.loc, 0, 0, 3, forced⟩
def heldTg : TG := { other with task := hP, status := .held false, spMask := some 0, vregs := 8, uregs := 4 }
def saving : State := { base with
  me := { base.me with status := .parked 1 hP }, tasks := [{ idleTask with preempt := some (request false) }], tgs := [heldTg] }
def savingNow : State × List SaveTg := ((State.saveTgs false ((saving.tgsOf hP).map (·.loc)) saving).getD (saving, []))
/-- The image of less than a page has its place in the scratchpad. -/
def savingTask : Task := { idleTask with preempt := some (request false) }
def savingImage : PBytes := saving.pieceImage savingTask (request false) [(heldTg, 0, false)] false 0
theorem save_place : ∃ xs, saving.placeWrites (areaAgent 0 (saving.areaAsid (request false)) hP)
    (saving.saveWrites savingTask (request false) [(heldTg, 0, false)]) = .ok xs := by
  refine placeWrites_ok _ _ _ fun b hb => ?_
  have hl : savingImage.length ≤ 4096 := by decide +kernel
  have hs : ∀ k, sp k = 2 ^ 63 + k := fun k => by simp [sp, spadAddr]
  have ha : saving.accPieces savingTask (request false) [(heldTg, 0, false)] = [] := by decide +kernel
  have hw : saving.saveWrites savingTask (request false) [(heldTg, 0, false)] =
      imageWrites ((request false).area.toNat + 0) savingImage ++ [] := by
    unfold State.saveWrites State.saveImages
    rw [ha]
    rfl
  have ha : (request false).area.toNat = sp 0x10000 := by decide
  rw [hw, List.append_nil, ha] at hb
  obtain ⟨x, hx, rfl⟩ := List.mem_map.mp hb
  have := List.snd_lt_of_mem_zipIdx hx
  have he : sp 0x10000 + 0 + x.2 = sp (0x10000 + x.2) := by rw [hs, hs]; omega
  exact ⟨by rw [he]; exact sp_window _, _, by rw [he]; exact sp_byteAt _ _ _ _ rfl (by omega)⟩
theorem wit_SaveAndQuiescenceStepResult_save : saving.engWaits = [] ∧ saving.task hP = some { idleTask with preempt := some (request false) } ∧
    hP ≠ 0 ∧ State.saveTgs (request false).forced ((saving.tgsOf hP).map (·.loc)) saving = some (saving, [(heldTg, 0, false)]) ∧
    saving.drained hP = true ∧
    saving.engWords = [] ∧ (∃ xs, saving.placeWrites (areaAgent 0 (saving.areaAsid (request false)) hP)
      (saving.saveWrites savingTask (request false) [(heldTg, 0, false)]) = .ok xs) ∧
    saving.tgAt base.me.loc = some saving.me ∧ saving.me.status = .parked 1 hP ∧ (∀ z ∈ saving.tgsAll hP, z.loc ≠ base.me.loc) :=
  ⟨rfl, rfl, by decide, rfl, by decide +kernel, rfl, save_place, rfl, rfl, by decide +kernel⟩
/-- A million cycles later, with the thread group still running: it is told to stop. -/
def late : State := { saving with
  cycle := 1000000, tgs := [{ heldTg with status := .ready }] }
theorem wit_SaveAndQuiescenceStepResult_forced : (request false).since + 1000000 ≤ late.cycle.toNat ∧ late.taskHalted hP = false ∧
    late.task hP = some { idleTask with preempt := some (request false) } ∧
    (let stopped := (late.modTask hP (fun k => { k with preempt := some (request true) })).modTask_tgs hP TG.stop
     (State.saveTgs true ((stopped.tgsOf hP).map (·.loc)) stopped).isNone = true) := by decide +kernel
/-- One that waits for its turn stops at once, and all its registers are saved. -/
def lateY : State := { saving with
  cycle := 1000000, tgs := [{ heldTg with status := .yielding 5 }] }
def stopped : State := (lateY.modTask hP (fun k => { k with preempt := some (request true) })).modTask_tgs hP TG.stop
def stoppedTg : TG := { heldTg with stopping := true }
def forcedTask : Task := { idleTask with preempt := some (request true) }
def forcedGs : List SaveTg := [(stoppedTg, fullMask stoppedTg, false)]
def forcedImage : PBytes := stopped.pieceImage forcedTask (request true) forcedGs true 0
theorem bytesOf_len : ∀ k n, (bytesOf k n).length = k
  | 0, _ => rfl
  | k + 1, n => congrArg (· + 1) (bytesOf_len k (n / 256))
theorem flat_len {β : Type} (f : Nat → List β) (k n : Nat) (h : ∀ i, (f i).length = k) : ((List.range n).flatMap f).length = n * k := by
  rw [List.length_flatMap, List.map_congr_left (fun a _ => h a), List.map_const', List.sum_replicate, List.length_range, smul_eq_mul]
theorem tileRecord_len (t : Tile) : (tileRecord t none).length = 327744 := by
  unfold tileRecord
  rw [List.length_append, List.length_append, List.length_append, flat_len _ 16 _ (fun i => by rw [List.length_map]; exact bytesOf_len 16 _),
    flat_len _ 4 _ (fun i => by rw [List.length_map]; exact bytesOf_len 4 _), cleanB, cleanB, List.length_map, List.length_map, bytesOf_len]
  rfl
theorem pad_len (b : PBytes) : (pad256 b).length ≤ b.length + 256 := by
  simp only [pad256, zeroB, alignUp, List.length_append, List.length_replicate]
  omega
/-- The thread group's record, and the accumulators' behind it. -/
def forcedRec : PBytes := stopped.tgRecord stoppedTg (fullMask stoppedTg) false
theorem image_len (hdr : List (Nat × Nat × Nat)) (p r q : PBytes) (hp : p.length ≤ 512) (hr : r.length ≤ 65536) (hq : q.length = 655488) :
    (cleanB (layout 256 hdr) ++ (pad256 (p ++ r) ++ q).drop 256).length ≤ 2 ^ 20 := by
  have h1 := pad_len (p ++ r)
  rw [List.length_append] at h1
  rw [List.length_append, List.length_drop, List.length_append, cleanB, List.length_map, layout, bytesOf_len, hq]
  omega
theorem forced_len : forcedImage.length ≤ 2 ^ 20 := by
  have hr : forcedRec.length ≤ 65536 := by decide +kernel
  have h0 : (pad256 (zeroB 256)).length ≤ 512 := le_trans (pad_len _) (by rw [zeroB, List.length_replicate])
  obtain ⟨hdr, he⟩ : ∃ hdr, forcedImage = cleanB (layout 256 hdr) ++
      (pad256 (pad256 (zeroB 256) ++ forcedRec) ++ (tileRecord .zero none ++ tileRecord .zero none)).drop 256 := ⟨_, rfl⟩
  rw [he]
  exact image_len _ _ _ _ h0 hr (by rw [List.length_append, tileRecord_len])
theorem forced_place : ∃ xs, stopped.placeWrites (areaAgent 0 (stopped.areaAsid (request true)) hP)
    (stopped.saveWrites forcedTask (request true) forcedGs) = .ok xs := by
  refine placeWrites_ok _ _ _ fun b hb => ?_
  have hl := forced_len
  have hs : ∀ k, sp k = 2 ^ 63 + k := fun k => by simp [sp, spadAddr]
  have ha : stopped.accPieces forcedTask (request true) forcedGs = [0] := by decide +kernel
  have hw : stopped.saveWrites forcedTask (request true) forcedGs = imageWrites ((request true).area.toNat + 0) forcedImage ++ [] := by
    unfold State.saveWrites State.saveImages
    rw [ha]
    rfl
  have ha : (request true).area.toNat = sp 0x10000 := by decide
  rw [hw, List.append_nil, ha] at hb
  obtain ⟨x, hx, rfl⟩ := List.mem_map.mp hb
  have := List.snd_lt_of_mem_zipIdx hx
  have he : sp 0x10000 + 0 + x.2 = sp (0x10000 + x.2) := by rw [hs, hs]; omega
  exact ⟨by rw [he]; exact sp_window _, _, by rw [he]; exact sp_byteAt _ _ _ _ rfl (by omega)⟩
theorem wit_SaveAndQuiescenceStepResult_forcedSaves : lateY.engWaits = [] ∧ lateY.task hP = some savingTask ∧ savingTask.st = .running ∧
    (request false).since + 1000000 ≤ lateY.cycle.toNat ∧ lateY.taskHalted hP = false ∧
    State.saveTgs true ((stopped.tgsOf hP).map (·.loc)) stopped = some (stopped, forcedGs) ∧ forcedGs ≠ [] ∧ stopped.drained hP = true ∧
    stopped.task hP = some forcedTask ∧ stopped.engWords = [] ∧
    (∃ xs, stopped.placeWrites (areaAgent 0 (stopped.areaAsid (request true)) hP) (stopped.saveWrites forcedTask (request true) forcedGs) = .ok xs) :=
  ⟨rfl, rfl, rfl, by decide, by decide +kernel, rfl, List.cons_ne_nil _ _, by decide +kernel, rfl, rfl, forced_place⟩

/-- The task, saved in that area, is to come back: its header and its one record say no more than they must. -/
def comingTask : Task := { idleTask with st := .restoring, area := some (w (sp 0x10000), 0), aux := { Saved.none with homes := [(0, 1, 1)] } }
def imageHead : List Byte := layout 72 [(0, 4, 0x56535844), (4, 2, 1), (8, 8, hP.toNat), (25, 1, 2), (32, 8, 512)]
def coming : State := store { base with tasks := [comingTask] } (sp 0x10000) (imageHead ++ bytesOf 8 256)
def images : List (Nat × PBytes) := match coming.readImages comingTask (w (sp 0x10000)) 0 comingTask.savedPieces 0 with | .ok l => l | .error _ => []
theorem wit_SaveAndQuiescenceStepResult_resume : coming.engWaits = [] ∧ coming.task hP = some comingTask ∧ comingTask.st = .restoring ∧
    comingTask.area = some (w (sp 0x10000), 0) ∧ (∃ l, coming.readImages comingTask (w (sp 0x10000)) 0 comingTask.savedPieces 0 = .ok l) ∧
    images.map (·.1) = [0] ∧ imageTgs ((images.headD (0, [])).2) = [(1, 256)] ∧
    ((State.restoreAll comingTask comingTask.k10 images coming).bind (fun v => v.task hP)).isSome = true :=
  ⟨by decide, by decide, rfl, rfl, ok_of _ (by decide +kernel), by decide +kernel, by decide +kernel, by decide +kernel⟩

/-- The future's own cluster is the tests' one; a request of thread group 1 of the core asks for it. -/
def askWith (op : FutOp) (reply : Option Wake) : Req := ⟨5, none, ⟨⟨0, 0, 0⟩, 1⟩, op, hP, 7, false, 3, reply⟩
def lone : Fut := { promise with waiters := [] }
def asking (op : FutOp) (reply : Option Wake) : State :=
  { base with futs := [lone], reqs := [askWith op reply], tgs := [{ waiter with phase := { Phase.start with req := some 5 } }] }
def noteOf : FutMsg := ⟨6, hP, .state .running⟩
def noted : State := { base with futs := [Fut.new hP 0 .queued none none 0], futMsgs := [noteOf] }
theorem wit_FutureTableStepResult_requests :
    (hKind lone.h = 1 ∧ hDevice lone.h = (asking .poll none).devid ∧ PartMode.hasCluster (asking .poll none).mode (hTable lone.h) = true ∧
      lone.spilled = none ∧ lone.ending = none ∧ lone.st.terminal = false ∧ lone.detached = false ∧ (askWith .poll none).h = lone.h ∧
      (askWith .poll none).dev = none ∧ (1 : Nat) ≠ (asking .poll none).devid) ∧
    (∀ op ∈ [FutOp.poll, .resolve], (asking op none).fut lone.h = some lone ∧
      (asking op none).reqs.find? (fun r => r.id == 5) = some (askWith op none) ∧ (askWith op none).reply = none ∧ (asking op none).task lone.h = none) ∧
    (noted.reqs.find? (fun r => r.id == 6) = none ∧ noted.futMsgs.find? (fun y => y.id == 6) = some noteOf ∧
      noted.futMsgs.find? (fun y => y.h == hP) = some noteOf ∧ noted.fut hP = some (Fut.new hP 0 .queued none none 0)) := by decide
def replied : State := asking .poll (some (.code 3))
def replyTg : TG := { waiter with phase := { Phase.start with req := some 5 } }
theorem wit_FutureTableStepResult_reply : replied.reqs.find? (fun r => r.id == 5) = some (askWith .poll (some (.code 3))) ∧
    (askWith .poll (some (.code 3))).tg = replyTg.loc ∧ replied.me.loc ≠ replyTg.loc ∧ replied.tgAt replyTg.loc = some replyTg ∧
    replyTg.phase.req = some 5 ∧ replyTg.wake = none := ⟨by decide, rfl, by decide, rfl, rfl, rfl⟩

/-- A table with 192 entries free: 8,000 resident futures. -/
def crowd : State := { base with futs := (List.range 8000).map fun i => Fut.new (mkHandle 0 ⟨0, 0⟩ i 1) 0 .running none none 0 }
theorem handle_val (i : Nat) (h : i < 8000) : (mkHandle 0 ⟨0, 0⟩ i 1).toNat = i * 2 ^ 20 + 17 := by
  have hb : i * 2 ^ 20 + 17 < 2 ^ 64 := by omega
  rw [mkHandle, BitVec.toNat_ofNat, Nat.mod_eq_of_lt (by simpa using hb)]
  simp
theorem handle_table (i : Nat) (h : i < 8000) : hTable (mkHandle 0 ⟨0, 0⟩ i 1) = ⟨0, 0⟩ := by
  unfold hTable hDie hCluster fieldOf
  rw [handle_val i h]
  congr <;> omega
theorem wit_FutureTableStepResult_spill : crowd.freeEntries ⟨0, 0⟩ < 512 ∧ (crowd.resident ⟨0, 0⟩).length ≤ 8192 ∧
    (crowd.futs.map (·.h)).Nodup := by
  have hr : crowd.resident ⟨0, 0⟩ = crowd.futs := by
    refine List.filter_eq_self.mpr fun f hf => ?_
    obtain ⟨i, hi, rfl⟩ := List.mem_map.mp hf
    simp [Fut.new, handle_table i (List.mem_range.mp hi)]
  have hl : crowd.futs.length = 8000 := by simp [crowd]
  refine ⟨by rw [State.freeEntries, hr, hl]; omega, by rw [hr, hl]; omega, ?_⟩
  rw [crowd, List.map_map]
  refine List.Nodup.map_on (fun i hi j hj he => ?_) List.nodup_range
  have hv := congrArg BitVec.toNat (show mkHandle 0 ⟨0, 0⟩ i 1 = mkHandle 0 ⟨0, 0⟩ j 1 from he)
  rw [handle_val i (List.mem_range.mp hi), handle_val j (List.mem_range.mp hj)] at hv
  omega

/-- A spilled future whose record, the first of a hamper at 0, stands as the spill wrote it. -/
def gone : Fut := { lone with spilled := some 1 }
def refilling : State := { base with futs := [gone], mem := memPut 0x500020 (recordBytes hP) (memPut 0x500000 [1#8] base.mem), ctxs := [(0, { Ctx.zero with usedRecs := [1] })] }
theorem wit_FutureTableStepResult_refill : refilling.fut gone.h = some gone ∧ gone.spilled = some 1 ∧ (refilling.ctx gone.asid).moving = false ∧
    refilling.freePlace (hTable gone.h) 8176 0 = some 0 ∧ refilling.recordOk gone 1 = true ∧ refilling.hwq = [] := by
  refine ⟨rfl, rfl, rfl, by decide, ?_, rfl⟩
  have ha : refilling.hwAddr gone.asid true .load (refilling.recordAddr gone.asid 1) 32 = .at_ 0x500020 := by decide
  have hl : (recordBytes hP).length = 32 := by simp [recordBytes, bytesOf]
  have hm := memBytes_memPut 0x500020 (recordBytes hP) (memPut 0x500000 [1#8] base.mem) (by decide)
  rw [hl] at hm
  have hp : isPoisoned refilling.poison 0x500020 32 = false := by decide
  unfold State.recordOk
  rw [ha]
  simp [show refilling.mem = memPut 0x500020 (recordBytes hP) (memPut 0x500000 [1#8] base.mem) from rfl, show gone.h = hP from rfl, hm, hp]

/-- A thread group has waited 10 ms for an entry (R73). -/
def hungry : TG := { waiter with status := .parked 8 0 }
def starving : State := { base with tgs := [hungry], ptp := 10000000, ctxs := [(0, { Ctx.zero with moving := true })] }
def leave : ScopeMsg := ⟨4, hP, 0, 1⟩
/-- A hamper moves from 0 to 0x8000, with one record. -/
def moved : State := { base with futs := [gone], ctxs := [(0, { Ctx.zero with usedRecs := [1], moving := true, hbase := 0x8000 })] }
theorem wit_FutureTableStepResult_hamper : (hamperOk 0x1001A = true ∧ (0x1001A : W64).getLsbD 5 = false) ∧ ((moved.ctx 0).moving = true ∧ (moved.moveRead 0).2.isSome = true) ∧
    (starving.allTgs.filter (fun g => g.ctx == 0 && (match g.status with | .parked 8 _ => g.wake.isNone | _ => false))).map (·.loc) = [hungry.loc] ∧
    starving.me.loc ≠ hungry.loc ∧ starving.freeEntry hungry.loc.core.cluster true = some (8176, 1) ∧ (starving.ctx 0).fullPosted = false ∧
    (hungry.ctx = 0 ∧ starving.hamperWait hungry = true ∧ hungry.parkedAt + 10000000 ≤ starving.ptp.toNat) ∧
    (∀ n ∈ [1, 2], let s := { scopes n 0 with scopeMsgs := [leave], futs := [{ lone with st := .resolved }] }
      s.scopeMsgs.find? (fun k => k.id == leave.id) = some leave ∧ s.settled leave.task = true ∧ (s.scope 0 1).count = n ∧ (s.scope 0 1).st = .open_) := by decide
theorem wit_FutureTableStepResult_failsp : starving.tgAt hungry.loc = some hungry ∧ hungry ∈ starving.allTgs := by
  have h : starving.allTgs = [starving.me, hungry] := rfl
  exact ⟨rfl, by rw [h]; simp⟩

/-! ### Witnesses: memory, engines, messages and queues -/

/-- One store of core 0 to its local store, in the buffer or in the side log. -/
def buffered (log : Bool) : State :=
  { base with cores := [(⟨0, 0, 0⟩, { Core.zero with fifo := [{ myStore with inLog := log }] })] }
theorem wit_MemoryStepResult_drain : ∀ log ∈ [true, false], (buffered log).MemOk ∧
    ((buffered log).core ⟨0, 0, 0⟩).fifo = [{ myStore with inLog := log }] ∧ isWindow myStore.va.toNat = true ∧
    (winOf myStore.va.toNat).kind < 2 ∧ (winOf myStore.va.toNat).die = 0 ∧ myStore.op = .store ∧ ((buffered log).core ⟨0, 0, 0⟩).stopped = false := by
  intro log hl
  refine ⟨memOk_of _ ?_, rfl, ?_⟩ <;> fin_cases hl <;> decide
/-- Two stores of one instruction to one line, the second over the last bytes of the first. -/
def twoStores (log : Bool) : List StEnt := [{ myStore with inLog := log }, { myStore with va := myStore.va + 4, data := [9, 9, 9, 9, 9], inLog := log }]
def bufferedTwo (log : Bool) : State := { base with cores := [(⟨0, 0, 0⟩, { Core.zero with fifo := twoStores log })] }
theorem wit_MemoryStepResult_group : ∀ log ∈ [true, false], (bufferedTwo log).MemOk ∧ ((bufferedTwo log).core ⟨0, 0, 0⟩).fifo = twoStores log ∧
    (∀ y ∈ (twoStores log).tail, StEnt.joins ((twoStores log).headD myStore) y = true) ∧
    (∀ y ∈ twoStores log, (y.op = .store ∧ y.poison = false) ∧ y.inLog = log) ∧ ((bufferedTwo log).core ⟨0, 0, 0⟩).stopped = false := by
  intro log hl
  refine ⟨memOk_of _ ?_, rfl, ?_⟩ <;> fin_cases hl <;> decide
/-- R230: the later of two stores of one line access stays at the byte that both write; the drain takes both. -/
theorem test_drain_group : let r := after (exec (.storeBufferDrain ⟨0, 0, 0⟩) (bufferedTwo false)) base
    (r.core ⟨0, 0, 0⟩).fifo = [] ∧ memGet r.mem (myStore.va.toNat + 3) = 0 ∧ memGet r.mem (myStore.va.toNat + 4) = 9 := by decide
/-- A store, and an atomic that returns its old value, on their way to a line of device memory; the collapse of a replica of it. -/
def storeWr (op : StOp) (n : Nat) (applied : Bool) : Wr :=
  ⟨8, 1, { myStore with va := 0x1000, op := op, data := List.replicate n 5 }, false, 0x501000, none, 128, 0, applied, [], op != .store, none, false, false⟩
def flying (w : Wr) : State := { base with wrs := [w] }
theorem wit_MemoryStepResult_home : ∀ w ∈ [storeWr .store 8 false, storeWr (.atom 0) 4 false], (flying w).MemOk ∧ (flying w).wr w.id = some w ∧
    w.applied = false ∧ w.peer = none ∧ (flying w).heldUp w = false ∧ (flying w).wrGroup w = [w] ∧ isWindow w.ent.va.toNat = false := by
  intro w hw
  refine ⟨memOk_of _ ?_, ?_⟩ <;> fin_cases hw <;> decide
theorem wit_MemoryStepResult_ack : ∀ w ∈ [storeWr .store 8 true, storeWr (.atom 0) 4 true], (flying w).wr w.id = some w ∧ w.applied = true ∧
    w.acks = [] ∧ (w.ret = true ∨ w.ret = false) := by decide
def collapseOf (applied : Bool) : Col := ⟨3, some 8, 0, 1, 0, 0x1000, 0x501000, applied⟩
def collapsing (applied : Bool) : State := { flying (storeWr .store 8 true) with cols := [collapseOf applied] }
theorem wit_MemoryStepResult_collapse : (collapsing false).cols.find? (fun k => k.id == 3 && !k.applied) = some (collapseOf false) ∧
    (collapsing true).cols.find? (fun k => k.id == 3 && k.applied) = some (collapseOf true) ∧
    (∀ y ∈ (collapsing false).wrs, ¬(y.die = (collapseOf false).die ∧ y.ret = false ∧ y.toLine = true ∧ some y.id ≠ (collapseOf false).wr ∧
      y.ent.asid = (collapseOf false).asid ∧ lineOf y.ent.va.toNat = (collapseOf false).va)) := by decide
/-- Die 3 reads the line at 0x1000, whose home is die 1, in a region of degree 2. -/
def remote : State := { base with regions := [⟨1, 0, 0, 2, 5, 0, 0⟩] }
theorem wit_MemoryStepResult_remote : PartMode.hasDie remote.mode 3 = true ∧ isWindow (0x1000 : W64).toNat = false ∧ (0x1000 : W64).toNat < 2 ^ 57 ∧
    translate remote.toSoc true .load 0 (lineOf 0x1000) = .phys 0x501000 ∧ homeDie remote.mode remote.sup.active (lineOf 0x1000) = 1 ∧
    isNocache remote.sup.active (lineOf 0x1000) = false ∧ remote.linePending 3 0 (lineOf 0x1000) = false ∧ isGatewayDie 3 = false ∧
    remote.replicaOf 3 0 (lineOf 0x1000) = none ∧ (remote.replicasOf 0 (lineOf 0x1000)).length <
      (remote.countAccess 1 0 (lineOf 0x1000) fun k => { k with reads := k.reads + 1 }).degree 0 (lineOf 0x1000) := by decide
def repolls : TG := { waiter with status := .parked 3 0x1000 }
def counted : State := { base with
  regions := [⟨1, 0, 0, 2, 65535, 1, 0⟩], dies := [(1, { Die.zero with autoen := false })], tgs := [repolls], ptp := 1000 }
theorem wit_MemoryStepResult_rest : (65536 ≤ (counted.region 1 0 0x1000).reads + (counted.region 1 0 0x1000).writes ∧ (counted.die 1).autoen = false) ∧
    counted.me.loc ≠ repolls.loc ∧ counted.tgAt repolls.loc = some repolls ∧ repolls.status = .parked 3 0x1000 ∧
    (∀ y ∈ counted.watches, y.tg ≠ repolls.loc) ∧ repolls.parkedAt + 1000 ≤ counted.ptp.toNat ∧ repolls.wake = none :=
  ⟨by decide, by decide, rfl, rfl, by decide, by decide, rfl⟩

/-- An operation that has started, alone in the machine. -/
def op9 (s : State) (kind : EKind) (pkt : List Byte) (maps : List TMap) : EngOp :=
  { s.mkOp kind (some 7) pkt (w (ls 0x800)) maps [] with id := 9, started := true }
def withOp (s : State) (o : EngOp) : State := { s with ops := [o] }
theorem find9 (s : State) (o : EngOp) : (withOp s o).ops.find? (fun y => y.id == o.id) = some o := by simp [withOp]
/-- A matrix operation stands at the head of core 0's queue, not started, and it is this core's turn. -/
def mmaKind : EKind := .mma 0 mctx mringA.desc mringB.desc mringA.r mringB.r
def startS : State := withOp { mats0 with cycle := 32 } { op9 mats0 mmaKind [] [] with started := false }
theorem wit_EngineStepResult_start : startS.matHead ⟨0, 0, 0⟩ = some { op9 mats0 mmaKind [] [] with started := false } ∧
    startS.matNext (⟨0, 0, 0⟩ : CoreId).cluster = some (⟨0, 0, 0⟩ : CoreId).core := by decide
/-- Started, at the head of the queue, no drain waiting to be written. -/
def isHead (s : State) (o : EngOp) : Prop :=
  (withOp s o).matHead ⟨0, 0, 0⟩ = some o ∧ o.started = true ∧ o.fault = none ∧ ∀ y ∈ (withOp s o).ops, y.out = none
theorem head_of (s : State) (kind : EKind) (pkt : List Byte) (maps : List TMap) (h : (op9 s kind pkt maps).isMat = true)
    (hl : (s.me.loc.core == ⟨0, 0, 0⟩) = true) : isHead s (op9 s kind pkt maps) := by
  refine ⟨?_, rfl, rfl, fun y hy => by rw [List.mem_singleton.mp hy]; rfl⟩
  have hq : (op9 s kind pkt maps).queued = true := by unfold EngOp.queued; rw [h]; rfl
  have hc : (op9 s kind pkt maps).core = ⟨0, 0, 0⟩ := beq_iff_eq.mp hl
  unfold State.matHead State.matOps withOp
  simp [hq, hc]
def matKinds : List EKind := [.mzero 1, .mcfg, .mstat 0, .msave 0 (some mctx) (w (sp 0x40000)), .mload 1 (w (sp 0x40000)), mmaKind,
  .mdrain 0 mctx (drainBytes 1 0) 0 0]
def waitsStat : State := { mats0 with me := { mats0.me with phase := { Phase.start with req := some 9 } } }
theorem wit_EngineStepResult_head : (∀ k ∈ matKinds, isHead mats0 (op9 mats0 k (bytesOf 16 0) [parseTMap opMap, parseTMap opMap])) ∧
    ((op9 waitsStat (.mstat 0) [] []).tg = some waitsStat.me.loc ∧ waitsStat.me.phase.req = some (op9 waitsStat (.mstat 0) [] []).id) ∧
    (let s := withOp mats0 (op9 mats0 mmaKind [] [])
     let o := op9 mats0 mmaKind [] []
     s.ring o.cl o.asid o.part mringA.desc = some mringA ∧ s.ring o.cl o.asid o.part mringB.desc = some mringB ∧
       isPoisoned s.poison (mringA.slotAddr o.cl mringA.r).toNat 16384 = false ∧ isPoisoned s.poison (mringB.slotAddr o.cl mringB.r).toNat 16384 = false) := by
  refine ⟨fun k hk => head_of _ _ _ _ ?_ (by decide), by decide, by decide⟩
  fin_cases hk <;> rfl
/-- MSAVE and MLOAD of 327,744 bytes of the scratchpad: every byte has its place. -/
theorem tile_place (t : Tile) (ctx : Option FmtCtx) (hc : (ctxBytes ctx).length = 32) (b : BW) (h : b ∈ tileWrites (sp 0x40000) t ctx) :
    ∃ k, b.va = sp k ∧ k < 2 ^ 22 := by
  have hb : ∀ (va : Nat) (bs : List Byte) (p : Bool), b ∈ bytesWrite va bs p → va ≤ b.va ∧ b.va < va + bs.length := by
    intro va bs p hm
    obtain ⟨x, hx, rfl⟩ := List.mem_map.mp hm
    have := List.snd_lt_of_mem_zipIdx hx
    exact ⟨by simp, by simpa using this⟩
  have h4 : ∀ n : Nat, (bytesOf 4 n).length = 4 := fun n => by simp [bytesOf]
  have h16 : ∀ e : FxElem, e.xBytes.length = 16 := fun e => by simp [FxElem.xBytes, bytesOf]
  have hs : ∀ k, sp k = 2 ^ 63 + k := fun k => by simp [sp, spadAddr]
  unfold tileWrites at h
  simp only [List.mem_append, List.mem_flatMap, List.mem_range] at h
  have hr : 2 ^ 63 ≤ b.va ∧ b.va < 2 ^ 63 + 2 ^ 22 := by
    rw [hs] at h
    rcases h with ((⟨n, hn, h⟩ | ⟨n, hn, h⟩) | h) | h
    · have := hb _ _ _ h; rw [h16] at this; omega
    · have := hb _ _ _ h; rw [h4] at this; omega
    · have := hb _ _ _ h; rw [h4] at this; omega
    · have := hb _ _ _ h; rw [hc] at this; omega
  exact ⟨b.va - 2 ^ 63, by rw [hs]; omega, by omega⟩
def saveOp : EngOp := op9 mats0 (.msave 0 (some mctx) (w (sp 0x40000))) [] []
theorem wit_EngineStepResult_area : (∃ xs, (withOp mats0 saveOp).placeWrites saveOp.agent
      (tileWrites (w (sp 0x40000)).toNat (((withOp mats0 saveOp).core ⟨0, 0, 0⟩).tile 0) (some mctx)) = .ok xs) ∧
    (∃ bs, (withOp mats0 saveOp).readBytes saveOp.agent (w (sp 0x40000)).toNat saveBytes = .ok bs) := by
  have hm : (withOp mats0 saveOp).mode = .whole := rfl
  have ha : (w (sp 0x40000)).toNat = sp 0x40000 := by decide
  have hs : ∀ k, sp k = 2 ^ 63 + k := fun k => by simp [sp, spadAddr]
  rw [ha]
  constructor
  · refine placeWrites_ok _ _ _ fun b hb => ?_
    obtain ⟨k, hk, hlt⟩ := tile_place _ _ (by decide) b hb
    exact ⟨by rw [hk]; exact sp_window k, _, by rw [hk]; exact sp_byteAt _ _ _ k hm hlt⟩
  · refine mapM_ok _ _ fun k hk => ?_
    have hlt : 0x40000 + k < 2 ^ 22 := by have := List.mem_range.mp hk; unfold saveBytes at this; omega
    have he : sp 0x40000 + k = sp (0x40000 + k) := by rw [hs, hs]; omega
    have hi : isWindow (sp (0x40000 + k)) = true := decide_eq_true (by rw [hs]; omega)
    have hw : (winOf (sp (0x40000 + k))).kind = 0 := by
      rw [hs]
      show (2 ^ 63 + (0x40000 + k)) / 2 ^ 60 % 2 ^ 3 = 0
      omega
    have hp : (withOp mats0 saveOp).pendingOf saveOp.agent.die = [] := by decide
    rw [he]
    have hn : (withOp mats0 saveOp).splits saveOp.agent (sp (0x40000 + k)) = false := by unfold State.splits; rw [hi]; simp
    unfold State.readByte
    rw [hn, if_neg (by simp)]
    unfold State.rawByte
    rw [sp_byteAt _ _ _ _ hm hlt, hp]
    exact ⟨_, by simp only [hi, hw]; rfl⟩

/-- A drain that has read its tile has one byte left to write. -/
def drainOut : EngOp := { op9 mats0 (.mdrain 0 mctx (drainBytes 1 0) 0 0) [] [] with out := some [⟨sp 0x40000, 0xFF, 7, false⟩] }
theorem wit_EngineStepResult_drain : (withOp mats0 drainOut).ops.find? (fun y => y.isMat && y.core == ⟨0, 0, 0⟩ && y.out.isSome && y.fault.isNone) =
      some drainOut ∧ drainOut.out = some [⟨sp 0x40000, 0xFF, 7, false⟩] ∧
    ∃ xs, (withOp mats0 drainOut).placeWrites drainOut.agent [⟨sp 0x40000, 0xFF, 7, false⟩] = .ok xs :=
  ⟨by decide, rfl, ok_of _ (by decide)⟩
/-- Each engine's operation can be performed: a copy of 16 elements, two rows of a stream, a reduction of a block, a selection. -/
def copyOp : EngOp := op9 copies (.copy 1) (copyPkt 1) [parseTMap srcMap, parseTMap dstMap]
def okData (s : State) (g : Agent) (x : Except EFail (List BW × Bool)) : Bool :=
  match x with | .ok (ws, _) => okE (s.placeWrites g ws) | .error _ => false
theorem data_of (s : State) (g : Agent) (x : Except EFail (List BW × Bool)) (h : okData s g x = true) :
    ∃ ws stop xs, x = .ok (ws, stop) ∧ s.placeWrites g ws = .ok xs := by
  cases x with
  | ok w => obtain ⟨xs, hx⟩ := ok_of _ h; exact ⟨w.1, w.2, xs, rfl, hx⟩
  | error e => cases h
theorem wit_EngineStepResult_copy : (withOp copies copyOp).ops.find? (fun y => y.id == copyOp.id) = some copyOp ∧ copyOp.fault = none ∧
    (withOp copies copyOp).opReady copyOp = true ∧ copyOp.ended = none ∧ copyOp.flagWr = none ∧
    bitOf (parsePkt copyOp.pkt).flags 0 = false ∧ bitOf (parsePkt copyOp.pkt).flags 2 = false ∧
    ∃ ws stop xs, (withOp copies copyOp).copyData copyOp = .ok (ws, stop) ∧ (withOp copies copyOp).placeWrites copyOp.agent ws = .ok xs :=
  ⟨find9 _ _, rfl, by decide, rfl, rfl, by decide, by decide, data_of _ _ _ (by decide +kernel)⟩
def gatherOp : EngOp := op9 gathers (.gather ringA.desc gatherBytes 0 false none) gatherBytes [parseTMap srcMap, parseTMap dstMap]
def gatherU : State := (withOp gathers gatherOp).modRing gatherOp.cl gatherOp.asid gatherOp.part ringA.desc (Ring.claimW 1)
theorem wit_EngineStepResult_gather : (withOp gathers gatherOp).opReady gatherOp = true ∧
    (withOp gathers gatherOp).ring gatherOp.cl gatherOp.asid gatherOp.part ringA.desc = some ringA ∧ ringA.free ≠ 0 ∧
    (0 + (parseGather gatherBytes).rps < (parseGather gatherBytes).count ∧ (parseGather gatherBytes).count ≤ 2 + (parseGather gatherBytes).rps) ∧
    ∃ ws xs, gatherU.gatherData gatherOp (parseGather gatherBytes) (parseTMap srcMap) (parseTMap dstMap) ringA 0 ringA.w = .ok ws ∧
      gatherU.placeWrites gatherOp.agent ws = .ok xs :=
  ⟨by decide, by decide, by decide, by decide, writes_of _ _ _ (by decide +kernel)⟩
def addOp : EngOp := op9 adds (.baddq 1 addBytes) addBytes [parseTMap (rowMap (ls 0x4000)), parseTMap (rowMap (ls 0x4400)), parseTMap (rowMap (ls 0x4800))]
def selOp : EngOp := op9 sels (.topk true selBytes) selBytes [parseTMap srcMap]
def selU : State := let s := withOp sels selOp
  { s with ops := updFirst (fun x => x.id == selOp.id) (fun x => { x with started := true }) s.ops }
theorem wit_EngineStepResult_baddq : (withOp adds addOp).opReady addOp = true ∧
    ∃ ws xs, (withOp adds addOp).addData addOp (parseAdd addBytes) (1 : W64).toNat (parseTMap (rowMap (ls 0x4000))) (parseTMap (rowMap (ls 0x4400)))
      (parseTMap (rowMap (ls 0x4800))) = .ok ws ∧ (withOp adds addOp).placeWrites addOp.agent ws = .ok xs :=
  ⟨by decide, writes_of _ _ _ (by decide +kernel)⟩
theorem wit_EngineStepResult_select : (withOp sels selOp).selectNext selOp.cl.die = some selOp ∧ selU.opReady selOp = true ∧
    ∃ ws xs, selU.selData selOp true (parseSel selBytes) (parseTMap srcMap) = .ok ws ∧ selU.placeWrites selOp.agent ws = .ok xs :=
  ⟨by decide, by decide, writes_of _ _ _ (by decide +kernel)⟩
/-- A claim of a queue that the mangle does not hold yet, and a completion that is not its last. -/
def claimReq (done : Bool) : MReq := ⟨3, base.me.loc, done, w (ls 0x800), 0, 4, 0, 0, true, none⟩
def bqOf : BQ := ⟨w (ls 0x800), 0, 2, 2, 1⟩
def mangling (done : Bool) (qs : List BQ) : State := { mangle with mreqs := [claimReq done], bqs := qs }
theorem wit_EngineStepResult_mangle : (mangling false []).mreqs.find? (fun y => y.id == 3) = some (claimReq false) ∧
    (mangling false []).bqFull 0 (w (ls 0x800)) = false ∧ (mangling true [bqOf]).mreqs.find? (fun y => y.id == 3) = some (claimReq true) ∧
    (mangling true [bqOf]).bq 0 (w (ls 0x800)) = some bqOf ∧ bqOf.done ≠ bqOf.claimed ∧ bqOf.done + 1 ≠ (claimReq true).nblk := by decide

def sentMail (arrived : Bool) : Msg := { mail with tg := some ⟨⟨0, 0, 0⟩, 1⟩, arrived := arrived, answer := if arrived then some 0 else none }
def posting (arrived : Bool) : State :=
  { base with msgs := [sentMail arrived], tgs := [{ waiter with phase := { Phase.start with req := some 3 } }] }
def posted : TG := { waiter with phase := { Phase.start with req := some 3 } }
theorem wit_MessageAndQueueStepResult_mail : ((posting false).msgs.find? (fun y => y.id == 3 && !y.arrived) = some (sentMail false) ∧
      ((posting false).core (sentMail false).dst).spill = [] ∧
      ((posting false).core (sentMail false).dst).inbox.length + ((posting false).core (sentMail false).dst).recvList.length < 64 ∧
      (sentMail false).tg.isSome = true) ∧
    (posting true).msgs.find? (fun y => y.id == 3 && y.arrived) = some (sentMail true) ∧ (sentMail true).tg = some posted.loc ∧
    (sentMail true).answer = some 0 ∧ (posting true).me.loc ≠ posted.loc ∧ (posting true).tgAt posted.loc = some posted ∧
    posted.phase.req = some (sentMail true).id := ⟨by decide, by decide, rfl, rfl, by decide, rfl, rfl⟩
def mail0 : Msg := { mail with reply := 0 }
/-- One message in the inbox of a core whose entry for its class queues it, runs a handler, or is empty. -/
def inboxS (value : W64) (m : Msg) : State := { base with cores := [(⟨0, 0, 0⟩, { Core.zero with inbox := [m], handlers := [(9, ⟨value, 0, true⟩)] })] }
theorem wit_MessageAndQueueStepResult_dequeue : (∀ v m, ((inboxS v m).core ⟨0, 0, 0⟩).inbox = [m] ∧ ((inboxS v m).core ⟨0, 0, 0⟩).spill = [] ∧
      (inboxS v m).tgAt ⟨⟨0, 0, 0⟩, 16⟩ = none) ∧
    ((inboxS 1 mail).core ⟨0, 0, 0⟩).route mail = .queued 9 ∧ ((inboxS 0x4000 mail).core ⟨0, 0, 0⟩).route mail = .handler ⟨0x4000, 0, true⟩ 9 ∧
    ((inboxS 0 mail0).core ⟨0, 0, 0⟩).route mail0 = .none_ ∧ mail0.reply = 0 :=
  ⟨fun _ _ => ⟨rfl, rfl, rfl⟩, by decide, by decide, by decide, rfl⟩
def ovfAddr : W64 := BitVec.ofNat 64 (2 ^ 63 + 4 * 2 ^ 60 + 0x200)
/-- Queue 1023 is mapped to slot 63; the control block of queue 5, at 0x8000, is to be mapped to slot 0. -/
def qcb5 : State := { base with slots := [(0, { Slot.zero with qcbAddr := 0x8000 }), (63, { Slot.zero with mapped := true, qid := 1023 })] }
theorem wit_MessageAndQueueStepResult_registers : isWindow ovfAddr.toNat = true ∧ (winOf ovfAddr.toNat).kind = 4 ∧ (winOf ovfAddr.toNat).off = 0x200 ∧
    winCheck base.mode true true ovfAddr.toNat 8 = .ok ∧ qcb5.slotOf 1022 = none ∧ qcb5.slotOf 1023 = some 63 ∧ (qcb5.slot 63).drain = false := by decide
theorem wit_MessageAndQueueStepResult_map : qcb5.engWaits = [] ∧ (qcb5.slot 0).mapped = false ∧ (qcb5.slot 0).awake = false ∧
    ((0x80000005 : W64).getLsbD 31 = true ∧ (0x80000005 : W64).getLsbD 30 = false ∧ (0x40000000 : W64).getLsbD 30 = true) ∧ qcb5.mgmt.lifecycle = 2 ∧
    qcb5.mgmt.unlocking = none ∧ qcb5.slotOf ((0x80000005 : W64).toNat % 1024) = none ∧ (qcb5.slot 0).qcbAddr.toNat % 128 = 0 ∧
    (qcb5.slot 0).qcbAddr.toNat < 2 ^ 57 ∧ qcb5.hwAddr supAsid true .load (qcb5.slot 0).qcbAddr.toNat 128 = .at_ 0x508000 ∧
    isPoisoned qcb5.poison 0x508000 128 = false ∧ ((qcb5.slot 63).mapped = true ∧ (qcb5.slot 63).drain = false) := by decide
/-- Queue 5 drains, with no packet to start; its header stands in device memory. -/
def drainedQ : State := { base with
  slots := [(0, { Slot.zero with mapped := true, drain := true, qid := 5, qcbAddr := 0x8000, qcb := ⟨0x9000, 0, 0, true⟩ })], qcbOf := [(5, 0x8000)] }
theorem drainedQ_rdidx : drainedQ.slotRdidx 0 = (drainedQ, some 0) := by
  have h : (match drainedQ.readBytes (drainedQ.serveAgent (.slot 0)) ((drainedQ.slot 0).qcb.hdr.toNat + 8) 8 with
    | .ok b => (numOf b).1 == 0
    | .error _ => false) = true := by decide
  unfold State.slotRdidx
  split at h
  · rename_i b hb
    simp only [hb, beq_iff_eq.mp h]
    rfl
  · cases h
theorem wit_MessageAndQueueStepResult_unmap : drainedQ.engWaits = [] ∧ (drainedQ.slot 0).mapped = true ∧ (drainedQ.slot 0).drain = true ∧
    (∀ p ∈ drainedQ.pkts, p.q = .slot 0 → p.started = true) ∧
    drainedQ.hwAddr supAsid true .store ((kget 0 drainedQ.qcbOf (drainedQ.slot 0).qid).toNat + 16) 16 = .at_ 0x508010 ∧ drainedQ.MemOk ∧
    drainedQ.hwq = [] ∧ drainedQ.slotRdidx 0 = (drainedQ, some 0) ∧ ∃ bs, drainedQ.readBytes (drainedQ.serveAgent (.slot 0)) ((drainedQ.slot 0).qcb.hdr.toNat + 8) 8 = .ok bs :=
  ⟨rfl, by decide, by decide, by decide, by decide, memOk_of _ (by decide), rfl, drainedQ_rdidx, ok_of _ (by decide)⟩
/-- The teardown of queue 5 is under way, with nothing of it left. -/
def tearing : State := { base with sup := { base.sup with qtearBusy := true, qtearQid := 5 }, qcbOf := [(5, 0x8000)] }
theorem wit_MessageAndQueueStepResult_teardown : (base.sup.qtearBusy = false ∧ (∀ t ∈ base.tasks, t.lineage = none) ∧ base.pkts = []) ∧
    tearing.sup.qtearBusy = true ∧ (∀ t ∈ tearing.tasks, t.lineage = none) ∧ (∀ f ∈ tearing.futs, f.lineage = none) ∧ tearing.pkts = [] ∧
    tearing.slotOf tearing.sup.qtearQid = none ∧
    (∀ qcb, kfind tearing.sup.qtearQid tearing.qcbOf = some qcb → ∃ k, tearing.hwAddr supAsid true .store (qcb.toNat + 11) 1 = .at_ k) ∧
    tearing.evUsed = [] ∧ tearing.hwq = [] ∧ tearing.sup.darnBusy = false := by
  have h : kfind tearing.sup.qtearQid tearing.qcbOf = some (0x8000 : W64) := by decide
  refine ⟨by decide, rfl, by decide, by decide, rfl, by decide, fun qcb hq => ⟨0x50800B, ?_⟩, rfl, rfl, rfl⟩
  rw [h] at hq
  cases hq
  decide

/-! ### Witnesses: packets of a queue (R274, R374 to R377) -/

theorem bytesWrite_place (k : Nat) (bs : List Byte) (h : k + bs.length ≤ 2 ^ 22) (b : BW) (hb : b ∈ bytesWrite (sp k) bs false) :
    ∃ j, b.va = sp j ∧ j < 2 ^ 22 := by
  obtain ⟨x, hx, rfl⟩ := List.mem_map.mp hb
  have := List.snd_lt_of_mem_zipIdx hx
  exact ⟨k + x.2, by simp [sp, spadAddr]; omega, by simp at this; omega⟩
/-- A signal packet is the next of a kernel queue whose header lies in the scratchpad and whose slots lie in the local store. -/
def qk : QRef := .cq ⟨0, 0⟩ 0 (w (sp 0x800))
def slotBytes (kind seq : Nat) : List Byte := layout 64 [(0, 2, kind), (4, 4, seq)]
def served (kind : Nat) : State :=
  let s := store (store base (sp 0x800) (hdrBytes 1 0 0)) (ls 0x1000) (slotBytes kind 0)
  { s with clusters := [(⟨0, 0⟩, { Cluster.zero with kicked := [(0, w (sp 0x800), true)] })] }
/-- What succeeds with a value leaves a machine. -/
def okIs {σ ε α : Type} [DecidableEq α] (x : σ × Except ε α) (a : α) : Bool := match x.2 with | .ok m => decide (m = a) | .error _ => false
theorem pair_of {σ ε α : Type} [DecidableEq α] (x : σ × Except ε α) (a : α) (h : okIs x a = true) : x = (x.1, .ok a) := by
  obtain ⟨s, r⟩ := x
  cases r with
  | ok m => rw [of_decide_eq_true h]
  | error e => cases h
/-- What `lookNext` finds: the packet of a kind at index 0, in a WHOLE machine whose queue still has its header. -/
def finds (s : State) (q : QRef) (va : W64) (k : Nat) : Bool :=
  match s.lookNext q with
  | (u, some (i, _, pb)) => i == 0 && fieldAt pb 2 2 == 0 && fieldAt pb 0 2 == k && u.mode == .whole && QRef.hdr u q == va
  | (_, none) => false
theorem finds_of (s : State) (q : QRef) (j k : Nat) (hj : (w (sp j)).toNat + 8 = sp (j + 8)) (h16 : j + 16 ≤ 2 ^ 22)
    (h : finds s q (w (sp j)) k = true) : ∃ u i hdr pb xs, s.lookNext q = (u, some (i, hdr, pb)) ∧ fieldAt pb 2 2 = 0 ∧ fieldAt pb 0 2 = k ∧
      u.placeWrites (u.serveAgent q) (bytesWrite ((QRef.hdr u q).toNat + 8) (bytesOf 8 (i + 1 : W64).toNat) false) = .ok xs := by
  unfold finds at h
  split at h
  · rename_i u i hdr pb he
    simp only [Bool.and_eq_true, beq_iff_eq] at h
    obtain ⟨⟨⟨⟨-, h2⟩, h3⟩, hm⟩, hv⟩ := h
    obtain ⟨xs, hx⟩ := placeWrites_ok u (u.serveAgent q) (bytesWrite (sp (j + 8)) (bytesOf 8 (i + 1 : W64).toNat) false) fun b hb => by
      obtain ⟨n, hn, hlt⟩ := bytesWrite_place _ _ (by simp [bytesOf]; omega) b hb
      rw [hn]
      exact ⟨sp_window n, _, sp_byteAt _ _ _ _ hm hlt⟩
    exact ⟨u, i, hdr, pb, xs, he, h2, h3, by rw [hv, hj]; exact hx⟩
  · cases h
theorem wit_QueuePacketResult_begins : ∀ k ∈ [0, 10, 9, 5], let s := served k
    s.engWaits = [] ∧ s.pktsOf qk = [] ∧ s.pkts = [] ∧ (∀ n, qk ≠ .slot n) ∧
    ∃ u i hdr pb xs, s.lookNext qk = (u, some (i, hdr, pb)) ∧ fieldAt pb 2 2 = 0 ∧ fieldAt pb 0 2 = k ∧
      u.placeWrites (u.serveAgent qk) (bytesWrite ((QRef.hdr u qk).toNat + 8) (bytesOf 8 (i + 1 : W64).toNat) false) = .ok xs := by
  intro k hk
  refine ⟨rfl, rfl, rfl, fun n h => (by cases h), finds_of _ _ 0x800 _ (by decide) (by decide) ?_⟩
  fin_cases hk <;> decide +kernel
/-- A packet that has begun: a copy of a kernel queue, and a LAUNCH of the queue in slot 63. -/
def pktOf (q : QRef) (bs : List Byte) : Pkt := ⟨7, q, none, 0, w (sp 0x800), 0, true, ⟨0, 0⟩, 0, bs, false, 0, none, none, none, none⟩
def copyP : Pkt := pktOf qk (copyPkt 1)
def begun (p : Pkt) : State := { copies with pkts := [p], slots := [(63, { Slot.zero with mapped := true, qid := 5 })] }
def isFreshPkt (s : State) (p : Pkt) : Prop := p.fin = none ∧ p.flagWr = none ∧ p.info = none ∧ ∀ k ∈ s.pkts, k.id = p.id → k = p
def copyU : State := ((begun copyP).pktMap copyP (w (ls 0x1000))).1
def copyU1 : State := (copyU.pktMap copyP (w (ls 0x1080))).1
theorem copyP_maps : (parsePkt copyP.bytes).src = w (ls 0x1000) ∧ (parsePkt copyP.bytes).dst = w (ls 0x1080) ∧
    copyOk 1 (parsePkt copyP.bytes) (some (parseTMap srcMap)) (some (parseTMap dstMap)) = true := by decide +kernel
theorem copyU_src : okIs ((begun copyP).pktMap copyP (w (ls 0x1000))) (parseTMap srcMap) = true := by decide +kernel
theorem copyU_dst : okIs (copyU.pktMap copyP (w (ls 0x1080))) (parseTMap dstMap) = true := by decide +kernel
theorem copyP_kicked : ∀ e ∈ ((begun copyP).cluster ⟨0, 0⟩).kicked, e.1 = 0 → e.2.1 ≠ w (sp 0x800) := fun e h => (by cases h)
theorem copyU_lock : (copyU1.cluster copyP.cl).freeLock.isSome = true := by decide +kernel
theorem wit_QueuePacketResult_copy : (begun copyP).engWaits = [] ∧ (∀ e ∈ ((begun copyP).cluster ⟨0, 0⟩).kicked, e.1 = 0 → e.2.1 ≠ w (sp 0x800)) ∧
    (begun copyP).pkts.filter (fun k => k.q == qk && !k.live && isKind 1 k.bytes) = [copyP] ∧ isFreshPkt (begun copyP) copyP ∧
    (∃ u u1, (begun copyP).pktMap copyP (parsePkt copyP.bytes).src = (u, .ok (parseTMap srcMap)) ∧
      u.pktMap copyP (parsePkt copyP.bytes).dst = (u1, .ok (parseTMap dstMap)) ∧ (u1.cluster copyP.cl).freeLock.isSome = true) ∧
    copyOk 1 (parsePkt copyP.bytes) (some (parseTMap srcMap)) (some (parseTMap dstMap)) = true := by
  rw [copyP_maps.1, copyP_maps.2.1]
  have hq : (begun copyP).pkts.filter (fun k => k.q == qk && !k.live && isKind 1 k.bytes) = [copyP] := by
    show List.filter _ [copyP] = [copyP]
    rw [List.filter_cons_of_pos (by decide)]
    rfl
  exact ⟨rfl, copyP_kicked, hq, ⟨rfl, rfl, rfl, fun k hk _ => List.mem_singleton.mp hk⟩,
    ⟨copyU, copyU1, pair_of _ _ copyU_src, pair_of _ _ copyU_dst, copyU_lock⟩, copyP_maps.2.2⟩
/-- A LAUNCH of the descriptor at the local store's 2 KiB, away from the reserved core and the issuing cluster. -/
def launchBytes : List Byte := layout 64 [(0, 2, 8), (8, 8, ls 0x900), (24, 4, 0xFFFFFFFF), (28, 4, 3)]
def launchP : Pkt := pktOf (.slot 63) launchBytes
def launchDesc : List Byte := layout 64 [(0, 8, 0x2000), (8, 8, 0x00000401000000C8), (16, 8, 1), (24, 8, 2), (32, 8, 3), (40, 8, 4)]
def launching : State := store (begun launchP) (ls 0x900) launchDesc
def launchI : SpawnInfo := ⟨w (ls 0x900), 0x2000, 0x00000401000000C8, [1, 2, 3, 4], true, []⟩
theorem wit_QueuePacketResult_launch : launching.engWaits = [] ∧ (launching.slot 63).awake = false ∧
    launching.pkts.filter (fun k => k.q == .slot 63 && !k.live && launchWant (.slot 63) k.bytes) = [launchP] ∧ isFreshPkt launching launchP ∧
    launchP.fut = 0 ∧ (parseLaunch launchP.bytes).ok = true ∧ (parseLaunch launchP.bytes).cwimg = 0 ∧ (parseLaunch launchP.bytes).futout = 0 ∧
    (∃ u, launching.snapTask launchP.cl launchP.agent (parseLaunch launchP.bytes).tdesc = (u, .ok launchI) ∧
      (u.scope launchP.asid (fwScope launchI.flag)).st = .open_ ∧ u.freeEntry ⟨0, 0⟩ false = some (0, 1)) ∧
    launchI.bad launching.mode ⟨0, 0⟩ false = none ∧ fwPlace launchI.flag ≠ 2 := by
  refine ⟨rfl, by decide, by decide, ⟨rfl, rfl, rfl, fun k hk _ => List.mem_singleton.mp hk⟩, rfl, by decide, by decide, by decide, ?_, by decide, by decide⟩
  exact ⟨_, pair_of _ _ (by decide), by decide, by decide⟩
/-- The task of a LAUNCH has ended. -/
def endedP : Pkt := { launchP with live := true, fut := hP, outcome := some (.value 5 false) }
theorem wit_QueuePacketResult_end : (begun endedP).pkts.find? (fun k => k.fut == endedP.fut && k.live) = some endedP ∧ isFreshPkt (begun endedP) endedP ∧
    endedP.outcome = some (.value 5 false) ∧ (parseLaunch endedP.bytes).futout = 0 ∧ bitOf (parsePkt endedP.bytes).flags 0 = false ∧
    bitOf (parsePkt endedP.bytes).flags 2 = false :=
  ⟨by decide, ⟨rfl, rfl, rfl, fun k hk _ => List.mem_singleton.mp hk⟩, rfl, by decide, by decide, by decide⟩

/-! ### Witnesses: translation, the host and peers (R365, R388 to R402) -/

theorem wit_TranslationHostAndPeerStepResult_tinv : base.MemOk ∧ base.sup.tinvBusy = false ∧
    (let s := { base with sup := { base.sup with tinvBusy := true } }
     s.MemOk ∧ s.sup.tinvBusy = true ∧ s.sup.darnBusy = false ∧ s.wrs = []) := ⟨memOk_of _ (by decide), rfl, memOk_of _ (by decide), rfl, rfl, rfl⟩
/-- A SPAWN that waits for its descriptor's page, another access that waits, and no thread group at all. -/
def faulted (gs : List TG) : State := { base with faults := [⟨0, 0x20000⟩], tgs := gs }
def snapTg : TG := { waiter with status := .parked 11 0x20040, cur := some (.spawn 0 4 5) }
theorem faulted_any : [(⟨0, 0x20000⟩ : PFault)].any (fun e => e.asid == fltAsid 0x20000 && e.page == fltPage 0x20000) = true := by decide
theorem wit_TranslationHostAndPeerStepResult_fltresp :
    (∀ gs, (faulted gs).MemOk ∧ (faulted gs).faults.any (fun e => e.asid == fltAsid 0x20000 && e.page == fltPage 0x20000) = true) ∧
    (faulted [snapTg]).parkedOn (fltAsid 0x20000) (fltPage 0x20000) = [(snapTg.loc, 0x20040)] ∧ (faulted [snapTg]).me.loc ≠ snapTg.loc ∧
    (faulted [snapTg]).tgAt snapTg.loc = some snapTg ∧ snapTg.wake = none ∧ snapTg.snapping = true ∧
    (faulted []).parkedOn (fltAsid 0x20000) (fltPage 0x20000) = [] :=
  ⟨fun gs => ⟨memOk_of _ (by decide : (Memory.wf base.mem && base.mgmt.images.isEmpty) = true), faulted_any⟩, by decide, by decide, rfl, rfl, rfl, by decide⟩
theorem wit_TranslationHostAndPeerStepResult_swap : (base.sup.rtBusy = false ∧ base.sup.darnBusy = false ∧
      ∀ p ∈ base.sup.shadow, rtBad base.mode p.2 = false) ∧
    (let s := { base with sup := { base.sup with rtBusy := true } }
     s.sup.rtBusy = true ∧ s.wrs = []) := by decide
def darns (busy : Bool) : State := { base with sup := { base.sup with
  darnUnmapped := true, darnSrc := 0x500000, darnDst := 0x510000, darnBusy := busy, darn := ⟨true, 0, 0, 0x500000, 0x510000⟩ } }
theorem wit_TranslationHostAndPeerStepResult_darning : ((darns false).sup.darnBusy = false ∧ (darns false).sup.rtBusy = false ∧
      (darns false).darnCode ⟨(darns false).sup.darnUnmapped, (darns false).sup.darnVa, (darns false).sup.darnAsid, (darns false).sup.darnSrc,
        (darns false).sup.darnDst⟩ = none) ∧ (darns true).sup.darnBusy = true ∧ (darns true).wrs = [] := by decide
/-- Addresses 0x500000 to 0x50FFFF are exported to peers. -/
def exports : State := { base with sup := { base.sup with peerXp := [(0, w (2 ^ 63 + 16 * 2 ^ 57 + 0x500000))] } }
def peerWr (ret : Bool) : Wr := { storeWr .store 8 false with peer := some 0x1000, ret := ret }
theorem wit_TranslationHostAndPeerStepResult_host : (exports.MemOk ∧ exports.stopped = false ∧ exports.mgmt.power = 0 ∧ exports.mgmt.serving = none ∧ exports.hostq = []) ∧
    (∃ ps, (List.range 2).mapM (fun k => exports.readByte (exports.hostAgent 0 (sp 0x800 + k)) (sp 0x800 + k)) = .ok ps) ∧
    (∃ xs, exports.placeWrites (exports.hostAgent 0 (sp 0x800)) (bytesWrite (sp 0x800) [1, 2] false) = .ok xs) ∧
    exports.exported 0x50FFF8 8 = true ∧ exports.exported 0x50FFF9 8 = false := by
  refine ⟨⟨memOk_of _ (by decide), by decide, by decide, by decide, rfl⟩, ok_of _ (by decide), ?_, by decide, by decide⟩
  refine placeWrites_ok _ _ _ fun b hb => ?_
  obtain ⟨k, hk, hlt⟩ := bytesWrite_place _ _ (by decide) b hb
  exact ⟨by rw [hk]; exact sp_window k, _, by rw [hk]; exact sp_byteAt _ _ _ _ (by decide) hlt⟩
/-- A store of the host to a page under darning waits. -/
def darnsPage : State := { base with sup := { base.sup with darnBusy := true, darn := ⟨false, 0, 0, 0x500000, 0x510000⟩ } }
theorem wit_TranslationHostAndPeerStepResult_stall : darnsPage.MemOk ∧ darnsPage.stopped = false ∧ darnsPage.mgmt.power = 0 ∧
    darnsPage.mgmt.serving = none ∧ darnsPage.hostq = [] ∧ (darnsPage.hostNow (.store 0 0x100 [1, 2])).isNone = true :=
  ⟨memOk_of _ (by decide), by decide, rfl, rfl, rfl, by decide⟩
theorem wit_TranslationHostAndPeerStepResult_reply : ∀ ret ∈ [true, false], (flying (peerWr ret)).MemOk ∧
    (flying (peerWr ret)).wrs.find? (fun k => k.id == (peerWr ret).id && k.peer.isSome && !k.done) = some (peerWr ret) ∧ (peerWr ret).ret = ret ∧
    (flying (peerWr ret)).mgmt.power = 0 ∧ (flying (peerWr ret)).mgmt.serving = none := by
  intro ret hr
  refine ⟨memOk_of _ ?_, ?_⟩ <;> fin_cases hr <;> decide

/-! ### Witnesses: the commands of the management core (R411 to R424, R450, R451) -/

/-- A command waits in a mailbox, with what the package holds beside it; no thread group is runnable. -/
def commandIn (s : State) (b : MbBox) (cmd : Nat) (args : List W64) (fin : Option (Nat × W64)) : State :=
  let mb : MB := { MB.zero with busy := true, cmd := cmd, args := args, finished := fin }
  { s with mgmt := { s.mgmt with mb := if b = .device then mb else .zero, hmb := if b = .host then mb else .zero, lastServed := if b = .host then .device else .host } }
def resting : State := { base with me := .zero tg0 }
def command (b : MbBox) (cmd : Nat) (args : List W64) : State := commandIn resting b cmd args none
theorem wit_MailboxCommandResult : ∀ b cmd args, let s := command b cmd args
    s.MemOk ∧ s.mgmt.off = false ∧ (s.mb b).busy = true ∧ s.serves b = true ∧ (s.mb b).cmd = cmd ∧ (s.mb b).finished = none ∧
    s.mgmt.recovery = false ∧ s.mgmt.lifecycle = 2 ∧ s.mgmt.debug = 0 ∧ s.mgmt.unlocking = none := by
  intro b cmd args
  refine ⟨memOk_of _ (by decide : (Memory.wf base.mem && base.mgmt.images.isEmpty) = true), rfl, ?_, ?_, ?_, ?_, rfl, rfl, rfl, rfl⟩ <;> cases b <;> rfl
/-- In recovery; published results; the life cycles other than production. -/
theorem wit_MailboxCommandResult_states : ∀ b,
    (let s := commandIn { resting with mgmt := { resting.mgmt with recovery := true } } b 4 [0, 0, 0, 0] none
     (s.mb b).busy = true ∧ s.serves b = true ∧ (s.mb b).cmd = 4 ∧ (s.mb b).finished = none ∧ s.mgmt.recovery = true) ∧
    ((commandIn resting b 4 [0, 0, 0, 0] (some (3, 9))).mb b).finished = some (3, 9) ∧ ((command b 15 [0, 0, 0, 0]).mb b).finished = none ∧
    ∀ lc, let s := commandIn { resting with mgmt := { resting.mgmt with lifecycle := lc } } b 1 [0, 0, 0, 0] none
     s.serves b = true ∧ (s.mb b).cmd = 1 ∧ s.mgmt.lifecycle = lc := by
  intro b
  cases b <;> exact ⟨⟨rfl, rfl, rfl, rfl, rfl⟩, rfl, rfl, fun _ => ⟨rfl, rfl, rfl⟩⟩
/-- Buffers: device memory up to the end of a stack's last frame, and the host's page up to byte 65,279. -/
theorem wit_MailboxCommandResult_buffers : (command .device 1 [0x500000, 0x510000, 0, 0]).bufAt .device 0x500000 32 = .ok 0x500000 ∧
    (command .device 1 [0x500000, 0x510000, 0, 0]).bufAt .device 0x510000 256 = .ok 0x510000 ∧
    (command .device 2 [w (2 ^ 57), 1, 0, 0]).bufAt .device (2 ^ 57) 1 = .error 6 ∧ (command .host 2 [65281, 0, 0, 0]).bufAt .host 65281 0 = .error 1 ∧
    (command .host 7 [0, 65280, 0, 0]).bufAt .host 0 65280 = .ok (hmbExt 256) ∧ (3 : Nat) < resting.mode.controllers ∧
    (1 : Nat) ≤ 256 := ⟨rfl, rfl, rfl, rfl, rfl, by decide, by decide⟩
/-- P1 with nothing to wait for, after a wake, and with a runnable thread group of a user core before the time is over. -/
def sleeping (cmd : Nat) (args : List W64) (busy : Bool) (since : Nat) (woken : Bool) : State :=
  let s := command .device cmd args
  { s with tgs := if busy then [{ other with status := .ready }] else [], ptp := w 5000000, mgmt := { s.mgmt with
    serving := some .device
    mb := { s.mgmt.mb with since := since, woken := woken } } }
theorem wit_MailboxCommandResult_power : ∀ x ∈ [(6, [1, 7, 0, 0]), (11, [2, 7, 0, 0])],
    (let s := (sleeping x.1 x.2 false 4993000 false).beginCmd .device
     (s.mb .device).woken = false ∧ s.quiet = true ∧ s.mode = .whole ∧ s.ptp.toNat ≤ (s.mb .device).since + 1000 * s.arg .device 1) ∧
    ((sleeping x.1 x.2 false 4993000 true).beginCmd .device).mgmt.mb.woken = true ∧
    (let s := (sleeping x.1 x.2 true 4993001 false).beginCmd .device
     s.quiet = false ∧ s.ptp.toNat < (s.mb .device).since + 1000 * s.arg .device 1) ∧
    (let s := (sleeping x.1 x.2 true 4992999 false).beginCmd .device
     s.quiet = false ∧ (s.mb .device).since + 1000 * s.arg .device 1 < s.ptp.toNat) := by decide
theorem wit_MailboxCommandResult_levels : powerOk 2 0 0 = true ∧ powerOk 2 1 2 = true ∧ powerOk 2 1 3 = true ∧ lifecycleOk 2 4 = true := by decide
/-- Queues' teardown is over at once where no queue is mapped and nothing of one is left. -/
theorem wit_MailboxCommandResult_teardown : (((command .device 6 [3, 0, 0, 0]).beginCmd .device).tearAll).2 = true := by decide +kernel
/-- An image of this build and mode that a checkpoint left at index 1. -/
def restores : State := { command .device 12 [1, 0, 0, 0] with mgmt := { (command .device 12 [1, 0, 0, 0]).mgmt with
  images := [(1, ⟨resting.toSoc, [], [], true, resting.mode, 0, 0⟩)] } }
theorem wit_MailboxCommandResult_restore : kfind 0 (command .device 12 [0, 0, 0, 0]).mgmt.images = none ∧
    kfind (restores.arg .device 0) restores.mgmt.images = some ⟨resting.toSoc, [], [], true, resting.mode, 0, 0⟩ ∧
    (restores.beginCmd .device).tearAll.2 = true := ⟨rfl, rfl, by decide +kernel⟩
theorem wit_MailboxCommandResult_lost : (command .device 13 [0x3FFFFF, 0, 0, 0]).wrs = [] ∧ (4194303 : Nat) < 2 ^ 22 ∧
    (command .host 13 [0, 0, 0, 5]).arg .host 3 ≠ (command .host 13 [0, 0, 0, 5]).devid ∧ (5 : Nat) ∉ resting.mgmt.siblings := by decide

/-- Tokens and an image signed with the private key 1, whose public key is the base point. The digests and signatures were computed
with an implementation of SHA-256 and P-256 outside Lean. -/
def pubKey : List Byte := beBytes 32 ecG.1 ++ beBytes 32 ecG.2
def token (kind flags r sig : Nat) : List Byte :=
  bytesOf 4 0x4B545844 ++ [BitVec.ofNat 8 kind, BitVec.ofNat 8 flags, 0, 0] ++ List.replicate 16 0 ++ beBytes 32 7 ++ pubKey ++
  List.replicate 8 0 ++ beBytes 32 r ++ beBytes 32 sig
def withToken (cmd : Nat) (tk : List Byte) : State :=
  let s := command .device cmd [0x500000, 0, 0, 0]
  { s with mem := memPut 0x500000 tk [], mgmt := { s.mgmt with nonce := some 7, dbgKeyHash := 0xD875DB7DEF232236AEC738C6B0BB3E80142F5D0FD8F4DF24FED6EEF5CBB50D9F, rootKeyHash := 0xD875DB7DEF232236AEC738C6B0BB3E80142F5D0FD8F4DF24FED6EEF5CBB50D9F } }
/-- What a token must be, its signature apart. -/
def formed (s : State) (tk : List Byte) : Bool :=
  memBytes s.mem 0x500000 192 == tk && beField tk 24 32 == 7 && fieldAt tk 0 4 == 0x4B545844 && fieldAt tk 5 1 / 2 == 0 && fieldAt tk 6 2 == 0 &&
  fieldAt tk 8 16 == 0 && zerosAt tk 120 8 && sha256 ((tk.drop 56).take 64) == 0xD875DB7DEF232236AEC738C6B0BB3E80142F5D0FD8F4DF24FED6EEF5CBB50D9F &&
  BitVec.ofNat 512 (beField tk 56 64) == ofPair ecG
def tkIsv : List Byte := token 0x1 0 0xBA783209AF1AE5DD7E85695908CED5E5201BEAB943B8E82D8AF0A18C74CA3E52
  0xD8CA56609972253E9A881496DC7E254F14CC7B5D4B4030A84749AD8D610C51B9
def tkHalt : List Byte := token 0x2 1 0x4779F96844F7D91DD59A1EA13D800C3C536655D27E16D79DC8C7A4EE919A110A
  0x61BCB4607F550598B56B2B5A08FD52731C9DC2ED053F43B71FB4274635FFAFC1
def tkDead : List Byte := token 0x14 0 0xEADD2D26CB9ED5266E63CA5C2630BD6111C2CA699A7D172E967E3CE904229163
  0xEDA6C739F855DE7446E45C1BDC489B398349659DCE0A87F84D4534572A983DAE
def image : List Byte := bytesOf 4 0x474D5844 ++ [1, 0, 0, 0] ++ bytesOf 4 5 ++ bytesOf 4 4 ++ pubKey ++ beBytes 32 0x61BD6E35B801EAB92EFDE49BBF71443763C3F89514899AF3E2C74CC9A1E7648 ++
  beBytes 32 0x78A9BE7238092A066FB3F01BBDF7E832AE6A86A29F4E59D66D10464CFE4B4959 ++ List.replicate 112 0 ++ [1, 2, 3, 4]
theorem bufAt_of (s : State) (h : s.mode = .whole) : s.bufAt .device 0x500000 192 = .ok 0x500000 := by
  unfold State.bufAt
  rw [h]
  rfl
theorem serves_of (cmd : Nat) (tk : List Byte) (h : formed (withToken cmd tk) tk = true)
    (hv : ecdsaVerify (ofPair ecG) (BitVec.ofNat 512 (beField tk 128 64)) (sha256 (tk.take 128)) = true) : (withToken cmd tk).tokenServes .device tk := by
  unfold formed at h
  simp only [Bool.and_eq_true, beq_iff_eq] at h
  obtain ⟨⟨⟨⟨⟨⟨⟨⟨h1, h2⟩, h3⟩, h4⟩, h5⟩, h6⟩, h7⟩, h8⟩, h9⟩ := h
  exact ⟨⟨0x500000, bufAt_of _ rfl, h1⟩, congrArg some h2.symm, h3, h4, h5, h6, h7, h8, h9 ▸ hv⟩
def signed (tk : List Byte) : Bool := ecdsaVerify (ofPair ecG) (BitVec.ofNat 512 (beField tk 128 64)) (sha256 (tk.take 128))
theorem tokens_signed : signed tkIsv = true ∧ signed tkHalt = true ∧ signed tkDead = true ∧
    ecdsaVerify (ofPair ecG) (BitVec.ofNat 512 (beField image 80 64)) (sha256 (imgSigned image)) = true := by decide +kernel
theorem wit_MailboxCommandResult_unlock : ((withToken 5 tkIsv).tokenServes .device tkIsv ∧ fieldAt tkIsv 4 1 = 1) ∧
    (withToken 5 tkHalt).tokenServes .device tkHalt ∧ fieldAt tkHalt 4 1 = 2 ∧ fieldAt tkHalt 5 1 % 2 = 1 ∧
    (let u := (withToken 5 tkHalt).beginCmd .device
     ({ u with mgmt := { u.mgmt with nonce := none, unlocking := some (sha256 (tkHalt.take 128), bitOf (fieldAt tkHalt 5 1) 0) } } : State).tearAll.2 =
       true) :=
  ⟨⟨serves_of _ _ (by decide +kernel) tokens_signed.1, by decide +kernel⟩, serves_of _ _ (by decide +kernel) tokens_signed.2.1, by decide +kernel, by decide +kernel, by decide +kernel⟩
theorem wit_MailboxCommandResult_lifecycle : ((withToken 8 tkDead).tokenServes .device tkDead ∧ fieldAt tkDead 4 1 = 0x14 ∧
      lifecycleOk 2 (0x14 - 0x10) = true) ∧
    (let s := { withToken 8 tkDead with mgmt := { (withToken 8 tkDead).mgmt with nonce := some 8 } }
     s.mgmt.nonce.map (·.toNat) ≠ some (beField tkDead 24 32)) :=
  ⟨⟨serves_of _ _ (by decide +kernel) tokens_signed.2.2.1, by decide +kernel, by decide⟩, by decide +kernel⟩
def stages : State :=
  let s := withToken 7 image
  { s with mgmt := { s.mgmt with mb := { s.mgmt.mb with args := [0x500000, 260, 0, 0] } } }
theorem image_verifies : imgOf image = image ∧ (fieldAt image 0 4 != 0x474D5844 || fieldAt image 4 1 != 1 || !zerosAt image 5 3 || !zerosAt image 144 112 ||
    image.length != 256 + fieldAt image 12 4 || !(sha256 ((image.drop 16).take 64) == stages.mgmt.rootKeyHash)) = false ∧
    BitVec.ofNat 512 (beField image 16 64) = ofPair ecG ∧ ¬ fieldAt image 8 4 < stages.mgmt.svns.getD (1 - 1) 0 := by decide +kernel
theorem wit_MailboxCommandResult_fwstage : stages.bufAt .device 0x500000 260 = .ok 0x500000 ∧ memBytes stages.mem 0x500000 260 = image ∧
    fieldAt (imgOf image) 4 1 = 1 ∧ stages.mgmt.imgBad 1 (imgOf image) = none := by
  obtain ⟨h1, h2, h3, h4⟩ := image_verifies
  refine ⟨by decide, by decide +kernel, by decide +kernel, ?_⟩
  have hl : (stages.mgmt.lifecycle = 0) = False := by decide
  rw [h1]
  unfold Mgmt.imgBad
  simp only [h3, tokens_signed.2.2.2, hl, if_false, h2, Bool.not_true, Bool.or_false, h4, Bool.false_eq_true]

/-! ### Witnesses: reliability, the package and the debugger (R12, R332, R406 to R448) -/

/-- An ECCMODE that changes nothing, and one that selects the other mode for slice segment 3. -/
theorem wit_ReliabilityAndPackageStepResult_eccmode : base.MemOk ∧ PartMode.hasDie base.mode 0 = true ∧ isGatewayDie 0 = false ∧
    base.eccChange 0 0 = [] ∧ base.eccChange 0 8 = [(3 * 2 ^ 23, 4 * 2 ^ 23)] ∧ (base.die 0).oldMode = [] :=
  ⟨memOk_of _ (by decide), by decide⟩
/-- A device that the host has not created in its mode yet (R17), the last partition of HALVES, and the greatest device number. -/
theorem wit_ReliabilityAndPackageStepResult_create : State.reset.MemOk ∧ State.reset.stopped = false ∧ State.reset.created = false ∧ State.reset.tasks = [] ∧
    State.reset.futs = [] ∧ State.reset.slots = [] ∧ 0 < PartMode.parts (modeOf 0) ∧ 1 < PartMode.parts (modeOf 1) ∧ (4194303 : Nat) < 2 ^ 22 :=
  ⟨memOk_of _ (by decide), by decide⟩
theorem wit_ReliabilityAndPackageStepResult_core : (base.MemOk ∧ PartMode.hasDie base.mode 0 = true ∧ isGatewayDie 0 = false) ∧
    ((0x8705 : W64).getLsbD 15 = true ∧ (base.die 0).test = none ∧ PartMode.hasCore base.mode ⟨0, (0x8705 : W64).toNat / 2 ^ 8 % 32, (0x8705 : W64).toNat % 8⟩ = true) ∧
    (let s := { base with dies := [(0, { Die.zero with test := some (7, 5) })] }
     (s.die 0).test = some (7, 5) ∧ ∀ g ∈ s.allTgs, g.loc.core ≠ ⟨0, 7, 5⟩) :=
  ⟨⟨memOk_of _ (by decide), by decide, by decide⟩, by decide, by decide⟩
/-- The slice time is over; then the save is done, with a restore table at 0x4000 of no entry, and of one entry for a saved task. -/
def slices (switching : Bool) (ts : List Task) (table area : List Byte) : State :=
  { base with tasks := ts, mem := memPut 0x504000 table (memPut 0x506000 area base.mem), ptp := 1000, sup := { base.sup with
      armed := true, switching := switching, sliceTime := 1000, saveTab := 0x5000, restTab := 0x4000 } }
def restTable : List Byte := bytesOf 8 1 ++ bytesOf 8 0 ++ bytesOf 8 0x6000 ++ bytesOf 8 hP.toNat
def savedT : Task := someTask hP .saved
/-- No page of a table of the supervisor has a frame that is misplaced. -/
def noneMisplaced (s : State) (tab : Nat) : Bool :=
  (s.tablePages tab).all fun p => match s.hwAddr supAsid true .load p 8 with | .misplaced _ => false | _ => true
theorem misplaced_of (s : State) (tab : Nat) (h : noneMisplaced s tab = true) :
    ∀ p ∈ s.tablePages tab, ∀ a, s.hwAddr supAsid true .load p 8 ≠ .misplaced a := by
  intro p hp a ha
  have := List.all_eq_true.mp h p hp
  rw [ha] at this
  cases this
theorem wit_ReliabilityAndPackageStepResult_slices : base.sup.armed = false ∧
    (let s := slices false [] [] []
     s.MemOk ∧ s.sup.armed = true ∧ s.sup.switching = false ∧ s.sup.sliceTime.toNat ≤ s.ptp.toNat ∧ s.mgmt.power = 0 ∧ s.mgmt.serving = none ∧
     s.supHeld s.sup.saveTab = false ∧ noneMisplaced s s.sup.saveTab = true ∧ s.gang = []) ∧
    (let s := slices true [] [] []
     s.MemOk ∧ s.sup.armed = true ∧ s.sup.switching = true ∧ s.savesDone = true ∧ s.sup.claimed = [] ∧ s.supHeld s.sup.saveTab = false ∧
     s.supHeld s.sup.restTab = false ∧ noneMisplaced s s.sup.restTab = true ∧ s.supWord s.sup.restTab = 0) := by
  refine ⟨rfl, ⟨memOk_of _ ?_, ?_⟩, memOk_of _ ?_, ?_⟩ <;> decide
def restoring : State := slices true [savedT] restTable (bytesOf 4 0x56535844 ++ bytesOf 4 1 ++ bytesOf 8 hP.toNat)
theorem wit_ReliabilityAndPackageStepResult_restore : restoring.MemOk ∧ restoring.sup.armed = true ∧ restoring.sup.switching = true ∧ restoring.savesDone = true ∧
    restoring.sup.claimed = [] ∧ restoring.supHeld restoring.sup.saveTab = false ∧ restoring.supHeld restoring.sup.restTab = false ∧
    restoring.supWord restoring.sup.restTab = 1 ∧ restoring.tableEntry restoring.sup.restTab 0 = (0x6000, savedT.handle.toNat) ∧ savedT.handle ≠ 0 ∧
    restoring.task savedT.handle = some savedT ∧ savedT.st = .saved ∧ restoring.hwAddr supAsid true .load 0x6000 16 = .at_ 0x506000 ∧
    headOk (memBytes restoring.mem 0x506000 16) savedT.handle = true ∧ noneMisplaced restoring restoring.sup.restTab = true ∧
    ∀ i < 16, isPoisoned restoring.poison (0x506000 + i) 1 = false := by
  refine ⟨memOk_of _ ?_, ?_⟩ <;> decide
/-- A word of stack 0 that was found before, and one that was not; a thread group whose lane word is found. -/
theorem wit_ReliabilityAndPackageStepResult_findings : (base.background = true ∧ PartMode.paOk base.mode (0x50003F / 32 * 32) = true ∧
      (4, 0x50003F / 32 * 32) ∉ base.seen ∧ (20, 0x50003F / 32 * 32) ∉ base.seen) ∧
    (let s := { base with seen := [(4, 0x500020)] }
     (4, 0x50003F / 32 * 32) ∈ s.seen) ∧
    (let s := { base with tgs := [other] }
     s.background = true ∧ PartMode.hasDie s.mode 0 = true ∧ s.me.loc ≠ other.loc ∧ s.tgAt other.loc = some other ∧ other.loc.core.die = 0 ∧
     (0, 63, 31) ∉ other.found ∧ (s.die 0).supply < 9) :=
  ⟨by decide, by decide, by decide, by decide, by decide, rfl, rfl, by decide, by decide⟩
/-- A thread group that has and has not failed once, and an operation that has not. -/
def pipes (p : Bool) : TG := { other with pipe := p, status := .ready, phase := .start }
theorem wit_ReliabilityAndPackageStepResult_pipeline : (∀ p ∈ [true, false], let s := { base with tgs := [pipes p] }
      s.me.loc ≠ (pipes p).loc ∧ s.tgAt (pipes p).loc = some (pipes p) ∧ (pipes p).status = .ready ∧ (pipes p).phase = .start ∧ (pipes p).pipe = p) ∧
    (withOp mats0 (op9 mats0 mmaKind [] [])).ops.find? (fun o => o.id == 9) = some (op9 mats0 mmaKind [] []) ∧ (op9 mats0 mmaKind [] []).failed = false := by
  refine ⟨fun p hp => ⟨(by decide : base.me.loc ≠ other.loc), rfl, rfl, rfl, rfl⟩, rfl, rfl⟩
/-- A link of the device, and one that no device has. -/
theorem wit_ReliabilityAndPackageStepResult_links : base.ownsLink ⟨0, 9⟩ = true ∧ base.width ⟨0, 9⟩ < 3 ∧ base.ownsLink ⟨0, 99⟩ = false ∧
    base.mgmt.failed = false ∧ (1100 < base.clock ∧ (base.clock - 1100) % 25 = 0) := by decide
def traced : State := { base with mgmt := { base.mgmt with trace := some ⟨0x500000, 64, 3⟩, debug := 1 } }
theorem wit_ReliabilityAndPackageStepResult_trace : traced.mgmt.trace = some ⟨0x500000, 64, 3⟩ ∧ traced.mgmt.debug ≠ 0 ∧ traced.mgmt.off = false ∧
    isWindow 0x500000 = false ∧ PartMode.paOk traced.mode 0x500000 = true ∧ PartMode.paOk traced.mode (0x500000 + 64 - 1) = true ∧
    base.mgmt.serving = none ∧ ∀ p ∈ [1, 2], ({ base with mgmt := { base.mgmt with power := p } } : State).mgmt.power = p := by decide
/-- At HALT: a thread group that runs, and one that the debugger has halted between two instructions. -/
def jtagTg (d : Bool) : TG := { other with dbg := d, status := .ready, cur := none }
def atHalt (d : Bool) : State := { base with tgs := [jtagTg d], mgmt := { base.mgmt with debug := 2 } }
/-- Halted by the debugger while it waits for a future. -/
def jtagParked : State := { base with tgs := [{ waiter with dbg := true }], mgmt := { base.mgmt with debug := 2 } }
theorem wit_ReliabilityAndPackageStepResult_parked : jtagParked.MemOk ∧ jtagParked.mgmt.debug = 2 ∧ jtagParked.mgmt.off = false ∧
    jtagParked.me.loc ≠ waiter.loc ∧ jtagParked.tgAt waiter.loc = some { waiter with dbg := true } ∧ waiter.status ≠ .free ∧ waiter.isParked = true :=
  ⟨memOk_of _ (by decide : (Memory.wf base.mem && base.mgmt.images.isEmpty) = true), rfl, rfl, (by decide : base.me.loc ≠ other.loc), rfl,
    fun h => (by cases h), rfl⟩
theorem wit_ReliabilityAndPackageStepResult_debugger : ∀ d, (atHalt d).MemOk ∧ (atHalt d).mgmt.debug = 2 ∧ (atHalt d).mgmt.off = false ∧
    (atHalt d).me.loc ≠ (jtagTg d).loc ∧ (atHalt d).tgAt (jtagTg d).loc = some (jtagTg d) ∧ (jtagTg d).status ≠ .free ∧
    (jtagTg d).dbg = d ∧ (jtagTg d).status = .ready ∧ (jtagTg d).cur = none :=
  fun _ => ⟨memOk_of _ (by decide : (Memory.wf base.mem && base.mgmt.images.isEmpty) = true), rfl, rfl, (by decide : base.me.loc ≠ other.loc), rfl,
    fun h => (by cases h), rfl, rfl, rfl⟩

/-! ### Witnesses: guards, the step, encodings, memory -/

def shutTg (taint : Bool) : State := { base with me := { base.me with kp := if taint then 0x80 else 0 } }
theorem wit_GuardResult : (shutTg false).me.shuts 7 ∧ (shutTg true).me.taints 7 ∧ (shutTg true).me.super = true ∧ SysReg.known 3 = true ∧
    (let s := { base with me := { base.me with pp := base.me.pp.set 7 0x80000000 } }
     ¬ s.me.clean 7) := by
  refine ⟨⟨by decide, by decide, by decide⟩, ⟨by decide, by decide⟩, by decide, by decide, ?_⟩
  show ¬ (_ = _)
  decide
/-- The thread group of the tests is to issue: SCMPLT k2, s4, s5 stands at its pc, and it has read nothing yet. -/
def fetches : State :=
  let s := State.reset.placeWord 32 0x21440807
  { s with agenda := [.issue s.me.loc] }
def fetchesU : State := (({ fetches with agenda := [] } : State).focus fetches.me.loc).issueTime
theorem wit_StepRunsTheDecodedInstruction : fetches.agenda = [.issue fetches.me.loc] ∧ fetchesU.me.loc = fetches.me.loc ∧ fetches.running = true ∧
    fetchesU.me.canIssue = true ∧ fetchesU.me.cur = none ∧ fetchesU.sup.rtBusy = false ∧ fetchesU.replicas = [] ∧ fetchesU.wrs = [] ∧
    fetchesU.me.pc.toNat + 2 * (hv [0x21440807]).length ≤ 2 ^ 57 ∧
    (∀ k < (hv [0x21440807]).length,
      translate fetchesU.toSoc fetchesU.me.super .fetch fetchesU.me.asid (fetchesU.me.pc.toNat + 2 * k) = .phys (0x501000 + 2 * k) ∧
      natOf (memBytes fetchesU.mem (0x501000 + 2 * k) 2) = ((hv [0x21440807]).getD k 0).toNat ∧
      isPoisoned fetchesU.poison (0x501000 + 2 * k) 1 = false ∧ isPoisoned fetchesU.poison (0x501000 + 2 * k + 1) 1 = false) ∧
    decode fetchesU.me.decEnv (hv [0x21440807]) = .ok (.scmplt 0 2 4 5) 4 none ∧
    ∀ n, 0 < n → n < (hv [0x21440807]).length → decode fetchesU.me.decEnv ((hv [0x21440807]).take n) = .short := by
  refine ⟨rfl, by decide, by decide, by decide, by decide, by decide, by decide, by decide, by decide, ?_, by decide, ?_⟩
  · show ∀ k < 2, _
    decide
  · show ∀ n, 0 < n → n < 2 → _
    intro n h1 h2
    obtain rfl : n = 1 := by omega
    decide
theorem wit_StepRunsTheDecodedInstruction_turns : (let s := { fetches with me := { fetches.me with cur := some (.nop 0) } }
      ((({ s with agenda := [] } : State).focus s.me.loc).issueTime).me.cur = some (.nop 0)) ∧
    isEvent (.nop 0) = false ∧ isEvent .hostSync = true ∧ isEvent .swapComplete = true ∧ base.stopped = false := by decide
/-- What step answers. -/
def nextIs (o : Out State) (p : State → Bool) : Bool := match o with | .next t => p t | _ => false
/-- The word placed is the one that the next step runs (log 4): SCMPLT of equal registers clears k2, and TRAP of s1 enters the handler (R326). -/
theorem test_step_placed : nextIs (step (State.reset.withFetchWord 32 0x21440807)) (fun t => t.me.pc == 0x1004 && !t.me.k.getLsbD 2) = true := by
  decide +kernel
theorem wit_DecodeOfEncode : (Instr.scmplt 0 2 4 5).wf = true ∧ encode (.scmplt 0 2 4 5) = some (hv [0x21440807]) ∧
    (Instr.cRadvc 1 0).wf = true ∧ encode (.cRadvc 1 0) = some [0x003C] := by decide
theorem wit_StepKeepsMemory : (State.reset.withFetchWord 32 0x21440807).MemOk ∧ ∃ t, step (State.reset.withFetchWord 32 0x21440807) = .next t := by
  refine ⟨memOk_of _ (by decide), ?_⟩
  have h := test_step_placed
  unfold nextIs at h
  split at h
  · exact ⟨_, ‹_›⟩
  · cases h

/-! ### Results worked out by hand from the rules -/

def lane5 (o : Out State) (r : VReg) (v : W32) : Bool := nextIs o fun t => t.me.v[r][(5 : Fin 32)] == v
/-- R213: VADD with SAT of 0x7FFFFFFF and 1 stays at 0x7FFFFFFF; without it the sum wraps. -/
theorem test_vadd_sat : lane5 (exec (.vadd 0 1 2 (.s 3) true) (setR (setV base 2 fun _ => 0x7FFFFFFF) 3 1)) 1 0x7FFFFFFF = true := by decide
theorem test_vadd_wraps : lane5 (exec (.vadd 0 1 2 (.s 3) false) (setR (setV base 2 fun _ => 0x7FFFFFFF) 3 1)) 1 0x80000000 = true := by decide
/-- R193: division by zero gives the quotient 0 and leaves the dividend as the remainder. -/
theorem test_sdiv_zero : nextIs (exec (.sdiv 0 1 2 3) (setR base 2 7)) (fun t => t.me.s[(1 : UReg)] == 0) = true := by decide
theorem test_srem_zero : nextIs (exec (.srem 0 1 2 3) (setR base 2 7)) (fun t => t.me.s[(1 : UReg)] == 7) = true := by decide
/-- R225: VPACK8 with j = 2 writes bits [23:16] and keeps the other three bytes; VUNPK8 takes them back. -/
theorem test_vpack8 : lane5 (exec (.vpack8 0 1 2 (.s 3)) (setR (setV (setV base 2 fun _ => 0xAB) 1 fun _ => 0x11223344) 3 6)) 1 0x11AB3344 = true := by
  decide
theorem test_vunpk8 : lane5 (exec (.vunpk8 0 1 2 (.s 3)) (setR (setV base 2 fun _ => 0x11AB3344) 3 6)) 1 0xAB = true := by decide
/-- The worked example of R225: seed 0x0A5F and QBASE 0x0A5E in MF8; 4.05 at index 0x0A5E has the code 0x7E, and decodes to 3.7919922. -/
def dithered (x : W32) : State :=
  let s := setV base 4 fun _ => x
  { s with me := { s.me with qctx := 0x0A5F0030, qbase := 0x0A5E } }
theorem test_vqnt : nextIs (exec (.vqnt 0 20 4 (.v 0)) (dithered 0x4081999A)) (fun t => t.me.v[(20 : VReg)][(0 : Fin 32)] == (0x7E : W32)) = true := by
  decide
theorem test_vdqnt : nextIs (exec (.vdqnt 0 21 4 (.v 0)) (dithered 0x7E)) (fun t => t.me.v[(21 : VReg)][(0 : Fin 32)] == (0x4072B000 : W32)) = true := by
  decide
theorem test_vdgen : nextIs (exec (.vdgen 0 22 (.v 0)) (dithered 0)) (fun t => t.me.v[(22 : VReg)][(0 : Fin 32)] == (0xBEAC0000 : W32)) = true := by
  decide
end Sys2Proof.Tests
end

section
/-! SUPPORT. O60: storage stays in canonical form. One lemma for each operation of the model that gives a state, in the order of the
model and under its name: from a state with `State.MemOk` it gives one again. Most operations do not touch storage, so that their
lemmas hold by the hypothesis itself; the work is done where bytes are put, cleared or copied, and where an image of a checkpoint is
written, changed or loaded. -/

namespace Sys2Proof.Machine

open Sys2Proof

/-! ### What the answers of operations keep -/

/-- The state that comes with an answer has its storage in canonical form. -/
def FstOk {α : Type} (p : State × α) : Prop := p.1.MemOk
/-- An optional state, where there is one. -/
def SomeOk (o : Option State) : Prop := ∀ t, o = some t → t.MemOk
/-- An optional state with an answer, where there is one. -/
def SomeFstOk {α : Type} (o : Option (State × α)) : Prop := ∀ p, o = some p → p.1.MemOk
/-- An outcome, where the machine goes on. -/
def OutOk (o : Out State) : Prop := ∀ t, o = .next t → t.MemOk
/-- A performed entry of a side log. -/
def PerfOk (p : Perf) : Prop := ∀ t, p = .done t → t.MemOk

theorem ite_keeps {α : Type} {P : α → Prop} {c : Prop} [Decidable c] {a b : α} (ha : P a) (hb : P b) : P (if c then a else b) := by
  split <;> assumption
theorem foldl_keeps {α β : Type} {P : α → Prop} {f : α → β → α} {l : List β} {a : α} (ha : P a) (hf : ∀ t x, P t → P (f t x)) :
    P (l.foldl f a) := by
  induction l generalizing a with
  | nil => exact ha
  | cons x l ih => exact ih (hf a x ha)
theorem next_keeps {s : State} (hs : s.MemOk) : OutOk (.next s) := fun _ e => by cases e; exact hs
theorem fault_keeps {r} : OutOk (.fault r) := fun _ e => by cases e
theorem fst_keeps {α : Type} {s : State} {a : α} (hs : s.MemOk) : FstOk (s, a) := hs
theorem some_keeps {s : State} (hs : s.MemOk) : SomeOk (some s) := fun _ e => by cases e; exact hs
theorem none_keeps : SomeOk none := fun _ e => by cases e
theorem someFst_keeps {α : Type} {p : State × α} (hs : FstOk p) : SomeFstOk (some p) := fun _ e => by cases e; exact hs
theorem noneFst_keeps {α : Type} : SomeFstOk (none : Option (State × α)) := fun _ e => by cases e
theorem fst_of_eq {α : Type} {p : State × α} {t : State} {a : α} (e : p = (t, a)) (h : FstOk p) : t.MemOk := by rw [e] at h; exact h
theorem some_of_eq {o : Option State} {t : State} (e : o = some t) (h : SomeOk o) : t.MemOk := h t e
theorem someFst_of_eq {α : Type} {o : Option (State × α)} {t : State} {a : α} (e : o = some (t, a)) (h : SomeFstOk o) : t.MemOk := h _ e
theorem done_keeps {s : State} (hs : s.MemOk) : PerfOk (.done s) := fun _ e => by cases e; exact hs
theorem perf_wait_keeps : PerfOk .wait := fun _ e => by cases e
theorem perf_replay_keeps : PerfOk .replay := fun _ e => by cases e
theorem perf_fatal_keeps {t} : PerfOk (.fatal t) := fun _ e => by cases e
theorem perf_tainted_keeps {t} : PerfOk (.tainted t) := fun _ e => by cases e
theorem done_of_eq {p : Perf} {t : State} (e : p = .done t) (h : PerfOk p) : t.MemOk := h t e

/-! ### Storage, images and the two updates that may touch them -/

theorem modMgmt_memOk {s : State} {f : Mgmt → Mgmt} (hs : s.MemOk)
    (hf : (f s.mgmt).images = s.mgmt.images) : (s.modMgmt f).MemOk :=
  ⟨hs.1, hf ▸ hs.2⟩
theorem onSoc_memOk {s : State} {f : Soc → Soc} (hs : s.MemOk)
    (hf : Memory.wf (f s.toSoc).mem = true) : (s.onSoc f).MemOk :=
  ⟨hf, hs.2⟩
theorem memSet_wf (a : Nat) (b : Byte) (m : List Host.Cell)
    (h : Memory.wf m = true) : Memory.wf (memSet a b m) = true :=
  memWfFrom_memSet none a b m h (by simp)
theorem putPart_wf (c : Soc) (a : Nat) (mask val : Byte) (p : Bool) (h : Memory.wf c.mem = true) :
    Memory.wf (c.putPart a mask val p).mem = true :=
  memSet_wf a _ c.mem h
theorem mem_kset {κ α : Type} [DecidableEq κ] {k : κ} {a : α} {m : KMap κ α} {p : κ × α}
    (h : p ∈ kset k a m) : p = (k, a) ∨ p ∈ m := by
  induction m with
  | nil => simpa [kset] using h
  | cons c r ih =>
    unfold kset at h
    split at h
    · exact (List.mem_cons.mp h).imp id (List.mem_cons_of_mem _)
    · rcases List.mem_cons.mp h with h | h
      · exact .inr (h ▸ List.mem_cons_self)
      · exact (ih h).imp id (List.mem_cons_of_mem _)
theorem mem_of_kfind {κ α : Type} [DecidableEq κ] {k : κ} {a : α} {m : KMap κ α}
    (h : kfind k m = some a) : (k, a) ∈ m := by
  induction m with
  | nil => cases h
  | cons c r ih =>
    obtain ⟨k', a'⟩ := c
    unfold kfind at h
    split at h
    · rename_i e
      cases h
      exact e ▸ List.mem_cons_self
    · exact List.mem_cons_of_mem _ (ih h)
/-- An image with its memory in canonical form takes its place among the others. -/
theorem setImage_memOk {s : State} {f : Mgmt → Mgmt} {i : Nat} {img : Image} (hs : s.MemOk)
    (hi : Memory.wf img.soc.mem = true)
    (hf : (f s.mgmt).images = kset i img s.mgmt.images) : (s.modMgmt f).MemOk := by
  refine ⟨hs.1, fun p hp => ?_⟩
  change p ∈ (f s.mgmt).images at hp
  rw [hf] at hp
  rcases mem_kset hp with rfl | h
  · exact hi
  · exact hs.2 p h
theorem extend_images (m : Mgmt) (kind svn d) : (m.extend kind svn d).images = m.images := by
  unfold Mgmt.extend
  generalize sha256 _ = x
  rfl

/-! ### Named operations: units, events, futures, scopes, tasks and kills -/

theorem modCore_memOk {s : State} {c f} (hs : s.MemOk) : (s.modCore c f).MemOk := hs
theorem modCluster_memOk {s : State} {c f} (hs : s.MemOk) : (s.modCluster c f).MemOk := hs
theorem modDie_memOk {s : State} {d f} (hs : s.MemOk) : (s.modDie d f).MemOk := hs
theorem modSup_memOk {s : State} {f} (hs : s.MemOk) : (s.modSup f).MemOk := hs
theorem modMe_memOk {s : State} {f} (hs : s.MemOk) : (s.modMe f).MemOk := hs
theorem bump_memOk {s : State} (hs : s.MemOk) : s.bump.MemOk := hs
theorem useFree_memOk {s : State} (hs : s.MemOk) : s.useFree.MemOk := hs
theorem modTg_memOk {s : State} {t f} (hs : s.MemOk) : (s.modTg t f).MemOk :=
  ite_keeps hs hs
theorem dropTg_memOk {s : State} {t} (hs : s.MemOk) : (s.dropTg t).MemOk := hs
theorem addTg_memOk {s : State} {g} (hs : s.MemOk) : (s.addTg g).MemOk :=
  ite_keeps hs hs
theorem focus_memOk {s : State} {t} (hs : s.MemOk) : (s.focus t).MemOk := by
  unfold State.focus
  refine ite_keeps hs ?_
  split <;> exact hs
theorem advance_memOk {s : State} (hs : s.MemOk) : s.advance.MemOk := hs
theorem jump_memOk {s : State} {t} (hs : s.MemOk) : (s.jump t).MemOk := hs
theorem stall_memOk {s : State} (hs : s.MemOk) : s.stall.MemOk := hs
theorem park_memOk {s : State} {kind obj} (hs : s.MemOk) : (s.park kind obj).MemOk := hs
theorem waitFor_memOk {s : State} {kind obj met done} (hs : s.MemOk) (hdone : ∀ (t : State), t.MemOk → (done t).MemOk) :
    (s.waitFor kind obj met done).MemOk :=
  ite_keeps hs (ite_keeps (hdone _ hs) (ite_keeps hs hs))
theorem count_memOk {s : State} {d sel n} (hs : s.MemOk) : (s.count d sel n).MemOk := hs
theorem encode_memOk {s : State} {d lo hi} (hs : s.MemOk) : (s.encode d lo hi).MemOk :=
  ite_keeps hs hs
theorem encodeSpad_memOk {s : State} {a n} (hs : s.MemOk) : (s.encodeSpad a n).MemOk :=
  ite_keeps (encode_memOk hs) hs
theorem encodeLine_memOk {s : State} {d va} (hs : s.MemOk) : (s.encodeLine d va).MemOk :=
  encode_memOk hs
theorem modRegion_memOk {s : State} {d asid va f} (hs : s.MemOk) : (s.modRegion d asid va f).MemOk := hs
theorem sendCollapses_memOk {s : State} {wr by_ home asid va window} (hs : s.MemOk) :
    FstOk (s.sendCollapses wr by_ home asid va window) :=
  ite_keeps (fst_keeps hs) (fst_keeps (foldl_keeps (ite_keeps hs hs) fun _ _ h => h))
theorem collapseRegion_memOk {s : State} {r} (hs : s.MemOk) : (s.collapseRegion r).MemOk :=
  foldl_keeps hs fun _ _ h => sendCollapses_memOk h
theorem windowEnd_memOk {s : State} {die asid va} (hs : s.MemOk) : (s.windowEnd die asid va).MemOk :=
  ite_keeps hs (ite_keeps (ite_keeps hs (collapseRegion_memOk hs)) (ite_keeps (ite_keeps hs hs) hs))
theorem countAccess_memOk {s : State} {home asid va f} (hs : s.MemOk) : (s.countAccess home asid va f).MemOk :=
  modRegion_memOk (ite_keeps (windowEnd_memOk hs) hs)
theorem countWrite_memOk {s : State} {home asid va} (hs : s.MemOk) : (s.countWrite home asid va).MemOk :=
  countAccess_memOk (encodeLine_memOk hs)
theorem dropReplicas_memOk {s : State} {home asid va} (hs : s.MemOk) : (s.dropReplicas home asid va).MemOk := by
  unfold State.dropReplicas
  extract_lets +onlyGivenNames rs
  clear_value rs
  refine ite_keeps hs ?_
  extract_lets +onlyGivenNames s1 u
  have h : s1.MemOk := foldl_keeps hs fun _ _ h => h
  have h1 : u.MemOk := h
  clear_value s1
  exact h1
theorem wakeWatches_memOk {s : State} {a n} (hs : s.MemOk) : (s.wakeWatches a n).MemOk :=
  foldl_keeps hs fun _ _ h => ite_keeps h h
theorem writeAt_memOk {s : State} {a bs p} (hs : s.MemOk) : (s.writeAt a bs p).MemOk :=
  wakeWatches_memOk ⟨put_wf _ a bs p (encodeSpad_memOk hs).1, (encodeSpad_memOk hs).2⟩
theorem homeWrite_memOk {s : State} {a bs} (hs : s.MemOk) : (s.homeWrite a bs).MemOk := by
  unfold State.homeWrite
  extract_lets +onlyGivenNames s1 hit s2
  have h : s1.MemOk := writeAt_memOk hs
  have h1 : s2.MemOk := foldl_keeps h fun _ _ h1 => h1
  clear_value s1
  exact h1
theorem trace_memOk {s : State} {typ pc} (hs : s.MemOk) : (s.trace typ pc).MemOk := by
  unfold State.trace
  split
  · exact hs
  · exact ite_keeps hs (modMgmt_memOk (homeWrite_memOk hs) rfl)
theorem hwPut_memOk {s : State} {asid va a bs} (hs : s.MemOk) : (s.hwPut asid va a bs).MemOk :=
  ite_keeps (writeAt_memOk hs) (foldl_keeps (writeAt_memOk hs) fun _ _ h =>
    ite_keeps h (dropReplicas_memOk (countWrite_memOk h)))
theorem hwGather_memOk {s : State} {who va n a} (hs : s.MemOk) : FstOk (s.hwGather who va n a) := by
  unfold State.hwGather
  extract_lets +onlyGivenNames w first
  split <;> exact fst_keeps hs
theorem noteEvent_memOk {s : State} {typ asid} (hs : s.MemOk) : (s.noteEvent typ asid).MemOk := by
  unfold State.noteEvent
  extract_lets
  refine ite_keeps hs ⟨hs.1, ?_⟩
  dsimp only
  split <;> exact hs.2
theorem eventNow_memOk {s : State} {typ asid rec_ done} (hs : s.MemOk) : FstOk (s.eventNow typ asid rec_ done) := by
  unfold State.eventNow
  extract_lets +onlyGivenNames idx
  refine ite_keeps (fst_keeps (noteEvent_memOk hs)) ?_
  extract_lets +onlyGivenNames va rest
  split
  · exact fst_keeps (noteEvent_memOk (hwPut_memOk hs))
  · exact fst_keeps (hwPut_memOk hs)
  · exact fst_keeps hs
  · exact fst_keeps (ite_keeps (noteEvent_memOk hs) (noteEvent_memOk (noteEvent_memOk hs)))
  · exact fst_keeps (noteEvent_memOk hs)
theorem wakeUp_memOk {s : State} (hs : s.MemOk) : s.wakeUp.MemOk := by
  refine ⟨hs.1, ?_⟩
  unfold State.wakeUp State.modMgmt
  dsimp only
  split <;> exact hs.2
theorem post_memOk {s : State} {typ die cl asid fs} (hs : s.MemOk) : (s.post typ die cl asid fs).MemOk := by
  unfold State.post
  extract_lets +onlyGivenNames rec_ s1
  have h : s1.MemOk := wakeUp_memOk (trace_memOk hs)
  refine ite_keeps ?_ h
  split
  · rename_i t e
    have h1 : t.MemOk := fst_of_eq e (eventNow_memOk h)
    exact h1
  · rename_i t _ e
    have h1 : t.MemOk := fst_of_eq e (eventNow_memOk h)
    exact h1
theorem misplaced_memOk {s : State} {asid c va pa} (hs : s.MemOk) : (s.misplaced asid c va pa).MemOk :=
  post_memOk hs
theorem hwNow_memOk {s : State} {asid va bs} (hs : s.MemOk) : FstOk (s.hwNow asid va bs) := by
  unfold State.hwNow
  split
  · exact fst_keeps (hwPut_memOk hs)
  · exact fst_keeps (hwPut_memOk hs)
  · exact fst_keeps hs
  · exact fst_keeps (misplaced_memOk hs)
  · exact fst_keeps hs
theorem hwWrite_memOk {s : State} {asid va bs} (hs : s.MemOk) : (s.hwWrite asid va bs).MemOk := by
  unfold State.hwWrite
  refine ite_keeps ?_ hs
  split
  · rename_i t e
    have h : t.MemOk := fst_of_eq e (hwNow_memOk hs)
    exact h
  · rename_i t _ e
    have h : t.MemOk := fst_of_eq e (hwNow_memOk hs)
    exact h
theorem supWrite_memOk {s : State} {va bs} (hs : s.MemOk) : (s.supWrite va bs).MemOk :=
  hwWrite_memOk hs
theorem hwJob_memOk {s : State} {j} (hs : s.MemOk) : FstOk (s.hwJob j) := by
  unfold State.hwJob
  split
  · exact hwNow_memOk hs
  · split
    rename_i e
    exact fst_keeps (fst_of_eq e (eventNow_memOk hs))
theorem flushHw_memOk {n} {s : State} (hs : s.MemOk) : (State.flushHw n s).MemOk := by
  induction n generalizing s with
  | zero => exact hs
  | succ n ih =>
    unfold State.flushHw
    split
    · exact hs
    · split
      · rename_i t e
        have h : t.MemOk := fst_of_eq e (hwJob_memOk hs)
        exact ih h
      · rename_i t _ e
        have h : t.MemOk := fst_of_eq e (hwJob_memOk hs)
        exact h
theorem modFut_memOk {s : State} {ah f} (hs : s.MemOk) : (s.modFut ah f).MemOk := hs
theorem modTask_memOk {s : State} {ah f} (hs : s.MemOk) : (s.modTask ah f).MemOk := hs
theorem modCtx_memOk {s : State} {a f} (hs : s.MemOk) : (s.modCtx a f).MemOk := hs
theorem modScope_memOk {s : State} {a i f} (hs : s.MemOk) : (s.modScope a i f).MemOk := hs
theorem reapScopes_memOk {s : State} {a} (hs : s.MemOk) : (s.reapScopes a).MemOk :=
  ite_keeps hs hs
theorem wakeScope_memOk {s : State} {a i} (hs : s.MemOk) : (s.wakeScope a i).MemOk :=
  ite_keeps hs (modScope_memOk (foldl_keeps hs fun _ _ h => modTg_memOk h))
theorem leaveScopes_memOk {s : State} {t} (hs : s.MemOk) : (s.leaveScopes t).MemOk :=
  foldl_keeps hs fun _ _ h => reapScopes_memOk h
theorem freeFut_memOk {s : State} {ah} (hs : s.MemOk) : (s.freeFut ah).MemOk := by
  unfold State.freeFut
  split
  · exact hs
  · extract_lets +onlyGivenNames s1 s2
    have h : s1.MemOk := hs
    have h1 : s2.MemOk := by
      unfold s2
      split <;> exact h
    exact reapScopes_memOk h1
theorem scopeDone_memOk {n} {s : State} {a i} (hs : s.MemOk) : (State.scopeDone n s a i).MemOk := by
  induction n generalizing s a i with
  | zero => exact hs
  | succ n ih =>
    unfold State.scopeDone
    extract_lets +onlyGivenNames sc s1 mine s2 s3
    have h1 : s1.MemOk := modScope_memOk (wakeScope_memOk hs)
    clear_value s1
    have h2 : s2.MemOk := foldl_keeps h1 fun _ _ h => ite_keeps (freeFut_memOk h) h
    clear_value s2
    have h3 : s3.MemOk := reapScopes_memOk h2
    clear_value s3
    split
    · exact h3
    · exact ite_keeps h3 (ite_keeps (ih h3) (wakeScope_memOk h3))
theorem scopeLeaveNow_memOk {s : State} {a i} (hs : s.MemOk) : (s.scopeLeaveNow a i).MemOk :=
  ite_keeps hs (ite_keeps (scopeDone_memOk hs) (wakeScope_memOk hs))
theorem scopeLeave_memOk {s : State} {from_ ah a i} (hs : s.MemOk) : (s.scopeLeave from_ ah a i).MemOk := by
  unfold State.scopeLeave
  split
  · exact hs
  · exact ite_keeps (scopeLeaveNow_memOk hs) hs
theorem endSave_memOk {s : State} {ah st} (hs : s.MemOk) : (s.endSave ah st).MemOk := by
  unfold State.endSave
  extract_lets +onlyGivenNames s1 wake
  have h : s1.MemOk := ite_keeps hs hs
  exact h
theorem conclude_memOk {s : State} {f e} (hs : s.MemOk) : (s.conclude f e).MemOk := by
  unfold State.conclude
  extract_lets +onlyGivenNames f' s1 s2 s3 s4
  have h : s1.MemOk := hs
  have h1 : s2.MemOk := foldl_keeps h fun _ _ h1 => modTg_memOk h1
  have h2 : s3.MemOk := h1
  have h3 : s4.MemOk := endSave_memOk h2
  exact ite_keeps (freeFut_memOk h3) h3
theorem settle_memOk {s : State} {ah st v p code addr} (hs : s.MemOk) : (s.settle ah st v p code addr).MemOk := by
  unfold State.settle
  split
  · exact hs
  · exact ite_keeps hs (conclude_memOk hs)
theorem modRing_memOk {s : State} {c asid part desc f} (hs : s.MemOk) : (s.modRing c asid part desc f).MemOk := hs
theorem pruneFaults_memOk {s : State} (hs : s.MemOk) : s.pruneFaults.MemOk := hs
theorem dropRings_memOk {s : State} {c} (hs : s.MemOk) : (s.dropRings c).MemOk := hs
theorem unbind_memOk {s : State} {t} (hs : s.MemOk) : (s.unbind t).MemOk :=
  dropRings_memOk (modTg_memOk hs)
theorem takeOut_memOk {s : State} {ah} (hs : s.MemOk) : (s.takeOut ah).MemOk := by
  unfold State.takeOut
  split
  · exact hs
  · exact pruneFaults_memOk (dropRings_memOk (ite_keeps hs hs))
theorem removeQueued_memOk {s : State} {ah} (hs : s.MemOk) : (s.removeQueued ah).MemOk := by
  unfold State.removeQueued
  split
  · exact hs
  · exact scopeLeave_memOk (takeOut_memOk hs)
theorem releaseCore_memOk {s : State} {ah piece c} (hs : s.MemOk) : (s.releaseCore ah piece c).MemOk := hs
theorem giveBack_memOk {s : State} {o} (hs : s.MemOk) : (s.giveBack o).MemOk := by
  unfold State.giveBack
  split <;> exact hs
theorem dropLog_memOk {s : State} {c p} (hs : s.MemOk) : (s.dropLog c p).MemOk :=
  ite_keeps hs hs
theorem pruneLocks_memOk {s : State} (hs : s.MemOk) : s.pruneLocks.MemOk := hs
theorem endOp_memOk {s : State} {id} (hs : s.MemOk) : (s.endOp id).MemOk := by
  unfold State.endOp
  split
  · exact hs
  · extract_lets +onlyGivenNames s1 s2
    have h : s1.MemOk := hs
    have h1 : s2.MemOk := h
    split
    · exact modTg_memOk h1
    · exact h1
theorem stopStream_memOk {s : State} {o} (hs : s.MemOk) : (s.stopStream o).MemOk := by
  unfold State.stopStream
  split
  · exact hs
  · extract_lets +onlyGivenNames s1
    have h : s1.MemOk := pruneFaults_memOk (endOp_memOk hs)
    split
    · exact modTg_memOk h
    · exact h
  · exact hs
theorem stopTask_memOk {s : State} {ah} (hs : s.MemOk) : (s.stopTask ah).MemOk := by
  unfold State.stopTask
  extract_lets +onlyGivenNames gs mine s1 s2 s3
  have h : s1.MemOk := foldl_keeps hs fun _ _ h => dropLog_memOk (leaveScopes_memOk h)
  have h1 : s2.MemOk := h
  have h2 : s3.MemOk := h1
  exact pruneFaults_memOk (foldl_keeps h2 fun _ _ h3 => stopStream_memOk h3)
theorem releaseTask_memOk {s : State} {ah} (hs : s.MemOk) : (s.releaseTask ah).MemOk :=
  foldl_keeps (foldl_keeps hs fun _ _ h => dropTg_memOk (unbind_memOk h)) fun _ _ h => h
theorem discard_memOk {s : State} {ah} (hs : s.MemOk) : (s.discard ah).MemOk :=
  pruneLocks_memOk (releaseTask_memOk (stopTask_memOk hs))
theorem fltRoom_memOk {s : State} (hs : s.MemOk) : FstOk s.fltRoom := by
  unfold State.fltRoom
  extract_lets +onlyGivenNames va
  split
  · exact fst_keeps hs
  · exact fst_keeps hs
  · exact fst_keeps (misplaced_memOk hs)
  · exact fst_keeps hs
theorem fltRecord_memOk {s : State} {asid page kind c core} (hs : s.MemOk) :
    (s.fltRecord asid page kind c core).MemOk := by
  unfold State.fltRecord
  extract_lets +onlyGivenNames n rec_ s1 u
  have h : s1.MemOk := supWrite_memOk hs
  have h1 : u.MemOk := supWrite_memOk h
  exact h1
theorem addFault_memOk {s : State} {asid va kind c core} (hs : s.MemOk) : SomeOk (s.addFault asid va kind c core) := by
  unfold State.addFault
  extract_lets +onlyGivenNames page known
  refine ite_keeps (some_keeps hs) ?_
  refine ite_keeps none_keeps ?_
  refine ite_keeps none_keeps ?_
  extract_lets +onlyGivenNames s1 s2
  have h : s1.MemOk := fltRoom_memOk hs
  have h1 : s2.MemOk := ite_keeps h h
  exact some_keeps (fltRecord_memOk h1)
theorem engWait_memOk {s : State} {who asid va c} (hs : s.MemOk) : (s.engWait who asid va c).MemOk := by
  unfold State.engWait
  split
  · exact hs
  · rename_i t e
    have h : t.MemOk := some_of_eq e (addFault_memOk hs)
    exact h
theorem attempt_memOk {s : State} {who f} (hs : s.MemOk) (hf : ∀ (t : State), t.MemOk → (f t).MemOk) :
    (s.attempt who f).MemOk := by
  unfold State.attempt
  extract_lets +onlyGivenNames old s1 ws
  have h : s1.MemOk := hf _ hs
  exact ite_keeps h h
theorem recordCheck_memOk {s : State} {f r} (hs : s.MemOk) : FstOk (s.recordCheck f r) := by
  unfold State.recordCheck
  extract_lets +onlyGivenNames va
  split
  · split
    rename_i e
    exact fst_keeps (fst_of_eq e (hwGather_memOk hs))
  · exact fst_keeps (misplaced_memOk hs)
  · exact fst_keeps hs
theorem dropTask_memOk {s : State} {ah} (hs : s.MemOk) : (s.dropTask ah).MemOk := by
  unfold State.dropTask
  split
  · exact hs
  · exact ite_keeps (removeQueued_memOk hs) hs
theorem refillFut_memOk {s : State} {ah} (hs : s.MemOk) : (s.refillFut ah).MemOk := by
  unfold State.refillFut
  split
  · exact hs
  · split
    · exact hs
    · extract_lets +onlyGivenNames at_ res
      split
      · exact hs
      · extract_lets +onlyGivenNames writing
        refine ite_keeps hs ?_
        refine ite_keeps (engWait_memOk hs) ?_
        split
        · rename_i e
          exact fst_of_eq e (recordCheck_memOk hs)
        · rename_i t _ e
          have h : t.MemOk := fst_of_eq e (recordCheck_memOk hs)
          exact ite_keeps h (ite_keeps (conclude_memOk h) (dropTask_memOk (conclude_memOk h)))
theorem applyNote_memOk {s : State} {ah n} (hs : s.MemOk) : (s.applyNote ah n).MemOk := hs
theorem noteNow_memOk {s : State} {ah n} (hs : s.MemOk) : FstOk (s.noteNow ah n) :=
  ite_keeps (fst_keeps (refillFut_memOk hs)) (fst_keeps (applyNote_memOk (refillFut_memOk hs)))
theorem noteEntry_memOk {s : State} {from_ ah n} (hs : s.MemOk) : (s.noteEntry from_ ah n).MemOk := by
  unfold State.noteEntry
  extract_lets +onlyGivenNames late
  have h : ∀ (t : State), t.MemOk → (late t).MemOk := fun _ h => h
  refine ite_keeps ?_ (h _ hs)
  split
  · rename_i e
    exact fst_of_eq e (noteNow_memOk hs)
  · rename_i e
    exact h _ (fst_of_eq e (noteNow_memOk hs))
theorem settleHeld_memOk {s : State} {ah} (hs : s.MemOk) : (s.settleHeld ah).MemOk := by
  unfold State.settleHeld
  split
  · exact hs
  · refine ite_keeps hs ?_
    extract_lets +onlyGivenNames s1
    have h : s1.MemOk := refillFut_memOk hs
    split
    · exact h
    · split
      · exact ite_keeps h (conclude_memOk h)
      · exact h
theorem reapTask_memOk {s : State} {ah} (hs : s.MemOk) : (s.reapTask ah).MemOk := by
  unfold State.reapTask
  split
  · exact hs
  · refine ite_keeps hs ?_
    extract_lets +onlyGivenNames cl s1 s2
    have h : s1.MemOk := releaseTask_memOk hs
    have h1 : s2.MemOk := h
    exact scopeLeave_memOk (settleHeld_memOk h1)
theorem endTask_memOk {s : State} {ah e} (hs : s.MemOk) : (s.endTask ah e).MemOk := by
  unfold State.endTask
  split
  · exact hs
  · exact ite_keeps hs (reapTask_memOk (noteEntry_memOk (modTask_memOk (stopTask_memOk hs))))
theorem endQueued_memOk {s : State} {ah e} (hs : s.MemOk) : (s.endQueued ah e).MemOk := by
  unfold State.endQueued
  split
  · exact hs
  · exact scopeLeave_memOk (settleHeld_memOk (takeOut_memOk (noteEntry_memOk hs)))
theorem kill_memOk {s : State} {ah code addr} (hs : s.MemOk) : (s.kill ah code addr).MemOk :=
  endTask_memOk hs
theorem dropLone_memOk {s : State} {g} (hs : s.MemOk) : (s.dropLone g).MemOk := by
  unfold State.dropLone
  extract_lets +onlyGivenNames orphan s1 lone s2
  have h : s1.MemOk := modCore_memOk (dropLog_memOk hs)
  have h1 : s2.MemOk := h
  exact pruneFaults_memOk (dropTg_memOk (unbind_memOk (leaveScopes_memOk h1)))
theorem handlerFault_memOk {s : State} {g} (hs : s.MemOk) : (s.handlerFault g).MemOk :=
  post_memOk (dropLone_memOk hs)
theorem killMe_memOk {s : State} {code addr} (hs : s.MemOk) : (s.killMe code addr).MemOk :=
  ite_keeps (handlerFault_memOk hs) (ite_keeps (dropLone_memOk hs) (kill_memOk hs))
theorem killTg_memOk {s : State} {t code addr} (hs : s.MemOk) : (s.killTg t code addr).MemOk := by
  unfold State.killTg
  split
  · exact hs
  · exact ite_keeps (handlerFault_memOk hs) (ite_keeps (dropLone_memOk hs) (kill_memOk hs))
theorem poisonPc_memOk {s : State} (hs : s.MemOk) : s.poisonPc.MemOk :=
  killMe_memOk hs
theorem haltMe_memOk {s : State} {next} (hs : s.MemOk) : (s.haltMe next).MemOk :=
  modMe_memOk (post_memOk hs)
theorem trap_memOk {s : State} {cause addr info} (hs : s.MemOk) : (s.trap cause addr info).MemOk :=
  ite_keeps (killMe_memOk hs) hs
theorem tret_memOk {s : State} (hs : s.MemOk) : s.tret.MemOk := by
  unfold State.tret
  refine ite_keeps (trap_memOk hs) ?_
  split
  · exact trap_memOk hs
  · exact hs
theorem trapInfoReason_memOk {s : State} {cause addr reason handle} (hs : s.MemOk) :
    (s.trapInfoReason cause addr reason handle).MemOk :=
  trap_memOk hs

/-! ### Accesses of thread groups and the store buffer -/

theorem remoteRead_memOk {s : State} {d asid va pa} (hs : s.MemOk) : (s.remoteRead d asid va pa).MemOk := by
  unfold State.remoteRead
  extract_lets +onlyGivenNames home
  clear_value home
  refine ite_keeps hs ?_
  refine ite_keeps hs ?_
  extract_lets +onlyGivenNames s1
  have h : s1.MemOk := countAccess_memOk hs
  clear_value s1
  exact ite_keeps h h
theorem parkFault_memOk {s : State} {va kind} (hs : s.MemOk) : (s.parkFault va kind).MemOk := by
  unfold State.parkFault
  split
  · exact hs
  · rename_i t e
    have h : t.MemOk := some_of_eq e (addFault_memOk hs)
    exact h
theorem trFail_memOk {s : State} {va r} (hs : s.MemOk) : (s.trFail va r).MemOk := by
  unfold State.trFail
  split
  · exact parkFault_memOk hs
  · exact hs
  · exact killMe_memOk hs
  · exact killMe_memOk (misplaced_memOk hs)
  · exact killMe_memOk hs
theorem takeWr_memOk {s : State} {id} (hs : s.MemOk) : FstOk (s.takeWr id) := by
  unfold State.takeWr
  extract_lets +onlyGivenNames forget
  have h : ∀ (t : State), t.MemOk → (forget t).MemOk := fun _ h => h
  split
  · exact fst_keeps (stall_memOk (h _ hs))
  · exact ite_keeps (fst_keeps (h _ hs)) (fst_keeps hs)
theorem atomWait_memOk {s : State} {va z} (hs : s.MemOk) : (s.atomWait va z).MemOk :=
  ite_keeps hs hs
theorem serveLanes_memOk {s : State} {z g base f} (hs : s.MemOk) (hf : ∀ (t : State), t.MemOk → (f t).MemOk) :
    FstOk (s.serveLanes z g base f) := by
  unfold State.serveLanes
  extract_lets +onlyGivenNames c rs
  split
  · exact fst_keeps (atomWait_memOk hs)
  · exact fst_keeps (hf _ hs)
theorem loadLine_memOk {s : State} {z g} (hs : s.MemOk) : FstOk (s.loadLine z g) := by
  unfold State.loadLine
  extract_lets +onlyGivenNames c va
  split
  · split
    · rename_i e
      exact fst_keeps (fst_of_eq e (takeWr_memOk hs))
    · rename_i e
      exact fst_keeps (fst_of_eq e (takeWr_memOk hs))
  · refine ite_keeps (ite_keeps (ite_keeps (fst_keeps hs) (fst_keeps hs)) (ite_keeps (ite_keeps (fst_keeps hs)
      (fst_keeps hs)) (serveLanes_memOk hs fun _ h => h))) ?_
    refine ite_keeps (serveLanes_memOk hs fun _ h => remoteRead_memOk h) ?_
    split
    · exact ite_keeps (fst_keeps hs) (serveLanes_memOk hs fun _ h => remoteRead_memOk h)
    · exact serveLanes_memOk hs fun _ h => h
    · exact ite_keeps (fst_keeps (killMe_memOk hs)) (fst_keeps hs)
    · exact fst_keeps (trFail_memOk hs)
theorem keepLanes_memOk {s : State} {rs} (hs : s.MemOk) : (s.keepLanes rs).MemOk := hs
theorem paced_memOk {α : Type} {s : State} {k : State → State × Option α} (hs : s.MemOk)
    (hk : ∀ (t : State), t.MemOk → FstOk (k t)) :
    FstOk (s.paced k) := by
  unfold State.paced
  split
  · exact fst_keeps hs
  · exact hk _ hs
  · exact hk _ hs
theorem loadLoop_memOk {z n} {s : State} {l} (hs : s.MemOk) : FstOk (State.loadLoop z n s l) := by
  induction n generalizing s l with
  | zero => exact fst_keeps hs
  | succ n ih =>
    cases l with
    | nil => exact fst_keeps hs
    | cons x r =>
      unfold State.loadLoop
      split
      split
      · rename_i t e
        exact fst_keeps (fst_of_eq e (loadLine_memOk hs))
      · rename_i t _ e
        have h : t.MemOk := fst_of_eq e (loadLine_memOk hs)
        exact ite_keeps (fst_keeps (keepLanes_memOk h)) (paced_memOk (keepLanes_memOk h) fun _ h => ih h)
theorem loadFault_memOk {s : State} {z as_} (hs : s.MemOk) : SomeOk (s.loadFault z as_) := by
  unfold State.loadFault
  extract_lets +onlyGivenNames tr
  unfold Option.map
  split
  · exact some_keeps (trFail_memOk hs)
  · exact none_keeps
theorem loadAll_memOk {s : State} {z as_} (hs : s.MemOk) : FstOk (s.loadAll z as_) := by
  unfold State.loadAll
  extract_lets +onlyGivenNames todo
  split
  · rename_i e
    exact fst_keeps (some_of_eq e (ite_keeps (loadFault_memOk hs) none_keeps))
  · split
    · rename_i e
      exact fst_keeps (fst_of_eq e (loadLoop_memOk hs))
    · rename_i e
      exact fst_keeps (fst_of_eq e (loadLoop_memOk hs))
theorem storeGroup_memOk {s : State} {g} (hs : s.MemOk) : FstOk (s.storeGroup g) := by
  unfold State.storeGroup
  extract_lets +onlyGivenNames c k put faults
  have h : ∀ (t : State) (log stop : Bool), t.MemOk → (put t log stop).MemOk := fun _ _ _ h => h
  refine ite_keeps (ite_keeps (fst_keeps hs) (fst_keeps (h _ _ _ hs))) ?_
  refine ite_keeps ?_ (fst_keeps (h _ _ _ hs))
  refine ite_keeps (fst_keeps hs) ?_
  split
  · exact fst_keeps hs
  · rename_i e
    exact fst_keeps (h _ _ _ (some_of_eq e (addFault_memOk hs)))
theorem storeLoop_memOk {s : State} {l} (hs : s.MemOk) : FstOk (s.storeLoop l) := by
  induction l generalizing s with
  | nil => exact fst_keeps hs
  | cons x xs ih =>
    unfold State.storeLoop
    split
    · rename_i t e
      have h : t.MemOk := fst_of_eq e (storeGroup_memOk hs)
      exact ih h
    · rename_i t e
      have h : t.MemOk := fst_of_eq e (storeGroup_memOk hs)
      exact fst_keeps h
theorem storeCheck_memOk {s : State} {es} (hs : s.MemOk) : SomeOk (s.storeCheck es) := by
  unfold State.storeCheck
  split
  · unfold Option.map
    split
    · exact some_keeps (trFail_memOk hs)
    · exact none_keeps
  · unfold Option.map
    split
    · exact some_keeps (killMe_memOk hs)
    · exact none_keeps
theorem storeAll_memOk {s : State} {es} (hs : s.MemOk) : FstOk (s.storeAll es) := by
  unfold State.storeAll
  extract_lets +onlyGivenNames gs
  refine ite_keeps ?_ (storeLoop_memOk hs)
  split
  · rename_i e
    exact fst_keeps (some_of_eq e (storeCheck_memOk hs))
  · exact storeLoop_memOk hs
theorem atomAt_memOk {s : State} {a e} (hs : s.MemOk) : FstOk (s.atomAt a e) := by
  unfold State.atomAt
  split
  split
  · exact fst_keeps (writeAt_memOk hs)
  · exact fst_keeps (writeAt_memOk hs)
  · exact fst_keeps (writeAt_memOk hs)
  · exact fst_keeps (writeAt_memOk hs)
  · exact fst_keeps hs
theorem atomOne_memOk {s : State} {va minor data poison} (hs : s.MemOk) : FstOk (s.atomOne va minor data poison) := by
  unfold State.atomOne
  extract_lets +onlyGivenNames c a e here
  have h : ∀ (t : State) (at_ : ℕ), t.MemOk → FstOk (here t at_) := fun _ _ h => fst_keeps (writeAt_memOk h)
  split
  · split
    rename_i e1
    exact fst_keeps (fst_of_eq e1 (takeWr_memOk hs))
  · refine ite_keeps (fst_keeps hs) ?_
    refine ite_keeps (ite_keeps (h _ _ hs) (fst_keeps hs)) ?_
    split
    · exact ite_keeps (fst_keeps hs) (ite_keeps (h _ _ hs) (ite_keeps (h _ _ (countWrite_memOk hs)) (fst_keeps hs)))
    · exact fst_keeps hs
    · exact ite_keeps (fst_keeps (killMe_memOk hs)) (fst_keeps hs)
    · exact fst_keeps (trFail_memOk hs)
theorem atomLoop_memOk {minor} {s : State} {l} (hs : s.MemOk) : FstOk (State.atomLoop minor s l) := by
  induction l generalizing minor s with
  | nil => exact fst_keeps hs
  | cons x xs ih =>
    unfold State.atomLoop
    split
    · rename_i e
      exact fst_keeps (fst_of_eq e (atomOne_memOk hs))
    · rename_i t _ e
      have h : t.MemOk := fst_of_eq e (atomOne_memOk hs)
      exact ite_keeps (fst_keeps h) (paced_memOk h fun _ h1 => ih h1)
theorem atomFault_memOk {s : State} {es} (hs : s.MemOk) : SomeOk (s.atomFault es) := by
  unfold State.atomFault
  split
  · exact some_keeps (trFail_memOk hs)
  · exact storeCheck_memOk hs
theorem atomAll_memOk {s : State} {minor ops} (hs : s.MemOk) : FstOk (s.atomAll minor ops) := by
  unfold State.atomAll
  extract_lets +onlyGivenNames todo
  split
  · rename_i e
    exact fst_keeps (some_of_eq e (ite_keeps (atomFault_memOk hs) none_keeps))
  · split
    · rename_i e
      exact fst_keeps (fst_of_eq e (atomLoop_memOk hs))
    · rename_i e
      exact fst_keeps (fst_of_eq e (atomLoop_memOk hs))
theorem afterFence_memOk {s : State} {sc k} (hs : s.MemOk) (hk : ∀ (t : State), t.MemOk → (k t).MemOk) :
    (s.afterFence sc k).MemOk :=
  ite_keeps (hk _ hs) hs

/-! ### Predicates and condition registers -/

theorem withK_memOk {s : State} {g f} (hs : s.MemOk) (hf : ∀ (t : State), t.MemOk → (f t).MemOk) :
    (s.withK g f).MemOk :=
  ite_keeps (hf _ hs) (ite_keeps (poisonPc_memOk hs) (ite_keeps (hf _ hs) hs))
theorem withP_memOk {s : State} {g f} (hs : s.MemOk) (hf : ∀ (t : State), t.MemOk → (f t).MemOk) :
    (s.withP g f).MemOk :=
  ite_keeps (poisonPc_memOk hs) (hf _ hs)

/-! ### Guards and operands -/

theorem setS_memOk {s : State} {r v p} (hs : s.MemOk) : (s.setS r v p).MemOk := hs
theorem withKop_memOk {s : State} {k f} (hs : s.MemOk) (hf : ∀ (a : W32) (b : Bool), (f a b).MemOk) :
    (s.withKop k f).MemOk := by
  unfold State.withKop
  split
  · exact trap_memOk hs
  · split
    · exact hf _ _
    · split
      · exact atomWait_memOk hs
      · exact hs
theorem uni2_memOk {s : State} {g d a b f} (hs : s.MemOk) : (s.uni2 g d a b f).MemOk :=
  withK_memOk hs fun _ h => h
theorem uniK_memOk {s : State} {g d a k f} (hs : s.MemOk) : (s.uniK g d a k f).MemOk :=
  withK_memOk hs fun _ h => withKop_memOk h fun _ _ => h
theorem uni1_memOk {s : State} {g d a f} (hs : s.MemOk) : (s.uni1 g d a f).MemOk :=
  withK_memOk hs fun _ h => h
theorem cmp2_memOk {s : State} {g d a b f} (hs : s.MemOk) : (s.cmp2 g d a b f).MemOk :=
  withK_memOk hs fun _ h => h
theorem kop2_memOk {s : State} {g d a b f} (hs : s.MemOk) : (s.kop2 g d a b f).MemOk :=
  withK_memOk hs fun _ h => h
theorem vec2_memOk {s : State} {g d a b f} (hs : s.MemOk) : (s.vec2 g d a b f).MemOk :=
  withP_memOk hs fun _ h => h
theorem vec3_memOk {s : State} {g d a b f} (hs : s.MemOk) : (s.vec3 g d a b f).MemOk :=
  withP_memOk hs fun _ h => h
theorem vec1_memOk {s : State} {g d a f} (hs : s.MemOk) : (s.vec1 g d a f).MemOk :=
  withP_memOk hs fun _ h => h
theorem vecK_memOk {s : State} {g d a k f} (hs : s.MemOk) : (s.vecK g d a k f).MemOk :=
  withP_memOk hs fun _ h => withKop_memOk h fun _ _ => h
theorem vcmp_memOk {s : State} {g d a b f} (hs : s.MemOk) : (s.vcmp g d a b f).MemOk :=
  withP_memOk hs fun _ h => h
theorem pop2_memOk {s : State} {g d a b f} (hs : s.MemOk) : (s.pop2 g d a b f).MemOk :=
  withP_memOk hs fun _ h => h

/-! ### Conversions, quantisation and QCTX -/

theorem unpackPair_memOk {s : State} {g d a f} (hs : s.MemOk) : (s.unpackPair g d a f).MemOk :=
  withP_memOk hs fun _ h => h
theorem withQ_memOk {s : State} {g f} (hs : s.MemOk)
    (hf : ∀ (t : State) (b c : W64) (d : W32), t.MemOk → (f t b c d).MemOk) :
    (s.withQ g f).MemOk :=
  withP_memOk hs fun _ h => ite_keeps (trap_memOk h) (hf _ _ _ _ h)
theorem illegal4_memOk {s : State} {word} (hs : s.MemOk) : (s.illegal4 word).MemOk :=
  trap_memOk hs
theorem execVqcfg_memOk {a b} {s : State} (hs : s.MemOk) : OutOk (execVqcfg a b s) := by
  unfold execVqcfg
  extract_lets +onlyGivenNames q
  refine next_keeps ?_
  split
  · exact illegal4_memOk hs
  · exact trap_memOk hs
  · exact hs

/-! ### Vector and uniform loads and stores -/

theorem withChecks_memOk {s : State} {write poison z as_ f} (hs : s.MemOk) (hf : ∀ (t : State), t.MemOk → (f t).MemOk) :
    (s.withChecks write poison z as_ f).MemOk := by
  unfold State.withChecks
  refine ite_keeps (hf _ hs) ?_
  refine ite_keeps (poisonPc_memOk hs) ?_
  split
  · exact trap_memOk hs
  · exact hf _ hs
theorem vecMem_memOk {s : State} {g write z addr poison f} (hs : s.MemOk)
    (hf : ∀ (t : State) (b : List (Fin 32)), t.MemOk → (f t b).MemOk) :
    (s.vecMem g write z addr poison f).MemOk :=
  withK_memOk hs fun _ h => ite_keeps h (withChecks_memOk h fun _ h1 => hf _ _ h1)
theorem vload_memOk {s : State} {g z addr poison put} (hs : s.MemOk)
    (hput : ∀ (t : State) (b : LaneVals), t.MemOk → (put t b).MemOk) :
    (s.vload g z addr poison put).MemOk := by
  unfold State.vload
  refine vecMem_memOk hs fun t lanes h => ?_
  split
  · rename_i e
    exact fst_of_eq e (loadAll_memOk h)
  · rename_i e
    exact advance_memOk (hput _ _ (fst_of_eq e (loadAll_memOk h)))
theorem putN_memOk {n d} {s : State} {r} (hs : s.MemOk) : (putN n d s r).MemOk :=
  foldl_keeps hs fun _ _ h => h
theorem vstore_memOk {s : State} {g z addr poison data} (hs : s.MemOk) : (s.vstore g z addr poison data).MemOk := by
  unfold State.vstore
  refine vecMem_memOk hs fun t lanes h => ?_
  split
  · rename_i t1 e
    have h1 : t1.MemOk := fst_of_eq e (storeAll_memOk h)
    exact h1
  · rename_i t1 e
    have h1 : t1.MemOk := fst_of_eq e (storeAll_memOk h)
    exact h1
theorem withFmt_memOk {s : State} {g f} (hs : s.MemOk) (hf : ∀ (t : State), t.MemOk → (f t).MemOk) :
    (s.withFmt g f).MemOk :=
  withK_memOk hs fun _ h => ite_keeps (trap_memOk h) (hf _ h)
theorem qload_memOk {s : State} {g d a e ep} (hs : s.MemOk) : (s.qload g d a e ep).MemOk :=
  withFmt_memOk hs fun _ h => vload_memOk h fun _ _ h1 => h1
theorem qstore_memOk {s : State} {g d a e ep} (hs : s.MemOk) : (s.qstore g d a e ep).MemOk := by
  unfold State.qstore
  refine withFmt_memOk hs fun t h => ?_
  refine vecMem_memOk h fun t1 lanes h1 => ?_
  extract_lets +onlyGivenNames t2 ent
  split
  · rename_i t3 e1
    have h2 : t3.MemOk := fst_of_eq e1 (storeAll_memOk h1)
    exact h2
  · rename_i t3 e1
    have h2 : t3.MemOk := fst_of_eq e1 (storeAll_memOk h1)
    exact h2
theorem uload_memOk {s : State} {d a va z f} (hs : s.MemOk) : (s.uload d a va z f).MemOk := by
  unfold State.uload
  refine withChecks_memOk hs fun t h => ?_
  split
  · rename_i t1 e
    have h1 : t1.MemOk := fst_of_eq e (loadAll_memOk h)
    exact h1
  · rename_i t1 _ e
    have h1 : t1.MemOk := fst_of_eq e (loadAll_memOk h)
    exact h1
theorem ustore_memOk {s : State} {d a va z} (hs : s.MemOk) : (s.ustore d a va z).MemOk := by
  unfold State.ustore
  refine withChecks_memOk hs fun t h => ?_
  split
  · rename_i t1 e
    have h1 : t1.MemOk := fst_of_eq e (storeAll_memOk h)
    exact h1
  · rename_i t1 e
    have h1 : t1.MemOk := fst_of_eq e (storeAll_memOk h)
    exact h1

/-! ### Atomics -/

theorem withAtomStep1_memOk {s : State} {minor nr format f} (hs : s.MemOk) (hf : ∀ (t : State), t.MemOk → (f t).MemOk) :
    (s.withAtomStep1 minor nr format f).MemOk :=
  ite_keeps (trap_memOk hs) (ite_keeps (trap_memOk hs) (hf _ hs))
theorem atomFence_memOk {s : State} {sc f} (hs : s.MemOk) (hf : ∀ (t : State), t.MemOk → (f t).MemOk) :
    (s.atomFence sc f).MemOk := by
  unfold State.atomFence
  split
  · exact afterFence_memOk hs hf
  · exact afterFence_memOk hs hf
  · exact afterFence_memOk hs hf
  · exact afterFence_memOk hs hf
  · exact hf _ hs
theorem atomRun_memOk {s : State} {minor nr sc ops put} (hs : s.MemOk)
    (hput : ∀ (t : State) (b : List (List Byte × List Bool)), t.MemOk → (put t b).MemOk) :
    (s.atomRun minor nr sc ops put).MemOk := by
  unfold State.atomRun
  extract_lets +onlyGivenNames ents
  refine atomFence_memOk hs fun t h => ?_
  refine ite_keeps ?_ ?_
  · split
    · rename_i t1 e
      have h1 : t1.MemOk := fst_of_eq e (storeAll_memOk h)
      exact h1
    · rename_i t1 e
      have h1 : t1.MemOk := fst_of_eq e (storeAll_memOk h)
      exact h1
  · split
    · rename_i t1 e
      have h1 : t1.MemOk := fst_of_eq e (atomAll_memOk h)
      exact h1
    · rename_i t1 _ e
      have h1 : t1.MemOk := fst_of_eq e (atomAll_memOk h)
      exact advance_memOk (hput _ _ h1)
theorem vatom_memOk {s : State} {minor z g a b nr sc format data put} (hs : s.MemOk)
    (hput : ∀ (t : State) (b : LaneVals), t.MemOk → (put t b).MemOk) :
    (s.vatom minor z g a b nr sc format data put).MemOk :=
  withK_memOk hs fun _ h => withAtomStep1_memOk h fun _ h1 => vecMem_memOk h1 fun _ _ h2 =>
    atomRun_memOk h2 fun _ _ h3 => hput _ _ h3
theorem vatom32_memOk {s : State} {minor g d a b nr sc} (hs : s.MemOk) : (s.vatom32 minor g d a b nr sc).MemOk :=
  vatom_memOk hs fun _ _ h => h
theorem uatom_memOk {s : State} {minor g d a nr sc data} (hs : s.MemOk) : (s.uatom minor g d a nr sc data).MemOk :=
  withK_memOk hs fun _ h => withAtomStep1_memOk h fun _ h1 => withChecks_memOk h1 fun _ h2 =>
    atomRun_memOk h2 fun _ _ h3 => h3

/-! ### Snapshots, accesses and writes of engines -/

theorem modOp_memOk {s : State} {id f} (hs : s.MemOk) : (s.modOp id f).MemOk := hs
theorem keepRead_memOk {s : State} {g key bs} (hs : s.MemOk) : (s.keepRead g key bs).MemOk := by
  unfold State.keepRead
  refine ite_keeps hs ?_
  split <;> exact hs
theorem keepPut_memOk {s : State} {g n} (hs : s.MemOk) : (s.keepPut g n).MemOk := by
  unfold State.keepPut
  split <;> exact hs
theorem forgetWords_memOk {s : State} {w} (hs : s.MemOk) : (s.forgetWords w).MemOk := by
  unfold State.forgetWords
  split
  · exact hs
  · exact ite_keeps hs hs
theorem slowRead_memOk {s : State} {g va} (hs : s.MemOk) : (s.slowRead g va).MemOk := by
  unfold State.slowRead
  split
  · exact keepRead_memOk hs
  · exact hs
theorem noteReads_memOk {s : State} {g vas} (hs : s.MemOk) : (s.noteReads g vas).MemOk := by
  unfold State.noteReads
  refine foldl_keeps hs fun t x h => ?_
  refine ite_keeps h ?_
  refine ite_keeps (remoteRead_memOk h) ?_
  split
  · exact remoteRead_memOk h
  · exact h
theorem sendFar_memOk {s : State} {g ws} (hs : s.MemOk) : (s.sendFar g ws).MemOk :=
  foldl_keeps hs fun _ _ h => h
theorem encodeBytes_memOk {s : State} {as_} (hs : s.MemOk) : (s.encodeBytes as_).MemOk :=
  ite_keeps hs (foldl_keeps hs fun _ _ h => encodeSpad_memOk h)
theorem engWrite_memOk {s : State} {g ws} (hs : s.MemOk) : (s.engWrite g ws).MemOk := by
  unfold State.engWrite
  extract_lets +onlyGivenNames all merged s1 part whole s2 s3 lines s4
  have h1 : s1.MemOk := encodeBytes_memOk hs
  have h2 : s2.MemOk := onSoc_memOk h1 (foldl_keeps (P := fun c : Soc => Memory.wf c.mem = true) h1.1 fun c x h =>
    putPart_wf c _ _ _ _ h)
  have h3 : s3.MemOk := onSoc_memOk h2 (putE_wf _ _ h2.1)
  have h4 : s4.MemOk := foldl_keeps h3 fun t x h =>
    ite_keeps (wakeWatches_memOk h) (dropReplicas_memOk (countWrite_memOk (wakeWatches_memOk h)))
  exact sendFar_memOk h4
theorem areaWrite_memOk {s : State} {g ws} (hs : s.MemOk) : (s.areaWrite g ws).MemOk :=
  onSoc_memOk (engWrite_memOk hs) (engWrite_memOk hs).1
theorem engWriteWords_memOk {s : State} {g word ws} (hs : s.MemOk) : (s.engWriteWords g word ws).MemOk := by
  unfold State.engWriteWords
  extract_lets +onlyGivenNames blocks u
  have h : blocks.MemOk := engWrite_memOk hs
  have h1 : u.MemOk := engWrite_memOk hs
  exact h1
theorem splitWrite_memOk {s : State} {g xs} (hs : s.MemOk) : (s.splitWrite g xs).MemOk := by
  unfold State.splitWrite
  split
  · exact hs
  · exact keepPut_memOk (engWrite_memOk hs)
theorem splitArea_memOk {s : State} {g xs} (hs : s.MemOk) : (s.splitArea g xs).MemOk := by
  unfold State.splitArea
  split
  · exact hs
  · exact keepPut_memOk (areaWrite_memOk hs)
theorem slowStep_memOk {s : State} {g f} (hs : s.MemOk) : (s.slowStep g f).MemOk := by
  unfold State.slowStep
  split
  · exact slowRead_memOk hs
  · exact splitWrite_memOk hs
  · exact hs
theorem snapFail_memOk {s : State} {va f} (hs : s.MemOk) : (s.snapFail va f).MemOk := by
  unfold State.snapFail
  split
  · exact trap_memOk hs
  · exact parkFault_memOk hs
  · exact hs
  · exact hs
  · exact hs
  · exact trFail_memOk hs
  · exact trFail_memOk hs
theorem snapRead_memOk {s : State} {c g cached va n} (hs : s.MemOk) : FstOk (s.snapRead c g cached va n) := by
  unfold State.snapRead
  split
  · exact fst_keeps hs
  · extract_lets +onlyGivenNames hit keep
    clear_value hit keep
    split
    · exact fst_keeps (keepRead_memOk hs)
    · extract_lets +onlyGivenNames s1
      have h1 : s1.MemOk := ite_keeps hs hs
      clear_value s1
      split
      · exact fst_keeps (slowRead_memOk h1)
      · exact fst_keeps h1
      · exact fst_keeps (ite_keeps (modCluster_memOk (noteReads_memOk (keepRead_memOk h1))) (noteReads_memOk
          (keepRead_memOk h1)))
theorem withSnap_memOk {s : State} {cached va n al k} (hs : s.MemOk)
    (hk : ∀ (t : State) (b : List Byte), t.MemOk → (k t b).MemOk) :
    (s.withSnap cached va n al k).MemOk := by
  unfold State.withSnap
  split
  · exact trap_memOk hs
  · exact trap_memOk hs
  · refine ite_keeps (trap_memOk hs) ?_
    split
    · rename_i e
      exact snapFail_memOk (fst_of_eq e (snapRead_memOk hs))
    · rename_i t _ e
      have h : t.MemOk := fst_of_eq e (snapRead_memOk hs)
      split
      · exact killMe_memOk h
      · exact hk _ _ h
theorem withMap_memOk {s : State} {va k} (hs : s.MemOk) (hk : ∀ (t : State) (b : TMap), t.MemOk → (k t b).MemOk) :
    (s.withMap va k).MemOk :=
  withSnap_memOk hs fun _ _ h => hk _ _ h
theorem trapRing_memOk {s : State} {addr reason handle} (hs : s.MemOk) : (s.trapRing addr reason handle).MemOk :=
  trapInfoReason_memOk hs
theorem trapFormat_memOk {s : State} {addr reason handle} (hs : s.MemOk) : (s.trapFormat addr reason handle).MemOk :=
  trapInfoReason_memOk hs
theorem trapFormatAny_memOk {s : State} {addr} (hs : s.MemOk) : (s.trapFormatAny addr).MemOk :=
  trapInfoReason_memOk hs
theorem takeLock_memOk {s : State} {c op owner asid srcs dsts} (hs : s.MemOk) :
    (s.takeLock c op owner asid srcs dsts).MemOk := by
  unfold State.takeLock
  split <;> exact hs
theorem issueOp_memOk {s : State} {kind tok pkt pktAddr maps full lock handles act} (hs : s.MemOk)
    (hact : ∀ (t : State), t.MemOk → (act t).MemOk) :
    (s.issueOp kind tok pkt pktAddr maps full lock handles act).MemOk := by
  unfold State.issueOp
  refine ite_keeps hs ?_
  extract_lets +onlyGivenNames s1 op s2 s3
  have h : s1.MemOk := hact _ hs
  have h1 : s2.MemOk := by
    unfold s2
    split
    · exact takeLock_memOk h
    · exact h
  have h2 : s3.MemOk := by
    unfold s3
    split <;> exact h1
  exact h2
theorem opFault_memOk {s : State} {id va} (hs : s.MemOk) : (s.opFault id va).MemOk := by
  unfold State.opFault
  split
  · exact hs
  · split
    · exact hs
    · rename_i t e
      have h : t.MemOk := some_of_eq e (addFault_memOk hs)
      exact h
theorem opKill_memOk {s : State} {o code va m} (hs : s.MemOk) : (s.opKill o code va m).MemOk := by
  unfold State.opKill
  extract_lets +onlyGivenNames s1 s2
  have h : s1.MemOk := by
    unfold s1
    split
    · exact misplaced_memOk hs
    · exact hs
  have h1 : s2.MemOk := endOp_memOk h
  split
  · exact ite_keeps (killTg_memOk h1) (kill_memOk h1)
  · exact h1
theorem engFail_memOk {s : State} {o f} (hs : s.MemOk) : (s.engFail o f).MemOk := by
  unfold State.engFail
  split
  · exact opFault_memOk hs
  · exact hs
  · exact opKill_memOk hs
  · exact opKill_memOk hs
  · exact opKill_memOk hs
  · exact slowStep_memOk hs
theorem engCommit_memOk {s : State} {o ws done} (hs : s.MemOk) (hdone : ∀ (t : State), t.MemOk → (done t).MemOk) :
    (s.engCommit o ws done).MemOk := by
  unfold State.engCommit
  split
  · exact hdone _ (engWrite_memOk hs)
  · exact engFail_memOk hs
theorem withRing_memOk {s : State} {ah k} (hs : s.MemOk) (hk : ∀ (t : State) (b : Ring), t.MemOk → (k t b).MemOk) :
    (s.withRing ah k).MemOk := by
  unfold State.withRing
  split
  · exact hk _ _ hs
  · exact trapRing_memOk hs

/-! ### The matrix unit -/

theorem withTiles_memOk {s : State} {f} (hs : s.MemOk) (hf : ∀ (t : State), t.MemOk → (f t).MemOk) :
    (s.withTiles f).MemOk :=
  ite_keeps hs (ite_keeps (hf _ hs) (ite_keeps hs hs))
theorem claimTiles_memOk {s : State} (hs : s.MemOk) : s.claimTiles.MemOk :=
  ite_keeps hs hs
theorem execMcfg_memOk {g a} {s : State} (hs : s.MemOk) : OutOk (execMcfg g a s) :=
  next_keeps (withK_memOk hs fun _ h => withTiles_memOk h fun _ h1 =>
    ite_keeps (poisonPc_memOk h1) (withSnap_memOk h1 fun _ _ h2 =>
    ite_keeps (trapFormatAny_memOk h2) (issueOp_memOk h2 fun _ h3 => modCore_memOk (claimTiles_memOk h3))))
theorem queueMstat_memOk {s : State} {acc} (hs : s.MemOk) : (s.queueMstat acc).MemOk := by
  unfold State.queueMstat
  refine ite_keeps hs ?_
  extract_lets +onlyGivenNames s1 op
  have h : s1.MemOk := claimTiles_memOk hs
  clear_value s1
  exact h
theorem execMstat_memOk {g d a} {s : State} (hs : s.MemOk) : OutOk (execMstat g d a s) := by
  unfold execMstat
  refine next_keeps ?_
  refine withK_memOk hs fun t h => ?_
  refine withTiles_memOk h fun t1 h1 => ?_
  split
  · exact h1
  · exact ite_keeps h1 (ite_keeps (queueMstat_memOk h1) (advance_memOk (setS_memOk (claimTiles_memOk h1))))
theorem runMstat_memOk {s : State} {o acc} (hs : s.MemOk) : (s.runMstat o acc).MemOk := by
  unfold State.runMstat
  extract_lets +onlyGivenNames st s1
  have h : s1.MemOk := endOp_memOk hs
  split
  · exact modTg_memOk h
  · exact h
theorem withTag_memOk {s : State} {r c i k} (hs : s.MemOk)
    (hk : ∀ (t : State) (b : W64 × List Byte), t.MemOk → (k t b).MemOk) :
    (s.withTag r c i k).MemOk := by
  unfold State.withTag
  extract_lets +onlyGivenNames a
  split
  · exact killMe_memOk hs
  · exact hk _ _ hs
theorem waitTwo_memOk {s : State} {a b f} (hs : s.MemOk) (hf : ∀ (t : State), t.MemOk → (f t).MemOk) :
    (s.waitTwo a b f).MemOk :=
  waitFor_memOk hs hf
theorem issueMma_memOk {s : State} {kind a b tags maps handles} (hs : s.MemOk) :
    (s.issueMma kind a b tags maps handles).MemOk :=
  issueOp_memOk hs fun _ h => modRing_memOk (modRing_memOk (claimTiles_memOk h))
theorem execMma_memOk {g d a b} {s : State} (hs : s.MemOk) : OutOk (execMma g d a b s) := by
  unfold execMma
  refine next_keeps ?_
  refine withK_memOk hs fun t h => ?_
  refine withTiles_memOk h fun t1 h1 => ?_
  refine withRing_memOk h1 fun t2 ra h2 => ?_
  refine withRing_memOk h2 fun t3 rb h3 => ?_
  extract_lets +onlyGivenNames c
  refine ite_keeps (trapRing_memOk h3) ?_
  refine ite_keeps (trapRing_memOk h3) ?_
  refine ite_keeps (trapRing_memOk h3) ?_
  split
  · exact trapFormat_memOk h3
  · refine waitTwo_memOk h3 fun t4 h4 => ?_
    refine withTag_memOk h4 fun t5 ta h5 => ?_
    refine withTag_memOk h5 fun t6 tb h6 => ?_
    extract_lets +onlyGivenNames k
    refine withMap_memOk h6 fun t7 ma h7 => ?_
    split
    · exact trapFormat_memOk h7
    · refine withMap_memOk h7 fun t8 mb h8 => ?_
      split
      · exact trapFormat_memOk h8
      · exact issueMma_memOk h8
theorem execMmas_memOk {g d a b} {s : State} (hs : s.MemOk) : OutOk (execMmas g d a b s) := by
  unfold execMmas
  refine next_keeps ?_
  refine withK_memOk hs fun t h => ?_
  refine withTiles_memOk h fun t1 h1 => ?_
  refine withRing_memOk h1 fun t2 ra h2 => ?_
  refine withRing_memOk h2 fun t3 rb h3 => ?_
  extract_lets +onlyGivenNames c
  refine ite_keeps (trapRing_memOk h3) ?_
  refine ite_keeps (trapRing_memOk h3) ?_
  refine ite_keeps (trapRing_memOk h3) ?_
  split
  · exact trapFormat_memOk h3
  · refine ite_keeps (trapFormat_memOk h3) ?_
    refine waitTwo_memOk h3 fun t4 h4 => ?_
    refine withTag_memOk h4 fun t5 tb h5 => ?_
    refine withMap_memOk h5 fun t6 mb h6 => ?_
    split
    · exact trapFormat_memOk h6
    · exact issueMma_memOk h6
theorem finishMma_memOk {s : State} {o acc ra rb ia ib t} (hs : s.MemOk) : (s.finishMma o acc ra rb ia ib t).MemOk :=
  modRing_memOk (modRing_memOk (endOp_memOk hs))
theorem matKill_memOk {s : State} {o code slot} (hs : s.MemOk) : (s.matKill o code slot).MemOk :=
  opKill_memOk (giveBack_memOk hs)
theorem runMma_memOk {s : State} {o acc ctx a b ia ib} (hs : s.MemOk) : (s.runMma o acc ctx a b ia ib).MemOk := by
  unfold State.runMma
  split
  · exact ite_keeps (matKill_memOk hs) (ite_keeps (matKill_memOk hs) (finishMma_memOk hs))
  · exact endOp_memOk hs
theorem runMmas_memOk {s : State} {o acc ctx a b ia ib} (hs : s.MemOk) : (s.runMmas o acc ctx a b ia ib).MemOk := by
  unfold State.runMmas
  split
  · extract_lets +onlyGivenNames sa sb p bs nnz used
    refine ite_keeps (matKill_memOk hs) ?_
    split
    · exact matKill_memOk hs
    · exact ite_keeps (matKill_memOk hs) (finishMma_memOk hs)
  · exact endOp_memOk hs
theorem execMdrain_memOk {g d a b} {s : State} (hs : s.MemOk) : OutOk (execMdrain g d a b s) := by
  refine next_keeps (withK_memOk hs fun _ hs => withTiles_memOk hs fun s hs => ite_keeps (poisonPc_memOk hs) ?_)
  refine withSnap_memOk hs fun s bs hs => ?_
  split
  refine withMap_memOk hs fun s m hs => ?_
  extract_lets ext format
  have hf : ∀ (s : State) (k : State → FmtCtx → State), s.MemOk → (∀ t ctx, t.MemOk → (k t ctx).MemOk) →
    (format s k).MemOk := by
    intro s k hs hk
    unfold format
    split
    · exact trap_memOk hs
    · exact ite_keeps (hk _ _ hs) (trap_memOk hs)
  clear_value format
  refine ite_keeps ?_ (hf _ _ hs fun _ _ h => issueOp_memOk h fun _ h => claimTiles_memOk h)
  split
  · exact trap_memOk hs
  · refine ite_keeps (trap_memOk hs) (hf _ _ hs fun _ _ h => waitFor_memOk h fun _ h => issueOp_memOk h fun _ h => ?_)
    exact modRing_memOk (claimTiles_memOk h)
theorem readDrain_memOk {s : State} {o acc ctx desc ring idx} (hs : s.MemOk) :
    (s.readDrain o acc ctx desc ring idx).MemOk := by
  unfold State.readDrain
  split
  · exact hs
  · exact endOp_memOk hs
theorem writeDrain_memOk {s : State} {o ws} (hs : s.MemOk) : (s.writeDrain o ws).MemOk := by
  unfold State.writeDrain
  refine engCommit_memOk hs fun t h => ?_
  split
  · exact ite_keeps (modRing_memOk (endOp_memOk h)) (endOp_memOk h)
  · exact endOp_memOk h
theorem withArea_memOk {s : State} {write b f} (hs : s.MemOk) (hf : ∀ (t : State) (b : W64), t.MemOk → (f t b).MemOk) :
    (s.withArea write b f).MemOk := by
  unfold State.withArea
  refine ite_keeps (poisonPc_memOk hs) ?_
  extract_lets +onlyGivenNames va
  split
  · exact trap_memOk hs
  · exact trap_memOk hs
  · exact ite_keeps (trap_memOk hs) (hf _ _ hs)
theorem execMsave_memOk {g d a b} {s : State} (hs : s.MemOk) : OutOk (execMsave g d a b s) :=
  next_keeps (withK_memOk hs fun _ h => withTiles_memOk h fun _ h1 => withArea_memOk h1 fun _ _ h2 =>
    issueOp_memOk h2 fun _ h3 => claimTiles_memOk h3)
theorem execMload_memOk {g d a b} {s : State} (hs : s.MemOk) : OutOk (execMload g d a b s) :=
  next_keeps (withK_memOk hs fun _ h => withTiles_memOk h fun _ h1 => withArea_memOk h1 fun _ _ h2 =>
    issueOp_memOk h2 fun _ h3 => claimTiles_memOk h3)
/-- The body replaces the function before it is applied: comparing the applied forms, the kernel would list every byte of a save area. -/
theorem runMload_memOk {s : State} {o acc va} (hs : s.MemOk) : (s.runMload o acc va).MemOk := by
  generalize h : @State.runMload = f
  delta State.runMload at h
  subst h
  beta_reduce
  split
  · exact endOp_memOk (modCore_memOk (noteReads_memOk hs))
  · exact engFail_memOk hs
theorem execMatrixOpStart_memOk {c} {s : State} (hs : s.MemOk) : OutOk (execMatrixOpStart c s) := by
  unfold execMatrixOpStart
  refine next_keeps ?_
  split
  · exact ite_keeps hs hs
  · exact hs
theorem matHeadDone_memOk {s : State} {c} (hs : s.MemOk) : (s.matHeadDone c).MemOk := by
  unfold State.matHeadDone
  split
  · refine ite_keeps hs ?_
    split
    · exact runMma_memOk hs
    · exact runMmas_memOk hs
    · exact endOp_memOk (modCore_memOk hs)
    · exact readDrain_memOk hs
    · split
      · exact endOp_memOk (areaWrite_memOk hs)
      · exact splitArea_memOk hs
      · exact engFail_memOk hs
    · exact runMload_memOk hs
    · exact endOp_memOk hs
    · exact runMstat_memOk hs
    · exact hs
  · exact hs
theorem execMatrixOpComplete_memOk {c} {s : State} (hs : s.MemOk) : OutOk (execMatrixOpComplete c s) := by
  unfold execMatrixOpComplete
  refine next_keeps ?_
  split
  · exact writeDrain_memOk hs
  · exact matHeadDone_memOk hs

/-! ### Rings -/

theorem rdef_memOk {s : State} {d a} (hs : s.MemOk) : (s.rdef d a).MemOk :=
  ite_keeps (poisonPc_memOk hs) (withSnap_memOk hs fun _ _ h =>
    ite_keeps (trapRing_memOk h) (ite_keeps (trapRing_memOk h) (ite_keeps h (ite_keeps (trapRing_memOk h) h))))
theorem withCount_memOk {s : State} {ah poison n room k} (hs : s.MemOk)
    (hk : ∀ (t : State) (b : Ring), t.MemOk → (k t b).MemOk) :
    (s.withCount ah poison n room k).MemOk :=
  ite_keeps (poisonPc_memOk hs) (withRing_memOk hs fun _ _ h => ite_keeps (trapRing_memOk h) (hk _ _ h))
theorem ringWait_memOk {s : State} {ah a kind have_} (hs : s.MemOk) : (s.ringWait ah a kind have_).MemOk :=
  withCount_memOk hs fun _ _ h => ite_keeps h (waitFor_memOk h fun _ h1 => h1)
theorem ringAdvance_memOk {s : State} {ah poison n} (hs : s.MemOk) : (s.ringAdvance ah poison n).MemOk :=
  withCount_memOk hs fun _ _ h => h
theorem ringSlot_memOk {s : State} {d ah b room base} (hs : s.MemOk) : (s.ringSlot d ah b room base).MemOk :=
  ite_keeps (poisonPc_memOk hs) (withRing_memOk hs fun _ _ h => ite_keeps (trapRing_memOk h) h)

/-! ### Copies and tokens -/

theorem noteCopy_memOk {s : State} {o} (hs : s.MemOk) : (s.noteCopy o).MemOk := by
  unfold State.noteCopy
  split
  · extract_lets +onlyGivenNames p
    split
    · exact hs
    · exact noteReads_memOk hs
  · exact hs
theorem flagStore_memOk {s : State} {g cl aligned va shown bs poison why} (hs : s.MemOk) :
    FstOk (s.flagStore g cl aligned va shown bs poison why) := by
  unfold State.flagStore
  extract_lets +onlyGivenNames skip a
  have h : ∀ (t : State), t.MemOk → FstOk (skip t) := fun _ h => fst_keeps (post_memOk h)
  refine ite_keeps (h _ hs) ?_
  refine ite_keeps (fst_keeps hs) ?_
  extract_lets +onlyGivenNames g1
  split
  · exact fst_keeps (engWrite_memOk hs)
  · exact fst_keeps hs
  · exact fst_keeps hs
  · exact h _ (misplaced_memOk hs)
  · exact h _ hs
theorem pktEvent_memOk {s : State} {g cl p pktAddr st written} (hs : s.MemOk) :
    (s.pktEvent g cl p pktAddr st written).MemOk :=
  ite_keeps (post_memOk hs) hs
theorem signalPkt_memOk {s : State} {g cl p pktAddr st} (hs : s.MemOk) : FstOk (s.signalPkt g cl p pktAddr st) := by
  unfold State.signalPkt
  refine ite_keeps ?_ (fst_keeps (pktEvent_memOk hs))
  split
  · rename_i e
    exact fst_keeps (pktEvent_memOk (fst_of_eq e (flagStore_memOk hs)))
  · exact flagStore_memOk hs
theorem endPkt_memOk {s : State} {id} (hs : s.MemOk) : (s.endPkt id).MemOk :=
  forgetWords_memOk hs
theorem closeCopy_memOk {s : State} {o} (hs : s.MemOk) : (s.closeCopy o).MemOk :=
  ite_keeps (endPkt_memOk (endOp_memOk hs)) (endOp_memOk hs)
theorem openLock_memOk {s : State} {o} (hs : s.MemOk) : (s.openLock o).MemOk :=
  ite_keeps hs hs
theorem finishCopy_memOk {s : State} {id st} (hs : s.MemOk) : (s.finishCopy id st).MemOk := by
  unfold State.finishCopy
  split
  · exact hs
  · extract_lets +onlyGivenNames p
    clear_value p
    split
    · exact ite_keeps hs (closeCopy_memOk (pktEvent_memOk hs))
    · split
      · rename_i t _ e
        have h : t.MemOk := fst_of_eq e (signalPkt_memOk (openLock_memOk hs))
        exact closeCopy_memOk h
      · rename_i t _ e
        have h : t.MemOk := fst_of_eq e (signalPkt_memOk (openLock_memOk hs))
        exact h
      · rename_i t _ e
        have h : t.MemOk := fst_of_eq e (signalPkt_memOk (openLock_memOk hs))
        exact modOp_memOk (opFault_memOk h)
      · rename_i t e
        have h : t.MemOk := fst_of_eq e (signalPkt_memOk (openLock_memOk hs))
        exact h
theorem copyAddress_memOk {s : State} {o code va m} (hs : s.MemOk) : (s.copyAddress o code va m).MemOk := by
  unfold State.copyAddress
  extract_lets +onlyGivenNames s1 s2
  have h : s1.MemOk := by
    unfold s1
    split
    · exact misplaced_memOk hs
    · exact hs
  have h1 : s2.MemOk := by
    unfold s2
    split
    · exact ite_keeps (killTg_memOk h) (kill_memOk h)
    · exact h
  exact finishCopy_memOk h1
theorem copyWritten_memOk {s : State} {o st xs} (hs : s.MemOk) : (s.copyWritten o st xs).MemOk :=
  ite_keeps hs (finishCopy_memOk hs)
theorem copyEnd_memOk {s : State} {o} (hs : s.MemOk) : (s.copyEnd o).MemOk := by
  unfold State.copyEnd
  split
  · exact finishCopy_memOk hs
  · extract_lets +onlyGivenNames fail
    have h : ∀ (t : State) (e : EFail), t.MemOk → (fail t e).MemOk := by
      intro t e h
      unfold fail
      split
      · exact opFault_memOk h
      · exact h
      · exact copyAddress_memOk h
      · exact copyAddress_memOk h
      · exact copyAddress_memOk h
      · exact slowStep_memOk h
    split
    · exact h _ _ hs
    · split
      · exact h _ _ hs
      · extract_lets +onlyGivenNames s1 s2
        have h1 : s1.MemOk := engWrite_memOk (useFree_memOk (noteCopy_memOk hs))
        have h2 : s2.MemOk := by
          unfold s2
          split <;> exact h1
        exact copyWritten_memOk h2
theorem execCopyComplete_memOk {id} {s : State} (hs : s.MemOk) : OutOk (execCopyComplete id s) := by
  unfold execCopyComplete
  refine next_keeps ?_
  split
  · refine ite_keeps hs ?_
    split
    · exact copyEnd_memOk hs
    · exact copyEnd_memOk hs
    · exact hs
  · exact hs
theorem cpy_memOk {s : State} {kind d a} (hs : s.MemOk) : (s.cpy kind d a).MemOk :=
  ite_keeps (poisonPc_memOk hs) (withSnap_memOk hs fun _ _ h => withMap_memOk h fun _ _ h1 =>
    withMap_memOk h1 fun _ _ h2 => ite_keeps (trapFormatAny_memOk h2) (issueOp_memOk h2 fun _ h3 => h3))
theorem cpyr_memOk {s : State} {d a b} (hs : s.MemOk) : (s.cpyr d a b).MemOk := by
  unfold State.cpyr
  refine ite_keeps ?_ ?_
  · exact poisonPc_memOk hs
  · exact withSnap_memOk hs fun _ _ h => withMap_memOk h fun _ _ h1 => withRing_memOk h1 fun _ _ h2 =>
      ite_keeps (trapRing_memOk h2) (ite_keeps (trapFormatAny_memOk h2) (waitFor_memOk h2 fun _ h3 =>
      issueOp_memOk h3 fun _ h4 => h4))
theorem waitTokens_memOk {s : State} {m} (hs : s.MemOk) : (s.waitTokens m).MemOk :=
  ite_keeps hs hs

/-! ### Gather streams -/

theorem gstart_memOk {s : State} {d a b} (hs : s.MemOk) : (s.gstart d a b).MemOk := by
  refine ite_keeps (poisonPc_memOk hs) (withSnap_memOk hs fun s bs hs => withMap_memOk hs fun s ms hs =>
    withMap_memOk hs fun s mg hs =>
    withRing_memOk hs fun s r hs => ite_keeps (trapRing_memOk hs) (ite_keeps (trapRing_memOk hs) (ite_keeps
      (trapFormatAny_memOk hs) ?_)))
  exact issueOp_memOk hs fun _ h => modMe_memOk h
theorem endStream_memOk {s : State} {o rows st} (hs : s.MemOk) : (s.endStream o rows st).MemOk := by
  unfold State.endStream
  extract_lets +onlyGivenNames s1
  have h : s1.MemOk := endOp_memOk hs
  split
  · exact modTg_memOk h
  · exact h
theorem gstop_memOk {s : State} {t k} (hs : s.MemOk) : (s.gstop t k).MemOk := by
  unfold State.gstop
  split
  · exact hs
  · exact stopStream_memOk hs
theorem gatherSlot_memOk {s : State} {o ring desc row stop claimed} (hs : s.MemOk) :
    (s.gatherSlot o ring desc row stop claimed).MemOk := by
  unfold State.gatherSlot
  split
  · refine ite_keeps hs ?_
    extract_lets +onlyGivenNames d idx s1 keep
    have h : s1.MemOk := ite_keeps hs hs
    have h1 : ∀ (t : State), t.MemOk → (keep t).MemOk := fun _ h1 => h1
    split
    · exact engFail_memOk (h1 _ h)
    · split
      · exact engFail_memOk (h1 _ h)
      · extract_lets +onlyGivenNames s2 next
        have h2 : s2.MemOk := modRing_memOk (engWrite_memOk (useFree_memOk (noteReads_memOk h)))
        exact ite_keeps (endStream_memOk h2) (ite_keeps (endStream_memOk h2) h2)
  · exact endOp_memOk hs
theorem execGatherSlotLanded_memOk {id} {s : State} (hs : s.MemOk) : OutOk (execGatherSlotLanded id s) := by
  unfold execGatherSlotLanded
  refine next_keeps ?_
  split
  · refine ite_keeps hs ?_
    split
    · exact gatherSlot_memOk hs
    · exact hs
  · exact hs

/-! ### Block queues, block addition and selection -/

theorem modBq_memOk {s : State} {asid addr f} (hs : s.MemOk) : (s.modBq asid addr f).MemOk := hs
theorem withBq_memOk {s : State} {a f} (hs : s.MemOk)
    (hf : ∀ (t : State) (b : W64) (c : BDesc), t.MemOk → (f t b c).MemOk) :
    (s.withBq a f).MemOk :=
  ite_keeps (poisonPc_memOk hs) (withSnap_memOk hs fun _ _ h => ite_keeps (hf _ _ _ h) (trapFormatAny_memOk h))
theorem bqclaim_memOk {s : State} {d a} (hs : s.MemOk) : (s.bqclaim d a).MemOk := by
  unfold State.bqclaim
  refine ite_keeps ?_ (withBq_memOk hs fun _ _ _ h => waitFor_memOk h fun _ h1 => h1)
  split
  · exact hs
  · exact ite_keeps (waitFor_memOk hs fun _ h => h) hs
theorem bqdone_memOk {s : State} {a} (hs : s.MemOk) : (s.bqdone a).MemOk := by
  unfold State.bqdone
  refine ite_keeps ?_ (withBq_memOk hs fun _ _ _ h => afterFence_memOk h fun _ h1 => h1)
  split <;> exact hs
theorem answerMreq_memOk {s : State} {id v} (hs : s.MemOk) : (s.answerMreq id v).MemOk := hs
theorem mangle_memOk {s : State} {r} (hs : s.MemOk) : (s.mangle r).MemOk := by
  unfold State.mangle
  refine ite_keeps hs ?_
  refine ite_keeps ?_ (ite_keeps hs (ite_keeps (answerMreq_memOk (modBq_memOk (ite_keeps hs hs))) (answerMreq_memOk
    (ite_keeps hs hs))))
  split
  · exact hs
  · refine ite_keeps hs ?_
    refine ite_keeps ?_ hs
    extract_lets +onlyGivenNames g
    clear_value g
    refine ite_keeps hs ?_
    split
    · rename_i t _ e
      have h : t.MemOk := fst_of_eq e (flagStore_memOk hs)
      exact h
    · rename_i t _ e
      have h : t.MemOk := fst_of_eq e (flagStore_memOk hs)
      exact h
    · rename_i t _ e
      have h : t.MemOk := fst_of_eq e (flagStore_memOk hs)
      exact engWait_memOk h
    · rename_i t e
      have h : t.MemOk := fst_of_eq e (flagStore_memOk hs)
      exact h
theorem execMangleRequest_memOk {id} {s : State} (hs : s.MemOk) : OutOk (execMangleRequest id s) := by
  unfold execMangleRequest
  refine next_keeps ?_
  split
  · exact mangle_memOk hs
  · exact hs
theorem baddq_memOk {s : State} {d a b} (hs : s.MemOk) : (s.baddq d a b).MemOk :=
  ite_keeps (poisonPc_memOk hs) (withSnap_memOk hs fun _ _ h => withMap_memOk h fun _ _ h1 =>
    withMap_memOk h1 fun _ _ h2 => withMap_memOk h2 fun _ _ h3 =>
    ite_keeps (trapFormatAny_memOk h3) (issueOp_memOk h3 fun _ h4 => h4))
theorem execBaddqComplete_memOk {id} {s : State} (hs : s.MemOk) : OutOk (execBaddqComplete id s) := by
  unfold execBaddqComplete
  refine next_keeps ?_
  split
  · refine ite_keeps hs ?_
    split
    · split
      · exact engFail_memOk hs
      · exact engCommit_memOk hs fun _ h => endOp_memOk (noteReads_memOk h)
    · exact hs
  · exact hs
theorem topk_memOk {s : State} {col d a} (hs : s.MemOk) : (s.topk col d a).MemOk :=
  ite_keeps (poisonPc_memOk hs) (withSnap_memOk hs fun _ _ h => withMap_memOk h fun _ _ h1 =>
    ite_keeps (trapFormatAny_memOk h1) (issueOp_memOk h1 fun _ h2 => h2))
theorem execSelectComplete_memOk {die} {s : State} (hs : s.MemOk) : OutOk (execSelectComplete die s) := by
  unfold execSelectComplete
  refine next_keeps ?_
  split
  · extract_lets +onlyGivenNames s1
    have h : s1.MemOk := hs
    refine ite_keeps h ?_
    split
    · split
      · exact engFail_memOk h
      · exact engCommit_memOk h fun _ h1 => endOp_memOk (noteReads_memOk h1)
    · exact h
  · exact hs

/-! ### Creating tasks and promises -/

theorem snapStruct_memOk {s : State} {c g cached va n al} (hs : s.MemOk) : FstOk (s.snapStruct c g cached va n al) := by
  unfold State.snapStruct
  refine ite_keeps (fst_keeps hs) ?_
  split
  · rename_i e
    exact fst_keeps (fst_of_eq e (snapRead_memOk hs))
  · rename_i e
    exact fst_keeps (fst_of_eq e (snapRead_memOk hs))
  · rename_i e
    exact fst_keeps (fst_of_eq e (snapRead_memOk hs))
  · rename_i e
    exact fst_keeps (fst_of_eq e (snapRead_memOk hs))
  · rename_i e
    exact fst_keeps (fst_of_eq e (snapRead_memOk hs))
  · rename_i t _ _ e
    have h : t.MemOk := fst_of_eq e (snapRead_memOk hs)
    refine fst_keeps ?_
    split
    · exact misplaced_memOk h
    · exact h
  · rename_i e
    exact fst_keeps (fst_of_eq e (snapRead_memOk hs))
  · rename_i t _ e
    have h : t.MemOk := fst_of_eq e (snapRead_memOk hs)
    split <;> exact fst_keeps h
theorem snapFps_memOk {c g list n i} {s : State} (hs : s.MemOk) : FstOk (State.snapFps c g list n i s) := by
  induction n generalizing c g list i s with
  | zero => exact fst_keeps hs
  | succ n ih =>
    unfold State.snapFps
    extract_lets +onlyGivenNames at_
    split
    · rename_i e
      exact fst_keeps (fst_of_eq e (snapStruct_memOk hs))
    · rename_i t _ e
      have h : t.MemOk := fst_of_eq e (snapStruct_memOk hs)
      split
      · rename_i e1
        exact fst_keeps (fst_of_eq e1 (snapStruct_memOk h))
      · rename_i t1 _ e1
        have h1 : t1.MemOk := fst_of_eq e1 (snapStruct_memOk h)
        split
        · rename_i e2
          exact fst_keeps (fst_of_eq e2 (snapStruct_memOk h1))
        · rename_i t2 _ e2
          have h2 : t2.MemOk := fst_of_eq e2 (snapStruct_memOk h1)
          extract_lets +onlyGivenNames f
          split
          · rename_i e3
            exact fst_keeps (fst_of_eq e3 (ih h2))
          · rename_i e3
            exact fst_keeps (fst_of_eq e3 (ih h2))
theorem snapTask_memOk {s : State} {c g desc} (hs : s.MemOk) : FstOk (s.snapTask c g desc) := by
  unfold State.snapTask
  split
  · rename_i e
    exact fst_keeps (fst_of_eq e (snapStruct_memOk hs))
  · rename_i t _ e
    have h : t.MemOk := fst_of_eq e (snapStruct_memOk hs)
    extract_lets +onlyGivenNames fw n
    split
    · rename_i e1
      exact fst_keeps (fst_of_eq e1 (snapFps_memOk h))
    · rename_i e1
      exact fst_keeps (fst_of_eq e1 (snapFps_memOk h))
theorem newFut_memOk {s : State} {c slot gen f} (hs : s.MemOk) : FstOk (s.newFut c slot gen f) :=
  fst_keeps hs
theorem withEntry_memOk {s : State} {obj f} (hs : s.MemOk) (hf : ∀ (t : State) (b c : ℕ), t.MemOk → (f t b c).MemOk) :
    (s.withEntry obj f).MemOk := by
  unfold State.withEntry
  split
  · exact hf _ _ _ hs
  · exact ite_keeps hs (waitFor_memOk hs fun _ h => h)
theorem enqueue_memOk {s : State} {i b table queue slot gen other} (hs : s.MemOk) :
    FstOk (s.enqueue i b table queue slot gen other) := by
  unfold State.enqueue
  extract_lets +onlyGivenNames scope
  refine ite_keeps ?_ (newFut_memOk hs)
  split
  rename_i t _ e
  have ht : t.MemOk := fst_of_eq e (newFut_memOk hs)
  exact fst_keeps ht
theorem spawnFaulted_memOk {s : State} {slot gen code addr lin} (hs : s.MemOk) :
    FstOk (s.spawnFaulted slot gen code addr lin) :=
  newFut_memOk hs
theorem withSnapshot_memOk {s : State} {wake desc k} (hs : s.MemOk)
    (hk : ∀ (t : State) (b : Snap), t.MemOk → (k t b).MemOk) :
    (s.withSnapshot wake desc k).MemOk := by
  unfold State.withSnapshot
  extract_lets +onlyGivenNames keep
  have h : ∀ (t : State) (x : Snap), t.MemOk → (keep t x).MemOk := fun _ _ h => hk _ _ h
  split
  · exact hk _ _ hs
  · exact h _ _ hs
  · split
    · rename_i t _ e
      have h1 : t.MemOk := fst_of_eq e (snapTask_memOk hs)
      exact parkFault_memOk h1
    · rename_i t e
      have h1 : t.MemOk := fst_of_eq e (snapTask_memOk hs)
      exact h1
    · rename_i t _ e
      have h1 : t.MemOk := fst_of_eq e (snapTask_memOk hs)
      exact h _ _ h1
    · rename_i t _ e
      have h1 : t.MemOk := fst_of_eq e (snapTask_memOk hs)
      exact h _ _ h1
theorem spawn_memOk {s : State} {d a} (hs : s.MemOk) : (s.spawn d a).MemOk := by
  unfold State.spawn
  extract_lets +onlyGivenNames put wake
  have hp : ∀ x : State × W64, FstOk x → (put x).MemOk := fun _ h => h
  rcases wake with _ | (_ | _ | _ | _ | _ | _ | _)
  case some.value => exact hs
  case some.ended => exact hs
  all_goals
    refine ite_keeps (poisonPc_memOk hs) (ite_keeps hs (afterFence_memOk hs fun s hs => ?_))
    refine withSnapshot_memOk hs fun s x hs => withEntry_memOk hs fun s slot gen hs => ?_
    split
    · exact hp _ (spawnFaulted_memOk hs)
    · split
      · exact hp _ (spawnFaulted_memOk hs)
      · exact hp _ (enqueue_memOk hs)
theorem fnew_memOk {s : State} {d} (hs : s.MemOk) : (s.fnew d).MemOk := by
  unfold State.fnew
  generalize s.me.wake = wake
  rcases wake with _ | (_ | _ | _ | _ | _ | _ | _)
  case some.value => exact hs
  case some.ended => exact hs
  all_goals
    refine ite_keeps hs (withEntry_memOk hs fun s slot gen hs => ?_)
    extract_lets +onlyGivenNames a own lin
    split
    rename_i t _ e
    have ht : t.MemOk := fst_of_eq e (newFut_memOk hs)
    exact ht

/-! ### Fences, barriers and acquiring accesses -/

theorem barCheck_memOk {s : State} {task piece} (hs : s.MemOk) : (s.barCheck task piece).MemOk :=
  ite_keeps hs hs
theorem bar_memOk {s : State} {sc} (hs : s.MemOk) : (s.bar sc).MemOk := by
  unfold State.bar
  refine ite_keeps ?_ ?_
  · exact afterFence_memOk hs fun _ h => h
  · refine ite_keeps ?_ ?_
    · exact hs
    · extract_lets +onlyGivenNames s1 s2
      have h : s1.MemOk := ite_keeps hs hs
      have h1 : s2.MemOk := ite_keeps h (barCheck_memOk h)
      exact ite_keeps (afterFence_memOk h1 fun _ h2 => h2) (ite_keeps h1 h1)
theorem setWatch_memOk {s : State} {va} (hs : s.MemOk) : (s.setWatch va).MemOk := by
  unfold State.setWatch
  split
  · exact ite_keeps hs hs
  · exact hs
theorem waitv_memOk {s : State} {d a b sc} (hs : s.MemOk) : (s.waitv d a b sc).MemOk := by
  unfold State.waitv
  refine ite_keeps hs ?_
  extract_lets +onlyGivenNames va
  refine withChecks_memOk hs fun t h => ?_
  split
  · rename_i e
    exact fst_of_eq e (loadAll_memOk h)
  · rename_i t1 _ e
    have h1 : t1.MemOk := fst_of_eq e (loadAll_memOk h)
    exact ite_keeps (afterFence_memOk h1 fun _ h2 => h2) (ite_keeps h1 (park_memOk (setWatch_memOk h1)))
theorem execSldacq_memOk {g d a sc} {s : State} (hs : s.MemOk) : OutOk (execSldacq g d a sc s) := by
  unfold execSldacq
  refine next_keeps ?_
  refine withK_memOk hs fun t h => ?_
  extract_lets +onlyGivenNames va
  refine withChecks_memOk h fun t1 h1 => ?_
  split
  · rename_i e
    exact fst_of_eq e (loadAll_memOk h1)
  · rename_i e
    exact afterFence_memOk (fst_of_eq e (loadAll_memOk h1)) fun _ h3 => h3

/-! ### Actions on futures, finish scopes and RETIRE -/

theorem report_memOk {s : State} {ah} (hs : s.MemOk) : (s.report ah).MemOk := by
  unfold State.report
  split
  · exact hs
  · exact ite_keeps hs (noteEntry_memOk hs)
theorem raiseNow_memOk {s : State} {ah cls} (hs : s.MemOk) : (s.raiseNow ah cls).MemOk := by
  unfold State.raiseNow
  split
  · exact hs
  · exact ite_keeps hs hs
theorem raise_memOk {s : State} {from_ ah cls} (hs : s.MemOk) : (s.raise from_ ah cls).MemOk := by
  unfold State.raise
  split
  · exact hs
  · exact ite_keeps (raiseNow_memOk hs) hs
theorem foreign_memOk {s : State} {op} (hs : s.MemOk) : FstOk (s.foreign op) :=
  fst_keeps hs
theorem addWaiter_memOk {s : State} {f dev t} (hs : s.MemOk) : (s.addWaiter f dev t).MemOk := by
  unfold State.addWaiter
  split <;> exact ite_keeps hs hs
theorem dropWaiter_memOk {s : State} {ah dev t} (hs : s.MemOk) : (s.dropWaiter ah dev t).MemOk := by
  unfold State.dropWaiter
  split <;> exact hs
theorem act_memOk {s : State} {from_ dev t op ah v vp eff} (hs : s.MemOk) :
    SomeFstOk (s.act from_ dev t op ah v vp eff) := by
  unfold State.act
  refine ite_keeps (someFst_keeps hs) ?_
  refine ite_keeps (ite_keeps (someFst_keeps hs) (someFst_keeps (foreign_memOk hs))) ?_
  split
  · exact someFst_keeps hs
  · extract_lets +onlyGivenNames s1
    have h : s1.MemOk := refillFut_memOk hs
    split
    · exact someFst_keeps h
    · refine ite_keeps noneFst_keeps ?_
      extract_lets +onlyGivenNames code
      split
      · exact ite_keeps (someFst_keeps h) (someFst_keeps (raise_memOk (addWaiter_memOk h)))
      · exact ite_keeps (someFst_keeps h) (someFst_keeps (raise_memOk (addWaiter_memOk h)))
      · exact someFst_keeps h
      · exact someFst_keeps (ite_keeps h (dropTask_memOk (settle_memOk h)))
      · exact someFst_keeps (ite_keeps h (dropTask_memOk (settle_memOk h)))
      · exact someFst_keeps (ite_keeps h (dropTask_memOk (settle_memOk h)))
      · exact someFst_keeps (ite_keeps (freeFut_memOk h) h)
      · exact someFst_keeps (dropWaiter_memOk h)
theorem leaveWait_memOk {s : State} {ah} (hs : s.MemOk) : (s.leaveWait ah).MemOk :=
  ite_keeps (dropWaiter_memOk hs) hs
theorem doAct_memOk {s : State} {op ah v vp rel fin} (hs : s.MemOk)
    (hfin : ∀ (t : State) (b : Wake), t.MemOk → (fin t b).MemOk) :
    (s.doAct op ah v vp rel fin).MemOk := by
  unfold State.doAct
  refine ite_keeps ?_ ?_
  · split
    · exact hfin _ _ hs
    · exact hs
  · extract_lets +onlyGivenNames go
    have h : ∀ (t : State), t.MemOk → (go t).MemOk := by
      intro t h
      unfold go
      refine ite_keeps ?_ h
      split
      · rename_i e
        exact hfin _ _ (someFst_of_eq e (act_memOk h))
      · exact h
    exact ite_keeps (afterFence_memOk hs h) (h _ hs)
theorem codeReply_memOk {d ah} {s : State} {w} (hs : s.MemOk) : (State.codeReply d ah s w).MemOk := by
  unfold State.codeReply
  split
  · exact hs
  · exact trap_memOk hs
  · exact hs
theorem stateAct_memOk {s : State} {op d a v vp bad rel} (hs : s.MemOk) : (s.stateAct op d a v vp bad rel).MemOk :=
  ite_keeps (poisonPc_memOk hs) (doAct_memOk hs fun _ _ h => codeReply_memOk h)
theorem execRelease_memOk {g a} {s : State} (hs : s.MemOk) : OutOk (execRelease g a s) := by
  unfold execRelease
  refine next_keeps ?_
  refine withK_memOk hs fun t h => ?_
  refine ite_keeps (poisonPc_memOk h) ?_
  extract_lets +onlyGivenNames u
  refine doAct_memOk h fun t1 w h1 => ?_
  split
  · exact trap_memOk h1
  · exact h1
theorem touchWith_memOk {s : State} {a op fin} (hs : s.MemOk) (hfin : ∀ (t : State) w, t.MemOk → (fin t w).MemOk) :
    (s.touchWith a op fin).MemOk := by
  unfold State.touchWith
  extract_lets +onlyGivenNames h wait ask
  have hw : ∀ t : State, t.MemOk → (wait t).MemOk := fun t ht => ite_keeps (leaveWait_memOk ht) ht
  have ha : ∀ t : State, t.MemOk → (ask t).MemOk := by
    intro t ht
    unfold ask
    refine ite_keeps ?_ ht
    split
    · rename_i e
      exact hw _ (someFst_of_eq e (act_memOk ht))
    · rename_i e
      exact hfin _ _ (someFst_of_eq e (act_memOk ht))
    · exact ht
  have hi : (if s.me.spoison a then s.poisonPc else ask s).MemOk := ite_keeps (poisonPc_memOk hs) (ha s hs)
  split
  · exact leaveWait_memOk hs
  · exact hw s hs
  · exact hi
  · exact hfin s _ hs
  · exact hs
  · exact hi
theorem touched_memOk {d h} {s : State} {w} (hs : s.MemOk) : (State.touched d h s w).MemOk := by
  cases w with
  | value => exact hs
  | cancelled | faulted | stale => exact trap_memOk hs
  | code | go | ended => exact hs
theorem touchedC_memOk {d k h} {s : State} {w} (hs : s.MemOk) : (State.touchedC d k h s w).MemOk := by
  cases w with
  | value | cancelled | faulted => exact hs
  | stale => exact trap_memOk hs
  | code | go | ended => exact hs
theorem scopeOpen_memOk {s : State} {a parent} (hs : s.MemOk) : FstOk (s.scopeOpen a parent) := by
  unfold State.scopeOpen
  split
  · exact fst_keeps hs
  · refine ite_keeps (fst_keeps hs) ?_
    split <;> exact fst_keeps hs
theorem scopeClose_memOk {s : State} {a i} (hs : s.MemOk) : (s.scopeClose a i).MemOk :=
  ite_keeps hs (ite_keeps (scopeDone_memOk hs) hs)
theorem execScopec_memOk {g a} {s : State} (hs : s.MemOk) : OutOk (execScopec g a s) := by
  unfold execScopec
  refine next_keeps ?_
  refine withK_memOk hs fun t h => ?_
  refine ite_keeps (poisonPc_memOk h) ?_
  split
  · exact advance_memOk (scopeClose_memOk h)
  · exact h
theorem scopew_memOk {s : State} {a} (hs : s.MemOk) : (s.scopew a).MemOk := by
  unfold State.scopew
  refine ite_keeps hs ?_
  refine ite_keeps (advance_memOk (leaveScopes_memOk hs)) ?_
  refine ite_keeps (poisonPc_memOk hs) ?_
  split
  · exact hs
  · exact ite_keeps hs (ite_keeps hs (park_memOk (modScope_memOk (foldl_keeps hs fun _ _ h1 => raise_memOk h1))))
theorem closeTree_memOk {s : State} {a i} (hs : s.MemOk) : FstOk (s.closeTree a i) :=
  ite_keeps (fst_keeps hs) (fst_keeps (foldl_keeps hs fun _ _ h => scopeClose_memOk h))
theorem cancelOne_memOk {s : State} {ah} (hs : s.MemOk) : SomeFstOk (s.cancelOne ah) := by
  unfold State.cancelOne
  extract_lets +onlyGivenNames s1
  have h : s1.MemOk := refillFut_memOk hs
  split
  · exact someFst_keeps h
  · exact ite_keeps (someFst_keeps h) (ite_keeps noneFst_keeps (someFst_keeps (dropTask_memOk (settle_memOk h))))
theorem cancelEach_memOk {s : State} {l} (hs : s.MemOk) : FstOk (s.cancelEach l) := by
  induction l generalizing s with
  | nil => exact fst_keeps hs
  | cons x xs ih =>
    unfold State.cancelEach
    split
    · exact fst_keeps (ih hs)
    · rename_i e
      exact fst_keeps (ih (someFst_of_eq e (cancelOne_memOk hs)))
theorem cancelDeep_memOk {s : State} {d i} (hs : s.MemOk) : (s.cancelDeep d i).MemOk := by
  unfold State.cancelDeep
  extract_lets +onlyGivenNames a
  split
  rename_i t hs' e
  have h : t.MemOk := by
    refine fst_of_eq e ?_
    split
    · exact fst_keeps hs
    · split
      rename_i t' tree e'
      exact fst_keeps (fst_of_eq e' (closeTree_memOk hs))
  split
  rename_i t1 n left e1
  have h1 : t1.MemOk := fst_of_eq e1 (cancelEach_memOk h)
  exact ite_keeps h1 h1
theorem execCancelDeep_memOk {g d a} {s : State} (hs : s.MemOk) : OutOk (execCancelDeep g d a s) := by
  unfold execCancelDeep
  refine next_keeps ?_
  refine withK_memOk hs fun t h => ?_
  refine ite_keeps (poisonPc_memOk h) ?_
  refine afterFence_memOk h fun t1 h1 => ?_
  split
  · exact h1
  · exact cancelDeep_memOk h1
theorem dropWatchOf_memOk {s : State} {t} (hs : s.MemOk) : (s.dropWatchOf t).MemOk := hs
theorem leaveGroup_memOk {s : State} {g} (hs : s.MemOk) : (s.leaveGroup g).MemOk :=
  dropWatchOf_memOk (barCheck_memOk (modTg_memOk (unbind_memOk hs)))
theorem pieceDone_memOk {s : State} {g} (hs : s.MemOk) : (s.pieceDone g).MemOk :=
  modTask_memOk (releaseCore_memOk (foldl_keeps hs fun _ _ h => h))
theorem taskDone_memOk {s : State} {t} (hs : s.MemOk) : (s.taskDone t).MemOk :=
  scopeLeave_memOk (settleHeld_memOk (noteEntry_memOk hs))
theorem retireNow_memOk {s : State} {a} (hs : s.MemOk) : (s.retireNow a).MemOk := by
  unfold State.retireNow
  extract_lets +onlyGivenNames g others s1 s2
  have h1 : s1.MemOk := ite_keeps (modTask_memOk hs) hs
  have h2 : s2.MemOk := leaveGroup_memOk h1
  refine ite_keeps h2 ?_
  extract_lets +onlyGivenNames s3
  have h3 : s3.MemOk := pieceDone_memOk h2
  split
  · exact ite_keeps (taskDone_memOk h3) h3
  · exact h3
theorem retire_memOk {s : State} {a} (hs : s.MemOk) : (s.retire a).MemOk :=
  ite_keeps hs (ite_keeps hs (ite_keeps hs (ite_keeps (dropLone_memOk hs) (ite_keeps hs (retireNow_memOk hs)))))
theorem execPrio_memOk {g d a} {s : State} (hs : s.MemOk) : OutOk (execPrio g d a s) := by
  unfold execPrio
  refine next_keeps ?_
  refine withK_memOk hs fun t h => ?_
  split <;> exact h

/-! ### The scheduler and the tables of futures as agents -/

theorem startTile_memOk {s : State} {t f i} (hs : s.MemOk) : (s.startTile t f i).MemOk := by
  unfold State.startTile
  extract_lets +onlyGivenNames c s1 w s2 op s3
  have h1 : s1.MemOk := ite_keeps hs (modCluster_memOk hs)
  clear_value s1
  have h2 : s2.MemOk := modTask_memOk h1
  clear_value s2
  have h3 : s3.MemOk := takeLock_memOk (modRing_memOk h2)
  clear_value s3
  exact h3
theorem reserve_memOk {s : State} {t} (hs : s.MemOk) : (s.reserve t).MemOk :=
  foldl_keeps (report_memOk hs) fun _ _ h => startTile_memOk h
theorem execReservationMade_memOk {ah} {s : State} (hs : s.MemOk) : OutOk (execReservationMade ah s) := by
  unfold execReservationMade
  refine next_keeps ?_
  extract_lets +onlyGivenNames s1
  have h : s1.MemOk := refillFut_memOk hs
  split
  · exact ite_keeps h (reserve_memOk h)
  · exact h
theorem tileLanded_memOk {s : State} {o i ring} (hs : s.MemOk) : (s.tileLanded o i ring).MemOk :=
  modTask_memOk (endOp_memOk hs)
theorem tileFatal_memOk {s : State} {o code va m} (hs : s.MemOk) : (s.tileFatal o code va m).MemOk := by
  unfold State.tileFatal
  extract_lets +onlyGivenNames s1
  have h : s1.MemOk := by
    unfold s1
    split
    · exact misplaced_memOk hs
    · exact hs
  exact endQueued_memOk h
theorem tileCopy_memOk {s : State} {o i} (hs : s.MemOk) : (s.tileCopy o i).MemOk := by
  unfold State.tileCopy
  split
  · exact endOp_memOk hs
  · split
    · split
      · exact hs
      · extract_lets +onlyGivenNames fail
        have h : ∀ (e : EFail), (fail e).MemOk := by
          intro e
          unfold fail
          split
          · exact opFault_memOk hs
          · exact hs
          · exact tileFatal_memOk hs
          · exact tileFatal_memOk hs
          · exact tileFatal_memOk hs
          · exact slowStep_memOk hs
        split
        · exact h _
        · split
          · exact h _
          · exact tileLanded_memOk (engWrite_memOk (noteReads_memOk hs))
    · exact hs
theorem execFootprintCopyLanded_memOk {ah tile} {s : State} (hs : s.MemOk) :
    OutOk (execFootprintCopyLanded ah tile s) := by
  unfold execFootprintCopyLanded
  refine next_keeps ?_
  split
  · exact ite_keeps hs (tileCopy_memOk hs)
  · exact hs
theorem startPiece_memOk {s : State} {t c j w n} (hs : s.MemOk) : (s.startPiece t c j w n).MemOk :=
  foldl_keeps hs fun _ _ h => bump_memOk (addTg_memOk h)
theorem giveSlices_memOk {s : State} {t n} (hs : s.MemOk) : (s.giveSlices t n).MemOk :=
  modCluster_memOk (engWrite_memOk hs)
theorem dispatchTo_memOk {s : State} {t cs} (hs : s.MemOk) : (s.dispatchTo t cs).MemOk :=
  report_memOk (dropRings_memOk (modTask_memOk (modCluster_memOk (foldl_keeps (ite_keeps
    (giveSlices_memOk hs) hs) fun _ _ h => startPiece_memOk h))))
theorem execDispatch_memOk {ah} {s : State} (hs : s.MemOk) : OutOk (execDispatch ah s) := by
  unfold execDispatch
  refine next_keeps ?_
  refine ite_keeps hs ?_
  split
  · exact hs
  · split
    · exact ite_keeps (dispatchTo_memOk hs) hs
    · exact hs
theorem execSteal_memOk {thief victim} {s : State} (hs : s.MemOk) : OutOk (execSteal thief victim s) := by
  unfold execSteal
  refine next_keeps ?_
  split
  · exact hs
  · exact ite_keeps hs hs
theorem execCandidateAgeExpiry_memOk {t} {s : State} (hs : s.MemOk) : OutOk (execCandidateAgeExpiry t s) := by
  unfold execCandidateAgeExpiry
  refine next_keeps ?_
  split
  · exact ite_keeps (focus_memOk hs) hs
  · exact hs
theorem touchDue_memOk {s : State} {g ah} (hs : s.MemOk) : FstOk (s.touchDue g ah) := by
  unfold State.touchDue
  refine ite_keeps ?_ ?_
  · refine ite_keeps (fst_keeps hs) ?_
    split
    · rename_i e
      exact fst_keeps (fst_of_eq e (foreign_memOk hs))
    · rename_i e
      exact fst_keeps (fst_of_eq e (foreign_memOk hs))
  · split
    · exact fst_keeps hs
    · exact ite_keeps (fst_keeps hs) (ite_keeps (fst_keeps hs) (ite_keeps (fst_keeps hs) (fst_keeps hs)))
theorem wakeDue_memOk {s : State} {g} (hs : s.MemOk) : FstOk (s.wakeDue g) := by
  unfold State.wakeDue
  split
  · exact fst_keeps hs
  · split
    · exact ite_keeps (fst_keeps hs) (touchDue_memOk hs)
    · exact fst_keeps hs
    · exact fst_keeps hs
    · exact fst_keeps hs
    · exact fst_keeps hs
    · exact fst_keeps hs
    · exact fst_keeps hs
  · exact fst_keeps hs
theorem execWake_memOk {t} {s : State} (hs : s.MemOk) : OutOk (execWake t s) := by
  unfold execWake
  refine next_keeps ?_
  split
  · exact hs
  · split
    · rename_i e
      exact modTg_memOk (fst_of_eq e (wakeDue_memOk hs))
    · rename_i e
      exact fst_of_eq e (wakeDue_memOk hs)
theorem execDeadlock_memOk {asid} {s : State} (hs : s.MemOk) : OutOk (execDeadlock asid s) := by
  unfold execDeadlock
  refine next_keeps ?_
  extract_lets +onlyGivenNames c
  split
  · exact hs
  · exact ite_keeps hs (post_memOk (modCtx_memOk (foldl_keeps hs fun _ _ h => hwWrite_memOk h)))
theorem noteCtx_memOk {s : State} {a} (hs : s.MemOk) : (s.noteCtx a).MemOk :=
  ite_keeps (modCtx_memOk (ite_keeps (ite_keeps hs hs) (ite_keeps hs hs))) (ite_keeps (ite_keeps hs hs)
    (ite_keeps hs hs))
theorem hostFail_memOk {s : State} {asid f} (hs : s.MemOk) : (s.hostFail asid f).MemOk := by
  unfold State.hostFail
  split
  · exact misplaced_memOk hs
  · exact hs
theorem hostNow_memOk {s : State} {acc} (hs : s.MemOk) : SomeOk (s.hostNow acc) := by
  unfold State.hostNow
  split
  · split
    · exact some_keeps hs
    · exact none_keeps
    · exact some_keeps (hostFail_memOk hs)
  · extract_lets +onlyGivenNames g
    split
    · exact some_keeps (engWrite_memOk hs)
    · exact none_keeps
    · exact some_keeps (hostFail_memOk hs)
  · exact some_keeps hs
theorem flushHost_memOk {n} {s : State} (hs : s.MemOk) : (State.flushHost n s).MemOk := by
  induction n generalizing s with
  | zero => exact hs
  | succ n ih =>
    unfold State.flushHost
    split
    · exact hs
    · split
      · rename_i t e
        have h : t.MemOk := some_of_eq e (hostNow_memOk hs)
        exact ih h
      · exact hs
theorem settleAll_memOk {s : State} (hs : s.MemOk) : s.settleAll.MemOk :=
  foldl_keeps (foldl_keeps (foldl_keeps (flushHost_memOk (flushHw_memOk hs)) fun _ _ h1 =>
    reapTask_memOk h1) fun _ _ h1 => settleHeld_memOk h1) fun _ _ h1 => report_memOk h1
theorem afterStep_memOk {s : State} (hs : s.MemOk) : s.afterStep.MemOk := by
  unfold State.afterStep
  extract_lets +onlyGivenNames s1 as_ s2 s3 s4 s5
  have h1 : s1.MemOk := settleAll_memOk hs
  clear_value s1
  have h2 : s2.MemOk := foldl_keeps h1 fun _ _ h => noteCtx_memOk h
  clear_value s2
  have h3 : s3.MemOk := ite_keeps h2 (pruneFaults_memOk h2)
  clear_value s3
  have h4 : s4.MemOk := ite_keeps h3 h3
  clear_value s4
  have h5 : s5.MemOk := h4
  clear_value s5
  exact ite_keeps h5 h5
theorem serveReq_memOk {s : State} {r} (hs : s.MemOk) : (s.serveReq r).MemOk := by
  unfold State.serveReq
  refine ite_keeps hs ?_
  split
  · exact hs
  · rename_i t _ e
    have h : t.MemOk := someFst_of_eq e (act_memOk hs)
    split <;> exact h
theorem serveNote_memOk {s : State} {m} (hs : s.MemOk) : (s.serveNote m).MemOk := by
  unfold State.serveNote
  refine ite_keeps ?_ hs
  split
  · rename_i t e
    have h : t.MemOk := fst_of_eq e (noteNow_memOk hs)
    exact settleHeld_memOk h
  · rename_i t e
    have h : t.MemOk := fst_of_eq e (noteNow_memOk hs)
    exact h
theorem execFutureRequest_memOk {q} {s : State} (hs : s.MemOk) : OutOk (execFutureRequest q s) := by
  unfold execFutureRequest
  refine next_keeps ?_
  split
  · split
    · exact serveReq_memOk hs
    · exact serveNote_memOk hs
    · exact hs
  · exact ite_keeps hs (serveReq_memOk (wakeUp_memOk hs))
theorem execFutureReply_memOk {id} {s : State} (hs : s.MemOk) : OutOk (execFutureReply id s) := by
  unfold execFutureReply
  refine next_keeps ?_
  split
  · exact hs
  · split
    · exact hs
    · exact modTg_memOk hs
theorem execScopeUpdate_memOk {id} {s : State} (hs : s.MemOk) : OutOk (execScopeUpdate id s) := by
  unfold execScopeUpdate
  refine next_keeps ?_
  split
  · exact hs
  · exact ite_keeps hs (scopeLeaveNow_memOk hs)
theorem spillFut_memOk {s : State} {f} (hs : s.MemOk) : SomeOk (s.spillFut f) := by
  unfold State.spillFut
  extract_lets +onlyGivenNames cx
  split
  · exact none_keeps
  · split
    · exact some_keeps (modCtx_memOk (modFut_memOk (hwWrite_memOk hs)))
    · exact some_keeps (modCtx_memOk (modFut_memOk (hwWrite_memOk hs)))
    · exact none_keeps
theorem spillSome_memOk {s : State} {n l} (hs : s.MemOk) : SomeOk (s.spillSome n l) := by
  induction n generalizing s l with
  | zero => exact none_keeps
  | succ n ih =>
    unfold State.spillSome
    split
    · exact none_keeps
    · unfold Option.or
      split
      · rename_i e
        exact some_keeps (some_of_eq e (spillFut_memOk hs))
      · exact ih hs
theorem spillOne_memOk {s : State} {c} (hs : s.MemOk) : SomeOk (s.spillOne c) :=
  spillSome_memOk hs
theorem spillUntil_memOk {c n} {s : State} (hs : s.MemOk) : (State.spillUntil c n s).MemOk := by
  induction n generalizing c s with
  | zero => exact hs
  | succ n ih =>
    unfold State.spillUntil
    refine ite_keeps hs ?_
    split
    · rename_i e
      exact ih (some_of_eq e (spillOne_memOk hs))
    · exact hs
theorem spillMisplaced_memOk {s : State} {c} (hs : s.MemOk) : (s.spillMisplaced c).MemOk := by
  unfold State.spillMisplaced
  extract_lets +onlyGivenNames place
  split
  · exact misplaced_memOk hs
  · exact hs
theorem failsp_memOk {s : State} {a} (hs : s.MemOk) : (s.failsp a).MemOk := by
  unfold State.failsp
  extract_lets +onlyGivenNames waits
  refine foldl_keeps hs fun t x h => ?_
  split
  · exact h
  · exact modTg_memOk h
theorem hamperWrite_memOk {s : State} {a v} (hs : s.MemOk) : (s.hamperWrite a v).MemOk :=
  ite_keeps (failsp_memOk hs) hs
theorem oldRecord_memOk {s : State} {f} (hs : s.MemOk) : FstOk (s.oldRecord f) := by
  unfold State.oldRecord
  extract_lets +onlyGivenNames va
  split
  · exact fst_keeps hs
  · split
    rename_i e
    exact fst_keeps (fst_of_eq e (hwGather_memOk hs))
  · exact fst_keeps hs
  · exact fst_keeps (misplaced_memOk hs)
  · exact fst_keeps hs
theorem oldRecords_memOk {s : State} {l} (hs : s.MemOk) : FstOk (s.oldRecords l) := by
  induction l generalizing s with
  | nil => exact fst_keeps hs
  | cons x xs ih =>
    unfold State.oldRecords
    split
    · rename_i e
      exact fst_keeps (fst_of_eq e (oldRecord_memOk hs))
    · rename_i t _ e
      have h : t.MemOk := fst_of_eq e (oldRecord_memOk hs)
      split
      · rename_i e1
        exact fst_keeps (fst_of_eq e1 (ih h))
      · rename_i e1
        exact fst_keeps (fst_of_eq e1 (ih h))
theorem putRecord_memOk {s : State} {f n b} (hs : s.MemOk) : (s.putRecord f n b).MemOk := by
  unfold State.putRecord
  extract_lets +onlyGivenNames va s1
  have h1 : s1.MemOk := by
    unfold s1
    split
    · exact ite_keeps (onSoc_memOk (hwPut_memOk hs) (put_wf _ _ _ _ (hwPut_memOk hs).1)) (hwPut_memOk hs)
    · exact ite_keeps hs (hwWrite_memOk hs)
    · exact post_memOk hs
    · exact hs
  exact h1
theorem moveRead_memOk {s : State} {a} (hs : s.MemOk) : FstOk (s.moveRead a) :=
  ite_keeps (fst_keeps hs) (oldRecords_memOk hs)
theorem execHamperMoved_memOk {asid} {s : State} (hs : s.MemOk) : OutOk (execHamperMoved asid s) := by
  unfold execHamperMoved
  refine next_keeps ?_
  extract_lets +onlyGivenNames c
  refine ite_keeps ?_ hs
  split
  · rename_i e
    exact fst_of_eq e (moveRead_memOk hs)
  · rename_i e
    exact post_memOk (modCtx_memOk (foldl_keeps (fst_of_eq e (moveRead_memOk hs)) fun _ _ h1 => putRecord_memOk h1))

/-! ### Saves, the save area and its restoring -/

theorem finishWait_memOk {s : State} (hs : s.MemOk) : SomeOk s.finishWait := by
  unfold State.finishWait
  extract_lets +onlyGivenNames done
  have hd : ∀ o, OutOk o → SomeOk (done o) := by
    intro o ho
    cases o with
    | next t => exact some_keeps (ho t rfl)
    | fault | refused => exact none_keeps
  split
  · exact hd _ (next_keeps (withK_memOk hs fun t ht => touchWith_memOk ht fun t w h => touched_memOk h))
  · exact hd _ (next_keeps (withK_memOk hs fun t ht => touchWith_memOk ht fun t w h => touchedC_memOk h))
  · exact hd _ (next_keeps (touchWith_memOk hs fun t w h => touched_memOk h))
  · exact hd _ (next_keeps (withK_memOk hs fun t ht => scopew_memOk ht))
  · exact hd _ (next_keeps (withK_memOk hs fun t ht => spawn_memOk ht))
  · exact hd _ (next_keeps (withK_memOk hs fun t ht => fnew_memOk ht))
  · exact none_keeps
theorem saveTg_memOk {s : State} {forced t} (hs : s.MemOk) : FstOk (s.saveTg forced t) := by
  unfold State.saveTg
  split
  · exact fst_keeps hs
  · extract_lets +onlyGivenNames mask
    refine ite_keeps (fst_keeps hs) ?_
    split
    · exact fst_keeps hs
    · extract_lets +onlyGivenNames pending
      refine ite_keeps (fst_keeps hs) ?_
      split
      · rename_i e
        exact ite_keeps (fst_keeps (some_of_eq e (finishWait_memOk (focus_memOk hs)))) (fst_keeps hs)
      · exact fst_keeps hs
    · exact fst_keeps hs
theorem saveTgs_memOk {forced l} {s : State} (hs : s.MemOk) : SomeFstOk (State.saveTgs forced l s) := by
  induction l generalizing s with
  | nil => exact someFst_keeps hs
  | cons x l ih =>
    unfold State.saveTgs
    split
    · exact noneFst_keeps
    · rename_i t _ e
      have h : t.MemOk := fst_of_eq e (saveTg_memOk hs)
      intro p hp
      obtain ⟨q, hq, rfl⟩ := Option.map_eq_some_iff.mp hp
      exact ih h q hq
theorem takeOff_memOk {s : State} {t gs streams forced acc} (hs : s.MemOk) :
    (s.takeOff t gs streams forced acc).MemOk :=
  modTask_memOk (discard_memOk hs)
theorem areaFail_memOk {s : State} {asid c area f} (hs : s.MemOk) : FstOk (s.areaFail asid c area f) := by
  unfold State.areaFail
  split
  · exact fst_keeps (misplaced_memOk hs)
  · exact fst_keeps hs
  · exact fst_keeps hs
  · exact fst_keeps hs
  · exact fst_keeps hs
theorem saveNow_memOk {s0 : State} {t p} (hs0 : s0.MemOk) : (s0.saveNow t p).MemOk := by
  unfold State.saveNow
  extract_lets +onlyGivenNames here
  split
  · exact hs0
  · rename_i t1 _ e
    have h : t1.MemOk := someFst_of_eq e (saveTgs_memOk hs0)
    refine ite_keeps hs0 ?_
    extract_lets +onlyGivenNames asid g ws
    split
    · exact engWait_memOk hs0
    · exact hs0
    · exact splitWrite_memOk hs0
    · split
      rename_i t2 _ e1
      have h1 : t2.MemOk := fst_of_eq e1 (areaFail_memOk hs0)
      split
      · exact killTg_memOk h1
      · exact h1
    · extract_lets +onlyGivenNames tiles s s1
      have h1 : s.MemOk := takeOff_memOk (forgetWords_memOk (engWriteWords_memOk h))
      have h2 : s1.MemOk := by
        unfold s1
        split
        · exact modTg_memOk h1
        · exact h1
      exact focus_memOk h2
theorem execPreemptSave_memOk {ah} {s : State} (hs : s.MemOk) : OutOk (execPreemptSave ah s) := by
  unfold execPreemptSave
  refine next_keeps ?_
  split
  · split
    · exact attempt_memOk hs fun _ h => saveNow_memOk h
    · exact hs
  · exact hs
theorem execForcedSave_memOk {ah} {s : State} (hs : s.MemOk) : OutOk (execForcedSave ah s) := by
  unfold execForcedSave
  refine next_keeps ?_
  split
  · exact hs
  · split
    · exact ite_keeps hs (attempt_memOk hs fun _ h => saveNow_memOk h)
    · exact hs
theorem withSaveArea_memOk {s : State} {a b f} (hs : s.MemOk) (hf : ∀ (t : State), t.MemOk → (f t).MemOk) :
    (s.withSaveArea a b f).MemOk := by
  unfold State.withSaveArea
  refine ite_keeps (poisonPc_memOk hs) ?_
  extract_lets +onlyGivenNames u va
  split
  · exact trap_memOk hs
  · exact ite_keeps (trap_memOk hs) (ite_keeps (trap_memOk hs) (hf _ hs))
theorem saveCode_memOk {s : State} {d ah} (hs : s.MemOk) : (s.saveCode d ah).MemOk := by
  unfold State.saveCode
  refine ite_keeps hs ?_
  refine ite_keeps hs ?_
  split
  · rename_i t _ e
    have h : t.MemOk := fst_of_eq e (foreign_memOk hs)
    exact h
  · rename_i t _ e
    have h : t.MemOk := fst_of_eq e (foreign_memOk hs)
    exact trap_memOk h
  · rename_i t _ _ _ e
    have h : t.MemOk := fst_of_eq e (foreign_memOk hs)
    exact h
theorem csave_memOk {s : State} {d a b} (hs : s.MemOk) : (s.csave d a b).MemOk := by
  unfold State.csave
  split
  · exact hs
  · exact hs
  · refine withSaveArea_memOk hs fun t h => ?_
    extract_lets +onlyGivenNames u
    split
    · exact ite_keeps (ite_keeps h (ite_keeps (trap_memOk h) (ite_keeps h h))) (saveCode_memOk h)
    · exact ite_keeps (ite_keeps h h) (saveCode_memOk h)
theorem crest_memOk {s : State} {d a b} (hs : s.MemOk) : (s.crest d a b).MemOk := by
  unfold State.crest
  refine withSaveArea_memOk hs fun t h => ?_
  extract_lets +onlyGivenNames u va
  split
  · refine ite_keeps ?_ (saveCode_memOk h)
    extract_lets +onlyGivenNames g g1
    split
    · exact snapFail_memOk (slowStep_memOk h)
    · exact ite_keeps (killMe_memOk h) (advance_memOk (setS_memOk (ite_keeps h (kill_memOk h))))
  · exact saveCode_memOk h
theorem putBack_memOk {s : State} {a bs} (hs : s.MemOk) : (s.putBack a bs).MemOk :=
  onSoc_memOk hs (putE_wf _ _ hs.1)
theorem bindBack_memOk {s : State} {t loc r} (hs : s.MemOk) : (s.bindBack t loc r).MemOk := by
  unfold State.bindBack
  refine ite_keeps hs ?_
  split
  · exact modTg_memOk (ite_keeps hs hs)
  · exact hs
theorem restartStream_memOk {s : State} {o loc} (hs : s.MemOk) : (s.restartStream o loc).MemOk := by
  unfold State.restartStream
  extract_lets +onlyGivenNames lock o' s1
  have h1 : s1.MemOk := takeLock_memOk hs
  clear_value s1
  exact modTg_memOk h1
theorem restorePiece_memOk {s : State} {t k10 k bs} (hs : s.MemOk) : (s.restorePiece t k10 k bs).MemOk := by
  unfold State.restorePiece
  extract_lets +onlyGivenNames c spads s1 slots width made s2
  have h1 : s1.MemOk := foldl_keeps (P := FstOk) (fst_keeps hs) fun _ _ h => fst_keeps (putBack_memOk h)
  clear_value s1
  have h2 : s2.MemOk := foldl_keeps h1 fun _ _ h => putBack_memOk (bump_memOk (addTg_memOk h))
  clear_value s2
  extract_lets +onlyGivenNames off ctx s3 locOf superOf s4 s5
  have h3 : s3.MemOk := by
    refine ite_keeps h2 ?_
    split <;> exact h2
  clear_value s3
  have h4 : s4.MemOk := foldl_keeps h3 fun _ _ h => h
  clear_value s4
  have h5 : s5.MemOk := foldl_keeps h4 fun _ _ h => foldl_keeps h fun _ _ h => bindBack_memOk h
  clear_value s5
  exact foldl_keeps h5 fun _ _ h => restartStream_memOk h
theorem restoreAll_memOk {t k10 l} {s : State} (hs : s.MemOk) : SomeOk (State.restoreAll t k10 l s) := by
  induction l generalizing t k10 s with
  | nil => exact some_keeps hs
  | cons x xs ih => exact ite_keeps (ih (restorePiece_memOk hs)) none_keeps
theorem execResume_memOk {ah} {s : State} (hs : s.MemOk) : OutOk (execResume ah s) := by
  unfold execResume
  refine next_keeps ?_
  refine attempt_memOk hs fun t h => ?_
  split
  · exact h
  · split
    · split
      · exact engWait_memOk h
      · exact h
      · exact slowRead_memOk h
      · split
        rename_i e
        exact kill_memOk (fst_of_eq e (areaFail_memOk h))
      · extract_lets +onlyGivenNames k10
        split
        · rename_i e
          exact modTask_memOk (forgetWords_memOk (some_of_eq e (restoreAll_memOk h)))
        · exact h
    · exact h

/-! ### Copy queues, hardware slots and packets -/

theorem setPend_memOk {s : State} {q} (hs : s.MemOk) : (s.setPend q).MemOk := hs
theorem kickQueue_memOk {s : State} {q} (hs : s.MemOk) : (s.kickQueue q).MemOk := by
  unfold State.kickQueue
  split
  · exact ite_keeps (ite_keeps hs hs) (forgetWords_memOk hs)
  · exact hs
theorem withHdr_memOk {s : State} {va k} (hs : s.MemOk) (hk : ∀ (t : State) (b : List Byte), t.MemOk → (k t b).MemOk) :
    (s.withHdr va k).MemOk :=
  withSnap_memOk hs fun _ _ h => ite_keeps (hk _ _ h) (trapRing_memOk h)
theorem fillSlot_memOk {s : State} {d ah pkt i} (hs : s.MemOk) : (s.fillSlot d ah pkt i).MemOk := by
  unfold State.fillSlot
  extract_lets +onlyGivenNames at_ first
  split
  · exact trap_memOk hs
  · extract_lets +onlyGivenNames ent es
    split
    · rename_i t e
      have h : t.MemOk := fst_of_eq e (storeAll_memOk hs)
      exact h
    · rename_i t e
      have h : t.MemOk := fst_of_eq e (storeAll_memOk hs)
      exact h
theorem pushRest_memOk {s : State} {d hdr ah pkt i} (hs : s.MemOk) : (s.pushRest d hdr ah pkt i).MemOk := by
  unfold State.pushRest
  refine ite_keeps (afterFence_memOk hs fun _ h => fillSlot_memOk h) ?_
  split
  · rename_i e
    exact fst_of_eq e (loadLine_memOk hs)
  · rename_i t _ e
    have h : t.MemOk := fst_of_eq e (loadLine_memOk hs)
    exact ite_keeps (afterFence_memOk h fun _ h1 => fillSlot_memOk h1) (park_memOk (setWatch_memOk h))
theorem pushClaim_memOk {s : State} {d hdr ahb pkt} (hs : s.MemOk) : (s.pushClaim d hdr ahb pkt).MemOk := by
  unfold State.pushClaim
  split
  · exact pushRest_memOk hs
  · split
    · rename_i t e
      have h : t.MemOk := fst_of_eq e (atomOne_memOk hs)
      exact h
    · rename_i t _ e
      have h : t.MemOk := fst_of_eq e (atomOne_memOk hs)
      exact pushRest_memOk h
theorem cqpush_memOk {s : State} {d a b} (hs : s.MemOk) : (s.cqpush d a b).MemOk := by
  unfold State.cqpush
  extract_lets +onlyGivenNames hdr s1
  have h : s1.MemOk := hs
  split
  · exact pushClaim_memOk h
  · refine ite_keeps (poisonPc_memOk h) ?_
    refine withHdr_memOk h fun t xhb h1 => ?_
    refine withSnap_memOk h1 fun t1 pkt h2 => ?_
    split
    · exact trap_memOk h2
    · exact pushClaim_memOk h2
theorem cqkick_memOk {s : State} {a} (hs : s.MemOk) : (s.cqkick a).MemOk := by
  unfold State.cqkick
  refine ite_keeps (poisonPc_memOk hs) ?_
  extract_lets +onlyGivenNames hdr
  refine withHdr_memOk hs fun t xhb h => ?_
  extract_lets +onlyGivenNames u key
  refine afterFence_memOk h fun t1 h1 => ?_
  extract_lets +onlyGivenNames full
  refine ite_keeps h1 ?_
  split
  · exact trap_memOk h1
  · split
    · rename_i e
      exact fst_of_eq e (storeAll_memOk h1)
    · rename_i t2 e
      have h2 : t2.MemOk := fst_of_eq e (storeAll_memOk h1)
      exact advance_memOk (ite_keeps (kickQueue_memOk h2) (forgetWords_memOk h2))
theorem mapSlot_memOk {s : State} {n q} (hs : s.MemOk) : (s.mapSlot n q).MemOk := by
  unfold State.mapSlot
  extract_lets +onlyGivenNames x refuse again va map
  have h : ∀ (t : State), t.MemOk → (refuse t).MemOk := fun _ h => h
  have h1 : ∀ (t : State), t.MemOk → (again t).MemOk := fun _ h1 => h1
  have h2 : ∀ (t : State) (bs : List Byte), t.MemOk → (map t bs).MemOk := fun _ _ h2 => forgetWords_memOk h2
  refine ite_keeps (h _ hs) ?_
  split
  · exact ite_keeps (h _ hs) (h2 _ _ hs)
  · split
    · rename_i e
      exact h1 _ (fst_of_eq e (hwGather_memOk hs))
    · rename_i t _ e
      have h3 : t.MemOk := fst_of_eq e (hwGather_memOk hs)
      exact ite_keeps (h _ h3) (h2 _ _ h3)
  · exact ite_keeps (h _ hs) (engWait_memOk (h1 _ hs))
  · exact h1 _ hs
  · exact h _ (misplaced_memOk hs)
  · exact h _ hs
theorem slotMap_memOk {s : State} {n v} (hs : s.MemOk) : (s.slotMap n v).MemOk :=
  ite_keeps hs (ite_keeps (mapSlot_memOk hs) (ite_keeps (mapSlot_memOk hs) hs))
theorem slotDrain_memOk {s : State} {n v} (hs : s.MemOk) : (s.slotDrain n v).MemOk :=
  ite_keeps hs hs
theorem slotCtl_memOk {s : State} {n v} (hs : s.MemOk) : (s.slotCtl n v).MemOk :=
  ite_keeps (slotDrain_memOk hs) (slotMap_memOk hs)
theorem slotRdidx_memOk {s : State} {n} (hs : s.MemOk) : FstOk (s.slotRdidx n) := by
  unfold State.slotRdidx
  extract_lets +onlyGivenNames x g
  split
  · exact fst_keeps hs
  · exact fst_keeps hs
  · exact fst_keeps (engWait_memOk hs)
  · exact fst_keeps (misplaced_memOk hs)
  · exact fst_keeps (slowRead_memOk hs)
  · exact fst_keeps hs
theorem unmapSlot_memOk {s : State} {n} (hs : s.MemOk) : (s.unmapSlot n).MemOk := by
  unfold State.unmapSlot
  extract_lets +onlyGivenNames x
  refine ite_keeps ?_ hs
  split
  · rename_i e
    exact fst_of_eq e (slotRdidx_memOk hs)
  · rename_i t _ e
    have h : t.MemOk := fst_of_eq e (slotRdidx_memOk hs)
    extract_lets +onlyGivenNames g ns at_ finish
    have h1 : ∀ (t : State), t.MemOk → (finish t).MemOk :=
      fun _ h1 => ite_keeps (setPend_memOk (forgetWords_memOk h1)) (forgetWords_memOk h1)
    split
    · exact h1 _ (supWrite_memOk h)
    · exact ite_keeps (h1 _ (hwPut_memOk h)) (keepPut_memOk (hwPut_memOk h))
    · exact ite_keeps (h1 _ h) (engWait_memOk h)
    · exact h
    · exact h1 _ (misplaced_memOk h)
    · exact h1 _ h
theorem sleep_memOk {s : State} {q} (hs : s.MemOk) : (s.sleep q).MemOk := by
  unfold State.sleep
  extract_lets +onlyGivenNames s1
  have h : s1.MemOk := forgetWords_memOk hs
  split <;> exact h
theorem queueFault_memOk {s : State} {q} (hs : s.MemOk) : (s.queueFault q).MemOk := by
  unfold State.queueFault
  split
  · exact post_memOk (sleep_memOk hs)
  · exact sleep_memOk hs
theorem serveRead_memOk {s : State} {q va n} (hs : s.MemOk) : FstOk (s.serveRead q va n) := by
  unfold State.serveRead
  extract_lets +onlyGivenNames g
  split
  · exact ite_keeps (fst_keeps (queueFault_memOk hs)) (fst_keeps (noteReads_memOk hs))
  · exact fst_keeps (engWait_memOk hs)
  · exact fst_keeps hs
  · exact fst_keeps (slowRead_memOk hs)
  · exact fst_keeps (queueFault_memOk (misplaced_memOk hs))
  · exact fst_keeps (queueFault_memOk hs)
theorem lookNext_memOk {s : State} {q} (hs : s.MemOk) : FstOk (s.lookNext q) := by
  unfold State.lookNext
  refine ite_keeps (fst_keeps hs) ?_
  extract_lets +onlyGivenNames hdr
  refine ite_keeps (fst_keeps (queueFault_memOk hs)) ?_
  split
  · rename_i e
    exact fst_keeps (fst_of_eq e (serveRead_memOk hs))
  · rename_i t _ e
    have h : t.MemOk := fst_of_eq e (serveRead_memOk hs)
    extract_lets +onlyGivenNames u
    refine ite_keeps (fst_keeps (queueFault_memOk h)) ?_
    extract_lets +onlyGivenNames s1
    have h1 : s1.MemOk := by
      unfold s1
      split <;> exact h
    split
    · rename_i e1
      exact fst_keeps (fst_of_eq e1 (serveRead_memOk h1))
    · rename_i t1 _ e1
      have h2 : t1.MemOk := fst_of_eq e1 (serveRead_memOk h1)
      exact ite_keeps (fst_keeps h2) (fst_keeps (sleep_memOk h2))
theorem beginPkt_memOk {s : State} {q want} (hs : s.MemOk) : (s.beginPkt q want).MemOk := by
  unfold State.beginPkt
  split
  · rename_i t e
    exact fst_of_eq e (lookNext_memOk hs)
  · rename_i t i h pb e
    have ht : t.MemOk := fst_of_eq e (lookNext_memOk hs)
    refine ite_keeps hs ?_
    extract_lets +onlyGivenNames g
    split
    · exact engWait_memOk hs
    · exact hs
    · exact queueFault_memOk ht
    · extract_lets +onlyGivenNames s1
      have h1 : s1.MemOk := forgetWords_memOk (engWrite_memOk ht)
      split
      rename_i qid cls s2 e2
      have h2 : s2.MemOk := by
        split at e2 <;> cases e2
        · exact h1
        · exact h1
      exact h2
theorem modPkt_memOk {s : State} {p f} (hs : s.MemOk) : (s.modPkt p f).MemOk := hs
theorem finEvent_memOk {s : State} {p st code written} (hs : s.MemOk) : (s.finEvent p st code written).MemOk :=
  ite_keeps hs (ite_keeps (post_memOk hs) (post_memOk hs))
theorem finishPkt_memOk {s : State} {p} (hs : s.MemOk) : (s.finishPkt p).MemOk := by
  unfold State.finishPkt
  split
  · exact hs
  · extract_lets +onlyGivenNames c
    split
    · exact ite_keeps hs (endPkt_memOk (finEvent_memOk hs))
    · refine ite_keeps ?_ (endPkt_memOk (finEvent_memOk hs))
      split
      · rename_i t w e
        exact endPkt_memOk (finEvent_memOk (fst_of_eq e (flagStore_memOk hs)))
      · rename_i t w e
        exact modPkt_memOk (fst_of_eq e (flagStore_memOk hs))
      · rename_i t va e
        exact engWait_memOk (fst_of_eq e (flagStore_memOk hs))
      · rename_i t e
        exact fst_of_eq e (flagStore_memOk hs)
theorem setFin_memOk {s : State} {p st code} (hs : s.MemOk) : (s.setFin p st code).MemOk :=
  finishPkt_memOk hs
theorem tryPkt_memOk {go} {s : State} {p} (hgo : ∀ (t : State) (b : Pkt), t.MemOk → (go t b).MemOk) (hs : s.MemOk) :
    (State.tryPkt go s p).MemOk :=
  attempt_memOk hs fun _ h => ite_keeps (finishPkt_memOk h) (hgo _ _ h)
theorem servePkt_memOk {s : State} {q want go} (hs : s.MemOk)
    (hgo : ∀ (t : State) (b : Pkt), t.MemOk → (go t b).MemOk) :
    (s.servePkt q want go).MemOk := by
  unfold State.servePkt
  extract_lets +onlyGivenNames waiting s1 s'
  have h : s1.MemOk := foldl_keeps hs fun _ _ h => tryPkt_memOk hgo h
  have h1 : s'.MemOk := attempt_memOk h fun _ h1 => beginPkt_memOk h1
  split
  · exact tryPkt_memOk hgo h1
  · exact h1
theorem pktMap_memOk {s : State} {p va} (hs : s.MemOk) : FstOk (s.pktMap p va) := by
  unfold State.pktMap
  split
  · rename_i e
    exact fst_keeps (fst_of_eq e (snapStruct_memOk hs))
  · rename_i e
    exact fst_keeps (fst_of_eq e (snapStruct_memOk hs))
theorem pktWait_memOk {s : State} {p err} (hs : s.MemOk) : (s.pktWait p err).MemOk := by
  unfold State.pktWait
  split
  · exact engWait_memOk hs
  · exact hs
  · exact setFin_memOk hs
theorem startCopy_memOk {kind} {s : State} {p} (hs : s.MemOk) : (State.startCopy kind s p).MemOk := by
  unfold State.startCopy
  extract_lets +onlyGivenNames c start dstMap
  have hstart : ∀ (t : State) (maps src dst), t.MemOk → (start t maps src dst).MemOk := by
    intro t maps src dst ht
    refine ite_keeps ht ?_
    extract_lets +onlyGivenNames op s1
    have h1 : s1.MemOk := takeLock_memOk ht
    clear_value op s1
    exact modPkt_memOk h1
  clear_value start
  have hdst : ∀ (t : State) (k : State → TMap → State), t.MemOk → (∀ u m, u.MemOk → (k u m).MemOk) →
    (dstMap t k).MemOk := by
    intro t k ht hk
    unfold dstMap
    split
    · rename_i e
      exact pktWait_memOk (fst_of_eq e (pktMap_memOk ht))
    · rename_i e
      exact hk _ _ (fst_of_eq e (pktMap_memOk ht))
  clear_value dstMap
  refine ite_keeps (hdst _ _ hs fun _ _ h => ite_keeps (hstart _ _ _ _ h) (setFin_memOk h)) ?_
  split
  · rename_i e
    exact pktWait_memOk (fst_of_eq e (pktMap_memOk hs))
  · rename_i e
    exact hdst _ _ (fst_of_eq e (pktMap_memOk hs)) fun _ _ h => ite_keeps (hstart _ _ _ _ h) (setFin_memOk h)
theorem loadImage_memOk {s : State} {img} (hs : s.MemOk) : (s.loadImage img).MemOk :=
  foldl_keeps hs fun _ _ h => writeAt_memOk h
theorem futoutStore_memOk {s : State} {p off bs poison k} (hs : s.MemOk) (hk : ∀ (t : State), t.MemOk → (k t).MemOk) :
    (s.futoutStore p off bs poison k).MemOk := by
  unfold State.futoutStore
  extract_lets +onlyGivenNames l
  refine ite_keeps (hk _ hs) ?_
  split
  · rename_i e
    exact hk _ (fst_of_eq e (flagStore_memOk hs))
  · rename_i e
    exact hk _ (fst_of_eq e (flagStore_memOk hs))
  · rename_i e
    exact engWait_memOk (fst_of_eq e (flagStore_memOk hs))
  · rename_i e
    exact fst_of_eq e (flagStore_memOk hs)
theorem storeFutout_memOk {s : State} {p} (hs : s.MemOk) : (s.storeFutout p).MemOk :=
  futoutStore_memOk hs fun _ h => h
theorem launchSpawn_memOk {s : State} {p i} (hs : s.MemOk) : (s.launchSpawn p i).MemOk := by
  unfold State.launchSpawn
  extract_lets +onlyGivenNames l cl
  split
  · exact hs
  · extract_lets +onlyGivenNames place i1 b
    split
    rename_i t _ e
    have h : t.MemOk := fst_of_eq e (enqueue_memOk hs)
    exact storeFutout_memOk h
theorem launch_memOk {s : State} {p} (hs : s.MemOk) : (s.launch p).MemOk := by
  unfold State.launch
  extract_lets +onlyGivenNames l
  refine ite_keeps (storeFutout_memOk hs) ?_
  split
  · exact launchSpawn_memOk hs
  · refine ite_keeps (setFin_memOk hs) ?_
    extract_lets +onlyGivenNames fail
    have h : ∀ (t : State) (e : SnapErr), t.MemOk → (fail t e).MemOk := by
      intro t e h
      unfold fail
      split
      · exact engWait_memOk h
      · exact h
      · exact setFin_memOk h
    split
    · rename_i e
      exact h _ _ (fst_of_eq e (snapTask_memOk hs))
    · rename_i t _ e
      have h1 : t.MemOk := fst_of_eq e (snapTask_memOk hs)
      split
      · exact setFin_memOk h1
      · refine ite_keeps (setFin_memOk h1) ?_
        refine ite_keeps (launchSpawn_memOk h1) ?_
        split
        · rename_i e1
          exact h _ _ (fst_of_eq e1 (snapStruct_memOk h1))
        · rename_i e1
          exact launchSpawn_memOk (loadImage_memOk (fst_of_eq e1 (snapStruct_memOk h1)))
theorem launchDone_memOk {s : State} {p} (hs : s.MemOk) : (s.launchDone p).MemOk := by
  unfold State.launchDone
  generalize p.outcome = out
  cases p.fin with
  | some => exact finishPkt_memOk hs
  | none =>
    rcases out with _ | (_ | _ | _ | _ | _ | _ | _)
    case some.value => exact futoutStore_memOk hs fun _ h => setFin_memOk h
    case some.cancelled => exact setFin_memOk hs
    case some.faulted => exact ite_keeps (setFin_memOk hs) (setFin_memOk hs)
    all_goals exact hs
theorem execLaunchComplete_memOk {ah} {s : State} (hs : s.MemOk) : OutOk (execLaunchComplete ah s) := by
  unfold execLaunchComplete
  refine next_keeps ?_
  split
  · exact attempt_memOk hs fun _ h => launchDone_memOk h
  · exact hs
theorem tearStart_memOk {s : State} {q} (hs : s.MemOk) : (s.tearStart q).MemOk := by
  unfold State.tearStart
  extract_lets +onlyGivenNames s1 s2 mine s3
  have h : s1.MemOk := by
    unfold s1
    split <;> exact hs
  have h1 : s2.MemOk := foldl_keeps h fun _ _ h1 => setFin_memOk h1
  have h2 : s3.MemOk := foldl_keeps h1 fun _ _ h2 => endQueued_memOk h2
  exact foldl_keeps h2 fun _ _ h3 => h3
theorem qtear_memOk {s : State} {v} (hs : s.MemOk) : (s.qtear v).MemOk :=
  ite_keeps hs (tearStart_memOk hs)
theorem tearTasks_memOk {s : State} {q} (hs : s.MemOk) : (s.tearTasks q).MemOk := by
  unfold State.tearTasks
  extract_lets +onlyGivenNames s1
  have h : s1.MemOk := foldl_keeps hs fun _ _ h => ite_keeps (endQueued_memOk h) (endTask_memOk h)
  refine foldl_keeps h fun t x h1 => ?_
  split
  · rename_i e
    exact settleHeld_memOk (fst_of_eq e (noteNow_memOk h1))
  · rename_i e
    exact fst_of_eq e (noteNow_memOk h1)
theorem tearQcb_memOk {s : State} {q} (hs : s.MemOk) : FstOk (s.tearQcb q) := by
  unfold State.tearQcb
  split
  · exact fst_keeps hs
  · refine ite_keeps (fst_keeps hs) ?_
    extract_lets +onlyGivenNames a s1
    have h : s1.MemOk := hs
    split
    · exact fst_keeps (supWrite_memOk h)
    · exact fst_keeps (supWrite_memOk h)
    · exact ite_keeps (fst_keeps h) (fst_keeps (engWait_memOk h))
    · exact fst_keeps h
    · exact fst_keeps (misplaced_memOk h)
    · exact fst_keeps h
theorem tearEnd_memOk {s : State} {q} (hs : s.MemOk) : FstOk (s.tearEnd q) := by
  unfold State.tearEnd
  extract_lets +onlyGivenNames s1 s2
  have h : s1.MemOk := tearTasks_memOk hs
  have h1 : s2.MemOk := foldl_keeps h fun _ _ h1 => tryPkt_memOk (fun _ _ h2 => h2) h1
  refine ite_keeps (fst_keeps h1) ?_
  split
  · rename_i e
    exact fst_keeps (post_memOk (fst_of_eq e (tearQcb_memOk h1)))
  · exact tearQcb_memOk h1
theorem tearDone_memOk {s : State} (hs : s.MemOk) : s.tearDone.MemOk :=
  ite_keeps hs (ite_keeps (modSup_memOk (tearEnd_memOk hs)) (tearEnd_memOk hs))
theorem tearOne_memOk {s : State} {q} (hs : s.MemOk) : (s.tearOne q).MemOk := by
  unfold State.tearOne
  split
  · rename_i t e
    have h : t.MemOk := fst_of_eq e (tearEnd_memOk hs)
    exact h
  · rename_i t e
    have h : t.MemOk := fst_of_eq e (tearEnd_memOk hs)
    exact h
theorem tearAll_memOk {s : State} (hs : s.MemOk) : FstOk s.tearAll :=
  ite_keeps (fst_keeps (foldl_keeps hs fun _ _ h =>
    tearStart_memOk h)) (fst_keeps (foldl_keeps (foldl_keeps hs fun _ _ h =>
    ite_keeps (unmapSlot_memOk h) h) fun _ _ h => tearOne_memOk h))

/-! ### Invalidation, answers to faults, swap and darning -/

theorem dropPages_memOk {s : State} {names} (hs : s.MemOk) : (s.dropPages names).MemOk := by
  unfold State.dropPages
  extract_lets +onlyGivenNames poke hit s1
  have h : ∀ (t : State) (w : Watch), t.MemOk → (poke t w).MemOk := fun _ _ h => modTg_memOk h
  have h1 : s1.MemOk := foldl_keeps hs h
  exact h1
theorem tinvWrite_memOk {s : State} {v} (hs : s.MemOk) : (s.tinvWrite v).MemOk :=
  ite_keeps hs (dropPages_memOk hs)
theorem faultAnswer_memOk {s : State} {asid page unmap} (hs : s.MemOk) : (s.faultAnswer asid page unmap).MemOk := by
  unfold State.faultAnswer
  refine ite_keeps hs ?_
  extract_lets +onlyGivenNames s1 s2 mine dead s3
  have h : s1.MemOk := hs
  have h1 : s2.MemOk :=
    foldl_keeps h fun _ _ h1 => ite_keeps (modTg_memOk h1) (ite_keeps (modTg_memOk h1) (killTg_memOk h1))
  have h2 : s3.MemOk := h1
  exact ite_keeps h2 h2
theorem fltresp_memOk {s : State} {v} (hs : s.MemOk) : (s.fltresp v).MemOk :=
  faultAnswer_memOk hs
theorem rtWrite_memOk {s : State} {v} (hs : s.MemOk) : (s.rtWrite v).MemOk := by
  unfold State.rtWrite
  extract_lets +onlyGivenNames r
  clear_value r
  refine ite_keeps hs ?_
  extract_lets +onlyGivenNames first
  clear_value first
  split <;> exact hs
theorem execSwapComplete_memOk {s : State} (hs : s.MemOk) : OutOk (execSwapComplete s) := by
  unfold execSwapComplete
  refine next_keeps ?_
  extract_lets +onlyGivenNames r
  refine ite_keeps ?_ hs
  extract_lets +onlyGivenNames gone t
  have h : t.MemOk := foldl_keeps hs fun _ _ h => h
  exact h
theorem darnWrite_memOk {s : State} {v} (hs : s.MemOk) : (s.darnWrite v).MemOk := by
  unfold State.darnWrite
  refine ite_keeps hs ?_
  extract_lets +onlyGivenNames j
  split
  · exact hs
  · exact ite_keeps hs (dropPages_memOk hs)
theorem listFrame_memOk {s : State} {frame} (hs : s.MemOk) : (s.listFrame frame).MemOk := hs
theorem execDarningComplete_memOk {s : State} (hs : s.MemOk) : OutOk (execDarningComplete s) := by
  unfold execDarningComplete
  refine next_keeps ?_
  extract_lets +onlyGivenNames j
  refine ite_keeps hs (ite_keeps (modSup_memOk (listFrame_memOk hs)) (ite_keeps hs ?_))
  extract_lets +onlyGivenNames s1 s2
  have h1 : s1.MemOk := onSoc_memOk hs (copyFrame_wf _ _ _ hs.1)
  have h2 : s2.MemOk := by
    unfold s2
    split
    · exact homeWrite_memOk h1
    · exact h1
  exact modSup_memOk (listFrame_memOk h2)
theorem answerPeer_memOk {s : State} {r} (hs : s.MemOk) : (s.answerPeer r).MemOk := hs
theorem peerAcc_memOk {s : State} {a} (hs : s.MemOk) : (s.peerAcc a).MemOk := by
  unfold State.peerAcc
  split
  · exact ite_keeps hs hs
  · exact ite_keeps (answerPeer_memOk (writeAt_memOk hs)) hs
  · exact ite_keeps (answerPeer_memOk (atomAt_memOk hs)) hs
theorem refused_memOk {s : State} {w} (hs : s.MemOk) : (s.refused w).MemOk :=
  ite_keeps (kill_memOk hs) (ite_keeps (killTg_memOk hs) hs)
theorem peerReply_memOk {s : State} {id r} (hs : s.MemOk) : (s.peerReply id r).MemOk := by
  unfold State.peerReply
  split
  · exact hs
  · split
    · exact ite_keeps hs hs
    · exact refused_memOk hs

/-! ### ECC findings, scrubs, core tests and failures -/

theorem setHistory_memOk {s : State} {f : Mgmt → List HistEnt}
    (hs : s.MemOk) : (s.modMgmt fun m => { m with history := f m }).MemOk := hs
theorem setFailed_memOk {s : State} {f : Mgmt → List Nat}
    (hs : s.MemOk) : (s.modMgmt fun m => { m with failed := true, irqs := f m }).MemOk := hs
theorem record_memOk {s : State} {typ die payload} (hs : s.MemOk) : (s.record typ die payload).MemOk := by
  unfold State.record
  exact setHistory_memOk hs
theorem postRas_memOk {s : State} {typ die cl asid fs} (hs : s.MemOk) : (s.postRas typ die cl asid fs).MemOk :=
  modMgmt_memOk (post_memOk hs) rfl
theorem ceWindow_memOk {s : State} {d array} (hs : s.MemOk) : (s.ceWindow d array).MemOk :=
  ite_keeps (postRas_memOk hs) hs
theorem correctable_memOk {s : State} {d array sel} (hs : s.MemOk) : (s.correctable d array sel).MemOk :=
  ceWindow_memOk hs
theorem frameSuspect_memOk {s : State} {d frame ue} (hs : s.MemOk) : (s.frameSuspect d frame ue).MemOk :=
  postRas_memOk hs
theorem notice_memOk {s : State} {ue array a f} (hs : s.MemOk) (hf : ∀ (t : State), t.MemOk → (f t).MemOk) :
    (s.notice ue array a f).MemOk :=
  ite_keeps hs (hf _ hs)
theorem failDevice_memOk {s : State} (hs : s.MemOk) : s.failDevice.MemOk :=
  ite_keeps hs (setFailed_memOk (useFree_memOk (record_memOk hs)))
theorem hbmFinding_memOk {s : State} {block e} (hs : s.MemOk) : (s.hbmFinding block e).MemOk := by
  unfold State.hbmFinding
  extract_lets +onlyGivenNames a
  split
  extract_lets +onlyGivenNames frame
  refine ite_keeps hs ?_
  split
  · exact hs
  · exact notice_memOk hs fun _ h => ite_keeps (frameSuspect_memOk (modDie_memOk (correctable_memOk h)))
      (modDie_memOk (correctable_memOk h))
  · exact notice_memOk hs fun _ h => frameSuspect_memOk (postRas_memOk h)
theorem poisonWord_memOk {s : State} {w} (hs : s.MemOk) : (s.poisonWord w).MemOk := by
  unfold State.poisonWord
  split
  · exact modTg_memOk hs
  · exact modTg_memOk hs
  · exact modTg_memOk hs
  · exact modTg_memOk hs
  · exact hs
  · exact hs
theorem noticeReg_memOk {s : State} {ue t file reg lane f} (hs : s.MemOk) (hf : ∀ (t : State), t.MemOk → (f t).MemOk) :
    (s.noticeReg ue t file reg lane f).MemOk :=
  ite_keeps hs (hf _ (modTg_memOk hs))
theorem noticeAcc_memOk {s : State} {ue c t n f} (hs : s.MemOk) (hf : ∀ (t : State), t.MemOk → (f t).MemOk) :
    (s.noticeAcc ue c t n f).MemOk :=
  ite_keeps hs (hf _ hs)
theorem noticeWord_memOk {s : State} {ue w f} (hs : s.MemOk) (hf : ∀ (t : State), t.MemOk → (f t).MemOk) :
    (s.noticeWord ue w f).MemOk := by
  unfold State.noticeWord
  split
  · exact noticeReg_memOk hs hf
  · exact noticeReg_memOk hs hf
  · exact noticeReg_memOk hs hf
  · exact noticeReg_memOk hs hf
  · exact notice_memOk hs hf
  · exact noticeAcc_memOk hs hf
theorem sliceFinding_memOk {s : State} {d asid va what} (hs : s.MemOk) : (s.sliceFinding d asid va what).MemOk := by
  unfold State.sliceFinding
  extract_lets +onlyGivenNames bad
  have h : ∀ (t : State), t.MemOk → (bad t).MemOk := fun _ h => postRas_memOk h
  refine ite_keeps hs ?_
  split
  · exact ite_keeps (ite_keeps hs hs) (ite_keeps (correctable_memOk hs) (h _ hs))
  · refine ite_keeps hs ?_
    split
    · exact ite_keeps (notice_memOk hs fun _ h1 => correctable_memOk h1) (notice_memOk hs h)
    · exact hs
theorem arrayFinding_memOk {s : State} {d f} (hs : s.MemOk) : (s.arrayFinding d f).MemOk := by
  unfold State.arrayFinding
  extract_lets +onlyGivenNames ue
  split
  · exact sliceFinding_memOk hs
  · exact ite_keeps hs (ite_keeps (notice_memOk hs fun _ h =>
      postRas_memOk (count_memOk h)) (notice_memOk hs fun _ h => ceWindow_memOk h))
  · split
    exact ite_keeps hs (ite_keeps (noticeWord_memOk (poisonWord_memOk hs) fun _ h => postRas_memOk (count_memOk h))
      (noticeWord_memOk hs fun _ h => ceWindow_memOk h))
  · exact ite_keeps hs (ite_keeps (failDevice_memOk hs) hs)
  · exact ite_keeps hs (ite_keeps hs hs)
  · exact ite_keeps hs hs
  · split
    · rename_i img hi _
      refine ite_keeps hs (notice_memOk ?_ fun _ h => postRas_memOk h)
      refine setImage_memOk hs ?_ rfl
      exact hs.2 _ (mem_of_kfind hi)
    · exact notice_memOk hs fun _ h => ceWindow_memOk h
    · exact hs
theorem eccWrite_memOk {s : State} {d v} (hs : s.MemOk) : (s.eccWrite d v).MemOk :=
  modDie_memOk (foldl_keeps hs fun _ _ h => h)
theorem execCoreTestComplete_memOk {die pass} {s : State} (hs : s.MemOk) : OutOk (execCoreTestComplete die pass s) := by
  unfold execCoreTestComplete
  refine next_keeps ?_
  split
  · exact hs
  · exact ite_keeps hs (postRas_memOk hs)
theorem instrError_memOk {s : State} {t checker} (hs : s.MemOk) : (s.instrError t checker).MemOk := by
  unfold State.instrError
  split
  · exact hs
  · exact ite_keeps hs (ite_keeps (postRas_memOk (modCore_memOk (killTg_memOk hs))) (post_memOk (count_memOk
      (modTg_memOk hs))))
theorem opLost_memOk {s : State} {o} (hs : s.MemOk) : (s.opLost o).MemOk := by
  unfold State.opLost
  split
  · exact endQueued_memOk hs
  · exact ite_keeps hs (finishCopy_memOk hs)
  · exact opKill_memOk hs
theorem opError_memOk {s : State} {n checker} (hs : s.MemOk) : (s.opError n checker).MemOk := by
  unfold State.opError
  split
  · exact hs
  · exact ite_keeps (postRas_memOk (modCore_memOk (opLost_memOk hs))) (post_memOk hs)
theorem execPipelineError_memOk {t checker op} {s : State} (hs : s.MemOk) :
    OutOk (execPipelineError t checker op s) := by
  unfold execPipelineError
  refine next_keeps ?_
  split
  · exact opError_memOk hs
  · exact instrError_memOk hs
theorem execLaneFailure_memOk {k mask} {s : State} (hs : s.MemOk) : OutOk (execLaneFailure k mask s) := by
  unfold execLaneFailure
  refine next_keeps ?_
  extract_lets +onlyGivenNames w own
  clear_value own
  split
  · exact hs
  · refine ite_keeps hs ?_
    extract_lets +onlyGivenNames s1 fs
    have h1 : s1.MemOk := hs
    clear_value s1
    exact ite_keeps (ite_keeps (failDevice_memOk (postRas_memOk h1)) (postRas_memOk h1)) (postRas_memOk
      (foldl_keeps h1 fun _ _ h => count_memOk h))
theorem execTelemetry_memOk {t} {s : State} (hs : s.MemOk) : OutOk (execTelemetry t s) := by
  unfold execTelemetry
  refine next_keeps (ite_keeps hs ?_)
  extract_lets +onlyGivenNames seq bs s1 s2
  have h1 : s1.MemOk := foldl_keeps hs fun _ _ h => modDie_memOk h
  have h2 : s2.MemOk := h1
  exact modMgmt_memOk (onSoc_memOk h2 (put_wf _ _ _ _ h2.1)) rfl

/-! ### The slice timer -/

theorem sliceArm_memOk {s : State} {v} (hs : s.MemOk) : (s.sliceArm v).MemOk :=
  ite_keeps hs hs
theorem tableEvents_memOk {s : State} {tab} (hs : s.MemOk) : (s.tableEvents tab).MemOk := by
  unfold State.tableEvents
  refine foldl_keeps hs fun t x h => ?_
  split
  · exact misplaced_memOk h
  · exact h
theorem sliceRequest_memOk {s : State} {t area e} (hs : s.MemOk) : (s.sliceRequest t area e).MemOk := by
  unfold State.sliceRequest
  split <;> exact hs
theorem claimSave_memOk {s : State} {t} (hs : s.MemOk) : (s.claimSave t).MemOk := by
  unfold State.claimSave
  split
  · exact post_memOk hs
  · exact modSup_memOk (sliceRequest_memOk (supWrite_memOk hs))
theorem headRead_memOk {s : State} {ah area} (hs : s.MemOk) : FstOk (s.headRead ah area) := by
  unfold State.headRead
  split
  · exact fst_keeps hs
  · split
    · rename_i e
      exact fst_keeps (fst_of_eq e (hwGather_memOk hs))
    · rename_i e
      exact fst_keeps (fst_of_eq e (hwGather_memOk hs))
  · exact fst_keeps hs
  · exact fst_keeps hs
  · exact fst_keeps hs
  · exact fst_keeps hs
theorem restoreEntry_memOk {s : State} {e} (hs : s.MemOk) : (s.restoreEntry e).MemOk := by
  unfold State.restoreEntry
  split
  refine ite_keeps hs ?_
  extract_lets +onlyGivenNames hw va s1
  have h : s1.MemOk := by
    unfold s1
    split
    · refine ite_keeps ?_ hs
      refine attempt_memOk hs fun t h => ?_
      split
      · rename_i t1 _ e1
        have h1 : t1.MemOk := fst_of_eq e1 (headRead_memOk h)
        exact ite_keeps (kill_memOk h1) (ite_keeps h1 (kill_memOk h1))
      · rename_i e1
        exact kill_memOk (areaFail_memOk (fst_of_eq e1 (headRead_memOk h)))
    · exact hs
  exact supWrite_memOk h
theorem execSliceRestore_memOk {s : State} (hs : s.MemOk) : OutOk (execSliceRestore s) := by
  unfold execSliceRestore
  refine next_keeps ?_
  refine ite_keeps ?_ hs
  split
  · exact attempt_memOk hs fun _ h => engWait_memOk h
  · exact headRead_memOk hs
  · exact hs
  · exact modSup_memOk (foldl_keeps (tableEvents_memOk (foldl_keeps hs fun _ _ h => supWrite_memOk h)) fun _ _ h =>
      restoreEntry_memOk h)

/-! ### Writes of the register windows -/

theorem reportLost_memOk {s : State} (hs : s.MemOk) : s.reportLost.MemOk :=
  ite_keeps hs (post_memOk hs)
theorem writeSlot_memOk {s : State} {n off v} (hs : s.MemOk) : (s.writeSlot n off v).MemOk := by
  unfold State.writeSlot
  split
  · exact attempt_memOk hs fun _ h => slotCtl_memOk h
  · exact hs
  · exact hs
theorem writeSup_memOk {s : State} {off v} (hs : s.MemOk) : (s.writeSup off v).MemOk := by
  unfold State.writeSup
  extract_lets +onlyGivenNames n
  refine ite_keeps hs ?_
  refine ite_keeps hs ?_
  refine ite_keeps hs ?_
  split
  · exact reportLost_memOk hs
  · exact qtear_memOk hs
  · exact hs
  · exact hs
  · exact tinvWrite_memOk hs
  · exact hs
  · exact fltresp_memOk hs
  · exact rtWrite_memOk hs
  · exact hs
  · exact hs
  · exact hs
  · exact darnWrite_memOk hs
  · exact sliceArm_memOk hs
  · exact hs
  · exact hs
  · exact hs
  · exact hs
  · exact hs
theorem writeDie_memOk {s : State} {d off v} (hs : s.MemOk) : (s.writeDie d off v).MemOk := by
  unfold State.writeDie
  extract_lets +onlyGivenNames n
  split
  · exact ite_keeps hs hs
  · exact hs
  · exact eccWrite_memOk hs
  · exact hs
  · exact hs
theorem writeUnit_memOk {s : State} {w v} (hs : s.MemOk) : (s.writeUnit w v).MemOk :=
  ite_keeps hs (ite_keeps (ite_keeps hs hs) (ite_keeps hs (ite_keeps (writeSup_memOk (writeDie_memOk hs)) (ite_keeps
    (modMgmt_memOk (ite_keeps (wakeUp_memOk (writeDie_memOk hs)) (writeDie_memOk hs)) rfl) (writeDie_memOk hs)))))
theorem writeReg_memOk {s : State} {va v} (hs : s.MemOk) : (s.writeReg va v).MemOk :=
  ite_keeps (writeSlot_memOk hs) (writeUnit_memOk hs)

/-! ### The steps of the memory system -/

theorem killEnt_memOk {s : State} {e code va} (hs : s.MemOk) : (s.killEnt e code va).MemOk :=
  ite_keeps (kill_memOk hs) (ite_keeps (killTg_memOk hs) hs)
theorem entFatal_memOk {s : State} {e r} (hs : s.MemOk) : (s.entFatal e r).MemOk := by
  unfold State.entFatal
  split
  · exact killEnt_memOk (misplaced_memOk hs)
  · exact killEnt_memOk hs
  · exact killEnt_memOk hs
theorem applyEnt_memOk {s : State} {at_ e} (hs : s.MemOk) : (s.applyEnt at_ e).MemOk :=
  atomAt_memOk hs
theorem applyAll_memOk {s : State} {xs} (hs : s.MemOk) : (s.applyAll xs).MemOk := by
  unfold State.applyAll
  extract_lets +onlyGivenNames t
  have h : t.MemOk := foldl_keeps hs fun _ _ h => applyEnt_memOk h
  exact ite_keeps h h
theorem regEnt_memOk {s : State} {e} (hs : s.MemOk) : FstOk (s.regEnt e) :=
  fst_keeps (writeReg_memOk hs)
theorem performLine_memOk {s : State} {c g} (hs : s.MemOk) : PerfOk (s.performLine c g) := by
  unfold State.performLine
  split
  · exact done_keeps hs
  · extract_lets +onlyGivenNames a apply clean send
    have h : ∀ (at_ : ℕ) (t : State), t.MemOk → (apply at_ t).MemOk := fun _ _ h => applyAll_memOk h
    have h1 : ∀ (p : Perf), PerfOk p → PerfOk (clean p) := by
      intro p h
      unfold clean
      split
      · exact perf_tainted_keeps
      · exact h
    have h2 : ∀ (host : Bool) (at_ : ℕ) (peer : Option ℕ) (unit : ℕ) (t : State), t.MemOk →
      (send host at_ peer unit t).MemOk :=
      fun _ _ _ _ _ h2 => foldl_keeps h2 fun _ _ h3 => h3
    clear_value a
    refine ite_keeps ?_ ?_
    · exact h1 _ (ite_keeps (ite_keeps perf_wait_keeps (done_keeps (foldl_keeps hs fun _ _ h3 =>
        regEnt_memOk h3))) (ite_keeps (done_keeps (h _ _ hs)) (done_keeps (h2 _ _ _ _ _ hs))))
    · split
      · exact perf_replay_keeps
      · exact perf_wait_keeps
      · extract_lets +onlyGivenNames home
        clear_value home
        refine h1 _ ?_
        refine ite_keeps perf_wait_keeps ?_
        refine ite_keeps (done_keeps (h _ _ hs)) ?_
        refine ite_keeps ?_ (done_keeps (h2 _ _ _ _ _ hs))
        refine ite_keeps (done_keeps (h _ _ (countWrite_memOk hs))) ?_
        extract_lets +onlyGivenNames id
        clear_value id
        split
        rename_i t _ e
        have h3 : t.MemOk := fst_of_eq e (sendCollapses_memOk (h _ _ (countWrite_memOk hs)))
        exact done_keeps h3
      · exact h1 _ (done_keeps (h2 _ _ _ _ _ hs))
      · exact ite_keeps perf_fatal_keeps (h1 _ (done_keeps (h2 _ _ _ _ _ hs)))
      · exact perf_fatal_keeps
theorem stopLog_memOk {s : State} {c e} (hs : s.MemOk) : (s.stopLog c e).MemOk := by
  unfold State.stopLog
  split
  · exact hs
  · rename_i t e1
    have h : t.MemOk := some_of_eq e1 (addFault_memOk hs)
    exact h
theorem performHead_memOk {s : State} {c} (hs : s.MemOk) : (s.performHead c).MemOk := by
  unfold State.performHead
  extract_lets +onlyGivenNames g
  clear_value g
  split
  · exact hs
  · rename_i t _ e
    have h : t.MemOk := done_of_eq e (performLine_memOk hs)
    exact h
  · exact hs
  · exact stopLog_memOk hs
  · exact entFatal_memOk hs
  · exact killEnt_memOk hs
theorem execStoreBufferDrain_memOk {c} {s : State} (hs : s.MemOk) : OutOk (execStoreBufferDrain c s) := by
  unfold execStoreBufferDrain
  refine next_keeps ?_
  split
  · exact ite_keeps (performHead_memOk hs) hs
  · exact hs
theorem execSideLogPerform_memOk {c} {s : State} (hs : s.MemOk) : OutOk (execSideLogPerform c s) := by
  unfold execSideLogPerform
  refine next_keeps ?_
  split
  · exact ite_keeps (performHead_memOk hs) hs
  · exact hs
theorem replayLog_memOk {s : State} {c} (hs : s.MemOk) : FstOk (s.replayLog c) := by
  unfold State.replayLog
  extract_lets +onlyGivenNames k
  refine ite_keeps (fst_keeps hs) ?_
  extract_lets +onlyGivenNames s1
  have h : s1.MemOk := by
    unfold s1
    refine ite_keeps ?_ hs
    split
    · exact hs
    · exact killEnt_memOk hs
  split
  · exact fst_keeps h
  · extract_lets +onlyGivenNames unmapped
    refine ite_keeps (fst_keeps h) ?_
    split
    · exact fst_keeps h
    · rename_i t e
      have h1 : t.MemOk := some_of_eq e (addFault_memOk h)
      exact fst_keeps h1
theorem applyOne_memOk {s : State} {r} (hs : s.MemOk) : FstOk (s.applyOne r) :=
  ite_keeps (fst_keeps (writeReg_memOk hs)) (atomAt_memOk hs)
theorem applyWr_memOk {s : State} {w} (hs : s.MemOk) : (s.applyWr w).MemOk := by
  unfold State.applyWr
  extract_lets +onlyGivenNames g ids va home
  split
  rename_i t _ e
  have h : t.MemOk := fst_of_eq e (ite_keeps (P := FstOk) (sendCollapses_memOk (countWrite_memOk hs)) (fst_keeps hs))
  extract_lets +onlyGivenNames before
  split
  rename_i t1 _ e1
  have h1 : t1.MemOk := fst_of_eq e1 (foldl_keeps (P := FstOk) (fst_keeps h) fun _ _ h => fst_keeps (applyOne_memOk h))
  extract_lets +onlyGivenNames s2
  have h2 : s2.MemOk := ite_keeps h1 h1
  exact h2
theorem arrive_memOk {s : State} {id atom} (hs : s.MemOk) : (s.arrive id atom).MemOk := by
  unfold State.arrive
  split
  · exact hs
  · exact ite_keeps hs (applyWr_memOk hs)
theorem execCollapse_memOk {id} {s : State} (hs : s.MemOk) : OutOk (execCollapse id s) := by
  unfold execCollapse
  refine next_keeps ?_
  split
  · exact hs
  · exact ite_keeps hs (wakeWatches_memOk hs)
theorem execCollapseAck_memOk {id} {s : State} (hs : s.MemOk) : OutOk (execCollapseAck id s) := by
  unfold execCollapseAck
  refine next_keeps ?_
  split <;> exact hs
theorem keepReplica_memOk {s : State} {w} (hs : s.MemOk) : (s.keepReplica w).MemOk :=
  ite_keeps hs (ite_keeps hs (ite_keeps hs (ite_keeps hs hs)))
theorem execWriteAck_memOk {id} {s : State} (hs : s.MemOk) : OutOk (execWriteAck id s) := by
  unfold execWriteAck
  refine next_keeps ?_
  split
  · exact hs
  · exact ite_keeps hs (ite_keeps hs (keepReplica_memOk hs))
theorem execWaitvRepoll_memOk {t} {s : State} (hs : s.MemOk) : OutOk (execWaitvRepoll t s) := by
  unfold execWaitvRepoll
  refine next_keeps ?_
  split
  · exact hs
  · split
    · exact ite_keeps (modTg_memOk hs) hs
    · exact hs

/-! ### Messages -/

theorem nack_memOk {s : State} {c reply dest reason asid} (hs : s.MemOk) : (s.nack c reply dest reason asid).MemOk :=
  ite_keeps hs hs
theorem launchMsg_memOk {s : State} {w reply payload} (hs : s.MemOk) : (s.launchMsg w reply payload).MemOk :=
  ite_keeps (ite_keeps (advance_memOk (nack_memOk hs)) (ite_keeps (trap_memOk hs) hs)) hs
theorem send_memOk {s : State} {a b r} (hs : s.MemOk) : (s.send a b r).MemOk := by
  unfold State.send
  extract_lets +onlyGivenNames w
  split
  · exact ite_keeps (trap_memOk hs) hs
  · exact hs
  · extract_lets +onlyGivenNames off
    refine ite_keeps (poisonPc_memOk hs) ?_
    refine ite_keeps (trap_memOk hs) ?_
    refine ite_keeps (trap_memOk hs) ?_
    refine ite_keeps (trap_memOk hs) ?_
    split
    · exact hs
    · exact ite_keeps (poisonPc_memOk hs) (afterFence_memOk hs fun _ h => launchMsg_memOk h)
theorem takeMsg_memOk {s : State} {d off m} (hs : s.MemOk) : (s.takeMsg d off m).MemOk :=
  ite_keeps hs hs
theorem recv_memOk {s : State} {d a b} (hs : s.MemOk) : (s.recv d a b).MemOk := by
  unfold State.recv
  refine ite_keeps (poisonPc_memOk hs) ?_
  extract_lets +onlyGivenNames off mask
  refine ite_keeps (trap_memOk hs) ?_
  refine ite_keeps (trap_memOk hs) ?_
  refine ite_keeps hs ?_
  refine ite_keeps hs ?_
  split
  · exact takeMsg_memOk hs
  · exact ite_keeps hs hs
theorem accept_memOk {s : State} {m} (hs : s.MemOk) : FstOk (s.accept m) :=
  ite_keeps (fst_keeps hs) (ite_keeps (fst_keeps (modCore_memOk (supWrite_memOk hs))) (fst_keeps hs))
theorem execMessageDelivery_memOk {id} {s : State} (hs : s.MemOk) : OutOk (execMessageDelivery id s) := by
  unfold execMessageDelivery
  refine next_keeps ?_
  split
  · exact hs
  · split
    rename_i t _ e
    have h : t.MemOk := fst_of_eq e (accept_memOk hs)
    exact ite_keeps h (ite_keeps h h)
theorem execMessageAnswer_memOk {id} {s : State} (hs : s.MemOk) : OutOk (execMessageAnswer id s) := by
  unfold execMessageAnswer
  refine next_keeps ?_
  split
  · exact hs
  · extract_lets +onlyGivenNames s1
    have h : s1.MemOk := hs
    split
    · exact modTg_memOk h
    · exact h
theorem execDequeue_memOk {c} {s : State} (hs : s.MemOk) : OutOk (execDequeue c s) := by
  unfold execDequeue
  refine next_keeps ?_
  extract_lets +onlyGivenNames s1
  have h1 : s1.MemOk := hs
  split
  · exact h1
  · split
    · exact ite_keeps h1 (addTg_memOk (bump_memOk (modCore_memOk h1)))
    · exact modCore_memOk h1
    · exact nack_memOk (modCore_memOk h1)

/-! ### The mailbox of the management core -/

theorem modMb_memOk {s : State} {b f} (hs : s.MemOk) : (s.modMb b f).MemOk := by
  unfold State.modMb
  split <;> exact hs
theorem finish_memOk {s : State} {b status res} (hs : s.MemOk) : (s.finish b status res).MemOk :=
  modMb_memOk hs
theorem beginCmd_memOk {s : State} {b} (hs : s.MemOk) : (s.beginCmd b).MemOk :=
  ite_keeps hs (modMb_memOk hs)
theorem onCmd_memOk {s : State} {b cmd f} (hs : s.MemOk) (hf : ∀ (t : State), t.MemOk → (f t).MemOk) :
    (s.onCmd b cmd f).MemOk :=
  ite_keeps hs (ite_keeps (finish_memOk (beginCmd_memOk hs)) (hf _ (beginCmd_memOk hs)))
theorem withBuf_memOk {s : State} {b a n k} (hs : s.MemOk)
    (hk : ∀ (t : State) (b : List Byte), t.MemOk → (k t b).MemOk) :
    (s.withBuf b a n k).MemOk := by
  unfold State.withBuf
  split
  · exact hk _ _ hs
  · exact finish_memOk hs
theorem reply_memOk {s : State} {b a bs res} (hs : s.MemOk) : (s.reply b a bs res).MemOk := by
  unfold State.reply
  split
  · exact finish_memOk (homeWrite_memOk hs)
  · exact finish_memOk hs
theorem stageImage_memOk {s : State} {b bs} (hs : s.MemOk) : (s.stageImage b bs).MemOk := by
  unfold State.stageImage
  extract_lets +onlyGivenNames kind
  refine ite_keeps (finish_memOk hs) ?_
  split <;> exact finish_memOk hs
theorem execFwstage_memOk {b} {s : State} (hs : s.MemOk) : OutOk (execFwstage b s) := by
  unfold execFwstage
  refine next_keeps ?_
  refine onCmd_memOk hs fun t h => ?_
  split
  · exact withBuf_memOk h fun _ _ h1 => stageImage_memOk h1
  · exact ite_keeps (finish_memOk h) (withBuf_memOk h fun _ _ h1 => ite_keeps (finish_memOk h1) (stageImage_memOk h1))
theorem useToken_memOk {s : State} {b k} (hs : s.MemOk) (hk : ∀ (t : State) (b : List Byte), t.MemOk → (k t b).MemOk) :
    (s.useToken b k).MemOk := by
  unfold State.useToken
  split
  · exact finish_memOk hs
  · exact ite_keeps (finish_memOk hs) (ite_keeps (finish_memOk hs) (hk _ _ hs))
theorem setLevel_memOk {s : State} {b level d} (hs : s.MemOk) : (s.setLevel b level d).MemOk := by
  unfold State.setLevel
  refine modMb_memOk (modMgmt_memOk hs ?_)
  exact extend_images s.mgmt 0x11 0 d
theorem eraseKeys_memOk {s : State} (hs : s.MemOk) : s.eraseKeys.MemOk := by
  refine ⟨hs.1, fun p hp => ?_⟩
  obtain ⟨q, hq, rfl⟩ := List.mem_map.mp hp
  exact hs.2 q hq
theorem eraseArrays_memOk {s : State} (hs : s.MemOk) : s.eraseArrays.MemOk :=
  onSoc_memOk hs (clear_wf _ _ _ hs.1)
theorem eraseHbm_memOk {s : State} (hs : s.MemOk) : s.eraseHbm.MemOk :=
  onSoc_memOk hs (clear_wf _ _ _ hs.1)
theorem unlockHalt_memOk {s : State} {b d erase} (hs : s.MemOk) : (s.unlockHalt b d erase).MemOk := by
  unfold State.unlockHalt
  split
  · rename_i t e
    exact fst_of_eq e (tearAll_memOk hs)
  · rename_i t e
    have h : t.MemOk := fst_of_eq e (tearAll_memOk hs)
    exact setLevel_memOk (ite_keeps (eraseHbm_memOk (eraseArrays_memOk (eraseKeys_memOk h))) (eraseArrays_memOk
      (eraseKeys_memOk h)))
theorem execUnlock_memOk {b} {s : State} (hs : s.MemOk) : OutOk (execUnlock b s) := by
  refine next_keeps (onCmd_memOk hs fun s hs => ?_)
  split
  · exact unlockHalt_memOk hs
  · refine ite_keeps (finish_memOk hs) (ite_keeps ?_ (ite_keeps (finish_memOk hs) ?_))
    · refine useToken_memOk hs fun s t hs => ?_
      exact ite_keeps (finish_memOk hs) (ite_keeps (finish_memOk hs) (ite_keeps (setLevel_memOk hs)
        (unlockHalt_memOk hs)))
    · exact ite_keeps (finish_memOk hs) (setLevel_memOk hs)
theorem stopDevice_memOk {s : State} (hs : s.MemOk) : s.stopDevice.MemOk := hs
theorem images_lifecycle (m : Mgmt) (l k) : ({ m with lifecycle := l, fuseSecret := k } : Mgmt).images = m.images := rfl
theorem setLifecycle_memOk {s : State} {kind svn d l} {k : Mgmt → BitVec 256} (hs : s.MemOk) :
    (s.modMgmt fun m => { (m.extend kind svn d) with lifecycle := l, fuseSecret := k m }).stopDevice.MemOk :=
  stopDevice_memOk (modMgmt_memOk hs ((images_lifecycle ..).trans (extend_images s.mgmt kind svn d)))
theorem execLifecycle_memOk {b} {s : State} (hs : s.MemOk) : OutOk (execLifecycle b s) := by
  refine next_keeps (onCmd_memOk hs fun s hs => useToken_memOk hs fun s t hs => ?_)
  extract_lets +onlyGivenNames to_
  refine ite_keeps (finish_memOk hs) ?_
  extract_lets +onlyGivenNames s1
  have h1 : s1.MemOk := by
    refine ite_keeps ⟨clear_wf _ _ _ (eraseHbm_memOk (eraseKeys_memOk hs)).1, ?_⟩ hs
    intro p hp
    cases hp
  exact setLifecycle_memOk h1
theorem whenQuiet_memOk {s : State} {b idle act} (hs : s.MemOk) (hact : ∀ (t : State), t.MemOk → (act t).MemOk) :
    (s.whenQuiet b idle act).MemOk :=
  ite_keeps (finish_memOk hs) (ite_keeps (hact _ hs) (ite_keeps hs (finish_memOk hs)))
theorem withKey_images (m : Mgmt) (a : Half) : (m.withKey a).images = m.images := by
  unfold Mgmt.withKey
  split <;> rfl
theorem foldl_withKey_images (l : List Half) (m : Mgmt) : (l.foldl Mgmt.withKey m).images = m.images :=
  foldl_keeps (P := fun n : Mgmt => n.images = m.images) rfl fun n a h => (withKey_images n a).trans h
theorem writeImage_memOk {s : State} {i} (hs : s.MemOk) : (s.writeImage i).MemOk := by
  unfold State.writeImage
  extract_lets +onlyGivenNames us own
  exact setImage_memOk hs (crypt_wf _ _ _ _ hs.1) (congrArg (kset i _) (foldl_withKey_images _ _))
theorem powerGone_memOk {s : State} {hbm} (hs : s.MemOk) : (s.powerGone hbm).MemOk := by
  unfold State.powerGone
  extract_lets +onlyGivenNames kept kept1
  have h : Memory.wf kept.mem = true := clear_wf _ _ _ (clear_wf _ _ _ hs.1)
  have h1 : Memory.wf kept1.mem = true := ite_keeps (P := fun c : Soc => Memory.wf c.mem = true) (clear_wf _ _ _ h) h
  exact ⟨h1, hs.2⟩
theorem execPower_memOk {b idle} {s : State} (hs : s.MemOk) : OutOk (execPower b idle s) := by
  unfold execPower
  refine next_keeps ?_
  refine onCmd_memOk hs fun t h => ?_
  extract_lets +onlyGivenNames t1
  refine ite_keeps (finish_memOk h) ?_
  refine ite_keeps (finish_memOk h) ?_
  refine ite_keeps (finish_memOk h) ?_
  refine ite_keeps ?_ (whenQuiet_memOk h fun _ h1 => finish_memOk h1)
  split
  · rename_i e
    exact fst_of_eq e (tearAll_memOk h)
  · rename_i t2 e
    have h1 : t2.MemOk := fst_of_eq e (tearAll_memOk h)
    exact powerGone_memOk (ite_keeps (writeImage_memOk h1) h1)
theorem onDevice_memOk {s : State} {b k} (hs : s.MemOk) (hk : ∀ (t : State), t.MemOk → (k t).MemOk) :
    (s.onDevice b k).MemOk :=
  ite_keeps (hk _ hs) (ite_keeps (finish_memOk hs) (finish_memOk hs))
theorem execCheckpoint_memOk {b idle} {s : State} (hs : s.MemOk) : OutOk (execCheckpoint b idle s) :=
  next_keeps (onCmd_memOk hs fun _ h => ite_keeps (finish_memOk h) (onDevice_memOk h fun _ h1 =>
    whenQuiet_memOk h1 fun _ h2 => finish_memOk (writeImage_memOk h2)))
theorem loadImage_keeps {s : State} {img} (hs : s.MemOk)
    (hi : Memory.wf img.soc.mem = true) : (s.loadImage_ img).MemOk :=
  ⟨loadImage_wf s img hs.1 hi, hs.2⟩
theorem execRestore_memOk {b} {s : State} (hs : s.MemOk) : OutOk (execRestore b s) := by
  refine next_keeps (onCmd_memOk hs fun s hs => ite_keeps (finish_memOk hs) (onDevice_memOk hs fun s hs => ?_))
  split
  · exact finish_memOk hs
  · rename_i img hi
    refine ite_keeps (finish_memOk hs) (ite_keeps (finish_memOk hs) ?_)
    split
    · rename_i t e
      exact fst_of_eq e (tearAll_memOk hs)
    · rename_i t e
      exact finish_memOk (loadImage_keeps (fst_of_eq e (tearAll_memOk hs)) (hs.2 _ (mem_of_kfind hi)))
theorem declareLost_memOk {s : State} {dev} (hs : s.MemOk) : (s.declareLost dev).MemOk :=
  foldl_keeps hs fun _ _ h => ite_keeps (refused_memOk h) h
theorem execMailboxComplete_memOk {b} {s : State} (hs : s.MemOk) : OutOk (execMailboxComplete b s) := by
  unfold execMailboxComplete
  refine next_keeps ?_
  extract_lets +onlyGivenNames m done
  have h : ∀ (t : State), t.MemOk → (done t).MemOk := fun _ h => h
  refine ite_keeps hs ?_
  split
  · exact h _ (modMb_memOk hs)
  · exact ite_keeps (h _ (modMb_memOk hs)) hs

/-! ### System registers and traps -/

theorem readEvq_memOk {s : State} (hs : s.MemOk) : FstOk s.readEvq := by
  unfold State.readEvq
  split
  · exact fst_keeps hs
  · exact fst_keeps (reportLost_memOk hs)
theorem execSrd_memOk {g d n} {s : State} (hs : s.MemOk) : OutOk (execSrd g d n s) :=
  next_keeps (ite_keeps (illegal4_memOk hs) (ite_keeps (trap_memOk hs) (withK_memOk hs fun _ h =>
    ite_keeps (advance_memOk (setS_memOk (readEvq_memOk h))) h)))
theorem sysWrite_memOk {s : State} {n v p} (hs : s.MemOk) : (s.sysWrite n v p).MemOk := by
  unfold State.sysWrite
  split
  · exact hs
  · exact hs
  · exact hs
  · exact hs
  · exact hs
  · exact hs
  · exact hs
  · exact hs
  · exact hamperWrite_memOk hs
  · exact hs
  · exact hs
  · exact hs
  · exact hs
theorem execSwr_memOk {g a n} {s : State} (hs : s.MemOk) : OutOk (execSwr g a n s) := by
  unfold execSwr
  extract_lets +onlyGivenNames word
  refine next_keeps ?_
  refine ite_keeps (illegal4_memOk hs) ?_
  refine ite_keeps (trap_memOk hs) ?_
  refine ite_keeps (illegal4_memOk hs) ?_
  refine withK_memOk hs fun t h => ?_
  extract_lets +onlyGivenNames v p
  refine ite_keeps (poisonPc_memOk h) ?_
  split
  · exact ite_keeps (illegal4_memOk h) (trap_memOk h)
  · exact advance_memOk (sysWrite_memOk h)
theorem execSwrDeep_memOk {g a n} {s : State} (hs : s.MemOk) : OutOk (execSwrDeep g a n s) := by
  unfold execSwrDeep
  refine next_keeps ?_
  refine ite_keeps (trap_memOk hs) ?_
  refine withK_memOk hs fun t h => ?_
  refine ite_keeps (poisonPc_memOk h) ?_
  extract_lets +onlyGivenNames va
  split
  · exact trap_memOk h
  · split
    · rename_i t1 e
      have h1 : t1.MemOk := fst_of_eq e (storeAll_memOk h)
      exact h1
    · rename_i t1 e
      have h1 : t1.MemOk := fst_of_eq e (storeAll_memOk h)
      exact h1
theorem execReplay_memOk {g a} {s : State} (hs : s.MemOk) : OutOk (execReplay g a s) := by
  unfold execReplay
  refine next_keeps ?_
  refine ite_keeps (trap_memOk hs) ?_
  refine withK_memOk hs fun t h => ?_
  refine ite_keeps (poisonPc_memOk h) ?_
  split
  · exact trap_memOk h
  · split
    rename_i t1 _ e
    have h1 : t1.MemOk := fst_of_eq e (replayLog_memOk h)
    exact ite_keeps h1 (ite_keeps h1 h1)

/-! ### Host accesses, boot, power and the JTAG port -/

theorem pageWrite_memOk {s : State} {off bs} (hs : s.MemOk) : (s.pageWrite off bs).MemOk :=
  ite_keeps hs (ite_keeps (ite_keeps (modMgmt_memOk hs rfl) hs) (ite_keeps hs (onSoc_memOk hs (put_wf _ _ _ _ hs.1))))
theorem bootQuarantine_memOk {s : State} (hs : s.MemOk) : s.bootQuarantine.MemOk := by
  unfold State.bootQuarantine
  refine foldl_keeps hs fun t x h => ?_
  split
  · exact h
  · split <;> exact h
theorem bootSpare_memOk {s : State} (hs : s.MemOk) : s.bootSpare.MemOk :=
  foldl_keeps hs fun _ _ h => h
theorem bootDie_memOk {table} {s : State} {d} (hs : s.MemOk) : (State.bootDie table s d).MemOk := by
  unfold State.bootDie
  extract_lets +onlyGivenNames c
  split <;> exact addTg_memOk hs
theorem images_boot (m : Mgmt) (b r) : ({ m with activeBank := b, running := r } : Mgmt).images = m.images := rfl
theorem bootImage_images (m : Mgmt) (k : Nat) : (m.bootImage k).images = m.images := by
  unfold Mgmt.bootImage
  split
  · rfl
  · split
    · rfl
    · rename_i n bs _
      exact (images_boot ..).trans (extend_images m k (fieldAt bs 8 4) (sha256 (imgSigned bs)))
theorem bootList_images (m : Mgmt) (c : Nat) : (m.bootList c).images = m.images := by
  unfold Mgmt.bootList
  split
  · rfl
  · split
    · rename_i l _
      split
      · exact extend_images m 4 0 l.digest
      · exact extend_images m 4 0 0
    · exact extend_images m _ _ _
theorem mgmtBoot_images (m : Mgmt) : m.boot.images = m.images := by
  unfold Mgmt.boot
  extract_lets +onlyGivenNames flip m1 m2 m3
  have h2 : m2.images = m.images :=
    foldl_keeps (P := fun n : Mgmt => n.images = m.images) rfl fun n a h => (bootImage_images n a).trans h
  have h3 : m3.images = m.images :=
    foldl_keeps (P := fun n : Mgmt => n.images = m.images) h2 fun n a h => (bootList_images n a).trans h
  split
  · exact h3
  · exact (extend_images m3 ..).trans h3
theorem start_memOk {s : State} {mode part table} (hs : s.MemOk) : (s.start mode part table).MemOk := by
  unfold State.start
  extract_lets +onlyGivenNames o m kept x y s1 s2
  have h1 : s1.MemOk := ⟨clear_wf _ _ _ (clear_wf _ _ _ hs.1), hs.2⟩
  have h2 : s2.MemOk := bootSpare_memOk (bootQuarantine_memOk h1)
  exact ite_keeps h1 (ite_keeps h2 (foldl_keeps h2 fun _ _ h => bootDie_memOk h))
theorem boot_memOk {s : State} {table} (hs : s.MemOk) : (s.boot table).MemOk :=
  start_memOk ⟨hs.1, (mgmtBoot_images s.mgmt).symm ▸ hs.2⟩
theorem createFirst_memOk {s : State} {n part devid} (hs : s.MemOk) : (s.createFirst n part devid).MemOk := by
  unfold State.createFirst
  extract_lets +onlyGivenNames mode idle
  refine ite_keeps hs ?_
  extract_lets +onlyGivenNames s1
  have h : s1.MemOk := ite_keeps hs (start_memOk hs)
  exact h
theorem hostAcc_memOk {s : State} {a} (hs : s.MemOk) : (s.hostAcc a).MemOk := by
  unfold State.hostAcc
  extract_lets +onlyGivenNames s1
  have h : s1.MemOk := ite_keeps hs (wakeUp_memOk hs)
  split
  · split
    · rename_i e
      exact some_of_eq e (ite_keeps (hostNow_memOk h) none_keeps)
    · exact h
  · split
    · rename_i e
      exact some_of_eq e (ite_keeps (hostNow_memOk h) none_keeps)
    · exact h
  · exact createFirst_memOk h
  · exact h
  · exact pageWrite_memOk h
  · exact h
  · exact ite_keeps (kickQueue_memOk h) h
theorem execHostAccess_memOk {a} {s : State} (hs : s.MemOk) : OutOk (execHostAccess a s) := by
  unfold execHostAccess
  refine next_keeps ?_
  split
  · exact ite_keeps hs (hostAcc_memOk hs)
  · exact ite_keeps hs (hostAcc_memOk hs)
  · exact ite_keeps hs (hostAcc_memOk hs)
  · exact hostAcc_memOk hs
theorem invasive_memOk {s : State} {f} (hs : s.MemOk) (hf : ∀ (t : State), t.MemOk → (f t).MemOk) :
    (s.invasive f).MemOk :=
  ite_keeps (hf _ hs) hs
theorem moveTo_memOk {s : State} {t pc} (hs : s.MemOk) : (s.moveTo t pc).MemOk := by
  unfold State.moveTo
  split
  · exact hs
  · extract_lets +onlyGivenNames leave s1
    have h : s1.MemOk := by
      unfold s1
      split
      · extract_lets +onlyGivenNames s2
        have h : s2.MemOk := ite_keeps (focus_memOk (leaveWait_memOk (focus_memOk hs))) hs
        exact modTg_memOk h
      · exact hs
    exact modTg_memOk h
theorem traceTo_memOk {s : State} {a n} (hs : s.MemOk) : (s.traceTo a n).MemOk :=
  ite_keeps hs (ite_keeps hs (ite_keeps hs hs))
theorem jtag_memOk {s : State} {a} (hs : s.MemOk) : (s.jtag a).MemOk := by
  unfold State.jtag
  extract_lets +onlyGivenNames read write
  have h : ∀ (t : TgRef) (f : TG → List Byte), (read t f).MemOk := by
    intro t f
    unfold read
    split <;> exact hs
  have h1 : ∀ (t : TgRef) (f : TG → TG), (write t f).MemOk := fun _ _ => ite_keeps (modTg_memOk hs) hs
  split
  · exact h _ _
  · exact h1 _ _
  · exact h _ _
  · exact h1 _ _
  · exact h _ _
  · exact moveTo_memOk hs
  · exact h _ _
  · exact h1 _ _
  · exact h _ _
  · exact h1 _ _
  · exact h _ _
  · exact h1 _ _
  · exact h _ _
  · exact dropRings_memOk (h1 _ _)
  · exact h _ _
  · exact h1 _ _
  · exact h _ _
  · exact h1 _ _
  · exact h _ _
  · exact h1 _ _
  · exact h _ _
  · exact h1 _ _
  · exact h _ _
  · exact h1 _ _
  · exact ite_keeps hs hs
  · exact ite_keeps (focus_memOk (sysWrite_memOk (focus_memOk hs))) hs
  · exact ite_keeps hs hs
  · exact ite_keeps (ite_keeps hs hs) (ite_keeps hs (ite_keeps (writeReg_memOk hs) (homeWrite_memOk hs)))
  · exact traceTo_memOk hs
  · exact hs
theorem execJtagAccess_memOk {a} {s : State} (hs : s.MemOk) : OutOk (execJtagAccess a s) := by
  unfold execJtagAccess
  refine next_keeps ?_
  split
  · exact traceTo_memOk hs
  · exact invasive_memOk hs fun _ h => jtag_memOk h

/-! ### Branches and calls -/

theorem branch_memOk {s : State} {c cn o setLink} (hs : s.MemOk) : (s.branch c cn o setLink).MemOk :=
  ite_keeps (poisonPc_memOk hs) (ite_keeps hs (ite_keeps (trap_memOk hs) (jump_memOk (ite_keeps hs hs))))
theorem transfer_memOk {s : State} {a setLink} (hs : s.MemOk) : (s.transfer a setLink).MemOk := by
  unfold State.transfer
  extract_lets +onlyGivenNames t
  refine ite_keeps (poisonPc_memOk hs) ?_
  split
  · exact trap_memOk hs
  · exact jump_memOk (ite_keeps hs hs)

/-! ### Values between the uniform and the lane file -/

theorem execVfirst_memOk {g d a} {s : State} (hs : s.MemOk) : OutOk (execVfirst g d a s) := by
  unfold execVfirst
  refine next_keeps ?_
  refine withP_memOk hs fun t h => ?_
  refine advance_memOk ?_
  split <;> exact h
theorem treeRed_memOk {s : State} {g d a op empty} (hs : s.MemOk) : (s.treeRed g d a op empty).MemOk :=
  withP_memOk hs fun _ h => h

/-! ### Every instruction and agent step -/

/-- Every instruction and every agent step keeps storage in canonical form (R3, R22, R384). -/
theorem exec_memOk {i : Instr} {s : State} (hs : s.MemOk) : OutOk (exec i s) := by
  cases i with
  | sadd | ssub | smul | smulh | smulhu | sdiv | sdivu | srem | sand | sor | sxor | sshl | sshr | ssar | smin
  | smax | cSadd => exact next_keeps (uni2_memOk hs)
  | smovk => exact next_keeps (withK_memOk hs fun _ h => withKop_memOk h fun _ _ => h)
  | saddk | sandk | sshlk => exact next_keeps (uniK_memOk hs)
  | smov | snot | sneg | sabs | sclz | spopc | ssx32 | szx32 | sbrev | cSmov | cSaddi =>
    exact next_keeps (uni1_memOk hs)
  | scmpeq | scmpne | scmplt | scmple | scmpltu | scmpleu => exact next_keeps (cmp2_memOk hs)
  | kand | kor | kxor | kandn => exact next_keeps (kop2_memOk hs)
  | vadd | vsub | vmul | vmulh | vmulhu | vand | vor | vxor | vshl | vshr | vsar | vmin | vmax | vminu | vmaxu
  | vfadd | vfsub | vfmul | vfmin | vfmax | vfdiv | vfcpys | vhaddf | vhmulf | vhminf | vhmaxf | vhaddb
  | vhmulb | vhminb | vhmaxb | vcvtfh | vcvtfb | vunpk8 | cVmov | cVadd | cVfadd | cVfmul =>
    exact next_keeps (vec2_memOk hs)
  | vmad | vfma | vfms | vfnma | vhfmaf | vhfmab | vdot2f | vdot2b | vdot4i | vpack8 | cVfma =>
    exact next_keeps (vec3_memOk hs)
  | vmovk => exact next_keeps (withP_memOk hs fun _ h => withKop_memOk h fun _ _ => h)
  | vaddk | vandk | vshlk => exact next_keeps (vecK_memOk hs)
  | vfabs | vfneg | vfsqrt | vfrsq | vfrcp | vfexp2 | vflog2 | vffloor | vfceil | vfrint | vftrunc | vfclass
  | vftanh | vcvtfi | vcvtif | vcvtfu | vcvtuf => exact next_keeps (vec1_memOk hs)
  | vcvthf | vcvtbf => exact next_keeps (unpackPair_memOk hs)
  | vqnt | vdqnt | vdgen => exact next_keeps (withQ_memOk hs fun _ _ _ _ h => h)
  | vqcfg => exact execVqcfg_memOk hs
  | vcmpeq | vcmpne | vcmplt | vcmple | vcmpltu | vcmpleu | vfcmpeq | vfcmplt | vfcmple | vfcmpun =>
    exact next_keeps (vcmp_memOk hs)
  | pand | por | pxor | pandn => exact next_keeps (pop2_memOk hs)
  | vbcst | vballot | pfroms | panyk | pallk | vshfl | vredai => exact next_keeps (withP_memOk hs fun _ h => h)
  | vrdln | vwrln | xsave | cNop | replicaEvict | pendClear | phyCalibration => exact next_keeps hs
  | vfirst => exact execVfirst_memOk hs
  | xset | xrest => exact next_keeps (ite_keeps (poisonPc_memOk hs) hs)
  | vredaf | vredmx => exact next_keeps (treeRed_memOk hs)
  | vxacc =>
    exact next_keeps (withP_memOk hs fun _ h => ite_keeps (trap_memOk h) (advance_memOk (foldl_keeps h fun _ _ h1 => h1)))
  | vldw | vldh | vldb | vldsw | vldc => exact next_keeps (vload_memOk hs fun _ _ h => h)
  | vldd => exact next_keeps (vload_memOk hs fun _ _ h => putN_memOk h)
  | vldq | vldsc => exact next_keeps (qload_memOk hs)
  | vstw | vsth | vstb | vstd | vstsw | vstc => exact next_keeps (vstore_memOk hs)
  | vstq | vstsc => exact next_keeps (qstore_memOk hs)
  | sld | slds => exact next_keeps (withK_memOk hs fun _ h => uload_memOk h)
  | sst | ssts => exact next_keeps (withK_memOk hs fun _ h => ustore_memOk h)
  | vatadd | vatmin | vatmax | vatand | vator | vatxor | vatxch | vfatadd => exact next_keeps (vatom32_memOk hs)
  | vatcas => exact next_keeps (vatom_memOk hs fun _ _ h => h)
  | satadd | satcas | satxch => exact next_keeps (uatom_memOk hs)
  | vxadd => exact next_keeps (vatom_memOk hs fun _ _ h => putN_memOk h)
  | br | call => exact next_keeps (branch_memOk hs)
  | jmpr | callr | ret => exact next_keeps (withK_memOk hs fun _ h => transfer_memOk h)
  | nop | tokrd | gstat | self | pchk => exact next_keeps (withK_memOk hs fun _ h => h)
  | waitk => exact next_keeps (ite_keeps (trap_memOk hs) (withK_memOk hs fun _ h => waitFor_memOk h fun _ h1 => h1))
  | brk => exact next_keeps (withK_memOk hs fun _ h => ite_keeps (haltMe_memOk h) (trap_memOk h))
  | fence | fenceacq | fencerel => exact next_keeps (withK_memOk hs fun _ h => afterFence_memOk h fun _ h1 => h1)
  | bar => exact next_keeps (withK_memOk hs fun _ h => bar_memOk h)
  | waitv => exact next_keeps (withK_memOk hs fun _ h => waitv_memOk h)
  | descinv =>
    exact next_keeps (withK_memOk hs fun _ h => ite_keeps (poisonPc_memOk h) (afterFence_memOk h fun _ h1 => h1))
  | descinvDeep => exact next_keeps (withK_memOk hs fun _ h => afterFence_memOk h fun _ h2 => h2)
  | logwait => exact next_keeps (withK_memOk hs fun _ h => waitFor_memOk h fun _ h2 => h2)
  | sldacq => exact execSldacq_memOk hs
  | sstrel =>
    exact next_keeps (withK_memOk hs fun _ h => withChecks_memOk h fun _ h1 => afterFence_memOk h1 fun _ h2 => ustore_memOk h2)
  | mcfg => exact execMcfg_memOk hs
  | mzero =>
    exact next_keeps (withK_memOk hs fun _ h => withTiles_memOk h fun _ h1 => issueOp_memOk h1 fun _ h3 => claimTiles_memOk h3)
  | mma => exact execMma_memOk hs
  | mmas => exact execMmas_memOk hs
  | mdrain => exact execMdrain_memOk hs
  | mstat => exact execMstat_memOk hs
  | msave => exact execMsave_memOk hs
  | mload => exact execMload_memOk hs
  | rdef => exact next_keeps (withK_memOk hs fun _ h => rdef_memOk h)
  | rwfull | rwfree => exact next_keeps (withK_memOk hs fun _ h => ringWait_memOk h)
  | radvp =>
    exact next_keeps (withK_memOk hs fun _ h => withCount_memOk h fun _ _ h1 => ite_keeps h1 (afterFence_memOk h1 fun _ h2 => h2))
  | radvc => exact next_keeps (withK_memOk hs fun _ h => ringAdvance_memOk h)
  | rslot | rslotc => exact next_keeps (withK_memOk hs fun _ h => ringSlot_memOk h)
  | rundef => exact next_keeps (withK_memOk hs fun _ h => withRing_memOk h fun _ _ h1 => ite_keeps h1 h1)
  | cpy | cpyt | cpyrd => exact next_keeps (withK_memOk hs fun _ h => cpy_memOk h)
  | cpyr => exact next_keeps (withK_memOk hs fun _ h => cpyr_memOk h)
  | waitt => exact next_keeps (withK_memOk hs fun _ h => waitTokens_memOk h)
  | cqpush => exact next_keeps (withK_memOk hs fun _ h => cqpush_memOk h)
  | cqkick => exact next_keeps (withK_memOk hs fun _ h => cqkick_memOk h)
  | gstart => exact next_keeps (withK_memOk hs fun _ h => gstart_memOk h)
  | gstop => exact next_keeps (withK_memOk hs fun _ h => advance_memOk (gstop_memOk h))
  | spawn => exact next_keeps (withK_memOk hs fun _ h => spawn_memOk h)
  | touch => exact next_keeps (withK_memOk hs fun _ h => touchWith_memOk h fun _ _ h1 => touched_memOk h1)
  | touchc => exact next_keeps (withK_memOk hs fun _ h => touchWith_memOk h fun _ _ h1 => touchedC_memOk h1)
  | poll | resolve | ffault | cancel => exact next_keeps (withK_memOk hs fun _ h => stateAct_memOk h)
  | fnew => exact next_keeps (withK_memOk hs fun _ h => fnew_memOk h)
  | cancelDeep => exact execCancelDeep_memOk hs
  | release => exact execRelease_memOk hs
  | scopeo =>
    exact next_keeps (withK_memOk hs fun _ h => ite_keeps (poisonPc_memOk h) (advance_memOk (setS_memOk (scopeOpen_memOk h))))
  | scopec => exact execScopec_memOk hs
  | scopew => exact next_keeps (withK_memOk hs fun _ h => scopew_memOk h)
  | retire => exact next_keeps (withK_memOk hs fun _ h => retire_memOk h)
  | yield => exact next_keeps (withK_memOk hs fun _ h => ite_keeps (poisonPc_memOk h) (ite_keeps h h))
  | prio => exact execPrio_memOk hs
  | send | sendr => exact next_keeps (withK_memOk hs fun _ h => send_memOk h)
  | recv => exact next_keeps (withK_memOk hs fun _ h => recv_memOk h)
  | htwr =>
    exact next_keeps (withK_memOk hs fun _ h => ite_keeps (poisonPc_memOk h) (ite_keeps (illegal4_memOk h) (ite_keeps (trap_memOk h) h)))
  | bqclaim => exact next_keeps (withK_memOk hs fun _ h => bqclaim_memOk h)
  | baddq => exact next_keeps (withK_memOk hs fun _ h => baddq_memOk h)
  | bqdone => exact next_keeps (withK_memOk hs fun _ h => bqdone_memOk h)
  | topkc | topkr => exact next_keeps (withK_memOk hs fun _ h => topk_memOk h)
  | srd => exact execSrd_memOk hs
  | swr => exact execSwr_memOk hs
  | swrDeep => exact execSwrDeep_memOk hs
  | trap => exact next_keeps (withK_memOk hs fun _ h => trap_memOk h)
  | tret => exact next_keeps (withK_memOk hs fun _ h => tret_memOk h)
  | csave => exact next_keeps (ite_keeps (trap_memOk hs) (withK_memOk hs fun _ h => csave_memOk h))
  | crest => exact next_keeps (ite_keeps (trap_memOk hs) (withK_memOk hs fun _ h => crest_memOk h))
  | halt => exact next_keeps (ite_keeps (trap_memOk hs) (withK_memOk hs fun _ h => haltMe_memOk h))
  | replay => exact execReplay_memOk hs
  | cSld => exact next_keeps (uload_memOk hs)
  | cSst => exact next_keeps (ustore_memOk hs)
  | cRet => exact next_keeps (transfer_memOk hs)
  | cTouch => exact next_keeps (touchWith_memOk hs fun _ _ h => touched_memOk h)
  | cWaitt => exact next_keeps (waitTokens_memOk hs)
  | cRadvc => exact next_keeps (ringAdvance_memOk hs)
  | illegalEncoding => exact next_keeps (trap_memOk hs)
  | reservationMade => exact execReservationMade_memOk hs
  | footprintCopyLanded => exact execFootprintCopyLanded_memOk hs
  | dispatch => exact execDispatch_memOk hs
  | steal => exact execSteal_memOk hs
  | candidateAgeExpiry => exact execCandidateAgeExpiry_memOk hs
  | priorityRaise => exact next_keeps (ite_keeps (raiseNow_memOk hs) hs)
  | wake => exact execWake_memOk hs
  | deadlock => exact execDeadlock_memOk hs
  | preemptSave => exact execPreemptSave_memOk hs
  | forcedSave => exact execForcedSave_memOk hs
  | resume => exact execResume_memOk hs
  | futureRequest => exact execFutureRequest_memOk hs
  | futureReply => exact execFutureReply_memOk hs
  | spill => exact next_keeps (ite_keeps (spillUntil_memOk (spillMisplaced_memOk hs)) hs)
  | refill => exact next_keeps (refillFut_memOk hs)
  | hamper => exact next_keeps (ite_keeps (hamperWrite_memOk hs) hs)
  | hamperMoved => exact execHamperMoved_memOk hs
  | failsp => exact next_keeps (failsp_memOk hs)
  | hamperFull | powerLimit => exact next_keeps (ite_keeps (post_memOk hs) hs)
  | scopeUpdate => exact execScopeUpdate_memOk hs
  | storeBufferDrain => exact execStoreBufferDrain_memOk hs
  | remoteRead => exact next_keeps (ite_keeps (noteReads_memOk hs) hs)
  | writeAtHome | atomicAtHome => exact next_keeps (arrive_memOk hs)
  | collapse => exact execCollapse_memOk hs
  | collapseAck => exact execCollapseAck_memOk hs
  | writeAck => exact execWriteAck_memOk hs
  | waitvRepoll => exact execWaitvRepoll_memOk hs
  | replicationWindow => exact next_keeps (ite_keeps hs (windowEnd_memOk hs))
  | sideLogPerform => exact execSideLogPerform_memOk hs
  | matrixOpStart => exact execMatrixOpStart_memOk hs
  | matrixOpComplete => exact execMatrixOpComplete_memOk hs
  | copyComplete => exact execCopyComplete_memOk hs
  | gatherSlotLanded => exact execGatherSlotLanded_memOk hs
  | baddqComplete => exact execBaddqComplete_memOk hs
  | selectComplete => exact execSelectComplete_memOk hs
  | nopPacket | signal | unknownKind => exact next_keeps (servePkt_memOk hs fun _ _ h => setFin_memOk h)
  | copy | copyTranspose | copyRedither | fill => exact next_keeps (servePkt_memOk hs fun _ _ h => startCopy_memOk h)
  | barrier => exact next_keeps (servePkt_memOk hs fun _ _ h => ite_keeps h (setFin_memOk h))
  | launch => exact next_keeps (servePkt_memOk hs fun _ _ h => launch_memOk h)
  | launchComplete => exact execLaunchComplete_memOk hs
  | messageDelivery => exact execMessageDelivery_memOk hs
  | dequeue => exact execDequeue_memOk hs
  | evq => exact next_keeps (ite_keeps (trap_memOk hs) (advance_memOk (setS_memOk (readEvq_memOk hs))))
  | registerWrite => exact next_keeps (ite_keeps (writeReg_memOk hs) hs)
  | doorbell => exact next_keeps (ite_keeps (kickQueue_memOk (wakeUp_memOk hs)) hs)
  | slotMap => exact next_keeps (ite_keeps (attempt_memOk hs fun _ h => slotMap_memOk h) hs)
  | slotDrain => exact next_keeps (ite_keeps (slotDrain_memOk hs) hs)
  | unmap => exact next_keeps (attempt_memOk hs fun _ h => unmapSlot_memOk h)
  | qtear => exact next_keeps (qtear_memOk hs)
  | teardownComplete => exact next_keeps (tearDone_memOk hs)
  | hostAccess => exact execHostAccess_memOk hs
  | invalidation => exact next_keeps (tinvWrite_memOk hs)
  | invalidationComplete | hostSync | coreTest | idcode | bypass | flitReplay => exact next_keeps (ite_keeps hs hs)
  | broadcastInvalidation => exact next_keeps (dropPages_memOk hs)
  | fltrespRetry | fltrespUnmap => exact next_keeps (faultAnswer_memOk hs)
  | swap => exact next_keeps (rtWrite_memOk hs)
  | swapComplete => exact execSwapComplete_memOk hs
  | darning => exact next_keeps (darnWrite_memOk hs)
  | darningComplete => exact execDarningComplete_memOk hs
  | peerAccess => exact next_keeps (peerAcc_memOk (wakeUp_memOk hs))
  | attest =>
    exact next_keeps (onCmd_memOk hs fun _ h => ite_keeps (finish_memOk h) (withBuf_memOk h fun _ _ h2 => reply_memOk h2))
  | readlog | unlockchal | readfaulthist => exact next_keeps (onCmd_memOk hs fun _ h => reply_memOk h)
  | readbadframes | readtelem =>
    exact next_keeps (onCmd_memOk hs fun _ h => ite_keeps (finish_memOk h) (reply_memOk h))
  | unlock => exact execUnlock_memOk hs
  | power => exact execPower_memOk hs
  | fwstage => exact execFwstage_memOk hs
  | lifecycle => exact execLifecycle_memOk hs
  | checkpoint => exact execCheckpoint_memOk hs
  | restore => exact execRestore_memOk hs
  | declarelost =>
    exact next_keeps (onCmd_memOk hs fun _ h => ite_keeps (finish_memOk h) (onDevice_memOk h fun _ h2 => finish_memOk (declareLost_memOk h2)))
  | commitsvn => exact next_keeps (onCmd_memOk hs fun _ h => ite_keeps (finish_memOk h) (finish_memOk h))
  | mailboxComplete => exact execMailboxComplete_memOk hs
  | eccmode => exact next_keeps (ite_keeps (eccWrite_memOk hs) hs)
  | coreTestComplete => exact execCoreTestComplete_memOk hs
  | slicetime => exact next_keeps (sliceArm_memOk hs)
  | sliceSwitch =>
    exact next_keeps (ite_keeps (foldl_keeps (modSup_memOk (tableEvents_memOk (wakeUp_memOk hs))) fun _ _ h => claimSave_memOk h) hs)
  | sliceRestore => exact execSliceRestore_memOk hs
  | patrolScrub => exact next_keeps (ite_keeps (hbmFinding_memOk hs) hs)
  | arraySweep => exact next_keeps (ite_keeps (modDie_memOk (foldl_keeps hs fun _ _ h => arrayFinding_memOk h)) hs)
  | ageingMargin => exact next_keeps (ite_keeps (ite_keeps (postRas_memOk hs) hs) hs)
  | telemetry => exact execTelemetry_memOk hs
  | pipelineError => exact execPipelineError_memOk hs
  | laneFailure => exact execLaneFailure_memOk hs
  | deviceFailure => exact next_keeps (failDevice_memOk hs)
  | boot => exact next_keeps (boot_memOk hs)
  | powerWake => exact next_keeps (wakeUp_memOk hs)
  | jtagHalt | jtagResume | jtagStep => exact next_keeps (invasive_memOk hs fun _ h => modTg_memOk h)
  | jtagAccess => exact execJtagAccess_memOk hs
  | yieldExpiry => exact next_keeps (modTg_memOk hs)
  | messageAnswer => exact execMessageAnswer_memOk hs
  | mangleRequest => exact execMangleRequest_memOk hs
  | peerReply => exact next_keeps (peerReply_memOk (wakeUp_memOk hs))
  | powerLoss => exact next_keeps (powerGone_memOk hs)

/-! ### Fetching an instruction group -/

theorem beginGroup_memOk {s : State} {i len mask} (hs : s.MemOk) : (s.beginGroup i len mask).MemOk := hs
theorem fetchFail_memOk {s : State} {va t} (hs : s.MemOk) : (s.fetchFail va t).MemOk := by
  unfold State.fetchFail
  split
  · exact parkFault_memOk hs
  · exact trFail_memOk hs

/-! ### Turns -/

theorem issueTime_memOk {s : State} (hs : s.MemOk) : s.issueTime.MemOk := hs
theorem runNew_memOk {s : State} (hs : s.MemOk) : OutOk s.runNew := by
  unfold State.runNew
  split
  · exact exec_memOk (beginGroup_memOk hs)
  · exact next_keeps (trap_memOk hs)
  · exact next_keeps (fetchFail_memOk hs)
theorem runMe_memOk {s : State} (hs : s.MemOk) : OutOk s.runMe := by
  unfold State.runMe
  split
  · exact exec_memOk hs
  · exact runNew_memOk hs
theorem issue_memOk {s : State} {t} (hs : s.MemOk) : OutOk (s.issue t) :=
  ite_keeps (runMe_memOk (issueTime_memOk (focus_memOk hs))) (next_keeps hs)
theorem tick_memOk {s : State} {cycles ns} (hs : s.MemOk) : (s.tick cycles ns).MemOk := by
  unfold State.tick
  extract_lets +onlyGivenNames s1 later
  have h : s1.MemOk := ite_keeps (trace_memOk hs) hs
  exact h
theorem unpaced_memOk {o} (ho : OutOk o) : OutOk (unpaced o) := by
  cases o with
  | next s => exact next_keeps (s := { s with pace := none }) (ho s rfl)
  | fault | refused => exact ho
theorem take_memOk {s : State} {t} (hs : s.MemOk) : OutOk (s.take t) := by
  cases t with
  | issue g => exact issue_memOk hs
  | part g n => exact unpaced_memOk (issue_memOk hs)
  | event i => exact ite_keeps (exec_memOk hs) (next_keeps hs)
  | tick c n => exact next_keeps (tick_memOk hs)
theorem nextTurn_memOk {s s' : State} {t} (hs : s.MemOk) (h : s.nextTurn = some (t, s')) : s'.MemOk := by
  unfold State.nextTurn at h
  split at h
  · cases h
    exact hs
  · obtain ⟨_, _, h⟩ := Option.map_eq_some_iff.mp h
    cases h
    exact hs
theorem settleStep_memOk {o} (ho : OutOk o) : OutOk (settleStep o) := by
  cases o with
  | next s => exact next_keeps (afterStep_memOk (ho s rfl))
  | fault | refused => exact ho
theorem run_memOk {s : State} (hs : s.MemOk) : OutOk s.run := by
  unfold State.run
  split
  · exact fault_keeps
  · rename_i e
    exact settleStep_memOk (take_memOk (nextTurn_memOk hs e))

/-! ### The step -/

theorem step_memOk {s : State} (hs : s.MemOk) : OutOk (step s) :=
  run_memOk hs

/-- Settles O60, by the lemma of `exec` in each turn and what every step ends with: no step leaves storage, or the storage of an image,
out of its canonical form. -/
theorem stepKeepsMemory : Obligations.StepKeepsMemory := fun _ t hs h => step_memOk hs t h

end Sys2Proof.Machine
end

section
/-! SUPPORT. O56: the parts of the machine right after reset. Every table is empty, so each part reads as the default that holds its
reset values. -/

namespace Sys2Proof.Machine

open Sys2Proof

@[simp] theorem cluster_reset (c : ClId) : State.reset.cluster c = .zero := rfl
@[simp] theorem core_reset (c : CoreId) : State.reset.core c = .zero := rfl
@[simp] theorem die_reset (d : Nat) : State.reset.die d = .zero := rfl
@[simp] theorem slot_reset (n : Nat) : State.reset.slot n = .zero := rfl
@[simp] theorem sup_reset : State.reset.sup = .zero := rfl
@[simp] theorem ctx_reset (a : Half) : State.reset.ctx a = .zero := rfl
@[simp] theorem scope_reset (a : Half) (n : Nat) :
    State.reset.scope a n = ⟨if n = 0 then .open_ else .free, none, 0, []⟩ := rfl

/-- Settles O56: memory and the lists of the machine are empty, and each unit, whichever it is, holds the default of its table. -/
theorem resetState : Obligations.ResetState := by
  refine ⟨reset_memOk, rfl, rfl, rfl, rfl, rfl, rfl, rfl, rfl, rfl, rfl, rfl, rfl, rfl, rfl,
    fun c => ?cluster, fun c => ?core, fun d => ?die, fun n => ?slot,
    rfl, rfl, rfl, rfl, rfl, rfl, rfl, rfl, rfl, rfl, rfl, rfl, rfl, rfl, fun a => ?context⟩
  case cluster =>
    rw [cluster_reset]
    exact ⟨rfl, rfl, rfl, rfl, rfl, rfl, rfl, fun _ => rfl⟩
  case core =>
    rw [core_reset]
    exact ⟨rfl, rfl, rfl, rfl, rfl, rfl, rfl, rfl⟩
  case die =>
    rw [die_reset]
    exact ⟨rfl, rfl, rfl, rfl, rfl, rfl, rfl, rfl, fun _ => rfl⟩
  case slot =>
    rw [slot_reset, sup_reset]
    exact ⟨rfl, rfl, rfl, rfl, rfl, rfl⟩
  case context =>
    rw [ctx_reset]
    exact ⟨rfl, rfl, rfl, fun n hn => by rw [scope_reset, if_neg hn]⟩

end Sys2Proof.Machine
end

section
/-! SUPPORT. O54: a debugger's write of a uniform register is a write of its word, so that an error found there before counts again
(R419, R426): the thread group's list of counted words changes with the register. -/

namespace Sys2Proof.Machine

open Sys2Proof

theorem find?_updFirst {α : Type} {p : α → Bool} {f : α → α} {l : List α} {x : α} (h : l.find? p = some x) (hf : p (f x) = true) :
    (updFirst p f l).find? p = some (f x) := by
  induction l with
  | nil => cases h
  | cons a l ih =>
    unfold updFirst
    by_cases ha : p a = true
    · rw [List.find?_cons_of_pos ha] at h
      cases h
      rw [if_pos ha, List.find?_cons_of_pos hf]
    · rw [List.find?_cons_of_neg ha] at h
      rw [if_neg ha, List.find?_cons_of_neg ha, ih h]

/-- A thread group out of focus is looked for among the others. -/
theorem tgAt_of_me_ne {s : State} {l : TgRef} (hl : s.me.loc ≠ l) : s.tgAt l = s.tgs.find? (fun g => g.loc == l) := by
  unfold State.tgAt State.allTgs
  split
  · rfl
  · rw [List.find?_cons_of_neg (by simpa using hl)]

/-- A thread group out of focus after a change of it that leaves it in its place. -/
theorem tgAt_modTg {s : State} {x : TG} {f : TG → TG} (hl : s.me.loc ≠ x.loc) (hx : s.tgAt x.loc = some x) (hf : (f x).loc = x.loc) :
    (s.modTg x.loc f).tgAt x.loc = some (f x) := by
  rw [tgAt_of_me_ne hl] at hx
  unfold State.modTg
  rw [if_neg hl, tgAt_of_me_ne (by exact hl)]
  exact find?_updFirst hx (by simp [hf])

/-- A thread group that the debugger has stopped between two groups is halted. -/
theorem halted_of_dbg {s : State} {x : TG} (hx : s.tgAt x.loc = some x) (hd : x.dbg = true) (hc : x.cur = none) :
    s.halted x.loc = some x := by
  simp [State.halted, hx, hd, hc]

/-- What a debugger at HALT leaves of a halted thread group's registers when it writes one (R419): the register holds the value, with its
poison bit, and no error of it is counted any more. -/
theorem tgAt_of_jtag_writeS {s t : State} {x : TG} {r : UReg} {v : W64} (hdbg : s.mgmt.debug = 2) (hoff : s.mgmt.off = false)
    (hl : s.me.loc ≠ x.loc) (hx : s.tgAt x.loc = some x) (hd : x.dbg = true) (hc : x.cur = none)
    (ht : exec (.jtagAccess (.writeS x.loc r v)) s = .next t) : t.tgAt x.loc = some (x.setS r v (x.spoison r)) := by
  have he : exec (.jtagAccess (.writeS x.loc r v)) s = .next (s.modTg x.loc fun g => g.setS r v (g.spoison r)) := by
    simp [execJtagAccess, State.invasive, State.jtag, hdbg, hoff, halted_of_dbg hx hd hc]
  rw [he] at ht
  cases ht
  exact tgAt_modTg hl hx rfl

/-- A thread group that the debugger has stopped; an uncorrectable error of its s0 has been counted (R426). -/
def countedTg : TG := { TG.zero ⟨⟨0, 0, 0⟩, 1⟩ with status := .ready, dbg := true, found := [(1, 0, 0)] }
/-- The device right after reset but for that thread group, with its debugger at HALT. -/
def countedState : State := { State.reset with tgs := [countedTg], mgmt := { Mgmt.reset with debug := 2 } }

/-- A task for the clause about a restore, of which the debugger's write asks nothing. -/
def plainTask : Task := SpawnInfo.task ⟨0, 0, 0, [], false, []⟩ ⟨0, false, 2, 0, 0, none, ⟨0, 0, 0⟩, 0⟩ 0 ⟨0, 0⟩ 0

theorem countedState_memOk : countedState.MemOk := ⟨rfl, fun _ h => by cases h⟩
theorem countedState_me_ne : countedState.me.loc ≠ countedTg.loc := by decide

/-- Refutes O54: its clause about the debugger's write of a uniform register leaves all of the thread group but that register as it was.
Where an error of the register has been counted, the write takes it off the list of counted words (R426). -/
theorem not_reliabilityAndPackageStepResult : ¬ Obligations.ReliabilityAndPackageStepResult := by
  intro h
  obtain ⟨-, -, -, -, -, -, -, -, -, -, -, -, -, -, -, -, -, -, -, -, -, -, -, -, -, hjtag, -⟩ :=
    h countedState 0 0 0 0 false countedTg ⟨0, 0⟩ [] 0 [] 0 0 (0, 0) [] 0 0 plainTask ⟨0, 0, 0⟩ countedState_memOk
  obtain ⟨-, -, hhalted, -⟩ := hjtag rfl rfl countedState_me_ne rfl (by simp [countedTg])
  obtain ⟨-, -, hbetween⟩ := hhalted rfl rfl
  obtain ⟨-, -, -, t, ht, -, hclaimed⟩ := hbetween rfl
  have hwritten := tgAt_of_jtag_writeS rfl rfl countedState_me_ne rfl rfl rfl ht
  have hfound : countedTg.wrote 1 0 (fun _ => true) = countedTg.found :=
    congrArg TG.found (Option.some.inj (hwritten.symm.trans hclaimed))
  exact absurd hfound (by decide)

end Sys2Proof.Machine
end

section
/-! SUPPORT. O46: what the operations of the schedulers do to the tables of tasks, futures and thread groups (R27, R38 to R42, R62, R360):
a rule for each operation, and what the memory system's operations leave as it was. -/

namespace Sys2Proof.Machine

open Sys2Proof

/-! ### Tables -/

theorem kfind_kset_self {κ α : Type} [DecidableEq κ] (k : κ) (a : α) (m : KMap κ α) : kfind k (kset k a m) = some a := by
  induction m with
  | nil => simp [kset, kfind]
  | cons p m ih =>
    obtain ⟨k', a'⟩ := p
    by_cases hk : k' = k
    · simp [kset, kfind, hk]
    · simp [kset, kfind, hk, ih]

/-- A cluster after a change of it. -/
theorem cluster_modCluster_self (s : State) (c : ClId) (f : Cluster → Cluster) : (s.modCluster c f).cluster c = f (s.cluster c) := by
  simp only [State.cluster, State.modCluster, kget, kfind_kset_self, Option.getD_some]

theorem handle_of_task {s : State} {h : W64} {t : Task} (ht : s.task h = some t) : t.handle = h := by
  have hh := List.find?_some ht
  exact beq_iff_eq.mp hh

theorem handle_of_fut {s : State} {h : W64} {f : Fut} (hf : s.fut h = some f) : f.h = h := by
  have hh := List.find?_some hf
  exact beq_iff_eq.mp hh

/-- Tasks and futures are looked up in their tables alone. -/
theorem task_of_tasks_eq {s t : State} (h : W64) (he : t.tasks = s.tasks) : t.task h = s.task h := by
  unfold State.task
  rw [he]

theorem fut_of_futs_eq {s t : State} (h : W64) (he : t.futs = s.futs) : t.fut h = s.fut h := by
  unfold State.fut
  rw [he]

/-- A task after a change of it that leaves its handle. -/
theorem task_modTask {s : State} {h : W64} {t : Task} {f : Task → Task} (ht : s.task h = some t) (hf : (f t).handle = t.handle) :
    (s.modTask h f).task h = some (f t) :=
  find?_updFirst ht (by simp [hf, handle_of_task ht])

/-- A future after a change of it that leaves its handle. -/
theorem fut_modFut {s : State} {h : W64} {x : Fut} {f : Fut → Fut} (hx : s.fut h = some x) (hf : (f x).h = x.h) :
    (s.modFut h f).fut h = some (f x) :=
  find?_updFirst hx (by simp [hf, handle_of_fut hx])

/-! ### Operations of the memory system leave the tasks as they are -/

theorem encode_tasks (s : State) (d lo hi : Nat) : (s.encode d lo hi).tasks = s.tasks := by
  unfold State.encode
  split <;> rfl

theorem encodeSpad_tasks (s : State) (a n : Nat) : (s.encodeSpad a n).tasks = s.tasks := by
  unfold State.encodeSpad
  split
  · exact encode_tasks ..
  · rfl

theorem encodeBytes_tasks (s : State) (as_ : List Nat) : (s.encodeBytes as_).tasks = s.tasks := by
  unfold State.encodeBytes
  split
  · rfl
  · exact foldl_keeps (P := fun t : State => t.tasks = s.tasks) rfl fun _ _ h => (encodeSpad_tasks ..).trans h

theorem sendCollapses_tasks (s : State) (wr by_ : Option Nat) (home : Nat) (asid : Half) (va : Nat) (window : Bool) :
    (s.sendCollapses wr by_ home asid va window).1.tasks = s.tasks := by
  unfold State.sendCollapses
  extract_lets rs s1 s2 s3
  split
  · rfl
  · have h2 : s2.tasks = s.tasks := by
      unfold s2
      split <;> rfl
    exact foldl_keeps (P := fun t : State => t.tasks = s.tasks) h2 fun _ _ h => h

theorem collapseRegion_tasks (s : State) (r : Region) : (s.collapseRegion r).tasks = s.tasks :=
  foldl_keeps (P := fun t : State => t.tasks = s.tasks) rfl fun _ _ h => (sendCollapses_tasks ..).trans h

theorem windowEnd_tasks (s : State) (die : Nat) (asid : Half) (va : Nat) : (s.windowEnd die asid va).tasks = s.tasks := by
  unfold State.windowEnd
  extract_lets r d top auto s1
  have h1 : s1.tasks = s.tasks := rfl
  clear_value s1
  split
  · exact h1
  · split
    · split
      · exact h1
      · rw [collapseRegion_tasks]
        exact h1
    · split
      · split
        · exact h1
        · exact h1
      · exact h1

theorem countAccess_tasks (s : State) (home : Nat) (asid : Half) (va : Nat) (f : Region → Region) :
    (s.countAccess home asid va f).tasks = s.tasks :=
  ite_keeps (P := fun t : State => t.tasks = s.tasks) (windowEnd_tasks ..) rfl

theorem countWrite_tasks (s : State) (home : Nat) (asid : Half) (va : Nat) : (s.countWrite home asid va).tasks = s.tasks :=
  (countAccess_tasks ..).trans (encode_tasks ..)

theorem dropReplicas_tasks (s : State) (home : Nat) (asid : Half) (va : Nat) : (s.dropReplicas home asid va).tasks = s.tasks := by
  unfold State.dropReplicas
  extract_lets rs s1 u
  have h1 : s1.tasks = s.tasks := foldl_keeps (P := fun t : State => t.tasks = s.tasks) rfl fun _ _ h => h
  have hu : u.tasks = s.tasks := h1
  clear_value s1 u
  split
  · rfl
  · exact hu

theorem modTg_tasks (s : State) (l : TgRef) (f : TG → TG) : (s.modTg l f).tasks = s.tasks := by
  unfold State.modTg
  split <;> rfl

theorem wakeWatches_tasks (s : State) (a n : Nat) : (s.wakeWatches a n).tasks = s.tasks :=
  foldl_keeps (P := fun t : State => t.tasks = s.tasks) rfl fun _ _ h => (modTg_tasks ..).trans h

theorem remoteRead_tasks (s : State) (d : Nat) (asid : Half) (va pa : Nat) : (s.remoteRead d asid va pa).tasks = s.tasks := by
  unfold State.remoteRead
  extract_lets home s1 s2
  have h1 : s1.tasks = s.tasks := countAccess_tasks ..
  clear_value s1
  split
  · rfl
  · split
    · rfl
    · split
      · exact h1
      · exact h1

theorem noteReads_tasks (s : State) (g : Agent) (vas : List Nat) : (s.noteReads g vas).tasks = s.tasks := by
  refine foldl_keeps (P := fun t : State => t.tasks = s.tasks) rfl fun t line h => ?_
  refine ite_keeps (P := fun t : State => t.tasks = s.tasks) h ?_
  refine ite_keeps (P := fun t : State => t.tasks = s.tasks) ((remoteRead_tasks ..).trans h) ?_
  split
  · exact (remoteRead_tasks ..).trans h
  · exact h

theorem sendFar_tasks (s : State) (g : Agent) (ws : List (Nat × BW)) : (s.sendFar g ws).tasks = s.tasks :=
  foldl_keeps (P := fun t : State => t.tasks = s.tasks) rfl fun _ _ h => h

theorem engWrite_tasks (s : State) (g : Agent) (ws : List (Nat × BW)) : (s.engWrite g ws).tasks = s.tasks := by
  unfold State.engWrite
  extract_lets all merged s1 part whole s2 s3 lines s4
  have h1 : s1.tasks = s.tasks := encodeBytes_tasks ..
  have h2 : s2.tasks = s.tasks :=
    foldl_keeps (P := fun c : Soc => c.tasks = s.tasks) h1 fun _ _ h => h
  have h4 : s4.tasks = s.tasks := by
    refine foldl_keeps (P := fun t : State => t.tasks = s.tasks) h2 fun t l h => ?_
    extract_lets u home
    have hw : u.tasks = s.tasks := (wakeWatches_tasks ..).trans h
    clear_value u home
    split
    · exact hw
    · rw [dropReplicas_tasks, countWrite_tasks, hw]
  exact (sendFar_tasks ..).trans h4

/-! ### Reports to an entry (R62, R360) -/

/-- The entry of a future takes reports at once: it is resident, not terminal, holds no action, and no report to it is on its way. -/
structure State.TakesNotes (s : State) (h : W64) (f : Fut) : Prop where
  fut : s.fut h = some f
  resident : f.spilled = none
  live : f.st.terminal = false
  unheld : f.ending = none
  noneLate : ∀ m ∈ s.futMsgs, m.h ≠ h

theorem refillFut_resident {s : State} {h : W64} {f : Fut} (hf : s.fut h = some f) (hr : f.spilled = none) : s.refillFut h = s := by
  simp only [State.refillFut, hf, hr]

theorem noteEntry_here {s : State} {c : ClId} {h : W64} {f : Fut} (n : FutNote) (hn : s.TakesNotes h f) (hd : hDie h = c.die) :
    s.noteEntry c h n = s.applyNote h n := by
  have hm : s.futMsgs.all (fun m => m.h != h) = true := List.all_eq_true.mpr fun m hm => by simp [hn.noneLate m hm]
  have hnow : s.noteNow h n = (s.applyNote h n, true) := by
    simp [State.noteNow, refillFut_resident hn.fut hn.resident, hn.fut, hn.resident]
  simp only [State.noteEntry, hd, hm, hnow, and_self, if_true]

theorem noteEntry_away {s : State} {c : ClId} {h : W64} (n : FutNote) (hd : hDie h ≠ c.die) :
    s.noteEntry c h n = { s.bump with futMsgs := s.futMsgs ++ [⟨s.seq, h, n⟩] } := by
  simp only [State.noteEntry, hd, false_and, if_false]

theorem fut_applyNote_state {s : State} {h : W64} {f : Fut} (st : FSt) (hn : s.TakesNotes h f) :
    (s.applyNote h (.state st)).fut h = some { f with st := st } := by
  have hset : (s.applyNote h (.state st)).fut h = some (if f.st.terminal || f.ending.isSome then f else { f with st := st }) :=
    fut_modFut hn.fut (by split <;> rfl)
  rw [hset, hn.live, hn.unheld]
  rfl

/-- A report changes nothing but the futures, the reports under way, and the sequence number. -/
theorem noteEntry_frame {s : State} {c : ClId} {h : W64} {f : Fut} (n : FutNote) (hn : s.TakesNotes h f) :
    { s.noteEntry c h n with
      futs := s.futs
      futMsgs := s.futMsgs
      seq := s.seq } = s := by
  by_cases hd : hDie h = c.die
  · rw [noteEntry_here n hn hd]; rfl
  · rw [noteEntry_away n hd]; rfl

/-- A scheduler reports a state that it has not told yet. -/
theorem report_untold {s : State} {h : W64} {t : Task} (ht : s.task h = some t) (hd : t.dying = false) (hv : s.viewOf t ≠ t.told) :
    s.report h = (s.modTask h fun x => { x with told := s.viewOf t }).noteEntry (s.taskCluster t) h (.state (s.viewOf t)) := by
  simp [State.report, ht, hd, hv]

/-- What a scheduler's report of a new state leaves: the task with what has been told; and the entry with the state, on the scheduler's own
die, or else a report under way. -/
theorem report_result {s : State} {h : W64} {t : Task} {f : Fut} {st : FSt} (ht : s.task h = some t) (hd : t.dying = false)
    (hv : s.viewOf t = st) (htold : st ≠ t.told) (hn : s.TakesNotes h f) :
    (s.report h).task h = some { t with told := st } ∧
    (hDie h = (s.taskCluster t).die → (s.report h).fut h = some { f with st := st }) ∧
    (hDie h ≠ (s.taskCluster t).die → (s.report h).fut h = some f ∧
      (s.report h).futMsgs = s.futMsgs ++ [⟨s.seq, h, .state st⟩]) ∧
    { s.report h with
      tasks := s.tasks
      futs := s.futs
      futMsgs := s.futMsgs
      seq := s.seq } = s := by
  subst hv
  rw [report_untold ht hd htold]
  have hn1 : (s.modTask h fun x => { x with told := s.viewOf t }).TakesNotes h f :=
    ⟨hn.fut, hn.resident, hn.live, hn.unheld, hn.noneLate⟩
  have hframe := noteEntry_frame (c := s.taskCluster t) (.state (s.viewOf t)) hn1
  refine ⟨?_, fun hdie => ?_, fun hdie => ?_, ?_⟩
  · have htasks := congrArg (fun x : State => x.task h) hframe
    exact htasks.trans (task_modTask ht rfl)
  · rw [noteEntry_here _ hn1 hdie]
    exact fut_applyNote_state _ hn1
  · rw [noteEntry_away _ hdie]
    exact ⟨hn.fut, rfl⟩
  · exact congrArg (fun x : State => { x with tasks := s.tasks }) hframe

/-! ### Reservation (R38) -/

/-- A task but for the ring indices that its tiles have claimed. -/
def Task.unclaimed (t : Task) : Task := { t with fps := t.fps.map fun p => { p with slot := 0 } }

/-- Taking a lock changes nothing but the cluster's table. -/
theorem takeLock_frame (s : State) (c : ClId) (op : Nat) (owner : Option TgRef) (asid : Half) (srcs dsts : List (Nat × Nat)) :
    { s.takeLock c op owner asid srcs dsts with clusters := s.clusters } = s := by
  unfold State.takeLock
  split <;> rfl

theorem takeLock_tasks (s : State) (c : ClId) (op : Nat) (owner : Option TgRef) (asid : Half) (srcs dsts : List (Nat × Nat)) :
    (s.takeLock c op owner asid srcs dsts).tasks = s.tasks :=
  (congrArg (fun x : State => x.tasks) (takeLock_frame s c op owner asid srcs dsts) :)

/-- Claiming a ring index for one tile leaves the tiles but for their indices. -/
theorem map_claim_unclaimed (fps : List Footprint) (i w : Nat) :
    ((fps.zipIdx.map fun y => if y.2 = i then { y.1 with slot := w } else y.1).map fun p => { p with slot := 0 }) =
      fps.map fun p => { p with slot := 0 } := by
  rw [List.map_map]
  conv_rhs => rw [← map_fst_zipIdx fps 0, List.map_map]
  refine List.map_congr_left fun y _ => ?_
  by_cases hy : y.2 = i <;> simp [hy]

/-- The start of a tile's copy claims a ring index for the tile, and leaves the rest of its task. -/
theorem startTile_task {s : State} {t k : Task} (f : Footprint) (i : Nat) (hk : s.task t.handle = some k) :
    ∃ k', (s.startTile t f i).task t.handle = some k' ∧ k'.unclaimed = k.unclaimed := by
  unfold State.startTile
  extract_lets c s1 w s2 op s3
  have h1 : s1.task t.handle = some k := by
    unfold s1
    split
    · exact hk
    · exact hk
  clear_value s1 w
  have h2 : s2.task t.handle = some { k with fps := k.fps.zipIdx.map fun y => if y.2 = i then { y.1 with slot := w } else y.1 } :=
    task_modTask h1 rfl
  have h3 : s3.tasks = s2.tasks := takeLock_tasks ..
  clear_value s2 s3
  refine ⟨_, (task_of_tasks_eq t.handle h3).trans h2, ?_⟩
  simp only [Task.unclaimed, map_claim_unclaimed]

/-- It adds its copy to the operations, and leaves futures, reports and storage. -/
theorem startTile_rest (s : State) (t : Task) (f : Footprint) (i : Nat) :
    (s.startTile t f i).ops.length = s.ops.length + 1 ∧ (s.startTile t f i).futs = s.futs ∧
    (s.startTile t f i).futMsgs = s.futMsgs ∧ (s.startTile t f i).mem = s.mem := by
  unfold State.startTile
  extract_lets c s1 w s2 op s3
  have h1 : { s1 with clusters := s.clusters } = s := by
    unfold s1
    split <;> rfl
  have h3 := takeLock_frame (s2.modRing c t.asid none f.ring (Ring.claimW 1)) c op.id none t.asid (f.tmap.lockRanges f.origin f.extent) []
  have hops : s3.ops = s.ops := (congrArg (fun x : State => x.ops) h3 :).trans (congrArg (fun x : State => x.ops) h1 :)
  have hfuts : s3.futs = s.futs := (congrArg (fun x : State => x.futs) h3 :).trans (congrArg (fun x : State => x.futs) h1 :)
  have hmsgs : s3.futMsgs = s.futMsgs := (congrArg (fun x : State => x.futMsgs) h3 :).trans (congrArg (fun x : State => x.futMsgs) h1 :)
  have hmem : s3.mem = s.mem := (congrArg (fun x : State => x.mem) h3 :).trans (congrArg (fun x : State => x.mem) h1 :)
  clear_value s3
  exact ⟨by simp [hops], hfuts, hmsgs, hmem⟩

/-- The copies of a list of tiles start one after another. -/
theorem startTiles_result {t : Task} (l : List (Footprint × Nat)) {s : State} {k : Task} (hk : s.task t.handle = some k) :
    let r := l.foldl (fun (s : State) x => s.startTile t x.1 x.2) s
    (∃ k', r.task t.handle = some k' ∧ k'.unclaimed = k.unclaimed) ∧ r.ops.length = s.ops.length + l.length ∧
    r.futs = s.futs ∧ r.futMsgs = s.futMsgs ∧ r.mem = s.mem := by
  induction l generalizing s k with
  | nil => exact ⟨⟨k, hk, rfl⟩, rfl, rfl, rfl, rfl⟩
  | cons x l ih =>
    obtain ⟨k1, hk1, hu1⟩ := startTile_task x.1 x.2 hk
    obtain ⟨hops1, hfuts1, hmsgs1, hmem1⟩ := startTile_rest s t x.1 x.2
    obtain ⟨⟨k2, hk2, hu2⟩, hops2, hfuts2, hmsgs2, hmem2⟩ := ih hk1
    refine ⟨⟨k2, hk2, hu2.trans hu1⟩, ?_, hfuts2.trans hfuts1, hmsgs2.trans hmsgs1, hmem2.trans hmem1⟩
    rw [List.foldl_cons, hops2, hops1, List.length_cons]
    omega

theorem tgsAll_of_none {s : State} {h : W64} (hg : ∀ g ∈ s.allTgs, g.task ≠ h) : s.tgsAll h = [] :=
  List.filter_eq_nil_iff.mpr fun g hmem => by simp [hg g hmem]

/-- A task without thread groups is where it queues. -/
theorem taskCluster_of_none {s : State} {t : Task} (hg : ∀ g ∈ s.allTgs, g.task ≠ t.handle) : s.taskCluster t = t.queue := by
  simp only [State.taskCluster, tgsAll_of_none hg]

/-- A reservation: the task is in PREFETCH with its ranges, each tile's copy is under way, and the entry hears of it. -/
theorem reserve_result {s : State} {t : Task} {f : Fut} (ht : s.task t.handle = some t) (hd : t.dying = false) (htold : t.told = .queued)
    (hg : ∀ g ∈ s.allTgs, g.task ≠ t.handle) (hn : s.TakesNotes t.handle f) :
    ∃ k, (s.reserve t).task t.handle = some k ∧ k.st = .prefetch ∧ k.reserved = t.arrays ∧ (s.reserve t).mem = s.mem ∧
      k.fps.map (fun p => { p with slot := 0 }) = t.fps.map (fun p => { p with slot := 0 }) ∧
      (s.reserve t).ops.length = s.ops.length + t.fps.length ∧
      (hDie t.handle = t.queue.die → (s.reserve t).fut t.handle = some { f with st := .prefetch }) ∧
      (hDie t.handle ≠ t.queue.die → (s.reserve t).fut t.handle = some f ∧
        (s.reserve t).futMsgs = s.futMsgs ++ [⟨s.seq, t.handle, .state .prefetch⟩]) := by
  let s1 := s.modTask t.handle fun x => { x with st := .prefetch, reserved := t.arrays }
  have ht1 : s1.task t.handle = some { t with st := .prefetch, reserved := t.arrays } := task_modTask ht rfl
  have hn1 : s1.TakesNotes t.handle f := ⟨hn.fut, hn.resident, hn.live, hn.unheld, hn.noneLate⟩
  obtain ⟨htask, hhere, haway, hframe⟩ := report_result (st := .prefetch) ht1 hd rfl (by simp [htold]) hn1
  have hcl : s1.taskCluster { t with st := .prefetch, reserved := t.arrays } = t.queue := taskCluster_of_none hg
  rw [hcl] at hhere haway
  obtain ⟨⟨k, hk, hu⟩, hops, hfuts, hmsgs, hmem⟩ := startTiles_result t.fps.zipIdx htask
  refine ⟨k, hk, ?_, ?_, ?_, ?_, ?_, ?_, ?_⟩
  · exact congrArg Task.st hu
  · exact congrArg Task.reserved hu
  · exact hmem.trans (congrArg (fun x : State => x.mem) hframe :)
  · exact congrArg Task.fps hu
  · rw [State.reserve, hops, List.length_zipIdx]
    exact (congrArg (fun x : State => x.ops.length + t.fps.length) hframe :)
  · intro hdie
    exact (fut_of_futs_eq t.handle hfuts).trans (hhere hdie)
  · intro hdie
    obtain ⟨hfut, hmsg⟩ := haway hdie
    exact ⟨(fut_of_futs_eq t.handle hfuts).trans hfut, hmsgs.trans hmsg⟩

/-! ### Tiles (R39, R270) -/

/-- The end of an operation takes every operation of its number, and leaves tasks and storage. -/
theorem endOp_result (s : State) (id : Nat) :
    (∀ y ∈ (s.endOp id).ops, y.id ≠ id) ∧ (s.endOp id).tasks = s.tasks ∧ (s.endOp id).mem = s.mem := by
  unfold State.endOp
  split
  case h_1 hnone =>
    refine ⟨fun y hy => ?_, rfl, rfl⟩
    simpa using List.find?_eq_none.mp hnone y hy
  case h_2 o _ =>
    extract_lets s1 s2
    have hops : ∀ y ∈ s2.ops, y.id ≠ id := fun y hy => by simpa using (List.mem_filter.mp hy).2
    split
    case h_1 l k _ _ =>
      refine ⟨?_, modTg_tasks .., ?_⟩
      · unfold State.modTg
        split <;> exact hops
      · unfold State.modTg
        split <;> rfl
    case h_2 => exact ⟨hops, rfl, rfl⟩

/-- A tile that has landed is marked in its task, whose state stays; its copy is over. -/
theorem tileLanded_result {s : State} {o : EngOp} {t : Task} {i : Nat} {p : Footprint} (ring : W64) (ht : s.task o.task = some t)
    (hp : t.fps[i]? = some p) :
    ∃ k, (∀ y ∈ (s.tileLanded o i ring).ops, y.id ≠ o.id) ∧ (s.tileLanded o i ring).task o.task = some k ∧
      (k.fps[i]?).map (·.landed) = some true ∧ k.st = t.st ∧ (s.tileLanded o i ring).mem = s.mem := by
  unfold State.tileLanded
  extract_lets mark s1
  obtain ⟨hops, htasks, hmem⟩ := endOp_result ((s.modTask o.task mark).modRing o.cl o.asid none ring (Ring.land o.index)) o.id
  have h1 : s1.task o.task = some (mark t) := (task_of_tasks_eq o.task htasks).trans (task_modTask ht rfl)
  have hmark : ((mark t).fps[i]?).map (·.landed) = some true := by
    simp [mark, List.getElem?_map, List.getElem?_zipIdx, hp]
  refine ⟨_, hops, task_modTask h1 ?_, ?_, ?_, hmem⟩
  · split <;> rfl
  · split <;> exact hmark
  · split <;> rfl

/-- The copy of a tile whose bytes are read and have their places lands. -/
theorem tileCopy_ok {s : State} {o : EngOp} {i : Nat} {t : Task} {f : Footprint} {m : TMap} {r : Ring} {ws : List BW} {xs : List (Nat × BW)}
    (ht : s.task o.task = some t) (hf : t.fps[i]? = some f) (hm : o.maps = [m]) (hr : s.ring o.cl o.asid none f.ring = some r)
    (hws : s.slotTile o m f.map f.origin f.extent r o.index = .ok ws) (hxs : s.placeWrites o.agent ws = .ok xs) :
    s.tileCopy o i = ((s.noteReads o.agent (m.reads f.origin f.extent)).engWrite o.agent xs).tileLanded o i f.ring := by
  simp only [State.tileCopy, ht, hf, hm, hr, hws, hxs]

/-! ### Dispatch (R39 to R42) -/

theorem mem_allTgs_addTg {s : State} {g y : TG} (hg : g.status ≠ .free) : y ∈ (s.addTg g).allTgs ↔ y ∈ s.allTgs ∨ y = g := by
  unfold State.addTg
  split
  case isTrue h => simp [State.allTgs, h.1, hg, or_comm]
  case isFalse =>
    by_cases hfree : s.me.status = .free
    · simp [State.allTgs, hfree]
    · simp [State.allTgs, hfree, or_assoc]

theorem addTg_frame (s : State) (g : TG) :
    { s.addTg g with
      me := s.me
      tgs := s.tgs } = s := by
  unfold State.addTg
  split <;> rfl

/-- Thread groups put on their cores one after another, each with the sequence number of its turn. -/
def State.addTgs {α : Type} (G : α → Nat → TG) (l : List α) (s : State) : State :=
  l.foldl (fun (s : State) x => (s.addTg (G x s.seq)).bump) s

section
variable {α : Type} {G : α → Nat → TG} (hG : ∀ x n, (G x n).status ≠ .free)
include hG

theorem mem_allTgs_addTgs_of_mem {y : TG} (l : List α) {s : State} (hy : y ∈ s.allTgs) : y ∈ (s.addTgs G l).allTgs :=
  foldl_keeps (P := fun t : State => y ∈ t.allTgs) hy fun u x h =>
    (mem_allTgs_addTg (hG x u.seq)).mpr (.inl h)

theorem exists_mem_allTgs_addTgs {x : α} {l : List α} {s : State} (hx : x ∈ l) : ∃ n, G x n ∈ (s.addTgs G l).allTgs := by
  induction l generalizing s with
  | nil => cases hx
  | cons z l ih =>
    rcases List.mem_cons.mp hx with rfl | hx
    · exact ⟨s.seq, mem_allTgs_addTgs_of_mem hG l ((mem_allTgs_addTg (hG x s.seq)).mpr (.inr rfl))⟩
    · exact ih hx

theorem of_mem_allTgs_addTgs {y : TG} {l : List α} {s : State} (hy : y ∈ (s.addTgs G l).allTgs) :
    y ∈ s.allTgs ∨ ∃ x ∈ l, ∃ n, y = G x n := by
  induction l generalizing s with
  | nil => exact .inl hy
  | cons z l ih =>
    rcases ih hy with hold | ⟨x, hx, n, he⟩
    · rcases (mem_allTgs_addTg (hG z s.seq)).mp hold with hold | he
      · exact .inl hold
      · exact .inr ⟨z, List.mem_cons_self, _, he⟩
    · exact .inr ⟨x, List.mem_cons_of_mem _ hx, n, he⟩

end

/-- The start of a piece changes thread groups, and the counters of the model's own. -/
theorem startPiece_frame (s : State) (t : Task) (c : CoreId) (j w n : Nat) :
    { s.startPiece t c j w n with
      me := s.me
      tgs := s.tgs
      seq := s.seq
      free := s.free } = s := by
  refine foldl_keeps (P := fun u : State => { u with me := s.me, tgs := s.tgs, seq := s.seq, free := s.free } = s) rfl fun u x h => ?_
  exact (congrArg (fun v : State => { v with me := s.me, tgs := s.tgs, seq := s.seq, free := s.free }) (addTg_frame u _) :).trans h

/-- The thread group of a slot, as a dispatch makes it: on the core, with its number. -/
theorem startPiece_tgs {s : State} {t : Task} {c : CoreId} {j w n : Nat} (hw : w ≤ (s.freeTgSlots c).length) :
    (∀ i < w, ∃ slot base age, t.initTg ⟨c, slot⟩ j i w n base age ∈ (s.startPiece t c j w n).allTgs) ∧
    ∀ y ∈ (s.startPiece t c j w n).allTgs, y ∈ s.allTgs ∨ ∃ slot i base age, y = t.initTg ⟨c, slot⟩ j i w n base age := by
  let bases := if fwPrivls t.flagWord = 0 then [] else lsPlaces (fwPrivls t.flagWord) (s.free + 4) w (s.lsBusy c)
  let slots := (s.freeTgSlots c).take w
  let G := fun (x : Nat × Nat) (age : Nat) => t.initTg ⟨c, x.1⟩ j x.2 w n (bases.getD x.2 1) age
  have hG : ∀ x age, (G x age).status ≠ .free := fun x age => by simp [G, Task.initTg]
  have he : s.startPiece t c j w n = s.useFree.addTgs G slots.zipIdx := rfl
  rw [he]
  refine ⟨fun i hi => ?_, fun y hy => ?_⟩
  · have hlen : i < slots.length := by simpa [slots] using ⟨hi, by omega⟩
    have hmem : (slots[i], i) ∈ slots.zipIdx := by simp [List.mem_zipIdx_iff_getElem?, hlen]
    obtain ⟨age, hage⟩ := exists_mem_allTgs_addTgs (s := s.useFree) hG hmem
    exact ⟨slots[i], _, age, hage⟩
  · rcases of_mem_allTgs_addTgs hG hy with hold | ⟨x, -, age, hx⟩
    · exact .inl hold
    · exact .inr ⟨x.1, x.2, _, age, hx⟩

/-- Pieces have a place each. -/
theorem placePieces_length {s : State} {t : Task} {w : Nat} (k : Nat) {got cs : List CoreId} (h : s.placePieces t w k got = some cs) :
    cs.length = got.length + k := by
  induction k generalizing got with
  | zero => cases h; rfl
  | succ k ih =>
    unfold State.placePieces at h
    split at h
    · rw [ih h, List.length_append, List.length_singleton]
      omega
    · cases h

/-- A plan of one core is for the whole task: the core has a free slot for each of its thread groups. -/
theorem freeTgSlots_of_plan {s : State} {t : Task} {c : CoreId} (h : s.plan t = some [c]) :
    fwWidth t.flagWord ≤ (s.freeTgSlots c).length := by
  unfold State.plan at h
  extract_lets w at h
  split at h
  case h_1 cs hcs =>
    cases h
    unfold State.placePieces at hcs
    split at hcs
    case h_2 => cases hcs
    case h_1 c' hfind =>
      cases hcs
      have hfits := List.find?_some hfind
      simp only [State.coreFits, List.filter_nil, List.length_nil, Nat.zero_add, Nat.mul_one, Bool.and_eq_true,
        decide_eq_true_eq] at hfits
      exact hfits.1.1
  case h_2 =>
    split at h
    case isFalse => cases h
    case isTrue =>
      obtain ⟨n, hn, hpl⟩ := List.exists_of_findSome?_eq_some h
      have hone : 1 = n := by simpa using placePieces_length n hpl
      subst hone
      simp at hn

theorem fwWidth_pos (fw : W64) : 0 < fwWidth fw := Nat.two_pow_pos _

/-- A task runs where its thread groups are. -/
theorem taskCluster_of_tgs {s : State} {t : Task} {c : ClId} {g : TG} (h0 : t.handle ≠ 0) (hg : g ∈ s.allTgs) (ht : g.task = t.handle)
    (hc : ∀ y ∈ s.allTgs, y.task = t.handle → y.loc.core.cluster = c) : s.taskCluster t = c := by
  have hmem : g ∈ s.tgsAll t.handle := List.mem_filter.mpr ⟨hg, by simpa [ht] using h0⟩
  unfold State.taskCluster
  split
  case h_2 hnil => rw [hnil] at hmem; cases hmem
  case h_1 y ys hcons =>
    have hy : y ∈ s.tgsAll t.handle := by rw [hcons]; exact List.mem_cons_self
    obtain ⟨hy, hp⟩ := List.mem_filter.mp hy
    simp only [Bool.and_eq_true, beq_iff_eq] at hp
    exact hc y hy hp.1

/-- A task with a thread group that may issue is not parked. -/
theorem viewOf_running {s : State} {t : Task} {g : TG} (hst : t.st = .running) (h0 : t.handle ≠ 0) (hg : g ∈ s.allTgs)
    (ht : g.task = t.handle) (hr : g.status = .ready) : s.viewOf t = .running := by
  have hmem : g ∈ s.tgsOf t.handle := List.mem_filter.mpr ⟨hg, by simpa [ht, hr] using h0⟩
  have hp : s.taskParked t = false := by
    by_contra hp
    simp only [State.taskParked, hst, Bool.not_eq_false, Bool.and_eq_true, List.all_eq_true] at hp
    have hgp := hp.2 g hmem
    rw [hr] at hgp
    cases hgp
  simp [State.viewOf, hst, hp]

/-- A task that is dispatched whole to a core, before its entry hears of it: its thread groups are made, the cluster's turn has passed, and
the task runs. -/
def State.runOn (s : State) (t : Task) (c : CoreId) : State :=
  let s := (s.startPiece t c 0 (fwWidth t.flagWord) 1).modCluster t.queue fun k => { k with
    turn := (k.turn + 1) % 15, pfUseful := satAdd k.pfUseful t.fps.length,
    pfLate := if t.firstFree.isSome then satAdd k.pfLate 1 else k.pfLate, pfDelay := k.pfDelay + t.firstFree.getD 0 }
  (s.modTask t.handle fun x => { x with st := .running, pieces := 1, dispatched := s.seq, firstFree := none }).dropRings t.queue

theorem dispatchTo_one_eq (s : State) (t : Task) (c : CoreId) : s.dispatchTo t [c] = (s.runOn t c).report t.handle := by
  unfold State.runOn
  rw [← Nat.div_one (fwWidth t.flagWord)]
  rfl

section
variable {s : State} {t : Task} {c : CoreId}

theorem runOn_task (ht : s.task t.handle = some t) : ∃ n, (s.runOn t c).task t.handle = some { t with
    st := .running
    pieces := 1
    dispatched := n
    firstFree := none } := by
  unfold State.runOn
  extract_lets s1
  have htasks : s1.tasks = s.tasks :=
    (congrArg (fun x : State => x.tasks) (startPiece_frame s t c 0 (fwWidth t.flagWord) 1) :)
  clear_value s1
  exact ⟨_, task_modTask ((task_of_tasks_eq t.handle htasks).trans ht) rfl⟩

theorem runOn_turn : ((s.runOn t c).cluster t.queue).turn = ((s.cluster t.queue).turn + 1) % 15 := by
  have hcl : (s.startPiece t c 0 (fwWidth t.flagWord) 1).cluster t.queue = s.cluster t.queue :=
    (congrArg (fun x : State => x.cluster t.queue) (startPiece_frame s t c 0 (fwWidth t.flagWord) 1) :)
  unfold State.runOn State.dropRings
  extract_lets s1
  have h1 : (s1.cluster t.queue).turn = ((s.cluster t.queue).turn + 1) % 15 := by
    unfold s1
    rw [cluster_modCluster_self, hcl]
  rw [cluster_modCluster_self]
  exact h1

theorem runOn_mem : (s.runOn t c).mem = s.mem := by
  simp only [State.runOn, State.dropRings, modCluster_mem, modTask_mem]
  exact (congrArg (fun x : State => x.mem) (startPiece_frame s t c 0 (fwWidth t.flagWord) 1) :)

theorem runOn_futs : (s.runOn t c).futs = s.futs := by
  simp only [State.runOn, State.dropRings, modCluster_futs, modTask_futs]
  exact (congrArg (fun x : State => x.futs) (startPiece_frame s t c 0 (fwWidth t.flagWord) 1) :)

theorem runOn_futMsgs : (s.runOn t c).futMsgs = s.futMsgs := by
  unfold State.runOn
  extract_lets s1
  have h1 : s1.futMsgs = s.futMsgs :=
    (congrArg (fun x : State => x.futMsgs) (startPiece_frame s t c 0 (fwWidth t.flagWord) 1) :)
  clear_value s1
  exact h1

theorem runOn_takesNotes {f : Fut} (hn : s.TakesNotes t.handle f) : (s.runOn t c).TakesNotes t.handle f :=
  ⟨(fut_of_futs_eq t.handle runOn_futs).trans hn.fut, hn.resident, hn.live, hn.unheld, fun m hm =>
    hn.noneLate m (runOn_futMsgs (c := c) ▸ hm)⟩

theorem runOn_allTgs : (s.runOn t c).allTgs = (s.startPiece t c 0 (fwWidth t.flagWord) 1).allTgs := by
  have hme : (s.runOn t c).me = (s.startPiece t c 0 (fwWidth t.flagWord) 1).me := by
    simp only [State.runOn, State.dropRings, modCluster_me, modTask_me]
  have htgs : (s.runOn t c).tgs = (s.startPiece t c 0 (fwWidth t.flagWord) 1).tgs := by
    simp only [State.runOn, State.dropRings, modCluster_tgs, modTask_tgs]
  unfold State.allTgs
  rw [hme, htgs]

/-- The thread groups of a task dispatched to one core: those that the dispatch made. -/
theorem runOn_tgs (hplan : s.plan t = some [c]) :
    (∀ i < fwWidth t.flagWord, ∃ slot base age,
      t.initTg ⟨c, slot⟩ 0 i (fwWidth t.flagWord) 1 base age ∈ (s.runOn t c).allTgs) ∧
    ∀ y ∈ (s.runOn t c).allTgs, y ∈ s.allTgs ∨ ∃ slot i base age, y = t.initTg ⟨c, slot⟩ 0 i (fwWidth t.flagWord) 1 base age := by
  rw [runOn_allTgs]
  exact startPiece_tgs (freeTgSlots_of_plan hplan)

end

/-- A dispatch to one core: the task runs there whole, the cluster's turn has passed, and the entry hears of it. -/
theorem dispatchTo_one {s : State} {t : Task} {f : Fut} {c : CoreId} (ht : s.task t.handle = some t) (hd : t.dying = false)
    (htold : t.told = .prefetch) (h0 : t.handle ≠ 0) (hg : ∀ g ∈ s.allTgs, g.task ≠ t.handle) (hn : s.TakesNotes t.handle f)
    (hplan : s.plan t = some [c]) :
    ∃ k, (s.dispatchTo t [c]).task t.handle = some k ∧ k.st = .running ∧ k.pieces = 1 ∧ (s.dispatchTo t [c]).mem = s.mem ∧
      (hDie t.handle = c.die → (s.dispatchTo t [c]).fut t.handle = some { f with st := .running }) ∧
      ((s.dispatchTo t [c]).cluster t.queue).turn = ((s.cluster t.queue).turn + 1) % 15 ∧
      ∀ j < fwWidth t.flagWord, ∃ slot base age,
        t.initTg ⟨c, slot⟩ 0 j (fwWidth t.flagWord) 1 base age ∈ (s.dispatchTo t [c]).allTgs := by
  obtain ⟨n, hrun⟩ := runOn_task (c := c) ht
  obtain ⟨hnew, hall⟩ := runOn_tgs hplan
  obtain ⟨slot, base, age, hfirst⟩ := hnew 0 (fwWidth_pos t.flagWord)
  have hcl : (s.runOn t c).taskCluster { t with st := .running, pieces := 1, dispatched := n, firstFree := none } = c.cluster := by
    refine taskCluster_of_tgs h0 hfirst rfl fun y hy hyt => ?_
    rcases hall y hy with hold | ⟨_, _, _, _, rfl⟩
    · exact absurd hyt (hg y hold)
    · rfl
  obtain ⟨htask, hhere, -, hframe⟩ := report_result hrun hd (viewOf_running rfl h0 hfirst rfl rfl) (by simp [htold]) (runOn_takesNotes hn)
  rw [hcl] at hhere
  rw [dispatchTo_one_eq]
  refine ⟨_, htask, rfl, rfl, ?_, hhere, ?_, ?_⟩
  · exact (congrArg (fun x : State => x.mem) hframe :).trans runOn_mem
  · exact (congrArg (fun x : State => (x.cluster t.queue).turn) hframe :).trans runOn_turn
  · have htgs : ((s.runOn t c).report t.handle).allTgs = (s.runOn t c).allTgs := (congrArg (fun x : State => x.allTgs) hframe :)
    rw [htgs]
    exact hnew

end Sys2Proof.Machine
end

section
/-! SUPPORT. O46: each step of a scheduler when its condition holds (R36, R38, R39, R42, R44, R45, R47, R301, R360). -/

namespace Sys2Proof.Machine

open Sys2Proof

/-- RESERVATION_MADE of the oldest task of its class that can reserve (R38). -/
theorem reservationMade_reserves {s : State} {t : Task} {f : Fut} (ht : s.task t.handle = some t) (hn : s.TakesNotes t.handle f)
    (hres : s.reservable t = true)
    (hold : ∀ k ∈ s.tasks, k.queue = t.queue → k.eff = t.eff → k.order < t.order → s.reservable k = false) :
    exec (.reservationMade t.handle) s = .next (s.reserve t) := by
  have hany : s.tasks.any (fun u => u.queue == t.queue && u.eff == t.eff && decide (u.order < t.order) && s.reservable u) = false := by
    refine List.any_eq_false.mpr fun k hk => ?_
    simp only [Bool.and_eq_true, beq_iff_eq, decide_eq_true_eq, not_and, Bool.not_eq_true]
    exact fun ⟨hb, ho⟩ => hold k hk hb.1 hb.2 ho
  simp [exec_reservationMade, execReservationMade, refillFut_resident hn.fut hn.resident, ht, hn.fut, hn.resident, hres, hany]

/-- FOOTPRINT_COPY_LANDED of a copy that waits for nothing, whose bytes are read and have their places (R39, R270). -/
theorem footprintCopyLanded_lands {s : State} {h : W64} {o : EngOp} {i : Nat} {t : Task} {f : Footprint} {m : TMap} {r : Ring} {ws : List BW}
    {xs : List (Nat × BW)} (ho : s.ops.find? (fun k => k.task == h && k.kind == .footprint i) = some o) (hnf : o.fault = none)
    (ht : s.task h = some t) (hf : t.fps[i]? = some f) (hm : o.maps = [m]) (hr : s.ring o.cl o.asid none f.ring = some r)
    (hws : s.slotTile o m f.map f.origin f.extent r o.index = .ok ws) (hxs : s.placeWrites o.agent ws = .ok xs) :
    ∃ r k, exec (.footprintCopyLanded h i) s = .next r ∧ (∀ y ∈ r.ops, y.id ≠ o.id) ∧ r.task h = some k ∧
      (k.fps[i]?).map (·.landed) = some true ∧ k.st = t.st ∧
      r.mem = ((s.noteReads o.agent (m.reads f.origin f.extent)).engWrite o.agent xs).mem := by
  have hoh := List.find?_some ho
  simp only [Bool.and_eq_true, beq_iff_eq] at hoh
  obtain ⟨rfl, -⟩ := hoh
  have hrun : exec (.footprintCopyLanded o.task i) s = .next (s.tileCopy o i) := by
    simp [exec_footprintCopyLanded, execFootprintCopyLanded, ho, hnf]
  rw [hrun, tileCopy_ok ht hf hm hr hws hxs]
  have htasks := (engWrite_tasks (s.noteReads o.agent (m.reads f.origin f.extent)) o.agent xs).trans (noteReads_tasks ..)
  obtain ⟨k, hops, hk, hlanded, hst, hmem⟩ := tileLanded_result f.ring ((task_of_tasks_eq o.task htasks).trans ht) hf
  exact ⟨_, k, rfl, hops, hk, hlanded, hst, hmem⟩

/-- DISPATCH of the task that the cluster's turn takes (R39, R40). -/
theorem dispatch_dispatches {s : State} {t : Task} {cs : List CoreId} (ht : s.task t.handle = some t) (hgo : s.dispatchStopped = false)
    (hplan : s.plan t = some cs)
    (hturn : turnPick (s.cluster t.queue).turn (s.tasks.filter fun k => k.queue == t.queue && s.dispatchable k) = some t) :
    exec (.dispatch t.handle) s = .next (s.dispatchTo t cs) := by
  simp [exec_dispatch, execDispatch, hgo, ht, hplan, hturn]

/-- STEAL: the task joins the tail of the thief's queue (R36). -/
theorem steal_moves {s : State} {t : Task} {thief v : ClId} (hoff : s.offer v = some t) (ht : s.task t.handle = some t)
    (hmay : s.mayStealFrom thief v = true) :
    ∃ r, exec (.steal thief v) s = .next r ∧ r.task t.handle = some { t with
        queue := thief
        order := s.seq } ∧ r.mem = s.mem ∧ r.futs = s.futs ∧ r.tgs = s.tgs := by
  simp only [exec_steal, execSteal, hoff, hmay, if_true]
  exact ⟨_, rfl, task_modTask (s := s.bump) (f := fun x => { x with queue := thief, order := s.seq }) ht rfl, rfl, rfl, rfl⟩

/-- PRIORITY_RAISE of a queued task to a higher class (R45). -/
theorem priorityRaise_raises {s : State} {t : Task} {h : W64} {cls : Fin 4} (hin : s.raises.contains (h, cls) = true)
    (ht : s.task h = some t) (hcls : cls < t.inh) (hst : t.st = .queued) :
    ∃ r k, exec (.priorityRaise h cls) s = .next r ∧ r.task h = some k ∧ k.inh = cls ∧ k.st = .queued ∧
      r.raises = dropFirst (fun q => q == (h, cls)) s.raises ∧ r.mem = s.mem := by
  let s1 : State := { s with raises := dropFirst (fun q => q == (h, cls)) s.raises }
  have ht1 : s1.task h = some t := ht
  have hrun : exec (.priorityRaise h cls) s = .next (s1.raiseNow h cls) := by
    rw [exec_priorityRaise, execPriorityRaise, if_pos hin]
  have hnow : s1.raiseNow h cls = s1.bump.modTask h fun t => { t with
      inh := cls, order := if t.st = .queued ∧ cls < t.eff then s1.seq else t.order } := by
    simp only [State.raiseNow, ht1, hcls, hst, true_or, and_self, if_true]
  exact ⟨_, _, hrun.trans (congrArg _ hnow), task_modTask (s := s1.bump) ht1 rfl, rfl, hst, rfl, rfl⟩

section
variable {s : State} {x : TG} (hl : s.me.loc ≠ x.loc) (hx : s.tgAt x.loc = some x)
include hl hx

/-- CANDIDATE_AGE_EXPIRY brings a ready thread group into focus (R44). -/
theorem candidateAgeExpiry_focuses (hst : x.status = .ready) :
    ∃ r, exec (.candidateAgeExpiry x.loc) s = .next r ∧ r.me = x ∧ r.mem = s.mem ∧ r.tasks = s.tasks := by
  have hfind : s.tgs.find? (fun g => g.loc == x.loc) = some x := (tgAt_of_me_ne hl).symm.trans hx
  refine ⟨s.focus x.loc, by simp [execCandidateAgeExpiry, hx, hst], ?_⟩
  unfold State.focus
  rw [if_neg hl, hfind]
  exact ⟨rfl, rfl, rfl⟩

/-- A change of a thread group out of focus leaves the one in focus, and storage. -/
theorem modTg_outOfFocus {f : TG → TG} {y : TG} (hf : f x = y) (hy : y.loc = x.loc) :
    (s.modTg x.loc f).me = s.me ∧ (s.modTg x.loc f).mem = s.mem ∧ (s.modTg x.loc f).tgAt x.loc = some y := by
  subst hf
  refine ⟨?_, ?_, tgAt_modTg hl hx hy⟩
  · rw [State.modTg, if_neg hl]
  · rw [State.modTg, if_neg hl]

/-- WAKE of a parked thread group whose wake is recorded (R47). -/
theorem wake_wakes {w : Wake} (hp : x.isParked = true) (hw : x.wake = some w) :
    ∃ r, exec (.wake x.loc) s = .next r ∧ r.me = s.me ∧ r.mem = s.mem ∧ r.tgAt x.loc = some { x with
      wake := some w
      status := .ready } := by
  have hdue : s.wakeDue x = (s, some w) := by
    unfold TG.isParked at hp
    split at hp
    case h_1 k o hst => simp only [State.wakeDue, hw, hst]
    case h_2 => cases hp
  exact ⟨_, by simp only [exec_wake, execWake, hx, hdue],
    modTg_outOfFocus (f := fun y => { y with wake := some w, status := .ready }) hl hx rfl rfl⟩

/-- YIELD_EXPIRY of a thread group whose time has come (R301). -/
theorem yieldExpiry_ends {u : Nat} (hst : x.status = .yielding u) (hu : u ≤ s.cycle.toNat) :
    ∃ r, exec (.yieldExpiry x.loc) s = .next r ∧ r.me = s.me ∧ r.mem = s.mem ∧ r.tgAt x.loc = some { x with status := .ready } := by
  rw [exec_yieldExpiry, execYieldExpiry]
  refine ⟨_, rfl, modTg_outOfFocus hl hx ?_ rfl⟩
  simp only [hst, hu, if_true]

end

/-- Settles O46: each clause is the lemma of its step above; what the entry of the future hears is `report_result`, for a reservation and
for a dispatch alike. -/
theorem schedulerStepResult : Obligations.SchedulerStepResult := by
  intro s t f x c o tile v thief cls w u h fresh
  refine ⟨?reservation, ?tile, ?dispatch, ?steal, ?raise, ?rest⟩
  case reservation =>
    intro ⟨ht, hf, hr, hlive, hend, hd, _, htgs, hmsgs⟩ hres htold hold
    have hn : s.TakesNotes t.handle f := ⟨hf, hr, hlive, hend, hmsgs⟩
    obtain ⟨k, hk, hst, hreserved, hmem, hfps, hops, hhere, haway⟩ := reserve_result ht hd htold htgs hn
    exact ⟨_, k, reservationMade_reserves ht hn hres hold, hk, hst, hreserved, hmem, hfps, hops, hhere, haway⟩
  case tile => exact fun p m ring ws xs ho hnf ht hp hm hr hws hxs => footprintCopyLanded_lands ho hnf ht hp hm hr hws hxs
  case dispatch =>
    intro ⟨ht, hf, hr, hlive, hend, hd, h0, htgs, hmsgs⟩ hgo hplan htold hturn
    obtain ⟨k, hk, hst, hpieces, hmem, hhere, hpassed, hnew⟩ :=
      dispatchTo_one ht hd htold h0 htgs ⟨hf, hr, hlive, hend, hmsgs⟩ hplan
    refine ⟨_, k, dispatch_dispatches ht hgo hplan hturn, hk, hst, hpieces, hmem, hhere, hpassed, fun j hj => ?_⟩
    obtain ⟨slot, base, age, hmade⟩ := hnew j hj
    exact ⟨_, hmade, rfl, rfl, rfl, rfl, rfl, rfl, rfl, rfl⟩
  case steal => exact fun hoff ht hmay => steal_moves hoff ht hmay
  case raise => exact fun hin ht hcls hst => priorityRaise_raises hin ht hcls hst
  case rest =>
    exact fun hl hx => ⟨candidateAgeExpiry_focuses hl hx, wake_wakes hl hx, yieldExpiry_ends hl hx⟩

end Sys2Proof.Machine
end

section
/-! SUPPORT. O35: a task that ends away from its future's entry (R62, R85, R300, R360). Its scope counts one less behind the settlement,
which is still on its way to the entry, also where the scheduler that ends it holds the scope records itself. -/

namespace Sys2Proof.Machine

open Sys2Proof

/-- A future in a table of die 1. -/
def awayFut : Fut := Fut.new (mkHandle 0 ⟨1, 0⟩ 0 1) 0 .running (some 1) none 0

/-- Its task, which cluster 0 of die 0 has taken and runs, a member of scope 1. -/
def awayTask : Task := { plainTask with handle := awayFut.h, st := .running, told := .running, scope := some 1 }

/-- The one thread group of that task is about to retire; scope 1 counts two. -/
def awayState : State :=
  { State.reset with
    me := { State.reset.me with status := .ready, task := awayFut.h }
    tasks := [awayTask]
    futs := [awayFut]
    ctxs := [(0, { Ctx.zero with scopes := [(1, ⟨.open_, some 0, 2, []⟩)] })] }

/-- The state that a meaning goes on with has p. -/
def goesWith (p : State → Bool) : Out State → Bool
  | .next t => p t
  | _ => false

theorem awayState_calm : awayState.Calm := ⟨rfl, rfl, fun _ h => (List.not_mem_nil h).elim, rfl, rfl, rfl⟩

/-- The leave is under way as a message of class 0, and scope 1 still counts two. -/
theorem awayState_retire : goesWith (fun t => (t.scope 0 1).count == 2) (exec (.retire 0 0) awayState) = true := by decide

/-- Refutes O35: its last clause has the scope count one less at once whenever cluster 0 of die 0 ends the task. Where the entry is on
another die, the leave stays behind the report to it (R300, R360), and the count is as before. -/
theorem not_retireResult : ¬ Obligations.RetireResult := by
  intro h
  obtain ⟨-, -, hlast⟩ := h awayState 0 0 awayTask awayFut (Or.inl rfl) awayState_calm rfl (by decide) (fun _ ho => (List.not_mem_nil ho).elim)
  obtain ⟨-, hends⟩ := hlast (by decide) (by decide) (fun _ hx => (List.not_mem_nil hx).elim) rfl
  obtain ⟨t, ht, -, -, -, -, -, hscope⟩ := hends (by decide) (fun _ hx => (List.not_mem_nil hx).elim)
    (fun _ hc => (List.not_mem_nil hc).elim) rfl rfl rfl rfl rfl (fun _ hm => (List.not_mem_nil hm).elim)
    (fun i hi _ => by cases hi; decide)
  obtain ⟨hnow, -⟩ := hscope 1 rfl
  have hone : (t.scope 0 1).count = 1 := hnow rfl
  have htwo := awayState_retire
  rw [ht] at htwo
  have htwo : (t.scope 0 1).count = 2 := beq_iff_eq.mp htwo
  omega

end Sys2Proof.Machine
end

section
/-! SUPPORT. O47: a deadlock that is reported while a region-table swap moves the home of the event area's line (R50, R51, R396): the
record of the event has no place yet, and the event waits as it would for a page under darning. -/

namespace Sys2Proof.Machine

open Sys2Proof

/-- A promise that nothing will settle, and a task of context 0 whose one thread group waits for it. -/
def stuckTask : Task := { plainTask with handle := mkHandle 0 ⟨0, 0⟩ 1 1, st := .running, told := .parked }
def stuckTg : TG := { TG.zero ⟨⟨0, 0, 0⟩, 1⟩ with task := stuckTask.handle, status := .parked 1 (mkHandle 0 ⟨0, 0⟩ 2 1) }
def stuckPromise : Fut := { Fut.new (mkHandle 0 ⟨0, 0⟩ 2 1) 0 .running none none 0 with promise := true, waiters := [stuckTg.loc] }

/-- A valid region-table entry that pins the lowest 2 MiB to die 1 (R395). -/
def pinToDie1 : W64 := BitVec.ofNat 64 (2 ^ 63 + 21 * 2 ^ 57 + 1 * 2 ^ 18 + 2 ^ 17)

/-- Context 0 has been quiescent for 50 µs, the event area lies at address 0, on a page that is mapped, and a swap to a table with that
entry is under way: until it is complete the line has its old home. -/
def stuckState : State :=
  let s := State.reset.placeWord 16 0
  { s with
    tgs := [stuckTg]
    tasks := [stuckTask]
    futs := [stuckPromise]
    ctxs := [(0, { Ctx.zero with hbase := 0x8000, quietSince := some 0 })]
    ptp := 50000
    sup := { s.sup with rtBusy := true, active := [(0, pinToDie1)] } }

theorem stuckState_quiescent : stuckState.quiescent 0 = true := by decide +kernel

/-- The event's record stalls, so that the event is among the hardware writes that wait and not in the queue. -/
theorem stuckState_deadlock :
    stuckState.hwAddr supAsid true .store stuckState.sup.evBase 64 = .stall ∧
    goesWith (fun t => t.evq == [] && t.hwq.length == 1) (exec (.deadlock 0) stuckState) = true := by decide +kernel

/-- Refutes O47: its clause about DEADLOCK has the event in the queue unless hardware writes wait or a page is under darning. A line whose
home a table swap moves stalls the record as well (R396). -/
theorem not_saveAndQuiescenceStepResult : ¬ Obligations.SaveAndQuiescenceStepResult := by
  intro h
  obtain ⟨hdeadlock, -⟩ := h stuckState stuckState stuckState 0 0 stuckTask ⟨0, .slice 0, 0, 0, 0, false⟩ [] [] 0 0 []
  obtain ⟨r, hr, -, -, -, -, hevent⟩ := hdeadlock rfl rfl (by decide) stuckState_quiescent
  have hposted := hevent (by decide +kernel) (by decide +kernel) (by decide +kernel) (by decide +kernel)
  obtain ⟨-, hwaits⟩ := stuckState_deadlock
  rw [hr] at hwaits
  have hempty : r.evq = [] := by simpa using (Bool.and_eq_true_iff.mp hwaits).1
  rw [hempty] at hposted
  exact absurd hposted.symm (List.append_ne_nil_of_right_ne_nil _ (List.cons_ne_nil _ _))

end Sys2Proof.Machine
end

section
/-! SUPPORT. Futures and finish scopes: what a lookup finds after each small update of the tables, and what waking a list of thread groups
does (R47, R58, R84). -/

namespace Sys2Proof.Machine

open Sys2Proof

/-! ### Lists and tables -/

theorem find?_updFirst_map {α : Type} {p : α → Bool} {f : α → α} (l : List α) (hf : ∀ a, p a = true → p (f a) = true) :
    (updFirst p f l).find? p = (l.find? p).map f := by
  induction l with
  | nil => rfl
  | cons a l ih =>
    unfold updFirst
    by_cases ha : p a = true
    · rw [if_pos ha, List.find?_cons_of_pos (hf a ha), List.find?_cons_of_pos ha, Option.map_some]
    · rw [if_neg ha, List.find?_cons_of_neg ha, List.find?_cons_of_neg ha, ih]

/-- A change of elements that a test never takes does not show in what it finds. -/
theorem find?_updFirst_of_not {α : Type} {p q : α → Bool} {f : α → α} (l : List α)
    (hq : ∀ a, p a = true → q a = false ∧ q (f a) = false) : (updFirst p f l).find? q = l.find? q := by
  induction l with
  | nil => rfl
  | cons a l ih =>
    unfold updFirst
    by_cases ha : p a = true
    · obtain ⟨h1, h2⟩ := hq a ha
      rw [if_pos ha, List.find?_cons_of_neg (by simp [h2]), List.find?_cons_of_neg (by simp [h1])]
    · rw [if_neg ha, List.find?_cons, List.find?_cons, ih]

theorem map_updFirst_of_eq {α β : Type} {p : α → Bool} {f : α → α} {g : α → β} (l : List α) (hf : ∀ a, p a = true → g (f a) = g a) :
    (updFirst p f l).map g = l.map g := by
  induction l with
  | nil => rfl
  | cons a l ih =>
    unfold updFirst
    by_cases ha : p a = true
    · rw [if_pos ha, List.map_cons, List.map_cons, hf a ha]
    · rw [if_neg ha, List.map_cons, List.map_cons, ih]

theorem find?_filter_of_imp {α : Type} {p q : α → Bool} (l : List α) (h : ∀ a, q a = true → p a = true) :
    (l.filter p).find? q = l.find? q := by
  induction l with
  | nil => rfl
  | cons a l ih =>
    by_cases hq : q a = true
    · rw [List.filter_cons_of_pos (h a hq), List.find?_cons_of_pos hq, List.find?_cons_of_pos hq]
    · rw [List.find?_cons_of_neg hq, ← ih]
      by_cases hp : p a = true
      · rw [List.filter_cons_of_pos hp, List.find?_cons_of_neg hq]
      · rw [List.filter_cons_of_neg hp]

section
variable {κ α β : Type} [DecidableEq κ]

theorem kfind_kset_ne {k k' : κ} (h : k' ≠ k) (a : α) (m : KMap κ α) : kfind k' (kset k a m) = kfind k' m := by
  induction m with
  | nil => simp [kset, kfind, h.symm]
  | cons p m ih =>
    obtain ⟨j, b⟩ := p
    by_cases hj : j = k
    · subst hj
      simp [kset, kfind, h.symm]
    · simp [kset, kfind, hj, ih]

theorem kfind_map (g : κ → α → β) (k : κ) (m : KMap κ α) : kfind k (m.map fun p => (p.1, g p.1 p.2)) = (kfind k m).map (g k) := by
  induction m with
  | nil => rfl
  | cons p m ih =>
    obtain ⟨j, b⟩ := p
    by_cases hj : j = k
    · subst hj
      simp [kfind]
    · simp [kfind, hj, ih]

end

theorem lowest_eq_none {p : Nat → Bool} {k i : Nat} (h : ∀ j, i ≤ j → j < i + k → p j = false) : lowest p k i = none := by
  induction k generalizing i with
  | zero => rfl
  | succ k ih =>
    rw [lowest, if_neg (by simp [h i (le_refl i) (by omega)])]
    exact ih fun j h1 h2 => h j (by omega) (by omega)

theorem lowest_eq_some {p : Nat → Bool} {k i n : Nat} (hi : i ≤ n) (hn : n < i + k) (hp : p n = true)
    (h : ∀ j, i ≤ j → j < n → p j = false) : lowest p k i = some n := by
  induction k generalizing i with
  | zero => omega
  | succ k ih =>
    rw [lowest]
    by_cases he : i = n
    · rw [if_pos (he ▸ hp), he]
    · rw [if_neg (by simp [h i (le_refl i) (by omega)])]
      exact ih (by omega) (by omega) fun j h1 h2 => h j (by omega) h2

/-! ### Entries -/

theorem fut_modFut_other (s : State) {h k : W64} {f : Fut → Fut} (hk : k ≠ h) (hf : ∀ x : Fut, x.h = h → (f x).h = h) :
    (s.modFut h f).fut k = s.fut k := by
  refine find?_updFirst_of_not s.futs fun x hx => ?_
  have hxh : x.h = h := beq_iff_eq.mp hx
  exact ⟨by simp [hxh, hk.symm], by simp [hf x hxh, hk.symm]⟩

theorem task_modTask_other (s : State) {h k : W64} {f : Task → Task} (hk : k ≠ h) (hf : ∀ x : Task, x.handle = h → (f x).handle = h) :
    (s.modTask h f).task k = s.task k := by
  refine find?_updFirst_of_not s.tasks fun x hx => ?_
  have hxh : x.handle = h := beq_iff_eq.mp hx
  exact ⟨by simp [hxh, hk.symm], by simp [hf x hxh, hk.symm]⟩

/-! ### Contexts and their scopes (R84) -/

theorem ctx_modCtx_self (s : State) (a : Half) (f : Ctx → Ctx) : (s.modCtx a f).ctx a = f (s.ctx a) := by
  simp only [State.ctx, State.modCtx, kget, kfind_kset_self, Option.getD_some]

theorem ctx_modCtx_ne (s : State) {a b : Half} (h : b ≠ a) (f : Ctx → Ctx) : (s.modCtx a f).ctx b = s.ctx b := by
  simp only [State.ctx, State.modCtx, kget, kfind_kset_ne h]

/-- Contexts are looked up in their table alone. -/
theorem ctx_of_ctxs_eq {s t : State} (a : Half) (h : t.ctxs = s.ctxs) : t.ctx a = s.ctx a := by
  unfold State.ctx
  rw [h]

theorem scope_of_ctxs_eq {s t : State} (a : Half) (i : Nat) (h : t.ctxs = s.ctxs) : t.scope a i = s.scope a i := by
  unfold State.scope
  rw [ctx_of_ctxs_eq a h]

/-- A change of a context that leaves its scopes leaves every scope. -/
theorem scope_modCtx (s : State) (a b : Half) (i : Nat) {f : Ctx → Ctx} (hf : (f (s.ctx a)).scopes = (s.ctx a).scopes) :
    (s.modCtx a f).scope b i = s.scope b i := by
  unfold State.scope
  by_cases hb : b = a
  · subst hb
    rw [ctx_modCtx_self]
    unfold Ctx.scope
    rw [hf]
  · rw [ctx_modCtx_ne s hb]

theorem scope_modScope_self (s : State) (a : Half) (i : Nat) (f : Scope1 → Scope1) : (s.modScope a i f).scope a i = f (s.scope a i) := by
  unfold State.modScope State.scope
  rw [ctx_modCtx_self]
  simp only [Ctx.scope, kget, kfind_kset_self, Option.getD_some]

theorem scope_modScope_ne (s : State) {a b : Half} {i j : Nat} (h : b ≠ a ∨ j ≠ i) (f : Scope1 → Scope1) :
    (s.modScope a i f).scope b j = s.scope b j := by
  unfold State.modScope State.scope
  by_cases hb : b = a
  · subst hb
    have hj : j ≠ i := h.resolve_left (not_not_intro rfl)
    rw [ctx_modCtx_self]
    simp only [Ctx.scope, kget, kfind_kset_ne hj]
  · rw [ctx_modCtx_ne s hb]

/-- A DONE scope that has nothing left is FREE again, and no other scope changes. -/
theorem scope_reapScopes (s : State) (a b : Half) (i : Nat) :
    (s.reapScopes a).scope b i = s.scope b i ∨ (s.reapScopes a).scope b i = ⟨.free, none, 0, []⟩ := by
  unfold State.reapScopes
  extract_lets over_
  split
  · unfold State.scope
    by_cases hb : b = a
    · subst hb
      rw [ctx_modCtx_self]
      have hmap : (fun p : Nat × Scope1 => if over_ p then (p.1, (⟨.free, none, 0, []⟩ : Scope1)) else p) =
          fun p => (p.1, if over_ (p.1, p.2) then ⟨.free, none, 0, []⟩ else p.2) := by
        funext p
        split <;> rfl
      unfold Ctx.scope kget
      rw [hmap, kfind_map fun k v => if over_ (k, v) then (⟨.free, none, 0, []⟩ : Scope1) else v]
      cases kfind i (s.ctx b).scopes with
      | none => exact .inl rfl
      | some v =>
        simp only [Option.map_some, Option.getD_some]
        split
        · exact .inr rfl
        · exact .inl rfl
    · rw [ctx_modCtx_ne s hb]
      exact .inl rfl
  · exact .inl rfl

/-! ### Thread groups that a settling party wakes (R47, R68) -/

/-- The wake that a party records at a thread group; one recorded before stands. -/
def TG.hear (w : Wake) (g : TG) : TG := { g with wake := g.wake.or (some w) }

/-- Thread groups hear of a wake, one after another: what `conclude`, `wakeScope` and `wakeWatches` do with their lists. -/
def State.wakeAll (ws : List TgRef) (w : Wake) (s : State) : State := ws.foldl (fun s t => s.modTg t (TG.hear w)) s

theorem modTg_frame (s : State) (l : TgRef) (f : TG → TG) : { s.modTg l f with me := s.me, tgs := s.tgs } = s := by
  unfold State.modTg
  split <;> rfl

/-- Waking changes thread groups alone. -/
theorem wakeAll_frame (ws : List TgRef) (w : Wake) (s : State) : { s.wakeAll ws w with me := s.me, tgs := s.tgs } = s := by
  refine foldl_keeps (P := fun t : State => { t with me := s.me, tgs := s.tgs } = s) rfl fun t l h => ?_
  exact (congrArg (fun x : State => { x with me := s.me, tgs := s.tgs }) (modTg_frame t l (TG.hear w))).trans h

theorem wakeAll_me {ws : List TgRef} {w : Wake} {s : State} (h : s.me.loc ∉ ws) : (s.wakeAll ws w).me = s.me := by
  induction ws generalizing s with
  | nil => rfl
  | cons l ws ih =>
    obtain ⟨hl, hws⟩ : s.me.loc ≠ l ∧ s.me.loc ∉ ws := by simpa using h
    have hme : (s.modTg l (TG.hear w)).me = s.me := by rw [State.modTg, if_neg hl]
    exact (ih (by rw [hme]; exact hws)).trans hme

/-- A thread group out of focus after a change of one in any place. -/
theorem tgAt_modTg_map (s : State) {l m : TgRef} {f : TG → TG} (hm : s.me.loc ≠ m) (hf : ∀ g, (f g).loc = g.loc) :
    (s.modTg l f).tgAt m = if l = m then (s.tgAt m).map f else s.tgAt m := by
  rw [tgAt_of_me_ne hm]
  unfold State.modTg
  by_cases hl : s.me.loc = l
  · rw [if_pos hl, if_neg (by rw [← hl]; exact hm), tgAt_of_me_ne (by simpa [hf] using hm)]
  · rw [if_neg hl, tgAt_of_me_ne (by exact hm)]
    by_cases he : l = m
    · subst he
      rw [if_pos rfl]
      exact find?_updFirst_map s.tgs fun g hg => by simpa [hf] using hg
    · rw [if_neg he]
      refine find?_updFirst_of_not s.tgs fun g hg => ?_
      have hgl : g.loc = l := beq_iff_eq.mp hg
      exact ⟨by simp [hgl, he], by simp [hf, hgl, he]⟩

theorem modTg_me_loc (s : State) (l : TgRef) {f : TG → TG} (hf : ∀ g, (f g).loc = g.loc) : (s.modTg l f).me.loc = s.me.loc := by
  unfold State.modTg
  split
  · exact hf s.me
  · rfl

theorem hear_hear (w : Wake) (g : TG) : TG.hear w (TG.hear w g) = TG.hear w g := by
  cases hw : g.wake <;> simp [TG.hear, hw]

/-- A thread group out of focus after waking a list: it hears once. -/
theorem tgAt_wakeAll (ws : List TgRef) (w : Wake) {s : State} {m : TgRef} (hm : s.me.loc ≠ m) :
    (s.wakeAll ws w).tgAt m = if m ∈ ws then (s.tgAt m).map (TG.hear w) else s.tgAt m := by
  induction ws generalizing s with
  | nil => simp [State.wakeAll]
  | cons l ws ih =>
    have hloc : (s.modTg l (TG.hear w)).me.loc ≠ m := by rw [modTg_me_loc s l (f := TG.hear w) fun _ => rfl]; exact hm
    have hstep : (s.wakeAll (l :: ws) w).tgAt m = ((s.modTg l (TG.hear w)).wakeAll ws w).tgAt m := rfl
    rw [hstep, ih hloc, tgAt_modTg_map s hm (f := TG.hear w) fun _ => rfl]
    by_cases hin : m ∈ ws
    · by_cases hl : l = m <;> simp [hin, hl, Function.comp_def, hear_hear]
    · by_cases hl : l = m
      · subst hl
        simp [hin]
      · simp [hin, hl, Ne.symm hl]

end Sys2Proof.Machine
end

section
/-! SUPPORT. Futures: what a settlement changes and what it leaves (R62, R64, R68, R69), and one action applied at a future's entry
(R60, R63, R65, R82). -/

namespace Sys2Proof.Machine

open Sys2Proof

/-! ### What a settlement may change -/

/-- t with what settlements and scope updates may change as it is in s. -/
def State.unsettled (s t : State) : State :=
  { t with me := s.me, tgs := s.tgs, tasks := s.tasks, futs := s.futs, ctxs := s.ctxs, pkts := s.pkts, farOut := s.farOut, seq := s.seq }

/-- t is s but for thread groups, tasks, futures, contexts, the outcomes of packets, what leaves for other devices, and the sequence
number: storage, requests and messages are as they were. -/
structure State.Settles (s t : State) : Prop where
  eq : s.unsettled t = s

theorem State.Settles.refl (s : State) : s.Settles s := ⟨rfl⟩
theorem State.Settles.trans {s t u : State} (h : s.Settles t) (k : t.Settles u) : s.Settles u :=
  ⟨(congrArg s.unsettled k.eq).trans h.eq⟩

theorem State.Settles.mem {s t : State} (h : s.Settles t) : t.mem = s.mem := (congrArg (fun x : State => x.mem) h.eq :)
theorem State.Settles.reqs {s t : State} (h : s.Settles t) : t.reqs = s.reqs := (congrArg (fun x : State => x.reqs) h.eq :)
theorem State.Settles.scopeMsgs {s t : State} (h : s.Settles t) : t.scopeMsgs = s.scopeMsgs := (congrArg (fun x : State => x.scopeMsgs) h.eq :)

theorem foldl_settles {α : Type} {f : State → α → State} (hf : ∀ (s : State) x, s.Settles (f s x)) (l : List α) (s : State) :
    s.Settles (l.foldl f s) := by
  induction l generalizing s with
  | nil => exact .refl s
  | cons x l ih => exact (hf s x).trans (ih _)

theorem modTg_settles (s : State) (l : TgRef) (f : TG → TG) : s.Settles (s.modTg l f) := by
  unfold State.modTg
  split <;> exact ⟨rfl⟩
theorem modFut_settles (s : State) (h : W64) (f : Fut → Fut) : s.Settles (s.modFut h f) := ⟨rfl⟩
theorem modScope_settles (s : State) (a : Half) (i : Nat) (f : Scope1 → Scope1) : s.Settles (s.modScope a i f) := ⟨rfl⟩
theorem wakeAll_settles (ws : List TgRef) (w : Wake) (s : State) : s.Settles (s.wakeAll ws w) := foldl_settles (fun s l => modTg_settles s l _) ws s

/-! ### Freeing an entry (R69, R87) -/

theorem reapScopes_frame (s : State) (a : Half) : { s.reapScopes a with ctxs := s.ctxs } = s :=
  ite_keeps (P := fun t : State => { t with ctxs := s.ctxs } = s) rfl rfl

theorem reapScopes_settles (s : State) (a : Half) : s.Settles (s.reapScopes a) := ⟨(congrArg s.unsettled (reapScopes_frame s a) :)⟩

/-- Freeing changes futures and contexts alone. -/
theorem freeFut_frame (s : State) (h : W64) : { s.freeFut h with futs := s.futs, ctxs := s.ctxs } = s := by
  unfold State.freeFut
  split
  · rfl
  · extract_lets s1 s2
    have h2 : { s2 with futs := s.futs, ctxs := s.ctxs } = s := by
      unfold s2
      split <;> rfl
    exact (congrArg (fun x : State => { x with futs := s.futs, ctxs := s.ctxs }) (reapScopes_frame s2 _) :).trans h2

theorem freeFut_settles (s : State) (h : W64) : s.Settles (s.freeFut h) := ⟨(congrArg s.unsettled (freeFut_frame s h) :)⟩
theorem freeFut_me (s : State) (h : W64) : (s.freeFut h).me = s.me :=
  (congrArg (fun x : State => x.me) (freeFut_frame s h) :)
theorem freeFut_tgs (s : State) (h : W64) : (s.freeFut h).tgs = s.tgs :=
  (congrArg (fun x : State => x.tgs) (freeFut_frame s h) :)
theorem freeFut_tasks (s : State) (h : W64) : (s.freeFut h).tasks = s.tasks :=
  (congrArg (fun x : State => x.tasks) (freeFut_frame s h) :)

/-- The entry goes, with every record of its handle. -/
theorem freeFut_futs (s : State) (h : W64) : (s.freeFut h).futs = s.futs.filter fun x => x.h != h := by
  unfold State.freeFut
  cases hf : s.fut h with
  | none =>
    refine (List.filter_eq_self.mpr fun x hx => ?_).symm
    exact bne_iff_ne.mpr fun he => List.find?_eq_none.mp hf x hx (beq_iff_eq.mpr he)
  | some f =>
    dsimp only
    have hreap := congrArg (fun x : State => x.futs) (reapScopes_frame
      (match f.spilled with
        | some r => ({ s with futs := s.futs.filter fun x => x.h != h } : State).modCtx f.asid
            fun c => { c with usedRecs := c.usedRecs.filter (· != r) }
        | none => { s with futs := s.futs.filter fun x => x.h != h }) f.asid)
    refine hreap.trans ?_
    cases f.spilled <;> rfl

theorem fut_freeFut_self (s : State) (h : W64) : (s.freeFut h).fut h = none := by
  unfold State.fut
  rw [freeFut_futs]
  exact List.find?_eq_none.mpr fun x hx => by simpa using (List.mem_filter.mp hx).2

theorem fut_freeFut_other (s : State) {h k : W64} (hk : k ≠ h) : (s.freeFut h).fut k = s.fut k := by
  unfold State.fut
  rw [freeFut_futs]
  exact find?_filter_of_imp s.futs fun x hx => by simpa [beq_iff_eq.mp hx] using hk

/-! ### A pre-emption that the settlement ends (R405, R449) -/

/-- The wake of a CSAVE that waits for a task's save, when the task's future settles. -/
def TG.savedAs (h : W64) (st : FSt) (g : TG) : TG := if g.saver h then g.hear (.code (BitVec.ofNat 64 st.code)) else g

theorem savedAs_loc (h : W64) (st : FSt) (g : TG) : (g.savedAs h st).loc = g.loc := by
  unfold TG.savedAs
  split <;> rfl

theorem savedAs_wake (h : W64) (st : FSt) {g : TG} {w : Wake} (hw : g.wake = some w) : (g.savedAs h st).wake = some w := by
  unfold TG.savedAs
  split
  · simp [TG.hear, hw]
  · exact hw

/-- A thread group that is not parked waits in no CSAVE. -/
theorem savedAs_of_not_parked {h : W64} {st : FSt} {g : TG} (hp : ∀ k o, g.status ≠ .parked k o) : g.savedAs h st = g := by
  have hs : g.saver h = false := by
    unfold TG.saver
    split
    · rename_i hst _
      exact absurd hst (hp _ _)
    · rfl
  simp [TG.savedAs, hs]

/-- Without a task of the handle, the savers alone hear of the settlement. -/
theorem endSave_of_none {s : State} {h : W64} (st : FSt) (ht : s.task h = none) :
    s.endSave h st = { s with me := s.me.savedAs h st, tgs := s.tgs.map (TG.savedAs h st) } := by
  unfold State.endSave
  rw [ht]
  rfl

theorem endSave_settles (s : State) (h : W64) (st : FSt) : s.Settles (s.endSave h st) := by
  unfold State.endSave
  split <;> exact ⟨rfl⟩

/-- The task's pre-emption request is withdrawn, and nothing else of it changes. -/
theorem task_endSave {s : State} {h : W64} {k : Task} (st : FSt) (ht : s.task h = some k) :
    (s.endSave h st).task h = some { k with preempt := none } := by
  unfold State.endSave
  extract_lets s1 wake
  have h1 : s1.task h = some { k with preempt := none } := by
    unfold s1
    rw [ht, Option.bind_some]
    cases hp : k.preempt with
    | none =>
      have hk : { k with preempt := none } = k := by rw [← hp]
      rw [hk]
      exact ht
    | some p => exact task_modTask (s := s.modTask_tgs h TG.release) ht rfl
  exact h1

/-- A thread group of another task, that is not parked, hears nothing. -/
theorem endSave_me {s : State} {h : W64} (st : FSt) (hp : ∀ k o, s.me.status ≠ .parked k o) (ht : s.me.task ≠ h) :
    (s.endSave h st).me = s.me := by
  unfold State.endSave
  extract_lets s1 wake
  have h1 : s1.me = s.me := by
    unfold s1 State.modTask_tgs
    split
    · exact if_neg fun hc => ht hc.1
    · rfl
  have hw : wake s1.me = s1.me.savedAs h st := rfl
  exact hw.trans ((savedAs_of_not_parked (by rw [h1]; exact hp)).trans h1)

/-! ### The terminal state (R62, R68) -/

/-- The future with the terminal state that it takes. Its waiters are gone. -/
def Fut.ended (f : Fut) (e : Ending) (at_ : Nat) : Fut :=
  { f with st := e.st, value := e.value, poison := e.poison, code := e.code, addr := e.addr, waiters := [], far := [], ending := none,
           settledAt := at_ }

/-- The entry takes its terminal state and tells its waiters: `conclude` but for the end of a detached future. -/
def State.enters (s : State) (f : Fut) (e : Ending) : State :=
  let f' := f.ended e s.seq
  let t := (s.bump.modFut f.h fun _ => f').wakeAll f.waiters f'.outcome
  let u : State := { t with
    pkts := t.pkts.map (fun (k : Pkt) => if k.fut = f.h then { k with outcome := k.outcome.or (some f'.outcome) } else k)
    farOut := t.farOut ++ f.far.map (fun w => (w, f'.outcome)) }
  u.endSave f.h e.st

theorem conclude_eq (s : State) (f : Fut) (e : Ending) :
    s.conclude f e = if f.detached then (s.enters f e).freeFut f.h else s.enters f e := rfl

section
variable {s : State} {f : Fut} {e : Ending}

theorem enters_settles : s.Settles (s.enters f e) := by
  unfold State.enters
  extract_lets f' t u
  have hmod : s.Settles (s.bump.modFut f.h fun _ => f') := ⟨rfl⟩
  have ht : s.Settles t := hmod.trans (wakeAll_settles ..)
  have hu : s.Settles u := ht.trans ⟨rfl⟩
  clear_value u
  exact hu.trans (endSave_settles ..)

/-- Only the entry's own record changes among the futures. -/
theorem enters_futs : (s.enters f e).futs = updFirst (fun x => x.h == f.h) (fun _ => f.ended e s.seq) s.futs := by
  unfold State.enters
  extract_lets f' t u
  have hw := congrArg (fun x : State => x.futs) (wakeAll_frame f.waiters f'.outcome (s.bump.modFut f.h fun _ => f'))
  unfold State.endSave
  split <;> exact hw

theorem fut_enters_self (hf : s.fut f.h = some f) : (s.enters f e).fut f.h = some (f.ended e s.seq) := by
  have hmod : (s.modFut f.h fun _ => f.ended e s.seq).fut f.h = some (f.ended e s.seq) := fut_modFut hf rfl
  exact (fut_of_futs_eq f.h enters_futs).trans hmod

theorem fut_enters_other {h : W64} (hh : h ≠ f.h) : (s.enters f e).fut h = s.fut h :=
  (fut_of_futs_eq (s := s.modFut f.h fun _ => f.ended e s.seq) h enters_futs).trans (fut_modFut_other s hh fun _ _ => rfl)

theorem enters_tasks_of_none (ht : s.task f.h = none) : (s.enters f e).tasks = s.tasks := by
  unfold State.enters
  extract_lets f' t u
  have htasks : t.tasks = s.tasks := (congrArg (fun x : State => x.tasks) (wakeAll_frame f.waiters f'.outcome (s.bump.modFut f.h fun _ => f')) :)
  rw [endSave_of_none]
  · exact htasks
  · exact (task_of_tasks_eq f.h (by exact htasks)).trans ht

theorem task_enters {k : Task} (ht : s.task f.h = some k) : (s.enters f e).task f.h = some { k with preempt := none } := by
  unfold State.enters
  extract_lets f' t u
  have htasks : t.tasks = s.tasks := (congrArg (fun x : State => x.tasks) (wakeAll_frame f.waiters f'.outcome (s.bump.modFut f.h fun _ => f')) :)
  exact task_endSave e.st ((task_of_tasks_eq f.h (by exact htasks)).trans ht)

/-- A thread group that does not wait for the future, and belongs to another task, is not touched. -/
theorem enters_me (hp : ∀ k o, s.me.status ≠ .parked k o) (hw : s.me.loc ∉ f.waiters) (ht : s.me.task ≠ f.h ∨ s.task f.h = none) :
    (s.enters f e).me = s.me := by
  unfold State.enters
  extract_lets f' t u
  have hme : u.me = s.me := wakeAll_me (ws := f.waiters) (by exact hw)
  have htasks : u.tasks = s.tasks :=
    (congrArg (fun x : State => x.tasks) (wakeAll_frame f.waiters f'.outcome (s.bump.modFut f.h fun _ => f')) :)
  clear_value u
  rcases ht with ht | ht
  · exact (endSave_me e.st (by rw [hme]; exact hp) (by rw [hme]; exact ht)).trans hme
  · rw [endSave_of_none _ ((task_of_tasks_eq f.h htasks).trans ht)]
    exact (savedAs_of_not_parked (by rw [hme]; exact hp)).trans hme

/-- A waiter that had no wake is woken with the outcome. -/
theorem enters_wakes (hme : s.me.loc ∉ f.waiters) (ht : s.task f.h = none) {w : TgRef} (hw : w ∈ f.waiters) {x : TG}
    (hfree : ∀ y, s.tgAt w = some y → y.wake = none) (hx : (s.enters f e).tgAt w = some x) : x.wake = some (f.ended e s.seq).outcome := by
  have hne : s.me.loc ≠ w := fun h => hme (h ▸ hw)
  have hmeEq : ((s.bump.modFut f.h fun _ => f.ended e s.seq).wakeAll f.waiters (f.ended e s.seq).outcome).me = s.me := wakeAll_me (by exact hme)
  have htasks := congrArg (fun x : State => x.tasks)
    (wakeAll_frame f.waiters (f.ended e s.seq).outcome (s.bump.modFut f.h fun _ => f.ended e s.seq))
  have hat : ((s.bump.modFut f.h fun _ => f.ended e s.seq).wakeAll f.waiters (f.ended e s.seq).outcome).tgAt w =
      (s.tgAt w).map (TG.hear (f.ended e s.seq).outcome) := by
    rw [tgAt_wakeAll _ _ (by exact hne), if_pos hw]
    rfl
  unfold State.enters at hx
  dsimp only at hx
  rw [endSave_of_none _ ((task_of_tasks_eq f.h (by exact htasks)).trans ht), tgAt_of_me_ne (by simpa [savedAs_loc, hmeEq] using hne)] at hx
  rw [tgAt_of_me_ne (by rw [hmeEq]; exact hne)] at hat
  rw [List.find?_map] at hx
  obtain ⟨y, hy, rfl⟩ := Option.map_eq_some_iff.mp hx
  have hloc : ((fun g : TG => g.loc == w) ∘ TG.savedAs f.h e.st) = fun g => g.loc == w := funext fun g => by simp [savedAs_loc]
  rw [hloc, hat] at hy
  obtain ⟨z, hz, rfl⟩ := Option.map_eq_some_iff.mp hy
  exact savedAs_wake f.h e.st (by simp [TG.hear, hfree z hz])

end

/-! ### Actions at an entry (R60, R63, R82) -/

/-- The entry takes an action at once: the future is in a table of the device, resident, and its entry holds no action. -/
structure State.TakesActs (s : State) (f : Fut) : Prop where
  fut : s.fut f.h = some f
  resident : f.spilled = none
  unheld : f.ending = none
  kind : hKind f.h = 1
  device : hDevice f.h = s.devid
  table : PartMode.hasCluster s.mode (hTable f.h) = true

/-- The terminal state that an action settles a future with, if it settles one (R65). -/
def endingOf (op : FutOp) (v : W64) (vp : Bool) : Option Ending :=
  match op with
  | .resolve => some ⟨.resolved, v, vp, 0, 0⟩
  | .ffault => some ⟨.faulted, 0, false, kEXPLICIT, v⟩
  | .cancel => some ⟨.cancelled, 0, false, 0, 0⟩
  | _ => none

theorem settle_live {s : State} {f : Fut} {st : FSt} {v addr : W64} {p : Bool} {code : Half} (hf : s.fut f.h = some f)
    (hlive : f.st.terminal = false) : s.settle f.h st v p code addr = s.conclude f ⟨st, v, p, code, addr⟩ := by
  rw [State.settle, hf]
  exact if_neg (by simp [hlive])

section
variable {s : State} {f : Fut} (h : s.TakesActs f) (c : ClId) (dev : Option Nat) (t : TgRef) (v : W64) (vp : Bool) (eff : Fin 4)
include h

theorem State.TakesActs.stale : s.stale f.h = none := by simp [State.stale, h.kind, h.device, h.table, h.fut]

theorem State.TakesActs.refill : s.refillFut f.h = s := refillFut_resident h.fut h.resident

theorem act_poll : s.act c dev t .poll f.h v vp eff = some (s, .code (BitVec.ofNat 64 f.st.code)) := by
  simp [State.act, h.kind, h.device, h.stale, h.refill, h.fut, h.resident, h.unheld]

theorem act_touch {op : FutOp} (hop : op = .touch ∨ op = .touchc) : s.act c dev t op f.h v vp eff =
    if f.st.terminal then some (s, f.outcome) else some ((s.addWaiter f dev t).raise c f.h eff, .go) := by
  rcases hop with rfl | rfl <;> simp [State.act, h.kind, h.device, h.stale, h.refill, h.fut, h.resident, h.unheld]

/-- RESOLVE, FFAULT and CANCEL settle a future that is not terminal, and report the state it had. -/
theorem act_settling {op : FutOp} {e : Ending} (hop : endingOf op v vp = some e) : s.act c dev t op f.h v vp eff =
    some (if f.st.terminal then s else (s.conclude f e).dropTask f.h, .code (BitVec.ofNat 64 f.st.code)) := by
  have hsettle : ∀ st v p code addr, (if f.st.terminal then s else (s.settle f.h st v p code addr).dropTask f.h) =
      if f.st.terminal then s else (s.conclude f ⟨st, v, p, code, addr⟩).dropTask f.h := fun st v p code addr => by
    by_cases hterm : f.st.terminal = true
    · rw [if_pos hterm, if_pos hterm]
    · rw [if_neg hterm, if_neg hterm, settle_live h.fut (by simpa using hterm)]
  unfold endingOf at hop
  split at hop <;> cases hop
  all_goals simp [State.act, h.kind, h.device, h.stale, h.refill, h.fut, h.resident, h.unheld, hsettle]

theorem act_release : s.act c dev t .release f.h v vp eff =
    some (if f.st.terminal then s.freeFut f.h else s.modFut f.h (fun x => { x with detached := true }), .go) := by
  simp [State.act, h.kind, h.device, h.stale, h.refill, h.fut, h.resident, h.unheld]

end

section
variable (s : State) {h : W64} (c : ClId) (dev : Option Nat) (t : TgRef) (op : FutOp) (v : W64) (vp : Bool) (eff : Fin 4)

theorem act_wrongKind (hk : hKind h ≠ 1) : s.act c dev t op h v vp eff = some (s, .stale 1) := by
  simp [State.act, hk]

theorem act_noTable (hk : hKind h = 1) (hd : hDevice h = s.devid) (hc : PartMode.hasCluster s.mode (hTable h) = false) :
    s.act c dev t op h v vp eff = some (s, .stale 2) := by
  simp [State.act, State.stale, hk, hd, hc]

theorem act_noFuture (hk : hKind h = 1) (hd : hDevice h = s.devid) (hc : PartMode.hasCluster s.mode (hTable h) = true)
    (hf : s.fut h = none) : s.act c dev t op h v vp eff = some (s, .stale 3) := by
  simp [State.act, State.stale, hk, hd, hc, hf]

end

/-! ### The issuer's side (R66, R287) -/

/-- With no store on its core and no write in flight, a thread group has nothing to release (R64, R103). -/
theorem fenceReady_of_clear {s : State} (hf : (s.core s.me.loc.core).fifo = []) (hw : s.wrs = []) (sc : Scope) (mark : Nat) :
    s.fenceReady sc mark = true := by
  cases sc <;> simp [State.fenceReady, State.bufferClear, State.logClear, State.visible, hf, hw]

theorem afterFence_of_clear {s : State} (hf : (s.core s.me.loc.core).fifo = []) (hw : s.wrs = []) (sc : Scope) (k : State → State) :
    s.afterFence sc k = k s := if_pos (fenceReady_of_clear hf hw sc _)

theorem State.Calm.afterFence {s : State} (h : s.Calm) (sc : Scope) (k : State → State) : s.afterFence sc k = k s :=
  afterFence_of_clear h.1 h.2.1 sc k

/-- The table of the thread group's own cluster is judged where the action issues. -/
theorem local_of_cluster {s : State} {h : W64} (hd : hDevice h = s.devid) (hc : hTable h = s.me.loc.core.cluster) : s.local_ h = true := by
  simp [State.local_, hd, hc]

section
variable {s t : State} {op : FutOp} {v : W64} {vp : Bool} {w : Wake}

/-- An action that is judged where it issues, and that its entry takes, ends with its reply. -/
theorem doAct_here {h : W64} {rel : Bool} {fin : State → Wake → State} (hreq : s.me.phase.req = none) (hl : s.local_ h = true)
    (hrel : rel = true → s.Calm) (hact : s.act s.me.loc.core.cluster none s.me.loc op h v vp s.myEff = some (t, w)) :
    s.doAct op h v vp rel fin = fin t w := by
  unfold State.doAct
  rw [hreq]
  cases rel with
  | false => simp [hl, hact]
  | true => simp [(hrel rfl).afterFence, hl, hact]

theorem stateAct_here {d a : UReg} {rel : Bool} (ha : s.me.sp.getLsbD a.val = false) (hreq : s.me.phase.req = none)
    (hl : s.local_ s.me.s[a] = true) (hrel : rel = true → s.Calm)
    (hact : s.act s.me.loc.core.cluster none s.me.loc op s.me.s[a] v vp s.myEff = some (t, w)) :
    s.stateAct op d a v vp false rel = State.codeReply d s.me.s[a] t w := by
  unfold State.stateAct
  rw [TG.spoison, ha]
  exact doAct_here hreq hl hrel hact

/-- A wait for a future of the own cluster, at its first issue: with an outcome it ends, and otherwise the thread group parks. -/
theorem touchWith_here {a : UReg} {fin : State → Wake → State} (ha : s.me.sp.getLsbD a.val = false) (hwake : s.me.wake = none)
    (hreq : s.me.phase.req = none) (hl : s.local_ s.me.s[a] = true)
    (hact : s.act s.me.loc.core.cluster none s.me.loc op s.me.s[a] 0 false s.myEff = some (t, w)) :
    s.touchWith a op fin = if w = .go then
      (if t.me.k10 then (t.leaveWait s.me.s[a]).advance else (t.modMe fun g => { g with phase := .start }).park 1 s.me.s[a]) else fin t w := by
  unfold State.touchWith TG.spoison TG.sget
  rw [hwake, hreq]
  simp only [ha, hl, hact]
  cases w <;> simp

end

end Sys2Proof.Machine
end

section
/-! SUPPORT. O28, O29: reading a future, and a handle that is not valid (R60, R63, R67, R82). -/

namespace Sys2Proof.Machine

open Sys2Proof

/-! ### O28 -/

section
variable {s : State} {f : Fut} (h : s.TakesActs f) {a : UReg} (ha : s.me.sp.getLsbD a.val = false) (hs : s.me.s[a] = f.h)
  (hl : s.local_ f.h = true) (hreq : s.me.phase.req = none)
include h ha hs hl hreq

theorem poll_reports (d : UReg) : s.stateAct .poll d a 0 false false false =
    s.ends fun t => t.setS d (BitVec.ofNat 64 f.st.code) false := by
  rw [stateAct_here ha hreq (by rw [hs]; exact hl) (fun e => by cases e) (by rw [hs]; exact act_poll h ..)]
  rfl

variable (hwake : s.me.wake = none)
include hwake

/-- TOUCH and TOUCHC of a settled future end with its outcome. -/
theorem touch_settled {op : FutOp} (hop : op = .touch ∨ op = .touchc) (hterm : f.st.terminal = true) (fin : State → Wake → State) :
    s.touchWith a op fin = fin s f.outcome := by
  have hact := (act_touch h s.me.loc.core.cluster none s.me.loc 0 false s.myEff hop).trans (if_pos hterm)
  rw [touchWith_here ha hwake hreq (by rw [hs]; exact hl) (by rw [hs]; exact hact), if_neg]
  unfold Fut.outcome
  cases hst : f.st <;> simp [FSt.terminal, hst] at hterm ⊢

/-- TOUCH and TOUCHC of a promise that is not settled park, with a record at the entry. -/
theorem touch_pending {op : FutOp} (hop : op = .touch ∨ op = .touchc) (hlive : f.st.terminal = false) (ht : s.task f.h = none)
    (hk : s.me.k10 = false) (hroom : f.waiters.length + f.far.length < 4) (hw : s.me.loc ∉ f.waiters) (fin : State → Wake → State) :
    s.touchWith a op fin = ((s.modFut f.h fun x => { x with waiters := x.waiters ++ [s.me.loc] }).modMe
      fun g => { g with phase := .start }).park 1 f.h := by
  have hadd : s.addWaiter f none s.me.loc = s.modFut f.h fun x => { x with waiters := x.waiters ++ [s.me.loc] } := by
    simp [State.addWaiter, State.chainRoom, hw, hroom]
  have hraise : (s.addWaiter f none s.me.loc).raise s.me.loc.core.cluster f.h s.myEff = s.addWaiter f none s.me.loc := by
    rw [hadd]
    unfold State.raise
    rw [show (s.modFut f.h _).task f.h = s.task f.h from rfl, ht]
  have hact := (act_touch h s.me.loc.core.cluster none s.me.loc 0 false s.myEff hop).trans (if_neg (by simp [hlive]))
  rw [hraise, hadd] at hact
  rw [touchWith_here ha hwake hreq (by rw [hs]; exact hl) (by rw [hs]; exact hact), if_pos rfl, hs, if_neg (by simpa using hk)]

end

/-- Settles O28: POLL answers with the state's code; TOUCH and TOUCHC end with the outcome of a settled future, and park at one that is
not, where the entry records them. -/
theorem futureReadResult : Obligations.FutureReadResult := by
  intro s g d a k cd ca f hg hphase hwake c32 ha hs hf hres hend hkind hdev htab hclus
  have h : s.TakesActs f := ⟨hf, hres, hend, hkind, hdev, hclus⟩
  have hl : s.local_ f.h = true := local_of_cluster hdev htab
  have hreq : s.me.phase.req = none := by rw [hphase]; rfl
  have htouch : ∀ d, exec (.touch g d a) s = .next (s.touchWith a .touch (State.touched d f.h)) := fun d => by
    rw [exec_touch, execTouch, withK_open s g _ hg, TG.sget, hs]
  have hctouch : c32 ca = a → exec (.cTouch cd ca) s = .next (s.touchWith a .touch (State.touched (c32 cd) f.h)) := by
    rintro rfl
    rw [← hs]
    rfl
  have htouchc : exec (.touchc g d a k) s = .next (s.touchWith a .touchc (State.touchedC d k f.h)) := by
    rw [exec_touchc, execTouchc, withK_open s g _ hg, TG.sget, hs]
  have hdone : f.st.terminal = true → exec (.touchc g d a k) s = .next (State.touchedC d k f.h s f.outcome) := fun hterm => by
    rw [htouchc, touch_settled h ha hs hl hreq hwake (.inr rfl) hterm]
  refine ⟨?poll, ?touch, ?value, ?cancelled, ?faulted, ?pending⟩
  case poll =>
    intro c hc hst
    have hexec : exec (.poll g d a) s = .next (s.stateAct .poll d a 0 false false false) := by simp [execPoll, withK_open s g _ hg]
    have hcode : c.1.code = c.2 := by fin_cases hc <;> rfl
    rw [hexec, poll_reports h ha hs hl hreq, hst, hcode]
  case touch =>
    intro i hi hown
    have hexec : exec i.1 s = .next (s.touchWith a .touch (State.touched i.2 f.h)) := by
      simp only [List.mem_cons, List.not_mem_nil, or_false] at hi
      rcases hi with rfl | rfl
      · exact htouch d
      · exact hctouch (hown.resolve_left (by simp))
    have hend : f.st.terminal = true → exec i.1 s = .next (State.touched i.2 f.h s f.outcome) := fun hterm => by
      rw [hexec, touch_settled h ha hs hl hreq hwake (.inl rfl) hterm]
    refine ⟨fun hst => ?_, fun hst => ?_, fun hst => ?_⟩ <;> rw [hend (by rw [hst]; rfl), Fut.outcome, hst] <;> rfl
  case value => exact fun hst => by rw [hdone (by rw [hst]; rfl), Fut.outcome, hst]; rfl
  case cancelled => exact fun hst => by rw [hdone (by rw [hst]; rfl), Fut.outcome, hst]; rfl
  case faulted => exact fun hst => by rw [hdone (by rw [hst]; rfl), Fut.outcome, hst]; rfl
  case pending =>
    intro hlive ht hk hroom hw i hi
    have hparks : exec i s = .next (((s.modFut f.h fun x => { x with waiters := x.waiters ++ [s.me.loc] }).modMe
        fun g => { g with phase := .start }).park 1 f.h) := by
      simp only [List.mem_cons, List.not_mem_nil, or_false] at hi
      rcases hi with rfl | rfl
      · rw [htouch, touch_pending h ha hs hl hreq hwake (.inl rfl) hlive ht hk hroom hw]
      · rw [htouchc, touch_pending h ha hs hl hreq hwake (.inr rfl) hlive ht hk hroom hw]
    exact ⟨_, hparks, rfl, rfl, fut_modFut hf rfl⟩

/-! ### O29 -/

/-- A handle of the wrong kind is judged where the action issues. -/
theorem local_of_wrongKind {s : State} {h : W64} (hk : hKind h ≠ 1) : s.local_ h = true := by simp [State.local_, hk]

/-- So is one that names no cluster of the device. -/
theorem local_of_noTable {s : State} {h : W64} (hd : hDevice h = s.devid) (ht : PartMode.hasCluster s.mode (hTable h) = false) :
    s.local_ h = true := by simp [State.local_, hd, ht]

/-- An action that the thread group's own cluster judges stale, for every kind of action, traps FUT_STALE with the reason. -/
theorem exec_stale {s : State} {g : Guard} {d a b : UReg} {k : KReg} {n : Nat} (hg : s.me.opens g) (hc : s.Calm) (hwake : s.me.wake = none)
    (ha : s.me.sp.getLsbD a.val = false) (hb : s.me.sp.getLsbD b.val = false) (hl : s.local_ s.me.s[a] = true)
    (hact : ∀ op v vp, s.act s.me.loc.core.cluster none s.me.loc op s.me.s[a] v vp s.myEff = some (s, .stale n)) :
    ∀ i ∈ ([.touch g d a, .touchc g d a k, .poll g d a, .resolve g d a b, .ffault g d a b, .cancel g d a, .release g a] : List Instr),
      exec i s = .next (s.trap cFUTSTALE s.me.s[a] (BitVec.ofNat 64 n)) := by
  have hphase : s.me.phase = .start := hc.2.2.2.2.1
  have hreq : s.me.phase.req = none := by rw [hphase]; rfl
  have hstate : ∀ op v vp rel, s.stateAct op d a v vp false rel = s.trap cFUTSTALE s.me.s[a] (BitVec.ofNat 64 n) := fun op v vp rel =>
    stateAct_here ha hreq hl (fun _ => hc) (hact op v vp)
  have hwait : ∀ op fin, s.touchWith a op fin = fin s (.stale n) := fun op fin =>
    (touchWith_here ha hwake hreq hl (hact op 0 false)).trans (if_neg (by simp))
  intro i hi
  simp only [List.mem_cons, List.not_mem_nil, or_false] at hi
  rcases hi with rfl | rfl | rfl | rfl | rfl | rfl | rfl
  · rw [exec_touch, execTouch, withK_open s g _ hg, hwait]; rfl
  · rw [exec_touchc, execTouchc, withK_open s g _ hg, hwait]; rfl
  · rw [exec_poll, execPoll, withK_open s g _ hg, hstate]
  · rw [exec_resolve, execResolve, withK_open s g _ hg, hstate]
  · rw [exec_ffault, execFfault, withK_open s g _ hg, TG.spoison, hb, hstate]
  · rw [exec_cancel, execCancel, withK_open s g _ hg, hstate]
  · rw [exec_release, execRelease, withK_open s g _ hg, TG.spoison, ha]
    exact congrArg Host.Outcome.next (doAct_here hreq hl (fun e => by cases e) (hact .release 0 false))

/-- Settles O29: the reason is the one that `State.act` finds, wherever it is judged at the issuer. -/
theorem staleHandleTraps : Obligations.StaleHandleTraps := by
  intro s g d a b k hg hc hwake ha hb h i hi
  refine ⟨fun hk => ?_, fun hd hk ht => ?_, fun hd hcl hk ht hf => ?_⟩
  · exact exec_stale hg hc hwake ha hb (local_of_wrongKind hk) (fun op v vp => act_wrongKind s _ _ _ op v vp _ hk) i hi
  · exact exec_stale hg hc hwake ha hb (local_of_noTable hd ht) (fun op v vp => act_noTable s _ _ _ op v vp _ hk hd ht) i hi
  · exact exec_stale hg hc hwake ha hb (local_of_cluster hd hcl) (fun op v vp => act_noFuture s _ _ _ op v vp _ hk hd ht hf) i hi

end Sys2Proof.Machine
end

section
/-! SUPPORT. O30: RESOLVE, FFAULT, CANCEL and RELEASE of promises and settled futures (R62, R64, R65, R68, R69). -/

namespace Sys2Proof.Machine

open Sys2Proof

section
variable {s : State} {f : Fut} {e : Ending}

theorem conclude_settles : s.Settles (s.conclude f e) := by
  rw [conclude_eq]
  split
  · exact enters_settles.trans (freeFut_settles ..)
  · exact enters_settles

theorem fut_conclude_other {h : W64} (hh : h ≠ f.h) : (s.conclude f e).fut h = s.fut h := by
  rw [conclude_eq]
  split
  · exact (fut_freeFut_other _ hh).trans (fut_enters_other hh)
  · exact fut_enters_other hh

theorem conclude_tasks_of_none (ht : s.task f.h = none) : (s.conclude f e).tasks = s.tasks := by
  rw [conclude_eq]
  split
  · exact (freeFut_tasks ..).trans (enters_tasks_of_none ht)
  · exact enters_tasks_of_none ht

theorem conclude_me (hp : ∀ k o, s.me.status ≠ .parked k o) (hw : s.me.loc ∉ f.waiters) (ht : s.me.task ≠ f.h ∨ s.task f.h = none) :
    (s.conclude f e).me = s.me := by
  rw [conclude_eq]
  split
  · exact (freeFut_me ..).trans (enters_me hp hw ht)
  · exact enters_me hp hw ht

/-- A waiter that had no wake is woken with the outcome, whether or not the end frees the entry. -/
theorem conclude_wakes (hme : s.me.loc ∉ f.waiters) (ht : s.task f.h = none) {w : TgRef}
    (hw : w ∈ f.waiters) {x : TG} (hfree : ∀ y, s.tgAt w = some y → y.wake = none) (hx : (s.conclude f e).tgAt w = some x) :
    x.wake = some (f.ended e s.seq).outcome := by
  have hat : (s.conclude f e).tgAt w = (s.enters f e).tgAt w := by
    rw [conclude_eq]
    split
    · rw [State.tgAt, State.tgAt, State.allTgs, State.allTgs, freeFut_me, freeFut_tgs]
    · rfl
  exact enters_wakes hme ht hw hfree (hat ▸ hx)

/-- The settlement of a future that has no task leaves tasks alone. -/
theorem dropTask_of_none {h : W64} (ht : s.task h = none) : s.dropTask h = s := by simp only [State.dropTask, ht]

end

/-- What RESOLVE, FFAULT and CANCEL do at their entry, and the outcome that the terminal state of each shows. -/
theorem exec_settling {s : State} {g : Guard} {d a b : UReg} (hg : s.me.opens g) :
    ∀ c ∈ ([(.resolve g d a b, .value s.me.s[b] (s.me.sp.getLsbD b.val)), (.ffault g d a b, .faulted 9 s.me.s[b]),
        (.cancel g d a, .cancelled)] : List (Instr × Wake)), (c.1 = .ffault g d a b → s.me.sp.getLsbD b.val = false) →
      ∃ op v vp e, exec c.1 s = .next (s.stateAct op d a v vp false true) ∧ endingOf op v vp = some e ∧ e.st.terminal = true ∧
        ∀ (f : Fut) n, (f.ended e n).outcome = c.2 := by
  intro c hc hb
  simp only [List.mem_cons, List.not_mem_nil, or_false] at hc
  rcases hc with rfl | rfl | rfl
  · exact ⟨.resolve, s.me.s[b], s.me.sp.getLsbD b.val, _, by rw [exec_resolve, execResolve, withK_open s g _ hg]; rfl, rfl, rfl,
      fun _ _ => rfl⟩
  · exact ⟨.ffault, s.me.s[b], false, _, by rw [exec_ffault, execFfault, withK_open s g _ hg, TG.spoison, hb rfl]; rfl, rfl, rfl,
      fun _ _ => rfl⟩
  · exact ⟨.cancel, 0, false, _, by rw [exec_cancel, execCancel, withK_open s g _ hg], rfl, rfl, fun _ _ => rfl⟩

section
variable {s : State} {f : Fut} (h : s.TakesActs f) (hc : s.Calm) {a : UReg} (ha : s.me.sp.getLsbD a.val = false) (hs : s.me.s[a] = f.h)
  (hl : s.local_ f.h = true)
include h hc ha hs hl

/-- An action that settles, judged where it issues: the entry's answer is the state that it had. -/
theorem stateAct_settling {op : FutOp} {e : Ending} {v : W64} {vp : Bool} (hop : endingOf op v vp = some e) (d : UReg) :
    s.stateAct op d a v vp false true =
      (if f.st.terminal then s else (s.conclude f e).dropTask f.h).ends fun t => t.setS d (BitVec.ofNat 64 f.st.code) false := by
  have hreq : s.me.phase.req = none := by rw [hc.2.2.2.2.1]; rfl
  rw [stateAct_here ha hreq (by rw [hs]; exact hl) (fun _ => hc) (by rw [hs]; exact act_settling h _ _ _ v vp _ hop)]
  rfl

theorem exec_release_here {g : Guard} (hg : s.me.opens g) : exec (.release g a) s = .next
    ((if f.st.terminal then s.freeFut f.h else s.modFut f.h fun x => { x with detached := true }).ends id) := by
  have hreq : s.me.phase.req = none := by rw [hc.2.2.2.2.1]; rfl
  have hrel := act_release h s.me.loc.core.cluster none s.me.loc 0 false s.myEff
  rw [exec_release, execRelease, withK_open s g _ hg, TG.spoison, ha, TG.sget, hs]
  exact congrArg Host.Outcome.next (doAct_here hreq hl (fun e => by cases e) hrel)

end

/-- A thread group out of focus is where it was after the end of the group of the one in focus. -/
theorem tgAt_ends {s : State} {f : TG → TG} {m : TgRef} (hf : (f s.me).loc = s.me.loc) (hm : s.me.loc ≠ m) :
    (s.ends f).tgAt m = s.tgAt m := by
  have hloc : (s.ends f).me.loc ≠ m := by
    rw [show (s.ends f).me.loc = (f s.me).loc from rfl, hf]
    exact hm
  rw [tgAt_of_me_ne hm, tgAt_of_me_ne hloc]
  rfl

/-- Settles O30: a pending promise is concluded, as `conclude_eq` says; an action at a settled one is its answer alone. -/
theorem futureSettleResult : Obligations.FutureSettleResult := by
  intro s g d a b f hg hc hwake ha hs hf hres hend hkind hdev htab hclus hp hme hfree code
  have h : s.TakesActs f := ⟨hf, hres, hend, hkind, hdev, hclus⟩
  have hl : s.local_ f.h = true := local_of_cluster hdev htab
  refine ⟨fun c hmem hb => ?settling, fun hlive => ?detach, fun hterm => ?free⟩
  case settling =>
    obtain ⟨op, v, vp, e, hexec, hop, hterminal, houtcome⟩ := exec_settling (d := d) (a := a) hg c hmem hb
    rw [hexec, stateAct_settling h hc ha hs hl hop]
    refine ⟨fun hterm => by rw [if_pos hterm], fun hlive ht => ⟨_, rfl, ?_⟩⟩
    rw [if_neg (by simp [hlive]), dropTask_of_none ((task_of_tasks_eq _ (conclude_tasks_of_none ht)).trans ht)]
    have hm : (s.conclude f e).me = s.me := conclude_me hp hme (.inr ht)
    refine ⟨?_, conclude_settles.mem, conclude_tasks_of_none ht, fun k hk => fut_conclude_other hk, fun w hw x hx => ?_, fun hd => ?_, fun hd => ?_⟩
    · rw [← hm]
      rfl
    · have hne : s.me.loc ≠ w := fun he => hme (he ▸ hw)
      rw [tgAt_ends rfl (by rw [hm]; exact hne)] at hx
      rw [conclude_wakes hme ht hw (hfree w hw) hx, houtcome]
    · have hgone : (s.conclude f e).fut f.h = none := by
        rw [conclude_eq, if_pos hd]
        exact fut_freeFut_self _ _
      exact hgone
    · have hkept : (s.conclude f e).fut f.h = some (f.ended e s.seq) := by
        rw [conclude_eq, if_neg (by simp [hd])]
        exact fut_enters_self hf
      exact ⟨_, hkept, houtcome f s.seq, hterminal, rfl⟩
  case detach =>
    rw [exec_release_here h hc ha hs hl hg, if_neg (by simp [hlive])]
    rfl
  case free =>
    refine ⟨(s.freeFut f.h).ends id, (exec_release_here h hc ha hs hl hg).trans (by rw [if_pos hterm]), ?_, fut_freeFut_self _ _, (freeFut_settles s f.h).mem,
      fun k hk => fut_freeFut_other s hk⟩
    exact congrArg TG.advance (freeFut_me s f.h)

end Sys2Proof.Machine
end

section
/-! SUPPORT. Finish scopes: what a leave and the end of a scope change (R84 to R87). -/

namespace Sys2Proof.Machine

open Sys2Proof

theorem wakeScope_eq (s : State) (a : Half) (i : Nat) : s.wakeScope a i =
    if (s.scope a i).waiters = [] then s
    else (s.wakeAll (s.scope a i).waiters .go).modScope a i fun c => { c with waiters := [] } := rfl

/-- The waiters of a scope leave its list when they are woken. -/
theorem scope_wakeScope_self (s : State) (a : Half) (i : Nat) : (s.wakeScope a i).scope a i = { s.scope a i with waiters := [] } := by
  rw [wakeScope_eq]
  split
  next h =>
    conv_lhs => rw [← show { s.scope a i with waiters := (s.scope a i).waiters } = s.scope a i from rfl]
    rw [h]
  next =>
    rw [scope_modScope_self]
    exact congrArg (fun c : Scope1 => { c with waiters := [] })
      (scope_of_ctxs_eq a i (congrArg (fun x : State => x.ctxs) (wakeAll_frame _ .go s) :))

/-- The other scopes stand. -/
theorem scope_wakeScope_ne (s : State) (a : Half) {i j : Nat} (h : j ≠ i) : (s.wakeScope a i).scope a j = s.scope a j := by
  rw [wakeScope_eq]
  split
  · rfl
  · rw [scope_modScope_ne _ (.inr h)]
    exact scope_of_ctxs_eq a j (congrArg (fun x : State => x.ctxs) (wakeAll_frame _ .go s) :)

theorem wakeScope_settles (s : State) (a : Half) (i : Nat) : s.Settles (s.wakeScope a i) := by
  rw [wakeScope_eq]
  split
  · exact .refl s
  · exact (wakeAll_settles ..).trans (modScope_settles ..)

/-- Waking a scope's waiters leaves the futures. -/
theorem wakeScope_futs (s : State) (a : Half) (i : Nat) : (s.wakeScope a i).futs = s.futs := by
  rw [wakeScope_eq]
  split
  · rfl
  · exact (congrArg (fun x : State => x.futs) (wakeAll_frame _ .go s) :)

theorem scopeDone_settles (n : Nat) (s : State) (a : Half) (i : Nat) : s.Settles (s.scopeDone n a i) := by
  induction n generalizing s i with
  | zero => exact .refl s
  | succ n ih =>
    unfold State.scopeDone
    extract_lets sc s1 mine s2 s3
    have h1 : s.Settles s1 := (wakeScope_settles s a i).trans (modScope_settles ..)
    have h2 : s.Settles s2 := h1.trans (foldl_settles (fun t f => by
      split
      · exact freeFut_settles ..
      · exact modFut_settles ..) mine s1)
    have h3 : s.Settles s3 := h2.trans (reapScopes_settles ..)
    clear_value s1 mine s2 s3
    split
    · exact h3
    · extract_lets pc s4
      have h4 : s.Settles s4 := h3.trans (modScope_settles ..)
      clear_value s4
      split
      · exact h4
      · split
        · exact h4.trans (ih ..)
        · exact h4.trans (wakeScope_settles ..)

theorem scopeLeaveNow_settles (s : State) (a : Half) (i : Nat) : s.Settles (s.scopeLeaveNow a i) := by
  unfold State.scopeLeaveNow
  extract_lets sc s1
  have h1 : s.Settles s1 := modScope_settles ..
  clear_value s1
  split
  · exact h1
  · split
    · exact h1.trans (scopeDone_settles ..)
    · exact h1.trans (wakeScope_settles ..)

/-! ### A thread group that waits for no scope is not touched -/

/-- The thread group in focus is m, which waits for no scope of the context, and ts are the tasks. -/
structure State.Apart (m : TG) (ts : List Task) (a : Half) (s : State) : Prop where
  me : s.me = m
  tasks : s.tasks = ts
  out : ∀ i, m.loc ∉ (s.scope a i).waiters

section
variable {m : TG} {ts : List Task} {a : Half} {s : State}

theorem State.Apart.modScope (h : s.Apart m ts a) (i : Nat) {f : Scope1 → Scope1} (hf : ∀ c, (f c).waiters = c.waiters ∨ (f c).waiters = []) :
    (s.modScope a i f).Apart m ts a := by
  refine ⟨h.me, h.tasks, fun j => ?_⟩
  by_cases hj : j = i
  · subst hj
    rw [scope_modScope_self]
    rcases hf (s.scope a j) with he | he <;> rw [he]
    · exact h.out j
    · exact List.not_mem_nil
  · rw [scope_modScope_ne s (.inr hj)]
    exact h.out j

/-- Whatever leaves the thread group and the tasks, and takes no scope but to FREE, leaves it apart. -/
theorem State.Apart.of_frees {t : State} (h : s.Apart m ts a) (hme : t.me = s.me) (htasks : t.tasks = s.tasks)
    (hsc : ∀ i, t.scope a i = s.scope a i ∨ t.scope a i = ⟨.free, none, 0, []⟩) : t.Apart m ts a := by
  refine ⟨hme.trans h.me, htasks.trans h.tasks, fun i => ?_⟩
  rcases hsc i with he | he <;> rw [he]
  · exact h.out i
  · exact List.not_mem_nil

theorem State.Apart.reapScopes (h : s.Apart m ts a) (b : Half) : (s.reapScopes b).Apart m ts a :=
  h.of_frees (congrArg (fun x : State => x.me) (reapScopes_frame s b) :) (congrArg (fun x : State => x.tasks) (reapScopes_frame s b) :)
    (scope_reapScopes s b a)

/-- Freeing an entry can take a DONE scope to FREE. -/
theorem scope_freeFut (s : State) (k : W64) (b : Half) (i : Nat) :
    (s.freeFut k).scope b i = s.scope b i ∨ (s.freeFut k).scope b i = ⟨.free, none, 0, []⟩ := by
  unfold State.freeFut
  split
  · exact .inl rfl
  · extract_lets s1 s2
    have h2 : s2.scope b i = s.scope b i := by
      unfold s2
      split
      · exact scope_modCtx s1 _ b i rfl
      · rfl
    rw [← h2]
    exact scope_reapScopes s2 _ b i

theorem State.Apart.freeFut (h : s.Apart m ts a) (k : W64) : (s.freeFut k).Apart m ts a :=
  h.of_frees (freeFut_me s k) (freeFut_tasks s k) (scope_freeFut s k a)

theorem State.Apart.wakeScope (h : s.Apart m ts a) (i : Nat) : (s.wakeScope a i).Apart m ts a := by
  rw [wakeScope_eq]
  split
  · exact h
  · have hframe := wakeAll_frame (s.scope a i).waiters .go s
    have hwoken : (s.wakeAll (s.scope a i).waiters .go).Apart m ts a := by
      refine ⟨(wakeAll_me (by rw [h.me]; exact h.out i)).trans h.me, (congrArg (fun x : State => x.tasks) hframe :).trans h.tasks, fun j => ?_⟩
      have hsc : (s.wakeAll (s.scope a i).waiters .go).scope a j = s.scope a j :=
        scope_of_ctxs_eq a j (congrArg (fun x : State => x.ctxs) hframe :)
      rw [hsc]
      exact h.out j
    exact hwoken.modScope i fun c => .inr rfl

theorem State.Apart.scopeDone (n : Nat) {s : State} (h : s.Apart m ts a) (i : Nat) : (s.scopeDone n a i).Apart m ts a := by
  induction n generalizing s i with
  | zero => exact h
  | succ n ih =>
    unfold State.scopeDone
    extract_lets sc s1 mine s2 s3
    have h1 : s1.Apart m ts a := (h.wakeScope i).modScope i fun c => .inl rfl
    have h2 : s2.Apart m ts a := foldl_keeps h1 fun t f ht => ite_keeps (ht.freeFut _) ⟨ht.me, ht.tasks, ht.out⟩
    have h3 : s3.Apart m ts a := h2.reapScopes a
    clear_value s1 mine s2 s3
    split
    · exact h3
    · rename_i p _
      extract_lets pc s4
      have h4 : s4.Apart m ts a := h3.modScope p fun c => .inl rfl
      clear_value s4
      exact ite_keeps h4 (ite_keeps (ih h4 p) (h4.wakeScope p))

theorem State.Apart.scopeLeaveNow (h : s.Apart m ts a) (i : Nat) : (s.scopeLeaveNow a i).Apart m ts a := by
  unfold State.scopeLeaveNow
  extract_lets sc s1
  have h1 : s1.Apart m ts a := h.modScope i fun c => .inl rfl
  clear_value s1
  exact ite_keeps h1 (ite_keeps (h1.scopeDone 256 i) (h1.wakeScope i))

/-- The leave of a task leaves storage, tasks, and a thread group that waits for no scope. -/
theorem State.Apart.scopeLeave (h : s.Apart m ts a) (c : ClId) (k : W64) (i : Option Nat) :
    (s.scopeLeave c k a i).Apart m ts a ∧ (s.scopeLeave c k a i).mem = s.mem := by
  cases i with
  | none => exact ⟨h, rfl⟩
  | some i =>
    unfold State.scopeLeave
    dsimp only
    split
    · exact ⟨h.scopeLeaveNow i, (scopeLeaveNow_settles s a i).mem⟩
    · exact ⟨⟨h.me, h.tasks, h.out⟩, rfl⟩

end

end Sys2Proof.Machine
end

section
/-! SUPPORT. O31: the task whose future another party settles: it leaves its queue, or it goes on with k10 set (R65, R75, R78). -/

namespace Sys2Proof.Machine

open Sys2Proof

theorem enters_ctxs (s : State) (f : Fut) (e : Ending) : (s.enters f e).ctxs = s.ctxs := by
  unfold State.enters
  extract_lets f' t u
  have ht : t.ctxs = s.ctxs := (congrArg (fun x : State => x.ctxs) (wakeAll_frame f.waiters f'.outcome (s.bump.modFut f.h fun _ => f')) :)
  unfold State.endSave
  split <;> exact ht

/-- A task that is taken out of its queue leaves the table of tasks, and the operations, locks and faults that were its own go. -/
theorem takeOut_frame (s : State) (h : W64) :
    { s.takeOut h with tasks := s.tasks, ops := s.ops, clusters := s.clusters, faults := s.faults } = s := by
  unfold State.takeOut
  split
  · rfl
  · extract_lets landed s1 s2
    have h2 : { s2 with tasks := s.tasks, ops := s.ops, clusters := s.clusters, faults := s.faults } = s := by
      unfold s2
      split <;> rfl
    exact h2

theorem takeOut_tasks {s : State} {h : W64} {k : Task} (ht : s.task h = some k) : (s.takeOut h).tasks = s.tasks.filter fun x => x.handle != h := by
  unfold State.takeOut
  rw [ht]
  dsimp only
  by_cases hp : k.st = .prefetch
  · rw [if_pos hp]
    rfl
  · rw [if_neg hp]
    rfl

section
variable {s : State} {h : W64} {k : Task} (ht : s.task h = some k) (hme : s.me.task ≠ h) (hout : ∀ i, s.me.loc ∉ (s.scope k.asid i).waiters)
include ht hme hout

omit hme in
/-- The task that waited in a queue is gone. -/
theorem dropTask_queued (hst : k.st = .queued ∨ k.st = .prefetch) :
    (s.dropTask h).me = s.me ∧ (s.dropTask h).mem = s.mem ∧ (s.dropTask h).task h = none := by
  have hframe := takeOut_frame s h
  have hrun : s.dropTask h = (s.takeOut h).scopeLeave k.queue h k.asid k.scope := by
    simp only [State.dropTask, State.removeQueued, ht, if_pos hst]
  have happ : (s.takeOut h).Apart s.me (s.tasks.filter fun x => x.handle != h) k.asid :=
    ⟨(congrArg (fun x : State => x.me) hframe :), takeOut_tasks ht, fun i => by
      have hsc : (s.takeOut h).scope k.asid i = s.scope k.asid i := scope_of_ctxs_eq k.asid i (congrArg (fun x : State => x.ctxs) hframe :)
      rw [hsc]
      exact hout i⟩
  obtain ⟨⟨hme1, htasks, -⟩, hmem⟩ := happ.scopeLeave k.queue h k.scope
  rw [hrun]
  refine ⟨hme1, hmem.trans (congrArg (fun x : State => x.mem) hframe :), ?_⟩
  unfold State.task
  rw [htasks]
  exact List.find?_eq_none.mpr fun x hx => by simpa using (List.mem_filter.mp hx).2

omit hout in
/-- The task that runs goes on, with k10 in its record and in each of its thread groups. -/
theorem dropTask_running (hst : ¬(k.st = .queued ∨ k.st = .prefetch)) :
    (s.dropTask h).me = s.me ∧ (s.dropTask h).mem = s.mem ∧ (s.dropTask h).futs = s.futs ∧
    (s.dropTask h).task h = some { k with k10 := true } ∧ ∀ x ∈ (s.dropTask h).tgs, x.task = h → x.k10 = true := by
  have hrun : s.dropTask h = s.setK10 h := by simp only [State.dropTask, ht, if_neg hst]
  rw [hrun]
  refine ⟨if_neg fun hc => hme hc.1, rfl, rfl, ?_, fun x hx hxt => ?_⟩
  · exact task_modTask (s := s.modTask_tgs h _) ht rfl
  · obtain ⟨y, -, rfl⟩ := List.mem_map.mp hx
    split
    · dsimp only
      split <;> rfl
    · rename_i hy
      rw [if_neg hy] at hxt
      exact absurd hxt hy

end

/-- Settles O31: the future is concluded, and what follows at the task is `dropTask_queued` or `dropTask_running`. -/
theorem cancelOfATask : Obligations.CancelOfATask := by
  intro s g d a f k hg hc hwake ha hs hf hres hend hdet hp hme hout hkind hdev htab hclus hlive ht hother
  have h : s.TakesActs f := ⟨hf, hres, hend, hkind, hdev, hclus⟩
  have hl : s.local_ f.h = true := local_of_cluster hdev htab
  let e : Ending := ⟨.cancelled, 0, false, 0, 0⟩
  let k' : Task := { k with preempt := none }
  let u := s.enters f e
  have hexec : exec (.cancel g d a) s = .next ((u.dropTask f.h).ends fun t => t.setS d (BitVec.ofNat 64 f.st.code) false) := by
    rw [exec_cancel, execCancel, withK_open s g _ hg, stateAct_settling h hc ha hs hl (op := .cancel) rfl, if_neg (by simp [hlive]),
      conclude_eq, if_neg (by simp [hdet])]
  have hu : u.me = s.me := enters_me hp hme (.inl hother)
  have hmem : u.mem = s.mem := enters_settles.mem
  have htu : u.task f.h = some k' := task_enters ht
  have hotheru : u.me.task ≠ f.h := by rw [hu]; exact hother
  have houtu : ∀ i, u.me.loc ∉ (u.scope k'.asid i).waiters := fun i => by
    rw [hu, scope_of_ctxs_eq k'.asid i (enters_ctxs s f e)]
    exact hout i
  have hfu : u.fut f.h = some (f.ended e s.seq) := fut_enters_self hf
  refine ⟨_, hexec, ?_⟩
  by_cases hst : k'.st = .queued ∨ k'.st = .prefetch
  · obtain ⟨hme', hmem', hgone⟩ := dropTask_queued htu houtu hst
    refine ⟨congrArg (fun x : TG => (x.setS d (BitVec.ofNat 64 f.st.code) false).advance) (hme'.trans hu), hmem'.trans hmem, fun _ => hgone,
      fun hrun => ?_⟩
    have hk : k'.st = .running := hrun
    simp [hk] at hst
  · obtain ⟨hme', hmem', hfuts, htask, htgs⟩ := dropTask_running htu hotheru hst
    refine ⟨congrArg (fun x : TG => (x.setS d (BitVec.ofNat 64 f.st.code) false).advance) (hme'.trans hu), hmem'.trans hmem,
      fun hq => absurd (.inl hq) hst, fun _ => ⟨⟨_, (fut_of_futs_eq f.h hfuts).trans hfu, rfl⟩, htgs, htask⟩⟩

end Sys2Proof.Machine
end

section
/-! SUPPORT. O33: SCOPEO, SCOPEC, SCOPEW and CANCEL.DEEP of a scope that is over (R84 to R87, R298, R299). -/

namespace Sys2Proof.Machine

open Sys2Proof

/-- Scope i opens below scope p, which counts it (R84, R298). -/
def State.opensBelow (s : State) (a : Half) (p i : Nat) : State :=
  (s.modScope a i fun _ => ⟨.open_, some p, 0, []⟩).modScope a p fun c => { c with count := c.count + 1 }

section
variable (s : State) (a : Half) {p i : Nat}

theorem scope_opensBelow_new (h : i ≠ p) : (s.opensBelow a p i).scope a i = ⟨.open_, some p, 0, []⟩ := by
  rw [State.opensBelow, scope_modScope_ne _ (.inr h), scope_modScope_self]

theorem scope_opensBelow_parent (h : i ≠ p) :
    (s.opensBelow a p i).scope a p = { s.scope a p with count := (s.scope a p).count + 1 } := by
  rw [State.opensBelow, scope_modScope_self, scope_modScope_ne s (.inr h.symm)]

theorem scope_opensBelow_other {j : Nat} (hi : j ≠ i) (hp : j ≠ p) : (s.opensBelow a p i).scope a j = s.scope a j := by
  rw [State.opensBelow, scope_modScope_ne _ (.inr hp), scope_modScope_ne s (.inr hi)]

end

theorem scopeIdOf_of_lt {v : W64} (h : v.toNat < 256) : scopeIdOf v = some v.toNat := if_pos h
theorem scopeIdOf_of_ge {v : W64} (h : 255 < v.toNat) : scopeIdOf v = none := if_neg (by omega)

section
variable {s : State} {a : Half} {v : W64}

theorem scopeOpen_none (h : 255 < v.toNat ∨ (s.scope a v.toNat).st ≠ .open_ ∨ ∀ j < 256, (s.scope a j).st ≠ .free) :
    s.scopeOpen a v = (s, BitVec.allOnes 64) := by
  unfold State.scopeOpen
  by_cases hn : 255 < v.toNat
  · rw [scopeIdOf_of_ge hn]
  · rw [scopeIdOf_of_lt (by omega)]
    dsimp only
    by_cases ho : (s.scope a v.toNat).st = .open_
    · have hfull : ∀ j < 256, (s.scope a j).st ≠ .free := (h.resolve_left hn).resolve_left (not_not_intro ho)
      rw [if_neg (not_not_intro ho), lowest_eq_none fun j _ hj => by simpa using hfull j (by omega)]
    · rw [if_pos ho]

theorem scopeOpen_some {i : Nat} (hn : v.toNat < 256) (ho : (s.scope a v.toNat).st = .open_) (hi : i < 256) (hfree : (s.scope a i).st = .free)
    (hlow : ∀ j < i, (s.scope a j).st ≠ .free) : s.scopeOpen a v = (s.opensBelow a v.toNat i, BitVec.ofNat 64 i) := by
  unfold State.scopeOpen
  rw [scopeIdOf_of_lt hn]
  dsimp only
  rw [if_neg (not_not_intro ho), lowest_eq_some (Nat.zero_le i) (by omega) (by simp [hfree]) fun j _ hj => by simpa using hlow j hj]
  rfl

theorem scopeClose_shut {i : Nat} (h : i = 0 ∨ (s.scope a i).st ≠ .open_) : s.scopeClose a i = s := if_pos h

/-- An OPEN scope that still counts is CLOSED, and no other changes. -/
theorem scopeClose_counting {i : Nat} (h0 : i ≠ 0) (ho : (s.scope a i).st = .open_) (hc : (s.scope a i).count ≠ 0) :
    s.scopeClose a i = s.modScope a i fun c => { c with st := .closed } := by
  unfold State.scopeClose
  rw [if_neg (by simp [h0, ho]), if_neg hc]

end

/-- A raise changes tasks, and what is on its way to them. -/
theorem raise_frame (s : State) (c : ClId) (h : W64) (cls : Fin 4) :
    { s.raise c h cls with tasks := s.tasks, seq := s.seq, raises := s.raises } = s := by
  unfold State.raise State.raiseNow
  split
  · rfl
  · split
    · split
      · rfl
      · split <;> rfl
    · rfl

/-- The raises of a SCOPEW: each queued task below the scope goes to the class of the thread group that waits (R86). -/
def State.raisesBelow (s : State) (a : Half) (i : Nat) : State :=
  ((s.tasks.filter fun t => t.asid == a && t.st == .queued && (match t.scope with
    | some j => (s.scopeTree a i).contains j
    | none => false)).map (·.handle)).foldl (fun (t : State) h => t.raise s.me.loc.core.cluster h s.myEff) s

theorem raisesBelow_frame (s : State) (a : Half) (i : Nat) :
    { s.raisesBelow a i with tasks := s.tasks, seq := s.seq, raises := s.raises } = s := by
  refine foldl_keeps (P := fun t : State => { t with tasks := s.tasks, seq := s.seq, raises := s.raises } = s) rfl fun t h ht => ?_
  exact (congrArg (fun x : State => { x with tasks := s.tasks, seq := s.seq, raises := s.raises }) (raise_frame t _ h _) :).trans ht

/-- A thread group at the end of a scope's list of waiters. -/
def State.joinsScope (s : State) (a : Half) (i : Nat) : State :=
  s.modScope a i fun c => { c with waiters := c.waiters.filter (· != s.me.loc) ++ [s.me.loc] }

theorem mem_joinsScope (s : State) (a : Half) (i : Nat) : s.me.loc ∈ ((s.joinsScope a i).scope a i).waiters := by
  rw [State.joinsScope, scope_modScope_self]
  exact List.mem_append_right _ List.mem_cons_self

section
variable {s : State} {a : UReg} (ha : s.me.sp.getLsbD a.val = false) (hwake : s.me.wake = none)
include ha hwake

theorem scopew_noScope (hn : 255 < s.me.s[a].toNat) : s.scopew a = s.ends id := by
  simp only [State.scopew, hwake, TG.spoison, ha, TG.sget, scopeIdOf_of_ge hn]
  rfl

theorem scopew_over (hn : s.me.s[a].toNat < 256) (ho : s.scopeOver s.ctxAsid s.me.s[a].toNat = true) : s.scopew a = s.ends id := by
  simp only [State.scopew, hwake, TG.spoison, ha, TG.sget, scopeIdOf_of_lt hn, ho]
  rfl

/-- SCOPEW of a scope that still counts parks behind the raises, and stands in the scope's list. -/
theorem scopew_parks (hn : s.me.s[a].toNat < 256) (ho : s.scopeOver s.ctxAsid s.me.s[a].toNat = false) (hk : s.me.k10 = false) :
    (s.scopew a).me = { s.me with
      status := .parked 2 s.me.s[a]
      parkedAt := s.ptp.toNat } ∧ (s.scopew a).mem = s.mem ∧ (s.scopew a).futs = s.futs ∧
    s.me.loc ∈ ((s.scopew a).scope s.ctxAsid s.me.s[a].toNat).waiters := by
  have hrun : s.scopew a = ((s.raisesBelow s.ctxAsid s.me.s[a].toNat).joinsScope s.ctxAsid s.me.s[a].toNat).park 2
      (BitVec.ofNat 64 s.me.s[a].toNat) := by
    simp only [State.scopew, hwake, TG.spoison, ha, TG.sget, scopeIdOf_of_lt hn, ho, hk]
    rfl
  have hframe := raisesBelow_frame s s.ctxAsid s.me.s[a].toNat
  generalize s.raisesBelow s.ctxAsid s.me.s[a].toNat = t at hrun hframe
  have hme : t.me = s.me := (congrArg (fun x : State => x.me) hframe :)
  have hptp : t.ptp = s.ptp := (congrArg (fun x : State => x.ptp) hframe :)
  have hparked : (s.scopew a).me = { t.me with status := .parked 2 s.me.s[a], wake := none, parkedAt := t.ptp.toNat } := by
    rw [hrun, BitVec.ofNat_toNat, BitVec.setWidth_eq]
    rfl
  have hjoined : s.me.loc ∈ ((t.joinsScope s.ctxAsid s.me.s[a].toNat).scope s.ctxAsid s.me.s[a].toNat).waiters := hme ▸ mem_joinsScope t _ _
  refine ⟨?_, ?_, ?_, ?_⟩
  · rw [hparked, hme, hptp, ← hwake]
  · rw [hrun]
    exact (congrArg (fun x : State => x.mem) hframe :)
  · rw [hrun]
    exact (congrArg (fun x : State => x.futs) hframe :)
  · rw [hrun]
    exact hjoined

end

/-- A deep cancel that reaches every entry at once ends with their number. -/
theorem cancelDeep_reaches {s u t : State} {i n : Nat} {tree : List Nat} (hphase : s.me.phase = .start)
    (hclose : s.closeTree s.ctxAsid i = (u, tree)) (hrun : u.cancelEach (s.futsIn s.ctxAsid tree) = (t, n, []))
    (hnext : t.me.phase = .start) (d : UReg) : s.cancelDeep d i = t.ends fun x => x.setS d (BitVec.ofNat 64 n) false := by
  unfold State.cancelDeep
  rw [hphase]
  simp only [Phase.start, hclose, hrun, if_true, hnext, Nat.zero_add]
  rfl

/-- CANCEL.DEEP of no scope, or of one that is FREE or DONE, counts nothing. -/
theorem exec_cancelDeep_over {s : State} {g : Guard} {d a : UReg} (hg : s.me.opens g) (hc : s.Calm) (ha : s.me.sp.getLsbD a.val = false)
    (h : 255 < s.me.s[a].toNat ∨ (s.scope s.ctxAsid s.me.s[a].toNat).st = .free ∨ (s.scope s.ctxAsid s.me.s[a].toNat).st = .done) :
    exec (.cancelDeep g d a) s = .next (s.ends fun t => t.setS d 0 false) := by
  have hphase : s.me.phase = .start := hc.2.2.2.2.1
  rw [exec_cancelDeep, execCancelDeep, withK_open s g _ hg, TG.spoison, ha, if_neg (by simp), hc.afterFence, TG.sget]
  by_cases hn : 255 < s.me.s[a].toNat
  · rw [scopeIdOf_of_ge hn]
    rfl
  · rw [scopeIdOf_of_lt (by omega)]
    have htree : s.closeTree s.ctxAsid s.me.s[a].toNat = (s, []) := if_pos (h.resolve_left hn)
    have hnone : s.futsIn s.ctxAsid [] = [] := by
      unfold State.futsIn
      rw [List.filter_eq_nil_iff.mpr, List.map_nil]
      intro f _
      cases f.scope <;> simp
    exact congrArg Host.Outcome.next (cancelDeep_reaches hphase htree (by rw [hnone]; rfl) hphase d)

/-- Settles O33: one rule above for each branch of each instruction. -/
theorem scopeResult : Obligations.ScopeResult := by
  intro s g d a i hg hc hwake ha n c put
  have hopen : exec (.scopeo g d a) s = .next (((s.scopeOpen c s.me.s[a]).1.setS d (s.scopeOpen c s.me.s[a]).2 false).advance) := by
    rw [exec_scopeo, execScopeo, withK_open s g _ hg, TG.spoison, ha]
    rfl
  have hwait : exec (.scopew g a) s = .next (s.scopew a) := by rw [exec_scopew, execScopew, withK_open s g _ hg]
  have hclose : n < 256 → exec (.scopec g a) s = .next (s.scopeClose c n).advance := fun hn => by
    rw [exec_scopec, execScopec, withK_open s g _ hg, TG.spoison, ha, TG.sget, scopeIdOf_of_lt hn]
    rfl
  have hover : s.scopeOver c n = true ↔ (s.scope c n).st = .free ∨ (s.scope c n).st = .done ∨ (s.scope c n).count = 0 := by
    simp [State.scopeOver, or_assoc]
  refine ⟨fun h => ?openNone, fun hn ho hi hfree hlow => ?opens, fun h => ?closeNone, fun hn h0 ho hcount => ?closes,
    fun hn => hwait.trans (by rw [scopew_noScope ha hwake hn]), fun hn h => hwait.trans (by rw [scopew_over ha hwake hn (hover.mpr h)]),
    fun hn h hk => ⟨_, hwait, scopew_parks ha hwake hn (Bool.eq_false_iff.mpr fun ho => h (hover.mp ho)) hk⟩, exec_cancelDeep_over hg hc ha⟩
  case openNone =>
    rw [hopen, scopeOpen_none h]
    rfl
  case opens =>
    have hin : i ≠ n := fun he => by rw [he, ho] at hfree; cases hfree
    rw [hopen, scopeOpen_some hn ho hi hfree hlow]
    have hkeeps : ∀ j, (((s.opensBelow c n i).setS d (BitVec.ofNat 64 i) false).advance).scope c j = (s.opensBelow c n i).scope c j :=
      fun j => scope_of_ctxs_eq c j rfl
    exact ⟨_, rfl, rfl, rfl, (hkeeps i).trans (scope_opensBelow_new s c hin), (hkeeps n).trans (scope_opensBelow_parent s c hin),
      fun j hji hjn => (hkeeps j).trans (scope_opensBelow_other s c hji hjn)⟩
  case closeNone =>
    by_cases hn : 255 < n
    · rw [exec_scopec, execScopec, withK_open s g _ hg, TG.spoison, ha, TG.sget, scopeIdOf_of_ge hn]
      rfl
    · rw [hclose (by omega), scopeClose_shut (h.resolve_left hn)]
      rfl
  case closes =>
    rw [hclose hn, scopeClose_counting h0 ho hcount]
    have hkeeps : ∀ j, ((s.modScope c n fun x => { x with st := .closed }).advance).scope c j =
        (s.modScope c n fun x => { x with st := .closed }).scope c j := fun j => scope_of_ctxs_eq c j rfl
    refine ⟨_, rfl, ⟨rfl, rfl, rfl, rfl⟩, ?_, fun j hj => (hkeeps j).trans (scope_modScope_ne s (.inr hj) _)⟩
    rw [hkeeps n, scope_modScope_self]

end Sys2Proof.Machine
end

section
/-! SUPPORT. O34: CANCEL.DEEP of a live scope (R76, R293). -/

namespace Sys2Proof.Machine

open Sys2Proof

theorem find?_of_nodup {α β : Type} [BEq β] [LawfulBEq β] (key : α → β) {l : List α} (hn : (l.map key).Nodup) {x : α} (hx : x ∈ l) :
    l.find? (fun y => key y == key x) = some x := by
  induction l with
  | nil => cases hx
  | cons a l ih =>
    rw [List.map_cons, List.nodup_cons] at hn
    rcases List.mem_cons.mp hx with rfl | hx
    · rw [List.find?_cons_of_pos (by simp)]
    · have hne : key a ≠ key x := fun he => hn.1 (he ▸ List.mem_map_of_mem hx)
      rw [List.find?_cons_of_neg (by simpa using hne), ih hn.2 hx]

/-- Closing scopes that count something, one after another, changes contexts alone. -/
theorem foldl_scopeClose_frame {s : State} {a : Half} (l : List Nat) (hl : ∀ j ∈ l, (s.scope a j).st = .open_ → (s.scope a j).count ≠ 0)
    {t : State} (ht : { t with ctxs := s.ctxs } = s)
    (hsc : ∀ j, (t.scope a j).count = (s.scope a j).count ∧ ((t.scope a j).st = .open_ → (s.scope a j).st = .open_)) :
    { l.foldl (fun (s : State) j => s.scopeClose a j) t with ctxs := s.ctxs } = s := by
  induction l generalizing t with
  | nil => exact ht
  | cons i l ih =>
    have hl' : ∀ j ∈ l, (s.scope a j).st = .open_ → (s.scope a j).count ≠ 0 := fun j hj => hl j (List.mem_cons_of_mem i hj)
    rw [List.foldl_cons]
    by_cases hshut : i = 0 ∨ (t.scope a i).st ≠ .open_
    · rw [scopeClose_shut hshut]
      exact ih hl' ht hsc
    · obtain ⟨h0, ho⟩ := not_or.mp hshut
      have ho : (t.scope a i).st = .open_ := not_not.mp ho
      have hcount : (t.scope a i).count ≠ 0 := by
        rw [(hsc i).1]
        exact hl i List.mem_cons_self ((hsc i).2 ho)
      rw [scopeClose_counting h0 ho hcount]
      refine ih hl' ht fun j => ?_
      by_cases hj : j = i
      · subst hj
        rw [scope_modScope_self]
        exact ⟨(hsc j).1, fun he => by cases he⟩
      · rw [scope_modScope_ne t (.inr hj)]
        exact hsc j

theorem closeTree_live {s : State} {a : Half} {n : Nat} (hlive : (s.scope a n).st = .open_ ∨ (s.scope a n).st = .closed)
    (hcount : ∀ j ∈ s.scopeTree a n, (s.scope a j).st = .open_ → (s.scope a j).count ≠ 0) :
    ∃ t, s.closeTree a n = (t, s.scopeTree a n) ∧ { t with ctxs := s.ctxs } = s := by
  refine ⟨_, if_neg ?_, foldl_scopeClose_frame _ hcount rfl fun j => ⟨rfl, id⟩⟩
  rcases hlive with h | h <;> simp [h]

/-- A pending promise that a deep cancel reaches: its entry is resident, holds no action and is not detached, and the canceller does not
wait for it. -/
structure State.Cancels (s : State) (f : Fut) : Prop where
  fut : s.fut f.h = some f
  live : f.st.terminal = false
  resident : f.spilled = none
  unheld : f.ending = none
  kept : f.detached = false
  lone : s.task f.h = none
  away : s.me.loc ∉ f.waiters

/-- The terminal state of a cancelled future. -/
def Ending.cancel : Ending := ⟨.cancelled, 0, false, 0, 0⟩

theorem cancelOne_promise {s : State} {f : Fut} (h : s.Cancels f) : s.cancelOne f.h = some (s.enters f .cancel, true) := by
  have hconclude : s.conclude f .cancel = s.enters f .cancel := by rw [conclude_eq, h.kept]; rfl
  have hsettle : s.settle f.h .cancelled 0 false 0 0 = s.enters f .cancel := (settle_live h.fut h.live).trans hconclude
  have hdrop : (s.enters f .cancel).dropTask f.h = s.enters f .cancel :=
    dropTask_of_none ((task_of_tasks_eq _ (enters_tasks_of_none h.lone)).trans h.lone)
  rw [State.cancelOne, refillFut_resident h.fut h.resident, h.fut, hsettle, hdrop]
  simp [h.live, h.resident, h.unheld]

/-- The entries of a deep cancel are all reached, and no other future changes. -/
theorem cancelEach_promises (fs : List Fut) {s : State} (hn : (fs.map (·.h)).Nodup) (hp : ∀ k o, s.me.status ≠ .parked k o)
    (hall : ∀ f ∈ fs, s.Cancels f) :
    ∃ t, s.cancelEach (fs.map (·.h)) = (t, fs.length, []) ∧ t.me = s.me ∧ t.mem = s.mem ∧
      (∀ f ∈ fs, ∃ x, t.fut f.h = some x ∧ x.st = .cancelled) ∧ ∀ h, h ∉ fs.map (·.h) → t.fut h = s.fut h := by
  induction fs generalizing s with
  | nil => exact ⟨s, rfl, rfl, rfl, fun _ hf => absurd hf List.not_mem_nil, fun _ _ => rfl⟩
  | cons f fs ih =>
    rw [List.map_cons, List.nodup_cons] at hn
    have hf := hall f List.mem_cons_self
    have hme : (s.enters f .cancel).me = s.me := enters_me hp hf.away (.inr hf.lone)
    have hrest : ∀ y ∈ fs, (s.enters f .cancel).Cancels y := fun y hy => by
      have hy' := hall y (List.mem_cons_of_mem f hy)
      have hne : y.h ≠ f.h := fun he => hn.1 (he ▸ List.mem_map_of_mem hy)
      exact ⟨(fut_enters_other hne).trans hy'.fut, hy'.live, hy'.resident, hy'.unheld, hy'.kept,
        (task_of_tasks_eq _ (enters_tasks_of_none hf.lone)).trans hy'.lone, by rw [hme]; exact hy'.away⟩
    obtain ⟨t, hrun, hmet, hmem, hdone, hother⟩ := ih hn.2 (by rw [hme]; exact hp) hrest
    refine ⟨t, ?_, hmet.trans hme, hmem.trans enters_settles.mem, fun y hy => ?_, fun h hh => ?_⟩
    · rw [List.map_cons, State.cancelEach, cancelOne_promise hf]
      dsimp only
      rw [hrun]
      rfl
    · rcases List.mem_cons.mp hy with rfl | hy
      · exact ⟨_, (hother y.h hn.1).trans (fut_enters_self hf.fut), rfl⟩
      · exact hdone y hy
    · rw [List.map_cons, List.mem_cons, not_or] at hh
      exact (hother h hh.2).trans (fut_enters_other hh.1)

/-- Settles O34: closing the scopes changes contexts alone, and then every entry is reached once. -/
theorem cancelDeepCountsAndCancels : Obligations.CancelDeepCountsAndCancels := by
  intro s g d a hg hc ha hn256 c n hit hlive hn hp hpend hcount
  have hphase : s.me.phase = .start := hc.2.2.2.2.1
  obtain ⟨u, hclose, hframe⟩ := closeTree_live hlive hcount
  have hme : u.me = s.me := (congrArg (fun x : State => x.me) hframe :)
  have hfuts : u.futs = s.futs := (congrArg (fun x : State => x.futs) hframe :)
  have htasks : u.tasks = s.tasks := (congrArg (fun x : State => x.tasks) hframe :)
  have hmem : u.mem = s.mem := (congrArg (fun x : State => x.mem) hframe :)
  have hself : ∀ f ∈ s.futs, s.fut f.h = some f := fun f hf => find?_of_nodup (fun x : Fut => x.h) hn hf
  have hall : ∀ f ∈ s.futs.filter hit, u.Cancels f := fun f hf => by
    obtain ⟨hmemf, hh⟩ := List.mem_filter.mp hf
    obtain ⟨hres, hend, hdet, ht, haway⟩ := hpend f hmemf hh
    have hlivef : f.st.terminal = false := by
      simp only [hit, Bool.and_eq_true, Bool.not_eq_true'] at hh
      exact hh.1.2
    exact ⟨(fut_of_futs_eq f.h hfuts).trans (hself f hmemf), hlivef, hres, hend, hdet, (task_of_tasks_eq f.h htasks).trans ht,
      by rw [hme]; exact haway⟩
  have hnf : ((s.futs.filter hit).map (·.h)).Nodup := hn.sublist (List.filter_sublist.map _)
  obtain ⟨t, hrun, hmet, hmemt, hdone, hother⟩ := cancelEach_promises (s.futs.filter hit) hnf (by rw [hme]; exact hp) hall
  have hexec : exec (.cancelDeep g d a) s =
      .next (t.ends fun x => x.setS d (BitVec.ofNat 64 (s.futs.filter hit).length) false) := by
    rw [exec_cancelDeep, execCancelDeep, withK_open s g _ hg, TG.spoison, ha, if_neg (by simp), hc.afterFence, TG.sget, scopeIdOf_of_lt hn256]
    exact congrArg Host.Outcome.next (cancelDeep_reaches hphase hclose hrun (by rw [hmet, hme, hphase]) d)
  refine ⟨_, hexec, ?_, hmemt.trans hmem, fun f hf hh => hdone f (List.mem_filter.mpr ⟨hf, hh⟩), fun f hf hh => ?_⟩
  · exact congrArg (fun x : TG => (x.setS d (BitVec.ofNat 64 (s.futs.filter hit).length) false).advance) (hmet.trans hme)
  · have hnot : f.h ∉ (s.futs.filter hit).map (·.h) := fun hmm => by
      obtain ⟨y, hy, hyf⟩ := List.mem_map.mp hmm
      obtain ⟨hys, hyh⟩ := List.mem_filter.mp hy
      have hfy : f = y := Option.some.inj ((hself f hf).symm.trans (hyf ▸ hself y hys))
      rw [hfy, hyh] at hh
      cases hh
    exact (hother f.h hnot).trans ((fut_of_futs_eq f.h hfuts).trans (hself f hf))

end Sys2Proof.Machine
end

section
/-! SUPPORT. O32: what SPAWN's snapshot leaves, and the entry, the task and the promise that SPAWN and FNEW make (R32, R59, R86, R289 to
R291). -/

namespace Sys2Proof.Machine

open Sys2Proof

/-- t is what an issuing instruction's reads leave of s: storage, the device's names, and the thread group in focus but for the progress of
its instruction. -/
structure State.Looks (s t : State) : Prop where
  me : { t.me with phase := s.me.phase } = s.me
  mem : t.mem = s.mem
  mode : t.mode = s.mode
  devid : t.devid = s.devid

theorem State.Looks.refl (s : State) : s.Looks s := ⟨rfl, rfl, rfl, rfl⟩
theorem State.Looks.trans {s t u : State} (h : s.Looks t) (k : t.Looks u) : s.Looks u :=
  ⟨(congrArg (fun g : TG => { g with phase := s.me.phase }) k.me).trans h.me, k.mem.trans h.mem, k.mode.trans h.mode, k.devid.trans h.devid⟩

theorem State.Reads.looks {s t : State} (h : s.Reads t) : s.Looks t := by
  have hme : t.me = s.me := (congrArg (fun x : State => x.me) h.eq :)
  exact ⟨by rw [hme], (congrArg (fun x : State => x.mem) h.eq :), (congrArg (fun x : State => x.mode) h.eq :),
    (congrArg (fun x : State => x.devid) h.eq :)⟩

theorem noteReads_reads (s : State) (g : Agent) (vas : List Nat) : s.Reads (s.noteReads g vas) := by
  refine foldl_keeps (P := fun t : State => s.Reads t) (.refl s) fun t line h => ?_
  split
  · exact h
  · split
    · exact h.trans (remoteRead_reads t _ _ line 0).1
    · split
      · exact h.trans (remoteRead_reads t _ _ line _).1
      · exact h

theorem keepRead_looks (s : State) (g : Agent) (key : Nat) (bs : List (Byte × Bool)) : s.Looks (s.keepRead g key bs) := by
  unfold State.keepRead
  split
  · exact ⟨rfl, rfl, rfl, rfl⟩
  · split <;> exact ⟨rfl, rfl, rfl, rfl⟩

/-- Reading a structure leaves no more than its reads, what is kept of it, and the descriptor cache. -/
theorem snapRead_looks {s t : State} {c : ClId} {g : Agent} {cached : Bool} {va n : Nat} {bs : List (Byte × Bool)}
    (h : s.snapRead c g cached va n = (t, .ok bs)) : s.Looks t := by
  unfold State.snapRead at h
  split at h
  · cases h
    exact .refl s
  · extract_lets hit keep s1 at h
    have h1 : s.Looks s1 := by
      unfold s1
      split <;> exact ⟨rfl, rfl, rfl, rfl⟩
    clear_value s1 hit keep
    split at h
    · cases h
      exact State.Looks.trans (t := s.useFree) ⟨rfl, rfl, rfl, rfl⟩ (keepRead_looks ..)
    · split at h
      · cases h
      · cases h
      · extract_lets s2 ent fill at h
        have h2 : s.Looks s2 := (h1.trans (keepRead_looks ..)).trans (noteReads_reads ..).looks
        clear_value s2
        cases h
        refine h2.trans ?_
        split <;> exact ⟨rfl, rfl, rfl, rfl⟩

theorem snapStruct_looks {s t : State} {c : ClId} {g : Agent} {cached : Bool} {va : W64} {n al : Nat} {bs : List Byte}
    (h : s.snapStruct c g cached va n al = (t, .ok bs)) : s.Looks t := by
  unfold State.snapStruct at h
  split at h
  · cases h
  · split at h <;> try cases h
    rename_i u ps hread
    split at h
    · cases h
    · cases h
      exact snapRead_looks hread

theorem snapFps_looks {c : ClId} {g : Agent} {list : W64} {k i : Nat} {s t : State} {fs : List Footprint}
    (h : State.snapFps c g list k i s = (t, .ok fs)) : s.Looks t := by
  induction k generalizing i s fs with
  | zero =>
    cases h
    exact .refl _
  | succ k ih =>
    unfold State.snapFps at h
    extract_lets at_ at h
    split at h
    · cases h
    · rename_i hentry
      split at h
      · cases h
      · rename_i hmap
        split at h
        · cases h
        · rename_i hring
          extract_lets f at h
          split at h
          · cases h
          · rename_i hrest
            cases h
            exact (((snapStruct_looks hentry).trans (snapStruct_looks hmap)).trans (snapStruct_looks hring)).trans (ih hrest)

theorem snapTask_looks {s t : State} {c : ClId} {g : Agent} {desc : W64} {i : SpawnInfo} (h : s.snapTask c g desc = (t, .ok i)) : s.Looks t := by
  unfold State.snapTask at h
  split at h
  · cases h
  · rename_i hdesc
    extract_lets fw n at h
    split at h
    · cases h
    · rename_i hfps
      cases h
      exact (snapStruct_looks hdesc).trans (snapFps_looks hfps)

/-! ### Entries that SPAWN and FNEW take (R59, R86) -/

/-- A task enqueued into an OPEN scope: its future is the last entry, it is the last task, and the scope counts one more. -/
theorem enqueue_open {s : State} {i : SpawnInfo} {b : SpawnBy} (table queue : ClId) (slot gen : Nat) (other : Option Nat)
    (ho : (s.scope b.asid (fwScope i.flag)).st = .open_) :
    let h := mkHandle s.devid table slot gen
    ∃ t n, s.enqueue i b table queue slot gen other = (t, h) ∧ t.me = s.me ∧ t.mem = s.mem ∧
      t.futs = s.futs ++ [Fut.new h b.asid .queued (some (fwScope i.flag)) b.lineage s.seq] ∧
      t.tasks = s.tasks ++ [i.task b h queue n] ∧
      (t.scope b.asid (fwScope i.flag)).count = (s.scope b.asid (fwScope i.flag)).count + 1 := by
  intro h
  let u := (s.newFut table slot gen fun h => Fut.new h b.asid .queued (some (fwScope i.flag)) b.lineage s.seq).1
  refine ⟨_, u.seq, if_pos ho, rfl, rfl, rfl, rfl, ?_⟩
  exact (congrArg Scope1.count (scope_modScope_self u b.asid (fwScope i.flag) fun c => { c with count := c.count + 1 }) :)

/-- FNEW with an entry free: a promise, and its handle. -/
theorem fnew_promise {s : State} {d : UReg} {slot gen : Nat} (hwake : s.me.wake = none) (hk : s.me.k10 = false)
    (hfree : s.freeEntry s.me.loc.core.cluster false = some (slot, gen)) :
    let h := mkHandle s.devid s.me.loc.core.cluster slot gen
    (s.fnew d).me = (s.me.setS d h false).advance ∧ (s.fnew d).mem = s.mem ∧ (s.fnew d).tasks = s.tasks ∧
    ∃ f, (s.fnew d).futs = s.futs ++ [f] ∧ f.h = h ∧ f.st = .running ∧ f.promise = true ∧ f.asid = s.ctxAsid := by
  intro h
  have hentry : s.begun.freeEntry s.begun.me.loc.core.cluster false = some (slot, gen) := hfree
  have hrun : s.fnew d = (((s.begun.newFut s.begun.me.loc.core.cluster slot gen fun h =>
      { Fut.new h s.begun.ctxAsid .running (s.begun.ownScope s.begun.ctxAsid s.begun.me.scopeId) s.begun.lineage s.begun.seq with
        promise := true }).1.setS d h false).advance) := by
    simp only [State.fnew, hwake, hk, State.withEntry, hentry]
    rfl
  rw [hrun]
  exact ⟨rfl, rfl, rfl, _, rfl, rfl, rfl, rfl, rfl⟩

/-- SPAWN of a sound descriptor that could be read, with an entry free: the task is enqueued behind the snapshot. -/
theorem spawn_enqueues {s u : State} {d a : UReg} {i : SpawnInfo} {slot gen : Nat} (hc : s.Calm) (hwake : s.me.wake = none)
    (hk : s.me.k10 = false) (ha : s.me.sp.getLsbD a.val = false)
    (hsnap : s.begun.snapTask s.me.loc.core.cluster s.begun.meAgent s.me.s[a] = (u, .ok i))
    (hfree : u.freeEntry s.me.loc.core.cluster false = some (slot, gen)) (hgood : i.bad s.mode s.me.loc.core.cluster s.me.det = none) :
    ∃ (p : Phase) (b : SpawnBy) (other : Option Nat), b.asid = s.ctxAsid ∧ b.own = fwPrio i.flag ∧
      let v := u.modMe fun g => { g with phase := p }
      let r := v.enqueue i b s.me.loc.core.cluster (i.queue s.me.loc.core.cluster) slot gen other
      v.me = { s.me with phase := p } ∧ s.spawn d a = (r.1.setS d r.2 false).advance := by
  obtain ⟨hmeu, -, hmode, -⟩ := snapTask_looks hsnap
  let v := u.modMe fun g => { g with phase := { g.phase with snap := some (.info i) } }
  have hmev : v.me = { s.me with phase := v.me.phase } :=
    (congrArg (fun g : TG => { g with phase := v.me.phase }) hmeu :)
  have hloc : v.me.loc = s.me.loc := by rw [hmev]
  have hdet : v.me.det = s.me.det := by rw [hmev]
  have hfreev : v.freeEntry s.me.loc.core.cluster false = some (slot, gen) := hfree
  have hgoodv : i.bad v.mode s.me.loc.core.cluster s.me.det = none := by
    rw [show v.mode = s.mode from hmode]
    exact hgood
  refine ⟨v.me.phase, ⟨v.ctxAsid, fwDet i.flag || v.me.det, fwPrio i.flag, 0xFFFFFFFF, 0, s.begun.lineage, v.sameCore v.me.loc.core,
    v.me.task⟩, v.ownScope v.ctxAsid v.me.scopeId, ?_, rfl, hmev, ?_⟩
  · show v.me.ctx = s.me.ctx
    rw [hmev]
  · have hphase : s.me.phase = .start := hc.2.2.2.2.1
    have hnosnap : s.begun.me.phase.snap = none := by
      show s.me.phase.snap = none
      rw [hphase]
      rfl
    have hfence : ∀ k, s.begun.afterFence .device k = k s.begun := fun k => afterFence_of_clear (s := s.begun) hc.1 hc.2.1 _ k
    unfold State.spawn
    rw [hwake]
    dsimp only
    rw [TG.spoison, ha, hk, if_neg (by simp), if_neg (by simp), hfence]
    unfold State.withSnapshot
    rw [hnosnap]
    dsimp only
    rw [show s.begun.snapTask s.begun.me.loc.core.cluster s.begun.meAgent (s.begun.me.sget a) = (u, .ok i) from hsnap]
    dsimp only
    unfold State.withEntry
    rw [show (u.modMe fun g => { g with phase := { g.phase with snap := some (.info i) } }) = v from rfl, hloc, hfreev]
    dsimp only
    rw [hdet, show s.begun.me.loc = s.me.loc from rfl, hgoodv]
    dsimp only
    rw [hloc]
    rfl

/-- Settles O32: the snapshot leaves the thread group and storage, and `enqueue_open` and `fnew_promise` say what is made. -/
theorem spawnAndPromiseResult : Obligations.SpawnAndPromiseResult := by
  intro s u g d a i slot gen hg hc hwake hk c h
  refine ⟨fun ha hsnap hfree hgood ho => ?_, fun hfree => ?_⟩
  · obtain ⟨hmeu, hmem, -, hdev⟩ := snapTask_looks hsnap
    obtain ⟨p, b, other, hasid, hown, hmev, hrun⟩ := spawn_enqueues (d := d) hc hwake hk ha hsnap hfree hgood
    obtain ⟨t, n, henq, hmet, hmemt, hfuts, htasks, hcount⟩ := enqueue_open (s := u.modMe fun g => { g with phase := p }) (b := b) c
      (i.queue c) slot gen other (by rw [hasid]; exact ho)
    rw [show (u.modMe fun g => { g with phase := p }).devid = s.devid from hdev] at henq hfuts htasks
    rw [henq] at hrun
    rw [hasid] at hfuts hcount
    refine ⟨(t.setS d h false).advance, by rw [exec_spawn, execSpawn, withK_open s g _ hg, hrun], ?_, hmemt.trans hmem, ⟨_, hfuts, rfl, rfl, rfl, rfl, rfl⟩,
      ⟨_, htasks, rfl, rfl, rfl, rfl, hasid, rfl, hown, rfl⟩, hcount⟩
    show (t.me.setS d h false).advance = _
    rw [hmet, hmev]
    rfl
  · exact ⟨_, by rw [exec_fnew, execFnew, withK_open s g _ hg], fnew_promise hwake hk hfree⟩

end Sys2Proof.Machine
end

section
/-! SUPPORT. What hardware writes and events leave (R243, R379, R398): tasks, futures, contexts, and the thread group in focus but for a
wake. One lemma for each operation, in the order of the model. -/

namespace Sys2Proof.Machine

open Sys2Proof

/-- A thread group but for the wake recorded at it. -/
def TG.unwoken (g : TG) : TG := { g with wake := none }

/-- Tasks and contexts stand, and the thread group in focus but for a wake. -/
structure State.Still (s t : State) : Prop where
  me : t.me.unwoken = s.me.unwoken
  tasks : t.tasks = s.tasks
  ctxs : t.ctxs = s.ctxs

/-- So do the futures. -/
structure State.HwOnly (s t : State) : Prop extends s.Still t where
  futs : t.futs = s.futs

theorem State.Still.refl (s : State) : s.Still s := ⟨rfl, rfl, rfl⟩
theorem State.Still.trans {s t u : State} (h : s.Still t) (k : t.Still u) : s.Still u :=
  ⟨k.me.trans h.me, k.tasks.trans h.tasks, k.ctxs.trans h.ctxs⟩
theorem State.HwOnly.refl (s : State) : s.HwOnly s := ⟨.refl s, rfl⟩
theorem State.HwOnly.trans {s t u : State} (h : s.HwOnly t) (k : t.HwOnly u) : s.HwOnly u :=
  ⟨h.toStill.trans k.toStill, k.futs.trans h.futs⟩

/-- What changes neither thread groups nor these tables. -/
theorem hwOnly_of_eq {s t : State} (hme : t.me = s.me) (htasks : t.tasks = s.tasks) (hctxs : t.ctxs = s.ctxs) (hfuts : t.futs = s.futs) :
    s.HwOnly t := ⟨⟨congrArg TG.unwoken hme, htasks, hctxs⟩, hfuts⟩

theorem State.Counts.hwOnly {s t : State} (h : s.Counts t) : s.HwOnly t :=
  hwOnly_of_eq (congrArg (fun x : State => x.me) h.eq :) (congrArg (fun x : State => x.tasks) h.eq :) (congrArg (fun x : State => x.ctxs) h.eq :)
    (congrArg (fun x : State => x.futs) h.eq :)

theorem encode_hwOnly (s : State) (d lo hi : Nat) : s.HwOnly (s.encode d lo hi) :=
  ite_keeps (.refl s) (hwOnly_of_eq rfl rfl rfl rfl)

theorem encodeSpad_hwOnly (s : State) (a n : Nat) : s.HwOnly (s.encodeSpad a n) := ite_keeps (encode_hwOnly ..) (.refl s)

theorem countWrite_hwOnly (s : State) (home : Nat) (asid : Half) (va : Nat) : s.HwOnly (s.countWrite home asid va) :=
  (encode_hwOnly ..).trans (countAccess_counts ..).hwOnly

theorem foldl_hwOnly {α : Type} {f : State → α → State} (hf : ∀ (s : State) x, s.HwOnly (f s x)) (l : List α) (s : State) :
    s.HwOnly (l.foldl f s) :=
  foldl_keeps (P := fun t : State => s.HwOnly t) (.refl s) fun t x h => h.trans (hf t x)

theorem dropReplicas_hwOnly (s : State) (home : Nat) (asid : Half) (va : Nat) : s.HwOnly (s.dropReplicas home asid va) := by
  unfold State.dropReplicas
  extract_lets rs s1 u
  have h1 : s.HwOnly s1 := foldl_keeps (P := fun t : State => s.HwOnly t) (.refl s) fun t r h => h.trans (hwOnly_of_eq rfl rfl rfl rfl)
  have hu : s.HwOnly u := h1.trans (hwOnly_of_eq rfl rfl rfl rfl)
  clear_value s1 u
  split
  · exact .refl s
  · exact hu.trans (hwOnly_of_eq rfl rfl rfl rfl)

theorem modTg_hear_hwOnly (s : State) (l : TgRef) (w : Wake) : s.HwOnly (s.modTg l (TG.hear w)) := by
  unfold State.modTg
  split
  · exact ⟨⟨rfl, rfl, rfl⟩, rfl⟩
  · exact hwOnly_of_eq rfl rfl rfl rfl

theorem wakeWatches_hwOnly (s : State) (a n : Nat) : s.HwOnly (s.wakeWatches a n) := by
  unfold State.wakeWatches
  extract_lets hit s1
  have h1 : s.HwOnly s1 := foldl_hwOnly (fun t (w : Watch) => modTg_hear_hwOnly t w.tg .go) _ s
  clear_value s1
  exact h1.trans (hwOnly_of_eq rfl rfl rfl rfl)

theorem writeAt_hwOnly (s : State) (a : Nat) (bs : List Byte) (p : Bool) : s.HwOnly (s.writeAt a bs p) :=
  have hput : s.HwOnly ((s.encodeSpad a bs.length).onSoc (·.put a bs p)) := (encodeSpad_hwOnly s a bs.length).trans (hwOnly_of_eq rfl rfl rfl rfl)
  hput.trans (wakeWatches_hwOnly _ a bs.length)

theorem homeWrite_hwOnly (s : State) (a : Nat) (bs : List Byte) : s.HwOnly (s.homeWrite a bs) := by
  unfold State.homeWrite
  extract_lets s1 hit s2
  have h1 : s.HwOnly s1 := writeAt_hwOnly ..
  have h2 : s.HwOnly s2 := foldl_keeps (P := fun t : State => s.HwOnly t) h1 fun t r h => h.trans (hwOnly_of_eq rfl rfl rfl rfl)
  clear_value s1 s2
  exact h2.trans (hwOnly_of_eq rfl rfl rfl rfl)

theorem trace_hwOnly (s : State) (typ : Nat) (pc : W64) : s.HwOnly (s.trace typ pc) := by
  unfold State.trace
  split
  · exact .refl s
  · exact ite_keeps (.refl s) ((homeWrite_hwOnly ..).trans (hwOnly_of_eq rfl rfl rfl rfl))

theorem hwPut_hwOnly (s : State) (asid : Half) (va a : Nat) (bs : List Byte) : s.HwOnly (s.hwPut asid va a bs) := by
  refine ite_keeps (writeAt_hwOnly ..) ((writeAt_hwOnly s a bs false).trans (foldl_hwOnly (fun t v => ?_) _ _))
  exact ite_keeps (.refl t) ((countWrite_hwOnly ..).trans (dropReplicas_hwOnly ..))

theorem hwGather_hwOnly (s : State) (who : Waiter) (va n a : Nat) : s.HwOnly (s.hwGather who va n a).1 := by
  unfold State.hwGather
  extract_lets w first
  split <;> exact hwOnly_of_eq rfl rfl rfl rfl

theorem noteEvent_hwOnly (s : State) (typ : Nat) (asid : Half) : s.HwOnly (s.noteEvent typ asid) :=
  ite_keeps (hwOnly_of_eq rfl rfl rfl rfl) (hwOnly_of_eq rfl rfl rfl rfl)

theorem eventNow_hwOnly (s : State) (typ : Nat) (asid : Half) (bs : List Byte) (n : Nat) : s.HwOnly (s.eventNow typ asid bs n).1 := by
  unfold State.eventNow
  extract_lets idx va rest
  split
  · exact noteEvent_hwOnly ..
  · split
    · exact (hwPut_hwOnly ..).trans (noteEvent_hwOnly ..)
    · exact hwPut_hwOnly ..
    · exact .refl s
    · exact ite_keeps (noteEvent_hwOnly ..) ((noteEvent_hwOnly ..).trans (noteEvent_hwOnly ..))
    · exact noteEvent_hwOnly ..

theorem post_hwOnly (s : State) (typ die cl : Nat) (asid : Half) (fs : List (Nat × Nat × Nat)) : s.HwOnly (s.post typ die cl asid fs) := by
  unfold State.post
  extract_lets rec_ s1
  have h1 : s.HwOnly s1 := (trace_hwOnly s typ 0).trans (hwOnly_of_eq rfl rfl rfl rfl)
  have h2 : s.HwOnly (s1.eventNow typ asid rec_ 0).1 := h1.trans (eventNow_hwOnly ..)
  clear_value s1
  split
  · split
    · rename_i t he
      rw [he] at h2
      exact h2
    · rename_i t n he
      rw [he] at h2
      exact h2.trans (hwOnly_of_eq rfl rfl rfl rfl)
  · exact h1.trans (hwOnly_of_eq rfl rfl rfl rfl)

theorem misplaced_hwOnly (s : State) (asid : Half) (c : CoreId) (va pa : Nat) : s.HwOnly (s.misplaced asid c va pa) := post_hwOnly ..

theorem hwNow_hwOnly (s : State) (asid : Half) (va : Nat) (bs : List Byte) : s.HwOnly (s.hwNow asid va bs).1 := by
  unfold State.hwNow
  split
  · exact hwPut_hwOnly ..
  · exact hwPut_hwOnly ..
  · exact .refl s
  · exact misplaced_hwOnly ..
  · exact .refl s

theorem hwWrite_hwOnly (s : State) (asid : Half) (va : Nat) (bs : List Byte) : s.HwOnly (s.hwWrite asid va bs) := by
  have h := hwNow_hwOnly s asid va bs
  unfold State.hwWrite
  split
  · split
    · rename_i t he
      rw [he] at h
      exact h
    · rename_i t j he
      rw [he] at h
      exact h.trans (hwOnly_of_eq rfl rfl rfl rfl)
  · exact hwOnly_of_eq rfl rfl rfl rfl

end Sys2Proof.Machine
end

section
/-! SUPPORT. O48: spilling frees entries without losing a future (R72). -/

namespace Sys2Proof.Machine

open Sys2Proof

/-- A change of the first element that a test takes, which leaves another test that it passed: one element less passes. -/
theorem length_filter_updFirst {α : Type} {p q : α → Bool} {f : α → α} {l : List α} {x : α} (hx : l.find? p = some x) (hq : q x = true)
    (hf : q (f x) = false) : ((updFirst p f l).filter q).length + 1 = (l.filter q).length := by
  induction l with
  | nil => cases hx
  | cons a l ih =>
    unfold updFirst
    by_cases ha : p a = true
    · rw [List.find?_cons_of_pos ha] at hx
      cases hx
      rw [if_pos ha, List.filter_cons_of_neg (by simp [hf]), List.filter_cons_of_pos hq, List.length_cons]
    · rw [List.find?_cons_of_neg ha] at hx
      rw [if_neg ha]
      by_cases hqa : q a = true
      · rw [List.filter_cons_of_pos hqa, List.filter_cons_of_pos hqa, List.length_cons, List.length_cons, ih hx]
      · rw [List.filter_cons_of_neg hqa, List.filter_cons_of_neg hqa, ih hx]

/-- t has the futures of s but for where they are held, its tasks, and its thread group in focus but for a wake. -/
structure State.Respills (s t : State) : Prop where
  futs : t.futs.map (fun y => { y with spilled := none }) = s.futs.map fun y => { y with spilled := none }
  me : t.me.unwoken = s.me.unwoken
  tasks : t.tasks = s.tasks

theorem State.Respills.refl (s : State) : s.Respills s := ⟨rfl, rfl, rfl⟩
theorem State.Respills.trans {s t u : State} (h : s.Respills t) (k : t.Respills u) : s.Respills u :=
  ⟨k.futs.trans h.futs, k.me.trans h.me, k.tasks.trans h.tasks⟩
theorem State.HwOnly.respills {s t : State} (h : s.HwOnly t) : s.Respills t := ⟨by rw [h.futs], h.me, h.tasks⟩

/-- Handles stay as they are. -/
theorem State.Respills.handles {s t : State} (h : s.Respills t) : t.futs.map (·.h) = s.futs.map (·.h) := by
  have hf := congrArg (List.map fun y : Fut => y.h) h.futs
  simpa only [List.map_map, Function.comp_def] using hf

theorem mem_of_spillFirst {s : State} {fs : List Fut} {f : Fut} (h : s.spillFirst fs = some f) : f ∈ fs := by
  induction fs generalizing f with
  | nil => cases h
  | cons a fs ih =>
    unfold State.spillFirst at h
    split at h
    · cases h
      exact List.mem_cons_self
    · rename_i g hg
      dsimp only at h
      split at h <;> cases h
      · exact List.mem_cons_self
      · exact List.mem_cons_of_mem a (ih hg)

/-- What is spilled is one of the entries offered. -/
theorem exists_of_spillSome {s t : State} {n : Nat} {fs : List Fut} (h : s.spillSome n fs = some t) : ∃ f ∈ fs, s.spillFut f = some t := by
  induction n generalizing fs with
  | zero => cases h
  | succ n ih =>
    unfold State.spillSome at h
    split at h
    · cases h
    · rename_i f hf
      rcases Option.or_eq_some_iff.mp h with h | ⟨-, h⟩
      · exact ⟨f, mem_of_spillFirst hf, h⟩
      · obtain ⟨y, hy, hs⟩ := ih h
        exact ⟨y, (List.mem_filter.mp hy).1, hs⟩

/-- A spilled entry: its record is written, and its future names the record. -/
theorem spillFut_eq {s t : State} {f : Fut} (h : s.spillFut f = some t) : ∃ (u : State) (r : Nat), s.HwOnly u ∧
    t = (u.modFut f.h fun x => { x with spilled := some r }).modCtx f.asid fun k => { k with usedRecs := insertNat r k.usedRecs } := by
  unfold State.spillFut at h
  dsimp only at h
  split at h
  · cases h
  · rename_i r _
    split at h
    · exact ⟨_, r, hwWrite_hwOnly .., (Option.some.inj h).symm⟩
    · exact ⟨_, r, hwWrite_hwOnly .., (Option.some.inj h).symm⟩
    · cases h

theorem spillOne_result {s t : State} {c : ClId} (hn : (s.futs.map (·.h)).Nodup) (h : s.spillOne c = some t) :
    s.Respills t ∧ (t.resident c).length + 1 = (s.resident c).length := by
  obtain ⟨f, hf, hspill⟩ := exists_of_spillSome h
  obtain ⟨u, r, hu, rfl⟩ := spillFut_eq hspill
  have hres : f ∈ s.resident c := (List.mem_filter.mp hf).1
  obtain ⟨hmem, hkey⟩ := List.mem_filter.mp hres
  refine ⟨hu.respills.trans ⟨?_, rfl, rfl⟩, ?_⟩
  · exact map_updFirst_of_eq u.futs fun _ _ => rfl
  · show ((updFirst _ _ u.futs).filter _).length + 1 = _
    rw [hu.futs]
    exact length_filter_updFirst (find?_of_nodup (fun x : Fut => x.h) hn hmem) hkey (by simp)

/-- Spilling goes on until 1,024 entries are free, or no record can be written; each turn of the loop frees one. -/
theorem spillUntil_result {c : ClId} (k : Nat) {s : State} (hn : (s.futs.map (·.h)).Nodup) (hl : (s.resident c).length ≤ 8192)
    (hk : 1024 ≤ s.freeEntries c + k) :
    s.Respills (s.spillUntil c k) ∧ (1024 ≤ (s.spillUntil c k).freeEntries c ∨ (s.spillUntil c k).spillOne c = none) := by
  induction k generalizing s with
  | zero => exact ⟨.refl s, .inl hk⟩
  | succ k ih =>
    unfold State.spillUntil
    split
    next hfree => exact ⟨.refl s, .inl hfree⟩
    next =>
      split
      next t ht =>
        obtain ⟨hr, hlen⟩ := spillOne_result hn ht
        have hfree : t.freeEntries c = s.freeEntries c + 1 := by
          unfold State.freeEntries
          omega
        obtain ⟨hr', hend⟩ := ih (s := t) (by rw [hr.handles]; exact hn) (by omega) (by omega)
        exact ⟨hr.trans hr', hend⟩
      next hnone => exact ⟨.refl s, .inr hnone⟩

theorem spillMisplaced_hwOnly (s : State) (c : ClId) : s.HwOnly (s.spillMisplaced c) := by
  unfold State.spillMisplaced
  extract_lets place
  split
  · exact misplaced_hwOnly ..
  · exact .refl s

/-- SPILL of a cluster that is short of entries. -/
theorem spill_result {s : State} {c : ClId} (hfew : s.freeEntries c < 512) (hl : (s.resident c).length ≤ 8192)
    (hn : (s.futs.map (·.h)).Nodup) :
    ∃ r, exec (.spill c) s = .next r ∧ (1024 ≤ r.freeEntries c ∨ r.spillOne c = none) ∧ s.Respills r := by
  have hm := spillMisplaced_hwOnly s c
  have hres : (s.spillMisplaced c).resident c = s.resident c := by
    unfold State.resident
    rw [hm.futs]
  obtain ⟨hr, hend⟩ := spillUntil_result (c := c) 1024 (s := s.spillMisplaced c) (by rw [hm.futs]; exact hn) (by rw [hres]; exact hl) (by omega)
  exact ⟨_, by rw [exec_spill, execSpill, if_pos hfew], hend, hm.respills.trans hr⟩

end Sys2Proof.Machine
end

section
/-! SUPPORT. O48: requests and reports at an entry, replies, refills, the hamper's steps and scope updates (R62, R66 to R74, R84, R360). -/

namespace Sys2Proof.Machine

open Sys2Proof

/-! ### Requests, reports and replies -/

/-- A request of this device that its entry takes: its reply is recorded. -/
theorem exec_futureRequest_own {s t : State} {q : Req} {w : Wake} (hq : s.reqs.find? (fun r => r.id == q.id) = some q) (hrep : q.reply = none)
    (hdev : q.dev = none) (hact : s.act (hTable q.h) q.dev q.tg q.op q.h q.v q.vp q.eff = some (t, w)) :
    exec (.futureRequest (.own q.id)) s = .next { t with
      reqs := updFirst (fun x => x.id == q.id) (fun x => { x with reply := some w }) t.reqs } := by
  rw [hdev] at hact
  simp [exec_futureRequest, execFutureRequest, hq, State.serveReq, hrep, hdev, hact]

theorem find?_replied {s : State} {q : Req} (w : Wake) (hq : s.reqs.find? (fun r => r.id == q.id) = some q) :
    (updFirst (fun x => x.id == q.id) (fun x => { x with reply := some w }) s.reqs).find? (fun k => k.id == q.id) = some { q with reply := some w } :=
  find?_updFirst hq (by simp)

/-- A POLL that a thread group of another device sends is answered, and nothing else changes but what a request wakes. -/
theorem exec_futureRequest_far_poll {s : State} {f : Fut} {n : Nat} {tg : TgRef} {v : W64} {cls : Fin 4} (h : s.TakesActs f) (hn : n ≠ s.devid) :
    ∃ r, exec (.futureRequest (.far n tg .poll f.h v false cls)) s = .next r ∧
      r.farOut = s.farOut ++ [(⟨n, tg⟩, .code (BitVec.ofNat 64 f.st.code))] ∧ r.futs = s.futs ∧ r.mem = s.mem ∧ r.me = s.me := by
  let q : Req := ⟨s.seq, some n, tg, .poll, f.h, v, false, cls, none⟩
  let u : State := ({ s.bump with reqs := s.reqs ++ [q] } : State).wakeUp
  have hu : u.TakesActs f := ⟨h.fut, h.resident, h.unheld, h.kind, h.device, h.table⟩
  have hact := act_poll hu (hTable f.h) (some n) tg v false cls
  have hdev : ¬(n = s.devid ∨ hDevice f.h ≠ s.devid) := by simp [hn, h.device]
  have hserve : u.serveReq q = { u with
      reqs := u.reqs.filter (fun x => x.id != q.id)
      farOut := u.farOut ++ [(⟨n, tg⟩, .code (BitVec.ofNat 64 f.st.code))] } := by
    simp only [State.serveReq, q, hact]
    rfl
  have hexec : exec (.futureRequest (.far n tg .poll f.h v false cls)) s = .next (u.serveReq q) := by
    rw [exec_futureRequest, execFutureRequest]
    exact congrArg Host.Outcome.next (if_neg hdev)
  exact ⟨_, hexec.trans (congrArg Host.Outcome.next hserve), rfl, rfl, rfl, rfl⟩

/-- The oldest report to an entry that takes it is applied. -/
theorem exec_futureRequest_note {s : State} {k : FutMsg} {f : Fut} {st : FSt} (hno : s.reqs.find? (fun r => r.id == k.id) = none)
    (hk : s.futMsgs.find? (fun y => y.id == k.id) = some k) (hold : s.futMsgs.find? (fun y => y.h == k.h) = some k) (hnote : k.note = .state st)
    (hf : s.fut k.h = some f) (hres : f.spilled = none) (hlive : f.st.terminal = false) (hend : f.ending = none) :
    ∃ r, exec (.futureRequest (.own k.id)) s = .next r ∧ r.fut k.h = some { f with st := st } ∧ r.mem = s.mem ∧ r.tasks = s.tasks ∧
      r.futMsgs = s.futMsgs.filter fun y => y.id != k.id := by
  let u : State := { s.applyNote k.h (.state st) with futMsgs := s.futMsgs.filter fun y => y.id != k.id }
  have hnow : s.noteNow k.h (.state st) = (s.applyNote k.h (.state st), true) := by
    simp [State.noteNow, refillFut_resident hf hres, hf, hres]
  have hu : u.fut k.h = some { f with st := st } := by
    have hset : u.fut k.h = some (if f.st.terminal || f.ending.isSome then f else { f with st := st }) := fut_modFut hf (by split <;> rfl)
    rw [hset, hlive, hend]
    rfl
  have hheld : u.settleHeld k.h = u := by
    simp [State.settleHeld, hu, hend]
  refine ⟨u, ?_, hu, rfl, rfl, rfl⟩
  have hserve : s.serveNote k = u.settleHeld k.h := by
    simp only [State.serveNote, hold, hnote, hnow, Option.any_some, beq_self_eq_true, if_true]
    rfl
  rw [exec_futureRequest, execFutureRequest]
  simp only [hno, hk]
  rw [hserve, hheld]

/-- A reply reaches the thread group that waits for it. -/
theorem exec_futureReply_here {s : State} {q : Req} {w : Wake} {x : TG} (hq : s.reqs.find? (fun r => r.id == q.id) = some q)
    (hrep : q.reply = some w) (hto : q.tg = x.loc) (hl : s.me.loc ≠ x.loc) (hx : s.tgAt x.loc = some x) (hreq : x.phase.req = some q.id)
    (hfree : x.wake = none) :
    ∃ r, exec (.futureReply q.id) s = .next r ∧ r.tgAt x.loc = some { x with wake := some w } ∧ r.me = s.me ∧ r.mem = s.mem ∧
      ∀ k ∈ r.reqs, k.id ≠ q.id := by
  let u : State := { s with reqs := s.reqs.filter fun y => y.id != q.id }
  let hears : TG → TG := fun g => if g.phase.req = some q.id then { g with wake := g.wake.or (some w) } else g
  have hears_x : hears x = { x with wake := some w } := by simp [hears, hreq, hfree]
  have hrun : exec (.futureReply q.id) s = .next (u.modTg x.loc hears) := by
    rw [exec_futureReply, execFutureReply, hq]
    dsimp only
    rw [hrep, hto]
  obtain ⟨hme, hmem, hat⟩ := modTg_outOfFocus (s := u) (f := hears) hl hx hears_x rfl
  refine ⟨_, hrun, hat, hme, hmem, fun k hk => ?_⟩
  have hreqs : (u.modTg x.loc hears).reqs = u.reqs := (modTg_settles u x.loc hears).reqs
  rw [hreqs] at hk
  simpa using (List.mem_filter.mp hk).2

/-! ### The hamper (R70 to R74) -/

/-- REFILL of an entry whose record stands, into a free place. -/
theorem exec_refill_ok {s : State} {f : Fut} {n place : Nat} (hf : s.fut f.h = some f) (hsp : f.spilled = some n)
    (hmove : (s.ctx f.asid).moving = false) (hplace : s.freePlace (hTable f.h) 8176 0 = some place) (hok : s.recordOk f n = true)
    (hq : s.hwq = []) :
    ∃ r, exec (.refill f.h) s = .next r ∧ n ∉ (r.ctx f.asid).usedRecs ∧ r.mem = s.mem ∧ r.fut f.h = some { f with
      spilled := none
      place := place } := by
  obtain ⟨a, haddr⟩ : ∃ a, s.hwAddr f.asid true .load (s.recordAddr f.asid n) 32 = .at_ a := by
    unfold State.recordOk at hok
    split at hok
    · exact ⟨_, by assumption⟩
    · cases hok
  have hcheck : s.recordCheck f n = (s, some true) := by
    simp only [State.recordCheck, haddr, hok]
  have hrun : s.refillFut f.h = (s.modFut f.h fun x => { x with spilled := none, place := place }).modCtx f.asid
      fun c => { c with usedRecs := c.usedRecs.filter (· != n) } := by
    simp [State.refillFut, hf, hsp, hplace, hmove, haddr, hq, hcheck]
  have hback : (s.modFut f.h fun x => { x with spilled := none, place := place }).fut f.h = some { f with spilled := none, place := place } :=
    fut_modFut hf rfl
  refine ⟨s.refillFut f.h, by rw [exec_refill, execRefill], ?_, by rw [hrun]; rfl, by rw [hrun]; exact hback⟩
  rw [hrun, ctx_modCtx_self]
  simp

/-- HAMPER without FAILSP changes the context alone, to the base and the size that its operand names. -/
theorem hamperWrite_eq {s : State} (a : Half) {v : W64} (hno : v.getLsbD 5 = false) : ∃ f : Ctx → Ctx, s.hamperWrite a v = s.modCtx a f ∧
    ∀ c, (f c).hbase = v.toNat / 2 ^ 16 % 2 ^ 41 * 2 ^ 16 ∧ (f c).logn = v.toNat % 32 := by
  have hbit : bitOf v.toNat 5 = false := by
    rw [BitVec.getLsbD, Nat.testBit_eq_decide_div_mod_eq] at hno
    simpa [bitOf] using hno
  refine ⟨_, if_neg (by simp [hbit]), fun c => ⟨rfl, ?_⟩⟩
  simp [fieldOf]

theorem exec_hamper_ok {s : State} {a : Half} {v : W64} (hok : hamperOk v = true) (hno : v.getLsbD 5 = false) :
    ∃ r, exec (.hamper a v) s = .next r ∧ (r.ctx a).hbase = v.toNat / 2 ^ 16 % 2 ^ 41 * 2 ^ 16 ∧ (r.ctx a).logn = v.toNat % 32 ∧
      r.mem = s.mem ∧ r.futs = s.futs := by
  obtain ⟨f, hrun, hf⟩ := hamperWrite_eq (s := s) a hno
  obtain ⟨hbase, hlogn⟩ := hf (s.ctx a)
  refine ⟨s.modCtx a f, by rw [exec_hamper, execHamper, if_pos hok, hrun], ?_, ?_, rfl, rfl⟩ <;> rwa [ctx_modCtx_self]

theorem oldRecord_hwOnly (s : State) (f : Fut) : s.HwOnly (s.oldRecord f).1 := by
  unfold State.oldRecord
  extract_lets va
  split
  · exact .refl s
  · exact hwGather_hwOnly ..
  · exact .refl s
  · exact misplaced_hwOnly ..
  · exact .refl s

/-- The old records are read one for each entry. -/
theorem oldRecords_result (fs : List Fut) (s : State) :
    s.HwOnly (s.oldRecords fs).1 ∧ ∀ rs, (s.oldRecords fs).2 = some rs → rs.length = fs.length := by
  induction fs generalizing s with
  | nil => exact ⟨.refl s, fun rs h => by cases h; rfl⟩
  | cons f fs ih =>
    have hone := oldRecord_hwOnly s f
    unfold State.oldRecords
    split
    · rename_i t ht
      rw [ht] at hone
      exact ⟨hone, fun rs h => by cases h⟩
    · rename_i t b ht
      rw [ht] at hone
      obtain ⟨hrest, hlen⟩ := ih t
      split
      · rename_i u hu
        rw [hu] at hrest
        exact ⟨hone.trans hrest, fun rs h => by cases h⟩
      · rename_i u bs hu
        rw [hu] at hrest hlen
        refine ⟨hone.trans hrest, fun rs h => ?_⟩
        cases h
        rw [List.length_cons, List.length_cons, hlen bs rfl]

theorem moveRead_result (s : State) (a : Half) :
    s.HwOnly (s.moveRead a).1 ∧ ∀ rs, (s.moveRead a).2 = some rs → rs.length = (s.spilledOf a).length := by
  unfold State.moveRead
  extract_lets fs
  split
  · exact ⟨.refl s, fun rs h => by cases h⟩
  · exact oldRecords_result fs s

/-- A record at its new place: no more than its future's number of it changes. -/
theorem putRecord_still (s : State) (f : Fut) (n : Nat) (b : Option (List (Byte × Bool))) : s.Still (s.putRecord f n b) := by
  unfold State.putRecord
  extract_lets va s1
  have h1 : s.HwOnly s1 := by
    unfold s1
    split
    · exact ite_keeps ((hwPut_hwOnly ..).trans (hwOnly_of_eq rfl rfl rfl rfl)) (hwPut_hwOnly ..)
    · exact ite_keeps (.refl s) (hwWrite_hwOnly ..)
    · exact misplaced_hwOnly ..
    · exact .refl s
  clear_value s1
  exact h1.toStill.trans ⟨rfl, rfl, rfl⟩

/-- HAMPER_MOVED once every record can be read: they are numbered from 0, and the move is over. -/
theorem exec_hamperMoved_ok {s : State} {a : Half} (hmove : (s.ctx a).moving = true) (hread : (s.moveRead a).2.isSome = true) :
    ∃ r, exec (.hamperMoved a) s = .next r ∧ (r.ctx a).moving = false ∧ r.tasks = s.tasks ∧ r.me.unwoken = s.me.unwoken ∧
      (r.ctx a).usedRecs = List.range (s.spilledOf a).length := by
  obtain ⟨rs, hrs⟩ := Option.isSome_iff_exists.mp hread
  obtain ⟨hwo, hlen⟩ := moveRead_result s a
  let u : State := rs.zipIdx.foldl (fun (s : State) x => s.putRecord x.1.1 x.2 x.1.2) (s.moveRead a).1
  have hu : s.Still u := foldl_keeps (P := fun t : State => s.Still t) hwo.toStill fun t x h => h.trans (putRecord_still ..)
  let w : State := u.modCtx a fun c => { c with moving := false, usedRecs := List.range rs.length }
  have hpost := post_hwOnly w 0x104 0 0 a [(24, 8, (s.ctx a).hbase), (32, 1, (s.ctx a).logn)]
  have hctx := (ctx_of_ctxs_eq a hpost.ctxs).trans (ctx_modCtx_self u a _)
  have hrun : exec (.hamperMoved a) s = .next (w.post 0x104 0 0 a [(24, 8, (s.ctx a).hbase), (32, 1, (s.ctx a).logn)]) := by
    rw [exec_hamperMoved, execHamperMoved]
    dsimp only
    rw [if_pos hmove, show s.moveRead a = ((s.moveRead a).1, some rs) from Prod.ext rfl hrs]
  refine ⟨_, hrun, by rw [hctx], hpost.tasks.trans hu.tasks, hpost.me.trans hu.me, ?_⟩
  rw [hctx, ← hlen rs hrs]

/-- The future that FAILSP makes for a thread group that waits for an entry: FAULTED with HAMPER, and the hamper's base (R74). -/
def State.hamperFut (s : State) (a : Half) (g : TG) (h : W64) : Fut :=
  { Fut.new h a .faulted (s.ownScope a g.scopeId) ((s.task g.task).bind (·.lineage)) s.seq with
    code := kHAMPER, addr := BitVec.ofNat 64 (s.ctx a).hbase }

/-- The thread groups of a context that wait for an entry, and have no wake yet. -/
def State.entryWaiters (s : State) (a : Half) : List TG :=
  s.allTgs.filter fun g => g.ctx == a && (match g.status with
    | .parked 8 _ => g.wake.isNone
    | _ => false)

/-- The turn of one of them in FAILSP. -/
def State.failNext (a : Half) (s : State) (g : TG) : State :=
  match s.freeEntry g.loc.core.cluster true with
  | none => s
  | some (slot, gen) => (s.newFut g.loc.core.cluster slot gen (s.hamperFut a g)).1.modTg g.loc fun x =>
      { x with wake := some (.value (mkHandle s.devid g.loc.core.cluster slot gen) false) }

theorem failsp_eq (s : State) (a : Half) : s.failsp a = (s.entryWaiters a).foldl (State.failNext a) s := rfl

/-- FAILSP of the one thread group of a context that waits for an entry. -/
theorem exec_failsp_one {s : State} {a : Half} {x : TG} {slot gen : Nat} (hone : s.entryWaiters a = [x])
    (hl : s.me.loc ≠ x.loc) (hx : s.tgAt x.loc = some x) (hfree : s.freeEntry x.loc.core.cluster true = some (slot, gen)) :
    let h := mkHandle s.devid x.loc.core.cluster slot gen
    ∃ r y, exec (.failsp a) s = .next r ∧ r.futs = s.futs ++ [y] ∧ y.h = h ∧ y.st = .faulted ∧ y.code = 10 ∧ y.asid = a ∧
      r.tgAt x.loc = some { x with wake := some (.value h false) } ∧ r.me = s.me ∧ r.mem = s.mem := by
  intro h
  let u : State := (s.newFut x.loc.core.cluster slot gen (s.hamperFut a x)).1
  let hears : TG → TG := fun g => { g with wake := some (.value h false) }
  have hrun : exec (.failsp a) s = .next (u.modTg x.loc hears) := by
    rw [exec_failsp, execFailsp, failsp_eq, hone, List.foldl_cons, List.foldl_nil, State.failNext, hfree]
  obtain ⟨hme, hmem, hat⟩ := modTg_outOfFocus (s := u) (f := hears) hl hx rfl rfl
  exact ⟨_, s.hamperFut a x h, hrun, (congrArg (fun t : State => t.futs) (modTg_frame u x.loc hears) :), rfl, rfl, rfl, rfl, hat, hme, hmem⟩

/-- HAMPER_FULL after 10 ms, once. -/
theorem exec_hamperFull_due {s : State} {a : Half} (hnot : (s.ctx a).fullPosted = false)
    (hdue : ∃ g ∈ s.allTgs, g.ctx = a ∧ s.hamperWait g = true ∧ g.parkedAt + 10000000 ≤ s.ptp.toNat) :
    ∃ r, exec (.hamperFull a) s = .next r ∧ (r.ctx a).fullPosted = true ∧ r.futs = s.futs ∧ r.me.unwoken = s.me.unwoken := by
  obtain ⟨g, hg, hctx, hwait, hlong⟩ := hdue
  have hany : s.allTgs.any (fun g => g.ctx == a && s.hamperWait g && decide (g.parkedAt + 10000000 ≤ s.ptp.toNat)) = true :=
    List.any_eq_true.mpr ⟨g, hg, by simp [hctx, hwait, hlong]⟩
  let u : State := s.modCtx a fun c => { c with fullPosted := true }
  have hpost := post_hwOnly u 0x103 0 0 a [(24, 8, (s.ctx a).hbase)]
  refine ⟨u.post 0x103 0 0 a [(24, 8, (s.ctx a).hbase)], ?_, ?_, hpost.futs, hpost.me⟩
  · rw [exec_hamperFull, execHamperFull]
    dsimp only
    rw [hnot, hany]
    rfl
  · rw [ctx_of_ctxs_eq a hpost.ctxs, ctx_modCtx_self]

/-! ### Scope updates (R84, R86) -/

/-- A leave that does not end the scope's count. -/
theorem scopeLeaveNow_counting {s : State} {a : Half} {i : Nat} (hc : (s.scope a i).count ≠ 1) :
    s.scopeLeaveNow a i = s.modScope a i fun c => { c with count := c.count - 1 } := if_pos hc

/-- The last leave of a scope that is not CLOSED wakes its waiters. -/
theorem scopeLeaveNow_last {s : State} {a : Half} {i : Nat} (hc : (s.scope a i).count = 1) (hst : (s.scope a i).st ≠ .closed) :
    s.scopeLeaveNow a i = (s.modScope a i fun c => { c with count := c.count - 1 }).wakeScope a i := by
  unfold State.scopeLeaveNow
  rw [if_neg (by simp [hc]), if_neg hst]

theorem exec_scopeUpdate_settled {s : State} {m : ScopeMsg} (hm : s.scopeMsgs.find? (fun k => k.id == m.id) = some m)
    (hs : s.settled m.task = true) :
    let sc := s.scope m.asid m.scope
    ∃ r, exec (.scopeUpdate m.id) s = .next r ∧ r.scopeMsgs = s.scopeMsgs.filter (fun k => k.id != m.id) ∧ r.mem = s.mem ∧
      (sc.count ≠ 1 → r.scope m.asid m.scope = { sc with count := sc.count - 1 } ∧ r.futs = s.futs) ∧
      (sc.count = 1 → sc.st = .open_ → r.scope m.asid m.scope = { sc with
        count := 0
        waiters := [] } ∧ r.futs = s.futs) := by
  intro sc
  let u : State := { s with scopeMsgs := s.scopeMsgs.filter fun k => k.id != m.id }
  have hsc : u.scope m.asid m.scope = sc := rfl
  have hrun : exec (.scopeUpdate m.id) s = .next (u.scopeLeaveNow m.asid m.scope) := by
    rw [exec_scopeUpdate, execScopeUpdate, hm]
    dsimp only
    rw [hs]
    rfl
  have hframe := scopeLeaveNow_settles u m.asid m.scope
  refine ⟨_, hrun, hframe.scopeMsgs, hframe.mem, fun hc => ?_, fun hc hst => ?_⟩
  · rw [scopeLeaveNow_counting (by rw [hsc]; exact hc), scope_modScope_self]
    exact ⟨rfl, rfl⟩
  · rw [scopeLeaveNow_last (by rw [hsc]; exact hc) (by rw [hsc, hst]; exact fun h => by cases h), scope_wakeScope_self, scope_modScope_self,
      wakeScope_futs, hsc, hc]
    exact ⟨rfl, rfl⟩

/-- Settles O48: each clause is the rule of its step above. -/
theorem futureTableStepResult : Obligations.FutureTableStepResult := by
  intro s q f x c a v w m n slot gen place k st tg cls quiet
  refine ⟨?requests, exec_futureRequest_note, exec_futureReply_here, ?spill, exec_refill_ok, exec_hamper_ok, exec_hamperMoved_ok,
    exec_failsp_one, exec_hamperFull_due, exec_scopeUpdate_settled⟩
  case requests =>
    intro hqh hkind hdev hclus hf hres hend code
    have h : s.TakesActs f := ⟨hf, hres, hend, hkind, hdev, hclus⟩
    refine ⟨fun hq hrep hown => ⟨fun hop => ?_, fun hop hlive hdet ht => ?_⟩, exec_futureRequest_far_poll h⟩
    · have hact := act_poll h (hTable q.h) q.dev q.tg q.v q.vp q.eff
      rw [← hqh, ← hop] at hact
      exact ⟨_, exec_futureRequest_own hq hrep hown hact, rfl, find?_replied code hq⟩
    · have hact := act_settling h (hTable q.h) q.dev q.tg q.v q.vp q.eff (op := .resolve) rfl
      rw [if_neg (by simp [hlive]), conclude_eq, if_neg (by simp [hdet]),
        dropTask_of_none ((task_of_tasks_eq _ (enters_tasks_of_none ht)).trans ht)] at hact
      rw [← hop, ← hqh] at hact
      refine ⟨_, _, exec_futureRequest_own hq hrep hown hact, fut_enters_self hf, rfl, rfl, enters_settles.mem, ?_⟩
      exact find?_replied code ((congrArg (List.find? _) enters_settles.reqs).trans hq)
  case spill =>
    intro hfew hl hn
    obtain ⟨r, hrun, hend, hr⟩ := spill_result hfew hl hn
    exact ⟨r, hrun, hend, hr.futs, hr.me, hr.tasks⟩

end Sys2Proof.Machine
end

section
/-! SUPPORT. O13: in a calm state the stores of an instruction are queued at their core, line by line, and nothing else changes (R98, R230). -/

namespace Sys2Proof.Machine

open Sys2Proof

/-! ### Entries of one line access (R230) -/

/-- Grouping moves no entry across another one that every entry joins alike. -/
theorem filter_flatten_groupBy (p : StEnt → StEnt → Bool) (q : StEnt → Bool) (n : Nat) (l : List StEnt) (hn : l.length ≤ n)
    (h : ∀ a ∈ l, ∀ b ∈ l, ∀ c ∈ l, q b = true → q c = true → p a b = p a c) :
    (groupBy_ p n l).flatten.filter q = l.filter q := by
  induction n generalizing l with
  | zero => rw [List.length_eq_zero_iff.mp (Nat.le_zero.mp hn)]; rfl
  | succ n ih =>
    cases l with
    | nil => rfl
    | cons e r =>
      have hrest := ih (r.filter fun x => !p e x) ((List.length_filter_le ..).trans (by simpa using hn)) fun a ha b hb c hc =>
        h a (.tail e (List.mem_of_mem_filter ha)) b (.tail e (List.mem_of_mem_filter hb)) c (.tail e (List.mem_of_mem_filter hc))
      have hsplit : (r.filter (p e)).filter q ++ (r.filter fun x => !p e x).filter q = r.filter q := by
        simp only [List.filter_filter]
        by_cases hin : ∃ b ∈ r, q b = true ∧ p e b = true
        · obtain ⟨b, hb, hqb, hpb⟩ := hin
          have hall : ∀ x ∈ r, q x = true → p e x = true := fun x hx hqx =>
            (h e List.mem_cons_self x (.tail e hx) b (.tail e hb) hqx hqb).trans hpb
          have hin : r.filter (fun x => q x && p e x) = r.filter q := List.filter_congr fun x hx => by simpa using hall x hx
          have hout : r.filter (fun x => q x && !p e x) = [] := List.filter_eq_nil_iff.mpr fun x hx => by simpa using hall x hx
          rw [hin, hout, List.append_nil]
        · have hno : ∀ x ∈ r, q x = true → p e x = false := fun x hx hqx =>
            Bool.eq_false_iff.mpr fun hpx => hin ⟨x, hx, hqx, hpx⟩
          have hin : r.filter (fun x => q x && p e x) = [] := List.filter_eq_nil_iff.mpr fun x hx => by simpa using hno x hx
          have hout : r.filter (fun x => q x && !p e x) = r.filter q := List.filter_congr fun x hx => by simpa using hno x hx
          rw [hin, hout, List.nil_append]
      rw [groupBy_, List.flatten_cons, List.filter_append, hrest, List.filter_cons, List.filter_cons]
      split
      · rw [List.cons_append, hsplit]
      · exact hsplit

theorem flatten_groupBy_perm (p : StEnt → StEnt → Bool) (n : Nat) (l : List StEnt) (hn : l.length ≤ n) :
    (groupBy_ p n l).flatten.Perm l := by
  induction n generalizing l with
  | zero => rw [List.length_eq_zero_iff.mp (Nat.le_zero.mp hn)]; exact .refl _
  | succ n ih =>
    cases l with
    | nil => exact .refl _
    | cons e r =>
      have hrest := ih (r.filter fun x => !p e x) ((List.length_filter_le ..).trans (by simpa using hn))
      exact (hrest.append_left _).trans (.cons e (List.filter_append_perm (p e) r))

/-- An entry that covers a byte and does not leave its line is of that byte's line. -/
theorem lineOf_of_covers {e : StEnt} {asid : Half} {x : Nat} (hfit : e.va.toNat % 128 + e.size ≤ 128) (h : e.covers asid x = true) :
    lineOf e.va.toNat = lineOf x := by
  simp only [StEnt.covers, Bool.and_eq_true, decide_eq_true_eq] at h
  unfold lineOf
  omega

/-! ### The stores of one instruction (R98, R229) -/

/-- A store of z bytes passes the checks of R229 and is accepted; poison goes only into the local store of the thread group itself. -/
def State.storable (s : State) (z : Nat) (va : W64) (p : Bool) : Prop :=
  s.clears true va.toNat z ∧ s.accepts va ∧ (p = true → s.me.isPrivate va.toNat z = true)

/-- An entry that the current instruction stores and that its core accepts. -/
structure State.Stores (s : State) (e : StEnt) : Prop where
  seq : e.seq = s.seq
  inLog : e.inLog = false
  fits : e.va.toNat % 128 + e.size ≤ 128
  accepted : s.accepts e.va
  kept : e.poison = true → s.me.isPrivate e.va.toNat e.size = true

/-- t is s with entries behind those of the current core's FIFO, but for the progress of the instruction. -/
structure State.Queues (s t : State) (l : List StEnt) : Prop where
  eq : { t with cores := s.cores, seq := s.seq }.modMe (fun g => { g with phase := s.me.phase }) = s
  cores : ∀ c, t.core c = { s.core c with fifo := (s.core c).fifo ++ if c = s.me.loc.core then l else [] }

theorem State.Queues.refl (s : State) : s.Queues s [] := ⟨rfl, fun c => by simp⟩

theorem core_modCore (s : State) (c d : CoreId) (f : Core → Core) : (s.modCore c f).core d = if d = c then f (s.core c) else s.core d := by
  unfold State.core State.modCore kget
  split
  · rename_i h
    rw [h, kfind_kset_self]
    rfl
  · rename_i h
    rw [kfind_kset_ne h]

section
variable {s t : State} {l : List StEnt} (h : s.Queues t l)
include h

theorem State.Queues.loc : t.me.loc = s.me.loc := (congrArg (fun x : State => x.me.loc) h.eq :)

theorem State.Queues.storeFaults (va : W64) : t.storeFaults va = s.storeFaults va := (congrArg (fun x : State => x.storeFaults va) h.eq :)

/-- With no entry in the log, one line's entries that meet no fault join the store buffer. -/
theorem State.Queues.storeGroup (hlog : (s.core s.me.loc.core).fifo = []) (hl : ∀ e ∈ l, e.inLog = false) {g : List StEnt}
    (hg : ∀ e ∈ g, s.Stores e) : ∃ u, t.storeGroup g = (u, true) ∧ s.Queues u (l ++ g) := by
  have hfifo : (t.core s.me.loc.core).fifo = l := by simp [h.cores, hlog]
  have hnolog : (t.core s.me.loc.core).log = [] := by
    rw [Core.log, hfifo, List.filter_eq_nil_iff]
    exact fun e he => by simp [hl e he]
  have hnofault : (g.any fun e => t.storeFaults e.va) = false :=
    List.any_eq_false.mpr fun e he => by rw [h.storeFaults, (hg e he).accepted.2]; exact Bool.false_ne_true
  have hsame : (g.map fun e => { e with inLog := false }) = g :=
    (List.map_congr_left (g := id) fun e he => by rw [← (hg e he).inLog]; rfl).trans (List.map_id g)
  refine ⟨t.bump.modCore s.me.loc.core fun k => { k with fifo := k.fifo ++ g }, ?_, h.eq, fun c => ?_⟩
  · unfold State.storeGroup
    simp only [h.loc, hnolog, hnofault, hsame, ne_eq, not_true_eq_false, if_false, Bool.false_eq_true, Bool.or_false]
  · rw [core_modCore]
    split
    · rename_i hc
      subst hc
      rw [show t.bump.core s.me.loc.core = t.core s.me.loc.core from rfl, h.cores]
      simp [hlog]
    · rename_i hc
      rw [show t.bump.core c = t.core c from rfl, h.cores]
      simp [hc]

end

theorem storeLoop_queues {s : State} (hlog : (s.core s.me.loc.core).fifo = []) (gs : List (List StEnt)) (hgs : ∀ g ∈ gs, ∀ e ∈ g, s.Stores e) :
    ∀ {t : State} {l : List StEnt}, s.Queues t l → (∀ e ∈ l, e.inLog = false) →
      ∃ u, t.storeLoop gs = (u, true) ∧ s.Queues u (l ++ gs.flatten) := by
  induction gs with
  | nil => exact fun {t l} h _ => ⟨t, rfl, by simpa using h⟩
  | cons g gs ih =>
    intro t l h hl
    obtain ⟨u, hu, hq⟩ := h.storeGroup hlog hl (hgs g List.mem_cons_self)
    have hnext : s.Queues (u.modMe fun t => { t with phase := { t.phase with next := t.phase.next + 1 } }) (l ++ g) := ⟨hq.eq, hq.cores⟩
    obtain ⟨v, hv, hr⟩ := ih (fun x hx => hgs x (.tail g hx)) hnext fun e he =>
      (List.mem_append.mp he).elim (hl e) fun hin => (hgs g List.mem_cons_self e hin).inLog
    refine ⟨v, ?_, by simpa using hr⟩
    rw [State.storeLoop, hu]
    exact hv

/-- No lane of accepted stores fails at step 6 or 7 of R229. -/
theorem storeCheck_stores {s : State} {es : List StEnt} (h : ∀ e ∈ es, s.Stores e) : s.storeCheck es = none := by
  have hfind : es.find? (fun e => (s.storeFatal e.va).isSome || s.storeFaults e.va) = none :=
    List.find?_eq_none.mpr fun e he => by
      obtain ⟨hfatal, hfaults⟩ := (h e he).accepted
      simp [hfatal, hfaults]
  have hfilter : es.filter (fun e => e.poison && !s.me.isPrivate e.va.toNat e.size) = [] :=
    List.filter_eq_nil_iff.mpr fun e he => by
      have hkept := (h e he).kept
      cases hp : e.poison <;> simp_all
  unfold State.storeCheck
  rw [hfind, hfilter]
  rfl

/-- The stores of an instruction in a calm state: all of them are queued, those of one byte in their order. -/
theorem storeAll_calm {s : State} (hs : s.Calm) {es : List StEnt} (h : ∀ e ∈ es, s.Stores e) :
    ∃ u, s.storeAll es = (u, true) ∧ s.storesTo u.advance es := by
  obtain ⟨hfifo, -, -, -, hphase, -⟩ := hs
  have hperm := flatten_groupBy_perm StEnt.joins es.length es le_rfl
  have hgs : ∀ g ∈ groupBy_ StEnt.joins es.length es, ∀ e ∈ g, s.Stores e := fun g hg e he =>
    h e (hperm.mem_iff.mp (List.mem_flatten.mpr ⟨g, hg, he⟩))
  obtain ⟨u, hu, hq⟩ := storeLoop_queues hfifo _ hgs (.refl s) (by simp)
  rw [List.nil_append] at hq
  refine ⟨u, ?_, ?_, ⟨_, hperm, fun x => ?_, ?_⟩, fun c => ?_⟩
  · rw [State.storeAll, if_pos (by rw [hphase]; rfl), storeCheck_stores h]
    exact hu
  · exact (congrArg (fun x : State => x.advance) hq.eq :)
  · refine filter_flatten_groupBy _ _ _ _ le_rfl fun a ha b hb c hc hxb hxc => ?_
    unfold StEnt.joins StEnt.together
    rw [(h b hb).seq, (h c hc).seq, lineOf_of_covers (h b hb).fits hxb, lineOf_of_covers (h c hc).fits hxc]
  · show (u.core s.me.loc.core).fifo = _
    rw [hq.cores, if_pos rfl]
  · show ({ u.core c with fifo := [] } : Core) = _ ∧ (_ → (u.core c).fifo = _)
    rw [hq.cores]
    exact ⟨rfl, fun hc => by simp [hc]⟩

/-- With no lane, an instruction ends and stores nothing. -/
theorem advance_storesTo (s : State) : s.storesTo s.advance [] :=
  ⟨rfl, ⟨[], .refl _, fun _ => rfl, (List.append_nil _).symm⟩, fun _ => ⟨rfl, fun _ => rfl⟩⟩

/-! ### Checks and addresses (R229, R232) -/

theorem length_bytesOf (n x : Nat) : (bytesOf n x).length = n := by
  induction n generalizing x with
  | zero => rfl
  | succ n ih => rw [bytesOf, List.length_cons, ih]

/-- The checks of R229 let an instruction pass whose accesses are all clear. -/
theorem withChecks_clear {s : State} {write poison : Bool} {z : Nat} {as_ : List Acc1} {f : State → State} (hp : poison = false)
    (h : ∀ x ∈ as_, s.clears write x.addr.toNat z) : s.withChecks write poison z as_ f = f s := by
  let use : LockUse := if write then .store else .load
  have haddr : as_.find? (fun x => addrCheck s.mode s.me.super write x.addr.toNat z != .ok) = none :=
    List.find?_eq_none.mpr fun x hx => by simp [(h x hx).1]
  have halign : as_.find? (fun x => x.addr.toNat % z != 0) = none := List.find?_eq_none.mpr fun x hx => by simp [(h x hx).2.1]
  have hlock : as_.find? (fun x => (s.lockHit s.me.loc.core.cluster s.me.asid use x.addr.toNat z).isSome) = none :=
    List.find?_eq_none.mpr fun x hx => by simp [use, (h x hx).2.2]
  have hcheck : s.accCheck write z as_ = none := by
    unfold State.accCheck
    dsimp only
    rw [haddr, halign, hlock]
  unfold State.withChecks
  rw [hp, hcheck]
  simp

theorem vecMem_clear {s : State} {g : Guard} {write : Bool} {z : Nat} {addr : TG → Fin 32 → W64} {poison : TG → W32}
    {f : State → List (Fin 32) → State} (hg : s.me.opens g) (hp : poison s.me &&& s.me.x = 0)
    (h : ∀ l ∈ s.me.xLanes, s.clears write (addr s.me l).toNat z) :
    s.vecMem g write z addr poison f = if s.me.xLanes = [] then s.advance else f s s.me.xLanes := by
  unfold State.vecMem
  rw [withK_open s g _ hg]
  dsimp only
  rw [withChecks_clear (by simp [hp]) fun x hx => by
    obtain ⟨l, hl, rfl⟩ := List.mem_map.mp hx
    exact h l hl]

/-- An aligned access of one of the widths stays in its line. -/
theorem mod_line_le {z a : Nat} (hz : z ∈ [1, 2, 4, 8]) (h : a % z = 0) : a % 128 + z ≤ 128 := by
  simp only [List.mem_cons, List.not_mem_nil, or_false] at hz
  rcases hz with rfl | rfl | rfl | rfl <;> omega

/-- A storable access enters with an entry of its size. -/
theorem State.storable.stores {s : State} {z : Nat} {va : W64} {p : Bool} {op : StOp} {data : List Byte} (h : s.storable z va p)
    (hz : z ∈ [1, 2, 4, 8]) (hsize : (s.mkEnt va op data p false).size = z) : s.Stores (s.mkEnt va op data p false) := by
  obtain ⟨hclear, haccept, hpriv⟩ := h
  exact ⟨rfl, rfl, by rw [hsize]; exact mod_line_le hz hclear.2.1, haccept, by rw [hsize]; exact hpriv⟩

theorem allLanes_clean {g : TG} {a : UReg} (ha : g.sp.getLsbD a.val = false) (p : W32) : allLanes (g.spoison a) ||| p = p := by
  rw [TG.spoison, ha]
  exact BitVec.zero_or

theorem poisonStride_clean {g : TG} {a : UReg} (b : UReg) (ha : g.sp.getLsbD a.val = false) :
    poisonStride a b g = if g.sp.getLsbD b.val then 0xFFFFFFFF#32 else 0#32 := by
  rw [poisonStride, TG.spoison, TG.spoison, ha, Bool.false_or]
  rfl

theorem poisonUnit_clean {g : TG} {a : UReg} (ha : g.sp.getLsbD a.val = false) : poisonUnit a g = 0#32 := by
  rw [poisonUnit, TG.spoison, ha]
  rfl

/-- Nothing holds a fence up in a calm state (R103). -/
theorem afterFence_calm {s : State} (hs : s.Calm) (sc : Scope) (k : State → State) : s.afterFence sc k = k s := by
  obtain ⟨hfifo, hwrs, -⟩ := hs
  have hready : s.fenceReady sc s.markOf = true := by
    unfold State.fenceReady
    cases sc <;> simp [State.bufferClear, State.logClear, State.visible, hfifo, hwrs]
  exact if_pos hready

/-! ### The forms (R232 to R234) -/

section
variable {s : State} {g : Guard} {z : Nat} (hc : s.Calm)
include hc

/-- A vector store of z bytes a lane. -/
theorem vstore_stores {addr : TG → Fin 32 → W64} {poison : TG → W32} {data : TG → Fin 32 → List Byte × Bool} (hg : s.me.opens g)
    (hz : z ∈ [1, 2, 4, 8]) (hlen : ∀ l, (data s.me l).1.length = z) (hp : poison s.me &&& s.me.x = 0)
    (h : ∀ l ∈ s.me.xLanes, s.storable z (addr s.me l) (data s.me l).2) :
    s.storesTo (s.vstore g z addr poison data)
      (s.me.xLanes.map fun l => s.mkEnt (addr s.me l) .store (data s.me l).1 (data s.me l).2 false) := by
  obtain ⟨u, hu, hst⟩ := storeAll_calm hc (es := s.me.xLanes.map fun l => s.mkEnt (addr s.me l) .store (data s.me l).1 (data s.me l).2 false)
    fun e he => by
      obtain ⟨l, hl, rfl⟩ := List.mem_map.mp he
      exact (h l hl).stores hz (hlen l)
  unfold State.vstore
  rw [vecMem_clear hg hp fun l hl => (h l hl).1]
  split
  · rename_i hnil
    rw [hnil]
    exact advance_storesTo s
  · rw [hu]
    exact hst

/-- A uniform store of z bytes. -/
theorem ustore_stores {d a : UReg} {va : W64} (ha : s.me.sp.getLsbD a.val = false) (hz : z ∈ [1, 2, 4, 8])
    (h : s.storable z va (s.me.sp.getLsbD d.val)) :
    s.storesTo (s.ustore d a va z) [s.mkEnt va .store (bytesOf z (s.me.s[d]).toNat) (s.me.sp.getLsbD d.val) false] := by
  obtain ⟨u, hu, hst⟩ := storeAll_calm hc (es := [s.mkEnt va .store (bytesOf z (s.me.s[d]).toNat) (s.me.sp.getLsbD d.val) false])
    fun e he => by
      cases List.mem_singleton.mp he
      exact h.stores hz (length_bytesOf ..)
  unfold State.ustore
  rw [withChecks_clear (show s.me.spoison a = false from ha) fun x hx => by cases List.mem_singleton.mp hx; exact h.1]
  simp only [TG.sget, TG.spoison, hu]
  exact hst

end

/-! ### The quantising stores (R233) -/

theorem qFmt_eq (q : W64) : qFmt q = q.toNat % 256 := by simp [qFmt, fieldOf]

theorem qAddr_eq (q base : W64) (e : W32) :
    qAddr q base e = base + BitVec.ofNat 64 (if q.toNat % 256 = 0x11 then e.toNat / 2 else e.toNat) := by
  unfold qAddr
  rw [qFmt_eq]
  congr 1
  apply BitVec.eq_of_toNat_eq
  have he := e.isLt
  split
  · simp [Nat.shiftRight_eq_div_pow]
    omega
  · simp

/-- The entry of a lane's code, as the model writes it. -/
def State.codeEnt (s : State) (d : VReg) (a : UReg) (e : TG → Fin 32 → W32) (l : Fin 32) : StEnt :=
  let t := s.me
  let c := (qEncode t.qctx t.qbase (e t l) (t.vget d)[l]).toNat
  let op : StOp := if qFmt t.qctx = 0x11 then (if (e t l).toNat % 2 = 0 then .nibLo else .nibHi) else .store
  let byte := if op = .nibHi then c * 16 else c
  s.mkEnt (qAddr t.qctx (t.sget a) (e t l)) op [BitVec.ofNat 8 byte] ((t.vpoison d).getLsbD l.val || t.qpoison) false

/-- A 4-bit code goes into its half of the byte, any other into the byte. -/
theorem codeEnt_eq (s : State) (d : VReg) (a : UReg) (e : TG → Fin 32 → W32) (l : Fin 32) :
    let place := s.me.s[a] + BitVec.ofNat 64 (if s.me.qctx.toNat % 256 = 0x11 then (e s.me l).toNat / 2 else (e s.me l).toNat)
    let code := (qEncode s.me.qctx s.me.qbase (e s.me l) s.me.v[d][l]).toNat
    let p := s.me.vp[d].getLsbD l.val || s.me.qpoison
    s.codeEnt d a e l = if s.me.qctx.toNat % 256 = 0x11 then
        (if (e s.me l).toNat % 2 = 0 then s.mkEnt place .nibLo [BitVec.ofNat 8 code] p false
          else s.mkEnt place .nibHi [BitVec.ofNat 8 (16 * code)] p false)
      else s.mkEnt place .store [BitVec.ofNat 8 code] p false := by
  unfold State.codeEnt
  simp only [qAddr_eq, qFmt_eq]
  by_cases hfmt : s.me.qctx.toNat % 256 = 0x11
  · by_cases heven : (e s.me l).toNat % 2 = 0
    · simp only [hfmt, heven, if_true]
      rfl
    · simp only [hfmt, heven, if_true, if_false, Nat.mul_comm]
      rfl
  · simp only [hfmt, if_false]
    rfl

theorem codeEnt_va (s : State) (d : VReg) (a : UReg) (e : TG → Fin 32 → W32) (l : Fin 32) : (s.codeEnt d a e l).va =
    s.me.s[a] + BitVec.ofNat 64 (if s.me.qctx.toNat % 256 = 0x11 then (e s.me l).toNat / 2 else (e s.me l).toNat) := qAddr_eq ..

theorem codeEnt_size (s : State) (d : VReg) (a : UReg) (e : TG → Fin 32 → W32) (l : Fin 32) : (s.codeEnt d a e l).size = 1 := by
  rw [codeEnt_eq]
  split_ifs <;> rfl

section
variable {s : State} {g : Guard} {d : VReg} {a : UReg} {e : TG → Fin 32 → W32} {ep : TG → W32} (hc : s.Calm)
include hc

theorem qstore_stores (hg : s.me.opens g) (ha : s.me.sp.getLsbD a.val = false) (hfmt : s.me.qctx.toNat % 256 ≠ 0)
    (hp : ep s.me &&& s.me.x = 0)
    (h : ∀ l ∈ s.me.xLanes, s.storable 1 (s.codeEnt d a e l).va (s.codeEnt d a e l).poison) :
    s.storesTo (s.qstore g d a e ep) (s.me.xLanes.map (s.codeEnt d a e)) := by
  obtain ⟨u, hu, hst⟩ := storeAll_calm hc (es := s.me.xLanes.map (s.codeEnt d a e)) fun x hx => by
    obtain ⟨l, hl, rfl⟩ := List.mem_map.mp hx
    exact (h l hl).stores (by decide) (codeEnt_size s d a e l)
  unfold State.qstore State.withFmt
  rw [withK_open s g _ hg]
  dsimp only
  rw [if_neg (by rwa [qFmt_eq]), vecMem_clear (.inl rfl) (by rw [allLanes_clean ha]; exact hp) fun l hl => (h l hl).1]
  split
  · rename_i hnil
    rw [hnil]
    exact advance_storesTo s
  · change s.storesTo (match s.storeAll (s.me.xLanes.map (s.codeEnt d a e)) with | (s, false) => s | (s, true) => s.advance) _
    rw [hu]
    exact hst

end

/-- The offset of a compact store, which is not signed (R185). -/
theorem cAddress_eq (base : W64) (n : BitVec 3) : mAddress base (.short (n.setWidth 8)) 8 = base + 8 * n.zeroExtend 64 := by
  have hn : ∀ n : BitVec 3, (n.setWidth 8).signExtend 64 = n.zeroExtend 64 := by decide
  rw [mAddress, hn, BitVec.mul_comm]
  rfl

/-- Settles O13: each form is `vstore_stores`, `ustore_stores` or `qstore_stores` at its addresses and data. -/
theorem storeEntersTheBuffer : Obligations.StoreEntersTheBuffer := by
  refine ⟨?plain, ?quantised⟩
  case plain =>
    intro s g d a b w u o cd ca n sc hg hc ha c32 ent off stride unit lanes low pd both pboth ok
    have hlow : ∀ z l, (low z l).length = z := fun z l => length_bytesOf ..
    refine ⟨fun c hmem hp hok => ?_, fun c hmem hca hok => ?_⟩
    · simp only [List.mem_cons, List.not_mem_nil, or_false] at hmem
      rcases hmem with rfl | rfl | rfl | rfl | rfl | rfl
      · exact ⟨_, exec_vstw .., vstore_stores hc hg (by decide) (hlow 4) (by rw [poisonOff, allLanes_clean ha]; exact hp) hok⟩
      · exact ⟨_, exec_vsth .., vstore_stores hc hg (by decide) (hlow 2) (by rw [poisonOff, allLanes_clean ha]; exact hp) hok⟩
      · exact ⟨_, exec_vstb .., vstore_stores hc hg (by decide) (hlow 1) (by rw [poisonOff, allLanes_clean ha]; exact hp) hok⟩
      · exact ⟨_, exec_vstd .., vstore_stores hc hg (by decide) (fun l => by simp [TG.pairData, length_bytesOf])
          (by rw [poisonOff, allLanes_clean ha]; exact hp) hok⟩
      · exact ⟨_, exec_vstsw .., vstore_stores hc hg (by decide) (hlow 4) (by rw [poisonStride_clean w ha]; exact hp) hok⟩
      · exact ⟨_, exec_vstc .., vstore_stores hc hg (by decide) (hlow 4) (by rw [poisonUnit_clean ha]; exact hp) hok⟩
    · simp only [List.mem_cons, List.not_mem_nil, or_false] at hmem
      rcases hmem with rfl | rfl | rfl | rfl
      · rw [exec_sst, execSst, withK_open s g _ hg]
        exact ⟨_, rfl, ustore_stores hc hca (by decide) hok⟩
      · rw [exec_ssts, execSsts, withK_open s g _ hg]
        exact ⟨_, rfl, ustore_stores hc hca (by decide) hok⟩
      · rw [exec_sstrel, execSstrel, withK_open s g _ hg]
        dsimp only
        rw [withChecks_clear (show s.me.spoison a = false from hca) fun x hx => by cases List.mem_singleton.mp hx; exact hok.1, afterFence_calm hc]
        exact ⟨_, rfl, ustore_stores hc hca (by decide) hok⟩
      · rw [exec_cSst, execCSst, cAddress_eq]
        exact ⟨_, rfl, ustore_stores hc hca (by decide) hok⟩
  case quantised =>
    intro s g d a b hg hc ha hfmt int4 place code lanes p c hmem hp hok
    have hstorable : ∀ (e : TG → Fin 32 → W32) (l : Fin 32), s.storable 1 (place (e s.me l)) (p l) →
        s.storable 1 (s.codeEnt d a e l).va (s.codeEnt d a e l).poison := by
      intro e l h
      rw [codeEnt_va]
      exact h
    simp only [List.mem_cons, List.not_mem_nil, or_false] at hmem
    rcases hmem with rfl | rfl
    · refine ⟨_, exec_vstq .., ?_⟩
      have hq := qstore_stores (e := elemB b) (ep := fun t => t.bpoison b) hc hg ha hfmt hp fun l hl => hstorable _ l (hok l hl)
      rwa [List.map_congr_left fun l _ => codeEnt_eq s d a (elemB b) l] at hq
    · refine ⟨_, exec_vstsc .., ?_⟩
      have hq := qstore_stores (e := elemL) (ep := fun _ => 0) hc hg ha hfmt hp fun l hl => hstorable _ l (hok l hl)
      rwa [List.map_congr_left fun l _ => codeEnt_eq s d a elemL l] at hq

end Sys2Proof.Machine
end

section
/-! SUPPORT. O49: stores and atomics at their storage, collapses, replicas and waits without a watch (R93 to R105, R115, R243). -/

namespace Sys2Proof.Machine

open Sys2Proof

/-! ### What a write at its storage leaves (R243, R334) -/

/-- t is s but for storage, the code words and marks that go with it, and the watches that a write ends. -/
structure State.Wrote (s t : State) : Prop where
  eq : { t with
    mem := s.mem
    poison := s.poison
    seen := s.seen
    ctxOld := s.ctxOld
    dies := s.dies
    watches := s.watches
    me := s.me
    tgs := s.tgs } = s

theorem State.Wrote.refl (s : State) : s.Wrote s := ⟨rfl⟩
theorem State.Wrote.trans {s t u : State} (h : s.Wrote t) (k : t.Wrote u) : s.Wrote u :=
  ⟨(congrArg (fun x : State => { x with
    mem := s.mem
    poison := s.poison
    seen := s.seen
    ctxOld := s.ctxOld
    dies := s.dies
    watches := s.watches
    me := s.me
    tgs := s.tgs }) k.eq).trans h.eq⟩

section
variable {s t : State} (h : s.Wrote t)
include h

theorem State.Wrote.core (c : CoreId) : t.core c = s.core c := (congrArg (fun x : State => x.core c) h.eq :)
theorem State.Wrote.wrs : t.wrs = s.wrs := (congrArg (fun x : State => x.wrs) h.eq :)

end

/-- Waking the watches on bytes changes watches and thread groups alone. -/
theorem wakeWatches_frame (s : State) (a n : Nat) : { s.wakeWatches a n with watches := s.watches, me := s.me, tgs := s.tgs } = s := by
  unfold State.wakeWatches
  extract_lets hit s1
  have h1 : { s1 with me := s.me, tgs := s.tgs } = s :=
    foldl_keeps (P := fun t : State => { t with me := s.me, tgs := s.tgs } = s) rfl fun t w h =>
      (congrArg (fun x : State => { x with me := s.me, tgs := s.tgs }) (modTg_frame t w.tg (TG.hear .go))).trans h
  clear_value s1
  exact (congrArg (fun x : State => { x with watches := s.watches }) h1 :)

theorem encodeSpad_wrote (s : State) (a n : Nat) : s.Wrote (s.encodeSpad a n) :=
  ite_keeps (ite_keeps (.refl s) ⟨rfl⟩) (.refl s)

theorem writeAt_wrote (s : State) (a : Nat) (bs : List Byte) (p : Bool) : s.Wrote (s.writeAt a bs p) := by
  let u : State := (s.encodeSpad a bs.length).onSoc (·.put a bs p)
  have hput : s.Wrote u := (encodeSpad_wrote s a bs.length).trans ⟨rfl⟩
  have hwake : u.Wrote (u.wakeWatches a bs.length) := ⟨(congrArg (fun x : State => { x with
    mem := u.mem
    poison := u.poison
    seen := u.seen
    ctxOld := u.ctxOld
    dies := u.dies }) (wakeWatches_frame u a bs.length) :)⟩
  exact hput.trans hwake

/-! ### One entry at its storage (R237) -/

theorem atomAt_store {s : State} {e : StEnt} (a : Nat) (he : e.op = .store) :
    s.atomAt a e = (s.writeAt a e.data e.poison, s.marked a e.size) := by
  simp only [State.atomAt, he]

theorem atomAt_atom {s : State} {e : StEnt} {m : Nat} (a : Nat) (he : e.op = .atom m) :
    s.atomAt a e = (s.writeAt a (atomNew m (memBytes s.mem a e.size) e.data) (e.poison || (s.marked a e.size).2.any id), s.marked a e.size) := by
  simp only [State.atomAt, he]
  rfl

theorem atomAt_wrote (s : State) (a : Nat) (e : StEnt) : s.Wrote (s.atomAt a e).1 := by
  unfold State.atomAt
  dsimp only
  split
  case h_5 => exact .refl s
  all_goals exact writeAt_wrote ..

/-- The new value of an atomic has the size of its operand in storage. -/
theorem length_atomNew {e : StEnt} {m : Nat} {old : List Byte} (he : e.op = .atom m) (hold : old.length = e.size) :
    (atomNew m old e.data).length = e.size := by
  simp only [StEnt.size, he] at hold ⊢
  unfold atomNew
  dsimp only
  split <;> simp_all [length_bytesOf, apply_ite List.length]

/-! ### The head access of a core (R98, R115) -/

/-- A byte of storage after stores at their addresses, one after another. -/
theorem memGet_applyEnts {s : State} (hs : s.MemOk) (l : List StEnt) (hl : ∀ y ∈ l, y.op = .store) (x : Nat) :
    memGet (l.foldl (fun (s : State) y => s.applyEnt y.va.toNat y) s).mem x = l.foldl (fun b y =>
      if y.va.toNat ≤ x ∧ x < y.va.toNat + y.data.length then y.data.getD (x - y.va.toNat) 0 else b) (memGet s.mem x) := by
  induction l generalizing s with
  | nil => rfl
  | cons y l ih =>
    have hone : s.applyEnt y.va.toNat y = s.writeAt y.va.toNat y.data y.poison :=
      congrArg Prod.fst (atomAt_store y.va.toNat (hl y List.mem_cons_self))
    rw [List.foldl_cons, List.foldl_cons, hone, ih (writeAt_memOk hs) fun z hz => hl z (.tail y hz), writeAt_mem, memGet_memPut _ _ _ _ hs.1]

theorem applyAll_wrote (s : State) (xs : List (Nat × StEnt)) : s.Wrote (s.applyAll xs) := by
  have h : s.Wrote (xs.foldl (fun (s : State) x => s.applyEnt x.1 x.2) s) :=
    foldl_keeps (P := fun t : State => s.Wrote t) (.refl s) fun t x h => h.trans (atomAt_wrote t x.1 x.2)
  exact ite_keeps h (h.trans ⟨rfl⟩)

theorem applyAll_mem (s : State) (xs : List (Nat × StEnt)) :
    (s.applyAll xs).mem = (xs.foldl (fun (s : State) x => s.applyEnt x.1 x.2) s).mem := by
  unfold State.applyAll
  extract_lets t
  split <;> rfl

/-- Entries at their own addresses. -/
def atOwn (l : List StEnt) : List (Nat × StEnt) := l.map fun y => (y.va.toNat, y)

/-- Clean entries of one access to a scratchpad or local store of the core's own die are applied there. -/
theorem performLine_ownWindow {s : State} {c : CoreId} {e : StEnt} {es : List StEnt} (hwin : isWindow e.va.toNat = true)
    (hkind : (winOf e.va.toNat).kind < 2) (hdie : (winOf e.va.toNat).die = c.die) (hclean : ∀ y ∈ e :: es, y.poison = false) :
    s.performLine c (e :: es) = .done (s.applyAll (atOwn (e :: es))) := by
  have hnone : (e :: es).any s.tainted = false := List.any_eq_false.mpr fun y hy => by simp [State.tainted, hclean y hy]
  have htaint : s.taintAt c (e :: es) = none := if_neg (by rw [hnone]; exact Bool.false_ne_true)
  have hown : (fun x : StEnt => (sameLine e x e.va.toNat, x)) = fun x => (x.va.toNat, x) := by
    funext x
    rw [sameLine, Nat.add_sub_cancel_left]
  unfold State.performLine
  simp only [hwin, htaint, hdie, hown, if_true, if_neg (show ¬2 < (winOf e.va.toNat).kind by omega)]
  rfl

/-- The whole FIFO is one access: it is performed, and nothing is left of it. -/
theorem performHead_ownWindow {s : State} {c : CoreId} {e : StEnt} {es : List StEnt} (hs : s.MemOk) (hfifo : (s.core c).fifo = e :: es)
    (hjoin : ∀ y ∈ es, e.joins y = true) (hwin : isWindow e.va.toNat = true) (hkind : (winOf e.va.toNat).kind < 2)
    (hdie : (winOf e.va.toNat).die = c.die) (hstore : ∀ y ∈ e :: es, y.op = .store ∧ y.poison = false) :
    ((s.performHead c).core c).fifo = [] ∧ ∀ x, memGet (s.performHead c).mem x = (e :: es).foldl (fun b y =>
      if y.va.toNat ≤ x ∧ x < y.va.toNat + y.data.length then y.data.getD (x - y.va.toNat) 0 else b) (memGet s.mem x) := by
  have hhead : headGroup (e :: es) = e :: es := by rw [headGroup, List.takeWhile_eq_self_iff.mpr hjoin]
  have hrun : s.performHead c = (s.applyAll (atOwn (e :: es))).dropHead c (e :: es).length := by
    unfold State.performHead
    rw [hfifo, hhead]
    dsimp only
    rw [performLine_ownWindow hwin hkind hdie fun y hy => (hstore y hy).2]
  rw [hrun]
  refine ⟨?_, fun x => ?_⟩
  · rw [State.dropHead, core_modCore, if_pos rfl, (applyAll_wrote ..).core, hfifo]
    exact List.drop_length
  · change memGet (s.applyAll (atOwn (e :: es))).mem x = _
    rw [applyAll_mem, atOwn, List.foldl_map]
    exact memGet_applyEnts hs (e :: es) (fun y hy => (hstore y hy).1) x

/-- STORE_BUFFER_DRAIN and SIDE_LOG_PERFORM perform the head of a FIFO that lies wholly in the buffer, or in a log that is not stopped. -/
theorem exec_performs {s : State} {c : CoreId} {e : StEnt} {es : List StEnt} (hfifo : (s.core c).fifo = e :: es) {i : Instr × Bool}
    (hi : i ∈ ([(.storeBufferDrain c, false), (.sideLogPerform c, true)] : List (Instr × Bool))) (hlog : ∀ y ∈ e :: es, y.inLog = i.2)
    (hgoes : i.2 = true → (s.core c).stopped = false) : exec i.1 s = .next (s.performHead c) := by
  simp only [List.mem_cons, List.not_mem_nil, or_false] at hi
  rcases hi with rfl | rfl
  · have hbuffer : (s.core c).buffer = e :: es := by
      rw [Core.buffer, hfifo, List.filter_eq_self]
      exact fun y hy => by simp [hlog y hy]
    have hnolog : (s.core c).log = [] := by
      rw [Core.log, hfifo, List.filter_eq_nil_iff]
      exact fun y hy => by simp [hlog y hy]
    simp [execStoreBufferDrain, hbuffer, hnolog]
  · simp [execSideLogPerform, hfifo, hlog e List.mem_cons_self, hgoes rfl]

/-! ### Requests at their home (R102, R105) -/

/-- A request whose write waits for nothing is applied. -/
theorem arrive_applies {s : State} {w : Wr} {atom : Bool} (hw : s.wr w.id = some w) (happ : w.applied = false) (hpeer : w.peer = none)
    (hatom : w.ent.op.isAtom = atom) (hheld : s.heldUp w = false) : s.arrive w.id atom = s.applyWr w := by
  simp [State.arrive, hw, happ, hpeer, hatom, hheld]

theorem encode_counts (s : State) (d lo hi : Nat) : s.Counts (s.encode d lo hi) := by
  unfold State.encode
  split
  · exact .refl s
  · exact ⟨rfl⟩

theorem countWrite_counts (s : State) (home : Nat) (asid : Half) (va : Nat) : s.Counts (s.countWrite home asid va) :=
  State.Counts.trans (t := s.encodeLine home va) (encode_counts ..) (countAccess_counts ..)

/-- A request that reaches a line's home is counted there and sends collapses, whose acknowledgements it waits for. -/
def State.arrival (s : State) (w : Wr) : State × List Nat :=
  let va := w.ent.va.toNat
  let home := homeDie s.mode (s.tableOf w) va
  if w.toLine then (s.countWrite home w.ent.asid va).sendCollapses (some w.id) (if w.ret then none else some w.die) home w.ent.asid va true
  else (s, [])

theorem arrival_counts (s : State) (w : Wr) : s.Counts (s.arrival w).1 := by
  unfold State.arrival
  extract_lets va home
  split
  · exact (countWrite_counts ..).trans (sendCollapses_counts ..)
  · exact .refl s

/-- An applied request, with the collapses that it waits for and what was at its storage. -/
def Wr.applies (acks : List Nat) (old : List Byte × List Bool) (x : Wr) : Wr := { x with applied := true, acks := acks, old := some old }

/-- The requests once w has been applied. -/
def Wr.appliedAmong (w : Wr) (acks : List Nat) (old : List Byte × List Bool) (ws : List Wr) : List Wr :=
  ws.map fun x => if x.id = w.id then x.applies acks old else x

theorem find?_appliedAmong {w : Wr} {ws : List Wr} (acks : List Nat) (old : List Byte × List Bool) (hw : ws.find? (fun x => x.id == w.id) = some w) :
    (w.appliedAmong acks old ws).find? (fun x => x.id == w.id) = some (w.applies acks old) := by
  have hid : ((fun x : Wr => x.id == w.id) ∘ fun x : Wr => if x.id = w.id then x.applies acks old else x) = fun x => x.id == w.id := by
    funext x
    simp only [Function.comp_apply]
    split <;> rfl
  rw [Wr.appliedAmong, List.find?_map, hid, hw, Option.map_some, if_pos rfl]

/-- A request applied at its storage in u, where its arrival has been counted. -/
def State.appliedIn (u : State) (w : Wr) (acks : List Nat) : State :=
  { (u.atomAt w.at_ w.ent).1 with wrs := w.appliedAmong acks (u.atomAt w.at_ w.ent).2 u.wrs }

/-- A request leads to storage, not to a register. -/
theorem applyOne_storage (u : State) {w : Wr} (hk : isWindow w.ent.va.toNat = true → (winOf w.ent.va.toNat).kind < 3) :
    u.applyOne w = u.atomAt w.at_ w.ent := by
  refine if_neg fun h => ?_
  obtain ⟨hwin, hreg⟩ := Bool.and_eq_true_iff.mp h
  have hlow := hk hwin
  have hhigh := of_decide_eq_true hreg
  omega

/-- A request that stands alone is applied to its storage when its arrival has been counted. -/
theorem applyWr_alone {s u : State} {w : Wr} {acks : List Nat} (hg : s.wrGroup w = [w])
    (hk : isWindow w.ent.va.toNat = true → (winOf w.ent.va.toNat).kind < 3) (hu : s.arrival w = (u, acks)) :
    s.applyWr w = u.appliedIn w acks := by
  unfold State.applyWr
  extract_lets g ids va home
  have hgw : g = [w] := hg
  split
  rename_i v acks' hv
  obtain ⟨rfl, rfl⟩ : v = u ∧ acks' = acks := Prod.mk.inj (hv.symm.trans hu)
  extract_lets before
  split
  rename_i t olds ht
  rw [hgw, List.foldl_cons, List.foldl_nil, applyOne_storage v hk] at ht
  obtain ⟨rfl, rfl⟩ := Prod.mk.inj ht
  extract_lets t'
  have ht' : t' = (v.atomAt w.at_ w.ent).1 := if_pos (.inl (by rw [hgw]; exact le_rfl))
  clear_value t'
  subst ht'
  have hwrs : (v.atomAt w.at_ w.ent).1.wrs.map (fun x => if ids.contains x.id then { x with
      applied := true
      acks := acks'
      old := kfind x.id ([] ++ [(w.id, (v.atomAt w.at_ w.ent).2)]) } else x) = w.appliedAmong acks' (v.atomAt w.at_ w.ent).2 v.wrs := by
    rw [(atomAt_wrote v w.at_ w.ent).wrs]
    refine List.map_congr_left fun x _ => ?_
    by_cases hx : x.id = w.id <;> simp [hx, ids, hgw, kfind, Wr.applies]
  exact congrArg (fun ws => ({ (v.atomAt w.at_ w.ent).1 with wrs := ws } : State)) hwrs

section
variable {s : State} {w : Wr} (hs : s.MemOk) (hw : s.wr w.id = some w) (happ : w.applied = false) (hpeer : w.peer = none)
  (hheld : s.heldUp w = false) (hg : s.wrGroup w = [w]) (hk : isWindow w.ent.va.toNat = true → (winOf w.ent.va.toNat).kind < 3)
include hs hw happ hpeer hheld hg hk

/-- WRITE_AT_HOME of a store puts its bytes at its storage. -/
theorem exec_writeAtHome_store (hop : w.ent.op = .store) :
    ∃ r, exec (.writeAtHome w.id) s = .next r ∧ memBytes r.mem w.at_ w.ent.data.length = w.ent.data ∧
      (∀ y, (y < w.at_ ∨ w.at_ + w.ent.data.length ≤ y) → memGet r.mem y = memGet s.mem y) ∧ (r.wr w.id).map (·.applied) = some true := by
  obtain ⟨u, acks, hu⟩ : ∃ u acks, s.arrival w = (u, acks) := ⟨_, _, rfl⟩
  have hcounts : s.Counts u := by simpa only [hu] using arrival_counts s w
  have hmem : (u.appliedIn w acks).mem = memPut w.at_ w.ent.data s.mem := by
    rw [show (u.appliedIn w acks).mem = (u.atomAt w.at_ w.ent).1.mem from rfl, atomAt_store w.at_ hop, writeAt_mem]
    exact congrArg (memPut _ _) (congrArg (fun x : State => x.mem) hcounts.eq :)
  have huw : u.wr w.id = some w := (congrArg (fun x : State => x.wr w.id) hcounts.eq :).trans hw
  refine ⟨u.appliedIn w acks, ?_, ?_, fun y hy => ?_, ?_⟩
  · rw [exec_writeAtHome, execWriteAtHome, arrive_applies hw happ hpeer (by rw [hop]; rfl) hheld, applyWr_alone hg hk hu]
  · rw [hmem, memBytes_memPut _ _ _ hs.1]
  · rw [hmem, memGet_memPut _ _ _ _ hs.1, if_neg (by omega)]
  · exact congrArg (Option.map (·.applied)) (find?_appliedAmong acks _ huw)

/-- ATOMIC_AT_HOME replaces the bytes at its storage by their new value, and keeps the old ones for its reply. -/
theorem exec_atomicAtHome_atom {m : Nat} (hop : w.ent.op = .atom m) :
    ∃ r, exec (.atomicAtHome w.id) s = .next r ∧
      memBytes r.mem w.at_ w.ent.size = (atomNew m (memBytes s.mem w.at_ w.ent.size) w.ent.data).take w.ent.size ∧
      ((r.wr w.id).bind (·.old)).map (·.1) = some (memBytes s.mem w.at_ w.ent.size) ∧ (r.wr w.id).map (·.applied) = some true := by
  obtain ⟨u, acks, hu⟩ : ∃ u acks, s.arrival w = (u, acks) := ⟨_, _, rfl⟩
  have hcounts : s.Counts u := by simpa only [hu] using arrival_counts s w
  have humem : u.mem = s.mem := (congrArg (fun x : State => x.mem) hcounts.eq :)
  have huw : u.wr w.id = some w := (congrArg (fun x : State => x.wr w.id) hcounts.eq :).trans hw
  let new := atomNew m (memBytes s.mem w.at_ w.ent.size) w.ent.data
  have hlen : new.length = w.ent.size := length_atomNew hop (memBytes_length ..)
  have hmem : (u.appliedIn w acks).mem = memPut w.at_ new s.mem := by
    rw [show (u.appliedIn w acks).mem = (u.atomAt w.at_ w.ent).1.mem from rfl, atomAt_atom w.at_ hop, writeAt_mem, humem]
  have hold : (u.atomAt w.at_ w.ent).2.1 = memBytes s.mem w.at_ w.ent.size := by
    rw [atomAt_atom w.at_ hop, ← humem]
    rfl
  have hfound := find?_appliedAmong acks (u.atomAt w.at_ w.ent).2 huw
  refine ⟨u.appliedIn w acks, ?_, ?_, ?_, congrArg (Option.map (·.applied)) hfound⟩
  · rw [exec_atomicAtHome, execAtomicAtHome, arrive_applies hw happ hpeer (by rw [hop]; rfl) hheld, applyWr_alone hg hk hu]
  · rw [hmem, List.take_of_length_le hlen.le, ← hlen, memBytes_memPut _ _ _ hs.1]
  · exact (congrArg (fun o : Option Wr => (o.bind (·.old)).map (·.1)) hfound).trans (congrArg some hold)

end

/-- A pending line that stays as a replica changes replicas and a counter alone. -/
theorem keepReplica_frame (s : State) (w : Wr) : { s.keepReplica w with replicas := s.replicas, dies := s.dies } = s := by
  generalize hr : s.keepReplica w = r
  unfold State.keepReplica at hr
  extract_lets va home mine at hr
  split_ifs at hr <;> subst hr <;> rfl

/-- WRITE_ACK of a request with no collapse outstanding. -/
theorem exec_writeAck_acknowledged {s : State} {w : Wr} (hw : s.wr w.id = some w) (happ : w.applied = true) (hacks : w.acks = []) :
    exec (.writeAck w.id) s = .next (if w.ret then
        { s with wrs := updFirst (fun y => y.id == w.id) (fun y => { y with done := true }) s.wrs }
      else ({ s with wrs := s.wrs.filter (fun y => y.id != w.id) } : State).keepReplica w) := by
  simp [execWriteAck, hw, happ, hacks]

/-! ### Collapses (R102) -/

/-- COLLAPSE at a die that does not hold the line write-pending drops the die's replica of it. -/
theorem exec_collapse_applies {s : State} {q : Col} (hq : s.cols.find? (fun k => k.id == q.id && !k.applied) = some q)
    (hfree : ∀ y ∈ s.wrs, ¬(y.die = q.die ∧ y.ret = false ∧ y.toLine = true ∧ some y.id ≠ q.wr ∧ y.ent.asid = q.asid ∧
      lineOf y.ent.va.toNat = q.va)) :
    ∃ r, exec (.collapse q.id) s = .next r ∧ r.replicas = s.replicas.filter (fun k => !(k.die == q.die && k.tags q.asid q.va)) ∧
      r.cols.find? (fun k => k.id == q.id) = (s.cols.find? (fun k => k.id == q.id)).map (fun k => { k with applied := true }) ∧
      r.mem = s.mem := by
  let u : State := { s with
    replicas := s.replicas.filter fun k => !(k.die == q.die && k.tags q.asid q.va)
    cols := updFirst (fun k => k.id == q.id) (fun k => { k with applied := true }) s.cols }
  have hnone : s.wrs.any (fun w => w.die == q.die && !w.ret && w.toLine && some w.id != q.wr && w.ent.asid == q.asid &&
      lineOf w.ent.va.toNat == q.va) = false :=
    List.any_eq_false.mpr fun y hy => by simpa [and_assoc] using hfree y hy
  have hframe := wakeWatches_frame (u.count q.die 0x43 1) q.line 128
  refine ⟨(u.count q.die 0x43 1).wakeWatches q.line 128, ?_, (congrArg (fun x : State => x.replicas) hframe :), ?_,
    (congrArg (fun x : State => x.mem) hframe :)⟩
  · rw [exec_collapse, execCollapse, hq]
    dsimp only
    rw [hnone]
    rfl
  · rw [show ((u.count q.die 0x43 1).wakeWatches q.line 128).cols = u.cols from (congrArg (fun x : State => x.cols) hframe :)]
    exact find?_updFirst_map s.cols fun k hk => hk

/-! ### Replicas and windows (R93, R94) -/

theorem lineOf_lineOf (a : Nat) : lineOf (lineOf a) = lineOf a := by
  unfold lineOf
  omega

/-- A slice without a replica of a line that it does not hold write-pending holds nothing of it. -/
theorem heldAt_none {s : State} {d : Nat} {asid : Half} {va : Nat} (z : Nat) (hpend : s.linePending d asid va = false)
    (hrep : s.replicaOf d asid va = none) : s.heldAt d asid va z = none := by
  have hfind : ∀ w ∈ s.wrs, ¬(w.die == d && w.onLine asid va) = true :=
    List.find?_eq_none.mp (Option.isNone_iff_eq_none.mp (by simpa [State.linePending, State.pendingLine] using hpend))
  have hat : s.pendingAt d asid va = none := by
    unfold State.pendingAt
    split
    · rfl
    · rw [List.find?_eq_none.mpr fun w hw hd => hfind w hw (Bool.and_eq_true_iff.mp hd).1]
      rfl
  simp [State.heldAt, hat, hrep]

/-- A read that no replica serves makes one, while the line has fewer than its degree. -/
theorem remoteRead_allocates {s : State} {d : Nat} {asid : Half} {va : Nat} (pa : Nat) (hhome : d ≠ homeDie s.mode s.sup.active va)
    (hcache : isNocache s.sup.active va = false) (hpend : s.linePending d asid va = false) (hgate : isGatewayDie d = false)
    (hrep : s.replicaOf d asid va = none)
    (hroom : (s.replicasOf asid va).length <
      (s.countAccess (homeDie s.mode s.sup.active va) asid va fun k => { k with reads := k.reads + 1 }).degree asid va) :
    (s.remoteRead d asid va pa).replicas = s.replicas ++ [s.newReplica d asid va pa] ∧ (s.remoteRead d asid va pa).mem = s.mem := by
  unfold State.remoteRead
  extract_lets home u
  have hu : s.Counts u := countAccess_counts ..
  have hreps : u.replicas = s.replicas := (congrArg (fun x : State => x.replicas) hu.eq :)
  have hnew : u.newReplica d asid va pa = s.newReplica d asid va pa := (congrArg (fun x : State => x.newReplica d asid va pa) hu.eq :)
  have hplain : (u.plainReplicas asid va).length < u.degree asid va := by
    refine (List.length_filter_le ..).trans_lt ?_
    rw [show u.replicasOf asid va = s.replicasOf asid va from (congrArg (fun x : State => x.replicasOf asid va) hu.eq :)]
    exact hroom
  rw [if_neg (by simp [hhome, hcache, hpend, home]), if_neg (by simp [hrep]), if_pos (by simp [hgate, hplain])]
  exact ⟨by rw [hreps, hnew], (congrArg (fun x : State => x.mem) hu.eq :)⟩

/-- The one line of a read that neither a window nor the die's slice serves is read at its home. -/
theorem noteReads_one {s : State} {g : Agent} {va pa : Nat} (hwin : isWindow va = false) (hheld : s.heldAt g.die g.asid (lineOf va) 1 = none)
    (htr : translate s.toSoc g.super .load g.asid (lineOf va) = .phys pa) :
    s.noteReads g [va] = s.remoteRead g.die g.asid (lineOf va) pa := by
  have hwin' : isWindow (lineOf va) = false := (isWindow_line (lineOf_lineOf va)).trans hwin
  simp [State.noteReads, insertNat, hwin', hheld, htr]

theorem exec_remoteRead_allocates {s : State} {die pa : Nat} {asid : Half} {va : W64} (hdie : PartMode.hasDie s.mode die = true)
    (hwin : isWindow va.toNat = false) (hva : va.toNat < 2 ^ 57)
    (htr : translate s.toSoc true .load asid (lineOf va.toNat) = .phys pa) (hhome : die ≠ homeDie s.mode s.sup.active (lineOf va.toNat))
    (hcache : isNocache s.sup.active (lineOf va.toNat) = false) (hpend : s.linePending die asid (lineOf va.toNat) = false)
    (hgate : isGatewayDie die = false) (hrep : s.replicaOf die asid (lineOf va.toNat) = none)
    (hroom : (s.replicasOf asid (lineOf va.toNat)).length < (s.countAccess (homeDie s.mode s.sup.active (lineOf va.toNat)) asid
      (lineOf va.toNat) fun k => { k with reads := k.reads + 1 }).degree asid (lineOf va.toNat)) :
    ∃ r k, exec (.remoteRead die asid va) s = .next r ∧ r.replicas = s.replicas ++ [k] ∧ k.die = die ∧ k.asid = asid ∧
      k.va = lineOf va.toNat ∧ k.line = lineOf pa ∧ k.data = memBytes s.mem (lineOf pa) 128 ∧ r.mem = s.mem := by
  obtain ⟨hreps, hmem⟩ := remoteRead_allocates pa hhome hcache hpend hgate hrep hroom
  have hrun : exec (.remoteRead die asid va) s = .next (s.remoteRead die asid (lineOf va.toNat) pa) := by
    rw [exec_remoteRead, execRemoteRead, if_pos (by simpa [hdie, hwin] using hva),
      noteReads_one (g := plainAgent die true asid) hwin (heldAt_none 1 hpend hrep) htr]
    rfl
  exact ⟨_, _, hrun, hreps, rfl, rfl, lineOf_lineOf _, rfl, rfl, hmem⟩

/-- A region after a change of it that leaves its name. -/
theorem region_modRegion (s : State) (d : Nat) (asid : Half) (va : Nat) {f : Region → Region}
    (hf : ∀ r, (f r).die = r.die ∧ (f r).asid = r.asid ∧ (f r).base = r.base) :
    (s.modRegion d asid va f).region d asid va = f (s.region d asid va) := by
  let p : Region → Bool := fun r => r.die == d && r.asid == asid && r.base == regionOf va
  have hp : ∀ r, p r = true → p (f r) = true := fun r hr => by
    obtain ⟨hdie, hasid, hbase⟩ := hf r
    simpa only [p, hdie, hasid, hbase] using hr
  change ((if s.regions.any p then updFirst p f s.regions else s.regions ++ [f (s.region d asid va)]).find? p).getD _ = _
  by_cases hany : s.regions.any p = true
  · obtain ⟨r, hr⟩ := Option.isSome_iff_exists.mp (List.find?_isSome.mpr (List.any_eq_true.mp hany))
    rw [if_pos hany, find?_updFirst_map _ hp, hr, State.region, show s.regions.find? _ = some r from hr]
    rfl
  · have hnone : s.regions.find? p = none := List.find?_eq_none.mpr fun r hr h => hany (List.any_eq_true.mpr ⟨r, hr, h⟩)
    have hnew : p (f (s.region d asid va)) = true := hp _ (by
      rw [State.region, show s.regions.find? _ = none from hnone]
      simp [p])
    rw [if_neg hany, List.find?_append, hnone, Option.none_or, List.find?_cons_of_pos hnew]
    rfl

/-- REPLICATION_WINDOW of a full window at a die that sets no degrees itself starts the next one. -/
theorem exec_replicationWindow_full {s : State} {die : Nat} {asid : Half} {va : W64}
    (hfull : 65536 ≤ (s.region die asid va.toNat).reads + (s.region die asid va.toNat).writes) (hauto : (s.die die).autoen = false) :
    exec (.replicationWindow die asid va) s = .next (s.modRegion die asid va.toNat fun r => { r with
      reads := 0
      writes := 0
      collapses := 0 }) := by
  rw [exec_replicationWindow, execReplicationWindow]
  dsimp only
  rw [if_neg (by omega), State.windowEnd]
  simp [hauto]

/-! ### Waits without a watch (R243) -/

/-- WAITV_REPOLL of a wait that holds no watch, 1 µs after its read. -/
theorem exec_waitvRepoll_due {s : State} {x : TG} (hl : s.me.loc ≠ x.loc) (hx : s.tgAt x.loc = some x) (hparked : ∃ o, x.status = .parked 3 o)
    (hwatch : ∀ y ∈ s.watches, y.tg ≠ x.loc) (hdue : x.parkedAt + 1000 ≤ s.ptp.toNat) (hwake : x.wake = none) :
    ∃ r, exec (.waitvRepoll x.loc) s = .next r ∧ r.tgAt x.loc = some { x with wake := some .go } ∧ r.me = s.me ∧ r.mem = s.mem := by
  obtain ⟨o, hst⟩ := hparked
  have hnone : s.watches.all (fun w => w.tg != x.loc) = true := List.all_eq_true.mpr fun w hw => by simpa using hwatch w hw
  have hrun : exec (.waitvRepoll x.loc) s = .next (s.modTg x.loc (TG.hear .go)) := by
    rw [exec_waitvRepoll, execWaitvRepoll]
    simp only [hx, hst, hnone, hdue, true_or, and_self, if_true]
    rfl
  obtain ⟨hme, hmem, hat⟩ := modTg_outOfFocus (s := s) (f := TG.hear .go) hl hx (y := { x with wake := some .go })
    (by rw [TG.hear, hwake]; rfl) rfl
  exact ⟨_, hrun, hat, hme, hmem⟩

/-- Settles O49: each clause is the rule of its step above. -/
theorem memoryStepResult : Obligations.MemoryStepResult := by
  intro s c e w q x m die pa asid va hs other at_
  refine ⟨?perform, ?home, ?ack, exec_collapse_applies, ?collapseAck, ?remote, ?evict, exec_waitvRepoll_due, ?window⟩
  case perform =>
    intro es hfifo hjoin hwin hkind hdie hstore i hi hlog hgoes
    obtain ⟨hempty, hmem⟩ := performHead_ownWindow hs hfifo hjoin hwin hkind hdie hstore
    exact ⟨_, exec_performs hfifo hi hlog hgoes, hempty, hmem⟩
  case home =>
    exact fun hw happ hpeer hheld hg hk => ⟨exec_writeAtHome_store hs hw happ hpeer hheld hg hk, exec_atomicAtHome_atom hs hw happ hpeer hheld hg hk⟩
  case ack =>
    intro hw happ hacks
    have hrun := exec_writeAck_acknowledged hw happ hacks
    refine ⟨fun hret => by rw [hrun, if_pos hret], fun hret => ⟨_, hrun.trans (by rw [if_neg (by simp [hret])]), ?_, ?_⟩⟩
    · exact (congrArg (fun x : State => x.wrs) (keepReplica_frame _ w) :)
    · exact (congrArg (fun x : State => x.mem) (keepReplica_frame _ w) :)
  case collapseAck =>
    intro hq
    rw [exec_collapseAck, execCollapseAck, hq]
  case remote =>
    exact exec_remoteRead_allocates
  case evict => rfl
  case window =>
    intro k hfull hauto
    refine ⟨_, exec_replicationWindow_full hfull hauto, rfl, rfl, ?_⟩
    rw [region_modRegion s die asid va.toNat (f := fun r => { r with reads := 0, writes := 0, collapses := 0 }) fun _ => ⟨rfl, rfl, rfl⟩]
    exact ⟨rfl, rfl, rfl⟩

end Sys2Proof.Machine
end

section
/-! SUPPORT. O20: reading and waiting for tokens (R109, R250). -/

namespace Sys2Proof.Machine

open Sys2Proof

theorem tokOf_eq (g : TG) (k : Fin 8) : g.tokOf k.val = g.tok[k] := by
  simp [TG.tokOf]

/-- A wait for tokens asks of each token of its mask that it is zero. -/
theorem waitTokens_eq (s : State) (m : Byte) :
    s.waitTokens m = if ∀ j : Fin 8, m.getLsbD j.val = true → s.me.tok[j] = 0 then s.advance else s.stall := by
  have hall : ((List.range 8).all fun t => !m.getLsbD t || s.me.tokOf t == 0) = true ↔
      ∀ j : Fin 8, m.getLsbD j.val = true → s.me.tok[j] = 0 := by
    simp only [List.all_eq_true, List.mem_range, Bool.or_eq_true, Bool.not_eq_true', beq_iff_eq, ← tokOf_eq]
    constructor
    · exact fun h j hj => (h j.val j.isLt).resolve_left (by simp [hj])
    · exact fun h t ht => (Bool.eq_false_or_eq_true (m.getLsbD t)).symm.imp_right (h ⟨t, ht⟩)
  exact if_congr hall rfl rfl

/-- Settles O20: TOKRD writes the count that it reads; the two outcomes of WAITT are the two branches of `waitTokens_eq`. -/
theorem tokenResult : Obligations.TokenResult := by
  intro s g d k m hg
  have hrun : ∀ i ∈ ([.waitt g m, .cWaitt m] : List Instr), exec i s = .next (s.waitTokens m) := by
    intro i hi
    simp only [List.mem_cons, List.not_mem_nil, or_false] at hi
    rcases hi with rfl | rfl
    · rw [exec_waitt, execWaitt, withK_open s g _ hg]
    · rw [exec_cWaitt, execCWaitt]
  refine ⟨?_, fun i hi => ⟨fun hzero => ?_, fun ⟨j, hj, hne⟩ => ?_⟩⟩
  · rw [exec_tokrd, execTokrd, withK_open s g _ hg, tokOf_eq, setS_ends]
  · rw [hrun i hi, waitTokens_eq, if_pos hzero]
    rfl
  · rw [hrun i hi, waitTokens_eq, if_neg fun h => hne (h j hj)]
    rfl

end Sys2Proof.Machine
end

section
/-! SUPPORT. O17: the last arrival at a barrier, at a safe point (R52, R55, R242). -/

namespace Sys2Proof.Machine

open Sys2Proof

/-- The one thread group of a task, at a group with SP while its task is to be saved (R52, R54). -/
def safePointState : State :=
  { State.reset with me := { State.reset.me with status := .ready, task := 1, spMask := some 0, k12 := true } }

theorem safePointState_calm : safePointState.Calm := ⟨rfl, rfl, fun _ h => (List.not_mem_nil h).elim, rfl, rfl, rfl⟩

/-- Its BAR completes at once, and it is held as a wait that is now complete. -/
theorem safePointState_bar : goesWith (fun t => t.me.status == .held true) (exec (.bar 0 .dflt) safePointState) = true := by decide

/-- Refutes O17: its clause about the last arrival has the thread group end as a group that never waited. The arrival records the wake of
the wait that it completes, and at a safe point the thread group is held with that mark (R55). -/
theorem not_fenceAndBarrierResult : ¬ Obligations.FenceAndBarrierResult := by
  intro h
  obtain ⟨-, -, hbar⟩ := h
  obtain ⟨-, hlast, -⟩ := hbar safePointState 0 .dflt (Or.inl rfl) safePointState_calm rfl rfl rfl rfl
  have hwaited := safePointState_bar
  rw [hlast (by decide) (fun _ hx => (List.not_mem_nil hx).elim)] at hwaited
  exact absurd hwaited (by decide)

end Sys2Proof.Machine
end

section
/-! SUPPORT. O59: groups of halfwords (R167, R168). What it is for a run of halfwords to be one whole group, word by word. -/

namespace Sys2Proof

open Machine

/-- Whatever follows the halfwords, F answers res; on a shorter run of them it asks for more. -/
def Whole (F : List Half → DecRes) (hs : List Half) (res : DecRes) : Prop :=
  (∀ r, F (hs ++ r) = res) ∧ ∀ n < hs.length, F (hs.take n) = .short

theorem whole_nil {F : List Half → DecRes} {res : DecRes} (h : ∀ r, F r = res) : Whole F [] res :=
  ⟨h, fun _ hn => absurd hn (Nat.not_lt_zero _)⟩

/-- A word stands before a whole run when F asks for both its halfwords and then goes on as G does. -/
theorem whole_halves {F G : List Half → DecRes} {w : Nat} {hs : List Half} {res : DecRes} (hnil : F [] = .short)
    (hone : F [BitVec.ofNat 16 w] = .short) (hnext : ∀ r, F (halves w ++ r) = G r) (h : Whole G hs res) :
    Whole F (halves w ++ hs) res := by
  obtain ⟨hok, hshort⟩ := h
  refine ⟨fun r => by rw [List.append_assoc, hnext, hok], fun n hn => ?_⟩
  match n with
  | 0 => exact hnil
  | 1 => exact hone
  | n + 2 =>
    have hn' : n < hs.length := by simpa [halves] using hn
    exact (hnext (hs.take n)).trans (hshort n hn')

theorem word32_halves {w : Nat} (hw : w < 2 ^ 32) (r : List Half) : word32 (halves w ++ r) = some (w, r) := by
  have h : w % 65536 + 65536 * (w / 65536 % 65536) = w := by omega
  simp [word32, halves, h]

/-- The first halfword of an odd word is odd, so that it begins no compact instruction (R167). -/
theorem ofNat_odd {w : Nat} (hodd : w % 2 = 1) : ¬ (BitVec.ofNat 16 w).toNat % 2 = 0 := by
  rw [BitVec.toNat_ofNat]; omega

section
variable {e : DecEnv} {fuel : Nat} {imm wide first : Option Nat} {len w : Nat} {hs : List Half} {res : DecRes}

theorem decodeLoop_nil : decodeLoop e (fuel + 1) imm wide first len [] = .short := rfl

theorem decodeLoop_one (hodd : w % 2 = 1) : decodeLoop e (fuel + 1) imm wide first len [BitVec.ofNat 16 w] = .short := by
  simp only [decodeLoop, if_neg (ofNat_odd hodd), word32]

/-- With a whole word at its head the loop goes by the word's major: IMM and WIDE are kept, and any other word ends the group (R178). -/
theorem decodeLoop_word (hw : w < 2 ^ 32) (hodd : w % 2 = 1) (r : List Half) :
    decodeLoop e (fuel + 1) imm wide first len (halves w ++ r) =
      if w / 2 % 32 = 30 then
        if imm.isSome then .trap 2 (reasonInfo 1 w)
        else if w / 64 % 4 ≠ 0 then .trap 2 (reasonInfo 6 w)
        else decodeLoop e fuel (some w) wide (first.or (some w)) (len + 4) r
      else if w / 2 % 32 = 31 then
        if wide.isSome then .trap 2 (reasonInfo 1 w)
        else if w / 64 % 2 ≠ 0 ∨ w / 33554432 ≠ 0 ∨ w / 8388608 % 2 = 1 then .trap 2 (reasonInfo 6 w)
        else decodeLoop e fuel imm (some w) (first.or (some w)) (len + 4) r
      else decodeMain e imm wide w (len + 4) r := by
  have hcons : halves w ++ r = BitVec.ofNat 16 w :: BitVec.ofNat 16 (w / 65536) :: r := rfl
  have h32 := word32_halves hw r
  rw [hcons] at h32 ⊢
  simp only [decodeLoop, if_neg (ofNat_odd hodd), h32]

/-- IMM before the rest of a group (R174). -/
theorem whole_imm {p : Nat} (hp : p < 2 ^ 24)
    (h : Whole (decodeLoop e fuel (some (256 * p + 61)) wide (first.or (some (256 * p + 61))) (len + 4)) hs res) :
    Whole (decodeLoop e (fuel + 1) none wide first len) (halves (256 * p + 61) ++ hs) res := by
  have hodd : (256 * p + 61) % 2 = 1 := by omega
  refine whole_halves decodeLoop_nil (decodeLoop_one hodd) (fun r => ?_) h
  rw [decodeLoop_word (by omega) hodd, if_pos (by omega), if_neg (by simp), if_neg (by omega)]

/-- WIDE before the rest of a group (R176). -/
theorem whole_wide (hmaj : w % 128 = 63) (hw : w < 33554432) (hbit : w / 8388608 % 2 = 0)
    (h : Whole (decodeLoop e fuel imm (some w) (first.or (some w)) (len + 4)) hs res) :
    Whole (decodeLoop e (fuel + 1) imm none first len) (halves w ++ hs) res := by
  have hodd : w % 2 = 1 := by omega
  refine whole_halves decodeLoop_nil (decodeLoop_one hodd) (fun r => ?_) h
  rw [decodeLoop_word (by omega) hodd, if_neg (by omega), if_pos (by omega), if_neg (by simp), if_neg (by omega)]

/-- The word that ends a group (R178). -/
theorem whole_last (hw : w < 2 ^ 32) (hodd : w % 2 = 1) (hmaj : w / 2 % 32 < 30)
    (h : ∀ r, decodeMain e imm wide w (len + 4) r = res) :
    Whole (decodeLoop e (fuel + 1) imm wide first len) (halves w) res := by
  have hend := whole_halves (F := decodeLoop e (fuel + 1) imm wide first len) decodeLoop_nil (decodeLoop_one hodd)
    (fun r => by rw [decodeLoop_word hw hodd, if_neg (by omega), if_neg (by omega)]) (whole_nil h)
  rwa [List.append_nil] at hend

end

/-- The halfwords are the group of the instruction, where it is allowed at all (R10, R33). -/
def Decodes (i : Instr) (hs : List Half) : Prop :=
  Whole (decode ⟨isGatewayForm i, true, 256, 64⟩) hs (.ok i (2 * hs.length) none)

end Sys2Proof
end

section
/-! SUPPORT. O59: the fields of encoded words, of IMM and of WIDE (R171 to R176). -/

namespace Sys2Proof

open Machine

/-! ### IMM and WIDE (R174, R176) -/

/-- The WIDE word of a group, where it has one (R176). -/
def wideOf (sco : Bool) (x : WideF) : Option Nat :=
  if x.bits = 0 ∧ x.scope = .dflt then none
  else some (x.bits + (if sco then 8192 * scopeCode x.scope else 0) + 63)

/-- IMM, WIDE and the instruction's word in their order (R168). -/
theorem groupS_eq (sco : Bool) (imm : Option Nat) (x : WideF) (w : Nat) : groupS sco imm x w =
    (imm.elim [] fun n => halves (256 * n + 61)) ++ ((wideOf sco x).elim [] halves ++ halves w) := by
  simp only [groupS, wideOf, List.append_assoc]
  split <;> split <;> rfl

/-- Each field of WIDE fits its bits. -/
def WideF.Fits (x : WideF) : Prop := x.rnd < 4 ∧ x.dhi < 4 ∧ x.ahi < 4 ∧ x.bhi < 4

theorem scopeCode_lt (s : Scope) : scopeCode s < 8 := by cases s <;> decide
theorem rndCode_lt (r : Rnd) : rndCode r < 4 := by cases r <;> decide

/-- The fields that WIDE gives are those of x; a form without SCOPE has none (R176). -/
structure Flds.Reads (f : Flds) (sco : Bool) (x : WideF) : Prop where
  dhi : f.dhi = x.dhi
  ahi : f.ahi = x.ahi
  bhi : f.bhi = x.bhi
  rndN : f.rndN = x.rnd
  sat : f.sat = x.sat
  nr : f.nr = x.nr
  bscal : f.bscal = x.bscal
  deep : f.deep = x.deep
  width : f.width = 0
  scN : f.scN = 0 ∨ sco = true
  sc : sco = true → f.sc = x.scope


section
variable {sco : Bool} {x : WideF} {w : Nat} {imm : Option Nat}

/-- A flag as the number in its bit. -/
theorem beq_toNat (b : Bool) : (b.toNat == 1) = b := by cases b <;> rfl

theorem bits_eq (x : WideF) : x.bits = 16777216 * x.deep.toNat + 1048576 * x.bscal.toNat + 524288 * x.nr.toNat +
    262144 * x.sat.toNat + 65536 * x.rnd + 2048 * x.bhi + 512 * x.ahi + 128 * x.dhi := by
  simp [WideF.bits, Bool.toNat, Bool.cond_eq_ite]

/-- Each field of WIDE is read back from its bits, whatever stands below them (R176). -/
theorem reads_of_wideN {f : Flds} {k c : Nat} (hx : x.Fits) (hn : f.wideN = x.bits + 8192 * k + c) (hc : c < 128) (hk : k < 8)
    (hk0 : k = 0 ∨ sco = true) (hsc : sco = true → f.scN = k → f.sc = x.scope) : f.Reads sco x := by
  obtain ⟨hrnd, hdhi, hahi, hbhi⟩ := hx
  have hdeep := x.deep.toNat_lt
  have hbscal := x.bscal.toNat_lt
  have hnr := x.nr.toNat_lt
  have hsat := x.sat.toNat_lt
  rw [bits_eq] at hn
  have hscN : f.wideN / 8192 % 8 = k := by omega
  refine ⟨?_, ?_, ?_, ?_, ?_, ?_, ?_, ?_, ?_, hk0.imp_left hscN.trans, fun h => hsc h hscN⟩
  · change f.wideN / 128 % 4 = _; omega
  · change f.wideN / 512 % 4 = _; omega
  · change f.wideN / 2048 % 4 = _; omega
  · change f.wideN / 65536 % 4 = _; omega
  · rw [← beq_toNat x.sat]; exact congrArg (· == 1) (by omega : f.wideN / 262144 % 2 = _)
  · rw [← beq_toNat x.nr]; exact congrArg (· == 1) (by omega : f.wideN / 524288 % 2 = _)
  · rw [← beq_toNat x.bscal]; exact congrArg (· == 1) (by omega : f.wideN / 1048576 % 2 = _)
  · rw [← beq_toNat x.deep]; exact congrArg (· == 1) (by omega : f.wideN / 16777216 % 2 = _)
  · change f.wideN / 2097152 % 8 = 0; omega

theorem sc_of_scN {n : Nat} {c : Scope} (h : Flds.scN ⟨w, some n, imm⟩ = scopeCode c) : Flds.sc ⟨w, some n, imm⟩ = c := by
  simp only [Flds.sc, h]
  cases c <;> rfl

/-- A group's WIDE word gives these fields; without one they are all the default. -/
theorem reads_wideOf (hx : x.Fits) : Flds.Reads ⟨w, wideOf sco x, imm⟩ sco x := by
  by_cases h : x.bits = 0 ∧ x.scope = .dflt
  · rw [wideOf, if_pos h]
    exact reads_of_wideN (k := 0) (c := 0) hx h.1.symm (by omega) (by omega) (.inl rfl) fun _ _ => h.2.symm
  · rw [wideOf, if_neg h]
    cases sco
    · exact reads_of_wideN (k := 0) (c := 63) hx rfl (by omega) (by omega) (.inl rfl) nofun
    · exact reads_of_wideN (k := scopeCode x.scope) (c := 63) hx rfl (by omega) (scopeCode_lt _) (.inr rfl) fun _ => sc_of_scN

/-- WIDE has its opcode, and nothing in the bits that R176 reserves. -/
theorem wideOf_reserved (hx : x.Fits) : ∀ n ∈ wideOf sco x, n % 128 = 63 ∧ n < 33554432 ∧ n / 8388608 % 2 = 0 := by
  obtain ⟨hrnd, hdhi, hahi, hbhi⟩ := hx
  have hdeep := x.deep.toNat_lt
  have hbscal := x.bscal.toNat_lt
  have hnr := x.nr.toNat_lt
  have hsat := x.sat.toNat_lt
  have hscope := scopeCode_lt x.scope
  intro n hn
  unfold wideOf at hn
  split at hn
  · cases hn
  · cases hn
    rw [bits_eq]
    cases sco
    · simp only [Bool.false_eq_true, if_false]; omega
    · simp only [if_true]; omega

/-- A group is whole when its word is read as the last one behind the group's IMM and WIDE (R168, R178). -/
theorem whole_groupS {e : DecEnv} {i : Instr} (hx : x.Fits) (himm : ∀ p ∈ imm, p < 2 ^ 24) (hw : w < 2 ^ 32) (hodd : w % 2 = 1)
    (hmaj : w / 2 % 32 < 30)
    (h : ∀ len r, decodeMain e (imm.map fun p => 256 * p + 61) (wideOf sco x) w len r = .ok i len none) :
    Whole (decode e) (groupS sco imm x w) (.ok i (2 * (groupS sco imm x w).length) none) := by
  have hlast (fuel len first) : Whole (decodeLoop e (fuel + 1) (imm.map fun p => 256 * p + 61) (wideOf sco x) first len)
      (halves w) (.ok i (len + 4) none) := whole_last hw hodd hmaj fun r => h _ r
  have hwide (fuel len first) : Whole (decodeLoop e (fuel + 2) (imm.map fun p => 256 * p + 61) none first len)
      ((wideOf sco x).elim [] halves ++ halves w) (.ok i (len + 2 * ((wideOf sco x).elim [] halves ++ halves w).length) none) := by
    have hres := wideOf_reserved (sco := sco) hx
    cases hsome : wideOf sco x with
    | none => rw [hsome] at hlast; exact hlast (fuel + 1) len first
    | some n =>
      rw [hsome] at hlast
      obtain ⟨hcode, hlt, hbit⟩ := hres n hsome
      exact whole_wide hcode hlt hbit (hlast fuel (len + 4) _)
  rw [groupS_eq]
  change Whole (decodeLoop e 4 none none none 0) _ _
  cases imm with
  | none => simpa using hwide 2 0 none
  | some p =>
    have hwhole := whole_imm (first := none) (len := 0) (himm p rfl) (hwide 1 4 (some (256 * p + 61)))
    have hlen : 4 + 2 * ((wideOf sco x).elim [] halves ++ halves w).length =
      2 * (halves (256 * p + 61) ++ ((wideOf sco x).elim [] halves ++ halves w)).length := by
      rw [List.length_append (as := halves _)]; simp only [halves, List.length_cons, List.length_nil]; omega
    rw [hlen] at hwhole
    exact hwhole

end

end Sys2Proof
end

section
/-! SUPPORT. O59: operands in their fields, and the checks that they pass (R172, R173, R177, R186 to R188). -/

namespace Sys2Proof

open Machine

/-- The allocation in which every register of a file may be named (R33). -/
def wholeEnv (gateway : Bool) : DecEnv := ⟨gateway, true, 256, 64⟩

/-- An operand of kind o may stand in a field as n, with hi in the field's high bits: no check of the decoder refuses it. -/
structure Opd.Takes (o : Opd) (x : WideF) (hi n : Nat) : Prop where
  lt : n < 64
  hiLt : hi < 4
  good : o.bad x.nr n (64 * hi + n) = none
  inside : ∀ gw, o.out (wholeEnv gw) x.nr x.bscal n (64 * hi + n) = none
  high : hi = 0 ∨ (o.isVec = true ∧ (o = .vs → x.bscal = false)) ∨ (o = .sys ∧ x.deep = true)

/-- The high bits do not matter to the alignment of a register group, nor to any other check (R172). -/
theorem bad_low (o : Opd) (nr : Bool) (n hi : Nat) : o.bad nr n n = o.bad nr n (64 * hi + n) := by
  have h2 : (64 * hi + n) % 2 = n % 2 := by omega
  have h4 : (64 * hi + n) % 4 = n % 4 := by omega
  cases o <;> simp only [Opd.bad, h2, h4]

theorem uOut_whole {n : Nat} (h : n < 64) : uOut 64 n = none := if_neg (by omega)
theorem vOut_whole {n cnt : Nat} (h : n + cnt ≤ 256) : vOut 256 n cnt = none := if_pos h

/-! ### Each kind of operand -/

section
variable {x : WideF} {n : Nat}

/-- A kind with no high bits and no allocation to leave is judged by its number alone. -/
theorem takes_small {o : Opd} (h : n < 64) (hbad : o.bad x.nr n n = none)
    (hout : ∀ gw, o.out (wholeEnv gw) x.nr x.bscal n (64 * 0 + n) = none) : o.Takes x 0 n :=
  ⟨h, by omega, by rw [← bad_low, hbad], hout, .inl rfl⟩

theorem takes_zero : Opd.zero.Takes x 0 0 := takes_small (by omega) rfl fun _ => rfl
theorem takes_s (r : UReg) : Opd.s.Takes x 0 r.val :=
  takes_small r.isLt rfl fun _ => by simp only [Opd.out, wholeEnv, uOut_whole r.isLt, Option.map_none]
theorem takes_sb (r : UReg) : Opd.sb.Takes x 0 r.val :=
  takes_small r.isLt rfl fun _ => by simp only [Opd.out, wholeEnv, uOut_whole r.isLt, Option.map_none]
theorem takes_p (r : PReg) : Opd.p.Takes x 0 r.val := takes_small (by omega) (if_pos r.isLt) fun _ => rfl
theorem takes_k (r : KReg) : Opd.k.Takes x 0 r.val := takes_small (by omega) (if_pos r.isLt) fun _ => rfl
theorem takes_h (r : HReg) : Opd.h.Takes x 0 r.val := takes_small (by omega) (if_pos r.isLt) fun _ => rfl
theorem takes_t (r : TReg) : Opd.t.Takes x 0 r.val := takes_small (by omega) (if_pos r.isLt) fun _ => rfl
theorem takes_acc (r : AReg) : Opd.acc.Takes x 0 r.val := takes_small (by omega) (if_pos r.isLt) fun _ => rfl
theorem takes_sys (r : SysReg) : Opd.sys.Takes x 0 r.val := takes_small r.isLt rfl fun _ => rfl
theorem takes_pd {r : PReg} (h : r.dest = true) : Opd.pd.Takes x 0 r.val := by
  have h0 : r.val ≠ 0 := by simpa [PReg.dest] using h
  exact takes_small (by omega) (if_pos (by omega)) fun _ => rfl
theorem takes_kd {r : KReg} (h : r.dest = true) : Opd.kd.Takes x 0 r.val := by
  have hr : r.val ≠ 0 ∧ r.val < 8 := by simpa [KReg.dest] using h
  exact takes_small (by omega) (if_pos (by omega)) fun _ => rfl
theorem takes_kc {r : KReg} (h : r.cond = true) : Opd.kc.Takes x 0 r.val := by
  have hr : 8 ≤ r.val := by simpa [KReg.cond] using h
  exact takes_small (by omega) (if_pos (by omega)) fun _ => rfl

/-- A vector register, with the rest of its group, in the field and its high bits (R172). -/
theorem takes_vector {o : Opd} (r : VReg) (hvec : o.isVec = true) (hvs : o = .vs → x.bscal = false)
    (hbad : o.bad x.nr (r.val % 64) r.val = none) (hout : ∀ gw, o.out (wholeEnv gw) x.nr x.bscal (r.val % 64) r.val = none) :
    o.Takes x (r.val / 64) (r.val % 64) := by
  have hr : 64 * (r.val / 64) + r.val % 64 = r.val := Nat.div_add_mod ..
  exact ⟨by omega, by omega, by rw [hr, hbad], by rw [hr]; exact hout, .inr (.inl ⟨hvec, hvs⟩)⟩

theorem takes_v (r : VReg) : Opd.v.Takes x (r.val / 64) (r.val % 64) :=
  takes_vector r rfl nofun rfl fun _ => by simp only [Opd.out, wholeEnv, vOut_whole (show r.val + 1 ≤ 256 by omega), Option.map_none]
theorem takes_v2 {r : VReg} (h : r.even = true) : Opd.v2.Takes x (r.val / 64) (r.val % 64) := by
  have h2 : r.val % 2 = 0 := by simpa [VReg.even] using h
  exact takes_vector r rfl nofun (if_pos h2) fun _ => by
    simp only [Opd.out, wholeEnv, vOut_whole (show r.val + 2 ≤ 256 by omega), Option.map_none]
theorem takes_v4 {r : VReg} (h : r.quad = true) : Opd.v4.Takes x (r.val / 64) (r.val % 64) := by
  have h4 : r.val % 4 = 0 := by simpa [VReg.quad] using h
  exact takes_vector r rfl nofun (if_pos h4) fun _ => by
    simp only [Opd.out, wholeEnv, vOut_whole (show r.val + 4 ≤ 256 by omega), Option.map_none]
/-- The destination of VXADD is one register without its result, and a group of four with it (R235). -/
theorem takes_vx {r : VReg} (h : (x.nr || r.quad) = true) : Opd.vx.Takes x (r.val / 64) (r.val % 64) := by
  have h4 : x.nr = true ∨ r.val % 4 = 0 := by simpa [VReg.quad] using h
  refine takes_vector r rfl nofun (if_pos h4) fun _ => ?_
  have hout : r.val + (if x.nr = true then 1 else 4) ≤ 256 := by
    split
    next => omega
    next hnr => have := h4.resolve_left hnr; omega
  simp only [Opd.out, wholeEnv, vOut_whole hout, Option.map_none]
theorem takes_vs {b : VSrc} (hb : x.bscal = b.bscal) : Opd.vs.Takes x b.hi b.field := by
  cases b with
  | v r =>
    exact takes_vector r rfl (fun _ => hb) rfl fun _ => by
      simp only [Opd.out, wholeEnv, hb, VSrc.bscal, Bool.false_eq_true, if_false, vOut_whole (show r.val + 1 ≤ 256 by omega),
        Option.map_none]
  | s r =>
    exact takes_small r.isLt rfl fun _ => by
      simp only [Opd.out, wholeEnv, hb, VSrc.bscal, if_true, VSrc.field, uOut_whole r.isLt, Option.map_none]
/-- The mask of WAITT lies across the fields D and A (R250). -/
theorem takes_tmask (m : Byte) : Opd.tmask.Takes x 0 (m.toNat % 64) := takes_small (by omega) rfl fun _ => rfl
theorem takes_tmaskHi (m : Byte) : Opd.tmaskHi.Takes x 0 (m.toNat / 64) :=
  takes_small (by omega) (if_pos (by omega)) fun _ => rfl
/-- The word of the constant window that SWR.DEEP names (R184). -/
theorem takes_sysDeep (c : Byte) (hdeep : x.deep = true) : Opd.sys.Takes x (c.toNat / 64) (c.toNat % 64) :=
  ⟨by omega, by omega, rfl, fun _ => rfl, .inr (.inr ⟨rfl, hdeep⟩)⟩

end

/-! ### The operand that a field names -/

/-- A vector register is put together from its field and its high bits (R172). -/
theorem ofNat_vreg (r : VReg) : Fin.ofNat 256 (64 * (r.val / 64) + r.val % 64) = r := by simp [Nat.div_add_mod]
/-- The B operand of a lane instruction by its fields (R208). -/
theorem ofFields_vsrc (b : VSrc) :
    (if b.bscal = true then .s (Fin.ofNat 64 b.field) else .v (Fin.ofNat 256 (64 * b.hi + b.field)) : VSrc) = b := by
  cases b with
  | v r => exact congrArg VSrc.v (ofNat_vreg r)
  | s r => exact congrArg VSrc.s (Fin.ofNat_val_eq_self r)

/-- The rounding mode of a code of WIDE.RND (R176). -/
def rndOf (n : Nat) : Rnd := match n with | 0 => .rne | 1 => .rz | 2 => .rup | _ => .rdn
theorem rnd_eq (f : Flds) : f.rnd = rndOf f.rndN := rfl
theorem rndOf_rndCode (r : Rnd) : rndOf (rndCode r) = r := by cases r <;> rfl

/-- The mask of WAITT from its two fields. -/
theorem tm_eq {f : Flds} {m : Byte} (hd : f.dN = m.toNat % 64) (ha : f.aN = m.toNat / 64) : f.tm = m := by
  unfold Flds.dN at hd
  unfold Flds.aN at ha
  rw [Flds.tm, show f.w / 1024 % 256 = m.toNat by omega, BitVec.ofNat_toNat, BitVec.setWidth_eq]

/-- A literal is put together from the 24 bits of IMM and the word's 8 (R174). -/
theorem ofNat_literal (n : W32) :
    BitVec.ofNat 32 ((256 * (n.toNat / 256) + 61) / 256 % 16777216 * 256 + n.toNat % 256) = n := by
  rw [show (256 * (n.toNat / 256) + 61) / 256 % 16777216 * 256 + n.toNat % 256 = n.toNat by omega, BitVec.ofNat_toNat,
    BitVec.setWidth_eq]
theorem kop_eq {f : Flds} {k : KOp} (h : f.k8 = k.low) (himm : f.imm = k.pay.map fun p => 256 * p + 61) : f.kop = k := by
  rw [Flds.kop, himm, h]
  cases k with
  | imm n => exact congrArg KOp.imm (ofNat_literal n)
  | cw n => simp [KOp.pay, KOp.low]
theorem off_eq {f : Flds} {o : MOff} (h : f.k8 = o.low) (himm : f.imm = o.pay.map fun p => 256 * p + 61) : f.off = o := by
  rw [Flds.off, himm, h]
  cases o with
  | long n => exact congrArg MOff.long (ofNat_literal n)
  | short n => simp [MOff.pay, MOff.low]

/-! ### A form's checks -/

/-- What a form asks beside its operands' own checks: the fields of WIDE that it has no use for are the default, it is guarded only
where it may be, and R184, R199, R201 and R236 hold of the rows that they speak of. -/
structure Form.Admits (m : Form) (sco : Bool) (x : WideF) (maj minR g d a b : Nat) : Prop where
  rnd : x.rnd = 0 ∨ m.rnd = true
  sat : x.sat = true → m.sat = true
  nr : x.nr = true → m.nr = true
  deep : x.deep = true → m.deep = true
  scope : sco = true → m.scope = true
  bscal : x.bscal = true → m.b = .vs ∨ m.b = .sb
  sb : m.b = .sb → x.bscal = true
  guard : m.guard = true ∨ g = 0
  result : maj = 15 → minR = 8 ∨ minR = 10 → x.nr = true → d = 0
  wholeCache : maj = 19 → x.deep = true → a = 0
  sys : m.b = .sys → x.deep = false → sysUnknown b = false ∧ (minR = 1 → sysWritable true b = true)

section
variable {m : Form} {f : Flds} {sco : Bool} {x : WideF} {maj mi g d a b : Nat}

/-- A word and its WIDE hold these numbers in the fields that every format has. -/
structure Flds.Has (f : Flds) (sco : Bool) (x : WideF) (g d a : Nat) : Prop extends f.Reads sco x where
  gN : f.gN = g
  dN : f.dN = d
  aN : f.aN = a

/-- Fields of WIDE that a form admits are accepted (R177). -/
theorem accepts_of_admits (hf : f.Has sco x g d a) (hadm : m.Admits sco x maj mi g d a b) (hd : m.d.Takes x x.dhi d)
    (ha : m.a.Takes x x.ahi a) (hds : m.d ≠ .sys) (has : m.a ≠ .sys)
    (hb : x.bhi = 0 ∨ (m.b.isVec = true ∧ (m.b = .vs → x.bscal = false)) ∨ (m.b = .sys ∧ x.deep = true)) :
    m.accepts f = true := by
  have hhigh : ∀ {o : Opd} {hi n}, o.Takes x hi n → o ≠ .sys → (hi == 0 || o.isVec) = true := fun h ho => by
    obtain h | ⟨h, -⟩ | ⟨h, -⟩ := h.high
    · simp [h]
    · simp [h]
    · exact absurd h ho
  have hdhi : (f.dhi == 0 || m.d.isVec) = true := hf.dhi ▸ hhigh hd hds
  have hahi : (f.ahi == 0 || m.a.isVec) = true := hf.ahi ▸ hhigh ha has
  have hbhi : (f.bhi == 0 || (m.b.isVec && !f.bscal) || (m.b == .sys && m.deep && f.deep)) = true := by
    rw [hf.bhi, hf.bscal, hf.deep]
    obtain h | ⟨hvec, hvs⟩ | ⟨hsys, hdeep⟩ := hb
    · simp [h]
    · have hbscal : x.bscal = false := by
        cases h : x.bscal
        · rfl
        · obtain h' | h' := hadm.bscal h
          · exact h.symm.trans (hvs h')
          · rw [h'] at hvec; cases hvec
      simp [hvec, hbscal]
    · simp [hsys, hdeep, hadm.deep hdeep]
  have hsc : (f.scN == 0 || m.scope) = true := by simpa using hf.scN.imp_right hadm.scope
  have hrnd : (f.rndN == 0 || m.rnd) = true := by simpa [hf.rndN] using hadm.rnd
  have hflag : ∀ {p q : Bool}, (p = true → q = true) → (!p || q) = true := by decide
  have hbscal : (!f.bscal || m.b == .vs || m.b == .sb) = true := by
    rw [hf.bscal, Bool.or_assoc]; exact hflag fun h => by simpa using hadm.bscal h
  rw [Form.accepts, hdhi, hahi, hbhi, hsc, hrnd, hbscal, hf.sat, hflag hadm.sat, hf.nr, hflag hadm.nr, hf.deep, hflag hadm.deep,
    hf.width]
  rfl

/-- No check of R187 finds reason 4 or 5 in a word that its form admits. -/
theorem illegal_of_admits {e : DecEnv} (hf : f.Has sco x g d a) (hmaj : f.maj = maj) (hadm : m.Admits sco x maj f.minR g d a f.bN)
    (hsup : e.super = true) (hX : isX maj = true → f.minR = 0) (hd : m.d.Takes x x.dhi d) (ha : m.a.Takes x x.ahi a)
    (hb : isX maj = true ∨ m.b.Takes x x.bhi f.bN) : m.illegal e f = none := by
  have h1 : (if isX f.maj && f.minR != 0 then some 4 else none : Option Nat) = none := by
    rw [hmaj]; exact if_neg fun h => by simp_all
  have h2 : (if !m.guard && f.gN != 0 then some 4 else none : Option Nat) = none := by
    rw [hf.gN]; exact if_neg fun h => by have := hadm.guard; simp_all
  have h3 : m.d.bad f.nr f.dN (64 * f.dhi + f.dN) = none := by rw [hf.nr, hf.dN, hf.dhi]; exact hd.good
  have hA : m.a.bad f.nr f.aN f.aN = none := by rw [hf.nr, hf.aN, bad_low]; exact ha.good
  have h4 : (if m.deep && f.deep && m.b != .sys && f.maj == 19 then (if f.aN = 0 then none else some 4) else m.a.bad f.nr f.aN f.aN :
      Option Nat) = none := by
    split
    next h =>
      rw [hf.deep, hmaj] at h
      exact if_pos (hf.aN.trans (hadm.wholeCache (by simp_all) (by simp_all)))
    next => exact hA
  have h5 : (if isX f.maj || isKM f.maj then none else m.b.bad f.nr f.bN f.bN : Option Nat) = none := by
    split
    next => rfl
    next h =>
      rw [hmaj] at h
      rw [hf.nr, bad_low]
      exact (hb.resolve_left (by simp_all)).good
  have h6 : (if m.b == .sb && !f.bscal then some 5 else none : Option Nat) = none :=
    if_neg fun h => by have := hadm.sb; have := hf.bscal; simp_all
  have h7 : (if f.maj == 15 && (f.minR == 8 || f.minR == 10) && f.nr && f.dN != 0 then some 5 else none : Option Nat) = none :=
    if_neg fun h => by have := hadm.result; have := hf.nr; have := hf.dN; simp_all
  have h8 : (if m.b == .sys && !f.deep && (sysUnknown f.bN ||
      (f.minR == 1 && !sysWritable e.super f.bN && (e.super || !sysHidden f.bN))) then some 4 else none : Option Nat) = none :=
    if_neg fun h => by have := hadm.sys; have := hf.deep; simp_all
  rw [Form.illegal, h1, h2, h3, h4, h5, h6, h7, h8]
  rfl

/-- With the whole allocation and in supervisor mode neither PRIV nor REGRANGE is raised (R33, R186). -/
theorem lateTrap_of_takes {gw : Bool} (hf : f.Has sco x g d a) (hd : m.d.Takes x x.dhi d) (ha : m.a.Takes x x.ahi a)
    (hb : m.b.out (wholeEnv gw) x.nr x.bscal f.bN (64 * x.bhi + f.bN) = none) : lateTrap (wholeEnv gw) f (some m) = none := by
  have hreg : m.regRange (wholeEnv gw) f = none := by
    rw [Form.regRange, hf.nr, hf.bscal, hf.dN, hf.dhi, hf.aN, hf.ahi, hf.bhi, hd.inside, ha.inside, hb]
    rfl
  have hpriv : m.priv (wholeEnv gw) f = false := rfl
  rw [lateTrap, hpriv, hreg]
  rfl

end

end Sys2Proof
end

section
/-! SUPPORT. O59: one rule for each format of the encoding (R171, R183, R185): under which operands a word decodes to its instruction. -/

namespace Sys2Proof

open Machine

/-! ### A word of an assigned form -/

section
variable {m : Form} {f : Flds} {i : Instr} {maj mi len : Nat} {r : List Half}

/-- Nothing follows the instruction's word where SP is clear (R168, R181). -/
theorem finish_ok {e : DecEnv} {mo : Option Form} (hsp : f.sp = false) (hlate : lateTrap e f mo = none) :
    finish e f mo i len r = .ok i len none := by
  simp [finish, maskOf, hsp, hlate]

theorem checkWord_form {gw : Bool} (hgw : gw = (maj == 26)) (hmaj : f.maj = maj) (hlt : maj < 28) (hJ : isJ maj = false)
    (hminor : f.minor = mi) (hform : form maj mi = some m) (hbuild : build f maj mi = some i) (hsp : f.sp = false)
    (hill : m.illegal (wholeEnv gw) f = none) (hlate : lateTrap (wholeEnv gw) f (some m) = none) :
    checkWord (wholeEnv gw) f len r = .ok i len none := by
  have hcore : ((wholeEnv gw).gateway && (maj == 20 || maj == 23) || !(wholeEnv gw).gateway && maj == 26) = false := by
    rw [hgw]
    by_cases h : maj = 26
    · subst h; rfl
    · simp [wholeEnv, h]
  simp only [checkWord, hmaj, hcore, hminor, hJ, hform, hbuild, hill, finish_ok hsp hlate, Bool.false_eq_true, if_false,
    if_neg (show ¬maj = 28 by omega), if_neg (show ¬maj = 29 by omega)]

/-- IMM and WIDE, where the form accepts them, leave the word to its own checks (R177, R178). -/
theorem decodeMain_form {e : DecEnv} {imm wide : Option Nat} {w : Nat} (hf : f = ⟨w, wide, imm⟩) (hmaj : f.maj = maj)
    (hJ : isJ maj = false) (hminor : f.minor = mi) (hform : form maj mi = some m) (himm : imm = none ∨ isKM maj = true)
    (hacc : m.accepts f = true) : decodeMain e imm wide w len r = checkWord e f len r := by
  have hassigned : assigned f = true := by simp [assigned, hmaj, hminor, hform]
  have hkm : (imm.isSome && !isKM maj) = false := by obtain h | h := himm <;> simp [h]
  simp only [decodeMain, ← hf, hmaj, hminor, hJ, hform, hassigned, hkm, hacc, Bool.false_eq_true, Bool.not_true, if_false, if_true,
    ite_self]

end

/-! ### Formats R, X, K and M (R171) -/

section
variable {m : Form} {i : Instr} {c : Flds → Instr} {sco : Bool} {x : WideF} {maj mi g d a b : Nat}

/-- A word decodes to what its form builds, when the form takes its operands and admits its WIDE. -/
theorem decodes_form {w : Nat} {imm : Option Nat} (hlt : maj < 28) (hJ : isJ maj = false)
    (hgw : isGatewayForm i = (maj == 26)) (hform : form maj mi = some m) (hbuild : ∀ f, build f maj mi = some (c f))
    (hw : w < 2 ^ 32) (hlow : w % 128 = 2 * maj + 1) (hg : w / 128 % 8 = g) (hdN : w / 1024 % 64 = d) (haN : w / 65536 % 64 = a)
    (hminor : ∀ f : Flds, f.w = w → f.maj = maj → f.minor = mi) (hX : isX maj = true → w / 268435456 % 16 = 0)
    (himm : imm = none ∨ isKM maj = true) (hpay : ∀ p ∈ imm, p < 2 ^ 24)
    (hd : m.d.Takes x x.dhi d) (ha : m.a.Takes x x.ahi a) (hds : m.d ≠ .sys) (has : m.a ≠ .sys)
    (hb : (isX maj = true ∧ m.b = .zero ∧ x.bhi = 0) ∨ m.b.Takes x x.bhi (w / 4194304 % 64)) (hrnd : x.rnd < 4)
    (hadm : m.Admits sco x maj (w / 268435456 % 16) g d a (w / 4194304 % 64))
    (hc : ∀ f : Flds, f.Has sco x g d a → f.w = w → f.imm = imm.map (fun p => 256 * p + 61) → c f = i) :
    Decodes i (groupS sco imm x w) := by
  have hbhi : x.bhi < 4 := by
    obtain ⟨-, -, h⟩ | h := hb
    · omega
    · exact h.hiLt
  have hx : x.Fits := ⟨hrnd, hd.hiLt, ha.hiLt, hbhi⟩
  refine whole_groupS hx hpay hw (by omega) (by omega) fun len r => ?_
  obtain ⟨f, hf⟩ : ∃ f : Flds, f = ⟨w, wideOf sco x, imm.map fun p => 256 * p + 61⟩ := ⟨_, rfl⟩
  have hfw : f.w = w := by rw [hf]
  have hhas : f.Has sco x g d a := by
    rw [hf]
    exact { reads_wideOf hx with gN := hg, dN := hdN, aN := haN }
  have hfmaj : f.maj = maj := by rw [Flds.maj, hfw]; omega
  have hsp : f.sp = false := by
    have h0 : f.w / 64 % 2 = 0 := by omega
    rw [Flds.sp, h0]; rfl
  have hfmin := hminor f hfw hfmaj
  have hbN : f.bN = w / 4194304 % 64 := by rw [Flds.bN, hfw]
  have hmin : f.minR = w / 268435456 % 16 := by rw [Flds.minR, hfw]
  rw [← hmin, ← hbN] at hadm
  rw [← hbN] at hb
  rw [← hmin] at hX
  have hacc : m.accepts f = true := accepts_of_admits hhas hadm hd ha hds has <| by
    obtain ⟨-, -, h⟩ | h := hb
    · exact .inl h
    · exact h.high
  have hill : m.illegal (wholeEnv (isGatewayForm i)) f = none :=
    illegal_of_admits hhas hfmaj hadm rfl hX hd ha (hb.imp_left And.left)
  have hout : m.b.out (wholeEnv (isGatewayForm i)) x.nr x.bscal f.bN (64 * x.bhi + f.bN) = none := by
    obtain ⟨-, h, -⟩ | h := hb
    · rw [h]; rfl
    · exact h.inside _
  have himm' : imm.map (fun p => 256 * p + 61) = none ∨ isKM maj = true := himm.imp_left fun h => by rw [h]; rfl
  rw [decodeMain_form hf hfmaj hJ hfmin hform himm' hacc]
  have hfi : build f maj mi = some i := by rw [hbuild, hc f hhas hfw (by rw [hf])]
  exact checkWord_form hgw hfmaj hlt hJ hfmin hform hfi hsp hill (lateTrap_of_takes hhas hd ha hout)

/-- Format R. The hypotheses with a default are facts about the row of the table, which computing them decides. -/
theorem decodes_R (hform : form maj mi = some m) (hbuild : ∀ f, build f maj mi = some (c f))
    (hd : m.d.Takes x x.dhi d) (ha : m.a.Takes x x.ahi a) (hb : m.b.Takes x x.bhi b)
    (hc : ∀ f : Flds, f.Has sco x g d a → f.bN = b → c f = i := by
      intro f h hb
      simp only [Flds.g, Flds.dS, Flds.aS, Flds.bS, Flds.dV, Flds.aV, Flds.bV, Flds.bVS, Flds.dP, Flds.aP, Flds.bP, Flds.dK, Flds.aK,
        Flds.bK, Flds.dH, Flds.aH, Flds.bH, Flds.dT, Flds.aT, Flds.dA, Flds.aA, Flds.sys, Flds.cwn, rnd_eq, rndOf_rndCode,
        ofFields_vsrc, Fin.ofNat_val_eq_self, Nat.div_add_mod, BitVec.ofNat_toNat,
        BitVec.setWidth_eq, Bool.false_eq_true, if_false, if_true, hb, h.gN, h.dN, h.aN,
        h.dhi, h.ahi, h.bhi, h.bscal, h.sat, h.nr, h.deep, h.rndN, h.sc])
    (hadm : m.Admits sco x maj mi g d a b := by constructor <;> simp)
    (hgw : isGatewayForm i = (maj == 26) := by rfl) (hlt : maj < 28 := by omega) (hJ : isJ maj = false := by rfl)
    (hX : isX maj = false := by rfl) (hKM : isKM maj = false := by rfl) (hmi : mi < 16 := by omega) (hg : g < 8 := by omega)
    (hrnd : x.rnd < 4 := by simp [rndCode_lt]) (hds : m.d ≠ .sys := by simp) (has : m.a ≠ .sys := by simp) :
    Decodes i (groupS sco none x (wordR maj mi b a d g)) := by
  have hdlt := hd.lt
  have halt := ha.lt
  have hblt := hb.lt
  obtain ⟨w, hw⟩ : ∃ w, w = wordR maj mi b a d g := ⟨_, rfl⟩
  rw [← hw]
  unfold wordR at hw
  have hbN : w / 4194304 % 64 = b := by omega
  have hmin : w / 268435456 % 16 = mi := by omega
  refine decodes_form hlt hJ hgw hform hbuild (by omega) (by omega) (by omega) (by omega) (by omega) (fun f hfw hfmaj => ?_) (fun h => ?_)
    (.inl rfl) nofun hd ha hds has (.inr ?_) hrnd ?_ fun f hf hfw _ => hc f hf ?_
  · simp only [Flds.minor, hfmaj, hX, hKM, Bool.false_eq_true, if_false, Flds.minR, hfw, hmin]
  · rw [hX] at h; cases h
  · rwa [hbN]
  · rwa [hmin, hbN]
  · rw [Flds.bN, hfw, hbN]

/-- Format X: the minor code stands in the field B. -/
theorem decodes_X (hform : form maj b = some m) (hbuild : ∀ f, build f maj b = some (c f))
    (hd : m.d.Takes x x.dhi d) (ha : m.a.Takes x x.ahi a)
    (hc : ∀ f : Flds, f.Has sco x g d a → c f = i := by
      intro f h
      simp only [Flds.g, Flds.dS, Flds.aS, Flds.dV, Flds.aV, rnd_eq, rndOf_rndCode, Fin.ofNat_val_eq_self, Nat.div_add_mod, h.gN,
        h.dN, h.aN, h.dhi, h.ahi, h.rndN])
    (hadm : m.Admits sco x maj 0 g d a b := by constructor <;> simp)
    (hgw : isGatewayForm i = (maj == 26) := by rfl) (hlt : maj < 28 := by omega) (hJ : isJ maj = false := by rfl)
    (hX : isX maj = true := by rfl) (hb : b < 64 := by omega) (hzero : m.b = .zero := by rfl) (hbhi : x.bhi = 0 := by rfl)
    (hg : g < 8 := by omega) (hrnd : x.rnd < 4 := by simp [rndCode_lt]) (hds : m.d ≠ .sys := by simp) (has : m.a ≠ .sys := by simp) :
    Decodes i (groupS sco none x (wordR maj 0 b a d g)) := by
  have hdlt := hd.lt
  have halt := ha.lt
  obtain ⟨w, hw⟩ : ∃ w, w = wordR maj 0 b a d g := ⟨_, rfl⟩
  rw [← hw]
  unfold wordR at hw
  have hbN : w / 4194304 % 64 = b := by omega
  have hmin : w / 268435456 % 16 = 0 := by omega
  refine decodes_form hlt hJ hgw hform hbuild (by omega) (by omega) (by omega) (by omega) (by omega) (fun f hfw hfmaj => ?_) (fun _ => hmin)
    (.inl rfl) nofun hd ha hds has (.inl ⟨hX, hzero, hbhi⟩) hrnd ?_ fun f hf _ _ => hc f hf
  · simp only [Flds.minor, hfmaj, hX, if_true, Flds.bN, hfw, hbN]
  · rwa [hmin, hbN]

/-- Formats K and M: 8 bits of the word, and with IMM 24 bits above them. -/
theorem decodes_low {k8 : Nat} {imm : Option Nat} (hform : form maj mi = some m) (hbuild : ∀ f, build f maj mi = some (c f))
    (hc : ∀ f : Flds, f.Has sco x g d a → f.k8 = k8 → f.imm = imm.map (fun p => 256 * p + 61) → c f = i)
    (hk8 : k8 < 256) (hpay : ∀ p ∈ imm, p < 2 ^ 24) (hd : m.d.Takes x x.dhi d) (ha : m.a.Takes x x.ahi a)
    (hb : ∀ n < 64, m.b.Takes x x.bhi n)
    (hadm : ∀ n b, m.Admits sco x maj n g d a b) (hgw : isGatewayForm i = (maj == 26)) (hKM : isKM maj = true) (hmi : mi < 4)
    (hg : g < 8) (hrnd : x.rnd < 4) (hds : m.d ≠ .sys) (has : m.a ≠ .sys) :
    Decodes i (groupS sco imm x (wordK maj mi k8 a d g)) := by
  have hmaj : maj < 28 ∧ isJ maj = false ∧ isX maj = false := by
    have h : (maj = 1 ∨ maj = 5) ∨ maj = 14 := by simpa [isKM] using hKM
    obtain (rfl | rfl) | rfl := h <;> decide
  obtain ⟨hlt, hJ, hX⟩ := hmaj
  have hdlt := hd.lt
  have halt := ha.lt
  obtain ⟨w, hw⟩ : ∃ w, w = wordK maj mi k8 a d g := ⟨_, rfl⟩
  rw [← hw]
  unfold wordK at hw
  have hmin : w / 1073741824 % 4 = mi := by omega
  have hk : w / 4194304 % 256 = k8 := by omega
  refine decodes_form hlt hJ hgw hform hbuild (by omega) (by omega) (by omega) (by omega) (by omega) (fun f hfw hfmaj => ?_) (fun h => ?_)
    (.inr hKM) hpay hd ha hds has (.inr (hb _ (Nat.mod_lt _ (by omega)))) hrnd (hadm ..) fun f hf hfw himm => hc f hf ?_ himm
  · simp only [Flds.minor, hfmaj, hX, hKM, Bool.false_eq_true, if_false, if_true, Flds.minK, hfw, hmin]
  · rw [hX] at h; cases h
  · rw [Flds.k8, hfw, hk]

theorem takes_kop {n : Nat} (h : n < 64) : Opd.kop.Takes x 0 n := takes_small h rfl fun _ => rfl
theorem takes_off {n : Nat} (h : n < 64) : Opd.off.Takes x 0 n := takes_small h rfl fun _ => rfl

theorem KOp.low_lt (k : KOp) : k.low < 256 := by cases k <;> simp only [KOp.low] <;> omega
theorem KOp.pay_lt (k : KOp) : ∀ p ∈ k.pay, p < 2 ^ 24 := by
  intro p hp
  cases k <;> cases hp
  omega
theorem MOff.low_lt (o : MOff) : o.low < 256 := by cases o <;> simp only [MOff.low] <;> omega
theorem MOff.pay_lt (o : MOff) : ∀ p ∈ o.pay, p < 2 ^ 24 := by
  intro p hp
  cases o <;> cases hp
  omega

/-- Format K: a K operand. -/
theorem decodes_K {k : KOp} (hform : form maj mi = some m) (hbuild : ∀ f, build f maj mi = some (c f))
    (hd : m.d.Takes x x.dhi d) (ha : m.a.Takes x x.ahi a)
    (hc : ∀ f : Flds, f.Has sco x g d a → f.kop = k → c f = i := by
      intro f h hk
      simp only [Flds.g, Flds.dS, Flds.aS, Flds.dV, Flds.aV, Fin.ofNat_val_eq_self, Nat.div_add_mod, hk, h.gN,
        h.dN, h.aN, h.dhi, h.ahi, h.sat])
    (hadm : ∀ n b, m.Admits sco x maj n g d a b := by intros; constructor <;> simp)
    (hgw : isGatewayForm i = (maj == 26) := by rfl) (hKM : isKM maj = true := by rfl) (hmi : mi < 4 := by omega)
    (hg : g < 8 := by omega) (hb : m.b = .kop := by rfl) (hbhi : x.bhi = 0 := by rfl) (hrnd : x.rnd < 4 := by simp)
    (hds : m.d ≠ .sys := by simp) (has : m.a ≠ .sys := by simp) :
    Decodes i (groupS sco k.pay x (wordK maj mi k.low a d g)) :=
  decodes_low hform hbuild (fun f hf hlow hpay => hc f hf (kop_eq hlow hpay)) k.low_lt k.pay_lt hd ha
    (fun n hn => by rw [hb, hbhi]; exact takes_kop hn) hadm hgw hKM hmi hg hrnd hds has

/-- Format M: an offset. -/
theorem decodes_M {o : MOff} (hform : form maj mi = some m) (hbuild : ∀ f, build f maj mi = some (c f))
    (hd : m.d.Takes x x.dhi d) (ha : m.a.Takes x x.ahi a)
    (hc : ∀ f : Flds, f.Has sco x g d a → f.off = o → c f = i := by
      intro f h hk
      simp only [Flds.g, Flds.dS, Flds.aS, Flds.dV, Flds.aV, Fin.ofNat_val_eq_self, Nat.div_add_mod, hk, h.gN,
        h.dN, h.aN, h.dhi, h.ahi, h.sat])
    (hadm : ∀ n b, m.Admits sco x maj n g d a b := by intros; constructor <;> simp)
    (hgw : isGatewayForm i = (maj == 26) := by rfl) (hKM : isKM maj = true := by rfl) (hmi : mi < 4 := by omega)
    (hg : g < 8 := by omega) (hb : m.b = .off := by rfl) (hbhi : x.bhi = 0 := by rfl) (hrnd : x.rnd < 4 := by simp)
    (hds : m.d ≠ .sys := by simp) (has : m.a ≠ .sys := by simp) :
    Decodes i (groupS sco o.pay x (wordK maj mi o.low a d g)) :=
  decodes_low hform hbuild (fun f hf hlow hpay => hc f hf (off_eq hlow hpay)) o.low_lt o.pay_lt hd ha
    (fun n hn => by rw [hb, hbhi]; exact takes_off hn) hadm hgw hKM hmi hg hrnd hds has

end

/-! ### Format J (R171, R197) -/

/-- The instruction of a J word. -/
def jumpInstr (maj : Nat) (c : KReg) (cn : Bool) (o : BitVec 20) : Instr := if maj = 16 then .br c cn o else .call c cn o

theorem decodes_J {maj : Nat} (c : KReg) (cn : Bool) (o : BitVec 20) (hmaj : maj = 16 ∨ maj = 17) :
    Decodes (jumpInstr maj c cn o) (halves (wordJ maj o.toNat cn c.val)) := by
  have hJ : isJ maj = true := by obtain rfl | rfl := hmaj <;> rfl
  have hgw : isGatewayForm (jumpInstr maj c cn o) = false := by obtain rfl | rfl := hmaj <;> rfl
  obtain ⟨w, hw⟩ : ∃ w, w = wordJ maj o.toNat cn c.val := ⟨_, rfl⟩
  have hbit : w / 2048 % 2 = cn.toNat ∧ w = 4096 * o.toNat + 2048 * cn.toNat + 128 * c.val + 2 * maj + 1 := by
    unfold wordJ at hw
    cases cn
    · simp only [Bool.false_eq_true, if_false] at hw; simp only [Bool.toNat_false]; omega
    · simp only [if_true] at hw; simp only [Bool.toNat_true]; omega
  obtain ⟨hcn, hw'⟩ := hbit
  have hcnlt := cn.toNat_lt
  rw [← hw]
  refine whole_last (by omega) (by omega) (by omega) fun r => ?_
  obtain ⟨f, hf⟩ : ∃ f : Flds, f = ⟨w, none, none⟩ := ⟨_, rfl⟩
  have hfw : f.w = w := by rw [hf]
  have hfmaj : f.maj = maj := by rw [Flds.maj, hfw]; omega
  have hsp : f.sp = false := by
    have h0 : f.w / 64 % 2 = 0 := by omega
    rw [Flds.sp, h0]; rfl
  have hc : Fin.ofNat 16 (w / 128 % 16) = c := by rw [show w / 128 % 16 = c.val by omega]; simp
  have hcnb : (w / 2048 % 2 == 1) = cn := by rw [hcn, beq_toNat]
  have ho : BitVec.ofNat 20 (w / 4096) = o := by rw [show w / 4096 = o.toNat by omega]; simp
  have h26 : (maj == 26) = false := beq_eq_false_iff_ne.mpr (by omega)
  simp only [decodeMain, ← hf, checkWord, hgw, hc, hcnb, ho, h26, hfmaj, hJ, if_neg (show ¬maj = 28 by omega),
    if_neg (show ¬maj = 29 by omega), Option.isSome_none, Bool.or_false, Bool.false_and, Bool.and_false, Bool.false_eq_true, if_false,
    if_true]
  exact finish_ok hsp rfl

/-! ### Compact words (R185) -/

/-- Registers below 62 lie in the whole allocation (R33). -/
theorem regsOut_whole {gw : Bool} : ∀ {regs : List (Nat × Nat)}, (∀ q ∈ regs, q.2 < 62) → regsOut (wholeEnv gw) regs = none
  | [], _ => rfl
  | (file, n) :: regs, h => by
    have hn : n < 62 := h (file, n) (.head _)
    have hv : vOut 256 n 1 = none := vOut_whole (by omega)
    have hu : uOut 64 n = none := uOut_whole (by omega)
    simp only [regsOut, wholeEnv, hv, hu, Option.isSome_none, ite_self, Bool.false_eq_true, if_false]
    exact regsOut_whole fun q hq => h q (.tail _ hq)

/-- A compact instruction names registers below 16 (R185). -/
theorem compactInstr_regs {h : Nat} {i : Instr} {regs : List (Nat × Nat)} (hi : compactInstr h = some (i, regs)) :
    ∀ q ∈ regs, q.2 < 16 := by
  have hd : h / 32 % 16 < 16 := Nat.mod_lt _ (by omega)
  have ha : h / 512 % 16 < 16 := Nat.mod_lt _ (by omega)
  have hb : h / 8192 % 8 < 16 := by omega
  unfold compactInstr at hi
  dsimp only at hi
  split at hi <;> grind

/-- A compact word, by its four fields. -/
theorem decodes_compact {cop d a b : Nat} {i : Instr}
    (hi : ∀ h, h / 2 % 16 = cop → h / 32 % 16 = d → h / 512 % 16 = a → h / 8192 % 8 = b →
      ∃ regs, compactInstr h = some (i, regs))
    (hcop : cop < 16 := by omega) (hd : d < 16 := by omega) (ha : a < 16 := by omega)
    (hb : b < 8 := by omega) : Decodes i [compact cop d a b] := by
  obtain ⟨n, hn⟩ : ∃ n, n = (compact cop d a b).toNat := ⟨_, rfl⟩
  have hn' : n = 8192 * b + 512 * a + 32 * d + 2 * cop := by rw [hn, compact, BitVec.toNat_ofNat]; omega
  obtain ⟨regs, hi'⟩ := hi n (by omega) (by omega) (by omega) (by omega)
  have hregs : ∀ q ∈ regs, q.2 < 62 := fun q hq => (compactInstr_regs hi' q hq).trans (by omega)
  refine ⟨fun r => ?_, fun k hk => ?_⟩
  · change decodeLoop (wholeEnv (isGatewayForm i)) 4 none none none 0 (compact cop d a b :: r) = _
    simp only [decodeLoop, ← hn, if_pos (show n % 2 = 0 by omega), decodeCompact, hi', regsOut_whole hregs]
    rfl
  · have hk0 : k = 0 := by simpa using hk
    rw [hk0]
    rfl

/-! ### Every instruction -/

theorem sysUnknown_of_known {n : SysReg} (h : n.known = true) : sysUnknown n.val = false := by
  revert n
  decide
theorem sysUnknown_of_dest {n : SysReg} (h : n.dest = true) : sysUnknown n.val = false := by
  revert n
  decide
theorem sysWritable_of_dest {n : SysReg} (h : n.dest = true) : sysWritable true n.val = true := by
  revert n
  decide

/-- From the halfwords that `encode` computes to those that a hypothesis names. -/
theorem decodes_of_encode {i : Instr} {hs hs' : List Half} (he : encode i = some hs) (he' : encode i = some hs') (h : Decodes i hs') :
    Decodes i hs := by
  rwa [Option.some.inj (he.symm.trans he')]

/-- The encoding of a well-formed instruction is a whole group that decodes to it. A case names the kinds of a form's operands, whose
fields the form takes; the row of the table and the fields that WIDE gives are computed. -/
theorem encode_decodes {i : Instr} {hs : List Half} (hwf : i.wf = true) (he : encode i = some hs) : Decodes i hs := by
  cases i with
  | sadd | ssub | smul | smulh | smulhu | sdiv | sdivu | srem | sand | sor | sxor | sshl | sshr | ssar | smin | smax | satcas | waitv |
    cqpush | resolve | ffault | sendr | recv | csave | crest =>
    exact decodes_of_encode he rfl <| decodes_R rfl (fun _ => rfl) (takes_s _) (takes_s _) (takes_s _)
  | smovk => exact decodes_of_encode he rfl <| decodes_K rfl (fun _ => rfl) (takes_s _) takes_zero
  | saddk | sandk | sshlk => exact decodes_of_encode he rfl <| decodes_K rfl (fun _ => rfl) (takes_s _) (takes_s _)
  | smov | snot | sneg | sabs | sclz | spopc | ssx32 | szx32 | sbrev =>
    exact decodes_of_encode he rfl <| decodes_X rfl (fun _ => rfl) (takes_s _) (takes_s _)
  | scmpeq | scmpne | scmplt | scmple | scmpltu | scmpleu =>
    exact decodes_of_encode he rfl <| decodes_R rfl (fun _ => rfl) (takes_kd hwf) (takes_s _) (takes_s _)
  | kand | kor | kxor | kandn => exact decodes_of_encode he rfl <| decodes_R rfl (fun _ => rfl) (takes_kd hwf) (takes_k _) (takes_k _)
  | vadd | vsub | vmul | vmulh | vmulhu | vmad | vand | vor | vxor | vshl | vshr | vsar | vmin | vmax | vminu | vmaxu | vfadd | vfsub |
    vfmul | vfma | vfms | vfnma | vfmin | vfmax | vfdiv | vfcpys | vhaddf | vhmulf | vhfmaf | vhminf | vhmaxf | vhaddb | vhmulb | vhfmab |
    vhminb | vhmaxb | vdot2f | vdot2b | vdot4i | vqnt | vdqnt | vpack8 | vunpk8 | vshfl =>
    exact decodes_of_encode he rfl <| decodes_R rfl (fun _ => rfl) (takes_v _) (takes_v _) (takes_vs rfl)
  | vmovk => exact decodes_of_encode he rfl <| decodes_K rfl (fun _ => rfl) (takes_v _) takes_zero
  | vaddk | vandk | vshlk => exact decodes_of_encode he rfl <| decodes_K rfl (fun _ => rfl) (takes_v _) (takes_v _)
  | vfabs | vfneg | vfsqrt | vfrsq | vfrcp | vfexp2 | vflog2 | vffloor | vfceil | vfrint | vftrunc | vfclass | vftanh =>
    exact decodes_of_encode he rfl <| decodes_X rfl (fun _ => rfl) (takes_v _) (takes_v _)
  | vcvtfi | vcvtif | vcvtfu | vcvtuf => exact decodes_of_encode he rfl <| decodes_R rfl (fun _ => rfl) (takes_v _) (takes_v _) takes_zero
  | vcvtfh | vcvtfb => exact decodes_of_encode he rfl <| decodes_R rfl (fun _ => rfl) (takes_v _) (takes_v _) (takes_v _)
  | vcvthf | vcvtbf => exact decodes_of_encode he rfl <| decodes_R rfl (fun _ => rfl) (takes_v2 hwf) (takes_v _) takes_zero
  | vdgen => exact decodes_of_encode he rfl <| decodes_R rfl (fun _ => rfl) (takes_v _) takes_zero (takes_vs rfl)
  | vqcfg => exact decodes_of_encode he rfl <| decodes_R rfl (fun _ => rfl) takes_zero (takes_s _) (takes_sb _)
  | vcmpeq | vcmpne | vcmplt | vcmple | vcmpltu | vcmpleu | vfcmpeq | vfcmplt | vfcmple | vfcmpun =>
    exact decodes_of_encode he rfl <| decodes_R rfl (fun _ => rfl) (takes_pd hwf) (takes_v _) (takes_vs rfl)
  | pand | por | pxor | pandn => exact decodes_of_encode he rfl <| decodes_R rfl (fun _ => rfl) (takes_pd hwf) (takes_p _) (takes_p _)
  | vbcst | vldc | vldsc | vstc | vstsc =>
    exact decodes_of_encode he rfl <| decodes_R rfl (fun _ => rfl) (takes_v _) (takes_s _) takes_zero
  | vrdln => exact decodes_of_encode he rfl <| decodes_R rfl (fun _ => rfl) (takes_s _) (takes_v _) (takes_sb _)
  | vwrln | vldsw | vstsw => exact decodes_of_encode he rfl <| decodes_R rfl (fun _ => rfl) (takes_v _) (takes_s _) (takes_sb _)
  | vfirst | vredai | vredaf | vredmx => exact decodes_of_encode he rfl <| decodes_R rfl (fun _ => rfl) (takes_s _) (takes_v _) takes_zero
  | vballot => exact decodes_of_encode he rfl <| decodes_R rfl (fun _ => rfl) (takes_s _) (takes_p _) takes_zero
  | pfroms => exact decodes_of_encode he rfl <| decodes_R rfl (fun _ => rfl) (takes_pd hwf) (takes_s _) takes_zero
  | panyk | pallk => exact decodes_of_encode he rfl <| decodes_R rfl (fun _ => rfl) (takes_kd hwf) (takes_p _) takes_zero
  | xset => exact decodes_of_encode he rfl <| decodes_R rfl (fun _ => rfl) takes_zero (takes_p _) takes_zero
  | xsave | fnew | self => exact decodes_of_encode he rfl <| decodes_R rfl (fun _ => rfl) (takes_s _) takes_zero takes_zero
  | xrest | jmpr | callr | descinv | mcfg | cqkick | release | scopec | scopew | retire | yield | bqdone | trap | replay =>
    exact decodes_of_encode he rfl <| decodes_R rfl (fun _ => rfl) takes_zero (takes_s _) takes_zero
  | vxacc => exact decodes_of_encode he rfl <| decodes_R rfl (fun _ => rfl) (takes_v4 hwf) (takes_v _) takes_zero
  | vldw | vldh | vldb | vldq | vstw | vsth | vstb | vstq | vatadd | vatmin | vatmax | vatand | vator | vatxor | vatxch | vfatadd =>
    exact decodes_of_encode he rfl <| decodes_R rfl (fun _ => rfl) (takes_v _) (takes_s _) (takes_vs rfl)
  | vldd | vstd | vatcas => exact decodes_of_encode he rfl <| decodes_R rfl (fun _ => rfl) (takes_v2 hwf) (takes_s _) (takes_vs rfl)
  | sld | sst | slds | ssts => exact decodes_of_encode he rfl <| decodes_M rfl (fun _ => rfl) (takes_s _) (takes_s _)
  | vxadd => exact decodes_of_encode he rfl <| decodes_R rfl (fun _ => rfl) (takes_vx hwf) (takes_s _) (takes_vs rfl)
  | ret | nop | brk | fence | fenceacq | fencerel | bar | logwait | tret | halt =>
    exact decodes_of_encode he rfl <| decodes_R rfl (fun _ => rfl) takes_zero takes_zero takes_zero
  | waitk => exact decodes_of_encode he rfl <| decodes_R rfl (fun _ => rfl) takes_zero (takes_kc hwf) takes_zero
  | descinvDeep => exact decodes_of_encode he rfl <| decodes_R rfl (fun _ => rfl) takes_zero (takes_s 0) takes_zero
  | sldacq | sstrel | spawn | touch | poll | cancel | cancelDeep | scopeo | prio | bqclaim =>
    exact decodes_of_encode he rfl <| decodes_R rfl (fun _ => rfl) (takes_s _) (takes_s _) takes_zero
  | mzero => exact decodes_of_encode he rfl <| decodes_R rfl (fun _ => rfl) (takes_acc _) takes_zero takes_zero
  | mma | mmas => exact decodes_of_encode he rfl <| decodes_R rfl (fun _ => rfl) (takes_acc _) (takes_h _) (takes_h _)
  | mdrain | msave | mload => exact decodes_of_encode he rfl <| decodes_R rfl (fun _ => rfl) (takes_t _) (takes_acc _) (takes_s _)
  | mstat => exact decodes_of_encode he rfl <| decodes_R rfl (fun _ => rfl) (takes_s _) (takes_acc _) takes_zero
  | rdef | rwfull | rwfree | radvp | radvc =>
    exact decodes_of_encode he rfl <| decodes_R rfl (fun _ => rfl) (takes_h _) (takes_s _) takes_zero
  | rslot | rslotc => exact decodes_of_encode he rfl <| decodes_R rfl (fun _ => rfl) (takes_s _) (takes_h _) (takes_s _)
  | rundef => exact decodes_of_encode he rfl <| decodes_R rfl (fun _ => rfl) (takes_h _) takes_zero takes_zero
  | cpy | cpyt | cpyrd | topkc | topkr =>
    exact decodes_of_encode he rfl <| decodes_R rfl (fun _ => rfl) (takes_t _) (takes_s _) takes_zero
  | cpyr | gstart => exact decodes_of_encode he rfl <| decodes_R rfl (fun _ => rfl) (takes_t _) (takes_h _) (takes_s _)
  | tokrd | gstat => exact decodes_of_encode he rfl <| decodes_R rfl (fun _ => rfl) (takes_s _) (takes_t _) takes_zero
  | gstop => exact decodes_of_encode he rfl <| decodes_R rfl (fun _ => rfl) takes_zero (takes_t _) takes_zero
  | touchc => exact decodes_of_encode he rfl <| decodes_R rfl (fun _ => rfl) (takes_s _) (takes_s _) (takes_kd hwf)
  | send | htwr => exact decodes_of_encode he rfl <| decodes_R rfl (fun _ => rfl) takes_zero (takes_s _) (takes_s _)
  | baddq => exact decodes_of_encode he rfl <| decodes_R rfl (fun _ => rfl) (takes_t _) (takes_s _) (takes_s _)
  | pchk => exact decodes_of_encode he rfl <| decodes_R rfl (fun _ => rfl) (takes_kd hwf) (takes_s _) takes_zero
  | satadd g d a b nr sc | satxch g d a b nr sc =>
    have hres : nr = true → d = 0 := fun h => by simpa [Instr.wf, h] using hwf
    exact decodes_of_encode he rfl <| decodes_R rfl (fun _ => rfl) (takes_s _) (takes_s _) (takes_s _)
      (hadm := by constructor <;> simp +contextual [hres])
  | waitt =>
    exact decodes_of_encode he rfl <| decodes_R rfl (fun _ => rfl) (takes_tmask _) (takes_tmaskHi _) takes_zero
      (hc := fun f h _ => by simp only [tm_eq h.dN h.aN, Flds.g, Fin.ofNat_val_eq_self, h.gN])
  | srd g d n =>
    exact decodes_of_encode he rfl <| decodes_R rfl (fun _ => rfl) (takes_s _) takes_zero (takes_sys _)
      (hadm := by constructor <;> simp [sysUnknown_of_known hwf])
  | swr g a n =>
    exact decodes_of_encode he rfl <| decodes_R rfl (fun _ => rfl) takes_zero (takes_s _) (takes_sys _)
      (hadm := by constructor <;> simp [sysUnknown_of_dest hwf, sysWritable_of_dest hwf])
  | swrDeep =>
    exact decodes_of_encode he rfl <| decodes_R rfl (fun _ => rfl) takes_zero (takes_s _) (takes_sysDeep _ rfl)
  | br c cn o => exact decodes_of_encode he rfl (decodes_J (maj := 16) c cn o (.inl rfl))
  | call c cn o => exact decodes_of_encode he rfl (decodes_J (maj := 17) c cn o (.inr rfl))
  | cNop | cSmov | cSadd | cSaddi | cVmov | cVadd | cVfadd | cVfma | cVfmul | cSld | cSst | cRet | cTouch | cRadvc =>
    exact decodes_of_encode he rfl <| decodes_compact fun h h1 h2 h3 h4 => by simp [compactInstr, h1, h2, h3, h4]
  | cWaitt m =>
    exact decodes_of_encode he rfl <| decodes_compact fun h h1 h2 h3 h4 => by
      simp [compactInstr, h1, h4, show h / 32 % 256 = m.toNat by omega]
  | _ => exact nomatch he

/-- Settles O59: a group is whole when its words are taken up one by one, and its last word passes every check of its form. -/
theorem decodeOfEncode : Obligations.DecodeOfEncode := by
  intro i hs r hwf he
  obtain ⟨hok, hshort⟩ := encode_decodes hwf he
  exact ⟨hok r, hshort⟩

end Sys2Proof
end

section
/-! SUPPORT. O58: the words of the specification. -/

namespace Sys2Proof

open Machine

/-- Settles O58: each word is decoded by computation. -/
theorem specWordsDecode : Obligations.SpecWordsDecode := by
  unfold Obligations.SpecWordsDecode
  intro e hv
  refine ⟨?_, ?_, ?_, ?_, ?_, ?_, ?_, ?_, ?_, ?_, ?_, ?_, ?_, ?_, ?_, ?_, ?_, ?_⟩ <;> decide

end Sys2Proof
end

section
/-! SUPPORT. O41: a trap that is taken (R320, R326). -/

namespace Sys2Proof.Machine

open Sys2Proof

/-- With no trap active and TRAPBASE set, a trap saves its four registers and goes to TRAPBASE (R326). -/
theorem trap_taken (s : State) (cause : Nat) (addr info : W64) (hactive : bitOf s.me.trapCause.toNat 8 = false)
    (hbase : s.me.trapBase ≠ 0) :
    s.trap cause addr info = { s with me := { s.me with
      trapCause := BitVec.ofNat 64 (cause + 256 + (if s.me.super then 512 else 0))
      trapPc := s.me.pc
      trapAddr := addr
      trapInfo := info
      pc := s.me.trapBase
      status := .ready
      phase := .start
      wake := none
      cur := none
      pipe := false } } := by
  have hcause : (if s.me.super then 512 else 0) + 256 + cause = cause + 256 + (if s.me.super then 512 else 0) := by omega
  have hbase' : (s.me.trapBase == 0) = false := beq_eq_false_iff_ne.mpr hbase
  simp only [State.trap, hactive, hbase', hcause, Bool.or_self, Bool.false_eq_true, if_false]

/-- BRK traps where no debugger takes it (R187, R419). -/
theorem exec_brk_trap (s : State) (g : Guard) (hopen : s.me.opens g) (hbrk : s.mgmt.debug = 2 → s.mgmt.brkHalt = false) :
    exec (.brk g) s = .next (s.trap cBREAK 0 0) := by
  have hhalt : ¬ ((s.mgmt.debug == 2 && s.mgmt.brkHalt) = true) := by
    rw [Bool.and_eq_true, beq_iff_eq]
    rintro ⟨hdebug, hset⟩
    rw [hbrk hdebug] at hset
    cases hset
  rw [exec_brk, execBrk, withK_open s g _ hopen, if_neg hhalt]

/-- Settles O41: each of the three is `State.trap` with its cause and its information, and that trap is taken. -/
theorem trapTaken : Obligations.TrapTaken := by
  intro s g a r w hopen hactive hbase hbrk c hc
  simp only [List.mem_cons, List.not_mem_nil, or_false] at hc
  obtain rfl | rfl | rfl := hc
  · have htrap := trap_taken s cSOFTWARE 0 (s.me.sget a) hactive hbase
    rw [exec_trap, execTrap, withK_open s g _ hopen, htrap]
    rfl
  · rw [exec_brk_trap s g hopen hbrk, trap_taken s cBREAK 0 0 hactive hbase]
    rfl
  · rw [exec_illegalEncoding, execIllegalEncoding, trap_taken s cILLEGAL 0 _ hactive hbase]
    rfl

end Sys2Proof.Machine
end

section
/-! SUPPORT. O57: fetching a group halfword by halfword (R167, R168), and what a turn does (log 3). -/

namespace Sys2Proof.Machine

open Sys2Proof

/-! ### Fetching a group -/

/-- With no write under way, no replica and no swap, a halfword is what storage holds, where it is not poisoned (R170). -/
theorem fetchHalf_clean {s : State} {a pa : Nat} (ha : a < 2 ^ 57) (hbusy : s.sup.rtBusy = false) (hreps : s.replicas = [])
    (hwrs : s.wrs = []) (htr : translate s.toSoc s.me.super .fetch s.me.asid a = .phys pa) (hlo : isPoisoned s.poison pa 1 = false)
    (hhi : isPoisoned s.poison (pa + 1) 1 = false) : s.fetchHalf a = .ok (BitVec.ofNat 16 (natOf (memBytes s.mem pa 2))) := by
  have hheld : s.heldAt s.me.loc.core.die s.me.asid a 2 = none := by
    rw [heldAt_replica _ _ _ _ _ hwrs hbusy, State.replicaOf, hreps]
    rfl
  have hwait : s.swapWait a = false := by rw [State.swapWait, hbusy]; rfl
  have hpoison : (s.marked pa 2).2.any id = false := by simp [Soc.marked, List.range_succ, hlo, hhi]
  simp only [State.fetchHalf, if_neg (Nat.not_le.mpr ha), hheld, htr, hwait, Bool.false_eq_true, if_false, State.halfOf, hpoison]
  rfl

/-- A fetch takes up halfwords until the decoder has a group. -/
theorem fetchFrom_group {s : State} {i : Instr} {len : Nat} {mask : Option W32} :
    ∀ {rest : List Half} {n a : Nat} {done : List Half}, rest ≠ [] → rest.length ≤ n →
      (∀ k < rest.length, s.fetchHalf (a + 2 * k) = .ok (rest.getD k 0)) →
      decode s.me.decEnv (done ++ rest) = .ok i len mask →
      (∀ k, 0 < k → k < rest.length → decode s.me.decEnv (done ++ rest.take k) = .short) →
      s.fetchFrom n a done = .instr i len mask
  | [], _, _, _, hne, _, _, _, _ => absurd rfl hne
  | _ :: _, 0, _, _, _, hlen, _, _, _ => absurd hlen (by simp)
  | h :: rest, n + 1, a, done, _, hlen, hfetch, hok, hshort => by
    have hhead : s.fetchHalf a = .ok h := hfetch 0 (by simp)
    cases rest with
    | nil => simp only [State.fetchFrom, hhead, hok]
    | cons h' rest =>
      have hmore : decode s.me.decEnv (done ++ [h]) = .short := hshort 1 (by omega) (by simp)
      simp only [State.fetchFrom, hhead, hmore]
      refine fetchFrom_group (rest := h' :: rest) (by simp) (by simpa using hlen) (fun k hk => ?_) (by simpa using hok) fun k h0 hk => ?_
      · have hnext := hfetch (k + 1) (by simpa using hk)
        rwa [show a + 2 * (k + 1) = a + 2 + 2 * k by omega] at hnext
      · simpa using hshort (k + 1) (by omega) (by simpa using hk)

/-- No group is without halfwords. -/
theorem ne_nil_of_decode {e : DecEnv} {hs : List Half} {i : Instr} {len : Nat} {mask : Option W32} (h : decode e hs = .ok i len mask) :
    hs ≠ [] := by
  rintro rfl
  cases h

/-! ### The turn that a step takes -/

theorem step_agenda {s : State} {t : Turn} {r : List Turn} (h : s.agenda = t :: r) :
    step s = settleStep (({ s with agenda := r } : State).take t) := by
  simp only [step, State.run, State.nextTurn, h]

/-- A thread group that may issue runs. -/
theorem issue_runs {s : State} {g : TgRef} (hloc : (s.focus g).me.loc = g) (hrun : s.running = true)
    (hcan : (s.focus g).me.canIssue = true) : s.issue g = (s.focus g).issueTime.runMe :=
  if_pos ⟨hloc, hrun, hcan⟩

/-- An agent's turn takes its row, while the device is not stopped. -/
theorem take_event {s : State} {i : Instr} (hevent : isEvent i = true) (hstopped : s.stopped = false) :
    s.take (.event i) = exec i s :=
  if_pos (by simp [hevent, hstopped])

/-- Settles O57: a thread group's turn is the group under execution or the one that `fetchFrom_group` finds; the other turns are the
branches of `State.take`. -/
theorem stepRunsTheDecodedInstruction : Obligations.StepRunsTheDecodedInstruction := by
  refine ⟨?_, ?_⟩
  · intro s g r i hs pa mask hagenda u pc hloc hrun hcan
    have hstep : step s = settleStep u.runMe := (step_agenda hagenda).trans (congrArg settleStep (issue_runs hloc hrun hcan))
    refine ⟨fun hcur => by rw [hstep, State.runMe, hcur], fun hcur hbusy hreps hwrs hlen hpc hmem hok hshort => ?_⟩
    have hfetch : u.fetch = .instr i (2 * hs.length) mask := by
      refine fetchFrom_group (ne_nil_of_decode hok) hlen (fun k hk => ?_) hok hshort
      obtain ⟨htr, hhalf, hlo, hhi⟩ := hmem k hk
      rw [fetchHalf_clean (by omega) hbusy hreps hwrs htr hlo hhi, hhalf, BitVec.ofNat_toNat, BitVec.setWidth_eq]
    rw [hstep, State.runMe, hcur]
    simp only [State.runNew, hfetch]
    rfl
  · intro s r i c n g
    exact ⟨step_agenda, fun hagenda hevent hstopped => (step_agenda hagenda).trans (congrArg settleStep (take_event hevent hstopped)),
      step_agenda⟩

end Sys2Proof.Machine
end

section
/-! SUPPORT. O55: what a guard does to a form behind it (R173, R189, R208). -/

namespace Sys2Proof.Machine

open Sys2Proof

/-- What a uniform guard decides of an outcome: where it is shut nothing is done, and where it is poisoned the task is killed. -/
structure State.GuardedK (s : State) (g : Guard) (o : Out State) : Prop where
  shut : s.me.shuts g → o = .next (s.ends id)
  taint : s.me.taints g → o = .next (s.killMe kPOISON s.me.pc)

/-! ### Every operation that takes the guard first -/

section
variable (s : State) (g : Guard)

theorem guardedK_withK (f : State → State) : s.GuardedK g (.next (s.withK g f)) :=
  ⟨fun h => congrArg _ (withK_shut s g f h), fun h => congrArg _ (withK_taint s g f h)⟩

theorem guardedK_vecMem (write : Bool) (z : Nat) (addr : TG → Fin 32 → W64) (poison : TG → W32)
    (f : State → List (Fin 32) → State) :
    s.GuardedK g (.next (s.vecMem g write z addr poison f)) :=
  guardedK_withK s g _

theorem guardedK_withFmt (f : State → State) : s.GuardedK g (.next (s.withFmt g f)) :=
  guardedK_withK s g _

theorem guardedK_vatom (minor z : Nat) (a : UReg) (b : VSrc) (nr : Bool) (sc : Scope) (format : TG → Bool)
    (data : TG → Fin 32 → List Byte × Bool) (put : State → LaneVals → State) :
    s.GuardedK g (.next (s.vatom minor z g a b nr sc format data put)) :=
  guardedK_withK s g _

/-- A check before the guard that passes leaves the guard to decide. -/
theorem guardedK_unless {c : Prop} [Decidable c] {t u : State} (hc : ¬ c) (h : s.GuardedK g (.next u)) :
    s.GuardedK g (.next (if c then t else u)) := by
  rwa [if_neg hc]

theorem withP_killed (f : State → State) (h : ¬ s.me.clean g) : (.next (s.withP g f) : Out State) = .next (s.killMe kPOISON s.me.pc) :=
  congrArg _ (if_pos h)

end

/-! ### Forms that check the mode or the register number first -/

section
variable {s : State} (g : Guard) (a : UReg) {n : SysReg}

theorem guardedK_srd (hsuper : s.me.super = true) (hknown : n.known = true) : s.GuardedK g (exec (.srd g a n) s) :=
  guardedK_unless s g (by simp [sysUnknown_of_known hknown]) <| guardedK_unless s g (by simp [hsuper]) <| guardedK_withK s g _

theorem guardedK_swr (hsuper : s.me.super = true) (hdest : n.dest = true) : s.GuardedK g (exec (.swr g a n) s) :=
  guardedK_unless s g (by simp [sysUnknown_of_dest hdest]) <| guardedK_unless s g (by simp [hsuper]) <|
    guardedK_unless s g (by simp [hsuper, sysWritable_of_dest hdest]) <| guardedK_withK s g _

end

/-- Settles O55: every form of the first list opens with its uniform guard, in the second list after checks that pass, and every form of
the third with its lane guard. -/
theorem guardResult : Obligations.GuardResult := by
  refine ⟨?_, ?_, ?_⟩
  · intro s g u1 u2 u3 v1 k1 k2 k3 h1 h2 t1 a1 b k o nr sc n
    suffices h : ∀ i ∈ _, s.GuardedK g (exec i s) from fun i hi => ⟨(h i hi).shut, (h i hi).taint⟩
    simp only [List.cons_append, List.nil_append, List.forall_mem_cons, List.not_mem_nil, false_imp_iff, implies_true, and_true]
    and_intros
    all_goals first
      | exact guardedK_withK s g _
      | exact guardedK_vecMem s g ..
      | exact guardedK_withFmt s g _
      | exact guardedK_vatom s g ..
  · intro s g u1 u2 u3 k1 y n hsuper hknown
    suffices h : ∀ i ∈ _, s.GuardedK g (exec i s) from fun i hi => ⟨(h i hi).shut, (h i hi).taint⟩
    have hmode {f : State → State} : s.GuardedK g (.next (if !s.me.super then s.trap cPRIV 0 0 else s.withK g f)) :=
      guardedK_unless s g (by simp [hsuper]) (guardedK_withK s g f)
    have hmode' {c : Bool} {f : State → State} : s.GuardedK g (.next (if !s.me.super && c then s.trap cPRIV 0 0 else s.withK g f)) :=
      guardedK_unless s g (by simp [hsuper]) (guardedK_withK s g f)
    refine List.forall_mem_append.2 ⟨?_, ?_⟩
    · simp only [List.forall_mem_cons]
      exact ⟨hmode', guardedK_srd g u1 hsuper hknown, hmode', hmode, hmode, hmode, hmode, List.forall_mem_nil _⟩
    · split
      · rename_i hdest
        simpa using guardedK_swr g u1 hsuper hdest
      · exact List.forall_mem_nil _
  · intro s g u1 v1 v2 v3 k1 p1 p2 p3 b k r nr hg
    simp only [List.cons_append, List.nil_append, List.forall_mem_cons, List.not_mem_nil, false_imp_iff, implies_true, and_true]
    and_intros
    all_goals exact withP_killed s g _ hg

end Sys2Proof.Machine
end

section
/-! SUPPORT. O3: the compact forms (R185): what a form does with guard 0, which is no guard. -/

namespace Sys2Proof.Machine

open Sys2Proof

/-! ### Shared operations without a guard -/

theorem active_zero (t : TG) : t.active 0 = t.x := BitVec.and_allOnes

theorem clean_zero (t : TG) : t.clean 0 := BitVec.zero_and

theorem vec2_unguarded (s : State) (d a b : VReg) (f : W32 → W32 → W32) :
    s.vec2 0 d a (.v b) f = s.ends fun t => t.setV d t.x (fun l => f s.me.v[a][l] s.me.v[b][l]) (t.vp[a] ||| t.vp[b]) := by
  refine (withP_clean s 0 _ (clean_zero s.me)).trans ?_
  rw [active_zero]
  rfl

theorem vec3_unguarded (s : State) (d a b : VReg) (f : W32 → W32 → W32 → W32) :
    s.vec3 0 d a (.v b) f = s.ends fun t => t.setV d t.x (fun l => f s.me.v[a][l] s.me.v[b][l] s.me.v[d][l])
      (t.vp[a] ||| t.vp[b] ||| t.vp[d]) := by
  refine (withP_clean s 0 _ (clean_zero s.me)).trans ?_
  rw [active_zero]
  rfl

/-! ### The operands that a compact form writes in its own way -/

/-- An immediate of 3 bits is extended to 64 bits at once, or to the 32 of a K operand first. -/
theorem signExtend_imm3 (n : BitVec 3) : (n.signExtend 32).signExtend 64 = n.signExtend 64 := by
  revert n
  decide

/-- An immediate is a clean operand, known at once. -/
theorem withKop_imm (s : State) (v : W32) (f : W32 → Bool → State) : s.withKop (.imm v) f = f v false := rfl

theorem uniK_imm (s : State) (g : Guard) (d a : UReg) (v : W32) (f : W64 → W64 → W64) :
    s.uniK g d a (.imm v) f = s.uni1 g d a fun x => f x (v.signExtend 64) := by
  simp only [State.uniK, State.uni1, withKop_imm, Bool.or_false]

theorem exec_cSaddi_eq (s : State) (d a : CReg) (n : BitVec 3) :
    exec (.cSaddi d a n) s = exec (.saddk 0 (CReg.u d) (CReg.u a) (.imm (n.signExtend 32))) s := by
  rw [exec_cSaddi, execCSaddi, exec_saddk, execSaddk, uniK_imm, signExtend_imm3]

/-- The sum of two lanes without saturation. -/
theorem satW_false_add (a b : W32) : satW false (a.toInt + b.toInt) = a + b := by
  simp [satW, BitVec.ofInt_add]

theorem exec_cVadd_eq (s : State) (d a : CReg) (b : Fin 8) :
    exec (.cVadd d a b) s = exec (.vadd 0 (CReg.v d) (CReg.v a) (.v (c8v b)) false) s := by
  simp only [exec_cVadd, execCVadd, exec_vadd, execVadd, satW_false_add]

/-- The count of C.RADVC in a register. -/
theorem exec_cRadvc_eq (s : State) (d : CReg) (n : BitVec 3) {h : HReg} {c : UReg} (hd : h.val = d.val)
    (hcount : s.me.s[c] = BitVec.ofNat 64 (n.toNat + 1)) (hclean : s.me.sp.getLsbD c.val = false) :
    exec (.cRadvc d n) s = exec (.radvc 0 h c) s := by
  obtain rfl : h = d := Fin.ext hd
  have hn : (s.me.sget c).toNat = n.toNat + 1 := by
    rw [TG.sget, hcount, BitVec.toNat_ofNat]
    omega
  have hp : s.me.spoison c = false := hclean
  rw [exec_cRadvc, execCRadvc, exec_radvc, execRadvc, withK_open s 0 _ (.inl rfl), hn, hp]

/-- Settles O3: a compact form runs the body of the form that it stands for, which guard 0 lets through. -/
theorem compactFormResult : Obligations.CompactFormResult := by
  refine ⟨?_, ?_⟩
  · intro s d a b n m du au bu dv av bv
    exact ⟨rfl, rfl, rfl, exec_cSaddi_eq s d a n, rfl, exec_cVadd_eq s d a b, rfl, rfl, rfl, rfl, rfl, rfl, rfl, rfl,
      fun _ _ => exec_cRadvc_eq s d n⟩
  · intro s d a b n du au bu dv av bv x sp va vb vd
    refine ⟨rfl, rfl, rfl, rfl, ?_, ?_, ?_, ?_, ?_⟩
    · rw [exec_cVmov, execCVmov, vec2_unguarded]
      simp only [BitVec.or_self]
      rfl
    · exact congrArg Host.Outcome.next (vec2_unguarded ..)
    · exact congrArg Host.Outcome.next (vec2_unguarded ..)
    · exact congrArg Host.Outcome.next (vec2_unguarded ..)
    · exact congrArg Host.Outcome.next (vec3_unguarded ..)

end Sys2Proof.Machine
end

section
/-! SUPPORT. O1, O2, O4: the shapes of the uniform instructions behind an open guard (R174, R189, R193 to R195). -/

namespace Sys2Proof.Machine

open Sys2Proof

/-! ### Two registers, one register, two predicates -/

section
variable {s : State} {g : Guard}

theorem uni2_open {d a b : UReg} {f : W64 → W64 → W64} {r : W64} (hg : s.me.opens g) (hr : f s.me.s[a] s.me.s[b] = r) :
    (.next (s.uni2 g d a b f) : Out State) = .next (s.ends fun t => t.setS d r (t.sp.getLsbD a.val || t.sp.getLsbD b.val)) := by
  subst hr
  exact congrArg _ (withK_open s g _ hg)

theorem uni1_open {d a : UReg} {f : W64 → W64} {r : W64} (hg : s.me.opens g) (hr : f s.me.s[a] = r) :
    (.next (s.uni1 g d a f) : Out State) = .next (s.ends fun t => t.setS d r (t.sp.getLsbD a.val)) := by
  subst hr
  exact congrArg _ (withK_open s g _ hg)

theorem cmp2_open {d : KReg} {a b : UReg} {f : W64 → W64 → Bool} {r : Bool} (hg : s.me.opens g) (hr : f s.me.s[a] s.me.s[b] = r) :
    (.next (s.cmp2 g d a b f) : Out State) = .next (s.ends fun t => t.setK d r (t.sp.getLsbD a.val || t.sp.getLsbD b.val)) := by
  subst hr
  exact congrArg _ (withK_open s g _ hg)

theorem kop2_open {d a b : KReg} {f : Bool → Bool → Bool} {r : Bool} (hg : s.me.opens g) (hr : f (s.kval a) (s.kval b) = r) :
    (.next (s.kop2 g d a b f) : Out State) = .next (s.ends fun t => t.setK d r (s.kpoison a || s.kpoison b)) := by
  subst hr
  exact congrArg _ (withK_open s g _ hg)

end

/-! ### The K operand (R174) -/

/-- One access that passes the checks of R229 raises nothing. -/
theorem accCheck_clear {s : State} {write : Bool} {z lane : Nat} {va : W64} (h : s.clears write va.toNat z) :
    s.accCheck write z [⟨lane, va⟩] = none := by
  obtain ⟨haddr, halign, hlock⟩ := h
  have haddr' : (addrCheck s.mode s.me.super write va.toNat z != .ok) = false := by simp [haddr]
  have halign' : (va.toNat % z != 0) = false := by simp [halign]
  have hlock' : (s.lockHit s.me.loc.core.cluster s.me.asid (if write then .store else .load) va.toNat z).isSome = false := by
    rw [hlock]; rfl
  simp only [State.accCheck, List.find?_cons, List.find?_nil, haddr', halign', hlock']

/-- A check that only words of the constant window have, and that raises nothing for the one in question. -/
theorem kopCheck_none {α : Type} {k : KOp} {check : Byte → Option α} (h : ∀ c, k = .cw c → check c = none) :
    (match k with | .cw n => check n | .imm _ => none) = none := by
  cases k with
  | imm v => rfl
  | cw c => exact h c rfl

/-- A K operand that can be taken is handed on (R111, R174). -/
theorem withKop_takes {s : State} {k : KOp} {n : W32} {p : Bool} (h : s.takes k n p) (f : W32 → Bool → State) :
    s.withKop k f = f n p := by
  obtain ⟨hkop, hclear⟩ := h
  have hcheck := kopCheck_none (check := fun c => s.accCheck false 4 [⟨0, BitVec.ofNat 64 (s.cwAddr c)⟩])
    fun c hc => accCheck_clear (hclear c hc)
  unfold State.withKop
  rw [hkop]
  split
  next hsome => cases hcheck.symm.trans hsome
  next => rfl

theorem uniK_open {s : State} {g : Guard} {d a : UReg} {k : KOp} {n : W32} {p : Bool} {f : W64 → W64 → W64} (hg : s.me.opens g)
    (hk : s.takes k n p) :
    (.next (s.uniK g d a k f) : Out State) =
      .next (s.ends fun t => t.setS d (f s.me.s[a] (n.signExtend 64)) (t.sp.getLsbD a.val || p)) :=
  congrArg _ ((withK_open s g _ hg).trans (withKop_takes hk _))

/-- A word of the constant window in a calm state: what local store holds there (R174). -/
theorem cwWord_calm {s : State} {c : Byte} (hs : s.Calm) :
    s.cwWord c = some (BitVec.ofNat 32 (s.num (s.cwAddr c) 4), s.bad (s.cwAddr c) 4) := by
  obtain ⟨hfifo, hwrs, -⟩ := hs
  simp only [State.cwWord, forward_calm _ _ _ _ _ hfifo hwrs, Soc.marked, State.num, State.bad, List.any_map, Function.id_comp]

end Sys2Proof.Machine
end

section
/-! SUPPORT. O1: the 64-bit operations of majors 0 and 1 (R193). -/

namespace Sys2Proof.Machine

open Sys2Proof

theorem mulHigh_natCast (m n : Nat) : mulHigh m n = BitVec.ofNat 64 (m * n / 2 ^ 64) := by
  unfold mulHigh
  rw [← BitVec.ofInt_natCast]
  push_cast
  rfl

theorem smin64_eq (x y : W64) : smin64 x y = BitVec.ofInt 64 (min x.toInt y.toInt) := by
  unfold smin64
  split
  · rw [min_eq_left (by omega), BitVec.ofInt_toInt]
  · rw [min_eq_right (by omega), BitVec.ofInt_toInt]

theorem smax64_eq (x y : W64) : smax64 x y = BitVec.ofInt 64 (max x.toInt y.toInt) := by
  unfold smax64
  split
  · rw [max_eq_left (by omega), BitVec.ofInt_toInt]
  · rw [max_eq_right (by omega), BitVec.ofInt_toInt]

/-- Settles O1: each form is its operation behind the open guard, on registers or on the K operand. -/
theorem uniformArithmeticResult : Obligations.UniformArithmeticResult := by
  refine ⟨?_, ?_, ?_⟩
  · intro s g d a b hg x y
    have h {f : W64 → W64 → W64} {r : W64} (hr : f x y = r) := uni2_open (d := d) hg hr
    simp only [List.forall_mem_cons]
    exact ⟨h rfl, h rfl, h rfl, h rfl, h (mulHigh_natCast _ _), h rfl, h rfl, h rfl, h rfl, h rfl, h rfl, h rfl, h rfl, h rfl,
      h (smin64_eq x y), h (smax64_eq x y), List.forall_mem_nil _⟩
  · intro s g d a k n p hg hk x v
    have h {f : W64 → W64 → W64} := uniK_open (d := d) (a := a) (f := f) hg hk
    simp only [List.forall_mem_cons]
    exact ⟨⟨h, h, h, List.forall_mem_nil _⟩, congrArg _ ((withK_open s g _ hg).trans (withKop_takes hk _))⟩
  · intro s n c
    refine ⟨⟨rfl, fun c h => nomatch h⟩, fun hs hclear => ⟨cwWord_calm hs, ?_⟩⟩
    rintro c' ⟨⟩
    exact hclear

end Sys2Proof.Machine
end

section
/-! SUPPORT. O2: the counts and the reversal of major 2 by their bits, and its unassigned SUB codes (R187, R194). -/

namespace Sys2Proof.Machine

open Sys2Proof

theorem bitOf_eq_testBit (x i : Nat) : bitOf x i = x.testBit i := by
  rw [Nat.testBit_eq_decide_div_mod_eq]
  rfl

theorem sabs64_eq (x : W64) : sabs64 x = BitVec.ofInt 64 x.toInt.natAbs := by
  unfold sabs64
  split
  · rw [Int.ofNat_natAbs_of_nonpos (by omega), BitVec.ofInt_neg, BitVec.ofInt_toInt]
  · rw [Int.natAbs_of_nonneg (by omega), BitVec.ofInt_toInt]

/-- The count of leading zeros: the bits that it passes are clear, and it stops at a set bit. -/
theorem clz_spec (n x : Nat) : clz n x ≤ n ∧ (∀ i < clz n x, x.testBit (n - 1 - i) = false) ∧
    (clz n x < n → x.testBit (n - 1 - clz n x) = true) := by
  induction n with
  | zero => simp [clz]
  | succ n ih =>
    obtain ⟨hle, hzeros, hone⟩ := ih
    rw [clz, bitOf_eq_testBit]
    split
    case isTrue htop => simpa using htop
    case isFalse htop =>
      refine ⟨by omega, fun i hi => ?_, fun hlt => ?_⟩
      · cases i with
        | zero => simpa using htop
        | succ i => simpa [Nat.sub_sub, Nat.add_comm] using hzeros i (by omega)
      · simpa [Nat.sub_sub] using hone (by omega)

/-- The number of set bits, counted from the lowest. -/
theorem popcount_eq (n x : Nat) : popcount n x = ((List.range n).filter x.testBit).length := by
  induction n generalizing x with
  | zero => rfl
  | succ n ih =>
    have htail : ((List.range n).map Nat.succ).filter x.testBit = ((List.range n).filter (x / 2).testBit).map Nat.succ := by
      rw [List.filter_map]
      congr 2
      funext i
      exact Nat.testBit_succ x i
    rw [popcount, ih, List.range_succ_eq_map, List.filter_cons, htail]
    obtain h | h := Nat.mod_two_eq_zero_or_one x <;> simp [Nat.testBit_zero, h, Nat.add_comm]

/-- Bit i of the reversal is bit n - 1 - i. -/
theorem brev_spec (n x : Nat) : brev n x < 2 ^ n ∧ ∀ i < n, (brev n x).testBit i = x.testBit (n - 1 - i) := by
  induction n generalizing x with
  | zero => simp [brev]
  | succ n ih =>
    obtain ⟨hlt, hbits⟩ := ih (x / 2)
    have hbit : x % 2 < 2 := Nat.mod_lt _ (by omega)
    refine ⟨?_, fun i hi => ?_⟩
    · rw [brev, Nat.pow_succ]
      nlinarith
    · rw [brev, Nat.mul_comm, Nat.testBit_two_pow_mul_add _ hlt]
      split
      case isTrue h =>
        rw [hbits i h, Nat.testBit_div_two]
        congr 1
        omega
      case isFalse h =>
        obtain rfl : i = n := by omega
        simp [Nat.testBit_zero]

/-! ### Unassigned SUB codes (R187) -/

theorem form_unary_none : ∀ sub : Fin 64, 9 ≤ sub.val → form 2 sub.val = none := by decide

/-- A word whose minor code is unassigned decodes to ILLEGAL, reason 3. -/
theorem checkWord_unassigned {e : DecEnv} {f : Flds} {maj len : Nat} {r : List Half} (hmaj : f.maj = maj) (hlt : maj < 16)
    (hform : form maj f.minor = none) : checkWord e f len r = illegalRes 3 f.w len := by
  have hJ : isJ maj = false := by simp [isJ]; omega
  have hcore : (e.gateway && (maj == 20 || maj == 23) || !e.gateway && maj == 26) = false := by
    simp [show maj ≠ 20 by omega, show maj ≠ 23 by omega, show maj ≠ 26 by omega]
  simp only [checkWord, hmaj, hcore, hJ, hform, Bool.false_eq_true, if_false, if_neg (show ¬maj = 28 by omega),
    if_neg (show ¬maj = 29 by omega)]

theorem decode_unary_unassigned {e : DecEnv} (sub d a : Fin 64) (g : Fin 8) (hsub : 9 ≤ sub.val) :
    decode e (halves (wordR 2 0 sub.val a.val d.val g.val)) =
      .ok (.illegalEncoding 3 (BitVec.ofNat 32 (wordR 2 0 sub.val a.val d.val g.val))) 4 none := by
  have hw : wordR 2 0 sub.val a.val d.val g.val < 2 ^ 32 := by unfold wordR; omega
  have hodd : wordR 2 0 sub.val a.val d.val g.val % 2 = 1 := by unfold wordR; omega
  have hmaj : wordR 2 0 sub.val a.val d.val g.val / 2 % 32 = 2 := by unfold wordR; omega
  have hB : wordR 2 0 sub.val a.val d.val g.val / 4194304 % 64 = sub.val := by unfold wordR; omega
  generalize wordR 2 0 sub.val a.val d.val g.val = w at *
  have hminor : Flds.minor ⟨w, none, none⟩ = sub.val := by simpa [Flds.minor, Flds.maj, hmaj, isX, Flds.bN] using hB
  have hword : ∀ r, decodeMain e none none w 4 r = illegalRes 3 w 4 := fun r =>
    checkWord_unassigned (f := ⟨w, none, none⟩) hmaj (by omega) (by rw [hminor]; exact form_unary_none sub hsub)
  exact (whole_last (first := none) (fuel := 3) hw hodd (by omega) hword).1 []

/-- Settles O2: each form is its operation behind the open guard, and the bits of that operation are the lemmas above. -/
theorem uniformUnaryResult : Obligations.UniformUnaryResult := by
  refine ⟨?_, fun sub d a g hsub => decode_unary_unassigned sub d a g hsub⟩
  intro s g d a hg x fin_
  have h {f : W64 → W64} {r : W64} (hr : f x = r) := uni1_open (d := d) hg hr
  obtain ⟨-, hbrev⟩ := brev_spec 64 x.toNat
  obtain ⟨hle, hzeros, hone⟩ := clz_spec 64 x.toNat
  refine ⟨?_, ⟨_, h rfl, fun i hi => ?_⟩, ⟨_, h rfl, hle, hzeros, hone⟩, h (congrArg _ (popcount_eq 64 x.toNat))⟩
  · simp only [List.forall_mem_cons]
    exact ⟨h rfl, h rfl, h (BitVec.zero_sub x).symm, h (sabs64_eq x), h (by simp [BitVec.setWidth_eq_extractLsb']), h rfl, List.forall_mem_nil _⟩
  · rw [BitVec.getLsbD_ofNat, hbrev i hi, decide_eq_true hi]
    rfl

end Sys2Proof.Machine
end

section
/-! SUPPORT. O4, O9, O10: words put together lane by lane, and the lane forms behind a clean guard (R202, R208, R226). -/

namespace Sys2Proof.Machine

open Sys2Proof

/-- A number put together bit by bit has these bits. -/
theorem testBit_foldl_b2n (n : Nat) (f : Fin n → Bool) :
    (List.finRange n).foldl (fun a l => a + b2n (f l) l.val) 0 < 2 ^ n ∧
      ∀ l : Fin n, ((List.finRange n).foldl (fun a l => a + b2n (f l) l.val) 0).testBit l.val = f l := by
  induction n with
  | zero => exact ⟨by simp, fun l => l.elim0⟩
  | succ n ih =>
    obtain ⟨hlt, hbits⟩ := ih (fun l => f l.castSucc)
    have htop : b2n (f (Fin.last n)) n = 2 ^ n * (f (Fin.last n)).toNat := by cases f (Fin.last n) <;> simp [b2n]
    have hone : (f (Fin.last n)).toNat ≤ 1 := Bool.toNat_le _
    simp only [List.finRange_succ_last, List.foldl_append, List.foldl_map, List.foldl_cons, List.foldl_nil, Fin.val_castSucc,
      Fin.val_last, htop, Nat.add_comm _ (2 ^ n * _)]
    refine ⟨by rw [Nat.pow_succ]; nlinarith, fun l => ?_⟩
    rw [Nat.testBit_two_pow_mul_add _ hlt]
    cases l using Fin.lastCases with
    | last => cases f (Fin.last n) <;> simp
    | cast l => simpa using hbits l

theorem getLsbD_laneBits (f : Fin 32 → Bool) (l : Fin 32) : (laneBits f).getLsbD l.val = f l := by
  rw [laneBits, BitVec.getLsbD_ofNat, (testBit_foldl_b2n 32 f).2 l, decide_eq_true l.isLt, Bool.true_and]

section
variable {s : State} {g : Guard}

theorem vcmp_clean {d : PReg} {a : VReg} {b : VSrc} {f r : W32 → W32 → Bool} (hg : s.me.clean g) (hr : ∀ x y, f x y = r x y) :
    ∃ w : W32, (.next (s.vcmp g d a b f) : Out State) = .next (s.ends fun t => t.setP d (t.active g) w (t.vp[a] ||| t.bpoison b)) ∧
      ∀ l : Fin 32, w.getLsbD l.val = r s.me.v[a][l] (s.me.bval b l) :=
  ⟨_, congrArg _ (withP_clean s g _ hg), fun l => (getLsbD_laneBits _ l).trans (hr _ _)⟩

theorem pop2_clean {d a b : PReg} {f : W32 → W32 → W32} (hg : s.me.clean g) :
    (.next (s.pop2 g d a b f) : Out State) =
      .next (s.ends fun t => t.setP d (t.active g) (f (s.me.pval a) (s.me.pval b)) (t.ppoison a ||| t.ppoison b)) :=
  congrArg _ (withP_clean s g _ hg)

end

/-- Settles O4: a compare is its relation behind the guard, for registers and lane by lane; predicate logic likewise. -/
theorem compareResult : Obligations.CompareResult := by
  refine ⟨?_, ?_⟩
  · intro s g d a b ka kb hg x y u w
    have hcmp {f : W64 → W64 → Bool} {r : Bool} (hr : f x y = r) := cmp2_open (d := d) hg hr
    have hop {f : Bool → Bool → Bool} {r : Bool} (hr : f u w = r) := kop2_open (d := d) hg hr
    simp only [List.forall_mem_cons]
    exact ⟨⟨hcmp rfl, hcmp decide_not.symm, hcmp rfl, hcmp rfl, hcmp rfl, hcmp rfl, List.forall_mem_nil _⟩,
      hop rfl, hop rfl, hop rfl, hop rfl, List.forall_mem_nil _⟩
  · intro s g d pa pb a b hg v
    have hcmp {f r : W32 → W32 → Bool} (hr : ∀ x y, f x y = r x y) := vcmp_clean (d := d) (a := a) (b := b) hg hr
    have hop {f : W32 → W32 → W32} := pop2_clean (d := d) (a := pa) (b := pb) (f := f) hg
    have hsame {f : W32 → W32 → Bool} (x y) : f x y = f x y := rfl
    simp only [List.forall_mem_cons]
    exact ⟨⟨hcmp hsame, hcmp fun _ _ => decide_not.symm, hcmp hsame, hcmp hsame, hcmp hsame, hcmp hsame, hcmp hsame, hcmp hsame,
      hcmp hsame, hcmp hsame, List.forall_mem_nil _⟩, hop, hop, hop, hop, List.forall_mem_nil _⟩

end Sys2Proof.Machine
end

section
/-! SUPPORT. O9: moves between the files, shuffles and the execution mask (R202, R203, R205). -/

namespace Sys2Proof.Machine

open Sys2Proof

section
variable {s : State}

/-- XSET of a predicate that is clean in the lanes of X. -/
theorem exec_xset_clean {p : PReg} (h : s.me.ppoison p &&& s.me.x = 0) :
    exec (.xset p) s = .next (s.ends fun t => { t with x := t.x &&& t.pval p }) :=
  congrArg _ (if_neg (not_not.mpr h))

/-- XREST of a clean register. -/
theorem exec_xrest_clean {a : UReg} (h : s.me.sp.getLsbD a.val = false) :
    exec (.xrest a) s = .next (s.ends fun t => { t with x := t.s[a].setWidth 32 }) :=
  congrArg _ (if_neg (by rw [TG.spoison, h]; exact Bool.false_ne_true))

/-- VSHFL: the source lane's value, and its poison joined with the index's. -/
theorem exec_vshfl_clean {g : Guard} {d a : VReg} {b : VSrc} (hg : s.me.clean g) :
    ∃ p : W32, exec (.vshfl g d a b) s = .next (s.ends fun t => t.setV d (t.active g) (fun l => t.v[a][s.me.shflIndex b l]) p) ∧
      ∀ l : Fin 32, p.getLsbD l.val = (s.me.vp[a].getLsbD (s.me.shflIndex b l).val || (s.me.bpoison b).getLsbD l.val) := by
  refine ⟨_, congrArg _ (withP_clean s g _ hg), fun l => ?_⟩
  rw [BitVec.getLsbD_or, getLsbD_laneBits]
  rfl

end

/-- Settles O9: a form with a guard runs behind it; the others run as they are, XSET and XREST once their source is clean. -/
theorem crossFileMoveResult : Obligations.CrossFileMoveResult := by
  intro s g d a ud ua ub pd pa b hg L all from_
  exact ⟨congrArg _ (withP_clean s g _ hg), congrArg _ (withP_clean s g _ hg), rfl, rfl, by cases b <;> exact exec_vshfl_clean hg,
    exec_xset_clean, rfl, exec_xrest_clean⟩

end Sys2Proof.Machine
end

section
/-! SUPPORT. O10: what the active lanes give to uniform state (R145, R204), and the FX128 accumulators (R144, R206). -/

namespace Sys2Proof.Machine

open Sys2Proof

/-! ### The active lanes (R204) -/

section
variable {t : TG} {g : Guard}

theorem mem_lanes {l : Fin 32} : l ∈ t.lanes g ↔ (t.active g).getLsbD l.val = true := by
  rw [TG.lanes, List.mem_filter]
  exact and_iff_right (List.mem_finRange l)

/-- The active mask and a word meet in some active lane, or in no bit. -/
theorem any_lanes (w : W32) : ((t.lanes g).any fun l => w.getLsbD l.val) = (t.active g &&& w != 0) := by
  rw [Bool.eq_iff_iff, List.any_eq_true, bne_iff_ne]
  constructor
  · rintro ⟨l, hl, hw⟩ hzero
    have hbit : (t.active g &&& w).getLsbD l.val = true := by rw [BitVec.getLsbD_and, mem_lanes.mp hl, hw]; rfl
    simp [hzero] at hbit
  · intro hne
    by_contra hnone
    refine hne (BitVec.eq_of_getLsbD_eq fun i hi => ?_)
    rw [show (0 : W32).getLsbD i = false from BitVec.getLsbD_zero, Bool.eq_false_iff]
    intro hbit
    obtain ⟨hactive, hw⟩ : (t.active g).getLsbD i = true ∧ w.getLsbD i = true := by simpa using hbit
    exact hnone ⟨⟨i, hi⟩, mem_lanes.mpr hactive, hw⟩

theorem all_lanes (w : W32) : ((t.lanes g).all fun l => w.getLsbD l.val) = (t.active g &&& ~~~w == 0) := by
  have hany := any_lanes (t := t) (g := g) (~~~w)
  simp only [BitVec.getLsbD_not, Fin.is_lt, decide_true, Bool.true_and] at hany
  rw [List.all_eq_not_any_not, hany, bne, Bool.not_not]

end

/-! ### FX128 accumulators (R144, R206) -/

/-- NaN and infinity are the codes whose exponent field is all ones (R118). -/
theorem f32NonFinite_eq (w : W32) : f32NonFinite w.toNat = (w.extractLsb' 23 8 == 0xFF#8) := by
  have hfield : (w.extractLsb' 23 8 == 0xFF#8) = decide (fieldOf w.toNat 23 8 = 2 ^ 8 - 1) := by
    rw [Bool.eq_iff_iff, beq_iff_eq, decide_eq_true_iff, ← BitVec.toNat_inj, BitVec.extractLsb'_toNat, Nat.shiftRight_eq_div_pow]
    rfl
  have hvalue : FFmt.fp32.value w.toNat = (if fieldOf w.toNat 23 8 = 2 ^ 8 - 1 then
      (if fieldOf w.toNat 0 23 = 0 then .inf (bitOf w.toNat 31) else .nan (bitOf w.toNat 31))
      else if fieldOf w.toNat 23 8 = 0 then .fin (bitOf w.toNat 31) (fieldOf w.toNat 0 23) FFmt.fp32.umin
      else .fin (bitOf w.toNat 31) (2 ^ 23 + fieldOf w.toNat 0 23) (FFmt.fp32.umin + fieldOf w.toNat 23 8 - 1)) := rfl
  rw [hfield, f32NonFinite, hvalue]
  by_cases hexp : fieldOf w.toNat 23 8 = 2 ^ 8 - 1
  · rw [if_pos hexp, decide_eq_true hexp]
    split <;> rfl
  · rw [if_neg hexp, decide_eq_false hexp]
    split <;> rfl

theorem toNat_append_eq {m n : Nat} (x : BitVec m) (y : BitVec n) : (x ++ y).toNat = 2 ^ n * x.toNat + y.toNat := by
  rw [BitVec.toNat_append, ← Nat.shiftLeft_add_eq_or_of_lt y.isLt, Nat.shiftLeft_eq, Nat.mul_comm]

/-- Four words side by side are the number with these digits of base 2^32, the lowest first. -/
theorem append_eq_ofNat (w0 w1 w2 w3 : W32) : (w3 ++ w2 ++ w1 ++ w0 : W128) =
    BitVec.ofNat 128 (0 + w0.toNat * 2 ^ (32 * 0) + w1.toNat * 2 ^ (32 * 1) + w2.toNat * 2 ^ (32 * 2) + w3.toNat * 2 ^ (32 * 3)) := by
  apply BitVec.eq_of_toNat_eq
  rw [toNat_append_eq, toNat_append_eq, toNat_append_eq, BitVec.toNat_ofNat]
  omega

theorem foldl_range_four {α : Type} (f : α → Nat → α) (a : α) : (List.range 4).foldl f a = f (f (f (f a 0) 1) 2) 3 := rfl

/-- The integer of a lane is its four registers side by side (R144). -/
theorem fxLane_eq (t : TG) (d : VReg) (l : Fin 32) :
    t.fxLane d l = t.v[VReg.plus d 3][l] ++ t.v[VReg.plus d 2][l] ++ t.v[VReg.plus d 1][l] ++ t.v[VReg.plus d 0][l] := by
  unfold TG.fxLane TG.vget
  rw [foldl_range_four, append_eq_ofNat]

/-- Writes of vector registers one after another change the thread group alone. -/
theorem foldl_setV_ends (r : Nat → VReg) (act : W32) (val : Nat → Fin 32 → W32) (p : W32) (l : List Nat) (s : State) :
    (l.foldl (fun s k => s.setV (r k) act (val k) p) s).advance = s.ends fun t => l.foldl (fun t k => t.setV (r k) act (val k) p) t := by
  induction l generalizing s with
  | nil => rfl
  | cons k l ih => exact ih _

/-- Only what becomes of the present thread group matters. -/
theorem ends_congr {s : State} {f f' : TG → TG} (h : f s.me = f' s.me) : s.ends f = s.ends f' := by
  rw [State.ends, State.ends, h]

section
variable {s : State} {g : Guard} {d a : VReg}

/-- VXACC of a non-finite addend. -/
theorem exec_vxacc_nonFinite (hg : s.me.clean g)
    (h : ((s.me.lanes g).any fun l => s.me.v[a][l].extractLsb' 23 8 == 0xFF#8) = true) :
    exec (.vxacc g d a) s = .next (s.trap cFORMAT 0 0) := by
  have h' : ((s.me.lanes g).any fun l => f32NonFinite ((s.me.vget a)[l]).toNat) = true := by
    simp only [f32NonFinite_eq]
    exact h
  rw [exec_vxacc, execVxacc, withP_clean s g _ hg, if_pos h']

/-- VXACC of finite addends: the four registers of each active lane's accumulator take its sum, the lowest first. -/
theorem exec_vxacc_finite (hg : s.me.clean g)
    (h : ¬ ((s.me.lanes g).any fun l => s.me.v[a][l].extractLsb' 23 8 == 0xFF#8) = true) :
    exec (.vxacc g d a) s = .next (s.ends fun t => (List.range 4).foldl (fun (t' : TG) k => t'.setV (VReg.plus d k) (t.active g)
      (fun l => (fxAddF32 (t.fxLane d l) t.v[a][l].toNat).extractLsb' (32 * k) 32)
      (t.vp[a] ||| t.vp[VReg.plus d 0] ||| t.vp[VReg.plus d 1] ||| t.vp[VReg.plus d 2] ||| t.vp[VReg.plus d 3])) t) := by
  have h' : ¬ ((s.me.lanes g).any fun l => f32NonFinite ((s.me.vget a)[l]).toNat) = true := by
    simp only [f32NonFinite_eq]
    exact h
  rw [exec_vxacc, execVxacc, withP_clean s g _ hg, if_neg h']
  simp only [BitVec.setWidth_ushiftRight_eq_extractLsb, foldl_setV_ends (VReg.plus d)]
  exact congrArg _ (ends_congr rfl)

end

/-- Settles O10: behind the guard each form is a function of the active lanes, and VXACC is `exec_vxacc_nonFinite` or
`exec_vxacc_finite`. -/
theorem laneReductionAndAccumulateResult : Obligations.LaneReductionAndAccumulateResult := by
  refine ⟨?_, ?_⟩
  · intro s g d k a p hg act lanes pois codes
    have h (f : State → State) : (.next (s.withP g f) : Out State) = .next (f s) := congrArg _ (withP_clean s g f hg)
    have hlanes : lanes = s.me.lanes g := rfl
    refine ⟨(h _).trans (congrArg _ ?_), h _, (h _).trans ?_, (h _).trans ?_, (h _).trans ?_, h _, h _⟩
    · rw [hlanes]
      cases s.me.lanes g <;> rfl
    · rw [hlanes, ← any_lanes]
      rfl
    · rw [hlanes, ← all_lanes]
      rfl
    · simp only [hlanes, List.sum_eq_foldl, List.foldl_map]
      rfl
  · intro s g d a hg _ lanes r old sum p put
    split
    next h => exact exec_vxacc_nonFinite hg h
    next h =>
      rw [exec_vxacc_finite hg h]
      refine congrArg _ (ends_congr ?_)
      simp only [foldl_range_four, fxLane_eq]
      rfl

end Sys2Proof.Machine
end

section
/-! SUPPORT. O16: transfers of control (R196 to R199). -/

namespace Sys2Proof.Machine

open Sys2Proof

section
variable {s : State}

/-! ### Branches and calls (R196) -/

/-- A condition that equals CN holds the transfer back. -/
theorem branch_held {c : KReg} {cn : Bool} (o : BitVec 20) (setLink : Bool) (hclean : s.kpoison c = false) (hcond : s.kval c = cn) :
    s.branch c cn o setLink = s.advance := by
  simp only [State.branch, hclean, hcond, Bool.false_eq_true, if_false, beq_self_eq_true, if_true]

/-- The other conditions take the branch, to a target below 2^57. -/
theorem branch_taken {c : KReg} {cn : Bool} {o : BitVec 20} (setLink : Bool) (hclean : s.kpoison c = false) (hcond : s.kval c ≠ cn)
    (htarget : (s.jTarget o).toNat < 2 ^ 57) :
    s.branch c cn o setLink = (if setLink then s.setS link s.me.npc false else s).jump (s.jTarget o) := by
  have hfits : ¬ (s.jTarget o).toNat / 2 ^ 57 ≠ 0 := by omega
  have hne : (s.kval c == cn) = false := beq_eq_false_iff_ne.mpr hcond
  simp only [State.branch, hclean, hne, hfits, Bool.false_eq_true, if_false]

/-! ### Register targets (R198) -/

theorem targetTrap_good {t : W64} (heven : t.toNat % 2 = 0) (hfits : t.toNat < 2 ^ 57) : targetTrap t = none := by
  rw [targetTrap, if_neg (by omega), if_neg (by omega)]

/-- A clean register with a good target. -/
theorem transfer_good {a : UReg} (setLink : Bool) (hclean : s.me.sp.getLsbD a.val = false) (heven : s.me.s[a].toNat % 2 = 0)
    (hfits : s.me.s[a].toNat < 2 ^ 57) :
    s.transfer a setLink = (if setLink then s.setS link s.me.npc false else s).jump s.me.s[a] := by
  have hclean' : s.me.spoison a = false := hclean
  have htarget : targetTrap (s.me.sget a) = none := targetTrap_good heven hfits
  simp only [State.transfer, hclean', htarget, Bool.false_eq_true, if_false]
  rfl

/-! ### WAITK (R199) -/

/-- A parking wait whose condition is met, in a thread group that no kill or settle has woken. -/
theorem waitFor_met (kind : Nat) (obj : W64) (done : State → State) (hwake : s.me.wake = none) : s.waitFor kind obj true done = done s := by
  rw [State.waitFor, if_neg (by rw [hwake]; exact nofun), if_pos rfl]

theorem exec_waitk_true {g : Guard} {k : KReg} (hg : s.me.opens g) (hmode : s.me.super = true ∨ (k.val ≠ 13 ∧ k.val ≠ 15))
    (hwake : s.me.wake = none) (hcond : s.kval k = true) : exec (.waitk g k) s = .next (s.ends id) := by
  have hpriv : (!s.me.super && (k.val == 13 || k.val == 15)) = false := by
    obtain hsuper | ⟨h13, h15⟩ := hmode
    · simp [hsuper]
    · simp [h13, h15]
  rw [exec_waitk, execWaitk, hpriv, if_neg Bool.false_ne_true, withK_open s g _ hg, hcond, waitFor_met _ _ _ hwake]
  rfl

end

/-- Settles O16: BR and CALL are `State.branch`, register targets `State.transfer`, both behind the checks that pass. -/
theorem controlTransferResult : Obligations.ControlTransferResult := by
  intro s g a c k cn o hg go lk t r ret
  have h (f : State → State) : (.next (s.withK g f) : Out State) = .next (f s) := congrArg _ (withK_open s g f hg)
  refine ⟨fun hclean hcond => ?_, fun hclean hcond htarget => ?_, fun hclean heven hfits => ?_, fun hclean heven hfits => ?_, h _, rfl,
    exec_waitk_true hg⟩
  · simp only [List.forall_mem_cons]
    exact ⟨congrArg _ (branch_held o false hclean hcond), congrArg _ (branch_held o true hclean hcond), List.forall_mem_nil _⟩
  · exact ⟨congrArg _ (branch_taken false hclean hcond htarget), congrArg _ (branch_taken true hclean hcond htarget)⟩
  · exact ⟨(h _).trans (congrArg _ (transfer_good false hclean heven hfits)),
      (h _).trans (congrArg _ (transfer_good true hclean heven hfits))⟩
  · have hret := transfer_good (a := link) false hclean heven hfits
    exact ⟨(h _).trans (congrArg _ hret), congrArg _ hret⟩

end Sys2Proof.Machine
end

section
/-! SUPPORT. O5 to O8: the shapes of the lane forms behind a clean guard (R208, R209), and fields of words. -/

namespace Sys2Proof.Machine

open Sys2Proof

/-! ### Two sources, three sources, one source, a K operand -/

section
variable {s : State} {g : Guard} {d a : VReg}

theorem vec2_clean {b : VSrc} {f r : W32 → W32 → W32} (hg : s.me.clean g) (hr : ∀ x y, f x y = r x y) :
    (.next (s.vec2 g d a b f) : Out State) =
      .next (s.ends fun t => t.setV d (t.active g) (fun l => r t.v[a][l] (t.bval b l)) (t.vp[a] ||| t.bpoison b)) := by
  obtain rfl : f = r := funext₂ hr
  exact congrArg _ (withP_clean s g _ hg)

/-- The same, for a result that takes the old destination and does not look at it. -/
theorem vec2_clean_old {b : VSrc} {f : W32 → W32 → W32} {r : W32 → W32 → W32 → W32} (hg : s.me.clean g) (hr : ∀ x y o, f x y = r x y o) :
    (.next (s.vec2 g d a b f) : Out State) =
      .next (s.ends fun t => t.setV d (t.active g) (fun l => r t.v[a][l] (t.bval b l) t.v[d][l]) (t.vp[a] ||| t.bpoison b)) := by
  obtain rfl : (fun x y _ => f x y) = r := funext₃ hr
  exact vec2_clean hg fun _ _ => rfl

theorem vec3_clean {b : VSrc} {f r : W32 → W32 → W32 → W32} (hg : s.me.clean g) (hr : ∀ x y o, f x y o = r x y o) :
    (.next (s.vec3 g d a b f) : Out State) = .next (s.ends fun t => t.setV d (t.active g) (fun l => r t.v[a][l] (t.bval b l) t.v[d][l])
      (t.vp[a] ||| t.bpoison b ||| t.vp[d])) := by
  obtain rfl : f = r := funext₃ hr
  exact congrArg _ (withP_clean s g _ hg)

theorem vec1_clean {f r : W32 → W32} (hg : s.me.clean g) (hr : ∀ x, f x = r x) :
    (.next (s.vec1 g d a f) : Out State) = .next (s.ends fun t => t.setV d (t.active g) (fun l => r t.v[a][l]) t.vp[a]) := by
  obtain rfl : f = r := funext hr
  exact congrArg _ (withP_clean s g _ hg)

theorem vecK_clean {k : KOp} {n : W32} {p : Bool} {f : W32 → W32 → W32} {r : W32 → W32} (hg : s.me.clean g) (hk : s.takes k n p)
    (hr : ∀ x, f x n = r x) :
    (.next (s.vecK g d a k f) : Out State) =
      .next (s.ends fun t => t.setV d (t.active g) (fun l => r t.v[a][l]) (t.vp[a] ||| allLanes p)) := by
  obtain rfl : (fun x => f x n) = r := funext hr
  exact congrArg _ ((withP_clean s g _ hg).trans (withKop_takes hk _))

end

/-! ### Fields of a word -/

theorem fieldOf_toNat {w : Nat} (x : BitVec w) (lo n : Nat) : fieldOf x.toNat lo n = (x.extractLsb' lo n).toNat := by
  rw [BitVec.extractLsb'_toNat, Nat.shiftRight_eq_div_pow]
  rfl

theorem signedOf_toNat {w : Nat} (x : BitVec w) : signedOf w x.toNat = x.toInt := by
  rw [signedOf, Nat.mod_eq_of_lt x.isLt, BitVec.toInt_eq_toNat_cond]

end Sys2Proof.Machine
end

section
/-! SUPPORT. O5: the 32-bit operations of majors 4 and 5 (R213). -/

namespace Sys2Proof.Machine

open Sys2Proof

theorem clampInt_eq {lo hi : Int} (h : lo ≤ hi) (x : Int) : clampInt lo hi x = max lo (min x hi) := by
  unfold clampInt
  split
  · omega
  · split <;> omega

theorem satW_eq (sat : Bool) (r : Int) : satW sat r = BitVec.ofInt 32 (if sat then max (-2 ^ 31) (min r (2 ^ 31 - 1)) else r) := by
  rw [satW, clampInt_eq (by decide)]

theorem mulHigh32_natCast (m n : Nat) : mulHigh32 m n = BitVec.ofNat 32 (m * n / 2 ^ 32) := by
  rw [mulHigh32, ← BitVec.ofInt_natCast]
  push_cast
  rfl

section
variable (x y : W32)

theorem ite_slt_eq_min : (if x.slt y then x else y) = BitVec.ofInt 32 (min x.toInt y.toInt) := by
  simp only [min_def_lt, apply_ite (BitVec.ofInt 32), BitVec.ofInt_toInt, BitVec.slt_eq_decide, decide_eq_true_eq]

theorem ite_slt_eq_max : (if y.slt x then x else y) = BitVec.ofInt 32 (max x.toInt y.toInt) := by
  simp only [max_comm x.toInt, max_def_lt, apply_ite (BitVec.ofInt 32), BitVec.ofInt_toInt, BitVec.slt_eq_decide, decide_eq_true_eq]

theorem ite_ult_eq_min : (if x.ult y then x else y) = BitVec.ofNat 32 (min x.toNat y.toNat) := by
  simp only [min_def_lt, apply_ite (BitVec.ofNat 32), BitVec.ofNat_toNat, BitVec.setWidth_eq, BitVec.ult_eq_decide, decide_eq_true_eq]

theorem ite_ult_eq_max : (if y.ult x then x else y) = BitVec.ofNat 32 (max x.toNat y.toNat) := by
  simp only [max_comm x.toNat, max_def_lt, apply_ite (BitVec.ofNat 32), BitVec.ofNat_toNat, BitVec.setWidth_eq, BitVec.ult_eq_decide,
    decide_eq_true_eq]

end

/-- Settles O5: each form is its operation behind the clean guard, on two registers, with the old destination, or on the K operand. -/
theorem laneIntegerResult : Obligations.LaneIntegerResult := by
  refine ⟨?_, ?_⟩
  · intro s g d a b sat hg clamp
    have h {f : W32 → W32 → W32} {r : W32 → W32 → W32 → W32} (hr : ∀ x y o, f x y = r x y o) :=
      vec2_clean_old (d := d) (a := a) (b := b) hg hr
    simp -proj only [List.forall_mem_cons]
    exact ⟨h fun _ _ _ => satW_eq .., h fun _ _ _ => satW_eq .., h fun _ _ _ => rfl, h fun _ _ _ => rfl,
      h fun _ _ _ => mulHigh32_natCast .., h fun _ _ _ => rfl, h fun _ _ _ => rfl, h fun _ _ _ => rfl, h fun _ _ _ => rfl,
      h fun _ _ _ => rfl, h fun _ _ _ => rfl, h fun _ _ _ => ite_slt_eq_min .., h fun _ _ _ => ite_slt_eq_max ..,
      h fun _ _ _ => ite_ult_eq_min .., h fun _ _ _ => ite_ult_eq_max .., List.forall_mem_nil _⟩
  · intro s g d a b k n p sat hg clamp all
    refine ⟨congrArg _ (withP_clean s g _ hg), fun hk => ⟨?_, ?_⟩⟩
    · exact congrArg _ ((withP_clean s g _ hg).trans (withKop_takes hk _))
    · have h {f : W32 → W32 → W32} {r : W32 → W32} (hr : ∀ x, f x n = r x) := vecK_clean (d := d) (a := a) hg hk hr
      simp -proj only [List.forall_mem_cons]
      exact ⟨h fun _ => satW_eq .., h fun _ => rfl, h fun _ => rfl, List.forall_mem_nil _⟩

end Sys2Proof.Machine
end

section
/-! SUPPORT. O6: float operations of lanes and of their 16-bit elements, and conversions (R214 to R221). -/

namespace Sys2Proof.Machine

open Sys2Proof

/-! ### Elements of a lane (R216, R217) -/

theorem half2_eq (f : Nat → Nat → Nat → Nat) (a b d : W32) :
    half2 f a b d = BitVec.ofNat 32 (f (a.extractLsb' 0 16).toNat (b.extractLsb' 0 16).toNat (d.extractLsb' 0 16).toNat +
      65536 * f (a.extractLsb' 16 16).toNat (b.extractLsb' 16 16).toNat (d.extractLsb' 16 16).toNat) := by
  simp only [half2, fieldOf_toNat]

theorem dot4i_eq (a b d : W32) : dot4i a.toNat b.toNat d.toNat =
    (List.range 4).foldl (fun acc k => acc + (a.extractLsb' (8 * k) 8).toInt * (b.extractLsb' (8 * k) 8).toInt) d.toInt := by
  simp only [dot4i, fieldOf_toNat, signedOf_toNat, foldl_range_four]

theorem unpackHalf_eq (m : FFmt) (k : Nat) (a : W32) :
    unpackHalf m k a = BitVec.ofNat 32 (FFmt.fp32.code .rne false (m.value (a.extractLsb' (16 * k) 16).toNat)) := by
  simp only [unpackHalf, on1, fieldOf_toNat]

/-! ### The sign (R218) -/

theorem on1_fabs (x : W32) : on1 fabs x = if (FFmt.fp32.value x.toNat).isNan then 0x7FC00000#32 else x &&& 0x7FFFFFFF#32 := by
  unfold on1 fabs
  split
  case isTrue => rfl
  case isFalse =>
    refine BitVec.eq_of_toNat_eq ?_
    rw [BitVec.toNat_ofNat, Nat.mod_eq_of_lt (by omega), BitVec.toNat_and]
    exact (Nat.and_two_pow_sub_one_eq_mod _ 31).symm

/-- Adding the top bit turns it. -/
theorem add_twoPow_last {n : Nat} (x : BitVec (n + 1)) : x + BitVec.twoPow (n + 1) n = x ^^^ BitVec.twoPow (n + 1) n := by
  refine BitVec.eq_of_getLsbD_eq fun i hi => ?_
  have hsum : (x + BitVec.twoPow (n + 1) n).getLsbD i = (2 ^ n + x.toNat).testBit i := by
    rw [BitVec.getLsbD, BitVec.toNat_add, BitVec.toNat_twoPow_of_lt n.lt_succ_self, Nat.testBit_mod_two_pow, decide_eq_true hi,
      Bool.true_and, Nat.add_comm]
  rw [hsum, BitVec.getLsbD_xor, BitVec.getLsbD_twoPow, decide_eq_true n.lt_succ_self, Bool.true_and]
  obtain hlt | rfl := Nat.lt_or_eq_of_le (Nat.le_of_lt_succ hi)
  · rw [Nat.testBit_two_pow_add_gt hlt, decide_eq_false hlt.ne', Bool.xor_false, BitVec.getLsbD]
  · rw [Nat.testBit_two_pow_add_eq, decide_eq_true rfl, Bool.xor_true, BitVec.getLsbD]

theorem on1_fneg (x : W32) : on1 fneg x = if (FFmt.fp32.value x.toNat).isNan then 0x7FC00000#32 else x ^^^ 0x80000000#32 := by
  unfold on1 fneg
  split
  case isTrue => rfl
  case isFalse =>
    rw [show x ^^^ 0x80000000#32 = x + 0x80000000#32 from (add_twoPow_last (n := 31) x).symm]
    refine BitVec.eq_of_toNat_eq ?_
    rw [BitVec.toNat_ofNat, Nat.mod_mod, BitVec.toNat_add]
    rfl

/-! ### Conversions (R221) -/

/-- A narrowing that overflows gives infinity unless SAT is set, whatever the mode (R118). -/
theorem narrow_eq (m : FFmt) (r : Rnd) (sat : Bool) (v : Fv) :
    m.narrow r sat v = if m.overflows r v = true ∧ sat = false then (if v.sign then m.signBit else 0) + m.infCode else m.code r sat v := by
  simp only [FFmt.narrow, Bool.and_eq_true, Bool.not_eq_true']
  rfl

/-- VCVTHF and VCVTBF: both registers take their element of the source as it was before either is written (R208). -/
theorem unpackPair_clean {s : State} {g : Guard} {d a : VReg} {m : FFmt} {r : Nat → W32 → W32} (hg : s.me.clean g)
    (hr : ∀ k x, unpackHalf m k x = r k x) :
    (.next (s.unpackPair g d a m) : Out State) = .next (s.ends fun t =>
      (t.setV d (t.active g) (fun l => r 0 t.v[a][l]) t.vp[a]).setV (d + 1) (t.active g) (fun l => r 1 t.v[a][l]) t.vp[a]) := by
  obtain rfl : unpackHalf m = r := funext₂ hr
  exact congrArg _ (withP_clean s g _ hg)

/-- Settles O6: each form is its operation on codes behind the clean guard, for the whole lane or element by element. -/
theorem laneFloatResult : Obligations.LaneFloatResult := by
  refine ⟨⟨?_, ?_⟩, ?_⟩
  · intro s g d a b r hg add sub mul div f32 lo hi f16
    have h {f r : W32 → W32 → W32} (hr : ∀ x y, f x y = r x y) := vec2_clean (d := d) (a := a) (b := b) hg hr
    simp -proj only [List.forall_mem_cons]
    exact ⟨h fun _ _ => rfl, h fun _ _ => rfl, h fun _ _ => rfl, h fun _ _ => rfl, h fun _ _ => rfl, h fun _ _ => rfl,
      h fun _ _ => rfl, h fun _ _ => half2_eq .., h fun _ _ => half2_eq .., h fun _ _ => half2_eq .., h fun _ _ => half2_eq ..,
      h fun _ _ => half2_eq .., h fun _ _ => half2_eq .., h fun _ _ => half2_eq .., h fun _ _ => half2_eq .., List.forall_mem_nil _⟩
  · intro s g d a b r sat hg fma fms fnma f32 lo hi f16 dot
    have h {f r : W32 → W32 → W32 → W32} (hr : ∀ x y o, f x y o = r x y o) := vec3_clean (d := d) (a := a) (b := b) hg hr
    have hdot (x y o : W32) : satW sat (dot4i x.toNat y.toNat o.toNat) = dot x y o := by rw [dot4i_eq, satW_eq]
    simp -proj only [List.forall_mem_cons]
    exact ⟨h fun _ _ _ => rfl, h fun _ _ _ => rfl, h fun _ _ _ => rfl, h fun _ _ _ => half2_eq .., h fun _ _ _ => half2_eq ..,
      h fun _ _ _ => rfl, h fun _ _ _ => rfl, h hdot, List.forall_mem_nil _⟩
  · intro s g d a b r sat hg f half narrow widen
    have h1 {f r : W32 → W32} (hr : ∀ x, f x = r x) := vec1_clean (d := d) (a := a) hg hr
    have h2 {f r : W32 → W32 → W32} (hr : ∀ x y, f x y = r x y) := vec2_clean (d := d) (a := a) (b := .v b) hg hr
    have hpair {m : FFmt} := unpackPair_clean (d := d) (a := a) hg (unpackHalf_eq m)
    have hnarrow (m : FFmt) (x y : W32) : on2 (packHalves m r sat) x y = narrow m x y := by simp only [on2, packHalves, narrow_eq]; rfl
    simp -proj only [List.forall_mem_cons]
    exact ⟨⟨h1 on1_fabs, h1 on1_fneg, h1 fun _ => rfl, h1 fun _ => rfl, h1 fun _ => rfl, h1 fun _ => rfl, h1 fun _ => rfl,
        h1 fun _ => rfl, h1 fun _ => rfl, h1 fun _ => rfl, h1 fun _ => rfl, h1 fun _ => rfl, List.forall_mem_nil _⟩,
      ⟨h2 (hnarrow _), h2 (hnarrow _), List.forall_mem_nil _⟩, hpair, hpair, List.forall_mem_nil _⟩

end Sys2Proof.Machine
end

section
/-! SUPPORT. O7: the special values of the approximating forms (R219); their bounds are in Laws/Approx. -/

namespace Sys2Proof.Machine

open Sys2Proof

/-! ### NaN -/

section
variable {a : Nat} {n : Bool} (h : FFmt.fp32.value a = .nan n)
include h

theorem rsqApprox_nan : rsqApprox a = FFmt.fp32.nanCode := by rw [rsqApprox, h]
theorem rcpApprox_nan : rcpApprox a = FFmt.fp32.nanCode := by rw [rcpApprox, h]
theorem exp2Approx_nan : exp2Approx a = FFmt.fp32.nanCode := by rw [exp2Approx, h]
theorem log2Approx_nan : log2Approx a = FFmt.fp32.nanCode := by rw [log2Approx, h]
theorem tanhApprox_nan : tanhApprox a = FFmt.fp32.nanCode := by rw [tanhApprox, h]

end

/-- A function of codes that takes each NaN to the canonical one. -/
theorem on1_of_isNan {f : Nat → Nat} (hf : ∀ {a n}, FFmt.fp32.value a = .nan n → f a = FFmt.fp32.nanCode) (x : W32)
    (h : (FFmt.fp32.value x.toNat).isNan = true) : on1 f x = 0x7FC00000#32 := by
  cases hv : FFmt.fp32.value x.toNat with
  | nan n => rw [on1, hf hv]; rfl
  | inf n => rw [hv] at h; cases h
  | fin n m e => rw [hv] at h; cases h

/-! ### Values out of a form's domain -/

/-- What lies below zero: minus infinity, and the negative numbers. -/
theorem lt_zero_cases {v : Fv} (h : v.lt (.fin false 0 0) = true) : v = .inf true ∨ ∃ m e, v = .fin true m e ∧ m ≠ 0 := by
  cases v with
  | nan n => cases h
  | inf n =>
    obtain rfl : n = true := h
    exact .inl rfl
  | fin n m e =>
    have hneg : Fv.rat n m e < 0 := by simpa [Fv.rat] using (rat_lt ..).mp h
    have hn : n = true := by
      by_contra hpos
      rw [Bool.eq_false_of_not_eq_true hpos, Fv.rat, if_neg Bool.false_ne_true] at hneg
      exact absurd hneg (not_lt.mpr (by positivity))
    exact .inr ⟨m, e, by rw [hn], rat_ne_zero.mp hneg.ne⟩

theorem rsqApprox_neg {a : Nat} (h : (FFmt.fp32.value a).lt (.fin false 0 0) = true) : rsqApprox a = FFmt.fp32.nanCode := by
  obtain hv | ⟨m, e, hv, hm⟩ := lt_zero_cases h
  · simp only [rsqApprox, hv, if_true]
  · simp only [rsqApprox, hv, if_neg hm, if_true]

theorem log2Approx_neg {a : Nat} (h : (FFmt.fp32.value a).lt (.fin false 0 0) = true) : log2Approx a = FFmt.fp32.nanCode := by
  obtain hv | ⟨m, e, hv, hm⟩ := lt_zero_cases h
  · simp only [log2Approx, hv, if_true]
  · simp only [log2Approx, hv, if_neg hm, if_true]

/-- VFEXP2 of 128 and above. -/
theorem exp2Approx_large {a : Nat} (hnan : (FFmt.fp32.value a).isNan = false)
    (h : (FFmt.fp32.value a).lt (.fin false 128 0) = false) : exp2Approx a = FFmt.fp32.infCode := by
  cases hv : FFmt.fp32.value a with
  | nan n => rw [hv] at hnan; cases hnan
  | inf n =>
    rw [hv] at h
    obtain rfl : n = false := h
    simp only [exp2Approx, hv, Bool.false_eq_true, if_false]
  | fin n m e =>
    rw [hv] at h
    have hge : ¬ Fv.rat n m e < Fv.rat false 128 0 := fun hlt => Bool.false_ne_true (h.symm.trans ((rat_lt ..).mpr hlt))
    have hlow : ¬ Fv.lt (.fin n m e) (.fin true 149 0) = true := fun hlt =>
      hge (((rat_lt ..).mp hlt).trans (by norm_num [Fv.rat]))
    simp only [exp2Approx, hv, h, if_neg hlow, Bool.not_false, if_true]

/-- VFEXP2 below -149. -/
theorem exp2Approx_small {a : Nat} (h : (FFmt.fp32.value a).lt (.fin true 149 0) = true) : exp2Approx a = 0 := by
  cases hv : FFmt.fp32.value a with
  | nan n => rw [hv] at h; cases h
  | inf n =>
    rw [hv] at h
    obtain rfl : n = true := h
    simp only [exp2Approx, hv, if_true]
  | fin n m e =>
    rw [hv] at h
    simp only [exp2Approx, hv, if_pos h]

/-- Settles O7 with the model's own functions: special values are the lemmas above or a computation, and the bounds are those of
`rsq_within`, `rcp_within`, `exp2_within`, `log2_within` and `tanh_within`. -/
theorem approximatingFormsAreFixedFunctions : Obligations.ApproximatingFormsAreFixedFunctions := by
  refine ⟨on1 rsqApprox, on1 rcpApprox, on1 exp2Approx, on1 log2Approx, on1 tanhApprox, fun s g d a hg => ?_, ?_, fun x h => ?_,
    fun x hnan h => ?_, fun x h => ?_, ?_⟩
  · have h {f : W32 → W32} := vec1_clean (d := d) (a := a) (f := f) hg fun _ => rfl
    simp -proj only [List.forall_mem_cons]
    exact ⟨h, h, h, h, h, List.forall_mem_nil _⟩
  · simp only [List.forall_mem_cons]
    exact ⟨on1_of_isNan rsqApprox_nan, on1_of_isNan rcpApprox_nan, on1_of_isNan exp2Approx_nan, on1_of_isNan log2Approx_nan,
      on1_of_isNan tanhApprox_nan, List.forall_mem_nil _⟩
  · rw [on1, on1, rsqApprox_neg h, log2Approx_neg h]
    exact ⟨rfl, rfl⟩
  · rw [on1, exp2Approx_large hnan h]
    rfl
  · rw [on1, exp2Approx_small h]
  · refine ⟨rfl, rfl, rfl, rfl, rfl, rfl, rfl, rfl, rfl, rfl, rfl, rfl, rfl, rfl, rfl, ?_⟩
    intro x hx a
    exact ⟨rsq_within x hx, rcp_within x hx, exp2_within x hx, log2_within x hx, tanh_within x hx⟩

end Sys2Proof.Machine
end

section
/-! SUPPORT. O8: quantisation under QCTX, and the packing of bytes (R222 to R225). -/

namespace Sys2Proof.Machine

open Sys2Proof

/-! ### QCTX (R137, R209, R210, R222) -/

/-- A quantising form behind a clean guard, under a set QCTX. -/
theorem withQ_set {s : State} {g : Guard} (f : State → W64 → W64 → W32 → State) (hg : s.me.clean g) (hq : s.me.qctx.toNat % 256 ≠ 0) :
    s.withQ g f = f s s.me.qctx s.me.qbase (allLanes s.me.qpoison) := by
  rw [State.withQ, withP_clean s g _ hg, qFmt_eq, if_neg hq]

theorem qctxTrap_good {q : W64} (hreserved : q.toNat / 2 ^ 48 = 0) (hfmt : q.toNat % 256 ∈ [0x00, 0x10, 0x11, 0x20, 0x21, 0x30]) :
    qctxTrap q = none := by
  rw [qctxTrap, if_neg (not_not.mpr hreserved), qFmt_eq, if_pos (List.contains_iff_mem.mpr hfmt)]

theorem exec_vqcfg_good {s : State} {a b : UReg} (h : qctxTrap s.me.s[a] = none) :
    exec (.vqcfg a b) s = .next (s.ends fun t => t.setQ t.s[a] t.s[b] (t.sp.getLsbD a.val || t.sp.getLsbD b.val)) := by
  have h' : qctxTrap (s.me.sget a) = none := h
  simp only [exec_vqcfg, execVqcfg, h']
  rfl

/-! ### Bytes of a lane (R225) -/

theorem getLsbD_byteMask (i : Nat) : (0xFF#32).getLsbD i = decide (i < 8) := by
  rw [BitVec.getLsbD]
  exact Nat.testBit_two_pow_sub_one 8 i

/-- VPACK8: byte j of the old destination becomes the low byte of A, and the others stay. -/
theorem extractLsb'_pack8 (a b o : W32) (k : Fin 4) : (pack8 a b o).extractLsb' (8 * k.val) 8 =
    if b.toNat % 4 = k.val then a.extractLsb' 0 8 else o.extractLsb' (8 * k.val) 8 := by
  refine BitVec.eq_of_getLsbD_eq fun i hi => ?_
  have hlt : 8 * k.val + i < 32 := by omega
  simp only [pack8, BitVec.getLsbD_extractLsb', BitVec.getLsbD_or, BitVec.getLsbD_and, BitVec.getLsbD_not, BitVec.getLsbD_shiftLeft,
    getLsbD_byteMask, hi, hlt, decide_true, Bool.true_and]
  split
  case isTrue hk => simp [hk, hi]
  case isFalse hk =>
    have hout : 8 * k.val + i < 8 * (b.toNat % 4) ∨ 8 ≤ 8 * k.val + i - 8 * (b.toNat % 4) := by omega
    obtain hbelow | habove := hout
    · simp [hi, hbelow]
    · simp [hi, Nat.not_lt.mpr habove]

/-- VUNPK8: a shift and a mask take one byte. -/
theorem ushiftRight_and_byteMask (a : W32) (j : Nat) : (a >>> j) &&& 0xFF#32 = (a.extractLsb' j 8).zeroExtend 32 := by
  refine BitVec.eq_of_getLsbD_eq fun i hi => ?_
  rw [BitVec.getLsbD_and, BitVec.getLsbD_ushiftRight, getLsbD_byteMask, BitVec.getLsbD_setWidth, BitVec.getLsbD_extractLsb',
    decide_eq_true hi, Bool.true_and, Bool.and_comm]

/-- Settles O8: a quantising form is its function of codes behind the clean guard and the set QCTX; VPACK8 and VUNPK8 are the lemmas
above. -/
theorem laneQuantiseAndPackResult : Obligations.LaneQuantiseAndPackResult := by
  refine ⟨?_, ?_⟩
  · intro s g d a b ua ub hg q i qp
    refine ⟨fun hq => ?_, fun hreserved hfmt => exec_vqcfg_good (qctxTrap_good hreserved hfmt)⟩
    have h (f : State → W64 → W64 → W32 → State) :
        (.next (s.withQ g f) : Out State) = .next (f s s.me.qctx s.me.qbase (allLanes s.me.qpoison)) := congrArg _ (withQ_set f hg hq)
    exact ⟨h _, h _, h _⟩
  · intro s g d a b hg
    exact ⟨fun l => pack8 s.me.v[a][l] (s.me.bval b l) s.me.v[d][l], congrArg _ (withP_clean s g _ hg),
      fun l k => extractLsb'_pack8 ..,
      vec2_clean (r := fun x y => (x.extractLsb' (8 * (y.toNat % 4)) 8).zeroExtend 32) hg fun _ _ => ushiftRight_and_byteMask ..⟩

end Sys2Proof.Machine
end

section
/-! SUPPORT. O14: an atomic without a result is queued at its core as a store is (R236, R238, R239). -/

namespace Sys2Proof.Machine

open Sys2Proof

/-! ### The checks before an atomic (R229, R239, R240) -/

/-- An aligned access whose width divides a line stays in its line. -/
theorem mod_line_le_of_dvd {z a : Nat} (hz : z ∣ 128) (h : a % z = 0) : a % 128 + z ≤ 128 := by
  obtain ⟨k, hk⟩ := (Nat.dvd_mod_iff hz).mpr (Nat.dvd_of_mod_eq_zero h)
  obtain ⟨m, hm⟩ := hz
  have hlt : z * k < z * m := by rw [← hk, ← hm]; exact Nat.mod_lt _ (by decide)
  calc a % 128 + z = z * (k + 1) := by rw [hk, Nat.mul_succ]
    _ ≤ z * m := Nat.mul_le_mul_left z (lt_of_mul_lt_mul_left hlt (Nat.zero_le z))
    _ = 128 := hm.symm

/-- A storable access enters with an entry of its size, whatever width it has within a line. -/
theorem State.storable.stores_of_dvd {s : State} {z : Nat} {va : W64} {p : Bool} {op : StOp} {data : List Byte} (h : s.storable z va p)
    (hz : z ∣ 128) (hsize : (s.mkEnt va op data p false).size = z) : s.Stores (s.mkEnt va op data p false) := by
  obtain ⟨hclear, haccept, hpriv⟩ := h
  exact ⟨rfl, rfl, by rw [hsize]; exact mod_line_le_of_dvd hz hclear.2.1, haccept, by rw [hsize]; exact hpriv⟩

/-- The release of an atomic's scope waits for nothing in a calm state. -/
theorem atomFence_calm {s : State} (hs : s.Calm) (sc : Scope) (f : State → State) : s.atomFence sc f = f s := by
  cases sc with
  | cluster | die | device | system => exact afterFence_calm hs _ f
  | tg | task | core | dflt => rfl

theorem withAtomStep1_pass {s : State} {minor : Nat} {nr format : Bool} {f : State → State} (hdet : s.me.det = false)
    (hformat : format = false) : s.withAtomStep1 minor nr format f = f s := by
  rw [State.withAtomStep1, hdet, hformat]
  rfl

/-- No lane of VXADD holds a NaN or an infinity. -/
theorem any_nonFinite_eq_false {t : TG} {d : VReg} (h : ∀ l ∈ t.xLanes, (t.v[d][l]).extractLsb' 23 8 ≠ 0xFF#8) :
    (t.xLanes.any fun l => f32NonFinite ((t.vget d)[l]).toNat) = false :=
  List.any_eq_false.mpr fun l hl => by
    rw [f32NonFinite_eq, beq_iff_eq]
    exact h l hl

/-! ### Atomics without a result (R236, R238) -/

section
variable {s : State} {minor z : Nat} {g : Guard} {a : UReg} {sc : Scope} (hc : s.Calm) (hz : z ∣ 128)
  (hsize : ∀ va data p, (s.mkEnt va (.atom minor) data p false).size = z)
include hc hz hsize

theorem atomRun_stores {ops : List (W64 × List Byte × Bool)} {put : State → List (List Byte × List Bool) → State}
    (h : ∀ o ∈ ops, s.storable z o.1 o.2.2) :
    s.storesTo (s.atomRun minor true sc ops put) (ops.map fun o => s.mkEnt o.1 (.atom minor) o.2.1 o.2.2 false) := by
  obtain ⟨u, hu, hst⟩ := storeAll_calm hc (es := ops.map fun o => s.mkEnt o.1 (.atom minor) o.2.1 o.2.2 false) fun e he => by
    obtain ⟨o, ho, rfl⟩ := List.mem_map.mp he
    exact (h o ho).stores_of_dvd hz (hsize ..)
  unfold State.atomRun
  dsimp only
  rw [atomFence_calm hc, if_pos rfl, hu]
  exact hst

theorem vatom_stores {b : VSrc} {format : TG → Bool} {data : TG → Fin 32 → List Byte × Bool} {put : State → LaneVals → State}
    (hg : s.me.opens g) (hdet : s.me.det = false) (hformat : format s.me = false) (hp : poisonOff a b s.me &&& s.me.x = 0)
    (h : ∀ l ∈ s.me.xLanes, s.storable z (addrOff a b s.me l) (data s.me l).2) :
    s.storesTo (s.vatom minor z g a b true sc format data put)
      (s.me.xLanes.map fun l => s.mkEnt (addrOff a b s.me l) (.atom minor) (data s.me l).1 (data s.me l).2 false) := by
  unfold State.vatom
  rw [withK_open s g _ hg, withAtomStep1_pass hdet hformat, vecMem_clear (.inl rfl) hp fun l hl => (h l hl).1]
  split
  next hnil =>
    rw [hnil]
    exact advance_storesTo s
  next =>
    have hst := atomRun_stores (sc := sc) (ops := s.me.xLanes.map fun l => (addrOff a b s.me l, data s.me l))
      (put := fun s' rs => put s' (laneVals s.me.xLanes rs)) hc hz hsize fun o ho => by
        obtain ⟨l, hl, rfl⟩ := List.mem_map.mp ho
        exact h l hl
    rwa [List.map_map] at hst

end

/-- A uniform atomic without a result. -/
theorem uatom_stores {s : State} {minor : Nat} {g : Guard} {d a : UReg} {sc : Scope} {data : TG → List Byte × Bool} (hc : s.Calm)
    (hsize : ∀ va data p, (s.mkEnt va (.atom minor) data p false).size = 8) (hg : s.me.opens g) (hdet : s.me.det = false)
    (ha : s.me.sp.getLsbD a.val = false) (h : s.storable 8 s.me.s[a] (data s.me).2) :
    s.storesTo (s.uatom minor g d a true sc data) [s.mkEnt s.me.s[a] (.atom minor) (data s.me).1 (data s.me).2 false] := by
  unfold State.uatom
  rw [withK_open s g _ hg]
  dsimp only
  rw [withAtomStep1_pass hdet rfl, withChecks_clear (show s.me.spoison a = false from ha) fun x hx => by
    cases List.mem_singleton.mp hx
    exact h.1]
  exact atomRun_stores hc (by decide) hsize fun o ho => by
    cases List.mem_singleton.mp ho
    exact h

/-- Settles O14: each form is `vatom_stores` or `uatom_stores` with its operand. -/
theorem atomicWithoutResultEntersTheBuffer : Obligations.AtomicWithoutResultEntersTheBuffer := by
  intro s g d a b e u sc hg hc hdet ha hb at_ lanes one two p1 p2
  have hp : poisonOff a b s.me &&& s.me.x = 0 := by rw [poisonOff, allLanes_clean ha]; exact hb
  refine ⟨fun c hmem hfinite hok => ?_, fun c hmem hclear haccept hpriv => ?_⟩
  · have h32 {minor : Nat} (hsize : ∀ va data p, (s.mkEnt va (.atom minor) data p false).size = 4)
        (h : ∀ l ∈ s.me.xLanes, s.storable 4 (at_ l) (p1 l)) :
        s.storesTo (s.vatom32 minor g d a b true sc) (lanes.map fun l => s.mkEnt (at_ l) (.atom minor) (one l) (p1 l) false) :=
      vatom_stores (data := TG.laneData 4 d) hc (by decide) hsize hg hdet rfl hp h
    simp only [List.mem_cons, List.not_mem_nil, or_false] at hmem
    rcases hmem with rfl | rfl | rfl | rfl | rfl | rfl | rfl | rfl | rfl | rfl
    · exact ⟨_, exec_vatadd .., h32 (fun _ _ _ => rfl) hok⟩
    · exact ⟨_, exec_vatmin .., h32 (fun _ _ _ => rfl) hok⟩
    · exact ⟨_, exec_vatmax .., h32 (fun _ _ _ => rfl) hok⟩
    · exact ⟨_, exec_vatand .., h32 (fun _ _ _ => rfl) hok⟩
    · exact ⟨_, exec_vator .., h32 (fun _ _ _ => rfl) hok⟩
    · exact ⟨_, exec_vatxor .., h32 (fun _ _ _ => rfl) hok⟩
    · exact ⟨_, exec_vatxch .., h32 (fun _ _ _ => rfl) hok⟩
    · exact ⟨_, exec_vatcas .., vatom_stores (data := TG.pairData d) hc (by decide) (fun _ _ _ => rfl) hg hdet rfl hp hok⟩
    · exact ⟨_, exec_vxadd .., vatom_stores (data := TG.laneData 4 d) hc (by decide) (fun _ _ _ => rfl) hg hdet
        (any_nonFinite_eq_false (hfinite rfl)) hp hok⟩
    · exact ⟨_, exec_vfatadd .., h32 (fun _ _ _ => rfl) hok⟩
  · simp only [List.mem_cons, List.not_mem_nil, or_false] at hmem
    rcases hmem with rfl | rfl | rfl
    · exact ⟨_, exec_satadd .., uatom_stores (data := uData e) hc (fun _ _ _ => rfl) hg hdet ha ⟨hclear, haccept, hpriv⟩⟩
    · exact ⟨_, exec_satcas .., uatom_stores (data := casData u e) hc (fun _ _ _ => rfl) hg hdet ha ⟨hclear, haccept, hpriv⟩⟩
    · exact ⟨_, exec_satxch .., uatom_stores (data := uData e) hc (fun _ _ _ => rfl) hg hdet ha ⟨hclear, haccept, hpriv⟩⟩

end Sys2Proof.Machine
end

section
/-! SUPPORT. O11, O12: loads in a calm state write what storage holds (R229, R231 to R234). -/

namespace Sys2Proof.Machine

open Sys2Proof

/-! ### Calm states -/

theorem State.Calm.fifo {s : State} : s.Calm → (s.core s.me.loc.core).fifo = [] := fun ⟨h, _, _, _, _, _⟩ => h
theorem State.Calm.phase {s : State} : s.Calm → s.me.phase = .start := fun ⟨_, _, _, _, h, _⟩ => h
theorem State.Calm.pace {s : State} : s.Calm → s.pace = none := fun ⟨_, _, _, _, _, h⟩ => h

/-! ### Poison of a run of bytes (R231) -/

/-- The marks of n bytes from the k-th on are those of the run that begins there. -/
theorem marked_part (s : State) (a : Nat) {z k n : Nat} (h : k + n ≤ z) : ((s.marked a z).2.drop k).take n = (s.marked (a + k) n).2 := by
  refine List.ext_getElem ?_ fun i _ _ => ?_
  · simp only [Soc.marked, List.length_take, List.length_drop, List.length_map, List.length_range]
    omega
  · simp [Soc.marked, Nat.add_assoc]

theorem any_marked (s : State) (a z : Nat) : (s.marked a z).2.any id = s.bad a z := List.any_map

theorem any_marked_part (s : State) (a : Nat) {z k n : Nat} (h : k + n ≤ z) :
    (((s.marked a z).2.drop k).take n).any id = s.bad (a + k) n := by
  rw [marked_part s a h, any_marked]

/-- A run no longer than n has all of its marks among the first n. -/
theorem any_marked_whole (s : State) (a : Nat) {z n : Nat} (h : z ≤ n) : (((s.marked a z).2.drop 0).take n).any id = s.bad a z := by
  rw [List.drop_zero, List.take_of_length_le (by simpa [Soc.marked] using h), any_marked]

/-! ### Numbers of bytes (R3) -/

theorem natOf_append (l r : List Byte) : natOf (l ++ r) = natOf l + 256 ^ l.length * natOf r := by
  induction l with
  | nil => simp [natOf]
  | cons b l ih => rw [List.cons_append, natOf, ih, natOf, List.length_cons, Nat.pow_succ]; ring

theorem natOf_lt (l : List Byte) : natOf l < 256 ^ l.length := by
  induction l with
  | nil => simp [natOf]
  | cons b l ih =>
    have hb := b.isLt
    rw [natOf, List.length_cons, Nat.pow_succ]
    omega

/-- A run of bytes is its first part and, above it, its second. -/
theorem num_add (s : State) (a m n : Nat) : s.num a (m + n) = s.num a m + 256 ^ m * s.num (a + m) n := by
  have hsplit : memBytes s.mem a (m + n) = memBytes s.mem a m ++ memBytes s.mem (a + m) n := by
    rw [← List.take_append_drop m (memBytes s.mem a (m + n)), memBytes_take _ _ _ _ (Nat.le_add_right ..), memBytes_drop,
      Nat.add_sub_cancel_left]
  rw [State.num, hsplit, natOf_append, memBytes_length]
  rfl

theorem num_lt (s : State) (a z : Nat) : s.num a z < 256 ^ z := by
  have h := natOf_lt (memBytes s.mem a z)
  rwa [memBytes_length] at h

/-! ### Lanes that take part (R227) -/

theorem mem_xLanes {t : TG} {l : Fin 32} : l ∈ t.xLanes ↔ t.x.getLsbD l.val = true := by
  rw [TG.xLanes, List.mem_filter]
  exact and_iff_right (List.mem_finRange l)

theorem xLanes_ne_nil {t : TG} (h : t.x ≠ 0) : t.xLanes ≠ [] := fun hnil =>
  h (BitVec.eq_of_getLsbD_eq fun i hi => by
    rw [show (0 : W32).getLsbD i = false from BitVec.getLsbD_zero, Bool.eq_false_iff]
    intro hbit
    have hmem : (⟨i, hi⟩ : Fin 32) ∈ t.xLanes := mem_xLanes.mpr hbit
    rw [hnil] at hmem
    exact List.not_mem_nil hmem)

/-- A lane that takes part has the result at its own place. -/
theorem laneRes_map {lanes : List (Fin 32)} (f : Fin 32 → List Byte × List Bool) {l : Fin 32} (h : l ∈ lanes) :
    laneRes lanes (lanes.map f) l = f l := by
  have hlt : lanes.idxOf l < lanes.length := List.idxOf_lt_length_of_mem h
  rw [laneRes, List.getD_eq_getElem?_getD, List.getElem?_map, List.getElem?_eq_getElem hlt, List.getElem_idxOf hlt]
  rfl

/-- Only the active lanes' values are written. -/
theorem setV_congr {t : TG} {d : VReg} {act p : W32} {f f' : Fin 32 → W32} (h : ∀ l : Fin 32, act.getLsbD l.val = true → f l = f' l) :
    t.setV d act f p = t.setV d act f' p := by
  have hlane : (fun l : Fin 32 => if act.getLsbD l.val then f l else t.v[d][l]) = fun l => if act.getLsbD l.val then f' l else t.v[d][l] :=
    funext fun l => ite_congr rfl (h l) fun _ => rfl
  rw [TG.setV, hlane]
  rfl

theorem vreg_plus_zero (d : VReg) : VReg.plus d 0 = d := Fin.ofNat_val_eq_self d

/-! ### One load in a calm state -/

theorem readsTo_congr {s t : State} {f f' : TG → TG} (h : s.readsTo t f) (hf : f s.me = f' s.me) : s.readsTo t f' :=
  h.trans (ends_congr hf)

/-- With no store at the core and none on its way, a fence waits for nothing, whatever the instruction has done so far (R103). -/
theorem State.Like.afterFence {s u : State} (h : s.Like u) (hs : s.Calm) (sc : Scope) (k : State → State) : u.afterFence sc k = k u :=
  afterFence_of_clear (h.same hs).fifo (h.same hs).wrs sc k

theorem loadAll_one {s : State} {z at_ : Nat} {va : W64} (hs : s.Calm) (hz : z = 1 ∨ z = 2 ∨ z = 4 ∨ z = 8)
    (hclear : s.clears false va.toNat z) (hat : s.loadAt va.toNat = some at_) :
    ∃ u, s.loadAll z [va] = (u, some [s.marked at_ z]) ∧ s.Like u :=
  loadAll_calm s z (fun _ => at_) hs hz [va] fun x hx => by
    cases List.mem_singleton.mp hx
    exact ⟨hclear.2.1, hat⟩

/-- A uniform load of z bytes through f. -/
theorem uload_reads {s : State} {d a : UReg} {va : W64} {z at_ : Nat} {f : Nat → W64} (hs : s.Calm) (hz : z = 1 ∨ z = 2 ∨ z = 4 ∨ z = 8)
    (ha : s.me.sp.getLsbD a.val = false) (hclear : s.clears false va.toNat z) (hat : s.loadAt va.toNat = some at_) :
    s.readsTo (s.uload d a va z f) fun r => r.setS d (f (s.num at_ z)) (s.bad at_ z) := by
  obtain ⟨u, hu, hlike⟩ := loadAll_one hs hz hclear hat
  unfold State.uload
  rw [withChecks_clear (show s.me.spoison a = false from ha) fun x hx => by cases List.mem_singleton.mp hx; exact hclear, hu]
  dsimp only
  rw [List.getD_cons_zero, any_marked]
  exact hlike.readsTo (fun r => r.setS d (f (s.num at_ z)) (s.bad at_ z)) fun _ _ => rfl

/-! ### Vector loads (R229, R231, R232) -/

section
variable {s : State} {g : Guard} {z : Nat} {addr : TG → Fin 32 → W64} {poison : TG → W32} {A : W64 → Nat}
  (hs : s.Calm) (hg : s.me.opens g) (hx : s.me.x ≠ 0) (hp : poison s.me &&& s.me.x = 0)
  (h : ∀ l : Fin 32, s.me.x.getLsbD l.val = true → s.clears false (addr s.me l).toNat z ∧ s.loadAt (addr s.me l).toNat = some (A (addr s.me l)))
include hs hg hx hp h

/-- The bytes and marks of each lane's storage are written. -/
theorem vload_calm (hz : z = 1 ∨ z = 2 ∨ z = 4 ∨ z = 8) (put : State → LaneVals → State) : ∃ (u : State) (r : LaneVals), s.Like u ∧
    s.vload g z addr poison put = (put u r).advance ∧ ∀ l : Fin 32, s.me.x.getLsbD l.val = true →
      r.1 l = s.num (A (addr s.me l)) z ∧
      ∀ k n, (r.2 k n).getLsbD l.val = (((s.marked (A (addr s.me l)) z).2.drop k).take n).any id := by
  obtain ⟨u, hu, hlike⟩ := loadAll_calm s z A hs hz (s.me.xLanes.map (addr s.me)) fun x hx => by
    obtain ⟨l, hl, rfl⟩ := List.mem_map.mp hx
    obtain ⟨hclear, hat⟩ := h l (mem_xLanes.mp hl)
    exact ⟨hclear.2.1, hat⟩
  rw [List.map_map] at hu
  refine ⟨u, laneVals s.me.xLanes (s.me.xLanes.map fun l => s.marked (A (addr s.me l)) z), hlike, ?_, fun l hl => ?_⟩
  rotate_left
  · have hres := laneRes_map (fun l => s.marked (A (addr s.me l)) z) (mem_xLanes.mpr hl)
    exact ⟨congrArg (fun r : List Byte × List Bool => natOf r.1) hres, fun k n => (getLsbD_laneBits _ l).trans
      (congrArg (fun r : List Byte × List Bool => ((r.2.drop k).take n).any id) hres)⟩
  · unfold State.vload
    rw [vecMem_clear hg hp fun l hl => (h l (mem_xLanes.mp hl)).1, if_neg (xLanes_ne_nil hx), hu]
    rfl

/-- A load of at most a word a lane. -/
theorem vload_put1_reads (hz : z = 1 ∨ z = 2 ∨ z = 4) (d : VReg) : ∃ p : W32,
    (∀ l : Fin 32, s.me.x.getLsbD l.val = true → p.getLsbD l.val = s.bad (A (addr s.me l)) z) ∧
    s.readsTo (s.vload g z addr poison (put1 d)) fun r => r.setV d r.x (fun l => BitVec.ofNat 32 (s.num (A (addr s.me l)) z)) p := by
  obtain ⟨u, r, hlike, hrun, hr⟩ := vload_calm hs hg hx hp h (by omega) (put1 d)
  refine ⟨r.2 0 4, fun l hl => ((hr l hl).2 0 4).trans (any_marked_whole s _ (by omega)), ?_⟩
  rw [hrun]
  exact readsTo_congr (hlike.readsTo (fun t => t.setV d t.x (fun l => BitVec.ofNat 32 (r.1 l)) (r.2 0 4)) fun _ _ => rfl)
    (setV_congr fun l hl => by rw [(hr l hl).1])

end

/-- A load of two words a lane: the low one goes into the first register of the pair. -/
theorem vload_putN_reads {s : State} {g : Guard} {addr : TG → Fin 32 → W64} {poison : TG → W32} {A : W64 → Nat}
    (hs : s.Calm) (hg : s.me.opens g) (hx : s.me.x ≠ 0) (hp : poison s.me &&& s.me.x = 0)
    (h : ∀ l : Fin 32, s.me.x.getLsbD l.val = true → s.clears false (addr s.me l).toNat 8 ∧ s.loadAt (addr s.me l).toNat = some (A (addr s.me l)))
    (d : VReg) : ∃ p q : W32,
    (∀ l : Fin 32, s.me.x.getLsbD l.val = true → p.getLsbD l.val = s.bad (A (addr s.me l)) 4) ∧
    (∀ l : Fin 32, s.me.x.getLsbD l.val = true → q.getLsbD l.val = s.bad (A (addr s.me l) + 4) 4) ∧
    s.readsTo (s.vload g 8 addr poison (putN 2 d)) fun r =>
      (r.setV d r.x (fun l => BitVec.ofNat 32 (s.num (A (addr s.me l)) 4)) p).setV (VReg.plus d 1) r.x
        (fun l => BitVec.ofNat 32 (s.num (A (addr s.me l) + 4) 4)) q := by
  obtain ⟨u, r, hlike, hrun, hr⟩ := vload_calm hs hg hx hp h (by decide) (putN 2 d)
  refine ⟨r.2 0 4, r.2 4 4, fun l hl => ((hr l hl).2 0 4).trans (any_marked_part s _ (by decide)),
    fun l hl => ((hr l hl).2 4 4).trans (any_marked_part s _ (by decide)), ?_⟩
  have hword (l : Fin 32) (hl : s.me.x.getLsbD l.val = true) :
      BitVec.ofNat 32 (r.1 l / 2 ^ (32 * 0)) = BitVec.ofNat 32 (s.num (A (addr s.me l)) 4) ∧
      BitVec.ofNat 32 (r.1 l / 2 ^ (32 * 1)) = BitVec.ofNat 32 (s.num (A (addr s.me l) + 4) 4) := by
    have hsplit : s.num (A (addr s.me l)) 8 = s.num (A (addr s.me l)) 4 + 256 ^ 4 * s.num (A (addr s.me l) + 4) 4 := num_add s _ 4 4
    have hlow := num_lt s (A (addr s.me l)) 4
    rw [(hr l hl).1]
    constructor <;> apply BitVec.eq_of_toNat_eq <;> simp only [BitVec.toNat_ofNat, Nat.mul_zero, Nat.mul_one, pow_zero] <;> omega
  have hread := hlike.readsTo (fun t => (t.setV d t.x (fun l => BitVec.ofNat 32 (r.1 l / 2 ^ (32 * 0))) (r.2 0 4)).setV
    (VReg.plus d 1) t.x (fun l => BitVec.ofNat 32 (r.1 l / 2 ^ (32 * 1))) (r.2 4 4)) fun _ _ => rfl
  rw [hrun, show putN 2 d u r = (u.setV (VReg.plus d 0) u.me.x (fun l => BitVec.ofNat 32 (r.1 l / 2 ^ (32 * 0))) (r.2 0 4)).setV
    (VReg.plus d 1) u.me.x (fun l => BitVec.ofNat 32 (r.1 l / 2 ^ (32 * 1))) (r.2 4 4) from rfl, vreg_plus_zero]
  refine readsTo_congr hread ?_
  rw [setV_congr fun l hl => (hword l hl).1]
  exact setV_congr fun l hl => (hword l hl).2

/-! ### Dequantising loads (R233) -/

/-- Two INT4 codes share a byte, the even element's in the low half. -/
theorem qCode_eq (q : W64) (e : W32) (n : Nat) :
    qCode q e n = if q.toNat % 256 = 0x11 then n / 16 ^ (e.toNat % 2) % 16 else n := by
  unfold qCode
  rw [qFmt_eq]
  split
  · obtain heven | hodd := Nat.mod_two_eq_zero_or_one e.toNat
    · simp [heven]
    · simp [hodd]
  · rfl

/-- A dequantising load writes what each lane's code stands for, in a lane that takes its element number e. -/
theorem qload_reads {s : State} {g : Guard} {d : VReg} {a : UReg} {e : TG → Fin 32 → W32} {ep : TG → W32} {A : W64 → Nat}
    (he : ∀ (t : TG) (p : Phase), e { t with phase := p } = e t) (hs : s.Calm) (hg : s.me.opens g) (hx : s.me.x ≠ 0)
    (ha : s.me.sp.getLsbD a.val = false) (hfmt : s.me.qctx.toNat % 256 ≠ 0) (hp : ep s.me &&& s.me.x = 0)
    (h : ∀ l : Fin 32, s.me.x.getLsbD l.val = true → s.clears false (qAddr s.me.qctx s.me.s[a] (e s.me l)).toNat 1 ∧
      s.loadAt (qAddr s.me.qctx s.me.s[a] (e s.me l)).toNat = some (A (qAddr s.me.qctx s.me.s[a] (e s.me l)))) : ∃ p : W32,
    (∀ l : Fin 32, s.me.x.getLsbD l.val = true →
      p.getLsbD l.val = (s.bad (A (qAddr s.me.qctx s.me.s[a] (e s.me l))) 1 || s.me.qpoison)) ∧
    s.readsTo (s.qload g d a e ep) fun r => r.setV d r.x (fun l => qDecode s.me.qctx s.me.qbase (e s.me l)
      (qCode s.me.qctx (e s.me l) (s.num (A (qAddr s.me.qctx s.me.s[a] (e s.me l))) 1))) p := by
  let put : State → LaneVals → State := fun s r => s.setV d s.me.x
    (fun l => qDecode s.me.qctx s.me.qbase (e s.me l) (qCode s.me.qctx (e s.me l) (r.1 l))) (r.2 0 1 ||| allLanes s.me.qpoison)
  have hrun : s.qload g d a e ep = s.vload 0 1 (fun t l => qAddr t.qctx (t.sget a) (e t l)) (fun t => allLanes (t.spoison a) ||| ep t) put := by
    unfold State.qload State.withFmt
    rw [withK_open s g _ hg]
    exact if_neg (by rwa [qFmt_eq])
  obtain ⟨u, r, hlike, hload, hr⟩ := vload_calm (g := 0) (z := 1) (addr := fun t l => qAddr t.qctx (t.sget a) (e t l))
    (poison := fun t => allLanes (t.spoison a) ||| ep t) hs (.inl rfl) hx (by rw [allLanes_clean ha]; exact hp) h (by decide) put
  refine ⟨r.2 0 1 ||| allLanes s.me.qpoison, fun l hl => ?_, ?_⟩
  · have hall (b : Bool) : (allLanes b).getLsbD l.val = b := by
      cases b
      · exact BitVec.getLsbD_zero
      · exact (BitVec.getLsbD_allOnes (i := l.val)).trans (decide_eq_true l.isLt)
    rw [BitVec.getLsbD_or, hall, (hr l hl).2 0 1, any_marked_whole s _ le_rfl]
    rfl
  · rw [hrun, hload]
    refine readsTo_congr (hlike.readsTo (fun t => t.setV d t.x
      (fun l => qDecode t.qctx t.qbase (e t l) (qCode t.qctx (e t l) (r.1 l))) (r.2 0 1 ||| allLanes t.qpoison)) fun t p => ?_)
      (setV_congr fun l hl => by rw [(hr l hl).1]; rfl)
    dsimp only
    rw [he]
    rfl

/-- Settles O12: the loads are `vload_put1_reads` and `vload_putN_reads` at their addresses, the dequantising ones `qload_reads`. -/
theorem vectorLoadResult : Obligations.VectorLoadResult := by
  refine ⟨?plain, ?quantised⟩
  case plain =>
    intro s g d a b w A hg hc hx off stride unit ok pois ha
    refine ⟨fun hb => ?_, fun hw hok => ?_, fun hok => ?_⟩
    · have hp : poisonOff a b s.me &&& s.me.x = 0 := by rw [poisonOff, allLanes_clean ha]; exact hb
      refine ⟨fun c hmem hok => ?_, fun hok => ?_⟩
      · simp only [List.mem_cons, List.not_mem_nil, or_false] at hmem
        rcases hmem with rfl | rfl | rfl
        · obtain ⟨p, hpois, hread⟩ := vload_put1_reads (addr := addrOff a b) hc hg hx hp hok (by simp) d
          exact ⟨_, p, exec_vldw .., hpois, hread⟩
        · obtain ⟨p, hpois, hread⟩ := vload_put1_reads (addr := addrOff a b) hc hg hx hp hok (by simp) d
          exact ⟨_, p, exec_vldh .., hpois, hread⟩
        · obtain ⟨p, hpois, hread⟩ := vload_put1_reads (addr := addrOff a b) hc hg hx hp hok (by simp) d
          exact ⟨_, p, exec_vldb .., hpois, hread⟩
      · obtain ⟨p, q, hlow, hhigh, hread⟩ := vload_putN_reads (addr := addrOff a b) hc hg hx hp hok d
        exact ⟨_, p, q, exec_vldd .., hlow, hhigh, hread⟩
    · obtain ⟨p, hpois, hread⟩ := vload_put1_reads (addr := addrStride a w) (poison := poisonStride a w) hc hg hx
        (by rw [poisonStride_clean w ha, hw]; exact BitVec.zero_and) hok (by decide) d
      exact ⟨_, p, exec_vldsw .., hpois, hread⟩
    · obtain ⟨p, hpois, hread⟩ := vload_put1_reads (addr := addrUnit a 4) (poison := poisonUnit a) hc hg hx
        (by rw [poisonUnit_clean ha]; exact BitVec.zero_and) hok (by decide) d
      exact ⟨_, p, exec_vldc .., hpois, hread⟩
  case quantised =>
    intro s g d a b A hg hc hx ha hfmt int4 place code c hmem hp hok
    have hplace (e : W32) : qAddr s.me.qctx s.me.s[a] e = place e := qAddr_eq ..
    have hcode (e : W32) : qCode s.me.qctx e (s.num (A (place e)) 1) = code e := qCode_eq ..
    have hread (e : TG → Fin 32 → W32) (ep : TG → W32) (he : ∀ (t : TG) (p : Phase), e { t with phase := p } = e t)
        (hp : ep s.me &&& s.me.x = 0) (hok : ∀ l : Fin 32, s.me.x.getLsbD l.val = true →
          s.clears false (place (e s.me l)).toNat 1 ∧ s.loadAt (place (e s.me l)).toNat = some (A (place (e s.me l)))) := by
      have h := qload_reads (g := g) (d := d) (A := A) he hc hg hx ha hfmt hp (by simpa only [hplace] using hok)
      simpa only [hplace, hcode] using h
    simp only [List.mem_cons, List.not_mem_nil, or_false] at hmem
    rcases hmem with rfl | rfl
    · obtain ⟨p, hpois, hread⟩ := hread (elemB b) (fun t => t.bpoison b) (fun _ _ => rfl) hp hok
      exact ⟨_, p, exec_vldq .., hpois, hread⟩
    · obtain ⟨p, hpois, hread⟩ := hread elemL (fun _ => 0) (fun _ _ => rfl) hp hok
      exact ⟨_, p, exec_vldsc .., hpois, hread⟩

end Sys2Proof.Machine
end

section
/-! SUPPORT. O11: WAITV of a word that differs, and of an equal one, which parks under a watch of the line's home die (R243). -/

namespace Sys2Proof.Machine

open Sys2Proof

/-! ### A translation keeps the place in the line (R385 to R387) -/

theorem leafRes_phys_mod {s : Soc} {super : Bool} {acc : Acc} {va pte sh pa : Nat} (hsh : 7 ≤ sh)
    (h : leafRes s super acc va pte sh = .phys pa) : pa % 128 = va % 128 := by
  unfold leafRes at h
  extract_lets addr tgt denied peer at h
  clear_value tgt
  obtain ⟨k, rfl⟩ := Nat.exists_eq_add_of_le hsh
  have hpage : 128 ∣ 2 ^ (7 + k) := ⟨2 ^ k, by rw [Nat.pow_add]⟩
  split at h
  · cases h
  split at h
  · cases h
  rename_i halign
  split at h
  · cases h
  split at h
  · split at h
    · cases h
    · obtain rfl := Tr.phys.inj h
      have haddr : addr % 2 ^ (7 + k) = 0 := by
        by_contra hne
        exact halign ⟨hne, by omega⟩
      rw [Nat.add_mod, Nat.mod_eq_zero_of_dvd (hpage.trans (Nat.dvd_of_mod_eq_zero haddr)), Nat.mod_mod_of_dvd _ hpage, Nat.zero_add,
        Nat.mod_mod]
  · cases h
  · cases h
  · split at h <;> cases h

theorem levelShift_ge (level : Nat) : 7 ≤ (levelShift level).1 := by
  unfold levelShift
  split <;> decide

theorem walkFrom_phys_mod {s : Soc} {super : Bool} {acc : Acc} {va pa : Nat} (fuel : Nat) :
    ∀ {level base : Nat}, walkFrom s super acc va fuel level base = .phys pa → pa % 128 = va % 128 := by
  induction fuel with
  | zero => exact fun h => by cases h
  | succ fuel ih =>
    intro level base h
    unfold walkFrom at h
    dsimp only at h
    split_ifs at h
    · exact leafRes_phys_mod (levelShift_ge level) h
    · exact ih h

theorem translate_phys_mod {s : Soc} {super : Bool} {acc : Acc} {asid : Half} {va pa : Nat} (h : translate s super acc asid va = .phys pa) :
    pa % 128 = va % 128 := by
  unfold translate at h
  split_ifs at h
  split at h
  · cases h
  · exact walkFrom_phys_mod 5 h

/-! ### Where the line of a load is (R89, R93, R243) -/

/-- The tag of a replica of a coherent state leads to the line that it was read from, and never to host memory. -/
theorem State.Coherent.replicaOf {s : State} (hs : s.Coherent) {d : Nat} {asid : Half} {va : Nat} {r : Replica}
    (hr : s.replicaOf d asid va = some r) : match translate s.toSoc s.me.super .load asid va with
      | .phys pa => pa = r.line + va % 128
      | .host _ _ => False
      | _ => True := by
  have htag := List.find?_some hr
  simp only [Replica.tags, Bool.and_eq_true, beq_iff_eq] at htag
  obtain ⟨-, hasid, hva⟩ := htag
  obtain ⟨-, -, hcoh⟩ := hs r (List.mem_of_find?_eq_some hr)
  exact hasid ▸ hcoh s.me.super va hva.symm

theorem State.Coherent.line {s : State} (hs : s.Coherent) {d : Nat} {asid : Half} {va pa : Nat} {r : Replica}
    (hr : s.replicaOf d asid va = some r) (htr : translate s.toSoc s.me.super .load asid va = .phys pa) : r.line = lineOf pa := by
  have hpa := hs.replicaOf hr
  rw [htr] at hpa
  have hmod := translate_phys_mod htr
  have hline : pa = r.line + va % 128 := hpa
  unfold lineOf
  omega

theorem State.Coherent.replicaOf_host {s : State} (hs : s.Coherent) {d : Nat} {asid : Half} {va b : Nat} {unc : Bool}
    (htr : translate s.toSoc s.me.super .load asid va = .host b unc) : s.replicaOf d asid va = none := by
  by_contra hne
  obtain ⟨r, hr⟩ := Option.ne_none_iff_exists'.mp hne
  have hno := hs.replicaOf hr
  rw [htr] at hno
  exact hno

/-- After a read the die holds the replica that it held, or where it held none, one of the line that was read. -/
theorem replicaOf_remoteRead {s : State} {d : Nat} {asid : Half} {va pa : Nat} {r : Replica}
    (h : (s.remoteRead d asid va pa).replicaOf d asid va = some r) :
    s.replicaOf d asid va = some r ∨ s.replicaOf d asid va = none ∧ r.line = lineOf pa := by
  unfold State.remoteRead at h
  extract_lets home t u at h
  have hcounts : s.Counts t := countAccess_counts s ..
  have hrep : t.replicas = s.replicas := (congrArg (·.replicas) hcounts.eq :)
  have hsame : t.replicaOf d asid va = s.replicaOf d asid va := by rw [State.replicaOf, hrep]; rfl
  split_ifs at h with hhome hheld hroom
  · exact .inl h
  · exact .inl h
  · have hnone : s.replicaOf d asid va = none := by simpa using hheld
    have hfind : (t.replicas ++ [t.newReplica d asid va pa]).find? (fun x => x.die == d && x.tags asid va) = some r := h
    rw [List.find?_append, show t.replicas.find? (fun x => x.die == d && x.tags asid va) = none from hsame.trans hnone, Option.none_or] at hfind
    obtain rfl := List.mem_singleton.mp (List.mem_of_find?_eq_some hfind)
    exact .inr ⟨hnone, rfl⟩
  · exact .inl (hsame ▸ h)

/-- After one line access outside the windows, a replica of the line that the die holds is of the storage that was read. -/
theorem loadLine_replica {s : State} {z at_ : Nat} {va : W64} {r : Replica} (hs : s.Calm) (hwin : isWindow va.toNat = false)
    (hat : s.loadAt va.toNat = some at_) (hr : (s.loadLine z [(0, va)]).1.replicaOf s.me.loc.core.die s.me.asid va.toNat = some r) :
    ∃ pa, translate s.toSoc s.me.super .load s.me.asid va.toNat = .phys pa ∧ r.line = lineOf pa := by
  obtain ⟨hfifo, hwrs, hcoh, hbusy, hphase, -⟩ := hs
  have hreq : s.me.phase.req = none := by rw [hphase]; rfl
  have htr : (∃ pa, translate s.toSoc s.me.super .load s.me.asid va.toNat = .phys pa) ∨
      ∃ b unc, translate s.toSoc s.me.super .load s.me.asid va.toNat = .host b unc := by
    rcases loadAt_cases s _ _ hat with ⟨h, -, -⟩ | ⟨-, h | ⟨b, unc, h, -⟩⟩
    · rw [hwin] at h; cases h
    · exact .inl ⟨_, h⟩
    · exact .inr ⟨b, unc, h⟩
  have hold (h : s.replicaOf s.me.loc.core.die s.me.asid va.toNat = some r) :
      ∃ pa, translate s.toSoc s.me.super .load s.me.asid va.toNat = .phys pa ∧ r.line = lineOf pa := by
    rcases htr with ⟨pa, htr⟩ | ⟨b, unc, htr⟩
    · exact ⟨pa, htr, hcoh.line h htr⟩
    · rw [hcoh.replicaOf_host htr] at h; cases h
  unfold State.loadLine at hr
  simp only [hreq, hwin, List.head?_cons, Option.map_some, Option.getD_some, Bool.false_eq_true, if_false] at hr
  by_cases hheld : (s.heldAt s.me.loc.core.die s.me.asid va.toNat z).isSome = true
  · simp only [hheld, if_true, serveLanes_calm _ _ _ _ _ hfifo hwrs] at hr
    rw [heldAt_isSome _ _ _ _ _ hwrs hbusy] at hheld
    rcases replicaOf_remoteRead hr with h | ⟨h, -⟩
    · exact hold h
    · rw [h] at hheld; cases hheld
  · rcases htr with ⟨pa, htr⟩ | ⟨b, unc, htr⟩
    · have hstall : (s.swapWait va.toNat || isNocache s.sup.active va.toNat && s.aliasHeld s.me.loc.core s.me.asid va.toNat pa) = false := by
        simp [State.swapWait, hbusy, State.aliasHeld, hfifo]
      simp only [hheld, htr, hstall, Bool.false_eq_true, if_false, serveLanes_calm _ _ _ _ _ hfifo hwrs] at hr
      rcases replicaOf_remoteRead hr with h | ⟨-, h⟩
      · exact hold h
      · exact ⟨pa, htr, h⟩
    · simp only [hheld, htr, Bool.false_eq_true, if_false, serveLanes_calm _ _ _ _ _ hfifo hwrs] at hr
      exact hold hr

/-- A load of one address is one line access. -/
theorem loadAll_one_replicas {s u : State} {z : Nat} {va : W64} {rs : List (List Byte × List Bool)} (hs : s.Calm)
    (h : s.loadAll z [va] = (u, some rs)) : u.replicas = (s.loadLine z [(0, va)]).1.replicas := by
  have hacc : s.me.phase.acc = [] := by rw [hs.phase]; rfl
  have hloop : State.loadLoop z 1 s [(0, va)] = match s.loadLine z [(0, va)] with
      | (s, .blocked) => (s, none)
      | (s, .done rs) => (s.keepLanes rs, some ()) := rfl
  unfold State.loadAll at h
  extract_lets todo at h
  have htodo : todo = [(0, va)] := by
    simp only [todo, hacc]
    rfl
  rw [htodo, show [((0, va) : LaneAt)].length = 1 from rfl, hloop] at h
  split at h
  · cases h
  · generalize s.loadLine z [(0, va)] = x at h
    obtain ⟨v, _ | _⟩ := x <;> cases h
    rfl

/-- The watch of a load's line is for its storage, at the line's home. -/
theorem watchAt_loaded {s u : State} {z at_ : Nat} {va : W64} {rs : List (List Byte × List Bool)} (hs : s.Calm)
    (hat : s.loadAt va.toNat = some at_) (hlike : s.Like u) (hload : s.loadAll z [va] = (u, some rs)) :
    u.watchAt va.toNat = (s.lineHome va.toNat).map fun home => (home, lineOf at_) := by
  have hsame := hlike.same hs
  have hhome : homeDie u.mode u.sup.active va.toNat = homeDie s.mode s.sup.active va.toNat :=
    (congrArg (fun x : State => homeDie x.mode x.sup.active va.toNat) hlike.eq :)
  have hrep (r : Replica) (hr : u.replicaOf s.me.loc.core.die s.me.asid va.toNat = some r) (hwin : isWindow va.toNat = false) :
      ∃ pa, translate s.toSoc s.me.super .load s.me.asid va.toNat = .phys pa ∧ r.line = lineOf pa := by
    refine loadLine_replica hs hwin hat (z := z) ?_
    rw [State.replicaOf, ← loadAll_one_replicas hs hload]
    exact hr
  unfold State.watchAt State.lineHome
  rw [hsame.loc, hsame.asid]
  rcases loadAt_cases s _ _ hat with ⟨hwin, hkind, rfl⟩ | ⟨hwin, htr⟩
  · simp only [hwin, hkind, if_true, Option.map_some]
  · simp only [hwin, Bool.false_eq_true, if_false]
    split
    next r hr =>
      obtain ⟨pa, hpa, hline⟩ := hrep r hr hwin
      rcases htr with htr | ⟨b, unc, htr, -⟩
      · obtain rfl : at_ = pa := by rw [htr] at hpa; exact Tr.phys.inj hpa
        simp only [htr, Option.map_some, hline, hhome]
      · rw [htr] at hpa; cases hpa
    next =>
      have htrans := hsame.tr .load va.toNat
      rw [hsame.asid] at htrans
      rw [htrans]
      rcases htr with htr | ⟨b, unc, htr, -⟩
      · simp only [htr, Option.map_some, hhome]
      · simp only [htr, Option.map_none]

/-! ### WAITV (R243) -/

theorem setWatch_frame (s : State) (va : Nat) : { s.setWatch va with watches := s.watches } = s := by
  unfold State.setWatch
  split
  · split <;> rfl
  · rfl

/-- The watches once a thread group that holds none has registered one, where its home die has one free. -/
theorem setWatch_watches {s : State} {va : Nat} (h : ∀ w ∈ s.watches, w.tg ≠ s.me.loc) : (s.setWatch va).watches = match s.watchAt va with
    | none => s.watches
    | some (home, line) => s.watches ++
        (if (s.watches.filter fun w => w.die == home).length < 1024 then [⟨home, s.me.loc, s.me.asid, line⟩] else []) := by
  have hmine : s.watches.filter (fun w => w.tg != s.me.loc) = s.watches := List.filter_eq_self.mpr fun w hw => by simpa using h w hw
  unfold State.setWatch
  cases s.watchAt va with
  | none => rfl
  | some p =>
    dsimp only
    rw [hmine]
    split
    · rfl
    · exact (List.append_nil _).symm

section
variable {s : State} {d a b : UReg} {sc : Scope} {at_ : Nat} (hs : s.Calm) (ha : s.me.sp.getLsbD a.val = false)
  (hclear : s.clears false (s.me.s[a]).toNat 8) (hat : s.loadAt (s.me.s[a]).toNat = some at_) (hwake : s.me.wake = none)
include hs ha hclear hat hwake

/-- WAITV reads its word as a load does, and then compares it. -/
theorem waitv_loads : ∃ u, s.Like u ∧ s.loadAll 8 [s.me.s[a]] = (u, some [s.marked at_ 8]) ∧ s.waitv d a b sc =
    if BitVec.ofNat 64 (s.num at_ 8) ≠ s.me.s[b] then
      u.dropWatch.afterFence sc fun s' => (s'.setS d (BitVec.ofNat 64 (s.num at_ 8)) (s.bad at_ 8)).advance
    else if s.me.k10 then u.dropWatch.advance
    else (u.clearPhase.setWatch (s.me.s[a]).toNat).park 3 s.me.s[a] := by
  obtain ⟨u, hu, hlike⟩ := loadAll_one hs (by decide) hclear hat
  have hb : u.me.sget b = s.me.s[b] := (congrArg (fun x : State => x.me.sget b) hlike.eq :)
  have hk10 : u.me.k10 = s.me.k10 := (congrArg (fun x : State => x.me.k10) hlike.eq :)
  refine ⟨u, hlike, hu, ?_⟩
  unfold State.waitv
  rw [if_neg (by rw [hwake]; exact nofun)]
  dsimp only
  rw [withChecks_clear (show s.me.spoison a = false from ha) fun x hx => by cases List.mem_singleton.mp hx; exact hclear]
  rw [show s.loadAll 8 [s.me.sget a] = _ from hu]
  dsimp only
  rw [List.getD_cons_zero, any_marked, hb, hk10]
  rfl

/-- A word that differs completes the wait. -/
theorem waitv_reads (hne : BitVec.ofNat 64 (s.num at_ 8) ≠ s.me.s[b]) (hwatch : s.watches = []) :
    s.readsTo (s.waitv d a b sc) fun r => r.setS d (BitVec.ofNat 64 (s.num at_ 8)) (s.bad at_ 8) := by
  obtain ⟨u, hlike, -, hrun⟩ := waitv_loads (d := d) (b := b) (sc := sc) hs ha hclear hat hwake
  have hnone : u.dropWatch = u := by
    have hw : u.watches = [] := (congrArg (fun x : State => x.watches) hlike.eq :).trans hwatch
    rw [State.dropWatch, hw]
    exact (congrArg (fun w => ({ u with watches := w } : State)) hw).symm
  rw [hrun, if_pos hne, hnone, hlike.afterFence hs]
  exact hlike.readsTo (fun r => r.setS d (BitVec.ofNat 64 (s.num at_ 8)) (s.bad at_ 8)) fun _ _ => rfl

/-- An equal word parks the thread group, under a watch where the line has a home die with one free. -/
theorem waitv_parks (heq : BitVec.ofNat 64 (s.num at_ 8) = s.me.s[b]) (hk10 : s.me.k10 = false) (hwatch : ∀ w ∈ s.watches, w.tg ≠ s.me.loc) :
    { s.waitv d a b sc with
      watches := s.watches
      replicas := s.replicas
      regions := s.regions
      dies := s.dies
      cols := s.cols
      seq := s.seq } = s.park 3 s.me.s[a] ∧
    match s.lineHome (s.me.s[a]).toNat with
    | none => (s.waitv d a b sc).watches = s.watches
    | some home => (s.waitv d a b sc).watches = s.watches ++
        (if (s.watches.filter fun w => w.die == home).length < 1024 then [⟨home, s.me.loc, s.me.asid, lineOf at_⟩] else []) := by
  obtain ⟨u, hlike, hload, hrun⟩ := waitv_loads (d := d) (b := b) (sc := sc) hs ha hclear hat hwake
  have hsame := hlike.same hs
  have hw : u.watches = s.watches := (congrArg (fun x : State => x.watches) hlike.eq :)
  rw [hrun, if_neg (not_not.mpr heq), hk10, if_neg Bool.false_ne_true]
  constructor
  · have hlook : { u.clearPhase.setWatch (s.me.s[a]).toNat with
        watches := s.watches, replicas := s.replicas, regions := s.regions, dies := s.dies, cols := s.cols, seq := s.seq } = s := by
      have hframe := congrArg (s.unread ·) (setWatch_frame u.clearPhase (s.me.s[a]).toNat)
      have heq := hlike.eq
      rw [hs.phase] at heq
      rw [show u.clearPhase.watches = s.watches from hw] at hframe
      exact hframe.trans heq
    exact (congrArg (fun x : State => x.park 3 s.me.s[a]) hlook :)
  · have hset := setWatch_watches (s := u.clearPhase) (va := (s.me.s[a]).toNat) fun w hin => by
      rw [show u.clearPhase.me.loc = s.me.loc from hsame.loc]
      exact hwatch w (hw ▸ hin)
    rw [show u.clearPhase.watchAt (s.me.s[a]).toNat = _ from (watchAt_loaded hs hat hlike hload :), show u.clearPhase.watches = s.watches from hw,
      show u.clearPhase.me.loc = s.me.loc from hsame.loc, show u.clearPhase.me.asid = s.me.asid from hsame.asid] at hset
    cases hhome : s.lineHome (s.me.s[a]).toNat with
    | none => rw [hhome] at hset; exact hset
    | some home => rw [hhome] at hset; exact hset

end

/-- SLDACQ's acquire waits for nothing in a calm state, and the load is a uniform load of 8 bytes. -/
theorem execSldacq_reads {s : State} {g : Guard} {d a : UReg} {sc : Scope} {at_ : Nat} (hs : s.Calm) (hg : s.me.opens g)
    (ha : s.me.sp.getLsbD a.val = false) (hclear : s.clears false (s.me.s[a]).toNat 8) (hat : s.loadAt (s.me.s[a]).toNat = some at_) :
    ∃ t, execSldacq g d a sc s = .next t ∧ s.readsTo t fun r => r.setS d (BitVec.ofNat 64 (s.num at_ 8)) (s.bad at_ 8) := by
  obtain ⟨u, hu, hlike⟩ := loadAll_one hs (by decide) hclear hat
  unfold execSldacq
  rw [withK_open s g _ hg]
  dsimp only
  rw [withChecks_clear (show s.me.spoison a = false from ha) fun x hx => by cases List.mem_singleton.mp hx; exact hclear]
  rw [show s.loadAll 8 [s.me.sget a] = _ from hu]
  dsimp only
  rw [hlike.afterFence hs, List.getD_cons_zero, any_marked]
  exact ⟨_, rfl, hlike.readsTo (fun r => r.setS d (BitVec.ofNat 64 (s.num at_ 8)) (s.bad at_ 8)) fun _ _ => rfl⟩

/-- Settles O11: the loads are `uload_reads` behind the open guard, SLDACQ with its acquire, and WAITV is `waitv_reads` or `waitv_parks`. -/
theorem uniformLoadResult : Obligations.UniformLoadResult := by
  intro s g d a b o sc cd ca n va at_ hg hc u
  refine ⟨fun c hmem hva ha hclear hat => ?_, ?_, ?_⟩
  · subst hva
    simp only [List.mem_cons, List.not_mem_nil, or_false] at hmem
    rcases hmem with rfl | rfl | rfl | rfl
    · rw [exec_sld, execSld, withK_open s g _ hg]
      exact ⟨_, rfl, uload_reads hc (by decide) ha hclear hat⟩
    · rw [exec_slds, execSlds, withK_open s g _ hg]
      exact ⟨_, rfl, uload_reads hc (by decide) ha hclear hat⟩
    · rw [exec_sldacq]
      exact execSldacq_reads hc hg ha hclear hat
    · rw [exec_cSld, execCSld, cAddress_eq]
      exact ⟨_, rfl, uload_reads hc (by decide) ha hclear hat⟩
  · rintro rfl ha hclear hat hwake hne hwatch
    rw [exec_waitv, execWaitv, withK_open s g _ hg]
    exact ⟨_, rfl, waitv_reads hc ha hclear hat hwake hne hwatch⟩
  · rintro rfl ha hclear hat hwake heq hk10 hwatch
    rw [exec_waitv, execWaitv, withK_open s g _ hg]
    exact ⟨_, rfl, waitv_parks hc ha hclear hat hwake heq hk10 hwatch⟩

end Sys2Proof.Machine
end

section
/-! SUPPORT. O15: what writing bytes at clean storage that no watch is set on leaves (R243, R334, R427). -/

namespace Sys2Proof.Machine

open Sys2Proof

/-! ### Bytes of a number (R3) -/

theorem natOf_bytesOf (n x : Nat) : natOf (bytesOf n x) = x % 256 ^ n := by
  induction n generalizing x with
  | zero => simp [bytesOf, natOf, Nat.mod_one]
  | succ n ih =>
    have hlow : (BitVec.ofNat 8 x).toNat = x % 256 := BitVec.toNat_ofNat x 8
    rw [bytesOf, natOf, ih, hlow, Nat.pow_succ, Nat.mul_comm (256 ^ n), Nat.mod_mul]

theorem bytesOf_natOf (l : List Byte) : bytesOf l.length (natOf l) = l := by
  induction l with
  | nil => rfl
  | cons b l ih =>
    have hlow : BitVec.ofNat 8 (b.toNat + 256 * natOf l) = b := by
      apply BitVec.eq_of_toNat_eq
      have hb := b.isLt
      rw [BitVec.toNat_ofNat]
      omega
    have hhigh : (b.toNat + 256 * natOf l) / 256 = natOf l := by
      have hb := b.isLt
      omega
    rw [List.length_cons, natOf, bytesOf, hlow, hhigh, ih]

/-- Bytes do not show what lies above them. -/
theorem bytesOf_mod (n x : Nat) : bytesOf n (x % 256 ^ n) = bytesOf n x := by
  have h := bytesOf_natOf (bytesOf n x)
  rwa [length_bytesOf, natOf_bytesOf] at h

/-! ### One write (R243, R334, R427) -/

theorem die_modDie (s : State) (d e : Nat) (f : Die → Die) : (s.modDie d f).die e = if e = d then f (s.die d) else s.die e := by
  unfold State.die State.modDie kget
  split
  · rename_i h
    rw [h, kfind_kset_self]
    rfl
  · rename_i h
    rw [kfind_kset_ne h]

theorem encodeSpad_frame (s : State) (a n : Nat) : { s.encodeSpad a n with dies := s.dies } = s := by
  unfold State.encodeSpad State.encode
  split
  · split <;> rfl
  · rfl

/-- Code words written in their selected mode are all that a die keeps of a write. -/
theorem encodeSpad_die (s : State) (a n d : Nat) : { (s.encodeSpad a n).die d with oldMode := [] } = { s.die d with oldMode := [] } := by
  unfold State.encodeSpad State.encode
  split
  · split
    · rfl
    · rw [die_modDie]
      split
      next h => rw [h]
      next => rfl
  · rfl

theorem wakeWatches_of_nil {s : State} (h : s.watches = []) (a n : Nat) : s.wakeWatches a n = s := by
  unfold State.wakeWatches
  rw [h]
  exact congrArg (fun w => ({ s with watches := w } : State)) h.symm

/-- With no watch, a write changes storage and the code words alone. -/
theorem writeAt_unwatched {s : State} (h : s.watches = []) (a : Nat) (bs : List Byte) (p : Bool) :
    s.writeAt a bs p = (s.encodeSpad a bs.length).onSoc (·.put a bs p) := by
  have hnone : (s.encodeSpad a bs.length).watches = [] := (congrArg (fun x : State => x.watches) (encodeSpad_frame s a bs.length) :).trans h
  exact wakeWatches_of_nil (s := (s.encodeSpad a bs.length).onSoc (·.put a bs p)) hnone a bs.length

/-- A clean write poisons nothing. -/
theorem isPoisoned_poisonAfter_clean {p : List Nat} {x m : Nat} (h : isPoisoned p x m = false) (a n : Nat) :
    isPoisoned (poisonAfter p a n false) x m = false := by
  simp only [isPoisoned, List.any_eq_false] at h ⊢
  exact fun g hg => h g (List.mem_of_mem_filter hg)

theorem marked_clean {s : State} {a z : Nat} (h : s.bad a z = false) : s.marked a z = (memBytes s.mem a z, List.replicate z false) := by
  have hmarks : (s.marked a z).2 = List.replicate z false := by
    refine List.eq_replicate_iff.mpr ⟨by simp [Soc.marked], fun x hx => ?_⟩
    rw [← any_marked, List.any_eq_false] at h
    exact Bool.eq_false_iff.mpr (h x hx)
  exact Prod.ext rfl hmarks

/-! ### The location of an atomic (R237) -/

/-- t is s at work on an atomic of z bytes at a: m stands there, clean, and the rest of storage is as it was. -/
structure State.Holds (s t : State) (a z : Nat) (m : List Byte) : Prop where
  eq : { t with
    mem := s.mem
    poison := s.poison
    seen := s.seen
    ctxOld := s.ctxOld
    dies := s.dies }.modMe (fun g => { g with phase := s.me.phase }) = s
  req : t.me.phase.req = none
  wf : Memory.wf t.mem = true
  bytes : memBytes t.mem a z = m
  clean : t.bad a z = false
  dies : ∀ d, { t.die d with oldMode := [] } = { s.die d with oldMode := [] }
  outside : ∀ x, (x < a ∨ a + z ≤ x) → memGet t.mem x = memGet s.mem x

theorem State.Holds.refl {s : State} {a z : Nat} (hs : s.Calm) (hok : s.MemOk) (hbad : s.bad a z = false) :
    s.Holds s a z (memBytes s.mem a z) :=
  ⟨rfl, by rw [hs.phase]; rfl, hok.1, rfl, hbad, fun _ => rfl, fun _ _ => rfl⟩

section
variable {s t : State} {a z : Nat} {m : List Byte} (h : s.Holds t a z m)
include h

theorem State.Holds.loc : t.me.loc = s.me.loc := (congrArg (fun x : State => x.me.loc) h.eq :)
theorem State.Holds.core (c : CoreId) : t.core c = s.core c := (congrArg (fun x : State => x.core c) h.eq :)
theorem State.Holds.pace : t.pace = s.pace := (congrArg (fun x : State => x.pace) h.eq :)
theorem State.Holds.watches : t.watches = s.watches := (congrArg (fun x : State => x.watches) h.eq :)
theorem State.Holds.length : m.length = z := by rw [← h.bytes, memBytes_length]

/-- A clean write of the location. -/
theorem State.Holds.writeAt (hwatch : s.watches = []) {new : List Byte} (hnew : new.length = z) :
    s.Holds (t.writeAt a new false) a z new ∧ (t.writeAt a new false).me = t.me := by
  have hrun := writeAt_unwatched (h.watches.trans hwatch) a new false
  have hmem := writeAt_mem t a new false
  have hframe := encodeSpad_frame t a new.length
  refine ⟨⟨?_, ?_, ?_, ?_, ?_, fun d => ?_, fun x hx => ?_⟩, ?_⟩
  · rw [hrun]
    exact (congrArg (fun x : State => { x with
      mem := s.mem
      poison := s.poison
      seen := s.seen
      ctxOld := s.ctxOld
      dies := s.dies }.modMe (fun g => { g with phase := s.me.phase })) hframe).trans h.eq
  · rw [hrun]
    exact (congrArg (fun x : State => x.me.phase.req) hframe :).trans h.req
  · rw [hmem]
    exact wf_memPut a new t.mem h.wf
  · rw [hmem, ← hnew]
    exact memBytes_memPut a new t.mem h.wf
  · have hpoison : (t.writeAt a new false).poison = poisonAfter t.poison a new.length false := by
      rw [hrun]
      exact (congrArg (fun x : State => poisonAfter x.poison a new.length false) hframe :)
    have hclean := h.clean
    simp only [State.bad, List.any_eq_false, Bool.not_eq_true] at hclean ⊢
    rw [hpoison]
    exact fun k hk => isPoisoned_poisonAfter_clean (hclean k hk) a new.length
  · rw [hrun]
    exact (encodeSpad_die t a new.length d).trans (h.dies d)
  · rw [hmem, memGet_memPut _ _ _ _ h.wf, if_neg (by omega)]
    exact h.outside x hx
  · rw [hrun]
    exact (congrArg (fun x : State => x.me) hframe :)

theorem State.Holds.keepLanes (rs : KMap Nat (List Byte × List Bool)) : s.Holds (t.keepLanes rs) a z m :=
  ⟨h.eq, h.req, h.wf, h.bytes, h.clean, h.dies, h.outside⟩

end

end Sys2Proof.Machine
end

section
/-! SUPPORT. O15: the lanes of a returning atomic on one location of the core's own die apply one after another (R236, R237). -/

namespace Sys2Proof.Machine

open Sys2Proof

/-! ### Lanes on one location (R237) -/

/-- The old bytes of each of a run of atomics on one location that holds m: those that the ones before it left. -/
def atomOlds (minor z : Nat) (m : List Byte) (datas : List (List Byte)) : List (List Byte × List Bool) :=
  (List.range datas.length).map fun k => ((datas.take k).foldl (atomNew minor) m, List.replicate z false)

theorem atomOlds_cons (minor z : Nat) (m d : List Byte) (datas : List (List Byte)) :
    atomOlds minor z m (d :: datas) = (m, List.replicate z false) :: atomOlds minor z (atomNew minor m d) datas := by
  rw [atomOlds, List.length_cons, List.range_succ_eq_map, List.map_cons, List.map_map]
  rfl

/-- A lane with nothing left to do for the instruction hands over to the next one. -/
theorem atomLoop_cons {t u : State} {minor i : Nat} {va : W64} {d : List Byte} {p : Bool} {b : List Byte × List Bool}
    {r : List (Nat × W64 × List Byte × Bool)} (h : t.atomOne va minor d p = (u, some b)) (hpace : u.pace = none) :
    State.atomLoop minor t ((i, va, d, p) :: r) = State.atomLoop minor (u.keepLanes [(i, b)]) r := by
  have hp : (u.keepLanes [(i, b)]).pace = none := hpace
  rw [State.atomLoop, h]
  dsimp only
  split
  next hnil => rw [hnil]; rfl
  next => rw [State.paced, hp]

/-- No lane on a window fails at step 6 of R229, and clean operands do not fail at step 7. -/
theorem atomFault_window {s : State} {es : List StEnt} (h : ∀ e ∈ es, isWindow e.va.toNat = true ∧ e.poison = false) : s.atomFault es = none := by
  have hfind : es.find? (fun e => (s.storeFatal e.va).isSome || s.storeFaults e.va) = none :=
    List.find?_eq_none.mpr fun e he => by simp [State.storeFatal, State.storeFaults, (h e he).1]
  have hfilter : es.filter (fun e => e.poison && !s.me.isPrivate e.va.toNat e.size) = [] :=
    List.filter_eq_nil_iff.mpr fun e he => by simp [(h e he).2]
  unfold State.atomFault State.storeCheck
  rw [hfind]
  dsimp only
  rw [hfilter]
  rfl

section
variable {s : State} {minor z : Nat} {va : W64} (hs : s.Calm) (hwatch : s.watches = []) (hwin : isWindow va.toNat = true)
  (hkind : (winOf va.toNat).kind < 2) (hdie : (winOf va.toNat).die = s.me.loc.core.die)
  (hsize : ∀ data p, (s.mkEnt va (.atom minor) data p false).size = z)
include hs hwatch hwin hkind hdie hsize

/-- One lane takes the bytes that it finds and writes the new ones. -/
theorem State.Holds.atomOne {t : State} {m : List Byte} (h : s.Holds t va.toNat z m) (data : List Byte) :
    ∃ u, t.atomOne va minor data false = (u, some (m, List.replicate z false)) ∧ s.Holds u va.toNat z (atomNew minor m data) ∧ u.me = t.me := by
  have hlen : (atomNew minor m data).length = z :=
    (length_atomNew (e := s.mkEnt va (.atom minor) data false false) rfl (by rw [hsize, h.length])).trans (hsize data false)
  obtain ⟨hnew, hme⟩ := h.writeAt hwatch hlen
  have hat : t.atomAt va.toNat (t.mkEnt va (.atom minor) data false false) =
      (t.writeAt va.toNat (atomNew minor m data) false, m, List.replicate z false) := by
    have hmarked : t.marked va.toNat (t.mkEnt va (.atom minor) data false false).size = (m, List.replicate z false) := by
      rw [show (t.mkEnt va (.atom minor) data false false).size = z from hsize data false, marked_clean h.clean, h.bytes]
    rw [atomAt_atom va.toNat rfl, hmarked, show memBytes t.mem va.toNat (t.mkEnt va (.atom minor) data false false).size = m from
      congrArg Prod.fst hmarked]
    simp [State.mkEnt]
  refine ⟨_, ?_, hnew, hme⟩
  have hfifo : (t.core t.me.loc.core).fifo = [] := by rw [h.loc, h.core]; exact hs.fifo
  have hown : (winOf va.toNat).kind < 2 ∧ (winOf va.toNat).die = t.me.loc.core.die := ⟨hkind, by rw [h.loc]; exact hdie⟩
  unfold State.atomOne
  simp only [h.req, hfifo, hwin, hat, ne_eq, not_true_eq_false, and_false, if_false, if_true, if_pos hown]

theorem State.Holds.atomLoop (datas : List (List Byte)) : ∀ {t : State} {m : List Byte} (n : Nat), s.Holds t va.toNat z m →
    ∃ u, State.atomLoop minor t ((datas.zipIdx n).map fun x => (x.2, va, x.1, false)) = (u, some ()) ∧
      s.Holds u va.toNat z (datas.foldl (atomNew minor) m) ∧
      u.me.phase.acc = t.me.phase.acc ++ ((atomOlds minor z m datas).zipIdx n).map fun x => (x.2, x.1) := by
  induction datas with
  | nil => exact fun {t m} n h => ⟨t, rfl, h, (List.append_nil _).symm⟩
  | cons d datas ih =>
    intro t m n h
    obtain ⟨v, hv, hnew, hme⟩ := h.atomOne hs hwatch hwin hkind hdie hsize d
    obtain ⟨u, hu, hlast, hacc⟩ := ih (n + 1) (hnew.keepLanes [(n, m, List.replicate z false)])
    refine ⟨u, ?_, hlast, ?_⟩
    · rw [List.zipIdx_cons, List.map_cons, atomLoop_cons hv (hnew.pace.trans hs.pace)]
      exact hu
    · rw [hacc, atomOlds_cons, List.zipIdx_cons, List.map_cons, ← hme]
      exact List.append_assoc ..

/-- The lanes of a returning atomic whose operands are clean: each has the bytes that the lanes before it left, and the location holds the
last ones. -/
theorem atomAll_own (hok : s.MemOk) (hbad : s.bad va.toNat z = false) (datas : List (List Byte)) : ∃ u,
    s.atomAll minor (datas.map fun d => (va, d, false)) = (u, some (atomOlds minor z (memBytes s.mem va.toNat z) datas)) ∧
    s.Holds u va.toNat z (datas.foldl (atomNew minor) (memBytes s.mem va.toNat z)) := by
  obtain ⟨u, hu, hlast, hacc⟩ := (State.Holds.refl hs hok hbad).atomLoop hs hwatch hwin hkind hdie hsize datas 0
  have hnone : s.me.phase.acc = [] := by rw [hs.phase]; rfl
  have hfault : s.atomFault ((datas.map fun d => (va, d, false)).map fun o => s.mkEnt o.1 (.atom minor) o.2.1 o.2.2 false) = none :=
    atomFault_window fun e he => by
      obtain ⟨o, ho, rfl⟩ := List.mem_map.mp he
      obtain ⟨d, -, rfl⟩ := List.mem_map.mp ho
      exact ⟨hwin, rfl⟩
  refine ⟨u, ?_, hlast⟩
  unfold State.atomAll
  extract_lets todo
  have htodo : todo = (datas.zipIdx 0).map fun x => (x.2, va, x.1, false) := by
    simp only [todo, hnone]
    refine (List.filter_eq_self.mpr fun _ _ => rfl).trans ?_
    rw [List.zipIdx_map, List.map_map]
    rfl
  rw [hfault, ite_self, htodo, hu]
  dsimp only
  rw [hnone, List.nil_append] at hacc
  have hlen : (atomOlds minor z (memBytes s.mem va.toNat z) datas).length = datas.length := by simp [atomOlds]
  congr 2
  refine List.ext_getElem (by simp [hlen]) fun k h1 h2 => ?_
  rw [List.getElem_map, List.getElem_range, kget, hacc, kfind_perm _ ?nodup k (atomOlds minor z (memBytes s.mem va.toNat z) datas)[k] ?mem]
  · rfl
  case nodup =>
    rw [List.map_map]
    exact (List.zipIdx_map_snd 0 _).symm ▸ List.nodup_range'
  case mem => exact List.mem_map.mpr ⟨((atomOlds minor z (memBytes s.mem va.toNat z) datas)[k], k),
    List.mem_zipIdx_iff_getElem?.mpr (List.getElem?_eq_getElem h2), rfl⟩

end

/-! ### Words of a location (R236) -/

/-- The bytes of a location are those of the word that they make up. -/
theorem memBytes_eq_bytesOf (s : State) {w z : Nat} (hw : 2 ^ w = 256 ^ z) (a : Nat) :
    memBytes s.mem a z = bytesOf z (BitVec.ofNat w (s.num a z)).toNat := by
  have h := bytesOf_natOf (memBytes s.mem a z)
  rw [memBytes_length] at h
  rw [BitVec.toNat_ofNat, hw, Nat.mod_eq_of_lt (num_lt s a z)]
  exact h.symm

theorem natOf_bytesOf_toNat {w z : Nat} (hw : 2 ^ w = 256 ^ z) (x : BitVec w) : natOf (bytesOf z x.toNat) = x.toNat := by
  rw [natOf_bytesOf, ← hw, Nat.mod_eq_of_lt x.isLt]

/-- Atomics on bytes that each do what op does on words make up op's result. -/
theorem foldl_atomNew {α : Type} {minor w z : Nat} {data : α → List Byte} {op : BitVec w → α → BitVec w} (l : List α)
    (hop : ∀ x ∈ l, ∀ m : BitVec w, atomNew minor (bytesOf z m.toNat) (data x) = bytesOf z (op m x).toNat) (m : BitVec w) :
    (l.map data).foldl (atomNew minor) (bytesOf z m.toNat) = bytesOf z (l.foldl op m).toNat := by
  induction l generalizing m with
  | nil => rfl
  | cons x l ih =>
    rw [List.map_cons, List.foldl_cons, List.foldl_cons, hop x List.mem_cons_self]
    exact ih (fun y hy => hop y (.tail x hy)) _

/-- The old words of each of a run of atomics on one location that holds m, as bytes. -/
def wordOlds {α : Type} {w : Nat} (z : Nat) (op : BitVec w → α → BitVec w) (m : BitVec w) (l : List α) : List (List Byte × List Bool) :=
  (List.range l.length).map fun k => (bytesOf z ((l.take k).foldl op m).toNat, List.replicate z false)

theorem atomOlds_eq_wordOlds {α : Type} {minor w z : Nat} {data : α → List Byte} {op : BitVec w → α → BitVec w} (l : List α)
    (hop : ∀ x ∈ l, ∀ m : BitVec w, atomNew minor (bytesOf z m.toNat) (data x) = bytesOf z (op m x).toNat) (m : BitVec w) :
    atomOlds minor z (bytesOf z m.toNat) (l.map data) = wordOlds z op m l := by
  rw [atomOlds, List.length_map, wordOlds]
  refine List.map_congr_left fun k _ => ?_
  rw [← List.map_take, foldl_atomNew _ fun x hx => hop x (List.mem_of_mem_take hx)]

/-! ### The end of the instruction -/

/-- t is s after its group, with n in the z bytes at a and the rest of storage as it was; what goes with storage, its poison marks and code
words, aside. -/
def State.swapsTo (s t : State) (f : TG → TG) (a z n : Nat) : Prop :=
  { t with mem := s.mem, poison := s.poison, seen := s.seen, ctxOld := s.ctxOld, dies := s.dies } = s.ends f ∧ t.num a z = n ∧
  (∀ d, { t.die d with oldMode := [] } = { s.die d with oldMode := [] }) ∧ ∀ x, (x < a ∨ a + z ≤ x) → memGet t.mem x = memGet s.mem x

theorem State.Holds.swapsTo {s u : State} {a w z : Nat} {n : BitVec w} (hw : 2 ^ w = 256 ^ z) (h : s.Holds u a z (bytesOf z n.toNat))
    {f : TG → TG} (hf : ∀ (g : TG) (p : Phase), f { g with phase := p } = { f g with phase := p }) :
    s.swapsTo { u with me := (f u.me).advance } f a z n.toNat := by
  have hme : (f u.me).advance = (f s.me).advance := by
    have hm : ({ u.me with phase := s.me.phase } : TG) = s.me := (congrArg (fun x : State => x.me) h.eq :)
    have hkeep := hf u.me s.me.phase
    rw [hm] at hkeep
    rw [hkeep]
    rfl
  refine ⟨?_, ?_, h.dies, h.outside⟩
  · rw [hme]
    exact congrArg (fun x : State => ({ x with me := (f s.me).advance } : State)) h.eq
  · exact (congrArg natOf h.bytes).trans (natOf_bytesOf_toNat hw n)

/-! ### Returning atomics of lanes -/

theorem laneVals_clean {lanes : List (Fin 32)} {rs : List (List Byte × List Bool)} (h : ∀ r ∈ rs, ∀ x ∈ r.2, x = false) (k n : Nat) :
    (laneVals lanes rs).2 k n = 0 := by
  have hlane (l : Fin 32) : ∀ x ∈ (laneRes lanes rs l).2, x = false := by
    rw [laneRes, List.getD_eq_getElem?_getD]
    cases hr : rs[lanes.idxOf l]? with
    | none => exact nofun
    | some r => exact h r (List.mem_of_getElem? hr)
  refine BitVec.eq_of_getLsbD_eq fun i hi => ?_
  rw [show (0 : W32).getLsbD i = false from BitVec.getLsbD_zero]
  refine (getLsbD_laneBits _ ⟨i, hi⟩).trans (List.any_eq_false.mpr fun x hx => ?_)
  rw [hlane ⟨i, hi⟩ x (List.mem_of_mem_drop (List.mem_of_mem_take hx))]
  exact Bool.false_ne_true

theorem xLanes_nodup (t : TG) : t.xLanes.Nodup := (List.nodup_finRange 32).filter _

theorem laneVals_getElem {lanes : List (Fin 32)} (hnodup : lanes.Nodup) (rs : List (List Byte × List Bool)) {k : Nat} (h : k < lanes.length) :
    (laneVals lanes rs).1 lanes[k] = natOf (rs.getD k ([], [])).1 := by
  have hplace : lanes.idxOf lanes[k] = k := List.Nodup.idxOf_getElem hnodup k h
  exact congrArg (fun i => natOf (rs.getD i ([], [])).1) hplace

/-- What an access of an atomic to storage of the core's own die needs: the location passes the checks, is clean, and no one watches it. -/
structure State.OwnAtomic (s : State) (at_ : W64) (z : Nat) : Prop where
  calm : s.Calm
  memOk : s.MemOk
  det : s.me.det = false
  watches : s.watches = []
  window : isWindow at_.toNat = true
  kind : (winOf at_.toNat).kind < 2
  die : (winOf at_.toNat).die = s.me.loc.core.die
  clear : s.clears true at_.toNat z
  clean : s.bad at_.toNat z = false

section
variable {s : State} {at_ : W64} {minor w z : Nat} {sc : Scope} (h : s.OwnAtomic at_ z) (hw : 2 ^ w = 256 ^ z)
  (hsize : ∀ data p, (s.mkEnt at_ (.atom minor) data p false).size = z)
include h hw hsize

/-- A run of clean lanes on the location. -/
theorem atomRun_own {ops : List (W64 × List Byte × Bool)} {α : Type} {l : List α} {data : α → List Byte} {op : BitVec w → α → BitVec w}
    (hops : ops = l.map fun x => (at_, data x, false))
    (hop : ∀ x ∈ l, ∀ m : BitVec w, atomNew minor (bytesOf z m.toNat) (data x) = bytesOf z (op m x).toNat)
    (put : State → List (List Byte × List Bool) → State) : ∃ u,
    s.atomRun minor false sc ops put = (put u (wordOlds z op (BitVec.ofNat w (s.num at_.toNat z)) l)).advance ∧
    s.Holds u at_.toNat z (bytesOf z (l.foldl op (BitVec.ofNat w (s.num at_.toNat z))).toNat) := by
  obtain ⟨u, hu, hlast⟩ := atomAll_own h.calm h.watches h.window h.kind h.die hsize h.memOk h.clean (l.map data)
  rw [memBytes_eq_bytesOf s hw, foldl_atomNew l hop] at hlast
  rw [memBytes_eq_bytesOf s hw, atomOlds_eq_wordOlds l hop, List.map_map] at hu
  refine ⟨u, ?_, hlast⟩
  unfold State.atomRun
  dsimp only
  rw [atomFence_calm h.calm, if_neg Bool.false_ne_true, hops]
  rw [show l.map (fun x => (at_, data x, false)) = l.map ((fun d => (at_, d, false)) ∘ data) from rfl, hu]

/-- A vector atomic whose active lanes all name the location. -/
theorem vatom_own {g : Guard} {a : UReg} {b : VSrc} {format : TG → Bool} {data : TG → Fin 32 → List Byte × Bool}
    {op : BitVec w → Fin 32 → BitVec w} {put : State → LaneVals → State} (hg : s.me.opens g) (hformat : format s.me = false)
    (hp : poisonOff a b s.me &&& s.me.x = 0) (hlanes : s.me.xLanes ≠ []) (haddr : ∀ l ∈ s.me.xLanes, addrOff a b s.me l = at_)
    (hdata : ∀ l ∈ s.me.xLanes, (data s.me l).2 = false)
    (hop : ∀ l ∈ s.me.xLanes, ∀ m : BitVec w, atomNew minor (bytesOf z m.toNat) (data s.me l).1 = bytesOf z (op m l).toNat) :
    ∃ (u : State) (r : LaneVals), s.vatom minor z g a b false sc format data put = (put u r).advance ∧
      s.Holds u at_.toNat z (bytesOf z (s.me.xLanes.foldl op (BitVec.ofNat w (s.num at_.toNat z))).toNat) ∧ (∀ k n, r.2 k n = 0) ∧
      ∀ k (h : k < s.me.xLanes.length),
        r.1 s.me.xLanes[k] = ((s.me.xLanes.take k).foldl op (BitVec.ofNat w (s.num at_.toNat z))).toNat := by
  have hops : s.me.xLanes.map (fun l => (addrOff a b s.me l, data s.me l)) = s.me.xLanes.map fun l => (at_, (data s.me l).1, false) :=
    List.map_congr_left fun l hl => Prod.ext (haddr l hl) (Prod.ext rfl (hdata l hl))
  obtain ⟨u, hu, hlast⟩ := atomRun_own (sc := sc) h hw hsize hops hop fun s' rs => put s' (laneVals s.me.xLanes rs)
  refine ⟨u, laneVals s.me.xLanes (wordOlds z op (BitVec.ofNat w (s.num at_.toNat z)) s.me.xLanes), ?_, hlast,
    laneVals_clean fun r hr x hx => ?_, fun k hk => ?_⟩
  rotate_left
  · obtain ⟨k, -, rfl⟩ := List.mem_map.mp hr
    exact List.eq_of_mem_replicate hx
  · rw [laneVals_getElem (xLanes_nodup s.me) _ hk, wordOlds, List.getD_eq_getElem?_getD, List.getElem?_map, List.getElem?_range hk]
    exact natOf_bytesOf_toNat hw _
  · unfold State.vatom
    rw [withK_open s g _ hg, withAtomStep1_pass h.det hformat, vecMem_clear (.inl rfl) hp fun l hl => by rw [haddr l hl]; exact h.clear,
      if_neg hlanes]
    exact hu

end

/-- A vector atomic on words that returns one register. -/
theorem vatom_put1_own {s : State} {at_ : W64} {minor : Nat} {sc : Scope} {g : Guard} {d : VReg} {a : UReg} {b : VSrc}
    {data : TG → Fin 32 → List Byte × Bool} {op : W32 → Fin 32 → W32} (h : s.OwnAtomic at_ 4)
    (hsize : ∀ data p, (s.mkEnt at_ (.atom minor) data p false).size = 4) (hg : s.me.opens g) (hp : poisonOff a b s.me &&& s.me.x = 0)
    (hlanes : s.me.xLanes ≠ []) (haddr : ∀ l ∈ s.me.xLanes, addrOff a b s.me l = at_) (hdata : ∀ l ∈ s.me.xLanes, (data s.me l).2 = false)
    (hop : ∀ (l : Fin 32) (m : W32), atomNew minor (bytesOf 4 m.toNat) (data s.me l).1 = bytesOf 4 (op m l).toNat) : ∃ r : Fin 32 → W32,
    s.swapsTo (s.vatom minor 4 g a b false sc (fun _ => false) data (put1 d)) (fun x => x.setV d x.x r 0) at_.toNat 4
      (s.me.xLanes.foldl op (BitVec.ofNat 32 (s.num at_.toNat 4))).toNat ∧
    ∀ k (h : k < s.me.xLanes.length), r s.me.xLanes[k] = (s.me.xLanes.take k).foldl op (BitVec.ofNat 32 (s.num at_.toNat 4)) := by
  obtain ⟨u, r, hu, hlast, hclean, hold⟩ := vatom_own (sc := sc) (format := fun _ => false) (put := put1 d) h (by decide) hsize hg rfl hp
    hlanes haddr hdata fun l _ => hop l
  refine ⟨fun l => BitVec.ofNat 32 (r.1 l), ?_, fun k hk => ?_⟩
  · have hrun : (put1 d u r).advance = { u with me := (u.me.setV d u.me.x (fun l => BitVec.ofNat 32 (r.1 l)) 0).advance } := by
      rw [put1, hclean]
      rfl
    rw [hu, hrun]
    exact hlast.swapsTo (by decide) (f := fun x => x.setV d x.x (fun l => BitVec.ofNat 32 (r.1 l)) 0) fun _ _ => rfl
  · dsimp only
    rw [hold k hk, BitVec.ofNat_toNat, BitVec.setWidth_eq]

/-- A uniform atomic on the location, with a clean operand. -/
theorem uatom_own {s : State} {at_ : W64} {minor : Nat} {sc : Scope} {g : Guard} {d a : UReg} {data : TG → List Byte × Bool}
    {op : W64 → W64} (h : s.OwnAtomic at_ 8) (hsize : ∀ data p, (s.mkEnt at_ (.atom minor) data p false).size = 8) (hg : s.me.opens g)
    (ha : s.me.sp.getLsbD a.val = false) (haddr : s.me.s[a] = at_) (hdata : (data s.me).2 = false)
    (hop : ∀ m : W64, atomNew minor (bytesOf 8 m.toNat) (data s.me).1 = bytesOf 8 (op m).toNat) :
    s.swapsTo (s.uatom minor g d a false sc data) (fun x => x.setS d (BitVec.ofNat 64 (s.num at_.toNat 8)) false) at_.toNat 8
      (op (BitVec.ofNat 64 (s.num at_.toNat 8))).toNat := by
  let m : W64 := BitVec.ofNat 64 (s.num at_.toNat 8)
  obtain ⟨u, hu, hlast⟩ := atomRun_own (w := 64) (sc := sc) (ops := [(at_, data s.me)]) (l := [()]) (data := fun _ => (data s.me).1)
    (op := fun m _ => op m) h (by decide) hsize (by rw [← hdata]; rfl) (fun _ _ => hop) fun s' rs =>
      s'.setS d (word64 (natOf (rs.getD 0 ([], [])).1)) ((rs.getD 0 ([], [])).2.any id)
  have hword : word64 (natOf (bytesOf 8 m.toNat)) = m := by
    rw [natOf_bytesOf_toNat (w := 64) (by decide), word64, BitVec.ofNat_toNat, BitVec.setWidth_eq]
  have hrun : s.uatom minor g d a false sc data = { u with me := (u.me.setS d m false).advance } := by
    unfold State.uatom
    rw [withK_open s g _ hg]
    dsimp only
    rw [withAtomStep1_pass h.det rfl, withChecks_clear (show s.me.spoison a = false from ha) fun x hx => by
      cases List.mem_singleton.mp hx
      rw [show s.me.sget a = at_ from haddr]
      exact h.clear]
    rw [show s.me.sget a = at_ from haddr, hu]
    change ((u.setS d (word64 (natOf (bytesOf 8 m.toNat))) false).advance : State) = _
    rw [hword]
    rfl
  rw [hrun]
  exact hlast.swapsTo (by decide) (f := fun x => x.setS d m false) fun _ _ => rfl

end Sys2Proof.Machine
end

section
/-! SUPPORT. O15: the new value of each atomic as an operation on words (R144, R236). -/

namespace Sys2Proof.Machine

open Sys2Proof

section
variable (m v : W32)

/-- The operand of one register. -/
theorem natOf_take_word : natOf ((bytesOf 4 v.toNat).take 4) = v.toNat := by
  rw [List.take_of_length_le (length_bytesOf ..).le, natOf_bytesOf_toNat (by decide)]

theorem natOf_word : natOf (bytesOf 4 m.toNat) = m.toNat := natOf_bytesOf_toNat (by decide) m

/-- The sum is taken modulo the width. -/
theorem atomNew_add : atomNew 0 (bytesOf 4 m.toNat) (bytesOf 4 v.toNat) = bytesOf 4 (m + v).toNat := by
  simp only [atomNew, natOf_take_word, natOf_word]
  exact (bytesOf_mod 4 _).symm

theorem atomNew_min : atomNew 1 (bytesOf 4 m.toNat) (bytesOf 4 v.toNat) = bytesOf 4 (BitVec.ofInt 32 (min m.toInt v.toInt)).toNat := by
  simp only [atomNew, natOf_take_word, natOf_word, signedOf_toNat]
  split
  next h => rw [min_eq_left h.le, BitVec.ofInt_toInt]
  next h => rw [min_eq_right (not_lt.mp h), BitVec.ofInt_toInt]

theorem atomNew_max : atomNew 2 (bytesOf 4 m.toNat) (bytesOf 4 v.toNat) = bytesOf 4 (BitVec.ofInt 32 (max m.toInt v.toInt)).toNat := by
  simp only [atomNew, natOf_take_word, natOf_word, signedOf_toNat]
  split
  next h => rw [max_eq_left (le_of_lt h), BitVec.ofInt_toInt]
  next h => rw [max_eq_right (not_lt.mp h), BitVec.ofInt_toInt]

theorem atomNew_and : atomNew 3 (bytesOf 4 m.toNat) (bytesOf 4 v.toNat) = bytesOf 4 (m &&& v).toNat := by
  simp only [atomNew, natOf_take_word, natOf_word, BitVec.toNat_and]

theorem atomNew_or : atomNew 4 (bytesOf 4 m.toNat) (bytesOf 4 v.toNat) = bytesOf 4 (m ||| v).toNat := by
  simp only [atomNew, natOf_take_word, natOf_word, BitVec.toNat_or]

theorem atomNew_xor : atomNew 5 (bytesOf 4 m.toNat) (bytesOf 4 v.toNat) = bytesOf 4 (m ^^^ v).toNat := by
  simp only [atomNew, natOf_take_word, natOf_word, BitVec.toNat_xor]

theorem atomNew_exchange : atomNew 6 (bytesOf 4 m.toNat) (bytesOf 4 v.toNat) = bytesOf 4 v.toNat := by
  simp only [atomNew, natOf_take_word]

/-- The expected value stands before the new one. -/
theorem atomNew_compareSwap (v' : W32) :
    atomNew 7 (bytesOf 4 m.toNat) (bytesOf 4 v.toNat ++ bytesOf 4 v'.toNat) = bytesOf 4 (if m = v then v' else m).toNat := by
  have htake : natOf ((bytesOf 4 v.toNat ++ bytesOf 4 v'.toNat).take 4) = v.toNat := by
    rw [List.take_left' (length_bytesOf ..), natOf_word]
  have hdrop : natOf ((bytesOf 4 v.toNat ++ bytesOf 4 v'.toNat).drop 4) = v'.toNat := by
    rw [List.drop_left' (length_bytesOf ..), natOf_word]
  simp only [atomNew, htake, hdrop, natOf_word, BitVec.toNat_inj]
  split <;> rfl

theorem atomNew_floatAdd : atomNew 12 (bytesOf 4 m.toNat) (bytesOf 4 v.toNat) =
    bytesOf 4 (BitVec.ofNat 32 (FFmt.fp32.add .rne m.toNat v.toNat)).toNat := by
  simp only [atomNew, natOf_take_word, natOf_word, BitVec.toNat_ofNat]
  exact (bytesOf_mod 4 _).symm

theorem atomNew_fixedAdd (c : W128) : atomNew 11 (bytesOf 16 c.toNat) (bytesOf 4 v.toNat) = bytesOf 16 (fxAddF32 c v.toNat).toNat := by
  simp only [atomNew, natOf_take_word, natOf_bytesOf_toNat (w := 128) (z := 16) (by decide), BitVec.ofNat_toNat, BitVec.setWidth_eq]

end

section
variable (m v : W64)

theorem natOf_dword : natOf (bytesOf 8 m.toNat) = m.toNat := natOf_bytesOf_toNat (by decide) m

theorem atomNew_uniformAdd : atomNew 8 (bytesOf 8 m.toNat) (bytesOf 8 v.toNat) = bytesOf 8 (m + v).toNat := by
  simp only [atomNew, natOf_dword]
  exact (bytesOf_mod 8 _).symm

theorem atomNew_uniformCompareSwap (v' : W64) :
    atomNew 9 (bytesOf 8 m.toNat) (bytesOf 8 v.toNat ++ bytesOf 8 v'.toNat) = bytesOf 8 (if m = v then v' else m).toNat := by
  have htake : natOf ((bytesOf 8 v.toNat ++ bytesOf 8 v'.toNat).take 8) = v.toNat := by
    rw [List.take_left' (length_bytesOf ..), natOf_dword]
  have hdrop : natOf ((bytesOf 8 v.toNat ++ bytesOf 8 v'.toNat).drop 8) = v'.toNat := by
    rw [List.drop_left' (length_bytesOf ..), natOf_dword]
  simp only [atomNew, htake, hdrop, natOf_dword, BitVec.toNat_inj]
  split <;> rfl

theorem atomNew_uniformExchange : atomNew 10 (bytesOf 8 m.toNat) (bytesOf 8 v.toNat) = bytesOf 8 v.toNat := by
  simp only [atomNew, natOf_dword]

end

/-! ### VXADD (R144, R236) -/

theorem extractLsb_ofNat (n : Nat) {k : Nat} (hk : k < 4) : (BitVec.ofNat 128 n).extractLsb' (32 * k) 32 = BitVec.ofNat 32 (n / 2 ^ (32 * k)) := by
  apply BitVec.eq_of_toNat_eq
  rw [BitVec.extractLsb'_toNat, BitVec.toNat_ofNat, BitVec.toNat_ofNat, Nat.shiftRight_eq_div_pow]
  interval_cases k <;> omega

/-- The old integer goes into four registers, the lowest word first. -/
theorem vxadd_own {s : State} {at_ : W64} {sc : Scope} {g : Guard} {d : VReg} {a : UReg} {b : VSrc} (h : s.OwnAtomic at_ 16)
    (hg : s.me.opens g) (hp : poisonOff a b s.me &&& s.me.x = 0) (hlanes : s.me.xLanes ≠ [])
    (haddr : ∀ l ∈ s.me.xLanes, addrOff a b s.me l = at_)
    (hdata : ∀ l ∈ s.me.xLanes, s.me.vp[d].getLsbD l.val = false ∧ (s.me.v[d][l]).extractLsb' 23 8 ≠ 0xFF#8) :
    ∃ (t : State) (r : Fin 32 → W128), exec (.vxadd g d a b false sc) s = .next t ∧
      s.swapsTo t (fun x => (List.range 4).foldl (fun (x : TG) k =>
        x.setV (VReg.plus d k) s.me.x (fun l => (r l).extractLsb' (32 * k) 32) 0) x) at_.toNat 16
        (s.me.xLanes.foldl (fun (m : W128) l => fxAddF32 m (s.me.v[d][l]).toNat) (BitVec.ofNat 128 (s.num at_.toNat 16))).toNat ∧
      ∀ k (h : k < s.me.xLanes.length), r s.me.xLanes[k] =
        (s.me.xLanes.take k).foldl (fun (m : W128) l => fxAddF32 m (s.me.v[d][l]).toNat) (BitVec.ofNat 128 (s.num at_.toNat 16)) := by
  obtain ⟨u, r, hu, hlast, hclean, hold⟩ := vatom_own (w := 128) (sc := sc) (put := putN 4 d) (data := TG.laneData 4 d)
    (format := fun t => t.xLanes.any fun l => f32NonFinite ((t.vget d)[l]).toNat) (op := fun m l => fxAddF32 m (s.me.v[d][l]).toNat) h
    (by decide) (fun _ _ => rfl) hg (any_nonFinite_eq_false fun l hl => (hdata l hl).2) hp hlanes haddr (fun l hl => (hdata l hl).1) fun l _ m => atomNew_fixedAdd _ m
  have hx : u.me.x = s.me.x := (congrArg (fun x : State => x.me.x) hlast.eq :)
  refine ⟨_, fun l => BitVec.ofNat 128 (r.1 l), (exec_vxadd ..).trans (congrArg Host.Outcome.next hu), ?_, fun k hk => ?_⟩
  · have hrun : (putN 4 d u r).advance = u.ends fun x => (List.range 4).foldl (fun (x : TG) k =>
        x.setV (VReg.plus d k) s.me.x (fun l => (BitVec.ofNat 128 (r.1 l)).extractLsb' (32 * k) 32) 0) x := by
      have hwords : putN 4 d u r = (List.range 4).foldl (fun (x : State) k =>
          x.setV (VReg.plus d k) s.me.x (fun l => (BitVec.ofNat 128 (r.1 l)).extractLsb' (32 * k) 32) 0) u := by
        rw [putN]
        refine List.foldl_ext _ _ _ fun x k hk => ?_
        simp only [hclean, hx, extractLsb_ofNat _ (List.mem_range.mp hk)]
      rw [hwords, foldl_setV_ends (VReg.plus d)]
    rw [hrun]
    exact hlast.swapsTo (by decide) (f := fun x => (List.range 4).foldl (fun (x : TG) k =>
      x.setV (VReg.plus d k) s.me.x (fun l => (BitVec.ofNat 128 (r.1 l)).extractLsb' (32 * k) 32) 0) x) fun _ _ => rfl
  · dsimp only
    rw [hold k hk, BitVec.ofNat_toNat, BitVec.setWidth_eq]

/-- Settles O15: each form applies its operation on words (the `atomNew_` lemmas) lane by lane, by `vatom_put1_own`, `vxadd_own` or
`uatom_own`. -/
theorem atomicReturnsOldValue : Obligations.AtomicReturnsOldValue := by
  intro s g d a b e u sc at_ hg hok hc hdet hwatch ha hb hwin hkind hdie lanes m32 m64 p1 p2 v v1 left
  have hp : poisonOff a b s.me &&& s.me.x = 0 := by rw [poisonOff, allLanes_clean ha]; exact hb
  have hown {z : Nat} (hclear : s.clears true at_.toNat z) (hbad : s.bad at_.toNat z = false) : s.OwnAtomic at_ z :=
    ⟨hc, hok, hdet, hwatch, hwin, hkind, hdie, hclear, hbad⟩
  refine ⟨fun c hmem hlanes haddr hclear hdata hbad => ?_, fun hlanes haddr hclear hdata hbad _ => ?_,
    fun haddr hclear he hu hbad c hmem => ?_⟩
  · have hword {i : Instr} (minor : Nat) (data : TG → Fin 32 → List Byte × Bool) {op : W32 → Fin 32 → W32}
        (hi : exec i s = .next (s.vatom minor 4 g a b false sc (fun _ => false) data (put1 d)))
        (hsize : ∀ data p, (s.mkEnt at_ (.atom minor) data p false).size = 4) (hdata : ∀ l ∈ lanes, (data s.me l).2 = false)
        (hop : ∀ (l : Fin 32) (m : W32), atomNew minor (bytesOf 4 m.toNat) (data s.me l).1 = bytesOf 4 (op m l).toNat) :
        ∃ t r, exec i s = .next t ∧ left t (fun x => x.setV d x.x r 0) 4 (lanes.foldl op m32).toNat ∧
          ∀ k (h : k < lanes.length), r lanes[k] = (lanes.take k).foldl op m32 := by
      obtain ⟨r, hswap, hold⟩ := vatom_put1_own (sc := sc) (d := d) (hown hclear hbad) hsize hg hp hlanes haddr hdata hop
      exact ⟨_, r, hi, hswap, hold⟩
    simp only [List.mem_cons, List.not_mem_nil, or_false] at hmem
    rcases hmem with rfl | rfl | rfl | rfl | rfl | rfl | rfl | rfl | rfl
    · exact hword 0 (TG.laneData 4 d) (exec_vatadd ..) (fun _ _ => rfl) hdata fun l m => atomNew_add m (v l)
    · exact hword 1 (TG.laneData 4 d) (exec_vatmin ..) (fun _ _ => rfl) hdata fun l m => atomNew_min m (v l)
    · exact hword 2 (TG.laneData 4 d) (exec_vatmax ..) (fun _ _ => rfl) hdata fun l m => atomNew_max m (v l)
    · exact hword 3 (TG.laneData 4 d) (exec_vatand ..) (fun _ _ => rfl) hdata fun l m => atomNew_and m (v l)
    · exact hword 4 (TG.laneData 4 d) (exec_vator ..) (fun _ _ => rfl) hdata fun l m => atomNew_or m (v l)
    · exact hword 5 (TG.laneData 4 d) (exec_vatxor ..) (fun _ _ => rfl) hdata fun l m => atomNew_xor m (v l)
    · exact hword 6 (TG.laneData 4 d) (exec_vatxch ..) (fun _ _ => rfl) hdata fun l m => atomNew_exchange m (v l)
    · exact hword 7 (TG.pairData d) (exec_vatcas ..) (fun _ _ => rfl) hdata fun l m => atomNew_compareSwap m (v l) (v1 l)
    · exact hword 12 (TG.laneData 4 d) (exec_vfatadd ..) (fun _ _ => rfl) hdata fun l m => atomNew_floatAdd m (v l)
  · exact vxadd_own (hown hclear hbad) hg hp hlanes haddr hdata
  · have hdword {i : Instr} (minor : Nat) (data : TG → List Byte × Bool) (op : W64 → W64)
        (hi : exec i s = .next (s.uatom minor g u a false sc data)) (hsize : ∀ data p, (s.mkEnt at_ (.atom minor) data p false).size = 8)
        (hdata : (data s.me).2 = false) (hop : ∀ m : W64, atomNew minor (bytesOf 8 m.toNat) (data s.me).1 = bytesOf 8 (op m).toNat) :
        ∃ t, exec i s = .next t ∧ left t (fun x => x.setS u m64 false) 8 (op m64).toNat :=
      ⟨_, hi, uatom_own (hown hclear hbad) hsize hg ha haddr hdata hop⟩
    clear_value m64
    simp only [List.mem_cons, List.not_mem_nil, or_false] at hmem
    rcases hmem with rfl | rfl | rfl
    · exact hdword 8 (uData e) (fun m => m + s.me.s[e]) (exec_satadd ..) (fun _ _ => rfl) he fun m => atomNew_uniformAdd m _
    · exact hdword 9 (casData u e) (fun m => if m = s.me.s[u] then s.me.s[e] else m) (exec_satcas ..) (fun _ _ => rfl)
        (by rw [casData, TG.spoison, TG.spoison, hu, he]; rfl) fun m => atomNew_uniformCompareSwap m _ _
    · exact hdword 10 (uData e) (fun _ => s.me.s[e]) (exec_satxch ..) (fun _ _ => rfl) he fun m => atomNew_uniformExchange m _

end Sys2Proof.Machine
end

section
/-! SUPPORT. O50: a matrix operation that shares its number with another operation of the tables (R250, R253): the end of an operation goes by
its number, and takes the token of the first operation that carries it. -/

namespace Sys2Proof.Machine

open Sys2Proof

/-- Thread group 0 of core 0, with one operation outstanding on token 0. -/
def countingTg : TG := (TG.zero tg0).addTok 0 true

/-- A started MZERO of that thread group, which stands in the queue of core 0 and counts on token 0. -/
def countedZero : EngOp :=
  { State.reset.mkOp (.mzero 0) (some 0) [] 0 [] [] with started := true }

/-- A fill of a queue's packet, of no thread group and with no token, under the same number. -/
def namesake : EngOp := { countedZero with tg := none, tok := none, kind := .copy 4, queue := some (.slot 0) }

/-- The two operations, with the fill issued first. -/
def twinState : State := { State.reset with me := countingTg, ops := [namesake, countedZero] }

theorem twinState_matHead : twinState.matHead tg0.core = some countedZero := by decide

/-- When the MZERO is performed both operations go, and token 0 still counts one. -/
theorem twinState_complete : goesWith (fun t => t.me.tok[0] == 1) (exec (.matrixOpComplete tg0.core) twinState) = true := by decide

/-- Refutes O50: its clauses about the matrix queue do not ask that the number of the operation at the head is its own, as those about the
other engines do. Where another operation bears the number too, the token of the thread group does not count one less. No step gives a
number twice, but the statement speaks of every state. -/
theorem not_engineStepResult : ¬ Obligations.EngineStepResult := by
  intro h
  let map := parseTMap []
  let ring : Ring := ⟨0, 0, none, parseRing [], 0, 0, 0, 0, [], []⟩
  obtain ⟨-, hhead, -⟩ := h twinState countedZero tg0.core [] [] false false 0 0 0 [] map map map map map ring ring ring 0 (parseCtx []).1 []
    ⟨0, tg0, false, 0, 0, 0, 0, 0, false, none⟩ ⟨0, 0, 0, 0, 0⟩
  obtain ⟨hzero, -⟩ := hhead ⟨twinState_matHead, rfl, rfl, by decide⟩
  obtain ⟨r, hr, ⟨-, htok⟩, -⟩ := hzero rfl
  have hless : r.me.tok[0] = 0 := htok 0 rfl rfl
  have hstays := twinState_complete
  rw [hr] at hstays
  have hstays : r.me.tok[0] = 1 := beq_iff_eq.mp hstays
  omega

end Sys2Proof.Machine
end

section
/-! SUPPORT. The ring table: the entry that a handle names, what a change of it leaves, and the slots that an advance claims (R262 to R266). -/

namespace Sys2Proof.Machine

open Sys2Proof

/-! ### Lists and tables -/

/-- Two changes that agree on the element that is changed. -/
theorem updFirst_congr {α : Type} {p : α → Bool} {f f' : α → α} {l : List α} {x : α} (hx : l.find? p = some x) (hf : f x = f' x) :
    updFirst p f l = updFirst p f' l := by
  induction l with
  | nil => rfl
  | cons a l ih =>
    by_cases ha : p a = true
    · rw [List.find?_cons_of_pos ha, Option.some.injEq] at hx
      rw [updFirst, updFirst, if_pos ha, if_pos ha, hx, hf]
    · rw [List.find?_cons_of_neg ha] at hx
      rw [updFirst, updFirst, if_neg ha, if_neg ha, ih hx]

/-- A lookup finds the one element that it fits. -/
theorem find?_unique {α : Type} {p : α → Bool} {l : List α} {x : α} (hx : x ∈ l) (hp : p x = true) (h : ∀ y ∈ l, p y = true → y = x) :
    l.find? p = some x := by
  obtain ⟨y, hy⟩ := Option.isSome_iff_exists.mp (List.find?_isSome.mpr ⟨x, hx, hp⟩ : (l.find? p).isSome = true)
  rw [hy, h y (List.mem_of_find?_eq_some hy) (List.find?_some hy)]

theorem cluster_modCluster (s : State) (c d : ClId) (f : Cluster → Cluster) :
    (s.modCluster c f).cluster d = if d = c then f (s.cluster c) else s.cluster d := by
  split
  next h => rw [h, cluster_modCluster_self]
  next h => simp only [State.cluster, State.modCluster, kget, kfind_kset_ne h]

theorem toList_getD {α : Type} {n : Nat} (v : Vector α n) (i : Fin n) (a : α) : v.toList.getD i.val a = v[i] := by
  simp

/-! ### The entry that a handle names (R262, R265) -/

/-- An entry has the key of a ring: descriptor, ASID and piece. -/
def Ring.is (r x : Ring) : Bool := x.desc == r.desc && x.asid == r.asid && x.part == r.part

/-- The ring that a lookup finds is the first of the table with its key. -/
theorem ring_found {s : State} {c : ClId} {asid : Half} {part : PieceId} {desc : W64} {r : Ring} (h : s.ring c asid part desc = some r) :
    r.desc = desc ∧ r.asid = asid ∧ (s.cluster c).rings.find? r.is = some r := by
  have of_find (q : Ring → Bool) (hq : (((s.cluster c).rings.filter fun x => x.desc == desc && x.asid == asid).find? q) = some r)
      (hkey : ∀ x : Ring, q x = (x.part == r.part)) :
      r.desc = desc ∧ r.asid = asid ∧ (s.cluster c).rings.find? r.is = some r := by
    have hmem := List.mem_of_find?_eq_some hq
    obtain ⟨hdesc, hasid⟩ : r.desc = desc ∧ r.asid = asid := by simpa using (List.mem_filter.mp hmem).2
    refine ⟨hdesc, hasid, ?_⟩
    rw [List.find?_filter] at hq
    rw [← hq]
    congr 1
    funext x
    simp [Ring.is, hkey, hdesc, hasid, ← Bool.beq_eq_decide_eq]
  unfold State.ring at h
  obtain hown | ⟨-, hshared⟩ := Option.or_eq_some_iff.mp h
  · obtain ⟨hsome, hpart⟩ : r.part.isSome = true ∧ r.part = part := by simpa using List.find?_some hown
    refine of_find _ hown fun x => ?_
    rw [← hpart]
    cases hx : x.part with
    | none => cases hr : r.part with
      | none => simp [hr] at hsome
      | some _ => rfl
    | some _ => simp
  · have hnone : r.part.isNone = true := List.find?_some (p := fun x : Ring => x.part.isNone) hshared
    exact of_find _ hshared fun x => by
      rw [Option.isNone_iff_eq_none.mp hnone]
      cases x.part <;> rfl

theorem bound_ring {s : State} {h : Nat} {r : Ring} (hb : s.bound h = some r) :
    s.ring s.me.loc.core.cluster s.me.asid s.me.part r.desc = some r ∧ r.asid = s.me.asid := by
  unfold State.bound at hb
  dsimp only at hb
  split at hb
  · cases hb
  · obtain ⟨hdesc, hasid, -⟩ := ring_found hb
    exact ⟨hdesc ▸ hb, hasid⟩

section
variable {s : State} {n : Nat} {r : Ring} {k : State → Ring → State}

theorem withRing_bound (h : s.bound n = some r) : s.withRing n k = k s r := by
  rw [State.withRing, h]

theorem withRing_unbound {h : HReg} (hb : s.bound h.val = none) :
    s.withRing h.val k = s.trap cRING s.me.rings[h] (BitVec.ofNat 64 (1 + 256 * h.val)) := by
  rw [State.withRing, hb, toList_getD]
  rfl

end

/-! ### A change of an entry (R47, R266) -/

/-- A thread group that waits on a ring looks again. -/
def TG.looksAgain (c : ClId) (asid : Half) (desc : W64) (g : TG) : TG :=
  match g.status with
  | .parked k o => if (k = 5 ∨ k = 6) ∧ o = desc ∧ g.asid = asid ∧ g.loc.core.cluster = c then { g with wake := g.wake.or (some .go) } else g
  | _ => g

theorem looksAgain_awake {c : ClId} {asid : Half} {desc : W64} {g : TG} (h : ∀ k o, g.status ≠ .parked k o) :
    g.looksAgain c asid desc = g := by
  unfold TG.looksAgain
  split
  next k o hst => exact absurd hst (h k o)
  next => rfl

theorem looksAgain_unwoken (c : ClId) (asid : Half) (desc : W64) (g : TG) :
    ({ g.looksAgain c asid desc with wake := none } : TG) = { g with wake := none } := by
  unfold TG.looksAgain
  split
  · split <;> rfl
  · rfl

section
variable {s : State} {c : ClId} {asid : Half} {part : PieceId} {desc : W64} {f : Ring → Ring}

/-- A change of a ring, in the terms of its entry. -/
theorem modRing_found {r : Ring} (h : s.ring c asid part desc = some r) : s.modRing c asid part desc f =
    { s.modCluster c (fun k => { k with rings := updFirst r.is f k.rings }) with
      me := s.me.looksAgain c asid desc
      tgs := s.tgs.map (TG.looksAgain c asid desc) } := by
  obtain ⟨hdesc, hasid, -⟩ := ring_found h
  unfold State.modRing
  rw [h]
  subst hdesc hasid
  rfl

theorem modRing_cluster {r : Ring} (h : s.ring c asid part desc = some r) (d : ClId) :
    (s.modRing c asid part desc f).cluster d =
      if d = c then { s.cluster c with rings := updFirst r.is f (s.cluster c).rings } else s.cluster d := by
  rw [modRing_found h]
  exact cluster_modCluster s c d fun k => { k with rings := updFirst r.is f k.rings }

/-- Where the thread group in focus does not park, nothing but the table and the others' waits has changed. -/
theorem modRing_frame (h : ∀ k o, s.me.status ≠ .parked k o) :
    { s.modRing c asid part desc f with tgs := s.tgs, clusters := s.clusters } = s :=
  congrArg (fun g => ({ s with me := g } : State)) (looksAgain_awake (c := c) (asid := asid) (desc := desc) h)

theorem modRing_me (h : ∀ k o, s.me.status ≠ .parked k o) : (s.modRing c asid part desc f).me = s.me :=
  looksAgain_awake (c := c) (asid := asid) (desc := desc) h

end

/-- A change of the ring that a handle names, as the end of the group leaves it. -/
theorem modRing_ringsTo {s : State} {h : Nat} {r : Ring} {f f' : Ring → Ring} (hb : s.bound h = some r)
    (hf : f r = f' r) : s.ringsTo (s.modRing s.me.loc.core.cluster r.asid s.me.part r.desc f).advance r f' := by
  obtain ⟨hring, hasid⟩ := bound_ring hb
  rw [← hasid] at hring
  obtain ⟨-, -, hfind⟩ := ring_found hring
  have hcl := modRing_cluster (f := f) hring
  refine ⟨?_, fun d hd => (hcl d).trans (if_neg hd), ?_⟩
  · exact ((hcl _).trans (if_pos rfl)).trans (by rw [updFirst_congr hfind hf]; rfl)
  · rw [modRing_found hring]
    show ((s.tgs.map _).map _) = _
    rw [List.map_map]
    exact List.map_congr_left fun g _ => looksAgain_unwoken ..

/-! ### Slots that an advance claims (R262, R263) -/

/-- A slot claimed at W of a ring on which nothing is under way lands at once. -/
theorem land_claimed {r : Ring} (hl : r.landed = []) (hc : r.c = r.w) (hs : 0 < r.rd.slots) :
    Ring.land r.w { r with w := (r.w + 1) % 65536 } = { r with w := (r.w + 1) % 65536, c := (r.w + 1) % 65536 } := by
  obtain ⟨k, hk⟩ : ∃ k, r.rd.slots = k + 1 := ⟨r.rd.slots - 1, by omega⟩
  have hmoved : r.w ≠ (r.w + 1) % 65536 := by omega
  rw [Ring.land]
  dsimp only
  rw [hk, Ring.settleC, hl]
  simp only [Ring.slot, insertNat, hc, hmoved, ne_eq, not_false_eq_true, List.contains_cons, beq_self_eq_true, Bool.true_or, and_self,
    if_true, List.filter_cons, bne_self_eq_false, Bool.false_eq_true, if_false, List.filter_nil]
  rw [← hl]
  cases k with
  | zero => rfl
  | succ k => rw [Ring.settleC, if_neg (by simp)]

theorem release_claimed {r : Ring} (hl : r.freed = []) (hf : r.f = r.r) (hs : 0 < r.rd.slots) :
    Ring.release r.r { r with r := (r.r + 1) % 65536 } = { r with r := (r.r + 1) % 65536, f := (r.r + 1) % 65536 } := by
  obtain ⟨k, hk⟩ : ∃ k, r.rd.slots = k + 1 := ⟨r.rd.slots - 1, by omega⟩
  have hmoved : r.r ≠ (r.r + 1) % 65536 := by omega
  rw [Ring.release]
  dsimp only
  rw [hk, Ring.settleF, hl]
  simp only [Ring.slot, insertNat, hf, hmoved, ne_eq, not_false_eq_true, List.contains_cons, beq_self_eq_true, Bool.true_or, and_self,
    if_true, List.filter_cons, bne_self_eq_false, Bool.false_eq_true, if_false, List.filter_nil]
  rw [← hl]
  cases k with
  | zero => rfl
  | succ k => rw [Ring.settleF, if_neg (by simp)]

theorem produce_idle {r : Ring} (hl : r.landed = []) (hc : r.c = r.w) (hw : r.w < 65536) (hs : 0 < r.rd.slots) (n : Nat) :
    Ring.produce n r = { r with w := (r.w + n) % 65536, c := (r.w + n) % 65536 } := by
  induction n with
  | zero =>
    rw [Nat.add_zero, Nat.mod_eq_of_lt hw]
    exact congrArg (fun x => ({ r with c := x } : Ring)) hc
  | succ n ih =>
    have hstep : Ring.produce (n + 1) r = Ring.land (Ring.produce n r).w { Ring.produce n r with w := ((Ring.produce n r).w + 1) % 65536 } := by
      rw [Ring.produce, List.range_succ, List.foldl_append]
      rfl
    rw [hstep, land_claimed (by rw [ih]; exact hl) (by rw [ih]) (by rw [ih]; exact hs), ih]
    simp only [Nat.mod_add_mod, Nat.add_assoc]

theorem consume_idle {r : Ring} (hl : r.freed = []) (hf : r.f = r.r) (hr : r.r < 65536) (hs : 0 < r.rd.slots) (n : Nat) :
    Ring.consume n r = { r with r := (r.r + n) % 65536, f := (r.r + n) % 65536 } := by
  induction n with
  | zero =>
    rw [Nat.add_zero, Nat.mod_eq_of_lt hr]
    exact congrArg (fun x => ({ r with f := x } : Ring)) hf
  | succ n ih =>
    have hstep : Ring.consume (n + 1) r = Ring.release (Ring.consume n r).r { Ring.consume n r with r := ((Ring.consume n r).r + 1) % 65536 } := by
      rw [Ring.consume, List.range_succ, List.foldl_append]
      rfl
    rw [hstep, release_claimed (by rw [ih]; exact hl) (by rw [ih]) (by rw [ih]; exact hs), ih]
    simp only [Nat.mod_add_mod, Nat.add_assoc]

end Sys2Proof.Machine
end

section
/-! SUPPORT. What the instructions of engines share: the snapshots that they take, and the operation that they start (R112, R248, R250, R282). -/

namespace Sys2Proof.Machine

open Sys2Proof

/-! ### Snapshots (R112, R248) -/

/-- t is what the snapshot of a structure leaves of s: apart from what reading leaves behind, what is kept of the structure, with its
instruction or its engine, and the descriptor cache. -/
structure State.Peeks (s t : State) : Prop where
  eq : { s.unread t with
    me := { t.me with phase := { t.me.phase with snaps := s.me.phase.snaps } }
    engWords := s.engWords
    free := s.free
    clusters := s.clusters } = s
  clusters : ∀ c, { t.cluster c with dcache := (s.cluster c).dcache } = s.cluster c

theorem State.Peeks.refl (s : State) : s.Peeks s := ⟨rfl, fun _ => rfl⟩
theorem State.Peeks.trans {s t u : State} (h : s.Peeks t) (k : t.Peeks u) : s.Peeks u :=
  ⟨(congrArg (fun x : State => { s.unread x with
    me := { x.me with phase := { x.me.phase with snaps := s.me.phase.snaps } }
    engWords := s.engWords
    free := s.free
    clusters := s.clusters }) k.eq).trans h.eq,
    fun c => (congrArg (fun x : Cluster => { x with dcache := (s.cluster c).dcache }) (k.clusters c)).trans (h.clusters c)⟩

theorem State.Reads.peeks {s t : State} (h : s.Reads t) : s.Peeks t :=
  ⟨(congrArg (fun x : State => ({ x with
    me := { x.me with phase := { x.me.phase with snaps := s.me.phase.snaps } }
    engWords := s.engWords
    free := s.free
    clusters := s.clusters } : State)) h.eq), fun c => congrArg (fun x : Cluster => { x with dcache := (s.cluster c).dcache })
    (congrArg (fun x : State => x.cluster c) h.eq :)⟩

/-- An agent that is no operation in flight keeps what it reads with its instruction or its engine. -/
theorem keepRead_peeks {g : Agent} (hg : ∀ id, g.who ≠ some (.op id)) (s : State) (key : Nat) (bs : List (Byte × Bool)) :
    s.Peeks (s.keepRead g key bs) := by
  unfold State.keepRead
  split
  · exact ⟨rfl, fun _ => rfl⟩
  · split
    next => exact .refl s
    next id h => exact absurd h (hg id)
    next => exact ⟨rfl, fun _ => rfl⟩

theorem useFree_peeks (s : State) : s.Peeks s.useFree := by
  unfold State.useFree
  exact ⟨rfl, fun _ => rfl⟩

theorem modCluster_peeks (s : State) (c : ClId) {f : Cluster → Cluster} (hf : ∀ k, { f k with dcache := k.dcache } = k) :
    s.Peeks (s.modCluster c f) :=
  ⟨rfl, fun d => by
    rw [cluster_modCluster]
    split
    next hd => rw [hd, hf]
    next => rfl⟩

theorem snapRead_peeks {s t : State} {c : ClId} {g : Agent} {cached : Bool} {va n : Nat} {bs : List (Byte × Bool)}
    (hg : ∀ id, g.who ≠ some (.op id)) (h : s.snapRead c g cached va n = (t, .ok bs)) : s.Peeks t := by
  unfold State.snapRead at h
  split at h
  · cases h
    exact .refl s
  · extract_lets hit keep s1 at h
    have h1 : s.Peeks s1 := ite_keeps (useFree_peeks s) (.refl s)
    clear_value s1 hit keep
    split at h
    · cases h
      exact (useFree_peeks s).trans (keepRead_peeks hg ..)
    · split at h
      · cases h
      · cases h
      · extract_lets s2 ent fill at h
        have h2 : s.Peeks s2 := (h1.trans (keepRead_peeks hg ..)).trans (noteReads_reads ..).peeks
        have hfill : s2.Peeks (s2.modCluster c fill) := modCluster_peeks s2 c fun _ => rfl
        clear_value s2 fill
        cases h
        exact h2.trans (ite_keeps hfill (.refl s2))

section
variable {s u : State} {cached : Bool} {va : W64} {n al : Nat} {bs : List Byte}

theorem State.snaps.peeks (h : s.snaps cached va n al bs u) : s.Peeks u := by
  obtain ⟨-, -, ps, hread, -, -⟩ := h
  exact snapRead_peeks (fun _ => (Option.some_ne_none _).symm) hread

/-- An instruction goes on with the bytes of a snapshot that succeeds. -/
theorem withSnap_snaps (h : s.snaps cached va n al bs u) (k : State → List Byte → State) : s.withSnap cached va n al k = k u bs := by
  obtain ⟨haddr, halign, ps, hread, hbytes, hclean⟩ := h
  have hnone : ps.findIdx? (·.2) = none := List.findIdx?_eq_none_iff.mpr hclean
  rw [State.withSnap, haddr]
  dsimp only
  rw [if_neg (by simpa using halign), hread]
  dsimp only
  rw [hnone, hbytes]

end

section
variable {s u : State} {va : W64} {m : TMap}

theorem State.snapsMap.peeks (h : s.snapsMap va m u) : s.Peeks u := by
  obtain ⟨_, hs, -⟩ := h
  exact hs.peeks

theorem withMap_snapsMap (h : s.snapsMap va m u) (k : State → TMap → State) : s.withMap va k = k u m := by
  obtain ⟨bs, hs, rfl⟩ := h
  exact withSnap_snaps hs fun s bs => k s (parseTMap bs)

end

section
variable {s u : State} (h : s.Peeks u)
include h

/-- The thread group is as it was, but for what its instruction has read. -/
theorem State.Peeks.me : u.me = { s.me with phase := u.me.phase } :=
  congrArg (fun g : TG => { g with phase := u.me.phase }) (congrArg (fun x : State => x.me) h.eq)

theorem State.Peeks.loc : u.me.loc = s.me.loc := by rw [h.me]
theorem State.Peeks.status : u.me.status = s.me.status := by rw [h.me]
theorem State.Peeks.wake : u.me.wake = s.me.wake := by rw [h.me]
theorem State.Peeks.task : u.me.task = s.me.task := by rw [h.me]
theorem State.Peeks.part : u.me.part = s.me.part := by rw [h.me]; rfl
theorem State.Peeks.asid : u.me.asid = s.me.asid := by rw [h.me]
theorem State.Peeks.sget (a : UReg) : u.me.sget a = s.me.s[a] := by rw [h.me]; rfl
theorem State.Peeks.core (c : CoreId) : u.core c = s.core c := (congrArg (fun x : State => x.core c) h.eq :)
theorem State.Peeks.mode : u.mode = s.mode := (congrArg (fun x : State => x.mode) h.eq :)
theorem State.Peeks.mem : u.mem = s.mem := (congrArg (fun x : State => x.mem) h.eq :)

theorem State.Peeks.awake (ha : ∀ k o, s.me.status ≠ .parked k o) : ∀ k o, u.me.status ≠ .parked k o := by
  rw [h.status]
  exact ha

theorem State.Peeks.ring (c : ClId) (asid : Half) (part : PieceId) (desc : W64) : u.ring c asid part desc = s.ring c asid part desc := by
  have hrings : (u.cluster c).rings = (s.cluster c).rings := (congrArg (fun x : Cluster => x.rings) (h.clusters c) :)
  rw [State.ring, hrings]
  rfl

end

/-! ### Operations that start (R248, R250, R282) -/

/-- v is s but for what an operation claims as it starts: slots of rings, and tiles. -/
structure State.Claims (s v : State) : Prop where
  eq : { v with
    tgs := s.tgs
    cores := s.cores
    clusters := s.clusters } = s
  locks : ∀ c, (v.cluster c).locks = (s.cluster c).locks

theorem State.Claims.refl (s : State) : s.Claims s := ⟨rfl, fun _ => rfl⟩
theorem State.Claims.trans {s t u : State} (h : s.Claims t) (k : t.Claims u) : s.Claims u :=
  ⟨(congrArg (fun x : State => { x with
    tgs := s.tgs
    cores := s.cores
    clusters := s.clusters }) k.eq).trans h.eq, fun c => (k.locks c).trans (h.locks c)⟩

/-- t is s with one more operation, its token and its lock, and with the tiles and rings of v, which has claimed what the operation claims. -/
structure State.Issues (s v t : State) (kind : EKind) (tok : Option (Fin 8)) (pkt : List Byte) (at_ : W64) (maps : List TMap) (hs : List Nat)
    (lock : Option (List (Nat × Nat) × List (Nat × Nat))) : Prop where
  starts : s.starts t kind tok pkt at_ maps hs
  locks : s.locks t lock
  cores : t.cores = v.cores
  tgs : t.tgs = v.tgs
  rings : ∀ c, (t.cluster c).rings = (v.cluster c).rings

theorem takeLock_locks {s : State} {c : ClId} (h : (s.cluster c).freeLock.isSome = true) (op : Nat) (owner : Option TgRef) (asid : Half)
    (srcs dsts : List (Nat × Nat)) : ((s.takeLock c op owner asid srcs dsts).cluster c).locks =
      (s.cluster c).locks ++ [⟨(s.cluster c).freeLock.getD 0, op, owner, asid, boundRanges srcs, boundRanges dsts⟩] := by
  obtain ⟨i, hi⟩ := Option.isSome_iff_exists.mp h
  rw [State.takeLock, hi]
  dsimp only
  rw [cluster_modCluster_self]
  rfl

/-- Taking a lock changes nothing of a cluster but its locks. -/
theorem takeLock_cluster (s : State) (c d : ClId) (op : Nat) (owner : Option TgRef) (asid : Half) (srcs dsts : List (Nat × Nat)) :
    { (s.takeLock c op owner asid srcs dsts).cluster d with locks := (s.cluster d).locks } = s.cluster d := by
  unfold State.takeLock
  split
  · rw [cluster_modCluster]
    split
    next h => rw [h]
    next => rfl
  · rfl

theorem takeLock_rings (s : State) (c d : ClId) (op : Nat) (owner : Option TgRef) (asid : Half) (srcs dsts : List (Nat × Nat)) :
    ((s.takeLock c op owner asid srcs dsts).cluster d).rings = (s.cluster d).rings :=
  (congrArg Cluster.rings (takeLock_cluster s c d op owner asid srcs dsts) :)

section
variable {s : State} {kind : EKind} {tok : Option (Fin 8)} {pkt : List Byte} {at_ : W64} {maps : List TMap} {full : Bool}
  {lock : Option (List (Nat × Nat) × List (Nat × Nat))} {hs : List Nat} {act : State → State}

/-- The lock of an operation that starts. -/
def State.lockFor (v : State) (op : EngOp) : Option (List (Nat × Nat) × List (Nat × Nat)) → State
  | some (a, b) => v.takeLock op.cl op.id op.tg op.asid a b
  | none => v

theorem lockFor_frame (v : State) (op : EngOp) (lock : Option (List (Nat × Nat) × List (Nat × Nat))) :
    { v.lockFor op lock with clusters := v.clusters } = v := by
  cases lock with
  | none => rfl
  | some r => exact takeLock_frame ..

theorem lockFor_rings (v : State) (op : EngOp) (lock : Option (List (Nat × Nat) × List (Nat × Nat))) (c : ClId) :
    ((v.lockFor op lock).cluster c).rings = (v.cluster c).rings := by
  cases lock with
  | none => rfl
  | some r => exact takeLock_rings ..

/-- Step 8 of R248, once what the operation claims is claimed. -/
def State.launches (v : State) (op : EngOp) (tok : Option (Fin 8)) (lock : Option (List (Nat × Nat) × List (Nat × Nat))) : State :=
  { v.lockFor op lock with
    me := (match tok with | some k => v.me.addTok k.val true | none => v.me).advance
    ops := v.ops ++ [op]
    seq := v.seq + 1 }

theorem issueOp_launches (hfull : full = false) (hmay : s.mayIssue tok lock.isSome) :
    s.issueOp kind (tok.map (·.val)) pkt at_ maps full lock hs act =
      (act s).launches ((act s).mkOp kind (tok.map (·.val)) pkt at_ maps hs) tok lock := by
  obtain ⟨hlog, htok, hfree⟩ := hmay
  have hroom : (lock.isSome && (s.cluster s.me.loc.core.cluster).freeLock.isNone) = false := by
    cases hl : lock.isSome with
    | false => rfl
    | true => simpa using hfree hl
  unfold State.issueOp
  rw [hfull, hlog, hroom, if_neg ?goes]
  case goes =>
    cases tok with
    | none => simp
    | some k => simpa [tokOf_eq] using htok k rfl
  generalize act s = v
  dsimp only
  generalize v.mkOp kind (tok.map (·.val)) pkt at_ maps hs = op
  have hframe := lockFor_frame v op lock
  have hme : (v.lockFor op lock).me = v.me := (congrArg (fun x : State => x.me) hframe :)
  have hops : (v.lockFor op lock).ops = v.ops := (congrArg (fun x : State => x.ops) hframe :)
  have hseq : (v.lockFor op lock).seq = v.seq := (congrArg (fun x : State => x.seq) hframe :)
  unfold State.launches
  rw [← hme, ← hops, ← hseq]
  cases lock <;> cases tok <;> rfl

/-- Steps 7 and 8 of R248 where nothing holds the issue back. -/
theorem issueOp_issues (hclaims : s.Claims (act s)) (hfull : full = false) (hmay : s.mayIssue tok lock.isSome) :
    s.Issues (act s) (s.issueOp kind (tok.map (·.val)) pkt at_ maps full lock hs act) kind tok pkt at_ maps hs lock := by
  rw [issueOp_launches hfull hmay]
  obtain ⟨-, -, hfree⟩ := hmay
  generalize act s = v at *
  have hme : v.me = s.me := (congrArg (fun x : State => x.me) hclaims.eq :)
  have hop : v.mkOp kind (tok.map (·.val)) pkt at_ maps hs = s.mkOp kind (tok.map (·.val)) pkt at_ maps hs :=
    (congrArg (fun x : State => x.mkOp kind (tok.map (·.val)) pkt at_ maps hs) hclaims.eq :)
  rw [hop]
  generalize hop : s.mkOp kind (tok.map (·.val)) pkt at_ maps hs = op
  have hframe := lockFor_frame v op lock
  refine ⟨⟨?_, ?_, ?_⟩, ?_, ?_, ?_, fun c => lockFor_rings v op lock c⟩
  · rw [hop]
    exact congrArg (· ++ [op]) (congrArg (fun x : State => x.ops) hclaims.eq :)
  · rw [← hme]
    rfl
  · exact (congrArg (fun x : State => { x with
      me := s.me
      ops := s.ops
      tgs := s.tgs
      cores := s.cores
      clusters := s.clusters
      seq := s.seq }) hframe).trans (congrArg (fun x : State => { x with
      me := s.me
      ops := s.ops
      seq := s.seq }) hclaims.eq)
  · have hlocks := hclaims.locks s.me.loc.core.cluster
    have hnext : (v.cluster s.me.loc.core.cluster).freeLock = (s.cluster s.me.loc.core.cluster).freeLock := by
      rw [Cluster.freeLock, hlocks]
      rfl
    subst hop
    cases lock with
    | none => exact hlocks.trans (List.append_nil _).symm
    | some r =>
      refine (takeLock_locks ?_ ..).trans ?_
      · exact hnext ▸ hfree rfl
      · show (v.cluster s.me.loc.core.cluster).locks ++
          [(⟨((v.cluster s.me.loc.core.cluster).freeLock).getD 0, _, _, _, _, _⟩ : RLock)] = _
        rw [hlocks, hnext]
        rfl
  · exact (congrArg (fun x : State => x.cores) hframe :)
  · exact (congrArg (fun x : State => x.tgs) hframe :)

end

end Sys2Proof.Machine
end

section
/-! SUPPORT. O18, O19: the forms of rings behind an open guard (R262, R263, R265, R266). -/

namespace Sys2Proof.Machine

open Sys2Proof

section
variable {s : State} {g : Guard} {d a : UReg} {h : HReg} {r : Ring}

/-! ### Counts, slots and waits on a bound handle (R263) -/

theorem withCount_bound (hb : s.bound h.val = some r) (n : Nat) (room : Ring → Nat) (k : State → Ring → State) :
    s.withCount h false n room k = if r.rd.slots < n ∨ room r < n then s.trapRing r.desc 5 h.val else k s r := by
  rw [State.withCount, if_neg Bool.false_ne_true, withRing_bound hb]

theorem withCount_unbound (hb : s.bound h.val = none) (n : Nat) (room : Ring → Nat) (k : State → Ring → State) :
    s.withCount h false n room k = s.trap cRING s.me.rings[h] (BitVec.ofNat 64 (1 + 256 * h.val)) := by
  rw [State.withCount, if_neg Bool.false_ne_true, withRing_unbound hb]

theorem ringSlot_bound (hp : s.me.spoison a = false) (hb : s.bound h.val = some r) (room base : Ring → Nat) :
    s.ringSlot d h a room base = if room r ≤ s.me.s[a].toNat then s.trapRing r.desc 5 h.val
      else s.ends fun t => t.setS d (r.slotAddr s.me.loc.core.cluster (base r + s.me.s[a].toNat)) false := by
  rw [State.ringSlot, hp, if_neg Bool.false_ne_true, withRing_bound hb]
  rfl

theorem ringWait_bound (hp : s.me.spoison a = false) (hb : s.bound h.val = some r) (kind : Nat) (count : Ring → Nat) :
    s.ringWait h a kind count = if r.rd.slots < s.me.s[a].toNat then s.trapRing r.desc 5 h.val
      else if s.me.s[a].toNat = 0 then s.advance else s.waitFor kind r.desc (decide (s.me.s[a].toNat ≤ count r)) State.advance := by
  simp only [State.ringWait, hp, withCount_bound hb, lt_self_iff_false, or_false]
  rfl

/-- A wait that its ring satisfies completes. -/
theorem ringWait_met (hp : s.me.spoison a = false) (hb : s.bound h.val = some r) (hwake : s.me.wake = none) {kind : Nat}
    {count : Ring → Nat} (hslots : s.me.s[a].toNat ≤ r.rd.slots) (hcount : s.me.s[a].toNat ≤ count r) :
    s.ringWait h a kind count = s.ends id := by
  rw [ringWait_bound hp hb, if_neg (by omega), decide_eq_true hcount, waitFor_met _ _ _ hwake]
  split <;> rfl

/-- A wait on a ring that lacks the count parks on its descriptor. -/
theorem ringWait_parks (hp : s.me.spoison a = false) (hb : s.bound h.val = some r) (hwake : s.me.wake = none) (hk10 : s.me.k10 = false)
    {kind : Nat} {count : Ring → Nat} (hslots : s.me.s[a].toNat ≤ r.rd.slots) (hcount : count r < s.me.s[a].toNat) :
    s.ringWait h a kind count = s.dropSnaps.park kind r.desc := by
  rw [ringWait_bound hp hb, if_neg (by omega), if_neg (by omega), decide_eq_false (by omega), State.waitFor,
    if_neg (by rw [hwake]; exact nofun), if_neg Bool.false_ne_true, hk10, if_neg Bool.false_ne_true]

theorem ringAdvance_goes (hb : s.bound h.val = some r) {n : Nat} (hslots : n ≤ r.rd.slots) (hcount : n ≤ r.committed) :
    s.ringAdvance h false n = (s.modRing s.me.loc.core.cluster r.asid s.me.part r.desc (Ring.consume n)).advance := by
  rw [State.ringAdvance, withCount_bound hb, if_neg (by omega)]

theorem execRadvp_bound (hg : s.me.opens g) (hp : s.me.spoison a = false) (hb : s.bound h.val = some r) : exec (.radvp g h a) s = .next
    (if r.rd.slots < s.me.s[a].toNat ∨ r.free < s.me.s[a].toNat then s.trapRing r.desc 5 h.val
    else if s.me.s[a].toNat = 0 then s.advance
    else s.afterFence .cluster fun s =>
      (s.modRing s.me.loc.core.cluster r.asid s.me.part r.desc (Ring.produce s.me.s[a].toNat)).advance) := by
  rw [exec_radvp, execRadvp, withK_open _ _ _ hg]
  dsimp only
  rw [hp, withCount_bound hb]
  rfl

theorem execRadvc_goes (hg : s.me.opens g) (hp : s.me.spoison a = false) :
    exec (.radvc g h a) s = .next (s.ringAdvance h false s.me.s[a].toNat) := by
  rw [exec_radvc, execRadvc, withK_open _ _ _ hg, hp]
  rfl

/-! ### Binding (R262, R265) -/

/-- A ring that is new to the table. -/
def Cluster.addRing (r : Ring) (k : Cluster) : Cluster := { k with rings := k.rings ++ [r] }

/-- A new ring and its handle leave all else. -/
theorem addRing_frame (u : State) (h : HReg) (x : W64) (c : ClId) (f : Cluster → Cluster) :
    { ((u.setHandle h x).modCluster c f).advance with me := u.me, clusters := u.clusters } = u := by
  unfold State.setHandle State.modCluster State.modMe State.advance
  rfl

/-- A handle that is freed, with the rings to which none is bound any more, leaves all else. -/
theorem dropHandle_frame (s : State) (h : HReg) (x : W64) (c : ClId) :
    { ((s.setHandle h x).dropRings c).advance with me := s.me, clusters := s.clusters } = s := by
  unfold State.dropRings State.setHandle State.modCluster State.modMe State.advance
  rfl

theorem execRdef_snaps {bs : List Byte} {u : State} (hg : s.me.opens g) (hp : s.me.spoison a = false)
    (hs : s.snaps true s.me.s[a] 32 32 bs u) : exec (.rdef g h a) s = .next
      (if (u.bound h.val).isSome then u.trapRing s.me.s[a] 2 h.val
      else if !(parseRing bs).valid s.me.loc.core.cluster.die then u.trapRing s.me.s[a] 3 h.val
      else if (u.ring s.me.loc.core.cluster u.me.asid u.me.part s.me.s[a]).isSome then (u.setHandle h s.me.s[a]).advance
      else if 128 ≤ (u.cluster s.me.loc.core.cluster).ringCount then u.trapRing s.me.s[a] 4 h.val
      else ((u.setHandle h s.me.s[a]).modCluster s.me.loc.core.cluster
        (.addRing ⟨s.me.s[a], u.me.asid, none, parseRing bs, 0, 0, 0, 0, [], []⟩)).advance) := by
  rw [exec_rdef, execRdef, withK_open _ _ _ hg, State.rdef, hp, if_neg Bool.false_ne_true]
  exact congrArg Host.Outcome.next (withSnap_snaps hs _)

end

/-- Settles O18: each form is its equation on the entry that the handle names; an advance claims its slots one by one, and each lands, or is
freed, at once, as nothing else is under way on the ring. -/
theorem ringResult : Obligations.RingResult := by
  unfold Obligations.RingResult
  intro s g d a h ch n3 r hg hclean hawake
  have hp : s.me.spoison a = false := hclean
  dsimp only
  refine ⟨fun hb => ⟨fun hn => ?_, fun hn => ?_, fun hwake hslots hn => ?_, fun hwake hslots hn => ?_,
    fun ⟨hl, _, hw, _, _, hpos⟩ hc hslots hn hbuf h0 => ?_, fun i hi hcase ⟨_, hfr, _, hr, _, hpos⟩ hf hslots hn => ?_, fun hops => ?_⟩,
    fun bs u hs hnone hvalid => ⟨fun hsome => ?_, fun hfresh hcount => ?_⟩⟩
  · rw [exec_rslot, execRslot, withK_open _ _ _ hg, ringSlot_bound hp hb, if_neg (by omega)]
    rfl
  · rw [exec_rslotc, execRslotc, withK_open _ _ _ hg, ringSlot_bound hp hb, if_neg (by omega)]
    rfl
  · rw [exec_rwfull, execRwfull, withK_open _ _ _ hg, ringWait_met hp hb hwake hslots hn]
  · rw [exec_rwfree, execRwfree, withK_open _ _ _ hg, ringWait_met hp hb hwake hslots hn]
  · refine ⟨_, ?_, congrArg TG.advance (modRing_me hawake), modRing_ringsTo hb (produce_idle hl hc hw hpos _)⟩
    rw [execRadvp_bound hg hp hb, if_neg (by omega), if_neg (by omega), State.afterFence,
      if_pos (show s.fenceReady .cluster s.markOf = true from hbuf)]
  · have hstep : exec i.1 s = .next (s.ringAdvance h false i.2) := by
      simp only [List.mem_cons, List.not_mem_nil, or_false] at hi
      obtain rfl | rfl := hi
      · exact execRadvc_goes hg hp
      · obtain heq | heq := hcase
        · rw [exec_cRadvc, execCRadvc, show ch = h from Fin.ext heq]
        · cases heq
    exact ⟨_, hstep.trans (congrArg Host.Outcome.next (ringAdvance_goes hb hslots hn)), congrArg TG.advance (modRing_me hawake),
      modRing_ringsTo hb (consume_idle hfr hf hr hpos _)⟩
  · refine ⟨((s.setHandle h 0).dropRings s.me.loc.core.cluster).advance, ?_, rfl, dropHandle_frame ..⟩
    have hidle : s.names (fun x => x == h.val) = false := by
      simp only [State.names, List.any_eq_false, Bool.and_eq_true, beq_iff_eq, List.any_eq_true, not_and, not_exists]
      exact fun o ho htg x hx heq => hops o ho htg (heq ▸ hx)
    rw [exec_rundef, execRundef, withK_open _ _ _ hg, withRing_bound hb, hidle, if_neg Bool.false_ne_true]
  · rw [execRdef_snaps hg hp hs, hnone, hvalid, if_neg (by decide), if_neg (by decide), if_pos hsome]
    rfl
  · refine ⟨((u.setHandle h s.me.s[a]).modCluster s.me.loc.core.cluster
      (.addRing ⟨s.me.s[a], u.me.asid, none, parseRing bs, 0, 0, 0, 0, [], []⟩)).advance,
      (execRdef_snaps hg hp hs).trans ?_, rfl, ?_, addRing_frame ..⟩
    · rw [hnone, hvalid, if_neg (by decide), if_neg (by decide), hfresh, if_neg (by decide), if_neg (by omega)]
    · exact congrArg Cluster.rings (cluster_modCluster_self (u.setHandle h s.me.s[a]) _ (.addRing _))

/-- Settles O19: each misuse is a branch of the form's equation on the entry that the handle names, or on its lack. -/
theorem ringWaitsAndTraps : Obligations.RingWaitsAndTraps := by
  unfold Obligations.RingWaitsAndTraps
  intro s g d a h ch n3 r hg hclean
  have hp : s.me.spoison a = false := hclean
  dsimp only
  refine ⟨fun hnone i hi => ?_, fun hb => ⟨fun hslots i hi => ?_, fun hn => ?_, fun hn => ?_, fun heq hn => ?_, fun hn => ?_, fun hn => ?_,
    fun hwake hk10 h0 hslots => ⟨fun hn => ?_, fun hn => ?_⟩⟩, fun bs u hs => ⟨fun hbound => ?_, fun hnone hbad => ?_,
    fun hnone hvalid hfresh hcount => ?_⟩⟩
  · simp only [List.mem_cons, List.not_mem_nil, or_false] at hi
    rcases hi with rfl | rfl | rfl | rfl | rfl | rfl | rfl
    · rw [exec_rwfull, execRwfull, withK_open _ _ _ hg, State.ringWait, hp, withCount_unbound hnone]
    · rw [exec_rwfree, execRwfree, withK_open _ _ _ hg, State.ringWait, hp, withCount_unbound hnone]
    · rw [exec_radvp, execRadvp, withK_open _ _ _ hg]
      dsimp only
      rw [hp, withCount_unbound hnone]
    · rw [execRadvc_goes hg hp, State.ringAdvance, withCount_unbound hnone]
    · rw [exec_rslot, execRslot, withK_open _ _ _ hg, State.ringSlot, hp, if_neg Bool.false_ne_true, withRing_unbound hnone]
    · rw [exec_rslotc, execRslotc, withK_open _ _ _ hg, State.ringSlot, hp, if_neg Bool.false_ne_true, withRing_unbound hnone]
    · rw [exec_rundef, execRundef, withK_open _ _ _ hg, withRing_unbound hnone]
  · simp only [List.mem_cons, List.not_mem_nil, or_false] at hi
    rcases hi with rfl | rfl | rfl | rfl
    · rw [exec_rwfull, execRwfull, withK_open _ _ _ hg, ringWait_bound hp hb, if_pos hslots]
      rfl
    · rw [exec_rwfree, execRwfree, withK_open _ _ _ hg, ringWait_bound hp hb, if_pos hslots]
      rfl
    · rw [execRadvp_bound hg hp hb, if_pos (.inl hslots)]
      rfl
    · rw [execRadvc_goes hg hp, State.ringAdvance, withCount_bound hb, if_pos (.inl hslots)]
      rfl
  · rw [execRadvp_bound hg hp hb, if_pos (.inr hn)]
    rfl
  · rw [execRadvc_goes hg hp, State.ringAdvance, withCount_bound hb, if_pos (.inr hn)]
    rfl
  · rw [exec_cRadvc, execCRadvc, show ch = h from Fin.ext heq, State.ringAdvance, withCount_bound hb, if_pos hn]
    rfl
  · rw [exec_rslot, execRslot, withK_open _ _ _ hg, ringSlot_bound hp hb, if_pos hn]
    rfl
  · rw [exec_rslotc, execRslotc, withK_open _ _ _ hg, ringSlot_bound hp hb, if_pos hn]
    rfl
  · rw [exec_rwfull, execRwfull, withK_open _ _ _ hg, ringWait_parks hp hb hwake hk10 hslots hn]
  · rw [exec_rwfree, execRwfree, withK_open _ _ _ hg, ringWait_parks hp hb hwake hk10 hslots hn]
  · rw [execRdef_snaps hg hp hs, if_pos (Option.isSome_iff_ne_none.mpr hbound)]
    rfl
  · rw [execRdef_snaps hg hp hs, hnone, hbad, if_neg (by decide), if_pos (by decide)]
    rfl
  · rw [execRdef_snaps hg hp hs, hnone, hvalid, if_neg (by decide), if_neg (by decide), hfresh, if_neg (by decide), if_pos hcount]
    rfl

end Sys2Proof.Machine
end

section
/-! SUPPORT. O21: copies that start (R267 to R270, R282). -/

namespace Sys2Proof.Machine

open Sys2Proof

/-! ### Claims of ring slots (R264) -/

/-- A wait that is not ended and whose condition is met takes its outcome. -/
theorem waitFor_goes {s : State} (kind : Nat) (obj : W64) (done : State → State) (hwake : s.me.wake ≠ some .ended) :
    s.waitFor kind obj true done = done s := by
  rw [State.waitFor, if_neg hwake, if_pos rfl]

section
variable {s : State} {c : ClId} {asid : Half} {part : PieceId} {desc : W64} {f : Ring → Ring}

/-- A claim of slots leaves all but the tables of rings and the waits on them. -/
theorem modRing_claims {r : Ring} (h : s.ring c asid part desc = some r) (hawake : ∀ k o, s.me.status ≠ .parked k o) :
    s.Claims (s.modRing c asid part desc f) :=
  ⟨congrArg (fun x : State => { x with cores := s.cores }) (modRing_frame hawake), fun d => by
    rw [modRing_cluster h]
    split
    next hd => rw [hd]
    next => rfl⟩

end

theorem modRing_bound_rings {s : State} {h : Nat} {r : Ring} {f : Ring → Ring} (hb : s.bound h = some r) :
    ((s.modRing s.me.loc.core.cluster r.asid s.me.part r.desc f).cluster s.me.loc.core.cluster).rings =
      updFirst r.is f (s.cluster s.me.loc.core.cluster).rings := by
  obtain ⟨hring, hasid⟩ := bound_ring hb
  rw [← hasid] at hring
  rw [modRing_cluster hring, if_pos rfl]

/-! ### Copies -/

section
variable {s u u1 u2 : State} {a : UReg} {k : TReg} {bs : List Byte} {ms md : TMap}

/-- A copy between two maps whose structures are read and pass their checks issues its operation. -/
theorem cpy_issues {kind : Nat} (hp : s.me.spoison a = false) (hs : s.snaps false s.me.s[a] 64 64 bs u) (hflags : (parsePkt bs).flags / 8 = 0)
    (hms : u.snapsMap (parsePkt bs).src ms u1) (hmd : u1.snapsMap (parsePkt bs).dst md u2)
    (hok : copyOk kind (parsePkt bs) (some ms) (some md) = true) :
    s.cpy kind k a = u2.issueOp (.copy kind) (some k.val) bs s.me.s[a] [ms, md] false
      (some (ms.lockRanges (parsePkt bs).so (parsePkt bs).ext, md.ranges (parsePkt bs).do_ ((parsePkt bs).dext kind))) [] id := by
  rw [State.cpy, hp, if_neg Bool.false_ne_true]
  refine (withSnap_snaps hs _).trans ?_
  dsimp only
  rw [withMap_snapsMap hms, withMap_snapsMap hmd, hflags, hok, if_neg (by simp)]
  rfl

/-- CPYR whose structures are read and pass their checks, with a free slot in its ring, issues its operation. -/
theorem cpyr_issues {h : HReg} {r : Ring} (hp : s.me.spoison a = false) (hs : s.snaps false s.me.s[a] 64 64 bs u)
    (hflags : (parsePkt bs).flags / 8 = 0) (hms : u.snapsMap (parsePkt bs).src ms u1) (hb : u1.bound h.val = some r)
    (hsize : tileSize ms.fmt (parsePkt bs).ext ≤ r.rd.slotBytes) (hok : copyOk 1 (parsePkt bs) (some ms) none = true)
    (hwake : s.me.wake = none) (hfree : r.free ≠ 0) :
    s.cpyr k h a = u1.issueOp (.copyRing r.desc r.w) (some k.val) bs s.me.s[a] [ms] false
      (some (ms.lockRanges (parsePkt bs).so (parsePkt bs).ext, [])) [h.val]
      (fun s => s.modRing s.me.loc.core.cluster r.asid s.me.part r.desc (Ring.claimW 1)) := by
  have hstill : u1.me.wake ≠ some .ended := by
    rw [(hs.peeks.trans hms.peeks).wake, hwake]
    exact nofun
  rw [State.cpyr, hp, if_neg Bool.false_ne_true]
  refine (withSnap_snaps hs _).trans ?_
  dsimp only
  rw [withMap_snapsMap hms, withRing_bound hb, if_neg (by simp; omega), hflags, hok, if_neg (by simp), bne_iff_ne.mpr hfree,
    waitFor_goes _ _ _ hstill]
  rfl

end

/-- Settles O21: the structures that a copy reads leave the machine but for what reading leaves, and its operation starts on it. -/
theorem copyStarts : Obligations.CopyStarts := by
  unfold Obligations.CopyStarts
  intro s u u1 u2 g k a h bs ms md r hg hclean hawake hs hflags hms
  dsimp only
  have hp : s.me.spoison a = false := hclean
  refine ⟨fun i hi hmd hok hmay => ?_, fun hb hok hsize hwake hfree hmay => ?_⟩
  · have hstep : exec i.1 s = .next (s.cpy i.2.1 k a) ∧ (parsePkt bs).dext i.2.1 = i.2.2 := by
      simp only [List.mem_cons, List.not_mem_nil, or_false] at hi
      rcases hi with rfl | rfl | rfl
      · exact ⟨congrArg Host.Outcome.next (withK_open _ _ _ hg), rfl⟩
      · exact ⟨congrArg Host.Outcome.next (withK_open _ _ _ hg), rfl⟩
      · exact ⟨congrArg Host.Outcome.next (withK_open _ _ _ hg), rfl⟩
    obtain ⟨hexec, hext⟩ := hstep
    have ht := issueOp_issues (kind := .copy i.2.1) (pkt := bs) (at_ := s.me.s[a]) (maps := [ms, md]) (hs := [])
      (lock := some (ms.lockRanges (parsePkt bs).so (parsePkt bs).ext, md.ranges (parsePkt bs).do_ ((parsePkt bs).dext i.2.1)))
      (act := id) (State.Claims.refl u2) (rfl : false = false) hmay
    exact ⟨_, hexec.trans (congrArg Host.Outcome.next (cpy_issues hp hs hflags hms hmd hok)), ht.starts, hext ▸ ht.locks, ht.tgs, ht.cores⟩
  · obtain ⟨hring, hasid⟩ := bound_ring hb
    rw [← hasid] at hring
    have hpeeks := hs.peeks.trans hms.peeks
    have ht := issueOp_issues (kind := .copyRing r.desc r.w) (pkt := bs) (at_ := s.me.s[a]) (maps := [ms]) (hs := [h.val])
      (lock := some (ms.lockRanges (parsePkt bs).so (parsePkt bs).ext, []))
      (act := fun s => s.modRing s.me.loc.core.cluster r.asid s.me.part r.desc (Ring.claimW 1))
      (modRing_claims hring (hpeeks.awake hawake)) (rfl : false = false) hmay
    refine ⟨_, (congrArg Host.Outcome.next (withK_open _ _ _ hg)).trans
      (congrArg Host.Outcome.next (cpyr_issues hp hs hflags hms hb hsize hok hwake hfree)), ht.starts, ht.locks, ?_⟩
    rw [← hpeeks.loc]
    exact (ht.rings _).trans (modRing_bound_rings hb)

end Sys2Proof.Machine
end

section
/-! SUPPORT. O22: gather streams that start, are read and stop (R276, R278). -/

namespace Sys2Proof.Machine

open Sys2Proof

section
variable {s u u1 u2 : State} {a : UReg} {k : TReg} {h : HReg} {bs : List Byte} {ms mg : TMap} {r : Ring}

/-- What the operation of a stream locks: the rows that its indices may name, and the indices. -/
def GDesc.locks (g : GDesc) (ms : TMap) : List (Nat × Nat) × List (Nat × Nat) :=
  (ms.lockRanges [g.c0, 0, g.o2, g.o3] [g.width, ms.dim 1, 1, 1] ++ [(g.idx.toNat, g.idx.toNat + 4 * g.count)], [])

/-- What GSTAT has shown of a stream that ended on the token goes. -/
def State.forgets (k : Nat) (s : State) : State := { s with me := { s.me with gstat := kdel k s.me.gstat } }

/-- GSTART whose structures are read and pass their checks issues its stream. -/
theorem gstart_issues (hp : s.me.spoison a = false) (hs : s.snaps false s.me.s[a] 64 64 bs u)
    (hms : u.snapsMap (parseGather bs).smap ms u1) (hmg : u1.snapsMap (parseGather bs).gmap mg u2) (hb : u2.bound h.val = some r)
    (hsize : tileSize mg.fmt (parseGather bs).slotExt ≤ r.rd.slotBytes) (hunused : ∀ o ∈ u2.ops, EngOp.isStream u2.me.loc k.val o = false)
    (hok : (parseGather bs).ok ms mg = true) (hroom : u2.streams u2.me.loc.core.cluster < 8) :
    s.gstart k h a = u2.issueOp (.gather r.desc bs 0 false none) (some k.val) bs s.me.s[a] [ms, mg] false
      (some ((parseGather bs).locks ms))
      [h.val] (State.forgets k.val) := by
  have hnone : u2.ops.any (EngOp.isStream u2.me.loc k.val) = false := by simpa using hunused
  rw [State.gstart, hp, if_neg Bool.false_ne_true]
  refine (withSnap_snaps hs _).trans ?_
  dsimp only
  rw [withMap_snapsMap hms, withMap_snapsMap hmg, withRing_bound hb, if_neg (by simp; omega), hnone, if_neg Bool.false_ne_true, hok,
    if_neg (by decide), decide_eq_false (by omega)]
  rfl

/-- An operation of the thread group in focus ends: no operation of its number is left, and its token counts one less. -/
theorem endOp_counted {o : EngOp} {t : Nat} (hfind : s.ops.find? (fun x => x.id == o.id) = some o) (htg : o.tg = some s.me.loc)
    (htok : o.tok = some t) : (s.endOp o.id).me = s.me.addTok t false := by
  rw [State.endOp, hfind]
  dsimp only
  rw [htg, htok]
  exact congrArg (fun x : State => x.me) (if_pos rfl)

/-- A stream that is stopped between slots ends, and GSTAT shows it stopped. -/
theorem stopStream_between {o : EngOp} {ring : W64} {desc : List Byte} {row : Nat} {stop : Bool} {t : Nat}
    (hfind : s.ops.find? (fun x => x.id == o.id) = some o) (hkind : o.kind = .gather ring desc row stop none) (htg : o.tg = some s.me.loc)
    (htok : o.tok = some t) : s.stopStream o =
      { (s.endOp o.id).pruneFaults with
        me := { (s.me.addTok t false) with gstat := kset t (BitVec.ofNat 64 (row % 2 ^ 32 + 4 * 2 ^ 32)) s.me.gstat } } := by
  have hme : (s.endOp o.id).pruneFaults.me = s.me.addTok t false := endOp_counted hfind htg htok
  rw [State.stopStream, hkind]
  dsimp only
  rw [htg, htok]
  dsimp only
  rw [State.modTg, if_pos (show (s.endOp o.id).pruneFaults.me.loc = s.me.loc by rw [hme]; rfl), hme]
  rfl

end

/-- Settles O22: GSTART issues its stream once its structures are read, and the word of GSTAT and the end by GSTOP are those of the
stream of the thread group on the token. -/
theorem gatherResult : Obligations.GatherResult := by
  unfold Obligations.GatherResult
  intro s u u1 u2 g d a k h bs ms mg r o ring desc row stop claimed hg
  dsimp only
  refine ⟨fun hclean hs hms hmg hb hsize hunused hok hroom hmay => ?_, fun hnone => ?_, fun hfind hkind hunique => ⟨?_, fun hbetween => ?_,
    fun i hi => ?_⟩⟩
  · have hpeeks := (hs.peeks.trans hms.peeks).trans hmg.peeks
    rw [← hpeeks.loc] at hunused hroom
    have hsame := (issueOp_launches (tok := some k) (kind := .gather r.desc bs 0 false none) (pkt := bs) (at_ := s.me.s[a]) (maps := [ms, mg])
      (lock := some ((parseGather bs).locks ms)) (hs := [h.val]) (act := .forgets k.val) (rfl : false = false) hmay).trans
      (issueOp_launches (s := u2.forgets k.val) (tok := some k) (lock := some ((parseGather bs).locks ms)) (act := id)
        (rfl : false = false) hmay).symm
    have ht := issueOp_issues (s := u2.forgets k.val) (kind := .gather r.desc bs 0 false none)
      (pkt := bs) (at_ := s.me.s[a]) (maps := [ms, mg]) (hs := [h.val]) (tok := some k) (lock := some ((parseGather bs).locks ms))
      (act := id) (State.Claims.refl _) (rfl : false = false) hmay
    rw [← hsame] at ht
    refine ⟨_, (congrArg Host.Outcome.next (withK_open _ _ _ hg)).trans
      (congrArg Host.Outcome.next (gstart_issues hclean hs hms hmg hb hsize hunused hok hroom)), ?_, ht.locks⟩
    obtain ⟨⟨hops, hme, hrest⟩, -⟩ := ht
    exact ⟨hops, hme, congrArg (fun x : State => { x with clusters := u2.clusters }) hrest⟩
  · have hfind : s.ops.find? (EngOp.isStream s.me.loc k.val) = none := by simpa using hnone
    constructor
    · rw [exec_gstat, execGstat, withK_open _ _ _ hg, State.gstatOf, hfind]
      rfl
    · rw [exec_gstop, execGstop, withK_open _ _ _ hg, State.gstop, hfind]
      rfl
  · rw [exec_gstat, execGstat, withK_open _ _ _ hg, State.gstatOf, hfind]
    dsimp only
    rw [hkind]
    rfl
  · obtain ⟨⟨htg, htok⟩, -⟩ : (o.tg = some s.me.loc ∧ o.tok = some k.val) ∧ _ := by
      simpa [EngOp.isStream] using List.find?_some hfind
    subst hbetween
    have hfirst : s.ops.find? (fun x => x.id == o.id) = some o :=
      find?_unique (List.mem_of_find?_eq_some hfind) (beq_self_eq_true o.id) fun x hx h => hunique x hx (beq_iff_eq.mp h)
    have hstop : exec (.gstop g k) s = .next (s.stopStream o).advance := by
      rw [exec_gstop, execGstop, withK_open _ _ _ hg, State.gstop, hfind]
    rw [stopStream_between hfirst hkind htg htok] at hstop
    exact ⟨_, hstop, (endOp_result s o.id).1, rfl⟩
  · subst hi
    rw [exec_gstop, execGstop, withK_open _ _ _ hg, State.gstop, hfind]
    dsimp only
    rw [State.stopStream, hkind]
    rfl

end Sys2Proof.Machine
end

section
/-! SUPPORT. O23: the tiles of a core, and the operations that join its queue (R251 to R253, R259). -/

namespace Sys2Proof.Machine

open Sys2Proof

/-! ### Tiles (R41, R252) -/

/-- The task in focus, or its piece, holds the tiles of its core. -/
def State.mineTiles (s : State) : Prop :=
  (s.core s.me.loc.core).mowner = s.me.task ∧ (s.core s.me.loc.core).mpiece = s.me.piece

theorem ownsTiles_iff (s : State) : s.ownsTiles = true ↔ s.mineTiles := by
  simp [State.ownsTiles, State.mineTiles]

/-- The core once its tiles are claimed. -/
def State.claimedCore (s : State) : Core :=
  if (s.core s.me.loc.core).mowner = s.me.task ∧ (s.core s.me.loc.core).mpiece = s.me.piece then s.core s.me.loc.core
  else { s.core s.me.loc.core with mowner := s.me.task, mpiece := s.me.piece, a0 := .zero, a1 := .zero, mctx := none }

/-- The claim of a core's tiles finds them at zero, with no context. -/
def Core.takenBy (k : Core) (task : W64) (piece : Nat) : Core := { k with mowner := task, mpiece := piece, a0 := .zero, a1 := .zero, mctx := none }

theorem claimedCore_mine {s : State} (h : s.mineTiles) : s.claimedCore = s.core s.me.loc.core := if_pos h
theorem claimedCore_taken {s : State} (h : ¬s.mineTiles) : s.claimedCore = (s.core s.me.loc.core).takenBy s.me.task s.me.piece := if_neg h

theorem claimTiles_taken {s : State} (h : ¬s.mineTiles) :
    s.claimTiles = s.modCore s.me.loc.core (·.takenBy s.me.task s.me.piece) := if_neg (mt (ownsTiles_iff s).mp h)
theorem claimTiles_mine {s : State} (h : s.mineTiles) : s.claimTiles = s := if_pos ((ownsTiles_iff s).mpr h)

theorem claimTiles_core (s : State) (c : CoreId) :
    s.claimTiles.core c = if c = s.me.loc.core then s.claimedCore else s.core c := by
  by_cases h : s.mineTiles
  · rw [claimTiles_mine h, claimedCore_mine h]
    split
    next hc => rw [hc]
    next => rfl
  · rw [claimTiles_taken h, claimedCore_taken h, core_modCore]

theorem claimTiles_frame (s : State) : { s.claimTiles with cores := s.cores } = s := by
  unfold State.claimTiles
  split <;> rfl

theorem claimTiles_me (s : State) : s.claimTiles.me = s.me := (congrArg (fun x : State => x.me) (claimTiles_frame s) :)

theorem claimTiles_claims (s : State) : s.Claims s.claimTiles :=
  ⟨congrArg (fun x : State => { x with
    tgs := s.tgs
    clusters := s.clusters }) (claimTiles_frame s), fun c => (congrArg (fun x : State => (x.cluster c).locks) (claimTiles_frame s) :)⟩

theorem myCtx_eq (s : State) : s.myCtx = s.claimedCore.mctx := by
  by_cases h : s.mineTiles
  · rw [claimedCore_mine h]
    exact if_pos ((ownsTiles_iff s).mpr h)
  · rw [claimedCore_taken h]
    exact if_neg (mt (ownsTiles_iff s).mp h)

/-- No other task holds the tiles: the instruction goes on. -/
theorem withTiles_goes {s : State} (hwake : s.me.wake ≠ some .ended) (htiles : (s.core s.me.loc.core).mowner = 0 ∨ s.mineTiles)
    (f : State → State) : s.withTiles f = f s := by
  rw [State.withTiles, if_neg hwake, if_pos (htiles.imp_right (ownsTiles_iff s).mpr)]

section
variable {s u : State} (h : s.Peeks u)
include h

theorem State.Peeks.piece : u.me.piece = s.me.piece := by rw [h.me]

theorem State.Peeks.mineTiles : u.mineTiles ↔ s.mineTiles := by
  rw [State.mineTiles, h.loc, h.core, h.task, h.piece]
  rfl

theorem State.Peeks.claimedCore : u.claimedCore = s.claimedCore := by
  rw [State.claimedCore, h.loc, h.core, h.task, h.piece]
  rfl

end

/-! ### Operations of the queue (R253) -/

theorem State.Issues.core {s v t : State} {kind : EKind} {tok : Option (Fin 8)} {pkt : List Byte} {at_ : W64} {maps : List TMap}
    {hs : List Nat} {lock : Option (List (Nat × Nat) × List (Nat × Nat))} (h : s.Issues v t kind tok pkt at_ maps hs lock) (c : CoreId) :
    t.core c = v.core c :=
  congrArg (fun cs => kget Core.zero cs c) h.cores

/-- An operation of the queue that claims the tiles starts, and only its own core has changed. -/
theorem issueOp_claimsTiles {s : State} {kind : EKind} {tok : Option (Fin 8)} {at_ : W64} {lock : Option (List (Nat × Nat) × List (Nat × Nat))}
    (hfull : s.matFull = false) (hmay : s.mayIssue tok lock.isSome) :
    let t := s.issueOp kind (tok.map (·.val)) [] at_ [] s.matFull lock [] State.claimTiles
    s.starts t kind tok [] at_ [] [] ∧ (t.core s.me.loc.core = s.claimedCore ∧ ∀ x, x ≠ s.me.loc.core → t.core x = s.core x) ∧
      s.locks t lock := by
  have ht := issueOp_issues (kind := kind) (pkt := []) (at_ := at_) (maps := []) (hs := []) (claimTiles_claims s) hfull hmay
  exact ⟨ht.starts, ⟨(ht.core _).trans ((claimTiles_core s _).trans (if_pos rfl)),
    fun x hx => (ht.core x).trans ((claimTiles_core s x).trans (if_neg hx))⟩, ht.locks⟩

/-- MCFG claims the tiles and sets their format context. -/
def State.setsCtx (c : FmtCtx) (s : State) : State := s.claimTiles.modCore s.me.loc.core (fun k => { k with mctx := some c })

theorem setsCtx_core (c : FmtCtx) (s : State) (x : CoreId) :
    (s.setsCtx c).core x = if x = s.me.loc.core then { s.claimedCore with mctx := some c } else s.core x := by
  rw [State.setsCtx, core_modCore, claimTiles_core, if_pos rfl, claimTiles_core]
  split
  · rfl
  · rfl

theorem setsCtx_claims (c : FmtCtx) (s : State) : s.Claims (s.setsCtx c) :=
  ⟨(claimTiles_claims s).eq, (claimTiles_claims s).locks⟩

theorem issueOp_setsCtx {s u : State} (hu : s.Peeks u) (c : FmtCtx) (hfull : u.matFull = false) (hmay : u.mayIssue none false) :
    let t := u.issueOp .mcfg none [] 0 [] u.matFull none [] (State.setsCtx c)
    u.starts t .mcfg none [] 0 [] [] ∧ t.core s.me.loc.core = { s.claimedCore with mctx := some c } ∧
      ∀ x, x ≠ s.me.loc.core → t.core x = s.core x := by
  have ht := issueOp_issues (kind := .mcfg) (pkt := []) (at_ := 0) (maps := []) (hs := []) (lock := none) (setsCtx_claims c u) hfull hmay
  rw [← hu.loc, ← hu.claimedCore]
  exact ⟨ht.starts, (ht.core _).trans ((setsCtx_core c u _).trans (if_pos rfl)), fun x hx =>
    (ht.core x).trans ((setsCtx_core c u x).trans ((if_neg hx).trans (hu.core x)))⟩

/-- MSTAT joins the queue, and its thread group stalls on it. -/
theorem queueMstat_goes {s : State} {acc : Nat} (hfull : s.matFull = false) (hlog : s.logClear s.me.loc = true) :
    s.queueMstat acc = { s.claimTiles with
      me := { s.me with
        phase := { s.me.phase with req := some s.seq }
        status := .stalled }
      ops := s.ops ++ [s.mkOp (.mstat acc) none [] 0 [] []]
      seq := s.seq + 1 } := by
  have hframe := claimTiles_frame s
  have hops : s.claimTiles.ops = s.ops := (congrArg (fun x : State => x.ops) hframe :)
  have hseq : s.claimTiles.seq = s.seq := (congrArg (fun x : State => x.seq) hframe :)
  have hop : s.claimTiles.mkOp (.mstat acc) none [] 0 [] [] = s.mkOp (.mstat acc) none [] 0 [] [] :=
    (congrArg (fun x : State => x.mkOp (.mstat acc) none [] 0 [] []) hframe :)
  have hme := claimTiles_me s
  unfold State.queueMstat
  rw [hfull, hlog, if_neg (by decide)]
  generalize s.claimTiles = v at *
  rw [← hop, ← hops, ← hseq, ← hme]
  rfl

section
variable {s u : State} {g : Guard} {a : UReg}

theorem execMcfg_issues {bs : List Byte} (hg : s.me.opens g) (hwake : s.me.wake ≠ some .ended)
    (htiles : (s.core s.me.loc.core).mowner = 0 ∨ s.mineTiles) (hp : s.me.spoison a = false) (hs : s.snaps false s.me.s[a] 32 32 bs u)
    (hok : (parseCtx bs).2 = true) : exec (.mcfg g a) s = .next
      (u.issueOp .mcfg none [] 0 [] u.matFull none [] (State.setsCtx (parseCtx bs).1)) := by
  rw [exec_mcfg, execMcfg, withK_open _ _ _ hg, withTiles_goes hwake htiles, hp, if_neg Bool.false_ne_true]
  dsimp only
  refine congrArg Host.Outcome.next ((withSnap_snaps hs _).trans ?_)
  rw [hok]
  rfl

theorem withArea_goes {write : Bool} (hp : s.me.spoison a = false) (haddr : addrCheck s.mode s.me.super write s.me.s[a].toNat 327744 = .ok)
    (halign : s.me.s[a].toNat % 128 = 0) (f : State → W64 → State) : s.withArea write a f = f s s.me.s[a] := by
  have haddr : addrCheck s.mode s.me.super write (s.me.sget a).toNat saveBytes = .ok := haddr
  rw [State.withArea, hp, if_neg Bool.false_ne_true]
  dsimp only
  rw [haddr]
  exact if_neg (not_not.mpr halign)

variable {k : TReg} {acc : AReg} (hg : s.me.opens g) (hwake : s.me.wake ≠ some .ended)
  (htiles : (s.core s.me.loc.core).mowner = 0 ∨ s.mineTiles) (hp : s.me.spoison a = false)
include hg hwake htiles hp

theorem execMsave_issues (haddr : addrCheck s.mode s.me.super true s.me.s[a].toNat 327744 = .ok) (halign : s.me.s[a].toNat % 128 = 0) :
    exec (.msave g k acc a) s = .next (s.issueOp (.msave acc.val s.claimedCore.mctx s.me.s[a]) (some k.val) [] s.me.s[a] [] s.matFull
      (some ([], [(s.me.s[a].toNat, s.me.s[a].toNat + 327744)])) [] State.claimTiles) := by
  rw [exec_msave, execMsave, withK_open _ _ _ hg, withTiles_goes hwake htiles, withArea_goes hp haddr halign, myCtx_eq]
  rfl

theorem execMload_issues (haddr : addrCheck s.mode s.me.super false s.me.s[a].toNat 327744 = .ok) (halign : s.me.s[a].toNat % 128 = 0) :
    exec (.mload g k acc a) s = .next (s.issueOp (.mload acc.val s.me.s[a]) (some k.val) [] s.me.s[a] [] s.matFull
      (some ([(s.me.s[a].toNat, s.me.s[a].toNat + 327744)], [])) [] State.claimTiles) := by
  rw [exec_mload, execMload, withK_open _ _ _ hg, withTiles_goes hwake htiles, withArea_goes hp haddr halign]
  rfl

end

section
variable {s : State} {g : Guard} {d : UReg} {acc : AReg} (hg : s.me.opens g) (hwake : s.me.wake ≠ some .ended)
  (htiles : (s.core s.me.loc.core).mowner = 0 ∨ s.mineTiles) (hphase : s.me.phase = .start)
include hg hwake htiles hphase

/-- With an empty queue MSTAT reads the tile at once. -/
theorem execMstat_now (hempty : s.matOps s.me.loc.core = []) : exec (.mstat g d acc) s =
    .next (s.claimTiles.ends fun t => t.setS d (BitVec.ofNat 64 (s.claimedCore.tile acc.val).status) false) := by
  have hcore := (claimTiles_core s s.me.loc.core).trans (if_pos rfl)
  have hme := claimTiles_me s
  rw [exec_mstat, execMstat, withK_open _ _ _ hg, withTiles_goes hwake htiles, hphase, hempty, ← hcore]
  generalize s.claimTiles = v at *
  rw [← hme]
  rfl

theorem execMstat_queues (hqueued : s.matOps s.me.loc.core ≠ []) : exec (.mstat g d acc) s = .next (s.queueMstat acc.val) := by
  rw [exec_mstat, execMstat, withK_open _ _ _ hg, withTiles_goes hwake htiles, hphase]
  exact congrArg Host.Outcome.next (if_pos hqueued)

end

theorem ends_cores_frame {s v : State} (h : { v with cores := s.cores } = s) (f : TG → TG) :
    { v.ends f with cores := s.cores } = s.ends f :=
  congrArg (fun x : State => x.ends f) h

/-- Settles O23: an operation that claims the tiles starts once its structures are read; MSTAT reads the tile of the claimed core. -/
theorem matrixSetupResult : Obligations.MatrixSetupResult := by
  unfold Obligations.MatrixSetupResult
  intro s u g d a k acc bs hg hwake
  dsimp only
  intro htiles
  refine ⟨fun hp hs hok hfull hmay => ?_, fun hphase hempty => ?_, fun hphase hqueued hfull hlog => ?_, fun hfull hmay => ?_,
    fun hfull hmay hp halign x hx haddr => ?_⟩
  · obtain ⟨hstarts, hcore⟩ := issueOp_setsCtx hs.peeks (parseCtx bs).1 hfull hmay
    exact ⟨_, execMcfg_issues hg hwake htiles hp hs hok, hstarts, hcore⟩
  · exact ⟨_, execMstat_now hg hwake htiles hphase hempty,
      ⟨(claimTiles_core s _).trans (if_pos rfl), fun x hx => (claimTiles_core s x).trans (if_neg hx)⟩, ends_cores_frame (claimTiles_frame s) _⟩
  · refine ⟨s.queueMstat acc.val, execMstat_queues hg hwake htiles hphase hqueued, ?_⟩
    rw [queueMstat_goes hfull hlog]
    have hrest := congrArg (fun x : State => { x with me := s.me, ops := s.ops, seq := s.seq }) (claimTiles_frame s)
    have hcore := claimTiles_core s
    generalize s.claimTiles = v at *
    exact ⟨⟨(hcore _).trans (if_pos rfl), fun x hx => (hcore x).trans (if_neg hx)⟩, rfl, rfl, rfl, hrest⟩
  · obtain ⟨hstarts, hcore, -⟩ := issueOp_claimsTiles (kind := .mzero acc.val) (at_ := 0) (lock := none) hfull hmay
    exact ⟨_, (exec_mzero ..).trans (congrArg Host.Outcome.next ((withK_open _ _ _ hg).trans (withTiles_goes hwake htiles _))), hstarts, hcore⟩
  · simp only [List.mem_cons, List.not_mem_nil, or_false] at hx
    rcases hx with rfl | rfl
    · obtain ⟨hstarts, hcore, hlocks⟩ := issueOp_claimsTiles (kind := .msave acc.val s.claimedCore.mctx (s.me.s.get a)) (tok := some k)
        (at_ := s.me.s.get a) (lock := some ([], [((s.me.s.get a).toNat, (s.me.s.get a).toNat + 327744)])) hfull hmay
      exact ⟨_, execMsave_issues hg hwake htiles hp haddr halign, hstarts, hcore, hlocks⟩
    · obtain ⟨hstarts, hcore, hlocks⟩ := issueOp_claimsTiles (kind := .mload acc.val (s.me.s.get a)) (tok := some k)
        (at_ := s.me.s.get a) (lock := some ([((s.me.s.get a).toNat, (s.me.s.get a).toNat + 327744)], [])) hfull hmay
      exact ⟨_, execMload_issues hg hwake htiles hp haddr halign, hstarts, hcore, hlocks⟩

end Sys2Proof.Machine
end

section
/-! SUPPORT. O24: multiplications and drains that start (R253 to R257, R262, R264). -/

namespace Sys2Proof.Machine

open Sys2Proof

/-! ### Slots of two rings (R264) -/

/-- Changes of elements that a filter leaves out do not show in it. -/
theorem filter_updFirst_of_not {α : Type} {p q : α → Bool} {f : α → α} (l : List α)
    (hp : ∀ a, p a = true → q a = false ∧ q (f a) = false) :
    (updFirst p f l).filter q = l.filter q := by
  induction l with
  | nil => rfl
  | cons a l ih =>
    rw [updFirst]
    split
    next ha =>
      obtain ⟨hq, hqf⟩ := hp a ha
      rw [List.filter_cons_of_neg (by simp [hqf]), List.filter_cons_of_neg (by simp [hq])]
    next => rw [List.filter_cons, List.filter_cons, ih]

/-- A change of a ring that keeps its key leaves the rings of other descriptors. -/
theorem ring_modRing_other {s : State} {c : ClId} {asid asid' : Half} {part part' : PieceId} {desc desc' : W64} {f : Ring → Ring} {r : Ring}
    (hr : s.ring c asid part desc = some r) (hf : ∀ x, (f x).desc = x.desc) (hne : desc ≠ desc') :
    (s.modRing c asid part desc f).ring c asid' part' desc' = s.ring c asid' part' desc' := by
  obtain ⟨rfl, -, -⟩ := ring_found hr
  rw [State.ring, modRing_cluster hr, if_pos rfl]
  dsimp only
  rw [filter_updFirst_of_not, State.ring]
  intro x hx
  obtain ⟨⟨hdesc, -⟩, -⟩ : (x.desc = r.desc ∧ x.asid = r.asid) ∧ x.part = r.part := by simpa [Ring.is] using hx
  simp [hf, hdesc, hne]

/-- A slot of each of two rings, claimed at R. -/
def State.eatsTwo (a b : Ring) (s : State) : State :=
  (s.modRing s.me.loc.core.cluster a.asid s.me.part a.desc (Ring.claimR 1)).modRing s.me.loc.core.cluster b.asid s.me.part b.desc
    (Ring.claimR 1)

/-- What a multiplication claims: the tiles, and a slot of each of its rings. -/
def State.takesTwo (c : ClId) (a b : Ring) (s : State) : State :=
  (s.claimTiles.modRing c a.asid s.me.part a.desc (Ring.claimR 1)).modRing c b.asid s.me.part b.desc (Ring.claimR 1)

section
variable {s : State} {ra rb : Ring} (ha : s.ring s.me.loc.core.cluster ra.asid s.me.part ra.desc = some ra)
  (hb : s.ring s.me.loc.core.cluster rb.asid s.me.part rb.desc = some rb) (hne : ra.desc ≠ rb.desc)
include ha hb hne

theorem eatsTwo_second : (s.modRing s.me.loc.core.cluster ra.asid s.me.part ra.desc (Ring.claimR 1)).ring s.me.loc.core.cluster rb.asid
    s.me.part rb.desc = some rb :=
  (ring_modRing_other (f := Ring.claimR 1) ha (fun _ => rfl) hne).trans hb

theorem eatsTwo_rings : ((s.eatsTwo ra rb).cluster s.me.loc.core.cluster).rings =
    updFirst rb.is (Ring.claimR 1) (updFirst ra.is (Ring.claimR 1) (s.cluster s.me.loc.core.cluster).rings) := by
  rw [State.eatsTwo, modRing_cluster (eatsTwo_second ha hb hne), if_pos rfl, modRing_cluster ha, if_pos rfl]

theorem eatsTwo_claims (hawake : ∀ k o, s.me.status ≠ .parked k o) : s.Claims (s.eatsTwo ra rb) := by
  have hme := modRing_me (c := s.me.loc.core.cluster) (asid := ra.asid) (part := s.me.part) (desc := ra.desc) (f := Ring.claimR 1) hawake
  exact (modRing_claims ha hawake).trans (modRing_claims (eatsTwo_second ha hb hne) (by rw [hme]; exact hawake))

end

/-! ### Checks of a multiplication (R255) -/

theorem isPoisoned_within {p : List Nat} {a n b m : Nat} (h : isPoisoned p a n = false) (hlo : a ≤ b) (hhi : b + m ≤ a + n) :
    isPoisoned p b m = false := by
  unfold isPoisoned at *
  rw [List.any_eq_false] at *
  intro x hx
  have := h x hx
  simp only [Bool.and_eq_true, decide_eq_true_eq] at *
  omega

section
variable {s : State}

theorem withTag_clean {r : Ring} {c : ClId} {i : Nat} (h : isPoisoned s.poison (r.tagAddr c i) 16 = false)
    (k : State → W64 × List Byte → State) :
    s.withTag r c i k = k s (word8 (memBytes s.mem (r.tagAddr c i) 16) 0, (memBytes s.mem (r.tagAddr c i) 16).drop 8) := by
  have hclean : (List.range 4).find? (fun n => isPoisoned s.poison (r.tagAddr c i + 4 * n) 4) = none := by
    refine List.find?_eq_none.mpr fun n hn => ?_
    have hn := List.mem_range.mp hn
    rw [isPoisoned_within h (by omega) (by omega)]
    exact Bool.false_ne_true
  rw [State.withTag, hclean]

theorem waitTwo_goes {a b : Ring} (hwake : s.me.wake ≠ some .ended) (ha : a.committed ≠ 0) (hb : b.committed ≠ 0) (f : State → State) :
    s.waitTwo a b f = f s := by
  rw [State.waitTwo, bne_iff_ne.mpr ha, bne_iff_ne.mpr hb]
  exact waitFor_goes _ _ _ hwake

/-- The context that the holder of the tiles sees is its core's. -/
theorem myCtx_mine (h : s.mineTiles) : s.myCtx = (s.core s.me.loc.core).mctx := if_pos ((ownsTiles_iff s).mpr h)

/-- A multiplication that has passed its checks starts, and the slots of both rings are claimed. -/
theorem issueMma_issues {u : State} (hu : s.Peeks u) {h1 h2 : Nat} {ra rb : Ring} (ha : s.bound h1 = some ra) (hb : s.bound h2 = some rb)
    (hne : ra.desc ≠ rb.desc) (hawake : ∀ k o, s.me.status ≠ .parked k o) (hmine : s.mineTiles) (hfull : u.matFull = false)
    (hmay : u.mayIssue none false) (kind : EKind) (tags : List Byte) (maps : List TMap) (hs : List Nat) :
    u.starts (u.issueMma kind ra rb tags maps hs) kind none tags 0 maps hs ∧ (u.issueMma kind ra rb tags maps hs).cores = u.cores ∧
      ((u.issueMma kind ra rb tags maps hs).cluster s.me.loc.core.cluster).rings =
        updFirst rb.is (Ring.claimR 1) (updFirst ra.is (Ring.claimR 1) (u.cluster s.me.loc.core.cluster).rings) := by
  have found {h : Nat} {r : Ring} (hbound : s.bound h = some r) : u.ring u.me.loc.core.cluster r.asid u.me.part r.desc = some r := by
    obtain ⟨hring, hasid⟩ := bound_ring hbound
    rw [hu.loc, hu.part, hu.ring, hasid]
    exact hring
  have hact : u.takesTwo u.me.loc.core.cluster ra rb = u.eatsTwo ra rb := by
    rw [State.takesTwo, claimTiles_mine (hu.mineTiles.mpr hmine)]
    rfl
  have ht := issueOp_issues (kind := kind) (tok := none) (pkt := tags) (at_ := 0) (maps := maps) (hs := hs) (lock := none)
    (act := State.takesTwo u.me.loc.core.cluster ra rb) (hact ▸ eatsTwo_claims (found ha) (found hb) hne (hu.awake hawake)) hfull hmay
  rw [hact] at ht
  refine ⟨ht.starts, ht.cores, ?_⟩
  rw [← hu.loc, ← eatsTwo_rings (found ha) (found hb) hne]
  exact ht.rings _

end

section
variable {s u u1 : State} {g : Guard} {acc : AReg} {h1 h2 : HReg} {ra rb : Ring} {ctx : FmtCtx} {ma mb : TMap}
  (hg : s.me.opens g) (hwake : s.me.wake ≠ some .ended) (hmine : s.mineTiles) (hctx : (s.core s.me.loc.core).mctx = some ctx)
  (ha : s.bound h1.val = some ra) (hb : s.bound h2.val = some rb) (hne : ra.desc ≠ rb.desc) (hma : ra.rd.matrix = true)
  (htb : rb.rd.tagged = true) (hmb : rb.rd.matrix = true) (hca : ra.committed ≠ 0) (hcb : rb.committed ≠ 0)
  (hclean : isPoisoned s.poison (rb.tagAddr s.me.loc.core.cluster rb.r) 16 = false)
include hg hwake hmine hctx ha hb hne hma htb hmb hca hcb hclean

theorem execMma_issues (hta : ra.rd.tagged = true) (hcleana : isPoisoned s.poison (ra.tagAddr s.me.loc.core.cluster ra.r) 16 = false) :
    let ta := memBytes s.mem (ra.tagAddr s.me.loc.core.cluster ra.r) 16
    let tb := memBytes s.mem (rb.tagAddr s.me.loc.core.cluster rb.r) 16
    s.snapsMap (word8 ta 0) ma u → tagBad ma ctx.afmt 128 ((opKOf ctx.afmt).getD 0) ra.rd.slotBytes = none →
    u.snapsMap (word8 tb 0) mb u1 → tagBad mb ctx.bfmt 128 ((opKOf ctx.afmt).getD 0) rb.rd.slotBytes = none →
    exec (.mma g acc h1 h2) s = .next
      (u1.issueMma (.mma acc.val ctx ra.desc rb.desc ra.r rb.r) ra rb (ta.drop 8 ++ tb.drop 8) [ma, mb] [h1.val, h2.val]) := by
  intro ta tb hsa hokA hsb hokB
  have hdiff : (ra.desc == rb.desc) = false := by simpa using hne
  rw [exec_mma, execMma, withK_open _ _ _ hg, withTiles_goes hwake (.inr hmine), withRing_bound ha, withRing_bound hb, hma, hta, htb, hmb,
    hdiff, myCtx_mine hmine, hctx]
  simp only [Bool.and_self, Bool.not_true, Bool.false_eq_true, if_false]
  rw [waitTwo_goes hwake hca hcb, withTag_clean hcleana, withTag_clean hclean, withMap_snapsMap hsa, hokA]
  dsimp only
  rw [withMap_snapsMap hsb, hokB]

theorem execMmas_issues (hfa : mmasFmt ctx.afmt = true) (hfb : mmasFmt ctx.bfmt = true) :
    let tb := memBytes s.mem (rb.tagAddr s.me.loc.core.cluster rb.r) 16
    s.snapsMap (word8 tb 0) mb u → tagBad mb ctx.bfmt (rb.rd.slotBytes / 128) 128 rb.rd.slotBytes = none →
    exec (.mmas g acc h1 h2) s = .next
      (u.issueMma (.mmas acc.val ctx ra.desc rb.desc ra.r rb.r) ra rb (tb.drop 8) [mb] [h1.val, h2.val]) := by
  intro tb hsb hokB
  have hdiff : (ra.desc == rb.desc) = false := by simpa using hne
  rw [exec_mmas, execMmas, withK_open _ _ _ hg, withTiles_goes hwake (.inr hmine), withRing_bound ha, withRing_bound hb, hma, htb, hmb,
    hdiff, myCtx_mine hmine, hctx]
  simp only [Bool.and_self, Bool.not_true, Bool.false_eq_true, if_false, hfa, hfb]
  rw [waitTwo_goes hwake hca hcb, withTag_clean hclean, withMap_snapsMap hsb, hokB]

end

/-- What a drain into a ring claims: the tiles, and the slot at W. -/
def State.drainsTo (r : Ring) (s : State) : State :=
  s.claimTiles.modRing s.me.loc.core.cluster r.asid s.me.part r.desc (Ring.claimW 1)

section
variable {s u u1 : State} {g : Guard} {k : TReg} {acc : AReg} {a : UReg} {ctx : FmtCtx} {m : TMap} {bs : List Byte}
  (hg : s.me.opens g) (hwake : s.me.wake ≠ some .ended) (hmine : s.mineTiles) (hctx : (s.core s.me.loc.core).mctx = some ctx)
  (hp : s.me.spoison a = false) (hs : s.snaps false s.me.s[a] 64 64 bs u) (hparse : (parseDrain bs).2 = true)
  (hm : u.snapsMap (parseDrain bs).1.dmap m u1) (hok : (parseDrain bs).1.ok ctx m = true)
include hg hwake hmine hctx hp hs hparse hm hok

theorem execMdrain_memory (hring : (parseDrain bs).1.ring = false) : exec (.mdrain g k acc a) s = .next
    (u1.issueOp (.mdrain acc.val ctx bs 0 0) (some k.val) [] s.me.s[a] [m] u1.matFull
      (some ([], m.ranges (parseDrain bs).1.origin [(parseDrain bs).1.cols, (parseDrain bs).1.rows, 1, 1])) [] State.claimTiles) := by
  have hpeeks := hs.peeks.trans hm.peeks
  have hmy : u1.myCtx = some ctx := by rw [myCtx_mine (hpeeks.mineTiles.mpr hmine), hpeeks.core, hpeeks.loc, hctx]
  rw [exec_mdrain, execMdrain, withK_open _ _ _ hg, withTiles_goes hwake (.inr hmine), hp, if_neg Bool.false_ne_true]
  refine congrArg Host.Outcome.next ((withSnap_snaps hs _).trans ?_)
  dsimp only
  rw [withMap_snapsMap hm, hring, if_neg Bool.false_ne_true, hmy]
  dsimp only
  rw [hparse, hok, Bool.and_self, if_pos rfl]
  rfl

theorem execMdrain_ring {r : Ring} (hring : (parseDrain bs).1.ring = true) (hb : u1.bound (parseDrain bs).1.ringh = some r)
    (hsize : tileSize m.fmt [(parseDrain bs).1.cols, (parseDrain bs).1.rows, 1, 1] ≤ r.rd.slotBytes) (hfree : r.free ≠ 0) :
    exec (.mdrain g k acc a) s = .next
      (u1.issueOp (.mdrain acc.val ctx bs r.desc r.w) (some k.val) [] s.me.s[a] [m] u1.matFull none [(parseDrain bs).1.ringh]
        (State.drainsTo r)) := by
  have hpeeks := hs.peeks.trans hm.peeks
  have hmy : u1.myCtx = some ctx := by rw [myCtx_mine (hpeeks.mineTiles.mpr hmine), hpeeks.core, hpeeks.loc, hctx]
  have hstill : u1.me.wake ≠ some .ended := hpeeks.wake ▸ hwake
  rw [exec_mdrain, execMdrain, withK_open _ _ _ hg, withTiles_goes hwake (.inr hmine), hp, if_neg Bool.false_ne_true]
  refine congrArg Host.Outcome.next ((withSnap_snaps hs _).trans ?_)
  dsimp only
  rw [withMap_snapsMap hm, hring, if_pos rfl, hb]
  dsimp only
  rw [if_neg (by omega), hmy]
  dsimp only
  rw [hparse, hok, Bool.and_self, if_pos rfl, bne_iff_ne.mpr hfree, waitFor_goes _ _ _ hstill]
  rfl

end

/-- Settles O24: the tiles are the task's own, so a multiplication claims the slots at R of its rings alone, and a drain the slot at W. -/
theorem matrixOperationStarts : Obligations.MatrixOperationStarts := by
  unfold Obligations.MatrixOperationStarts
  intro s u u1 g k acc h1 h2 a ra rb ctx ma mb bs hg hwake hawake howner hpiece hctx
  have hmine : s.mineTiles := ⟨howner, hpiece⟩
  dsimp only
  refine ⟨fun ha hb hne hma htb hmb hca hcb hclean => ⟨fun hta hcleana hsa hokA hsb hokB hfull hmay => ?_,
    fun hfa hfb hsb hokB hfull hmay => ?_⟩, fun hp hs hparse hm hok hfull hmay => ⟨fun hring => ?_, fun hring hb hsize hfree => ?_⟩⟩
  · exact ⟨_, execMma_issues hg hwake hmine hctx ha hb hne hma htb hmb hca hcb hclean hta hcleana hsa hokA hsb hokB,
      issueMma_issues (hsa.peeks.trans hsb.peeks) ha hb hne hawake hmine hfull hmay ..⟩
  · exact ⟨_, execMmas_issues hg hwake hmine hctx ha hb hne hma htb hmb hca hcb hclean hfa hfb hsb hokB,
      issueMma_issues hsb.peeks ha hb hne hawake hmine hfull hmay ..⟩
  · have howned := claimTiles_mine ((hs.peeks.trans hm.peeks).mineTiles.mpr hmine)
    have ht := issueOp_issues (kind := .mdrain acc.val ctx bs 0 0) (tok := some k) (pkt := []) (at_ := s.me.s[a]) (maps := [ma]) (hs := [])
      (lock := some ([], ma.ranges (parseDrain bs).1.origin [(parseDrain bs).1.cols, (parseDrain bs).1.rows, 1, 1]))
      (claimTiles_claims u1) hfull (by rw [hring] at hmay; exact hmay)
    rw [howned] at ht
    exact ⟨_, execMdrain_memory hg hwake hmine hctx hp hs hparse hm hok hring, ht.starts, ht.locks, ht.cores⟩
  · have hpeeks := hs.peeks.trans hm.peeks
    have hact : State.drainsTo ra u1 = u1.modRing u1.me.loc.core.cluster ra.asid u1.me.part ra.desc (Ring.claimW 1) := by
      rw [State.drainsTo, claimTiles_mine (hpeeks.mineTiles.mpr hmine)]
    have hclaims : u1.Claims (State.drainsTo ra u1) := by
      obtain ⟨hfound, hasid⟩ := bound_ring hb
      rw [hact]
      exact modRing_claims (hasid ▸ hfound) (hpeeks.awake hawake)
    have ht := issueOp_issues (kind := .mdrain acc.val ctx bs ra.desc ra.w) (tok := some k) (pkt := []) (at_ := s.me.s[a]) (maps := [ma])
      (hs := [(parseDrain bs).1.ringh]) (lock := none) hclaims hfull (by rw [hring] at hmay; exact hmay)
    rw [hact] at ht
    refine ⟨_, execMdrain_ring hg hwake hmine hctx hp hs hparse hm hok hring hb hsize hfree, ht.starts, ht.cores, ?_⟩
    rw [← hpeeks.loc]
    exact (ht.rings _).trans (modRing_bound_rings hb)

end Sys2Proof.Machine
end

section
/-! SUPPORT. O25: requests to the mangle, block additions and selections (R279 to R282, R364). -/

namespace Sys2Proof.Machine

open Sys2Proof

/-! ### Requests to the mangle (R279) -/

section
variable {s u : State} {q : MReq} {v : W64}

theorem mangleAnswer_of_req (hreq : s.me.phase.req = some q.id) (hfind : s.mreqs.find? (fun r => r.id == q.id) = some q) :
    s.mangleAnswer = q.answer := by
  have hsame : (fun r : MReq => s.me.phase.req == some r.id) = fun r => r.id == q.id := by
    funext r
    rw [hreq, Option.some_beq_some, Bool.beq_comm]
  rw [State.mangleAnswer, hsame, hfind]
  rfl

/-- The request that has been answered goes as its group ends. -/
theorem dropRequest_ends (hreq : s.me.phase.req = some q.id) (f : TG → TG)
    (hf : ∀ g : TG, (f { g with phase := { g.phase with req := none } }).advance = (f g).advance) :
    s.dropRequest.ends f = ({ s with mreqs := s.mreqs.filter (fun r => r.id != q.id) } : State).ends f := by
  have hsame : (fun r : MReq => s.me.phase.req != some r.id) = fun r => r.id != q.id := by
    funext r
    rw [hreq, bne, Option.some_beq_some, Bool.beq_comm, bne]
  rw [State.dropRequest, hsame]
  exact congrArg (fun g => ({ s with mreqs := s.mreqs.filter (fun r => r.id != q.id), me := g } : State)) (hf s.me)

theorem State.Peeks.super (h : s.Peeks u) : u.me.super = s.me.super := by rw [h.me]

theorem State.Peeks.markOf (h : s.Peeks u) (hmark : s.me.phase.mark = none) : u.markOf = u.seq := by
  have hnone : u.me.phase.mark = none := (congrArg (fun x : State => x.me.phase.mark) h.eq).trans hmark
  rw [State.markOf, hnone]
  rfl

theorem withBq_snaps {a : UReg} {bs : List Byte} (hp : s.me.spoison a = false) (hs : s.snaps false s.me.s[a] 64 64 bs u)
    (hok : (parseBq bs).ok = true) (f : State → W64 → BDesc → State) : s.withBq a f = f u s.me.s[a] (parseBq bs) := by
  rw [State.withBq, hp, if_neg Bool.false_ne_true]
  refine (withSnap_snaps hs _).trans ?_
  rw [hok]
  rfl

/-- The request as it leaves the thread group of s. -/
theorem askMangle_peeks (h : s.Peeks u) (done : Bool) (addr : W64) (d : BDesc) : u.askMangle done addr d =
    { u with
      seq := u.seq + 1
      mreqs := u.mreqs ++ [⟨u.seq, s.me.loc, done, addr, s.me.asid, d.nblk, d.flagAddr, d.flagVal, s.me.super, none⟩]
      me := { u.me with
        phase := { u.me.phase with req := some u.seq }
        status := .stalled } } := by
  rw [← h.loc, ← h.asid, ← h.super]
  rfl

end

/-! ### Block additions and selections (R280, R281) -/

section
variable {s u u1 u2 u3 : State} {d a : UReg} {k : TReg} {bs : List Byte} {m mx my mz : TMap}

theorem baddq_issues (hp : s.me.spoison a = false) (hd : s.me.spoison d = false) (hs : s.snaps false s.me.s[a] 64 64 bs u)
    (hx : u.snapsMap (parseAdd bs).x mx u1) (hy : u1.snapsMap (parseAdd bs).y my u2) (hz : u2.snapsMap (parseAdd bs).z mz u3)
    (hokx : addMapOk mx (parseAdd bs).xo s.me.s[d].toNat = true) (hoky : addMapOk my (parseAdd bs).yo s.me.s[d].toNat = true)
    (hokz : addMapOk mz (parseAdd bs).zo s.me.s[d].toNat = true) (hlo : -512 ≤ (parseAdd bs).anchor) (hhi : (parseAdd bs).anchor ≤ 511)
    (hres : (parseAdd bs).reservedOk = true) : s.baddq k d a = u3.issueOp (.baddq s.me.s[d] bs) (some k.val) bs s.me.s[a] [mx, my, mz] false
      (some (mx.ranges (blockAt (parseAdd bs).xo s.me.s[d].toNat) blockExt ++ my.ranges (blockAt (parseAdd bs).yo s.me.s[d].toNat) blockExt,
        mz.ranges (blockAt (parseAdd bs).zo s.me.s[d].toNat) blockExt)) [] id := by
  have hn : (s.me.sget d).toNat = s.me.s[d].toNat := rfl
  rw [State.baddq, hp, hd, if_neg (by decide)]
  refine (withSnap_snaps hs _).trans ?_
  dsimp only
  rw [withMap_snapsMap hx, withMap_snapsMap hy, withMap_snapsMap hz, hn, hokx, hoky, hokz, hres, decide_eq_true hlo, decide_eq_true hhi,
    if_neg (by decide), (((hs.peeks.trans hx.peeks).trans hy.peeks).trans hz.peeks).sget d]
  rfl

theorem topk_issues {col : Bool} (hp : s.me.spoison a = false) (hs : s.snaps false s.me.s[a] 64 64 bs u)
    (hm : u.snapsMap (parseSel bs).smap m u1) (hok : (parseSel bs).ok col m = true) : s.topk col k a =
      u1.issueOp (.topk col bs) (some k.val) bs s.me.s[a] [m] false
        (some (m.ranges [0, 0, 0, 0] [m.dim 0, m.dim 1, 1, 1], (parseSel bs).outs col m)) [] id := by
  rw [State.topk, hp, if_neg Bool.false_ne_true]
  refine (withSnap_snaps hs _).trans ?_
  dsimp only
  rw [withMap_snapsMap hm, hok, if_neg (by decide)]
  rfl

end

/-- Settles O25: a request goes on with the descriptor that it has read and completes with its answer, and the operations of the adder and
of the select unit start once their structures are read. -/
theorem reductionResult : Obligations.ReductionResult := by
  unfold Obligations.ReductionResult
  intro s u u1 u2 u3 g d a k bs m mx my mz q v hg
  dsimp only
  refine ⟨fun hreq hfind hans => ?_, fun hp hphase hwake hs hok => ⟨fun hroom => ?_, fun hready => ?_⟩,
    fun hp hd hs hx hy hz hokx hoky hokz hlo hhi hres hmay => ?_, fun hp hs hm hmay x hx hok => ?_⟩
  · have hmangle := (mangleAnswer_of_req hreq hfind).trans hans
    have hsome : s.me.phase.req.isSome = true := by rw [hreq]; rfl
    constructor
    · rw [exec_bqclaim, execBqclaim, withK_open _ _ _ hg, State.bqclaim, if_pos hsome, hmangle]
      exact congrArg Host.Outcome.next (dropRequest_ends hreq (·.setS d v false) fun _ => rfl)
    · rw [exec_bqdone, execBqdone, withK_open _ _ _ hg, State.bqdone, if_pos hsome, hmangle]
      exact congrArg Host.Outcome.next (dropRequest_ends hreq id fun _ => rfl)
  · have hnone : ¬s.me.phase.req.isSome = true := by rw [hphase]; exact Bool.false_ne_true
    rw [exec_bqclaim, execBqclaim, withK_open _ _ _ hg, State.bqclaim, if_neg hnone, withBq_snaps hp hs hok,
      show u.bqFull u.me.asid s.me.s[a] = false by rw [hs.peeks.asid]; exact hroom]
    exact congrArg Host.Outcome.next ((waitFor_met _ _ _ (hs.peeks.wake.trans hwake)).trans (askMangle_peeks hs.peeks false s.me.s[a] (parseBq bs)))
  · have hnone : ¬s.me.phase.req.isSome = true := by rw [hphase]; exact Bool.false_ne_true
    rw [exec_bqdone, execBqdone, withK_open _ _ _ hg, State.bqdone, if_neg hnone, withBq_snaps hp hs hok, State.afterFence,
      hs.peeks.markOf (by rw [hphase]; rfl), if_pos hready]
    exact congrArg Host.Outcome.next (askMangle_peeks hs.peeks true s.me.s[a] (parseBq bs))
  · have ht := issueOp_issues (kind := .baddq s.me.s[d] bs) (pkt := bs) (at_ := s.me.s[a]) (maps := [mx, my, mz]) (hs := [])
      (lock := some (mx.ranges (blockAt (parseAdd bs).xo s.me.s[d].toNat) blockExt ++
        my.ranges (blockAt (parseAdd bs).yo s.me.s[d].toNat) blockExt, mz.ranges (blockAt (parseAdd bs).zo s.me.s[d].toNat) blockExt))
      (act := id) (State.Claims.refl u3) (rfl : false = false) hmay
    exact ⟨_, (congrArg Host.Outcome.next (withK_open _ _ _ hg)).trans
      (congrArg Host.Outcome.next (baddq_issues hp hd hs hx hy hz hokx hoky hokz hlo hhi hres)), ht.starts, ht.locks⟩
  · have hexec : exec x.1 s = .next (s.topk x.2 k a) := by
      simp only [List.mem_cons, List.not_mem_nil, or_false] at hx
      rcases hx with rfl | rfl
      · exact congrArg Host.Outcome.next (withK_open _ _ _ hg)
      · exact congrArg Host.Outcome.next (withK_open _ _ _ hg)
    have ht := issueOp_issues (kind := .topk x.2 bs) (pkt := bs) (at_ := s.me.s[a]) (maps := [m]) (hs := [])
      (lock := some (m.ranges [0, 0, 0, 0] [m.dim 0, m.dim 1, 1, 1], (parseSel bs).outs x.2 m))
      (act := id) (State.Claims.refl u1) (rfl : false = false) hmay
    exact ⟨_, hexec.trans (congrArg Host.Outcome.next (topk_issues hp hs hm hok)), ht.starts, ht.locks⟩

end Sys2Proof.Machine
end

section
/-! SUPPORT. O26: CQPUSH with room, and CQKICK (R230, R273, R275, R370). -/

namespace Sys2Proof.Machine

open Sys2Proof

/-! ### The stores of one line access (R98, R230) -/

theorem groupBy_nil (p : StEnt → StEnt → Bool) (n : Nat) : groupBy_ p n [] = [] := by
  cases n <;> rfl

/-- Entries that the first of them joins are one group. -/
theorem groupBy_line {p : StEnt → StEnt → Bool} {e : StEnt} {r : List StEnt} (h : ∀ x ∈ r, p e x = true) (n : Nat) :
    groupBy_ p (n + 1) (e :: r) = [e :: r] := by
  have hin : r.filter (p e) = r := List.filter_eq_self.mpr h
  have hout : r.filter (fun x => !p e x) = [] := List.filter_eq_nil_iff.mpr fun x hx => by simp [h x hx]
  rw [groupBy_, hin, hout, groupBy_nil]

/-- Accepted stores to one line join the store buffer of a core that holds none, in their order. -/
theorem storeAll_line {s : State} (hfifo : (s.core s.me.loc.core).fifo = []) (hnext : s.me.phase.next = 0) {e : StEnt} {r : List StEnt}
    (h : ∀ x ∈ e :: r, s.Stores x) (hline : ∀ x ∈ r, e.joins x = true) : ∃ u, s.storeAll (e :: r) = (u, true) ∧ s.Queues u (e :: r) := by
  obtain ⟨u, hu, hq⟩ := storeLoop_queues hfifo [e :: r] (by simpa using h) (.refl s) (by simp)
  refine ⟨u, ?_, by simpa using hq⟩
  rw [State.storeAll, if_pos hnext, storeCheck_stores h, List.length_cons, groupBy_line hline]
  exact hu

theorem accepts_window {s : State} {va : W64} (h : isWindow va.toNat = true) : s.accepts va := by
  simp [State.accepts, State.storeFatal, State.storeFaults, h]

/-! ### A queue's packet on its way (R273) -/

/-- t is s at work on a push: apart from storage, from what reading leaves behind and from the progress of the instruction, it is as s. -/
structure State.Pushes (s t : State) : Prop where
  eq : { s.unread t with
    me := { t.me with phase := s.me.phase }
    mem := s.mem
    poison := s.poison
    seen := s.seen
    ctxOld := s.ctxOld
    engWords := s.engWords
    free := s.free
    clusters := s.clusters } = s
  locks : ∀ c, (t.cluster c).locks = (s.cluster c).locks
  next : t.me.phase.next = 0
  mark : t.me.phase.mark = none
  req : t.me.phase.req = none

section
variable {s t u : State}

/-- A snapshot of an instruction that has done nothing yet. -/
theorem State.Peeks.pushes (h : s.Peeks t) (hphase : s.me.phase = .start) : s.Pushes t := by
  have hfield := congrArg (fun x : State => x.me.phase) h.eq
  have hall := h.eq
  refine ⟨?_, fun c => (congrArg (fun x : Cluster => x.locks) (h.clusters c) :), ?_, ?_, ?_⟩
  · exact (congrArg (fun x : State => { x with
      me := { x.me with phase := s.me.phase }
      mem := s.mem
      poison := s.poison
      seen := s.seen
      ctxOld := s.ctxOld } : State → State) hall)
  · exact (congrArg Phase.next hfield).trans (by rw [hphase]; rfl)
  · exact (congrArg Phase.mark hfield).trans (by rw [hphase]; rfl)
  · exact (congrArg Phase.req hfield).trans (by rw [hphase]; rfl)

variable (h : s.Pushes t)
include h

theorem State.Pushes.me : t.me = { s.me with phase := t.me.phase } :=
  congrArg (fun g : TG => { g with phase := t.me.phase }) (congrArg (fun x : State => x.me) h.eq)
theorem State.Pushes.loc : t.me.loc = s.me.loc := by rw [h.me]
theorem State.Pushes.core (c : CoreId) : t.core c = s.core c := (congrArg (fun x : State => x.core c) h.eq :)
theorem State.Pushes.wrs : t.wrs = s.wrs := (congrArg (fun x : State => x.wrs) h.eq :)
theorem State.Pushes.watches : t.watches = s.watches := (congrArg (fun x : State => x.watches) h.eq :)

theorem State.Pushes.clears {write : Bool} {va z : Nat} (hclear : s.clears write va z) : t.clears write va z := by
  have hmode : t.mode = s.mode := (congrArg (fun x : State => x.mode) h.eq :)
  have hsuper : t.me.super = s.me.super := by rw [h.me]
  have hasid : t.me.asid = s.me.asid := by rw [h.me]
  unfold State.clears State.lockHit at *
  rw [hmode, hsuper, h.loc, hasid, h.locks]
  exact hclear

/-- The progress of the instruction is all that changes. -/
theorem State.Pushes.withPhase {p : Phase} (hnext : p.next = 0) (hmark : p.mark = none) (hreq : p.req = none) :
    s.Pushes { t with me := { t.me with phase := p } } :=
  ⟨h.eq, h.locks, hnext, hmark, hreq⟩

theorem State.Pushes.writeAt (hwatch : s.watches = []) (a : Nat) (bs : List Byte) (p : Bool) : s.Pushes (t.writeAt a bs p) := by
  have hframe := encodeSpad_frame t a bs.length
  rw [writeAt_unwatched (h.watches.trans hwatch)]
  refine ⟨?_, fun c => (congrArg (fun x : State => (x.cluster c).locks) hframe :).trans (h.locks c), ?_, ?_, ?_⟩
  · exact (congrArg (fun x : State => { s.unread x with
      me := { x.me with phase := s.me.phase }
      mem := s.mem
      poison := s.poison
      seen := s.seen
      ctxOld := s.ctxOld
      engWords := s.engWords
      free := s.free
      clusters := s.clusters } : State → State) hframe).trans h.eq
  · exact (congrArg (fun x : State => x.me.phase.next) hframe :).trans h.next
  · exact (congrArg (fun x : State => x.me.phase.mark) hframe :).trans h.mark
  · exact (congrArg (fun x : State => x.me.phase.req) hframe :).trans h.req

end

/-! ### The slot (R230, R273) -/

/-- The stores of a packet into its slot: bytes 0 to 7, with the sequence, are the last. -/
def State.slotEnts (t : State) (at_ : Nat) (pkt : List Byte) (i : W64) : List StEnt :=
  (List.range 7).map (fun k => t.mkEnt (BitVec.ofNat 64 (at_ + 8 * (k + 1))) .store ((pkt.drop (8 * (k + 1))).take 8) false false) ++
    [t.mkEnt (BitVec.ofNat 64 (at_ + 8 * 0)) .store (pkt.take 4 ++ bytesOf 4 i.toNat) false false]

section
variable {t : State} {at_ : Nat} (halign : at_ % 64 = 0) (hlt : at_ < 2 ^ 64)
include halign hlt

theorem toNat_slotWord {k : Nat} (hk : k < 8) : (BitVec.ofNat 64 (at_ + 8 * k) : W64).toNat = at_ + 8 * k := by
  rw [BitVec.toNat_ofNat]
  omega

/-- Each of the stores is one of the slot's eight words. -/
theorem mem_slotEnts {pkt : List Byte} {i : W64} {e : StEnt} (he : e ∈ t.slotEnts at_ pkt i) :
    ∃ k < 8, e.va.toNat = at_ + 8 * k ∧ e.op = .store ∧ e.data.length ≤ 8 ∧ e.poison = false ∧ e.inLog = false ∧ e.seq = t.seq := by
  rcases List.mem_append.mp he with hrest | hfirst
  · obtain ⟨k, hk, rfl⟩ := List.mem_map.mp hrest
    have hk := List.mem_range.mp hk
    exact ⟨k + 1, by omega, toNat_slotWord halign hlt (by omega), rfl, List.length_take_le .., rfl, rfl, rfl⟩
  · obtain rfl := List.mem_singleton.mp hfirst
    refine ⟨0, by omega, toNat_slotWord halign hlt (by omega), rfl, ?_, rfl, rfl, rfl⟩
    show (pkt.take 4 ++ bytesOf 4 i.toNat).length ≤ 8
    rw [List.length_append, length_bytesOf, List.length_take]
    omega

theorem slotEnts_stored (pkt : List Byte) (i : W64) : (t.slotEnts at_ pkt i).map (fun e => (e.va.toNat, e.op, e.data)) =
    (List.range 7).map (fun k => (at_ + 8 * (k + 1), StOp.store, (pkt.drop (8 * (k + 1))).take 8)) ++
      [(at_, StOp.store, pkt.take 4 ++ bytesOf 4 i.toNat)] := by
  rw [State.slotEnts, List.map_append, List.map_map]
  congr 1
  · refine List.map_congr_left fun k hk => ?_
    have hk := List.mem_range.mp hk
    exact congrArg (·, StOp.store, (pkt.drop (8 * (k + 1))).take 8) (toNat_slotWord halign hlt (by omega))
  · exact congrArg (fun a => [(a, StOp.store, pkt.take 4 ++ bytesOf 4 i.toNat)]) (toNat_slotWord halign hlt (k := 0) (by omega))

/-- A slot in a window is one line, which takes its stores at one moment. -/
theorem slotEnts_queue (hfifo : (t.core t.me.loc.core).fifo = []) (hnext : t.me.phase.next = 0) (hwindow : isWindow at_ = true)
    (pkt : List Byte) (i : W64) : ∃ u, t.storeAll (t.slotEnts at_ pkt i) = (u, true) ∧ t.Queues u (t.slotEnts at_ pkt i) := by
  have hstores : ∀ e ∈ t.slotEnts at_ pkt i, t.Stores e := fun e he => by
    obtain ⟨k, hk, hva, hop, hlen, hpoison, hlog, hseq⟩ := mem_slotEnts halign hlt he
    refine ⟨hseq, hlog, ?_, accepts_window ?_, fun h => absurd h (by rw [hpoison]; exact Bool.false_ne_true)⟩
    · rw [hva, StEnt.size, hop]
      dsimp only
      omega
    · rw [hva]
      simp only [isWindow, decide_eq_true_eq] at hwindow ⊢
      omega
  have hjoins : ∀ e ∈ t.slotEnts at_ pkt i, ∀ x ∈ t.slotEnts at_ pkt i, e.joins x = true := fun e he x hx => by
    obtain ⟨k, hk, hva, hop, -, -, -, hseq⟩ := mem_slotEnts halign hlt he
    obtain ⟨k', hk', hva', -, -, -, -, hseq'⟩ := mem_slotEnts halign hlt hx
    have hline : lineOf e.va.toNat = lineOf x.va.toNat := by
      rw [hva, hva', lineOf, lineOf]
      omega
    rw [StEnt.joins, StEnt.together, hop, hseq, hseq', hline]
    simp [StOp.isAtom]
  match hes : t.slotEnts at_ pkt i with
  | [] => exact absurd hes (by simp [State.slotEnts])
  | e :: r =>
    rw [hes] at hstores hjoins
    exact storeAll_line hfifo hnext hstores fun x hx => hjoins e List.mem_cons_self x (.tail e hx)

end

/-- The claimed slot is filled and the instruction ends. -/
theorem fillSlot_fills {s t : State} (h : s.Pushes t) {d : UReg} {hdr : QHdr} {pkt : List Byte} {i : W64}
    (hfifo : (s.core s.me.loc.core).fifo = []) (halign : hdr.slot i.toNat % 64 = 0) (hlt : hdr.slot i.toNat < 2 ^ 64)
    (hwindow : isWindow (hdr.slot i.toNat) = true) (hclear : s.clears true (hdr.slot i.toNat) 8) :
    (t.fillSlot d hdr pkt i).me = (s.me.setS d i false).advance ∧ (t.fillSlot d hdr pkt i).mem = t.mem ∧
      ((t.fillSlot d hdr pkt i).core s.me.loc.core).fifo = t.slotEnts (hdr.slot i.toNat) pkt i := by
  have hempty : (t.core t.me.loc.core).fifo = [] := by rw [h.loc, h.core, hfifo]
  obtain ⟨u, hu, hq⟩ := slotEnts_queue halign hlt hempty h.next hwindow pkt i
  have hword : (BitVec.ofNat 64 (hdr.slot i.toNat) : W64).toNat = hdr.slot i.toNat := by
    rw [BitVec.toNat_ofNat, Nat.mod_eq_of_lt hlt]
  have hcheck : t.accCheck true 8 [⟨0, BitVec.ofNat 64 (hdr.slot i.toNat)⟩] = none :=
    accCheck_clear (by rw [hword]; exact h.clears hclear)
  have hfill : t.fillSlot d hdr pkt i = (u.dropWatch.setS d i false).advance := by
    rw [State.fillSlot, hcheck]
    exact congrArg (fun x : State × Bool => match x with | (s, false) => s | (s, true) => (s.dropWatch.setS d i false).advance) hu
  have hme : u.me = { s.me with phase := u.me.phase } := by
    have hback : ({ u.me with phase := t.me.phase } : TG) = t.me := (congrArg (fun x : State => x.me) hq.eq :)
    exact (congrArg (fun g : TG => { g with phase := u.me.phase }) hback).trans
      (congrArg (fun g : TG => { g with phase := u.me.phase }) h.me)
  rw [hfill]
  refine ⟨?_, (congrArg (fun x : State => x.mem) hq.eq :), ?_⟩
  · show (u.me.setS d i false).advance = _
    rw [hme]
    rfl
  · show (u.core s.me.loc.core).fifo = _
    rw [← h.loc, hq.cores, if_pos rfl, hempty]
    rfl

/-! ### The claim (R105, R273) -/

section
variable {s t : State} (h : s.Pushes t) (hfifo : (s.core s.me.loc.core).fifo = []) (hwrs : s.wrs = [])
include h hfifo hwrs

/-- With room, and nothing to wait for, the slot is filled. -/
theorem pushRest_fills {d : UReg} {hdr : W64} {q : QHdr} {pkt : List Byte} {i : W64} (hwindow : isWindow (hdr + 8).toNat = true)
    (hkind : (winOf (hdr + 8).toNat).kind < 2) (hroom : (i - BitVec.ofNat 64 (t.num (hdr + 8).toNat 8)).toNat < q.cap) :
    t.pushRest d hdr q pkt i = t.fillSlot d q pkt i := by
  have hempty : (t.core t.me.loc.core).fifo = [] := by rw [h.loc, h.core, hfifo]
  have hwrs : t.wrs = [] := h.wrs.trans hwrs
  have hload : t.loadLine 8 [(0, hdr + 8)] = (t, .done [(0, t.marked (hdr + 8).toNat 8)]) := by
    rw [State.loadLine, h.req]
    refine (if_pos hwindow).trans ((if_neg (by dsimp only [List.head?_cons, Option.map_some, Option.getD_some]; omega)).trans
      ((if_neg (by dsimp only [List.head?_cons, Option.map_some, Option.getD_some]; omega)).trans ?_))
    exact serveLanes_calm _ _ _ _ _ hempty hwrs
  rw [State.pushRest, h.mark, h.next, if_neg (by decide), hload]
  exact (if_pos hroom).trans (afterFence_of_clear hempty hwrs ..)

omit hwrs in
theorem atomOne_counts (hdr : W64) (hwindow : isWindow hdr.toNat = true) (hkind : (winOf hdr.toNat).kind < 2)
    (hdie : (winOf hdr.toNat).die = s.me.loc.core.die) : ∃ p,
    t.atomOne hdr 8 (bytesOf 8 1) false =
      (t.writeAt hdr.toNat (bytesOf 8 (t.num hdr.toNat 8 + 1)) p, some (t.marked hdr.toNat 8)) := by
  have hempty : (t.core t.me.loc.core).fifo = [] := by rw [h.loc, h.core, hfifo]
  have hone : natOf (bytesOf 8 1) = 1 := by decide
  refine ⟨(t.marked hdr.toNat 8).2.any id, ?_⟩
  rw [State.atomOne, h.req]
  refine (if_neg (fun hx => hx.2 hempty)).trans ((if_pos hwindow).trans ((if_pos ⟨hkind, by rw [hdie, h.loc]⟩).trans ?_))
  show (t.writeAt hdr.toNat (bytesOf 8 (t.num hdr.toNat 8 + natOf (bytesOf 8 1))) (false || (t.marked hdr.toNat 8).2.any id),
    some (t.marked hdr.toNat 8)) = _
  rw [hone, Bool.false_or]

omit hwrs in
/-- The claim counts WRIDX one more, and its old value is the index of the packet. -/
theorem pushClaim_claims (hwatch : s.watches = []) (hok : Memory.wf t.mem = true) (hclaim : t.me.phase.claim = none) {d : UReg} {hdr : W64}
    (hwindow : isWindow hdr.toNat = true) (hkind : (winOf hdr.toNat).kind < 2) (hdie : (winOf hdr.toNat).die = s.me.loc.core.die)
    (hb pkt : List Byte) :
    ∃ w, s.Pushes w ∧ t.pushClaim d hdr hb pkt = w.pushRest d hdr (parseHdr hb) pkt (BitVec.ofNat 64 (t.num hdr.toNat 8)) ∧
      w.num hdr.toNat 8 = (t.num hdr.toNat 8 + 1) % 2 ^ 64 ∧
      ∀ x, (x < hdr.toNat ∨ hdr.toNat + 8 ≤ x) → memGet w.mem x = memGet t.mem x := by
  obtain ⟨p, hatom⟩ := atomOne_counts h hfifo hdr hwindow hkind hdie
  have hpush := h.writeAt hwatch hdr.toNat (bytesOf 8 (t.num hdr.toNat 8 + 1)) p
  have hmem := writeAt_mem t hdr.toNat (bytesOf 8 (t.num hdr.toNat 8 + 1)) p
  have hlen := length_bytesOf 8 (t.num hdr.toNat 8 + 1)
  refine ⟨_, hpush.withPhase (p := { (t.writeAt hdr.toNat (bytesOf 8 (t.num hdr.toNat 8 + 1)) p).me.phase with
    claim := some (BitVec.ofNat 64 (t.num hdr.toNat 8)) }) hpush.next hpush.mark hpush.req, ?_, ?_, fun x hx => ?_⟩
  · rw [State.pushClaim, hclaim]
    dsimp only
    rw [hatom]
    rfl
  · show natOf (memBytes (t.writeAt hdr.toNat _ p).mem hdr.toNat 8) = _
    have hback := memBytes_memPut hdr.toNat (bytesOf 8 (t.num hdr.toNat 8 + 1)) t.mem hok
    rw [hlen] at hback
    rw [hmem, hback, natOf_bytesOf]
    rfl
  · show memGet (t.writeAt hdr.toNat _ p).mem x = _
    rw [hmem, memGet_memPut _ _ _ _ hok, if_neg (by omega)]

end

/-! ### The header and its checks (R272) -/

section
variable {s u : State} {va : W64} {hb : List Byte}

theorem withHdr_snaps (hs : s.snaps false va 64 64 hb u) (hsound : (parseHdr hb).sound = true) (hserve : (parseHdr hb).serveOk s.mode = true)
    (k : State → List Byte → State) : s.withHdr va k = k u hb := by
  refine (withSnap_snaps hs _).trans ?_
  rw [hs.peeks.mode, hsound, hserve]
  rfl

theorem toNat_index (s : State) (a : Nat) : (BitVec.ofNat 64 (s.num a 8) : W64).toNat = s.num a 8 := by
  rw [BitVec.toNat_ofNat]
  exact Nat.mod_eq_of_lt (num_lt s a 8)

/-- RDIDX follows WRIDX in the header's window. -/
theorem hdr_next (halign : va.toNat % 64 = 0) (hwindow : isWindow va.toNat = true) (hkind : (winOf va.toNat).kind < 2) :
    (va + 8).toNat = va.toNat + 8 ∧ isWindow (va + 8).toNat = true ∧ (winOf (va + 8).toNat).kind < 2 := by
  have hlt := va.isLt
  have hnext : (va + 8).toNat = va.toNat + 8 := by
    rw [BitVec.toNat_add]
    exact Nat.mod_eq_of_lt (show va.toNat + 8 < 2 ^ 64 by omega)
  refine ⟨hnext, ?_, ?_⟩
  · rw [hnext]
    simp only [isWindow, decide_eq_true_eq] at hwindow ⊢
    omega
  · rw [hnext]
    simp only [winOf, fieldOf] at hkind ⊢
    omega

theorem slot_aligned (hsound : (parseHdr hb).sound = true) (i : Nat) : (parseHdr hb).slot i % 64 = 0 := by
  simp only [QHdr.sound, Bool.and_eq_true, beq_iff_eq] at hsound
  rw [QHdr.slot]
  omega

end

/-! ### The signal (R370) -/

theorem bitOf_setBit {w : Nat} (x : BitVec w) {n : Nat} (hn : n < w) : bitOf (setBit x n true).toNat n = true := by
  have hlt : 2 ^ n < 2 ^ w := Nat.pow_lt_pow_right (by omega) hn
  rw [bitOf_eq_testBit, setBit, if_pos rfl, BitVec.toNat_or, BitVec.toNat_ofNat, Nat.mod_eq_of_lt hlt, Nat.testBit_or,
    Nat.testBit_two_pow_self, Bool.or_true]

theorem forgetWords_queue (s : State) (q : QRef) : { s.forgetWords (.queue q) with engWords := s.engWords } = s := by
  unfold State.forgetWords
  dsimp only
  split <;> rfl

/-- A kick of a user queue reaches its slot, or its pending bit, and nothing else. -/
theorem kickQueue_frame (s : State) (q : Nat) :
    { s.kickQueue q with slots := s.slots, sup := s.sup, engWords := s.engWords } = s := by
  unfold State.kickQueue
  split
  · split
    · split <;> rfl
    · exact congrArg (fun x : State => { x with slots := s.slots, sup := s.sup, engWords := s.engWords })
        (forgetWords_queue (s.modSlot _ fun x => { x with awake := true }) _)
  · rfl

theorem kickQueue_pending {s : State} {q : Nat} (h : s.slotOf q = none) : bitOf (kget 0 (s.kickQueue q).sup.pend (q / 64)).toNat (q % 64) = true := by
  have hpend : (s.kickQueue q).sup.pend = kset (q / 64) (setBit (kget 0 s.sup.pend (q / 64)) (q % 64) true) s.sup.pend := by
    rw [State.kickQueue, h]
    rfl
  rw [hpend, kget, kfind_kset_self]
  exact bitOf_setBit _ (Nat.mod_lt q (by omega))

theorem kickQueue_wakes {s : State} {q n : Nat} (h : s.slotOf q = some n) (hdrain : (s.slot n).drain = false) :
    ((s.kickQueue q).slot n).awake = true := by
  have hkick : s.kickQueue q = (s.modSlot n (fun x => { x with awake := true })).forgetWords (.queue (.slot n)) := by
    rw [State.kickQueue, h]
    exact if_neg (by rw [hdrain]; exact Bool.false_ne_true)
  have hslots : (s.kickQueue q).slots = kset n { s.slot n with awake := true } s.slots := by
    rw [hkick]
    exact (congrArg (fun x : State => x.slots) (forgetWords_queue (s.modSlot n fun x => { x with awake := true }) (.slot n)) :)
  rw [State.slot, hslots, kget, kfind_kset_self]
  rfl

/-! ### CQKICK (R275) -/

/-- The signal to the serving engine of a copy queue: the queue joins those that are kicked. -/
def State.kickEngine (s : State) (c : ClId) (key : Half × W64 × Bool) (hdr : W64) : State :=
  (s.modCluster c (fun k => { k with kicked := if k.kicked.contains key then k.kicked else k.kicked ++ [key] })).forgetWords
    (.queue (.cq c s.me.asid hdr))

theorem kickEngine_frame (s : State) (c : ClId) (key : Half × W64 × Bool) (hdr : W64) :
    { s.kickEngine c key hdr with clusters := s.clusters, engWords := s.engWords } = s :=
  congrArg (fun x : State => { x with clusters := s.clusters, engWords := s.engWords })
    (forgetWords_queue (s.modCluster c fun k => { k with kicked := if k.kicked.contains key then k.kicked else k.kicked ++ [key] }) _)

theorem kickEngine_kicked (s : State) (c : ClId) (key : Half × W64 × Bool) (hdr : W64) :
    key ∈ ((s.kickEngine c key hdr).cluster c).kicked := by
  have hcluster : (s.kickEngine c key hdr).cluster c =
      { s.cluster c with kicked := if (s.cluster c).kicked.contains key then (s.cluster c).kicked else (s.cluster c).kicked ++ [key] } :=
    (congrArg (fun x : State => x.cluster c) (forgetWords_queue (s.modCluster c fun k =>
      { k with kicked := if k.kicked.contains key then k.kicked else k.kicked ++ [key] }) _) :).trans (cluster_modCluster_self ..)
  rw [hcluster]
  dsimp only
  split
  next h => exact List.contains_iff_mem.mp h
  next => exact List.mem_append_right _ List.mem_cons_self

/-- A claim with room: WRIDX counts one more, and the slot is filled under its old value. -/
theorem pushClaim_fills {s t : State} (hpush : s.Pushes t) (hfifo : (s.core s.me.loc.core).fifo = []) (hwrs : s.wrs = [])
    (hwatch : s.watches = []) (hmem : t.mem = s.mem) (hok : Memory.wf s.mem = true) (hclaim : t.me.phase.claim = none) {d : UReg} {va : W64}
    {hb pkt : List Byte} (haligned : va.toNat % 64 = 0) (hwindow : isWindow va.toNat = true) (hkind : (winOf va.toNat).kind < 2)
    (hdie : (winOf va.toNat).die = s.me.loc.core.die)
    (hroom : ((BitVec.ofNat 64 (s.num va.toNat 8) : W64) - BitVec.ofNat 64 (s.num (va.toNat + 8) 8)).toNat < (parseHdr hb).cap) :
    ∃ w, s.Pushes w ∧ t.pushClaim d va hb pkt = w.fillSlot d (parseHdr hb) pkt (BitVec.ofNat 64 (s.num va.toNat 8)) ∧
      w.num va.toNat 8 = (s.num va.toNat 8 + 1) % 2 ^ 64 ∧
      ∀ x, (x < va.toNat ∨ va.toNat + 8 ≤ x) → memGet w.mem x = memGet s.mem x := by
  have hnum : t.num va.toNat 8 = s.num va.toNat 8 := by rw [State.num, hmem]; rfl
  obtain ⟨w, hw, hrest, hcount, houtside⟩ := pushClaim_claims (d := d) hpush hfifo hwatch (by rw [hmem]; exact hok) hclaim hwindow hkind
    hdie hb pkt
  rw [hnum] at hrest hcount
  rw [hmem] at houtside
  obtain ⟨hnext, hnextwindow, hnextkind⟩ := hdr_next haligned hwindow hkind
  have hread : w.num (va.toNat + 8) 8 = s.num (va.toNat + 8) 8 :=
    congrArg natOf (memBytes_eq_of_get w.mem s.mem _ _ _ fun k _ => houtside _ (by omega))
  refine ⟨w, hw, hrest.trans (pushRest_fills hw hfifo hwrs hnextwindow hnextkind ?_), hcount, houtside⟩
  rw [hnext, hread]
  exact hroom

theorem pushClaim_done {s t : State} (hpush : s.Pushes t) (hfifo : (s.core s.me.loc.core).fifo = []) (hwrs : s.wrs = [])
    (hwatch : s.watches = []) (hmem : t.mem = s.mem) (hok : Memory.wf s.mem = true) (hclaim : t.me.phase.claim = none) {d : UReg} {va : W64}
    {hb pkt : List Byte} (haligned : va.toNat % 64 = 0) (hwindow : isWindow va.toNat = true) (hkind : (winOf va.toNat).kind < 2)
    (hdie : (winOf va.toNat).die = s.me.loc.core.die)
    (hroom : ((BitVec.ofNat 64 (s.num va.toNat 8) : W64) - BitVec.ofNat 64 (s.num (va.toNat + 8) 8)).toNat < (parseHdr hb).cap)
    (hslot : (parseHdr hb).slot (s.num va.toNat 8) % 64 = 0) (hlt : (parseHdr hb).slot (s.num va.toNat 8) < 2 ^ 64)
    (hslotwindow : isWindow ((parseHdr hb).slot (s.num va.toNat 8)) = true) (hclear : s.clears true ((parseHdr hb).slot (s.num va.toNat 8)) 8) :
    ∃ r, t.pushClaim d va hb pkt = r ∧ r.me = (s.me.setS d (BitVec.ofNat 64 (s.num va.toNat 8)) false).advance ∧
      r.num va.toNat 8 = (s.num va.toNat 8 + 1) % 2 ^ 64 ∧
      (∀ x, (x < va.toNat ∨ va.toNat + 8 ≤ x) → memGet r.mem x = memGet s.mem x) ∧
      (r.core s.me.loc.core).fifo.map (fun e => (e.va.toNat, e.op, e.data)) =
        (List.range 7).map (fun k => ((parseHdr hb).slot (s.num va.toNat 8) + 8 * (k + 1), StOp.store, (pkt.drop (8 * (k + 1))).take 8)) ++
          [((parseHdr hb).slot (s.num va.toNat 8), StOp.store, pkt.take 4 ++ bytesOf 4 (s.num va.toNat 8))] := by
  obtain ⟨w, hw, hrest, hcount, houtside⟩ := pushClaim_fills (d := d) (pkt := pkt) hpush hfifo hwrs hwatch hmem hok hclaim haligned hwindow hkind
    hdie hroom
  have hindex := toNat_index s va.toNat
  generalize s.num va.toNat 8 = n at *
  obtain ⟨hme, hwmem, hstored⟩ := fillSlot_fills hw (d := d) (hdr := parseHdr hb) (pkt := pkt) (i := BitVec.ofNat 64 n) hfifo
    (by rw [hindex]; exact hslot) (by rw [hindex]; exact hlt) (by rw [hindex]; exact hslotwindow) (by rw [hindex]; exact hclear)
  refine ⟨_, hrest, hme, ?_, ?_, ?_⟩
  · rw [State.num, hwmem]
    exact hcount
  · rw [hwmem]
    exact houtside
  · rw [hstored, hindex, slotEnts_stored hslot hlt, hindex]

/-- CQKICK once its header is read and nothing holds it: WRIDX is on its way to KICK, and the queue is signalled. -/
theorem cqkick_signals {s u : State} {a : UReg} {hb : List Byte} (hfifo : (s.core s.me.loc.core).fifo = []) (hwrs : s.wrs = [])
    (hphase : s.me.phase = .start) (hp : s.me.spoison a = false) (hs : s.snaps false s.me.s[a] 64 64 hb u)
    (hsound : (parseHdr hb).sound = true) (hserve : (parseHdr hb).serveOk s.mode = true)
    (hroom : (s.cluster (parseHdr hb).engine).kicked.length < 64) (hclear : u.clears true (s.me.s[a] + 32).toNat 8)
    (haccept : u.accepts (s.me.s[a] + 32)) : ∃ v,
    u.Queues v [u.mkEnt (s.me.s[a] + 32) .store (bytesOf 8 (parseHdr hb).wridx.toNat) false false] ∧
    s.cqkick a = (if (parseHdr hb).user then v.kickQueue ((parseHdr hb).serve % 1024)
      else v.kickEngine (parseHdr hb).engine (u.me.asid, s.me.s[a], u.me.super) s.me.s[a]).advance := by
  have hpeeks := hs.peeks
  have hpush := hpeeks.pushes hphase
  have hempty : (u.core u.me.loc.core).fifo = [] := by rw [hpush.loc, hpush.core, hfifo]
  have hstores : ∀ x ∈ [u.mkEnt (s.me.s[a] + 32) .store (bytesOf 8 (parseHdr hb).wridx.toNat) false false], u.Stores x := fun x hx => by
    obtain rfl := List.mem_singleton.mp hx
    refine ⟨rfl, rfl, ?_, haccept, fun h => absurd h Bool.false_ne_true⟩
    have halign : (s.me.s[a] + 32).toNat % 8 = 0 := hclear.2.1
    show (s.me.s[a] + 32).toNat % 128 + (bytesOf 8 (parseHdr hb).wridx.toNat).length ≤ 128
    rw [length_bytesOf]
    omega
  obtain ⟨v, hv, hq⟩ := storeAll_line hempty hpush.next hstores (by simp)
  refine ⟨v, hq, ?_⟩
  have hkicked : (u.cluster (parseHdr hb).engine).kicked = (s.cluster (parseHdr hb).engine).kicked :=
    (congrArg (fun x : Cluster => x.kicked) (hpeeks.clusters _) :)
  rw [State.cqkick, hp, if_neg Bool.false_ne_true]
  refine (withHdr_snaps hs hsound hserve _).trans ?_
  have hfield : fieldOf (parseHdr hb).serve 0 10 = (parseHdr hb).serve % 1024 := by
    rw [fieldOf, Nat.pow_zero, Nat.div_one]
    rfl
  dsimp only
  rw [afterFence_of_clear hempty (hpush.wrs.trans hwrs), if_neg (by simp [hkicked]; omega), show s.me.sget a = s.me.s[a] from rfl,
    accCheck_clear hclear]
  dsimp only
  rw [hv, hfield]
  rfl

/-- CQPUSH goes on to its claim once its header and its packet are read. -/
theorem cqpush_claims {s u u1 : State} {d a b : UReg} {hb pkt : List Byte} (hphase : s.me.phase = .start) (hwake : s.me.wake = none)
    (ha : s.me.spoison a = false) (hb' : s.me.spoison b = false) (hsa : s.snaps false s.me.s[a] 64 64 hb u)
    (hsb : u.snaps false s.me.s[b] 64 64 pkt u1) (hsound : (parseHdr hb).sound = true) (hserve : (parseHdr hb).serveOk s.mode = true)
    (hclear : s.clears true s.me.s[a].toNat 8) : ∃ t, s.Pushes t ∧ t.mem = s.mem ∧ t.me.phase.claim = none ∧
      s.cqpush d a b = t.pushClaim d s.me.s[a] hb pkt := by
  have hpeeks := hsa.peeks.trans hsb.peeks
  have hpush := hpeeks.pushes hphase
  have hclaim : u1.me.phase.claim = none := (congrArg (fun x : State => x.me.phase.claim) hpeeks.eq :).trans (by rw [hphase]; rfl)
  have hsame : s.modMe (fun g => { g with wake := none }) = s := by
    rw [State.modMe, ← hwake]
  refine ⟨_, hpush.withPhase (p := { u1.me.phase with acc := [(pushKey 0, hb, []), (pushKey 1, pkt, [])] }) hpush.next hpush.mark hpush.req,
    hpeeks.mem, hclaim, ?_⟩
  rw [State.cqpush, hsame, hphase]
  dsimp only [Phase.start, kfind]
  rw [ha, hb', if_neg (by decide)]
  refine (withHdr_snaps hsa hsound hserve _).trans ?_
  rw [hsa.peeks.sget]
  refine (withSnap_snaps hsb _).trans ?_
  rw [show s.me.sget a = s.me.s[a] from rfl, accCheck_clear (hpush.clears hclear)]
  rfl

/-- Settles O26: what the snapshots leave is the state but for what reading leaves behind, so the claim, the load of RDIDX and the stores
go ahead at once. -/
theorem queuePushAndKickResult : Obligations.QueuePushAndKickResult := by
  unfold Obligations.QueuePushAndKickResult
  refine ⟨fun s u u1 g d a b hb pkt hg hok hcalm hwake hwatch ha hb' hsa hsb => ?_, fun s u g a hb hg hcalm hwake hp hs => ?_⟩
  · obtain ⟨hfifo, hwrs, -, -, hphase, -⟩ := hcalm
    dsimp only
    intro hsound hserve hwindow hkind hdie hclear hroom hlt hslot _ hslotclear
    obtain ⟨t, hpush, hmem, hclaim, hstep⟩ := cqpush_claims (d := d) hphase hwake ha hb' hsa hsb hsound hserve hclear
    obtain ⟨-, haligned, -⟩ := id hsa
    obtain ⟨r, hr, hdone⟩ := pushClaim_done (d := d) hpush hfifo hwrs hwatch hmem hok.1 hclaim haligned hwindow hkind hdie hroom
      (slot_aligned hsound _) hlt hslot hslotclear
    exact ⟨r, (congrArg Host.Outcome.next (withK_open _ _ _ hg)).trans (congrArg Host.Outcome.next (hstep.trans hr)), hdone⟩
  · obtain ⟨hfifo, hwrs, -, -, hphase, -⟩ := hcalm
    dsimp only
    intro hsound hserve hroom hclear haccept
    obtain ⟨v, hq, hkick⟩ := cqkick_signals hfifo hwrs hphase hp hs hsound hserve hroom hclear haccept
    have hexec : exec (.cqkick g a) s = .next (s.cqkick a) := congrArg Host.Outcome.next (withK_open _ _ _ hg)
    rw [hkick] at hexec
    have hpeeks := hs.peeks
    have hpush := hpeeks.pushes hphase
    have hempty : (u.core u.me.loc.core).fifo = [] := by rw [hpush.loc, hpush.core, hfifo]
    have hend : v.me.advance = s.me.advance := by
      have hback : ({ v.me with phase := u.me.phase } : TG) = u.me := (congrArg (fun x : State => x.me) hq.eq :)
      exact (congrArg TG.advance (hback.trans hpush.me) :)
    have hmem : v.mem = s.mem := (congrArg (fun x : State => x.mem) hq.eq :).trans hpeeks.mem
    have hfifo : (v.core s.me.loc.core).fifo = [u.mkEnt (s.me.s[a] + 32) .store (bytesOf 8 (parseHdr hb).wridx.toNat) false false] := by
      rw [← hpush.loc, hq.cores, if_pos rfl, hempty]
      rfl
    have hslots : v.slots = s.slots := (congrArg (fun x : State => x.slots) hq.eq :).trans (congrArg (fun x : State => x.slots) hpeeks.eq :)
    have hsup : v.sup = s.sup := (congrArg (fun x : State => x.sup) hq.eq :).trans (congrArg (fun x : State => x.sup) hpeeks.eq :)
    have hclusters : v.clusters = u.clusters := (congrArg (fun x : State => x.clusters) hq.eq :)
    cases huser : (parseHdr hb).user with
    | true =>
      rw [huser, if_pos rfl] at hexec
      have hframe := kickQueue_frame v ((parseHdr hb).serve % 1024)
      have hslot : v.slotOf ((parseHdr hb).serve % 1024) = s.slotOf ((parseHdr hb).serve % 1024) := by
        unfold State.slotOf State.slot
        rw [hslots]
      refine ⟨_, hexec, (congrArg (fun x : State => x.me.advance) hframe :).trans hend, (congrArg (fun x : State => x.mem) hframe :).trans hmem, ?_,
        fun h => Bool.noConfusion h, fun _ => ⟨(congrArg (fun x : State => x.clusters) hframe :).trans hclusters, fun hnone => ?_,
          fun n hn hdrain => ?_⟩⟩
      · exact congrArg (List.map _) ((congrArg (fun x : State => (x.core s.me.loc.core).fifo) hframe :).trans hfifo)
      · exact kickQueue_pending (hslot.trans hnone)
      · exact kickQueue_wakes (hslot.trans hn) (by rw [State.slot, hslots]; exact hdrain)
    | false =>
      rw [huser, if_neg Bool.false_ne_true] at hexec
      have hframe := kickEngine_frame v (parseHdr hb).engine (u.me.asid, s.me.s[a], u.me.super) s.me.s[a]
      have hkicked := kickEngine_kicked v (parseHdr hb).engine (u.me.asid, s.me.s[a], u.me.super) s.me.s[a]
      rw [show (u.me.asid, s.me.s[a], u.me.super) = (s.me.asid, s.me.s[a], s.me.super) by rw [hpush.me]] at hkicked hframe hexec
      refine ⟨_, hexec, (congrArg (fun x : State => x.me.advance) hframe :).trans hend, (congrArg (fun x : State => x.mem) hframe :).trans hmem, ?_,
        fun _ => ⟨hkicked, (congrArg (fun x : State => x.slots) hframe :).trans hslots, (congrArg (fun x : State => x.sup) hframe :).trans hsup⟩,
        fun h => Bool.noConfusion h⟩
      exact congrArg (List.map _) ((congrArg (fun x : State => (x.core s.me.loc.core).fifo) hframe :).trans hfifo)

end Sys2Proof.Machine
end

section
/-! SUPPORT. O27: reads and writes of an engine that serves a queue leave the packets, the tasks and the queues of slots (R249, R274). -/

namespace Sys2Proof.Machine

open Sys2Proof

/-- t holds the packets and the tasks of s, the same engines wait, its slots hold the same queues, and its sequence numbers go on from
those of s. -/
structure Soc.Serves (s t : Soc) : Prop where
  pkts : t.pkts = s.pkts
  tasks : t.tasks = s.tasks
  engWaits : t.engWaits = s.engWaits
  qids : ∀ n, (kget .zero t.slots n).qid = (kget .zero s.slots n).qid
  seq : s.seq ≤ t.seq

namespace Soc.Serves

theorem refl (s : Soc) : s.Serves s := ⟨rfl, rfl, rfl, fun _ => rfl, le_rfl⟩

theorem trans {s t u : Soc} (h : s.Serves t) (k : t.Serves u) : s.Serves u :=
  ⟨k.pkts.trans h.pkts, k.tasks.trans h.tasks, k.engWaits.trans h.engWaits, fun n => (k.qids n).trans (h.qids n), h.seq.trans k.seq⟩

/-- A change that leaves packets, tasks, waits, slots and the sequence number. -/
theorem of_eq {s t : Soc} (hp : t.pkts = s.pkts) (ht : t.tasks = s.tasks) (hw : t.engWaits = s.engWaits) (hs : t.slots = s.slots)
    (hseq : t.seq = s.seq) : s.Serves t :=
  ⟨hp, ht, hw, fun _ => by rw [hs], hseq.ge⟩

/-- A sequence number is taken. -/
theorem bump {s t : Soc} (hp : t.pkts = s.pkts) (ht : t.tasks = s.tasks) (hw : t.engWaits = s.engWaits) (hs : t.slots = s.slots)
    (hseq : t.seq = s.seq + 1) : s.Serves t :=
  ⟨hp, ht, hw, fun _ => by rw [hs], by omega⟩

end Soc.Serves

/-! ### Counts and collapses (R94) -/

theorem sendCollapses_serves (s : State) (wr by_ : Option Nat) (home : Nat) (asid : Half) (va : Nat) (w : Bool) :
    s.toSoc.Serves (s.sendCollapses wr by_ home asid va w).1.toSoc := by
  unfold State.sendCollapses
  extract_lets rs s1 s2 s3
  have h1 : s.toSoc.Serves s1.toSoc := .of_eq rfl rfl rfl rfl rfl
  have h2 : s.toSoc.Serves s2.toSoc := ite_keeps (P := fun t : State => s.toSoc.Serves t.toSoc) (.of_eq rfl rfl rfl rfl rfl) h1
  split
  · exact .refl _
  · exact foldl_keeps (P := fun t : State => s.toSoc.Serves t.toSoc) h2 fun _ _ h => h.trans (.bump rfl rfl rfl rfl rfl)

theorem collapseRegion_serves (s : State) (r : Region) : s.toSoc.Serves (s.collapseRegion r).toSoc :=
  foldl_keeps (P := fun t : State => s.toSoc.Serves t.toSoc) (.refl _) fun _ _ h => h.trans (sendCollapses_serves ..)

theorem windowEnd_serves (s : State) (die : Nat) (asid : Half) (va : Nat) : s.toSoc.Serves (s.windowEnd die asid va).toSoc := by
  unfold State.windowEnd
  extract_lets r d top auto s1
  have h1 : s.toSoc.Serves s1.toSoc := .of_eq rfl rfl rfl rfl rfl
  clear_value s1
  split
  · exact h1
  · split
    · split
      · exact h1
      · refine Soc.Serves.trans ?_ (collapseRegion_serves _ _)
        exact h1.trans (.of_eq rfl rfl rfl rfl rfl)
    · split
      · split
        · exact h1
        · exact h1.trans (.of_eq rfl rfl rfl rfl rfl)
      · exact h1

theorem countAccess_serves (s : State) (home : Nat) (asid : Half) (va : Nat) (f : Region → Region) :
    s.toSoc.Serves (s.countAccess home asid va f).toSoc :=
  (ite_keeps (P := fun t : State => s.toSoc.Serves t.toSoc) (windowEnd_serves ..) (.refl _)).trans (.of_eq rfl rfl rfl rfl rfl)

theorem encodeSpad_serves (s : State) (a n : Nat) : s.toSoc.Serves (s.encodeSpad a n).toSoc := by
  have hframe := encodeSpad_frame s a n
  exact .of_eq (congrArg (fun x : State => x.pkts) hframe :) (congrArg (fun x : State => x.tasks) hframe :)
    (congrArg (fun x : State => x.engWaits) hframe :) (congrArg (fun x : State => x.slots) hframe :) (congrArg (fun x : State => x.seq) hframe :)

theorem encode_serves (s : State) (d lo hi : Nat) : s.toSoc.Serves (s.encode d lo hi).toSoc :=
  ite_keeps (P := fun t : State => s.toSoc.Serves t.toSoc) (.refl _) (.of_eq rfl rfl rfl rfl rfl)

theorem encodeBytes_serves (s : State) (as_ : List Nat) : s.toSoc.Serves (s.encodeBytes as_).toSoc :=
  ite_keeps (P := fun t : State => s.toSoc.Serves t.toSoc) (.refl _)
    (foldl_keeps (P := fun t : State => s.toSoc.Serves t.toSoc) (.refl _) fun _ _ h => h.trans (encodeSpad_serves ..))

theorem countWrite_serves (s : State) (home : Nat) (asid : Half) (va : Nat) : s.toSoc.Serves (s.countWrite home asid va).toSoc :=
  (encode_serves ..).trans (countAccess_serves ..)

theorem dropReplicas_serves (s : State) (home : Nat) (asid : Half) (va : Nat) : s.toSoc.Serves (s.dropReplicas home asid va).toSoc := by
  unfold State.dropReplicas
  extract_lets rs s1 u
  have h1 : s.toSoc.Serves s1.toSoc :=
    foldl_keeps (P := fun t : State => s.toSoc.Serves t.toSoc) (.refl _) fun _ _ h => h.trans (.of_eq rfl rfl rfl rfl rfl)
  have hu : s.toSoc.Serves u.toSoc := h1.trans (.of_eq rfl rfl rfl rfl rfl)
  clear_value s1 u
  exact ite_keeps (P := fun t : State => s.toSoc.Serves t.toSoc) (.refl _) (hu.trans (.of_eq rfl rfl rfl rfl rfl))

/-! ### Reads and writes of engines (R249) -/

theorem remoteRead_serves (s : State) (d : Nat) (asid : Half) (va pa : Nat) : s.toSoc.Serves (s.remoteRead d asid va pa).toSoc := by
  unfold State.remoteRead
  extract_lets home s1 s2
  have h1 : s.toSoc.Serves s1.toSoc := countAccess_serves ..
  clear_value s1
  split
  · exact .refl _
  · split
    · exact .of_eq rfl rfl rfl rfl rfl
    · split
      · exact h1.trans (.of_eq rfl rfl rfl rfl rfl)
      · exact h1

theorem noteReads_serves (s : State) (g : Agent) (vas : List Nat) : s.toSoc.Serves (s.noteReads g vas).toSoc := by
  refine foldl_keeps (P := fun t : State => s.toSoc.Serves t.toSoc) (.refl _) fun t line h => ?_
  refine ite_keeps (P := fun t : State => s.toSoc.Serves t.toSoc) h ?_
  refine ite_keeps (P := fun t : State => s.toSoc.Serves t.toSoc) (h.trans (remoteRead_serves ..)) ?_
  split
  · exact h.trans (remoteRead_serves ..)
  · exact h

theorem modTg_serves (s : State) (l : TgRef) (f : TG → TG) : s.toSoc.Serves (s.modTg l f).toSoc :=
  ite_keeps (P := fun t : State => s.toSoc.Serves t.toSoc) (.of_eq rfl rfl rfl rfl rfl) (.of_eq rfl rfl rfl rfl rfl)

theorem wakeWatches_serves (s : State) (a n : Nat) : s.toSoc.Serves (s.wakeWatches a n).toSoc :=
  (foldl_keeps (P := fun t : State => s.toSoc.Serves t.toSoc) (.refl _) fun _ _ h => h.trans (modTg_serves ..)).trans
    (.of_eq rfl rfl rfl rfl rfl)

theorem sendFar_serves (s : State) (g : Agent) (ws : List (Nat × BW)) : s.toSoc.Serves (s.sendFar g ws).toSoc :=
  foldl_keeps (P := fun t : State => s.toSoc.Serves t.toSoc) (.refl _) fun _ _ h => h.trans (.bump rfl rfl rfl rfl rfl)

theorem engWrite_serves (s : State) (g : Agent) (ws : List (Nat × BW)) : s.toSoc.Serves (s.engWrite g ws).toSoc := by
  unfold State.engWrite
  extract_lets all merged s1 part whole s2 s3 lines s4
  have h1 : s.toSoc.Serves s1.toSoc := encodeBytes_serves ..
  have h2 : s.toSoc.Serves s2.toSoc :=
    foldl_keeps (P := fun c : Soc => s.toSoc.Serves c) h1 fun _ _ h => h.trans (.of_eq rfl rfl rfl rfl rfl)
  have h4 : s.toSoc.Serves s4.toSoc := by
    refine foldl_keeps (P := fun t : State => s.toSoc.Serves t.toSoc) (h2.trans (.of_eq rfl rfl rfl rfl rfl)) fun t l h => ?_
    extract_lets u home
    have hw : s.toSoc.Serves u.toSoc := h.trans (wakeWatches_serves ..)
    clear_value u home
    exact ite_keeps (P := fun t : State => s.toSoc.Serves t.toSoc) hw ((hw.trans (countWrite_serves ..)).trans (dropReplicas_serves ..))
  exact h4.trans (sendFar_serves ..)

theorem forgetWords_serves (s : State) (q : QRef) : s.toSoc.Serves (s.forgetWords (.queue q)).toSoc := by
  unfold State.forgetWords
  dsimp only
  split
  · exact .refl _
  · exact .of_eq rfl rfl rfl rfl rfl

end Sys2Proof.Machine
end

section
/-! SUPPORT. O27: packets that begin and end at once (R267, R269, R274). -/

namespace Sys2Proof.Machine

open Sys2Proof

/-! ### Attempts of engines (R39) -/

/-- An attempt while no engine waits, that leaves none waiting, is the action alone. -/
theorem attempt_idle {s : State} {who : Waiter} {f : State → State} (h : s.engWaits = []) (hf : (f s).engWaits = []) :
    s.attempt who f = f s := by
  have hsame : ({ s with engWaits := s.engWaits.filter (fun w => w.who != who || w.dead) } : State) = s :=
    congrArg (fun ws => ({ s with engWaits := ws } : State)) (by rw [h]; rfl : s.engWaits.filter (fun w => w.who != who || w.dead) = s.engWaits)
  unfold State.attempt
  dsimp only
  rw [hsame, hf, h, if_pos ⟨rfl, rfl⟩]
  exact congrArg (fun ws => ({ f s with engWaits := ws } : State)) hf.symm

/-! ### Packets in turn (R274) -/

section
variable {s t : State} {q : QRef} {want : List Byte → Bool} {go : State → Pkt → State} {p : Pkt}

/-- Of packets that are numbered apart, a new one is found. -/
theorem find?_newPkt {ks : List Pkt} (h : ∀ k ∈ ks, k.id ≠ p.id) :
    (ks ++ [p]).find? (fun x => !ks.any (fun k => k.id == x.id)) = some p := by
  have hold : ks.find? (fun x => !ks.any (fun k => k.id == x.id)) = none := List.find?_eq_none.mpr fun x hx => by
    have hany : ks.any (fun k => k.id == x.id) = true := List.any_eq_true.mpr ⟨x, hx, beq_self_eq_true x.id⟩
    rw [hany]
    decide
  have hnew : ks.any (fun k => k.id == p.id) = false := List.any_eq_false.mpr fun k hk => by simpa using h k hk
  rw [List.find?_append, hold, Option.none_or, List.find?_cons_of_pos (by rw [hnew]; rfl)]

/-- With no packet that has begun, the one at RDIDX begins and is tried. -/
theorem servePkt_begins (hidle : s.engWaits = []) (hwaiting : s.pkts.filter (fun p => p.q == q && !p.live && want p.bytes) = [])
    (hbegin : s.beginPkt q want = t) (hstill : t.engWaits = []) (hpkts : t.pkts = s.pkts ++ [p]) (hnew : ∀ k ∈ s.pkts, k.id ≠ p.id)
    (hfin : p.fin = none) (hgo : (go t p).engWaits = []) : s.servePkt q want go = go t p := by
  have htry : t.tryPkt go p = go t p := by
    have hf : (if p.fin.isSome then t.finishPkt p else go t p) = go t p := if_neg (by rw [hfin]; exact Bool.false_ne_true)
    exact (attempt_idle (f := fun s => if p.fin.isSome then s.finishPkt p else go s p) hstill (by rw [hf]; exact hgo)).trans hf
  unfold State.servePkt
  rw [hwaiting]
  dsimp only [List.foldl_nil]
  rw [attempt_idle (f := fun s => s.beginPkt q want) hidle (by rw [hbegin]; exact hstill), hbegin, hpkts, find?_newPkt hnew]
  exact htry

/-- A packet that has begun is tried; a queue that may start none begins no other. -/
theorem servePkt_tries (hidle : s.engWaits = []) (hwaiting : s.pkts.filter (fun k => k.q == q && !k.live && want k.bytes) = [p])
    (hfin : p.fin = none) (hgo : go s p = t) (hstill : t.engWaits = []) (hrests : t.mayStart q = false) : s.servePkt q want go = t := by
  have htry : s.tryPkt go p = t := by
    have hf : (if p.fin.isSome then s.finishPkt p else go s p) = t := (if_neg (by rw [hfin]; exact Bool.false_ne_true)).trans hgo
    exact (attempt_idle (f := fun s => if p.fin.isSome then s.finishPkt p else go s p) hidle (by rw [hf]; exact hstill)).trans hf
  have hbegin : t.beginPkt q want = t := by rw [State.beginPkt, State.lookNext, hrests, if_pos (by decide)]
  have hnone : t.pkts.find? (fun x => !t.pkts.any (fun k => k.id == x.id)) = none := List.find?_eq_none.mpr fun x hx => by
    have hany : t.pkts.any (fun k => k.id == x.id) = true := List.any_eq_true.mpr ⟨x, hx, beq_self_eq_true x.id⟩
    rw [hany]
    decide
  unfold State.servePkt
  rw [hwaiting]
  dsimp only [List.foldl_cons, List.foldl_nil]
  rw [htry, attempt_idle (f := fun s => s.beginPkt q want) hstill (by rw [hbegin]; exact hstill), hbegin, hnone]

end

/-! ### The end of a packet (R271, R377) -/

theorem forgetWords_pkt (s : State) (id : Nat) : { s.forgetWords (.pkt id) with engWords := s.engWords } = s := by
  unfold State.forgetWords
  dsimp only
  split <;> rfl

/-- The end of a packet leaves all but the packet and the words that its engine has read. -/
theorem endPkt_frame (s : State) (id : Nat) : { s.endPkt id with pkts := s.pkts, engWords := s.engWords } = s :=
  congrArg (fun x : State => { x with pkts := s.pkts, engWords := s.engWords })
    (forgetWords_pkt ({ s with pkts := s.pkts.filter (fun k => k.id != id) } : State) id)

theorem endPkt_pkts (s : State) (id : Nat) : (s.endPkt id).pkts = s.pkts.filter (fun k => k.id != id) :=
  (congrArg (fun x : State => x.pkts) (forgetWords_pkt ({ s with pkts := s.pkts.filter (fun k => k.id != id) } : State) id) :)

section
variable {s : State} {p : Pkt} {st code : Nat} (hfin : p.fin = none) (hwr : p.flagWr = none)
  (hquiet : bitOf (parsePkt p.bytes).flags 0 = false ∧ bitOf (parsePkt p.bytes).flags 2 = false)
include hfin hwr hquiet

/-- A packet with no flag and no event ends when its outcome is there. -/
theorem setFin_ends : s.setFin p st code = (s.modPkt p (fun _ => { p with fin := some (st, code) })).endPkt p.id := by
  have hp : ({ p with fin := p.fin.or (some (st, code)) } : Pkt) = { p with fin := some (st, code) } := by rw [hfin]; rfl
  have hevent (t : State) : t.finEvent { p with fin := some (st, code) } st code false = t := by
    rw [State.finEvent, hquiet.2]
    rfl
  rw [State.setFin, hp, State.finishPkt]
  dsimp only
  rw [hwr, hquiet.1]
  exact congrArg (·.endPkt p.id) (hevent _)

theorem setFin_frame : { s.setFin p st code with pkts := s.pkts, engWords := s.engWords } = s := by
  rw [setFin_ends hfin hwr hquiet]
  exact congrArg (fun x : State => { x with pkts := s.pkts }) (endPkt_frame (s.modPkt p fun _ => { p with fin := some (st, code) }) p.id)

theorem setFin_pkts : (s.setFin p st code).pkts = s.pkts.filter (fun k => k.id != p.id) := by
  rw [setFin_ends hfin hwr hquiet, endPkt_pkts]
  exact filter_updFirst_of_not s.pkts fun k hk => ⟨by simpa [bne] using hk, by simp⟩

end

/-! ### The packet at RDIDX (R274) -/

theorem serveRead_serves {s t : State} {q : QRef} {va n : Nat} {bs : List Byte} (h : s.serveRead q va n = (t, some bs)) :
    s.toSoc.Serves t.toSoc := by
  unfold State.serveRead at h
  extract_lets g at h
  split at h
  · split at h
    · cases h
    · cases h
      exact noteReads_serves ..
  all_goals cases h

theorem slot_modSlot (s : State) (n : Nat) (f : Slot → Slot) : (s.modSlot n f).slot n = f (s.slot n) := by
  rw [State.slot, State.modSlot, kget, kfind_kset_self]
  rfl

/-- A change of a slot that leaves its queue. -/
theorem modSlot_serves (s : State) (n : Nat) {f : Slot → Slot} (hf : ∀ x, (f x).qid = x.qid) : s.toSoc.Serves (s.modSlot n f).toSoc := by
  refine ⟨rfl, rfl, rfl, fun m => ?_, le_rfl⟩
  show (kget .zero (kset n (f (s.slot n)) s.slots) m).qid = _
  by_cases hm : m = n
  · rw [hm, kget, kfind_kset_self]
    exact hf _
  · rw [kget, kfind_kset_ne hm]
    rfl

theorem lookNext_serves {s t : State} {q : QRef} {x : W64 × QHdr × List Byte} (h : s.lookNext q = (t, some x)) : s.toSoc.Serves t.toSoc := by
  unfold State.lookNext at h
  split at h
  · cases h
  · extract_lets hdr at h
    split at h
    · cases h
    · split at h
      · cases h
      · rename_i s1 hb hread
        extract_lets hd at h
        split at h
        · cases h
        · rename_i s2 _
          have h2 : s.toSoc.Serves s2.toSoc := by
            refine (serveRead_serves hread).trans ?_
            cases q with
            | slot n => exact modSlot_serves s1 n fun _ => rfl
            | cq c asid hdr => exact .refl _
          clear_value s2
          split at h
          · cases h
          · rename_i s3 pb hread3
            split at h
            · cases h
              exact h2.trans (serveRead_serves hread3)
            · cases h

/-- The queue id that a serving engine gives its packets. -/
def State.qidOf (t : State) : QRef → Option Nat
  | .slot n => some (t.slot n).qid
  | .cq .. => none

/-- p begins at index i of the queue q with these bytes: t is the machine before it joins the packets. -/
structure Begins (u t : State) (q : QRef) (i : W64) (pb : List Byte) (m : List Host.Cell) (p : Pkt) : Prop where
  serves : u.toSoc.Serves t.toSoc
  mem : t.mem = m
  id : p.id = t.seq
  queue : p.q = q
  qid : p.qid = t.qidOf q
  bytes : p.bytes = pb
  fin : p.fin = none
  flagWr : p.flagWr = none
  rdidx : ∀ n, q = .slot n → (t.slot n).rdidx = i + 1

theorem beginPkt_begins {s u : State} {q : QRef} {want : List Byte → Bool} {i : W64} {hdr : QHdr} {pb : List Byte} {xs : List (Nat × BW)}
    (hlook : s.lookNext q = (u, some (i, hdr, pb))) (hwant : want pb = true)
    (hplace : u.placeWrites (u.serveAgent q) (bytesWrite ((QRef.hdr u q).toNat + 8) (bytesOf 8 (i + 1).toNat) false) = .ok xs) :
    ∃ t p, s.beginPkt q want = { t.bump with pkts := t.pkts ++ [p] } ∧ Begins u t q i pb (u.engWrite (u.serveAgent q) xs).mem p := by
  have hwrite := engWrite_serves u (u.serveAgent q) xs
  have hforget := forgetWords_serves (u.engWrite (u.serveAgent q) xs) q
  have hmem : ((u.engWrite (u.serveAgent q) xs).forgetWords (.queue q)).mem = (u.engWrite (u.serveAgent q) xs).mem :=
    (congrArg (fun x : State => x.mem) (forgetWords_queue (u.engWrite (u.serveAgent q) xs) q) :)
  unfold State.beginPkt
  rw [hlook]
  dsimp only
  rw [hwant, if_neg (by decide), hplace]
  dsimp only
  generalize (u.engWrite (u.serveAgent q) xs).forgetWords (.queue q) = v at *
  cases q with
  | slot n =>
    have hslot := slot_modSlot v n (fun x : Slot => { x with rdidx := i + 1 })
    refine ⟨_, _, rfl, ⟨(hwrite.trans hforget).trans (modSlot_serves v n fun _ => rfl), hmem, rfl, rfl, ?_, rfl, rfl, rfl, ?_⟩⟩
    · exact (congrArg (fun x : Slot => some x.qid) hslot :).symm
    · rintro _ ⟨⟩
      exact congrArg Slot.rdidx hslot
  | cq c asid h =>
    exact ⟨_, _, rfl, ⟨hwrite.trans hforget, hmem, rfl, rfl, rfl, rfl, rfl, rfl, fun _ h => QRef.noConfusion h⟩⟩

/-- A packet that needs nothing but its turn begins and ends at once. -/
theorem servePkt_ends {s u : State} {q : QRef} {want : List Byte → Bool} {go : State → Pkt → State} {i : W64} {hdr : QHdr} {pb : List Byte}
    {xs : List (Nat × BW)} {st : Nat} (hidle : s.engWaits = []) (hlook : s.lookNext q = (u, some (i, hdr, pb)))
    (hold : ∀ k ∈ s.pkts, k.q ≠ q ∧ k.id < u.seq) (hflags : fieldAt pb 2 2 = 0)
    (hplace : u.placeWrites (u.serveAgent q) (bytesWrite ((QRef.hdr u q).toNat + 8) (bytesOf 8 (i + 1).toNat) false) = .ok xs)
    (hwant : want pb = true)
    (hgo : ∀ t p, Begins u t q i pb (u.engWrite (u.serveAgent q) xs).mem p → t.pkts = s.pkts →
      go { t.bump with pkts := s.pkts ++ [p] } p = ({ t.bump with pkts := s.pkts ++ [p] } : State).setFin p st 0) :
    (s.servePkt q want go).mem = (u.engWrite (u.serveAgent q) xs).mem ∧ (s.servePkt q want go).pkts = s.pkts ∧
      (s.servePkt q want go).tasks = s.tasks ∧ ∀ n, q = .slot n → ((s.servePkt q want go).slot n).rdidx = i + 1 := by
  have hserves := lookNext_serves hlook
  obtain ⟨t, p, hbegin, hp⟩ := beginPkt_begins hlook hwant hplace
  have hpkts : t.pkts = s.pkts := hp.serves.pkts.trans hserves.pkts
  have hwaits : t.engWaits = [] := (hp.serves.engWaits.trans hserves.engWaits).trans hidle
  have hnew : ∀ k ∈ s.pkts, k.id ≠ p.id := fun k hk => by
    have hlt := (hold k hk).2
    have hle := hp.serves.seq
    rw [hp.id]
    omega
  have hnone : s.pkts.filter (fun p => p.q == q && !p.live && want p.bytes) = [] :=
    List.filter_eq_nil_iff.mpr fun k hk => by simp [(hold k hk).1]
  have hquiet : bitOf (parsePkt p.bytes).flags 0 = false ∧ bitOf (parsePkt p.bytes).flags 2 = false := by
    rw [hp.bytes, show (parsePkt pb).flags = 0 from hflags]
    exact ⟨rfl, rfl⟩
  rw [hpkts] at hbegin
  have hend := hgo t p hp hpkts
  have hframe := setFin_frame (s := { t.bump with pkts := s.pkts ++ [p] }) (st := st) (code := 0) hp.fin hp.flagWr hquiet
  have hfiltered := setFin_pkts (s := { t.bump with pkts := s.pkts ++ [p] }) (st := st) (code := 0) hp.fin hp.flagWr hquiet
  have hmem := hp.mem
  have htasks := hp.serves.tasks.trans hserves.tasks
  have hrdidx := hp.rdidx
  rw [servePkt_begins hidle hnone hbegin hwaits rfl hnew hp.fin (by rw [hend]; exact (congrArg (fun x : State => x.engWaits) hframe :).trans hwaits),
    hend]
  refine ⟨(congrArg (fun x : State => x.mem) hframe :).trans hmem, hfiltered.trans ?_, (congrArg (fun x : State => x.tasks) hframe :).trans htasks,
    fun n hn => (congrArg (fun x : State => (x.slot n).rdidx) hframe :).trans (hrdidx n hn)⟩
  show (s.pkts ++ [p]).filter (fun k => k.id != p.id) = s.pkts
  rw [List.filter_append, List.filter_eq_self.mpr fun k hk => by simpa using hnew k hk]
  simp

/-- With no packet of its queue before it, a BARRIER has none to wait for. -/
theorem barrier_first {s u t : State} {q : QRef} {i : W64} {pb : List Byte} {m : List Host.Cell} {p : Pkt} (hp : Begins u t q i pb m p)
    (hserves : s.toSoc.Serves u.toSoc) (hnone : s.pktsOf q = []) (hold : ∀ k ∈ s.pkts, k.q ≠ q) :
    ({ t.bump with pkts := s.pkts ++ [p] } : State).earlier p = false := by
  refine List.any_eq_false.mpr fun k hk => ?_
  rcases List.mem_append.mp hk with hk | hk
  · have hother := List.filter_eq_nil_iff.mp hnone k hk
    have hqid := hp.qid
    cases q with
    | slot n =>
      have hsame : (t.slot n).qid = (s.slot n).qid := (hp.serves.qids n).trans (hserves.qids n)
      rw [State.qidOf, hsame] at hqid
      simpa [State.isOf, hqid] using fun _ => hother
    | cq c asid hdr =>
      rw [State.qidOf] at hqid
      simpa [hqid, hp.queue] using fun _ => hold k hk
  · obtain rfl := List.mem_singleton.mp hk
    simp

end Sys2Proof.Machine
end

section
/-! SUPPORT. O27: copies and launches that packets start (R112, R267 to R269, R274, R282, R375 to R377). -/

namespace Sys2Proof.Machine

open Sys2Proof

/-! ### Structures of packets (R112) -/

section
variable {g : Agent} (hg : ∀ id, g.who ≠ some (.op id))
include hg

theorem snapStruct_peeks {s t : State} {c : ClId} {cached : Bool} {va : W64} {n al : Nat} {bs : List Byte}
    (h : s.snapStruct c g cached va n al = (t, .ok bs)) : s.Peeks t := by
  unfold State.snapStruct at h
  split at h
  · cases h
  · split at h
    any_goals cases h
    rename_i u ps hread
    split at h
    · cases h
    · cases h
      exact snapRead_peeks hg hread

theorem snapFps_peeks {c : ClId} {list : W64} {k i : Nat} {s t : State} {fs : List Footprint}
    (h : State.snapFps c g list k i s = (t, .ok fs)) : s.Peeks t := by
  induction k generalizing i s fs with
  | zero =>
    cases h
    exact .refl _
  | succ k ih =>
    unfold State.snapFps at h
    extract_lets at_ at h
    split at h
    · cases h
    · rename_i hentry
      split at h
      · cases h
      · rename_i hmap
        split at h
        · cases h
        · rename_i hring
          extract_lets f at h
          split at h
          · cases h
          · rename_i hrest
            cases h
            exact (((snapStruct_peeks hg hentry).trans (snapStruct_peeks hg hmap)).trans (snapStruct_peeks hg hring)).trans (ih hrest)

theorem snapTask_peeks {s t : State} {c : ClId} {desc : W64} {i : SpawnInfo} (h : s.snapTask c g desc = (t, .ok i)) : s.Peeks t := by
  unfold State.snapTask at h
  split at h
  · cases h
  · rename_i hdesc
    extract_lets fw n at h
    split at h
    · cases h
    · rename_i hfps
      cases h
      exact (snapStruct_peeks hg hdesc).trans (snapFps_peeks hg hfps)

end

theorem pkt_noOp (p : Pkt) (id : Nat) : p.agent.who ≠ some (.op id) := fun h => Waiter.noConfusion (Option.some.inj h)

theorem pktMap_peeks {s t : State} {p : Pkt} {va : W64} {m : TMap} (h : s.pktMap p va = (t, .ok m)) : s.Peeks t := by
  unfold State.pktMap at h
  split at h
  · rename_i hread
    cases h
    exact snapStruct_peeks (pkt_noOp p) hread
  · cases h

/-! ### Queues at rest -/

/-- The engine does not look at the queue. -/
def State.rests (s : State) : QRef → Prop
  | .slot n => (s.slot n).awake = false
  | .cq c asid hdr => ∀ e ∈ (s.cluster c).kicked, e.1 = asid → e.2.1 ≠ hdr

theorem mayStart_rests {s : State} {q : QRef} (h : s.rests q) : s.mayStart q = false := by
  unfold State.mayStart
  cases q with
  | slot n =>
    have hawake : (s.slot n).awake = false := h
    dsimp only
    rw [hawake]
    simp
  | cq c asid hdr =>
    have hnone : (s.cluster c).kicked.any (fun e => e.1 == asid && e.2.1 == hdr) = false :=
      List.any_eq_false.mpr fun e he => by simpa using h e he
    dsimp only
    rw [hnone, Bool.false_and]

/-- t has the memory, the slots and the kicked queues of s, and the same engines wait. -/
structure State.Rides (s t : State) : Prop where
  mem : t.mem = s.mem
  engWaits : t.engWaits = s.engWaits
  slots : t.slots = s.slots
  kicked : ∀ c, (t.cluster c).kicked = (s.cluster c).kicked

section
variable {s t u : State} {p : Pkt} {q : QRef} {want : List Byte → Bool}

theorem State.Rides.trans (h : s.Rides t) (k : t.Rides u) : s.Rides u :=
  ⟨k.mem.trans h.mem, k.engWaits.trans h.engWaits, k.slots.trans h.slots, fun c => (k.kicked c).trans (h.kicked c)⟩

theorem State.Rides.modPkt (h : s.Rides t) (p : Pkt) (f : Pkt → Pkt) : s.Rides (t.modPkt p f) := ⟨h.mem, h.engWaits, h.slots, h.kicked⟩

theorem State.Peeks.rides (h : s.Peeks t) : s.Rides t :=
  ⟨h.mem, (congrArg (fun x : State => x.engWaits) h.eq :), (congrArg (fun x : State => x.slots) h.eq :),
    fun c => (congrArg (fun x : Cluster => x.kicked) (h.clusters c) :)⟩

theorem State.Peeks.pkts (h : s.Peeks t) : t.pkts = s.pkts := (congrArg (fun x : State => x.pkts) h.eq :)

theorem State.Rides.rests (h : s.Rides t) (hq : s.rests q) : t.rests q := by
  cases q with
  | slot n =>
    show (kget Slot.zero t.slots n).awake = false
    rw [h.slots]
    exact hq
  | cq c asid hdr =>
    show ∀ e ∈ (t.cluster c).kicked, _
    rw [h.kicked]
    exact hq

/-- The one packet of a queue at rest that waits is tried, and no other begins. -/
theorem servePkt_rests {go : State → Pkt → State} (hidle : s.engWaits = []) (hq : s.rests q)
    (hwaiting : s.pkts.filter (fun k => k.q == q && !k.live && want k.bytes) = [p]) (hfin : p.fin = none) (hgo : go s p = t)
    (h : s.Rides t) : s.servePkt q want go = t :=
  servePkt_tries hidle hwaiting hfin hgo (h.engWaits.trans hidle) (mayStart_rests (h.rests hq))

theorem mem_of_waiting (h : s.pkts.filter (fun k => k.q == q && !k.live && want k.bytes) = [p]) : p ∈ s.pkts ∧ p.q = q := by
  have hp : p ∈ s.pkts.filter (fun k => k.q == q && !k.live && want k.bytes) := h ▸ List.mem_singleton_self p
  obtain ⟨hmem, hwant⟩ := List.mem_filter.mp hp
  simp only [Bool.and_eq_true, beq_iff_eq] at hwant
  exact ⟨hmem, hwant.1.1⟩

end

/-- A packet that alone has its number is found by it. -/
theorem find?_pkt {ks : List Pkt} {p : Pkt} (hp : p ∈ ks) (hu : ∀ k ∈ ks, k.id = p.id → k = p) : ks.find? (fun k => k.id == p.id) = some p :=
  find?_unique hp (beq_self_eq_true p.id) fun k hk h => hu k hk (beq_iff_eq.mp h)

/-! ### Copies of packets (R267 to R269, R282) -/

/-- The operation of a packet's copy. -/
def Pkt.copyOp (p : Pkt) (id kind : Nat) (maps : List TMap) : EngOp :=
  { id := id, tg := none, task := 0, super := p.super, asid := p.asid, cl := p.cl, core := ⟨p.cl.die, p.cl.cl, 0⟩, tok := none,
    kind := .copy kind, pkt := p.bytes, pktAddr := p.addr, maps := maps, queue := some p.q, index := p.id, fault := none,
    mark := 0, started := true, handles := [], part := none, ended := none, flagWr := none, out := none, pc := 0, failed := false,
    words := ⟨[], []⟩ }

/-- A packet's copy starts with its lock, and the packet runs. -/
def State.runCopy (s : State) (p : Pkt) (kind : Nat) (maps : List TMap) (src dst : List (Nat × Nat)) : State :=
  let t := s.takeLock p.cl s.seq none p.asid src dst
  ({ t.bump with ops := t.ops ++ [p.copyOp s.seq kind maps] } : State).modPkt p (fun k => { k with live := true })

section
variable {s u u1 : State} {p : Pkt} {kind : Nat} {maps : List TMap} {src dst : List (Nat × Nat)} {ms md : TMap}

/-- What the start of a copy leaves, and what it adds. -/
theorem runCopy_starts (hfree : (s.cluster p.cl).freeLock.isSome = true) :
    (∃ o l, (s.runCopy p kind maps src dst).ops = s.ops ++ [o] ∧ o.kind = .copy kind ∧ o.pkt = p.bytes ∧ o.queue = some p.q ∧
        o.index = p.id ∧ o.maps = maps ∧ ((s.runCopy p kind maps src dst).cluster p.cl).locks = (s.cluster p.cl).locks ++ [l] ∧
        l.op = o.id ∧ l.dsts = boundRanges dst) ∧
      (s.runCopy p kind maps src dst).pkts = updFirst (fun k => k.id == p.id) (fun k => { k with live := true }) s.pkts ∧
      (s.runCopy p kind maps src dst).tasks = s.tasks ∧ s.Rides (s.runCopy p kind maps src dst) := by
  have hframe := takeLock_frame s p.cl s.seq none p.asid src dst
  have hlocks := takeLock_locks hfree s.seq none p.asid src dst
  have hkicked := fun c => congrArg Cluster.kicked (takeLock_cluster s p.cl c s.seq none p.asid src dst)
  unfold State.runCopy
  generalize s.takeLock p.cl s.seq none p.asid src dst = t at *
  have hops : t.ops = s.ops := (congrArg (fun x : State => x.ops) hframe :)
  have hpkts : t.pkts = s.pkts := (congrArg (fun x : State => x.pkts) hframe :)
  exact ⟨⟨p.copyOp s.seq kind maps, _, congrArg (· ++ [_]) hops, rfl, rfl, rfl, rfl, rfl, hlocks, rfl, rfl⟩,
    congrArg (updFirst _ _) hpkts, (congrArg (fun x : State => x.tasks) hframe :), (congrArg (fun x : State => x.mem) hframe :),
    (congrArg (fun x : State => x.engWaits) hframe :), (congrArg (fun x : State => x.slots) hframe :), hkicked⟩

/-- A fill of regions that are well formed, with a lock free. -/
theorem startCopy_fill (hd : s.pktMap p (parsePkt p.bytes).dst = (u1, .ok md)) (hok : copyOk 4 (parsePkt p.bytes) none (some md) = true)
    (hfree : (u1.cluster p.cl).freeLock.isSome = true) :
    s.startCopy 4 p = u1.runCopy p 4 [md] [] (md.ranges (parsePkt p.bytes).do_ (parsePkt p.bytes).ext) := by
  unfold State.startCopy
  dsimp only
  rw [if_pos rfl, hd]
  dsimp only
  rw [if_pos hok, if_neg (by simpa using Option.isSome_iff_ne_none.mp hfree)]
  rfl

/-- A copy of regions that are well formed, with a lock free. -/
theorem startCopy_copy (hk : kind ≠ 4) (hs : s.pktMap p (parsePkt p.bytes).src = (u, .ok ms))
    (hd : u.pktMap p (parsePkt p.bytes).dst = (u1, .ok md)) (hok : copyOk kind (parsePkt p.bytes) (some ms) (some md) = true)
    (hfree : (u1.cluster p.cl).freeLock.isSome = true) :
    s.startCopy kind p = u1.runCopy p kind [ms, md] (ms.lockRanges (parsePkt p.bytes).so (parsePkt p.bytes).ext)
      (md.ranges (parsePkt p.bytes).do_ ((parsePkt p.bytes).dext kind)) := by
  unfold State.startCopy
  dsimp only
  rw [if_neg hk, hs]
  dsimp only
  rw [hd]
  dsimp only
  rw [if_pos hok, if_neg (by simpa using Option.isSome_iff_ne_none.mp hfree)]
  rfl

/-- A packet that waits at a queue at rest, and whose engine starts a copy. -/
theorem servePkt_copies {q : QRef} {want : List Byte → Bool} {go : State → Pkt → State} (hidle : s.engWaits = []) (hq : s.rests q)
    (hwaiting : s.pkts.filter (fun k => k.q == q && !k.live && want k.bytes) = [p]) (hfin : p.fin = none)
    (hu : ∀ k ∈ s.pkts, k.id = p.id → k = p) (hpeeks : s.Peeks u1) (hgo : go s p = u1.runCopy p kind maps src dst)
    (hfree : (u1.cluster p.cl).freeLock.isSome = true) :
    ∃ r o l, s.servePkt q want go = r ∧ r.ops = u1.ops ++ [o] ∧ o.kind = .copy kind ∧ o.pkt = p.bytes ∧ o.queue = some q ∧ o.index = p.id ∧
      o.maps = maps ∧ (r.cluster p.cl).locks = (u1.cluster p.cl).locks ++ [l] ∧ l.op = o.id ∧ l.dsts = boundRanges dst ∧
      { p with live := true } ∈ r.pkts ∧ r.mem = s.mem ∧ r.tasks = s.tasks := by
  obtain ⟨⟨o, l, hops, hkind, hpkt, hqueue, hindex, hmaps, hlocks, hlop, hdsts⟩, hpkts, htasks, hrides⟩ :=
    runCopy_starts (kind := kind) (maps := maps) (src := src) (dst := dst) hfree
  obtain ⟨hp, rfl⟩ := mem_of_waiting hwaiting
  have hall := hpeeks.rides.trans hrides
  refine ⟨_, o, l, servePkt_rests hidle hq hwaiting hfin hgo hall, hops, hkind, hpkt, hqueue, hindex, hmaps, hlocks, hlop, hdsts, ?_,
    hall.mem, htasks.trans (congrArg (fun x : State => x.tasks) hpeeks.eq :)⟩
  rw [hpkts, hpeeks.pkts]
  exact List.mem_of_find?_eq_some (find?_updFirst (f := fun k : Pkt => { k with live := true }) (find?_pkt hp hu) (beq_self_eq_true p.id))

end

/-! ### Launches (R375 to R377) -/

/-- The descriptor of a launch, whose task goes to the die of its packet unless the task names a cluster. -/
def SpawnInfo.placed (i : SpawnInfo) : SpawnInfo := { i with flag := if fwPlace i.flag = 0 then i.flag + 64 else i.flag }

theorem toNat_add_place {f : W64} (h : fwPlace f = 0) : (f + 64).toNat = f.toNat + 64 := by
  have hf := f.isLt
  have hplace : f.toNat / 2 ^ 6 % 2 ^ 2 = 0 := h
  rw [BitVec.toNat_add]
  show (f.toNat + 64) % 2 ^ 64 = _
  omega

theorem SpawnInfo.placed_prio (i : SpawnInfo) : fwPrio i.placed.flag = fwPrio i.flag := by
  unfold SpawnInfo.placed
  dsimp only
  split
  next h =>
    refine congrArg (Fin.ofNat 4) ?_
    show (i.flag + 64).toNat / 2 ^ 2 % 2 ^ 2 = i.flag.toNat / 2 ^ 2 % 2 ^ 2
    rw [toNat_add_place h]
    omega
  next => rfl

theorem SpawnInfo.placed_scope (i : SpawnInfo) : fwScope i.placed.flag = fwScope i.flag := by
  unfold SpawnInfo.placed
  dsimp only
  split
  next h =>
    have hplace : i.flag.toNat / 2 ^ 6 % 2 ^ 2 = 0 := h
    show (i.flag + 64).toNat / 2 ^ 24 % 2 ^ 8 = i.flag.toNat / 2 ^ 24 % 2 ^ 8
    rw [toNat_add_place h]
    omega
  next => rfl

section
variable {s u : State} {p : Pkt} {i : SpawnInfo} {slot gen : Nat}

/-- Who launches a packet's task. -/
def Pkt.by (p : Pkt) (i : SpawnInfo) : SpawnBy :=
  { asid := p.asid, det := fwDet i.placed.flag, own := max (fwPrio i.placed.flag) p.cls, lmask := (parseLaunch p.bytes).lmask,
    launchx := (parseLaunch p.bytes).launchx, lineage := p.qid.map (fun q => ⟨q, p.index⟩), core := ⟨p.cl.die, 0, 0⟩, spawner := 0 }

/-- A launch whose checks pass, with no image and no packet of its own to wait for. -/
theorem launch_spawns (hfut : p.fut = 0) (hinfo : p.info = none) (hok : (parseLaunch p.bytes).ok = true)
    (himg : (parseLaunch p.bytes).cwimg = 0) (hsnap : s.snapTask p.cl p.agent (parseLaunch p.bytes).tdesc = (u, .ok i))
    (hgood : i.bad u.mode ⟨p.cl.die, 0⟩ false = none) (hopen : (u.scope p.asid (fwScope i.flag)).st = .open_) :
    s.launch p = u.launchSpawn p i := by
  unfold State.launch
  dsimp only
  rw [if_neg (fun h => h hfut), hinfo]
  dsimp only
  rw [hok, if_neg (by decide), hsnap]
  dsimp only
  rw [hgood]
  dsimp only
  rw [if_neg (fun h => h hopen), if_pos himg]

/-- A launch with an entry free and no address for its future: the task is enqueued and the packet holds its future. -/
theorem launchSpawn_enqueues (hplace : fwPlace i.flag ≠ 2) (hfree : u.freeEntry ⟨p.cl.die, 0⟩ false = some (slot, gen))
    (hout : (parseLaunch p.bytes).futout = 0) :
    u.launchSpawn p i =
      let r := u.enqueue i.placed (p.by i) ⟨p.cl.die, 0⟩ ⟨p.cl.die, 0⟩ slot gen none
      let k := { p with
        fut := r.2
        info := none }
      (r.1.modPkt p (fun _ => k)).modPkt k (fun k => { k with live := true }) := by
  have htable : launchTable p i = ⟨p.cl.die, 0⟩ := if_neg hplace
  unfold State.launchSpawn
  dsimp only
  rw [htable, hfree]
  dsimp only
  unfold State.storeFutout State.futoutStore
  dsimp only
  rw [if_pos hout]
  rfl

/-- An entry taken leaves memory, packets and queues. -/
theorem newFut_rides (s : State) (c : ClId) (slot gen : Nat) (f : W64 → Fut) : s.Rides (s.newFut c slot gen f).1 :=
  ⟨rfl, rfl, rfl, fun d => by
    refine (congrArg Cluster.kicked (cluster_modCluster { s.bump with futs := s.futs ++ [f (mkHandle s.devid c slot gen)] } c d
      fun k => { k with gens := kset slot gen k.gens })).trans ?_
    split
    next h =>
      rw [h]
      rfl
    next => rfl⟩

theorem enqueue_rides {b : SpawnBy} {table queue : ClId} {other : Option Nat} (ho : (s.scope b.asid (fwScope i.flag)).st = .open_) :
    s.Rides (s.enqueue i b table queue slot gen other).1 ∧ (s.enqueue i b table queue slot gen other).1.pkts = s.pkts := by
  have hrides := newFut_rides s table slot gen fun h => Fut.new h b.asid .queued (some (fwScope i.flag)) b.lineage s.seq
  unfold State.enqueue
  dsimp only
  rw [if_pos ho]
  exact ⟨⟨hrides.mem, hrides.engWaits, hrides.slots, hrides.kicked⟩, rfl⟩

end

end Sys2Proof.Machine
end

section
/-! O27: packets that begin, end or start what they name (R267 to R269, R271, R274, R374 to R377). -/

namespace Sys2Proof.Machine

open Sys2Proof

/-- The kinds that a queue refuses, with no flag. -/
theorem unknownKind_refuses {q : QRef} {pb : List Byte} (hok : pktOk pb = true)
    (h : fieldAt pb 0 2 = 5 ∨ fieldAt pb 0 2 = 6 ∨ fieldAt pb 0 2 = 7 ∨ 10 < fieldAt pb 0 2 ∨ (fieldAt pb 0 2 = 8 ∧ ∀ n, q ≠ .slot n)) :
    unknownKind q pb = true := by
  have hkinds : [0, 1, 2, 3, 4, 9, 10].contains (fieldAt pb 0 2) = false := by
    rw [List.contains_eq_mem, decide_eq_false_iff_not]
    simp only [List.mem_cons, List.not_mem_nil, or_false]
    omega
  unfold unknownKind
  dsimp only
  rw [hok, hkinds]
  cases q with
  | slot n =>
    have hlaunch : fieldAt pb 0 2 ≠ 8 := fun h8 => by
      rcases h with h | h | h | h | ⟨-, h⟩
      any_goals omega
      exact h n rfl
    simpa using hlaunch
  | cq c asid hdr => rfl

section
variable {s u u1 : State} {q : QRef} {p : Pkt}

/-- Of kinds that need nothing but their turn, each is accepted by its form, and ends when it begins. -/
theorem exec_quick {i : W64} {hdr : QHdr} {pb : List Byte} {xs : List (Nat × BW)} (hidle : s.engWaits = []) (hnone : s.pktsOf q = [])
    (hlook : s.lookNext q = (u, some (i, hdr, pb))) (hold : ∀ k ∈ s.pkts, k.q ≠ q ∧ k.id < u.seq) (hflags : fieldAt pb 2 2 = 0)
    (hplace : u.placeWrites (u.serveAgent q) (bytesWrite ((QRef.hdr u q).toNat + 8) (bytesOf 8 (i + 1).toNat) false) = .ok xs)
    {c : Instr × Prop} (hc : c ∈ ([(.nopPacket q, fieldAt pb 0 2 = 0), (.signal q, fieldAt pb 0 2 = 10), (.barrier q, fieldAt pb 0 2 = 9),
      (.unknownKind q, fieldAt pb 0 2 = 5 ∨ fieldAt pb 0 2 = 6 ∨ fieldAt pb 0 2 = 7 ∨ 10 < fieldAt pb 0 2 ∨
        (fieldAt pb 0 2 = 8 ∧ ∀ n, q ≠ .slot n))] : List (Instr × Prop))) (h : c.2) :
    ∃ r, exec c.1 s = .next r ∧ r.mem = (u.engWrite (u.serveAgent q) xs).mem ∧ r.pkts = s.pkts ∧ r.tasks = s.tasks ∧
      ∀ n, q = .slot n → (r.slot n).rdidx = i + 1 := by
  have hok : pktOk pb = true := by rw [pktOk, hflags]; rfl
  have hkind {k : Nat} (h : fieldAt pb 0 2 = k) : isKind k pb = true := by rw [isKind, h, hok, beq_self_eq_true]; rfl
  simp only [List.mem_cons, List.not_mem_nil, or_false] at hc
  rcases hc with rfl | rfl | rfl | rfl
  · exact ⟨_, exec_nopPacket q s, servePkt_ends hidle hlook hold hflags hplace (hkind h) fun _ _ _ _ => rfl⟩
  · exact ⟨_, exec_signal q s, servePkt_ends hidle hlook hold hflags hplace (hkind h) fun _ _ _ _ => rfl⟩
  · refine ⟨_, exec_barrier q s, servePkt_ends hidle hlook hold hflags hplace (hkind h) fun t p hp _ => if_neg ?_⟩
    rw [barrier_first hp (lookNext_serves hlook) hnone fun k hk => (hold k hk).1]
    exact Bool.false_ne_true
  · exact ⟨_, exec_unknownKind q s, servePkt_ends hidle hlook hold hflags hplace (unknownKind_refuses hok h) fun _ _ _ _ => rfl⟩

/-- A copy or a fill of regions that are well formed starts with its lock. -/
theorem exec_copies {ms md : TMap} (hidle : s.engWaits = []) (hq : s.rests q) {c : Instr × Nat}
    (hc : c ∈ ([(.copy q, 1), (.copyTranspose q, 2), (.copyRedither q, 3), (.fill q, 4)] : List (Instr × Nat)))
    (hwaiting : s.pkts.filter (fun k => k.q == q && !k.live && isKind c.2 k.bytes) = [p]) (hfin : p.fin = none)
    (hu : ∀ k ∈ s.pkts, k.id = p.id → k = p)
    (hsrc : if c.2 = 4 then u = s else s.pktMap p (parsePkt p.bytes).src = (u, .ok ms))
    (hdst : u.pktMap p (parsePkt p.bytes).dst = (u1, .ok md))
    (hok : copyOk c.2 (parsePkt p.bytes) (if c.2 = 4 then none else some ms) (some md) = true)
    (hfree : (u1.cluster p.cl).freeLock.isSome = true) :
    ∃ r o l, exec c.1 s = .next r ∧ r.ops = u1.ops ++ [o] ∧ o.kind = .copy c.2 ∧ o.pkt = p.bytes ∧ o.queue = some q ∧ o.index = p.id ∧
      o.maps = (if c.2 = 4 then [md] else [ms, md]) ∧ (r.cluster p.cl).locks = (u1.cluster p.cl).locks ++ [l] ∧ l.op = o.id ∧
      l.dsts = boundRanges (md.ranges (parsePkt p.bytes).do_ ((parsePkt p.bytes).dext c.2)) ∧ { p with live := true } ∈ r.pkts ∧
      r.mem = s.mem ∧ r.tasks = s.tasks := by
  have hexec : exec c.1 s = .next (s.servePkt q (isKind c.2) (State.startCopy c.2)) := by
    simp only [List.mem_cons, List.not_mem_nil, or_false] at hc
    rcases hc with rfl | rfl | rfl | rfl
    · exact exec_copy q s
    · exact exec_copyTranspose q s
    · exact exec_copyRedither q s
    · exact exec_fill q s
  obtain ⟨i, kind⟩ := c
  dsimp only at *
  by_cases hk : kind = 4
  · subst hk
    rw [if_pos rfl] at hsrc hok ⊢
    subst hsrc
    obtain ⟨r, o, l, hr, h⟩ := servePkt_copies hidle hq hwaiting hfin hu (pktMap_peeks hdst) (startCopy_fill hdst hok hfree) hfree
    exact ⟨r, o, l, hexec.trans (congrArg Host.Outcome.next hr), h⟩
  · rw [if_neg hk] at hsrc hok ⊢
    obtain ⟨r, o, l, hr, h⟩ := servePkt_copies hidle hq hwaiting hfin hu ((pktMap_peeks hsrc).trans (pktMap_peeks hdst))
      (startCopy_copy hk hsrc hdst hok hfree) hfree
    exact ⟨r, o, l, hexec.trans (congrArg Host.Outcome.next hr), h⟩

/-- A launch whose checks pass makes its task, and the packet holds the task's future. -/
theorem exec_launches {i : SpawnInfo} {slot gen : Nat} (hidle : s.engWaits = []) (hq : s.rests q)
    (hwaiting : s.pkts.filter (fun k => k.q == q && !k.live && launchWant q k.bytes) = [p]) (hfin : p.fin = none) (hinfo : p.info = none)
    (hu : ∀ k ∈ s.pkts, k.id = p.id → k = p) (hfut : p.fut = 0) (hok : (parseLaunch p.bytes).ok = true)
    (himg : (parseLaunch p.bytes).cwimg = 0) (hout : (parseLaunch p.bytes).futout = 0)
    (hsnap : s.snapTask p.cl p.agent (parseLaunch p.bytes).tdesc = (u, .ok i)) (hgood : i.bad s.mode ⟨p.cl.die, 0⟩ false = none)
    (hopen : (u.scope p.asid (fwScope i.flag)).st = .open_) (hplace : fwPlace i.flag ≠ 2)
    (hfree : u.freeEntry ⟨p.cl.die, 0⟩ false = some (slot, gen)) :
    ∃ r f k, exec (.launch q) s = .next r ∧ r.futs = u.futs ++ [f] ∧ f.h = mkHandle s.devid ⟨p.cl.die, 0⟩ slot gen ∧ f.st = .queued ∧
      f.asid = p.asid ∧ r.tasks = u.tasks ++ [k] ∧ k.handle = mkHandle s.devid ⟨p.cl.die, 0⟩ slot gen ∧ k.entry = i.entry ∧
      k.args = i.args ∧ k.lmask = (parseLaunch p.bytes).lmask ∧ k.launchx = (parseLaunch p.bytes).launchx ∧ k.queue = ⟨p.cl.die, 0⟩ ∧
      k.own = max (fwPrio i.flag) p.cls ∧ k.super = false ∧ k.lineage = p.qid.map (fun n => ⟨n, p.index⟩) ∧
      { p with
        live := true
        fut := mkHandle s.devid ⟨p.cl.die, 0⟩ slot gen } ∈ r.pkts ∧ r.mem = s.mem := by
  have hpeeks := snapTask_peeks (pkt_noOp p) hsnap
  have hdev : u.devid = s.devid := (congrArg (fun x : State => x.devid) hpeeks.eq :)
  have ho : (u.scope (p.by i).asid (fwScope i.placed.flag)).st = .open_ := by
    rw [i.placed_scope]
    exact hopen
  obtain ⟨hp, -⟩ := mem_of_waiting hwaiting
  obtain ⟨t, n, henq, -, -, hfuts, htasks, -⟩ := enqueue_open ⟨p.cl.die, 0⟩ ⟨p.cl.die, 0⟩ slot gen none ho
  obtain ⟨hrides, hpkts⟩ := enqueue_rides (table := ⟨p.cl.die, 0⟩) (queue := ⟨p.cl.die, 0⟩) (slot := slot) (gen := gen) (other := none) ho
  have hrun := (launch_spawns hfut hinfo hok himg hsnap (by rw [hpeeks.mode]; exact hgood) hopen).trans (launchSpawn_enqueues hplace hfree hout)
  dsimp only at hrun henq hrides hpkts
  rw [henq] at hrun hrides hpkts
  rw [hdev] at hrun hfuts htasks
  have hserve := servePkt_rests hidle hq hwaiting hfin hrun (((hpeeks.rides.trans hrides).modPkt ..).modPkt ..)
  refine ⟨_, _, _, (exec_launch q s).trans (congrArg Host.Outcome.next hserve), hfuts, rfl, rfl, rfl, htasks, rfl, rfl, rfl, rfl, rfl, rfl,
    congrArg (max · p.cls) i.placed_prio, rfl, rfl, ?_, (hpeeks.rides.trans hrides).mem⟩
  have hfound : t.pkts.find? (fun k => k.id == p.id) = some p := by
    rw [hpkts, hpeeks.pkts]
    exact find?_pkt hp hu
  have hset := find?_updFirst (f := fun _ => ({ p with
    fut := mkHandle s.devid ⟨p.cl.die, 0⟩ slot gen
    info := none } : Pkt)) hfound (beq_self_eq_true p.id)
  have hlive := List.mem_of_find?_eq_some (find?_updFirst (f := fun k : Pkt => { k with live := true }) hset (beq_self_eq_true p.id))
  have hsame := congrArg (fun x : Option SpawnInfo => ({ p with
    live := true
    fut := mkHandle s.devid ⟨p.cl.die, 0⟩ slot gen
    info := x } : Pkt)) hinfo
  exact hsame ▸ hlive

/-- The packet of a resolved launch, with no flag, no event and no address for its future, ends. -/
theorem exec_launched {v : W64} (hidle : s.engWaits = []) (hfound : s.pkts.find? (fun k => k.fut == p.fut && k.live) = some p)
    (hfin : p.fin = none) (hwr : p.flagWr = none) (hvalue : p.outcome = some (.value v false)) (hout : (parseLaunch p.bytes).futout = 0)
    (hquiet : bitOf (parsePkt p.bytes).flags 0 = false ∧ bitOf (parsePkt p.bytes).flags 2 = false) :
    exec (.launchComplete p.fut) s = .next (s.setFin p 0 0) := by
  have hdone : s.launchDone p = s.setFin p 0 0 := by
    unfold State.launchDone
    rw [hfin, hvalue]
    exact if_pos hout
  have hwaits : (s.setFin p 0 0).engWaits = [] :=
    (congrArg (fun x : State => x.engWaits) (setFin_frame (s := s) (st := 0) (code := 0) hfin hwr hquiet) :).trans hidle
  rw [exec_launchComplete, execLaunchComplete, hfound]
  exact congrArg Host.Outcome.next ((attempt_idle (f := fun s => s.launchDone p) hidle (by rw [hdone]; exact hwaits)).trans hdone)

end

/-- Settles O27: a packet that has begun, at a queue at rest, is the only one tried (`servePkt_rests`), and one at RDIDX that needs nothing
but its turn ends when it begins (`servePkt_ends`). -/
theorem queuePacketResult : Obligations.QueuePacketResult := by
  intro s u u1 q i hdr pb xs p ms md li slot gen v hidle fresh quietFlags rests waits
  refine ⟨fun hnone hlook hold hflags hplace c hc h => exec_quick hidle hnone hlook hold hflags hplace hc h, ?_, ?_, ?_⟩
  · rintro hq c hc hwaiting ⟨hfin, -, -, hu⟩ hsrc hdst hok hfree
    exact exec_copies hidle hq hc hwaiting hfin hu hsrc hdst hok hfree
  · rintro hq hwaiting ⟨hfin, -, hinfo, hu⟩ hfut l home h hok himg hout hsnap hgood hopen hplace hfree
    exact exec_launches hidle hq hwaiting hfin hinfo hu hfut hok himg hout hsnap hgood hopen hplace hfree
  · rintro hfound ⟨hfin, hwr, -, -⟩ hvalue hout hquiet
    have hframe := setFin_frame (s := s) (st := 0) (code := 0) hfin hwr hquiet
    exact ⟨_, exec_launched hidle hfound hfin hwr hvalue hout hquiet, setFin_pkts hfin hwr hquiet, (congrArg (fun x : State => x.mem) hframe :),
      (congrArg (fun x : State => x.tasks) hframe :), (congrArg (fun x : State => x.futs) hframe :)⟩

end Sys2Proof.Machine
end
